-- ==== Sys2Proof/Word.lean ====
section
/-! DEFINITION. The byte and the few fixed word widths the spec names (R10, R11). -/

namespace Sys2Proof

/-- One byte of memory (R11). -/
abbrev Byte := BitVec 8

/-- A 32-bit register or tag. -/
abbrev W32 := BitVec 32

/-- A 64-bit register or counter (R515). -/
abbrev W64 := BitVec 64

end Sys2Proof
end

