-- ==== Sys2Proof/Syntax.lean ====
section
/-! DEFINITION. The commands and events of spec/opcode_table.json, one constructor per row. A command of a packet
carries the queue it stands at the head of (0 to 7 on port A, 8 to 15 on port B) and its parameter fields in the order
of its row in spec file 17 (R441); a record field is one number whose bit 0 is the record's bit 0. An event carries
the unit it happens in and what the outside world decides of it: a pin or sensor reading, a signature's outcome, or `flips`, the
flaws that its transfers meet. A flaw is an address with a kind in bits 48 on: 0 the stored byte has lost its parity, or in GDDR7 the
DRAM reports an uncorrected error; 1 the GDDR7 code of the transfer does not match; 2 the CRC of the die-to-die flit fails; 3 a byte of
the control processors' memory has lost its parity (R138 to R143). -/

namespace Sys2Proof

/-- One constructor per row of the table. -/
inductive Instr where
  | nop (q : Nat)
  | identify (q : Nat)
  | getStatus (q : Nat)
  | readFaultLog (q dest : Nat)
  | reset (q : Nat)
  | resetExecute
  | gpioClaim (q pin : Nat)
  | gpioRelease (q pin : Nat)
  | gpioSet (q pin mode value alt : Nat)
  | fence (q : Nat)
  | fill (q dest len value : Nat)
  | writeInline (q dest : Nat) (data : List Byte)
  | poolCreate (q pod pool frameBytes base frames : Nat)
  | poolDestroy (q pod pool : Nat)
  | seqCreate (q pod pool table entries ringPages : Nat)
  | seqDestroy (q pod table : Nat)
  | pageAlloc (q pod table entry lpage : Nat)
  | pageShare (q pod srcTable srcEntry dstTable dstEntry : Nat)
  | pageFree (q pod table entry : Nat)
  | planLoad (q src len : Nat)
  | planUnload (q plan : Nat)
  | runStep (q plan step : Nat)
  | stepAbort (q plan : Nat)
  | waitingStepStart (plan : Nat)
  | stepComplete (plan : Nat)
  | streamOpen (q record : Nat)
  | streamClose (q stream : Nat)
  | ingestConfig (q profile : Nat) (dests : List Nat)
  | ingestRing (q ring kind log2 entryBase compBase batchBase handoffBase : Nat)
  | ingestDoorbell (q ring tail : Nat)
  | ingestRingClose (q ring : Nat)
  | tableLoad (q kind src len : Nat)
  | ingestReport (q dest : Nat)
  | runConfig (q plan run : Nat)
  | groupWrite (q plan group step record : Nat)
  | stateLoad (q plan src len : Nat)
  | stateSave (q plan dest len : Nat)
  | domainOn (q id : Nat)
  | domainOff (q id : Nat)
  | domainAuto (q id : Nat)
  | setEnergyBudget (q record : Nat)
  | ageingReport (q dest : Nat)
  | cadenceConfig (q cad lock sched : Nat)
  | eventSet (q slot : Nat)
  | eventClear (q slot : Nat)
  | timerClaim (q timer periodic interval slot : Nat)
  | timerRelease (q timer : Nat)
  | latchSetDefine (q set : Nat) (counters : List Nat)
  | traceArm (q buffer sources dest len : Nat)
  | traceStop (q buffer : Nat)
  | dumpTensor (q plan symbol step dest len : Nat)
  | readTileCounter (q pod counter : Nat)
  | fwUpdate (q image src len : Nat) (verifies : Bool)
  | fwSelect (q image : Nat) (verifies : Bool)
  | lifecycle (q target cred credLen : Nat) (verifies : Bool) (seed key : Nat)
  | lifecycleRestart
  | attest (q nonce dest len : Nat) (signature : List Byte)
  | channelClaim (q resource : Nat)
  | channelRelease (q resource : Nat)
  | encOpen (q config : Nat)
  | encSubmit (q session forceIdr picture pts : Nat)
  | encConfig (q session config : Nat)
  | encClose (q session : Nat)
  | registerWrite (port offset size value : Nat)
  | misalignedWindowAccess (port : Nat) (write : Bool) (offset size : Nat)
  | cqTail (port queue value : Nat)
  | queueEnable (port queue : Nat)
  | qReset (port queue : Nat)
  | queueDrained (q : Nat)
  | packetFetch (q : Nat) (fetchFails : Bool)
  | irqHoldoffEnd (q : Nat)
  | semAcquire (port n : Nat) (low : Bool)
  | semRelease (port n : Nat)
  | beatNowRead (port : Nat)
  | deviceTimeRead (port half : Nat)
  | linkTrained (port width rate : Nat)
  | linkRetrain (port corrected replayed : Nat)
  | portReset (port : Nat)
  | ptpSyncRecord (port ptpTime : Nat)
  | ptpSyncTimeout
  | resetNAssert
  | resetNRelease
  | firmwareVerified (statusA statusB : Nat)
  | d2dTrained (ok : Bool)
  | gddr7Trained (ok : Bool)
  | selfTestDone (failed : Nat) (othersPass : Bool)
  | startWipeDone (ok : Bool)
  | startStageTimeout
  | huskRestart
  | attestTreeDone
  | jtagInstruction (ir : Nat)
  | smbusBlockRead (code : Nat)
  | smbusAlertResponse
  | powerBrakeAssert
  | powerBrakeRelease
  | sensorReading (temps : List Int)
  | railSample (readings : List (Nat × Nat)) (podFixed : Nat)
  | fastLimit (rail : Nat)
  | fastLimitStop (rail : Nat)
  | fastLimitRestore (rail : Nat)
  | railVoltageReached (rail : Nat)
  | avsVoltageTimeout (rail : Nat)
  | avsbusRetry (rail : Nat) (ok : Bool)
  | budgetCheckpoint
  | telemetrySnapshot
  | idleOffExpiry (domain : Nat)
  | ageingReading (domain stressed reference : Nat)
  | domainPoweredUp (domain : Nat)
  | domainDrained (domain : Nat)
  | wipeDone (domain : Nat)
  | powerDownDone (domain : Nat)
  | offDwellEnd (domain : Nat)
  | beatStart
  | cadenceInEdge (highNs : Nat)
  | refWindowEnd
  | cadenceOutPulse
  | pulseWidthEnd (pin : Nat)
  | eventSlotFire (slot : Nat)
  | schedulerTimerFire (timer : Nat)
  | liveTaskStart (stream : Nat)
  | contextSaveDone (core : Nat)
  | quantumExpiry (core : Nat)
  | liveTaskComplete (stream : Nat)
  | contextRestoreDone (core : Nat)
  | liveDeadline (stream : Nat)
  | descriptorIssue (core : Nat) (flips : List Nat)
  | matmulComplete (core engine : Nat) (flips : List Nat)
  | convComplete (core engine : Nat) (flips : List Nat)
  | combineComplete (core engine : Nat) (flips : List Nat)
  | vectorComplete (core : Nat) (flips : List Nat)
  | attentionComplete (core : Nat) (flips : List Nat)
  | moveComplete (core : Nat) (flips : List Nat)
  | moveArrival (core : Nat)
  | counterArm (pod counter : Nat)
  | tileClaim (core : Nat)
  | tileCompletion (core : Nat)
  | reissueTimeout (pod counter index : Nat)
  | pageArrival (src : Nat) (flips : List Nat)
  | gradientChunkArrival (pod : Nat) (flips : List Nat)
  | updatePassComplete (unit : Nat) (flips : List Nat)
  | stageBlockArrival (flips : List Nat)
  | writebackArrival (block : Nat) (flips : List Nat)
  | multicastArrival (pod layer : Nat) (flips : List Nat)
  | hullerJobTake (ring : Nat)
  | hullerJobStart (block : Nat)
  | hullerLivePreempt (block : Nat)
  | hullerJobComplete (block : Nat) (flips : List Nat) (ctxBad : Bool)
  | sampleTake (ring : Nat)
  | shaperPicture
  | sampleBudgetExpiry (ordinal : Nat)
  | batchDeadline (batch : Nat)
  | batchReady (batch : Nat)
  | liveInputReady (stream : Nat)
  | encPictureStart
  | encRowCoded
  | encSliceWrite
  | encRingWaitLimit
  | encPictureDone
  | channelTail (port channel value : Nat)
  | channelStart (port channel : Nat)
  | channelPause (port channel : Nat)
  | channelResume (port channel : Nat)
  | channelRetry (port channel : Nat)
  | channelSkip (port channel : Nat)
  | channelReset (port channel : Nat)
  | channelQuiesced (channel : Nat)
  | moverBurst (engine : Nat) (flips : List Nat)
  | descriptorWriteBack (channel : Nat)
  | moverFenceDone (channel : Nat)
  | moverFault (channel status addr : Nat)
  | hostTransferTimeout (channel : Nat)
  | traceRecord (die : Nat)
  | traceRecordWrite
  | dumpRead (flips : List Nat)
  | latchEnd (cmd : Nat)
  | stopPointReached (core engine tiles : Nat) (flips : List Nat)
  | planLoadDone (plan : Nat)
  | tableLoadDone (kind num : Nat)
  | stateLoadDone (plan : Nat) (flips : List Nat)
  | stateSaveDone (plan : Nat) (flips : List Nat)
  | fwUpdateDone (matches_ : Bool)
  | vddAonRise
  deriving DecidableEq, Repr

end Sys2Proof
end

