-- ==== Sys2Proof/Decode.lean ====
section
/-! DEFINITION. The table gives no row a bit pattern, so no word spells a command. -/

namespace Sys2Proof

/-- The command that a word spells by the table's bits: none, since no row of the table gives bits. -/
def decodeTableWord (_nbits _w : Nat) : Option Instr := none

end Sys2Proof
end

