-- ==== Sys2Proof/Machine/Bits.lean ====
section
/-! DEFINITION. Bit fields, byte order and integer helpers (R10, R11, R17): every structure of the spec is
read as one number whose bit 0 is the least significant bit of byte 0. -/

namespace Sys2Proof.Machine

/-- The field of width `w` whose least significant bit is bit `lo` (R10). -/
def bits (x lo w : Nat) : Nat := (x >>> lo) % 2 ^ w

/-- Bit `i` of a structure. -/
def bit (x i : Nat) : Bool := x.testBit i

/-- A field read as a two's-complement integer. -/
def sbits (x lo w : Nat) : Int :=
  let v := bits x lo w
  if v < 2 ^ (w - 1) then v else (v : Int) - 2 ^ w

/-- `x` with the field at `lo` of width `w` replaced by the low `w` bits of `v`. -/
def setBits (x lo w v : Nat) : Nat :=
  x - (bits x lo w <<< lo) + ((v % 2 ^ w) <<< lo)

/-- Two's-complement code of an integer in `w` bits. -/
def ofInt (w : Nat) (v : Int) : Nat := (v % (2 ^ w : Int)).toNat

/-- Bytes read as a little-endian number (R11). -/
def leNat : List Byte → Nat
  | [] => 0
  | b :: bs => b.toNat + 256 * leNat bs

/-- The low `n` bytes of a number, least significant first (R11). -/
def leBytes : Nat → Nat → List Byte
  | 0, _ => []
  | n + 1, x => BitVec.ofNat 8 x :: leBytes n (x / 256)

/-- A structure built from (width, value) fields placed back to back from bit 0. -/
def packBits : List (Nat × Nat) → Nat
  | [] => 0
  | (w, v) :: fs => v % 2 ^ w + 2 ^ w * packBits fs

/-- ceil(a / b). -/
def ceilDiv (a b : Nat) : Nat := (a + b - 1) / b

/-- `a` rounded up to a multiple of `b`. -/
def roundUp (a b : Nat) : Nat := ceilDiv a b * b

/-- Two byte ranges, given by address and length, share a byte. -/
def overlaps (a la b lb : Nat) : Bool := 0 < la && 0 < lb && a < b + lb && b < a + la

/-- A bit as 0 or 1. -/
def b2n (b : Bool) : Nat := if b then 1 else 0

/-- The first index below `n` at which `p` holds. -/
def firstIdx (p : Nat → Bool) (n : Nat) : Option Nat := (List.range n).find? p

/-- The 16-bit distance (a - b) mod 2^16 lies from 1 to 2^15 - 1 (R98, R112). -/
def after16 (a b : Nat) : Bool :=
  let d := (a + 65536 - b % 65536) % 65536
  1 ≤ d && d < 32768

/-- Replace element `i` of a list. -/
def setAt {α : Type} (l : List α) (i : Nat) (f : α → α) : List α :=
  l.zipIdx.map (fun (x, j) => if j = i then f x else x)

/-- Integer square root, bit by bit (structural on the number of bits left). -/
def isqrtGo (n : Nat) : Nat → Nat → Nat
  | 0, r => r
  | k + 1, r =>
    let t := r + 2 ^ k
    if t * t ≤ n then isqrtGo n k t else isqrtGo n k r

/-- floor(sqrt n). -/
def isqrt (n : Nat) : Nat := isqrtGo n (Nat.log2 n / 2 + 1) 0

end Sys2Proof.Machine
end

