-- ==== Sys2Proof/Machine/Num.lean ====
section
/-! DEFINITION. Exact numbers, the eight number formats, rounding and block scales ("Number formats, block scales and
rounding", R30 to R53). -/

namespace Sys2Proof.Machine

/-- An exact rational, kept in lowest terms by every operation (R18: arithmetic in pseudocode is exact). -/
structure Q where
  n : Int
  d : Nat
  deriving DecidableEq, Repr

/-- The rational n / d in lowest terms. -/
def Q.mk' (n : Int) (d : Nat) : Q :=
  let g := Nat.gcd n.natAbs d
  if g = 0 then ⟨0, 1⟩ else ⟨n / (g : Int), d / g⟩

def Q.ofInt (i : Int) : Q := ⟨i, 1⟩
def Q.zero : Q := ⟨0, 1⟩
def Q.one : Q := ⟨1, 1⟩
def Q.add (a b : Q) : Q := Q.mk' (a.n * b.d + b.n * a.d) (a.d * b.d)
def Q.neg (a : Q) : Q := ⟨-a.n, a.d⟩
def Q.sub (a b : Q) : Q := a.add b.neg
def Q.mul (a b : Q) : Q := Q.mk' (a.n * b.n) (a.d * b.d)
/-- 1 / a, for a not zero. -/
def Q.inv (a : Q) : Q := if a.n < 0 then ⟨-(a.d : Int), a.n.natAbs⟩ else ⟨a.d, a.n.natAbs⟩
def Q.div (a b : Q) : Q := a.mul b.inv
def Q.lt (a b : Q) : Bool := decide (a.n * b.d < b.n * a.d)
def Q.le (a b : Q) : Bool := decide (a.n * b.d ≤ b.n * a.d)
def Q.isNeg (a : Q) : Bool := decide (a.n < 0)
def Q.isZero (a : Q) : Bool := decide (a.n = 0)
def Q.abs (a : Q) : Q := ⟨a.n.natAbs, a.d⟩
def Q.floor (a : Q) : Int := a.n / (a.d : Int)
def Q.ceil (a : Q) : Int := -((-a.n) / (a.d : Int))
def Q.min (a b : Q) : Q := if a.le b then a else b
def Q.max (a b : Q) : Q := if a.le b then b else a
/-- 2^k for an integer k. -/
def Q.pow2 (k : Int) : Q := if k < 0 then ⟨1, 2 ^ k.natAbs⟩ else ⟨2 ^ k.natAbs, 1⟩
/-- a^t for a natural t. -/
def Q.pow (a : Q) (t : Nat) : Q := ⟨a.n ^ t, a.d ^ t⟩

/-- floor(log2 a) for a positive. -/
def Q.log2 (a : Q) : Int :=
  let k : Int := (Nat.log2 a.n.natAbs : Int) - (Nat.log2 a.d : Int)
  if (Q.pow2 k).le a then (if (Q.pow2 (k + 1)).le a then k + 1 else k) else k - 1

/-- An exact value the device meets: a NaN, an infinity, a zero with its sign (R35), or a nonzero real. -/
inductive XR where
  | nan
  | inf (neg : Bool)
  | zero (neg : Bool)
  | fin (q : Q)
  deriving DecidableEq, Repr

/-- A rational as an exact value; zero is +0. -/
def XR.ofQ (q : Q) : XR := if q.isZero then .zero false else .fin q
def XR.ofInt (i : Int) : XR := XR.ofQ (Q.ofInt i)

/-- The sign of a value; a NaN counts as positive. -/
def XR.isNeg : XR → Bool
  | .nan => false
  | .inf s => s
  | .zero s => s
  | .fin q => q.isNeg

def XR.isNan : XR → Bool
  | .nan => true
  | _ => false

def XR.isFinite : XR → Bool
  | .zero _ => true
  | .fin _ => true
  | _ => false

def XR.isZero : XR → Bool
  | .zero _ => true
  | _ => false

/-- The real value, of a finite value (0 otherwise). -/
def XR.toQ : XR → Q
  | .fin q => q
  | _ => Q.zero

/-- NEG (R101): only the sign changes. -/
def XR.negate : XR → XR
  | .nan => .nan
  | .inf s => .inf (!s)
  | .zero s => .zero (!s)
  | .fin q => .fin q.neg

def XR.abs : XR → XR
  | .nan => .nan
  | .inf _ => .inf false
  | .zero _ => .zero false
  | .fin q => .fin q.abs

/-- Exact addition: a zero result of two nonzero addends is +0; two zeros give -0 only when both are -0. -/
def XR.add : XR → XR → XR
  | .nan, _ => .nan
  | _, .nan => .nan
  | .inf s, .inf t => if s = t then .inf s else .nan
  | .inf s, _ => .inf s
  | _, .inf t => .inf t
  | .zero s, .zero t => .zero (s && t)
  | .zero _, .fin q => .fin q
  | .fin q, .zero _ => .fin q
  | .fin p, .fin q => XR.ofQ (p.add q)

def XR.sub (a b : XR) : XR := a.add b.negate

/-- Exact product; an infinity times a zero is NaN. -/
def XR.mul (a b : XR) : XR :=
  match a, b with
  | .nan, _ => .nan
  | _, .nan => .nan
  | .inf _, .zero _ => .nan
  | .zero _, .inf _ => .nan
  | .inf s, y => .inf (s ^^ y.isNeg)
  | x, .inf t => .inf (x.isNeg ^^ t)
  | .zero s, y => .zero (s ^^ y.isNeg)
  | x, .zero t => .zero (x.isNeg ^^ t)
  | .fin p, .fin q => .fin (p.mul q)

/-- Exact quotient under IEEE 754-2019: x / 0 is an infinity, 0 / 0 and inf / inf are NaN. -/
def XR.div (a b : XR) : XR :=
  match a, b with
  | .nan, _ => .nan
  | _, .nan => .nan
  | .inf _, .inf _ => .nan
  | .zero _, .zero _ => .nan
  | .inf s, y => .inf (s ^^ y.isNeg)
  | x, .inf t => .zero (x.isNeg ^^ t)
  | .zero s, y => .zero (s ^^ y.isNeg)
  | x, .zero t => .inf (x.isNeg ^^ t)
  | .fin p, .fin q => .fin (p.div q)

/-- a < b as reals and infinities; false when either is NaN; the two zeros are equal. -/
def XR.lt (a b : XR) : Bool :=
  match a, b with
  | .nan, _ => false
  | _, .nan => false
  | .inf s, .inf t => s && !t
  | .inf s, _ => s
  | _, .inf t => !t
  | x, y => x.toQ.lt y.toQ

/-- a = b as reals (the two zeros are equal). -/
def XR.eqv (a b : XR) : Bool := !a.isNan && !b.isNan && !a.lt b && !b.lt a

/-- MAX of R101: NaN propagates, max(+0, -0) = +0. -/
def XR.max (a b : XR) : XR :=
  if a.isNan || b.isNan then .nan
  else match a, b with
  | .zero s, .zero t => .zero (s && t)
  | x, y => if x.lt y then y else x

/-- MIN of R101: NaN propagates, min(+0, -0) = -0. -/
def XR.min (a b : XR) : XR :=
  if a.isNan || b.isNan then .nan
  else match a, b with
  | .zero s, .zero t => .zero (s || t)
  | x, y => if y.lt x then y else x

/-- The value times 2^k, exactly. -/
def XR.scale2 (x : XR) (k : Int) : XR :=
  match x with
  | .fin q => .fin (q.mul (Q.pow2 k))
  | y => y

/-! ## Formats (R31, R33, R34) -/

/-- The eight formats of R31. -/
inductive Fmt where
  | fp32 | bf16 | fp16 | e4m3 | e5m2 | e3m2 | e2m1 | int8
  deriving DecidableEq, Repr

/-- R31: FORMAT codes; values 8 to 15 are reserved. -/
def Fmt.ofCode : Nat → Option Fmt
  | 0 => some .fp32 | 1 => some .bf16 | 2 => some .fp16 | 3 => some .e4m3
  | 4 => some .e5m2 | 5 => some .e3m2 | 6 => some .e2m1 | 7 => some .int8
  | _ => none

/-- Width in bits (R31). -/
def Fmt.width : Fmt → Nat
  | .fp32 => 32 | .bf16 => 16 | .fp16 => 16 | .e4m3 => 8 | .e5m2 => 8 | .e3m2 => 6 | .e2m1 => 4 | .int8 => 8

/-- Wide formats stand alone; narrow ones carry block scales (R31, R32). -/
def Fmt.isWide : Fmt → Bool
  | .fp32 | .bf16 | .fp16 => true
  | _ => false

/-- Mantissa bits (R33). -/
def Fmt.man : Fmt → Nat
  | .fp32 => 23 | .bf16 => 7 | .fp16 => 10 | .e4m3 => 3 | .e5m2 => 2 | .e3m2 => 2 | .e2m1 => 1 | .int8 => 6

/-- Exponent bits (R33); 0 for INT8. -/
def Fmt.expBits : Fmt → Nat
  | .fp32 => 8 | .bf16 => 8 | .fp16 => 5 | .e4m3 => 4 | .e5m2 => 5 | .e3m2 => 3 | .e2m1 => 2 | .int8 => 0

def Fmt.bias : Fmt → Int
  | .fp32 => 127 | .bf16 => 127 | .fp16 => 15 | .e4m3 => 7 | .e5m2 => 15 | .e3m2 => 3 | .e2m1 => 1 | .int8 => 0

def Fmt.emax : Fmt → Int
  | .fp32 => 127 | .bf16 => 127 | .fp16 => 15 | .e4m3 => 8 | .e5m2 => 15 | .e3m2 => 4 | .e2m1 => 2 | .int8 => 0

/-- Largest finite magnitude (R33, R34). -/
def Fmt.maxfin : Fmt → Q
  | .fp32 => Q.mk' ((2 ^ 24 - 1) * 2 ^ 104) 1
  | .bf16 => Q.mk' ((2 ^ 8 - 1) * 2 ^ 120) 1
  | .fp16 => ⟨65504, 1⟩
  | .e4m3 => ⟨448, 1⟩
  | .e5m2 => ⟨57344, 1⟩
  | .e3m2 => ⟨28, 1⟩
  | .e2m1 => ⟨6, 1⟩
  | .int8 => ⟨127, 64⟩

/-- The value of a code (R33, R34). -/
def Fmt.decode (f : Fmt) (c : Nat) : XR :=
  match f with
  | .int8 => XR.ofQ (Q.mk' (sbits c 0 8) 64)
  | _ =>
    let m := f.man
    let s := bit c (f.width - 1)
    let e := bits c m f.expBits
    let mant := bits c 0 m
    let top := e = 2 ^ f.expBits - 1
    match f with
    | .fp32 | .bf16 | .fp16 | .e5m2 =>
      if top then (if mant = 0 then .inf s else .nan) else fin s e mant m
    | .e4m3 => if top && mant = 7 then .nan else fin s e mant m
    | _ => fin s e mant m
where
  /-- A finite value from its fields. -/
  fin (s : Bool) (e mant m : Nat) : XR :=
    let q := if e = 0 then (Q.ofInt mant).mul (Q.pow2 (1 - f.bias - m))
             else (Q.ofInt (2 ^ m + mant)).mul (Q.pow2 ((e : Int) - f.bias - m))
    if q.isZero then .zero s else .fin (if s then q.neg else q)

/-- The code of a value the format represents; NaN gives the canonical quiet NaN of R36. -/
def Fmt.encode (f : Fmt) (x : XR) : Nat :=
  match f with
  | .int8 => ofInt 8 ((x.toQ.mul ⟨64, 1⟩).floor)
  | _ =>
    let m := f.man
    let sgn (s : Bool) : Nat := b2n s * 2 ^ (f.width - 1)
    match x with
    | .nan => (2 ^ f.expBits - 1) * 2 ^ m + 2 ^ (m - 1)
    | .inf s => sgn s + (2 ^ f.expBits - 1) * 2 ^ m
    | .zero s => sgn s
    | .fin q =>
      let a := q.abs
      let emin : Int := 1 - f.bias
      let k := Max.max a.log2 emin
      let mm := (a.mul (Q.pow2 (m - k))).floor.toNat
      sgn q.isNeg + (if mm < 2 ^ m then mm else ((k + f.bias).toNat) * 2 ^ m + (mm - 2 ^ m))

/-! ## Rounding (R46, R47) -/

/-- Rounding modes of R30; 3 is reserved. -/
inductive RMode where
  | rne | rtz | sr
  deriving DecidableEq, Repr

def RMode.ofCode : Nat → Option RMode
  | 0 => some .rne | 1 => some .rtz | 2 => some .sr | _ => none

/-- The integer nearest m; on a tie, the even integer. -/
def rneInt (m : Q) : Nat :=
  let f := m.floor.toNat
  let r := m.sub (Q.ofInt f)
  let half : Q := ⟨1, 2⟩
  if r.lt half then f else if half.lt r then f + 1 else if f % 2 = 0 then f else f + 1

/-- Result of one rounding: the value and whether a narrow target saturated (R44, R47). -/
structure Rounded where
  val : XR
  sat : Bool
  deriving DecidableEq, Repr

/-- round_fmt of R46 with the overflow rule of R47. -/
def roundFmt' (f : Fmt) (mode : RMode) (x : XR) (r : Nat) : Rounded :=
  match x with
  | .nan => ⟨.nan, false⟩
  | .inf s => ⟨.inf s, false⟩
  | .zero s => ⟨.zero s, false⟩
  | .fin q =>
    let s := q.isNeg
    let a := q.abs
    let u := match f with
      | .int8 => (⟨1, 64⟩ : Q)
      | _ => Q.pow2 (Max.max a.log2 (1 - f.bias) - f.man)
    let m := a.div u
    let k := match mode with
      | .rne => rneInt m
      | .rtz => m.floor.toNat
      | .sr => ((m.mul ⟨65536, 1⟩).floor.toNat + r) / 65536
    let v := (Q.ofInt k).mul u
    let mk (w : Q) : XR := if w.isZero then .zero s else .fin (if s then w.neg else w)
    if f.maxfin.lt v then
      if f.isWide then
        match mode with
        | .rtz => ⟨mk f.maxfin, false⟩
        | _ => ⟨.inf s, false⟩
      else ⟨mk f.maxfin, true⟩
    else ⟨mk v, false⟩

/-- round_fmt of R46. -/
def roundFmt (f : Fmt) (mode : RMode) (x : XR) (r : Nat) : XR := (roundFmt' f mode x r).val

/-- round_fp32_rne (R48), written rn in the update rules. -/
def rn (x : XR) : XR := roundFmt .fp32 .rne x 0
/-- round_bf16_rne (R48). -/
def rnBf16 (x : XR) : XR := roundFmt .bf16 .rne x 0

/-- The FP32 value of a 32-bit pattern. -/
def fp32 (c : Nat) : XR := Fmt.fp32.decode c
/-- The FP32 pattern of a value. -/
def fp32Code (x : XR) : Nat := Fmt.fp32.encode x
/-- FP32 value of a pattern as a rational (0 where not finite). -/
def fp32Q (c : Nat) : Q := (fp32 c).toQ

/-! ## Format words (R30, R32) -/

def fwCode (w : Nat) : Nat := bits w 0 4
def fwBlock (w : Nat) : Nat := bits w 4 3
def fwGuard (w : Nat) : Bool := bit w 7
def fwMode (w : Nat) : Nat := bits w 8 2
def fwTs (w : Nat) : Bool := bit w 10

/-- The format a word names; FP32 stands where the code is reserved (never used: such a word fails its check). -/
def fwFmt (w : Nat) : Fmt := (Fmt.ofCode (fwCode w)).getD .fp32
/-- Elements per block: 16, 32, 64 or 128; 0 for none (R30). -/
def fwBlk (w : Nat) : Nat := match fwBlock w with
  | 1 => 16 | 2 => 32 | 3 => 64 | 4 => 128 | _ => 0
/-- The word's rounding mode. -/
def fwRound (w : Nat) : RMode := (RMode.ofCode (fwMode w)).getD .rne

/-- R32 for a result: reserved encodings, BLOCK with narrow formats only, and for a wide format no guard and no
per-tensor scale. -/
def fwOkResult (w : Nat) : Bool :=
  match Fmt.ofCode (fwCode w) with
  | none => false
  | some f =>
    fwMode w < 3 &&
    (if f.isWide then fwBlock w = 0 && !fwGuard w && !fwTs w else 1 ≤ fwBlock w && fwBlock w ≤ 4)

/-- R32 for an operand: ROUND_MODE and SCALE_GUARD are ignored there (R558). -/
def fwOkOperand (w : Nat) : Bool :=
  match Fmt.ofCode (fwCode w) with
  | none => false
  | some f => if f.isWide then fwBlock w = 0 && !fwTs w else 1 ≤ fwBlock w && fwBlock w ≤ 4

/-- R41: a per-tensor scale is positive, normal and finite. -/
def tscaleOk (c : Nat) : Bool :=
  match fp32 c with
  | .fin q => !q.isNeg && (Q.pow2 (-126)).le q
  | _ => false

/-- The FP32 pattern is finite. -/
def fpFinite (c : Nat) : Bool := (fp32 c).isFinite

/-- The per-tensor scale in use: the field under TENSOR_SCALE_EN, otherwise 1.0 (R42). -/
def tscaleOf (w c : Nat) : Q := if fwTs w then fp32Q c else Q.one

/-! ## Block scales (R38, R42 to R44) -/

/-- choose_scale of R43. -/
def chooseScale (ys : List XR) (f : Fmt) (guard : Bool) : Nat :=
  if ys.any (fun y => !y.isFinite) then 255
  else
    let amax := ys.foldl (fun m y => Q.max m y.toQ.abs) Q.zero
    if amax.isZero then 127
    else
      let e := amax.log2 - f.emax
      let e := if guard && f.maxfin.lt (amax.div (Q.pow2 e)) then e + 1 else e
      (Min.min (Max.max (e + 127) 0) 254).toNat

/-- A block as written: its scale byte, its codes, and what it adds to NONFINITE_BLOCK and CONV_SATURATE (R44). -/
structure BlockOut where
  scale : Nat
  codes : List Nat
  nonfinite : Nat
  saturated : Nat
  deriving DecidableEq, Repr

/-- R43 and R44: the scale of a block and the codes of its elements, with random bits `rs`. -/
def encodeBlock (f : Fmt) (mode : RMode) (guard : Bool) (ys : List XR) (rs : List Nat) : BlockOut :=
  let x := chooseScale ys f guard
  if x = 255 then ⟨255, ys.map (fun _ => 0), 1, 0⟩
  else
    let out := (ys.zip rs).map (fun (y, r) => roundFmt' f mode (y.scale2 (127 - (x : Int))) r)
    ⟨x, out.map (fun o => f.encode o.val), 0, (out.filter (·.sat)).length⟩

/-- R42: the exact value of a code under block scale X and per-tensor scale T. -/
def blockValue (f : Fmt) (x : Nat) (t : Q) (code : Nat) : XR :=
  if x = 255 then .nan
  else match (f.decode code).scale2 ((x : Int) - 127) with
    | .fin q => .fin (q.mul t)
    | y => y

end Sys2Proof.Machine
end

