-- ==== Sys2Proof/Machine/MathFn.lean ====
section
/-! DEFINITION. The functions of R101: each returns a rational that stands for the exact real result. Where the exact
result is not rational, the rational lies within a relative 2^-300 of it and on the same side of every rounding
boundary of the spec's formats for the operands the device has (DEDUCED, log entry 3); exact results are exact. -/

namespace Sys2Proof.Machine

/-- Working precision in bits of the fixed-point sums below. -/
def prec : Nat := 640

/-- Fixed-point one. -/
def fxOne : Int := 2 ^ prec

/-- A rational in fixed point, rounded down. -/
def fxOf (q : Q) : Int := (q.mul ⟨fxOne, 1⟩).floor
def fxMul (a b : Int) : Int := a * b / fxOne
def fxQ (a : Int) : Q := Q.mk' a (2 ^ prec)

/-- Σ of a power series in fixed point: term k+1 is `next k term`; stops after `fuel` terms. -/
def fxSeries (next : Nat → Int → Int) : Nat → Nat → Int → Int
  | 0, _, _ => 0
  | fuel + 1, k, t => if t = 0 then 0 else t + fxSeries next fuel (k + 1) (next k t)

/-- exp of a fixed-point argument with |x| at most 1. -/
def fxExp (x : Int) : Int := fxSeries (fun k t => fxMul t x / ((k : Int) + 1)) 400 0 fxOne

/-- atanh series: Σ z^(2k+1) / (2k+1). -/
def fxAtanhGo (z2 : Int) : Nat → Nat → Int → Int
  | 0, _, _ => 0
  | fuel + 1, k, p => if p = 0 then 0 else p / (2 * (k : Int) + 1) + fxAtanhGo z2 fuel (k + 1) (fxMul p z2)

/-- ln 2 = 2 atanh(1/3). -/
def fxLn2 : Int :=
  let z := fxOf ⟨1, 3⟩
  2 * fxAtanhGo (fxMul z z) 500 0 z

/-- atan series for 1/n, used for pi. -/
def fxAtanInv (n : Int) : Nat → Nat → Int → Int
  | 0, _, _ => 0
  | fuel + 1, k, p =>
    if p = 0 then 0
    else (if k % 2 = 0 then p / (2 * (k : Int) + 1) else -(p / (2 * (k : Int) + 1))) + fxAtanInv n fuel (k + 1) (p / (n * n))

/-- pi, by Machin's formula. -/
def fxPi : Int := 4 * (4 * fxAtanInv 5 600 0 (fxOne / 5) - fxAtanInv 239 200 0 (fxOne / 239))

/-- A value above every finite result of every format, and one below every nonzero result. -/
def hugeQ : Q := Q.pow2 6000
def tinyQ : Q := Q.pow2 (-6000)

/-- e^x for a rational x. Exact at 0; beyond 4,096 in magnitude any huge or tiny value rounds alike. -/
def expQ (x : Q) : Q :=
  if x.isZero then Q.one
  else if (Q.ofInt 4096).lt x then hugeQ
  else if x.lt (Q.ofInt (-4096)) then tinyQ
  else if x.abs.lt (Q.pow2 (-160)) then Q.one.add x
  else
    let fx := fxOf x
    let k := fx / fxLn2
    (fxQ (fxExp (fx - k * fxLn2))).mul (Q.pow2 k)

/-- 2^x; exact at integers. -/
def exp2Q (x : Q) : Q :=
  if (Q.ofInt 8192).lt x then hugeQ
  else if x.lt (Q.ofInt (-8192)) then tinyQ
  else
    let k := x.floor
    let f := x.sub (Q.ofInt k)
    if f.isZero then Q.pow2 k
    else if x.abs.lt (Q.pow2 (-160)) then Q.one.add (x.mul (fxQ fxLn2))
    else (fxQ (fxExp (fxMul (fxOf f) fxLn2))).mul (Q.pow2 k)

/-- ln x for x positive; exact at 1. -/
def lnQ (x : Q) : Q :=
  let k := x.log2
  let m := x.div (Q.pow2 k)
  let z := (m.sub Q.one).div (m.add Q.one)
  let fz := fxOf z
  fxQ (2 * fxAtanhGo (fxMul fz fz) 500 0 fz + k * fxLn2)

/-- log2 x for x positive; exact at powers of two. -/
def log2Q (x : Q) : Q :=
  let k := x.log2
  if x = Q.pow2 k then Q.ofInt k else (lnQ x).div (fxQ fxLn2)

/-- sqrt of a rational that is not negative: exact where the root is rational, otherwise a value strictly between
the two neighbours at 2^-300 relative spacing. -/
def sqrtQ (x : Q) : Q :=
  if x.isZero then Q.zero
  else
    let v := x.n.natAbs * x.d * 4 ^ 640
    let s := isqrt v
    if s * s = v then Q.mk' s (x.d * 2 ^ 640) else Q.mk' (2 * s + 1) (x.d * 2 ^ 641)

/-- A value just below 1 that no rounding tells from the exact result. -/
def nearOne : Q := Q.one.sub (Q.pow2 (-400))

/-- tanh x. -/
def tanhQ (x : Q) : Q :=
  if x.isZero then Q.zero
  else
    let a := x.abs
    let v := if (Q.ofInt 200).lt a then nearOne
      else if a.lt (Q.pow2 (-100)) then a.sub ((a.mul (a.mul a)).mul ⟨1, 3⟩)
      else
        let e := expQ (a.mul (Q.ofInt 2))
        (e.sub Q.one).div (e.add Q.one)
    if x.isNeg then v.neg else v

/-- 1 / (1 + e^-x). -/
def sigmoidQ (x : Q) : Q :=
  if (Q.ofInt 200).lt x then nearOne
  else Q.one.div (Q.one.add (expQ x.neg))

/-- erf series term sum in fixed point: Σ (-1)^k x^(2k+1) / (k! (2k+1)). -/
def fxErfGo (x2 : Int) : Nat → Nat → Int → Int
  | 0, _, _ => 0
  | fuel + 1, k, p =>
    if p = 0 then 0 else p / (2 * (k : Int) + 1) + fxErfGo x2 fuel (k + 1) (-(fxMul p x2 / ((k : Int) + 1)))

/-- erf x. -/
def erfQ (x : Q) : Q :=
  if x.isZero then Q.zero
  else
    let a := x.abs
    let c := (Q.ofInt 2).div (sqrtQ (fxQ fxPi))
    let v := if (Q.ofInt 9).lt a then nearOne
      else if a.lt (Q.pow2 (-100)) then (c.mul a).sub (c.mul ((a.mul (a.mul a)).mul ⟨1, 3⟩))
      else
        let fx := fxOf a
        c.mul (fxQ (fxErfGo (fxMul fx fx) 1200 0 fx))
    if x.isNeg then v.neg else v

/-- cos series in fixed point. -/
def fxCosGo (x2 : Int) : Nat → Nat → Int → Int
  | 0, _, _ => 0
  | fuel + 1, k, t => if t = 0 then 0 else t + fxCosGo x2 fuel (k + 1) (-(fxMul t x2 / ((2 * (k : Int) + 1) * (2 * (k : Int) + 2))))

/-- cos(2 pi u) for u from 0 to 1 (R225). -/
def cos2piQ (u : Q) : Q :=
  let th := fxMul (2 * fxPi) (fxOf u)
  let th := if th > fxPi then 2 * fxPi - th else th
  fxQ (fxCosGo (fxMul th th) 400 0 fxOne)

/-! ## The special cases of R101 -/

def xExp : XR → XR
  | .nan => .nan
  | .inf s => if s then .zero false else .inf false
  | .zero _ => XR.ofInt 1
  | .fin q => .fin (expQ q)

def xExp2 : XR → XR
  | .nan => .nan
  | .inf s => if s then .zero false else .inf false
  | .zero _ => XR.ofInt 1
  | .fin q => .fin (exp2Q q)

/-- A logarithm: log(0) = -inf, a negative argument gives NaN, log 1 = +0. -/
def xLogWith (f : Q → Q) : XR → XR
  | .nan => .nan
  | .inf s => if s then .nan else .inf false
  | .zero _ => .inf true
  | .fin q => if q.isNeg then .nan else XR.ofQ (f q)

def xLn : XR → XR := xLogWith lnQ
def xLog2 : XR → XR := xLogWith log2Q

def xRecip (x : XR) : XR := (XR.ofInt 1).div x

def xSqrt : XR → XR
  | .nan => .nan
  | .inf s => if s then .nan else .inf false
  | .zero s => .zero s
  | .fin q => if q.isNeg then .nan else .fin (sqrtQ q)

/-- rsqrt(±0) = ±inf under IEEE 754-2019. -/
def xRsqrt : XR → XR
  | .nan => .nan
  | .inf s => if s then .nan else .zero false
  | .zero s => .inf s
  | .fin q => if q.isNeg then .nan else .fin (sqrtQ q.inv)

def xTanh : XR → XR
  | .nan => .nan
  | .inf s => XR.ofInt (if s then -1 else 1)
  | .zero s => .zero s
  | .fin q => .fin (tanhQ q)

def xErf : XR → XR
  | .nan => .nan
  | .inf s => XR.ofInt (if s then -1 else 1)
  | .zero s => .zero s
  | .fin q => .fin (erfQ q)

def xSigmoid : XR → XR
  | .nan => .nan
  | .inf s => if s then .zero false else XR.ofInt 1
  | .zero _ => .fin ⟨1, 2⟩
  | .fin q => .fin (sigmoidQ q)

end Sys2Proof.Machine
end

