-- ==== Sys2Proof/Machine/Compress.lean ====
section
/-! DEFINITION. The line encodings of "Compression of operands and traffic" (R199 to R208). -/

namespace Sys2Proof.Machine

/-- Length of the run of zero bytes at the front, at most 128. -/
def zeroRun : Nat → List Byte → Nat
  | 0, _ => 0
  | _, [] => 0
  | n + 1, b :: bs => if b = 0 then 1 + zeroRun n bs else 0

/-- Literal run: bytes up to the next zero pair, at most 128 (R205). -/
def litRun : Nat → List Byte → Nat
  | 0, _ => 0
  | _, [] => 0
  | n + 1, b :: bs =>
    if b = 0 && (match bs with | c :: _ => c = 0 | [] => false) then 0 else 1 + litRun n bs

/-- encode_zero_run of R205, structural on fuel (the line's length suffices). -/
def encodeZeroRun : Nat → List Byte → List Byte
  | 0, _ => []
  | _, [] => []
  | fuel + 1, x =>
    let z := zeroRun 128 x
    if 2 ≤ z then BitVec.ofNat 8 (128 + (z - 1)) :: encodeZeroRun fuel (x.drop z)
    else
      let j := litRun 128 x
      BitVec.ofNat 8 (j - 1) :: (x.take j ++ encodeZeroRun fuel (x.drop j))

/-- Tokens of a stream, decoded until `n` bytes stand; none when it overruns or runs out (R208). -/
def decodeZeroRun : Nat → Nat → List Byte → Option (List Byte)
  | 0, n, _ => if n = 0 then some [] else none
  | fuel + 1, n, s =>
    if n = 0 then some []
    else match s with
    | [] => none
    | t :: rest =>
      let k := t.toNat % 128 + 1
      if n < k then none
      else if 128 ≤ t.toNat then (decodeZeroRun fuel (n - k) rest).map (List.replicate k 0 ++ ·)
      else if rest.length < k then none
      else (decodeZeroRun fuel (n - k) (rest.drop k)).map (rest.take k ++ ·)

/-- The distinct byte values of a line, in increasing order. -/
def distinctBytes (x : List Byte) : List Byte := (List.range 256).filterMap (fun v => if x.contains (BitVec.ofNat 8 v) then some (BitVec.ofNat 8 v) else none)

/-- The index width of R206: the smallest of 1, 2 and 4 that names every value. -/
def dictWidth (k : Nat) : Nat := if k ≤ 2 then 1 else if k ≤ 4 then 2 else 4

/-- The DICTIONARY payload of R206. -/
def encodeDict (x : List Byte) : List Byte :=
  let ds := distinctBytes x
  let w := dictWidth ds.length
  let dict := ds ++ List.replicate (2 ^ w - ds.length) (ds.getLast?.getD 0)
  let idx := x.map (fun b => ds.idxOf b)
  let field := (idx.zipIdx.foldl (fun acc (i, k) => acc + (i <<< (k * w))) 0)
  BitVec.ofNat 8 w :: (dict ++ leBytes (ceilDiv (x.length * w) 8) field)

/-- Granules of a payload of `n` bytes (R199). -/
def granules (n : Nat) : Nat := ceilDiv n 16

/-- A line as stored: its map byte and its payload, padded to whole granules (R200, R204 to R207). -/
structure Line where
  map : Byte
  payload : List Byte
  deriving DecidableEq, Repr

def padGranules (p : List Byte) : List Byte := p ++ List.replicate (granules p.length * 16 - p.length) 0

/-- The canonical encoding of a line (R207). -/
def encodeLine (x : List Byte) : Line :=
  let raw := granules x.length
  let zr := encodeZeroRun x.length x
  let useDict := (distinctBytes x).length ≤ 16 && granules (encodeDict x).length < granules zr.length
  let p := if useDict then encodeDict x else zr
  let mode := if useDict then 2 else 1
  if raw ≤ granules p.length then ⟨BitVec.ofNat 8 ((raw - 1) * 4), padGranules x⟩
  else ⟨BitVec.ofNat 8 (mode + (granules p.length - 1) * 4), padGranules p⟩

/-- The bytes a line expands to, or none where it is malformed (R208). -/
def decodeLine (n : Nat) (map : Byte) (payload : List Byte) : Option (List Byte) :=
  let g := bits map.toNat 2 4 + 1
  let p := payload.take (g * 16)
  match map.toNat % 4 with
  | 0 => if g = granules n then some (p.take n) else none
  | 1 => decodeZeroRun (n + 1) n p
  | 2 =>
    let w := match p with | b :: _ => b.toNat | [] => 0
    if w = 1 || w = 2 || w = 4 then
      if g < granules (1 + 2 ^ w + ceilDiv (n * w) 8) then none
      else
        let dict := (p.drop 1).take (2 ^ w)
        let field := leNat ((p.drop (1 + 2 ^ w)).take (ceilDiv (n * w) 8))
        some ((List.range n).map (fun k => dict.getD (bits field (k * w) w) 0))
    else none
  | _ => none

/-- Lines of a row of `lb` packed bytes (R199). -/
def lineCount (lb : Nat) : Nat := ceilDiv lb 256
/-- The map area of a row slot (R201). -/
def mapArea (lb : Nat) : Nat := 16 * ceilDiv (lineCount lb) 16
/-- The size of a row slot (R201). -/
def slotSize (lb : Nat) : Nat := mapArea lb + 16 * ceilDiv lb 16
/-- The bytes of line t of a row of `lb` bytes (R199). -/
def lineLen (lb t : Nat) : Nat := if t + 1 < lineCount lb then 256 else lb - 256 * (lineCount lb - 1)

/-- The bytes that writing a compressed row stores, as (offset in the slot, bytes): the map area and each line's payload
granules (R201, R203). -/
def encodeRow (row : List Byte) : List (Nat × List Byte) :=
  let lb := row.length
  let ls := (List.range (lineCount lb)).map (fun t => encodeLine ((row.drop (256 * t)).take 256))
  let maps := ls.map (·.map)
  (0, maps ++ List.replicate (mapArea lb - maps.length) 0) ::
    ls.zipIdx.map (fun (l, t) => (mapArea lb + 256 * t, l.payload))

end Sys2Proof.Machine
end

