-- ==== Sys2Proof/Machine/Decoded.lean ====
section
/-! DEFINITION. What the standards' syntax gives the Huller's engines: the vocabulary in which Config's open decoding functions and the
rules of spec file 11 meet (R276, R282 to R294; log entry 9). -/

namespace Sys2Proof.Machine

/-- Profile of a coded unit: those that R282, R286 and R287 name, and any other. -/
inductive Profile
  | mpeg2Main | mpeg2P422
  | avcBaseline | avcMain | avcHigh | avcHigh10 | avcHigh422Intra
  | hevcMain | hevcMain10 | hevcMain42210
  | av1Main
  | jpegBaseline | jpegProgressive
  | png
  | pcmInt | pcmFloat
  | layer2 | layer3
  | aacLc | heAac
  | flac
  | opus
  | other
  deriving DecidableEq, Repr, Inhabited

/-- A coded picture as its headers describe it (R283, R288). -/
structure PicInfo where
  codedW : Nat := 0      -- coded width in luma samples
  codedH : Nat := 0      -- coded height; of a field, its own
  cropX : Nat := 0       -- cropping window
  cropY : Nat := 0
  w : Nat := 0
  h : Nat := 0
  layout : Nat := 0      -- LAYOUT of R288, a palette already expanded
  chroma : Nat := 0      -- CHROMA of R288
  depth : Nat := 8       -- bit depth
  full : Bool := false   -- full-range flag
  primaries : Nat := 2   -- code points of H.273, 2 where the stream gives none
  transfer : Nat := 2
  matrix : Nat := 2
  field : Nat := 0       -- FIELD of R288
  pair : Nat := 0        -- a field of an MPEG-2 or H.264 pair: 1 top, 2 bottom; 0 otherwise
  second : Bool := false -- the field completes the frame of the field before it
  key : Nat := 0         -- name by which later pictures refer to it
  refs : List Nat := []  -- pictures that it references
  keep : List Nat := []  -- pictures that stay available behind it
  isRef : Bool := false  -- later pictures may reference it
  repeats : Bool := false -- it shows the picture it references once more (AV1)
  shown : Bool := true   -- the standard outputs it
  order : Nat := 0       -- its place in output order
  bump : Nat := 0        -- behind it, held pictures up to this place are output
  drop : Bool := false   -- pictures held before it are not output
  deriving DecidableEq, Repr, Inhabited

/-- An input unit as its headers describe it. -/
structure UnitInfo where
  header : Nat := 0      -- headers of R293: 0 none, 1 valid, 2 one that fails its checks
  rap : Bool := false    -- it carries a random access point
  profile : Profile := .other
  level : Nat := 0       -- ten times the level; Low, Main, High 1440 and High of MPEG-2 are 10 to 40
  inside : Bool := true  -- no tool, extension or picture size that R282, R286 or R287 puts outside support
  intraOnly : Bool := false -- of an intra-only stream
  comps : Nat := 0       -- components of a JPEG image
  pics : List PicInfo := [] -- its pictures in decode order
  channels : Nat := 0    -- audio
  rate : Nat := 0        -- Hz
  depth : Nat := 0       -- bits of an integer sample
  frames : Nat := 0      -- samples per channel, of a lost frame too
  deriving DecidableEq, Repr, Inhabited

/-- What the engine reads a unit with: codec, what its stream context names, its decoder state, and its table generation. -/
structure Coding where
  codec : Nat := 0
  setup : List Byte := []
  state : List Byte := []
  tables : List Byte := []
  deriving DecidableEq, Repr, Inhabited

/-- What an intact part of a picture gives: samples by their place in the picture's planes, and what it predicted from. -/
structure PartOut where
  refines : Bool := false -- it refines samples that an earlier part gave (progressive JPEG)
  samples : List (Nat × Nat) := [] -- place, value
  reads : List (Nat × Nat) := [] -- position in the list of references, place
  deriving DecidableEq, Repr, Inhabited

/-- What an audio unit gives. -/
structure AudioOut where
  intact : Bool := true
  depth : Nat := 0       -- of integer samples; 0: FP32 patterns
  chans : List (List Int) := []
  deriving DecidableEq, Repr, Inhabited

/-- A picture that an engine has decoded. -/
structure DecPic where
  info : PicInfo := {}
  samples : List (Nat × Bool) := [] -- samples of the coded planes, one behind the other; false: filled under R291
  damaged : Bool := false -- DAMAGED_REF
  index : Nat := 0       -- SAMPLE_INDEX of the job whose unit coded it
  pts : Nat := 0         -- PTS of that job
  ordinal : Nat := 0     -- its position among that job's pictures
  deriving DecidableEq, Repr, Inhabited

end Sys2Proof.Machine
end

