-- ==== Sys2Proof/Config.lean ====
section
/-! DEFINITION. What the spec leaves open: values with no body, so that no proof can see them (log entry 8). -/

namespace Sys2Proof

/-- The n-th free byte: the content of bytes the spec calls undefined or leaves as a mixture of old and new. -/
opaque Config.freeByte : Nat → Byte

/-- The n-th free word: a value the spec calls undefined or does not state. -/
opaque Config.freeNat : Nat → Nat

/-- The reference scale byte of an INT8 pixel whose tap 0 lies in padding, for the scale bytes that the pixel's taps in the image
have: R69 takes it from a block that does not exist (log entry 8). -/
opaque Config.padScale : List Nat → Nat

/-- The sequence table that a pod copies to a private table at an address: the spec does not say how a slot record names its
sequence (log entry 18). -/
opaque Config.seqTable : Nat → Nat → Nat

/-- The estimate of PTP time less device time that the cadence unit makes of a sync record's offset: the spec does not give the
estimator (log entry 24). -/
opaque Config.ptpEstimate : Nat → Int → Int

/-- P_EST while LOCKED under PTP, where the spec gives no interval to take its mean from (log entry 24). -/
opaque Config.ptpPeriod : Nat → Nat

/-! ## The encoder's coding (log entry 9)

The spec takes the syntax of the two standards whole and says what each picture's coding depends on (R331, R332, R338 to R341). -/

/-- Parameter sets of a configuration: VPS, SPS and PPS, or SPS and PPS, with its level, its VUI fields and a conformance cropping window of
so many luma rows. -/
opaque Config.encParams : (cfg crop : Nat) → List Byte

/-- A recovery point SEI with this recovery_frame_cnt. -/
opaque Config.encRecovery : (cfg count : Nat) → List Byte

/-- Slice data of the block row that is coded last: from the configuration, a number that is 0 while the picture stays as it was submitted,
the picture's samples, the reference picture, whether it is an IDR picture, the intra block columns, and the QP of every row so far. -/
opaque Config.encRow : (cfg changed : Nat) → (pic ref : List Nat) → (idr : Bool) → (intra : Nat × Nat) → (qps : List Nat) → List Bool

/-- The Annex B bytes of a slice that begins at a block row, with this slice data. -/
opaque Config.encNal : (cfg : Nat) → (idr : Bool) → (firstRow : Nat) → (data : List Bool) → List Byte

/-- Decoded samples of the block columns up to the end of the refreshed ones: they see no more of the reference picture than the columns
before the refreshed ones. -/
opaque Config.encClean : (cfg changed : Nat) → (pic clean : List Nat) → (intra : Nat × Nat) → (qps : List Nat) → List Nat

/-- Decoded samples of the other block columns. -/
opaque Config.encRest : (cfg changed : Nat) → (pic ref : List Nat) → (intra : Nat × Nat) → (qps : List Nat) → List Nat

/-! ## The Huller's decoders (log entry 9)

The spec takes the syntax of the standards whole, and says what an engine checks, fills and puts out around it (R275, R282 to R293). -/

/-- Input units of a source, from its first unit boundary on; a lost audio frame is a unit of its own (R275, R291). -/
opaque Config.unitSplit : Machine.Coding → (source : List Byte) → List (List Byte)

/-- What the headers of a unit say. -/
opaque Config.unitInfo : Machine.Coding → (unit : List Byte) → Machine.UnitInfo

/-- Picture `n` of a unit, cut at the points where an engine resumes after an error (R291): whether every syntax element and CRC of the
part stands its checks, and its bytes. -/
opaque Config.picParts : Machine.Coding → (unit : List Byte) → (n : Nat) → List (Bool × List Byte)

/-- An intact part decoded, into a picture that holds these samples so far, from these references. -/
opaque Config.decodePart : Machine.Coding → Machine.PicInfo → (sofar : List Nat) → (refs : List (List Nat)) → (part : List Byte) → Machine.PartOut

/-- Decoder state after a unit. -/
opaque Config.decoderState : Machine.Coding → (unit : List Byte) → List Byte

/-- An audio unit decoded, other than PCM. -/
opaque Config.decodeAudio : Machine.Coding → (unit : List Byte) → Machine.AudioOut

/-- Packet-loss concealment of RFC 6716: so many FP32 patterns for each of the channels. -/
opaque Config.opusConceal : Machine.Coding → (channels frames : Nat) → List (List Int)

/-- PCM format that a stream context names: bits of a sample, whether it is a binary32 value, channels, rate. -/
opaque Config.pcmFormat : (setup : List Byte) → Nat × Bool × Nat × Nat

/-- What stream context `n` names for its audio codec (R276): the spec has no command that writes it. -/
opaque Config.ctxSetup : (ctx : Nat) → List Byte

/-- Spill bytes that the working planes of a still image of more than 4,194,304 pixels take (R274; log entry 46). -/
opaque Config.imagePlanes : (codec : Nat) → Machine.PicInfo → Nat

end Sys2Proof
end

