-- ==== Sys2Proof/Machine/Tab.lean ====
section
/-! DEFINITION. Sparse tables keyed by a number, in one canonical form: keys strictly rising and no entry equal to
what an unlisted key reads as. Memory, the register files and every indexed set of records are such tables. -/

namespace Sys2Proof.Machine

/-- A sparse table: key and value pairs; an unlisted key reads as the table's default. -/
abbrev Tab (α : Type) := List (Nat × α)

/-- What key `k` reads as. -/
def Tab.get {α : Type} (d : α) : Tab α → Nat → α
  | [], _ => d
  | (k', v) :: m, k => if k = k' then v else Tab.get d m k

/-- The table with key `k` set to `v`; setting the default removes the entry. -/
def Tab.set {α : Type} [DecidableEq α] (d : α) : Tab α → Nat → α → Tab α
  | [], k, v => if v = d then [] else [(k, v)]
  | (k', v') :: m, k, v =>
    if k = k' then (if v = d then Tab.set d m k v else (k, v) :: m)
    else if k < k' ∧ v ≠ d then (k, v) :: (k', v') :: m
    else (k', v') :: Tab.set d m k v

/-- Every key is above `k`. -/
def Tab.above {α : Type} (k : Nat) (m : Tab α) : Bool := m.all (fun e => k < e.1)

/-- The canonical form: keys strictly rising, no entry equal to the default. -/
def Tab.wf {α : Type} [DecidableEq α] (d : α) : Tab α → Bool
  | [] => true
  | (k, v) :: m => decide (v ≠ d) && Tab.above k m && Tab.wf d m

/-- Change the entry of key `k`. -/
def Tab.upd {α : Type} [DecidableEq α] (d : α) (m : Tab α) (k : Nat) (f : α → α) : Tab α :=
  Tab.set d m k (f (Tab.get d m k))

end Sys2Proof.Machine
end

