-- ==== Sys2Proof/Machine/ComputeState.lean ====
section
/-! DEFINITION. The state of the plans (spec file 17), of the pods and their tile counters, page pools and fence
tables (04, 07, 10), of the cores (03, 04), and of the Cob's reduction and parameter state (10). -/

namespace Sys2Proof.Machine

/-- A symbol record (R456). -/
structure Sym where
  num : Nat := 0       -- R456 (17) w32 SYMBOL rst -
  cls : Nat := 0       -- R456, R229 (17) w4 CLASS rst -
  certain : Bool := false -- R456 (17) w1 rst -
  comp : Bool := false -- R456 (17) w1 COMPRESSED rst -
  fmt : Nat := 0       -- R456 (17) w16 format word rst -
  tscale : Nat := 0    -- R456 (17) w32 rst -
  rank : Nat := 1      -- R456 (17) w3 rst -
  dims : List Nat := [] -- R456 (17) six of w32, innermost first rst -
  addr : Nat := 0      -- R456 (17) w48 rst -
  pods : Nat := 0      -- R456 (17) w4 rst -
  deriving DecidableEq, Repr

/-- A loop declaration (R457). -/
structure LoopDecl where
  counter : Nat := 0   -- R457 (17) w6 rst -
  pod : Nat := 0       -- R457 (17) w2 rst -
  padSkip : Bool := false -- R457 (17) w1 rst -
  reissue : Bool := false -- R457 (17) w1 rst -
  branch : Nat := 0xFF -- R457 (17) w8 rst -
  limit : Nat := 1     -- R457 (17) w21 rst -
  reissueAfter : Nat := 0 -- R457 (17) w16 rst -
  firstLayer : Nat := 0 -- R457 (17) w12 rst -
  lastLayer : Nat := 0 -- R457 (17) w12 rst -
  sbBase : Nat := 0    -- R457 (17) w48 rst -
  deriving DecidableEq, Repr

/-- One core's descriptor stream (R455, section 2). -/
structure StreamDecl where
  pod : Nat := 0       -- R455 (17) w2 rst -
  core : Nat := 0      -- R455 (17) w6 rst -
  off : Nat := 0       -- R455 (17) w32 rst -
  len : Nat := 0       -- R455 (17) w32 rst -
  deriving DecidableEq, Repr

/-- A branch (R455, section 3; R124). -/
structure BranchDecl where
  pod : Nat := 0       -- R455 (17) w2 rst -
  branch : Nat := 0    -- R455 (17) w3 rst -
  minc : Nat := 1      -- R455 (17) w3 rst -
  cost : Nat := 0      -- R455 (17) w64 rst -
  deriving DecidableEq, Repr

/-- A parameter tensor (R455, section 7; R559). -/
structure TensorDecl where
  layer : Nat := 1     -- R455 (17) w12 rst -
  tensor : Nat := 0    -- R455 (17) w4 rst -
  group : Nat := 0     -- R455 (17) w8 rst -
  wSym : Nat := 0      -- R455 (17) w32 rst -
  mSym : Nat := 0      -- R455 (17) w32 rst -
  vSym : Nat := 0      -- R455 (17) w32 rst -
  elems : Nat := 0     -- R455 (17) w64 rst -
  rr : Nat := 0        -- R455 (17) w32 rst -
  cc : Nat := 0        -- R455 (17) w32 rst -
  gSym : Nat := 0      -- R455 (17) w32 rst -
  deriving DecidableEq, Repr

/-- A write range of a sequence table (R455, section 10; R195). -/
structure SeqWrite where
  pod : Nat := 0       -- R455 (17) w2 rst -
  table : Nat := 0     -- R455 (17) w12 rst -
  first : Nat := 0     -- R455 (17) w32 rst -
  last : Nat := 0      -- R455 (17) w32 rst -
  stride : Nat := 0    -- R455 (17) w32 rst -
  recBase : Nat := 0   -- R455 (17) w64 rst -
  deriving DecidableEq, Repr

/-- A training step in progress (R458 to R460). -/
structure StepRun where
  cmd : Nat := 0       -- R458 (17) the RUN_STEP command that waits for it rst -
  step : Nat := 0      -- R458 (17) w64 rst -
  batch : Option Nat := none -- R312 (12) batch consumed rst none
  lsExp : Int := 0     -- R235 (09) loss-scale exponent of the step rst -
  gradNF : Bool := false -- R234 (09) GRAD_NONFINITE rst 0
  skipped : List Nat := [] -- R237 (09) layers skipped rst empty
  eos : Option (Nat × Nat × Bool) := none -- R238 (09) LS_EXP and CLEAN before END_OF_STEP was applied, and the flag rst none
  bad : Nat := 0       -- R143, R433 (05) status that decides the step, 0 none rst 0
  faultAt : Nat := 0   -- R459 (17) FAULT_LAYER, TENSOR, POD and SHARD, bits 31 to 0 of [127:96] rst 0
  workFault : Nat := 0 -- R459 (17) w128 work-fault entry rst 0
  noUpdate : Bool := false -- R143, R458, R460 (05) the Cob applies no further update rst 0
  halting : Bool := false -- R460 (17) cores stop at their next stop point rst 0
  bases : Tab Nat := [] -- R560 (04) base B of each tile counter, key 64p + n rst empty
  armed : Tab Nat := [] -- R560 (04) loops armed so far on each counter rst empty
  started : List Nat := [] -- R107 (04) cores 0 to 191 whose stream has been started rst empty
  train : List Nat := [] -- R126 (04) training clusters 12p + k of the step rst empty
  startedAt : Nat := 0 -- R529 (20) device time of its start rst -
  masks : Tab Nat := [] -- R127 (04) w12 CLUSTER_MASK of the step's allocation by counter 64p + n rst empty
  undone : List Nat := [] -- R268 (10) layers that cannot be updated rst empty
  deriving DecidableEq, Repr

/-- A loaded plan (R453 to R457). -/
structure Plan where
  ready : Bool := false -- R453 (17) the load has completed rst 0
  valid : Bool := true -- R143 (05) plan structures intact rst 1
  port : Nat := 0      -- R387 (15) port that loaded it rst -
  live : Bool := false -- R454 (17) KIND rst -
  batches : Bool := false -- R454 (17) w1 rst -
  sMax : Nat := 0      -- R454, R368 (17) w64 rst -
  cTask : Nat := 0     -- R454, R370 (17) w64 rst -
  shardLog2 : Nat := 12 -- R454 (17) w4 rst -
  pinLayers : Nat := 0 -- R454 (17) w12 rst -
  syms : List Sym := [] -- R455 (17) section 0 rst -
  loops : List LoopDecl := [] -- R455 (17) section 1 rst -
  streams : List StreamDecl := [] -- R455 (17) section 2 rst -
  branches : List BranchDecl := [] -- R455 (17) section 3 rst -
  desc : List Byte := [] -- R455 (17) section 4, descriptor bytes rst -
  tensors : List TensorDecl := [] -- R455 (17) section 7 rst -
  areas : List (Nat × Nat × Nat) := [] -- R455 (17) section 8: AREA, BASE, SIZE rst -
  lossSites : List (Nat × Nat × Nat) := [] -- R455 (17) section 9: pod, core, offset rst -
  seqWrites : List SeqWrite := [] -- R455 (17) section 10 rst -
  loadCmd : Nat := 0   -- R453 (17) PLAN_LOAD command in progress, 0 none rst 0
  loadSrc : Nat := 0   -- R453 (17) w48 its SRC rst 0
  loadLen : Nat := 0   -- R453 (17) w32 its LEN rst 0
  run : Option Nat := none -- R465 (17) w512 run state rst none
  stateLoaded : Bool := false -- R458 (17) parameter state loaded rst 0
  blocked : Nat := 0   -- R143, R268, R269 (05) status every RUN_STEP fails with until a load of parameter state, 0 none rst 0
  groups : Tab Nat := [] -- R242 (10) group records w1024 in force rst 0
  groupSet : List Nat := [] -- R242 (10) groups that hold a record rst empty
  groupPend : List (Nat × Nat × Nat) := [] -- R242 (10) group, step, record waiting rst empty
  cur : Option StepRun := none -- R458 (17) step in progress rst none
  next : Option StepRun := none -- R458 (17) step waiting rst none
  overlap : Option StepRun := none -- R458 (17) step s + 1 started while step s has not completed rst none
  aborts : List Nat := [] -- R460 (17) STEP_ABORT commands that wait for the steps' replies rst empty
  stateCmds : List (Nat × Bool × Nat × Nat) := [] -- R466 (17) STATE_LOAD (false) and STATE_SAVE (true) in progress, oldest first: command, kind, address, length rst empty
  lastStep : Option Nat := none -- R528 (20) last step started rst none
  deriving DecidableEq, Repr

/-- A claim of a tile counter that has been issued and has not ended (R112, R113). -/
structure Claim where
  core : Nat := 0      -- R112 (04) core 0 to 191 rst -
  idx : Nat := 0       -- R112 (04) w20 rst -
  epoch : Nat := 0     -- R112 (04) w4 rst -
  seq : Nat := 0       -- R112 (04) w16 rst -
  cancelled : Bool := false -- R113 (04) rst 0
  claimedAt : Nat := 0 -- R125 (04) device time rst -
  preemptAt : Option Nat := none -- R114 (04) start of the present spell of preemption rst none
  spellUsed : Bool := false -- R114 (04) the spell has queued the index rst 0
  lost : Nat := 0      -- R125 (04) ns the core spent preempted rst 0
  deriving DecidableEq, Repr

/-- A tile counter (R111). -/
structure TileCtr where
  limit : Nat := 0     -- R111 (04) w21 rst 0
  next : Nat := 0      -- R111 (04) w21 rst 0
  seq : Nat := 0       -- R111 (04) w16 LOOP_SEQ rst 0
  st : Nat := 0        -- R111 (04) w2 STATE rst 0
  reissue : Bool := false -- R111 (04) w1 rst 0
  mask : Nat := 0      -- R111 (04) w12 CLUSTER_MASK rst 0
  after : Nat := 0     -- R111 (04) w16 REISSUE_AFTER rst 0
  accepted : Nat := 0  -- R111 (04) w21 rst 0
  sbBase : Nat := 0    -- R111 (04) w48 rst 0
  claims : List Claim := [] -- R111, R112 (04) running claims; RUNNING is their number rst empty
  queue : List (Nat × Nat) := [] -- R114 (04) reissue queue: index and epoch, oldest first rst empty
  epochs : Tab Nat := [] -- R114 (04) highest epoch issued of each index rst 0
  branch : Nat := 0xFF -- R124 (04) branch, 0xFF shared rst 0xFF
  padSkip : Bool := false -- R307 (12) the armed loop is PAD_SKIP rst 0
  live : Bool := false -- R560 (04) armed by a live task rst 0
  doneAt : Nat := 0    -- R529 (20) device time at which STATE last became DONE rst 0
  deriving DecidableEq, Repr

/-- A frame pool (R193, R452). -/
structure Pool where
  inUse : Bool := false -- R452 (17) rst 0
  frameBytes : Nat := 0 -- R452 (17) w32 rst 0
  base : Nat := 0      -- R452 (17) w48 rst 0
  frames : Nat := 0    -- R452 (17) w32 rst 0
  recs : Tab Nat := [] -- R193 (07) pool record w64 of each frame rst 0
  deriving DecidableEq, Repr

/-- A sequence table (R191, R192). -/
structure SeqTab where
  inUse : Bool := false -- R192 (07) rst 0
  pool : Nat := 0      -- R0x0212 (17) w2 rst 0
  entries : Nat := 0   -- R0x0212 (17) w16 rst 0
  ring : Nat := 0      -- R184 (07) w8 RING_PAGES rst 0
  ents : Tab Nat := [] -- R191 (07) entries w64 rst 0 INVALID
  deriving DecidableEq, Repr

/-- A key-value page on its way round the ring (R197, R198). -/
structure PageXfer where
  src : Nat := 0       -- R197 (07) sending pod rst -
  dst : Nat := 0       -- R197 (07) receiving pod rst -
  hops : Nat := 0      -- R197 (07) hops that remain after arrival rst -
  key : Nat := 0       -- R198 (07) the step it belongs to rst -
  lpage : Nat := 0     -- R197 (07) w24 rst -
  table : Nat := 0     -- R192 (07) w12 rst -
  srcAddr : Nat := 0   -- R197 (07) frame address in the sending pod rst -
  dstAddr : Nat := 0   -- R198 (07) frame address in the receiving pod rst -
  bytes : Nat := 0     -- R190 (07) frame size rst -
  deriving DecidableEq, Repr

/-- A frame that a pod has taken for a page it receives (R198). -/
structure StepFrame where
  pool : Nat := 0      -- R198 (07) w2 rst -
  frame : Nat := 0     -- R198 (07) index in the pool rst -
  key : Nat := 0       -- R198 (07) the step it belongs to rst -
  table : Nat := 0     -- R192 (07) w12 rst -
  lpage : Nat := 0     -- R197 (07) w24 rst -
  deriving DecidableEq, Repr

/-- A pod (R107, R111, R192, R193, R264). -/
structure Pod where
  ctrs : Tab TileCtr := [] -- R111 (04) 64 tile counters rst each at its fields' values
  pools : Tab Pool := [] -- R452 (17) 4 pools rst none
  seqs : Tab SeqTab := [] -- R192 (07) 4,096 sequence tables rst none
  epoch : Nat := 0     -- R193 (07) w32 EPOCH rst 0
  readers : List (Nat × Nat) := [] -- R193 (07) open readers: work key and epoch rst empty
  fence : Tab Nat := [] -- R264 (10) 4,095 entries w64 rst DC12 0
  cost : Tab Nat := [] -- R125 (04) measured cost of each branch in the step, ns rst 0
  prevCost : Tab Nat := [] -- R126 (04) measured costs of the previous step rst 0
  xfers : List PageXfer := [] -- R197 (07) pages to send, in order rst empty
  stepFrames : List StepFrame := [] -- R198 (07) frames taken for the pages of a step rst empty
  stepWrites : List (Nat × Nat × Nat × Nat) := [] -- R195 (07) frames that a work writes: work key, table, logical page, address rst empty
  priv : Tab (List (Nat × Nat)) := [] -- R192 (07) private tables of readers are in memory; tables copied, by work key: table and address rst empty
  deriving DecidableEq, Repr

/-- A descriptor that a unit runs (R54, R96). -/
structure Op where
  desc : Nat := 0      -- R94 (04) the issued copy, patches applied rst -
  size : Nat := 0      -- R95 (04) bytes rst -
  tiles : Nat := 0     -- R88 (03) output tiles completed in walk order rst 0
  body : Bool := false -- R110 (04) it belongs to a tile loop's body rst -
  stopped : Bool := false -- R88 (03) stopped at a stop point rst 0
  deriving DecidableEq, Repr

/-- The tile loop a core is in (R110). -/
structure LoopRun where
  desc : Nat := 0      -- R108 (04) the CLAIM descriptor rst -
  pc : Nat := 0        -- R94 (04) stream offset of the body rst -
  body : List (Nat × Nat) := [] -- R108 (04) body descriptors, stream offset and size rst -
  seq : Nat := 0       -- R560 (04) w16 loop sequence number claimed rst -
  idx : Option Nat := none -- R112 (04) tile held rst none
  epoch : Nat := 0     -- R112 (04) w4 rst -
  record : Nat := 0    -- R108 (04) w1024 tile record of the tile held rst 0
  at_ : Nat := 0       -- R110 (04) next body descriptor rst 0
  padC : Option Nat := none -- R307 (12) C of the pad test rst none
  waitClaim : Bool := true -- R112 (04) the core waits for a claim rst -
  deriving DecidableEq, Repr

/-- A core's stream and the units that serve it (R94 to R98). -/
structure Ctx where
  plan : Nat := 0      -- R94 (04) plan handle rst -
  live : Bool := false -- R94 (04) a live task's stream rst -
  stream : Nat := 0    -- R364 (14) live stream rst -
  step : Nat := 0      -- R220 (09) w64 step or release beat rst -
  seed : Nat := 0      -- R220 (09) w64 run or stream seed rst -
  second : Bool := false -- R458 (17) it serves step s + 1 rst -
  off : Nat := 0       -- R455 (17) stream start in section 4 rst -
  pc : Nat := 0        -- R94 (04) offset of the next descriptor rst -
  ended : Bool := false -- R94 (04) END reached rst -
  events : Tab Nat := [] -- R97 (04) 16 event counters w16 rst 0
  ops : Tab (Option Op) := [] -- R96 (04) units 0 to 3 engines, 4 vector, 5 DMA, 6 attention rst free
  loop : Option LoopRun := none -- R110 (04) tile loop rst none
  arrivals : List (Nat × Nat × Nat × Nat) := [] -- R148, R384 (05) arrival signals due: pod, core, event, and the host window written: 0 none, 1 A, 2 B rst empty
  deriving DecidableEq, Repr

/-- A core (R91, R366). -/
structure Core where
  run : Nat := 0       -- R366 (14) 0 idle, 1 running, 2 stopping, 3 saving, 4 saved (a live task has the core), 5 restoring rst 0
  ctx : Option Ctx := none -- R94 (04) stream that has the core rst none
  saved : Option Ctx := none -- R366 (14) context of the preempted training stream rst none
  stopAt : Nat := 0    -- R366 (14) device time of the preemption request rst 0
  since : Nat := 0     -- R366 (14) device time at which the save or the restore began rst 0
  overrun : Bool := false -- R366 (14) SLICE_OVERRUN counted for the request rst 0
  poison : Tab Nat := [] -- R69 (03) INT8 poison bits w128 of accumulator tile 16e + t rst 0
  savedAcc : Tab Byte := [] -- R26, R366 (14) accumulator memory of the preempted stream rst empty
  savedBad : Tab Bool := [] -- R142 (05) its parity marks rst empty
  savedPz : Tab Nat := [] -- R69 (03) its poison bits rst empty
  deriving DecidableEq, Repr

/-- Where a shard's state block lies (R247, R256). -/
structure Blk where
  layer : Nat := 0     -- R247 (10) w12 rst -
  tensor : Nat := 0    -- R247 (10) w4 rst -
  shard : Nat := 0     -- R241 (10) rst -
  home : Nat := 0      -- R247 (10) w2 HOME rst -
  addr : Nat := 0      -- R256 (10) address of the home copy rst -
  size : Nat := 0      -- R248 (10) bytes rst -
  stage : Option Nat := none -- R258 (10) address of the staged copy rst none
  writing : Bool := false -- R258, R259 (10) write-back under way rst 0
  used : Bool := false -- R258 (10) both passes of the step are done rst 0
  deriving DecidableEq, Repr

/-- A reduced gradient of a shard held in GRADBUF or PARK (R260). -/
structure GSlot where
  blk : Nat := 0       -- R260 (10) index of the block rst -
  addr : Nat := 0      -- R260 (10) address of the FP32 values rst -
  park : Bool := false -- R260 (10) in PARK rst -
  second : Bool := false -- R458 (17) of step s + 1 rst -
  deriving DecidableEq, Repr

/-- A layer's way through a step's update (R246, R260, R261). -/
structure LayerRun where
  reduced : Bool := false -- R246 (10) last element reduced rst 0
  nonfinite : Bool := false -- R246 (10) rst 0
  deferred : Bool := false -- R260 (10) rst 0
  queued : Bool := false -- R261 (10) taken into the ready order rst 0
  queuedAt : Nat := 0 -- R529 (20) device time of that rst 0
  done : Bool := false -- R268 (10) updated or nothing to do rst 0
  skip : Bool := false -- R237 (09) skipped rst 0
  stuck : Bool := false -- R269 (10) quarantined: no further pass rst 0
  fenced : Nat := 0    -- R264 (10) w4 pods whose fence entry has advanced rst 0
  resent : Nat := 0    -- R271 (10) w4 pods that have had the layer resent rst 0
  deriving DecidableEq, Repr

/-- Reduction switch, update units, tier manager (R244 to R271). -/
structure Cob where
  plan : Option Nat := none -- R453 (17) the training plan rst none
  step : Nat := 0      -- R244 (10) step whose gradients are being reduced rst 0
  active : Bool := false -- R244 (10) a step is in the Cob's hands rst 0
  blks : List Blk := [] -- R241, R256 (10) every shard in increasing layer, tensor, shard rst empty
  sent : Tab Nat := [] -- R244 (10) chunks each pod has sent rst 0
  buf : Tab (List (List Nat)) := [] -- R245 (10) per pod, chunks received and not reduced, FP32 codes rst empty
  reducedN : Nat := 0  -- R245 (10) chunks reduced rst 0
  nextShard : Nat := 0 -- R245 (10) shard of the tensor in progress that is reduced next rst 0
  part : List Nat := [] -- R245 (10) reduced FP32 codes of the shard in progress rst empty
  slots : List GSlot := [] -- R260 (10) reduced shards held rst empty
  layers : Tab LayerRun := [] -- R261 (10) by layer rst each at its fields' values
  order : List Nat := [] -- R261 (10) layers that units have taken up, in that order rst empty
  units : Tab (Option (Nat × Nat)) := [] -- R250 (10) pass in progress of each unit: block index and pass number rst none
  passed : List (Nat × Nat) := [] -- R250 (10) passes done of the layer in progress: block index and pass number rst empty
  unitStop : Tab Bool := [] -- R267, R400, R403 (10) unit stopped after its pass rst 0
  stopped : List (Nat × Nat) := [] -- R268 (10) units stopped while layers were in hand: unit, layer rst empty
  deriving DecidableEq, Repr

end Sys2Proof.Machine
end

