-- ==== Sys2Proof/Machine/HostState.lean ====
section
/-! DEFINITION. The state of the platform (start-up, pins, Husk, flash, fault log: spec files 19 and 21), of the two
Kothal ports with their queues, semaphores and ownership table (16), of the cadence unit (14) and of power, heat and
ageing (15). Each field's comment gives the rule, the file of spec/, the width, and the reset value. -/

namespace Sys2Proof.Machine

/-- Where a start stands (R489, R491, R501); READY with FAULT_CODE set is DEVICE_STATE STOPPED. -/
inductive Phase where
  | held | verify | train | selfTest | wipe | ready | failed | dormant
  deriving DecidableEq, Repr

/-- One record of the fault log (R144, R449). -/
structure FaultRec where
  time : Nat := 0     -- R449 (17) w64 rst -
  unit : Nat := 0     -- R449 (17) w8 rst -
  die : Nat := 0      -- R449 (17) w3 rst -
  kind : Nat := 0     -- R449 (17) w5 rst -
  addr : Nat := 0     -- R449 (17) w48 rst -
  opcode : Nat := 0xFFFF -- R449 (17) w16 rst -
  tag : Nat := 0      -- R449 (17) w32 rst -
  port : Nat := 0     -- R449 (17) w2 rst -
  descId : Nat := 0   -- R449 (17) w32 rst -
  deriving DecidableEq, Repr

/-- A firmware update at work (R513). -/
structure FwUpd where
  cmd : Nat := 0      -- R513 (19) the command that carries it rst -
  image : Nat := 0    -- R513 (19) w1 rst -
  data : List Byte := [] -- R513 (19) the verified image rst -
  deriving DecidableEq, Repr

/-- The 64-byte configuration record the board maker programs (R494, R498): full population, ALERT_TEMP 100 and the operating
points of R389 (log entry 6). -/
def bootConfig : List Byte :=
  leBytes 56 (packBits ([(16, 1), (16, 0), (32, 1), (4, 10), (4, 8), (2, 2), (6, 48), (8, 100), (8, 0)]
    ++ [(16, 600), (16, 61), (16, 630), (16, 93), (16, 660), (16, 130), (16, 695), (16, 175)]
    ++ [(16, 720), (16, 210), (16, 750), (16, 252), (16, 780), (16, 299), (16, 810), (16, 350), (96, 0)]))
  ++ leBytes 8 0x8E24_BC56_B81D_0535

/-- The first 48 header bytes of the image in slot A (R495; log entry 6). -/
def bootHeader : List Byte := leBytes 48 (packBits [(16, 1), (16, 0x4800), (8, 0xB0), (24, 0), (32, 1), (32, 1), (256, 0)])

/-- Bytes placed from an address on. -/
def placeBytes (a : Nat) (bs : List Byte) : Tab Byte := bs.zipIdx.map (fun (b, i) => (a + i, b))

/-- Platform: start-up, Husk, OTP, pins, flash and fault log. -/
structure Plat where
  now : Nat := 0            -- R152 (05) w64 rst 0
  powerMark : Nat := 0      -- R489 (19) device time of time 0 of the start rst 0
  stageMark : Nat := 0      -- R490 (19) device time at which the stage began rst 0
  phase : Phase := .verify  -- R489 (19) stage of the start, DEVICE_STATE of R418 rst STARTING
  d2dDone : Bool := false   -- R489 (19) die-to-die links trained rst 0
  gddrDone : Bool := false  -- R489 (19) GDDR7 trained rst 0
  fullStart : Bool := true  -- R450 (17) 1: the start runs from time 0, 0: from GDDR7 training rst 1
  resetN : Bool := true     -- R540 (21) pin RESET_N rst 1 (log entry 1)
  pwrGood : Nat := 0x3F     -- R541 (21) w6 pins PWR_GOOD_0 to 5 rst DC1 0x3F
  brakeN : Bool := true     -- R540 (21) pin POWER_BRAKE_N, internal pull up rst 1
  aonUp : Bool := true      -- R545 (21) VDD_AON is up rst 1 (log entry 1)
  thermAlertLow : Bool := false -- R402 (15) THERM_ALERT_N driven low rst 0
  smbAlertLow : Bool := false   -- R554 (21) SMB_ALERT_N driven low rst 0
  smbOut : List Byte := []  -- R554 (21) bytes of the last block read rst empty
  jtagOut : Nat := 0x14800A1D -- R510 (19) w32 register the TAP last selected: IDCODE rst DC1 0x1480_0A1D
  jtagBypass : Bool := false  -- R510 (19) the TAP stands in BYPASS rst DC1 0
  bootAttempts : Nat := 1   -- R500 (19) w3 rst 1 (0 at VDD_AON rise, one added by the start; log entry 1)
  lastReason : Nat := 0     -- R503, R504 (19) w8 LAST_START_REASON rst 0
  dormantReason : Nat := 0  -- R503, R504 (19) w8 rst 0
  faultCode : Nat := 0      -- R504 (19) w4 FAULT_CODE rst 0
  faultTime : Nat := 0      -- R504 (19) w64 rst 0
  imgA : Nat := 4           -- R504 (19) w3 IMAGE_A_STATUS rst FW: DC6 4 NOT_CHECKED
  imgB : Nat := 4           -- R504 (19) w3 IMAGE_B_STATUS rst FW: DC6 4 NOT_CHECKED
  fwLoaded : Bool := false  -- R418 (16) firmware has loaded the FW fields rst 0
  serial : Nat := 0         -- R418 (16) w64 SERIAL rst FW: DC6 0
  fwVersion : Nat := 0      -- R418 (16) w32 rst FW: DC6 0
  fwImage : Nat := 0        -- R418 (16) w1 rst FW: DC6 0
  fwSvn : Nat := 0          -- R495, R512 (19) w7 SVN of the running image rst DC6 0
  fwCommit : Bool := false  -- R495 (19) COMMIT_SVN of the running image rst DC6 0
  fwDigest : Nat := 0       -- R512 (19) w256 PAYLOAD_DIGEST of the running image rst DC6 0
  retired : Nat := 0        -- R418, R128 (16) w48 RETIRED_MASK rst FW: DC6 0
  podDevices : Nat := 10    -- R418, R135 (16) w4 rst FW: DC6 10
  cobDevices : Nat := 8     -- R418, R135 (16) w4 rst FW: DC6 8
  density : Nat := 2        -- R418 (16) w2 rst FW: DC6 2
  gddrRate : Nat := 48      -- R418 (16) w6 rst FW: DC6 48
  alertTemp : Nat := 100    -- R402, R498 (15) w8 rst 100
  opTable : List (Nat × Nat) := [(600, 61), (630, 93), (660, 130), (695, 175), (720, 210), (750, 252), (780, 299), (810, 350)]
                            -- R389, R498 (15) 8 points (mV, 0.1 W) rst the defaults of R389
  lcWord : Nat := 1         -- R499, R505 (19) w3 LC_WORD rst DC7 1 PROVISIONED
  lcPrior : Nat := 1        -- R499, R506 (19) w3 prior state while in DEBUG_OPEN rst DC7 1
  lcCount : Nat := 1        -- R499 (19) w11 LC_COUNT rst DC7 1
  svnFloor : Nat := 0       -- R499 (19) w7 SVN_FLOOR rst DC7 0
  failLimit : Nat := 3      -- R499 (19) w3 FAIL_LIMIT rst 3
  customerKey : Nat := 0    -- R499 (19) w256 CUSTOMER_KEY rst DC7 0 (none)
  secretSeed : Nat := 0     -- R499 (19) w256 SECRET_SEED rst DC7 0
  attestStep : Nat := 0     -- R499 (19) w13 ATTEST_STEP rst DC7 0
  attestReady : Bool := false -- R504 (19) ATTEST_READY rst 0
  attestTree : Nat := 0     -- R511 (19) w3 tree j in use rst 0
  attestLeaf : Nat := 0     -- R511 (19) w16 bottom leaves spent of that tree rst 0
  attestActive : Bool := false -- R511 (19) this start advanced ATTEST_STEP rst 0
  flash : Tab Byte := placeBytes 0 bootHeader ++ placeBytes 0x3000000 bootConfig -- R494, R555 (19) 64 MiB, an unlisted byte reads 0xFF rst DC6 header A and configuration record
  fwUpd : Option FwUpd := none -- R513 (19) update in progress rst none
  resetAt : Option Nat := none -- R450 (17) a RESET acts 10 us after this reply time rst none
  lifeAt : Option Nat := none  -- R508 (19) a life-cycle restart acts 10 us after this time rst none
  faultLog : List FaultRec := [] -- R144, R493 (05) at most 64 records, oldest first rst empty
  faultLost : Nat := 0      -- R144, R449 (05) w32 records not kept rst 0
  freeCount : Nat := 0      -- none: the model's own index of the next free value rst DC8 0
  deriving DecidableEq, Repr

/-- A fetched packet (R426): header fields, parameter bytes as one number, and whether RESERVED header bits are 0. -/
structure Packet where
  opcode : Nat := 0       -- R426 (16) w16 rst -
  ordered : Bool := false -- R426 (16) w1 rst -
  silent : Bool := false  -- R426 (16) w1 rst -
  dlEn : Bool := false    -- R426 (16) w1 rst -
  latchEn : Bool := false -- R426 (16) w1 rst -
  tag : Nat := 0          -- R426 (16) w32 rst -
  queue : Nat := 0        -- R426 (16) w3 rst -
  latchSet : Nat := 0     -- R426 (16) w8 rst -
  plen : Nat := 0         -- R426 (16) w12 PARAM_LEN rst -
  dlBeat : Nat := 0       -- R426 (16) w48 rst -
  dlPhase : Nat := 0      -- R426 (16) w24 rst -
  params : Nat := 0       -- R426 (16) the PARAM_LEN parameter bytes rst -
  deriving DecidableEq, Repr

/-- A queue block (R419) with the packets fetched and not started (R422) and the interrupt hold-off (R425). -/
structure Queue where
  cqBase : Nat := 0     -- R419 (16) w48 rst 0
  cqLog2 : Nat := 4     -- R419 (16) w5 rst 4
  enable : Bool := false -- R419 (16) w1 rst 0
  prio : Nat := 0       -- R419 (16) w2 PRIORITY rst 0
  irqEn : Bool := false -- R419 (16) w1 rst 0
  holdoff : Nat := 0    -- R419 (16) w16 IRQ_HOLDOFF rst 0
  cqTail : Nat := 0     -- R419 (16) w32 rst 0
  cqHead : Nat := 0     -- R419 (16) w32 rst 0
  rqBase : Nat := 0     -- R419 (16) w48 rst 0
  rqLog2 : Nat := 8     -- R419 (16) w5 rst 8
  rqTail : Nat := 0     -- R419 (16) w32 rst 0
  rqHead : Nat := 0     -- R419 (16) w32 rst 0
  shadow : Nat := 0     -- R419 (16) w48 RQ_SHADOW rst 0
  qstate : Nat := 0     -- R419 (16) w2 STATE rst 0
  err : Nat := 0        -- R419 (16) w4 ERROR_CODE rst 0
  fetched : List Packet := [] -- R422 (16) packets fetched and not started rst empty
  reserved : Nat := 0   -- R431 (16) reply-ring entries reserved for commands in progress rst 0
  lastIrq : Option Nat := none -- R425 (16) device time of the last interrupt message rst none
  irqHeld : Bool := false -- R425 (16) a held-back message rst 0
  deriving DecidableEq, Repr

/-- A command that has started and has no final reply. -/
structure Cmd where
  id : Nat := 0          -- none: the model's own name of a command in progress rst -
  port : Nat := 0        -- R426 (16) issuing port rst -
  queue : Nat := 0       -- R419 (16) issuing queue 0 to 15 rst -
  rq : Nat := 0          -- R426 (16) reply queue 0 to 15 rst -
  pkt : Packet := {}     -- R426 (16) its header rst -
  latch : List (Nat × Nat) := [] -- R520 (20) identifiers and start values rst -
  endLatch : Option (Nat × Nat × Nat × List Nat) := none -- R520 (20) final status, detail, end time, extended entries waiting for the end latch rst -
  startedAt : Nat := 0   -- R520 (20) device time of the start rst -
  deriving DecidableEq, Repr

/-- A port: link registers (R420) and the read latches of R154 and R358. -/
structure Port where
  up : Bool := false     -- R420 (16) w1 LINK_UP rst 0
  width : Nat := 0       -- R420 (16) w2 rst 0
  rate : Nat := 0        -- R420 (16) w2 rst 0
  irqEn : Bool := false  -- R420 (16) w1 PORT_IRQ_EN rst 0
  downs : Nat := 0       -- R420 (16) w32 LINK_DOWN_EVENTS rst 0
  fecCorr : Nat := 0     -- R420 (16) w32 FEC_CORRECTED rst 0
  fecUncorr : Nat := 0   -- R420 (16) w32 FEC_UNCORRECTED rst 0
  winErr : Nat := 0      -- R420 (16) w32 WINDOW_ERROR rst 0
  downAt : Option Nat := none -- R437 (16) device time since which LINK_UP has read 0 rst none
  lastRead : Nat := 0    -- R416 (16) w64 value the last window read returned rst DC9 0
  devHi : Nat := 0       -- R154 (05) w32 latched upper half of DEVICE_TIME rst DC9 0
  phaseLatch : Option Nat := none -- R358 (14) w24 latched PHASE_NOW rst none
  startLatch : Option Nat := none -- R358 (14) w64 latched BEAT_START rst none
  deriving DecidableEq, Repr

/-- A GPIO pin (R542, R543). -/
structure Gpio where
  mode : Nat := 0        -- R542, R0x0012 (21) w2 0 input rst 0
  value : Bool := false  -- R543 (21) w1 output value rst 0
  alt : Nat := 0         -- R542 (21) w4 rst 0
  input : Bool := false  -- R542 (21) w1 level the board drives, internal pull down rst 0
  pulse : Option Nat := none -- R360 (14) device time at which a pulse ends rst none
  deriving DecidableEq, Repr

/-- A reply of an event slot, a timer or a live task that waits for free entries (R431). -/
structure SlotReply where
  rq : Nat := 0          -- R431 (16) reply queue 0 to 15 rst -
  tag : Nat := 0         -- R428 (16) w32 rst -
  status : Nat := 0      -- R428 (16) w4 rst -
  detail : Nat := 0      -- R428 (16) w16 rst -
  ext : List Nat := []   -- R428 (16) extended entries rst -
  beat : Nat := 0        -- R428 (16) w48 rst -
  phase : Nat := 0       -- R428 (16) w24 rst -
  since : Nat := 0       -- R431 (16) device time since which it waits rst -
  deriving DecidableEq, Repr

/-- Ports, queues, semaphores, ownership table, commands in progress, latch sets. -/
structure HostIf where
  ports : Tab Port := []     -- R420 (16) two ports, 0 A and 1 B rst each at its fields' values
  queues : Tab Queue := []   -- R419 (16) queues 0 to 7 of A, 8 to 15 of B rst each at its fields' values
  lastStart : Nat := 15      -- R423 (16) queue that started last rst DC9 15
  inProg : List Cmd := []    -- R419 (16) commands in progress rst empty
  nextCmd : Nat := 1         -- none: the model's next command name rst DC9 1
  sems : Tab Nat := [(0, 3), (1, 3), (2, 3), (3, 3)] -- R434, R436 (16) 64 owners w2 rst 0; CP on 0 to 3 while STARTING
  owner : Tab Nat := []      -- R438 (16) ownership table, owner w2 of each resource ID rst 0
  irqs : List (Nat × Nat) := [] -- R425, R484 (16) interrupt messages sent (port, vector), newest first rst empty
  gpio : Tab Gpio := []      -- R542 (21) pins 0 to 15 rst input
  waiting : List SlotReply := [] -- R431 (16) slot and timer replies that wait rst empty
  latchSets : Tab (List Nat) := [] -- R519 (20) 64 sets of 16 identifiers; unlisted is 16 unused slots rst unused
  deriving DecidableEq, Repr

/-- A scheduler timer (R362). -/
structure Timer where
  on : Bool := false      -- R362 (14) running rst 0
  port : Nat := 0         -- R438 (16) owning port rst 0
  periodic : Bool := false -- R362 (14) w1 rst 0
  interval : Nat := 0     -- R362 (14) w32 us rst 0
  next : Nat := 0         -- R362 (14) device time of the next firing rst 0
  slot : Nat := 0         -- R360 (14) w256 slot record rst 0
  deriving DecidableEq, Repr

/-- An event slot in use (R360, R361). -/
structure Slot where
  record : Nat := 0       -- R360 (14) w256 rst -
  owner : Nat := 0        -- R360 (14) w2 rst -
  nextBeat : Nat := 0     -- R361 (14) w48 beat of the next firing rst -
  deriving DecidableEq, Repr

/-- A released live task of a stream (R364, R367): waiting or running. -/
structure Task where
  frame : Nat := 0          -- R364 (14) w48 SAMPLE_INDEX k rst -
  releasedAt : Nat := 0     -- R364 (14) device time rst -
  readyAt : Option Nat := none -- R364 (14) device time at which it became able to start rst -
  startedAt : Option Nat := none -- R366 (14) device time rst -
  runAt : Option Nat := none -- R366 (14) device time at which every core was idle or saved rst -
  missed : Bool := false    -- R376 (14) deadline passed rst -
  queued : Bool := false    -- R377 (14) tasks of other streams ran ahead rst -
  slow : Bool := false      -- R377 (14) the set ran below F_LIVE rst -
  dropped : Bool := false   -- R376 (14) stopped at the deadline under DROP rst -
  bad : Nat := 0            -- R143, R187 (05) status that decides the task, 0 none rst -
  fault : Nat := 0          -- R459 (17) w128 work-fault entry rst -
  bases : Tab Nat := []     -- R560 (04) base B of each tile counter rst -
  armed : Tab Nat := []     -- R560 (04) loops armed so far on each counter rst -
  deriving DecidableEq, Repr

/-- The live input of a frame (R325). -/
structure LiveInput where
  frame : Nat := 0          -- R325 (12) w48 rst -
  ready : Nat := 0          -- R377 (14) device time at which it was ready rst -
  arrival : Nat := 0        -- R377 (14) device time at which its last flit arrived rst -
  allow : Nat := 0          -- R370, R377 (14) D_dec in ns rst -
  stale : Bool := false     -- R326 (12) STALE rst -
  deriving DecidableEq, Repr

/-- An open live stream (R325, R461). -/
structure Stream where
  opened : Bool := false    -- R461 (17) rst 0
  port : Nat := 0           -- R445 (17) opening port rst 0
  record : Nat := 0         -- R461 (17) w640 stream record rst 0
  slot : Nat := 0           -- R360 (14) its event slot rst 0
  order : Nat := 0          -- R365 (14) opening order rst 0
  reservedNow : Bool := false -- R365 (14) the reservation has taken effect rst 0
  clusters : List Nat := [] -- R365 (14) cluster set, 12p + k rst empty
  nextFrame : Nat := 0      -- R364 (14) next frame not yet released rst 0
  waiting : Option Task := none -- R367 (14) at most one waiting rst none
  running : Option Task := none -- R367 (14) at most one running rst none
  closing : Option Nat := none -- R461 (17) command that closes it rst none
  inputs : List LiveInput := [] -- R325 (12) live inputs that are ready rst empty
  badInputs : List (Nat × Nat) := [] -- R329 (12) frames without input and the status of their task rst empty
  rois : List (Nat × Nat) := [] -- R326 (12) region lists written: frame and 256-byte list, newest first rst empty
  deriving DecidableEq, Repr

/-- The cadence unit, its slots and timers, and the live streams. -/
structure Cad where
  beat : Nat := 0           -- R345, R347 (14) w48 rst 0
  start : Nat := 0          -- R345 (14) w64 start of the current beat rst 0
  cfg : Nat := packBits [(32, 40000000), (16, 1), (3, 1), (2, 0), (1, 0), (2, 1), (8, 3)] -- R348 (14) w64 CAD_CONFIG rst as R348
  lock : Nat := packBits [(17, 1000), (15, 0), (24, 0), (8, 0)] -- R348 (14) w64 LOCK_CONFIG rst as R348
  sched : Nat := packBits [(9, 100), (20, 1000), (24, 0)] -- R348 (14) w64 SCHED_CONFIG rst as R348
  pend : Option (Nat × Nat × Nat) := none -- R348 (14) configuration that takes effect at the next beat start rst none
  mode : Nat := 0           -- R359 (14) w2 STATE rst 0 FREE_RUN
  pEst : Nat := 40000000 * 65536 -- R345, R349 (14) w48 rst the nominal period under FREE
  anchorBeat : Nat := 0     -- R349, R351 (14) beat from which free running or holdover counts rst 0
  anchorStart : Nat := 0    -- R349, R351 (14) its device time rst 0
  lockBeat : Nat := 0       -- R352 (14) beat at which lock began rst 0
  expired : Bool := false   -- R351, R359 (14) w1 HOLDOVER_EXPIRED rst 0
  pBeat : Nat := 40000000 * 65536 -- R346 (14) w48 P_EST when the current beat started rst the nominal period under FREE
  lastRef : Option Nat := none -- R350 (14) stamp of the last reference event that counts rst none
  refSeen : Option Nat := none -- R359 (14) stamp of the last reference event, ignored ones included rst none
  lastSync : Option Nat := none -- R355 (14) device time of the last sync record rst none
  ptpOff : Option Int := none -- R355 (14) estimated PTP time less device time rst none
  agree : Nat := 0          -- R351 (14) consecutive intervals that agree rst 0
  intervals : List Nat := [] -- R351 (14) the last 16 agreeing intervals rst empty
  missed : Nat := 0         -- R351 (14) consecutive expected events missed rst 0
  usedPred : Nat := 0       -- R352 (14) predicted start of the current beat rst 0
  edgeTaken : Option Nat := none -- R352 (14) event accepted in the current window rst none
  stepPend : Bool := false  -- R354 (14) phase step due at the next reference event rst 0
  lockedBeats : Nat := 0    -- R359 (14) w32 rst 0
  missTotal : Nat := 0      -- R358 (14) w32 MISS_TOTAL rst 0
  refError : Int := 0       -- R358 (14) w32 REF_ERROR rst DC9 0
  missLog : Tab Nat := []   -- R379 (14) 16 entries w256 rst 0
  slots : Tab (Option Slot) := [] -- R360 (14) 256 event slots rst free
  timers : Tab Timer := []  -- R362 (14) 8 timers rst unclaimed
  streams : Tab Stream := [] -- R461 (17) 16 live streams rst closed
  nextOrder : Nat := 0      -- R365 (14) opening order of the next stream rst 0
  hist : List (Nat × Nat × Nat) := [] -- R346 (14) past beats: number, start and P_EST at it, newest first rst empty
  lastMiss : Option Nat := none -- R542 (21) device time of the last live miss, for LIVE_MISS_N rst none
  outHigh : Bool := false   -- R357, R540 (14) CADENCE_OUT level rst 0
  outEnd : Option Nat := none -- R360 (14) end of the CADENCE_OUT pulse rst none
  outBeat : Option Nat := none -- R348 (14) beat whose OUT_PHASE pulse has been given rst none
  deriving DecidableEq, Repr

/-- A request for a domain (R385): ON or OFF, and the commands that wait for it. -/
structure Dom where
  st : Nat := 0            -- R383, R405 (15) w3 rst 0 OFF
  pendOn : Bool := false   -- R385 (15) an ON request is pending rst 0
  pendOff : Bool := false  -- R385 (15) an OFF request is pending rst 0
  pendCmds : List Nat := [] -- R385 (15) commands of the pending request rst empty
  onCmds : List Nat := []  -- R385 (15) commands that reply DONE at ON rst empty
  offCmds : List Nat := [] -- R385 (15) commands that reply DONE at OFF rst empty
  wantUp : Bool := false   -- R382, R385 (15) an OFF domain has taken an ON request rst 0
  hold : Nat := 0          -- R388, R405 (15) w2 HOLD rst 0
  dwell : Bool := false    -- R383 (15) the 10 us dwell in OFF runs rst 0
  idleAt : Nat := 0        -- R388 (15) device time since which it has no work rst 0
  temp : Int := 400        -- R398, R405 (15) w16 1/16 degree rst DC10 25 degrees
  stopped : Bool := false  -- R400 (15) clocks stopped by heat rst 0
  ceiling : Nat := 1250    -- R399 (15) f_therm in MHz rst DC10 1250
  freq : Nat := 1250       -- R404, R405 (15) w11 clock in MHz rst DC10 1250
  halted : Bool := false   -- R396 (15) rst 0
  fastHalf : Bool := false -- R397 (15) clock halved by the fast limiter rst 0
  fastStop : Bool := false -- R397 (15) clock stopped by the fast limiter rst 0
  rho0 : Option (Nat × Nat) := none -- R406 (15) first reading, stressed and reference counts rst none
  ai : Nat := 0            -- R407 (15) w16 AGEING_INDEX rst 0
  gb : Nat := 15           -- R408 (15) w8 guard-band in mV rst 15
  gbNew : Nat := 15        -- R408 (15) guard-band that takes effect at the next beat start rst 15
  since : Nat := 0         -- R383 (15) device time at which it entered its state rst 0
  readings : List (Nat × Nat) := [] -- R410 (15) device time and AI of the last 8 readings, newest first rst empty
  nReads : Nat := 0        -- R410 (15) w16 READINGS rst 0
  lastBeat : Nat := 0      -- R410 (15) w48 LAST_BEAT rst 0
  deriving DecidableEq, Repr

/-- A rail group (R393, R405, R549). -/
structure Rail where
  volt : Nat := 750        -- R544 (21) w16 mV rst 750 (the regulators' strap)
  target : Nat := 750      -- R391 (15) w16 commanded mV rst DC10 750
  waitV : Bool := false    -- R391 (15) waits for the regulator rst 0
  failed : Bool := false   -- R549 (21) bus failed rst 0
  cur : Nat := 0           -- R405 (15) w16 CURRENT, 100 mA rst 0
  curMax : Nat := 0        -- R405 (15) w16 rst 0
  mV : Nat := 0            -- R405 (15) w16 VOLTAGE rst 0
  acc : Nat := 0           -- R405 (15) energy since the last snapshot, 10 nJ rst 0
  cmdAt : Nat := 0         -- R549 (21) device time of the voltage command rst 0
  failAt : Nat := 0        -- R549 (21) device time of the failure or last retry rst 0
  answers : Bool := false  -- R549 (21) the bus answers again rst 0
  fastAt : Option Nat := none -- R397 (15) device time at which the fast limiter acted rst none
  deriving DecidableEq, Repr

/-- Power, heat and ageing. -/
structure Pow where
  doms : Tab Dom := [(64, { st := 1 }), (65, { st := 1 })] -- R381, R383 (15) domains 0 to 84 and the Cob base as 85 rst OFF; 64 and 65 POWERING_UP (log entry 11)
  rails : Tab Rail := []   -- R393 (15) groups 0 to 5 rst each at its fields' values
  budget : Nat := packBits [(32, 0), (12, 2150), (12, 2500), (4, 7), (4, 0), (24, 10000), (11, 400)] -- R392 (15) w128 rst as R392
  budgetPend : Option Nat := none -- R392 (15) record for the next beat start rst none
  op : Nat := 7            -- R394 (15) w3 training point rst DC10 7
  floorRun : Bool := false -- R394 (15) training runs at f_floor rst 0
  energyE : Nat := 0       -- R405 (15) w32 E of the beat in mJ rst 0
  reserve : Nat := 0       -- R405 (15) live reserve in 10 mJ rst 0
  samples : List (Nat × Nat × Nat) := [] -- R393 (15) rail samples: device time, energy and fixed part in 10 nJ, newest first rst empty
  energyTotal : Nat := 0   -- R405 (15) w64 energy since RESET_N in 10 nJ rst 0
  fixedPrev : Nat := 0     -- R394 (15) fixed energy of the previous beat scaled to this one, in 10 nJ rst DC10 0
  trip : Bool := false     -- R401 (15) THERMAL_TRIP rst 0
  dead : Bool := false     -- R143 (05) FATAL_PARITY has stopped all work rst 0
  brakeActed : Bool := false -- R403 (15) the brake is in force rst 0
  brakeReplan : Bool := false -- R403 (15) plan afresh at the next checkpoint rst 0
  lastCheck : Nat := 0     -- R394 (15) device time of the last plan rst 0
  lastSnap : Nat := 0      -- R405 (15) device time of the last snapshot rst 0
  brakeUnits : List Nat := [] -- R403 (15) update units that come up again after the brake rst empty
  mirror : Tab Nat := []   -- R405 (15) telemetry mirror, 64-bit words by offset rst 0
  deriving DecidableEq, Repr

end Sys2Proof.Machine
end

