-- ==== Sys2Proof/Machine/UnitState.lean ====
section
/-! DEFINITION. The state of the Huller and the sample shaper (spec files 11, 12), the video encoder (13), the mover
channels (18), and trace buffers and tensor dumps (20). -/

namespace Sys2Proof.Machine

/-- An ingest ring (R462). -/
structure Ring where
  on : Bool := false    -- R462 (17) configured rst 0
  port : Nat := 0       -- R438 (16) owning port rst -
  live : Bool := false  -- R462 (17) KIND rst -
  log2 : Nat := 6       -- R462 (17) w5 rst -
  entry : Nat := 0      -- R462 (17) w48 ENTRY_BASE rst -
  comp : Nat := 0       -- R462 (17) w48 COMP_BASE rst -
  batch : Nat := 0      -- R462 (17) w48 BATCH_BASE rst -
  hand : Nat := 0       -- R462 (17) w48 HANDOFF_BASE rst -
  tail : Nat := 0       -- R462 (17) w32 producer index rst 0
  bells : List (Nat × Nat) := [] -- R377 (14) producer indices that doorbells gave, oldest first, with their device times rst empty
  head : Nat := 0       -- R462 (17) w32 consumer index rst 0
  compIdx : Nat := 0    -- R462 (17) w32 completion records written rst 0
  batchIdx : Nat := 0   -- R462 (17) w32 batch records written rst 0
  handIdx : Nat := 0    -- R462 (17) w32 handoff records written rst 0
  closing : Nat := 0    -- R0x0604 (17) INGEST_RING_CLOSE in progress, 0 none rst 0
  ordinal : Nat := 0    -- R311 (12) samples taken since the configuration rst 0
  steps : Nat := 0      -- R312 (12) batches consumed by RUN_STEP since the configuration rst 0
  jobsLeft : Nat := 0   -- R309 (12) job records of the sample taken last that still stand on the ring rst 0
  prepLeft : Nat := 0   -- R309 (12) its prepared entries that still stand behind them rst 0
  deriving DecidableEq, Repr

/-- A table generation (R299 to R302). -/
structure Gen where
  media : Bool := false -- R299 (11) kind rst -
  num : Nat := 0        -- R299 (11) w32 rst -
  slot : Nat := 0       -- R273, R299 (11) w2 rst -
  loading : Nat := 0    -- R301 (11) load command in progress, 0 none rst -
  newest : Bool := false -- R299 (11) rst -
  src : Nat := 0        -- R0x0605 (17) w48 source of the load rst -
  len : Nat := 0        -- R0x0605 (17) w32 length of its image, which stands in its slot of TABLES rst -
  deriving DecidableEq, Repr

/-- A job taken from a ring (R277, R280). -/
structure Job where
  id : Nat := 0         -- none: submission order rst -
  ring : Nat := 0       -- R462 (17) rst -
  record : Nat := 0     -- R277 (11) w512 rst -
  gen : Nat := 0        -- R301 (11) bound generation rst -
  sample : Option Nat := none -- R309 (12) ordinal of its sample rst -
  engine : Option Nat := none -- R280 (11) block of R324 that runs it rst none
  started : Nat := 0    -- R320 (12) device time at which it last began to run rst 0
  ran : Nat := 0        -- R320 (12) ns of running time so far rst 0
  paused : Bool := false -- R280 (11) interrupted by a live job rst 0
  withdrawn : Bool := false -- R319 (12) rst 0
  lastEngine : Nat := 0 -- R278 (11) engine that ran it last rst 0
  takenAt : Nat := 0    -- R280 (11) device time at which the Huller took it rst -
  arrived : Nat := 0    -- R377 (14) device time of the doorbell that handed it over rst -
  ahead : List Nat := [] -- R285 (11) live jobs queued ahead of it on its engine and not yet complete rst empty
  bound : Nat := 0      -- R285, R370 (11) ns of D of those that are complete rst 0
  spill : Nat := 0      -- R274 (11) spill bytes that its working planes take while it runs rst 0
  moved : Bool := false -- R281 (11) it waits for its context to move to its engine rst 0
  deriving DecidableEq, Repr

/-- A decoded or prepared object that waits for the shaper (R288, R289, R310). -/
structure Media where
  sample : Option Nat := none -- R311 (12) ordinal, none for a live frame rst -
  stream : Nat := 0     -- R325 (12) live stream rst -
  frame : Nat := 0      -- R325 (12) w48 SAMPLE_INDEX rst -
  segment : Nat := 0    -- R304 (12) w8 rst -
  job : Nat := 0        -- R315 (12) its job, in submission order rst -
  pts : Nat := 0        -- R306 (12) w64 rst -
  data : List Byte := [] -- R288, R289, R298 (11) the object's bytes rst -
  mats : List Byte := [] -- R314 (12) header and colour matrices of the bound MEDIA generation rst -
  at_ : Nat := 0        -- R377 (14) device time at which it reached the shaper rst -
  arrival : Nat := 0    -- R377 (14) device time of the doorbell that handed its job over rst -
  bound : Nat := 0      -- R285, R370 (11) ns of D of its picture and of those queued ahead of it rst 0
  deriving DecidableEq, Repr

/-- A segment of a sample (R304, R306). -/
structure SampleSeg where
  num : Nat := 0        -- R304 (12) w8 rst -
  region : Nat := 0     -- R304 (12) w2 rst -
  jobs : Nat := 0       -- R304 (12) its jobs not yet complete rst -
  pts : Nat := 0        -- R306 (12) w64 PTS of its first unit rst -
  start : Nat := 0      -- R306 (12) w24 first position rst 0
  len : Nat := 0        -- R306 (12) w24 positions rst 0
  shaped : Bool := false -- R304 (12) it stands in the batch rst 0
  deriving DecidableEq, Repr

/-- A sample taken by the shaper (R309, R311). -/
structure Sample where
  ord : Nat := 0        -- R311 (12) ordinal rst -
  index : Nat := 0      -- R309 (12) w48 SAMPLE_INDEX rst -
  pos : Nat := 0        -- R320 (12) ring position of its record rst -
  jobs : List Nat := [] -- R309 (12) its jobs taken and not yet complete rst -
  total : Nat := 0      -- R309 (12) its job records rst -
  toTake : Nat := 0     -- R309 (12) those that still stand on the ring rst -
  prepsToTake : Nat := 0 -- R309 (12) its prepared entries that still stand on the ring rst -
  doneAt : Nat := 0     -- R321 (12) DONE_TIME of its last completion record rst 0
  segs : List SampleSeg := [] -- R304 (12) segments by rising number rst -
  budget : Nat := 0     -- R320 (12) w16 us rst -
  decode : Nat := 0     -- R320 (12) ns of decode time of its complete jobs rst 0
  status : Nat := 0     -- R323 (12) w4 SLOT_STATUS rst 0
  pad : Nat := 0        -- R305 (12) mask value of a pad sample: 0 none, 2 REPLACED, 3 LATE rst 0
  filled : Bool := false -- R323 (12) slot filled rst 0
  overDone : Bool := false  -- R320 (12) over budget already counted rst 0
  late : Bool := false  -- R324 (12) already counted as late rst 0
  gen : Nat := 0        -- R314 (12) MEDIA generation held for prepared pictures, 0 none rst 0
  deriving DecidableEq, Repr

/-- A batch (R303, R323). -/
structure Batch where
  num : Nat := 0        -- R311 (12) k, counted on from the epoch of its ring rst -
  deadline : Option (Nat × Nat) := none -- R320 (12) beat and phase rst -
  late : Bool := false  -- R320 (12) rst 0
  ready : Bool := false -- R323 (12) rst 0
  readyAt : Nat := 0    -- R323 (12) device time rst 0
  padded : Nat := 0     -- R323 (12) w16 PADDED_MASK rst 0
  used : Bool := false  -- R312 (12) consumed by a step rst 0
  free : Bool := false  -- R312 (12) every step that read it has completed rst 0
  poisoned : Bool := false -- R294 (11) a sample was poisoned rst 0
  deriving DecidableEq, Repr

/-- A stream context of the decoders (R281, R293). -/
structure DecCtx where
  inUse : Bool := false -- R281 (11) rst 0
  bytes : Nat := 0      -- R281 (11) spill bytes taken rst 0
  width : Nat := 0      -- R281 (11) declared width rst 0
  height : Nat := 0     -- R281 (11) declared height rst 0
  broken : Bool := false -- R293 (11) waits for a valid header with random access rst 0
  engine : Option Nat := none -- R281 (11) video engine that holds its state rst none
  state : List Byte := [] -- R281 (11) decoder state rst empty
  refs : List DecPic := [] -- R281 (11) picture stores: pictures available for reference rst empty
  recent : Option DecPic := none -- R291 (11) most recent decoded reference picture rst none
  held : List DecPic := [] -- R283 (11) pictures held for output order rst empty
  field : Option DecPic := none -- R283 (11) first field of a pair rst none
  deriving DecidableEq, Repr

/-- Huller and shaper. -/
structure Ing where
  profile : Option Nat := none -- R463 (17) w2048 rst DC9 none
  dests : List Nat := [] -- R463 (17) 16 records w512 rst DC9 empty
  rings : Tab Ring := [] -- R462 (17) 16 rings rst not configured
  gens : List Gen := []  -- R300 (11) generations alive rst empty
  nextTok : Nat := 1     -- R299 (11) w32 next TOKEN number rst 1
  nextMed : Nat := 1     -- R299 (11) w32 next MEDIA number rst 1
  jobs : List Job := []  -- R280 (11) jobs queued or running, oldest first rst empty
  nextJob : Nat := 1     -- none: next job name rst 1
  media : List Media := [] -- R314 (12) objects that wait for the shaper, oldest first rst empty
  samples : List Sample := [] -- R311 (12) samples of batches being filled rst empty
  batches : List Batch := [] -- R312 (12) batches in the buffers rst empty
  unread : List Nat := [] -- R312 (12) batches not yet opened that no step will read any more rst empty
  ctxs : Tab DecCtx := [] -- R281 (11) 64 stream contexts rst unused
  epoch : Nat := 0       -- none: first batch number of the training ring, a multiple of 12 * 2^32 that no earlier ring used rst DC8 0
  winStart : Nat := 0    -- R324 (12) w64 rst 0
  winBeat : Nat := 0     -- R324 (12) w48 rst 0
  busy : Tab Nat := []   -- R324 (12) ns of busy time by block rst 0
  done : Nat := 0        -- R324 (12) w32 SAMPLES_DONE rst 0
  padded : Nat := 0      -- R324 (12) w32 SAMPLES_PADDED rst 0
  lateN : Nat := 0       -- R324 (12) w32 SAMPLES_LATE rst 0
  decSum : Nat := 0      -- R324 (12) ns of decode time of finished samples rst 0
  decN : Nat := 0        -- R324 (12) finished samples rst 0
  decMax : Nat := 0      -- R324 (12) ns DECODE_MAX rst 0
  decMaxIdx : Nat := 0   -- R324 (12) w48 MAX_INDEX rst 0
  deriving DecidableEq, Repr

/-- A submitted picture (R336). -/
structure EncSub where
  cmd : Nat := 0        -- R336 (13) its command rst -
  idr : Bool := false   -- R340 (13) FORCE_IDR rst -
  addr : Nat := 0       -- R337 (13) w48 rst -
  pic : List Byte := [] -- R337, R338 (13) the picture's bytes as submitted rst -
  pts : Nat := 0        -- R342 (13) w64 rst -
  seq : Nat := 0        -- R336 (13) submission order rst -
  deriving DecidableEq, Repr

/-- The picture that the encoder codes (R339 to R343). -/
structure EncCur where
  sub : EncSub := {}    -- R336 (13) rst -
  idr : Bool := false   -- R340 (13) rst -
  intra : Nat × Nat := (0, 0) -- R341 (13) intra block columns, first and one past the last rst -
  params : Bool := false -- R341 (13) carries parameter sets rst -
  recovery : Bool := false -- R341 (13) carries a recovery point SEI rst -
  row : Nat := 0        -- R339 (13) rows coded rst 0
  qps : List Nat := []  -- R339 (13) QP of each row coded rst empty
  acc : Nat := 0        -- R339 (13) A_j bits rst 0
  data : List Bool := [] -- R342 (13) slice data of the rows coded and not written rst empty
  changed : Nat := 0    -- R337 (13) 0 while the picture stays as submitted, then an index of free values rst 0
  written : Nat := 0    -- R342 (13) rows whose slices are written rst 0
  bytes : Nat := 0      -- R339 (13) bytes written to the ring, headers and padding included rst 0
  slices : Nat := 0     -- R343 (13) rst 0
  waitAt : Option Nat := none -- R342 (13) device time since which it waits for ring space rst none
  bad : Bool := false   -- R142, R143 (13) the picture's bytes met a parity error rst 0
  deriving DecidableEq, Repr

/-- An encoder session (R334 to R344). -/
structure EncSess where
  opened : Bool := false -- R334 (13) rst 0
  order : Nat := 0      -- R334 (13) order of the claim rst 0
  cfg : Nat := 0        -- R335 (13) w1024 rst 0
  pend : Option Nat := none -- R339 (13) configuration for the next picture rst none
  queue : List EncSub := [] -- R336 (13) up to 4 rst empty
  fill : Nat := 0       -- R339 (13) F rst 0
  qpCarry : Nat := 0    -- R339 (13) w6 rst QP_INIT
  sinceIdr : Nat := 0   -- R341 (13) n rst 0
  ref : List Nat := []  -- R340, R381 (13) reference picture: decoded samples of its planes rst empty
  woff : Nat := 0       -- R342 (13) w64 WRITE_OFFSET rst 0
  needIdr : Bool := true -- R340 (13) the next picture is an IDR picture rst 1
  closeCmd : Nat := 0   -- R344 (13) close in progress, 0 none rst 0
  portLost : Bool := false -- R437 (16) closed by a port reset rst 0
  deriving DecidableEq, Repr

/-- The encoder. -/
structure Enc where
  sess : Tab EncSess := [] -- R334 (13) 4 sessions rst closed
  nextOrder : Nat := 1  -- R334 (13) claim and submission order rst 1
  rr : Nat := 3         -- R336 (13) session served last, for round-robin rst DC9 3
  cur : Option (Nat × EncCur) := none -- R336 (13) session and picture being coded rst none
  deriving DecidableEq, Repr

/-- A mover channel (R468). -/
structure Chan where
  base : Nat := 0       -- R468 (18) w48 RING_BASE rst 0
  log2 : Nat := 4       -- R468 (18) w5 RING_LOG2 rst 4
  prio : Nat := 0       -- R468 (18) w2 PRIORITY rst 0
  irqEn : Bool := false -- R468 (18) w1 rst 0
  tail : Nat := 0       -- R468 (18) w32 rst 0
  head : Nat := 0       -- R468 (18) w32 rst 0
  doneIdx : Nat := 0    -- R468 (18) w32 rst 0
  st : Nat := 0         -- R468 (18) w3 STATE rst 0
  err : Nat := 0        -- R468 (18) w4 ERROR_CODE rst 0
  row : Nat := 0        -- R468 (18) w32 CUR_ROW rst 0
  off : Nat := 0        -- R468 (18) w32 CUR_OFFSET rst 0
  faultAddr : Nat := 0  -- R468 (18) w48 rst 0
  bytes : Nat := 0      -- R468 (18) w64 BYTES rst 0
  cur : Option Nat := none -- R481 (18) w256 the channel's copy of descriptor HEAD rst none
  wb : Option Nat := none -- R476 (18) STATUS of a write-back that has not left rst none
  fence : Bool := false -- R477 (18) waits in a FENCE rst 0
  waitN : Nat := 0      -- R475 (18) bursts it has been passed over for rst 0
  relCmd : Nat := 0     -- R483 (18) CHANNEL_RELEASE in progress, 0 none rst 0
  fail : Option (Nat × Nat × Nat) := none -- R482 (18) failure of the burst in flight: STATUS, address and KIND of R449 rst none
  readyAt : Nat := 0    -- R472 (18) device time since which its next burst is ready rst 0
  deriving DecidableEq, Repr

/-- Mover channels and the engines' round-robin positions. -/
structure Mov where
  chans : Tab Chan := [] -- R467, R468 (18) 96 channels rst each at its fields' values
  last : Tab Nat := []  -- R475 (18) channel served last by engines 0 to 4, by key (engine, channel number) rst DC9 the highest number
  deriving DecidableEq, Repr

/-- A trace buffer (R521, R522). -/
structure TraceBuf where
  armed : Bool := false -- R521 (20) rst 0
  sources : Nat := 0    -- R522 (20) w32 rst 0
  dest : Nat := 0       -- R522 (20) w48 rst 0
  len : Nat := 0        -- R522 (20) w32 rst 0
  widx : Nat := 0       -- R522 (20) w32 WRITE_INDEX rst 0
  dropped : Nat := 0    -- R522 (20) w32 DROPPED rst 0
  lost : Nat := 0       -- R526 (20) records dropped since the last LOST record rst 0
  wrapped : Bool := false -- R522 (20) w1 WRAPPED rst 0
  upCmd : Nat := 0      -- R521 (20) TRACE_ARM that waits for domain 83, 0 none rst 0
  stopCmd : Nat := 0    -- R527 (20) TRACE_STOP in progress, 0 none rst 0
  deriving DecidableEq, Repr

/-- A trace record on its way to the trace unit or held by it (R523, R525). -/
structure TraceRec where
  time : Nat := 0       -- R523 (20) w64 rst -
  die : Nat := 0        -- R523 (20) w3 rst -
  word : Nat := 0       -- R523 (20) w256 rst -
  bufs : List Nat := [] -- R522, R525 (20) buffers whose SOURCES selected it rst -
  late : Bool := false  -- R525 (20) it arrived more than 4 us after its TIME rst 0
  deriving DecidableEq, Repr

/-- A pending dump (R528 to R532). -/
structure Dump where
  cmd : Nat := 0        -- R528 (20) rst -
  plan : Nat := 0       -- R528 (20) w4 rst -
  sym : Nat := 0        -- R528 (20) w32 rst -
  step : Nat := 0       -- R528 (20) w64 step or frame rst -
  dest : Nat := 0       -- R528 (20) w48 rst -
  due : Bool := false   -- R529 (20) its moment has come rst 0
  dueAt : Nat := 0      -- R529 (20) device time of that moment rst 0
  stream : Option Nat := none -- R531 (20) live stream rst none
  moves : Nat := 0      -- R531 (20) w16 rst 0
  deriving DecidableEq, Repr

/-- Trace and dumps. -/
structure Obs where
  bufs : Tab TraceBuf := [] -- R521 (20) 4 buffers rst not armed
  queue : List TraceRec := [] -- R526 (20) records in the queues of the dies, up to 512 each, oldest first rst empty
  recs : List TraceRec := [] -- R525 (20) records held by the trace unit, in increasing time rst empty
  dumps : List Dump := [] -- R528 (20) up to 8 pending dumps rst empty
  deriving DecidableEq, Repr

end Sys2Proof.Machine
end

