-- ==== Sys2Proof/Machine/State.lean ====
section
/-! DEFINITION. The machine's state: the queue of commands that wait, and the device. Every field of the device is
plain data; INVENTORY.md lists each with its rule, width and reset value. -/

namespace Sys2Proof.Machine

/-- Reasons a step stops as a fault. No meaning of this model faults: every access to an address that does not exist
has an effect or a status the spec states (R131, R472); the constructor is raised by nothing. Safe. -/
inductive Fault where
  | none_
  deriving DecidableEq, Repr

/-- Reasons a step is refused. -/
inductive Refusal where
  /-- An instruction that has no meaning yet, raised by the dispatch only. Safe: the machine stops. -/
  | notModelled (mnemonic : String)
  /-- A boundary-scan, internal-scan or debug-module instruction of the TAP in BLANK or DEBUG_OPEN, whose effect the
  spec does not give (R510), raised by JTAG_INSTRUCTION. Safe: the machine stops. -/
  | jtagScan (ir : Nat)
  deriving DecidableEq, Repr

/-- The device. -/
structure Dev where
  plat : Plat := {}
  host : HostIf := {}
  cad : Cad := {}
  pow : Pow := {}
  mem : Tab Byte := []      -- R130 (05) every byte of the 48-bit device map, host windows included rst 0x00 (log entry 5)
  poison : Tab Bool := []   -- R140, R142 (05) byte parity: true where the stored parity is wrong rst 0
  ctr : Tab Nat := []       -- R515 (20) counters w64, key instance * 256 + kind (instance 0 Cob, 1 + p pod p, 16 + n core n, 256 + g engine g) rst 0
  plans : Tab Plan := []    -- R453 (17) 16 plan handles rst none loaded
  planUsed : List Nat := [] -- R453 (17) handles in use rst empty
  pods : Tab Pod := []      -- R107 (04) 4 pods rst each at its fields' values
  cores : Tab Core := []    -- R91 (04) 192 cores rst idle
  cob : Cob := {}
  ing : Ing := {}
  enc : Enc := {}
  mov : Mov := {}
  obs : Obs := {}
  deriving DecidableEq, Repr

/-- The block: the commands that wait, first in, first out, and the device. -/
structure State where
  pending : List Instr := []
  dev : Dev := {}
  deriving DecidableEq, Repr

/-- The machine right after reset: RESET_N has just been released for the first time since VDD_AON rose, device time is 0
and the Husk has begun a start (R152, R436, R489; log entry 1). Every field holds the value of its declaration. -/
def State.reset : State := {}

end Sys2Proof.Machine
end

