-- ==== Sys2Proof/Machine/Ops.lean ====
section
/-! DEFINITION. The named operations over memory, byte parity, counters, the address map and time that every command
and event uses. -/

namespace Sys2Proof.Machine

/-- The outcome of a command or event. -/
abbrev Res := Host.Outcome State Fault Refusal

/-- The next state in which the device has changed and the queue has not. -/
def nextDev (s : State) (d : Dev) : Res := .next { s with dev := d }

/-! ## Memory (R130, R150) -/

/-- One byte of memory; an unlisted byte reads 0x00 (R140, R492; log entry 5). -/
def rdByte (m : Tab Byte) (a : Nat) : Byte := Tab.get 0 m a

/-- `n` bytes from address `a`. -/
def rdBytes (m : Tab Byte) (a n : Nat) : List Byte := (List.range n).map (fun i => rdByte m (a + i))

/-- The little-endian number in `n` bytes from `a` (R11). -/
def rdNat (m : Tab Byte) (a n : Nat) : Nat := leNat (rdBytes m a n)

/-- Store bytes at increasing addresses from `a`. -/
def wrBytes (m : Tab Byte) (a : Nat) : List Byte → Tab Byte
  | [] => m
  | b :: bs => wrBytes (Tab.set 0 m a b) (a + 1) bs

/-- Store a number in `n` bytes, least significant first (R11). -/
def wrNat (m : Tab Byte) (a n v : Nat) : Tab Byte := wrBytes m a (leBytes n v)

/-- Every byte from `a` up to `a + n` takes the wiped value 0x00 (R140). -/
def wipeRange (m : Tab Byte) (a n : Nat) : Tab Byte := m.filter (fun e => e.1 < a || a + n ≤ e.1)

/-! ## Byte parity (R140, R142) -/

/-- Some byte from `a` on, `n` of them, has a parity error. -/
def anyBad (p : Tab Bool) (a n : Nat) : Bool := p.any (fun e => e.2 && a ≤ e.1 && e.1 < a + n)

/-- The first byte with a parity error in a range. -/
def firstBad (p : Tab Bool) (a n : Nat) : Option Nat := (p.find? (fun e => e.2 && a ≤ e.1 && e.1 < a + n)).map Prod.fst

/-- Mark or clear the parity of a range. -/
def setBad (p : Tab Bool) (a : Nat) (bad : Bool) : Nat → Tab Bool
  | 0 => p
  | n + 1 => setBad (Tab.set false p a bad) (a + 1) bad n

/-- Mark single bytes whose stored parity has gone wrong before a read. -/
def flipBad (p : Tab Bool) (flips : List Nat) : Tab Bool := flips.foldl (fun q a => Tab.set false q a true) p

/-- The parity marks of a range are dropped. -/
def wipeBad (p : Tab Bool) (a n : Nat) : Tab Bool := p.filter (fun e => e.1 < a || a + n ≤ e.1)

/-! ## The address map (R130) -/

/-- GDDR7 capacity of a die of `n` devices: 2, 3 or 4 GiB each for 16, 24 or 32 Gbit (R136, R418). -/
def gddrCap (n density : Nat) : Nat := n * (if density = 0 then 2 else if density = 1 then 3 else 4) * 2 ^ 30

/-- State of a power domain (R383). -/
def Pow.dom (w : Pow) (id : Nat) : Dom := Tab.get {} w.doms id

/-- The domain is not OFF (R130, R383). -/
def Pow.live (w : Pow) (id : Nat) : Bool := (w.dom id).st != 0

/-- The domain is ON. -/
def Pow.on (w : Pow) (id : Nat) : Bool := (w.dom id).st == 2

/-- First address of pod `p`'s GDDR7 window. -/
def podGddr (p : Nat) : Nat := p * 0x1000000000
/-- First address of the Cob's GDDR7 window. -/
def cobGddr : Nat := 0x4000000000
/-- First address of pod `p`'s store. -/
def podStore (p : Nat) : Nat := 0x8000000000 + p * 0x10000000
/-- First address of the store of core `n` = 48p + c (R91). -/
def coreStore (n : Nat) : Nat := 0x9000000000 + n * 0x400000
/-- First address of the accumulator window of engine `g` (R62). -/
def accWin (g : Nat) : Nat := 0xA000000000 + g * 0x40000
/-- Cob state SRAM. -/
def sramBase : Nat := 0xB000000000
/-- Huller buffers (R273). -/
def hullerBase : Nat := 0xB100000000
/-- The control window. -/
def windowBase : Nat := 0xF000000000
/-- Host window of a port. -/
def hostBase (port : Nat) : Nat := if port = 0 then 0x800000000000 else 0xC00000000000
/-- Bytes of a host window. -/
def hostSize : Nat := 0x400000000000

/-- Where the backed run of storage that holds address `a` ends; 0 where `a` is unbacked (R130). -/
def backedEnd (pl : Plat) (w : Pow) (a : Nat) : Nat :=
  if a < cobGddr then
    let p := a / 0x1000000000
    let e := podGddr p + gddrCap pl.podDevices pl.density
    if a < e && w.live (14 * p + 13) then e else 0
  else if a < cobGddr + 0x1000000000 then
    let e := cobGddr + gddrCap pl.cobDevices pl.density
    if a < e && w.live 63 then e else 0
  else if a < podStore 0 then 0
  else if a < podStore 4 then
    let p := (a - podStore 0) / 0x10000000
    let e := podStore p + 0x6000000
    if a < e && w.live (14 * p + 12) then e else 0
  else if a < coreStore 0 then 0
  else if a < coreStore 192 then
    let n := (a - coreStore 0) / 0x400000
    if w.live (14 * (n / 48) + n % 48 / 4) then coreStore (n + 1) else 0
  else if a < accWin 0 then 0
  else if a < accWin 768 then
    let n := (a - accWin 0) / 0x100000
    if w.live (14 * (n / 48) + n % 48 / 4) then accWin (4 * n + 4) else 0
  else if a < sramBase then 0
  else if a < sramBase + 0x10000000 then
    let h := (a - sramBase) / 0x8000000
    if w.live (61 + h) then sramBase + (h + 1) * 0x8000000 else 0
  else if a < hullerBase then 0
  else if a < hullerBase + 0x4000000 then hullerBase + 0x4000000
  else if a < hostBase 0 then 0
  else if a < hostBase 1 then (if w.on 64 then hostBase 1 else 0)
  else if a < 0x1000000000000 then (if w.on 65 then 0x1000000000000 else 0)
  else 0

/-- The first unbacked address of a range, the control window counting as unbacked for every mover (R131, R132). -/
def firstUnbackedGo (pl : Plat) (w : Pow) : Nat → Nat → Nat → Option Nat
  | 0, a, e => if a < e then some a else none
  | k + 1, a, e =>
    if e ≤ a then none
    else
      let t := backedEnd pl w a
      if t ≤ a then some a else firstUnbackedGo pl w k t e

/-- The first unbacked address among the `n` bytes from `a`. -/
def Dev.unbacked (d : Dev) (a n : Nat) : Option Nat := firstUnbackedGo d.plat d.pow 1024 a (a + n)

/-- Every byte of the range is backed and within a mover's reach. -/
def Dev.backed (d : Dev) (a n : Nat) : Bool := (d.unbacked a n).isNone

/-- A write into TABLES or WORK of the Huller counts as unbacked for every agent but the Huller (R273). -/
def hullerLocked (a n : Nat) : Bool := overlaps a n hullerBase 0x1F00000

/-- First address of a range that a mover may not write. The host's commands that write memory have a mover's reach too: no rule says which
agent carries them out (R132; DESIGN CHOICE, log entry 44). -/
def Dev.unwritable (d : Dev) (a n : Nat) : Option Nat :=
  match d.unbacked a n with
  | some x => some x
  | none => if hullerLocked a n then some (max a hullerBase) else none

/-- The address lies in a GDDR7 window. -/
def isGddr (a : Nat) : Bool := a < cobGddr + 0x1000000000

/-- The die of an address: pods 0 to 3, the Cob 4 (R449); for a host window, the Cob. -/
def dieOf (a : Nat) : Nat :=
  if a < cobGddr then a / 0x1000000000
  else if a < podStore 0 then 4
  else if a < podStore 4 then (a - podStore 0) / 0x10000000
  else if coreStore 0 ≤ a && a < coreStore 192 then (a - coreStore 0) / 0x400000 / 48
  else if accWin 0 ≤ a && a < accWin 768 then (a - accWin 0) / 0x40000 / 192
  else 4

/-- Store bytes as a writer does: poisoned writers store inverted parity, which GDDR7 drops, and a write with correct
parity clears the mark (R142). -/
def Dev.put (d : Dev) (a : Nat) (bs : List Byte) (bad : Bool) : Dev :=
  { d with mem := wrBytes d.mem a bs, poison := setBad d.poison a (bad && !isGddr a) bs.length }

/-- Store bytes with correct parity. -/
def Dev.store (d : Dev) (a : Nat) (bs : List Byte) : Dev := d.put a bs false

/-- Store a number with correct parity. -/
def Dev.storeNat (d : Dev) (a n v : Nat) : Dev := d.store a (leBytes n v)

/-! ## Counters (R515, R516) -/

/-- Instance numbers: Cob 0, pod p 1 + p, core n 16 + n, engine g 256 + g. -/
def cobInst : Nat := 0
/-- Instance of a pod. -/
def podInst (p : Nat) : Nat := 1 + p
/-- Instance of a core. -/
def coreInst (n : Nat) : Nat := 16 + n
/-- Instance of an engine. -/
def engInst (g : Nat) : Nat := 256 + g

/-- Add to a counter, modulo 2^64 (R515). -/
def bump (c : Tab Nat) (inst kind n : Nat) : Tab Nat :=
  Tab.set 0 c (inst * 256 + kind) ((Tab.get 0 c (inst * 256 + kind) + n) % 2 ^ 64)

/-- Add to a counter of the device. -/
def Dev.count (d : Dev) (inst kind n : Nat) : Dev := { d with ctr := bump d.ctr inst kind n }

/-- A counter's value. -/
def ctrVal (c : Tab Nat) (inst kind : Nat) : Nat := Tab.get 0 c (inst * 256 + kind)

/-- Instance of the die that detects: a pod, or the Cob. -/
def dieInst (die : Nat) : Nat := if die < 4 then podInst die else cobInst

/-! ## Fault log (R144) -/

/-- Record a fault; the log keeps the first 64 and counts the others. -/
def Plat.log (p : Plat) (r : FaultRec) : Plat :=
  if p.faultLog.length < 64 then { p with faultLog := p.faultLog ++ [{ r with time := p.now }] }
  else { p with faultLost := (p.faultLost + 1) % 2 ^ 32 }

/-! ## Trace records (R521 to R526) -/

/-- A trace buffer. -/
def Obs.buf (o : Obs) (b : Nat) : TraceBuf := Tab.get {} o.bufs b
def Dev.updBuf (d : Dev) (b : Nat) (f : TraceBuf → TraceBuf) : Dev := { d with obs := { d.obs with bufs := Tab.upd {} d.obs.bufs b f } }

/-- Source bit of a record TYPE (R524). -/
def traceSource (t : Nat) : Nat :=
  match t with
  | 1 | 2 => 0 | 3 | 4 => 1 | 5 | 6 => 2 | 7 => 3 | 8 | 9 | 10 => 4 | t => t - 6

/-- A buffer captures records of a source bit, until a TRACE_STOP (R522, R527). -/
def TraceBuf.takes (b : TraceBuf) (src : Nat) : Bool := b.armed && b.stopCmd == 0 && bit b.sources src

/-- Buffers that select a record TYPE. -/
def Obs.takers (o : Obs) (type : Nat) : List Nat := ([0, 1, 2, 3] : List Nat).filter (fun b => (o.buf b).takes (traceSource type))

/-- A record counts as dropped for a buffer (R526). -/
def Dev.dropFor (d : Dev) (b : Nat) : Dev := d.updBuf b (fun x => { x with dropped := (x.dropped + 1) % 2 ^ 32, lost := x.lost + 1 })

/-- A record is dropped: TRACE_DROP, and DROPPED of every buffer that selects it (R526). -/
def Dev.dropRec (d : Dev) (bs : List Nat) : Dev := bs.foldl Dev.dropFor (d.count cobInst 0x78 1)

/-- An event makes a record where a buffer selects it: the record enters its die's queue, or is dropped where that holds 512 (R521 to R524,
R526). -/
def Dev.trace (d : Dev) (type die unit id arg0 arg1 : Nat) : Dev :=
  match d.obs.takers type with
  | [] => d
  | bs =>
    if 512 ≤ d.obs.queue.countP (fun r => r.die == die) then d.dropRec bs
    else
      let word := packBits [(64, d.plat.now), (8, type), (3, die), (5, 0), (16, unit), (32, id), (64, arg0), (64, arg1)]
      { d with obs := { d.obs with queue := d.obs.queue ++ [{ time := d.plat.now, die := die, word := word, bufs := bs }] } }

/-- The FAULT record of a fault-log entry (R524). -/
def Dev.traceFault (d : Dev) (r : FaultRec) : Dev := d.trace 0x0F r.die r.unit r.descId r.addr r.tag

/-- A parity error in a read: PARITY_ERROR of the detecting instance adds one and the fault log takes a record (R142, R144). -/
def Dev.parity (d : Dev) (inst : Nat) (r : FaultRec) : Dev :=
  { d with ctr := bump d.ctr inst 0x1A 1, plat := d.plat.log r }.traceFault r

/-! ## Beat and phase (R345, R346) -/

/-- Phase at device time `t` within the current beat (R345). -/
def Cad.phaseAt (c : Cad) (t : Nat) : Nat := min ((t - c.start) * 2 ^ 40 / max c.pEst 1) (2 ^ 24 - 1)

/-- Device time of beat:phase in the current beat (R346). -/
def Cad.instant (c : Cad) (phase : Nat) : Nat := c.start + ceilDiv (phase * c.pBeat) (2 ^ 40)

/-- Device time of beat:phase among started beats, newest first, `next` being the start of the beat after the first of
them: an instant that its beat does not reach, or whose beat was skipped, falls at the next start (R346, R361). -/
def instantIn (beat phase : Nat) : List (Nat × Nat × Nat) → Option Nat → Option Nat
  | [], next => next
  | (b, st, pe) :: rest, next =>
    if beat < b then instantIn beat phase rest (some st)
    else if beat = b then
      let i := st + ceilDiv (phase * pe) (2 ^ 40)
      some (match next with | some n => min i n | none => i)
    else next

/-- Device time of beat:phase; none while its beat has not started (R346). -/
def Cad.instantOf (c : Cad) (beat phase : Nat) : Option Nat :=
  if c.beat < beat then none else instantIn beat phase ((c.beat, c.start, c.pBeat) :: c.hist) none

/-- The instant of beat:phase lies before device time `t` (R372). -/
def Cad.isPast (c : Cad) (beat phase t : Nat) : Bool :=
  match c.instantOf beat phase with | some i => i < t | none => false

/-- The instant of beat:phase has been reached at device time `t`. -/
def Cad.reached (c : Cad) (beat phase t : Nat) : Bool :=
  match c.instantOf beat phase with | some i => i ≤ t | none => false

/-! ## Free values -/

/-- The next free byte list of length `n`, one index of the free stream (log entry 8). -/
def freeBytes (k n : Nat) : List Byte := (List.range n).map (fun i => Config.freeByte (k * 2 ^ 48 + i))

/-- DEVICE_STATE of R418. -/
def Plat.deviceState (p : Plat) : Nat :=
  match p.phase with
  | .ready => if p.faultCode = 0 then 1 else 3
  | .dormant => 2
  | _ => 0

/-- An interrupt message of a port (R425, R484). -/
def HostIf.irq (h : HostIf) (port vec : Nat) : HostIf := { h with irqs := (port, vec) :: h.irqs }

/-- Vector 8 of each port whose PORT_IRQ_EN is 1: link and fault-summary changes (R425). -/
def HostIf.irqPorts (h : HostIf) : HostIf :=
  let h := if (Tab.get {} h.ports 0).irqEn then h.irq 0 8 else h
  if (Tab.get {} h.ports 1).irqEn then h.irq 1 8 else h

end Sys2Proof.Machine
end

