-- ==== Sys2Proof/Machine/Philox.lean ====
section
/-! DEFINITION. The random generator of R219 to R222 and the digest of R270. -/

namespace Sys2Proof.Machine

/-- The four words of a Philox block. -/
structure PhiloxWords where
  w0 : Nat
  w1 : Nat
  w2 : Nat
  w3 : Nat
  deriving DecidableEq, Repr

/-- Output word i. -/
def PhiloxWords.word (p : PhiloxWords) (i : Nat) : Nat :=
  match i % 4 with | 0 => p.w0 | 1 => p.w1 | 2 => p.w2 | _ => p.w3

/-- One round on exact 64-bit products (R219). -/
def philoxRound (k0 k1 : Nat) (c : PhiloxWords) : PhiloxWords :=
  let p := 0xD2511F53 * c.w0
  let q := 0xCD9E8D57 * c.w2
  ⟨((q >>> 32) ^^^ c.w1) ^^^ k0, q % 2 ^ 32, ((p >>> 32) ^^^ c.w3) ^^^ k1, p % 2 ^ 32⟩

/-- `n` rounds; the key is bumped before every round but the first (R219). -/
def philoxGo : Nat → Nat → Nat → PhiloxWords → PhiloxWords
  | 0, _, _, c => c
  | n + 1, k0, k1, c =>
    philoxGo n ((k0 + 0x9E3779B9) % 2 ^ 32) ((k1 + 0xBB67AE85) % 2 ^ 32) (philoxRound k0 k1 c)

/-- philox of R219. -/
def philox (k0 k1 c0 c1 c2 c3 : Nat) : PhiloxWords := philoxGo 10 k0 k1 ⟨c0, c1, c2, c3⟩

/-- The block of element block `b` for a seed, symbol, step and stream (R221). -/
def drawBlock (seed sym step stream b : Nat) : PhiloxWords :=
  let s := philox (bits seed 0 32) (bits seed 32 32) sym (bits step 0 32) (bits step 32 32) stream
  philox s.w0 s.w1 (bits b 0 32) (bits b 32 32) 0 0

/-- The 32-bit word of element n. -/
def drawWord (seed sym step stream n : Nat) : Nat := (drawBlock seed sym step stream (n / 4)).word (n % 4)

/-- sr_bits of R52 and R221: stream ROUND. -/
def srBits (seed sym step n : Nat) : Nat := bits (drawWord seed sym step 0 n) 0 16

/-- One bit-serial step of the CRC-64 of R270. -/
def crcStep (c : Nat) : Nat :=
  let c2 := (c * 2) % 2 ^ 64
  if bit c 63 then c2 ^^^ 0x42F0E1EBA9EA3693 else c2

def crcByte (c : Nat) (b : Byte) : Nat :=
  (List.range 8).foldl (fun c _ => crcStep c) (c ^^^ (b.toNat <<< 56))

/-- The digest of R270: CRC-64 of ECMA-182, initial value 0. -/
def crc64 (bs : List Byte) : Nat := bs.foldl crcByte 0

end Sys2Proof.Machine
end

