-- ==== Sys2Proof/Machine/Operands.lean ====
section
/-! DEFINITION. Operand and result forms of the operations of a core: rows of elements packed under R37, block scales
(R39, R40), compressed row slots (R201, R202), the conversion of a result row (R43, R44, R49, R51, R52), and what an
operation carries along while it reads and writes (R142, R234). -/

namespace Sys2Proof.Machine

/-- An operation at work: memory and parity as it leaves them, whether it has met a parity error (R142), the reads that met
one (address, and in bits 48 on the KIND of R449), what it counts (by kind; from 256 on, 256 × (1 + die) + kind), the INT8 poison
bits of its core (R69), GRAD_NONFINITE (R234), the flaws still ahead of its transfers, and the die it works on. -/
structure Wk where
  mem : Tab Byte
  poison : Tab Bool
  bad : Bool := false
  errs : List Nat := []
  cnt : Tab Nat := []
  pz : Tab Nat := []
  gradNF : Bool := false
  free : Nat := 0
  flaws : List Nat := []
  die : Nat := 4
  deriving DecidableEq, Repr

/-- Count `n` events of a kind. -/
def Wk.count (w : Wk) (kind n : Nat) : Wk := { w with cnt := Tab.upd 0 w.cnt kind (· + n) }

/-! ## Flaws (R138 to R141)

The flaws that an event's transfers meet are operands of the event: an address, and in bits 48 on what happens there. 0: the stored
byte has lost its parity, or, in GDDR7, the DRAM reports an uncorrected error. 1: the GDDR7 code of the transfer of that byte does
not match, once for each time. 2: the CRC of the die-to-die flit that carries it fails, once for each time. 3: a byte of the control
processors has lost its parity (log entry 34). -/

/-- Address of a flaw. -/
def flawAddr (f : Nat) : Nat := f % 2 ^ 48
/-- Kind of a flaw. -/
def flawKind (f : Nat) : Nat := f / 2 ^ 48

/-- A transfer of `n` bytes from `a`, to or from die `die`, meets a flaw: a code belongs to GDDR7, a CRC to bytes that cross a link. -/
def flawHits (die a n f : Nat) : Bool :=
  let x := flawAddr f
  a ≤ x && x < a + n && (match flawKind f with
    | 0 => true
    | 1 => isGddr x
    | 2 => dieOf x != die
    | _ => false)

/-- What one flaw counts, and the parity error it makes: KIND of R449, none where a repeat carried the bytes over. A code is
repeated up to 4 times, a flit replayed up to 8 (R138, R139, R141). -/
def flawEffect (die f times : Nat) : Nat × Nat × Option Nat :=
  let x := flawAddr f
  match flawKind f with
  | 1 => (256 * (1 + dieOf x) + 0x24, min times 4, if times ≤ 4 then none else some 1)
  | 2 => (256 * (1 + die) + 0x26, min times 8, if times ≤ 8 then none else some 3)
  | _ => if isGddr x then (256 * (1 + dieOf x) + 0x25, 1, some 2) else (256 * (1 + die) + 0x25, 0, some 0)

/-- The flaws that a transfer meets leave the list and count; answered with them are the parity errors they make, as R449 kinds with
addresses. -/
def Wk.meet (w : Wk) (hit : Nat → Bool) : List Nat × Wk :=
  let fs := w.flaws.filter hit
  fs.eraseDups.foldl (fun (acc : List Nat × Wk) f =>
    let (kind, n, err) := flawEffect w.die f (fs.count f)
    let w1 := acc.2.count kind n
    match err with
    | some k => (acc.1 ++ [flawAddr f + k * 2 ^ 48], w1)
    | none => (acc.1, w1)) ([], { w with flaws := w.flaws.filter (fun f => !hit f) })

/-- The operation has met parity errors: the first of them is the one that its read names (R142). -/
def Wk.fault (w : Wk) (es : List Nat) : Wk :=
  match es with
  | [] => w
  | e :: _ => { w with bad := true, errs := e :: w.errs }

/-- A read of `n` bytes: the first byte with a parity error marks the rest of the operation (R142). Outside GDDR7 and the host
windows a byte whose stored parity has gone wrong stays so. -/
def Wk.read (w : Wk) (a n : Nat) : List Byte × Wk :=
  let (es, w) := if w.flaws = [] then ([], w) else w.meet (flawHits w.die a n)
  let stored := es.filter (fun e => e < hostBase 0)
  (rdBytes w.mem a n, { w with poison := flipBad w.poison stored }.fault (es ++ (firstBad w.poison a n).toList))

/-- A write of bytes: poisoned once the operation has met a parity error; GDDR7 drops the mark (R142). A byte whose GDDR7 transfer
fails past its repeats is not written; one whose flit fails past its replays arrives with a parity error (R138, R141). -/
def Wk.write (w : Wk) (a : Nat) (bs : List Byte) : Wk :=
  let (es, w) := if w.flaws = [] then ([], w) else w.meet (fun f => flawKind f != 0 && flawHits w.die a bs.length f)
  let lost := (es.filter (fun e => e / 2 ^ 48 == 1)).map flawAddr
  let hurt := ((es.filter (fun e => e / 2 ^ 48 == 3)).map flawAddr).filter (fun x => !isGddr x)
  let mem := lost.foldl (fun m x => Tab.set 0 m x (rdByte w.mem x)) (wrBytes w.mem a bs)
  { w with mem := mem, poison := flipBad (setBad w.poison a (w.bad && !isGddr a) bs.length) hurt }.fault es

/-! ## Row slots (R201 to R208) -/

/-- One line of a row slot at `a`: its bytes, or free bytes with a parity error where it is malformed (R208). -/
def Wk.readLine (w : Wk) (a lb t : Nat) : List Byte × Wk :=
  let m := rdByte w.mem (a + t)
  let pa := a + mapArea lb + 256 * t
  let g := bits m.toNat 2 4 + 1
  let n := lineLen lb t
  let (_, w1) := w.read (a + t) 1
  let (bs, w1) := w1.read pa (16 * g)
  match decodeLine n m bs with
  | some bs => (bs, w1)
  | none => ((List.range n).map (fun i => Config.freeByte (w.free * 2 ^ 64 + pa * 2 ^ 12 + i)),
      { w1 with bad := true, errs := (pa + 4 * 2 ^ 48) :: w1.errs }.count 0x18 1)

/-- Lines `t0` on, `k` of them. -/
def Wk.readLines (w : Wk) (a lb t0 : Nat) : Nat → List Byte × Wk
  | 0 => ([], w)
  | k + 1 =>
    let (x, w1) := w.readLine a lb t0
    let (y, w2) := w1.readLines a lb (t0 + 1) k
    (x ++ y, w2)

/-- Bytes `s` to `s + n` of an array row of `lb` bytes at `a`, plain or in a row slot. -/
def Wk.readPart (w : Wk) (a lb : Nat) (comp : Bool) (s n : Nat) : List Byte × Wk :=
  if n = 0 then ([], w)
  else if comp then
    let t0 := s / 256
    let (bs, w1) := w.readLines a lb t0 ((s + n - 1) / 256 + 1 - t0)
    ((bs.drop (s - 256 * t0)).take n, w1)
  else w.read (a + s) n

/-- Write one line of a row slot with its map byte (R201, R203). -/
def Wk.writeLine (w : Wk) (a lb t : Nat) (x : List Byte) : Wk :=
  let l := encodeLine x
  (w.write (a + mapArea lb + 256 * t) l.payload).write (a + t) [l.map]

/-- Write the bytes from `s` on of a row of `lb` bytes at `a`: plain, or line by line into a row slot, `s` starting a line;
with the row's end the spare map bytes are written 0x00 (R201). -/
def Wk.writePart (w : Wk) (a lb : Nat) (comp : Bool) (s : Nat) (bs : List Byte) : Wk :=
  if comp then
    let w := (List.range (ceilDiv bs.length 256)).foldl
      (fun w i => w.writeLine a lb (s / 256 + i) ((bs.drop (256 * i)).take 256)) w
    if lb ≤ s + bs.length then w.write (a + lineCount lb) (List.replicate (mapArea lb - lineCount lb) 0) else w
  else w.write (a + s) bs

/-! ## Rows (R37 to R40, R58, R202) -/

/-- Packed bytes of `n` elements of a row under a format word; partial blocks are whole (R37, R39). -/
def packedLen (fw n : Nat) : Nat :=
  let f := fwFmt fw
  let b := fwBlk fw
  if b = 0 then n * f.width / 8 else ceilDiv n b * (b * f.width / 8)

/-- Bytes that a row takes where it stands: packed, or its row slot (R201). -/
def rowBytes (fw n : Nat) (comp : Bool) : Nat := if comp then slotSize (packedLen fw n) else packedLen fw n

/-- Bytes of a row's scales where they stand (R58, R202). -/
def scaleBytes (fw n : Nat) (comp : Bool) : Nat :=
  if fwBlk fw = 0 then 0
  else
    let k := ceilDiv n (fwBlk fw)
    if comp then slotSize k else k

/-- Codes of packed elements (R37). -/
def unpackCodes (w n : Nat) (bs : List Byte) : List Nat :=
  let x := leNat bs
  (List.range n).map (fun k => bits x (k * w) w)

/-- Packed bytes of codes (R37). -/
def packCodes (w : Nat) (cs : List Nat) : List Byte := leBytes (ceilDiv (cs.length * w) 8) (packBits (cs.map (fun c => (w, c))))

/-- Elements `off` on of a row with their block scales. -/
structure Row where
  fmt : Fmt
  blk : Nat
  off : Nat
  codes : List Nat
  scales : List Nat
  deriving DecidableEq, Repr

/-- Scale byte of element `k`; a wide format has the factor 1. -/
def Row.scaleAt (r : Row) (k : Nat) : Nat := if r.blk = 0 then 127 else r.scales.getD (k / r.blk - r.off / r.blk) 127

/-- Code of element `k`. -/
def Row.code (r : Row) (k : Nat) : Nat := r.codes.getD (k - r.off) 0

/-- Exact value of element `k` (R42). -/
def Row.val (r : Row) (t : Q) (k : Nat) : XR :=
  if r.blk = 0 then r.fmt.decode (r.code k) else blockValue r.fmt (r.scaleAt k) t (r.code k)

/-- Elements `k0` to `k0 + m` of a row of `n` elements at `a`, its scale row at `sa`; `k0` starts a block. -/
def Wk.readRow (w : Wk) (fw a sa n : Nat) (comp : Bool) (k0 m : Nat) : Row × Wk :=
  let f := fwFmt fw
  let b := fwBlk fw
  let (bs, w1) := w.readPart a (packedLen fw n) comp (k0 * f.width / 8) (ceilDiv (m * f.width) 8)
  let (ss, w2) := if b = 0 then ([], w1) else w1.readPart sa (ceilDiv n b) comp (k0 / b) (ceilDiv (k0 + m) b - k0 / b)
  (⟨f, b, k0, unpackCodes f.width m bs, ss.map (·.toNat)⟩, w2)

/-- The bytes that runs of a row of `lb` bytes at `a` name, the bytes between them read as zeros; a line of a row slot is read
once (R157, R201). -/
def Wk.readRuns (w : Wk) (a lb : Nat) (comp : Bool) (runs : List (Nat × Nat)) : List Byte × Wk :=
  let used (s n : Nat) : Bool := runs.any (fun x => 0 < x.2 && x.1 < s + n && s < x.1 + x.2)
  if comp then
    (List.range (lineCount lb)).foldl (fun (acc : List Byte × Wk) t =>
      if used (256 * t) 256 then
        let (x, w) := acc.2.readLine a lb t
        (acc.1 ++ x, w)
      else (acc.1 ++ List.replicate (lineLen lb t) 0, acc.2)) ([], w)
  else
    runs.foldl (fun (acc : List Byte × Wk) x =>
      let (bs, w) := acc.2.readPart a lb false x.1 x.2
      (acc.1 ++ List.replicate (x.1 - acc.1.length) 0 ++ bs, w)) ([], w)

/-- The elements that rising runs name, of a row of `n` elements at `a` whose scale row is at `sa`; elements and scales
that no run needs are not read and stand as 0. -/
def Wk.readElems (w : Wk) (fw a sa n : Nat) (comp : Bool) (runs : List (Nat × Nat)) : Row × Wk :=
  let f := fwFmt fw
  let b := fwBlk fw
  let (bs, w) := w.readRuns a (packedLen fw n) comp
    (runs.map (fun x => (x.1 * f.width / 8, ceilDiv ((x.1 + x.2) * f.width) 8 - x.1 * f.width / 8)))
  let need := (List.range (ceilDiv n (max 1 b))).filter (fun k => runs.any (fun x => 0 < x.2 && x.1 < (k + 1) * b && k * b < x.1 + x.2))
  let (ss, w) := if b = 0 then ([], w) else w.readRuns sa (ceilDiv n b) comp (need.map (fun k => (k, 1)))
  (⟨f, b, 0, unpackCodes f.width (8 * bs.length / f.width) bs, ss.map (·.toNat)⟩, w)

/-- Address of scale row `r` of an array whose rows have `n` elements (R58, R202). -/
def scaleAddr (fw base n : Nat) (comp : Bool) (r : Nat) : Nat := base + r * scaleBytes fw n comp

/-! ## Conversion of a result row (R43, R44, R47, R49, R51, R52) -/

/-- Where a result's random bits come from, and whether its symbol is of class GRADIENT. -/
structure Site where
  grad : Bool
  seed : Nat
  step : Nat
  sym : Nat
  deriving DecidableEq, Repr

/-- Cut a list into runs of `b`. -/
def chunks {α : Type} (b : Nat) : Nat → List α → List (List α)
  | 0, _ => []
  | _, [] => []
  | k + 1, l => l.take b :: chunks b k (l.drop b)

/-- The conversion of consecutive elements of a row, from linear index `n0` on: codes and scale bytes. -/
def Wk.convRow (w : Wk) (fw : Nat) (s : Site) (n0 : Nat) (ys : List XR) : List Nat × List Nat × Wk :=
  let f := fwFmt fw
  let mode := if s.grad then .sr else fwRound fw
  let r (i : Nat) : Nat := if mode = .sr then srBits s.seed s.sym s.step (n0 + i) else 0
  let w := if s.grad && ys.any (fun y => !y.isFinite) then { w with gradNF := true } else w
  if fwBlk fw = 0 then (ys.zipIdx.map (fun (y, i) => f.encode (roundFmt f mode y (r i))), [], w)
  else
    let b := fwBlk fw
    let ys := ys ++ List.replicate (roundUp ys.length b - ys.length) (.zero false)
    let outs := (chunks b ys.length ys).zipIdx.map (fun (c, k) =>
      encodeBlock f mode (fwGuard fw) c ((List.range b).map (fun i => r (k * b + i))))
    ((outs.map (·.codes)).flatten, outs.map (·.scale),
     (w.count 0x13 (outs.map (·.nonfinite)).sum).count 0x14 (outs.map (·.saturated)).sum)

/-- Convert and store elements `j0` on of a result row of `n` elements at `a`, its scale row at `sa`. -/
def Wk.storeRow (w : Wk) (fw a sa n : Nat) (comp : Bool) (s : Site) (n0 j0 : Nat) (ys : List XR) : Wk :=
  let f := fwFmt fw
  let (cs, ss, w) := w.convRow fw s n0 ys
  let w := w.writePart a (packedLen fw n) comp (j0 * f.width / 8) (packCodes f.width cs)
  if fwBlk fw = 0 then w
  else w.writePart sa (ceilDiv n (fwBlk fw)) comp (j0 / fwBlk fw) (ss.map (BitVec.ofNat 8 ·))

/-! ## Groups (R55, R65 to R67, R69) -/

/-- Group size of a format pair of R55; none where the pair is not in the table. -/
def groupSize (a b : Fmt) : Option Nat :=
  match a, b with
  | .fp32, .fp32 => some 4
  | .bf16, .bf16 => some 8
  | .fp16, .fp16 => some 8
  | .int8, .int8 => some 16
  | x, y => if !x.isWide && !y.isWide && x != .int8 && y != .int8 then some 16 else none

/-- The canonical quiet NaN of FP32 (R36). -/
def nan32 : Nat := 0x7FC00000

/-- add_group of R67 on FP32 patterns. -/
def addGroup (acc g : Nat) : Nat := if g % 2 ^ 31 = 0 then acc else fp32Code (rn ((fp32 acc).add (fp32 g)))

/-- The FP32 value of one group (R66). -/
def groupValue (fa fb : Fmt) (xa xb : Nat) (as bs : List Nat) : Nat :=
  if xa = 255 || xb = 255 then nan32
  else
    let sum : XR := (as.zip bs).foldl (fun (s : XR) p => s.add ((fa.decode p.1).mul (fb.decode p.2))) (XR.zero false)
    fp32Code (rn (sum.scale2 ((xa : Int) + (xb : Int) - 254)))

/-- A run of products of two rows, `n` of them from element `ka` of the left and `kb` of the right, added to `acc` group by
group (R65, R67). -/
def dotF (g : Nat) (a b : Row) (ka kb n acc : Nat) : Nat :=
  (List.range (ceilDiv n g)).foldl (fun acc q =>
    let m := min g (n - q * g)
    addGroup acc (groupValue a.fmt b.fmt (a.scaleAt (ka + q * g)) (b.scaleAt (kb + q * g))
      ((a.codes.drop (ka + q * g - a.off)).take m) ((b.codes.drop (kb + q * g - b.off)).take m))) acc

/-- An exact integer sum that holds at the ends of the 32-bit range; `true` where it did (R69). -/
def satAdd32 (acc g : Int) : Int × Bool :=
  let s := acc + g
  if s < -(2 ^ 31) then (-(2 ^ 31), true) else if 2 ^ 31 - 1 < s then (2 ^ 31 - 1, true) else (s, false)

/-- The integer form of `dotF`, with the number of saturated adds (R69). -/
def dotI (a b : Row) (ka kb n acc : Nat) : Nat × Nat :=
  (List.range (ceilDiv n 16)).foldl (fun (acc, sat) q =>
    let m := min 16 (n - q * 16)
    let g := (((a.codes.drop (ka + q * 16 - a.off)).take m).zip ((b.codes.drop (kb + q * 16 - b.off)).take m)).foldl
      (fun s p => s + sbits p.1 0 8 * sbits p.2 0 8) 0
    let (v, o) := satAdd32 (sbits acc 0 32) g
    (ofInt 32 v, sat + b2n o)) (acc, 0)

/-- Blocks of elements `k` to `k + n` of a row whose scale differs from the reference, or is 255 (R69). -/
def Row.mismatch (r : Row) (ref k n : Nat) : Nat :=
  if r.blk = 0 || n = 0 then 0
  else ((List.range ((k + n - 1) / r.blk + 1 - k / r.blk)).filter (fun i =>
    let x := r.scaleAt (k + i * r.blk)
    x != ref || x == 255)).length

end Sys2Proof.Machine
end

