-- ==== Sys2Proof/Machine/Reply.lean ====
section
/-! DEFINITION. Replies, refusals and the start of commands (spec file 16; R441 to R447 of 17; R519, R520 of 20). -/

namespace Sys2Proof.Machine

/-! ## Status codes (R433) -/

def stDone : Nat := 0
def stAccepted : Nat := 1
def stBadOpcode : Nat := 2
def stBadParam : Nat := 3
def stSemNotHeld : Nat := 4
def stBusy : Nat := 5
def stNoMemory : Nat := 6
def stParity : Nat := 7
def stDeadline : Nat := 8
def stAborted : Nat := 9
def stPowerLimited : Nat := 10
def stLifecycle : Nat := 11
def stAuth : Nat := 12
def stTableGen : Nat := 13
def stReplaced : Nat := 14
def stDormant : Nat := 15

/-! ## Parameter layout (R441, R442) -/

/-- Alignment of a field of width `w`. -/
def fieldAlign (w : Nat) : Nat := if w ≤ 8 then 1 else if w ≤ 16 then 16 else if w ≤ 32 then 32 else 64

/-- Offset and width of each field, from bit `o` on. -/
def fieldPlaces : List Nat → Nat → List (Nat × Nat)
  | [], _ => []
  | w :: ws, o => let p := roundUp o (fieldAlign w); (p, w) :: fieldPlaces ws (p + w)

/-- The parameter fields of a packet. -/
def unpackParams (lay : List Nat) (x : Nat) : List Nat := (fieldPlaces lay 0).map (fun (o, w) => bits x o w)

/-- PARAM_LEN that a layout requires (R442). -/
def paramLen (lay : List Nat) : Nat :=
  match (fieldPlaces lay 0).getLast? with
  | none => 0
  | some (o, w) => roundUp (ceilDiv (o + w) 8) 8

/-- Byte offset of field `i` within the parameters, the DETAIL of a BAD_PARAM found by check 4 (R444). -/
def fieldByte (lay : List Nat) (i : Nat) : Nat :=
  match (fieldPlaces lay 0)[i]? with | some (o, _) => o / 8 | none => 0

/-- The first condition that fails, with its byte offset. -/
def firstBadField (cs : List (Bool × Nat)) : Option Nat := (cs.find? (fun c => !c.1)).map Prod.snd

/-! ## Counter identifiers (R516, R517) -/

/-- Home levels of a counter kind: engine, core, pod, Cob. -/
def homeLevels (k : Nat) : Bool × Bool × Bool × Bool :=
  if 1 ≤ k && k ≤ 8 then (true, false, false, false)
  else if k = 0x13 || k = 0x14 then (false, true, false, true)
  else if k = 0x18 || k = 0x1A then (false, true, true, true)
  else if 0x10 ≤ k && k ≤ 0x19 then (false, true, false, false)
  else if 0x20 ≤ k && k ≤ 0x23 then (false, false, true, false)
  else if 0x24 ≤ k && k ≤ 0x28 then (false, false, true, true)
  else if (0x30 ≤ k && k ≤ 0x39) || (0x40 ≤ k && k ≤ 0x45) || (0x48 ≤ k && k ≤ 0x4B) || (0x50 ≤ k && k ≤ 0x57)
      || (0x60 ≤ k && k ≤ 0x66) || (0x70 ≤ k && k ≤ 0x72) || (0x78 ≤ k && k ≤ 0x7A) then (false, false, false, true)
  else (false, false, false, false)

/-- A counter identifier whose scope holds an instance of its kind, or an unused slot (R517). -/
def counterIdOk (id : Nat) : Bool :=
  let (e, c, p, b) := homeLevels (id % 256)
  let sc := id / 256
  id == 0xFFFF || (sc == 0 && (e || c || p || b)) || (1 ≤ sc && sc ≤ 4 && (e || c || p)) || (sc == 5 && b)
    || (0x40 ≤ sc && sc ≤ 0xFF && (e || c))

/-- Value of a counter identifier: the sum over its scope, modulo 2^64 (R517). -/
def counterValue (c : Tab Nat) (id : Nat) : Nat :=
  let k := id % 256
  let sc := id / 256
  let podOf (i : Nat) : Nat := if i < 16 then i - 1 else if i < 256 then (i - 16) / 48 else (i - 256) / 192
  let inScope (i : Nat) : Bool :=
    if sc = 0 then true
    else if sc ≤ 4 then i != 0 && podOf i == sc - 1
    else if sc = 5 then i == 0
    else i == coreInst (sc - 0x40) || (256 ≤ i && (i - 256) / 4 == sc - 0x40)
  if id = 0xFFFF then 0
  else (c.foldl (fun t e => if e.1 % 256 == k && inScope (e.1 / 256) then t + e.2 else t) 0) % 2 ^ 64

/-- The 16 identifiers of a latch set; an undefined set is 16 unused slots (R519). -/
def HostIf.latchSet (h : HostIf) (n : Nat) : List Nat :=
  let l := Tab.get [] h.latchSets n
  if l = [] then List.replicate 16 0xFFFF else l

/-! ## Reply rings (R421, R425, R428, R429) -/

/-- Queue block `q`. -/
def HostIf.queue (h : HostIf) (q : Nat) : Queue := Tab.get {} h.queues q

/-- Change queue block `q`. -/
def HostIf.updQueue (h : HostIf) (q : Nat) (f : Queue → Queue) : HostIf := { h with queues := Tab.upd {} h.queues q f }

/-- Port block. -/
def HostIf.port (h : HostIf) (p : Nat) : Port := Tab.get {} h.ports p

/-- Change a port block. -/
def HostIf.updPort (h : HostIf) (p : Nat) (f : Port → Port) : HostIf := { h with ports := Tab.upd {} h.ports p f }

/-- The link goes down: LINK_UP reads 0 and LINK_DOWN_EVENTS adds one (R420). -/
def Port.goDown (p : Port) (now : Nat) : Port :=
  if p.up then { p with up := false, width := 0, rate := 0, downs := (p.downs + 1) % 2 ^ 32, downAt := some now } else p

/-- Entries of the reply ring neither filled nor reserved (R431). -/
def Queue.freeEntries (k : Queue) : Nat :=
  2 ^ k.rqLog2 - (k.rqTail + 2 ^ 32 - k.rqHead) % 2 ^ 32 - k.reserved

/-- The queue's reply ring serves: its STATE is RUNNING or ERROR (R431). -/
def Queue.serves (k : Queue) : Bool := k.qstate == 1 || k.qstate == 2

/-- Replies to the queue are written: it serves and has not gone through a port reset (R431, R437). -/
def Queue.replies (k : Queue) : Bool := k.serves && k.err != 5

/-- The address lies in the host window of the queue's own port. -/
def ownWindow (q a : Nat) : Bool := hostBase (q / 8) ≤ a && a < hostBase (q / 8) + hostSize

/-- Write 16-byte entries at the ring's producer index, in order (R421). -/
def wrEntries (m : Tab Byte) (k : Queue) : Nat → List Nat → Tab Byte
  | _, [] => m
  | i, e :: es => wrEntries (wrNat m (k.rqBase + 16 * (i % 2 ^ k.rqLog2)) 16 e) k ((i + 1) % 2 ^ 32) es

/-- After replies: an interrupt message unless the hold-off holds it back (R425). -/
def HostIf.replyIrq (h : HostIf) (q now : Nat) : HostIf :=
  let k := h.queue q
  if !k.irqEn then h
  else
    let free := match k.lastIrq with | none => true | some t => t + k.holdoff * 1000 ≤ now
    if free then (h.updQueue q (fun k => { k with lastIrq := some now, irqHeld := false })).irq (q / 8) (q % 8)
    else h.updQueue q (fun k => { k with irqHeld := true })

/-- Write reply entries to queue `q`'s ring, advance RQ_TAIL, copy it to RQ_SHADOW and send the interrupt message; a
queue whose ring does not serve discards them (R425, R429, R431). -/
def Dev.post (d : Dev) (q : Nat) (es : List Nat) : Dev :=
  let k := d.host.queue q
  if !k.replies then d
  else
    let tail := (k.rqTail + es.length) % 2 ^ 32
    let m := wrEntries d.mem k k.rqTail es
    let m := if ownWindow q k.shadow then wrNat m k.shadow 4 tail else m
    { d with mem := m, host := (d.host.updQueue q (fun k => { k with rqTail := tail })).replyIrq q d.plat.now }

/-- The 16 bytes of a reply (R428). -/
def replyWord (tag status ext detail beat phase : Nat) : Nat :=
  packBits [(32, tag), (4, status), (4, ext), (16, detail), (48, beat), (24, phase)]

/-- The reply word of an instant of device time in the current beat. -/
def Dev.replyNow (d : Dev) (tag status ext detail : Nat) : Nat :=
  replyWord tag status ext detail d.cad.beat (d.cad.phaseAt d.plat.now)

/-! ## Deadlines (R372, R375, R379) -/

/-- The detail of a DEADLINE_MISSED reply (R375). -/
def missDetail (cause : Nat) (effect : Bool) (lateNs : Nat) : Nat :=
  packBits [(4, cause), (1, b2n effect), (11, if effect then min (ceilDiv lateNs 10000) 2047 else 0)]

/-- Count a deadline miss and write its record (R379). -/
def Cad.miss (c : Cad) (stream cause : Nat) (effect : Bool) (frameBeat deadline ready end_ : Nat) : Cad :=
  { c with missTotal := (c.missTotal + 1) % 2 ^ 32,
           missLog := Tab.set 0 c.missLog (c.missTotal % 16)
             (packBits [(6, stream), (4, cause), (1, b2n effect), (5, 0), (48, frameBeat), (64, deadline), (64, ready), (64, end_)]) }

/-! ## Replies that wait (R431) -/

/-- Post the replies of slots, timers and live tasks that wait and find free entries (R431). -/
def Dev.flushGo : List SlotReply → Dev → Dev
  | [], d => d
  | w :: ws, d =>
    let k := d.host.queue w.rq
    if !k.replies then Dev.flushGo ws d
    else if k.freeEntries < 1 + w.ext.length then
      let d := Dev.flushGo ws d
      { d with host := { d.host with waiting := w :: d.host.waiting } }
    else
      Dev.flushGo ws (d.post w.rq (replyWord w.tag w.status w.ext.length w.detail w.beat w.phase :: w.ext))

/-- One more in REPLY_WAIT for each reply at each whole us for which it waits (R431). -/
def Dev.replyTick (d : Dev) : Dev :=
  let due (w : SlotReply) : Bool := w.since < d.plat.now && (d.plat.now - w.since) % 1000 == 0
  { d with ctr := bump d.ctr cobInst 0x72 (d.host.waiting.countP due) }

/-- Waiting slot and timer replies are tried again. -/
def Dev.flush (d : Dev) : Dev :=
  if d.host.waiting = [] then d else Dev.flushGo d.host.waiting { d with host := { d.host with waiting := [] } }

/-- A reply that no packet reserved entries for: it is posted, or waits for entries (R360, R431). -/
def Dev.sendReply (d : Dev) (r : SlotReply) : Dev :=
  let h : HostIf := { d.host with waiting := d.host.waiting ++ [{ r with since := d.plat.now }] }
  { d with host := h }.flush

/-- The reply of an event slot or timer: DONE with its tag (R360). -/
def Dev.slotReply (d : Dev) (rq tag beat phase : Nat) : Dev := d.sendReply { rq := rq, tag := tag, beat := beat, phase := phase }

/-! ## The choice of the next command (R423, R431) -/

/-- Opcodes of the command reference (R427). -/
def knownOpcodes : List Nat :=
  [0x0000, 0x0001, 0x0002, 0x0003, 0x0004, 0x0010, 0x0011, 0x0012, 0x0201, 0x0202, 0x0203, 0x0210, 0x0211, 0x0212, 0x0213,
   0x0214, 0x0215, 0x0216, 0x0301, 0x0302, 0x0401, 0x0402, 0x0501, 0x0502, 0x0601, 0x0602, 0x0603, 0x0604, 0x0605, 0x0606,
   0x0701, 0x0702, 0x0703, 0x0704, 0x0801, 0x0802, 0x0803, 0x0804, 0x0805, 0x0901, 0x0902, 0x0903, 0x0904, 0x0905,
   0x0A01, 0x0A02, 0x0A03, 0x0A04, 0x0A05, 0x0B01, 0x0B02, 0x0B03, 0x0B04, 0x0C01, 0x0C02, 0x0D01, 0x0D02, 0x0D03, 0x0D04]

/-- Commands are started only once the device is READY, STOPPED or DORMANT; before that they wait (log entry 16). -/
def Plat.takesCommands (p : Plat) : Bool := p.phase == .ready || p.phase == .dormant

/-- A bottom tree is being generated, while which ATTEST waits at the head of its queue (R511; log entry 16). -/
def Plat.treeBuilds (p : Plat) : Bool := p.attestActive && !p.attestReady && decide (p.attestTree < 8)

/-- The head of queue `q` can start: nothing holds it under R423 or R431. -/
def Dev.canStart (d : Dev) (q : Nat) : Bool :=
  let h := d.host
  match (h.queue q).fetched with
  | [] => false
  | p :: _ =>
    let r := h.queue (q / 8 * 8 + p.queue)
    d.plat.takesCommands
      && !(p.opcode == 0x0B04 && d.plat.treeBuilds)
      && (!p.ordered || !h.inProg.any (fun c => c.queue == q))
      && r.serves && 16 ≤ r.freeEntries
      && (h.inProg.filter (fun c => c.port == q / 8)).length < 128

/-- Distance of queue `q` after the queue that started last, in the rotation A0 to A7, B0 to B7 (R423). -/
def rotDist (last q : Nat) : Nat := (q + 16 - (last + 1) % 16) % 16

/-- The queue whose head starts next: highest PRIORITY, then the rotation (R423). -/
def Dev.nextQueue (d : Dev) : Option Nat :=
  (List.range 16).foldl (fun best q =>
    if d.canStart q then
      match best with
      | none => some q
      | some b =>
        let pq := (d.host.queue q).prio
        let pb := (d.host.queue b).prio
        if pb < pq || (pb == pq && rotDist d.host.lastStart q < rotDist d.host.lastStart b) then some q else some b
    else best) none

/-! ## Checks (R432) -/

/-- The command group's semaphore (R446). -/
def guardSem (op : Nat) : Option Nat :=
  if op = 0x0B01 || op = 0x0B02 then some 0
  else if op = 0x0804 then some 1
  else if op = 0x0B03 then some 2
  else if op = 0x0901 then some 3
  else none

/-- The life-cycle state denies the opcode (R509). LIFECYCLE itself is decided under R506, and denied when RETIRED. -/
def lcDenied (lc op : Nat) : Bool :=
  let g := op / 256
  if op ≤ 4 && op != 0 then false
  else if lc = 3 then true
  else if lc = 0 then (3 ≤ g && g ≤ 7) || g == 0x0D || op == 0x0B04
  else false

/-- Opcodes accepted in dormant mode (R446). -/
def dormantOps : List Nat := [0x0001, 0x0002, 0x0003, 0x0B01, 0x0B03, 0x0004]

/-- Checks 1 and 2: header fields and DEVICE_STATE. A RESET after THERMAL_TRIP needs every sensor below 95 degrees (R401). -/
def Dev.preCheck (d : Dev) (p : Packet) : Option (Nat × Nat) :=
  if p.latchEn && 63 < p.latchSet then some (stBadParam, 0xFFFF)
  else if d.plat.deviceState == 3 && !([0x0002, 0x0003, 0x0004].contains p.opcode) then some (stAborted, d.plat.faultCode)
  else if d.plat.faultCode == 2 && p.opcode == 0x0004 && d.pow.doms.any (fun e => 1520 ≤ e.2.temp) then some (stAborted, d.plat.faultCode)
  else if d.plat.phase == .dormant && !dormantOps.contains p.opcode then some (stDormant, 0)
  else none

/-- Take the head packet off a queue. -/
def HostIf.popHead (h : HostIf) (q : Nat) : HostIf := h.updQueue q (fun k => { k with fetched := k.fetched.tail })

/-- A refusal: the command has no effect, and its reply carries the status, with 8 zero latch entries under LATCH_EN
(R432, R520). -/
def Dev.refuse (d : Dev) (q : Nat) (p : Packet) (status detail : Nat) (ext : List Nat) : Dev :=
  let d1 := { d with host := d.host.popHead q }
  let l := if p.latchEn then List.replicate 8 0 else []
  d1.post (q / 8 * 8 + p.queue) (d.replyNow p.tag status (ext.length + l.length) detail :: (ext ++ l))

/-- The queue that holds a packet at its head naming a DISABLED or DRAINING reply queue: the packet never starts and its
queue enters ERROR with code REPLY_QUEUE (R431). -/
def HostIf.replyFault (h : HostIf) (q : Nat) : HostIf :=
  h.updQueue q (fun k => { k with fetched := k.fetched.tail, qstate := if k.qstate == 1 then 2 else k.qstate, err := if k.qstate == 1 then 6 else k.err })

/-- Queues whose head names a reply queue that does not serve. -/
def HostIf.replyFaultQ (h : HostIf) (q : Nat) : Bool :=
  match (h.queue q).fetched with
  | [] => false
  | p :: _ => !(h.queue (q / 8 * 8 + p.queue)).serves

/-- What the interpreter settles without a row of its own: heads whose reply queue does not serve, and unknown opcodes
whose turn it is (R427, R431, R432). -/
def Dev.settle : Nat → Dev → Dev
  | 0, d => d
  | k + 1, d =>
    match (List.range 16).find? (fun q => d.plat.takesCommands && d.host.replyFaultQ q) with
    | some q => Dev.settle k { d with host := d.host.replyFault q }
    | none =>
      match d.nextQueue with
      | none => d
      | some q =>
        match (d.host.queue q).fetched with
        | [] => d
        | p :: _ =>
          if knownOpcodes.contains p.opcode then d
          else
            match d.preCheck p with
            | some (st, det) => Dev.settle k (d.refuse q p st det [])
            | none => Dev.settle k (d.refuse q p stBadOpcode 0 [])

/-- Packets fetched and not started, which bounds what `settle` has to do. -/
def HostIf.waitingPackets (h : HostIf) : Nat := (h.queues.map (fun e => e.2.fetched.length)).sum

/-- Settle all that can be settled. -/
def Dev.settled (d : Dev) : Dev := d.settle (d.host.waitingPackets + 1)

/-! ## Ends of commands -/

/-- The command in progress with this name. -/
def HostIf.cmd (h : HostIf) (id : Nat) : Option Cmd := h.inProg.reverse.find? (fun c => c.id == id)

/-- Latch entries: 16 deltas, two per entry (R520). -/
def latchEntries (start : List (Nat × Nat)) (ctr : Tab Nat) : List Nat :=
  let ds := start.map (fun (i, v) => (counterValue ctr i + 2 ^ 64 - v % 2 ^ 64) % 2 ^ 64)
  (List.range 8).map (fun j => ds.getD (2 * j) 0 + 2 ^ 64 * ds.getD (2 * j + 1) 0)

/-- Take the command out of progress and give back its reserved entries (R419, R431). -/
def HostIf.retire (h : HostIf) (c : Cmd) : HostIf :=
  { h with inProg := h.inProg.filter (fun x => x.id != c.id) }.updQueue c.rq (fun k => { k with reserved := k.reserved - 16 })

/-- UNIT of a command's trace records: its port and queue (R524; log entry 29). -/
def Cmd.traceUnit (c : Cmd) : Nat := c.port + 1 + 4 * (c.queue % 8)

/-- The final reply of a command: exactly one, but for a silent DONE (R430). What it lets go on is settled. -/
def Dev.emitFinal (d : Dev) (c : Cmd) (status detail : Nat) (ext : List Nat) : Dev :=
  let d1 := { d with host := d.host.retire c }.trace 6 4 c.traceUnit c.pkt.tag (status + 2 ^ 16 * detail) 0
  if c.pkt.silent && status == stDone then d1.flush.settled
  else
    let l := if c.pkt.latchEn then latchEntries c.latch d.ctr else []
    (d1.post c.rq (d.replyNow c.pkt.tag status (ext.length + l.length) detail :: (ext ++ l))).flush.settled

/-- The command's work has ended with this status: a deadline passed meanwhile turns DONE and SAMPLE_REPLACED into
DEADLINE_MISSED with EFFECT = 1 (R372, R374), and a latching command waits for its end latch (R520). -/
def Dev.finish (d : Dev) (id status detail : Nat) (ext : List Nat) : Dev :=
  match d.host.cmd id with
  | none => d
  | some c =>
    let missed := c.pkt.dlEn && (status == stDone || status == stReplaced) && d.cad.isPast c.pkt.dlBeat c.pkt.dlPhase d.plat.now
    let inst := (d.cad.instantOf c.pkt.dlBeat c.pkt.dlPhase).getD 0
    let (st, det) := if missed then (stDeadline, missDetail 8 true (d.plat.now - inst)) else (status, detail)
    let d := if missed then { d with cad := d.cad.miss 63 8 true c.pkt.tag inst 0 d.plat.now } else d
    if c.pkt.latchEn then
      { d with host := { d.host with inProg := d.host.inProg.map (fun x =>
          if x.id == id then { x with endLatch := some (st, det, d.plat.now, ext) } else x) } }
    else d.emitFinal c st det ext

/-- The ACCEPTED reply of a command (R430, R443). -/
def Dev.accept (d : Dev) (c : Cmd) : Dev :=
  if c.pkt.silent then d else d.post c.rq [d.replyNow c.pkt.tag stAccepted 0 0]

/-! ## Starts of commands (R432, R520) -/

/-- The command starts: its packet leaves the queue, 16 reply entries are reserved and the start latch is taken. -/
def Dev.begin_ (d : Dev) (q : Nat) (p : Packet) : Dev × Cmd :=
  let ids := if p.latchEn then d.host.latchSet p.latchSet else []
  let c : Cmd := { id := d.host.nextCmd, port := q / 8, queue := q, rq := q / 8 * 8 + p.queue, pkt := p,
                   latch := ids.map (fun i => (i, counterValue d.ctr i)), startedAt := d.plat.now }
  let h := (d.host.popHead q).updQueue c.rq (fun k => { k with reserved := k.reserved + 16 })
  ({ d with host := { h with inProg := h.inProg ++ [c], nextCmd := c.id + 1, lastStart := q } }.trace 5 4 c.traceUnit p.tag p.opcode 0, c)

/-- What a command's own checks find: check 4, a byte offset for BAD_PARAM; check 5, a life-cycle transition that is denied;
check 7, a status, detail and extended entries. -/
structure Checks where
  param : Option Nat := none
  own : Option (Nat × Nat × List Nat) := none
  denied : Bool := false
  deriving DecidableEq, Repr

/-- Checks 3 to 8 of R432 in order, for a known opcode. -/
def Dev.refusal (d : Dev) (q : Nat) (p : Packet) (len : Nat) (ck : Checks) : Option (Nat × Nat × List Nat) :=
  match d.preCheck p with
  | some (st, det) => some (st, det, [])
  | none =>
    if p.plen != len then some (stBadParam, 0xFFFF, [])
    else match ck.param with
    | some off => some (stBadParam, off, [])
    | none =>
      if lcDenied d.plat.lcWord p.opcode || ck.denied then some (stLifecycle, 0, [])
      else if (match guardSem p.opcode with | some n => Tab.get 0 d.host.sems n != q / 8 + 1 | none => false) then
        some (stSemNotHeld, 0, [])
      else match ck.own with
      | some r => some r
      | none =>
        if p.dlEn && d.cad.isPast p.dlBeat p.dlPhase d.plat.now then some (stDeadline, missDetail 8 false 0, [])
        else none

/-- A deadline refusal is a deadline miss of a command (R372, R379). -/
def Dev.noteMiss (d : Dev) (p : Packet) (status : Nat) : Dev :=
  if status = stDeadline then
    { d with cad := d.cad.miss 63 8 false p.tag ((d.cad.instantOf p.dlBeat p.dlPhase).getD 0) 0 d.plat.now }
  else d

/-- The packet at the head of queue `q` is the command with this opcode and these parameter fields, and it is the next to
start. -/
def Dev.head (d : Dev) (q op : Nat) (lay args : List Nat) : Option Packet :=
  if d.nextQueue = some q then
    match (d.host.queue q).fetched with
    | [] => none
    | p :: _ => if p.opcode = op ∧ unpackParams lay p.params = args then some p else none
  else none

/-- A packet command: where it is the next to start, its checks in the order of R432, then its effect; otherwise it does
not take place (log entry 4). -/
def startCmdLen (s : State) (q op : Nat) (lay args : List Nat) (len : Nat) (ck : Dev → Checks) (eff : Dev → Cmd → Dev) : Res :=
  match s.dev.head q op lay args with
  | none => .next s
  | some p =>
    match s.dev.refusal q p len (ck s.dev) with
    | some (st, det, ext) => nextDev s ((s.dev.refuse q p st det ext).noteMiss p st).settled
    | none => nextDev s (eff (s.dev.begin_ q p).1 (s.dev.begin_ q p).2).settled

/-- A packet command of fixed length. -/
def startCmd (s : State) (q op : Nat) (lay args : List Nat) (ck : Dev → Checks) (eff : Dev → Cmd → Dev) : Res :=
  startCmdLen s q op lay args (paramLen lay) ck eff

/-- A command that completes DONE at once after a change of the device. -/
def doneAt (f : Dev → Dev) (detail : Dev → Nat := fun _ => 0) (ext : Dev → List Nat := fun _ => []) : Dev → Cmd → Dev :=
  fun d c => (f d).finish c.id stDone (detail (f d)) (ext (f d))

/-! ## The ownership table (R438 to R440) -/

/-- Owner of a resource: 0 none, 1 A, 2 B, 3 CP. -/
def HostIf.own (h : HostIf) (id : Nat) : Nat := Tab.get 0 h.owner id

/-- DETAIL of a refused claim (R440). -/
def ownDetail (owner id : Nat) : Nat := owner + 4 * id

/-- DETAIL where RESOURCE_BUSY names a plan, step or stream (R444). -/
def portDetail (port : Nat) : Nat := port + 1 + 4 * 0x3FF

/-- The refusal of a claim by `port`: another owner holds the resource (R439). -/
def HostIf.claimRefusal (h : HostIf) (port id : Nat) : Option (Nat × Nat × List Nat) :=
  if h.own id = 0 ∨ h.own id = port + 1 then none else some (stBusy, ownDetail (h.own id) id, [])

/-- The refusal of a command on a port-owned thing that the port does not own (R445). -/
def HostIf.ownRefusal (h : HostIf) (port id : Nat) : Option (Nat × Nat × List Nat) :=
  if h.own id = port + 1 then none else some (stBusy, ownDetail (h.own id) id, [])

/-- Set the owner of a resource. -/
def HostIf.setOwner (h : HostIf) (id owner : Nat) : HostIf := { h with owner := Tab.set 0 h.owner id owner }

end Sys2Proof.Machine
end

