-- ==== Sys2Proof/Machine/PowerOps.lean ====
section
/-! DEFINITION. Operations of power, heat and ageing (spec file 15): power domains and their requests, voltages and
clocks, the energy budget, and what a wipe clears. -/

namespace Sys2Proof.Machine

/-! ## Domains (R381, R382) -/

/-- Domains of clusters: 14p + 0 to 14p + 11. -/
def isCluster (id : Nat) : Bool := id < 56 && id % 14 < 12

/-- Automatic domains (R388). -/
def isAuto (id : Nat) : Bool := (57 ≤ id && id ≤ 60) || (66 ≤ id && id ≤ 83)

/-- The domain a domain depends on (R382). -/
def parentOf (id : Nat) : Option Nat :=
  if id < 56 then (if id % 14 = 12 then none else some (id / 14 * 14 + 12))
  else if 57 ≤ id ∧ id ≤ 60 then some 56
  else none

/-- The domains that depend on a domain, lowest first (R382). -/
def dependants (id : Nat) : List Nat := (List.range 85).filter (fun x => parentOf x == some id)

/-- The domain of a retired cluster (R129). -/
def Plat.retiredDom (p : Plat) (id : Nat) : Bool := isCluster id && bit p.retired (12 * (id / 14) + id % 14)

/-- Change a domain. -/
def Pow.upd (w : Pow) (id : Nat) (f : Dom → Dom) : Pow := { w with doms := Tab.upd {} w.doms id f }

/-- Rail group. -/
def Pow.rail (w : Pow) (g : Nat) : Rail := Tab.get {} w.rails g

/-- Change a rail group. -/
def Pow.updRail (w : Pow) (g : Nat) (f : Rail → Rail) : Pow := { w with rails := Tab.upd {} w.rails g f }

/-- The domain runs: it is ON, its clocks are not stopped by heat (R400, R401), and the device has not stopped all work (R143). -/
def Pow.runs (w : Pow) (id : Nat) : Bool := w.on id && !(w.dom id).stopped && !w.trip && !w.dead

/-- Domain of core n = 48p + c. -/
def coreDom (n : Nat) : Nat := 14 * (n / 48) + n % 48 / 4

/-- An OFF domain that has taken an ON request starts POWERING_UP once its parent is ON and its dwell is over; update
units stay down under POWER_BRAKE_N (R382, R383, R385, R403). -/
def Pow.tryUp (w : Pow) (now id : Nat) : Pow :=
  let d := w.dom id
  let parentOn := match parentOf id with | some p => w.on p | none => true
  let held := w.brakeActed && 57 ≤ id && id ≤ 60
  if d.st = 0 ∧ d.wantUp = true ∧ d.dwell = false ∧ parentOn = true ∧ held = false then
    w.upd id (fun d => { d with st := 1, wantUp := false, since := now })
  else w

/-- Die of a power domain: pods 0 to 3, the Cob 4 (R380). -/
def domDie (id : Nat) : Nat := if id < 56 then id / 14 else 4

/-- DOMAIN records of the domains whose state is not what it was (R524). -/
def Dev.traceDoms (d : Dev) (old : Pow) : Dev :=
  if d.obs.takers 0x0C = [] then d
  else (List.range 85).foldl (fun d id =>
    if (d.pow.dom id).st = (old.dom id).st then d else d.trace 0x0C (domDie id) id 0 (d.pow.dom id).st (d.pow.dom id).freq) d

/-- The ACCEPTED reply of a command in progress by its name; name 0 is the power controller. -/
def Dev.acceptId (d : Dev) (id : Nat) : Dev :=
  match d.host.cmd id with | some c => d.accept c | none => d

/-- End the commands of a list with one status. -/
def Dev.finishAll (d : Dev) (ids : List Nat) (status : Nat) : Dev := ids.foldl (fun d id => d.finish id status 0 []) d

/-- Commands of a request: the power controller's has none. -/
def reqCmd (l : List Nat) (cmd : Nat) : List Nat := if cmd = 0 then l else l ++ [cmd]

/-- A pending request is cancelled by an opposite one: its replies read ABORTED (R385). -/
def Dev.cancelPend (d : Dev) (id : Nat) : Dev :=
  let l := (d.pow.dom id).pendCmds
  { d with pow := d.pow.upd id (fun x => { x with pendOn := false, pendOff := false, pendCmds := [] }),
           ctr := bump d.ctr cobInst 0x61 1 }.finishAll l stAborted

/-- An ON request for one domain by the table of R385. -/
def Dev.reqOn1 (d : Dev) (id cmd : Nat) : Dev :=
  let d := if (d.pow.dom id).pendOff then d.cancelPend id else d
  let x := d.pow.dom id
  if x.pendOn then
    { d with pow := d.pow.upd id (fun x => { x with pendCmds := reqCmd x.pendCmds cmd }) }.acceptId cmd
  else if x.st = 0 then
    { d with pow := (d.pow.upd id (fun x => { x with wantUp := true, onCmds := reqCmd x.onCmds cmd })).tryUp d.plat.now id }.traceDoms d.pow
  else if x.st = 1 then { d with pow := d.pow.upd id (fun x => { x with onCmds := reqCmd x.onCmds cmd }) }
  else if x.st = 2 then d.finish cmd stDone 0 []
  else
    { d with pow := d.pow.upd id (fun x => { x with pendOn := true, pendCmds := reqCmd x.pendCmds cmd }),
             ctr := bump d.ctr cobInst 0x60 1 }.acceptId cmd

/-- An ON request: where the domain is OFF and its parent is not ON, the parent's request is placed first (R382). -/
def Dev.reqOn (d : Dev) (id cmd : Nat) : Dev :=
  match parentOf id with
  | some p => if (d.pow.dom id).st = 0 ∧ d.pow.on p = false then (d.reqOn1 p 0).reqOn1 id cmd else d.reqOn1 id cmd
  | none => d.reqOn1 id cmd

/-- An OFF request by the table of R385. -/
def Dev.reqOff (d : Dev) (id cmd : Nat) : Dev :=
  let d := if (d.pow.dom id).pendOn then d.cancelPend id else d
  let x := d.pow.dom id
  if x.pendOff then
    { d with pow := d.pow.upd id (fun x => { x with pendCmds := reqCmd x.pendCmds cmd }) }.acceptId cmd
  else if x.st = 1 ∨ (x.st = 0 ∧ x.wantUp = true) then
    { d with pow := d.pow.upd id (fun x => { x with pendOff := true, pendCmds := reqCmd x.pendCmds cmd }),
             ctr := bump d.ctr cobInst 0x60 1 }.acceptId cmd
  else if x.st = 0 then d.finish cmd stDone 0 []
  else if x.st = 2 then
    { d with pow := d.pow.upd id (fun x => { x with st := 3, since := d.plat.now, offCmds := reqCmd x.offCmds cmd }) }.traceDoms d.pow
  else { d with pow := d.pow.upd id (fun x => { x with offCmds := reqCmd x.offCmds cmd }) }

/-- Work arrives for an automatic domain that is OFF or on its way there: the controller asks for it unless HOLD_OFF stands (R388). -/
def Dev.demand (d : Dev) (id : Nat) : Dev :=
  let x := d.pow.dom id
  if isAuto id && x.st != 1 && x.st != 2 && !x.wantUp && !x.pendOn && x.hold != 2 then d.reqOn id 0 else d

/-- Domain 83 is ON: the trace buffers that waited for it begin to capture (R521). -/
def Dev.traceUp (d : Dev) (id : Nat) : Dev :=
  if id != 83 then d
  else ([0, 1, 2, 3] : List Nat).foldl (fun d b =>
    let cmd := (d.obs.buf b).upCmd
    if cmd = 0 then d else (d.updBuf b (fun x => { x with armed := true, upCmd := 0 })).finish cmd stDone 0 []) d

/-- The domain's idle time begins (R388). -/
def Pow.idle (w : Pow) (id now : Nat) : Pow := w.upd id (fun x => { x with idleAt := now })

/-- The shards that one update unit has in a layer with a share of it left are in hand: a unit whose clocks stop or whose domain goes down
leaves them, and each is checked when the layer is taken up again (R268). -/
def Dev.noteStop (d : Dev) (u : Nat) : Dev :=
  let ys := d.cob.order.filter (fun y => let l : LayerRun := Tab.get {} d.cob.layers y
    !l.done && !l.skip && d.cob.blks.any (fun b => b.layer == y && b.shard % 4 == u))
  { d with cob := { d.cob with stopped := (d.cob.stopped ++ ys.map (fun y => (u, y))).eraseDups } }

/-- Nominal clock of a Cob domain in MHz: Huller and encoder blocks 1,000, others 1,250. -/
def cobClock (id : Nat) : Nat := if 66 ≤ id ∧ id ≤ 82 then 1000 else 1250

/-- Time of a wipe in ns: SRAM cycles of R381 at 1.0 GHz or the lower held clock, GDDR7 at the interface rate (R386). -/
def wipeTime (pl : Plat) (w : Pow) (id : Nat) : Nat :=
  let cyc :=
    if isCluster id then 1024
    else if id < 56 && id % 14 = 12 then 12288
    else if id = 56 || id = 61 || id = 62 then 8192
    else if id = 82 then 4000
    else if id = 83 then 10000
    else 1000
  let f := (w.dom id).freq
  if id < 56 && id % 14 = 13 then gddrCap pl.podDevices pl.density / (pl.podDevices * 4 * pl.gddrRate)
  else if id = 63 then gddrCap pl.cobDevices pl.density / (pl.cobDevices * 4 * pl.gddrRate)
  else if 0 < f ∧ f < 1000 then cyc * 1000 / f
  else cyc

/-- Time of POWERING_UP in ns (R381). -/
def upTime (id : Nat) : Nat :=
  if isCluster id then 20000
  else if id < 56 && id % 14 = 12 then 40000
  else if (id < 56 && id % 14 = 13) || id = 63 then 1540000
  else if id = 61 || id = 62 then 20000
  else if id = 64 || id = 65 then 2000000
  else 10000

/-- The wiped state of a domain's storage (R140, R381). A session that opens while domain 82 is on its way up has nothing in it yet (R334). -/
def Dev.wipeDomain (d : Dev) (id : Nat) : Dev :=
  let range (d : Dev) (a n : Nat) : Dev := { d with mem := wipeRange d.mem a n, poison := wipeBad d.poison a n }
  if isCluster id then
    let n := 48 * (id / 14) + 4 * (id % 14)
    let d := { d with cores := d.cores.filter (fun e => e.1 < n || n + 4 ≤ e.1) }
    range (range d (coreStore n) 0x1000000) (accWin (4 * n)) 0x400000
  else if id < 56 && id % 14 = 12 then
    range { d with pods := Tab.set {} d.pods (id / 14) {} } (podStore (id / 14)) 0x10000000
  else if id < 56 then range d (podGddr (id / 14)) 0x1000000000
  else if id = 56 then { d with cob := { d.cob with buf := [] } }
  else if id = 61 then range d sramBase 0x8000000
  else if id = 62 then range d (sramBase + 0x8000000) 0x8000000
  else if id = 63 then range d cobGddr 0x1000000000
  else if id = 64 || id = 65 then
    let q := 8 * (id - 64)
    { d with host := { d.host with queues := d.host.queues.filter (fun e => e.1 < q || q + 8 ≤ e.1) } }
  else if id = 82 then { d with enc := { d.enc with sess := d.enc.sess.map (fun e => (e.1, { e.2 with ref := [] })), cur := none } }
  else if id = 83 then { d with obs := { d.obs with bufs := d.obs.bufs.filter (fun e => e.2.upCmd != 0), recs := [] } }
  else if id = 84 then { d with mov := { d.mov with chans := d.mov.chans.filter (fun e => e.1 < 64) } }
  else d

/-! ## Voltages and clocks (R389 to R391, R399, R404, R409) -/

/-- The clocks of the 8 operating points in MHz (R389). -/
def opFreqs : List Nat := [400, 550, 700, 850, 950, 1050, 1150, 1250]

/-- Clock of operating point `op`. -/
def opFreq (op : Nat) : Nat := opFreqs.getD op 1250

/-- The value at clock `f` between the points, in 1/300 of the table's unit, linear in f (R389). -/
def opInterp (vals : List Nat) (f : Nat) : Nat :=
  let i := ((List.range 7).filter (fun i => opFreq i ≤ f)).length - 1
  let f0 := opFreq i
  let f1 := opFreq (i + 1)
  let v0 : Int := vals.getD i 0
  let v1 : Int := vals.getD (i + 1) 0
  (v0 * 300 + (v1 - v0) * ((f : Int) - f0) * ((300 / (f1 - f0) : Nat) : Int)).toNat

/-- V_nom(f) in 1/300 mV. -/
def Plat.vnom (p : Plat) (f : Nat) : Nat := opInterp (p.opTable.map Prod.fst) f

/-- P_cl(f) in 1/3000 W. -/
def Plat.pcl (p : Plat) (f : Nat) : Nat := opInterp (p.opTable.map Prod.snd) f

/-- Full-load power of a cluster at clock f on a rail at v/300 mV, in W (R390). -/
def Plat.clusterPower (p : Plat) (f v : Nat) : Q :=
  ((Q.mk' (p.pcl f) 3000).mul (Q.mk' v (p.vnom f + 4500))).mul (Q.mk' v (p.vnom f + 4500))

/-- The clocks of the 25 MHz grid from 400 to 1,250. -/
def clockGrid : List Nat := (List.range 35).map (fun i => 400 + 25 * i)

/-- The highest clock of the grid that needs at most v/300 mV with guard-band `gb`; 400 where none does (R409). -/
def Plat.maxClock (p : Plat) (v gb : Nat) : Nat :=
  clockGrid.foldl (fun m f => if p.vnom f + 300 * gb ≤ v then f else m) 400

/-- Domain of a pod's fabric: it runs at the arithmetic clock too (R22). -/
def isFabric (id : Nat) : Bool := id < 56 && id % 14 == 12

/-- F_MAX of a domain in MHz (R409); a pod fabric, on the pod's rail, takes the clusters' (log entry 43). -/
def Dev.fMax (d : Dev) (id : Nat) : Nat :=
  let gb := (d.pow.dom id).gb
  if isCluster id || isFabric id then d.plat.maxClock 255000 gb
  else if gb ≤ 100 then cobClock id else cobClock id * 850 / (750 + gb)

/-- Clock ceiling of R399 for a reading in 1/16 degree. -/
def thermCeiling (t : Int) : Nat :=
  if t ≤ 1520 then 1250
  else if 1680 ≤ t then 400
  else (20000 - 85 * (t - 1520).toNat) / 16 / 25 * 25

/-- Largest guard-band among the ON domains of a pod (p below 4), or the ON Cob domains and the base (R390). -/
def Pow.railGb (w : Pow) (g : Nat) : Nat :=
  let ids := if g < 4 then (List.range 14).map (fun i => 14 * g + i) else (List.range 30).map (fun i => 56 + i)
  ids.foldl (fun m id => if w.on id || id = 85 then max m (w.dom id).gb else m) 0

/-- Stream record fields (R461). -/
def strF (rec lo w : Nat) : Nat := bits rec lo w

/-- F_LIVE of the live task that runs on cluster c = 12p + k; none while no task runs there. -/
def Cad.liveClock (c : Cad) (k : Nat) : Option Nat :=
  (c.streams.find? (fun e => e.2.opened && (match e.2.running with | some t => t.startedAt.isSome | none => false)
      && e.2.clusters.contains k)).map (fun e => strF e.2.record 184 11)

/-- Smallest clock at which a training core that a stream may preempt may run, on the grid: S_MAX / QUANTUM (R368, R394). -/
def Dev.fFloor (d : Dev) : Nat :=
  if d.cad.streams.any (fun e => e.2.opened) then
    let s := (d.planUsed.map (fun h => let p := Tab.get {} d.plans h; if p.live then 0 else p.sMax)).foldl max 0
    max 400 (roundUp (ceilDiv s (max (bits d.cad.sched 0 9) 1)) 25)
  else 400

/-- The clock a cluster would have with voltage to spare: the least limit of R404 but for the fast limiter. -/
def Dev.wantClock (d : Dev) (id : Nat) : Nat :=
  let x := d.pow.dom id
  let choice := match d.cad.liveClock (12 * (id / 14) + id % 14) with
    | some f => f
    | none => if d.pow.floorRun then d.fFloor else opFreq d.pow.op
  let f := min (min choice x.ceiling) (d.fMax id)
  let f := if d.pow.brakeActed then min f (bits d.pow.budget 88 11) else f
  if (d.pow.rail (id / 14)).failed then min f 400 else f

/-- Clock of a cluster (R391, R397, R399 to R404). -/
def Dev.clusterClock (d : Dev) (id : Nat) : Nat :=
  let x := d.pow.dom id
  let f := min (d.wantClock id) (d.plat.maxClock (300 * (d.pow.rail (id / 14)).volt) (d.pow.railGb (id / 14)))
  if x.stopped then 0
  else match d.cad.liveClock (12 * (id / 14) + id % 14) with
    | some _ => f
    | none => if x.fastStop then 0 else if x.fastHalf then f / 2 else f

/-- Clock of a pod's fabric: the arithmetic clock of the fastest ON cluster of the pod, or the training point where none is ON, within its
own limits; the spec names no choice of the budget for the fabric (R22; DESIGN CHOICE, log entry 43). -/
def Dev.fabricClock (d : Dev) (p : Nat) : Nat :=
  let ks := ((List.range 12).map (14 * p + ·)).filter d.pow.on
  let f := if ks = [] then opFreq d.pow.op else ks.foldl (fun m k => max m (d.clusterClock k)) 400
  min (min f (d.pow.dom (14 * p + 12)).ceiling) (d.fMax (14 * p + 12))

/-- Clock of a domain (R391, R397, R399 to R404): 0 while stopped. -/
def Dev.clockOf (d : Dev) (id : Nat) : Nat :=
  let x := d.pow.dom id
  if x.stopped || d.pow.trip then 0
  else if isCluster id then d.clusterClock id
  else if isFabric id then d.fabricClock (id / 14)
  else
    let f := min (cobClock id * x.ceiling / 1250) (d.fMax id)
    let f := if d.pow.brakeActed && isAuto id then min f (cobClock id / 2) else f
    if 56 ≤ id && (d.pow.rail 4).failed then min f 400 else f

/-- Voltage a rail is to have, in mV: V_nom of the highest wanted clock plus the guard-band, at most 850 (R390). -/
def Dev.railTarget (d : Dev) (g : Nat) : Nat :=
  if g < 4 then
    let hi := d.pow.doms.foldl (fun m e => if isCluster e.1 && e.1 / 14 == g && e.2.st == 2 then max m (d.wantClock e.1) else m) 0
    if hi = 0 then (d.pow.rail g).target else min 850 (ceilDiv (d.plat.vnom hi) 300 + d.pow.railGb g)
  else min 850 (750 + d.pow.railGb 4)

/-- Command a rail's voltage where it is to change (R391). -/
def Dev.commandRail (d : Dev) (g : Nat) : Dev :=
  let t := d.railTarget g
  if (d.pow.rail g).target = t ∨ (d.pow.rail g).failed = true then d
  else { d with pow := d.pow.updRail g (fun r => { r with target := t, waitV := t != r.volt, cmdAt := d.plat.now }) }

/-- Live tasks that run below F_LIVE are marked slow (R377). -/
def Cad.markSlow (c : Cad) (doms : Tab Dom) : Cad :=
  { c with streams := c.streams.map (fun e =>
      match e.2.running with
      | some t =>
        let f := strF e.2.record 184 11
        let slow := t.startedAt.isSome && e.2.clusters.any (fun k =>
          let x := Tab.get {} doms (14 * (k / 12) + k % 12)
          x.st == 2 && x.freq < f)
        if slow then (e.1, { e.2 with running := some { t with slow := true } }) else e
      | none => e) }

/-- Voltages are commanded, and the clocks of the domains that have them take their limits afresh (R386, R391, R404). -/
def Dev.reclock (d : Dev) : Dev :=
  let d := [0, 1, 2, 3, 4].foldl (fun d g => d.commandRail g) d
  let doms := d.pow.doms.map (fun e => (e.1, if 2 ≤ e.2.st && e.2.st ≤ 4 then { e.2 with freq := d.clockOf e.1 } else e.2))
  { d with pow := { d.pow with doms := doms }, cad := d.cad.markSlow doms }

/-! ## The energy budget (R392 to R396); energies in 10 nJ -/

/-- Energy measured in the last `w` ns (R393). -/
def Pow.used (p : Pow) (now : Nat) (w : Int) : Nat :=
  (p.samples.map (fun s => if (now : Int) - w < s.1 then s.2.1 else 0)).sum

/-- Fixed energy between two device times. -/
def Pow.fixedIn (p : Pow) (a b : Nat) : Nat := (p.samples.map (fun s => if a < s.1 && s.1 ≤ b then s.2.2 else 0)).sum

/-- A task of a stream is released in this beat: its slot fires in it, or the task was released in it and has not ended. -/
def Cad.inBeat (c : Cad) (st : Stream) : Bool :=
  (match Tab.get none c.slots st.slot with | some sl => sl.nextBeat == c.beat | none => false)
    || (match st.waiting with | some t => c.start ≤ t.releasedAt | none => false)
    || (match st.running with | some t => c.start ≤ t.releasedAt | none => false)

/-- F_LIVE, C_task and cluster set of each stream with a task in this beat. -/
def Dev.beatTasks (d : Dev) : List (Nat × Nat × List Nat) :=
  (d.cad.streams.filter (fun e => e.2.opened && d.cad.inBeat e.2)).map (fun e =>
    (strF e.2.record 184 11, (Tab.get {} d.plans (bits e.2.record 0 4)).cTask, e.2.clusters))

/-- Time of a task in ns. -/
def taskNs (t : Nat × Nat × List Nat) : Q := Q.mk' (t.2.1 * 1000) (max t.1 1)

/-- Energy in 10 nJ of a power over ns. -/
def energyOf (p t : Q) : Q := (p.mul t).div (Q.ofInt 10)

/-- Voltage of a pod rail in 1/300 mV with training at `f` and the clocks of the live tasks in the pod (R390, R394). -/
def Dev.planVolt (d : Dev) (ts : List (Nat × Nat × List Nat)) (pod f : Nat) : Nat :=
  let hi := (ts.filter (fun t => t.2.2.any (fun k => k / 12 == pod))).foldl (fun m t => max m t.1) f
  min 255000 (d.plat.vnom hi + 300 * d.pow.railGb pod)

/-- Training clusters 12p + k: ON, not halted and reserved by no stream (R365, R394). -/
def Dev.trainSet (d : Dev) : List Nat :=
  ((List.range 48).filter (fun k =>
    let x := d.pow.dom (14 * (k / 12) + k % 12)
    x.st == 2 && !x.halted && !d.cad.streams.any (fun e => e.2.opened && e.2.reservedNow && e.2.clusters.contains k)))

/-- Live energy of R394 with training at `f`. -/
def Dev.planLive (d : Dev) (ts : List (Nat × Nat × List Nat)) (f : Nat) : Q :=
  ts.foldl (fun e t => t.2.2.foldl (fun e k =>
    e.add (energyOf (d.plat.clusterPower t.1 (d.planVolt ts (k / 12) f)) (taskNs t))) e) Q.zero

/-- Training energy of R394 over `t` ns on `set` at `f`. -/
def Dev.planTrain (d : Dev) (ts : List (Nat × Nat × List Nat)) (t : Q) (set : List Nat) (f : Nat) : Q :=
  set.foldl (fun e k =>
    let busy := ts.foldl (fun b x => if x.2.2.contains k then b.add (taskNs x) else b) Q.zero
    e.add (energyOf (d.plat.clusterPower f (d.planVolt ts (k / 12) f)) (Q.max Q.zero (t.sub busy)))) Q.zero

/-- The prediction of R394 fits the energy `e`. -/
def Dev.planFits (d : Dev) (ts : List (Nat × Nat × List Nat)) (t fixed e : Q) (set : List Nat) (f : Nat) : Bool :=
  ((fixed.add (d.planLive ts f)).add (d.planTrain ts t set f)).le e

/-- E of R394 at device time `now` for the whole beat, in 10 nJ. -/
def Dev.planE (d : Dev) (now : Nat) : Q :=
  let w := d.pow
  let t : Q := Q.mk' d.cad.pEst 65536
  let sust := bits w.budget 32 12
  let peak := bits w.budget 44 12
  let be := bits w.budget 0 32
  let e := Q.ofInt ((sust : Int) * 10 ^ 8 - w.used now (10 ^ 9 - (d.cad.pEst / 65536 : Nat)))
  let e := if t.lt (Q.ofInt (10 ^ 7))
    then Q.min e (Q.ofInt ((peak : Int) * 10 ^ 6 - w.used now (10 ^ 7 - (d.cad.pEst / 65536 : Nat))))
    else Q.min e ((Q.mk' peak 10).mul t)
  if 0 < be then Q.min e (Q.ofInt ((be : Int) * 10 ^ 5)) else e

/-- Halting order: decreasing cluster number, pods 3, 2, 1, 0 for each (R396). -/
def haltOrder : List Nat := (List.range 48).reverse.map (fun i => 12 * (i % 4) + i / 4)

/-- Clusters to halt, in order, until the prediction fits at `f` (R394, R396). -/
def Dev.haltUntil (d : Dev) (ts : List (Nat × Nat × List Nat)) (t fixed e : Q) (f : Nat) :
    List Nat → List Nat → List Nat → List Nat
  | [], _, hs => hs
  | k :: ks, set, hs =>
    if d.planFits ts t fixed e set f then hs
    else if set.contains k then Dev.haltUntil d ts t fixed e f ks (set.filter (· != k)) (hs ++ [k])
    else Dev.haltUntil d ts t fixed e f ks set hs

/-- Mark the running claims of a cluster's cores as preempted from `now`, or as resumed (R114, R396). -/
def preemptClaims (pods : Tab Pod) (now : Nat) (inSet : Nat → Bool) (on : Bool) : Tab Pod :=
  pods.map (fun e => (e.1, { e.2 with ctrs := e.2.ctrs.map (fun x => (x.1, { x.2 with claims := x.2.claims.map (fun c =>
    if inSet c.core then
      if on then { c with preemptAt := some (c.preemptAt.getD now) }
      else match c.preemptAt with
        | some t => { c with preemptAt := none, spellUsed := false, lost := c.lost + (now - t) }
        | none => c
    else c) })) }))

/-- Cores of cluster 12p + k. -/
def inCluster (k n : Nat) : Bool := 48 * (k / 12) + 4 * (k % 12) ≤ n && n < 48 * (k / 12) + 4 * (k % 12) + 4

/-- Some operation has neither completed nor stopped. -/
def Ctx.moving (c : Ctx) : Bool := c.ops.any (fun e => match e.2 with | some o => !o.stopped | none => false)

/-- The core's training stands at a stop point (R366). -/
def Core.still (k : Core) : Bool := match k.ctx with | some c => !c.live && !c.moving | none => true

/-- Halt a cluster: its cores stop at their next stop point, from which their claims count as preempted; a core that stands at one
has reached it (R114, R396). -/
def Dev.halt (d : Dev) (k : Nat) : Dev :=
  { d with pow := d.pow.upd (14 * (k / 12) + k % 12) (fun x => { x with halted := true }),
           pods := preemptClaims d.pods d.plat.now (fun n => inCluster k n && (Tab.get {} d.cores n).still) true,
           ctr := bump d.ctr cobInst 0x62 1 }

/-- A stopped descriptor resumes (R89). -/
def Ctx.resume (c : Ctx) : Ctx := { c with ops := c.ops.map (fun e => (e.1, e.2.map (fun o => { o with stopped := false }))) }

/-- Release a halted cluster: its cores resume (R89, R396). -/
def Dev.unhalt (d : Dev) (k : Nat) : Dev :=
  { d with pow := d.pow.upd (14 * (k / 12) + k % 12) (fun x => { x with halted := false }),
           pods := preemptClaims d.pods d.plat.now (fun n => inCluster k n && (Tab.get {} d.cores n).run == 1) false,
           cores := d.cores.map (fun e => if inCluster k e.1 && e.2.run == 1
             then (e.1, { e.2 with ctx := e.2.ctx.map Ctx.resume }) else e) }

/-- Set the training point (R394). -/
def Dev.setOp (d : Dev) (op : Nat) (floorRun : Bool) : Dev := { d with pow := { d.pow with op := op, floorRun := floorRun } }

/-- The highest training point that fits, from TRAIN_OP_MAX down to the floor (R394). -/
def Dev.bestOp (d : Dev) (ts : List (Nat × Nat × List Nat)) (t fixed e : Q) : Option Nat :=
  ((List.range (bits d.pow.budget 56 4 + 1)).reverse).find? (fun op =>
    d.fFloor ≤ opFreq op && d.planFits ts t fixed e d.trainSet (opFreq op))

/-- plan_beat of R394 over `t` ns with energy `e`. -/
def Dev.planWith (d : Dev) (t fixed e : Q) : Dev :=
  let ts := d.beatTasks
  match d.bestOp ts t fixed e with
  | some op => d.setOp op false
  | none => ((d.haltUntil ts t fixed e d.fFloor haltOrder d.trainSet []).foldl (fun d k => d.halt k) d).setOp 0 true

/-- Halted clusters. -/
def Pow.haltedSet (w : Pow) : List Nat := (List.range 48).filter (fun k => (w.dom (14 * (k / 12) + k % 12)).halted)

/-- Live reserve of a stream: the energy of one task at F_LIVE on its set, the rail at V_nom(F_LIVE) and its guard-band (R395). -/
def Dev.streamReserve (d : Dev) (rec : Nat) (set : List Nat) : Q :=
  let t := (strF rec 184 11, (Tab.get {} d.plans (bits rec 0 4)).cTask, set)
  set.foldl (fun e k => e.add (energyOf (d.plat.clusterPower t.1 (d.planVolt [t] (k / 12) 400)) (taskNs t))) Q.zero

/-- Reserves of the open streams (R395). -/
def Dev.reserves (d : Dev) : Q :=
  (d.cad.streams.filter (fun e => e.2.opened)).foldl (fun q e => q.add (d.streamReserve e.2.record e.2.clusters)) Q.zero

/-- Reserve counted in this beat, in 10 mJ (R395, R405). -/
def Dev.beatReserve (d : Dev) : Nat :=
  (((d.cad.streams.filter (fun e => e.2.opened && d.cad.inBeat e.2)).foldl
    (fun q e => q.add (d.streamReserve e.2.record e.2.clusters)) Q.zero).div (Q.ofInt (10 ^ 6))).floor.toNat

/-- Planning at a beat start: halted clusters are released first (R394, R396). -/
def Dev.planBeat (d : Dev) (fixed : Nat) : Dev :=
  let d := d.pow.haltedSet.foldl (fun d k => d.unhalt k) d
  let e := d.planE d.plat.now
  let t : Q := Q.mk' d.cad.pEst 65536
  let d := { d with pow := { d.pow with fixedPrev := fixed, lastCheck := d.plat.now, brakeReplan := false,
                                        energyE := ((e.div (Q.ofInt (10 ^ 5))).floor.toNat), reserve := d.beatReserve } }
  (d.planWith t (Q.ofInt fixed) e).reclock

/-- What is left of the beat: its time in ns, its fixed energy, and its energy with what is spent deducted (R394). -/
def Dev.restOfBeat (d : Dev) : Q × Q × Q :=
  let t : Q := Q.mk' d.cad.pEst 65536
  let gone := d.plat.now - d.cad.start
  let rest := Q.max Q.zero (t.sub (Q.ofInt gone))
  (rest, ((Q.ofInt d.pow.fixedPrev).mul rest).div (Q.max t Q.one),
    (Q.ofInt ((d.pow.energyE : Int) * 10 ^ 5)).sub (Q.ofInt (d.pow.used d.plat.now gone)))

/-- Planning at a checkpoint within a beat: the rest of the beat with what is spent deducted; it lowers by one point or
one halted cluster, except afresh after POWER_BRAKE_N (R394, R403). -/
def Dev.planCheckpoint (d : Dev) : Dev :=
  let (rest, fixed, e) := d.restOfBeat
  let ts := d.beatTasks
  let f := if d.pow.floorRun then d.fFloor else opFreq d.pow.op
  let fresh := d.pow.brakeReplan
  let d := { d with pow := { d.pow with lastCheck := d.plat.now, brakeReplan := false } }
  let d :=
    if fresh then d.planWith rest fixed e
    else if d.planFits ts rest fixed e d.trainSet f then d
    else if d.pow.floorRun then
      match haltOrder.find? (fun k => d.trainSet.contains k) with | some k => d.halt k | none => d
    else if 0 < d.pow.op ∧ d.fFloor ≤ opFreq (d.pow.op - 1) then d.setOp (d.pow.op - 1) false
    else d.setOp 0 true
  d.reclock

/-- The floor of the training clocks has risen from `was`: training that ran below it runs at it, or stops where the energy does not allow
that (R368, R394). -/
def Dev.raiseFloor (d : Dev) (was : Nat) : Dev :=
  if d.fFloor ≤ was ∨ (d.pow.floorRun = false ∧ d.fFloor ≤ opFreq d.pow.op) then d
  else
    let (rest, fixed, e) := d.restOfBeat
    (((d.haltUntil d.beatTasks rest fixed e d.fFloor haltOrder d.trainSet []).foldl (fun d k => d.halt k) d).setOp 0 true).reclock

end Sys2Proof.Machine
end

