-- ==== Sys2Proof/Machine/StartOps.lean ====
section
/-! DEFINITION. Operations of start-up, reset and the identity and fault-summary blocks (spec files 16, 17, 19). -/

namespace Sys2Proof.Machine

/-! ## Blocks that commands and window reads return -/

/-- Active clusters of a pod (R418). -/
def Plat.activeClusters (p : Plat) (pod : Nat) : Nat :=
  ((List.range 12).filter (fun k => !bit p.retired (12 * pod + k))).length

/-- The identity block read through a port (R418). Fields that firmware loads read 0 before it has, and in dormant mode
but for FW_IMAGE and FW_VERSION. -/
def Plat.identity (p : Plat) (port : Nat) : Nat :=
  let fw (v : Nat) : Nat := if p.fwLoaded && p.phase != .dormant then v else 0
  packBits [(16, 0x57D0), (16, 0x4800), (8, 0xB0), (1, port), (7, 0), (3, p.deviceState), (13, 0), (64, fw p.serial),
            (32, p.fwVersion), (1, p.fwImage), (15, 0),
            (4, fw (p.activeClusters 0)), (4, fw (p.activeClusters 1)), (4, fw (p.activeClusters 2)), (4, fw (p.activeClusters 3)),
            (48, fw p.retired), (4, fw p.podDevices), (4, fw p.cobDevices), (2, fw p.density), (6, fw p.gddrRate)]

/-- PRIOR of R504: the prior state in DEBUG_OPEN, otherwise LIFECYCLE. -/
def Plat.prior (p : Plat) : Nat := if p.lcWord = 4 then p.lcPrior else p.lcWord

/-- The 32 bytes of the fault summary (R504). -/
def Plat.faultSummary (p : Plat) : Nat :=
  packBits [(4, p.faultCode), (4, 0), (8, p.dormantReason), (8, p.lastReason), (3, p.bootAttempts), (3, p.failLimit), (2, 0),
            (3, p.lcWord), (3, p.prior), (1, b2n (p.customerKey != 0)), (1, b2n p.attestReady), (11, p.lcCount), (13, p.attestStep),
            (7, p.svnFloor), (1, 0), (3, p.imgA), (3, p.imgB), (50, 0), (64, p.faultTime), (64, 0)]

/-- A fault-log record of 32 bytes (R449). -/
def FaultRec.word (r : FaultRec) : Nat :=
  packBits [(64, r.time), (8, r.unit), (3, r.die), (5, r.kind), (48, r.addr), (16, r.opcode), (32, r.tag), (2, r.port), (14, 0),
            (32, r.descId), (32, 0)]

/-- An address range that a command may write: backed and within reach; in dormant mode only port A's host window (R501). -/
def Dev.cmdWritable (d : Dev) (a n : Nat) : Bool :=
  if d.plat.phase = .dormant then hostBase 0 ≤ a && a + n ≤ hostBase 1 else (d.unwritable a n).isNone

/-- An address range that a command may read. -/
def Dev.cmdReadable (d : Dev) (a n : Nat) : Bool :=
  if d.plat.phase = .dormant then hostBase 0 ≤ a && a + n ≤ hostBase 1 else d.backed a n

/-! ## Starts (R488 to R492, R500, R501) -/

/-- Memory that no reset or wipe touches: the hosts' own. -/
def keepHost {α : Type} (m : Tab α) : Tab α := m.filter (fun e => hostBase 0 ≤ e.1)

/-- The packets that have not started are discarded. -/
def HostIf.dropPackets (h : HostIf) : HostIf := { h with queues := h.queues.map (fun e => (e.1, { e.2 with fetched := [] })) }

/-- Commands that have not started are discarded, and every command in progress but one completes with ABORTED (R447). -/
def Dev.abortAll (d : Dev) (keep : Nat) : Dev :=
  (d.host.inProg.filter (fun c => c.id != keep)).foldl (fun d c => d.emitFinal c stAborted 0 []) { d with host := d.host.dropPackets }

/-- What survives of a domain: where it stands, its temperature, and its ageing record in flash (R383, R406, R493). -/
def Dom.fresh (x : Dom) : Dom :=
  { st := x.st, dwell := x.dwell, since := x.since, freq := x.freq, temp := x.temp, rho0 := x.rho0, ai := x.ai, gb := x.gb,
    gbNew := x.gbNew, readings := x.readings, nReads := x.nReads, lastBeat := x.lastBeat }

/-- Power state at a start: every domain stands where it stood, rails keep their voltage, and everything else is reset. -/
def Pow.fresh (w : Pow) : Pow :=
  { doms := (List.range 86).foldl (fun t id => Tab.set {} t id (w.dom id).fresh) [],
    rails := w.rails.map (fun e => (e.1, { volt := e.2.volt, target := e.2.target })),
    samples := w.samples, energyTotal := w.energyTotal, brakeActed := w.brakeActed }

/-- The supplies end with every domain OFF; the order of R383 holds while power does (R546). -/
def Pow.unpowered (w : Pow) : Pow :=
  { w.fresh with doms := w.fresh.doms.map (fun e => (e.1, { e.2 with st := 0, dwell := false, freq := 0 })) }

/-- Every domain but those of retired clusters. -/
def Plat.allOn (p : Plat) (id : Nat) : Bool := id < 85 && !p.retiredDom id

/-- The power controller asks for the domains of a set, a parent before its dependants (R382, R385, R489). -/
def Dev.askOn (d : Dev) (p : Nat → Bool) : Dev := ((List.range 85).filter p).foldl (fun d id => d.reqOn id 0) d

/-- One domain on its way to OFF: an ON domain drains, one that powers up does so at ON, one that has not begun stays (R383, R491). -/
def Dom.turnOff (x : Dom) (now : Nat) : Dom :=
  let x := { x with pendOn := false, wantUp := false }
  if x.st = 1 then { x with pendOff := true } else if x.st = 2 then { x with st := 3, since := now } else x

/-- Every switched domain is OFF. -/
def Pow.allOff (w : Pow) : Bool := (List.range 85).all (fun id => (w.dom id).st == 0)

/-- GPIO pins return to inputs; the levels the board drives stay (R542). -/
def freshPins (t : Tab Gpio) : Tab Gpio := t.foldl (fun u e => Tab.set {} u e.1 { input := e.2.input }) []

/-- A port after a RESET command: the link stays as it is trained (R16, R420). -/
def Port.fresh (p : Port) : Port := { up := p.up, width := p.width, rate := p.rate, downs := p.downs, downAt := p.downAt }

/-- Ports, queues, semaphores and ownership at their reset values (R436, R450). -/
def HostIf.fresh (h : HostIf) : HostIf :=
  { ports := h.ports.foldl (fun t e => Tab.set {} t e.1 e.2.fresh) [], gpio := freshPins h.gpio, irqs := h.irqs, nextCmd := h.nextCmd }

/-! ## The cadence configuration (R348) -/

def cfgNum (x : Nat) : Nat := bits x 0 32
def cfgDen (x : Nat) : Nat := bits x 32 16
def cfgPulse (x : Nat) : Nat := bits x 48 3
def cfgSource (x : Nat) : Nat := bits x 51 2
def cfgPort (x : Nat) : Nat := bits x 53 1
def cfgMiss (x : Nat) : Nat := bits x 56 8

/-- P_EST of a nominal period (R349). -/
def nominalEst (cfg : Nat) : Nat := cfgNum cfg * 65536 / max (cfgDen cfg) 1

/-- The cadence unit after a RESET command: the beat count and configuration stand, and every other field takes its reset value, STATE among
them (R16, R347, R359, R379). A unit whose kept SOURCE is not FREE goes on to ACQUIRING at the next beat start (log entry 45). -/
def Cad.keep (c : Cad) : Cad :=
  { c with slots := [], timers := [], streams := [], nextOrder := 0, missTotal := 0, missLog := [], lastMiss := none,
           outHigh := false, outEnd := none, mode := 0, pEst := nominalEst c.cfg, anchorBeat := c.beat,
           anchorStart := c.start, expired := false, lockBeat := 0, lockedBeats := 0, agree := 0, intervals := [], missed := 0, edgeTaken := none,
           stepPend := false, refError := 0, lastRef := none, refSeen := none, lastSync := none, ptpOff := none }

/-- The cadence unit after a restart by the Husk: source FREE at the reset configuration; the beat in progress ends now and
the next one starts now (R347). -/
def Cad.restart (c : Cad) (now : Nat) : Cad :=
  { beat := c.beat + 1, start := now, anchorBeat := c.beat + 1, anchorStart := now, hist := (c.beat, c.start, c.pBeat) :: c.hist }

/-- The device with all work stopped and every byte of its storage wiped; the hosts' memory stays. -/
def Dev.cleared (d : Dev) (plat : Plat) (host : HostIf) (cad : Cad) (pow : Pow) : Dev :=
  { plat := plat, host := host, cad := cad, pow := pow, mem := keepHost d.mem, poison := keepHost d.poison, ctr := d.ctr }

/-- The fault state a start begins with; AON and OTP fields stay (R16, R493, R504). -/
def Plat.noFault (p : Plat) : Plat :=
  { p with faultCode := 0, faultTime := 0, dormantReason := 0, fwUpd := none, resetAt := none, lifeAt := none, thermAlertLow := false }

/-- Vector 8 of each port whose PORT_IRQ_EN is 1, where the fault summary is not what it was (R425). -/
def Dev.summaryIrq (d : Dev) (old : Plat) : Dev :=
  if d.plat.faultSummary = old.faultSummary then d else { d with host := d.host.irqPorts }

/-- SMB_ALERT_N goes low when FAULT_CODE or DORMANT_REASON changes from 0 or DEVICE_STATE changes (R554). -/
def Dev.alerted (d : Dev) (old : Plat) : Dev :=
  let p := d.plat
  { d with plat := { p with smbAlertLow := p.smbAlertLow || (old.faultCode == 0 && p.faultCode != 0)
      || (old.dormantReason == 0 && p.dormantReason != 0) || old.deviceState != p.deviceState } }

/-- RESET acts: all work stops, storage is wiped, and start-up repeats from GDDR7 training on, for which the domains that are not ON come
up (R383, R447, R450). -/
def Dev.resetNow (d : Dev) : Dev :=
  let d := d.abortAll 0
  ((d.cleared { d.plat.noFault with phase := .train, d2dDone := true, gddrDone := false, fullStart := false,
                                    powerMark := d.plat.now, stageMark := d.plat.now }
    d.host.fresh d.cad.keep d.pow.fresh).askOn d.plat.allOn).reclock

/-- The Husk returns DEBUG_OPEN to the prior state, which takes a step of LC_COUNT (R506, R508). -/
def Plat.closeDebug (p : Plat) : Plat :=
  if p.lcWord = 4 then { p with lcWord := p.lcPrior, lcCount := min 1024 (p.lcCount + 1) } else p

/-- Time 0 of R489: dormant mode where BOOT_ATTEMPTS equals FAIL_LIMIT, otherwise one more attempt, and the ports come up (R489, R500, R501;
log entry 11). -/
def Dev.startZero (d : Dev) : Dev :=
  let p := d.plat.noFault
  if p.bootAttempts = p.failLimit then
    { d with plat := { p with phase := .dormant, dormantReason := p.lastReason, faultTime := p.now, fwLoaded := false, attestReady := false },
             pow := d.pow.fresh, host := { d.host with sems := [], owner := [] }, ctr := [] }
  else
    let q := { p.closeDebug with
      phase := .verify
      bootAttempts := p.bootAttempts + 1
      d2dDone := false
      gddrDone := false
      fullStart := true
      fwLoaded := false
      attestReady := false
      attestActive := false
      attestTree := 0
      attestLeaf := 0
      powerMark := p.now
      stageMark := p.now }
    { d with plat := q, pow := d.pow.fresh }.askOn (fun id => id == 64 || id == 65)

/-- A port whose link trains again; LINK_DOWN_EVENTS counts since RESET_N (R420). -/
def Port.retrain (p : Port) (now : Nat) : Port :=
  { downs := if p.up then (p.downs + 1) % 2 ^ 32 else p.downs, downAt := some now }

/-- A start by the Husk without RESET_N: device time and the beat count run on (R347, R491, R502). -/
def Dev.huskStart (d : Dev) : Dev :=
  (d.cleared d.plat { d.host.fresh with ports := d.host.ports.foldl (fun t e => Tab.set {} t e.1 (e.2.retrain d.plat.now)) [] } (d.cad.restart d.plat.now) d.pow).startZero

/-- A start fails with a reason: a fault-log record with UNIT 13, and every switched domain on its way to OFF (R383, R491). -/
def Dev.failStart (d : Dev) (reason : Nat) : Dev :=
  { d with plat := { d.plat with phase := .failed, lastReason := reason, stageMark := d.plat.now }.log { unit := 13, die := 4 },
           pow := { d.pow with doms := d.pow.doms.map (fun (e : Nat × Dom) => (e.1, e.2.turnOff d.plat.now)) } }.summaryIrq d.plat

end Sys2Proof.Machine
end

