-- ==== Sys2Proof/Machine/PageOps.lean ====
section
/-! DEFINITION. Frame pools, sequence tables and readers of the pod sequencer (spec file 07, R190 to R196; R452 of 17). -/

namespace Sys2Proof.Machine

/-- Reference count of a pool record (R193). -/
def recRef (r : Nat) : Nat := bits r 0 16
/-- ALLOCATED of a pool record. -/
def recAlloc (r : Nat) : Bool := bit r 16
/-- FREE_EPOCH of a pool record. -/
def recEpoch (r : Nat) : Nat := bits r 32 32
/-- A pool record (R193). -/
def mkRec (ref : Nat) (alloc : Bool) (epoch : Nat) : Nat := packBits [(16, ref), (1, b2n alloc), (15, 0), (32, epoch)]

/-- STATE of a page-table entry: 0 INVALID, 1 PENDING, 2 VALID (R191). -/
def entState (e : Nat) : Nat := bits e 36 2
/-- Device address of the frame that an entry names. -/
def entFrame (e : Nat) : Nat := bits e 0 36 * 4096
/-- Logical page of an entry. -/
def entPage (e : Nat) : Nat := bits e 40 24
/-- A page-table entry (R191). -/
def mkEntry (frame state lpage : Nat) : Nat := packBits [(36, frame / 4096), (2, state), (2, 0), (24, lpage)]

/-- Pod of the device. -/
def Dev.pod (d : Dev) (p : Nat) : Pod := Tab.get {} d.pods p
/-- Change a pod. -/
def Dev.updPod (d : Dev) (p : Nat) (f : Pod → Pod) : Dev := { d with pods := Tab.upd {} d.pods p f }
/-- Pool of a pod. -/
def Pod.pool (x : Pod) (n : Nat) : Pool := Tab.get {} x.pools n
/-- Sequence table of a pod. -/
def Pod.seq (x : Pod) (t : Nat) : SeqTab := Tab.get {} x.seqs t
/-- Change a sequence table. -/
def Pod.updSeq (x : Pod) (t : Nat) (f : SeqTab → SeqTab) : Pod := { x with seqs := Tab.upd {} x.seqs t f }
/-- Change the pool record of a frame. -/
def Pod.updRec (x : Pod) (n i : Nat) (f : Nat → Nat) : Pod :=
  { x with pools := Tab.upd {} x.pools n (fun p => { p with recs := Tab.upd 0 p.recs i f }) }

/-- Device address of frame `i` of a pool (R452). -/
def Pool.addr (p : Pool) (i : Nat) : Nat := p.base + i * p.frameBytes

/-- Pool and index of the frame at an address. -/
def Pod.frameAt (x : Pod) (a : Nat) : Option (Nat × Nat) :=
  (x.pools.find? (fun e => e.2.inUse && e.2.base ≤ a && a < e.2.addr e.2.frames)).map (fun e => (e.1, (a - e.2.base) / max e.2.frameBytes 1))

/-- Frames with REFCOUNT 0 that no open reader can hold return to the free list (R196). -/
def Pod.sweep (x : Pod) : Pod :=
  { x with pools := x.pools.map (fun e => (e.1, { e.2 with recs := e.2.recs.map (fun r =>
      if recAlloc r.2 && recRef r.2 == 0 && !x.readers.any (fun k => k.2 ≤ recEpoch r.2) then (r.1, mkRec 0 false (recEpoch r.2)) else r) })) }

/-- ALLOC: the lowest free frame, with REFCOUNT 1; none where none is free (R194). -/
def Pod.alloc (x : Pod) (n : Nat) : Option (Nat × Pod) :=
  let p := x.pool n
  (firstIdx (fun i => !recAlloc (Tab.get 0 p.recs i)) p.frames).map (fun i =>
    (p.addr i, x.updRec n i (fun r => mkRec 1 true (recEpoch r))))

/-- FREE of the frame at an address: REFCOUNT falls by 1, and at 0 the frame takes FREE_EPOCH (R194, R196). -/
def Pod.free (x : Pod) (a : Nat) : Pod :=
  match x.frameAt a with
  | none => x
  | some (n, i) =>
    (x.updRec n i (fun r =>
      if recRef r ≤ 1 then mkRec 0 (recAlloc r) x.epoch else mkRec (recRef r - 1) (recAlloc r) (recEpoch r))).sweep

/-- REFCOUNT of the frame at an address. -/
def Pod.refs (x : Pod) (a : Nat) : Nat :=
  match x.frameAt a with | none => 0 | some (n, i) => recRef (Tab.get 0 (x.pool n).recs i)

/-- SHARE of the frame at an address (R194). -/
def Pod.share (x : Pod) (a : Nat) : Pod :=
  match x.frameAt a with
  | none => x
  | some (n, i) => x.updRec n i (fun r => mkRec (recRef r + 1) (recAlloc r) (recEpoch r))

/-- FREE the frame of an entry, if it names one. -/
def Pod.freeEnt (x : Pod) (e : Nat) : Pod := if entState e = 0 then x else x.free (entFrame e)

/-- Set an entry of a sequence table. -/
def Pod.setEnt (x : Pod) (t i e : Nat) : Pod := x.updSeq t (fun s => { s with ents := Tab.set 0 s.ents i e })

/-- Entry of a sequence table. -/
def Pod.ent (x : Pod) (t i : Nat) : Nat := Tab.get 0 (x.seq t).ents i

/-- PAGE_ALLOC on an entry: the old frame is freed, a new one taken; none without effect where no frame is free. -/
def Pod.pageAlloc (x : Pod) (t i lpage : Nat) : Option (Nat × Pod) :=
  ((x.freeEnt (x.ent t i)).alloc (x.seq t).pool).map (fun (a, y) => (a, y.setEnt t i (mkEntry a 2 lpage)))

/-- A reader starts: EPOCH rises and the reader takes it (R193). -/
def Pod.openReader (x : Pod) (key : Nat) : Pod :=
  let e := (x.epoch + 1) % 2 ^ 32
  { x with epoch := e, readers := (key, e) :: x.readers.filter (fun r => r.1 != key) }

/-- A reader completes: its epoch closes, the frames it received are freed, and frames return (R196, R198). -/
def Pod.closeReader (x : Pod) (key : Nat) : Pod :=
  let mine := x.stepFrames.filter (fun f => f.key == key)
  let y := { x with readers := x.readers.filter (fun r => r.1 != key), stepFrames := x.stepFrames.filter (fun f => f.key != key),
                    stepWrites := x.stepWrites.filter (fun f => f.1 != key),
                    priv := Tab.set [] x.priv key [] }
  (mine.foldl (fun z f => z.free ((z.pool f.pool).addr f.frame)) y).sweep

/-- Entry index of a logical page (R191). -/
def SeqTab.index (s : SeqTab) (e : Nat) : Nat := if s.ring = 0 then e else e % s.ring

/-- What preparing one page does: the pod, the copy to make (old and new address, bytes), or failure (R195). -/
structure Prep where
  pod : Pod
  copies : List (Nat × Nat × Nat) := []
  failed : Bool := false
  deriving DecidableEq, Repr

/-- Prepare one logical page of a table that a step or task writes (R195). Where ALLOC fails, an old frame that FREE has let go is
named no more. In a linear table an entry holds its own page alone, so only INVALID calls for a new frame there. -/
def Prep.page (r : Prep) (t e : Nat) : Prep :=
  if r.failed then r
  else
    let x := r.pod
    let s := x.seq t
    let i := s.index e
    let old := x.ent t i
    if !s.inUse || s.entries ≤ i then { r with failed := true }
    else if entState old = 0 ∨ (s.ring ≠ 0 ∧ entPage old < e) then
      match x.pageAlloc t i e with
      | some (_, y) => { r with pod := y }
      | none => { r with pod := (x.freeEnt old).setEnt t i (if entState old = 0 then old else 0), failed := true }
    else if x.refs (entFrame old) ≤ 1 then r
    else
      match x.alloc s.pool with
      | none => { r with failed := true }
      | some (a, y) =>
        { r with pod := (y.free (entFrame old)).setEnt t i (mkEntry a 2 (entPage old)),
                 copies := r.copies ++ [(entFrame old, a, (x.pool s.pool).frameBytes)] }

/-- Prepare the pages of positions `first` to `last` of a table (R195). -/
def Prep.range (r : Prep) (t first last : Nat) : Prep :=
  ((List.range (last / 256 - first / 256 + 1)).map (· + first / 256)).foldl (fun r e => r.page t e) r

end Sys2Proof.Machine
end

