-- ==== Sys2Proof/Machine/AttnOps.lean ====
section
/-! DEFINITION. ATTENTION descriptors (spec file 07, R174 to R191). -/

namespace Sys2Proof.Machine

/-! ## Fields of R184 and R185 -/

def aDir (d : Nat) : Nat := bits d 128 2
def aAbs (d : Nat) : Bool := bit d 130
def aCausal (d : Nat) : Bool := bit d 131
def aGQ (d : Nat) : Bool := bit d 132
def aRope (d : Nat) : Bool := bit d 133
def aGrad (d : Nat) : Bool := bit d 134
def aFmtQ (d : Nat) : Nat := bits d 136 16
def aFmtLat (d : Nat) : Nat := bits d 152 16
def aFmtW (d : Nat) : Nat := bits d 168 16
def aFmtOut (d : Nat) : Nat := bits d 184 16
def aFmtDo (d : Nat) : Nat := bits d 200 16
def aHeads (d : Nat) : Nat := bits d 216 8
def aDL (d : Nat) : Nat := 64 * bits d 224 5
def aDHN (d : Nat) : Nat := 64 * (bits d 229 2 + 1)
def aDV (d : Nat) : Nat := 64 * (bits d 231 2 + 1)
def aGCount (d : Nat) : Nat := bits d 233 7
def aBatch (d : Nat) : Nat := bits d 240 5
def aRing (d : Nat) : Nat := bits d 248 8
def aQRows (d : Nat) : Nat := bits d 256 20
def aWindow (d : Nat) : Nat := bits d 288 24
def aScale (d : Nat) : Nat := bits d 320 32
def aSym (d : Nat) : Nat := bits d 352 32
def aSym2 (d : Nat) : Nat := bits d 384 32
def aQ (d : Nat) : Nat := bits d 416 48
def aQR (d : Nat) : Nat := bits d 464 48
def aOut (d : Nat) : Nat := bits d 512 48
def aOut2 (d : Nat) : Nat := bits d 560 48
def aDo (d : Nat) : Nat := bits d 608 48
def aLse (d : Nat) : Nat := bits d 656 48
def aD (d : Nat) : Nat := bits d 704 48
def aWuk (d : Nat) : Nat := bits d 752 48
def aWuv (d : Nat) : Nat := bits d 800 48
def aSlot (d : Nat) : Nat := bits d 848 48
def aWs (d : Nat) : Nat := bits d 896 48
def aQScale (d : Nat) : Nat := bits d 944 48
def aQRs (d : Nat) : Nat := bits d 992 32
def aQHs (d : Nat) : Nat := bits d 1024 32
def aQBs (d : Nat) : Nat := bits d 1056 40
def aOutRs (d : Nat) : Nat := bits d 1096 32
def aOutHs (d : Nat) : Nat := bits d 1128 32
def aOutBs (d : Nat) : Nat := bits d 1160 40
def aIdx (d : Nat) : Nat := bits d 1200 48
def aIdxR (d : Nat) : Nat := bits d 1248 40
def aIdxH (d : Nat) : Nat := bits d 1288 40
def aIdxB (d : Nat) : Nat := bits d 1328 40
def aKRows (d : Nat) : Nat := bits d 1368 20

/-- Query width (R174). -/
def aQW (d : Nat) : Nat := if aAbs d then aDL d else aDHN d
/-- Value width. -/
def aVW (d : Nat) : Nat := if aAbs d then aDL d else aDV d
/-- Rotary width. -/
def aDR (d : Nat) : Nat := if aRope d then 64 else 0
/-- Bytes of a latent element. -/
def aLatW (d : Nat) : Nat := if fwFmt (aFmtLat d) = .bf16 then 2 else 1
/-- The latent is in FP8. -/
def aLat8 (d : Nat) : Bool := fwFmt (aFmtLat d) == .e4m3
/-- Bytes of one row across the sections of a page (R190). -/
def aRB (d : Nat) : Nat := aDL d * aLatW d + (if aLat8 d then aDL d / 32 else 0) + 2 * aDR d

/-- A slot record (R185). -/
structure ASlot where
  qpos : Nat
  qValid : Nat
  kvLen : Nat
  kpos : Nat
  kValid : Nat
  pt : Nat
  gpage : Nat
  gpos : List Nat
  gposAt : Nat
  deriving DecidableEq, Repr

/-- Slot record of batch index `b`, with its global list, which WINDOW = 0 leaves unread (R176, R558). -/
def Wk.slot (w : Wk) (d b : Nat) : ASlot × Wk :=
  let (bs, w) := w.read (aSlot d + 64 * b) 64
  let x := leNat bs
  let ga := bits x 288 48
  let (gs, w) := if aWindow d = 0 then ([], w) else w.read ga (4 * aGCount d)
  ({ qpos := bits x 0 32, qValid := bits x 32 20, kvLen := bits x 64 32, kpos := bits x 96 32, kValid := bits x 128 20,
     pt := bits x 160 48, gpage := bits x 224 48, gpos := unpackCodes 32 (if aWindow d = 0 then 0 else aGCount d) gs, gposAt := ga }, w)

/-- Strictly increasing. -/
def rising : List Nat → Bool
  | [] => true
  | [_] => true
  | a :: b :: l => a < b && rising (b :: l)

/-- The address lies in the pod's store or GDDR7 (R187). -/
def Dev.inPod (d : Dev) (p a : Nat) : Bool :=
  (podStore p ≤ a && a < podStore p + 0x6000000) || (podGddr p ≤ a && a < podGddr p + gddrCap d.plat.podDevices d.plat.density)

/-- The checks of R187 on a slot record and its global list. -/
def Dev.slotOk (dev : Dev) (p d : Nat) (s : ASlot) : Bool :=
  s.qValid ≤ aQRows d && (aDir d != 2 || s.kValid ≤ aKRows d) && rising s.gpos && dev.inPod p s.pt
    && (aRing d == 0 || s.gpos.isEmpty || dev.inPod p s.gpage) && dev.backed s.gposAt (4 * s.gpos.length)

/-- allowed(i, j) of R176. -/
def allowed (d : Nat) (s : ASlot) (i j : Nat) : Bool :=
  if s.kvLen ≤ j then false
  else if aCausal d && i < j then false
  else if aWindow d = 0 then true
  else (max i j - min i j < aWindow d) || s.gpos.contains j || (aGQ d && s.gpos.contains i)

/-- Key positions that query position `i` may attend to, in increasing order. -/
def allowedKeys (d : Nat) (s : ASlot) (i : Nat) : List Nat := (List.range s.kvLen).filter (allowed d s i)

/-- Positions of the valid query rows. -/
def queryRows (s : ASlot) : List Nat := (List.range s.qValid).map (· + s.qpos)

/-- Key positions that the descriptor needs for a batch index. -/
def neededKeys (d : Nat) (s : ASlot) : List Nat :=
  if aDir d = 2 then (((List.range s.kValid).map (· + s.kpos)).filter (fun j => (queryRows s).any (fun i => allowed d s i j)))
  else (List.range s.kvLen).filter (fun j => (queryRows s).any (fun i => allowed d s i j))

/-- Where the row of position `j` lies: frame address and row within it; for a global position under a ring, the global
page (R190, R191). The first part is the page entry's state: 0 a fault, 1 PENDING, 2 readable. -/
def keyPlace (m : Tab Byte) (d : Nat) (s : ASlot) (j : Nat) : Nat × Nat × Nat :=
  let e := j / 256
  if aRing d != 0 && s.gpos.contains j then (2, s.gpage, s.gpos.idxOf j)
  else
    let idx := if aRing d = 0 then e else e % aRing d
    let x := rdNat m (s.pt + 8 * idx) 8
    if entPage x != e then (0, 0, 0)
    else match entState x with
      | 2 => (2, entFrame x, j % 256)
      | 1 => (1, 0, 0)
      | _ => (0, 0, 0)

/-- The first page of some key positions that is INVALID or holds another logical page (R187). -/
def pageFault (m : Tab Byte) (d : Nat) (s : ASlot) (js : List Nat) : Option Nat :=
  (js.find? (fun j => (keyPlace m d s j).1 == 0)).map (· / 256)

/-- A page of some key positions is still PENDING (R189). -/
def pageWaits (m : Tab Byte) (d : Nat) (s : ASlot) (js : List Nat) : Bool := js.any (fun j => (keyPlace m d s j).1 == 1)

/-! ## Keys and values (R174, R178) -/

/-- A key position as read: latent row, rotary row. -/
structure KeyRow where
  pos : Nat
  lat : Row
  rot : Row
  deriving DecidableEq, Repr

/-- BF16 row of codes. -/
def bfRow (cs : List Nat) : Row := ⟨.bf16, 0, 0, cs, []⟩

/-- Read the latent and rotary rows of a position (R190). -/
def Wk.keyRow (w : Wk) (d : Nat) (s : ASlot) (j : Nat) : KeyRow × Wk :=
  let (_, f, t) := keyPlace w.mem d s j
  let n := aDL d
  let lw := aLatW d
  let (l, w) := w.readRow (aFmtLat d) (f + t * n * lw) (f + 256 * n * lw + t * (n / 32)) n false 0 n
  let rb := f + 256 * n * lw + (if aLat8 d then 256 * (n / 32) else 0)
  let (r, w) := if aRope d then w.read (rb + 128 * t) 128 else ([], w)
  (⟨j, l, bfRow (unpackCodes 16 (aDR d) r)⟩, w)

/-- BF16 code of an FP32 pattern. -/
def toBf (c : Nat) : Nat := Fmt.bf16.encode (rnBf16 (fp32 c))

/-- Group size of a pair of format words. -/
def pairG (a b : Nat) : Nat := (groupSize (fwFmt a) (fwFmt b)).getD 16

/-- Rows of a projection for head `h`: `n` rows of DL elements (R178). -/
def Wk.proj (w : Wk) (d base n h : Nat) : List Row × Wk :=
  let f := aFmtW d
  let rl := packedLen f (aDL d)
  let sb := base + roundUp (aHeads d * n * rl) 64
  (List.range n).foldr (fun k (acc, w) =>
    let (r, w) := Wk.readRow w f (base + (h * n + k) * rl) (scaleAddr f sb (aDL d) false (h * n + k)) (aDL d) false 0 (aDL d)
    (r :: acc, w)) (([] : List Row), w)

/-- Expanded elements of a key position under a projection: BF16 codes (R178). -/
def expandKey (d : Nat) (l : Row) (ws : List Row) : List Nat :=
  ws.map (fun r => toBf (dotF (pairG (aFmtLat d) (aFmtW d)) l r 0 0 (aDL d) 0))

/-- A key position ready for one head: its key row, its rotary row, its value codes in BF16. -/
structure HeadKey where
  pos : Nat
  key : Row
  rot : Row
  val : List Nat
  deriving DecidableEq, Repr

/-- Keys and values of a head from the latent rows (R174, R178). -/
def Wk.headKeys (w : Wk) (d h : Nat) (ks : List KeyRow) : List HeadKey × Wk :=
  if aAbs d then
    (ks.map (fun k => ⟨k.pos, k.lat, k.rot, (List.range (aDL d)).map (fun n => Fmt.bf16.encode (rnBf16 (k.lat.val Q.one n)))⟩), w)
  else
    let (wk, w) := w.proj d (aWuk d) (aDHN d) h
    let (wv, w) := w.proj d (aWuv d) (aDV d) h
    (ks.map (fun k => ⟨k.pos, bfRow (expandKey d k.lat wk), k.rot, expandKey d k.lat wv⟩), w)

/-- A query row: its elements, rotary part, and for the backward directions dO, LSE and D. -/
structure QueryRow where
  pos : Nat
  q : Row
  rot : Row
  dO : List Nat
  lse : Nat
  dd : Nat
  deriving DecidableEq, Repr

/-- Read query row `r` (R184). -/
def Wk.queryRow (w : Wk) (d : Nat) (s : ASlot) (b h r : Nat) : QueryRow × Wk :=
  let n := aQW d
  let k := (b * aHeads d + h) * aQRows d + r
  let (q, w) := w.readRow (aFmtQ d) (aQ d + b * aQBs d + h * aQHs d + r * aQRs d) (scaleAddr (aFmtQ d) (aQScale d) n false k) n false 0 n
  let (rt, w) := if aRope d then w.read (aQR d + 128 * k) 128 else ([], w)
  if aDir d = 0 then (⟨s.qpos + r, q, bfRow (unpackCodes 16 (aDR d) rt), [], 0, 0⟩, w)
  else
    let (o, w) := w.read (aDo d + 2 * aVW d * k) (2 * aVW d)
    let (l, w) := w.read (aLse d + 4 * k) 4
    let (x, w) := w.read (aD d + 4 * k) 4
    (⟨s.qpos + r, q, bfRow (unpackCodes 16 (aDR d) rt), unpackCodes 16 (aVW d) o, leNat l, leNat x⟩, w)

/-- The score of a query row against a key (R179). -/
def score (d : Nat) (q : QueryRow) (k : HeadKey) : XR :=
  let a := dotF (pairG (aFmtQ d) (if aAbs d then aFmtLat d else 1)) q.q k.key 0 0 (aQW d) 0
  let a := if aRope d then dotF 8 q.rot k.rot 0 0 64 a else a
  rn ((fp32 (aScale d)).mul (fp32 a))

/-- An accumulator over a reduction index of which only some positions take products: groups of 8 by index, BF16 × BF16
(R65, R180, R183). Items are (index, left code, right code), index increasing. -/
def sparseGo : List (Nat × Nat × Nat) → Nat → XR → Nat → Nat
  | [], _, sum, acc => addGroup acc (fp32Code (rn sum))
  | (i, a, b) :: rest, g, sum, acc =>
    let p := (Fmt.bf16.decode a).mul (Fmt.bf16.decode b)
    if i / 8 = g then sparseGo rest g (sum.add p) acc
    else sparseGo rest (i / 8) p (addGroup acc (fp32Code (rn sum)))

/-- The accumulator from +0. -/
def sparseDot (items : List (Nat × Nat × Nat)) : Nat :=
  match items with
  | [] => 0
  | (i, _, _) :: _ => sparseGo items (i / 8) (.zero false) 0

/-! ## Forward (R180, R181) -/

/-- The state of one row of the online softmax. -/
structure SoftRow where
  m : XR
  l : XR
  o : List XR
  bad : Bool
  deriving DecidableEq, Repr

/-- One key block of forward_row: its allowed keys (R180). -/
def softBlock (d : Nat) (q : QueryRow) (st : SoftRow) (ks : List HeadKey) : SoftRow :=
  let ss := ks.map (score d q)
  let mn : XR := st.m.max (ss.foldl (fun (a : XR) s => a.max s) (.inf true))
  let alpha := rn (xExp (st.m.sub mn))
  let ps := ss.map (fun s => rn (xExp (s.sub mn)))
  let t : XR := ps.foldl (fun (a : XR) p => rn (a.add p)) (XR.zero false)
  let pc := ps.map (fun p => Fmt.bf16.encode (rnBf16 p))
  let l := rn ((alpha.mul st.l).add t)
  let o := (List.range (aVW d)).map (fun n =>
    rn ((alpha.mul (st.o.getD n (.zero false))).add (fp32 (sparseDot ((ks.zip pc).map (fun (k, p) => (k.pos % 64, p, k.val.getD n 0)))))))
  ⟨mn, l, o, st.bad || ss.any (fun s => !s.isFinite)⟩

/-- Cut keys into key blocks of 64 positions, in increasing order (R177). -/
def keyBlocks (ks : List HeadKey) : List (List HeadKey) :=
  ((ks.map (fun k => k.pos / 64)).eraseDups).map (fun b => ks.filter (fun k => k.pos / 64 == b))

/-- forward_row of R180 over the keys the row may attend to. -/
def forwardRow (d : Nat) (q : QueryRow) (ks : List HeadKey) : SoftRow :=
  (keyBlocks ks).foldl (fun st b => softBlock d q st b) ⟨.inf true, .zero false, List.replicate (aVW d) (.zero false), false⟩

/-- Address of output row (b, h, r). -/
def aRow (d base b h r : Nat) : Nat := base + b * aOutBs d + h * aOutHs d + r * aOutRs d
/-- Linear index of output element (b, h, r, 0). -/
def aLin (d b h r : Nat) : Nat := aIdx d + b * aIdxB d + h * aIdxH d + r * aIdxR d

/-- Store an output row. -/
def Wk.attnStore (w : Wk) (d base sym seed step b h r : Nat) (ys : List XR) : Wk :=
  w.storeRow (aFmtOut d) (aRow d base b h r) 0 ys.length false ⟨aGrad d, seed, step, sym⟩ (aLin d b h r) 0 ys

/-- FORWARD of one query row (R180, R181): a padding row, a row with nothing to attend, a non-finite row, or a value. -/
def Wk.forwardOut (w : Wk) (d seed step : Nat) (s : ASlot) (b h r : Nat) (hk : List HeadKey) : Wk :=
  let lseAt := aLse d + 4 * ((b * aHeads d + h) * aQRows d + r)
  let put (w : Wk) (ys : List XR) (lse : Nat) : Wk := (w.attnStore d (aOut d) (aSym d) seed step b h r ys).write lseAt (leBytes 4 lse)
  let zeros := List.replicate (aVW d) (XR.zero false)
  if s.qValid ≤ r then put w zeros 0xFF800000
  else
    let (q, w) := w.queryRow d s b h r
    let ks := hk.filter (fun k => allowed d s q.pos k.pos)
    let st := forwardRow d q ks
    if st.bad then put (w.count 0x15 1) (List.replicate (aVW d) .nan) nan32
    else if ks = [] then put (w.count 0x16 1) zeros 0xFF800000
    else put w (st.o.map (fun o => o.div st.l)) (fp32Code (rn (st.m.add (xLn st.l))))

/-! ## Backward (R182, R183) -/

/-- P̃ and dS̃ of an allowed pair, as BF16 codes (R182); none where the row's LSE is negative infinity. -/
def backTerms (d : Nat) (q : QueryRow) (k : HeadKey) : Option (Nat × Nat) :=
  if q.lse = 0xFF800000 then none
  else
    let p := rn (xExp ((score d q k).sub (fp32 q.lse)))
    let dp := dotF 8 (bfRow q.dO) (bfRow k.val) 0 0 (aVW d) 0
    let ds := rn (p.mul ((fp32 dp).sub (fp32 q.dd)))
    some (Fmt.bf16.encode (rnBf16 p), Fmt.bf16.encode (rnBf16 ds))

/-- Outputs of `n` elements: accumulators over the items, times a factor exactly. -/
def backRow (n : Nat) (f : XR) (items : List (Nat × Nat × List Nat)) : List XR :=
  (List.range n).map (fun e => (fp32 (sparseDot (items.map (fun (i, a, l) => (i, a, l.getD e 0))))).mul f)

/-- BACKWARD_Q of one query row. -/
def Wk.backwardQ (w : Wk) (d seed step : Nat) (s : ASlot) (b h r : Nat) (hk : List HeadKey) : Wk :=
  let n := aQW d + aDR d
  let (items, w) :=
    if s.qValid ≤ r then ([], w)
    else
      let (q, w) := w.queryRow d s b h r
      ((hk.filter (fun k => allowed d s q.pos k.pos)).filterMap (fun k =>
        (backTerms d q k).map (fun (_, ds) => (k.pos, ds, k.key.codes ++ k.rot.codes))), w)
  w.attnStore d (aOut d) (aSym d) seed step b h r (backRow n (fp32 (aScale d)) items)

/-- BACKWARD_KV of one key row: dK and dV. -/
def Wk.backwardKV (w : Wk) (d seed step : Nat) (s : ASlot) (b h r : Nat) (hk : List HeadKey) : Wk :=
  let j := s.kpos + r
  let (terms, w) : List (Nat × QueryRow × Nat × Nat) × Wk :=
    match (if r < s.kValid then hk.find? (fun k => k.pos == j) else none) with
    | none => ([], w)
    | some k =>
      let (qs, w) := (List.range s.qValid).foldr (fun x (acc, w) =>
        if allowed d s (s.qpos + x) j then
          let (q, w) := Wk.queryRow w d s b h x
          ((x, q) :: acc, w)
        else (acc, w)) (([] : List (Nat × QueryRow)), w)
      (qs.filterMap (fun (x, q) => (backTerms d q k).map (fun (p, ds) => (x, (q, (p, ds))))), w)
  let w := w.attnStore d (aOut d) (aSym d) seed step b h r
    (backRow (aQW d + aDR d) (fp32 (aScale d)) (terms.map (fun (x, q, _, ds) => (x, ds, q.q.codes ++ q.rot.codes))))
  w.attnStore d (aOut2 d) (aSym2 d) seed step b h r
    (backRow (aVW d) (XR.ofInt 1) (terms.map (fun (x, q, p, _) => (x, p, q.dO))))

/-! ## Units (R188) -/

/-- Rows of the tiles of a unit: query rows, or key rows of BACKWARD_KV. -/
def aRows (d : Nat) : Nat := if aDir d = 2 then aKRows d else aQRows d
/-- Rows of a unit: QP tiles of 64, at least one, or one key tile (R188). -/
def aUnitRows (d : Nat) : Nat := if aDir d = 2 then 64 else 64 * max 1 (16 / (1 + 2 * (aVW d / 64)))
/-- Units along the rows. -/
def aPanels (d : Nat) : Nat := ceilDiv (aRows d) (aUnitRows d)
/-- Units of a descriptor, in order of batch, panel, head (R188). -/
def aUnits (d : Nat) : Nat := aBatch d * aPanels d * aHeads d

/-- Batch index of a unit. -/
def unitBatch (d u : Nat) : Nat := u / max 1 (aHeads d) / max 1 (aPanels d)
/-- Rows of a unit. -/
def unitRows (d u : Nat) : List Nat :=
  ((List.range (aUnitRows d)).map (· + u / max 1 (aHeads d) % max 1 (aPanels d) * aUnitRows d)).filter (· < aRows d)

/-- Key positions that a unit needs (R176, R187). -/
def unitKeys (d : Nat) (s : ASlot) (u : Nat) : List Nat :=
  let rows := unitRows d u
  (neededKeys d s).filter (fun j =>
    if aDir d = 2 then rows.any (fun r => s.kpos + r == j)
    else rows.any (fun r => r < s.qValid && allowed d s (s.qpos + r) j))

/-- Key positions that a unit reads: under EXPAND the whole key blocks of those it needs, but for positions that do not exist or
that a ring cannot reach, which expand as +0 (R177, R178, R191). -/
def unitReads (m : Tab Byte) (d : Nat) (s : ASlot) (u : Nat) : List Nat :=
  let need := unitKeys d s u
  if aAbs d then need
  else (((need.map (· / 64)).eraseDups).flatMap (fun b => (List.range 64).map (· + 64 * b))).filter (fun j =>
    need.contains j || (j < s.kvLen && (keyPlace m d s j).1 == 2))

/-- One unit (R188). -/
def Wk.attnUnit (w : Wk) (d seed step u : Nat) : Wk :=
  let h := u % max 1 (aHeads d)
  let b := unitBatch d u
  let (s, w) := w.slot d b
  let need := unitKeys d s u
  let (ks, w) := (unitReads w.mem d s u).foldr (fun j (acc, w) => let (k, w) := Wk.keyRow w d s j; (k :: acc, w)) (([] : List KeyRow), w)
  let (hk, w) := w.headKeys d h (ks.filter (fun k => need.contains k.pos))
  (unitRows d u).foldl (fun w r =>
    match aDir d with
    | 0 => Wk.forwardOut w d seed step s b h r hk
    | 1 => Wk.backwardQ w d seed step s b h r hk
    | _ => Wk.backwardKV w d seed step s b h r hk) w

/-- The units from `u0` to `u1` with their slot records and the positions they need. -/
def Wk.unitNeeds (w : Wk) (d u0 u1 : Nat) : List (Nat × ASlot × List Nat) :=
  ((List.range (u1 - u0)).map (· + u0)).map (fun u =>
    let s := (w.slot d (unitBatch d u)).1
    (unitBatch d u, s, unitKeys d s u))

/-- The first unit that needs a page with a fault: its batch index and the page (R187). -/
def Wk.unitsFault (w : Wk) (d u0 u1 : Nat) : Option (Nat × Nat) :=
  (w.unitNeeds d u0 u1).findSome? (fun x => (pageFault w.mem d x.2.1 x.2.2).map (fun e => (x.1, e)))

/-- Some unit is held by a page that is still PENDING (R189). -/
def Wk.unitsWait (w : Wk) (d u0 u1 : Nat) : Bool := (w.unitNeeds d u0 u1).any (fun x => pageWaits w.mem d x.2.1 x.2.2)

/-- The first page entry with a parity error that some unit reads (R143). -/
def Wk.unitsBad (w : Wk) (d u0 u1 : Nat) : Option Nat :=
  (w.unitNeeds d u0 u1).findSome? (fun x => x.2.2.findSome? (fun j =>
    if aRing d != 0 && x.2.1.gpos.contains j then none
    else firstBad w.poison (x.2.1.pt + 8 * (if aRing d = 0 then j / 256 else j / 256 % aRing d)) 8))

/-- Units `u0` to `u1`. -/
def Wk.attnUnits (w : Wk) (d seed step u0 u1 : Nat) : Wk :=
  ((List.range (u1 - u0)).map (· + u0)).foldl (fun w u => Wk.attnUnit w d seed step u) w

end Sys2Proof.Machine
end

