-- ==== Sys2Proof/Machine/MatOps.lean ====
section
/-! DEFINITION. MATMUL, CONV and COMBINE: the descriptor's fields, the walk over output tiles, accumulators, the epilogue,
convolution taps, Winograd and pooling (spec files 03, 04 and 06). A descriptor is one number whose bit 0 is its bit 0. -/

namespace Sys2Proof.Machine

/-! ## Fields of R70, R158, R159 -/

def mFmtA (d : Nat) : Nat := bits d 128 16
def mFmtB (d : Nat) : Nat := bits d 144 16
def mFmtCin (d : Nat) : Nat := bits d 160 16
def mFmtOut (d : Nat) : Nat := bits d 176 16
def mM (d : Nat) : Nat := bits d 192 24
def mN (d : Nat) : Nat := bits d 216 24
def mBatch (d : Nat) : Nat := bits d 240 16
def mK (d : Nat) : Nat := bits d 256 32
def mOutputInner (d : Nat) : Bool := bit d 288
def mKchunk (d : Nat) : Nat := 64 * 2 ^ bits d 289 2
def mPanel (d : Nat) : Nat := bits d 291 8
def mAccMode (d : Nat) : Nat := bits d 299 2
def mAccBase (d : Nat) : Nat := bits d 301 4
def mAccCount (d : Nat) : Nat := bits d 305 5
def mKeep (d : Nat) : Bool := bit d 310
def mOutGrad (d : Nat) : Bool := bit d 311
def mSplit (d : Nat) : Nat := bits d 320 8
def mSplitIdx (d : Nat) : Nat := bits d 328 8
def mAct (d : Nat) : Nat := bits d 336 4
def mLeaky (d : Nat) : Nat := bits d 340 5
def mBiasMode (d : Nat) : Nat := bits d 345 2
def mBiasBf16 (d : Nat) : Bool := bit d 347
def mAComp (d : Nat) : Bool := bit d 348
def mBComp (d : Nat) : Bool := bit d 349
def mCinComp (d : Nat) : Bool := bit d 350
def mOutCompBit (d : Nat) : Bool := bit d 351
def mAlpha (d : Nat) : Nat := bits d 352 32
def mABase (d : Nat) : Nat := bits d 384 48
def mBBase (d : Nat) : Nat := bits d 448 48
def mCinBase (d : Nat) : Nat := bits d 512 48
def mOutBase (d : Nat) : Nat := bits d 576 48
def mAScale (d : Nat) : Nat := bits d 640 48
def mBScale (d : Nat) : Nat := bits d 704 48
def mOutScale (d : Nat) : Nat := bits d 768 48
def mBiasBase (d : Nat) : Nat := bits d 832 48
def mARs (d : Nat) : Nat := bits d 896 32
def mBRs (d : Nat) : Nat := bits d 928 32
def mOutRs (d : Nat) : Nat := bits d 960 32
def mCinRs (d : Nat) : Nat := bits d 992 32
def mABs (d : Nat) : Nat := bits d 1024 40
def mBBs (d : Nat) : Nat := bits d 1064 40
def mOutBs (d : Nat) : Nat := bits d 1104 40
def mCinBs (d : Nat) : Nat := bits d 1144 40
def mTA (d : Nat) : Q := tscaleOf (mFmtA d) (bits d 1184 32)
def mTB (d : Nat) : Q := tscaleOf (mFmtB d) (bits d 1216 32)
def mTOut (d : Nat) : Q := tscaleOf (mFmtOut d) (bits d 1248 32)
def mClampLo (d : Nat) : Nat := bits d 1280 32
def mClampHi (d : Nat) : Nat := bits d 1312 32
def mOutSym (d : Nat) : Nat := bits d 1344 32
def mIdxBase (d : Nat) : Nat := bits d 1376 48
def mIdxM (d : Nat) : Nat := bits d 1424 40
def mIdxB (d : Nat) : Nat := bits d 1464 40
def mPart (d : Nat) : Nat := bits d 1504 32

def cInH (d : Nat) : Nat := bits d 1536 16
def cInW (d : Nat) : Nat := bits d 1552 16
def cCin (d : Nat) : Nat := bits d 1568 16
def cKH (d : Nat) : Nat := bits d 1584 8
def cKW (d : Nat) : Nat := bits d 1592 8
def cSY (d : Nat) : Nat := bits d 1600 8
def cSX (d : Nat) : Nat := bits d 1608 8
def cDY (d : Nat) : Nat := bits d 1616 8
def cDX (d : Nat) : Nat := bits d 1624 8
def cPadT (d : Nat) : Nat := bits d 1632 16
def cPadL (d : Nat) : Nat := bits d 1648 16
def cOH (d : Nat) : Nat := bits d 1664 16
def cOW (d : Nat) : Nat := bits d 1680 16
def cKind (d : Nat) : Nat := bits d 1696 2
def cConst (d : Nat) : Bool := bits d 1698 2 == 1
def cWino (d : Nat) : Nat := bits d 1700 2
def cAvgDiv (d : Nat) : Bool := bit d 1702
def cPadVal (d : Nat) : Nat := bits d 1728 32
def cInXs (d : Nat) : Nat := bits d 1760 32
def cOutXs (d : Nat) : Nat := bits d 1792 32
def cIdxX (d : Nat) : Nat := bits d 1824 40
def cWs (d : Nat) : Nat := bits d 1864 48
/-- C_IN rounded up to a multiple of 16 (R156). -/
def cCP (d : Nat) : Nat := roundUp (cCin d) 16

/-- OPCODE of a descriptor (R94). -/
def dOp (d : Nat) : Nat := bits d 0 8
/-- DESC_ID of a descriptor (R94). -/
def dId (d : Nat) : Nat := bits d 64 32
/-- The descriptor is a CONV. -/
def isConv (d : Nat) : Bool := dOp d == 3
/-- The descriptor is a CONV in a Winograd mode. -/
def isWino (d : Nat) : Bool := isConv d && cWino d != 0
/-- The descriptor is a pool. -/
def isPool (d : Nat) : Bool := isConv d && (cKind d == 1 || cKind d == 2)
/-- The descriptor is a COMBINE. -/
def isComb (d : Nat) : Bool := dOp d == 5
/-- The pair is INT8 with INT8. -/
def isInt (d : Nat) : Bool := !isPool d && fwFmt (mFmtA d) == .int8
/-- The descriptor runs an epilogue (R81, R83). -/
def mEpi (d : Nat) : Bool := isComb d || isPool d || (!mKeep d && mSplit d == 1)
/-- OUT_COMP in force (R210). -/
def mOutComp (d : Nat) : Bool := mOutCompBit d && mEpi d
/-- ACC_MODE in force: a COMBINE ignores the field (R117). -/
def mMode (d : Nat) : Nat := if isComb d then 0 else mAccMode d
/-- Group size of the pair. -/
def mG (d : Nat) : Nat := (groupSize (fwFmt (mFmtA d)) (fwFmt (mFmtB d))).getD 16
/-- An output block spans two tiles (R74). -/
def mPair (d : Nat) : Bool := mEpi d && fwBlk (mFmtOut d) == 128

/-! ## The walk (R72 to R75, R167) -/

/-- Output tile size of a Winograd mode. -/
def winoM (d : Nat) : Nat := if cWino d = 1 then 2 else 4
/-- Tile size a of a Winograd mode (R165). -/
def winoA (d : Nat) : Nat := winoM d + 2
/-- Winograd tiles of an image (R167). -/
def winoTiles (d : Nat) : Nat := ceilDiv (cOH d) (winoM d) * ceilDiv (cOW d) (winoM d)

/-- Tiles, or blocks of Winograd tiles, along the rows. -/
def mTm (d : Nat) : Nat := if isWino d then ceilDiv (winoTiles d) 64 else ceilDiv (mM d) 64
/-- Tiles along the columns. -/
def mTn (d : Nat) : Nat := ceilDiv (mN d) 64

/-- Panel capacity of R73. -/
def panelCap (d : Nat) : Nat := if mPair d then max 1 (mAccCount d / 2) else max 1 (mAccCount d)

/-- The walk is output_inner. -/
def mInner (d : Nat) : Bool := mOutputInner d && !isComb d && !isWino d

/-- Position of row tile `tm` within its panel, narrowed where it does not fit (R73). -/
def panelPos (d tm : Nat) : Nat := tm % max 1 (mPanel d) % panelCap d

/-- Row tile `tm` ends its panel. -/
def panelEnd (d tm : Nat) : Bool := tm + 1 == mTm d || panelPos d (tm + 1) == 0

/-- Panels that do not fit (R73). -/
def panelSplits (d : Nat) : Nat :=
  if mInner d then
    let p := max 1 (mPanel d)
    let big := ((List.range (ceilDiv (mTm d) p)).filter (fun v => panelCap d < min p (mTm d - v * p))).length
    big * (if mPair d then ceilDiv (mTn d) 2 else mTn d) * mBatch d
  else 0

/-- A strip of output tiles that the epilogue converts together: batch, row tile, first and one past the last column tile,
and the walk's number of its first tile. -/
structure Strip where
  b : Nat
  tm : Nat
  c0 : Nat
  c1 : Nat
  q : Nat
  deriving DecidableEq, Repr

/-- Column runs of a strip: single tiles, pairs (R74), or, for a compressed output, runs after which every line begun is full:
an element line is 256 bytes, and a scale line 256 blocks (R211). -/
def colRuns (d : Nat) : List (Nat × Nat) :=
  let n := mTn d
  let step :=
    if mOutComp d then
      if fwBlk (mFmtOut d) = 0 then max 1 (256 / (8 * (fwFmt (mFmtOut d)).width)) else 4 * fwBlk (mFmtOut d)
    else if mPair d then 2 else 1
  (List.range (ceilDiv n step)).map (fun u => (u * step, min n ((u + 1) * step)))

/-- The strips of an operation in walk order (R72, R167). -/
def strips (d : Nat) : List Strip :=
  let tms := List.range (mTm d)
  let order :=
    if mInner d then
      (List.range (mBatch d)).flatMap (fun b => (colRuns d).flatMap (fun u => tms.map (fun tm => (b, tm, u))))
    else
      (List.range (mBatch d)).flatMap (fun b => tms.flatMap (fun tm => (colRuns d).map (fun u => (b, tm, u))))
  (order.foldl (fun (acc : List Strip × Nat) x =>
    (⟨x.1, x.2.1, x.2.2.1, x.2.2.2, acc.2⟩ :: acc.1, acc.2 + (x.2.2.2 - x.2.2.1))) ([], 0)).1.reverse

/-- Output tiles of an operation. -/
def tileCount (d : Nat) : Nat := mBatch d * mTm d * mTn d

/-- The accumulator tile of output tile number `q`, at (tm, tn) (R75). -/
def accTile (d q tm tn : Nat) : Nat :=
  if mMode d = 1 || (mKeep d && !isComb d && !isPool d) then mAccBase d + tm * mTn d + tn
  else if mInner d then mAccBase d + (if mPair d then 2 * panelPos d tm + tn % 2 else panelPos d tm)
  else mAccBase d + q % max 1 (mAccCount d)

/-- Tile counts at which the operation may stop (R88, R211). R167 makes each finished block a stop point, and its output
transform runs per block and tile column: DESIGN CHOICE, a Winograd operation may stop after each tile column of a block
(log entry 36). -/
def stopAtOk (d tiles : Nat) : Bool :=
  0 < tiles && tiles < tileCount d && mMode d != 1 && (mEpi d) &&
    (strips d).any (fun s => s.q + (s.c1 - s.c0) == tiles && (!mInner d || panelEnd d s.tm))

/-! ## Split-K (R80, R81) -/

/-- First and one past the last reduction index of this descriptor. -/
def mRange (d : Nat) : Nat × Nat :=
  if mSplit d ≤ 1 then (0, mK d)
  else
    let ks := 128 * ceilDiv (mK d) (128 * mSplit d)
    (min (mSplitIdx d * ks) (mK d), min ((mSplitIdx d + 1) * ks) (mK d))

/-- Size of an INT8 poison mask (R119). -/
def maskSize (d : Nat) : Nat := 64 * ceilDiv (mBatch d * (ceilDiv (mM d) 8 + ceilDiv (mN d) 8)) 64

/-! ## Where rows lie -/

/-- Address of output row `i` of batch `b` (R58, R158). -/
def outRow (d b i : Nat) : Nat :=
  if isConv d then mOutBase d + b * mOutBs d + i / max 1 (cOW d) * mOutRs d + i % max 1 (cOW d) * cOutXs d
  else mOutBase d + b * mOutBs d + i * mOutRs d

/-- Address of row `i` of a partial at `base` (R81, R158). -/
def partRow (d base b i : Nat) : Nat := base + b * mOutBs d + i * (if isConv d then cOutXs d else mOutRs d)

/-- Address of start-value row `i` of batch `b` (R76, R158). -/
def cinRow (d b i : Nat) : Nat :=
  if isConv d then mCinBase d + b * mCinBs d + i / max 1 (cOW d) * mCinRs d + i % max 1 (cOW d) * cOutXs d
  else mCinBase d + b * mCinBs d + i * mCinRs d

/-- The start values are the output (R79); the fields of the output are read only where there is an epilogue, and bits 15 to
11 of a format word are RESERVED (R14, R558). -/
def cinIsOut (d : Nat) : Bool :=
  mEpi d && mCinBase d == mOutBase d && mCinRs d == mOutRs d && mCinBs d == mOutBs d && mFmtCin d % 2 ^ 11 == mFmtOut d % 2 ^ 11

/-- Scale array of the start values (R76). -/
def cinScale (d : Nat) : Nat :=
  if cinIsOut d then mOutScale d
  else roundUp (cinRow d (mBatch d - 1) (mM d - 1) + rowBytes (mFmtCin d) (mN d) (mCinComp d)) 64

/-- Linear index of output element (b, i, 0) (R85, R158). -/
def outIdx (d b i : Nat) : Nat :=
  if isConv d then mIdxBase d + b * mIdxB d + i / max 1 (cOW d) * mIdxM d + i % max 1 (cOW d) * cIdxX d
  else mIdxBase d + b * mIdxB d + i * mIdxM d

/-! ## Operand rows -/

/-- A piece of the left operand's row: a run of products, or a pad term of a tap. -/
structure Seg where
  tap : Nat
  row : Option Row
  ka : Nat
  kb : Nat
  n : Nat
  deriving DecidableEq, Repr

/-- Taps of this descriptor: those whose first reduction index lies in its range (R161). -/
def convTaps (d : Nat) : List Nat :=
  (List.range (cKH d * cKW d)).filter (fun t => (mRange d).1 ≤ t * cCP d && t * cCP d < (mRange d).2)

/-- Input position of tap `t` for output pixel `i`: none in padding (R161). -/
def tapPos (d i t : Nat) : Option (Nat × Nat) :=
  let iy : Int := ((i / max 1 (cOW d) * cSY d + t / max 1 (cKW d) * cDY d : Nat) : Int) - (cPadT d : Int)
  let ix : Int := ((i % max 1 (cOW d) * cSX d + t % max 1 (cKW d) * cDX d : Nat) : Int) - (cPadL d : Int)
  if 0 ≤ iy ∧ iy < (cInH d : Int) ∧ 0 ≤ ix ∧ ix < (cInW d : Int) then some (iy.toNat, ix.toNat) else none

/-- Channels of input pixel (y, x) of image `b` (R157). -/
def Wk.pixel (w : Wk) (d b y x : Nat) : Row × Wk :=
  w.readRow (mFmtA d) (mABase d + b * mABs d + y * mARs d + x * cInXs d)
    (scaleAddr (mFmtA d) (mAScale d) (cCin d) (mAComp d) ((if mABs d = 0 then 0 else b) * (cInH d * cInW d) + y * cInW d + x))
    (cCin d) (mAComp d) 0 (cCin d)

/-- Run a reading over a list. -/
def Wk.mapM {α β : Type} (w : Wk) (f : Wk → α → β × Wk) : List α → List β × Wk
  | [] => ([], w)
  | x :: xs =>
    let (y, w1) := f w x
    let (ys, w2) := w1.mapM f xs
    (y :: ys, w2)

/-- The left operand's row `i`: its pieces in order. -/
def Wk.leftRow (w : Wk) (d b i : Nat) : List Seg × Wk :=
  if isConv d then
    w.mapM (fun w t => match tapPos d i t with
      | some (y, x) =>
        let (r, w) := w.pixel d b y x
        (⟨t, some r, 0, t * cCP d, cCin d⟩, w)
      | none => (⟨t, none, 0, 0, 0⟩, w)) (convTaps d)
  else
    let (k0, k1) := mRange d
    let (r, w) := w.readRow (mFmtA d) (mABase d + b * mABs d + i * mARs d)
      (scaleAddr (mFmtA d) (mAScale d) (mK d) (mAComp d) ((if mABs d = 0 then 0 else b) * mM d + i)) (mK d) (mAComp d) k0 (k1 - k0)
    ([⟨0, some r, k0, k0, k1 - k0⟩], w)

/-- Elements of a row of B as it is stored: K, or a² segments of CP (R58, R166). -/
def bLen (d : Nat) : Nat := if isWino d then winoA d * winoA d * cCP d else mK d

/-- The elements of a row of B that a convolution reads: the C_IN channels of its taps, or of every Winograd position; the rest
of a tap is never read (R157, R166). -/
def bRuns (d : Nat) : List (Nat × Nat) :=
  (if isWino d then List.range (winoA d * winoA d) else convTaps d).map (fun t => (t * cCP d, cCin d))

/-- The right operand's row `j`. -/
def Wk.rightRow (w : Wk) (d b j : Nat) : Row × Wk :=
  let a := mBBase d + b * mBBs d + j * mBRs d
  let sa := scaleAddr (mFmtB d) (mBScale d) (bLen d) (mBComp d) ((if mBBs d = 0 then 0 else b) * mN d + j)
  if isConv d then w.readElems (mFmtB d) a sa (bLen d) (mBComp d) (bRuns d)
  else
    let (k0, k1) := mRange d
    w.readRow (mFmtB d) a sa (bLen d) (mBComp d) k0 (k1 - k0)

/-- Reference scale byte of row `i` of an INT8 A whose pieces are read (R69): the scale of element 0 of the whole row, read apart
where the range starts later. For an output pixel whose tap 0 lies in padding the spec names none, and the byte is free (log
entry 8). -/
def Wk.refA (w : Wk) (d b i : Nat) (segs : List Seg) : Nat × Wk :=
  let f := mFmtA d
  let rd (a n : Nat) : Nat × Wk :=
    if (mRange d).1 = 0 then ((match segs with | ⟨_, some r, k, _, _⟩ :: _ => r.scaleAt k | _ => 0), w)
    else
      let (bs, w) := w.readPart a (ceilDiv n (max 1 (fwBlk f))) (mAComp d) 0 1
      ((bs.getD 0 0).toNat, w)
  if isConv d then
    match tapPos d i 0 with
    | some (y, x) =>
      rd (scaleAddr f (mAScale d) (cCin d) (mAComp d) ((if mABs d = 0 then 0 else b) * (cInH d * cInW d) + y * cInW d + x)) (cCin d)
    | none => (Config.padScale (segs.flatMap (fun s => match s.row with | some r => r.scales | none => [])) % 256, w)
  else rd (scaleAddr f (mAScale d) (mK d) (mAComp d) ((if mABs d = 0 then 0 else b) * mM d + i)) (mK d)

/-- Reference scale byte of row `j` of an INT8 B, whose read part is `r` (R69). -/
def Wk.refB (w : Wk) (d b j : Nat) (r : Row) : Nat × Wk :=
  if (mRange d).1 = 0 then (r.scaleAt 0, w)
  else
    let (bs, w) := w.readPart (scaleAddr (mFmtB d) (mBScale d) (mK d) (mBComp d) ((if mBBs d = 0 then 0 else b) * mN d + j))
      (ceilDiv (mK d) (max 1 (fwBlk (mFmtB d)))) (mBComp d) 0 1
    ((bs.getD 0 0).toNat, w)

/-- The pad term P[t][j] of a weight row (R162). -/
def padTerm (d : Nat) (b : Row) (t : Nat) : Nat :=
  let ks := (List.range (cCin d)).map (· + t * cCP d)
  if ks.any (fun k => b.scaleAt k == 255) then nan32
  else
    let w : XR := ks.foldl (fun (s : XR) k => s.add (b.val Q.one k)) (XR.zero false)
    fp32Code (rn (((fp32 (cPadVal d)).div (XR.ofQ (mTA d))).mul w))

/-! ## Accumulators (R67, R69, R76, R77) -/

/-- Address of row `r` of accumulator tile `t` of engine `g` (R62). -/
def accRow (g t r : Nat) : Nat := accWin g + t * 0x4000 + r * 0x100

/-- 32-bit values of `n` words at an address. -/
def Wk.words (w : Wk) (a n : Nat) : List Nat × Wk :=
  let (bs, w) := w.read a (4 * n)
  (unpackCodes 32 n bs, w)

/-- The reduction of one element over the pieces of its row: its value and its saturated adds. -/
def reduceElem (d : Nat) (segs : List Seg) (b : Row) (start : Nat) : Nat × Nat :=
  segs.foldl (fun (acc, sat) s =>
    match s.row with
    | some a =>
      if isInt d then
        let (v, o) := dotI a b s.ka s.kb s.n acc
        (v, sat + o)
      else (dotF (mG d) a b s.ka s.kb s.n acc, sat)
    | none => if cConst d then (addGroup acc (padTerm d b s.tap), sat) else (acc, sat)) (start, 0)

/-- Start values of the columns of one row of a tile (R76). -/
def Wk.startRow (w : Wk) (d g at_ b i r j0 m : Nat) : List Nat × Wk :=
  if mMode d = 1 then w.words (accRow g at_ r) m
  else if mMode d = 2 then
    let f := mFmtCin d
    let (x, w) := w.readRow f (cinRow d b i) (scaleAddr f (cinScale d) (mN d) (mCinComp d) ((if mCinBs d = 0 then 0 else b) * mM d + i))
      (mN d) (mCinComp d) j0 m
    let t := tscaleOf f (bits d 1248 32)
    ((List.range m).map (fun j => fp32Code (rn (x.val t (j0 + j)))), w)
  else (List.replicate m 0, w)

/-- One output tile as the array leaves it: for each valid row its number, its accumulators and its value y0 or, for a
Winograd block and a pool, that value alone. -/
structure TileRow where
  i : Nat
  acc : List Nat
  y0 : List XR
  deriving DecidableEq, Repr

/-- Store a tile's rows of words, with the rest of the tile +0 unless ADD_ACC keeps it (R77); ZERO and ADD_MEM clear the tile's
poison bits, ADD_ACC keeps them (R69). -/
def Wk.storeAcc (w : Wk) (d g at_ : Nat) (rows : List (List Nat)) : Wk :=
  let full := mMode d != 1
  let n := if full then 64 else rows.length
  let w := if full then { w with pz := Tab.set 0 w.pz (16 * (g % 4) + at_) 0 } else w
  (List.range n).foldl (fun w r =>
    let cs := rows.getD r []
    w.write (accRow g at_ r) (packCodes 32 (if full then cs ++ List.replicate (64 - cs.length) 0 else cs))) w

/-- Dequantise one accumulator of a floating-point pair (R83). -/
def dequantF (d acc : Nat) : XR := rn (((fp32 acc).mul (XR.ofQ (mTA d))).mul (XR.ofQ (mTB d)))

/-- Dequantise one accumulator of an INT8 pair (R83). -/
def dequantI (d acc xa xb : Nat) (bad : Bool) : XR :=
  if bad then .nan
  else rn ((((XR.ofInt (sbits acc 0 32)).scale2 ((xa : Int) + (xb : Int) - 266)).mul (XR.ofQ (mTA d))).mul (XR.ofQ (mTB d)))

/-- A chunk's end at element `e` cuts a line of `per` elements that the rising runs read on both sides of it (R213). -/
def cutsLine (per e : Nat) (runs : List (Nat × Nat)) : Bool :=
  let before := runs.filterMap (fun x => if 0 < x.2 && x.1 < e then some (min (x.1 + x.2) e - 1) else none)
  let after := runs.filterMap (fun x => if 0 < x.2 && e < x.1 + x.2 then some (max x.1 e) else none)
  before.any (fun p => after.any (fun q => p / per == q / per))

/-- Lines of an array row, elements and scales, that chunk ends at `ends` cut (R213). -/
def cutLines (fw : Nat) (ends : List Nat) (runs : List (Nat × Nat)) : Nat :=
  (ends.map (fun e => b2n (cutsLine (2048 / (fwFmt fw).width) e runs) + b2n (fwBlk fw != 0 && cutsLine (256 * fwBlk fw) e runs))).sum

/-- Elements at which chunks of KCHUNK steps end within the range of this descriptor (R72). -/
def chunkEnds (d : Nat) : List Nat :=
  let (k0, k1) := mRange d
  (List.range ((k1 - k0) / mKchunk d)).filterMap (fun c => let e := k0 + (c + 1) * mKchunk d; if e < k1 then some e else none)

/-- COMP_REREAD of a tile: lines that a chunk's end cuts, for the rows of A and, once per panel, for the rows of B (R213). -/
def rereads (d tm tn : Nat) : Nat :=
  if mInner d && !isPool d then
    let rows := min 64 (mM d - 64 * tm)
    let cols := min 64 (mN d - 64 * tn)
    let whole := [((mRange d).1, (mRange d).2 - (mRange d).1)]
    let a :=
      if isConv d then
        ((List.range rows).map (fun r => ((convTaps d).map (fun t =>
          if (tapPos d (64 * tm + r) t).isSome then
            cutLines (mFmtA d) ((chunkEnds d).filterMap (fun e => if t * cCP d < e then some (e - t * cCP d) else none)) [(0, cCin d)]
          else 0)).sum)).sum
      else rows * cutLines (mFmtA d) (chunkEnds d) whole
    (if mAComp d then a else 0)
      + (if mBComp d && panelPos d tm == 0 then cols * cutLines (mFmtB d) (chunkEnds d) (if isConv d then bRuns d else whole) else 0)
  else 0

/-- The rows of B that a tile takes. Under OUTPUT_INNER the port reads them once for a panel (R72): the panel's later tiles reuse
them, and what the read met is not met again. -/
def Wk.rightRows (w : Wk) (d b tm tn m : Nat) : List Row × Wk :=
  let (cols, x) := w.mapM (fun w j => w.rightRow d b (64 * tn + j)) (List.range m)
  (cols, if mInner d && panelPos d tm != 0 then w else x)

/-- A tile of a product: MATMUL or a direct convolution (R65 to R69, R76, R161). -/
def Wk.productTile (w : Wk) (d g b tm tn q : Nat) : List TileRow × Wk :=
  let at_ := accTile d q tm tn
  let rows := (List.range (min 64 (mM d - 64 * tm))).map (· + 64 * tm)
  let m := min 64 (mN d - 64 * tn)
  let (cols, w) := w.rightRows d b tm tn m
  let (lefts, w) := w.mapM (fun w i => w.leftRow d b i) rows
  let (starts, w) := w.mapM (fun w i => w.startRow d g at_ b i (i - 64 * tm) (64 * tn) m) rows
  let vals := (lefts.zip starts).map (fun (l, s) => (cols.zip s).map (fun (c, x) => reduceElem d l c x))
  let accs := vals.map (·.map (·.1))
  let sat := (vals.map (fun r => (r.map (·.2)).sum)).sum
  let w := (w.storeAcc d g at_ accs).count 0x05 sat
  let skips := if isConv d then ((convTaps d).filter (fun t => rows.all (fun i => (tapPos d i t).isNone))).length else 0
  let w := (w.count 0x07 skips).count 0x08 (rereads d tm tn)
  if isInt d then
    let (k0, k1) := mRange d
    let (refs, w) := w.mapM (fun w x => w.refA d b x.1 x.2) (rows.zip lefts)
    let (refb, w) := w.mapM (fun w x => w.refB d b (64 * tn + x.1) x.2) ((List.range m).zip cols)
    let misA := (lefts.zip refs).map (fun (l, x) => (l.map (fun s => match s.row with
      | some r => r.mismatch x s.ka s.n
      | none => 0)).sum)
    let misB := (cols.zip refb).map (fun (c, x) => if isConv d
      then ((convTaps d).map (fun t => c.mismatch x (t * cCP d) (cCin d))).sum else c.mismatch x k0 (k1 - k0))
    let w := w.count 0x06 (misA.sum + (if mInner d && panelPos d tm != 0 then 0 else misB.sum))
    let key := 16 * (g % 4) + at_
    let pa := misA.map (fun n => n != 0)
    let pb := misB.map (fun n => n != 0)
    let new := packBits ((pa.map (fun x => (1, b2n x))) ++ List.replicate (64 - pa.length) (1, 0) ++ pb.map (fun x => (1, b2n x)))
    let pz := Tab.get 0 w.pz key ||| new
    let w := { w with pz := Tab.set 0 w.pz key pz }
    (((rows.zip (accs.zip refs)).zipIdx).map (fun ((i, a, x), r) =>
      ⟨i, a, (a.zip refb).zipIdx.map (fun ((v, y), j) => dequantI d v x y (bit pz r || bit pz (64 + j)))⟩), w)
  else ((rows.zip accs).map (fun (i, a) => ⟨i, a, a.map (dequantF d)⟩), w)

/-- A tile of a COMBINE (R117 to R119). -/
def Wk.combineTile (w : Wk) (d g b tm tn q : Nat) : List TileRow × Wk :=
  let rows := (List.range (min 64 (mM d - 64 * tm))).map (· + 64 * tm)
  let m := min 64 (mN d - 64 * tn)
  let base (x : Nat) : Nat := mABase d + x * mPart d
  let (vals, w) := w.mapM (fun w i =>
    let (ps, w) := w.mapM (fun w x => w.words (base x + b * mABs d + i * mARs d + 256 * tn) m) (List.range (mSplit d))
    let one (j : Nat) : Nat × Nat :=
      (ps.drop 1).foldl (fun (acc, sat) p =>
        let v := p.getD j 0
        if isInt d then
          let (s, o) := satAdd32 (sbits acc 0 32) (sbits v 0 32)
          (ofInt 32 s, sat + b2n o)
        else (addGroup acc v, sat)) ((ps.getD 0 []).getD j 0, 0)
    ((List.range m).map one, w)) rows
  let accs := vals.map (·.map (·.1))
  let w := (w.storeAcc d g (accTile d q tm tn) accs).count 0x05 (vals.map (fun r => (r.map (·.2)).sum)).sum
  if isInt d then
    let rb := ceilDiv (mM d) 8
    let cb := ceilDiv (mN d) 8
    let maskAt (x : Nat) : Nat := base (x + 1) - maskSize d + b * (rb + cb)
    let (ms, w) := w.mapM (fun w x => let (bs, w) := w.read (maskAt x) (rb + cb); (leNat bs, w)) (List.range (mSplit d))
    let mask := ms.foldl (· ||| ·) 0
    let (xa, w) := w.read (mAScale d + b * mM d + 64 * tm) rows.length
    let (xb, w) := w.read (mBScale d + b * mN d + 64 * tn) m
    (((rows.zip (accs.zip xa))).map (fun (i, a, x) =>
      ⟨i, a, (a.zip xb).zipIdx.map (fun ((v, y), j) => dequantI d v x.toNat y.toNat (bit mask i || bit mask (8 * rb + 64 * tn + j)))⟩), w)
  else ((rows.zip accs).map (fun (i, a) => ⟨i, a, a.map (dequantF d)⟩), w)

/-! ## Winograd (R165 to R167) -/

/-- The matrix B transposed (R165). -/
def winoBt (d : Nat) : List (List Int) :=
  if cWino d = 1 then [[1, 0, -1, 0], [0, 1, 1, 0], [0, -1, 1, 0], [0, 1, 0, -1]]
  else [[4, 0, -5, 0, 1, 0], [0, -4, -4, 1, 1, 0], [0, 4, -4, -1, 1, 0], [0, -2, -1, 2, 1, 0], [0, 2, -1, -2, 1, 0], [0, 4, 0, -5, 0, 1]]

/-- The matrix A transposed (R165). -/
def winoAt (d : Nat) : List (List Int) :=
  if cWino d = 1 then [[1, 1, 1, 0], [0, 1, -1, -1]]
  else [[1, 1, 1, 1, 1, 0], [0, 1, -1, 2, -2, 0], [0, 1, 1, 4, 4, 0], [0, 1, -1, 8, -8, 1]]

/-- Σ of left coefficient × value × right coefficient over the pairs whose coefficients are not zero, as R167 writes the output
transform. R165 gives the input transform as a matrix product and does not say whether a NaN or an infinity at a zero coefficient
reaches it: DESIGN CHOICE, it does not (log entry 36). -/
def bilinear (l r : List Int) (v : Nat → Nat → XR) : XR :=
  l.zipIdx.foldl (fun (s : XR) (x, a) => r.zipIdx.foldl (fun (s : XR) (y, b) =>
    if x = 0 ∨ y = 0 then s else s.add ((v a b).mul (XR.ofInt (x * y)))) s) (XR.zero false)

/-- Input position of element `k` of Winograd tile `t`: none in padding (R165). -/
def winoPos (d t k : Nat) : Option (Nat × Nat) :=
  let cols := max 1 (ceilDiv (cOW d) (winoM d))
  let a := winoA d
  let iy : Int := ((winoM d * (t / cols) + k / a : Nat) : Int) - (cPadT d : Int)
  let ix : Int := ((winoM d * (t % cols) + k % a : Nat) : Int) - (cPadL d : Int)
  if 0 ≤ iy ∧ iy < (cInH d : Int) ∧ 0 ≤ ix ∧ ix < (cInW d : Int) then some (iy.toNat, ix.toNat) else none

/-- Input values of Winograd tile `t` of image `b`, channel by channel: value at (r, s) (R165). -/
def Wk.winoTile (w : Wk) (d b t : Nat) : List (Option Row) × Wk :=
  w.mapM (fun w k => match winoPos d t k with
    | some (y, x) =>
      let (r, w) := w.pixel d b y x
      (some r, w)
    | none => (none, w)) (List.range (winoA d * winoA d))

/-- The transformed row of position ξ of a Winograd tile, in FMT_A (R165). -/
def winoV (d : Nat) (px : List (Option Row)) (xi : Nat) : Row :=
  let a := winoA d
  let f := fwFmt (mFmtA d)
  let at_ (c r s : Nat) : XR := match px.getD (a * r + s) none with
    | some row => row.val Q.one c
    | none => if cConst d then fp32 (cPadVal d) else .zero false
  let bt := winoBt d
  ⟨f, 0, 0, (List.range (cCin d)).map (fun c =>
    f.encode (roundFmt f .rne (bilinear (bt.getD (xi / a) []) (bt.getD (xi % a) []) (at_ c)) 0)), []⟩

/-- One block and tile column in Winograd mode: every M tile goes through the accumulators into the workspace, and each
output pixel of the block takes its y0 (R167). The spec does not say which accumulator tiles they pass through: DESIGN CHOICE, tile
ξ of the q-th block and column passes through ACC_BASE + (q × a² + ξ) mod ACC_COUNT and stays there (log entry 36). -/
def Wk.winoBlock (w : Wk) (d g b blk tn q : Nat) : List TileRow × Wk :=
  let a := winoA d
  let ts := (List.range (min 64 (winoTiles d - 64 * blk))).map (· + 64 * blk)
  let m := min 64 (mN d - 64 * tn)
  let (cols, w) := w.mapM (fun w j => w.rightRow d b (64 * tn + j)) (List.range m)
  let (tiles, w) := w.mapM (fun w t => w.winoTile d b t) ts
  let mx (xi : Nat) : List (List Nat) := tiles.map (fun px =>
    let v := winoV d px xi
    cols.map (fun c => dotF (mG d) v c 0 (xi * cCP d) (cCin d) 0))
  let ms := (List.range (a * a)).map mx
  let w := ms.zipIdx.foldl (fun w (rows, xi) =>
    let w := w.storeAcc d g (mAccBase d + (q * a * a + xi) % max 1 (mAccCount d)) rows
    (List.range 64).foldl (fun w r =>
      let cs := rows.getD r []
      w.write (cWs d + xi * 0x4000 + r * 0x100) (packCodes 32 (cs ++ List.replicate (64 - cs.length) 0))) w) w
  let at_ := winoAt d
  let n := winoM d
  let colsW := max 1 (ceilDiv (cOW d) n)
  let px := ts.zipIdx.flatMap (fun (t, wi) => (List.range (n * n)).filterMap (fun k =>
    let oy := n * (t / colsW) + k / n
    let ox := n * (t % colsW) + k % n
    if oy < cOH d && ox < cOW d then some (oy * cOW d + ox, wi, k) else none))
  (px.map (fun (i, wi, k) => ⟨i, [], (List.range m).map (fun j =>
    rn (bilinear (at_.getD (k / n) []) (at_.getD (k % n) []) (fun r s => fp32 (((ms.getD (a * r + s) []).getD wi []).getD j 0))))⟩), w)

/-! ## Pooling (R168) -/

/-- The reduction of the values a window takes: none where no tap is taken. -/
def poolValue (d : Nat) (xs : List XR) : XR :=
  match xs with
  | [] => .zero false
  | x :: rest =>
    if cKind d = 1 then rest.foldl (fun (m : XR) y => m.max y) x
    else
      let s : XR := xs.foldl (fun (s : XR) y => rn (s.add y)) (XR.zero false)
      rn (s.div (XR.ofInt (if cAvgDiv d then (cKH d * cKW d : Nat) else (xs.length : Nat))))

/-- Channels of input pixel (y, x) from `c0` on, `m` of them: what one tile of a pool reads of it (R168, R169). -/
def Wk.poolPixel (w : Wk) (d b y x c0 m : Nat) : Row × Wk :=
  w.readElems (mFmtA d) (mABase d + b * mABs d + y * mARs d + x * cInXs d)
    (scaleAddr (mFmtA d) (mAScale d) (cCin d) (mAComp d) ((if mABs d = 0 then 0 else b) * (cInH d * cInW d) + y * cInW d + x))
    (cCin d) (mAComp d) [(c0, m)]

/-- A tile of a pool (R168). What a pool leaves in the accumulator tile it places its output in is not stated: DESIGN CHOICE, the
FP32 rounding of each pooled value, while the epilogue goes on from the value itself (log entry 36). -/
def Wk.poolTile (w : Wk) (d g b tm tn q : Nat) : List TileRow × Wk :=
  let rows := (List.range (min 64 (mM d - 64 * tm))).map (· + 64 * tm)
  let m := min 64 (mN d - 64 * tn)
  let taps := List.range (cKH d * cKW d)
  let (outs, w) := w.mapM (fun w i =>
    let (ps, w) := w.mapM (fun w t => match tapPos d i t with
      | some (y, x) => let (r, w) := w.poolPixel d b y x (64 * tn) m; (some r, w)
      | none => (none, w)) taps
    let ys := (List.range m).map (fun j => poolValue d (ps.filterMap (fun p => match p with
      | some r => some (r.val (mTA d) (64 * tn + j))
      | none => if cConst d then some (fp32 (cPadVal d)) else none)))
    ((⟨i, ys.map (fun y => fp32Code (rn y)), ys⟩ : TileRow), w)) rows
  (outs, w.storeAcc d g (accTile d q tm tn) (outs.map (·.acc)))

/-! ## The epilogue (R83 to R85) -/

/-- Activations of R84. -/
def activate (d : Nat) (y : XR) : XR :=
  if y.isNan then .nan
  else match mAct d with
  | 1 => if (XR.zero false).lt y then y else .zero false
  | 2 => if y.lt (.zero false) then rn (y.scale2 (-(mLeaky d : Int))) else y
  | 3 => if y.lt (fp32 (mClampLo d)) then fp32 (mClampLo d) else if (fp32 (mClampHi d)).lt y then fp32 (mClampHi d) else y
  | 4 => if (XR.zero false).lt y then rn (y.mul y) else .zero false
  | _ => y

/-- Bias values of a strip's columns for row `i` (R83). -/
def Wk.bias (w : Wk) (d i j0 m : Nat) : List XR × Wk :=
  let sz := if mBiasBf16 d then 2 else 4
  let dec (bs : List Byte) : XR := if mBiasBf16 d then Fmt.bf16.decode (leNat bs) else fp32 (leNat bs)
  if mBiasMode d = 1 then
    let (bs, w) := w.read (mBiasBase d + j0 * sz) (m * sz)
    ((List.range m).map (fun j => dec ((bs.drop (j * sz)).take sz)), w)
  else if mBiasMode d = 2 then
    let (bs, w) := w.read (mBiasBase d + i * sz) sz
    (List.replicate m (dec bs), w)
  else ([], w)

/-- The epilogue of one row of a strip: bias, activation, scale, conversion and store (R83). -/
def Wk.epiRow (w : Wk) (d b j0 : Nat) (s : Site) (i : Nat) (y0 : List XR) : Wk :=
  let (bs, w) := w.bias d i j0 y0.length
  let y1 := if mBiasMode d = 0 || isPool d then y0 else (y0.zip bs).map (fun (y, x) => rn (y.add x))
  let y3 := y1.map (fun y => rn (((activate d y).mul (fp32 (mAlpha d))).div (XR.ofQ (mTOut d))))
  w.storeRow (mFmtOut d) (outRow d b i)
    (scaleAddr (mFmtOut d) (mOutScale d) (mN d) (mOutComp d) (b * mM d + i)) (mN d) (mOutComp d) s (outIdx d b i + j0) j0 y3

/-- One tile by kind. -/
def Wk.tile (w : Wk) (d g b tm tn q : Nat) : List TileRow × Wk :=
  if isComb d then w.combineTile d g b tm tn q
  else if isPool d then w.poolTile d g b tm tn q
  else if isWino d then w.winoBlock d g b tm tn q
  else w.productTile d g b tm tn q

/-- Rows of two adjoining tiles side by side. -/
def joinRows (l r : List TileRow) : List TileRow :=
  if l = [] then r else (l.zip r).map (fun (x, y) => ⟨x.i, x.acc ++ y.acc, x.y0 ++ y.y0⟩)

/-- One strip: its tiles, then the epilogue, or the raw accumulators of a partial (R81). -/
def Wk.strip (w : Wk) (d g : Nat) (s : Site) (x : Strip) : Wk :=
  let (rows, w) := (List.range (x.c1 - x.c0)).foldl (fun (acc, w) k =>
    let (t, w) := Wk.tile w d g x.b x.tm (x.c0 + k) (x.q + k)
    (joinRows acc t, w)) (([] : List TileRow), w)
  if mEpi d then rows.foldl (fun w r => w.epiRow d x.b (64 * x.c0) s r.i r.y0) w
  else if mKeep d then w
  else rows.foldl (fun w r =>
    w.write (partRow d (mOutBase d + mSplitIdx d * mPart d) x.b r.i + 256 * x.c0) (packCodes 32 r.acc)) w

/-- The poison mask that follows an INT8 partial (R81, R119): for each batch its row bits, then its column bits. -/
def Wk.partMask (w : Wk) (d : Nat) : Wk :=
  let (k0, k1) := mRange d
  let bitsOf (l : List Bool) : List Byte := leBytes (ceilDiv l.length 8) (packBits (l.map (fun x => (1, b2n x))))
  let one (b : Nat) : List Byte :=
    let rs := (List.range (mM d)).map (fun i =>
      let l := (w.leftRow d b i).1
      let ref := (w.refA d b i l).1
      l.any (fun s => match s.row with | some r => r.mismatch ref s.ka s.n != 0 | none => false))
    let cs := (List.range (mN d)).map (fun j =>
      let c := (w.rightRow d b j).1
      let ref := (w.refB d b j c).1
      if isConv d then (convTaps d).any (fun t => c.mismatch ref (t * cCP d) (cCin d) != 0)
      else c.mismatch ref k0 (k1 - k0) != 0)
    bitsOf rs ++ bitsOf cs
  let bs := (List.range (mBatch d)).flatMap one
  let n := maskSize d
  w.write (mOutBase d + (mSplitIdx d + 1) * mPart d - n) (bs ++ List.replicate (n - bs.length) 0)

/-- Output tiles `t0` to `t1` of an operation on engine `g` of the device, in walk order. -/
def Wk.tiles (w : Wk) (d g : Nat) (s : Site) (t0 t1 : Nat) : Wk :=
  ((strips d).filter (fun x => t0 ≤ x.q && x.q < t1)).foldl (fun w x => w.strip d g s x) w

/-- The rest of an operation from tile `t0` to its end. -/
def Wk.finishTiles (w : Wk) (d g : Nat) (s : Site) (t0 : Nat) : Wk :=
  let w := w.tiles d g s t0 (tileCount d)
  if isInt d && !mEpi d && !mKeep d then w.partMask d else w

end Sys2Proof.Machine
end

