-- ==== Sys2Proof/Machine/MoveOps.lean ====
section
/-! DEFINITION. Transfers of MOVE descriptors and mover channels (spec file 18: R471 to R473, R485 to R487) and the random
tensors of GENERATE (09: R224 to R226). -/

namespace Sys2Proof.Machine

/-- What a transfer does (R471). -/
inductive XKind where
  | copy | fill | fence | compress | expand | nop | bad
  deriving DecidableEq, Repr

/-- A transfer: a ring descriptor or a MOVE, in one form. -/
structure Xfer where
  kind : XKind
  value : Nat
  rows : Nat
  src : Nat
  dst : Nat
  len : Nat
  ss : Nat
  ds : Nat
  deriving DecidableEq, Repr

/-- A ring descriptor's transfer (R471). -/
def ringXfer (x : Nat) : Xfer :=
  { kind := match bits x 1 3 with | 0 => .copy | 1 => .fill | 2 => .fence | 3 => .compress | 4 => .expand | 5 => .nop | _ => .bad,
    value := bits x 16 8, rows := bits x 24 24, src := bits x 48 48, dst := bits x 96 48, len := bits x 144 32,
    ss := bits x 176 40, ds := bits x 216 40 }

/-- MOVE_KIND of a MOVE (R485). -/
def mvKind (d : Nat) : Nat := bits d 128 3

/-- A MOVE's transfer (R485). -/
def moveXfer (d : Nat) : Xfer :=
  { kind := match mvKind d with | 0 => .copy | 1 => .fill | 2 => .fence | 4 => .compress | 5 => .expand | _ => .bad,
    value := bits d 160 8, rows := bits d 320 24, src := bits d 160 48, dst := bits d 224 48, len := bits d 288 32,
    ss := bits d 352 40, ds := bits d 392 40 }

/-- The transfer reads a source. -/
def Xfer.reads (x : Xfer) : Bool := x.kind == .copy || x.kind == .compress || x.kind == .expand
/-- The transfer writes a destination. -/
def Xfer.writes (x : Xfer) : Bool := x.reads || x.kind == .fill
/-- Bytes of a source row. -/
def Xfer.srcLen (x : Xfer) : Nat := if x.kind = .expand then slotSize x.len else x.len
/-- Bytes of a destination row. -/
def Xfer.dstLen (x : Xfer) : Nat := if x.kind = .compress then slotSize x.len else x.len
/-- Bytes from the lowest to the highest of the source (R472). -/
def Xfer.srcExt (x : Xfer) : Nat := (x.rows - 1) * x.ss + x.srcLen
/-- Bytes from the lowest to the highest of the destination. -/
def Xfer.dstExt (x : Xfer) : Nat := (x.rows - 1) * x.ds + x.dstLen

/-- Check 1 of R472: BAD_DESC. -/
def Xfer.badDesc (x : Xfer) : Bool :=
  x.kind == .bad || (x.writes && (x.len == 0 || x.rows == 0))
    || (x.kind == .compress && x.ds < x.dstLen) || (x.kind == .expand && x.ss < x.srcLen)
    || (x.reads && overlaps x.src x.srcExt x.dst x.dstExt)

/-- A range touches an accumulator window. -/
def inAcc (a n : Nat) : Bool := overlaps a n (accWin 0) (768 * 0x40000)

/-- Check 2 of R472: ALIGN (R62). -/
def Xfer.badAlign (x : Xfer) : Bool :=
  (x.reads && inAcc x.src x.srcExt && !(x.src % 4 == 0 && x.len % 4 == 0 && x.ss % 4 == 0))
    || (x.writes && inAcc x.dst x.dstExt && !(x.dst % 4 == 0 && x.len % 4 == 0 && x.ds % 4 == 0))
    || (x.kind == .compress && !(x.dst % 16 == 0 && x.ds % 16 == 0))
    || (x.kind == .expand && !(x.src % 16 == 0 && x.ss % 16 == 0))

/-- The first unbacked byte of a transfer, source row by source row, then destination rows (R131, R472). -/
def Dev.xferUnbacked (d : Dev) (x : Xfer) : Option Nat :=
  let go (f : Nat → Nat → Option Nat) (a s n : Nat) : Option Nat := (List.range x.rows).findSome? (fun r => f (a + r * s) n)
  match (if x.reads then go d.unbacked x.src x.ss x.srcLen else none) with
  | some a => some a
  | none => if x.writes then go d.unwritable x.dst x.ds x.dstLen else none

/-- The checks of R472 in order: status and the address they name. -/
def Dev.xferCheck (d : Dev) (x : Xfer) : Option (Nat × Nat) :=
  if x.badDesc then some (3, 0)
  else if x.badAlign then some (2, 0)
  else (d.xferUnbacked x).map (fun a => (1, a))

/-- Move `n` plain bytes of row `r` from offset `o`: whole lines under COMPRESS and EXPAND (R473). -/
def Wk.xferPart (w : Wk) (x : Xfer) (r o n : Nat) : Wk :=
  let s := x.src + r * x.ss
  let t := x.dst + r * x.ds
  match x.kind with
  | .copy => let (bs, w) := w.read (s + o) n; w.write (t + o) bs
  | .fill => w.write (t + o) (List.replicate n (BitVec.ofNat 8 x.value))
  | .compress => let (bs, w) := w.read (s + o) n; w.writePart t x.len true o bs
  | .expand => let (bs, w) := w.readPart s x.len true o n; w.write (t + o) bs
  | _ => w

/-- A whole transfer, rows in increasing order (R471). -/
def Wk.xfer (w : Wk) (x : Xfer) : Wk := if x.writes then (List.range x.rows).foldl (fun w r => Wk.xferPart w x r 0 x.len) w else w

/-! ## GENERATE (R224 to R226) -/

def gKind (d : Nat) : Nat := bits d 131 3
def gFmt (d : Nat) : Nat := bits d 160 16
def gRows (d : Nat) : Nat := bits d 176 24
def gCols (d : Nat) : Nat := bits d 200 24
def gDst (d : Nat) : Nat := bits d 224 48
def gSym (d : Nat) : Nat := bits d 288 32
def gRs (d : Nat) : Nat := bits d 320 32
def gIdx (d : Nat) : Nat := bits d 352 48
def gIdxRs (d : Nat) : Nat := bits d 400 40
def gP0 (d : Nat) : Nat := bits d 440 32
def gP1 (d : Nat) : Nat := bits d 472 32

/-- uni(w) of R225. -/
def uni (w : Nat) : Q := Q.mk' (2 * (w / 512) + 1) (2 ^ 24)

/-- The code of element `n` (R225). -/
def genCode (d seed step n : Nat) : Nat :=
  let f := fwFmt (gFmt d)
  let out (x : XR) : Nat := f.encode (roundFmt f .rne x 0)
  let p0 := fp32 (gP0 d)
  let p1 := fp32 (gP1 d)
  match gKind d with
  | 0 => drawWord seed (gSym d) step 2 n
  | 1 => out (p0.add (p1.mul (XR.ofQ (uni (drawWord seed (gSym d) step 2 n)))))
  | 2 =>
    let b := drawBlock seed (gSym d) step 2 (n / 2)
    let wa := b.word (2 * (n % 2))
    let wb := b.word (2 * (n % 2) + 1)
    let l := rn (xLn (XR.ofQ (uni wa)))
    let r := rn (xSqrt ((XR.ofInt (-2)).mul l))
    let c := rn (XR.ofQ (cos2piQ (uni wb)))
    let z := rn (r.mul c)
    out (p0.add (p1.mul z))
  | _ => if drawWord seed (gSym d) step 1 n < gP0 d then 0 else out p1

/-- A GENERATE. -/
def Wk.generate (w : Wk) (d seed step : Nat) : Wk :=
  (List.range (gRows d)).foldl (fun w i =>
    w.write (gDst d + i * gRs d) (packCodes (fwFmt (gFmt d)).width
      ((List.range (gCols d)).map (fun j => genCode d seed step (gIdx d + i * gIdxRs d + j))))) w

end Sys2Proof.Machine
end

