-- ==== Sys2Proof/Machine/VecOps.lean ====
section
/-! DEFINITION. The vector unit (spec file 04, R99 to R105), box decoding and overlap suppression (06, R171 to R173). -/

namespace Sys2Proof.Machine

/-! ## Fields of R104 -/

def vOp (d : Nat) : Nat := bits d 128 8
def vFmtX (d : Nat) : Nat := bits d 136 16
def vFmtY (d : Nat) : Nat := bits d 152 16
def vFmtZ (d : Nat) : Nat := bits d 168 16
def vFmtOut (d : Nat) : Nat := bits d 184 16
def vRows (d : Nat) : Nat := bits d 200 24
def vCols (d : Nat) : Nat := bits d 224 24
def vYB (d : Nat) : Nat := bits d 248 2
def vZB (d : Nat) : Nat := bits d 250 2
def vGrad (d : Nat) : Bool := bit d 252
def vImm (d : Nat) : Nat := bits d 256 32
def vX (d : Nat) : Nat := bits d 288 48
def vY (d : Nat) : Nat := bits d 336 48
def vZ (d : Nat) : Nat := bits d 384 48
def vOut (d : Nat) : Nat := bits d 432 48
def vXRs (d : Nat) : Nat := bits d 480 32
def vYRs (d : Nat) : Nat := bits d 512 32
def vZRs (d : Nat) : Nat := bits d 544 32
def vOutRs (d : Nat) : Nat := bits d 576 32
def vXScale (d : Nat) : Nat := bits d 608 48
def vOutScale (d : Nat) : Nat := bits d 656 48
def vXT (d : Nat) : Nat := bits d 704 32
def vOutT (d : Nat) : Nat := bits d 736 32
def vSym (d : Nat) : Nat := bits d 768 32
def vIdx (d : Nat) : Nat := bits d 800 48
def vIdxRs (d : Nat) : Nat := bits d 848 40

/-- Values of VOP that R100 lists. -/
def vopKnown (v : Nat) : Bool := v ≤ 8 || (0x10 ≤ v && v ≤ 0x19) || (0x20 ≤ v && v ≤ 0x22) || (0x30 ≤ v && v ≤ 0x32) || v == 0x40 || v == 0x41
/-- VOP reads Y. -/
def vopY (v : Nat) : Bool := (1 ≤ v && v ≤ 6) || v == 0x40 || v == 0x41
/-- VOP reads Z. -/
def vopZ (v : Nat) : Bool := v == 4
/-- VOP is a row reduction. -/
def vopRed (v : Nat) : Bool := 0x30 ≤ v && v ≤ 0x32
/-- VOP is elementwise (R105). -/
def vopElem (v : Nat) : Bool := v ≤ 0x22
/-- Y is read from memory. -/
def vReadsY (d : Nat) : Bool := vopY (vOp d) && vYB d < 3
/-- Z is read from memory. -/
def vReadsZ (d : Nat) : Bool := vopZ (vOp d) && vZB d < 3
/-- Elements of an output row. -/
def vOutCols (d : Nat) : Nat := if vopRed (vOp d) || vOp d == 0x41 then 1 else vCols d

/-! ## Functions (R100 to R103) -/

/-- 1 as an exact value. -/
def xOne : XR := XR.ofInt 1
/-- One half. -/
def xHalf : XR := XR.ofQ ⟨1, 2⟩

/-- gelu_erf of R102. -/
def geluErf (x : XR) : XR :=
  let t := rn (x.mul (fp32 0x3F3504F3))
  let t := rn (xErf t)
  let t := rn (xOne.add t)
  (xHalf.mul x).mul t

/-- gelu_tanh of R102. -/
def geluTanh (x : XR) : XR :=
  let u := rn (x.mul x)
  let u := rn (u.mul x)
  let u := rn ((fp32 0x3D372713).mul u)
  let u := rn (x.add u)
  let u := rn ((fp32 0x3F4C422A).mul u)
  let u := rn (xTanh u)
  let u := rn (xOne.add u)
  (xHalf.mul x).mul u

/-- silu of R102. -/
def silu (x : XR) : XR := x.mul (rn (xSigmoid x))

/-- The exact result of an elementwise operation (R100). -/
def vopValue (v : Nat) (x y z : XR) : XR :=
  match v with
  | 0x01 => x.add y
  | 0x02 => x.sub y
  | 0x03 => x.mul y
  | 0x04 => (x.mul y).add z
  | 0x05 => x.max y
  | 0x06 => x.min y
  | 0x07 => x.abs
  | 0x08 => x.negate
  | 0x10 => xExp x
  | 0x11 => xExp2 x
  | 0x12 => xLn x
  | 0x13 => xLog2 x
  | 0x14 => xRecip x
  | 0x15 => xSqrt x
  | 0x16 => xRsqrt x
  | 0x17 => xTanh x
  | 0x18 => xErf x
  | 0x19 => xSigmoid x
  | 0x20 => geluErf x
  | 0x21 => geluTanh x
  | 0x22 => silu x
  | _ => x

/-- The halving tree of R103 over a list of 2^k partials. -/
def foldTree (f : XR → XR → XR) : Nat → List XR → XR
  | 0, l => l.getD 0 (.zero false)
  | k + 1, l =>
    let w := 2 ^ k
    foldTree f k (((l.take w).zip (l.drop w)).map (fun (a, b) => f a b))

/-- row_sum of R103 and its maximum form. -/
def rowReduce (v : Nat) (xs : List XR) : XR :=
  let f (a b : XR) : XR := if v = 0x31 then rn (a.max b) else rn (a.add b)
  let start : XR := if v = 0x31 then .inf true else .zero false
  let ps := (List.range 256).map (fun l =>
    ((List.range (ceilDiv (xs.length - l) 256)).map (fun k => xs.getD (l + 256 * k) (.zero false))).foldl
      (fun (p : XR) x => f p (if v = 0x32 then x.mul x else x)) start)
  foldTree f 8 ps

/-- box_decode of R171. -/
def boxDecode (imm : Nat) (x y : List XR) : List XR :=
  let g (l : List XR) (i : Nat) : XR := l.getD i .nan
  let px := rn (((g x 0).mul (g y 2)).add (g y 0))
  let py := rn (((g x 1).mul (g y 3)).add (g y 1))
  let pw := rn ((rn (xExp ((g x 2).min (fp32 imm)))).mul (g y 2))
  let ph := rn ((rn (xExp ((g x 3).min (fp32 imm)))).mul (g y 3))
  [px.sub (xHalf.mul pw), py.sub (xHalf.mul ph), px.add (xHalf.mul pw), py.add (xHalf.mul ph)]

/-- A box with finite coordinates. -/
structure Box where
  x0 : Q
  y0 : Q
  x1 : Q
  y1 : Q
  deriving DecidableEq, Repr

/-- Area of a box (R172). -/
def Box.area (b : Box) : Q := (Q.max Q.zero (b.x1.sub b.x0)).mul (Q.max Q.zero (b.y1.sub b.y0))

/-- overlap(k, i) of R172. -/
def Box.overlap (th : Q) (k i : Box) : Bool :=
  let inter := (Q.max Q.zero ((Q.min k.x1 i.x1).sub (Q.max k.x0 i.x0))).mul (Q.max Q.zero ((Q.min k.y1 i.y1).sub (Q.max k.y0 i.y0)))
  (th.mul ((k.area.add i.area).sub inter)).lt inter

/-- Insert a candidate after those of the same or a higher score (R172). -/
def insertScore (c : Q × Nat × Box) : List (Q × Nat × Box) → List (Q × Nat × Box)
  | [] => [c]
  | x :: xs => if x.1.lt c.1 then c :: x :: xs else x :: insertScore c xs

/-- suppress(order) of R172: the rows kept, in order. -/
def suppress (th : Q) (cands : List (Q × Nat × Box)) : List (Nat × Box) :=
  (cands.foldl (fun l c => insertScore c l) []).foldl (fun kept c =>
    if kept.any (fun k => k.2.overlap th c.2.2) then kept else kept ++ [c.2]) []

/-! ## A VECTOR descriptor (R99) -/

/-- Values of a source row. -/
def Wk.vecRow (w : Wk) (fw a sa : Nat) (t : Q) (n : Nat) : List XR × Wk :=
  let (r, w) := w.readRow fw a sa n false 0 n
  ((List.range n).map (r.val t), w)

/-- Row `i` of Y or Z under its broadcast (R104): `n` values. -/
def Wk.bcast (w : Wk) (mode fw a rs imm i n : Nat) : List XR × Wk :=
  if mode = 3 then (List.replicate n (fp32 imm), w)
  else if mode = 2 then
    let (l, w) := w.vecRow fw (a + i * rs) 0 Q.one 1
    (List.replicate n (l.getD 0 .nan), w)
  else w.vecRow fw (a + (if mode = 1 then 0 else i) * rs) 0 Q.one n

/-- The output conversion of a row: exact division by OUT_TSCALE for a narrow output, then one rounding (R99). -/
def Wk.vecStore (w : Wk) (d : Nat) (s : Site) (i : Nat) (ys : List XR) : Wk :=
  let f := vFmtOut d
  let n := vOutCols d
  let t := tscaleOf f (vOutT d)
  let ys := if fwBlk f = 0 then ys else ys.map (fun y => y.div (XR.ofQ t))
  w.storeRow f (vOut d + i * vOutRs d) (scaleAddr f (vOutScale d) n false i) n false s (vIdx d + i * vIdxRs d) 0 ys

/-- One row of every operation but OVERLAP_SUPPRESS. -/
def Wk.vecOne (w : Wk) (d : Nat) (s : Site) (i : Nat) : Wk :=
  let n := vCols d
  let (xs, w) := w.vecRow (vFmtX d) (vX d + i * vXRs d) (scaleAddr (vFmtX d) (vXScale d) n false i) (tscaleOf (vFmtX d) (vXT d)) n
  let (ys, w) := if vopY (vOp d) then w.bcast (vYB d) (vFmtY d) (vY d) (vYRs d) (vImm d) i n else ([], w)
  let (zs, w) := if vopZ (vOp d) then w.bcast (vZB d) (vFmtZ d) (vZ d) (vZRs d) (vImm d) i n else ([], w)
  if vopRed (vOp d) then w.vecStore d s i [rowReduce (vOp d) xs]
  else if vOp d = 0x40 then w.vecStore d s i (boxDecode (vImm d) xs ys)
  else w.vecStore d s i (xs.zipIdx.map (fun (x, j) => vopValue (vOp d) x (ys.getD j .nan) (zs.getD j .nan)))

/-- OVERLAP_SUPPRESS (R172). -/
def Wk.vecSuppress (w : Wk) (d : Nat) (s : Site) : Wk :=
  let (cands, w) := (List.range (vRows d)).foldl (fun (acc, w) i =>
    let (xs, w) := Wk.vecRow w (vFmtX d) (vX d + i * vXRs d) (scaleAddr (vFmtX d) (vXScale d) 4 false i) (tscaleOf (vFmtX d) (vXT d)) 4
    let (ys, w) := w.bcast 2 (vFmtY d) (vY d) (vYRs d) 0 i 1
    if xs.all XR.isFinite && ys.all XR.isFinite then
      let q (k : Nat) : Q := (xs.getD k .nan).toQ
      (acc ++ [((ys.getD 0 .nan).toQ, i, ({ x0 := q 0, y0 := q 1, x1 := q 2, y1 := q 3 } : Box))], w)
    else (acc, w)) (([] : List (Q × Nat × Box)), w)
  let kept := suppress (fp32Q (vImm d)) cands
  (List.range (vRows d)).foldl (fun w r =>
    Wk.vecStore w d s r [match kept[r]? with | some k => XR.ofInt k.1 | none => XR.ofInt (-1)]) w

/-- A VECTOR descriptor from beginning to end. -/
def Wk.vector (w : Wk) (d seed step : Nat) : Wk :=
  let s : Site := ⟨vGrad d, seed, step, vSym d⟩
  if vOp d = 0x41 then w.vecSuppress d s else (List.range (vRows d)).foldl (fun w i => Wk.vecOne w d s i) w

end Sys2Proof.Machine
end

