-- ==== Sys2Proof/Machine/Checks.lean ====
section
/-! DEFINITION. The checks of descriptors, at load and on patched copies (R71, R105, R109, R120, R160, R173, R186, R212,
R226, R487). A check is a condition with the byte offset, within the descriptor, of the field it is about. -/

namespace Sys2Proof.Machine

/-- A condition and the byte offset of its field. -/
abbrev Cond := Bool × Nat

/-- A byte range: address and length. -/
abbrev Area := Nat × Nat

/-- Two areas share a byte. -/
def meets (x y : Area) : Bool := overlaps x.1 x.2 y.1 y.2
/-- The area shares a byte with some area of a list. -/
def meetsAny (x : Area) (l : List Area) : Bool := l.any (meets x)
/-- The area lies in the core store of core `n`. -/
def inStore (n : Nat) (x : Area) : Bool := x.2 == 0 || (coreStore n ≤ x.1 && x.1 + x.2 ≤ coreStore (n + 1))
/-- The area lies in the accumulator windows of core `n`. -/
def inCoreAcc (n : Nat) (x : Area) : Bool := accWin (4 * n) ≤ x.1 && x.1 + x.2 ≤ accWin (4 * n + 4)

/-- The bytes of an array that lie apart: runs of `len` bytes, one for each choice of an index of every (stride, count). The
spec does not define the area that an overlap is checked on: DESIGN CHOICE, it is these bytes, without the gaps between strided
rows (log entry 35). -/
structure Grid where
  base : Nat
  dims : List (Nat × Nat)
  len : Nat
  deriving DecidableEq, Repr

/-- An area without gaps. -/
def Grid.flat (x : Area) : Grid := ⟨x.1, [], x.2⟩
/-- First bytes of the runs. -/
def Grid.starts (g : Grid) : List Nat :=
  g.dims.foldl (fun l x => l.flatMap (fun a => (List.range x.2).map (fun k => a + k * x.1))) [g.base]
/-- From the first byte to the last. -/
def Grid.ext (g : Grid) : Area :=
  if g.len = 0 || g.dims.any (fun x => x.2 == 0) then (g.base, 0)
  else (g.base, (g.dims.map (fun x => (x.2 - 1) * x.1)).sum + g.len)
/-- Two arrays share a byte. -/
def Grid.crosses (x y : Grid) : Bool :=
  meets x.ext y.ext && x.starts.any (fun a => y.starts.any (fun b => overlaps a x.len b y.len))
/-- The array shares a byte with some array of a list. -/
def Grid.crossesAny (x : Grid) (l : List Grid) : Bool := l.any x.crosses
/-- The array shares a byte with some area of a list. -/
def Grid.reaches (x : Grid) (l : List Area) : Bool := l.any (fun a => x.crosses (.flat a))
/-- Every byte lies in the core store of core `n`. -/
def Grid.inStore (n : Nat) (x : Grid) : Bool := Sys2Proof.Machine.inStore n x.ext

/-! ## Areas of MATMUL, CONV and COMBINE -/

/-- Batches that an operand with batch stride `bs` has. -/
def effBatch (d bs : Nat) : Nat := if bs = 0 then 1 else mBatch d

/-- The elements of A. -/
def areaA (d : Nat) : Grid :=
  if isConv d then
    ⟨mABase d, [(mABs d, effBatch d (mABs d)), (mARs d, cInH d), (cInXs d, cInW d)], rowBytes (mFmtA d) (cCin d) (mAComp d)⟩
  else ⟨mABase d, [(mABs d, effBatch d (mABs d)), (mARs d, mM d)], rowBytes (mFmtA d) (mK d) (mAComp d)⟩

/-- The scales of A. -/
def areaAS (d : Nat) : Grid :=
  let r := if isConv d then cInH d * cInW d else mM d
  ⟨mAScale d, [], effBatch d (mABs d) * r * scaleBytes (mFmtA d) (if isConv d then cCin d else mK d) (mAComp d)⟩

/-- The elements of B. -/
def areaB (d : Nat) : Grid :=
  ⟨mBBase d, [(mBBs d, effBatch d (mBBs d)), (mBRs d, mN d)], rowBytes (mFmtB d) (bLen d) (mBComp d)⟩

/-- The scales of B. -/
def areaBS (d : Nat) : Grid := ⟨mBScale d, [], effBatch d (mBBs d) * mN d * scaleBytes (mFmtB d) (bLen d) (mBComp d)⟩

/-- Element runs of a row of `n` elements as byte runs of the row and, for a narrow format, of its scale row; a row slot counts
whole, since the bytes a line takes are not known at load. -/
def runBytes (fw n : Nat) (comp : Bool) (runs : List (Nat × Nat)) : List (Nat × Nat) × List (Nat × Nat) :=
  let w := (fwFmt fw).width
  let b := fwBlk fw
  let runs := runs.filter (fun x => 0 < x.2)
  if runs = [] then ([], [])
  else if comp then ([(0, rowBytes fw n true)], [(0, scaleBytes fw n true)])
  else if b = 0 then (runs.map (fun x => (x.1 * w / 8, ceilDiv ((x.1 + x.2) * w) 8 - x.1 * w / 8)), [])
  else (runs.map (fun x => (x.1 * w / 8, packedLen fw (x.1 + x.2) - x.1 * w / 8)),
    runs.map (fun x => (x.1 / b, ceilDiv (x.1 + x.2) b - x.1 / b)))

/-- Bytes that a product reads of an operand's rows, `dims` of them at `base`, whose scale rows lie densely at `sbase`. -/
def touchRows (fw n : Nat) (comp : Bool) (base : Nat) (dims : List (Nat × Nat)) (sbase rows : Nat) (runs : List (Nat × Nat)) : List Grid :=
  let (es, ss) := runBytes fw n comp runs
  es.map (fun x => ⟨base + x.1, dims, x.2⟩) ++ ss.map (fun x => ⟨sbase + x.1, [(scaleBytes fw n comp, rows)], x.2⟩)

/-- Input positions that a convolution or a pool reads. -/
def touchedPix (d : Nat) : List (Nat × Nat) :=
  if isWino d then (List.range (winoTiles d)).flatMap (fun t => (List.range (winoA d * winoA d)).filterMap (winoPos d t))
  else (List.range (mM d)).flatMap (fun i => (if isPool d then List.range (cKH d * cKW d) else convTaps d).filterMap (tapPos d i))

/-- Bytes of A that the operation touches (R71). The reference scale of an INT8 row stands at its element 0 (R69). -/
def touchA (d : Nat) : List Grid :=
  let nb := effBatch d (mABs d)
  if isConv d then
    let pix := touchedPix d ++ (if isInt d && (mRange d).1 != 0 then (List.range (mM d)).filterMap (fun i => tapPos d i 0) else [])
    pix.flatMap (fun p =>
      let row := p.1 * cInW d + p.2
      let (es, ss) := runBytes (mFmtA d) (cCin d) (mAComp d) [(0, cCin d)]
      es.map (fun x => ⟨mABase d + p.1 * mARs d + p.2 * cInXs d + x.1, [(mABs d, nb)], x.2⟩)
        ++ ss.map (fun x => ⟨scaleAddr (mFmtA d) (mAScale d) (cCin d) (mAComp d) row + x.1,
          [(cInH d * cInW d * scaleBytes (mFmtA d) (cCin d) (mAComp d), nb)], x.2⟩))
  else
    let (k0, k1) := mRange d
    touchRows (mFmtA d) (mK d) (mAComp d) (mABase d) [(mABs d, nb), (mARs d, mM d)] (mAScale d) (nb * mM d) [(k0, k1 - k0)]
      ++ (if isInt d && k0 != 0 then [⟨mAScale d, [(scaleBytes (mFmtA d) (mK d) (mAComp d), nb * mM d)], 1⟩] else [])

/-- Bytes of B that the operation touches (R71). -/
def touchB (d : Nat) : List Grid :=
  let nb := effBatch d (mBBs d)
  let (k0, k1) := mRange d
  touchRows (mFmtB d) (bLen d) (mBComp d) (mBBase d) [(mBBs d, nb), (mBRs d, mN d)] (mBScale d) (nb * mN d)
      (if isConv d then bRuns d else [(k0, k1 - k0)])
    ++ (if isInt d && k0 != 0 then [⟨mBScale d, [(scaleBytes (mFmtB d) (bLen d) (mBComp d), nb * mN d)], 1⟩] else [])

/-- The output's elements, or a partial and its mask (R81, R119). -/
def areaOut (d : Nat) : List Grid :=
  if mEpi d then
    [⟨mOutBase d, if isConv d then [(mOutBs d, mBatch d), (mOutRs d, cOH d), (cOutXs d, cOW d)] else [(mOutBs d, mBatch d), (mOutRs d, mM d)],
      rowBytes (mFmtOut d) (mN d) (mOutComp d)⟩]
  else if mKeep d then []
  else
    let p := mOutBase d + mSplitIdx d * mPart d
    ⟨p, [(mOutBs d, mBatch d), (if isConv d then cOutXs d else mOutRs d, mM d)], 4 * mN d⟩
      :: (if isInt d then [⟨p + mPart d - maskSize d, [], maskSize d⟩] else [])

/-- The output's scales. -/
def areaOutS (d : Nat) : Grid :=
  ⟨mOutScale d, [], if mEpi d then mBatch d * mM d * scaleBytes (mFmtOut d) (mN d) (mOutComp d) else 0⟩

/-- The bias. -/
def areaBias (d : Nat) : Grid :=
  ⟨mBiasBase d, [], if mEpi d && !isPool d && (mBiasMode d == 1 || mBiasMode d == 2)
    then (if mBiasMode d = 1 then mN d else mM d) * (if mBiasBf16 d then 2 else 4) else 0⟩

/-- The start values and their scales (R76). -/
def areaCin (d : Nat) : List Grid :=
  if mMode d = 2 then
    let nb := effBatch d (mCinBs d)
    [⟨mCinBase d, if isConv d then [(mCinBs d, nb), (mCinRs d, cOH d), (cOutXs d, cOW d)] else [(mCinBs d, nb), (mCinRs d, mM d)],
       rowBytes (mFmtCin d) (mN d) (mCinComp d)⟩,
     ⟨cinScale d, [], nb * mM d * scaleBytes (mFmtCin d) (mN d) (mCinComp d)⟩]
  else []

/-- The partials a COMBINE reads, with their masks. -/
def areaParts (d : Nat) : List Grid :=
  (List.range (mSplit d)).flatMap (fun x =>
    let p := mABase d + x * mPart d
    ⟨p, [(mABs d, mBatch d), (mARs d, mM d)], 4 * mN d⟩ :: (if isInt d then [⟨p + mPart d - maskSize d, [], maskSize d⟩] else []))

/-- The Winograd workspace. -/
def areaWs (d : Nat) : Grid := ⟨cWs d, [], if isWino d then winoA d * winoA d * 0x4000 else 0⟩

/-- What a COMBINE reads. -/
def combSources (d : Nat) : List Grid :=
  areaParts d ++ (if isInt d then [⟨mAScale d, [], mBatch d * mM d⟩, ⟨mBScale d, [], mBatch d * mN d⟩] else []) ++ [areaBias d]

/-- Operands of a MATMUL, CONV or COMBINE that its output may not overlap, but for the start values (R71, R120). -/
def matSources (d : Nat) : List Grid :=
  if isComb d then combSources d
  else if isPool d then [areaA d, areaAS d]
  else [areaA d, areaAS d, areaB d, areaBS d, areaBias d]

/-- Bytes that it reads, but for the start values (R71). -/
def matReads (d : Nat) : List Grid :=
  if isComb d then combSources d else if isPool d then touchA d else touchA d ++ touchB d ++ [areaBias d]

/-- What it writes. The output's scale array counts as part of the output, as R71 says of the start values' own: DESIGN CHOICE (log
entry 35). -/
def matOuts (d : Nat) : List Grid := areaOutS d :: areaOut d

/-- Areas that it writes, the workspace among them. -/
def matDests (d : Nat) : List Grid := areaWs d :: matOuts d

/-! ## MATMUL, CONV, COMBINE (R71, R120, R160, R212) -/

/-- Multiple of 64. -/
def m64 (a : Nat) : Bool := a % 64 == 0

/-- Conditions common to the three descriptors. -/
def matConds (n d : Nat) : List Cond :=
  let comb := isComb d
  let pool := isPool d
  let conv := isConv d
  let epi := mEpi d
  let fa := mFmtA d
  let fb := mFmtB d
  let fo := mFmtOut d
  let prod := !comb && !pool
  let start := mMode d == 2
  [ (1 ≤ mM d, 24), (1 ≤ mN d, 27), (1 ≤ mBatch d, 30),
    (!prod || isWino d || (1 ≤ mK d && mK d ≤ 2 ^ 30), 32),
    (!prod || !isInt d || mK d ≤ 131072, 32),
    (!mInner d || 1 ≤ mPanel d, 36),
    (comb || mAccMode d < 3, 37),
    (1 ≤ mAccCount d && mAccBase d + mAccCount d ≤ 16, 37),
    (if comb then 2 ≤ mSplit d && mSplit d ≤ 64 else 1 ≤ mSplit d && mSplit d ≤ 64, 40),
    (comb || mSplit d == 1 || mSplitIdx d < mSplit d, 41),
    (!epi || mAct d < 5, 42), (!epi || mAct d != 2 || (1 ≤ mLeaky d && mLeaky d ≤ 24), 42),
    (!epi || pool || mBiasMode d < 3, 43),
    (fwOkOperand fa, 16), (pool || fwOkOperand fb, 18), (pool || (groupSize (fwFmt fa) (fwFmt fb)).isSome, 16),
    (!epi || fwOkResult fo, 22), (!start || fwOkOperand (mFmtCin d), 20),
    (!fwTs fa || !(epi || (conv && cConst d)) || tscaleOk (bits d 1184 32), 148),
    (pool || !fwTs fb || !epi || tscaleOk (bits d 1216 32), 152),
    (!((epi && fwTs fo) || (start && fwTs (mFmtCin d))) || tscaleOk (bits d 1248 32), 156),
    (!epi || fpFinite (mAlpha d), 44),
    (!epi || mAct d != 3 || (!(fp32 (mClampLo d)).isNan && !(fp32 (mClampHi d)).isNan && !(fp32 (mClampHi d)).lt (fp32 (mClampLo d))), 160),
    (m64 (mABase d) && m64 (mARs d) && (!conv || m64 (mABs d)), 48),
    (!prod || (m64 (mBBase d) && m64 (mBRs d) && (!conv || m64 (mBBs d))), 56),
    ((!epi && mKeep d) || (m64 (mOutBase d) && ((conv && !epi) || m64 (mOutRs d)) && (!conv || m64 (mOutBs d))), 72),
    (!start || (m64 (mCinBase d) && m64 (mCinRs d) && (!conv || m64 (mCinBs d))), 64),
    ((fwBlk fa == 0 && !comb) || (comb && !isInt d) || m64 (mAScale d), 80),
    ((!prod && !(comb && isInt d)) || (fwBlk fb == 0 && !comb) || m64 (mBScale d), 88),
    (!epi || fwBlk fo == 0 || m64 (mOutScale d), 96),
    (!epi || pool || mBiasMode d == 0 || m64 (mBiasBase d), 104),
    (mBatch d ≤ 1 || (!epi && mKeep d) || mOutBs d != 0, 138),
    ((matReads d).all (·.inStore n), 48),
    ((matDests d).all (·.inStore n), 72), ((areaCin d).all (·.inStore n), 64),
    (!mInner d || pool || mKchunk d * 64 * (fwFmt fb).width ≤ 8 * 16384, 36),
    (!((matSources d).any (fun x => x.crossesAny (matOuts d))) && !(areaOutS d).crossesAny (areaOut d), 72),
    (!start || cinIsOut d || !((areaCin d).any (fun x => x.crossesAny (matOuts d))), 64),
    (!(mMode d == 1 || (prod && mKeep d)) || (mBatch d ≤ 1 && mTm d * mTn d ≤ mAccCount d), 37),
    (!start || !isInt d, 37), (!mPair d || 2 ≤ mAccCount d, 38),
    (comb || mSplit d == 1 || (mAccMode d == 0 && !mKeep d), 40) ]

/-- Conditions of R212 on compressed arrays. -/
def compConds (d : Nat) : List Cond :=
  let conv := isConv d
  let prod := !isComb d && !isPool d
  let aStride := if conv then cInXs d else mARs d
  let oStride := if conv then cOutXs d else mOutRs d
  [ (isComb d || !mAComp d || rowBytes (mFmtA d) (if conv then cCin d else mK d) true ≤ aStride, 43),
    (!prod || !mBComp d || rowBytes (mFmtB d) (bLen d) true ≤ mBRs d, 43),
    (!(mMode d == 2) || !mCinComp d || rowBytes (mFmtCin d) (mN d) true ≤ (if conv then cOutXs d else mCinRs d), 43),
    (!mOutComp d || rowBytes (mFmtOut d) (mN d) true ≤ oStride, 43),
    (!mOutComp d || !mInner d || fwFmt (mFmtOut d) == .fp32, 43),
    (!(mMode d == 2) || !cinIsOut d || !mEpi d || mCinComp d == mOutComp d, 43) ]

/-- Conditions of R159 and R160 on a CONV. -/
def convConds (n d : Nat) : List Cond :=
  let fa := mFmtA d
  let w := isWino d
  let pool := isPool d
  let pixels := mEpi d || !mKeep d
  [ (1 ≤ cInH d, 192), (1 ≤ cInW d, 194), (1 ≤ cCin d, 196), (1 ≤ cKH d && cKH d ≤ 31, 198), (1 ≤ cKW d && cKW d ≤ 31, 199),
    (1 ≤ cSY d && cSY d ≤ 16, 200), (1 ≤ cSX d && cSX d ≤ 16, 201), (1 ≤ cDY d, 202), (1 ≤ cDX d, 203),
    (1 ≤ cOH d, 208), (1 ≤ cOW d, 210), (cKind d < 3, 212), (bits d 1698 2 < 2, 212), (cWino d < 3, 212),
    (!cConst d || fpFinite (cPadVal d), 216),
    (cInXs d % 16 == 0, 220), (!(pixels || mMode d == 2) || cOutXs d % 16 == 0, 224),
    (mM d == cOH d * cOW d, 24),
    (pool || mK d == (if w then cCP d else cKH d * cKW d * cCP d), 32),
    (rowBytes fa (cCin d) (mAComp d) ≤ cInXs d, 220), (cInW d * cInXs d ≤ mARs d, 112),
    (!pixels || (if mEpi d then rowBytes (mFmtOut d) (mN d) (mOutComp d) else 4 * mN d) ≤ cOutXs d, 224),
    (!mEpi d || cOW d * cOutXs d ≤ mOutRs d, 120),
    (!cConst d || !(isInt d) , 212),
    (!cConst d || pool || w || cKH d * cKW d ≤ 64, 212),
    (!w || (cKind d == 0 && cKH d == 3 && cKW d == 3 && cSY d == 1 && cSX d == 1 && cDY d == 1 && cDX d == 1
      && (fwFmt fa == .bf16 || fwFmt fa == .fp16) && !mOutputInner d && mSplit d == 1 && mAccMode d == 0 && !mKeep d), 212),
    (!w || (m64 (cWs d) && (areaWs d).inStore n && !(areaWs d).crossesAny (matSources d ++ matOuts d)), 233),
    (!pool || (mN d == cCin d && mSplit d == 1 && mAccMode d == 0 && !mKeep d && mBiasMode d == 0), 212) ]

/-- Conditions of R120 on a COMBINE. -/
def combConds (d : Nat) : List Cond :=
  [ ((⟨0, [(mABs d, mBatch d), (mARs d, mM d)], 4 * mN d⟩ : Grid).ext.2 + (if isInt d then maskSize d else 0) ≤ mPart d, 188) ]

/-! ## VECTOR (R105, R173) -/

/-- A source or output area of a VECTOR descriptor: in the core store on 64-byte bounds, or FP32 in the accumulators. -/
def vecPlace (n fw base rs : Nat) (x : Grid) : Bool :=
  (x.inStore n && m64 base && m64 rs) || (inCoreAcc n x.ext && fwFmt fw == .fp32 && base % 4 == 0 && rs % 4 == 0)

/-- Rows of a VECTOR operand: under BCAST = 1 one row, whose stride is not read (R105, R558). -/
def vRowsOf (d bc rs : Nat) : List (Nat × Nat) := if bc = 1 then [] else [(rs, vRows d)]

/-- Elements of X, Y, Z and the output. -/
def areaVX (d : Nat) : Grid := ⟨vX d, [(vXRs d, vRows d)], packedLen (vFmtX d) (vCols d)⟩
def areaVY (d : Nat) : Grid := ⟨vY d, vRowsOf d (vYB d) (vYRs d), packedLen (vFmtY d) (if vYB d = 2 then 1 else vCols d)⟩
def areaVZ (d : Nat) : Grid := ⟨vZ d, vRowsOf d (vZB d) (vZRs d), packedLen (vFmtZ d) (if vZB d = 2 then 1 else vCols d)⟩
def areaVOut (d : Nat) : Grid := ⟨vOut d, [(vOutRs d, vRows d)], packedLen (vFmtOut d) (vOutCols d)⟩
/-- Scales of X and of the output. -/
def areaVXS (d : Nat) : Grid := ⟨vXScale d, [], vRows d * scaleBytes (vFmtX d) (vCols d) false⟩
def areaVOutS (d : Nat) : Grid := ⟨vOutScale d, [], vRows d * scaleBytes (vFmtOut d) (vOutCols d) false⟩

/-- The overlap with one source is one R105 permits. -/
def inPlace (d fw base rs bc : Nat) : Bool :=
  vopElem (vOp d) && bc == 0 && base == vOut d && rs == vOutRs d && (fwFmt fw).width == (fwFmt (vFmtOut d)).width

/-- Conditions of R105 and R173. -/
def vecConds (n d : Nat) : List Cond :=
  let o := areaVOut d
  let v := vOp d
  [ (vopKnown v, 16), (fwOkOperand (vFmtX d), 17), (!vReadsY d || (fwOkOperand (vFmtY d) && fwBlk (vFmtY d) == 0), 19),
    (!vReadsZ d || (fwOkOperand (vFmtZ d) && fwBlk (vFmtZ d) == 0), 21), (fwOkResult (vFmtOut d), 23),
    (1 ≤ vRows d, 25), (1 ≤ vCols d, 28),
    (!((vopY v && vYB d == 3) || (vopZ v && vZB d == 3) || v == 0x40 || v == 0x41) || fpFinite (vImm d), 32),
    (!fwTs (vFmtX d) || tscaleOk (vXT d), 88), (!fwTs (vFmtOut d) || tscaleOk (vOutT d), 92),
    (!vopRed v || fwBlk (vFmtOut d) == 0, 23),
    (vecPlace n (vFmtX d) (vX d) (vXRs d) (areaVX d), 36),
    (!vReadsY d || vecPlace n (vFmtY d) (vY d) (if vYB d = 1 then 0 else vYRs d) (areaVY d), 42),
    (!vReadsZ d || vecPlace n (vFmtZ d) (vZ d) (if vZB d = 1 then 0 else vZRs d) (areaVZ d), 48),
    (vecPlace n (vFmtOut d) (vOut d) (vOutRs d) o, 54),
    (fwBlk (vFmtX d) == 0 || ((areaVXS d).inStore n && m64 (vXScale d)), 76),
    (fwBlk (vFmtOut d) == 0 || ((areaVOutS d).inStore n && m64 (vOutScale d)), 82),
    (!o.crosses (areaVX d) || inPlace d (vFmtX d) (vX d) (vXRs d) 0, 54),
    (!(vReadsY d && o.crosses (areaVY d)) || inPlace d (vFmtY d) (vY d) (vYRs d) (vYB d), 54),
    (!(vReadsZ d && o.crosses (areaVZ d)) || inPlace d (vFmtZ d) (vZ d) (vZRs d) (vZB d), 54),
    (!o.crosses (areaVXS d) && !(areaVOutS d).crosses (areaVX d), 82),
    (!(areaVOutS d).crosses (areaVXS d) || (inPlace d (vFmtX d) (vX d) (vXRs d) 0 && vXScale d == vOutScale d && vFmtX d % 128 == vFmtOut d % 128), 82),
    (!(vReadsY d && (areaVOutS d).crosses (areaVY d)) && !(vReadsZ d && (areaVOutS d).crosses (areaVZ d)), 82),
    (v != 0x40 || (vCols d == 4 && (vYB d == 0 || vYB d == 1) && fwFmt (vFmtY d) == .fp32 && fwBlk (vFmtOut d) == 0), 16),
    (v != 0x41 || (vCols d == 4 && vRows d ≤ 8192 && vYB d == 2 && fwFmt (vFmtOut d) == .fp32 && !vGrad d
      && !(fp32 (vImm d)).lt (.zero false) && !(XR.ofInt 1).lt (fp32 (vImm d))), 16) ]

/-! ## ATTENTION (R175, R186) -/

/-- A word is a plain format of no block and no per-tensor scale. -/
def plainFmt (fw c : Nat) : Bool := fwCode fw == c && fwOkOperand fw && !fwTs fw

/-- FP8 E4M3 or E5M2 with a block size among those listed. -/
def fp8Fmt (fw : Nat) (codes blocks : List Nat) : Bool :=
  codes.contains (fwCode fw) && blocks.contains (fwBlock fw) && fwOkOperand fw && !fwTs fw

/-- The formats of R175. -/
def attnFmts (d : Nat) : List Cond :=
  let bf := plainFmt (aFmtLat d) 1
  let l8 := fp8Fmt (aFmtLat d) [3] [2]
  let back := aDir d != 0
  [ (bf || (l8 && !back), 19),
    (if back then plainFmt (aFmtQ d) 1
     else if aAbs d && l8 then fp8Fmt (aFmtQ d) [3, 4] [1, 2] else plainFmt (aFmtQ d) 1, 17),
    (aAbs d || (if l8 && !back then fp8Fmt (aFmtW d) [3, 4] [2] else plainFmt (aFmtW d) 1), 21),
    ((fwCode (aFmtOut d) == 0 || fwCode (aFmtOut d) == 1) && fwOkResult (aFmtOut d) && !fwTs (aFmtOut d), 23),
    (!back || plainFmt (aFmtDo d) 1, 25) ]

/-- An array with batch, head and row strides. -/
def bhrGrid (d base bs hs rs nr len : Nat) : Grid := ⟨base, [(bs, aBatch d), (hs, aHeads d), (rs, nr)], len⟩

/-- What an ATTENTION reads in its core store. -/
def attnSources (d : Nat) : List Grid :=
  let rows := aBatch d * aHeads d * aQRows d
  let back := aDir d != 0
  let proj (n : Nat) : Nat :=
    let e := aHeads d * n * packedLen (aFmtW d) (aDL d)
    if fwBlk (aFmtW d) = 0 then e else roundUp e 64 + aHeads d * n * (aDL d / fwBlk (aFmtW d))
  [bhrGrid d (aQ d) (aQBs d) (aQHs d) (aQRs d) (aQRows d) (packedLen (aFmtQ d) (aQW d)), ⟨aSlot d, [], 64 * aBatch d⟩]
    ++ (if aRope d then [⟨aQR d, [], 128 * rows⟩] else [])
    ++ (if back then [⟨aDo d, [], 2 * aVW d * rows⟩, ⟨aLse d, [], 4 * rows⟩, ⟨aD d, [], 4 * rows⟩] else [])
    ++ (if aAbs d then [] else [⟨aWuk d, [], proj (aDHN d)⟩, ⟨aWuv d, [], proj (aDV d)⟩])
    ++ (if fwBlk (aFmtQ d) = 0 then [] else [⟨aQScale d, [], rows * scaleBytes (aFmtQ d) (aQW d) false⟩])

/-- What it writes. -/
def attnDests (d : Nat) : List Grid :=
  let w := (fwFmt (aFmtOut d)).width / 8
  let rows := aBatch d * aHeads d * aQRows d
  match aDir d with
  | 0 => [bhrGrid d (aOut d) (aOutBs d) (aOutHs d) (aOutRs d) (aQRows d) (aVW d * w), ⟨aLse d, [], 4 * rows⟩]
  | 1 => [bhrGrid d (aOut d) (aOutBs d) (aOutHs d) (aOutRs d) (aQRows d) ((aQW d + aDR d) * w)]
  | _ => [bhrGrid d (aOut d) (aOutBs d) (aOutHs d) (aOutRs d) (aKRows d) ((aQW d + aDR d) * w),
          bhrGrid d (aOut2 d) (aOutBs d) (aOutHs d) (aOutRs d) (aKRows d) (aVW d * w)]

/-- Its workspace (R186). -/
def attnWs (d : Nat) : Grid := ⟨aWs d, [], 128 * aRB d + 512 * (if aAbs d then aDL d else aQW d + aDR d + aVW d)⟩

/-- Conditions of R186. -/
def attnConds (n d : Nat) : List Cond :=
  let back := aDir d != 0
  let rest : List Cond :=
  [ (aDir d < 3, 16), (aGrad d == back, 16), (1 ≤ aHeads d && aHeads d ≤ 128, 27), (1 ≤ bits d 224 5 && bits d 224 5 ≤ 16, 28),
    (aGCount d ≤ 64, 29), (1 ≤ aBatch d && aBatch d ≤ 16, 30), (aRing d != 1, 31), (1 ≤ aQRows d, 32),
    (tscaleOk (aScale d), 40), (aDir d != 2 || 1 ≤ aKRows d, 171),
    ((attnSources d).all (fun x => x.inStore n && m64 x.base), 52), ((attnDests d).all (fun x => x.inStore n && m64 x.base), 64),
    ((attnWs d).inStore n && m64 (aWs d), 112), (m64 (aQRs d), 124), (m64 (aOutRs d) && (aBatch d ≤ 1 || aOutBs d != 0), 137),
    (!((attnDests d).any (fun x => x.crossesAny (attnWs d :: attnSources d))), 64),
    (match attnDests d with | [x, y] => !x.crosses y | _ => true, 70),
    (aRing d == 0 || (aCausal d && aWindow d != 0 && !aGQ d), 31),
    (aRing d == 0 || ceilDiv (aWindow d + aQRows d - 1) 256 + 1 ≤ aRing d, 31),
    (fwBlk (aFmtQ d) == 0 || aQW d % fwBlk (aFmtQ d) == 0, 17) ]
  attnFmts d ++ rest

/-! ## MOVE (R226, R487) -/

/-- Destination area of a MOVE. -/
def moveDest (d : Nat) : Grid :=
  if mvKind d = 3 then ⟨gDst d, [(gRs d, gRows d)], gCols d * (fwFmt (gFmt d)).width / 8⟩
  else if (moveXfer d).writes then .flat ((moveXfer d).dst, (moveXfer d).dstExt) else .flat (0, 0)

/-- Conditions of R226 and R487; backing is not asked of a core that does not run (R129). -/
def Dev.moveConds (dev : Dev) (n d : Nat) (syms : List Sym) (runs : Bool) : List Cond :=
  if mvKind d = 3 then
    let f := gFmt d
    let k := gKind d
    [ (k < 4, 16), (fwOkResult f && fwBlk f == 0 && (k != 0 || fwFmt f == .fp32), 20), (1 ≤ gRows d, 22), (1 ≤ gCols d, 25),
      (m64 (gDst d) && m64 (gRs d), 28), ((moveDest d).inStore n && (!runs || dev.pow.live (coreDom n)), 28),
      (!(k == 1 || k == 2) || fpFinite (gP0 d), 55), (k == 0 || fpFinite (gP1 d), 59),
      (!syms.any (fun s => s.num == gSym d && s.cls == 3), 36) ]
  else
    let x := moveXfer d
    [ (mvKind d < 6, 16), (!x.badDesc, 36), (!x.badAlign, 28), (!runs || (dev.xferUnbacked x).isNone, 20),
      (!bit d 132 || (bits d 135 6 < 48 && !bit dev.plat.retired (12 * bits d 133 2 + bits d 135 6 / 4)), 16) ]

/-! ## All descriptors -/

/-- Size in bytes of a descriptor by opcode; 0 for a reserved one (R95). -/
def descSize (op : Nat) : Nat :=
  match op with
  | 0 => 64 | 1 => 192 | 2 => 128 | 3 => 256 | 4 => 256 | 5 => 192 | 6 => 64 | 7 => 64 | 8 => 64
  | _ => 0

/-- Areas a descriptor writes (R456). -/
def descDests (d : Nat) : List Grid :=
  match dOp d with
  | 1 => matDests d
  | 2 => [areaVOut d, areaVOutS d]
  | 3 => matDests d
  | 4 => attnDests d
  | 5 => matDests d
  | 7 => [moveDest d]
  | _ => []

/-- Areas that a descriptor of a core reads or writes (R131). -/
def descAreas (d : Nat) : List Area :=
  match dOp d with
  | 1 => (matReads d ++ areaCin d ++ matDests d).map (·.ext)
  | 2 => ([areaVX d, areaVXS d, areaVOut d, areaVOutS d] ++ (if vReadsY d then [areaVY d] else [])
      ++ (if vReadsZ d then [areaVZ d] else [])).map (·.ext)
  | 3 => (matReads d ++ areaCin d ++ matDests d).map (·.ext)
  | 4 => (attnWs d :: attnSources d ++ attnDests d).map (·.ext)
  | 5 => (matReads d ++ areaCin d ++ matDests d).map (·.ext)
  | 7 => if mvKind d = 3 then [(moveDest d).ext] else
      let x := moveXfer d
      (if x.reads then [(x.src, x.srcExt)] else []) ++ (if x.writes then [(x.dst, x.dstExt)] else [])
  | _ => []

/-- Conditions of one descriptor for core `n`, but for those of its tile loop. Its arrays lie in the core's own store and accumulator
memory, which are backed while the core's domain is not OFF; a core that does not run asks nothing (R129 to R131). -/
def Dev.descConds (dev : Dev) (n d : Nat) (syms : List Sym) (runs : Bool) : List Cond :=
  (bits d 8 2 == 0 || dOp d == 1 || dOp d == 3 || dOp d == 5, 1) ::
  (match dOp d with
   | 1 => matConds n d ++ compConds d ++ [(!runs || dev.pow.live (coreDom n), 48)]
   | 2 => vecConds n d ++ [(!runs || dev.pow.live (coreDom n), 36)]
   | 3 => matConds n d ++ compConds d ++ convConds n d ++ [(!runs || dev.pow.live (coreDom n), 48)]
   | 4 => attnConds n d ++ [(!runs || dev.pow.live (coreDom n), 52)]
   | 5 => matConds n d ++ compConds d ++ combConds d ++ [(!runs || dev.pow.live (coreDom n), 48)]
   | 7 => dev.moveConds n d syms runs
   | 0 => []
   | 6 => []
   | 8 => []
   | _ => [(false, 0)])

/-! ## Symbols (R456) -/

/-- Elements of a symbol. -/
def Sym.count (s : Sym) : Nat := s.dims.foldl (· * ·) 1
/-- Rows of its innermost dimension. -/
def Sym.rows (s : Sym) : Nat := (s.dims.drop 1).foldl (· * ·) 1
/-- Innermost length. -/
def Sym.inner (s : Sym) : Nat := s.dims.getD 0 1
/-- Bytes of the element array. -/
def Sym.elemBytes (s : Sym) : Nat := s.rows * rowBytes s.fmt s.inner s.comp
/-- Offset of the scale array from ADDRESS. -/
def Sym.scaleOff (s : Sym) : Nat := roundUp (s.addr + s.elemBytes) 64 - s.addr
/-- Bytes of a symbol's storage in one copy. -/
def Sym.bytes (s : Sym) : Nat :=
  if fwBlk s.fmt = 0 then s.elemBytes else s.scaleOff + s.rows * scaleBytes s.fmt s.inner s.comp
/-- Pods of its copies. -/
def Sym.podList (s : Sym) : List Nat := [0, 1, 2, 3].filter (fun p => bit s.pods p)
/-- The same offset in another pod's window (R456): from pod `p` to pod `q`. -/
def podShift (a p q : Nat) : Nat :=
  let unit := if a < cobGddr then 0x1000000000
    else if a < podStore 4 then 0x10000000
    else if a < coreStore 192 then 48 * 0x400000
    else 192 * 0x40000
  a + q * unit - p * unit
/-- Address of the copy in pod `q`. -/
def Sym.at_ (s : Sym) (q : Nat) : Nat := podShift s.addr (s.podList.headD 0) q
/-- Storage of every copy. -/
def Sym.areas (s : Sym) : List Area :=
  if s.pods = 0 then [(s.addr, s.bytes)] else s.podList.map (fun q => (s.at_ q, s.bytes))

/-- The destinations of a descriptor reach the storage of a CERTAIN symbol (R456). -/
def hitsCertain (syms : List Sym) (d : Nat) : Bool :=
  (descDests d).any (fun x => syms.any (fun s => s.certain && x.reaches s.areas))

/-- A patched copy passes the checks of load and leaves CERTAIN symbols alone (R109, R456). -/
def Dev.copyOk (dev : Dev) (n d : Nat) (syms : List Sym) : Bool :=
  (dev.descConds n d syms true).all (·.1) && !hitsCertain syms d

end Sys2Proof.Machine
end

