-- ==== Sys2Proof/Machine/Power.lean ====
section
/-! DEFINITION. The meanings of the power commands and of the events of domains, sensors, rails, the brake, the energy
budget and ageing (spec file 15; R549 of 21). -/

namespace Sys2Proof.Machine

/-- An event: its effect where it can take place, and nothing otherwise (log entry 4). -/
def event (s : State) (can : Bool) (d : Dev) : Res := if can then nextDev s d else .next s

/-- An event of the device's work; after FATAL_PARITY no work goes on (R143). -/
def workEvent (s : State) (can : Bool) (d : Dev) : Res := event s (!s.dev.pow.dead && can) d

/-! ## Commands 0x0801 to 0x0805 -/

/-- A domain ID that a power command may name (R387, R129). -/
def Dev.domIdBad (d : Dev) (id : Nat) : Bool := 84 < id || d.plat.retiredDom id

/-- A plan is loaded or a live stream is open: the port that loaded or opened it (R387). -/
def Dev.workPort (d : Dev) : Option Nat :=
  match d.planUsed.head? with
  | some h => some (Tab.get {} d.plans h).port
  | none => (d.cad.streams.find? (fun e => e.2.opened)).map (fun e => e.2.port)

/-- The port holds a semaphore, has a command in progress, or supplies PTP time (R387). -/
def Dev.portBusy (d : Dev) (p : Nat) : Bool :=
  d.host.sems.any (fun e => e.2 == p + 1) || d.host.inProg.any (fun c => c.port == p)
    || (bits d.cad.cfg 51 2 == 2 && bits d.cad.cfg 53 1 == p)

/-- The refusals of a host OFF request with RESOURCE_BUSY (R382, R387, R467). -/
def Dev.offRefusal (d : Dev) (id : Nat) : Option (Nat × Nat × List Nat) :=
  let work := id < 57 || (57 ≤ id && id ≤ 63)
  let owned (ids : List Nat) : Option (Nat × Nat × List Nat) :=
    (ids.find? (fun x => d.host.own x != 0)).map (fun x => (stBusy, ownDetail (d.host.own x) x, []))
  match (if work then d.workPort else none) with
  | some p => some (stBusy, portDetail p, [])
  | none =>
    let r :=
      if id < 56 ∧ id % 14 = 12 then owned ((List.range 16).map (fun i => 0x40 + 16 * (id / 14) + i))
      else if id = 84 then owned ((List.range 32).map (fun i => 0x80 + i))
      else if id = 64 ∨ id = 65 then (if d.portBusy (id - 64) then some (stBusy, 0, []) else none)
      else if 66 ≤ id ∧ id ≤ 73 then
        if d.host.own (0xA0 + (id - 66)) = 0 then none else some (stBusy, portDetail (d.host.own (0xA0 + (id - 66)) - 1), [])
      else if id = 82 then owned [0x20, 0x21, 0x22, 0x23]
      else if id = 83 then
        if d.obs.bufs.any (fun e => e.2.armed) then owned [0x18, 0x19, 0x1A, 0x1B] else none
      else none
    match r with
    | some x => some x
    | none => ((dependants id).find? (fun x => (d.pow.dom x).st != 0 || (d.pow.dom x).wantUp)).map (fun x => (stBusy, x, []))

/-- DOMAIN_ON: R382, R385; a host ON request sets HOLD_ON on an automatic domain (R388). -/
def execDomainOn (q id : Nat) (s : State) : Res :=
  startCmd s q 0x0801 [8] [id]
    (fun d => { param := if d.domIdBad id then some 0 else none })
    (fun d c => ({ d with pow := d.pow.upd id (fun x => { x with hold := if isAuto id then 1 else 0 }) }).reqOn id c.id)

/-- DOMAIN_OFF: R385, R387; a host OFF request sets HOLD_OFF on an automatic domain (R388). -/
def execDomainOff (q id : Nat) (s : State) : Res :=
  startCmd s q 0x0802 [8] [id]
    (fun d => { param := if d.domIdBad id || ((id == 64 || id == 65) && q / 8 == id - 64) then some 0 else none,
                own := d.offRefusal id })
    (fun d c => ({ d with pow := d.pow.upd id (fun x => { x with hold := if isAuto id then 2 else 0 }) }).reqOff id c.id)

/-- The automatic domain holds work (R388). -/
def Dev.domBusy (d : Dev) (id : Nat) : Bool :=
  if id ≤ 60 then d.cob.active || Tab.get none d.cob.units (id - 57) != none
  else if id ≤ 80 then d.ing.jobs.any (fun j => j.engine == some (id - 66))
  else if id = 81 then d.ing.media != [] || d.ing.samples.any (fun x => !x.filled)
  else if id = 82 then d.enc.sess.any (fun e => e.2.opened)
  else d.obs.bufs.any (fun e => e.2.armed || e.2.upCmd != 0)

/-- DOMAIN_AUTO clears both holds; a domain that holds work is asked for again (R388). -/
def execDomainAuto (q id : Nat) (s : State) : Res :=
  startCmd s q 0x0803 [8] [id]
    (fun d => { param := if isAuto id && !d.domIdBad id then none else some 0 })
    (doneAt (fun d =>
      let d := { d with pow := d.pow.upd id (fun x => { x with hold := 0 }) }
      if d.domBusy id then d.demand id else d))

/-- A budget record breaks a range (R392). -/
def budgetBad (r : Nat) : Bool :=
  let sust := bits r 32 12
  let peak := bits r 44 12
  let f := bits r 88 11
  !(200 ≤ sust && sust ≤ 2150 && sust ≤ peak && peak ≤ 2500 && bits r 56 4 ≤ 7 && 400 ≤ f && f ≤ 1250 && f % 25 == 0)

/-- SET_ENERGY_BUDGET (R392): the record takes effect at the next beat start; POWER_LIMITED where BEAT_ENERGY cannot
hold the live reserves. -/
def execSetEnergyBudget (q record : Nat) (s : State) : Res :=
  startCmd s q 0x0804 [128] [record]
    (fun d =>
      { param := if budgetBad record then some 0 else none,
        own := if 0 < bits record 0 32 && (Q.ofInt ((bits record 0 32 : Int) * 10 ^ 5)).lt d.reserves
          then some (stPowerLimited, 0, []) else none })
    (doneAt (fun d => { d with pow := { d.pow with budgetPend := some record } }))

/-! ### The ageing report (R406 to R410) -/

/-- The highest clock's nominal voltage plus guard-band leaves this margin in mV (R409). -/
def Dev.margin (d : Dev) (id : Nat) : Int :=
  let top : Int := if isCluster id then ((d.plat.opTable.getD 7 (810, 350)).1 : Nat) else (750 : Nat)
  850 - top - (d.pow.dom id).gb

/-- The ageing index at which the margin reaches 0 (R408, R410). -/
def Dev.zeroIndex (d : Dev) (id : Nat) : Nat :=
  let room : Int := d.margin id + (d.pow.dom id).gb - 15
  if room ≤ 0 then 0 else ((room.toNat - 1) * 65536) / 600 + 1

/-- PROJ_DAYS (R410): least-squares line of AI against device time over the last 8 readings. -/
def Dev.projDays (d : Dev) (id : Nat) : Nat :=
  let x := d.pow.dom id
  let n : Int := x.readings.length
  let st : Int := (x.readings.map (fun r => (r.1 : Int))).sum
  let sa : Int := (x.readings.map (fun r => (r.2 : Int))).sum
  let sta : Int := (x.readings.map (fun r => (r.1 : Int) * r.2)).sum
  let stt : Int := (x.readings.map (fun r => (r.1 : Int) * r.1)).sum
  let num := n * sta - st * sa
  let den := n * stt - st * st
  if d.margin id ≤ 0 then 0
  else if x.readings.length < 2 ∨ num ≤ 0 ∨ den ≤ 0 then 0xFFFF
  else
    let left : Int := (d.zeroIndex id : Int) - x.ai
    min 0xFFFE (left * den / (num * 86400000000000)).toNat

/-- One entry of the report (R410). -/
def Dev.ageEntry (d : Dev) (id : Nat) : Nat :=
  let x := d.pow.dom id
  packBits [(16, x.ai), (8, x.gb), (8, ofInt 8 (d.margin id)), (11, d.fMax id), (5, 0), (16, d.projDays id),
            (48, x.lastBeat), (16, x.nReads)]

/-- The domain with the fewest projected days, the lowest number first. -/
def Dev.worstDomain (d : Dev) : Nat :=
  (List.range 86).foldl (fun w id => if d.projDays id < d.projDays w then id else w) 0

/-- The 1,440 bytes of the ageing report (R410). -/
def Dev.ageReport (d : Dev) : List Byte :=
  leBytes 64 (packBits [(64, d.plat.now), (32, 65536), (8, d.worstDomain), (16, d.projDays d.worstDomain)])
    ++ ((List.range 86).map (fun id => leBytes 16 (d.ageEntry id))).flatten

/-- AGEING_REPORT writes the report at DEST (R410); an unwritable byte fails it with BAD_PARAM. -/
def execAgeingReport (q dest : Nat) (s : State) : Res :=
  startCmd s q 0x0805 [64] [dest]
    (fun d => { param := if (d.unwritable (dest % 2 ^ 48) 1440).isSome then some 0 else none })
    (doneAt (fun d => d.store (dest % 2 ^ 48) d.ageReport))

/-! ## Domain events -/

/-- An address lies in the host window of a port. -/
def inHost (p a : Nat) : Bool := hostBase p ≤ a && a < hostBase p + hostSize

/-- The MOVE in a DMA unit transfers through port `p`; a GENERATE writes a core store (R224). -/
def moveVia (p x : Nat) : Bool :=
  let t := moveXfer x
  mvKind x != 3 && ((t.reads && inHost p t.src) || (t.writes && inHost p t.dst))

/-- A transfer through port `p` is in flight: a MOVE that runs, one whose arrival is due, or a shard's write-back (R148, R258, R384). -/
def Dev.inFlight (d : Dev) (p : Nat) : Bool :=
  d.cores.any (fun e => match e.2.ctx with
    | some c => c.arrivals.any (fun a => a.2.2.2 == p + 1) || (match Tab.get none c.ops 5 with | some o => moveVia p o.desc | none => false)
    | none => false)
  || d.cob.blks.any (fun b => b.writing && inHost p b.addr)

/-- The work in progress of a draining domain has ended (R384). A Huller engine's job stops at a unit boundary; a burst of a mover channel
is in flight within one event only. -/
def Dev.drained (d : Dev) (id : Nat) : Bool :=
  if 57 ≤ id && id ≤ 60 then Tab.get none d.cob.units (id - 57) == none
  else if id = 82 then d.enc.cur == none
  else if id = 64 || id = 65 then !d.inFlight (id - 64)
  else true

/-- The busy time of a block since the window began (R324). -/
def Ing.addBusy (g : Ing) (block since now : Nat) : Ing := { g with busy := Tab.upd 0 g.busy block (· + (now - max since g.winStart)) }

/-- The job of a Huller engine returns to the head of its queue (R280, R384). -/
def Ing.unload (g : Ing) (block now : Nat) : Ing :=
  let g := match g.jobs.find? (fun j => j.engine == some block) with | some j => g.addBusy block j.started now | none => g
  { g with jobs := g.jobs.map (fun j =>
      if j.engine = some block then { j with engine := none, paused := true, ran := j.ran + (now - j.started), lastEngine := block } else j) }

/-- DOMAIN_DRAINED: DRAINING ends and WIPING begins (R383, R384). A link port's link is down from here on. -/
def execDomainDrained (domain : Nat) (s : State) : Res :=
  let d := s.dev
  event s ((d.pow.dom domain).st == 3 && d.drained domain)
    ({ (if 57 ≤ domain ∧ domain ≤ 60 then d.noteStop (domain - 57) else d) with
             pow := d.pow.upd domain (fun x => { x with st := 4, since := d.plat.now }),
             host := if domain = 64 ∨ domain = 65 then d.host.updPort (domain - 64) (fun p => p.goDown d.plat.now) else d.host,
             ing := if 66 ≤ domain ∧ domain ≤ 80 then d.ing.unload (domain - 66) d.plat.now else d.ing }.traceDoms d.pow)

/-- WIPE_DONE: every byte of the domain's storage holds the wiped state (R140, R386). -/
def execWipeDone (domain : Nat) (s : State) : Res :=
  let d := s.dev
  event s ((d.pow.dom domain).st == 4 && !(d.pow.dom domain).stopped && (d.pow.dom domain).since + wipeTime d.plat d.pow domain ≤ d.plat.now)
    ({ d.wipeDomain domain with pow := d.pow.upd domain (fun x => { x with st := 5, since := d.plat.now }) }.traceDoms d.pow)

/-- POWER_DOWN_DONE: the domain is OFF for at least 10 us; its OFF requests reply DONE and a pending ON request begins to
act (R383, R385). -/
def execPowerDownDone (domain : Nat) (s : State) : Res :=
  let d := s.dev
  let x := d.pow.dom domain
  let w := d.pow.upd domain (fun x =>
    { x with st := 0, dwell := true, since := d.plat.now, offCmds := [], freq := 0, pendOn := false, pendCmds := [],
             wantUp := x.pendOn, onCmds := if x.pendOn then x.pendCmds else [] })
  let d1 := ({ d with pow := w }.traceDoms d.pow).finishAll x.offCmds stDone
  let d2 := match parentOf domain with
    | some p => if x.pendOn && !w.on p then d1.reqOn1 p 0 else d1
    | none => d1
  event s (x.st == 5 && x.since + 10000 ≤ d.plat.now) d2

/-- OFF_DWELL_END: the 10 us in OFF are over (R383). -/
def execOffDwellEnd (domain : Nat) (s : State) : Res :=
  let d := s.dev
  let x := d.pow.dom domain
  event s (x.st == 0 && x.dwell && x.since + 10000 ≤ d.plat.now)
    ({ d with pow := (d.pow.upd domain (fun x => { x with dwell := false })).tryUp d.plat.now domain }.traceDoms d.pow)

/-- DOMAIN_POWERED_UP: the domain is ON with wiped storage; its ON requests reply DONE, dependants that wait start, and a
pending OFF request starts DRAINING (R381 to R385). -/
def execDomainPoweredUp (domain : Nat) (s : State) : Res :=
  let d := s.dev
  let x := d.pow.dom domain
  let now := d.plat.now
  let w := d.pow.upd domain (fun x =>
    { x with st := if x.pendOff then 3 else 2, since := now, idleAt := now, onCmds := [], pendOff := false, pendCmds := [],
             offCmds := if x.pendOff then x.pendCmds else [] })
  let w := (dependants domain).foldl (fun w id => w.tryUp now id) w
  let d1 := ({ d.wipeDomain domain with pow := w }.traceDoms d.pow).finishAll x.onCmds stDone
  event s (x.st == 1 && x.since + upTime domain ≤ now) (d1.traceUp domain).reclock

/-- IDLE_OFF_EXPIRY: an automatic domain without work for IDLE_OFF us turns off unless HOLD_ON stands (R388); a start, which
tests and wipes every domain, counts as work (log entry 11). -/
def execIdleOffExpiry (domain : Nat) (s : State) : Res :=
  let d := s.dev
  let x := d.pow.dom domain
  let t := bits d.pow.budget 64 24
  event s (d.plat.phase == .ready && isAuto domain && x.st == 2 && x.hold != 1 && t != 0 && !d.domBusy domain && x.idleAt + 1000 * t ≤ d.plat.now)
    (d.reqOff domain 0)

/-! ## Heat (R398 to R402) -/

/-- A sensor reading of one domain: temperature, ceiling, and stop or restart (R399, R400). An update unit inside a pass
stops when the pass ends. -/
def Dev.senseDom (d : Dev) (id : Nat) (t : Int) : Dev :=
  let x := d.pow.dom id
  let c := thermCeiling t
  let inPass := 57 ≤ id && id ≤ 60 && Tab.get none d.cob.units (id - 57) != none
  let hot := decide (1680 < t) && x.st != 0
  let stop := hot && !inPass && !x.stopped
  let stays := x.stopped && decide (1664 < t)
  let ctr := if c < 1250 then bump d.ctr cobInst 0x64 1 else d.ctr
  let ctr := if stop then bump ctr cobInst 0x65 1 else ctr
  { (if stop && 57 ≤ id && id ≤ 60 then d.noteStop (id - 57) else d) with
           pow := d.pow.upd id (fun x => { x with temp := t, ceiling := c, stopped := stop || stays }),
           cob := if inPass then { d.cob with unitStop := Tab.set false d.cob.unitStop (id - 57) hot } else d.cob,
           ctr := ctr }

/-- Some domain's clocks are stopped by heat. -/
def Pow.anyStopped (w : Pow) : Bool := w.trip || w.doms.any (fun e => e.2.stopped)

/-- THERMAL_TRIP (R401). -/
def Dev.thermTrip (d : Dev) : Dev :=
  { d with pow := { d.pow with trip := true },
           plat := { d.plat with faultCode := 2, faultTime := d.plat.now, smbAlertLow := true }, host := d.host.irqPorts }

/-- The THERM_ALERT_N output after a reading (R402). -/
def Dev.thermAlert (d : Dev) (temps : List Int) : Dev :=
  let lim : Int := 16 * (d.plat.alertTemp : Int)
  let low :=
    if temps.any (fun t => lim ≤ t) || d.pow.anyStopped then true
    else if temps.all (fun t => t ≤ lim - 48) then false
    else d.plat.thermAlertLow
  { d with plat := { d.plat with thermAlertLow := low } }

/-- SENSOR_READING: the junction sensors of domains 0 to 84 and the Cob base, in 1/16 degree (R398 to R402). -/
def execSensorReading (temps : List Int) (s : State) : Res :=
  let d := (temps.zipIdx).foldl (fun d (t, id) => d.senseDom id t) s.dev
  let d := if temps.any (fun t => 1760 ≤ t) && !d.pow.trip then d.thermTrip else d
  event s (temps.length == 86) (d.thermAlert temps).reclock

/-! ## Rails (R391, R393, R397, R547, R549) -/

/-- Most current of each reading's rail in 100 mA (R544). -/
def railMost : List Nat := [6500, 6500, 6500, 6500, 3600, 1700, 400, 200, 30]

/-- Rail group of a reading: groups 0 to 4, then the four rails of group 5. -/
def readGroup (i : Nat) : Nat := min i 5

/-- Energy of a reading over 100 us in 10 nJ; a rail whose bus has failed counts at its most current times 850 mV (R549). -/
def Pow.readEnergy (w : Pow) (i mV cur : Nat) : Nat :=
  if i < 5 && (w.rail i).failed then railMost.getD i 0 * 850 else mV * cur

/-- RAIL_SAMPLE: voltage in mV and current in 100 mA of groups 0 to 4 and of the four rails of group 5, and the energy of the
pods' domains but for the clusters in 10 nJ (R393, R394). -/
def execRailSample (readings : List (Nat × Nat)) (podFixed : Nat) (s : State) : Res :=
  let d := s.dev
  let es := readings.zipIdx.map (fun ((v, c), i) => (readGroup i, d.pow.readEnergy i v c))
  let total := (es.map Prod.snd).sum
  let fixed := (es.map (fun e => if e.1 < 4 then 0 else e.2)).sum + podFixed
  let w := (readings.zipIdx).foldl (fun w ((v, c), i) =>
    if i ≤ 5 then w.updRail i (fun r => { r with mV := v, cur := c, curMax := max r.curMax c }) else w) d.pow
  let w := es.foldl (fun w e => w.updRail e.1 (fun r => { r with acc := r.acc + e.2 })) w
  let last := (d.pow.samples.head?.map Prod.fst)
  event s (readings.length == 9 && (match last with | some t => decide (t + 100000 ≤ d.plat.now) | none => true))
    { d with pow := { w with samples := (d.plat.now, total, fixed) :: d.pow.samples.filter (fun x => d.plat.now < x.1 + 10 ^ 9),
                             energyTotal := d.pow.energyTotal + total } }

/-- The fast limiter's marks on the clusters of a pod rail (R397). -/
def Pow.fast (w : Pow) (rail : Nat) (half stop : Bool) : Pow :=
  { w with doms := w.doms.map (fun e => if isCluster e.1 && e.1 / 14 == rail then (e.1, { e.2 with fastHalf := half, fastStop := stop }) else e) }

/-- FAST_LIMIT: the limiter halves the training clocks of a rail whose current exceeds its limit (R397). -/
def execFastLimit (rail : Nat) (s : State) : Res :=
  let d := s.dev
  event s (rail < 5 && (d.pow.rail rail).fastAt == none)
    ({ d with pow := (d.pow.fast rail true false).updRail rail (fun r => { r with fastAt := some d.plat.now }),
              ctr := bump d.ctr cobInst 0x63 1 }).reclock

/-- FAST_LIMIT_STOP: the current stays above the limit for 10 us more and the clocks stop (R397). -/
def execFastLimitStop (rail : Nat) (s : State) : Res :=
  let d := s.dev
  event s (rail < 5 && (match (d.pow.rail rail).fastAt with | some t => decide (t + 10000 ≤ d.plat.now) | none => false))
    ({ d with pow := d.pow.fast rail true true }).reclock

/-- FAST_LIMIT_RESTORE: after 100 us below the limit (R397). -/
def execFastLimitRestore (rail : Nat) (s : State) : Res :=
  let d := s.dev
  event s (rail < 5 && (match (d.pow.rail rail).fastAt with | some t => decide (t + 100000 ≤ d.plat.now) | none => false))
    ({ d with pow := (d.pow.fast rail false false).updRail rail (fun r => { r with fastAt := none }) }).reclock

/-- RAIL_VOLTAGE_REACHED: the regulator reports the commanded voltage; clocks that waited for it change (R391). -/
def execRailVoltageReached (rail : Nat) (s : State) : Res :=
  let d := s.dev
  event s (rail < 5 && (d.pow.rail rail).waitV)
    ({ d with pow := d.pow.updRail rail (fun r => { r with volt := r.target, waitV := false }) }).reclock

/-- AVS_VOLTAGE_TIMEOUT: a commanded voltage is not reported reached within 1 ms (R549). -/
def execAvsVoltageTimeout (rail : Nat) (s : State) : Res :=
  let d := s.dev
  let r := d.pow.rail rail
  event s (rail < 5 && r.waitV && decide (r.cmdAt + 1000000 ≤ d.plat.now))
    ({ d with pow := d.pow.updRail rail (fun r => { r with failed := true, waitV := false, answers := false, failAt := d.plat.now }) }).reclock

/-- AVSBUS_RETRY: every 10 ms; a bus that answers returns the rail to planning at the next beat start (R549). -/
def execAvsbusRetry (rail : Nat) (ok : Bool) (s : State) : Res :=
  let d := s.dev
  let r := d.pow.rail rail
  event s (rail < 5 && r.failed && decide (r.failAt + 10000000 ≤ d.plat.now))
    { d with pow := d.pow.updRail rail (fun r => { r with answers := ok, failAt := d.plat.now }) }

/-! ## The brake (R403, R546) -/

/-- POWER_BRAKE_ASSERT: the pin has been low for 1 us (R403). Update units finish their pass and power down. -/
def execPowerBrakeAssert (s : State) : Res :=
  let d := s.dev
  let units := [57, 58, 59, 60].filter (fun u => d.pow.on u || (d.pow.dom u).st == 1 || (d.pow.dom u).wantUp)
  let d1 := { d with plat := { d.plat with brakeN := false }, pow := { d.pow with brakeActed := true, brakeUnits := units },
                     ctr := bump d.ctr cobInst 0x66 1 }
  event s d.plat.brakeN (units.foldl (fun d u => d.reqOff u 0) d1).reclock

/-- The pin is high: a start that waited for it begins self-test, and the wait does not count (R546). -/
def Plat.brakeOff (p : Plat) : Plat :=
  if p.phase = .train ∧ p.d2dDone = true ∧ p.gddrDone = true then
    { p with brakeN := true, phase := .selfTest, powerMark := p.powerMark + (p.now - p.stageMark), stageMark := p.now }
  else { p with brakeN := true }

/-- POWER_BRAKE_RELEASE: the pin is high again; the next checkpoint plans afresh, and the update units come up, those too that work
has asked for meanwhile (R388, R403). -/
def execPowerBrakeRelease (s : State) : Res :=
  let d := s.dev
  let d1 := { d with plat := d.plat.brakeOff,
                     pow := { d.pow with brakeActed := false, brakeReplan := true, brakeUnits := [] } }
  let d2 := d.pow.brakeUnits.foldl (fun d u => d.reqOn u 0) d1
  event s (!d.plat.brakeN) ({ d2 with pow := ([57, 58, 59, 60] : List Nat).foldl (fun w u => w.tryUp d.plat.now u) d2.pow }.traceDoms d2.pow).reclock

/-! ## Budget and telemetry -/

/-- BUDGET_CHECKPOINT: each whole millisecond of device time within a beat (R394). -/
def execBudgetCheckpoint (s : State) : Res :=
  event s (s.dev.plat.phase == .ready && s.dev.pow.lastCheck / 1000000 < s.dev.plat.now / 1000000) s.dev.planCheckpoint

/-- A RAIL record as two 64-bit words (R405). -/
def Dev.railWords (d : Dev) (g : Nat) : Nat × Nat :=
  let r := d.pow.rail g
  (packBits [(16, if r.failed then 0 else r.mV), (16, r.cur), (32, r.acc / 100)],
   packBits [(16, r.curMax), (8, if g < 5 then d.pow.railGb g else 0)])

/-- A DOMAIN record as two 64-bit words (R405). -/
def Dev.domWords (d : Dev) (id : Nat) : Nat × Nat :=
  let x := d.pow.dom id
  let pend := if x.pendOff then 2 else if x.pendOn || x.wantUp then 1 else 0
  let limited := isCluster id && x.st == 2 && x.freq <
    (match d.cad.liveClock (12 * (id / 14) + id % 14) with | some f => f | none => if d.pow.floorRun then d.fFloor else opFreq d.pow.op)
  (packBits [(3, x.st), (2, pend), (2, x.hold), (1, b2n (d.plat.retiredDom id)), (1, b2n x.halted), (1, b2n limited), (6, 0),
             (11, if 2 ≤ x.st && x.st ≤ 4 then x.freq else 0), (5, 0), (16, ofInt 16 x.temp), (16, x.ai)],
   packBits [(8, x.gb), (11, d.fMax id)])

/-- The words of the telemetry mirror, by offset (R405). -/
def Dev.mirrorWords (d : Dev) : List (Nat × Nat) :=
  let w := d.pow
  let ms := w.used d.plat.now 1000000
  let sec := w.used d.plat.now 1000000000
  let mask := w.haltedSet.foldl (fun m k => m + 2 ^ k) 0
  [(0x00, bits (Tab.get 0 w.mirror 0 + 2) 0 64), (0x08, d.plat.now), (0x10, w.energyTotal / 100000), (0x18, ms / 100 % 2 ^ 32),
   (0x20, sec / 100000 % 2 ^ 32),
   (0x28, packBits [(32, w.energyE), (12, w.reserve), (3, w.op), (1, b2n w.brakeActed), (1, b2n w.trip)]), (0x30, mask)]
  ++ ((List.range 6).map (fun g => [(0x40 + 16 * g, (d.railWords g).1), (0x48 + 16 * g, (d.railWords g).2)])).flatten
  ++ ((List.range 85).map (fun i => [(0x100 + 16 * i, (d.domWords i).1), (0x108 + 16 * i, (d.domWords i).2)])).flatten

/-- TELEMETRY_SNAPSHOT: every 1 ms the controller rewrites the mirror; SEQ rises before and after (R405). -/
def execTelemetrySnapshot (s : State) : Res :=
  let d := s.dev
  event s (d.pow.lastSnap / 1000000 < d.plat.now / 1000000)
    { d with pow := { d.pow with
        mirror := d.mirrorWords.foldl (fun m e => Tab.set 0 m e.1 e.2) d.pow.mirror, lastSnap := d.plat.now,
        rails := d.pow.rails.map (fun e => (e.1, { e.2 with acc := 0, curMax := 0 })) } }

/-! ## Ageing readings (R406 to R408) -/

/-- AI of counts against the first reading (R407). -/
def ageIndex (s0 r0 st re : Nat) : Nat := (s0 * re - st * r0) * 65536 / (s0 * re)

/-- A reading is due: during a start, the first one, or 2^16 beats on (R406). -/
def Dev.ageDue (d : Dev) (id : Nat) : Bool :=
  d.plat.phase != .ready || (d.pow.dom id).rho0 == none || (d.pow.dom id).lastBeat / 65536 < d.cad.beat / 65536

/-- AGEING_READING: the controller counts both oscillators of an ON domain or the Cob base (R406); the guard-band takes
effect at the next beat start (R408). -/
def execAgeingReading (domain stressed reference : Nat) (s : State) : Res :=
  let d := s.dev
  let now := d.plat.now
  let put (ai n : Nat) (x : Dom) : Dom :=
    { x with ai := ai, gbNew := min 255 (15 + ceilDiv (ai * 600) 65536), readings := ((now, ai) :: x.readings).take 8,
             nReads := n, lastBeat := d.cad.beat }
  let f (x : Dom) : Dom :=
    match x.rho0 with
    | none => put 0 0 { x with rho0 := some (stressed, reference) }
    | some (s0, r0) => put (min 65535 (ageIndex s0 r0 stressed reference)) (min 65535 (x.nReads + 1)) x
  event s (domain ≤ 85 && (domain == 85 || d.pow.on domain) && 0 < stressed && 0 < reference && d.ageDue domain)
    { d with pow := d.pow.upd domain f }

end Sys2Proof.Machine
end

