-- ==== Sys2Proof/Machine/CoreOps.lean ====
section
/-! DEFINITION. What the events of a core share (spec file 04): plans, streams and their descriptors, the work a stream
belongs to, waits and signals, tile counters and claims, and how an operation's effects reach the device. -/

namespace Sys2Proof.Machine

/-! ## Plans, steps, tasks -/

/-- A plan by its handle. -/
def Dev.plan (d : Dev) (h : Nat) : Plan := Tab.get {} d.plans h
/-- Change a plan. -/
def Dev.updPlan (d : Dev) (h : Nat) (f : Plan → Plan) : Dev := { d with plans := Tab.upd {} d.plans h f }
/-- A core. -/
def Dev.core (d : Dev) (n : Nat) : Core := Tab.get {} d.cores n
/-- Change a core. -/
def Dev.updCore (d : Dev) (n : Nat) (f : Core → Core) : Dev := { d with cores := Tab.upd {} d.cores n f }
/-- A live stream. -/
def Cad.stream (c : Cad) (n : Nat) : Stream := Tab.get {} c.streams n
/-- Change a live stream. -/
def Cad.updStream (c : Cad) (n : Nat) (f : Stream → Stream) : Cad := { c with streams := Tab.upd {} c.streams n f }
/-- Change the running task of a live stream. -/
def Dev.updTask (d : Dev) (n : Nat) (f : Task → Task) : Dev :=
  { d with cad := d.cad.updStream n (fun s => { s with running := s.running.map f }) }

/-- The step in progress, or the step that has started while it has not completed (R458). -/
def Plan.run_ (p : Plan) (second : Bool) : Option StepRun := if second then p.overlap else p.cur
/-- Change that step. -/
def Plan.updRun (p : Plan) (second : Bool) (f : StepRun → StepRun) : Plan :=
  if second then { p with overlap := p.overlap.map f } else { p with cur := p.cur.map f }
/-- Change a step of a plan. -/
def Dev.updRun (d : Dev) (h : Nat) (second : Bool) (f : StepRun → StepRun) : Dev := d.updPlan h (fun p => p.updRun second f)

/-- A step fails: the first failure decides, the Cob applies no further update, and its cores stop at their next stop
points (R109, R143, R187). -/
def StepRun.fail (r : StepRun) (st fault entry : Nat) : StepRun :=
  if r.bad = 0 then { r with bad := st, faultAt := fault, workFault := entry, noUpdate := true, halting := true }
  else { r with noUpdate := true, halting := true }

/-- Fail the step or the live task that a stream belongs to. -/
def Dev.failWork (d : Dev) (c : Ctx) (st entry : Nat) : Dev :=
  if c.live then d.updTask c.stream (fun t => if t.bad = 0 then { t with bad := st, fault := entry } else t)
  else d.updRun c.plan c.second (fun r => r.fail st 0 entry)

/-- The plan is no longer valid: its structures met a parity error (R143). -/
def Dev.breakPlan (d : Dev) (c : Ctx) : Dev := (d.updPlan c.plan (fun p => { p with valid := false })).failWork c stParity 0

/-- The stream's work is coming to a halt: a failed or aborted step, a failed or dropped task. -/
def Dev.halting (d : Dev) (c : Ctx) : Bool :=
  if c.live then
    match (d.cad.stream c.stream).running with
    | some t => t.bad != 0 || t.dropped
    | none => true
  else
    match (d.plan c.plan).run_ c.second with
    | some r => r.halting
    | none => true

/-- Base B of a tile counter for the work of a stream (R560). -/
def Dev.ctrBase (d : Dev) (c : Ctx) (pod ctr : Nat) : Nat :=
  if c.live then
    match (d.cad.stream c.stream).running with
    | some t => Tab.get 0 t.bases (64 * pod + ctr)
    | none => 0
  else
    match (d.plan c.plan).run_ c.second with
    | some r => Tab.get 0 r.bases (64 * pod + ctr)
    | none => 0

/-- The command that owns a stream's work. -/
def Dev.workCmd (d : Dev) (c : Ctx) : Option Cmd :=
  if c.live then none
  else match (d.plan c.plan).run_ c.second with
    | some r => d.host.cmd r.cmd
    | none => none

/-- Work-fault entry of R459. -/
def workFault (descId pod ctr tile batch lpage kind : Nat) : Nat :=
  packBits [(32, descId), (2, pod), (6, ctr), (20, tile), (4, batch), (24, lpage), (4, kind), (36, 0)]

/-! ## Descriptors of a stream (R94) -/

/-- `n` bytes of the plan's descriptor section as a number. -/
def Plan.bytesAt (p : Plan) (o n : Nat) : Nat := leNat ((p.desc.drop o).take n)

/-- The descriptor at an offset of section 4, with its size. -/
def Plan.descAt (p : Plan) (o : Nat) : Nat × Nat :=
  let n := descSize (p.bytesAt o 1)
  (p.bytesAt o n, n)

/-- Offsets and sizes of the next `k` descriptors. -/
def Plan.nextDescs (p : Plan) : Nat → Nat → List (Nat × Nat)
  | 0, _ => []
  | k + 1, o => let n := (p.descAt o).2; (o, n) :: p.nextDescs k (o + max n 64)

/-- FP32 pattern of 2^e for the loss-scale exponent (R235). -/
def lossScale (e : Int) : Nat := fp32Code (.fin (Q.pow2 e))

/-- A descriptor with the loss-scale sites of its core written (R235). -/
def Plan.withLoss (p : Plan) (core o n d : Nat) (e : Int) : Nat :=
  (p.lossSites.filter (fun s => 48 * s.1 + s.2.1 == core && o ≤ s.2.2 && s.2.2 + 4 ≤ o + n)).foldl
    (fun d s => setBits d (8 * (s.2.2 - o)) 32 (lossScale e)) d

/-- Patch word `q` of a CLAIM (R108, R109). -/
def patchWord (claim q : Nat) : Nat := bits claim (256 + 32 * q) 32
/-- The patch applies. -/
def pEn (p : Nat) : Bool := bit p 26
/-- Body descriptor of a patch. -/
def pDesc (p : Nat) : Nat := bits p 0 4
/-- Its lowest bit within the descriptor. -/
def pBit (p : Nat) : Nat := bits p 4 11
/-- Its width. -/
def pWidth (p : Nat) : Nat := bits p 15 6 + 1
/-- Its tile-record word. -/
def pWord (p : Nat) : Nat := bits p 21 4

/-- Apply a loop's patches to the copy of body descriptor `j` (R109, R307). -/
def LoopRun.patch (l : LoopRun) (j d : Nat) : Nat :=
  (List.range 8).foldl (fun d q =>
    let p := patchWord l.desc q
    if pEn p && pDesc p == j then
      let w := match l.padC with
        | some c => if pWord p = 15 then c else bits l.record (64 * pWord p) 64
        | none => bits l.record (64 * pWord p) 64
      let v := if bit p 25 then w else bits d (pBit p) (pWidth p) + w
      setBits d (pBit p) (pWidth p) v
    else d) d

/-- COUNTER of a CLAIM. -/
def clCtr (d : Nat) : Nat := bits d 128 6
/-- BODY_LEN of a CLAIM. -/
def clBody (d : Nat) : Nat := bits d 134 5
/-- TABLE_BASE of a CLAIM. -/
def clTable (d : Nat) : Nat := bits d 144 48
/-- LOOP_REF of a CLAIM. -/
def clRef (d : Nat) : Nat := bits d 192 16

/-! ## Waits, signals, units (R96 to R98) -/

/-- The event wait of a header is over (R97). -/
def eventWaitDone (d : Nat) (ev : Tab Nat) : Bool :=
  !bit d 10 || (Tab.get 0 ev (bits d 12 4) + 65536 - bits d 20 16) % 65536 < 32768

/-- A tile counter. -/
def Dev.ctr_ (d : Dev) (pod n : Nat) : TileCtr := Tab.get {} (d.pod pod).ctrs n
/-- Change a tile counter. -/
def Dev.updCtr (d : Dev) (pod n : Nat) (f : TileCtr → TileCtr) : Dev :=
  d.updPod pod (fun x => { x with ctrs := Tab.upd {} x.ctrs n f })

/-- The loop wait of a header is over (R98, R560). -/
def Dev.loopWaitDone (dev : Dev) (c : Ctx) (pod d : Nat) : Bool :=
  if bit d 36 then
    let n := bits d 37 6
    let w := (bits d 43 16 + dev.ctrBase c pod n) % 65536
    let t := dev.ctr_ pod n
    (t.seq == w && t.st == 3) || after16 t.seq w
  else true

/-- SIGNAL of a header on the core's event counters. -/
def signal (d : Nat) (ev : Tab Nat) : Tab Nat :=
  if bit d 11 then Tab.upd 0 ev (bits d 16 4) (fun v => (v + 1) % 65536) else ev

/-- The operation of a unit. -/
def Ctx.op (c : Ctx) (u : Nat) : Option Op := Tab.get none c.ops u
/-- Put an operation on a unit. -/
def Ctx.setOp (c : Ctx) (u : Nat) (o : Option Op) : Ctx := { c with ops := Tab.set none c.ops u o }
/-- Some operation of the loop's body has neither completed nor stopped. -/
def Ctx.bodyMoving (c : Ctx) : Bool := c.ops.any (fun e => match e.2 with | some o => o.body && !o.stopped | none => false)
/-- Some operation of the loop's body has not completed. -/
def Ctx.inBody (c : Ctx) : Bool := c.ops.any (fun e => match e.2 with | some o => o.body | none => false)
/-- No operation is left. -/
def Ctx.idle (c : Ctx) : Bool := c.ops.all (fun e => e.2.isNone)
/-- Drop the operations of the loop's body. -/
def Ctx.dropBody (c : Ctx) : Ctx :=
  c.ops.foldl (fun c e => match e.2 with | some o => if o.body then c.setOp e.1 none else c | none => c) c

/-- The unit that an opcode runs on: engines 0 to 3, vector 4, DMA 5, attention 6 (R95). -/
def unitOf (d : Nat) : Nat :=
  match dOp d with
  | 1 => bits d 8 2
  | 3 => bits d 8 2
  | 5 => bits d 8 2
  | 2 => 4
  | 7 => 5
  | _ => 6

/-- The unit of a descriptor is free; ATTENTION needs the engines and the vector unit (R95, R96). -/
def Ctx.unitFree (c : Ctx) (d : Nat) : Bool :=
  match dOp d with
  | 4 => [0, 1, 2, 3, 4, 6].all (fun u => (c.op u).isNone)
  | 7 => (c.op 5).isNone
  | 2 => (c.op 4).isNone && (c.op 6).isNone
  | 1 => (c.op (unitOf d)).isNone && (c.op 6).isNone
  | 3 => (c.op (unitOf d)).isNone && (c.op 6).isNone
  | 5 => (c.op (unitOf d)).isNone && (c.op 6).isNone
  | _ => true

/-- Accumulator memory that an operation on unit `u` of core `n` holds (R63). -/
def heldBy (n u d : Nat) : Area :=
  if u < 4 then (accRow (4 * n + u) (mAccBase d) 0, mAccCount d * 0x4000)
  else if u = 6 then (accWin (4 * n), 0x100000)
  else (0, 0)

/-- Accumulator tiles of a core held by a running operation meet an array: it holds them from its issue to its end or its stop point,
where every tile it has started is complete and released (R63, R88; log entry 37). -/
def Dev.accHeld (dev : Dev) (n : Nat) (x : Grid) : Bool :=
  match (dev.core n).ctx with
  | some c => c.ops.any (fun e => match e.2 with | some o => !o.stopped && x.crosses (.flat (heldBy n e.1 o.desc)) | none => false)
  | none => false

/-- Some core holds accumulator tiles within an array. -/
def Dev.anyHeld (dev : Dev) (x : Grid) : Bool := inAcc x.ext.1 x.ext.2 && (List.range 192).any (fun n => dev.accHeld n x)

/-- Accumulator areas that a VECTOR or a MOVE reads or writes. -/
def touches (d : Nat) : List Grid :=
  match dOp d with
  | 2 => [areaVX d, areaVOut d] ++ (if vReadsY d then [areaVY d] else []) ++ (if vReadsZ d then [areaVZ d] else [])
  | 7 => if mvKind d = 3 then [moveDest d]
    else let x := moveXfer d
      (if x.reads then [⟨x.src, [(x.ss, x.rows)], x.srcLen⟩] else []) ++ (if x.writes then [⟨x.dst, [(x.ds, x.rows)], x.dstLen⟩] else [])
  | _ => []

/-- An operation under way already touches tiles that a new operation would claim (R63). -/
def Ctx.claimBlocked (c : Ctx) (n d : Nat) : Bool :=
  let own := heldBy n (unitOf d) d
  own.2 != 0 && c.ops.any (fun e => match e.2 with | some o => (Grid.flat own).crossesAny (touches o.desc) | none => false)

/-! ## Stopping (R88, R113, R114, R366, R396) -/

/-- The claim that a core holds on a tile counter. -/
def TileCtr.claimOf (t : TileCtr) (core : Nat) : Option Claim := t.claims.find? (fun c => c.core == core)

/-- The claim of the tile that a core's loop holds has been cancelled. -/
def Dev.loopCancelled (d : Dev) (n : Nat) (c : Ctx) : Bool :=
  match c.loop with
  | some l =>
    l.idx.isSome && (match (d.ctr_ (n / 48) (clCtr l.desc)).claimOf n with | some k => k.cancelled && k.seq == l.seq | none => false)
  | none => false

/-- The cluster of core `n` is halted for training (R396). -/
def Dev.clusterHalted (d : Dev) (n : Nat) : Bool := (d.pow.dom (coreDom n)).halted

/-- A core issues nothing more: it has to reach a stop point. -/
def Dev.mustStop (d : Dev) (n : Nat) (c : Ctx) : Bool :=
  d.halting c || (!c.live && ((d.core n).run != 1 || d.clusterHalted n)) || d.loopCancelled n c

/-- The core runs its stream: it has a context, its clocks run. -/
def Dev.coreLive (d : Dev) (n : Nat) : Bool := n < 192 && d.pow.runs (coreDom n) && d.plat.phase == .ready && d.plat.faultCode == 0

/-- Training that has come to a stop point counts its claims as preempted and, for a live task, begins to save its context
(R114, R366, R396). -/
def Dev.tryStop (d : Dev) (n : Nat) : Dev :=
  let k := d.core n
  if k.run = 2 then
    match k.ctx with
    | some c =>
      if c.moving then d
      else { d with pods := preemptClaims d.pods d.plat.now (fun m => m == n) true }.updCore n (fun k => { k with run := 3, since := d.plat.now })
    | none => d.updCore n (fun k => { k with run := 4, since := d.plat.now })
  else if k.run = 1 ∧ d.clusterHalted n = true ∧ k.still = true then { d with pods := preemptClaims d.pods d.plat.now (fun m => m == n) true }
  else d

/-- Remove a core's claim from a counter; DONE once every index is accepted and nothing runs (R113, R116). -/
def TileCtr.endClaim (t : TileCtr) (core : Nat) : TileCtr :=
  let cl := t.claims.filter (fun c => c.core != core)
  { t with claims := cl, st := if t.accepted = t.limit ∧ cl = [] ∧ (t.st = 1 ∨ t.st = 2) then 3 else t.st }

/-- Descriptors of a core's stream: offset in the stream and the descriptor. -/
def Plan.streamDescs (p : Plan) (s : StreamDecl) : List (Nat × Nat) :=
  (p.nextDescs (s.len / 64) s.off).filterMap (fun (o, n) => if o < s.off + s.len then some (o - s.off, p.bytesAt o n) else none)

/-- Every descriptor of a pod's streams. -/
def Plan.podDescs (p : Plan) (pod : Nat) : List Nat :=
  (p.streams.filter (fun s => s.pod == pod)).flatMap (fun s => (p.streamDescs s).map (·.2))

/-- A sequence table that a training plan lays out in stretches: ranges of it are written in more than one pod (R197; log
entry 19). -/
def Plan.stretched (p : Plan) (table : Nat) : Bool :=
  !p.live && 1 < (([0, 1, 2, 3] : List Nat).filter (fun q => p.seqWrites.any (fun s => s.pod == q && s.table == table))).length

/-- An ATTENTION of the pods reads the table and is not causal (R197). -/
def Dev.backward (d : Dev) (p : Plan) (table : Nat) : Bool :=
  ([0, 1, 2, 3] : List Nat).any (fun x => (p.podDescs x).any (fun y => dOp y == 4 && !aCausal y
    && (List.range (aBatch y)).any (fun b => Config.seqTable x (bits (rdNat d.mem (aSlot y + 64 * b) 64) 160 48) % 4096 == table)))

/-- Hops that a page of a table travels from pod `q`: 3 - q, and 3 where the queries that read it are not causal (R197). -/
def Dev.hops (d : Dev) (p : Plan) (q table : Nat) : Nat := if d.backward p table then 3 else 3 - q

/-- Logical pages of a write range. -/
def SeqWrite.pages (s : SeqWrite) : List Nat := (List.range (s.last / 256 + 1 - s.first / 256)).map (· + s.first / 256)

/-- Name of the work that reads sequence tables: a live stream, or a training step. -/
def workKey (live : Bool) (stream step : Nat) : Nat := if live then stream else 16 + step

/-- Entry address of a logical page in a private table of a work in a pod. -/
def Pod.privEntries (x : Pod) (key table lpage : Nat) : List Nat :=
  ((Tab.get [] x.priv key).filter (fun e => e.1 == table)).map (fun e => e.2 + 8 * (x.seq table).index lpage)

/-- The frame in which a work writes a logical page of a table (R195). -/
def Pod.writtenFrame (x : Pod) (key table lpage : Nat) : Option Nat :=
  (x.stepWrites.find? (fun e => e.1 == key && e.2.1 == table && e.2.2.1 == lpage)).map (·.2.2.2)

/-- A page that pod `q` sends to its ring neighbour: from `src` into the frame that the neighbour took for it at the step's start
(R197, R198). -/
def Dev.pageXfer (d : Dev) (q hops key table lpage src : Nat) : Option PageXfer :=
  let r := (q + 1) % 4
  let x := d.pod r
  (x.stepFrames.find? (fun f => f.key == key && f.table == table && f.lpage == lpage)).map (fun f =>
    { src := q, dst := r, hops := hops - 1, key := key, lpage := lpage, table := table, srcAddr := src,
      dstAddr := (x.pool f.pool).addr f.frame, bytes := (x.pool f.pool).frameBytes })

/-- A loop of a training step has reached DONE: the pages it writes go to the next pod (R197; log entry 19). -/
def Dev.sendPages (d : Dev) (c : Ctx) (pod ctr seq : Nat) : Dev :=
  let pl := d.plan c.plan
  let ref := (seq + 65536 - d.ctrBase c pod ctr % 65536) % 65536
  let lim := (d.ctr_ pod ctr).limit
  let tables := ((pl.podDescs pod).filter (fun x => dOp x == 6 && clCtr x == ctr && clRef x == ref)).map clTable
  let ws := pl.seqWrites.filter (fun s => s.pod == pod && pl.stretched s.table && tables.any (fun t => t ≤ s.recBase && s.recBase < t + 128 * lim))
  if c.live then d
  else
    let x := d.pod pod
    let xs := ws.flatMap (fun s => if d.hops pl pod s.table = 0 then []
      else s.pages.filterMap (fun e => (x.writtenFrame (workKey false 0 c.step) s.table e).bind (fun a =>
        d.pageXfer pod (d.hops pl pod s.table) (workKey false 0 c.step) s.table e a)))
    d.updPod pod (fun x => { x with xfers := x.xfers ++ xs })

/-- A core's claim ends, and the loop may reach DONE (R113, R116). -/
def Dev.endClaim (d : Dev) (c : Ctx) (core ctr : Nat) : Dev :=
  let pod := core / 48
  let t := d.ctr_ pod ctr
  let d := d.updCtr pod ctr (fun t =>
    let u := t.endClaim core
    { u with doneAt := if u.st = 3 ∧ t.st ≠ 3 then d.plat.now else u.doneAt })
  if t.st != 3 && (d.ctr_ pod ctr).st == 3 then d.sendPages c pod ctr t.seq else d

/-- A cancelled claim whose body stands at a stop point ends, and its core claims again; a body that has reached its end posts its
completion instead (R113). -/
def Dev.reap (d : Dev) (n : Nat) : Dev :=
  match (d.core n).ctx with
  | some c =>
    match c.loop with
    | some l =>
      if d.loopCancelled n c && !c.bodyMoving && (l.at_ < l.body.length || c.inBody) then
        let c2 : Ctx := { c.dropBody with loop := some { l with idx := none, at_ := 0, waitClaim := true, padC := none } }
        (d.endClaim c n (clCtr l.desc)).updCore n (fun k => { k with ctx := some c2 })
      else d
    | none => d
  | none => d

/-- The stream of a training step that core `n` has not run: its cluster trains in the step (R107, R129). -/
def Dev.streamFor (d : Dev) (n h : Nat) (second : Bool) : Option (StepRun × StreamDecl) :=
  let p := d.plan h
  match p.run_ second with
  | none => none
  | some r =>
    if r.halting || r.started.contains n || !r.train.contains (12 * (n / 48) + n % 48 / 4) then none
    else (p.streams.find? (fun s => 48 * s.pod + s.core == n)).map (fun s => (r, s))

/-- An idle core starts its stream of a training step, that of the earlier step first (R107, R458). -/
def Dev.startCore (d : Dev) (n : Nat) : Dev :=
  let k := d.core n
  if k.run != 0 || k.ctx.isSome then d
  else
    let go (h : Nat) (second : Bool) (x : StepRun × StreamDecl) : Dev :=
      let c : Ctx := { plan := h, step := x.1.step, seed := bits ((d.plan h).run.getD 0) 0 64, second := second, off := x.2.off }
      (d.updCore n (fun k => { k with run := 1, ctx := some c })).updRun h second (fun r => { r with started := r.started ++ [n] })
    match d.plans.find? (fun e => e.2.cur.isSome || e.2.overlap.isSome) with
    | none => d
    | some (h, _) =>
      match d.streamFor n h false with
      | some x => go h false x
      | none => match d.streamFor n h true with
        | some x => go h true x
        | none => d

/-- Every idle core starts what it can. -/
def Dev.startCores (d : Dev) : Dev := (List.range 192).foldl Dev.startCore d

/-- A stream that has ended leaves its core (R94), which takes up its stream of the next step. -/
def Dev.prune (d : Dev) (n : Nat) : Dev :=
  match (d.core n).ctx with
  | some c =>
    if c.ended && c.idle && c.arrivals == [] then (d.updCore n (fun k =>
      if c.live then { k with ctx := none } else { k with ctx := none, run := if k.run = 2 then 4 else 0, since := d.plat.now })).startCore n
    else d
  | none => d

/-- What follows a change of a core: a stop, the end of a cancelled claim, the end of the stream. -/
def Dev.after (d : Dev) (n : Nat) : Dev := ((d.reap n).tryStop n).prune n

/-- A descriptor's record in the trace, issued or done. How many cycles of the arithmetic clock its work takes is timing: that count is
free (R524; log entries 2 and 8). -/
def Dev.traceDesc (d : Dev) (type n x : Nat) : Dev :=
  d.trace type (n / 48) (n % 48) (dId x) (dOp x + 256 * (if unitOf x < 4 then unitOf x else 0)) (if type = 2 then Config.freeNat d.plat.freeCount else 0)

/-- An operation completes: its unit is free and its signal counts (R90, R97). -/
def Dev.opDone (d : Dev) (n u : Nat) (o : Op) : Dev :=
  ((d.updCore n (fun k => { k with ctx := k.ctx.map (fun c => { c.setOp u none with events := signal o.desc c.events }) })).traceDesc 2 n o.desc).after n

/-! ## How an operation's effects reach the device -/

/-- An operation begins to read: bytes whose stored parity has gone wrong are marked first. -/
def Dev.work (d : Dev) (n : Nat) (flips : List Nat) : Wk :=
  { mem := d.mem, poison := d.poison, pz := (d.core n).poison, free := d.plat.freeCount, flaws := flips, die := n / 48 }

/-- What an operation counted goes to the counters: kinds below 256 to the instance that `inst` names, the others to the die that
they carry (R516). -/
def addKinds (ctr : Tab Nat) (inst : Nat → Nat) (cnt : Tab Nat) : Tab Nat :=
  cnt.foldl (fun c x => if x.1 < 256 then bump c (inst x.1) x.1 x.2 else bump c (dieInst (x.1 / 256 - 1)) (x.1 % 256) x.2) ctr

/-- The counters of an operation: engine kinds on engine `e`, the others on the core (R516). -/
def addCounts (ctr : Tab Nat) (n e : Nat) (cnt : Tab Nat) : Tab Nat :=
  addKinds ctr (fun k => if k ≤ 8 then engInst (4 * n + e) else coreInst n) cnt

/-- Number of the die-to-die link that carries a byte of address `a` to or from die `die`: link p joins pod p and the Cob. The spec
does not number the links: DESIGN CHOICE (log entry 34). -/
def linkOf (die a : Nat) : Nat := if dieOf a < 4 then dieOf a else die

/-- The fault record of a read that met a parity error, `e` its address and KIND: the GDDR7 controller and the link detect what fails
on them (R144, R449). -/
def faultOf (unit die descId : Nat) (cmd : Option Cmd) (e : Nat) : FaultRec :=
  let a := e % 2 ^ 48
  let k := e / 2 ^ 48
  { unit := if k = 1 ∨ k = 2 then 5 else if k = 3 then 6 else if hostBase 0 ≤ a then 11 else unit
    die := if k = 1 ∨ k = 2 then dieOf a else die
    kind := k
    addr := if k = 3 then linkOf die a else a
    descId := descId
    opcode := match cmd with | some c => c.pkt.opcode | none => 0xFFFF
    tag := match cmd with | some c => c.pkt.tag | none => 0
    port := match cmd with | some c => c.port + 1 | none => 0 }

/-- Fault records of the reads that met a parity error, oldest first (R144, R449). -/
def Plat.logReads (p : Plat) (unit die descId : Nat) (cmd : Option Cmd) (errs : List Nat) : Plat :=
  errs.reverse.foldl (fun p e => p.log (faultOf unit die descId cmd e)) p

/-- Their FAULT records in the trace (R524). -/
def Dev.traceFaults (d : Dev) (unit die descId : Nat) (cmd : Option Cmd) (errs : List Nat) : Dev :=
  errs.reverse.foldl (fun d e => d.traceFault (faultOf unit die descId cmd e)) d

/-- A unit meets one parity error in a read of its own: PARITY_ERROR adds one, and the fault log and the trace take it (R142, R144). -/
def Dev.noteFault (d : Dev) (inst unit die descId : Nat) (cmd : Option Cmd) (a : Nat) : Dev :=
  { d with ctr := bump d.ctr inst 0x1A 1, plat := d.plat.logReads unit die descId cmd [a] }.traceFaults unit die descId cmd [a]

/-- Take what a unit of an instance has read and written: memory, parity, counters, and fault records that name the owning command
(R142 to R144). -/
def Dev.absorbUnit (d : Dev) (inst unit die : Nat) (cmd : Option Cmd) (w : Wk) : Dev :=
  { d with mem := w.mem
           poison := w.poison
           ctr := bump (addKinds d.ctr (fun _ => inst) w.cnt) inst 0x1A w.errs.length
           plat := ({ d.plat with freeCount := d.plat.freeCount + 1 }).logReads unit die 0 cmd w.errs }.traceFaults unit die 0 cmd w.errs

/-- Take an operation's effects: memory, parity, counters, poison bits, GRAD_NONFINITE, and the failure of its work where it
met a parity error (R142 to R144, R234). -/
def Dev.absorb (d : Dev) (n e unit desc : Nat) (c : Ctx) (w : Wk) : Dev :=
  let plat := ({ d.plat with freeCount := d.plat.freeCount + 1 }).logReads unit (n / 48) (dId desc) (d.workCmd c) w.errs
  let d := { d with mem := w.mem, poison := w.poison, plat := plat,
                    ctr := bump (addCounts d.ctr n e w.cnt) (coreInst n) 0x1A w.errs.length }.traceFaults unit (n / 48) (dId desc) (d.workCmd c) w.errs
  let d := d.updCore n (fun k => { k with poison := w.pz })
  let d := if w.gradNF && !c.live then d.updRun c.plan c.second (fun r => { r with gradNF := true }) else d
  if w.bad then d.failWork c stParity 0 else d

/-! ## Batch headers (R306, R307) -/

/-- Bytes of a batch header: 64 words and 16 segment tables of 256 entries (R306). -/
def headerBytes : Nat := 256 + 16 * 256 * 16

/-- Address of the header of buffer `j` in pod `p` (R306; log entry 17). -/
def Ing.headerAt (g : Ing) (j p : Nat) : Nat :=
  let a := bits (g.profile.getD 0) 704 48
  podShift a ((a - podStore 0) / 0x10000000) p + j * headerBytes

/-- Buffers of the profile. -/
def Ing.buffers (g : Ing) : Nat := max 1 (bits (g.profile.getD 0) 56 8)

/-- C of the pad test in word 15 of a tile record, for the batch a step consumes, as a core reads it from the batch header (R307). -/
def Dev.padCount (d : Dev) (n batch word : Nat) : Nat × Wk :=
  let (b, w) := (d.work n []).read (d.ing.headerAt (batch % d.ing.buffers) (n / 48) + 4 * (16 * bits word 4 2 + bits word 0 4)) 4
  (min (leNat b - bits word 6 24) (bits word 30 24), w)

end Sys2Proof.Machine
end

