-- ==== Sys2Proof/Machine/Cores.lean ====
section
/-! DEFINITION. The meanings of the events of a core's sequencer and units: DESCRIPTOR_ISSUE, the completions, MOVE_ARRIVAL and
STOP_POINT_REACHED (spec files 03, 04, 06, 07, 18). -/

namespace Sys2Proof.Machine

/-! ## DESCRIPTOR_ISSUE -/

/-- Loss-scale exponent of the step a stream serves (R235). -/
def Dev.lossExp (d : Dev) (c : Ctx) : Int :=
  match (d.plan c.plan).run_ c.second with | some r => r.lsExp | none => 0

/-- The copy of the descriptor at a stream offset that the sequencer issues, before patches. The pod sequencer loads a core's stream
(R107); where in the core store is not stated: DESIGN CHOICE, the stream takes no bytes of the core store that another agent could
see, and its descriptors are those of the plan image (log entry 38). -/
def Dev.fetch (d : Dev) (n : Nat) (c : Ctx) (o : Nat) : Nat × Nat :=
  let p := d.plan c.plan
  let (x, sz) := p.descAt (c.off + o)
  (if c.live then x else p.withLoss n (c.off + o) sz x (d.lossExp c), sz)

/-- The descriptor that the sequencer would issue next, its size, and whether it is a body descriptor (R96, R110). -/
def Dev.nextDesc (d : Dev) (n : Nat) (c : Ctx) : Option (Nat × Nat × Bool) :=
  match c.loop with
  | some l =>
    if l.waitClaim then none
    else match l.body[l.at_]? with
      | some (o, _) => let (x, sz) := d.fetch n c o; some (l.patch l.at_ x, sz, true)
      | none => none
  | none => if c.ended then none else let (x, sz) := d.fetch n c c.pc; some (x, sz, false)

/-- The next descriptor may issue (R63, R96 to R98). -/
def Dev.mayIssue (d : Dev) (n : Nat) (c : Ctx) (x : Nat) : Bool :=
  eventWaitDone x c.events && d.loopWaitDone c (n / 48) x && c.unitFree x && !c.claimBlocked n x

/-- The stream moves past a descriptor. -/
def Ctx.advance (c : Ctx) (sz : Nat) (body : Bool) : Ctx :=
  if body then { c with loop := c.loop.map (fun l => { l with at_ := l.at_ + 1 }) } else { c with pc := c.pc + max sz 64 }

/-- Tile of the loop a core is in, which the work-fault entry of a patched copy names (R109, R459). -/
def Ctx.tileOf (c : Ctx) : Nat × Nat :=
  match c.loop with | some l => (clCtr l.desc, l.idx.getD 0) | none => (0, 0)

/-- A CLAIM enters its tile loop (R108, R110, R560). -/
def Dev.enterLoop (d : Dev) (n : Nat) (c : Ctx) (x sz : Nat) : Ctx :=
  let p := d.plan c.plan
  let at0 := c.pc + sz
  let body := (p.nextDescs (clBody x) (c.off + at0)).map (fun (o, k) => (o - c.off, k))
  { c with pc := at0,
           loop := some { desc := x, pc := at0, body := body, seq := (clRef x + d.ctrBase c (n / 48) (clCtr x)) % 65536 } }

/-- The slot records of an ATTENTION descriptor as its check reads them: the batch index of the first that R187 rejects. -/
def Dev.badSlot (d : Dev) (n x : Nat) : Option Nat × Wk :=
  (List.range (aBatch x)).foldl (fun (r : Option Nat × Wk) b =>
    let (s, w) := r.2.slot x b
    (if r.1.isNone && !d.slotOk (n / 48) x s then some b else r.1, w)) (none, d.work n [])

/-- Issue descriptor `x` (R96): sequencer descriptors act at once, a unit's descriptor starts there; a patched copy that fails
its checks, or a bad slot record, fails the work instead (R109, R187). -/
def Dev.issue (d : Dev) (n : Nat) (c : Ctx) (x sz : Nat) (body : Bool) : Dev :=
  let ctx (f : Ctx) : Dev := d.updCore n (fun k => { k with ctx := some f })
  let counted (d : Dev) : Dev := (d.count (coreInst n) 0x10 1).traceDesc 1 n x
  let (ctr, tile) := c.tileOf
  if body && !d.copyOk n x (d.plan c.plan).syms then
    d.failWork c stBadParam (workFault (dId x) (n / 48) ctr tile 0 0 1)
  else match dOp x with
  | 0 => (counted (ctx { (c.advance sz body) with events := signal x c.events })).after n
  | 8 => (counted (ctx { (c.advance sz body) with events := signal x c.events, ended := true })).after n
  | 6 => counted (ctx (d.enterLoop n c x sz))
  | 4 =>
    let (first, w) := d.badSlot n x
    if w.bad then d.absorb n 0 0 x c w
    else match first with
    | some b => d.failWork c stBadParam (workFault (dId x) (n / 48) 0 0 b 0 2)
    | none => counted (ctx ((c.advance sz body).setOp 6 (some { desc := x, size := sz, body := body })))
  | _ =>
    let u := unitOf x
    let d1 := counted (ctx ((c.advance sz body).setOp u (some { desc := x, size := sz, body := body })))
    if dOp x = 1 ∨ dOp x = 3 then d1.count (engInst (4 * n + u)) 0x04 (panelSplits x) else d1

/-- DESCRIPTOR_ISSUE can happen: the core runs, nothing stops it, and its next descriptor may issue. -/
def Dev.canIssue (d : Dev) (n : Nat) : Bool :=
  d.coreLive n && (match (d.core n).ctx with
    | some c => !d.mustStop n c && (match d.nextDesc n c with | some (x, _, _) => d.mayIssue n c x | none => false)
    | none => false)

/-- Its effect. -/
def Dev.issueNext (d : Dev) (n : Nat) : Dev :=
  match (d.core n).ctx with
  | some c => match d.nextDesc n c with
    | some (x, sz, body) => d.issue n c x sz body
    | none => d
  | none => d

/-- An event of the device's work: it has an effect or cannot take place; after FATAL_PARITY no work goes on (R143). -/
def eventOpt (s : State) (d : Option Dev) : Res :=
  match d with | some d => if s.dev.pow.dead then .next s else nextDev s d | none => .next s

/-- A parity error in the memory of the control processors, which have no device address: a flaw of kind 3 stands for it (log entry
34). -/
def cpFlip (flips : List Nat) : Bool := flips.any (fun a => decide (3 * 2 ^ 48 ≤ a))

/-- FATAL_PARITY: the device stops all work and its fault summary says so (R142 to R144, R504, R554). -/
def Dev.fatalParity (d : Dev) : Dev :=
  let d1 := d.parity cobInst { unit := 13, die := 4 }
  { d1 with plat := { d1.plat with faultCode := 1, faultTime := d.plat.now, smbAlertLow := true }, host := d.host.irqPorts,
            pow := { d.pow with dead := true } }

/-- A work event that reads memory: a byte of the control processors that has lost its parity stops the device instead. -/
def eventFlips (s : State) (flips : List Nat) (d : Option Dev) : Res :=
  if cpFlip flips && s.dev.plat.phase == .ready && s.dev.plat.faultCode == 0 then nextDev s s.dev.fatalParity else eventOpt s d

/-- Parity error in a descriptor, a scoreboard or a tile record: the plan becomes invalid (R143, R144). -/
def Dev.structFault (d : Dev) (n : Nat) (c : Ctx) (unit a : Nat) : Dev :=
  (d.noteFault (if unit = 2 then coreInst n else podInst (n / 48)) unit (n / 48) 0 (d.workCmd c) a).breakPlan c

/-- DESCRIPTOR_ISSUE: the next descriptor issues, or its fetch from the core store meets a parity error (R96, R107, R143). -/
def Dev.issueFrom (d : Dev) (n : Nat) (flips : List Nat) : Option Dev :=
  if d.canIssue n then
    match (d.core n).ctx, flips.find? (fun a => a < 2 ^ 48) with
    | some c, some a => some (d.structFault n c 2 a)
    | _, _ => some (d.issueNext n)
  else none

/-- DESCRIPTOR_ISSUE (R96). -/
def execDescriptorIssue (core : Nat) (flips : List Nat) (s : State) : Res := eventFlips s flips (s.dev.issueFrom core flips)

/-! ## Completions (R90) -/

/-- The operation with opcode `op` that runs on unit `u` of core `n`, with its stream. -/
def Dev.running (d : Dev) (n u op : Nat) : Option (Ctx × Op) :=
  if d.coreLive n then
    match (d.core n).ctx with
    | some c => match c.op u with
      | some o => if dOp o.desc = op ∧ o.stopped = false then some (c, o) else none
      | none => none
    | none => none
  else none

/-- The last write of a MATMUL, CONV or COMBINE on engine `e`: its remaining tiles, then its completion. -/
def Dev.matDone (d : Dev) (n e : Nat) (flips : List Nat) (c : Ctx) (o : Op) : Dev :=
  let w := (d.work n flips).finishTiles o.desc (4 * n + e) ⟨mOutGrad o.desc, c.seed, c.step, mOutSym o.desc⟩ o.tiles
  (d.absorb n e 0 o.desc c w).opDone n e o

/-- A completion of an engine's operation. -/
def Dev.engineDone (d : Dev) (n e op : Nat) (flips : List Nat) : Option Dev :=
  if e < 4 then (d.running n e op).map (fun (c, o) => d.matDone n e flips c o) else none

/-- MATMUL_COMPLETE (R90). -/
def execMatmulComplete (core engine : Nat) (flips : List Nat) (s : State) : Res := eventFlips s flips (s.dev.engineDone core engine 1 flips)

/-- CONV_COMPLETE (R156 to R169). -/
def execConvComplete (core engine : Nat) (flips : List Nat) (s : State) : Res := eventFlips s flips (s.dev.engineDone core engine 3 flips)

/-- COMBINE_COMPLETE (R117 to R119). -/
def execCombineComplete (core engine : Nat) (flips : List Nat) (s : State) : Res := eventFlips s flips (s.dev.engineDone core engine 5 flips)

/-- A VECTOR ends; it has waited for accumulator tiles that an operation holds (R63, R99). -/
def Dev.vectorDone (d : Dev) (n : Nat) (flips : List Nat) : Option Dev :=
  match d.running n 4 2 with
  | none => none
  | some (c, o) =>
    if (touches o.desc).any (d.accHeld n) then none
    else some ((d.absorb n 0 1 o.desc c ((d.work n flips).vector o.desc c.seed c.step)).opDone n 4 o)

/-- VECTOR_COMPLETE (R97, R99). -/
def execVectorComplete (core : Nat) (flips : List Nat) (s : State) : Res := eventFlips s flips (s.dev.vectorDone core flips)

/-- The accumulator memory of a core's engines after units of an ATTENTION: it has held scores and partial outputs, at places the spec
does not give, so every byte is free (R188; log entry 8). -/
def Wk.freeAcc (w : Wk) (n : Nat) : Wk := w.write (accWin (4 * n)) (freeBytes w.free 0x100000)

/-- Units `u0` to `u1` of an ATTENTION on core `n`, with what they leave in the accumulators. -/
def Wk.attention (w : Wk) (n x seed step u0 u1 : Nat) : Wk := (w.attnUnits x seed step u0 u1).freeAcc n

/-- An ATTENTION ends, or meets an issue fault; it waits for PENDING pages (R187, R189). -/
def Dev.attnDone (d : Dev) (n : Nat) (flips : List Nat) : Option Dev :=
  match d.running n 6 4 with
  | none => none
  | some (c, o) =>
    let x := o.desc
    let w := d.work n flips
    let drop (d : Dev) : Dev := d.updCore n (fun k => { k with ctx := k.ctx.map (fun c => c.setOp 6 none) })
    match w.unitsBad x o.tiles (aUnits x), w.unitsFault x o.tiles (aUnits x) with
    | some a, _ => some (drop ((d.noteFault (coreInst n) 0 (n / 48) (dId x) (d.workCmd c) a).breakPlan c))
    | none, some (b, e) => some (drop (d.failWork c stBadParam (workFault (dId x) (n / 48) 0 0 b e 2)))
    | none, none =>
      if w.unitsWait x o.tiles (aUnits x) then none
      else some ((d.absorb n 0 0 x c (w.attention n x c.seed c.step o.tiles (aUnits x))).opDone n 6 o)

/-- ATTENTION_COMPLETE (R188). -/
def execAttentionComplete (core : Nat) (flips : List Nat) (s : State) : Res := eventFlips s flips (s.dev.attnDone core flips)

/-- The arrival signal that a MOVE owes (R148, R485). -/
def arriveOf (x : Nat) : List (Nat × Nat × Nat × Nat) :=
  let t := moveXfer x
  let w := if t.writes && inHost 0 t.dst then 1 else if t.writes && inHost 1 t.dst then 2 else 0
  if mvKind x != 3 && bit x 132 then [(bits x 133 2, bits x 135 6, bits x 141 4, w)] else []

/-- A MOVE's transfer meets an unbacked byte as it runs (R487). -/
def Dev.moveUnbacked (d : Dev) (x : Nat) : Bool :=
  if mvKind x = 3 then !d.backed (moveDest x).ext.1 (moveDest x).ext.2 else (d.xferUnbacked (moveXfer x)).isSome

/-- The transfer of a MOVE. -/
def Wk.move (w : Wk) (x seed step : Nat) : Wk := if mvKind x = 3 then w.generate x seed step else w.xfer (moveXfer x)

/-- One more on an event counter of the stream that serves the same plan on core `m`. -/
def Core.gain (k : Core) (plan ev : Nat) : Core :=
  let up (c : Ctx) : Ctx := { c with events := Tab.upd 0 c.events ev (fun v => (v + 1) % 65536) }
  match k.ctx with
  | some c =>
    if c.plan = plan then { k with ctx := some (up c) }
    else { k with saved := k.saved.map (fun c => if c.plan = plan then up c else c) }
  | none => { k with saved := k.saved.map (fun c => if c.plan = plan then up c else c) }

/-- The first arrival signal due from core `n`: it reaches its core (R148). -/
def Dev.arrive (d : Dev) (n : Nat) : Option Dev :=
  match (d.core n).ctx with
  | some c => match c.arrivals with
    | (p, m, ev, _) :: rest =>
      let d := d.updCore n (fun k => { k with ctx := some { c with arrivals := rest } })
      some ((d.updCore (48 * p + m) (fun k => k.gain c.plan ev)).after n)
    | [] => none
  | none => none

/-- MOVE_ARRIVAL (R148, R485). -/
def execMoveArrival (core : Nat) (s : State) : Res := eventOpt s (s.dev.arrive core)

/-! ## STOP_POINT_REACHED (R88) -/

/-- An engine's operation stops at a stop point with `tiles` output tiles, or an ATTENTION with that many units, completed. -/
def Dev.stopAt_ (d : Dev) (n e tiles : Nat) (flips : List Nat) : Option Dev :=
  match (d.core n).ctx with
  | none => none
  | some c =>
    if !d.coreLive n || !d.mustStop n c then none
    else
      let u := if (c.op 6).isSome then 6 else e
      match c.op u with
      | none => none
      | some o =>
        let x := o.desc
        let set (d : Dev) : Dev := (d.updCore n (fun k => { k with ctx := k.ctx.map (fun c =>
          c.setOp u (some { o with tiles := tiles, stopped := true })) })).after n
        if o.stopped || tiles ≤ o.tiles then none
        else if u = 6 then
          let w := d.work n flips
          if aUnits x ≤ tiles || (w.unitsBad x o.tiles tiles).isSome || (w.unitsFault x o.tiles tiles).isSome || w.unitsWait x o.tiles tiles then none
          else some (set (d.absorb n 0 0 x c (w.attention n x c.seed c.step o.tiles tiles)))
        else if u < 4 && stopAtOk x tiles then
          some (set (d.absorb n u 0 x c ((d.work n flips).tiles x (4 * n + u) ⟨mOutGrad x, c.seed, c.step, mOutSym x⟩ o.tiles tiles)))
        else none

/-- STOP_POINT_REACHED (R88, R113, R366, R396, R460). -/
def execStopPointReached (core engine tiles : Nat) (flips : List Nat) (s : State) : Res :=
  eventFlips s flips (s.dev.stopAt_ core engine tiles flips)

end Sys2Proof.Machine
end

