-- ==== Sys2Proof/Machine/Encoder.lean ====
section
/-! DEFINITION. The video encoder (spec file 13, R331 to R344; 0x0D01 to 0x0D04 of 17): sessions, submissions, rate control, refresh
and the slice ring. The coding itself is the standards': opaque functions of what the spec says it depends on (R338; log entry 9). -/

namespace Sys2Proof.Machine

/-! ## The configuration record (R335) -/

def ecCodec (c : Nat) : Nat := bits c 0 2
def ecLevel (c : Nat) : Nat := bits c 8 8
def ecW (c : Nat) : Nat := bits c 16 16
def ecH (c : Nat) : Nat := bits c 32 16
def ecNum (c : Nat) : Nat := bits c 48 16
def ecDen (c : Nat) : Nat := bits c 64 16
def ecRate (c : Nat) : Nat := bits c 80 32
def ecVbv (c : Nat) : Nat := bits c 112 32
def ecQpInit (c : Nat) : Nat := bits c 144 6
def ecQpMin (c : Nat) : Nat := bits c 150 6
def ecQpMax (c : Nat) : Nat := bits c 156 6
def ecSliceRows (c : Nat) : Nat := bits c 162 5
def ecLive (c : Nat) : Bool := bit c 167
def ecRefresh (c : Nat) : Nat := bits c 168 8
def ecRing (c : Nat) : Nat := bits c 208 48
def ecRingSize (c : Nat) : Nat := bits c 256 32
def ecWait (c : Nat) : Nat := bits c 288 32

/-- Block size, block rows and block columns (R331, R341). -/
def ecBlock (c : Nat) : Nat := if ecCodec c = 0 then 16 else 64
def ecRows (c : Nat) : Nat := ceilDiv (ecH c) (ecBlock c)
def ecCols (c : Nat) : Nat := ceilDiv (ecW c) (ecBlock c)

/-- The picture budget P (R339). -/
def ecBudget (c : Nat) : Nat := ecRate c * ecDen c / max (ecNum c) 1

/-- The levels as the standards code them, up to the largest of R331: level_idc, 9 for level 1b of the High profile, and general_level_idc,
30 times the level (PRESUMED from the two standards; log entry 49). -/
def ecLevels (c : Nat) : List Nat :=
  if ecCodec c = 0 then [9, 10, 11, 12, 13, 20, 21, 22, 30, 31, 32, 40, 41, 42, 50, 51, 52] else [30, 60, 63, 90, 93, 120, 123, 150, 153]

/-- The record's fields lie in their ranges, and the ring can be written (R331, R332, R335). -/
def Dev.encOk (d : Dev) (c : Nat) : Bool :=
  ecCodec c < 3 && (ecLevels c).contains (ecLevel c) && 128 ≤ ecW c && ecW c ≤ 3840 && ecW c % 8 == 0 && 64 ≤ ecH c && ecH c ≤ 2160
    && ecH c % 8 == 0 && 1 ≤ ecNum c && 1 ≤ ecDen c && ecNum c ≤ 60 * ecDen c && 64000 ≤ ecRate c && ecRate c ≤ 400000000
    && ecBudget c ≤ ecVbv c && ecQpInit c ≤ 51 && ecQpMin c ≤ ecQpMax c && ecQpMax c ≤ 51 && 1 ≤ ecSliceRows c && ecSliceRows c ≤ 16
    && 2 ≤ ecRefresh c && ecRing c % 64 == 0 && ((List.range 13).any (fun i => ecRingSize c == 2 ^ (16 + i))) && 1 ≤ ecWait c
    && ecWait c ≤ 1000000 && (d.unwritable (ecRing c) (ecRingSize c)).isNone

/-! ## Sessions (R334) -/

/-- A session, and a change of it. -/
def Enc.sess_ (e : Enc) (n : Nat) : EncSess := Tab.get {} e.sess n
def Dev.updSess (d : Dev) (n : Nat) (f : EncSess → EncSess) : Dev := { d with enc := { d.enc with sess := Tab.upd {} d.enc.sess n f } }

/-- The lowest free session, and the one with the oldest claim. -/
def HostIf.freeSess (h : HostIf) : Option Nat := firstIdx (fun n => h.own (0x20 + n) == 0) 4
def Enc.oldest (e : Enc) : Nat :=
  (List.range 4).foldl (fun m n => if (e.sess_ n).order < (e.sess_ m).order then n else m) 0

/-- A session opens: claimed, its configuration written, domain 82 asked for (R334, R388). -/
def Dev.openSess (d : Dev) (n port cfg : Nat) : Dev :=
  let s : EncSess := { opened := true, order := d.enc.nextOrder, cfg := cfg, qpCarry := ecQpInit cfg }
  ({ d with enc := { d.enc with sess := Tab.set {} d.enc.sess n s, nextOrder := d.enc.nextOrder + 1 },
            host := d.host.setOwner (0x20 + n) (port + 1) }).demand 82

/-- ENC_OPEN (R334, R335). -/
def execEncOpen (q config : Nat) (s : State) : Res :=
  startCmd s q 0x0D01 [1024] [config]
    (fun d => { param := if d.encOk config then none else some 0,
                own := if d.host.freeSess.isSome then none
                  else some (stBusy, ownDetail (d.host.own (0x20 + d.enc.oldest)) (0x20 + d.enc.oldest), []) })
    (fun d c => (d.openSess (d.host.freeSess.getD 0) (q / 8) config).finish c.id stDone (d.host.freeSess.getD 0) [])

/-! ## Submissions (R336, R337) -/

/-- Bytes of a 4:2:0 picture with its header (R288, R337). -/
def encLuma (c : Nat) : Nat := roundUp (2 * ecW c) 64 * ecH c
def encChroma (c : Nat) : Nat := roundUp (ecW c) 64 * (ecH c / 2)
def encBytes (c : Nat) : Nat := 64 + encLuma c + 2 * encChroma c

/-- A submitted picture lies in device memory, and its header fits the session (R337). -/
def Dev.pictureOk (d : Dev) (c a : Nat) : Bool :=
  d.backed a (encBytes c) && a + encBytes c ≤ hostBase 0 &&
    (let h := rdNat d.mem a 64
     bits h 0 16 == ecW c && bits h 16 16 == ecH c && bits h 32 3 == 1 && bits h 35 2 == 1
      && (bits h 37 5 == 8 || (bits h 37 5 == 10 && ecCodec c == 2)))

/-- ENC_SUBMIT: a fifth picture fails and names the session (R336); the final reply is that of R343. -/
def execEncSubmit (q session forceIdr picture pts : Nat) (s : State) : Res :=
  let lay := [2, 1, 64, 64]
  let a := picture % 2 ^ 48
  startCmd s q 0x0D02 lay [session, forceIdr, picture, pts]
    (fun d =>
      let x := d.enc.sess_ session
      { param := if !x.opened || d.pictureOk x.cfg a then none else some (fieldByte lay 2),
        own := match d.host.ownRefusal (q / 8) (0x20 + session) with
          | some r => some r
          | none => if 4 ≤ x.queue.length || x.closeCmd != 0 then some (stBusy, ownDetail (q / 8 + 1) (0x20 + session), []) else none })
    (fun d c =>
      let x := d.enc.sess_ session
      let e : EncSub := { cmd := c.id, idr := forceIdr == 1, addr := a, pic := rdBytes d.mem a (encBytes x.cfg), pts := pts, seq := d.enc.nextOrder }
      let d := d.updSess session (fun x => { x with queue := x.queue ++ [e] })
      { d with enc := { d.enc with nextOrder := d.enc.nextOrder + 1 } }.demand 82)

/-- The fields that ENC_CONFIG may change, cleared: BITRATE, VBV_SIZE, QP_MIN, QP_MAX and SLICE_ROWS, and the RESERVED ones. -/
def ecFixed (c : Nat) : List Nat :=
  [bits c 0 2, bits c 8 8, bits c 16 64, bits c 144 6, bits c 167 34, bits c 208 48, bits c 256 64]

/-- ENC_CONFIG: the configuration of the next picture that has not started (R339). -/
def execEncConfig (q session config : Nat) (s : State) : Res :=
  let lay := [2, 1024]
  startCmd s q 0x0D03 lay [session, config]
    (fun d =>
      let x := d.enc.sess_ session
      { param := if !x.opened || (d.encOk config && ecFixed config == ecFixed x.cfg) then none else some (fieldByte lay 1),
        own := d.host.ownRefusal (q / 8) (0x20 + session) })
    (doneAt (fun d => d.updSess session (fun x => { x with pend := some config })))

/-! ## Closing (R344) -/

/-- A closed session's entry is free; without a session the domain's idle time begins. -/
def Dev.freeSession (d : Dev) (n : Nat) : Dev :=
  let cmd := (d.enc.sess_ n).closeCmd
  let d1 := { d with enc := { d.enc with sess := Tab.set {} d.enc.sess n {} }, host := d.host.setOwner (0x20 + n) 0,
                     pow := d.pow.idle 82 d.plat.now }
  if cmd = 0 then d1 else d1.finish cmd stDone 0 []

/-- The session closes once no picture of it is being coded. -/
def Dev.endSession (d : Dev) (n : Nat) : Dev :=
  let x := d.enc.sess_ n
  let busy := match d.enc.cur with | some (m, _) => m == n | none => false
  if x.opened && (x.closeCmd != 0 || x.portLost) && !busy then d.freeSession n else d

/-- DETAIL of a submission's reply: the QP of the last row coded and the number of slices (R343). -/
def EncCur.detail (c : EncCur) : Nat := packBits [(6, c.qps.getLastD 0), (8, c.slices)]

/-- The picture being coded leaves the encoder with a status. -/
def Dev.endPicture (d : Dev) (n : Nat) (c : EncCur) (status : Nat) : Dev :=
  (({ d with enc := { d.enc with cur := none } }).finish c.sub.cmd status c.detail [8 * c.bytes]).endSession n

/-- One more in ENC_RING_WAIT at each whole us for which the encoder waits for ring space (R342). -/
def Dev.ringTick (d : Dev) : Dev :=
  match d.enc.cur with
  | some (_, c) => match c.waitAt with
    | some t => if t < d.plat.now ∧ (d.plat.now - t) % 1000 = 0 then d.count cobInst 0x4A 1 else d
    | none => d
  | none => d

/-- The rest of the picture is dropped: ABORTED, no bits enter F, and the next picture is an IDR picture (R342). -/
def Dev.dropPicture (d : Dev) (n : Nat) (c : EncCur) : Dev :=
  (((d.count cobInst 0x4B 1).updSess n (fun x => { x with needIdr := true })).endPicture n c stAborted)

/-- A session begins to close: its queued pictures complete ABORTED, a picture that waits for ring space is dropped (R344). -/
def Dev.closeSession (d : Dev) (n : Nat) (f : EncSess → EncSess) : Dev :=
  let subs := (d.enc.sess_ n).queue
  let d := subs.foldl (fun d e => d.finish e.cmd stAborted 0 []) (d.updSess n (fun x => f { x with queue := [] }))
  match d.enc.cur with
  | some (m, c) => if m = n ∧ c.waitAt.isSome then d.dropPicture n c else d.endSession n
  | none => d.endSession n

/-- ENC_CLOSE (R344). -/
def execEncClose (q session : Nat) (s : State) : Res :=
  startCmd s q 0x0D04 [2] [session]
    (fun d =>
      { own := match d.host.ownRefusal (q / 8) (0x20 + session) with
          | some r => some r
          | none => if (d.enc.sess_ session).closeCmd != 0 then some (stBusy, ownDetail (q / 8 + 1) (0x20 + session), []) else none })
    (fun d c => d.closeSession session (fun x => { x with closeCmd := c.id }))

/-! ## ENC_PICTURE_START (R336, R337, R339 to R341) -/

/-- The session served next: the lowest LIVE session with a picture, else the next non-live one in rotation (R336). -/
def Enc.next (e : Enc) : Option Nat :=
  let has (n : Nat) : Bool := (e.sess_ n).opened && (e.sess_ n).queue != []
  match firstIdx (fun n => has n && ecLive (e.sess_ n).cfg) 4 with
  | some n => some n
  | none => ((List.range 4).map (fun i => (e.rr + 1 + i) % 4)).find? has

/-! ## Samples (R288, R337) -/

/-- First byte in the picture and row pitch of each plane, with its width and height. -/
def ecPlanes (c : Nat) : List (Nat × Nat × Nat × Nat) :=
  [(64, roundUp (2 * ecW c) 64, ecW c, ecH c), (64 + encLuma c, roundUp (ecW c) 64, ecW c / 2, ecH c / 2),
   (64 + encLuma c + encChroma c, roundUp (ecW c) 64, ecW c / 2, ecH c / 2)]

/-- Rows `lo` to `hi` of a plane as they stand, in the coded bit depth: an 8-bit picture under HEVC_MAIN10 at four times its samples. -/
def planeSamples (c : Nat) (b : List Byte) (p : Nat × Nat × Nat × Nat) (lo hi : Nat) : List Nat :=
  let k := if ecCodec c = 2 && bits (leNat (b.take 64)) 37 5 == 8 then 4 else 1
  ((List.range (min hi p.2.2.2 - lo)).map (fun y => (List.range p.2.2.1).map (fun x =>
    k * leNat ((b.drop (p.1 + (lo + y) * p.2.1 + 2 * x)).take 2)))).flatten

/-- Largest coded sample. -/
def ecMax (c : Nat) : Nat := if ecCodec c = 2 then 1023 else 255

/-- The samples that are coded: one above the coded maximum at that maximum (R337). -/
def ecSamples (c : Nat) (b : List Byte) : List Nat :=
  ((ecPlanes c).map (fun p => (planeSamples c b p 0 p.2.2.2).map (fun v => min v (ecMax c)))).flatten

/-- Samples of block row `j` above the coded maximum (R337). -/
def ecClips (c : Nat) (b : List Byte) (j : Nat) : Nat :=
  ((ecPlanes c).map (fun p =>
    let rows := if p.1 = 64 then ecBlock c else ecBlock c / 2
    ((planeSamples c b p (j * rows) ((j + 1) * rows)).filter (fun v => ecMax c < v)).length)).sum

/-- Block column of sample `i` of the planes in order. -/
def ecColumn (c i : Nat) : Nat :=
  if i < ecW c * ecH c then i % ecW c / ecBlock c else (i - ecW c * ecH c) % (ecW c / 2) / (ecBlock c / 2)

/-- The samples of the block columns below `k`; the others are left out. -/
def ecBelow (c k : Nat) (ref : List Nat) : List Nat := (ref.zipIdx.filter (fun e => ecColumn c e.2 < k)).map (·.1)

/-- A QP clamped to its range, and whether the clamp changed it (R339). -/
def clampQp (c : Nat) (q : Int) : Nat × Nat :=
  let v := min (max q (ecQpMin c)) (ecQpMax c)
  (v.toNat, b2n (v != q))

/-- The picture that starts: an IDR picture, or picture k of its refresh cycle; parameter sets come with an IDR picture too, which a stream
cannot do without (R339 to R341; log entry 28). -/
def EncSess.picture (x : EncSess) (cfg : Nat) (e : EncSub) : EncCur :=
  let idr := e.idr || x.needIdr
  let k := x.sinceIdr % max (ecRefresh cfg) 1
  let w := ceilDiv (ecCols cfg) (max (ecRefresh cfg) 1)
  { sub := e, idr := idr, params := idr || k == 0, recovery := !idr && k == 0,
    intra := if idr then (0, ecCols cfg) else (min (k * w) (ecCols cfg), min ((k + 1) * w) (ecCols cfg)) }

/-- The next picture starts; a parity error among its bytes decides its submission's result (R143; log entry 28). -/
def Dev.startPicture (d : Dev) : Option Dev :=
  if d.enc.cur.isSome ∨ !d.pow.runs 82 then none
  else match d.enc.next with
    | none => none
    | some n =>
      let x := d.enc.sess_ n
      match x.queue with
      | [] => none
      | e :: rest =>
        let cfg := x.pend.getD x.cfg
        let err := firstBad d.poison e.addr (encBytes cfg)
        let cur := { x.picture cfg e with bad := err.isSome }
        let d1 := d.updSess n (fun x => { x with cfg := cfg, pend := none, queue := rest, needIdr := false,
                                                 sinceIdr := if cur.idr then 0 else x.sinceIdr + 1 })
        let d2 := { d1 with enc := { d1.enc with cur := some (n, cur), rr := if ecLive cfg then d1.enc.rr else n } }
        some (match err with
          | some a => d2.parity cobInst { unit := 14, die := 4, addr := a, port := d2.host.own (0x20 + n), opcode := 0x0D02,
                                          tag := (match d2.host.cmd e.cmd with | some c => c.pkt.tag | none => 0) }
          | none => d2)

/-- ENC_PICTURE_START. -/
def execEncPictureStart (s : State) : Res := eventOpt s s.dev.startPicture

/-! ## Rows and slices (R339, R342) -/

/-- The cumulative target T_j (R339). -/
def ecTarget (c j : Nat) : Nat := ecBudget c * (j + 1) / max (ecRows c) 1

/-- QP of the row after row `j` with `acc` bits so far, before the clamp (R339). -/
def nextQp (c qp j acc : Nat) : Int :=
  let t := ecTarget c j
  let tol := ecBudget c / (2 * max (ecRows c) 1)
  let q : Int := qp
  if t + tol < acc then q + 1 else if acc + tol < t then q - 1 else q

/-- A slice's rows are coded and it is not written. -/
def EncCur.sliceDue (x : EncCur) (c : Nat) : Bool :=
  x.written < x.row && (x.row == ecRows c || x.row == x.written + ecSliceRows c)

/-- QP of the row that is coded next, and whether a clamp changed it (R339). -/
def EncSess.rowQp (s : EncSess) (x : EncCur) : Nat × Nat :=
  let q : Int := if x.row = 0 then (s.qpCarry : Int) + (if ecVbv s.cfg / 2 < s.fill then 2 else 0)
    else nextQp s.cfg (x.qps.getLastD 0) (x.row - 1) x.acc
  clampQp s.cfg q

/-- The reference picture of a picture: none for an IDR picture (R340). -/
def EncSess.refOf (s : EncSess) (x : EncCur) : List Nat := if x.idr then [] else s.ref

/-- The next block row is coded: its QP, its slice data, and what its samples clip (R337 to R339). A picture that no longer stands in memory
as it was submitted gives bytes that are not defined. -/
def Dev.codeRow (d : Dev) (n : Nat) (x : EncCur) : Dev :=
  let s := d.enc.sess_ n
  let c := s.cfg
  let (q, clamps) := s.rowQp x
  let lost := x.changed = 0 && rdBytes d.mem x.sub.addr (encBytes c) != x.sub.pic
  let changed := if lost then d.plat.freeCount + 1 else x.changed
  let row := Config.encRow c changed (ecSamples c x.sub.pic) (s.refOf x) x.idr x.intra (x.qps ++ [q])
  let y := { x with row := x.row + 1, qps := x.qps ++ [q], acc := x.acc + row.length, data := x.data ++ row, changed := changed }
  let d := if lost then { d with plat := { d.plat with freeCount := d.plat.freeCount + 1 } } else d
  (({ d with enc := { d.enc with cur := some (n, y) } }).count cobInst 0x48 (ecClips c x.sub.pic x.row)).count cobInst 0x49 clamps

/-- ENC_ROW_CODED (R339). -/
def execEncRowCoded (s : State) : Res :=
  let d := s.dev
  match d.enc.cur with
  | none => .next s
  | some (n, x) =>
    let c := (d.enc.sess_ n).cfg
    workEvent s (d.pow.runs 82 && x.row < ecRows c && !x.sliceDue c) (d.codeRow n x)

/-- Bytes of the ring after its header. -/
def ecRoom (c : Nat) : Nat := ecRingSize c - 64

/-- Write ring bytes from an offset on, going on at the first record position past the end (R342). -/
def Dev.ringPut (d : Dev) (c o : Nat) (bs : List Byte) (bad : Bool) : Dev :=
  let n := min bs.length (ecRoom c - o)
  (d.put (ecRing c + 64 + o) (bs.take n) bad).put (ecRing c + 64) (bs.drop n) bad

/-- A record of `len` bytes fits between WRITE_OFFSET and READ_OFFSET; equal offsets are an empty ring (R342; log entry 28). -/
def Dev.recordFits (d : Dev) (c w len : Nat) : Bool :=
  let r := rdNat d.mem (ecRing c + 8) 8
  let room := ecRoom c
  (w + room - r % room) % room + len < room

/-- A slice's record and its header (R342). -/
def sliceRecord (x : EncCur) (rows now : Nat) (slice : List Byte) : List Byte :=
  let h := packBits [(32, slice.length), (16, x.written), (1, b2n (x.row == rows)), (1, b2n x.idr), (14, 0), (64, x.sub.pts), (64, now)]
  let body := leBytes 32 h ++ slice
  body ++ List.replicate (roundUp body.length 64 - body.length) 0

/-- The Annex B bytes of the slice that is due: a picture's first slice brings the parameter sets and the SEI with it (R332, R341, R342). -/
def EncCur.slice (x : EncCur) (c : Nat) : List Byte :=
  (if x.written = 0 && x.params then Config.encParams c (ecRows c * ecBlock c - ecH c) else [])
    ++ (if x.written = 0 && x.recovery then Config.encRecovery c (ecRefresh c - 1) else [])
    ++ Config.encNal c x.idr x.written x.data

/-- A slice is written, and WRITE_OFFSET passes its record; its bytes are those of the whole record (R339, R342; log entry 28). -/
def Dev.putSlice (d : Dev) (n : Nat) (x : EncCur) (slice : List Byte) : Dev :=
  let e := d.enc.sess_ n
  let c := e.cfg
  let rec_ := sliceRecord x (ecRows c) d.plat.now slice
  let w := (e.woff + rec_.length) % ecRoom c
  let d1 := (d.ringPut c e.woff rec_ x.bad).storeNat (ecRing c) 8 w
  let y : EncCur := { x with written := x.row, data := [], bytes := x.bytes + rec_.length, slices := x.slices + 1, waitAt := none }
  { d1 with enc := { d1.enc with cur := some (n, y) } }.updSess n (fun s => { s with woff := w })

/-- ENC_SLICE_WRITE: the slice's record is written where it fits; otherwise the encoder waits (R342). -/
def execEncSliceWrite (s : State) : Res :=
  let d := s.dev
  match d.enc.cur with
  | none => .next s
  | some (n, x) =>
    let e := d.enc.sess_ n
    let slice := x.slice e.cfg
    let wait : EncCur := { x with waitAt := some (x.waitAt.getD d.plat.now) }
    workEvent s (x.sliceDue e.cfg)
      (if d.recordFits e.cfg e.woff (roundUp (32 + slice.length) 64) then d.putSlice n x slice
       else { d with enc := { d.enc with cur := some (n, wait) } })

/-- ENC_RING_WAIT_LIMIT: after RING_WAIT_LIMIT us the rest of the picture is dropped (R342). -/
def execEncRingWaitLimit (s : State) : Res :=
  let d := s.dev
  match d.enc.cur with
  | none => .next s
  | some (n, x) =>
    let c := (d.enc.sess_ n).cfg
    workEvent s (match x.waitAt with | some t => decide (t + 1000 * ecWait c ≤ d.plat.now) | none => false) (d.dropPicture n x)

/-- The picture as a decoder shows it, which the next one refers to (R340, R341). -/
def EncSess.decoded (s : EncSess) (x : EncCur) : List Nat :=
  let c := s.cfg
  let pic := ecSamples c x.sub.pic
  let clean := Config.encClean c x.changed pic (ecBelow c x.intra.1 (s.refOf x)) x.intra x.qps
  let rest := Config.encRest c x.changed pic (s.refOf x) x.intra x.qps
  (List.range pic.length).map (fun i => if ecColumn c i < x.intra.2 then clean.getD i 0 else rest.getD i 0)

/-- ENC_PICTURE_DONE: the last record has arrived; F and qp_carry are carried on and the submission's reply is sent (R339, R343). -/
def execEncPictureDone (s : State) : Res :=
  let d := s.dev
  match d.enc.cur with
  | none => .next s
  | some (n, x) =>
    let c := (d.enc.sess_ n).cfg
    let d1 := d.updSess n (fun e => { e with fill := e.fill + 8 * x.bytes - ecBudget c, qpCarry := x.qps.getLastD e.qpCarry, ref := e.decoded x })
    workEvent s (x.written == ecRows c) (d1.endPicture n x (if x.bad then stParity else stDone))

end Sys2Proof.Machine
end

