-- ==== Sys2Proof/Machine/ParamOps.lean ====
section
/-! DEFINITION. Parameter state on the Cob (spec file 10): the group records (R242), the shards (R241), the state blocks with
their headers and sections (R247, R248), their homes and staged copies (R256 to R259), and the run state (R465). -/

namespace Sys2Proof.Machine

/-! ## Group records (R242) -/

/-- Rule of a group: 0 SGD, 1 SGD_NESTEROV, 2 ADAMW, 3 LION, 4 LAMB, 5 ADAFACTOR. -/
def oRule (g : Nat) : Nat := bits g 0 4
def oSplit (g : Nat) : Bool := bit g 4
def oFmtM (g : Nat) : Nat := bits g 8 16
def oFmtV (g : Nat) : Nat := bits g 24 16
def oFmtW (g : Nat) : Nat := bits g 40 16
def oLr (g : Nat) : XR := fp32 (bits g 64 32)
def oB1 (g : Nat) : XR := fp32 (bits g 96 32)
def oB2 (g : Nat) : XR := fp32 (bits g 128 32)
def oEps (g : Nat) : XR := fp32 (bits g 160 32)
def oWd (g : Nat) : XR := fp32 (bits g 192 32)
def oClip (g : Nat) : XR := fp32 (bits g 224 32)
def oEps2 (g : Nat) : XR := fp32 (bits g 256 32)
def oClipD (g : Nat) : XR := fp32 (bits g 288 32)
def oT0 (g : Nat) : Nat := bits g 320 64
def oC1 (g : Nat) : XR := fp32 (bits g 384 32)
def oC2 (g : Nat) : XR := fp32 (bits g 416 32)
def oBc1 (g : Nat) : XR := fp32 (bits g 448 32)
def oBc2 (g : Nat) : XR := fp32 (bits g 480 32)

/-- The rule uses a second slot or factors. -/
def oHasV (g : Nat) : Bool := oRule g == 1 || oRule g == 2 || oRule g == 4 || oRule g == 5
/-- The rule uses B2. -/
def oHasB2 (g : Nat) : Bool := 2 ≤ oRule g

/-- Exact power of a finite value. -/
def XR.powN (x : XR) (t : Nat) : XR :=
  match x with
  | .fin q => .fin (q.pow t)
  | .zero _ => .zero false
  | y => y

/-- 1 less a value, rounded: C1, C2, BC1, BC2 (R242). -/
def oneLess (x : XR) : Nat := fp32Code (rn ((XR.ofInt 1).sub x))

/-- A group record with the fields that firmware derives at the start of step `s` (R242). -/
def deriveGroup (g s : Nat) : Nat :=
  let t := s + 1 - oT0 g
  setBits (setBits (setBits (setBits g 384 32 (oneLess (oB1 g))) 416 32 (oneLess (oB2 g)))
    448 32 (oneLess ((oB1 g).powN t))) 480 32 (oneLess ((oB2 g).powN t))

/-- A group record without its RESERVED bits, which the device ignores and reads as 0 (R14). -/
def cleanGroup (g : Nat) : Nat :=
  packBits [(5, bits g 0 5), (3, 0), (16, bits g 8 11), (16, bits g 24 11), (16, bits g 40 11), (8, 0), (448, bits g 64 448)]

/-- A group record as the host writes it: the RO fields stay firmware's (R242). -/
def writtenGroup (g : Nat) : Nat := setBits (cleanGroup g) 384 128 0

/-- 0 ≤ x < 1. -/
def unitIval (x : XR) : Bool := x.isFinite && (x.isZero || !x.isNeg) && x.lt (XR.ofInt 1)
/-- Positive and finite. -/
def posFin (x : XR) : Bool := x.isFinite && !x.isZero && !x.isNeg
/-- Zero or positive, finite. -/
def zeroPos (c : Nat) : Bool := c == 0 || posFin (fp32 c)

/-- An FP8 format word with BLOCK 1 to 4 and only rounding modes that exist. -/
def isFp8 (w : Nat) : Bool := (fwFmt w == .e4m3 || fwFmt w == .e5m2) && fwOkResult w && fwBlk w != 0
/-- A wide format word of one of two formats. -/
def isWideOf (w : Nat) (f g : Fmt) : Bool := fwOkResult w && fwBlk w == 0 && (fwFmt w == f || fwFmt w == g)

/-- Conditions of a group record (R242, R243, R558). -/
def groupConds (g : Nat) : List Bool :=
  [ decide (oRule g < 6), isWideOf (oFmtM g) .fp32 .bf16 || isFp8 (oFmtM g),
    !oHasV g || isWideOf (oFmtV g) .fp32 .bf16,
    isWideOf (oFmtW g) .bf16 .bf16 || isFp8 (oFmtW g),
    (oLr g).isFinite && ((oLr g).isZero || !(oLr g).isNeg), unitIval (oB1 g), !oHasB2 g || unitIval (oB2 g),
    !(oRule g == 2 || oRule g == 4) || posFin (oEps g), (oWd g).isFinite, zeroPos (bits g 224 32),
    oRule g != 5 || posFin (oEps2 g), oRule g != 4 || zeroPos (bits g 256 32),
    oRule g != 5 || posFin (oClipD g) ]

/-- Group record of a plan. -/
def Plan.group (p : Plan) (n : Nat) : Nat := Tab.get 0 p.groups n

/-! ## Tensors and shards (R240, R241) -/

/-- SHARD_ELEMS. -/
def Plan.shardElems (p : Plan) : Nat := 2 ^ p.shardLog2
/-- Shards of a tensor. -/
def Plan.shards (p : Plan) (t : TensorDecl) : Nat := ceilDiv t.elems p.shardElems
/-- The tensor of a layer and index. -/
def Plan.tensor (p : Plan) (layer tensor : Nat) : Option TensorDecl := p.tensors.find? (fun t => t.layer == layer && t.tensor == tensor)
/-- Symbol by number. -/
def Plan.sym (p : Plan) (n : Nat) : Option Sym := p.syms.find? (fun s => s.num == n)
/-- Insert by layer and tensor. -/
def insTensor (t : TensorDecl) : List TensorDecl → List TensorDecl
  | [] => [t]
  | u :: us => if 16 * t.layer + t.tensor < 16 * u.layer + u.tensor then t :: u :: us else u :: insTensor t us
/-- Tensors in increasing layer and index. -/
def Plan.tensorsUp (p : Plan) : List TensorDecl := p.tensors.foldl (fun l t => insTensor t l) []
/-- Layers that hold a tensor, in increasing number. -/
def Plan.layersUp (p : Plan) : List Nat := (p.tensorsUp.map (·.layer)).eraseDups
/-- Tensors in the order in which the pods send them: layers decreasing, tensors increasing (R244). -/
def Plan.sendOrder (p : Plan) : List TensorDecl := p.layersUp.reverse.flatMap (fun y => p.tensorsUp.filter (fun t => t.layer == y))
/-- A tensor is factored (R250). -/
def TensorDecl.factored (t : TensorDecl) : Bool := 2 ≤ t.rr && 2 ≤ t.cc

/-- Elements of shard `k`. -/
def Plan.shardCount (p : Plan) (t : TensorDecl) (k : Nat) : Nat := min p.shardElems (t.elems - k * p.shardElems)

/-! ## Sections of a state block (R248) -/

/-- Places within a block, from its start: bran tensor, first moment and its scales, second slot (or direction plane, or
factors), and the size. -/
structure Lay where
  bran : Nat
  m : Nat
  mScale : Nat
  v : Nat
  size : Nat
  deriving DecidableEq, Repr

/-- Sections of a block of `cnt` elements; `fac` values of factors in a factored tensor's shard 0 (R248). -/
def layout (g cnt : Nat) (factored : Bool) (fac : Nat) : Lay :=
  let bran := roundUp (64 + 2 * cnt) 64
  let mEnd := if oSplit g then bran + cnt else 64 + 4 * cnt
  let m := roundUp mEnd 64
  let e := m + packedLen (oFmtM g) cnt
  let ms := roundUp e 64
  let e := if fwBlk (oFmtM g) = 0 then e else ms + ceilDiv cnt (fwBlk (oFmtM g))
  let v := roundUp e 64
  let vw := (fwFmt (oFmtV g)).width / 8
  let vl := match oRule g with
    | 0 => 0
    | 3 => ceilDiv cnt 4
    | 5 => if factored then vw * fac else vw * cnt
    | _ => vw * cnt
  ⟨bran, m, ms, v, if vl = 0 then roundUp e 64 else roundUp (v + vl) 64⟩

/-- Sections of shard `k` of a tensor under group record `g`. -/
def Plan.lay (p : Plan) (g : Nat) (t : TensorDecl) (k : Nat) : Lay :=
  layout g (p.shardCount t k) t.factored (if k = 0 then t.rr + t.cc else 0)

/-! ## Headers (R247) -/

def hdMom (h : Nat) : Nat := bits h 0 64
def hdW (h : Nat) : Nat := bits h 64 64
def hdStat (h : Nat) : Nat := bits h 128 64
def hdHome (h : Nat) : Nat := bits h 192 2
def hdPinned (h : Nat) : Bool := bit h 196

/-- Header at an address. -/
def header (m : Tab Byte) (a : Nat) : Nat := rdNat m a 64

/-- A header as a load or the tier manager writes it. -/
def mkHeader (h : Nat) (quarantined staged : Bool) : Nat := setBits (setBits h 194 1 (b2n quarantined)) 195 1 (b2n staged)

/-! ## Blocks of the loaded plan -/

/-- Address of the copy in use: the staged one, or the home copy. -/
def Blk.cur (b : Blk) : Nat := b.stage.getD b.addr
/-- The block is resident or staged (R260). -/
def Blk.here (b : Blk) : Bool := b.home == 0 || b.stage.isSome
/-- Index of a block. -/
def Cob.find (c : Cob) (layer tensor shard : Nat) : Option Nat :=
  firstIdx (fun i => match c.blks[i]? with | some b => b.layer == layer && b.tensor == tensor && b.shard == shard | none => false) c.blks.length
/-- A block by index. -/
def Cob.blk (c : Cob) (i : Nat) : Blk := c.blks.getD i {}
/-- Change a block. -/
def Cob.updBlk (c : Cob) (i : Nat) (f : Blk → Blk) : Cob := { c with blks := setAt c.blks i f }
/-- A layer's way through the step. -/
def Cob.layer (c : Cob) (y : Nat) : LayerRun := Tab.get {} c.layers y
/-- Change it. -/
def Cob.updLayer (c : Cob) (y : Nat) (f : LayerRun → LayerRun) : Cob := { c with layers := Tab.upd {} c.layers y f }

/-- Base and size of an area of the plan; areas the plan does not name are empty (R256). -/
def Plan.area (p : Plan) (n : Nat) : Nat × Nat :=
  match p.areas.find? (fun a => a.1 == n) with | some a => a.2 | none => (0, 0)

/-- The lowest place of `n` bytes at a multiple of `al` in an area that meets none of the taken ranges. -/
def placeIn (al : Nat) (area : Nat × Nat) (taken : List (Nat × Nat)) (n : Nat) : Option Nat :=
  let cands := (area.1 :: taken.map (fun t => roundUp (t.1 + t.2) al)).filter (fun a =>
    area.1 ≤ a && a + n ≤ area.1 + area.2 && taken.all (fun t => !overlaps a n t.1 t.2))
  match cands with
  | [] => none
  | a :: as => some (as.foldl min a)

/-- Area that holds the home copies of a HOME value: RESIDENT, COB_HOME, SLOW_A, SLOW_B. -/
def homeArea (home : Nat) : Nat := match home with | 0 => 0 | 1 => 4 | 2 => 6 | _ => 7

/-- Home places one after the other in each area; none where one does not fit (R256, R466). -/
def placeHomes (p : Plan) : List Blk → List (Nat × Nat × Nat) → Option (List Blk)
  | [], _ => some []
  | b :: bs, taken =>
    let mine := (taken.filter (fun t => t.1 == b.home)).map (·.2)
    let ar := p.area (homeArea b.home)
    let a := mine.foldl (fun a t => max a (roundUp (t.1 + t.2) 64)) ar.1
    if a + b.size ≤ ar.1 + ar.2 then (placeHomes p bs ((b.home, a, b.size) :: taken)).map ({ b with addr := a } :: ·)
    else none

/-- Ranges of STAGE in use. -/
def Cob.staged (c : Cob) : List (Nat × Nat) := c.blks.filterMap (fun b => b.stage.map (fun a => (a, b.size)))

/-- The largest state block of a plan, four times (R256): of the groups that hold a record, since the sections of a block depend on
it. -/
def Plan.stageMin (p : Plan) : Nat :=
  4 * ((p.tensors.filter (fun t => p.groupSet.contains t.group)).foldl
    (fun m t => (List.range (p.shards t)).foldl (fun m k => max m (p.lay (p.group t.group) t k).size) m) 0)

/-! ## The run state (R465) -/

def rsSeed (r : Nat) : Nat := bits r 0 64
def rsExp (r : Nat) : Int := sbits r 64 8
def rsMin (r : Nat) : Int := sbits r 72 8
def rsMax (r : Nat) : Int := sbits r 80 8
def rsDynamic (r : Nat) : Bool := bit r 88
def rsStepPolicy (r : Nat) : Bool := bit r 89
def rsGrowth (r : Nat) : Nat := bits r 96 16
def rsClean (r : Nat) : Nat := bits r 112 16
def rsDigest (r : Nat) : Nat := bits r 128 16

/-- A run state without its RESERVED bits (R14). -/
def cleanRun (r : Nat) : Nat := packBits [(90, bits r 0 90), (6, 0), (48, bits r 96 48)]

/-- Conditions of a run state; a fixed scale reads neither the limits nor the interval (R465, R558). -/
def runConds (r : Nat) : List Bool :=
  [ decide (-64 ≤ rsExp r ∧ rsExp r ≤ 64), !rsDynamic r || decide (-64 ≤ rsMin r ∧ rsMin r ≤ 64),
    !rsDynamic r || decide (-64 ≤ rsMax r ∧ rsMax r ≤ 64 ∧ rsMin r ≤ rsMax r), !rsDynamic r || decide (1 ≤ rsGrowth r) ]

/-- Every reduced gradient of a step fits PARK, which policy STEP needs (R237). -/
def Plan.parkHolds (p : Plan) : Bool := 4 * (p.tensors.map (·.elems)).sum ≤ (p.area 5).2

/-- e and CLEAN put into a run state. -/
def rsSet (r : Nat) (e : Int) (clean : Nat) : Nat := setBits (setBits r 64 8 (ofInt 8 e)) 112 16 clean

/-- end_of_step of R238. -/
def endOfStep (r : Nat) (flag : Bool) : Nat :=
  if !rsDynamic r then r
  else if flag then rsSet r (max (rsExp r - 1) (rsMin r)) 0
  else if rsClean r + 1 = rsGrowth r then rsSet r (min (rsExp r + 1) (rsMax r)) 0
  else rsSet r (rsExp r) (rsClean r + 1)

end Sys2Proof.Machine
end

