-- ==== Sys2Proof/Machine/LoadChecks.lean ====
section
/-! DEFINITION. A plan image and the checks that a load makes of it (R453 to R457 of spec file 17, with the checks of the
earlier chapters). A fault names a section, an entry of it and a byte within the entry; the bytes of section 4 are its
entries. -/

namespace Sys2Proof.Machine

/-- What BAD_PARAM names in extended entry 0: section, entry, byte within the entry (R453). -/
abbrev LFault := Nat × Nat × Nat

/-- Extended entry 0 of a load that fails with BAD_PARAM (R453). -/
def faultEntry (f : LFault) : Nat := packBits [(8, f.1), (32, f.2.1), (24, f.2.2)]

/-! ## Reading an image (R454 to R457) -/

/-- Bytes of an entry of each section (R455). -/
def secSize : List Nat := [64, 32, 16, 16, 1, 24, 1, 40, 24, 16, 24, 1]

/-- OFFSET of section `q` in the header. -/
def hOff (h q : Nat) : Nat := bits h (256 + 64 * q) 32
/-- COUNT of section `q` in the header. -/
def hCnt (h q : Nat) : Nat := bits h (288 + 64 * q) 32

/-- The header of an image. -/
def imgHeader (b : List Byte) : Nat := leNat (b.take 256)

/-- Entries of section `q` of an image. -/
def imgEntries (b : List Byte) (q : Nat) : List Nat :=
  let h := imgHeader b
  let n := secSize.getD q 1
  (List.range (hCnt h q)).map (fun i => leNat ((b.drop (hOff h q + n * i)).take n))

/-- Bytes of section `q`, one byte an entry. -/
def imgBytes (b : List Byte) (q : Nat) : List Byte := (b.drop (hOff (imgHeader b) q)).take (hCnt (imgHeader b) q)

/-- A symbol record (R456). -/
def readSym (x : Nat) : Sym :=
  { num := bits x 0 32, cls := bits x 32 4, certain := bit x 36, comp := bit x 37, fmt := bits x 48 11, tscale := bits x 64 32,
    rank := bits x 96 3, dims := (List.range 6).map (fun i => bits x (128 + 32 * i) 32), addr := bits x 320 48, pods := bits x 368 4 }

/-- A loop declaration (R457). -/
def readLoop (x : Nat) : LoopDecl :=
  { counter := bits x 0 6, pod := bits x 6 2, padSkip := bit x 8, reissue := bit x 9, branch := bits x 16 8, limit := bits x 32 21,
    reissueAfter := bits x 64 16, firstLayer := bits x 80 12, lastLayer := bits x 92 12, sbBase := bits x 128 48 }

/-- Entries of sections 2, 3, 7, 8, 9 and 10 in the notation of R441 (R455). -/
def readStream (x : Nat) : StreamDecl := { pod := bits x 0 2, core := bits x 2 6, off := bits x 32 32, len := bits x 64 32 }
def readBranch (x : Nat) : BranchDecl := { pod := bits x 0 2, branch := bits x 2 3, minc := bits x 5 3, cost := bits x 64 64 }
def readTensor (x : Nat) : TensorDecl :=
  { layer := bits x 0 12, tensor := bits x 12 4, group := bits x 16 8, wSym := bits x 32 32, mSym := bits x 64 32, vSym := bits x 96 32,
    elems := bits x 128 64, rr := bits x 192 32, cc := bits x 224 32, gSym := bits x 256 32 }
def readArea (x : Nat) : Nat × Nat × Nat := (bits x 0 4, bits x 64 48, bits x 128 64)
def readSite (x : Nat) : Nat × Nat × Nat := (bits x 0 2, bits x 2 6, bits x 32 32)
def readSeqWrite (x : Nat) : SeqWrite :=
  { pod := bits x 0 2, table := bits x 16 12, first := bits x 32 32, last := bits x 64 32, stride := bits x 96 32, recBase := bits x 128 48 }
/-- DEST, OFFSET and LENGTH of a placement. -/
def readPlace (x : Nat) : Nat × Nat × Nat := (bits x 0 48, bits x 64 64, bits x 128 64)

/-- The plan that an image describes. -/
def readPlan (b : List Byte) (port : Nat) : Plan :=
  let h := imgHeader b
  { ready := true, port := port, live := bits h 0 4 == 1, batches := bit h 4, sMax := bits h 64 64, cTask := bits h 128 64,
    shardLog2 := bits h 192 4, pinLayers := bits h 196 12, syms := (imgEntries b 0).map readSym, loops := (imgEntries b 1).map readLoop,
    streams := (imgEntries b 2).map readStream, branches := (imgEntries b 3).map readBranch, desc := imgBytes b 4,
    tensors := (imgEntries b 7).map readTensor, areas := (imgEntries b 8).map readArea, lossSites := (imgEntries b 9).map readSite,
    seqWrites := (imgEntries b 10).map readSeqWrite }

/-! ## Header and directory (R368, R454, R455) -/

/-- QUANTUM in us (R348). -/
def Cad.quantum (c : Cad) : Nat := bits c.sched 0 9

/-- S_MAX / QUANTUM is at most 1.25 GHz (R368). -/
def sMaxOk (sMax quantum : Nat) : Bool := sMax ≤ 1250 * quantum

/-- Conditions of the header, with byte offsets. A training plan has a layer, hence a tensor (R240). -/
def Dev.headerConds (d : Dev) (h len : Nat) : List Cond :=
  let live := bits h 0 4 == 1
  let own : List Cond := [ (256 ≤ len, 4), (bits h 0 4 ≤ 1, 0), (bits h 16 16 == 1, 2), (bits h 32 32 == len, 4), (!live || !bit h 4, 0),
    (sMaxOk (bits h 64 64) d.cad.quantum, 8), (live || (12 ≤ bits h 192 4 && bits h 192 4 ≤ 22), 24),
    (!bit h 4 || d.ing.profile.isSome, 0) ]
  own ++ (List.range 12).flatMap (fun q =>
    [ (hCnt h q == 0 || (hOff h q % 64 == 0 && hOff h q + secSize.getD q 1 * hCnt h q ≤ len), 32 + 8 * q),
      (q != 7 || live || hCnt h q != 0, 36 + 8 * q),
      (hCnt h q == 0 || !(q == 11 || (live && (q == 3 || q == 7 || q == 8 || q == 9))), 36 + 8 * q),
      (q != 9 || hCnt h q ≤ 16, 36 + 8 * q) ])

/-- The first entry of a section that breaks a condition. -/
def entryFault {α : Type} (q : Nat) (es : List α) (f : Nat → α → List Cond) : Option LFault :=
  (es.zipIdx).findSome? (fun (x, i) => (firstBadField (f i x)).map (fun b => (q, i, b)))

/-! ## Symbols (R41, R131, R229, R313, R456) -/

/-- The region's element format under a profile (R303). -/
def regionFmt (profile r : Nat) : Nat := if r = 0 then 0 else if r = 3 then bits profile 240 16 else bits profile 224 16

/-- Bytes of one position of a region (R303). -/
def posBytes (profile r : Nat) : Nat :=
  let w := (fwFmt (regionFmt profile r)).width / 8
  if r = 0 then 4
  else if r = 3 then w
  else bits profile 192 16 * bits profile 208 16 * 3 * w

/-- KMIN, KMAX and GAIN_G keep their ranges where an operation reads them (R318, R558). -/
def augOk (p en : Nat) : Bool :=
  (!bit en 0 || (1 ≤ bits p 592 16 && bits p 592 16 ≤ bits p 608 16 && bits p 608 16 ≤ 256)) && (!bit en 2 || bits p 656 8 ≤ 48)

/-- Fields of a destination record (R463). -/
def dsBase (x : Nat) : Nat := bits x 0 48
def dsSlot (x : Nat) : Nat := bits x 64 32
def dsBuf (x : Nat) : Nat := bits x 96 32
def dsFirst (x : Nat) : Nat := bits x 128 24
def dsCount (x : Nat) : Nat := bits x 160 24
def dsMask (x : Nat) : Nat := bits x 192 48
def dsMaskSlot (x : Nat) : Nat := bits x 256 32
def dsMaskBuf (x : Nat) : Nat := bits x 288 32

/-- Bytes that a region's data take in a pod: every slot of every buffer (R303, R313). -/
def destArea (profile x r : Nat) : Area :=
  let w := posBytes profile r
  let plane := if r = 3 then (bits profile 536 8 - 1) * bits profile 64 32 * w else 0
  if dsCount x = 0 then (0, 0)
  else (dsBase x, (bits profile 56 8 - 1) * dsBuf x + 15 * dsSlot x + plane + dsCount x * w)

/-- The inner dimensions of a symbol that lies in a region of a pod are those of the region: its positions for TEXT, the shaped
picture 3, TW, TH, an audio plane of AUDIO_CAP. The spec says that symbol and profile must not disagree and gives no dimensions:
DESIGN CHOICE (log entry 48). -/
def regionDims (profile x r : Nat) : List Nat :=
  if r = 0 then [dsCount x] else if r = 3 then [bits profile 64 32] else [3, bits profile 208 16, bits profile 192 16]

/-- An INPUT symbol of a plan that consumes batches agrees with the profile: where its storage meets a region's data, it lies within
them and has the region's format and inner dimensions (R303, R313). -/
def Ing.symAgrees (g : Ing) (s : Sym) : Bool :=
  match g.profile with
  | none => true
  | some pf => s.cls != 6 || g.dests.zipIdx.all (fun (x, i) =>
      let r := i / 4
      let z := destArea pf x r
      !meetsAny z s.areas || (fwCode s.fmt == fwCode (regionFmt pf r) && regionDims pf x r == s.dims.take (regionDims pf x r).length
        && s.areas.all (fun a => !meets z a || (z.1 ≤ a.1 && a.1 + a.2 ≤ z.1 + z.2))))

/-- A live input is made of shaped pictures: an INPUT symbol of a LIVE plan has their format (R313, R325). -/
def Ing.liveAgrees (g : Ing) (s : Sym) : Bool :=
  match g.profile with
  | none => true
  | some pf => s.cls != 6 || fwCode s.fmt == fwCode (regionFmt pf 1)

/-- Conditions of symbol `i`. -/
def Dev.symConds (d : Dev) (p : Plan) (i : Nat) (s : Sym) : List Cond :=
  [ (!(p.syms.take i).any (fun t => t.num == s.num), 0), (s.cls < 8, 4), (!(s.certain && (s.cls == 3 || s.cls == 6)), 4),
    (fwOkResult s.fmt, 6), (!fwTs s.fmt || tscaleOk s.tscale, 8),
    (1 ≤ s.rank && s.rank ≤ 6 && (s.dims.take s.rank).all (fun x => 1 ≤ x) && (s.dims.drop s.rank).all (fun x => x == 1), 12),
    (s.areas.all (fun a => d.backed a.1 a.2), 40), ((!p.batches || d.ing.symAgrees s) && (!p.live || d.ing.liveAgrees s), 6) ]

/-! ## Branches and loops (R111, R124, R307, R312, R457) -/

/-- A range lies in the store of pod `p` and is backed. -/
def Dev.inPodStore (d : Dev) (p a n : Nat) : Bool := podStore p ≤ a && a + n ≤ podStore p + 0x6000000 && d.backed a n

/-- Conditions of branch `i`: numbers 0 to n - 1, MIN_CLUSTERS from 1 to 6, at most 6 in all. -/
def branchConds (bs : List BranchDecl) (i : Nat) (b : BranchDecl) : List Cond :=
  let mine := bs.filter (fun x => x.pod == b.pod)
  [ (b.branch < mine.length && mine.length ≤ 6 && !(bs.take i).any (fun x => x.pod == b.pod && x.branch == b.branch), 0),
    (1 ≤ b.minc && b.minc ≤ 6 && (mine.map (·.minc)).sum ≤ 6, 0) ]

/-- Conditions of a loop declaration. -/
def Dev.loopConds (d : Dev) (p : Plan) (l : LoopDecl) : List Cond :=
  [ (!l.padSkip || p.batches, 1), (l.branch == 0xFF || p.branches.any (fun b => b.pod == l.pod && b.branch == l.branch), 2),
    (1 ≤ l.limit && l.limit ≤ 2 ^ 20, 4), (!l.reissue || 1 ≤ l.reissueAfter, 8),
    (l.firstLayer == 0 || l.firstLayer ≤ l.lastLayer, 10), (d.inPodStore l.pod l.sbBase (ceilDiv l.limit 8), 16) ]

/-! ## Streams (R94, R95, R108 to R110, R115, R131) -/

/-- Descriptors from offset `o` of section 4 up to the first END, and the offset of what breaks R94 or R95. -/
def Plan.walk (p : Plan) (e : Nat) : Nat → Nat → List (Nat × Nat) × Option Nat
  | 0, o => ([], some o)
  | k + 1, o =>
    let (x, n) := p.descAt o
    if n = 0 ∨ e < o + n then ([], some o)
    else if dOp x = 8 then ([(o, x)], if o + n = e then none else some (o + n))
    else
      let (l, r) := p.walk e k (o + n)
      ((o, x) :: l, r)

/-- Descriptors of a stream with their offsets in section 4. -/
def Plan.descsOf (p : Plan) (s : StreamDecl) : List (Nat × Nat) × Option Nat := p.walk (s.off + s.len) (s.len / 64 + 1) s.off

/-- A body descriptor that R115 forbids in a loop with REISSUE = 1. -/
def reissueBad (x : Nat) : Bool :=
  (dOp x == 1 && (mAccMode x == 1 || (mAccMode x == 2 && mCinBase x == mOutBase x))) || (dOp x == 2 && [areaVX x, areaVXS x].any (fun s => s.crossesAny [areaVOut x, areaVOutS x]))
    || (dOp x == 2 && vReadsY x && (areaVY x).crossesAny [areaVOut x, areaVOutS x])
    || (dOp x == 2 && vReadsZ x && (areaVZ x).crossesAny [areaVOut x, areaVOutS x])

/-- The enabled patches of a CLAIM with a body: within their descriptors' bits 128 on, none over another (R109). -/
def patchOk (claim : Nat) (body : List (Nat × Nat)) (q : Nat) : Bool :=
  let w := patchWord claim q
  !pEn w || (match body[pDesc w]? with
    | none => false
    | some (_, x) =>
      128 ≤ pBit w && pBit w + pWidth w ≤ 8 * descSize (dOp x)
        && (List.range q).all (fun j =>
          let v := patchWord claim j
          !pEn v || pDesc v != pDesc w || !overlaps (pBit v) (pWidth v) (pBit w) (pWidth w)))

/-- Words of a tile record at an address that hold nothing at load: the row addresses that a start writes there, and the pad word
(R195, R307). -/
def Plan.openWords (p : Plan) (pod rec_ : Nat) (padSkip : Bool) : List Nat :=
  (List.range 16).filter (fun k => (padSkip && k == 15)
    || p.seqWrites.any (fun s => s.pod == pod && s.recBase ≤ rec_ + 8 * k && rec_ + 8 * k < s.recBase + 8 * (s.last + 1 - s.first)))

/-- Every address that the tile records of a loop give its body at load is backed (R131); `m` holds the placements. -/
def Dev.recordsBacked (d : Dev) (p : Plan) (m : Tab Byte) (pod x limit : Nat) (padSkip : Bool) (body : List (Nat × Nat)) : Bool :=
  (List.range limit).all (fun i =>
    let a := clTable x + 128 * i
    let l : LoopRun := { desc := x, record := rdNat m a 128 }
    let opened := p.openWords pod a padSkip
    body.zipIdx.all (fun (b, j) =>
      let mine := (List.range 8).filter (fun q => pEn (patchWord x q) && pDesc (patchWord x q) == j)
      mine == [] || mine.any (fun q => opened.contains (pWord (patchWord x q)))
        || (descAreas (l.patch j b.2)).all (fun z => z.2 == 0 || d.backed z.1 z.2)))

/-- The first fault of a CLAIM at offset `o`, whose body follows it (R108 to R110, R115, R131). -/
def Dev.claimFault (d : Dev) (p : Plan) (m : Tab Byte) (pod o x : Nat) (runs : Bool) (rest : List (Nat × Nat)) : Option LFault :=
  let loops := p.loops.filter (fun l => l.pod == pod && l.counter == clCtr x)
  let body := rest.take (clBody x)
  let lp := loops.getD (clRef x - 1) {}
  let own : List Cond :=
    [ (1 ≤ clRef x && clRef x ≤ loops.length, 24), (1 ≤ clBody x && clBody x ≤ 16 && body.length == clBody x, 16),
      (clTable x % 128 == 0 && d.inPodStore pod (clTable x) (128 * lp.limit), 18) ]
  let inner := body.findSome? (fun (b, y) =>
    if dOp y = 6 ∨ dOp y = 8 then some (4, b, 0)
    else if bit y 36 ∧ bits y 37 6 = clCtr x then some (4, b + 4, 0)
    else if lp.reissue ∧ reissueBad y then some (4, b, 0)
    else none)
  match firstBadField own with
  | some b => some (4, o + b, 0)
  | none => match inner with
    | some f => some f
    | none => match (List.range 8).find? (fun q => !patchOk x body q) with
      | some q => some (4, o + 32 + 4 * q, 0)
      | none => if runs && !d.recordsBacked p m pod x lp.limit lp.padSkip body then some (4, o + 18, 0) else none

/-- The CLAIMs of a stream, each with what follows it. -/
def Dev.claimFaults (d : Dev) (p : Plan) (m : Tab Byte) (pod : Nat) (runs : Bool) : List (Nat × Nat) → Option LFault
  | [] => none
  | (o, x) :: rest =>
    match (if dOp x = 6 then d.claimFault p m pod o x runs rest else none) with
    | some f => some f
    | none => d.claimFaults p m pod runs rest

/-- The first fault of stream `i` and of its descriptors. -/
def Dev.streamFault (d : Dev) (p : Plan) (m : Tab Byte) (i : Nat) (s : StreamDecl) : Option LFault :=
  let n := 48 * s.pod + s.core
  let runs := !bit d.plat.retired (12 * s.pod + s.core / 4)
  let own : List Cond :=
    [ (s.core < 48 && !(p.streams.take i).any (fun t => t.pod == s.pod && t.core == s.core), 0), (s.off % 64 == 0, 4),
      (s.off + s.len ≤ p.desc.length, 8) ]
  match firstBadField own with
  | some b => some (2, i, b)
  | none =>
    let (ds, bad) := p.descsOf s
    match bad with
    | some o => some (4, o, 0)
    | none =>
      match ds.findSome? (fun (o, x) =>
        (firstBadField (d.descConds n x p.syms runs)).map (fun b => ((4, o + b, 0) : LFault))) with
      | some f => some f
      | none => d.claimFaults p m s.pod runs ds

/-- A CERTAIN symbol that the static destination of some descriptor meets (R456). -/
def Plan.certainHit (p : Plan) : Option LFault :=
  let ds := p.streams.flatMap (fun s => (p.descsOf s).1.flatMap (fun (_, x) => descDests x))
  ((p.syms.zipIdx).find? (fun (s, _) => s.certain && ds.any (fun a => a.reaches s.areas))).map (fun (_, i) => (0, i, 4))

/-! ## Tensors (R233, R240, R456, R559) -/

/-- Formats in which a pod sends a gradient (R233). -/
def sendFmt (w : Nat) : Bool :=
  fwCode w == 0 || fwCode w == 1 || ((fwCode w == 3 || fwCode w == 4) && (fwBlock w == 1 || fwBlock w == 2))

/-- A symbol number of a tensor entry names no symbol, or one that is not CERTAIN and fulfils `ok`. -/
def Plan.optSym (p : Plan) (n : Nat) (ok : Sym → Bool) : Bool :=
  n == 0xFFFFFFFF || (match p.sym n with | some s => !s.certain && ok s | none => false)

/-- Conditions of tensor `i`: layers stand from 1 and the tensors of a layer from 0 without a gap (R240, R559). -/
def Plan.tensorChecks (p : Plan) (i : Nat) (t : TensorDecl) : List Cond :=
  let w := (p.sym t.wSym).getD {}
  let whole (s : Sym) : Bool := fwBlk s.fmt == 0 || s.inner % fwBlk s.fmt == 0
  [ (1 ≤ t.layer && (t.layer == 1 || p.tensors.any (fun u => u.layer + 1 == t.layer))
        && (t.tensor == 0 || p.tensors.any (fun u => u.layer == t.layer && u.tensor + 1 == t.tensor))
        && !(p.tensors.take i).any (fun u => u.layer == t.layer && u.tensor == t.tensor), 0),
    ((match p.sym t.wSym with | some s => s.cls == 0 && !s.certain && whole s | none => false), 4),
    (p.optSym t.mSym (fun s => s.cls == 5 && s.dims == w.dims && whole s), 8),
    (p.optSym t.vSym (fun s => s.cls == 5 && (s.dims == w.dims || s.count == t.rr + t.cc)), 12),
    (t.elems == w.count, 16),
    ((match p.sym t.gSym with | some s => s.cls == 3 && s.dims == w.dims && sendFmt s.fmt && !s.certain | none => false), 28) ]

/-- More than 1,048,576 shards (R240). -/
def Plan.shardFault (p : Plan) : Option LFault :=
  if 2 ^ 20 < (p.tensors.map p.shards).sum then some (7, p.tensors.length - 1, 16) else none

/-! ## Areas, placements, sites, write ranges (R195, R235, R256, R257, R262, R274, R455) -/

/-- First address and length of the memory that an area lies in. -/
def areaMem (n : Nat) : Area :=
  if n < 4 then (sramBase, 0x10000000)
  else if n < 6 then (cobGddr, 0x1000000000)
  else if n < 8 then (hostBase (n - 6), hostSize)
  else (podStore (n - 8), 0x10000000)

/-- The spill area of the profile (R274). -/
def Ing.spill (g : Ing) : Area :=
  match g.profile with | some p => (bits p 768 48, bits p 832 16 * 2 ^ 20) | none => (0, 0)

/-- Least size of an area that a load checks; STAGE is checked with the group records (R256, R262). -/
def areaMin (shardElems n : Nat) : Nat :=
  if n = 2 then 16 * shardElems else if n = 5 then 64 * 2 ^ 20 else if 8 ≤ n then 2 ^ 20 else 0

/-- An area lies within its memory. -/
def inAreaMem (n a k : Nat) : Bool := (areaMem n).1 ≤ a && a + k ≤ (areaMem n).1 + (areaMem n).2

/-- Every area lies in its memory, apart from the others and from the spill area, and is large enough (R256). -/
def Dev.areasFit (d : Dev) (p : Plan) : Bool :=
  p.areas.zipIdx.all (fun ((n, a, k), i) =>
    k == 0 || (inAreaMem n a k && !meets (a, k) d.ing.spill && !(p.areas.take i).any (fun x => overlaps a k x.2.1 x.2.2)))
  && (p.live || (List.range 12).all (fun n => areaMin p.shardElems n ≤ (p.area n).2))

/-- Conditions of area `i`: one of each kind, and every address of an area within its memory is backed (R131). -/
def Dev.areaConds (d : Dev) (p : Plan) (i : Nat) (a : Nat × Nat × Nat) : List Cond :=
  [ (a.1 < 12 && !(p.areas.take i).any (fun x => x.1 == a.1), 0),
    (a.2.2 == 0 || !inAreaMem a.1 a.2.1 a.2.2 || d.backed a.2.1 a.2.2, 8) ]

/-- Conditions of a placement whose bytes come from `n` bytes of section 6. One that begins at a backed address and runs past the end of
the storage does not fit and ends NO_MEMORY instead (R131, R453): DEDUCED from the two rules (log entry 22). -/
def Dev.placeConds (d : Dev) (n : Nat) (x : Nat × Nat × Nat) : List Cond :=
  [(x.2.1 + x.2.2 ≤ n, 8), (x.2.2 == 0 || (d.unwritable x.1 1).isNone, 0)]

/-- Conditions of a loss-scale site: four bytes of its core's stream (R235). -/
def Plan.siteConds (p : Plan) (x : Nat × Nat × Nat) : List Cond :=
  [(p.streams.any (fun s => s.pod == x.1 && s.core == x.2.1 && s.off ≤ x.2.2 && x.2.2 + 4 ≤ s.off + s.len), 4)]

/-- Conditions of a write range (R195, R455). -/
def Dev.seqConds (d : Dev) (p : Plan) (x : SeqWrite) : List Cond :=
  [(p.live || x.stride == 0, 12), (d.inPodStore x.pod x.recBase (8 * (x.last + 1 - x.first)), 16)]

/-! ## The whole image -/

/-- Placements of an image with their bytes. -/
def imgPlaces (b : List Byte) : List (Nat × List Byte) :=
  (imgEntries b 5).map (fun x => let (a, o, n) := readPlace x; (a, ((imgBytes b 6).drop o).take n))

/-- Memory with the placements of an image in it. -/
def imgMem (m : Tab Byte) (b : List Byte) : Tab Byte := (imgPlaces b).foldl (fun m x => wrBytes m x.1 x.2) m

/-- The first of a list of faults. -/
def firstFault (l : List (Option LFault)) : Option LFault := l.findSome? id

/-- The fault for which an image fails with BAD_PARAM (R453). -/
def Dev.imageFault (d : Dev) (b : List Byte) : Option LFault :=
  match firstBadField (d.headerConds (imgHeader b) b.length) with
  | some k => some (0xFF, 0, k)
  | none =>
    let p := readPlan b 0
    firstFault
      [ entryFault 0 p.syms (d.symConds p), entryFault 3 p.branches (branchConds p.branches), entryFault 1 p.loops (fun _ => d.loopConds p),
        (p.streams.zipIdx).findSome? (fun (s, i) => d.streamFault p (imgMem d.mem b) i s), p.certainHit, entryFault 9 p.lossSites (fun _ => p.siteConds),
        entryFault 7 p.tensors p.tensorChecks, p.shardFault, entryFault 8 p.areas (d.areaConds p),
        entryFault 5 ((imgEntries b 5).map readPlace) (fun _ => d.placeConds (imgBytes b 6).length),
        entryFault 10 p.seqWrites (fun _ => d.seqConds p) ]

/-- Every area and placement fits (R453). -/
def Dev.imageFits (d : Dev) (b : List Byte) : Bool :=
  d.areasFit (readPlan b 0) && (imgPlaces b).all (fun x => (d.unwritable x.1 x.2.length).isNone)

end Sys2Proof.Machine
end

