-- ==== Sys2Proof/Machine/Tiles.lean ====
section
/-! DEFINITION. The meanings of the pod sequencer's events: COUNTER_ARM, TILE_CLAIM, TILE_COMPLETION, REISSUE_TIMEOUT and
PAGE_ARRIVAL (spec files 04, 07, 10, 12). -/

namespace Sys2Proof.Machine

/-! ## COUNTER_ARM (R111, R127, R265, R312, R560) -/

/-- Declared loops of a counter, in order (R560). -/
def Plan.loopsOn (p : Plan) (pod ctr : Nat) : List LoopDecl := p.loops.filter (fun l => l.pod == pod && l.counter == ctr)

/-- A loop writes a symbol: a body descriptor of one of its CLAIMs names the symbol as its output, or its static destination
meets the symbol's storage. -/
def Plan.loopWrites (p : Plan) (pod ctr ref : Nat) (sy : Sym) : Bool :=
  (p.streams.filter (fun s => s.pod == pod)).any (fun s =>
    (p.streamDescs s).any (fun (o, x) => dOp x == 6 && clCtr x == ctr && clRef x == ref
      && (p.nextDescs (clBody x) (s.off + o + 64)).any (fun (o2, n2) =>
        let y := p.bytesAt o2 n2
        (dOp y == 1 && mOutSym y == sy.num) || (dOp y == 3 && mOutSym y == sy.num) || (dOp y == 5 && mOutSym y == sy.num)
          || (dOp y == 4 && (aSym y == sy.num || aSym2 y == sy.num))
          || (descDests y).any (fun a => a.reaches sy.areas))))

/-- The declared loops of a pod that write a symbol: counter and place in its order. -/
def Plan.writers (p : Plan) (pod : Nat) (sy : Sym) : List (Nat × Nat) :=
  (List.range 64).flatMap (fun ctr => ((List.range (p.loopsOn pod ctr).length).map (fun k => (ctr, k + 1))).filter (fun x =>
    p.loopWrites pod x.1 x.2 sy))

/-! ### Dumps that hold a loop (R529) -/

/-- Loop `k` of a counter has reached DONE in the step with bases `bases` (R111, R116). -/
def Dev.loopPast (d : Dev) (bases : Tab Nat) (pod ctr k : Nat) : Bool :=
  let w := (k + Tab.get 0 bases (64 * pod + ctr)) % 65536
  let c := d.ctr_ pod ctr
  (c.seq == w && c.st == 3) || after16 c.seq w

/-- The step of a plan with this number that is in progress. -/
def Plan.runOf (p : Plan) (step : Nat) : Option StepRun :=
  match p.cur.filter (fun r => r.step == step) with | some r => some r | none => p.overlap.filter (fun r => r.step == step)

/-- The loops of the dump's step that write its symbol are DONE: it may read, and the next write is held (R529). -/
def Dev.loopMoment (d : Dev) (p : Plan) (x : Dump) (sy : Sym) : Bool :=
  match p.runOf x.step with
  | some r => ([0, 1, 2, 3] : List Nat).all (fun q => (p.writers q sy).all (fun (ctr, k) => d.loopPast r.bases q ctr k))
  | none => false

/-- The symbol's moment is one of the Cob's, a multicast or a pass, and not a loop's. -/
def Plan.cobSym (p : Plan) (sy : Sym) : Bool :=
  (sy.cls == 0 && p.tensors.any (fun t => t.wSym == sy.num)) || (sy.cls == 5 && p.tensors.any (fun t => t.mSym == sy.num || t.vSym == sy.num))

/-- A dump holds loop `k` of a counter of plan `h`. -/
def Dev.loopHeld (d : Dev) (h pod ctr k : Nat) : Bool :=
  let p := d.plan h
  d.obs.dumps.any (fun x => x.stream.isNone && x.plan == h && (match p.syms.find? (fun y => y.num == x.sym) with
    | some sy => p.loopWrites pod ctr k sy && (x.due || (!p.cobSym sy && d.loopMoment p x sy))
    | none => false))

/-- A loop is the first one its pod arms in a step: it waits for the batch (R312). -/
def Plan.isFirstLoop (p : Plan) (pod ctr k : Nat) : Bool :=
  k == 0 && (match p.loops.find? (fun l => l.pod == pod) with | some l => l.counter == ctr | none => false)

/-- The batch that a step consumes is ready (R312, R323). -/
def Ing.batchReady (g : Ing) (k : Nat) : Bool := g.batches.any (fun b => b.num == k && b.ready)

/-- Layers that a loop marks and that hold a parameter tensor of the plan (R265). -/
def Plan.marked (p : Plan) (l : LoopDecl) : List Nat :=
  if l.firstLayer = 0 then []
  else ((p.tensors.map (·.layer)).filter (fun y => l.firstLayer ≤ y && y ≤ l.lastLayer)).eraseDups

/-- A work that may arm a counter: a training step, or a live task's stream. -/
inductive Work where
  | step (h : Nat) (second : Bool)
  | live (stream h : Nat)
  deriving DecidableEq, Repr

/-- Works in progress, training first. -/
def Dev.works (d : Dev) : List Work :=
  let hs := (d.plans.filter (fun e => e.2.cur.isSome)).map (fun e => Work.step e.1 false)
  let os := (d.plans.filter (fun e => e.2.overlap.isSome)).map (fun e => Work.step e.1 true)
  let ls := (d.cad.streams.filter (fun e => match e.2.running with | some t => t.startedAt.isSome | none => false)).map
    (fun e => Work.live e.1 (bits e.2.record 0 4))
  hs ++ os ++ ls

/-- The loop that a work would arm next on a counter but for dumps: nothing stops the work, the fences are open and the batch is
ready. -/
def Dev.nextLoop (d : Dev) (pod ctr : Nat) (w : Work) : Option LoopDecl :=
  match w with
  | .step h second =>
    let p := d.plan h
    match p.run_ second with
    | none => none
    | some r =>
      let k := Tab.get 0 r.armed (64 * pod + ctr)
      match (p.loopsOn pod ctr)[k]? with
      | none => none
      | some l =>
        let fences := (p.marked l).all (fun y => r.step ≤ Tab.get 0 (d.pod pod).fence y)
        let batch := match r.batch with | some b => !p.isFirstLoop pod ctr k || d.ing.batchReady b | none => true
        if r.halting || !fences || !batch then none else some l
  | .live n h =>
    match (d.cad.stream n).running with
    | none => none
    | some t => if t.bad != 0 || t.dropped then none else ((d.plan h).loopsOn pod ctr)[Tab.get 0 t.armed (64 * pod + ctr)]?

/-- A dump holds the loop that a work would arm next on a counter (R529). -/
def Dev.workHeld (d : Dev) (pod ctr : Nat) (w : Work) : Bool :=
  match w with
  | .step h second => match (d.plan h).run_ second with
    | some r => d.loopHeld h pod ctr (Tab.get 0 r.armed (64 * pod + ctr) + 1)
    | none => false
  | .live _ _ => false

/-- The loop that a work may arm on a counter. -/
def Dev.armable (d : Dev) (pod ctr : Nat) (w : Work) : Option LoopDecl := if d.workHeld pod ctr w then none else d.nextLoop pod ctr w

/-- CLUSTER_MASK of a live task's loops in a pod: the clusters of its set. -/
def setMask (set : List Nat) (pod : Nat) : Nat := ((set.filter (fun k => k / 12 == pod)).map (fun k => 2 ^ (k % 12))).sum

/-- The armed record of a counter (R111, R560). -/
def TileCtr.arm (t : TileCtr) (l : LoopDecl) (mask : Nat) (live : Bool) : TileCtr :=
  { limit := l.limit, next := 0, seq := (t.seq + 1) % 65536, st := 1, reissue := l.reissue, mask := mask, after := l.reissueAfter,
    accepted := 0, sbBase := l.sbBase, claims := [], queue := [], epochs := [], branch := l.branch, padSkip := l.padSkip,
    live := live, doneAt := t.doneAt }

/-- A fence alone holds the next loop that a work would arm on a counter (R265). -/
def Dev.fenceHolds (d : Dev) (pod ctr : Nat) : Bool :=
  let t := d.ctr_ pod ctr
  t.st != 1 && t.st != 2 && d.works.any (fun w => match w with
    | .live _ _ => false
    | .step h second =>
      let p := d.plan h
      match p.run_ second with
      | none => false
      | some r =>
        let k := Tab.get 0 r.armed (64 * pod + ctr)
        match (p.loopsOn pod ctr)[k]? with
        | none => false
        | some l =>
          let batch := match r.batch with | some b => !p.isFirstLoop pod ctr k || d.ing.batchReady b | none => true
          !r.halting && batch && !d.workHeld pod ctr w && (p.marked l).any (fun y => Tab.get 0 (d.pod pod).fence y < r.step))

/-- One ns of FENCE_WAIT for each loop that a fence holds (R265). -/
def Dev.fenceTick (d : Dev) : Dev :=
  if d.plans.all (fun e => e.2.cur.isNone) || d.pow.dead then d
  else ([0, 1, 2, 3] : List Nat).foldl (fun d p => d.count (podInst p) 0x23 ((List.range 64).filter (d.fenceHolds p)).length) d

/-- Arm a counter for a work. -/
def Dev.armFor (d : Dev) (pod ctr : Nat) (w : Work) (l : LoopDecl) : Dev :=
  let key := 64 * pod + ctr
  let d := { d with mem := wipeRange d.mem l.sbBase (ceilDiv l.limit 8), poison := wipeBad d.poison l.sbBase (ceilDiv l.limit 8) }
  match w with
  | .step h second =>
    match (d.plan h).run_ second with
    | none => d
    | some r =>
      (d.updCtr pod ctr (fun t => t.arm l (Tab.get 0 r.masks key) false)).updRun h second (fun r =>
        { r with armed := Tab.upd 0 r.armed key (· + 1) })
  | .live n _ =>
    (d.updCtr pod ctr (fun t => t.arm l (setMask (d.cad.stream n).clusters pod) true)).updTask n (fun t =>
      { t with armed := Tab.upd 0 t.armed key (· + 1) })

/-- The counter takes the next loop of the first work that may arm it; never while it is ARMED or DRAINING. -/
def Dev.arm (d : Dev) (pod ctr : Nat) : Option Dev :=
  let t := d.ctr_ pod ctr
  if 3 < pod || 63 < ctr || t.st == 1 || t.st == 2 then none
  else d.works.findSome? (fun w => (d.armable pod ctr w).map (fun l => d.armFor pod ctr w l))

/-- COUNTER_ARM (R111, R560). -/
def execCounterArm (pod counter : Nat) (s : State) : Res := eventOpt s (s.dev.arm pod counter)

/-! ## TILE_COMPLETION (R113, R116) -/

/-- The context that has the core and may act: of a live task, or of training that is not being saved or restored. -/
def Dev.coreCtx (d : Dev) (n : Nat) : Option Ctx :=
  if d.coreLive n then
    match (d.core n).ctx with
    | some c => if c.live || (d.core n).run == 1 || (d.core n).run == 2 then some c else none
    | none => none
  else none

/-- Every other running claim of an index is cancelled, and the index leaves the reissue queue (R113). -/
def TileCtr.cancelOthers (t : TileCtr) (core idx : Nat) : TileCtr :=
  { t with claims := t.claims.map (fun k => if k.core != core && k.idx == idx then { k with cancelled := true } else k),
           queue := t.queue.filter (fun e => e.1 != idx) }

/-- The cancelled claim of a core whose context is saved ends at once; the core will skip the rest of the body and claim again
(R114). -/
def Dev.reapSaved (d : Dev) (m ctr : Nat) : Dev :=
  match (d.core m).saved with
  | some c =>
    match c.loop with
    | some l =>
      let k := (d.ctr_ (m / 48) ctr).claimOf m
      if l.idx.isSome && clCtr l.desc == ctr && (match k with | some k => k.cancelled && k.seq == l.seq | none => false) then
        let c2 : Ctx := { c.dropBody with loop := some { l with idx := none, at_ := 0, waitClaim := true, padC := none } }
        (d.endClaim c m ctr).updCore m (fun k => { k with saved := some c2 })
      else d
    | none => d
  | none => d

/-- An accepted completion costs its branch some time: in the measured costs of its own step, which are the previous step's once the
next step has started (R125, R458). -/
def Pod.addCost (x : Pod) (earlier : Bool) (branch ns : Nat) : Pod :=
  if earlier then { x with prevCost := Tab.upd 0 x.prevCost branch (· + ns) } else { x with cost := Tab.upd 0 x.cost branch (· + ns) }

/-- TILE_CLAIM and TILE_DONE in the trace (R524). -/
def Dev.traceTile (d : Dev) (type n ctr idx epoch accepted : Nat) : Dev :=
  d.trace type (n / 48) (n % 48) (idx + 2 ^ 20 * epoch) (ctr + 2 ^ 16 * (d.ctr_ (n / 48) ctr).seq) accepted

/-- A completion of tile `idx` by core `n` (R113): accepted, or discarded as a duplicate. -/
def Dev.complete (d : Dev) (n : Nat) (c : Ctx) (ctr idx : Nat) : Dev :=
  let pod := n / 48
  let t := d.ctr_ pod ctr
  let epoch := match t.claimOf n with | some k => k.epoch | none => 0
  let a := t.sbBase + idx / 8
  if anyBad d.poison a 1 then (d.structFault n c 3 a).endClaim c n ctr
  else if bit (rdByte d.mem a).toNat (idx % 8) then ((d.count (podInst pod) 0x20 1).traceTile 4 n ctr idx epoch 0).endClaim c n ctr
  else
    let cost := match t.claimOf n with
      | some k => d.plat.now - k.claimedAt - k.lost - (match k.preemptAt with | some p => d.plat.now - p | none => 0)
      | none => 0
    let d := (d.store a [rdByte d.mem a ||| BitVec.ofNat 8 (2 ^ (idx % 8))]).traceTile 4 n ctr idx epoch 1
    let d := if t.branch < 6 && !t.live then d.updPod pod (fun x => x.addCost (!c.second && (d.plan c.plan).overlap.isSome) t.branch cost) else d
    let d := d.updCtr pod ctr (fun t => { t.cancelOthers n idx with accepted := t.accepted + 1 })
    let d := d.endClaim c n ctr
    let others := ((d.ctr_ pod ctr).claims.filter (fun k => k.cancelled)).map (·.core)
    others.foldl (fun d m => (d.reapSaved m ctr).after m) d

/-- A core's loop is ready for its next claim. -/
def Dev.nextClaim (d : Dev) (n : Nat) : Dev :=
  (d.updCore n (fun k => { k with ctx := k.ctx.map (fun c => { c with loop := c.loop.map (fun l =>
    { l with idx := none, at_ := 0, waitClaim := true, padC := none, record := 0 }) }) })).after n

/-- The body of a core's tile has completed with all its writes: its completion reaches the counter. -/
def Dev.tileDone (d : Dev) (n : Nat) : Option Dev :=
  match d.coreCtx n with
  | none => none
  | some c => match c.loop with
    | none => none
    | some l => match l.idx with
      | none => none
      | some i =>
        if l.at_ < l.body.length || c.ops.any (fun e => match e.2 with | some o => o.body | none => false) || c.arrivals != [] then none
        else some ((d.complete n c (clCtr l.desc) i).nextClaim n)

/-- TILE_COMPLETION (R110, R113). -/
def execTileCompletion (core : Nat) (s : State) : Res := eventOpt s (s.dev.tileDone core)

/-! ## TILE_CLAIM (R110, R112, R307) -/

/-- The answer of a counter to a claim of core `n` for loop sequence `r`: an index and an epoch, or none for VALID = 0. -/
def TileCtr.offer (t : TileCtr) (n r : Nat) : Option (Nat × Nat) :=
  if t.seq != r || t.st == 0 || t.st == 3 || !bit t.mask (n % 48 / 4) then none
  else match t.queue with
    | e :: _ => some e
    | [] => if t.st = 1 then some (t.next, 0) else none

/-- The counter gives that index to core `n`. -/
def TileCtr.give (t : TileCtr) (n now idx epoch : Nat) : TileCtr :=
  let k : Claim := { core := n, idx := idx, epoch := epoch, seq := t.seq, claimedAt := now }
  let fresh := t.queue.isEmpty
  let next := if fresh then t.next + 1 else t.next
  { t with claims := t.claims ++ [k], queue := t.queue.tail, next := next,
           st := if fresh ∧ t.st = 1 ∧ next = t.limit then 2 else t.st, epochs := Tab.set 0 t.epochs idx epoch }

/-- The stream continues after the body, with the loop's signal (R97, R110). -/
def Ctx.leaveLoop (c : Ctx) (l : LoopRun) : Ctx :=
  { c with loop := none, pc := l.pc + ((l.body.map (fun b => max b.2 64)).sum), events := signal l.desc c.events }

/-- Batch of the step that a stream serves. -/
def Dev.stepBatch (d : Dev) (c : Ctx) : Nat :=
  match (d.plan c.plan).run_ c.second with | some r => r.batch.getD 0 | none => 0

/-- A core that holds tile `idx`: it reads the tile record and, in a PAD_SKIP loop, makes the pad test (R108, R307). -/
def Dev.takeTile (d : Dev) (n : Nat) (c : Ctx) (l : LoopRun) (idx epoch : Nat) : Dev :=
  let pod := n / 48
  let ctr := clCtr l.desc
  let t := d.ctr_ pod ctr
  let d := (d.updCtr pod ctr (fun t => t.give n d.plat.now idx epoch)).traceTile 3 n ctr idx epoch 0
  let a := clTable l.desc + 128 * idx
  if anyBad d.poison a 128 then (d.structFault n c 3 a).endClaim c n ctr
  else
    let rec_ := rdNat d.mem a 128
    let (pad, d) := if t.padSkip && !c.live then
        let (k, w) := d.padCount n (d.stepBatch c) (bits rec_ 960 64)
        (some k, if w.bad then d.absorb n 0 3 0 c w else d)
      else (none, d)
    let l2 : LoopRun := { l with idx := some idx, epoch := epoch, record := rec_, at_ := 0, padC := pad, waitClaim := false }
    let d := d.updCore n (fun k => { k with ctx := some { c with loop := some l2 } })
    if pad = some 0 then ((d.count (podInst pod) 0x21 1).complete n c ctr idx).nextClaim n else d

/-- The claim of a core that waits for one is answered; it goes on waiting while its loop is not armed. -/
def Dev.claim (d : Dev) (n : Nat) : Option Dev :=
  match d.coreCtx n with
  | none => none
  | some c => match c.loop with
    | none => none
    | some l =>
      let t := d.ctr_ (n / 48) (clCtr l.desc)
      if !l.waitClaim || d.mustStop n c || after16 l.seq t.seq then none
      else match t.offer n l.seq with
        | some (i, e) => some (d.takeTile n c l i e)
        | none => some ((d.updCore n (fun k => { k with ctx := some (c.leaveLoop l) })).after n)

/-- TILE_CLAIM (R110, R112). -/
def execTileClaim (core : Nat) (s : State) : Res := eventOpt s (s.dev.claim core)

/-! ## REISSUE_TIMEOUT (R114) -/

/-- A claim whose preempted spell has lasted REISSUE_AFTER us and has queued nothing yet. -/
def TileCtr.overdue (t : TileCtr) (idx now : Nat) : Option Claim :=
  t.claims.find? (fun k => k.idx == idx && !k.spellUsed && !k.cancelled
    && (match k.preemptAt with | some p => p + t.after * 1000 ≤ now | none => false))

/-- The index joins the reissue queue, with the next epoch. -/
def TileCtr.requeue (t : TileCtr) (core idx : Nat) : TileCtr :=
  { t with queue := t.queue ++ [(idx, Tab.get 0 t.epochs idx + 1)],
           claims := t.claims.map (fun k => if k.core = core ∧ k.idx = idx then { k with spellUsed := true } else k) }

/-- The counter may reissue the index: its bit is clear, it does not wait in the queue, and its epoch is below 15. -/
def Dev.mayReissue (d : Dev) (pod ctr idx : Nat) : Bool :=
  let t := d.ctr_ pod ctr
  t.reissue && (t.st == 1 || t.st == 2) && !t.queue.any (fun e => e.1 == idx) && Tab.get 0 t.epochs idx < 15
    && !bit (rdByte d.mem (t.sbBase + idx / 8)).toNat (idx % 8)

/-- The index of a tile held too long by a preempted core is queued. -/
def Dev.reissue (d : Dev) (pod ctr idx : Nat) : Option Dev :=
  match (d.ctr_ pod ctr).overdue idx d.plat.now with
  | some k => if d.mayReissue pod ctr idx then some (d.updCtr pod ctr (fun t => t.requeue k.core idx)) else none
  | none => none

/-- REISSUE_TIMEOUT (R114). -/
def execReissueTimeout (pod counter index : Nat) (s : State) : Res := eventOpt s (s.dev.reissue pod counter index)

/-! ## PAGE_ARRIVAL (R189, R197, R198) -/

/-- The page that the ring link out of a pod delivers next: its lowest logical page (R197). -/
def Pod.nextPage (x : Pod) : Option PageXfer :=
  x.xfers.foldl (fun b p => match b with | some y => if p.lpage < y.lpage then some p else b | none => some p) none

/-- The training step that a page belongs to. -/
def Dev.stepOfKey (d : Dev) (key : Nat) : Option (Nat × Bool) :=
  d.plans.findSome? (fun e =>
    if (match e.2.cur with | some r => 16 + r.step == key | none => false) then some (e.1, false)
    else if (match e.2.overlap with | some r => 16 + r.step == key | none => false) then some (e.1, true)
    else none)

/-- A page arrives in its pod: its bytes are the sender's, its private entries become VALID, and it goes on while hops remain
(R197, R198). A parity error in the bytes poisons the step (R143). -/
def Dev.pageIn (d : Dev) (src : Nat) (flips : List Nat) : Option Dev :=
  match (d.pod src).nextPage with
  | none => none
  | some p =>
    let work := d.stepOfKey p.key
    let cmd := work.bind (fun x => ((d.plan x.1).run_ x.2).bind (fun r => d.host.cmd r.cmd))
    let (bytes, w) := ({ mem := d.mem, poison := d.poison, free := d.plat.freeCount, flaws := flips, die := p.dst } : Wk).read p.srcAddr p.bytes
    let w := w.write p.dstAddr bytes
    let d := d.absorbUnit (podInst p.dst) 3 p.dst cmd w
    let d := ((d.pod p.dst).privEntries p.key p.table p.lpage).foldl (fun d a => d.storeNat a 8 (mkEntry p.dstAddr 2 p.lpage)) d
    let d := d.updPod src (fun x => { x with xfers := x.xfers.erase p })
    let d := if p.hops = 0 then d
      else match d.pageXfer p.dst p.hops p.key p.table p.lpage p.dstAddr with
        | some y => d.updPod p.dst (fun x => { x with xfers := x.xfers ++ [y] })
        | none => d
    some (if w.bad then
      match work with
      | some (h, second) => d.updRun h second (fun r => r.fail stParity 0 0)
      | none => d
    else d)

/-- PAGE_ARRIVAL (R197, R198). -/
def execPageArrival (src : Nat) (flips : List Nat) (s : State) : Res := eventFlips s flips (s.dev.pageIn src flips)

end Sys2Proof.Machine
end

