-- ==== Sys2Proof/Machine/UpdateOps.lean ====
section
/-! DEFINITION. The arithmetic of the update rules (R249 to R255): what each pass over a shard reads and writes. -/

namespace Sys2Proof.Machine

/-! ## Rounded arithmetic -/

/-- rn(a + b). -/
def rAdd (a b : XR) : XR := rn (a.add b)
/-- rn(a - b). -/
def rSub (a b : XR) : XR := rn (a.sub b)
/-- rn(a × b). -/
def rMul (a b : XR) : XR := rn (a.mul b)
/-- rn(a / b). -/
def rDiv (a b : XR) : XR := rn (a.div b)
/-- rn(sqrt a). -/
def rSqrt (a : XR) : XR := rn (xSqrt a)
/-- Exact sum. -/
def xSum (l : List XR) : XR := l.foldl XR.add (.zero false)

/-! ## The master (R249) -/

/-- u(h) of a BF16 value. -/
def splitUlp (h : XR) : Q :=
  match h with
  | .fin q => Q.pow2 (max q.abs.log2 (-126) - 7)
  | _ => Q.pow2 (-133)

/-- W of a BF16 part and a bran byte. -/
def splitValue (h beta : Nat) : XR :=
  let x := Fmt.bf16.decode h
  match x with
  | .nan => .nan
  | .inf s => .inf s
  | _ =>
    let m := x.toQ.abs.add ((Q.ofInt beta).mul ((splitUlp x).mul ⟨1, 256⟩))
    if m.isZero then x else .fin (if bit h 15 then m.neg else m)

/-- write_split of R249: the BF16 code and the bran byte. -/
def writeSplit (w : XR) : Nat × Nat :=
  match w with
  | .nan => (Fmt.bf16.encode .nan, 0)
  | _ =>
    let h := roundFmt .bf16 .rtz w 0
    match h with
    | .inf _ => (Fmt.bf16.encode h, 0)
    | _ => (Fmt.bf16.encode h, (((w.sub h).toQ.abs.mul (Q.ofInt 256)).div (splitUlp h)).floor.toNat)

/-! ## A shard at work -/

/-- What a pass knows of its shard: the plan's seed and step, its tensor, its record, its place, its sections, and the per-tensor scale
of its first moment (R41). -/
structure Sh where
  seed : Nat
  step : Nat
  t : TensorDecl
  g : Nat
  first : Nat
  cnt : Nat
  a : Nat
  lay : Lay
  mT : Q := Q.one
  deriving DecidableEq, Repr

/-- Site of a section's conversion (R253). -/
def Sh.site (s : Sh) (sym : Nat) : Site := ⟨false, s.seed, s.step, sym⟩

/-- Values of a section: `n` elements under a format word, with per-tensor scale `t` (R42). -/
def Wk.section_ (w : Wk) (fw a sa n : Nat) (t : Q) : List XR × Wk :=
  let (r, w) := w.readRow fw a sa n false 0 n
  ((List.range n).map (fun k => rn (r.val t k)), w)

/-- The master values of a shard (R249, R251). -/
def Wk.master (w : Wk) (s : Sh) : List XR × Wk :=
  if oSplit s.g then
    let (hs, w) := w.read (s.a + 64) (2 * s.cnt)
    let (bs, w) := w.read (s.a + s.lay.bran) s.cnt
    ((unpackCodes 16 s.cnt hs).zipIdx.map (fun (h, i) => splitValue h (bs.getD i 0).toNat), w)
  else
    let (bs, w) := w.read (s.a + 64) (4 * s.cnt)
    ((unpackCodes 32 s.cnt bs).map fp32, w)

/-- Store new master values. -/
def Wk.storeMaster (w : Wk) (s : Sh) (ys : List XR) : Wk :=
  if oSplit s.g then
    let ps := ys.map writeSplit
    (w.write (s.a + 64) (packCodes 16 (ps.map (·.1)))).write (s.a + s.lay.bran) (ps.map (fun p => BitVec.ofNat 8 p.2))
  else w.write (s.a + 64) (packCodes 32 (ys.map fp32Code))

/-- First moment of a shard. -/
def Wk.moment (w : Wk) (s : Sh) : List XR × Wk := w.section_ (oFmtM s.g) (s.a + s.lay.m) (s.a + s.lay.mScale) s.cnt s.mT
/-- Second slot of a shard. -/
def Wk.second (w : Wk) (s : Sh) : List XR × Wk := w.section_ (oFmtV s.g) (s.a + s.lay.v) 0 s.cnt Q.one
/-- Factors of a factored tensor, from its shard 0: RR row values, then CC column values. -/
def Wk.factors (w : Wk) (s : Sh) : List XR × Wk := w.section_ (oFmtV s.g) (s.a + s.lay.v) 0 (s.t.rr + s.t.cc) Q.one

/-- Values as they read back from a format word; the second slot and the factors are wide, so no per-tensor scale enters (R42, R253). -/
def asStored (fw : Nat) (st : Site) (n0 : Nat) (ys : List XR) : List XR :=
  let (cs, ss, _) := Wk.convRow { mem := [], poison := [] } fw st n0 ys
  let r : Row := ⟨fwFmt fw, fwBlk fw, 0, cs, ss⟩
  (List.range ys.length).map (fun k => rn (r.val Q.one k))

/-- Elements of a section that count in UPDATE_NONFINITE: the value before its conversion is NaN or infinite, or a wide format stores
it as an infinity (R255). A finite element whose block has the scale 255 counts with none: DESIGN CHOICE (log entry 40). -/
def oddOnes (fw : Nat) (st : Site) (n0 : Nat) (ys : List XR) : List Bool :=
  if fwBlk fw = 0 then (asStored fw st n0 ys).map (fun y => !y.isFinite) else ys.map (fun y => !y.isFinite)

/-- Count in UPDATE_NONFINITE (R255). -/
def Wk.nonfin (w : Wk) (odd : List Bool) : Wk := w.count 0x34 (odd.filter id).length

/-- Store a first moment. The unit has no scale stage and R251 and R253 divide nothing by the symbol's T, so under TENSOR_SCALE_EN = 1
the values are stored undivided: DESIGN CHOICE (log entry 40). -/
def Wk.storeMoment (w : Wk) (s : Sh) (ys : List XR) : Wk :=
  (w.nonfin (oddOnes (oFmtM s.g) (s.site s.t.mSym) s.first ys)).storeRow (oFmtM s.g) (s.a + s.lay.m) (s.a + s.lay.mScale) s.cnt false
    (s.site s.t.mSym) s.first 0 ys
/-- Store a second slot. -/
def Wk.storeSecond (w : Wk) (s : Sh) (ys : List XR) : Wk :=
  (w.nonfin (oddOnes (oFmtV s.g) (s.site s.t.vSym) s.first ys)).storeRow (oFmtV s.g) (s.a + s.lay.v) 0 s.cnt false (s.site s.t.vSym) s.first 0 ys

/-- The gradient elements of a shard from their FP32 patterns: scaled by 2^-e, then clamped (R236, R251). -/
def gradOf (g : Nat) (e : Int) (codes : List Nat) : List XR :=
  codes.map (fun c =>
    let x := rn ((fp32 c).scale2 (-e))
    if posFin (oClip g) then (x.max (oClip g).negate).min (oClip g) else x)

/-- Reduced gradient codes held at an address. -/
def Wk.gradCodes (w : Wk) (a n : Nat) : List Nat × Wk :=
  let (bs, w) := w.read a (4 * n)
  (unpackCodes 32 n bs, w)

/-! ## The moment pass (R251, R252) -/

/-- Direction code (R252). -/
def dirCode (c : XR) : Nat := if c.isNan then 3 else if c.isZero then 0 else if c.isNeg then 2 else 1
/-- Value of a direction code. -/
def dirValue (k : Nat) : XR := match k with | 0 => .zero false | 1 => XR.ofInt 1 | 2 => XR.ofInt (-1) | _ => .nan

/-- Three lists element by element. -/
def map3 (f : XR → XR → XR → XR) (a b c : List XR) : List XR := ((a.zip b).zip c).map (fun p => f p.1.1 p.1.2 p.2)

/-- vh of element `n` of a factored tensor: factors as stored, and STAT0 (R251). -/
def vhFactored (t : TensorDecl) (fac : List XR) (stat0 : XR) (n : Nat) : XR :=
  rDiv (rMul (fac.getD (n / max t.cc 1) .nan) (fac.getD (t.rr + n % max t.cc 1) .nan)) stat0

/-- rn(rn(b × x) + rn(c × y)). -/
def blend (b c x y : XR) : XR := rAdd (rMul b x) (rMul c y)

/-- q of the sums and clip passes. -/
def adaQ (g : Nat) (x : XR) : XR := rAdd (rMul x x) (oEps2 g)

/-- v″ of an unfactored ADAFACTOR shard: v′ as stored. -/
def adaV (s : Sh) (gs vs : List XR) : List XR :=
  asStored (oFmtV s.g) (s.site s.t.vSym) s.first ((gs.zip vs).map (fun p => blend (oB2 s.g) (oC2 s.g) p.2 (adaQ s.g p.1)))

/-- The moment pass of one shard; `fac`, `stat0` and `stat1` are the ADAFACTOR factors and STAT fields of the tensor's shard 0. -/
def Wk.momentPass (w : Wk) (s : Sh) (gs : List XR) (fac : List XR) (stat0 stat1 : XR) : Wk :=
  let g := s.g
  let (ms, w) := w.moment s
  match oRule g with
  | 0 =>
    let (ws, w) := w.master s
    w.storeMoment s (map3 (fun x y m => rAdd (rMul (oB1 g) m) (rAdd x (rMul (oWd g) y))) gs ws ms)
  | 1 =>
    let (ws, w) := w.master s
    let ds := (gs.zip ws).map (fun p => rAdd p.1 (rMul (oWd g) p.2))
    let m2 := (ds.zip ms).map (fun p => rAdd (rMul (oB1 g) p.2) p.1)
    (w.storeMoment s m2).storeSecond s ((ds.zip m2).map (fun p => rAdd p.1 (rMul (oB1 g) p.2)))
  | 3 =>
    let cs := (gs.zip ms).map (fun p => dirCode (blend (oB1 g) (oC1 g) p.2 p.1))
    let w := (w.nonfin (cs.map (· == 3))).write (s.a + s.lay.v) (packCodes 2 cs)
    w.storeMoment s ((gs.zip ms).map (fun p => blend (oB2 g) (oC2 g) p.2 p.1))
  | 5 =>
    if s.t.factored then
      let us := gs.zipIdx.map (fun (x, i) => rDiv x (rSqrt (vhFactored s.t fac stat0 (s.first + i))))
      w.storeMoment s ((us.zip ms).map (fun p => blend (oB1 g) (oC1 g) p.2 (rDiv p.1 stat1)))
    else
      let (vs, w) := w.second s
      let us := (gs.zip (adaV s gs vs)).map (fun p => rDiv p.1 (rSqrt p.2))
      let v2 := (gs.zip vs).map (fun p => blend (oB2 g) (oC2 g) p.2 (adaQ g p.1))
      (w.storeMoment s ((us.zip ms).map (fun p => blend (oB1 g) (oC1 g) p.2 (rDiv p.1 stat1)))).storeSecond s v2
  | _ =>
    let (vs, w) := w.second s
    (w.storeMoment s ((gs.zip ms).map (fun p => blend (oB1 g) (oC1 g) p.2 p.1))).storeSecond s
      ((gs.zip vs).map (fun p => blend (oB2 g) (oC2 g) p.2 (rMul p.1 p.1)))

/-! ## The weight pass (R251, R254) -/

/-- upd of ADAMW. -/
def adamUpd (g : Nat) (m v w : XR) : XR :=
  rAdd (rDiv (rDiv m (oBc1 g)) (rAdd (rSqrt (rDiv v (oBc2 g))) (oEps g))) (rMul (oWd g) w)

/-- upd of every element of a shard, from its stored slots and its master. -/
def Wk.updates (w : Wk) (s : Sh) (ws : List XR) (stat0 : XR) : List XR × Wk :=
  let g := s.g
  match oRule g with
  | 0 => w.moment s
  | 1 => w.second s
  | 2 =>
    let (ms, w) := w.moment s
    let (vs, w) := w.second s
    (map3 (adamUpd g) ms vs ws, w)
  | 3 =>
    let (bs, w) := w.read (s.a + s.lay.v) (ceilDiv s.cnt 4)
    (((unpackCodes 2 s.cnt bs).zip ws).map (fun p => rAdd (dirValue p.1) (rMul (oWd g) p.2)), w)
  | 4 =>
    let (ms, w) := w.moment s
    let (vs, w) := w.second s
    ((map3 (adamUpd g) ms vs ws).map (rMul stat0), w)
  | _ =>
    let (ms, w) := w.moment s
    ((ms.zip ws).map (fun p => rAdd p.1 (rMul (oWd g) p.2)), w)

/-- Place elements `n0` on of a symbol's copy at `base`: codes and scale bytes, row by row (R40, R254, R456). The update units never
write a compressed array (R209), so the rows of a COMPRESSED symbol are written plain: DESIGN CHOICE (log entry 40). -/
def Wk.placeWeights (w : Wk) (sy : Sym) (base n0 : Nat) (cs ss : List Nat) : Wk :=
  let inner := max sy.inner 1
  let bw := (fwFmt sy.fmt).width / 8
  let blk := fwBlk sy.fmt
  let n := cs.length
  (List.range ((n0 + n - 1) / inner + 1 - n0 / inner)).foldl (fun w i =>
    let r := n0 / inner + i
    let k0 := max n0 (r * inner)
    let k1 := min (n0 + n) ((r + 1) * inner)
    let w := w.write (base + r * packedLen sy.fmt inner + (k0 - r * inner) * bw)
      (packCodes (fwFmt sy.fmt).width ((cs.drop (k0 - n0)).take (k1 - k0)))
    if blk = 0 then w
    else w.write (base + sy.scaleOff + r * scaleBytes sy.fmt inner false + (k0 - r * inner) / blk)
      (((ss.drop ((k0 - n0) / blk)).take (ceilDiv (k1 - k0) blk)).map (BitVec.ofNat 8))) w

/-- Convert master values to the working format: codes and scale bytes (R254). No T divides them: DESIGN CHOICE (log entry 40). -/
def Wk.working (w : Wk) (s : Sh) (ws : List XR) : List Nat × List Nat × Wk := w.convRow (oFmtW s.g) (s.site s.t.wSym) s.first ws

/-- Multicast a shard's working weights to the pods of a list (R263). -/
def Wk.multicast (w : Wk) (s : Sh) (sy : Sym) (pods : List Nat) (ws : List XR) : Wk :=
  let (cs, ss, w) := w.working s ws
  pods.foldl (fun w p => w.placeWeights sy (sy.at_ p) s.first cs ss) w

/-- The weight pass of one shard. An element counts once in UPDATE_NONFINITE, for its master and its working weight (log entry 40). -/
def Wk.weightPass (w : Wk) (s : Sh) (sy : Sym) (stat0 : XR) : Wk :=
  let (ws, w) := w.master s
  let (us, w) := w.updates s ws stat0
  let w2 := (ws.zip us).map (fun p => rSub p.1 (rMul (oLr s.g) p.2))
  let stored := if oSplit s.g then w2.map (fun x => let (h, b) := writeSplit x; splitValue h b) else w2
  let odd := (oddOnes (oFmtW s.g) (s.site s.t.wSym) s.first stored).zipWith (fun a y => a || !y.isFinite) w2
  ((w.nonfin odd).storeMaster s w2).multicast s sy [0, 1, 2, 3] stored

/-! ## Passes over a whole tensor (R250, R251) -/

/-- STAT0 of LAMB from the masters and the updates of the whole tensor. -/
def lambStat (g : Nat) (ws us : List XR) : XR :=
  let wn := rSqrt (xSum (ws.map (fun w => w.mul w)))
  let rv := rSqrt (xSum (us.map (fun u => u.mul u)))
  let odd (x : XR) : Bool := x.isZero || !x.isFinite
  let s := if odd wn || odd rv then XR.ofInt 1 else rDiv wn rv
  if posFin (oEps2 g) then s.min (oEps2 g) else s

/-- Divide a sum by a count. -/
def xMean (x : XR) (n : Nat) : XR := rn (x.div (XR.ofInt n))

/-- New factors of a factored tensor before storage: R′, then C′ (R251). -/
def newFactors (g : Nat) (t : TensorDecl) (old : List XR) (qs : List XR) : List XR :=
  let rows := (List.range t.rr).map (fun i =>
    blend (oB2 g) (oC2 g) (old.getD i .nan) (xMean (xSum ((qs.drop (i * t.cc)).take t.cc)) t.cc))
  let cols := (List.range t.cc).map (fun j =>
    blend (oB2 g) (oC2 g) (old.getD (t.rr + j) .nan) (xMean (xSum ((List.range t.rr).map (fun i => qs.getD (i * t.cc + j) .nan))) t.rr))
  rows ++ cols

/-- STAT1 of ADAFACTOR from uf of the whole tensor. -/
def clipStat (g : Nat) (us : List XR) : XR :=
  (XR.ofInt 1).max (rDiv (rSqrt ((xSum (us.map (fun u => u.mul u))).div (XR.ofInt us.length))) (oClipD g))

end Sys2Proof.Machine
end

