-- ==== Sys2Proof/Machine/Cob.lean ====
section
/-! DEFINITION. The reduction switch, the update units, the tier manager and the weight-ready fences (spec file 10):
GRADIENT_CHUNK_ARRIVAL, UPDATE_PASS_COMPLETE, STAGE_BLOCK_ARRIVAL, WRITEBACK_ARRIVAL and MULTICAST_ARRIVAL. -/

namespace Sys2Proof.Machine

/-! ## The step in the Cob's hands -/

/-- Plan handle and step of the work in the Cob. -/
def Dev.cobRun (d : Dev) : Option (Nat × StepRun) :=
  match d.cob.plan with
  | some h =>
    match (d.plan h).cur with
    | some r => if d.cob.active && r.step == d.cob.step then some (h, r) else none
    | none => none
  | none => none

/-- FAULT fields of R459 as bits 31 to 0 of [127:96]. -/
def faultFields (layer tensor pod shard : Nat) : Nat := packBits [(12, layer), (4, tensor), (2, pod), (14, shard)]

/-- The Cob begins a step: nothing is reduced, and staging begins again from the highest layer (R258). -/
def Cob.begin_ (c : Cob) (h step : Nat) : Cob :=
  { c with plan := some h, step := step, active := true, sent := [], buf := [], reducedN := 0, nextShard := 0, part := [], slots := [],
           layers := [], order := [], passed := [], stopped := [], blks := c.blks.map (fun b => { b with used := false }) }

/-- What a pass of the Cob carries along. -/
def Dev.cobWork (d : Dev) (flips : List Nat) : Wk := { mem := d.mem, poison := d.poison, free := d.plat.freeCount, flaws := flips }

/-- The RUN_STEP that owns the work in the Cob's hands (R144). -/
def Dev.cobCmd (d : Dev) : Option Cmd := match d.cobRun with | some (_, r) => d.host.cmd r.cmd | none => none

/-- Take what a Cob unit has written: memory, parity, counters, fault records of the owning command (R142, R144). -/
def Dev.absorbCob (d : Dev) (unit : Nat) (cmd : Option Cmd) (w : Wk) : Dev := d.absorbUnit cobInst unit 4 cmd w

/-- The reads of a unit that met a parity error are recorded with what the reading counted, and nothing it wrote stands. -/
def Dev.absorbFault (d : Dev) (unit : Nat) (cmd : Option Cmd) (w : Wk) : Dev :=
  d.absorbCob unit cmd { w with mem := d.mem, poison := flipBad d.poison (w.errs.filter (fun e => e < hostBase 0 && !isGddr e)),
                                cnt := w.cnt.filter (fun x => x.1 == 0x18 || 256 ≤ x.1) }

/-- A shard is quarantined: its header says so, no further pass of its layer starts, and the step completes with DATA_PARITY and
names it; with no step in progress the later ones fail (R269). -/
def Dev.quarantine (d : Dev) (i : Nat) : Dev :=
  let b := d.cob.blk i
  let d := d.storeNat (b.cur + 24) 1 (setBits (rdNat d.mem (b.cur + 24) 1) 2 1 1)
  let d := { d with cob := d.cob.updLayer b.layer (fun y => { y with stuck := true }), ctr := bump d.ctr cobInst 0x37 1 }
  match d.cob.plan with
  | some h => (d.updRun h false (fun r =>
      if r.bad = 0 then { r with bad := stParity, faultAt := faultFields b.layer b.tensor 0 b.shard } else r)).updPlan h (fun p =>
        if p.cur.isNone then { p with blocked := stParity } else p)
  | none => d

/-- The shard whose state block, staged copy or reduced gradient holds a byte (R269). -/
def Dev.blkOf (d : Dev) (p : Plan) (a : Nat) : Option Nat :=
  (List.range d.cob.blks.length).find? (fun i =>
    let b := d.cob.blk i
    let g := match p.tensor b.layer b.tensor with | some t => 4 * p.shardCount t b.shard | none => 0
    overlaps a 1 b.cur b.size || overlaps a 1 b.addr b.size
      || d.cob.slots.any (fun x => x.blk == i && overlaps a 1 x.addr g))

/-- The shards whose bytes met the parity errors of a unit's reads. -/
def Dev.badBlks (d : Dev) (p : Plan) (w : Wk) : List Nat := ((w.errs.reverse.map flawAddr).filterMap (d.blkOf p)).eraseDups

/-! ## Passes (R250, R267, R268) -/

/-- Blocks of a tensor, by index, in order of shard. -/
def Cob.tensorBlks (c : Cob) (layer tensor : Nat) : List Nat :=
  (List.range c.blks.length).filter (fun i => (c.blk i).layer == layer && (c.blk i).tensor == tensor)
/-- Blocks of a layer. -/
def Cob.layerBlks (c : Cob) (layer : Nat) : List Nat := (List.range c.blks.length).filter (fun i => (c.blk i).layer == layer)

/-- Header of a block. -/
def Dev.blkHeader (d : Dev) (i : Nat) : Nat := header d.mem (d.cob.blk i).cur
/-- Header of shard 0 of a block's tensor. -/
def Dev.statHeader (d : Dev) (b : Blk) : Nat := ((d.cob.find b.layer b.tensor 0).map d.blkHeader).getD 0

/-- What comes next for a block in step `s`: 0 sums, 1 clip, 2 moment, 3 statistics, 4 weight; 8 its gradient is gone, 9 its tags
match no row of R268. -/
def Dev.nextPass (d : Dev) (p : Plan) (s i : Nat) : Option Nat :=
  let c := d.cob
  let b := c.blk i
  let hd := d.blkHeader i
  match p.tensor b.layer b.tensor with
  | none => none
  | some t =>
    let rule := oRule (p.group t.group)
    let sibs := c.tensorBlks b.layer b.tensor
    let stat := hdStat (d.statHeader b) == s + 1
    let all (k : Nat) : Bool := sibs.all (fun j => c.passed.contains (j, k))
    if hdMom hd = s + 1 ∧ hdW hd = s + 1 then none
    else if hdMom hd = s + 1 ∧ hdW hd = s then
      if rule = 4 ∧ !stat then
        if c.passed.contains (i, 3) || !sibs.all (fun j => hdMom (d.blkHeader j) == s + 1) then none else some 3
      else some 4
    else if hdMom hd = s ∧ hdW hd = s then
      if !c.slots.any (fun x => x.blk == i) then some 8
      else if rule = 5 ∧ !stat then
        if t.factored ∧ !c.passed.contains (i, 0) then some 0
        else if t.factored ∧ !all 0 then none
        else if c.passed.contains (i, 1) then none
        else some 1
      else some 2
    else some 9

/-- A dump's moment has come: the fence of a WEIGHT symbol's layer reads STEP + 1, the step's pass of each shard of a STATE symbol has
left its section, or the last loop that writes any other symbol is DONE (R529). -/
def Dev.momentCome (d : Dev) (x : Dump) : Bool :=
  let p := d.plan x.plan
  x.due || (match p.sym x.sym with
    | none => false
    | some sy =>
      if x.stream.isSome then false
      else if !p.cobSym sy then d.loopMoment p x sy
      else if sy.cls = 0 then
        p.tensors.any (fun t => t.wSym == sy.num && x.step + 1 ≤ Tab.get 0 (d.pod (sy.podList.headD 0)).fence t.layer)
      else
        (List.range d.cob.blks.length).all (fun i =>
          match p.tensor (d.cob.blk i).layer (d.cob.blk i).tensor with
          | some t => (t.mSym != sy.num && t.vSym != sy.num) || x.step + 1 ≤ hdMom (d.blkHeader i)
          | none => true))

/-- A dump of a training plan holds the next write of a symbol (R529). -/
def Dev.dumpHolds (d : Dev) (h sym : Nat) : Bool :=
  d.obs.dumps.any (fun x => x.plan == h && x.sym == sym && x.stream.isNone && d.momentCome x)

/-- A dump holds the sections that a pass would write (R529). -/
def Dev.passHeld (d : Dev) (h : Nat) (p : Plan) (i k : Nat) : Bool :=
  match p.tensor (d.cob.blk i).layer (d.cob.blk i).tensor with
  | some t => if k = 4 then d.dumpHolds h t.wSym else if k ≤ 2 then d.dumpHolds h t.mSym || d.dumpHolds h t.vSym else false
  | none => false

/-- A unit may start a pass: its domain runs, no stop is due, and the step's updates go on (R143, R267). -/
def Dev.unitMay (d : Dev) (u : Nat) : Bool :=
  d.pow.runs (57 + u) && !Tab.get false d.cob.unitStop u
    && (match d.cobRun with | some (_, r) => !r.noUpdate | none => false)

/-- Ready layers that no unit has taken up, the lowest first (R261, R266). -/
def Dev.waitingLayers (d : Dev) (p : Plan) : List Nat :=
  p.layersUp.filter (fun y => let l := d.cob.layer y; l.queued && !l.skip && !l.done && !d.cob.order.contains y)

/-- The pass that unit `u` takes next: of the layers already taken up in their order, then of the ready ones, the lowest first, and
within a layer its shards in order (R241, R261, R266). -/
def Dev.pick (d : Dev) (u : Nat) : Option (Nat × Nat) :=
  match d.cobRun with
  | none => none
  | some (h, r) =>
    let p := d.plan h
    (d.cob.order ++ d.waitingLayers p).findSome? (fun y =>
      let l := d.cob.layer y
      if l.stuck || l.done then none
      else ((d.cob.layerBlks y).filter (fun i => (d.cob.blk i).shard % 4 == u)).findSome? (fun i =>
        match d.nextPass p r.step i with
        | some k => if d.passHeld h p i k then none else some (i, k)
        | none => none))

/-- A unit that had stopped takes a layer up again: the tags of its shards are checked and counted (R268). -/
def Dev.takeUp (d : Dev) (s u y : Nat) : Dev :=
  if d.cob.stopped.contains (u, y) then
    let is := (d.cob.layerBlks y).filter (fun i => (d.cob.blk i).shard % 4 == u)
    let half := is.filter (fun i => hdMom (d.blkHeader i) == s + 1 && hdW (d.blkHeader i) == s)
    let redo := is.filter (fun i => hdMom (d.blkHeader i) == s && hdW (d.blkHeader i) == s && d.cob.slots.any (fun x => x.blk == i))
    { d with cob := { d.cob with stopped := d.cob.stopped.filter (· != (u, y)) },
             ctr := bump (bump d.ctr cobInst 0x35 half.length) cobInst 0x36 redo.length }
  else d

/-- Unit `u` takes its next pass, if it may (R267, R268). -/
def Dev.assign1 (d : Dev) (u : Nat) : Dev :=
  if !d.unitMay u || (Tab.get none d.cob.units u).isSome then d
  else match d.pick u with
  | none => d
  | some (i, k) =>
    let y := (d.cob.blk i).layer
    let d := d.takeUp d.cob.step u y
    let d := if d.cob.order.contains y then d else { d with cob := { d.cob with order := d.cob.order ++ [y] } }.trace 0x0B 4 0 y 1 d.cob.step
    if k = 9 then d.quarantine i
    else if k = 8 then
      match d.cob.plan with
      | some h =>
        { d with cob := d.cob.updLayer y (fun l => { l with stuck := true }) }.updRun h false (fun r =>
          { r with bad := if r.bad = 0 then stAborted else r.bad, undone := r.undone ++ [y] })
      | none => d
    else { d with cob := { d.cob with units := Tab.set none d.cob.units u (some (i, k)) } }

/-- Every free unit takes its next pass. -/
def Dev.assign (d : Dev) : Dev := ([0, 1, 2, 3] : List Nat).foldl Dev.assign1 d

/-! ## Ready layers and skips (R237, R246, R260, R261) -/

/-- Every layer of the plan has been reduced. -/
def Dev.allReduced (d : Dev) (p : Plan) : Bool := p.layersUp.all (fun y => (d.cob.layer y).reduced)

/-- The fence entry of a layer advances in a pod: the layer's completion point there (R264). -/
def Dev.openFence (d : Dev) (pod y tag : Nat) : Dev :=
  (d.updPod pod (fun x => { x with fence := Tab.set 0 x.fence y tag })).trace 0x0B 4 pod y 3 (tag - 1)

/-- A layer is skipped: its tags advance, its gradients leave, its fence opens without a multicast (R237). -/
def Dev.skipLayer (d : Dev) (h s y : Nat) : Dev :=
  let is := d.cob.layerBlks y
  let d := is.foldl (fun (d : Dev) i => d.storeNat (d.cob.blk i).cur 16 (s + 1 + 2 ^ 64 * (s + 1))) d
  let c := is.foldl (fun c i => c.updBlk i (fun b => { b with used := true, writing := b.home != 0 })) d.cob
  let c := { c with slots := c.slots.filter (fun x => !is.contains x.blk) }
  let c := c.updLayer y (fun l => { l with queued := true, done := true, skip := true, fenced := 15 })
  let d := { d with cob := c }
  (([0, 1, 2, 3] : List Nat).foldl (fun d p => d.openFence p y (s + 1)) d).updRun h false (fun r => { r with skipped := r.skipped ++ [y] })

/-- A layer is ready: reduced to its last element under LAYER, or with every other layer under STEP, and all its blocks are
resident or staged (R237, R260). -/
def Dev.layerReady (d : Dev) (p : Plan) (y : Nat) : Bool :=
  let l := d.cob.layer y
  let reduced := if rsStepPolicy (p.run.getD 0) then d.allReduced p else l.reduced
  reduced && !l.queued && !l.stuck && (d.cob.layerBlks y).all (fun i => (d.cob.blk i).here)

/-- Layers that have become ready wait for a unit; a non-finite one is skipped instead, under STEP every layer by the flag as it stood
when the last layer's gradient had arrived (R237). Work arrives for the update units (R261, R388). -/
def Dev.readyLayers (d : Dev) : Dev :=
  match d.cobRun with
  | none => d
  | some (h, r) =>
    let p := d.plan h
    let ys := p.layersUp.filter (d.layerReady p)
    if ys = [] || r.noUpdate then d
    else
      let d := ys.foldl (fun d y =>
        let flag := match r.eos with | some (_, _, f) => f | none => r.gradNF
        let bad := if rsStepPolicy (p.run.getD 0) then flag else (d.cob.layer y).nonfinite
        if bad then d.skipLayer h r.step y
        else
          { d with cob := d.cob.updLayer y (fun l => { l with queued := true, queuedAt := d.plat.now }) }) d
      (([57, 58, 59, 60] : List Nat).foldl Dev.demand d).assign

/-! ## GRADIENT_CHUNK_ARRIVAL (R244 to R246, R260, R262) -/

/-- Chunks of 64 KiB of a tensor's send symbol. -/
def chunksOf (sy : Sym) : Nat := ceilDiv sy.bytes 65536

/-- The tensor, send symbol and chunk with number `j` in the order of sending. -/
def chunkAt (p : Plan) : List TensorDecl → Nat → Option (TensorDecl × Sym × Nat)
  | [], _ => none
  | t :: ts, j =>
    match p.sym t.gSym with
    | none => chunkAt p ts j
    | some sy => if j < chunksOf sy then some (t, sy, j) else chunkAt p ts (j - chunksOf sy)

/-- Offset of element `n` within a symbol's plain element array (R40). -/
def Sym.elemOff (sy : Sym) (n : Nat) : Nat :=
  let inner := max sy.inner 1
  let f := fwFmt sy.fmt
  (n / inner) * packedLen sy.fmt inner + n % inner * f.width / 8

/-- Elements of a send symbol whose bytes lie in chunk `c`. -/
def chunkElems (sy : Sym) (c : Nat) : List Nat := (List.range sy.count).filter (fun n => sy.elemOff n / 65536 == c)

/-- FP32 patterns of elements `n0` to `n1` of a pod's copy, row by row (R42, R244). Nothing on the way to the switch expands row slots
(R209), so a COMPRESSED symbol is read plain: DESIGN CHOICE (log entry 40). -/
def Wk.sendCodes (w : Wk) (sy : Sym) (base n0 n1 : Nat) : List Nat × Wk :=
  let inner := max sy.inner 1
  let blk := max (fwBlk sy.fmt) 1
  if n1 ≤ n0 then ([], w)
  else (List.range ((n1 - 1) / inner + 1 - n0 / inner)).foldl (fun (x : List Nat × Wk) i =>
    let r := n0 / inner + i
    let k0 := max n0 (r * inner) - r * inner
    let k1 := min n1 ((r + 1) * inner) - r * inner
    let b0 := k0 / blk * blk
    let (row, w) := x.2.readRow sy.fmt (base + r * packedLen sy.fmt inner)
      (base + sy.scaleOff + r * scaleBytes sy.fmt inner false) inner false b0 (k1 - b0)
    (x.1 ++ (List.range (k1 - k0)).map (fun k => fp32Code (rn (row.val (tscaleOf sy.fmt sy.tscale) (k0 + k)))), w)) ([], w)

/-- A pod has formed a tensor's gradient: every loop that writes the send symbol is DONE, or, where none does, its streams have
ended (R98, R233; log entry 20). -/
def Dev.gradFormed (d : Dev) (h : Nat) (r : StepRun) (pod : Nat) (sy : Sym) : Bool :=
  let p := d.plan h
  let ws := p.writers pod sy
  if ws = [] then (List.range 48).all (fun c => match (d.core (48 * pod + c)).ctx with | some x => x.live || x.second | none => true)
    && (List.range 48).all (fun c => match (d.core (48 * pod + c)).saved with | some x => x.second | none => true)
  else ws.all (fun (ctr, j) =>
    let w := (j + Tab.get 0 r.bases (64 * pod + ctr)) % 65536
    let t := d.ctr_ pod ctr
    (t.seq == w && t.st == 3) || after16 t.seq w)

/-- GRADBUF and PARK ranges in use, with their bytes. -/
def Dev.slotRanges (d : Dev) (p : Plan) (park : Bool) : List (Nat × Nat) :=
  (d.cob.slots.filter (fun x => x.park == park)).map (fun x =>
    let b := d.cob.blk x.blk
    (x.addr, match p.tensor b.layer b.tensor with | some t => 4 * p.shardCount t b.shard | none => 0))

/-- PARK can take the chunk that is reduced next (R262). -/
def Dev.parkRoom (d : Dev) (p : Plan) (n : Nat) : Bool :=
  (placeIn 4 (p.area 5) (d.slotRanges p true) (4 * (d.cob.part.length + n))).isSome

/-- A reduced shard goes to GRADBUF where that has room and the block is resident or staged, and to PARK otherwise, which defers
its layer (R260); under STEP to PARK (R237). -/
def Dev.placeShard (d : Dev) (p : Plan) (t : TensorDecl) (k : Nat) (codes : List Nat) : Dev :=
  match d.cob.find t.layer t.tensor k with
  | none => d
  | some i =>
    let n := 4 * codes.length
    let buf := if (d.cob.blk i).here && !rsStepPolicy (p.run.getD 0) then placeIn 4 (p.area 2) (d.slotRanges p false) n else none
    let (a, park) : Nat × Bool := match buf with
      | some a => (a, false)
      | none => match placeIn 4 (p.area 5) (d.slotRanges p true) n with
        | some a => (a, true)
        | none => ((p.area 5).1, true)
    let d := d.store a (packCodes 32 codes)
    let first := park && !(d.cob.layer t.layer).deferred
    let c := d.cob.updLayer t.layer (fun l => { l with deferred := l.deferred || park })
    let d := { d with cob := { c with slots := c.slots ++ [{ blk := i, addr := a, park := park }] }, ctr := bump d.ctr cobInst 0x32 (b2n first) }
    if first then d.trace 0x0B 4 0 t.layer 2 d.cob.step else d

/-- Whole shards among the reduced elements of a tensor are placed; at its end the rest is its last shard. -/
def Dev.placeShards (d : Dev) (p : Plan) (t : TensorDecl) : Nat → Dev
  | 0 => d
  | fuel + 1 =>
    let n := p.shardCount t d.cob.nextShard
    let part := d.cob.part
    if part.length < n || n = 0 then d
    else
      let d1 := d.placeShard p t d.cob.nextShard (part.take n)
      ({ d1 with cob := { d1.cob with part := part.drop n, nextShard := d.cob.nextShard + 1 } }).placeShards p t fuel

/-- reduce of R244 on the patterns of the four pods, element by element. -/
def reduce4 : List Nat → List Nat → List Nat → List Nat → List Nat
  | a :: as, b :: bs, c :: cs, e :: es => addGroup (addGroup (addGroup a b) c) e :: reduce4 as bs cs es
  | _, _, _, _ => []

/-- The last element of a layer is reduced: its mark, and after the last layer of the step end_of_step of R238 (R246, R458). -/
def Dev.layerReduced (d : Dev) (h y : Nat) : Dev :=
  let nf := (d.cob.layer y).nonfinite
  let d := { d with cob := d.cob.updLayer y (fun l => { l with reduced := true }), ctr := bump d.ctr cobInst 0x33 (b2n nf) }.trace 0x0B 4 0 y 0 d.cob.step
  let p := d.plan h
  if d.allReduced p then
    let r := p.run.getD 0
    let flag := match p.cur with | some x => x.gradNF | none => false
    (d.updPlan h (fun p => { p with run := some (endOfStep r flag) })).updRun h false (fun x =>
      { x with eos := some (ofInt 8 (rsExp r), rsClean r, flag) })
  else d

/-- The switch reduces the next chunk, whose four copies are present (R244 to R246). -/
def Dev.reduceNext (d : Dev) (h : Nat) : Dev :=
  let p := d.plan h
  match chunkAt p p.sendOrder d.cob.reducedN with
  | none => d
  | some (t, sy, c) =>
    let copy (q : Nat) : List Nat := (Tab.get [] d.cob.buf q).headD []
    let out := reduce4 (copy 0) (copy 1) (copy 2) (copy 3)
    let nf := out.any (fun x => !(fp32 x).isFinite)
    let buf := ([0, 1, 2, 3] : List Nat).foldl (fun b q => Tab.upd [] b q List.tail) d.cob.buf
    let base : Cob := if c = 0 then { d.cob with part := [], nextShard := 0 } else d.cob
    let cob := { base with buf := buf, reducedN := d.cob.reducedN + 1, part := base.part ++ out }
    let d := { d with cob := if nf then cob.updLayer t.layer (fun l => { l with nonfinite := true }) else cob }
    let d := if nf then d.updRun h false (fun r => { r with gradNF := true }) else d
    let last := c + 1 == chunksOf sy
    let d := d.placeShards p t (p.shards t + 1)
    let lastOfLayer := last && !(p.tensors.any (fun u => u.layer == t.layer && t.tensor < u.tensor))
    (if lastOfLayer then d.layerReduced h t.layer else d).readyLayers

/-- A chunk of pod `pod` arrives: it was sent against a credit, once its tensor is formed; with the fourth copy it is reduced. -/
def Dev.chunkIn (d : Dev) (pod : Nat) (flips : List Nat) : Option Dev :=
  match d.cobRun with
  | none => none
  | some (h, r) =>
    let p := d.plan h
    let j := Tab.get 0 d.cob.sent pod
    match chunkAt p p.sendOrder j with
    | none => none
    | some (t, sy, c) =>
      let es := chunkElems sy c
      let n0 := es.headD 0
      if 3 < pod || r.halting || !d.gradFormed h r pod sy || 32 ≤ j - d.cob.reducedN
        || !(match chunkAt p p.sendOrder d.cob.reducedN with
          | some (_, sy2, c2) => d.parkRoom p (chunkElems sy2 c2).length | none => false) then none
      else
        let (codes, w) := (d.cobWork flips).sendCodes sy (sy.at_ pod) n0 (n0 + es.length)
        if w.bad then some ((d.absorbFault 7 d.cobCmd w).updRun h false (fun r => r.fail stParity (faultFields t.layer t.tensor pod 0) 0))
        else
          let c1 : Cob := { d.cob with sent := Tab.set 0 d.cob.sent pod (j + 1), buf := Tab.upd [] d.cob.buf pod (· ++ [codes]) }
          let d := { d.absorbFault 7 d.cobCmd w with cob := c1 }
          some (if ([0, 1, 2, 3] : List Nat).all (fun q => d.cob.reducedN < Tab.get 0 d.cob.sent q) then d.reduceNext h else d)

/-- GRADIENT_CHUNK_ARRIVAL (R244, R245). -/
def execGradientChunkArrival (pod : Nat) (flips : List Nat) (s : State) : Res := eventFlips s flips (s.dev.chunkIn pod flips)

/-! ## UPDATE_PASS_COMPLETE (R250 to R255, R267) -/

/-- The shard of a block at work. -/
def Dev.shOf (d : Dev) (p : Plan) (step i : Nat) : Sh :=
  let b := d.cob.blk i
  let t := (p.tensor b.layer b.tensor).getD {}
  { seed := rsSeed (p.run.getD 0), step := step, t := t, g := p.group t.group, first := b.shard * p.shardElems,
    cnt := p.shardCount t b.shard, a := b.cur, lay := p.lay (p.group t.group) t b.shard,
    mT := match p.sym t.mSym with | some sy => tscaleOf (oFmtM (p.group t.group)) sy.tscale | none => Q.one }

/-- The gradient elements held for a block (R236, R251). -/
def Dev.gradFor (d : Dev) (w : Wk) (p : Plan) (r : StepRun) (i : Nat) : List XR × Wk :=
  let sh := d.shOf p r.step i
  match d.cob.slots.find? (fun x => x.blk == i) with
  | none => ([], w)
  | some x =>
    let (cs, w) := w.gradCodes x.addr sh.cnt
    (gradOf sh.g r.lsExp cs, w)

/-- The values of several shards, one after the other. -/
def gather (is : List Nat) (f : Wk → Nat → List XR × Wk) (w : Wk) : List XR × Wk :=
  is.foldl (fun (x : List XR × Wk) i => let (ys, w) := f x.2 i; (x.1 ++ ys, w)) ([], w)

/-- STAT0, STAT1 and STAT_TAG written to a header (R267). -/
def setStat (h s : Nat) (stat0 stat1 : XR) : Nat :=
  setBits (setBits (setBits h 128 64 (s + 1)) 224 32 (fp32Code stat0)) 256 32 (fp32Code stat1)

/-- The end of the tensor pass LAMB statistics (R251). -/
def Dev.lambEnd (d : Dev) (w : Wk) (p : Plan) (r : StepRun) (is : List Nat) : Wk :=
  let i0 := is.headD 0
  let g := (d.shOf p r.step i0).g
  let (ws, w) := gather is (fun w i => w.master (d.shOf p r.step i)) w
  let (us, w) := gather is (fun w i =>
    let s := d.shOf p r.step i
    let (ws, w) := w.master s
    let (ms, w) := w.moment s
    let (vs, w) := w.second s
    (map3 (adamUpd g) ms vs ws, w)) w
  let hd := d.blkHeader i0
  let stat0 := lambStat g ws us
  (w.nonfin [!stat0.isFinite]).write (d.cob.blk i0).cur (leBytes 64 (setStat hd r.step stat0 (fp32 (bits hd 256 32))))

/-- The end of the ADAFACTOR clip pass (R251): factors, STAT0, STAT1 and STAT_TAG of shard 0. -/
def Dev.clipEnd (d : Dev) (w : Wk) (p : Plan) (r : StepRun) (is : List Nat) : Wk :=
  let i0 := is.headD 0
  let s0 := d.shOf p r.step i0
  let g := s0.g
  let hd := d.blkHeader i0
  let (gs, w) := gather is (fun w i => d.gradFor w p r i) w
  if s0.t.factored then
    let (old, w) := w.factors s0
    let new_ := newFactors g s0.t old (gs.map (adaQ g))
    let st := asStored (oFmtV g) (s0.site s0.t.vSym) 0 new_
    let stat0 := rn (xSum (st.take s0.t.rr))
    let us := gs.zipIdx.map (fun (x, n) => rDiv x (rSqrt (vhFactored s0.t st stat0 n)))
    let w := (w.nonfin (oddOnes (oFmtV g) (s0.site s0.t.vSym) 0 new_)).storeRow (oFmtV g) (s0.a + s0.lay.v) 0 (s0.t.rr + s0.t.cc) false
      (s0.site s0.t.vSym) 0 0 new_
    let stat1 := clipStat g us
    (w.nonfin [!stat0.isFinite, !stat1.isFinite]).write s0.a (leBytes 64 (setStat hd r.step stat0 stat1))
  else
    let (vs, w) := gather is (fun w i =>
      let s := d.shOf p r.step i
      let (gs, w) := d.gradFor w p r i
      let (vs, w) := w.second s
      (adaV s gs vs, w)) w
    let us := (gs.zip vs).map (fun x => rDiv x.1 (rSqrt x.2))
    let stat1 := clipStat g us
    (w.nonfin [!stat1.isFinite]).write s0.a (leBytes 64 (setStat hd r.step (fp32 (bits hd 224 32)) stat1))

/-- The work of a pass on block `i`: what it leaves in memory. -/
def Dev.passWork (d : Dev) (p : Plan) (r : StepRun) (i k : Nat) (flips : List Nat) : Wk :=
  let b := d.cob.blk i
  let s := d.shOf p r.step i
  let (_, w) := (d.cobWork flips).read b.cur 64
  let is := d.cob.tensorBlks b.layer b.tensor
  let lastOf (k : Nat) : Bool := is.all (fun j => j == i || d.cob.passed.contains (j, k))
  let stats := d.statHeader b
  match k with
  | 0 => (d.gradFor w p r i).2
  | 1 => if lastOf 1 then d.clipEnd w p r is else (d.gradFor w p r i).2
  | 2 =>
    let (gs, w) := d.gradFor w p r i
    let (fac, w) := if oRule s.g = 5 ∧ s.t.factored then w.factors (d.shOf p r.step (is.headD i)) else ([], w)
    let w := w.momentPass s gs fac (fp32 (bits stats 224 32)) (fp32 (bits stats 256 32))
    w.write s.a (leBytes 8 (r.step + 1))
  | 3 => if lastOf 3 then d.lambEnd w p r is else (w.master s).2
  | _ =>
    match p.sym s.t.wSym with
    | some sy => (w.weightPass s sy (fp32 (bits stats 224 32))).write (s.a + 8) (leBytes 8 (r.step + 1))
    | none => w

/-- A thermal stop that waited for the end of a pass takes effect (R267, R400). -/
def Dev.unitStops (d : Dev) (u : Nat) : Dev :=
  if Tab.get false d.cob.unitStop u then
    { d with pow := d.pow.upd (57 + u) (fun x => { x with stopped := true }), ctr := bump d.ctr cobInst 0x65 1,
             cob := { d.cob with unitStop := Tab.set false d.cob.unitStop u false } }.noteStop u
  else d

/-- What a pass leaves behind besides memory: its record, its gradient slot, the end of its layer (R258, R260). -/
def Cob.passDone (c : Cob) (i k : Nat) : Cob :=
  let c := { c with passed := c.passed ++ [(i, k)] }
  if k = 2 then { c with slots := c.slots.filter (fun x => x.blk != i) }
  else if k = 4 then c.updBlk i (fun b => { b with used := true, writing := b.home != 0 })
  else c

/-- Every shard of a layer has both tags at `s + 1`: the layer is updated. -/
def Dev.layerDone (d : Dev) (s y : Nat) : Bool :=
  (d.cob.layerBlks y).all (fun i => hdMom (d.blkHeader i) == s + 1 && hdW (d.blkHeader i) == s + 1)

/-- Unit `u` ends its pass, or takes one and ends it. A parity error in state or gradients quarantines the shard that holds the byte; one
that a working weight meets on its way to a pod poisons the step (R141, R143, R269). -/
def Dev.passEnds (d : Dev) (u : Nat) (flips : List Nat) : Option Dev :=
  if 3 < u then none
  else
    let d := d.assign1 u
    match Tab.get none d.cob.units u, d.cobRun with
    | some (i, k), some (h, r) =>
      let p := d.plan h
      let y := (d.cob.blk i).layer
      let w := d.passWork p r i k flips
      let hurt := d.badBlks p w
      let d := { d with cob := { d.cob with units := Tab.set none d.cob.units u none } }
      if hurt != [] then some (((hurt.foldl Dev.quarantine (d.absorbFault 8 d.cobCmd w)).unitStops u).assign)
      else
        let d := d.absorbCob 8 d.cobCmd w
        let d := { d with cob := d.cob.passDone i k, pow := d.pow.idle (57 + u) d.plat.now }
        let d := if d.layerDone r.step y then { d with cob := d.cob.updLayer y (fun l => { l with done := true }) } else d
        let d := if w.bad then d.updRun h false (fun r => r.fail stParity (faultFields y 0 0 0) 0) else d
        some ((d.unitStops u).assign)
    | _, _ => none

/-- UPDATE_PASS_COMPLETE (R250 to R255, R267). -/
def execUpdatePassComplete (unit : Nat) (flips : List Nat) (s : State) : Res := eventFlips s flips (s.dev.passEnds unit flips)

/-! ## The tier manager (R258, R259) -/

/-- The block that is staged next: in update order, the first that is neither resident, nor staged, nor done in this step, nor on
its way home (R258). -/
def Dev.nextStage (d : Dev) : Option Nat :=
  match d.cob.plan with
  | none => none
  | some h =>
    (d.plan h).sendOrder.findSome? (fun t => (d.cob.tensorBlks t.layer t.tensor).find? (fun i =>
      let b := d.cob.blk i
      b.home != 0 && b.stage.isNone && !b.used && !b.writing))

/-- A block arrives in STAGE; a parity error quarantines its shard (R258, R269). -/
def Dev.stageIn (d : Dev) (flips : List Nat) : Option Dev :=
  match d.cob.plan, d.nextStage with
  | some h, some i =>
    let b := d.cob.blk i
    match placeIn 64 ((d.plan h).area 1) d.cob.staged b.size with
    | none => none
    | some a =>
      if !d.backed b.addr b.size then none
      else
        let (bs, w) := (d.cobWork flips).read b.addr b.size
        if w.bad then
          let d := (d.absorbFault 12 d.cobCmd w).quarantine i
          some { d with cob := d.cob.updBlk i (fun b => { b with used := true }) }
        else
          let w := (w.write a bs).write a (leBytes 64 (mkHeader (header d.mem b.addr) (bit (header d.mem b.addr) 194) true))
          let d := d.absorbCob 12 d.cobCmd w
          some { d with cob := d.cob.updBlk i (fun b => { b with stage := some a }) }.readyLayers
  | _, _ => none

/-- STAGE_BLOCK_ARRIVAL (R258). -/
def execStageBlockArrival (flips : List Nat) (s : State) : Res := eventFlips s flips (s.dev.stageIn flips)

/-- The write-back of a block has arrived, its header last; it leaves STAGE unless it is PINNED (R258, R259). -/
def Dev.writtenBack (d : Dev) (i : Nat) (flips : List Nat) : Option Dev :=
  let b := d.cob.blk i
  match b.stage with
  | none => none
  | some a =>
    if !b.writing || !d.backed b.addr b.size then none
    else
      let (bs, w) := (d.cobWork flips).read a b.size
      if w.bad then
        let d := (d.absorbFault 12 d.cobCmd w).quarantine i
        some { d with cob := d.cob.updBlk i (fun b => { b with writing := false }) }
      else
        let hd := header d.mem a
        let keep := hdPinned hd
        let w := (w.write b.addr bs).write b.addr (leBytes 64 (mkHeader hd (bit hd 194) keep))
        let d := d.absorbCob 12 d.cobCmd w
        some { d with cob := d.cob.updBlk i (fun b => { b with writing := false, stage := if keep then some a else none }) }

/-- WRITEBACK_ARRIVAL (R258, R259). -/
def execWritebackArrival (block : Nat) (flips : List Nat) (s : State) : Res := eventFlips s flips (s.dev.writtenBack block flips)

/-! ## MULTICAST_ARRIVAL and digests (R264, R270, R271) -/

/-- Bytes of rows: `n` rows of `lb` bytes, `pitch` apart, expanded where they stand in row slots. -/
def Wk.rowsOf (w : Wk) (a lb pitch n : Nat) (comp : Bool) : List Byte × Wk :=
  (List.range n).foldl (fun (x : List Byte × Wk) r => let (bs, w) := x.2.readPart (a + r * pitch) lb comp 0 lb; (x.1 ++ bs, w)) ([], w)

/-- Element bytes of a symbol's copy (R203, R270). -/
def Wk.symElems (w : Wk) (sy : Sym) (base : Nat) : List Byte × Wk :=
  w.rowsOf base (packedLen sy.fmt sy.inner) (rowBytes sy.fmt sy.inner sy.comp) sy.rows sy.comp
/-- Scale bytes of a symbol's copy. -/
def Wk.symScales (w : Wk) (sy : Sym) (base : Nat) : List Byte × Wk :=
  if fwBlk sy.fmt = 0 then ([], w)
  else w.rowsOf (base + sy.scaleOff) (ceilDiv sy.inner (fwBlk sy.fmt)) (scaleBytes sy.fmt sy.inner sy.comp) sy.rows sy.comp

/-- Working symbols of a layer's tensors in order. -/
def Plan.layerSyms (p : Plan) (y : Nat) : List Sym := (p.tensorsUp.filter (fun t => t.layer == y)).filterMap (fun t => p.sym t.wSym)

/-- The digest of a layer over copies whose place `at_` gives, and the reader afterwards (R270). -/
def Wk.digest (w : Wk) (sys : List Sym) (place : Sym → Nat) : Nat × Wk :=
  let (es, w) := sys.foldl (fun (x : List Byte × Wk) sy =>
    let (bs, w) := x.2.rowsOf (place sy) (packedLen sy.fmt sy.inner) (packedLen sy.fmt sy.inner) sy.rows false; (x.1 ++ bs, w)) ([], w)
  let (ss, w) := sys.foldl (fun (x : List Byte × Wk) sy =>
    let n := scaleBytes sy.fmt sy.inner false
    let (bs, w) := x.2.rowsOf (place sy + sy.scaleOff) n n (if n = 0 then 0 else sy.rows) false; (x.1 ++ bs, w)) ([], w)
  (crc64 (es ++ ss), w)

/-- The layer as the Cob sends it to the pods of a list, from the masters after step `s` (R254, R263). -/
def Dev.sendLayer (d : Dev) (w : Wk) (p : Plan) (s y : Nat) (pods : List Nat) : Wk :=
  (d.cob.layerBlks y).foldl (fun w i =>
    let sh := d.shOf p s i
    match p.sym sh.t.wSym with
    | some sy => let (ws, w) := w.master sh; w.multicast sh sy pods ws
    | none => w) w

/-- A digest step (R271). -/
def digestStep (n s : Nat) : Bool := n != 0 && (s + 1) % n == 0

/-- The multicast of a layer has arrived in a pod: its fence advances, on a digest step when the digest matches; the first
mismatch has the layer sent again, the second poisons the step. -/
def Dev.multicastIn (d : Dev) (pod y : Nat) (flips : List Nat) : Option Dev :=
  match d.cobRun with
  | none => none
  | some (h, r) =>
    let p := d.plan h
    let l := d.cob.layer y
    if 3 < pod || !l.done || l.skip || l.stuck || bit l.fenced pod || r.noUpdate || !p.layersUp.contains y then none
    else
      let open_ (d : Dev) : Dev :=
        { d with cob := d.cob.updLayer y (fun l => { l with fenced := l.fenced ||| 2 ^ pod }) }.openFence pod y (r.step + 1)
      if !digestStep (rsDigest (p.run.getD 0)) r.step then some (open_ d)
      else
        let sys := p.layerSyms y
        let sent := d.sendLayer (d.cobWork []) p r.step y [0]
        let want := (Wk.digest sent sys (fun sy => sy.at_ 0)).1
        let (got, w) := Wk.digest { d.cobWork flips with die := pod } sys (fun sy => sy.at_ pod)
        let ok := got == want && !w.bad
        let d := d.absorbUnit (podInst pod) 4 pod d.cobCmd w
        if ok then some (open_ (if bit l.resent pod then d.count cobInst 0x39 1 else d))
        else if bit l.resent pod then some (d.updRun h false (fun r => r.fail stParity (faultFields y 0 pod 0) 0))
        else
          let w2 := d.sendLayer (d.cobWork []) p r.step y [pod]
          some { d with mem := w2.mem, poison := w2.poison, ctr := bump d.ctr cobInst 0x38 1,
                        cob := d.cob.updLayer y (fun l => { l with resent := l.resent ||| 2 ^ pod }) }

/-- MULTICAST_ARRIVAL (R264, R271). -/
def execMulticastArrival (pod layer : Nat) (flips : List Nat) (s : State) : Res :=
  eventFlips s flips (s.dev.multicastIn pod layer flips)

/-! ## The send area and MOVE_COMPLETE (R146, R262, R487) -/

/-- Bytes of a pod's send symbols that are formed and that the pod has not sent yet (R244, R262). -/
def Dev.unsent (d : Dev) (pod : Nat) : List Area :=
  match d.cobRun with
  | none => []
  | some (h, r) =>
    let p := d.plan h
    (p.sendOrder.foldl (fun (x : List Area × Nat) t =>
      match p.sym t.gSym with
      | none => x
      | some sy =>
        let n := chunksOf sy
        let a := 65536 * min n (Tab.get 0 d.cob.sent pod - x.2)
        (if a < 65536 * n && d.gradFormed h r pod sy then x.1 ++ [(sy.at_ pod + a, sy.bytes - a)] else x.1, x.2 + n)) ([], 0)).1

/-- A training MOVE finds its pod's send area full: it would write bytes of the area that the pod has still to send (R262). The spec
does not say how the area fills: DESIGN CHOICE (log entry 41). -/
def Dev.sendFull (d : Dev) (n : Nat) (c : Ctx) (x : Nat) : Bool :=
  !c.live && (moveDest x).reaches [(d.plan c.plan).area (8 + n / 48)] && (moveDest x).reaches (d.unsent (n / 48))

/-- A MOVE ends: its bytes have left, and its arrival signal is due (R146, R487); one that writes a full send area waits (R262). -/
def Dev.moveDone (d : Dev) (n : Nat) (flips : List Nat) : Option Dev :=
  match d.running n 5 7 with
  | none => none
  | some (c, o) =>
    let x := o.desc
    if (touches x).any d.anyHeld || d.sendFull n c x then none
    else if d.moveUnbacked x then
      some ((d.failWork c stBadParam (workFault (dId x) (n / 48) 0 0 0 0 3)).updCore n (fun k =>
        { k with ctx := k.ctx.map (fun c => c.setOp 5 none) }))
    else
      let d := d.absorb n 0 2 x c ((d.work n flips).move x c.seed c.step)
      some ((d.updCore n (fun k => { k with ctx := k.ctx.map (fun c => { c with arrivals := c.arrivals ++ arriveOf x }) })).opDone n 5 o)

/-- MOVE_COMPLETE (R146, R487). -/
def execMoveComplete (core : Nat) (flips : List Nat) (s : State) : Res := eventFlips s flips (s.dev.moveDone core flips)

end Sys2Proof.Machine
end

