-- ==== Sys2Proof/Machine/WorkOps.lean ====
section
/-! DEFINITION. How a training step or a live task starts and ends in the pods: cluster allocation (R126, R127), preparation of
the pages it writes and private tables (R192 to R198), bases of the tile counters (R560). -/

namespace Sys2Proof.Machine

/-! ## Cluster allocation (R126, R127, R365) -/

/-- Active clusters of a pod that no open stream reserves, in increasing index (R126). -/
def Dev.trainClusters (d : Dev) (pod : Nat) : List Nat :=
  (List.range 12).filter (fun k => !bit d.plat.retired (12 * pod + k)
    && !d.cad.streams.any (fun e => e.2.opened && e.2.reservedNow && e.2.clusters.contains (12 * pod + k)))

/-- The reservations of the open streams take effect (R365). -/
def Cad.takeReservations (c : Cad) : Cad :=
  { c with streams := c.streams.map (fun e => (e.1, { e.2 with reservedNow := e.2.opened && bit e.2.record 7 })) }

/-- One more cluster for the branch with the largest share - n, the lowest on a tie; `cs` holds each branch's cost and clusters,
`a` the clusters, `total` the sum of the costs (R126). -/
def allocStep (a total : Nat) (cs : List (Nat × Nat)) : List (Nat × Nat) :=
  let gain (c : Nat × Nat) : Int := (a * c.1 : Int) - c.2 * total
  let best := (cs.zipIdx).foldl (fun (b : Option (Nat × Int)) x =>
    match b with
    | some (_, g) => if g < gain x.1 then some (x.2, gain x.1) else b
    | none => some (x.2, gain x.1)) none
  match best with
  | some (i, _) => setAt cs i (fun c => (c.1, c.2 + 1))
  | none => cs

/-- allocate of R126: clusters of each branch from its costs and MIN_CLUSTERS. -/
def allocate (a : Nat) (costs minc : List Nat) : List Nat :=
  let costs := if costs.sum = 0 then costs.map (fun _ => 1) else costs
  let spare := a - minc.sum
  ((List.range spare).foldl (fun cs _ => allocStep a costs.sum cs) (costs.zip minc)).map (·.2)

/-- Branches of a pod in increasing number. -/
def Plan.branchesOf (p : Plan) (pod : Nat) : List BranchDecl :=
  (List.range 8).filterMap (fun b => p.branches.find? (fun x => x.pod == pod && x.branch == b))

/-- Masks of the branches of a pod, and of its shared counters: clusters in increasing index to branches in increasing number. -/
def Dev.podMasks (d : Dev) (p : Plan) (pod : Nat) : List Nat × Nat :=
  let cl := d.trainClusters pod
  let bs := p.branchesOf pod
  let measured := bs.map (fun b => Tab.get 0 (d.pod pod).prevCost b.branch)
  let costs := if measured.sum = 0 then bs.map (·.cost) else measured
  let ns := allocate cl.length costs (bs.map (·.minc))
  let mask (l : List Nat) : Nat := (l.map (fun k => 2 ^ k)).sum
  ((ns.foldl (fun (x : List Nat × List Nat) n => (x.1 ++ [mask (x.2.take n)], x.2.drop n)) ([], cl)).1, mask cl)

/-- CLUSTER_MASK of every declared counter for a step, by 64p + n (R127). -/
def Dev.stepMasks (d : Dev) (p : Plan) : Tab Nat :=
  p.loops.foldl (fun m l =>
    let (bs, all) := d.podMasks p l.pod
    Tab.set 0 m (64 * l.pod + l.counter) (if l.branch = 0xFF then all else bs.getD l.branch 0)) []

/-! ## Sequence tables (R192 to R198) -/

/-- Tables that the work reads in a pod with the address of its private copy: from the slot records of its ATTENTION descriptors
(R192; log entry 18). -/
def Dev.tablesRead (d : Dev) (p : Plan) (pod base : Nat) : List (Nat × Nat) :=
  (((p.podDescs pod).filter (fun x => dOp x == 4)).flatMap (fun x =>
    (List.range (aBatch x)).map (fun b =>
      let pt := ((d.cobWork []).slot x b).1.pt
      ((Config.seqTable pod pt + base) % 4096, pt)))).eraseDups

/-- Bytes of one latent row of a table, from an ATTENTION descriptor of the pod that reads it, or else from the pod's first; a
free value where there is none. -/
def Dev.latentRow (d : Dev) (p : Plan) (pod table base : Nat) : Nat :=
  let xs := (p.podDescs pod).filter (fun x => dOp x == 4)
  let mine := xs.filter (fun x => (List.range (aBatch x)).any (fun b =>
    (Config.seqTable pod ((d.cobWork []).slot x b).1.pt + base) % 4096 == table))
  match mine ++ xs with
  | x :: _ => aDL x * aLatW x
  | [] => Config.freeNat d.plat.freeCount % 4096

/-- The device addresses of the rows that the work writes go into the tile records that the plan names (R195). -/
def Dev.rowAddrs (d : Dev) (p : Plan) (s : SeqWrite) (base first last : Nat) : Dev :=
  let t := s.table + base
  let x := d.pod s.pod
  let lr := d.latentRow p s.pod t base
  (List.range (last + 1 - first)).foldl (fun d i =>
      let pos := first + i
      d.storeNat (s.recBase + 8 * i) 8 (entFrame (x.ent t ((x.seq t).index (pos / 256))) + pos % 256 * lr)) d

/-- The whole copies of a preparation, in order; a parity error goes into the copy with its byte (R142, R195). -/
def Wk.copyAll (w : Wk) (cs : List (Nat × Nat × Nat)) : Wk :=
  cs.foldl (fun w c =>
    let (bs, w1) := Wk.read { w with bad := false } c.1 c.2.2
    let w2 := w1.write c.2.1 bs
    { w2 with bad := w.bad || w2.bad }) w

/-- What preparing the pages of a work has come to: the status that ends the work, 0 where it may go on. -/
abbrev Prepared := Dev × Nat

/-- Prepare the pages that a step or a task writes (R195): NO_MEMORY where an ALLOC fails, DATA_PARITY where a copied page had a
parity error (R143). -/
def Dev.prepare (d : Dev) (p : Plan) (key base frame : Nat) (cmd : Option Cmd) : Prepared :=
  p.seqWrites.foldl (fun (x : Prepared) s =>
    if x.2 = stNoMemory then x
    else
      let first := s.first + frame * s.stride
      let last := s.last + frame * s.stride
      let t := s.table + base
      let r := Prep.range { pod := x.1.pod s.pod } t first last
      let es := ((List.range (last / 256 + 1 - first / 256)).map (· + first / 256)).map (fun e =>
        (key, t, e, entFrame (r.pod.ent t ((r.pod.seq t).index e))))
      let d := x.1.updPod s.pod (fun _ => { r.pod with stepWrites := r.pod.stepWrites ++ es })
      let w := ({ mem := d.mem, poison := d.poison, free := d.plat.freeCount, die := s.pod } : Wk).copyAll r.copies
      let d := (d.absorbUnit (podInst s.pod) 4 s.pod cmd w).count (podInst s.pod) 0x22 r.copies.length
      if r.failed then (d, stNoMemory) else (d.rowAddrs p s base first last, if w.bad then stParity else x.2)) (d, 0)

/-- Pages of the stretches of other pods that pod `q` receives: table and logical page (R197). -/
def Dev.received (d : Dev) (p : Plan) (q : Nat) : List (Nat × Nat) :=
  ((p.seqWrites.filter (fun s => s.pod != q && p.stretched s.table && (q + 4 - s.pod) % 4 ≤ d.hops p s.pod s.table)).flatMap (fun s =>
    s.pages.map (fun e => (s.table, e)))).eraseDups

/-- A frame for each page that a pod receives: the pod, and whether an ALLOC failed (R198). -/
def Pod.takeFrames (x : Pod) (key : Nat) (ps : List (Nat × Nat)) : Pod × Bool :=
  ps.foldl (fun (r : Pod × Bool) te =>
    if r.2 then r
    else
      let pool := (r.1.seq te.1).pool
      match r.1.alloc pool with
      | none => (r.1, true)
      | some (a, y) =>
        let f : StepFrame := { pool := pool, frame := (a - (y.pool pool).base) / max (y.pool pool).frameBytes 1, key := key, table := te.1, lpage := te.2 }
        ({ y with stepFrames := y.stepFrames ++ [f] }, false)) (x, false)

/-- A private table: the entries of a sequence table, and PENDING entries for pages on their way (R192, R198). -/
def Dev.privWrite (d : Dev) (x : Pod) (key t pt : Nat) : Dev :=
  let s := x.seq t
  let d := (List.range s.entries).foldl (fun d i => d.storeNat (pt + 8 * i) 8 (Tab.get 0 s.ents i)) d
  (x.stepFrames.filter (fun f => f.key == key && f.table == t)).foldl (fun d f =>
    d.storeNat (pt + 8 * s.index f.lpage) 8 (mkEntry ((x.pool f.pool).addr f.frame) 1 f.lpage)) d

/-- A pod's reader opens and its private tables are copied; frames are taken for the pages to come, in a pod that only passes them on
too (R192, R193, R198). -/
def Dev.openPod (d : Dev) (p : Plan) (key base pod : Nat) : Prepared :=
  let reads := (p.podDescs pod).any (fun x => dOp x == 4)
  let ts := if reads then d.tablesRead p pod base else []
  let x := if reads then (d.pod pod).openReader key else d.pod pod
  let (x, failed) := x.takeFrames key (if p.live then [] else d.received p pod)
  let x := if reads then { x with priv := Tab.set [] x.priv key ts } else x
  (ts.foldl (fun d (t, pt) => d.privWrite x key t pt) (d.updPod pod (fun _ => x)), if failed then stNoMemory else 0)

/-- The sequence tables of a work are made ready in every pod. R195 has the pages prepared before the private tables are copied and
does not say whether the reader's EPOCH rises first: DESIGN CHOICE, the pages are prepared first, so a frame freed here carries the
FREE_EPOCH before this reader (log entry 39). -/
def Dev.openWork (d : Dev) (p : Plan) (key base frame : Nat) (cmd : Option Cmd) : Prepared :=
  let x := d.prepare p key base frame cmd
  if x.2 = stNoMemory then x
  else ([0, 1, 2, 3] : List Nat).foldl (fun (x : Prepared) pod =>
    if x.2 = stNoMemory then x
    else
      let y := x.1.openPod p key base pod
      (y.1, if y.2 = 0 then x.2 else y.2)) x

/-- A work ends: its reader epochs close and its pages on the ring go no further (R196, R198). -/
def Dev.closeWork (d : Dev) (key : Nat) : Dev :=
  { d with pods := d.pods.map (fun e => (e.1, { e.2.closeReader key with xfers := e.2.xfers.filter (fun x => x.key != key) })) }

/-- Base B of every tile counter, by 64p + n (R560). -/
def Dev.bases (d : Dev) : Tab Nat := (List.range 256).foldl (fun m k => Tab.set 0 m k (d.ctr_ (k / 64) (k % 64)).seq) []

/-- The counters that a failed work armed and that nothing has armed since: the claims of its cores have ended with their streams, so
RUNNING is 0, and STATE becomes IDLE; LOOP_SEQ stays (R111). -/
def Dev.idleCtrs (d : Dev) (bases armed : Tab Nat) : Dev :=
  armed.foldl (fun d e => d.updCtr (e.1 / 64) (e.1 % 64) (fun t =>
    if t.seq = (Tab.get 0 bases e.1 + e.2) % 65536 then { t with st := 0, claims := [], queue := [] } else t)) d

end Sys2Proof.Machine
end

