-- ==== Sys2Proof/Machine/Steps.lean ====
section
/-! DEFINITION. The meanings of RUN_STEP, WAITING_STEP_START, STEP_COMPLETE, STEP_ABORT and READ_TILE_COUNTER (R458 to R460 of
spec file 17; 04, 09, 10, 12). -/

namespace Sys2Proof.Machine

/-! ## Replies of a step (R459) -/

/-- Batch that a step consumes. -/
def Ing.batchOf (g : Ing) (k : Option Nat) : Option Batch := match k with | some k => g.batches.find? (fun b => b.num == k) | none => none

/-- PADDED_MASK of a step's batch. -/
def Dev.padded (d : Dev) (r : StepRun) : Nat := match d.ing.batchOf r.batch with | some b => b.padded | none => 0

/-- The extended entry of RUN_STEP (R459). -/
def Dev.stepEntry (d : Dev) (p : Plan) (r : StepRun) : Nat :=
  packBits [(16, d.padded r), (1, b2n r.gradNF), (12, r.skipped.length), (3, 0), (8, ofInt 8 (rsExp (p.run.getD 0))), (24, 0),
    (32, r.batch.getD 0xFFFFFFFF), (32, r.faultAt)]

/-- Status and detail of a completed step: what failed first, or else SAMPLE_REPLACED, or DONE (R143, R323, R459). -/
def Dev.stepStatus (d : Dev) (r : StepRun) : Nat × Nat :=
  if r.bad != 0 then (r.bad, 0)
  else if d.padded r != 0 then (stReplaced, d.padded r)
  else (stDone, b2n r.gradNF + 2 * r.skipped.length)

/-- Extended entries of the final reply. -/
def Dev.stepExt (d : Dev) (p : Plan) (r : StepRun) : List Nat :=
  d.stepEntry p r :: (if r.bad = stBadParam then [r.workFault] else [])

/-- The batch of a step that no longer reads it may be overwritten; one that has not been opened yet is free from the start (R312). -/
def Ing.freeBatch (g : Ing) (k : Option Nat) : Ing :=
  match k with
  | none => g
  | some k =>
    if g.batches.any (fun b => b.num == k) then
      { g with batches := g.batches.map (fun b => if b.num = k then { b with used := true, free := true } else b) }
    else { g with unread := g.unread ++ [k] }

/-! ## Start of a step (R107, R126, R192, R195, R235, R242, R365) -/

/-- Records of a group that are due at step `s`, in order of the step at which they take effect; of two for one step the later written
stands last (R242). -/
def Plan.dueGroups (p : Plan) (s : Nat) : List (Nat × Nat × Nat) :=
  (p.groupPend.filter (fun x => x.2.1 ≤ s)).foldl (fun l x => l.filter (fun y => y.2.1 ≤ x.2.1) ++ [x] ++ l.filter (fun y => x.2.1 < y.2.1)) []

/-- Group records in force at the start of step `s`, with their derived fields (R242). -/
def Plan.takeGroups (p : Plan) (s : Nat) : Plan :=
  let due := p.dueGroups s
  let p := { p with groups := due.foldl (fun (m : Tab Nat) (x : Nat × Nat × Nat) => Tab.set 0 m x.1 x.2.2) p.groups,
                    groupSet := (p.groupSet ++ due.map Prod.fst).eraseDups, groupPend := p.groupPend.filter (fun x => s < x.2.1) }
  { p with groups := p.groupSet.foldl (fun m n => Tab.upd 0 m n (fun g => deriveGroup g s)) p.groups }

/-- Record of a group in force at step `s`: a pending one that is due, or the present one. -/
def Plan.groupAt (p : Plan) (n s : Nat) : Nat :=
  match ((p.dueGroups s).filter (fun x => x.1 == n)).getLast? with | some x => x.2.2 | none => p.group n

/-- The Cob takes a step in hand. -/
def Dev.cobBegin (d : Dev) (h step : Nat) : Dev :=
  let d := d.updPlan h (fun p => p.takeGroups step)
  { d with cob := d.cob.begin_ h step }

/-- A batch with a poisoned sample poisons the step that consumes it (R294). -/
def Dev.poisonedBatch (d : Dev) (h : Nat) (second : Bool) : Dev :=
  match (d.plan h).run_ second with
  | some r =>
    match d.ing.batchOf r.batch with
    | some b => if b.ready && b.poisoned then d.updRun h second (fun r => r.fail stParity 0 0) else d
    | none => d
  | none => d

/-- Measured costs of the step that ends become those of the previous step (R126). -/
def Dev.rotateCosts (d : Dev) : Dev := { d with pods := d.pods.map (fun e => (e.1, { e.2 with prevCost := e.2.cost, cost := [] })) }

/-- Dumps of a step end with it (R532). -/
def Dev.endDumps (d : Dev) (sel : Dump → Bool) (status : Nat) : Dev :=
  let gone := d.obs.dumps.filter sel
  let d := { d with obs := { d.obs with dumps := d.obs.dumps.filter (fun x => !sel x) } }
  gone.foldl (fun d x => d.finish x.cmd status 0 []) d

/-- A group whose record in force at step `s` names a later first step (R243). -/
def Plan.tooEarly (p : Plan) (s : Nat) : Bool :=
  (p.groupSet ++ (p.dueGroups s).map Prod.fst).any (fun n => s < oT0 (p.groupAt n s))

/-- A step starts: reservations and costs are taken, sequence tables made ready, clusters allocated, counters given their masks,
streams started. A failed ALLOC ends it with NO_MEMORY (R195), and a waiting step that a group record has overtaken ends with BAD_PARAM
(R243). -/
def Dev.startStep (d : Dev) (h cmd step : Nat) (batch : Option Nat) (second : Bool) : Dev :=
  let p := d.plan h
  let early := p.tooEarly step
  let d := if early then d else { d with cad := d.cad.takeReservations }.rotateCosts
  let key := workKey false 0 step
  let (d, st) := if early then (d, stBadParam) else d.openWork p key 0 0 (d.host.cmd cmd)
  let masks := d.stepMasks p
  let train := ([0, 1, 2, 3] : List Nat).flatMap (fun q => (d.trainClusters q).map (12 * q + ·))
  let r : StepRun := { cmd := cmd, step := step, batch := batch, lsExp := rsExp (p.run.getD 0), bases := d.bases, masks := masks,
                       startedAt := d.plat.now, train := train }
  if st = stNoMemory ∨ st = stBadParam then
    let d := { d.closeWork key with ing := d.ing.freeBatch batch }.endDumps (fun x => x.plan == h && x.stream.isNone && x.step == step) stAborted
    d.finish cmd st (if early then 8 else 0) [d.stepEntry p r]
  else
    let r := if st = stParity then r.fail stParity 0 0 else r
    let d := d.updPlan h (fun p => if second then { p with overlap := some r, lastStep := some step }
      else { p with cur := some r, lastStep := some step })
    let d := if second then d else d.cobBegin h step
    let d := masks.foldl (fun d m => d.updCtr (m.1 / 64) (m.1 % 64) (fun t => if t.st = 1 ∨ t.st = 2 then t else { t with mask := m.2 })) d
    (d.poisonedBatch h second).startCores

/-! ## RUN_STEP (R458) -/

/-- The training ring, unless it is closing (R312). -/
def Ing.trainRing (g : Ing) : Option (Nat × Ring) := g.rings.find? (fun e => e.2.on && !e.2.live && e.2.closing == 0)

/-- The first shard whose tags are not both `s`, by layer, tensor and shard (R268). -/
def Dev.badTags (d : Dev) (s : Nat) : Option Blk :=
  ((List.range d.cob.blks.length).find? (fun i => hdMom (d.blkHeader i) != s || hdW (d.blkHeader i) != s)).map d.cob.blk

/-- Byte offset of the parameter that R458, R312 or R243 rejects. -/
def Dev.runStepParam (d : Dev) (plan step : Nat) : Option Nat :=
  let p := d.plan plan
  if !p.ready || p.live then some 0
  else if !p.valid then none
  else if p.batches && d.ing.trainRing.isNone then some 0
  else if p.run.isNone || !p.stateLoaded then some 0
  else if p.tooEarly step then some 8
  else match p.cur with
    | some r => if p.next.isNone && p.overlap.isNone && step != r.step + 1 then some 8 else none
    | none => none

/-- What check 7 of RUN_STEP finds. -/
def Dev.runStepOwn (d : Dev) (plan step : Nat) : Option (Nat × Nat × List Nat) :=
  let p := d.plan plan
  if !p.valid then some (stParity, 0, [])
  else if p.blocked != 0 then some (p.blocked, 0, [])
  else if p.next.isSome || p.overlap.isSome then some (stBusy, portDetail p.port, [])
  else if p.cur.isSome then none
  else match d.badTags step with
    | some b => some (stBadParam, 8, [packBits [(16, 0), (1, 0), (12, 0), (3, 0), (8, ofInt 8 (rsExp (p.run.getD 0))), (24, 0),
        (32, 0xFFFFFFFF), (32, faultFields b.layer b.tensor 0 b.shard)]])
    | none => none

/-- The batch that the next RUN_STEP consumes, and the ring's count after it (R312). -/
def Dev.takeBatch (d : Dev) (plan : Nat) : Dev × Option Nat :=
  if !(d.plan plan).batches then (d, none)
  else match d.ing.trainRing with
    | some (n, r) =>
      ({ d with ing := { d.ing with rings := Tab.upd {} d.ing.rings n (fun r => { r with steps := r.steps + 1 }) } }, some (d.ing.epoch + r.steps))
    | none => (d, none)

/-- RUN_STEP (R458, R459): the step starts, or waits behind the one in progress. -/
def execRunStep (q plan step : Nat) (s : State) : Res :=
  startCmd s q 0x0401 [4, 64] [plan, step]
    (fun d => { param := d.runStepParam plan step, own := d.runStepOwn plan step })
    (fun d c =>
      let (d, batch) := (d.accept c).takeBatch plan
      if (d.plan plan).cur.isSome then
        d.updPlan plan (fun p => { p with next := some { cmd := c.id, step := step, batch := batch } })
      else d.startStep plan c.id step batch false)

/-! ## WAITING_STEP_START (R458) -/

/-- A waiting step starts: step s has completed, or its last layer is reduced and end_of_step applied. -/
def Dev.startWaiting (d : Dev) (h : Nat) : Option Dev :=
  let p := d.plan h
  match p.next with
  | none => none
  | some n =>
    let d1 := d.updPlan h (fun p => { p with next := none })
    match p.cur with
    | none => some (d1.startStep h n.cmd n.step n.batch false)
    | some r =>
      if p.overlap.isSome || r.eos.isNone || r.bad != 0 || r.halting then none
      else some (d1.startStep h n.cmd n.step n.batch true)

/-- WAITING_STEP_START (R458). -/
def execWaitingStepStart (plan : Nat) (s : State) : Res := eventOpt s (s.dev.startWaiting plan)

/-! ## STEP_COMPLETE (R111, R238, R312, R458, R459, R532) -/

/-- The stream of a core belongs to the step in progress of plan `h`. -/
def Ctx.serves (c : Ctx) (h : Nat) : Bool := !c.live && c.plan == h && !c.second

/-- No core moves anything for the step any more (R460). -/
def Dev.stepStill (d : Dev) (h : Nat) : Bool :=
  d.cores.all (fun e =>
    (match e.2.ctx with | some c => !c.serves h || (!c.moving && e.2.run != 3 && e.2.run != 5) | none => true)
    && (match e.2.saved with | some c => !c.serves h || !c.moving | none => true))

/-- Every stream of the step has been started and has ended. -/
def Dev.streamsEnded (d : Dev) (h : Nat) (r : StepRun) : Bool :=
  ((d.plan h).streams.all (fun s => !r.train.contains (12 * s.pod + s.core / 4) || r.started.contains (48 * s.pod + s.core)))
  && d.cores.all (fun e => (match e.2.ctx with | some c => !c.serves h | none => true)
    && (match e.2.saved with | some c => !c.serves h | none => true))

/-- Every declared loop has been armed and is DONE (R116, R560). -/
def Dev.loopsDone (d : Dev) (h : Nat) (r : StepRun) : Bool :=
  (d.plan h).loops.all (fun l =>
    let k := 64 * l.pod + l.counter
    let n := ((d.plan h).loopsOn l.pod l.counter).length
    let w := (n + Tab.get 0 r.bases k) % 65536
    let t := d.ctr_ l.pod l.counter
    Tab.get 0 r.armed k == n && ((t.seq == w && t.st == 3) || after16 t.seq w))

/-- The Cob has nothing left to do for the step: every layer is updated and its fence open, or it is stuck, and every write-back has
arrived (R149). -/
def Dev.cobDone (d : Dev) (h : Nat) : Bool :=
  d.cob.blks.all (fun b => !b.writing) && (d.plan h).layersUp.all (fun y => let l := d.cob.layer y; l.stuck || (l.done && l.fenced == 15))

/-- No shard pass is under way. -/
def Cob.still (c : Cob) : Bool := c.units.all (fun e => e.2.isNone)

/-- The step can complete: everything done, or, once it fails, everything at rest. -/
def Dev.stepOver (d : Dev) (h : Nat) (r : StepRun) : Bool :=
  if r.halting then d.stepStill h && d.cob.still
  else d.streamsEnded h r && d.loopsDone h r && d.cobDone h && d.cob.still
    && d.pods.all (fun e => e.2.xfers.all (fun x => x.key != workKey false 0 r.step))

/-- The step's streams are dropped from the cores; what follows them starts. -/
def Dev.dropStreams (d : Dev) (h : Nat) : Dev :=
  { d with cores := d.cores.map (fun e =>
      let k := e.2
      let mine (c : Option Ctx) : Bool := match c with | some c => c.serves h | none => false
      let k := if mine k.saved then { k with saved := none } else k
      (e.1, if mine k.ctx then { k with ctx := none, run := if k.run = 1 then 0 else 4 } else k)) }

/-- e and CLEAN go back where end_of_step was applied to a step that is poisoned or completes ABORTED; a step whose shard alone is
quarantined, which goes on to its end, keeps them (R143, R238). A step that ends with BAD_PARAM is discarded as a poisoned one is (R109). -/
def Plan.restoreScale (p : Plan) (r : StepRun) : Plan :=
  if !r.halting && r.bad != stAborted then p
  else match r.eos with
  | some (e, c, _) => { p with run := p.run.map (fun x => setBits (setBits x 64 8 e) 112 16 c) }
  | none => p

/-- The step after one that fails: waiting, it completes with ABORTED; started, it stops as STEP_ABORT stops it (R458). -/
def Dev.abortNext (d : Dev) (h : Nat) : Dev :=
  let p := d.plan h
  let d := d.updPlan h (fun p => { p with next := none, overlap := p.overlap.map (fun r => r.fail stAborted 0 0) })
  match p.next with
  | some n => (d.endDumps (fun x => x.plan == h && x.stream.isNone && x.step == n.step) stAborted).finish n.cmd stAborted 0 [d.stepEntry p n] |> fun d => { d with ing := d.ing.freeBatch n.batch }
  | none => d

/-- A step that started ahead becomes the step in progress (R458). -/
def Dev.promote (d : Dev) (h : Nat) : Dev :=
  match (d.plan h).overlap with
  | none => { d with cob := { d.cob with active := false } }
  | some r =>
    let d := d.updPlan h (fun p => { p with cur := p.overlap, overlap := none })
    let fix (c : Ctx) : Ctx := if c.plan = h ∧ c.live = false then { c with second := false } else c
    let d := { d with cores := d.cores.map (fun (e : Nat × Core) => (e.1, { e.2 with ctx := e.2.ctx.map fix, saved := e.2.saved.map fix })) }
    d.cobBegin h r.step

/-- The STEP_ABORT commands that waited are done. -/
def Dev.endAborts (d : Dev) (h : Nat) : Dev :=
  let p := d.plan h
  if p.cur.isSome || p.next.isSome || p.overlap.isSome then d
  else p.aborts.foldl (fun d id => d.finish id stDone 0 []) (d.updPlan h (fun p => { p with aborts := [] }))

/-- A step completes: its reply, what a failure entails, and the next step's turn. -/
def Dev.endStep (d : Dev) (h : Nat) (r : StepRun) : Dev :=
  let bad := r.bad != 0
  let d := if bad then d.updPlan h (fun p => { (p.restoreScale r) with
      blocked := if r.bad = stParity ∨ r.bad = stAborted then r.bad else p.blocked }) else d
  let d := if bad then (d.dropStreams h).idleCtrs r.bases r.armed else d
  let (st, det) := d.stepStatus r
  let ext := d.stepExt (d.plan h) r
  let d := d.closeWork (workKey false 0 r.step)
  let d := if bad then d.endDumps (fun x => x.plan == h && x.stream.isNone && x.step == r.step) (if st = stParity then stParity else stAborted)
    else { d with obs := { d.obs with dumps := d.obs.dumps.map (fun x =>
      if x.plan == h && x.stream.isNone && x.step == r.step && !x.due then { x with due := true, dueAt := d.plat.now } else x) } }
  let d := { d with ing := d.ing.freeBatch r.batch,
                    pow := ([57, 58, 59, 60] : List Nat).foldl (fun w i => w.idle i d.plat.now) d.pow }
  let d := (d.updPlan h (fun p => { p with cur := none })).finish r.cmd st det ext
  let d := if bad then d.abortNext h else d
  ((d.promote h).endAborts h).startCores

/-- STEP_COMPLETE takes place. -/
def Dev.stepEnds (d : Dev) (h : Nat) : Option Dev :=
  match (d.plan h).cur with
  | some r => if d.stepOver h r then some (d.endStep h r) else none
  | none => none

/-- STEP_COMPLETE (R458, R459). -/
def execStepComplete (plan : Nat) (s : State) : Res := eventOpt s (s.dev.stepEnds plan)

/-! ## STEP_ABORT (R460) -/

/-- A plan that a command may name: loaded, and not made invalid by a parity error (R143). -/
def Dev.planRefusal (d : Dev) (h : Nat) : Option (Nat × Nat × List Nat) := if (d.plan h).valid then none else some (stParity, 0, [])

/-- The plan's steps stop: the running one at its stop points, a waiting one at once; the dumps of both end (R460, R532). -/
def Dev.abortSteps (d : Dev) (h : Nat) : Dev :=
  let p := d.plan h
  let d := (d.abortNext h).updPlan h (fun p => { p with cur := p.cur.map (fun r => r.fail stAborted 0 0) })
  if p.cur.isSome then d.endDumps (fun x => x.plan == h && x.stream.isNone) stAborted else d

/-- STEP_ABORT (R460). -/
def execStepAbort (q plan : Nat) (s : State) : Res :=
  startCmd s q 0x0402 [4] [plan]
    (fun d => { param := if (d.plan plan).ready then none else some 0, own := d.planRefusal plan })
    (fun d c => ((d.abortSteps plan).updPlan plan (fun p => { p with aborts := p.aborts ++ [c.id] })).endAborts plan)

/-! ## READ_TILE_COUNTER (R111) -/

/-- The 256-bit record of a tile counter (R111). -/
def TileCtr.record (t : TileCtr) : Nat :=
  packBits [(21, t.limit), (11, 0), (21, t.next), (11, 0), (16, t.seq), (2, t.st), (1, b2n t.reissue), (13, 0), (12, t.mask), (20, 0),
    (16, t.after), (16, 0), (21, t.accepted), (11, 0), (16, t.claims.length), (48, t.sbBase)]

/-- READ_TILE_COUNTER: DONE with the record of R111 in two extended entries. -/
def execReadTileCounter (q pod counter : Nat) (s : State) : Res :=
  startCmd s q 0x0A05 [2, 6] [pod, counter] (fun _ => {})
    (doneAt id (fun _ => 0) (fun d => let r := (d.ctr_ pod counter).record; [r % 2 ^ 128, r / 2 ^ 128]))

end Sys2Proof.Machine
end

