-- ==== Sys2Proof/Machine/Plans.lean ====
section
/-! DEFINITION. The meanings of PLAN_LOAD, PLAN_LOAD_DONE and PLAN_UNLOAD (R453 to R457 of spec file 17; R143, R257, R560). -/

namespace Sys2Proof.Machine

/-! ## PLAN_LOAD (R443, R453) -/

/-- A handle is taken by a loaded plan or by a load in progress. -/
def Dev.handleTaken (d : Dev) (h : Nat) : Bool := d.planUsed.contains h || (d.plan h).loadCmd != 0

/-- The lowest free handle. -/
def Dev.freeHandle (d : Dev) : Option Nat := firstIdx (fun h => !d.handleTaken h) 16

/-- A training plan that is loaded or being loaded. -/
def Dev.trainingPlan (d : Dev) : Option Plan := (d.plans.find? (fun e => !e.2.live && (e.2.ready || e.2.loadCmd != 0))).map (·.2)

/-- What check 7 of PLAN_LOAD finds: 16 plans, or a second training plan (R444, R453). -/
def Dev.loadRefusal (d : Dev) (src : Nat) : Option (Nat × Nat × List Nat) :=
  if d.freeHandle.isNone then some (stNoMemory, 0, [])
  else if bits (rdNat d.mem src 1) 0 4 = 0 then d.trainingPlan.map (fun p => (stBusy, portDetail p.port, []))
  else none

/-- PLAN_LOAD: its parameters are checked and it is accepted; its image is checked when its work ends (R443; log entry 22). -/
def execPlanLoad (q src len : Nat) (s : State) : Res :=
  let lay := [64, 32]
  let a := src % 2 ^ 48
  startCmd s q 0x0301 lay [src, len]
    (fun d => { param := firstBadField [((d.unbacked a len).isNone, fieldByte lay 0), (1 ≤ len, fieldByte lay 1)], own := d.loadRefusal a })
    (fun d c => (d.accept c).updPlan (d.freeHandle.getD 0) (fun _ =>
      { loadCmd := c.id, loadSrc := a, loadLen := len, port := q / 8, live := bits (rdNat d.mem a 1) 0 4 != 0 }))

/-! ## PLAN_LOAD_DONE -/

/-- Mover channels of the Cob that a plan with slow-tier state claims (R257). -/
def slowChannels : List Nat := (List.range 8).map (· + 0x98)

/-- The plan keeps state in host memory (R257). -/
def Plan.slowTier (p : Plan) : Bool := 0 < (p.area 6).2 || 0 < (p.area 7).2

/-- A channel that R257 claims has another owner. -/
def Dev.slowRefusal (d : Dev) (p : Plan) : Option (Nat × Nat × List Nat) :=
  if p.slowTier then
    (slowChannels.find? (fun id => d.host.own id != 0 && d.host.own id != 3)).map (fun id => (stBusy, ownDetail (d.host.own id) id, []))
  else none

/-- Counters that the plan declares become IDLE with LOOP_SEQ 0 (R560). -/
def Dev.freshCtrs (d : Dev) (p : Plan) : Dev :=
  p.loops.foldl (fun d l => d.updCtr l.pod l.counter (fun t => { t with seq := 0, st := 0 })) d

/-- The Cob with no parameter state. -/
def Dev.emptyCob (d : Dev) : Dev := { d with cob := { unitStop := d.cob.unitStop } }

/-- A plan that has passed its checks is set up under its handle: placements, counters, claims (R126, R257, R453, R560). -/
def Dev.setUpPlan (d : Dev) (h : Nat) (b : List Byte) (p : Plan) : Dev :=
  let d := (imgPlaces b).foldl (fun d x => d.store x.1 x.2) d
  let d := (d.updPlan h (fun _ => p)).freshCtrs p
  let d := { d with planUsed := d.planUsed ++ [h],
                    host := if p.slowTier then slowChannels.foldl (fun g id => g.setOwner id 3) d.host else d.host }
  if p.live then d
  else { d.emptyCob with pods := d.pods.map (fun e => (e.1, { e.2 with cost := [], prevCost := [] })) }

/-- The end of a load: DONE with the handle, or the failure, of which no part remains (R143, R453). -/
def Dev.loadEnds (d : Dev) (h : Nat) : Dev :=
  let l := d.plan h
  let b := rdBytes d.mem l.loadSrc l.loadLen
  let p := readPlan b l.port
  let d0 := d.updPlan h (fun _ => {})
  match firstBad d.poison l.loadSrc l.loadLen with
  | some x =>
    (d0.noteFault cobInst 12 4 0 (d.host.cmd l.loadCmd) x).finish l.loadCmd stParity 0 []
  | none =>
    match d.imageFault b with
    | some f => d0.finish l.loadCmd stBadParam 0 [faultEntry f]
    | none =>
      if !d.imageFits b then d0.finish l.loadCmd stNoMemory 0 []
      else match d.slowRefusal p with
        | some (st, det, ext) => d0.finish l.loadCmd st det ext
        | none => ((d0.setUpPlan h b p).raiseFloor d0.fFloor).finish l.loadCmd stDone h []

/-- PLAN_LOAD_DONE (R453). -/
def execPlanLoadDone (plan : Nat) (s : State) : Res := workEvent s ((s.dev.plan plan).loadCmd != 0) (s.dev.loadEnds plan)

/-! ## PLAN_UNLOAD (R143, R257, R453) -/

/-- What uses a plan: a step, an open stream, or a pending dump. -/
def Dev.planUser (d : Dev) (h : Nat) : Option (Nat × Nat × List Nat) :=
  let p := d.plan h
  if p.cur.isSome || p.next.isSome || p.overlap.isSome then some (stBusy, portDetail p.port, [])
  else match d.cad.streams.find? (fun e => e.2.opened && bits e.2.record 0 4 == h) with
    | some e => some (stBusy, portDetail e.2.port, [])
    | none => if d.obs.dumps.any (fun x => x.plan == h) then some (stBusy, portDetail p.port, []) else none

/-- Parameter-state work on a plan ends as the plan goes: ABORTED, or with what made the plan invalid (log entry 22). -/
def Dev.endState (d : Dev) (h status : Nat) : Dev := (d.plan h).stateCmds.foldl (fun d c => d.finish c.1 status 0 []) d

/-- The commands that use an invalid plan end with DATA_PARITY as it goes (R143). -/
def Dev.endUsers (d : Dev) (h : Nat) : Dev :=
  let d := match (d.plan h).cur with | some r => d.endStep h (r.fail stParity 0 0) | none => d
  let d := match (d.plan h).cur with | some r => d.endStep h (r.fail stAborted 0 0) | none => d
  (d.endDumps (fun x => x.plan == h) stParity).endState h stParity

/-- A plan goes: its areas, the claims of R257 and its handle are free. -/
def Dev.dropPlan (d : Dev) (h : Nat) : Dev :=
  let p := d.plan h
  let d := { d with planUsed := d.planUsed.filter (· != h),
                    host := if p.slowTier then slowChannels.foldl (fun g id => g.setOwner id 0) d.host else d.host }
  let d := d.updPlan h (fun _ => {})
  if p.live then d else d.emptyCob

/-- PLAN_UNLOAD (R453). -/
def execPlanUnload (q plan : Nat) (s : State) : Res :=
  startCmd s q 0x0302 [4] [plan]
    (fun d => { param := if (d.plan plan).ready then none else some 0, own := if (d.plan plan).valid then d.planUser plan else none })
    (doneAt (fun d => (if (d.plan plan).valid then d.endState plan stAborted else d.endUsers plan).dropPlan plan))

end Sys2Proof.Machine
end

