-- ==== Sys2Proof/Machine/LiveOps.lean ====
section
/-! DEFINITION. Live streams and their tasks (R325, R326, R363 to R379 of spec files 12 and 14; R461 of 17): the fields of a
stream record, latency terms and the cause of a miss, replies, and what a task does to the cores of its cluster set. -/

namespace Sys2Proof.Machine

/-! ## The stream record (R461) -/

def srPlan (r : Nat) : Nat := bits r 0 4
def srEngine (r : Nat) : Nat := bits r 4 3
def srReserve (r : Nat) : Bool := bit r 7
def srContext (r : Nat) : Nat := bits r 8 6
def srRing (r : Nat) : Nat := bits r 14 4
def srDrop (r : Nat) : Bool := bit r 18
def srMaxRois (r : Nat) : Nat := bits r 19 4
def srAug (r : Nat) : Nat := bits r 24 4
def srClusters (r : Nat) : Nat := bits r 28 4
def srBpf (r : Nat) : Nat := bits r 32 8
def srDpb (r : Nat) : Nat := bits r 40 8
def srQueue (r : Nat) : Nat := bits r 48 3
def srBeat0 (r : Nat) : Nat := bits r 64 48
def srPhase (r : Nat) : Nat := bits r 112 24
def srDeadline (r : Nat) : Nat := bits r 144 20
def srTin (r : Nat) : Nat := bits r 164 20
def srFLive (r : Nat) : Nat := bits r 184 11
def srW (r : Nat) : Nat := bits r 208 16
def srH (r : Nat) : Nat := bits r 224 16
def srCodec (r : Nat) : Nat := bits r 240 8
def srChroma (r : Nat) : Nat := bits r 248 2
def srOvW (r : Nat) : Nat := bits r 272 16
def srOvH (r : Nat) : Nat := bits r 288 16
def srRw (r : Nat) : Nat := bits r 304 16
def srRh (r : Nat) : Nat := bits r 320 16
def srRois (r : Nat) : Nat := bits r 336 48
def srSeed (r : Nat) : Nat := bits r 384 64
def srInput (r : Nat) : Nat := bits r 448 48
def srStride (r : Nat) : Nat := bits r 512 32
def srRoiBase (r : Nat) : Nat := bits r 544 48
def srSeqBase (r : Nat) : Nat := bits r 592 12

/-! ## Latency terms (R284, R285, R328, R363, R370) -/

/-- RATE_PIX and RATE_BITS of a codec in units per second, by its chroma format (R284). -/
def decodeRates (codec chroma : Nat) : Nat × Nat :=
  if codec = 0x10 then (1200000000, 2000000000)
  else if codec = 0x11 ∧ chroma = 2 then (600000000, 1600000000)
  else if codec = 0x12 ∧ chroma = 2 then (800000000, 1600000000)
  else (1200000000, 1600000000)

/-- D of a picture of `l` luma samples and `b` coded bits, in ns (R285). -/
def decodeBound (codec chroma l b : Nat) : Nat :=
  let (rp, rb) := decodeRates codec chroma
  max (ceilDiv (l * 10 ^ 9) rp) (ceilDiv (b * 10 ^ 9) rb) + 50000

/-- T_shape of a stream's live input, in ns (R328). -/
def shapeTime (r : Nat) : Nat := 10000 + ceilDiv (3 * srOvW r * srOvH r + 3 * srMaxRois r * srRw r * srRh r) 8

/-- Frame beat of frame `k` (R364). -/
def frameBeat (r k : Nat) : Nat := srBeat0 r + k * srBpf r

/-- Device time of the reference instant of frame `k` (R364). -/
def Cad.refInstant (c : Cad) (r k : Nat) : Nat := (c.instantOf (frameBeat r k) 0).getD 0

/-- Device time of the deadline of frame `k` (R373). -/
def Cad.frameDeadline (c : Cad) (r k : Nat) : Nat := c.refInstant r k + 1000 * srDeadline r

/-! ## Cluster sets and order (R365, R367, R195) -/

/-- Cores of a cluster set. -/
def setCores (set : List Nat) : List Nat := (List.range 192).filter (fun n => set.contains (12 * (n / 48) + n % 48 / 4))

/-- Tasks of two streams may not run together: their sets overlap, or they share a LIVE plan that has write ranges. -/
def Dev.excludes (d : Dev) (a b : Stream) : Bool :=
  a.clusters.any b.clusters.contains || (srPlan a.record == srPlan b.record && (d.plan (srPlan a.record)).seqWrites != [])

/-- The live input of a frame. -/
def Stream.input (s : Stream) (k : Nat) : Option LiveInput := s.inputs.find? (fun i => i.frame == k)

/-- Status that decides a frame's task for want of an input (R329). -/
def Stream.badInput (s : Stream) (k : Nat) : Option Nat := (s.badInputs.find? (fun i => i.1 == k)).map (·.2)

/-- The waiting task is able to start: released, its input ready (R364). -/
def Stream.able (s : Stream) : Option Task :=
  match s.waiting with | some t => if t.readyAt.isSome ∧ (s.badInput t.frame).isNone then some t else none | none => none

/-- A task becomes able to start; tasks of other streams that hold its set run ahead of it (R377). -/
def Dev.markReady (d : Dev) (n : Nat) : Dev :=
  let s := d.cad.stream n
  match s.waiting with
  | none => d
  | some t =>
    if t.readyAt.isSome ∨ (s.input t.frame).isNone then d
    else
      let ahead := d.cad.streams.any (fun e => e.1 != n && e.2.opened && e.2.running.isSome && d.excludes s e.2)
      { d with cad := d.cad.updStream n (fun s => { s with waiting := some { t with readyAt := some d.plat.now, queued := ahead } }) }

/-- The waiting task of stream `n` starts next on its set (R364, R367). -/
def Dev.mayStart (d : Dev) (n : Nat) : Bool :=
  let s := d.cad.stream n
  match s.able with
  | none => false
  | some t =>
    s.opened && s.running.isNone && d.cad.streams.all (fun e =>
      e.1 == n || !e.2.opened || !d.excludes s e.2
        || (e.2.running.isNone && (match e.2.able with
          | some u => t.readyAt.getD 0 < u.readyAt.getD 0 || (t.readyAt == u.readyAt && n < e.1)
          | none => true)))

/-! ## Replies and misses (R375 to R379) -/

/-- The reply of frame `k`'s task, on FRAME_QUEUE of the stream's port (R461). -/
def Dev.taskReply (d : Dev) (n k status detail : Nat) (ext : List Nat) : Dev :=
  let s := d.cad.stream n
  (d.trace 10 4 n (k % 2 ^ 32) status 0).sendReply
    { rq := 8 * s.port + srQueue s.record, tag := k % 2 ^ 32, status := status, detail := detail, ext := ext, beat := d.cad.beat,
      phase := d.cad.phaseAt d.plat.now }

/-- Spill bytes that stream contexts and the working planes of still images take (R274, R281). -/
def Ing.spillUsed (g : Ing) : Nat :=
  ((g.ctxs.filter (fun e => e.2.inUse)).map (fun e => e.2.bytes)).sum + ((g.jobs.filter (fun j => j.engine.isSome)).map (·.spill)).sum

/-- D of a live job's picture, not yet decoded: of the size that its stream declares (R285; log entry 47). -/
def Dev.declaredBound (d : Dev) (j : Job) : Nat :=
  match d.cad.streams.find? (fun e => e.2.opened && srRing e.2.record == j.ring && srContext e.2.record == bits j.record 8 6) with
  | some e => let r := e.2.record; decodeBound (srCodec r) (srChroma r) (srW r * srH r) (8 * bits j.record 128 32)
  | none => 0

/-- Arrival of a frame's last flit and D_dec, from its live input or from its job on the way: the doorbell that hands the
job over stands for the arrival (log entry 23). -/
def Dev.inputTerms (d : Dev) (s : Stream) (k : Nat) : Option (Nat × Nat × Nat) :=
  match s.input k with
  | some i => some (i.arrival, i.allow, i.ready)
  | none =>
    let r := s.record
    (d.ing.jobs.find? (fun j => bit j.record 15 && j.ring == srRing r && bits j.record 8 6 == srContext r && bits j.record 160 48 == k)).map
      (fun j => (j.arrived, j.bound + ((d.ing.jobs.filter (fun k => j.ahead.contains k.id)).map d.declaredBound).sum + d.declaredBound j + shapeTime r,
        d.plat.now))

/-- CAUSE of a miss (R377). -/
def Dev.missCause (d : Dev) (s : Stream) (t : Task) : Nat :=
  let r := s.record
  let ref := d.cad.refInstant r t.frame
  let tin := ref + 1000 * srTin r
  let late := match d.inputTerms s t.frame with
    | none => if tin < d.plat.now then 1 else 0
    | some (a, allow, ready) => if tin < a then 1 else if a + allow < ready then 2 else 0
  let slice := if s.reservedNow then 0 else 1000 * d.cad.quantum + 8000
  if late != 0 then late
  else if t.queued then 3
  else if (match t.startedAt with | some a => decide (a + slice < t.runAt.getD d.plat.now) | none => false) then 4
  else if t.slow then 5
  else 6

/-- A live deadline miss: LIVE_MISS, MISS_TOTAL, its record, and the LIVE_MISS_N pulse (R376, R379, R542). -/
def Dev.liveMiss (d : Dev) (n k cause : Nat) (effect : Bool) : Dev :=
  let s := d.cad.stream n
  let ready := match s.input k with | some i => i.ready | none => 0
  let c := d.cad.miss n cause effect (frameBeat s.record k) (d.cad.frameDeadline s.record k) ready d.plat.now
  { d with cad := { c with lastMiss := some d.plat.now }, ctr := bump d.ctr cobInst 0x57 1 }

/-- A task ends with DEADLINE_MISSED. -/
def Dev.missReply (d : Dev) (n k cause : Nat) (effect : Bool) : Dev :=
  let late := d.plat.now - d.cad.frameDeadline (d.cad.stream n).record k
  (d.liveMiss n k cause effect).taskReply n k stDeadline (missDetail cause effect late) []

/-- The stream's inputs up to a frame are spent. -/
def Stream.spend (s : Stream) (k : Nat) : Stream :=
  { s with inputs := s.inputs.filter (fun i => k < i.frame), badInputs := s.badInputs.filter (fun i => k < i.1) }

/-- A waiting task leaves its stream. -/
def Dev.dropWaiting (d : Dev) (n k : Nat) : Dev := { d with cad := d.cad.updStream n (fun s => { s.spend k with waiting := none }) }

/-- Dumps of a frame come due at its completion, or end with it (R531, R532). -/
def Dev.frameDumps (d : Dev) (n k : Nat) (bad : Nat) : Dev :=
  let mine (x : Dump) : Bool := x.stream == some n && !x.due && x.step == k
  if bad = 0 then { d with obs := { d.obs with dumps := d.obs.dumps.map (fun x => if mine x then { x with due := true, dueAt := d.plat.now } else x) } }
  else d.endDumps mine (if bad = stParity then stParity else stAborted)

/-! ## Release (R361, R364, R367) -/

/-- A waiting task leaves without running: with the status that its input decides (R329, R378), or dropped with cause SKIPPED. -/
def Dev.skipTask (d : Dev) (n : Nat) (t : Task) : Dev :=
  match (d.cad.stream n).badInput t.frame with
  | some st => ((d.taskReply n t.frame st 0 []).frameDumps n t.frame st).dropWaiting n t.frame
  | none => (((d.count cobInst 0x56 1).missReply n t.frame 7 false).frameDumps n t.frame stAborted).dropWaiting n t.frame

/-- Frame `k` of stream `n` is released; a task that still waits makes way. -/
def Dev.releaseTask (d : Dev) (n k : Nat) : Dev :=
  let s := d.cad.stream n
  if !s.opened || s.closing.isSome then d
  else
    let d := match s.waiting with
      | some t => d.skipTask n t
      | none => d
    { d with cad := d.cad.updStream n (fun s => { s with waiting := some { frame := k, releasedAt := d.plat.now }, nextFrame := k + 1 }) }.trace 8 4 n (k % 2 ^ 32) 0 0 |>.markReady n

/-! ## Cores of the set (R366) -/

/-- A core of the set is asked to stop: training goes to its next stop point, an idle core is free at once, and a restore that has
not ended is given up. -/
def Dev.preempt (d : Dev) (n : Nat) : Dev :=
  let k := d.core n
  if k.run = 1 then (d.updCore n (fun k => { k with run := 2, stopAt := d.plat.now, overrun := false })).after n
  else if k.run = 0 ∨ k.run = 5 then d.updCore n (fun k => { k with run := 4 })
  else d

/-- Every core of a set is idle or saved. -/
def Dev.setFree (d : Dev) (set : List Nat) : Bool := (setCores set).all (fun n => (d.core n).run == 4 && (d.core n).ctx.isNone)

/-- A descriptor names a symbol as its output, or its static destination meets the symbol's storage. -/
def writesSym (x : Nat) (sy : Sym) : Bool :=
  ((dOp x == 1 || dOp x == 3 || dOp x == 5) && mOutSym x == sy.num) || (dOp x == 4 && (aSym x == sy.num || aSym2 x == sy.num))
    || (descDests x).any (fun a => a.reaches sy.areas)

/-- The plan writes a symbol. -/
def Plan.writes (p : Plan) (n : Nat) : Bool :=
  match p.sym n with | some sy => ([0, 1, 2, 3] : List Nat).any (fun q => (p.podDescs q).any (fun x => writesSym x sy)) | none => false

/-- A dump that has not read before the stream's next task writes its symbol moves on to the following frame; the sixteenth move
ends it (R531). -/
def Dev.retryDumps (d : Dev) (n : Nat) : Dev :=
  let hit (x : Dump) : Bool := x.stream == some n && x.due && (d.plan x.plan).writes x.sym
  let moved := d.obs.dumps.map (fun x => if hit x then { x with due := false, step := x.step + 1, moves := x.moves + 1 } else x)
  let d := { d with ctr := bump d.ctr cobInst 0x7A (d.obs.dumps.filter hit).length, obs := { d.obs with dumps := moved.filter (fun x => x.moves < 16) } }
  (moved.filter (fun x => 16 ≤ x.moves)).foldl (fun d x => d.finish x.cmd stAborted 16 []) d

/-- The task of stream `n` runs: its plan's streams start on the cores of its set (R107, R220, R366). -/
def Dev.launch (d : Dev) (n : Nat) : Dev :=
  let s := d.cad.stream n
  match s.running with
  | none => d
  | some t =>
    if t.startedAt.isNone || t.runAt.isSome || t.bad != 0 || t.dropped || !d.setFree s.clusters then d
    else
      let h := srPlan s.record
      let start (d : Dev) (x : StreamDecl) : Dev :=
        let m := 48 * x.pod + x.core
        let c : Ctx := { plan := h, live := true, stream := n, step := frameBeat s.record t.frame, seed := srSeed s.record, off := x.off }
        if s.clusters.contains (12 * x.pod + x.core / 4) then d.updCore m (fun k => { k with ctx := some c }) else d
      ((d.plan h).streams.foldl start (d.updTask n (fun t => { t with runAt := some d.plat.now }))).retryDumps n

/-- Every started task whose set has come free runs. -/
def Dev.launchAll (d : Dev) : Dev := (List.range 16).foldl Dev.launch d

/-- A started task waits for its set, and the set is free. -/
def Dev.canLaunch (d : Dev) : Bool :=
  d.cad.streams.any (fun e => match e.2.running with
    | some t => t.startedAt.isSome && t.runAt.isNone && t.bad == 0 && !t.dropped && d.setFree e.2.clusters
    | none => false)

/-- A live task needs a cluster: one runs on it, or one that is able to start waits for it. -/
def Dev.wantsCluster (d : Dev) (k : Nat) : Bool :=
  d.cad.streams.any (fun e => e.2.opened && e.2.clusters.contains k && (e.2.running.isSome || e.2.able.isSome))

/-- Cores that no live task waits for restore what they saved, or take up training again (R366). -/
def Dev.giveBack (d : Dev) (set : List Nat) : Dev :=
  (setCores set).foldl (fun d n =>
    let k := d.core n
    if k.run != 4 || d.wantsCluster (12 * (n / 48) + n % 48 / 4) then d
    else if k.saved.isSome then d.updCore n (fun k => { k with run := 5, since := d.plat.now })
    else (d.updCore n (fun k => { k with run := 0 })).startCore n) d

end Sys2Proof.Machine
end

