-- ==== Sys2Proof/Machine/Window.lean ====
section
/-! DEFINITION. What a read of the control window returns, offset by offset (spec file 16, R415; 14, R358; 15, R405;
18, R468; 20, R518). -/

namespace Sys2Proof.Machine

/-- The register block of a queue (R419); Q_RESET reads 0. -/
def Queue.block (k : Queue) (inProgress : Nat) : Nat :=
  packBits [(48, k.cqBase), (16, 0), (5, k.cqLog2), (1, b2n k.enable), (2, k.prio), (1, b2n k.irqEn), (7, 0), (16, k.holdoff),
            (32, k.cqTail), (32, k.cqHead), (48, k.rqBase), (16, 0), (5, k.rqLog2), (27, 0), (32, k.rqTail), (32, k.rqHead),
            (48, k.shadow), (16, 0), (2, k.qstate), (4, k.err), (26, 0), (16, inProgress)]

/-- IN_PROGRESS of queue `q`: commands fetched that have no final reply (R419). -/
def HostIf.inProgressN (h : HostIf) (q : Nat) : Nat :=
  (h.queue q).fetched.length + (h.inProg.filter (fun c => c.queue == q)).length

/-- The link registers of a port (R420). -/
def Port.block (p : Port) : Nat :=
  packBits [(1, b2n p.up), (2, p.width), (2, p.rate), (1, b2n p.irqEn), (26, 0), (32, p.downs), (32, p.fecCorr), (32, p.fecUncorr), (32, p.winErr)]

/-- The register block of a mover channel (R468). -/
def Chan.block (c : Chan) : Nat :=
  packBits [(48, c.base), (16, 0), (5, c.log2), (2, c.prio), (1, b2n c.irqEn), (24, 0), (32, c.tail), (32, c.head), (32, c.doneIdx),
            (3, c.st), (4, c.err), (25, 0), (32, c.row), (32, c.off), (48, c.faultAddr), (16, 0), (64, c.bytes)]

/-- What SEM_ACQUIRE returns once the owner is `o`, to a reader that held it before or not (R434). -/
def semWord (port o : Nat) (already : Bool) : Nat :=
  packBits [(1, b2n (o == port + 1)), (2, o), (1, b2n already)]

/-- CAD_STATUS (R359). -/
def Dev.cadStatus (d : Dev) : Nat :=
  let c := d.cad
  let two := 2 * bits c.cfg 0 32 / max (bits c.cfg 32 16) 1
  let near (t : Option Nat) : Bool := match t with | some x => decide (d.plat.now ≤ x + two) | none => false
  packBits [(2, bits c.cfg 51 2), (2, c.mode), (1, b2n c.expired), (1, b2n (near c.refSeen || near c.lastSync)),
            (9, (c.slots.filter (fun e => e.2.isSome)).length),
            (8, ((List.range 8).map (fun n => if d.host.own (0x10 + n) = 0 then 0 else 2 ^ n)).sum), (9, 0), (32, c.lockedBeats)]

/-- A 64-bit word of the cadence block, for a read of `size` bytes: a 64-bit read takes what a read of BEAT_NOW has latched (R358). -/
def Dev.cadWord (d : Dev) (port off size : Nat) : Nat :=
  let c := d.cad
  let p := d.host.port port
  match off with
  | 0x00 => d.plat.now
  | 0x08 => c.beat
  | 0x10 => if size = 8 then p.phaseLatch.getD (c.phaseAt d.plat.now) else c.phaseAt d.plat.now
  | 0x18 => if size = 8 then p.startLatch.getD c.start else c.start
  | 0x20 => d.cadStatus
  | 0x28 => c.cfg
  | 0x30 => c.pEst
  | 0x38 => c.lock
  | 0x40 => c.sched
  | 0x48 => c.missTotal
  | 0x50 => ofInt 32 c.refError
  | o => if 0x200 ≤ o && o < 0x400 then bits (Tab.get 0 c.missLog ((o - 0x200) / 32)) (8 * ((o - 0x200) % 32)) 64 else 0

/-- A 64-bit word of the counter area (R518). -/
def Dev.ctrWord (d : Dev) (o : Nat) : Nat :=
  if o < 0x800 then counterValue d.ctr (o / 8)
  else if o < 0x1000 then ctrVal d.ctr cobInst ((o - 0x800) / 8)
  else if o < 0x3000 then ctrVal d.ctr (podInst ((o - 0x1000) / 0x800)) (o % 0x800 / 8)
  else if o < 0x10000 then 0
  else if o < 0x70000 then ctrVal d.ctr (coreInst ((o - 0x10000) / 0x800)) (o % 0x800 / 8)
  else if o < 0x7C000 then ctrVal d.ctr (engInst ((o - 0x70000) / 0x40)) (o % 0x40 / 8 + 1)
  else 0

/-- The aligned 64-bit word at an offset of the control window, as a port's read of `size` bytes finds it (R415); unlisted offsets read 0. -/
def Dev.windowWord (d : Dev) (port off size : Nat) : Nat :=
  let h := d.host
  if off < 0x20 then bits (d.plat.identity port) (8 * off) 64
  else if off < 0x1000 then 0
  else if off < 0x1800 then
    let q := (off - 0x1000) / 0x100
    bits ((h.queue q).block (h.inProgressN q)) (8 * (off % 0x100)) 64
  else if off < 0x1820 then bits (h.port 0).block (8 * (off - 0x1800)) 64
  else if off < 0x2000 then 0
  else if off < 0x2800 then
    let q := 8 + (off - 0x2000) / 0x100
    bits ((h.queue q).block (h.inProgressN q)) (8 * (off % 0x100)) 64
  else if off < 0x2820 then bits (h.port 1).block (8 * (off - 0x2800)) 64
  else if off < 0x3000 then 0
  else if off < 0x3200 then
    let o := Tab.get 0 h.sems ((off - 0x3000) / 8)
    semWord port (if o = 0 then port + 1 else o) (o == port + 1)
  else if off < 0x3400 then 2 * Tab.get 0 h.sems ((off - 0x3200) / 8)
  else if off < 0x3800 then h.own ((off - 0x3400) / 4) + 2 ^ 32 * h.own ((off - 0x3400) / 4 + 1)
  else if off < 0x4000 then 0
  else if off < 0x5000 then d.cadWord port (off - 0x4000) size
  else if off < 0x5020 then bits d.plat.faultSummary (8 * (off - 0x5000)) 64
  else if off < 0x6000 then 0
  else if off < 0x7000 then Tab.get 0 d.pow.mirror (off - 0x6000)
  else if off < 0x10000 then 0
  else if off < 0x16000 then bits (Tab.get {} d.mov.chans ((off - 0x10000) / 0x100)).block (8 * (off % 0x100)) 64
  else if off < 0x40000 then 0
  else d.ctrWord (off - 0x40000)

/-- An access of the control window that R416 allows: an aligned 4- or 8-byte unit within the window. -/
def windowAligned (off size : Nat) : Bool := (size == 4 || size == 8) && off % size == 0 && off + size ≤ 0x100000

/-- What a read returns: all ones where R416 refuses it. -/
def Dev.windowRead (d : Dev) (port off size : Nat) : Nat :=
  if windowAligned off size then bits (d.windowWord port (off / 8 * 8) size) (8 * (off % 8)) (8 * size)
  else 2 ^ (8 * size) - 1

/-- The port after such a read: a 64-bit read of PHASE_NOW or BEAT_START releases what a read of BEAT_NOW latched for it (R358). -/
def Port.readDone (p : Port) (off size : Nat) : Port :=
  if size != 8 then p
  else if off = 0x4010 then { p with phaseLatch := none }
  else if off = 0x4018 then { p with startLatch := none }
  else p

end Sys2Proof.Machine
end

