-- ==== Sys2Proof/Machine/Ports.lean ====
section
/-! DEFINITION. The meanings of register writes, doorbells, queue control, packet fetch, semaphores and link events
(spec file 16). -/

namespace Sys2Proof.Machine

/-- An event of a port: it takes place while the port exists and its link is up (R416). -/
def Dev.linked (d : Dev) (port : Nat) : Bool := port < 2 && (d.host.port port).up

/-- An access that R416 or R469 refuses adds one to WINDOW_ERROR. -/
def HostIf.winError (h : HostIf) (port : Nat) : HostIf := h.updPort port (fun p => { p with winErr := (p.winErr + 1) % 2 ^ 32 })

/-! ## Register writes (R15, R417, R419, R420, R468) -/

/-- A queue block after a write of its fields that have no row of their own; a reserved value leaves its field (R15). ENABLE
written 0 stops the fetching; ENABLE written 1, CQ_TAIL and Q_RESET have rows of their own. -/
def Queue.write (k : Queue) (lo w v : Nat) : Queue :=
  let x := setBits (k.block 0) lo w v
  let dis := k.qstate == 0
  let cqb := bits x 0 48
  let cql := bits x 64 5
  let rqb := bits x 160 48
  let rql := bits x 224 5
  let sh := bits x 320 48
  { k with cqBase := if dis && cqb % 64 == 0 then cqb else k.cqBase,
           cqLog2 := if dis && 4 ≤ cql && cql ≤ 16 then cql else k.cqLog2,
           enable := k.enable && bit x 69,
           prio := bits x 70 2, irqEn := bit x 72, holdoff := bits x 80 16,
           rqBase := if dis && rqb % 64 == 0 then rqb else k.rqBase,
           rqLog2 := if dis && 8 ≤ rql && rql ≤ 16 then rql else k.rqLog2,
           rqHead := bits x 288 32,
           shadow := if dis && sh % 4 == 0 then sh else k.shadow }

/-- A channel block after a write of RING_BASE, RING_LOG2, PRIORITY and IRQ_EN (R468, R469). -/
def Chan.write (c : Chan) (lo w v : Nat) : Chan :=
  let x := setBits c.block lo w v
  let dis := c.st == 0
  let b := bits x 0 48
  let l := bits x 64 5
  { c with base := if dis && b % 64 == 0 then b else c.base,
           log2 := if dis && 4 ≤ l && l ≤ 16 then l else c.log2,
           prio := bits x 69 2, irqEn := bit x 71 }

/-- The port whose queue and link registers lie at an offset. -/
def windowPort (off : Nat) : Option Nat :=
  if 0x1000 ≤ off && off < 0x1820 then some 0 else if 0x2000 ≤ off && off < 0x2820 then some 1 else none

/-- A write is refused under R416 or R469: misaligned, to another port's registers, or to a channel the port does not own. -/
def Dev.writeRefused (d : Dev) (port off size : Nat) : Bool :=
  !windowAligned off size
    || (match windowPort off with | some p => p != port | none => false)
    || (0x10000 ≤ off && off < 0x16000 && d.host.own (0x40 + (off - 0x10000) / 0x100) != port + 1)

/-- A write to the control window takes effect on the fields that have no row of their own (R417). -/
def Dev.windowWrite (d : Dev) (port off size value : Nat) : Dev :=
  if d.writeRefused port off size then { d with host := d.host.winError port }
  else if 0x10000 ≤ off && off < 0x16000 then
    let f (c : Chan) : Chan := c.write (8 * (off % 0x100)) (8 * size) value
    { d with mov := { d.mov with chans := Tab.upd {} d.mov.chans ((off - 0x10000) / 0x100) f } }
  else
    match windowPort off with
    | none => d
    | some p =>
      let o := off - 0x1000 * (p + 1)
      if o < 0x800 then
        { d with host := d.host.updQueue (8 * p + o / 0x100) (fun k => k.write (8 * (o % 0x100)) (8 * size) value) }.flush.settled
      else if o = 0x800 then { d with host := d.host.updPort p (fun x => { x with irqEn := bit value 5 }) }
      else d

/-- REGISTER_WRITE (R417). -/
def execRegisterWrite (port offset size value : Nat) (s : State) : Res :=
  let d := s.dev
  if d.linked port then nextDev s (d.windowWrite port offset size value) else .next s

/-- MISALIGNED_WINDOW_ACCESS: a refused write is ignored, a refused read returns all ones, and WINDOW_ERROR adds one (R416). -/
def execMisalignedWindowAccess (port : Nat) (write : Bool) (offset size : Nat) (s : State) : Res :=
  let d := s.dev
  let h := d.host.winError port
  let bad := if write then d.writeRefused port offset size else !windowAligned offset size
  if d.linked port && bad then
    nextDev s { d with host := if write then h else h.updPort port (fun p => { p with lastRead := 2 ^ (8 * size) - 1 }) }
  else .next s

/-! ## Queues (R419 to R425) -/

/-- A queue enters ERROR with a code; a draining queue does not, and a queue in ERROR keeps its code (R424). -/
def Queue.fail (k : Queue) (code : Nat) : Queue :=
  if k.qstate = 0 ∨ k.qstate = 1 then { k with qstate := 2, err := code } else k

/-- CQ_TAIL, the doorbell: a tail that passes the ring's size is ignored and fails the queue with BAD_TAIL (R422, R424). -/
def execCqTail (port queue value : Nat) (s : State) : Res :=
  let d := s.dev
  let f (k : Queue) : Queue :=
    if 2 ^ k.cqLog2 < (value % 2 ^ 32 + 2 ^ 32 - k.cqHead) % 2 ^ 32 then k.fail 1 else { k with cqTail := value % 2 ^ 32 }
  if d.linked port && queue < 8 then nextDev s { d with host := d.host.updQueue (8 * port + queue) f } else .next s

/-- A range lies in a port's own host window. -/
def inHostWindow (port a n : Nat) : Bool := hostBase port ≤ a && a + n ≤ hostBase port + hostSize

/-- ENABLE written 1 (R419, R424). -/
def Queue.enableOn (k : Queue) (port : Nat) : Queue :=
  let k := { k with enable := true }
  if k.qstate = 0 then
    if inHostWindow port k.cqBase (32 * 2 ^ k.cqLog2) && inHostWindow port k.rqBase (16 * 2 ^ k.rqLog2) then { k with qstate := 1 }
    else k.fail 3
  else k

/-- QUEUE_ENABLE: a DISABLED queue with valid rings sets RUNNING, otherwise ERROR with RING_ADDRESS (R424). -/
def execQueueEnable (port queue : Nat) (s : State) : Res :=
  let d := s.dev
  if d.linked port && queue < 8 then
    nextDev s ({ d with host := d.host.updQueue (8 * port + queue) (fun k => k.enableOn port) }).settled
  else .next s

/-- Q_RESET clears ENABLE, discards the packets not started and sets DRAINING (R424). -/
def execQReset (port queue : Nat) (s : State) : Res :=
  let d := s.dev
  if d.linked port && queue < 8 then
    nextDev s ({ d with host := d.host.updQueue (8 * port + queue) (fun k => { k with enable := false, fetched := [], qstate := 3 }) }).settled
  else .next s

/-- QUEUE_DRAINED: the draining queue's commands have replied; its indices clear and it becomes DISABLED (R424). -/
def execQueueDrained (q : Nat) (s : State) : Res :=
  let d := s.dev
  if (d.host.queue q).qstate == 3 && !d.host.inProg.any (fun c => c.queue == q) then
    nextDev s ({ d with host := d.host.updQueue q (fun k => { k with cqTail := 0, cqHead := 0, rqTail := 0, rqHead := 0, err := 0, qstate := 0 }) }).settled
  else .next s

/-- Bytes of a command ring from slot `i` on, wrapping at the ring's end (R421, R422). -/
def Queue.ringBytes (k : Queue) (m : Tab Byte) (i n : Nat) : List Byte :=
  ((List.range n).map (fun j => rdBytes m (k.cqBase + 32 * ((i + j) % 2 ^ k.cqLog2)) 32)).flatten

/-- A packet from its header and parameter bytes (R426). -/
def packetOf (hdr params : Nat) : Packet :=
  { opcode := bits hdr 0 16, ordered := bit hdr 16, silent := bit hdr 17, dlEn := bit hdr 18, latchEn := bit hdr 19,
    tag := bits hdr 32 32, queue := bits hdr 64 3, latchSet := bits hdr 72 8, plen := bits hdr 80 12, dlBeat := bits hdr 96 48,
    dlPhase := bits hdr 144 24, params := params }

/-- Commands of a port fetched and without a final reply (R423). -/
def HostIf.portLoad (h : HostIf) (port : Nat) : Nat := ((List.range 8).map (fun i => h.inProgressN (8 * port + i))).sum

/-- The reply BAD_PARAM of a packet whose length its queue refuses (R424); it takes one free entry, or 9 under LATCH_EN. -/
def Dev.badLength (d : Dev) (q : Nat) (p : Packet) : Dev :=
  let l := if p.latchEn then List.replicate 8 0 else []
  let d1 := { d with host := d.host.updQueue q (fun k => k.fail 2) }
  d1.post (q / 8 * 8 + p.queue) (d.replyNow p.tag stBadParam l.length 0xFFFF :: l)

/-- PACKET_FETCH: the next whole packet of a command ring is fetched over the port's link and CQ_HEAD passes it; a parity or link error
fails the queue (R422, R424). -/
def execPacketFetch (q : Nat) (fetchFails : Bool) (s : State) : Res :=
  let d := s.dev
  let k := d.host.queue q
  let held := (k.cqTail + 2 ^ 32 - k.cqHead) % 2 ^ 32
  if q < 16 && k.qstate == 1 && k.enable && 0 < held && d.host.portLoad (q / 8) < 128 && (fetchFails || d.linked (q / 8)) then
    if fetchFails then nextDev s { d with host := d.host.updQueue q (fun k => k.fail 4) }
    else
      let hdr := leNat (k.ringBytes d.mem k.cqHead 1)
      let p := packetOf hdr 0
      let n := ceilDiv (32 + p.plen) 32
      if 4064 < p.plen || 2 ^ k.cqLog2 < n then nextDev s (d.badLength q p)
      else if held < n then .next s
      else
        let params := leNat (((k.ringBytes d.mem k.cqHead n).drop 32).take p.plen)
        nextDev s ({ d with host := d.host.updQueue q (fun k =>
          { k with fetched := k.fetched ++ [{ p with params := params }], cqHead := (k.cqHead + n) % 2 ^ 32 }) }).settled
  else .next s

/-- IRQ_HOLDOFF_END: a held-back interrupt message goes out where a reply is still unread (R425). -/
def execIrqHoldoffEnd (q : Nat) (s : State) : Res :=
  let d := s.dev
  let k := d.host.queue q
  let due := match k.lastIrq with | some t => decide (t + k.holdoff * 1000 ≤ d.plat.now) | none => false
  if k.irqHeld && due then
    if k.rqTail != k.rqHead then
      nextDev s { d with host := (d.host.updQueue q (fun k => { k with irqHeld := false, lastIrq := some d.plat.now })).irq (q / 8) (q % 8) }
    else nextDev s { d with host := d.host.updQueue q (fun k => { k with irqHeld := false }) }
  else .next s

/-! ## Semaphores (R434) -/

/-- SEM_ACQUIRE: a read that covers bits [31:0] acquires a free semaphore and returns GRANTED, OWNER and ALREADY; a read of
the upper half alone returns 0 (R434). -/
def execSemAcquire (port n : Nat) (low : Bool) (s : State) : Res :=
  let d := s.dev
  let o := Tab.get 0 d.host.sems n
  let o' := if o = 0 then port + 1 else o
  if d.linked port && n < 64 then
    if low then
      let h := { d.host with sems := Tab.set 0 d.host.sems n o' }
      nextDev s { d with host := h.updPort port (fun p => { p with lastRead := semWord port o' (o == port + 1) }) }
    else nextDev s { d with host := d.host.updPort port (fun p => { p with lastRead := 0 }) }
  else .next s

/-- SEM_RELEASE: a write from the owning port frees the semaphore; any other adds one to SEM_BAD_RELEASE (R434). -/
def execSemRelease (port n : Nat) (s : State) : Res :=
  let d := s.dev
  if d.linked port && n < 64 then
    if Tab.get 0 d.host.sems n = port + 1 then
      nextDev s { d with host := { d.host with sems := Tab.set 0 d.host.sems n 0 } }
    else nextDev s { d with ctr := bump d.ctr cobInst 0x70 1 }
  else .next s

/-! ## Latched reads (R154, R358) -/

/-- BEAT_NOW_READ latches PHASE_NOW and BEAT_START for the port's next reads (R358). -/
def execBeatNowRead (port : Nat) (s : State) : Res :=
  let d := s.dev
  if d.linked port then
    nextDev s { d with host := d.host.updPort port (fun p =>
      { p with lastRead := d.cad.beat, phaseLatch := some (d.cad.phaseAt d.plat.now), startLatch := some d.cad.start }) }
  else .next s

/-- DEVICE_TIME_READ: half 0 reads bits [31:0] and latches the upper half, half 1 reads the latched half, 2 reads the whole
(R154). -/
def execDeviceTimeRead (port half : Nat) (s : State) : Res :=
  let d := s.dev
  let t := d.plat.now % 2 ^ 64
  if d.linked port && half ≤ 2 then
    nextDev s { d with host := d.host.updPort port (fun p =>
      if half = 0 then { p with lastRead := t % 2 ^ 32, devHi := t / 2 ^ 32 }
      else if half = 1 then { p with lastRead := p.devHi }
      else { p with lastRead := t }) }
  else .next s

/-! ## Links (R411, R420, R437) -/

/-- Vector 8 of a port under PORT_IRQ_EN (R425). -/
def HostIf.linkIrq (h : HostIf) (port : Nat) : HostIf := if (h.port port).irqEn then h.irq port 8 else h

/-- LINK_TRAINED: LINK_UP, WIDTH and RATE are set; in dormant mode port A runs lane 0 alone at 56 Gb/s and port B stays down
(R411, R420, R501). -/
def execLinkTrained (port width rate : Nat) (s : State) : Res :=
  let d := s.dev
  let may :=
    if d.plat.phase = .dormant then port == 0 && width == 1 && rate == 1
    else port < 2 && 1 ≤ width && width ≤ 3 && 1 ≤ rate && rate ≤ 2 && d.pow.on (64 + port) && d.plat.phase != .held
  if may then
    nextDev s { d with host := (d.host.updPort port (fun p => { p with up := true, width := width, rate := rate, downAt := none })).linkIrq port }
  else .next s

/-- LINK_RETRAIN: after the sixteenth failed replay of a flit the port goes down and counts one LINK_DOWN_EVENT; the flits
replayed and codewords corrected on the way are counted, saturating (R411, R420). -/
def execLinkRetrain (port corrected replayed : Nat) (s : State) : Res :=
  let d := s.dev
  let sat (x n : Nat) : Nat := min (2 ^ 32 - 1) (x + n)
  if d.linked port && 16 ≤ replayed then
    nextDev s { d with host := (d.host.updPort port (fun p =>
      { p.goDown d.plat.now with fecCorr := sat p.fecCorr corrected, fecUncorr := sat p.fecUncorr replayed })).linkIrq port }
  else .next s

end Sys2Proof.Machine
end

