-- ==== Sys2Proof/Machine/MoverOps.lean ====
section
/-! DEFINITION. Operations of mover channels (spec file 18, R467 to R484): taking a descriptor, its bursts, its checks, write-backs,
errors and the reset of a channel. Channel key 16p + n is channel n of pod p, key 64 + n Cob channel n. -/

namespace Sys2Proof.Machine

/-! ## Channels (R467, R468) -/

/-- Ownership ID of a channel. -/
def chanId (k : Nat) : Nat := 0x40 + k
/-- Engine of a channel: pods 0 to 3, the Cob 4. -/
def chanEngine (k : Nat) : Nat := if k < 64 then k / 16 else 4
/-- Counter instance and die of an engine. -/
def engineInst (e : Nat) : Nat := if e < 4 then podInst e else cobInst
/-- Power domain of an engine (R467). -/
def engineDom (e : Nat) : Nat := if e < 4 then 14 * e + 12 else 84
/-- Channels of an engine. -/
def engineChans (e : Nat) : List Nat := if e < 4 then (List.range 16).map (16 * e + ·) else (List.range 32).map (64 + ·)

/-- A channel, and a change of it. -/
def Dev.chan (d : Dev) (k : Nat) : Chan := Tab.get {} d.mov.chans k
def Dev.updChan (d : Dev) (k : Nat) (f : Chan → Chan) : Dev := { d with mov := { d.mov with chans := Tab.upd {} d.mov.chans k f } }

/-- Device address of descriptor HEAD (R468). -/
def Chan.headAddr (c : Chan) : Nat := c.base + 32 * (c.head % 2 ^ c.log2)

/-- A channel sends its owning port a message (R484). -/
def Dev.chanIrq (d : Dev) (k vec : Nat) : Dev :=
  let o := d.host.own (chanId k)
  if (d.chan k).irqEn && (o == 1 || o == 2) then { d with host := d.host.irq (o - 1) vec } else d

/-- The channel enters ERROR with a code; MOVER_ERROR adds one and vector 10 is sent (R482, R484). -/
def Dev.chanError (d : Dev) (k code : Nat) : Dev :=
  (((d.updChan k (fun c => { c with st := 4, err := code, fence := false })).count (engineInst (chanEngine k)) 0x28 1).chanIrq k 10)

/-- The write-back of descriptor HEAD: OWN 0, STATUS, and bits [31:16] as fetched; a descriptor with IRQ = 1 sends vector 9
(R476, R484). -/
def Dev.writeBack (d : Dev) (k status : Nat) : Dev :=
  let c := d.chan k
  match c.cur with
  | none => d
  | some x =>
    let w := setBits (setBits (bits x 0 32) 0 1 0) 8 4 status
    let d := (d.storeNat c.headAddr 4 w).updChan k (fun c => { c with cur := none, wb := none, fence := false, fail := none })
    let d := d.trace 0x0E (chanEngine k) (chanId k) c.head status c.bytes
    if bit x 4 then d.chanIrq k 9 else d

/-! ## Taking a descriptor (R470) -/

/-- A parity error of a channel's read goes to the fault log (R144, R449). -/
def Dev.chanLog (d : Dev) (k addr kind : Nat) : Dev :=
  let e := chanEngine k
  let r : FaultRec := { faultOf (if e < 4 then 4 else 12) e 0 none (addr % 2 ^ 48 + kind * 2 ^ 48) with port := d.host.own (chanId k) }
  { d with plat := d.plat.log r }.traceFault r

/-- A RUNNING channel without a descriptor takes descriptor HEAD; one that reads OWN = 0, or whose fetch fails, puts the channel into
ERROR (R470, R472). -/
def Dev.takeNext (d : Dev) (k : Nat) : Dev :=
  let c := d.chan k
  if c.st != 1 || c.cur.isSome || c.head == c.tail then d
  else match d.unbacked c.headAddr 32, firstBad d.poison c.headAddr 32 with
    | some a, _ => (d.updChan k (fun c => { c with faultAddr := a })).chanError k 6
    | none, some a => (((d.count (engineInst (chanEngine k)) 0x1A 1).chanLog k a 0).updChan k (fun c => { c with faultAddr := a })).chanError k 6
    | none, none =>
      let x := rdNat d.mem c.headAddr 32
      if !bit x 0 then d.chanError k 6
      else
        let z := ringXfer x
        d.updChan k (fun c => { c with cur := some x, row := 0, off := 0, fence := z.kind == .fence, waitN := 0, readyAt := d.plat.now,
                                       wb := if z.kind == .nop then some 0 else none })

/-! ## Bursts (R472, R473) -/

/-- A burst: its source and destination ranges, and its plain bytes. -/
structure Burst where
  src : Area
  dst : Area
  n : Nat
  deriving DecidableEq, Repr

/-- The next burst of a transfer at a row and offset: to the end of the row or a 4 KiB boundary, or 16 lines (R473). -/
def Xfer.burst (x : Xfer) (r o : Nat) : Burst :=
  let s := x.src + r * x.ss
  let t := x.dst + r * x.ds
  match x.kind with
  | .compress => let n := min 4096 (x.len - o); ⟨(s + o, n), (t, slotSize x.len), n⟩
  | .expand => let n := min 4096 (x.len - o); ⟨(s, slotSize x.len), (t + o, n), n⟩
  | .fill => let n := min (x.len - o) (4096 - (t + o) % 4096); ⟨(0, 0), (t + o, n), n⟩
  | _ => let n := min (x.len - o) (min (4096 - (s + o) % 4096) (4096 - (t + o) % 4096)); ⟨(s + o, n), (t + o, n), n⟩

/-- Ranges a burst touches. -/
def Burst.areas (b : Burst) : List Area := [b.src, b.dst].filter (fun a => 0 < a.2)

/-- The transfer of a channel's descriptor where it has bytes still to move. -/
def Chan.xfer (c : Chan) : Option Xfer :=
  match c.cur with
  | some x => let z := ringXfer x; if (z.writes || z.kind == .bad) && c.wb.isNone then some z else none
  | none => none

/-- The failure that stops a channel's descriptor: one that its last burst met, the checks before its first read, or an unbacked byte of
its next burst; a BAD_DESC or ALIGN names no address (R472, R482). -/
def Dev.chanFailure (d : Dev) (c : Chan) : Option (Nat × Option Nat) :=
  match c.fail with
  | some (st, a, _) => some (st, some a)
  | none => match c.xfer with
    | none => none
    | some x =>
      if c.st != 1 then none
      else if x.badDesc then some (3, none)
      else if x.badAlign then some (2, none)
      else if c.row = 0 ∧ c.off = 0 then (d.xferUnbacked x).map (fun a => (1, some a))
      else
        let b := x.burst c.row c.off
        match d.unbacked b.src.1 b.src.2, d.unwritable b.dst.1 b.dst.2 with
        | some a, _ => some (1, some a)
        | none, some a => some (1, some a)
        | none, none => none

/-- A range touches the host window of a port whose link is down. -/
def Dev.linkDown (d : Dev) (a : Area) : Bool :=
  (overlaps a.1 a.2 (hostBase 0) hostSize && !(d.host.port 0).up) || (overlaps a.1 a.2 (hostBase 1) hostSize && !(d.host.port 1).up)

/-- A range touches a host window. -/
def touchesHost (a : Area) : Bool := overlaps a.1 a.2 (hostBase 0) (2 * hostSize)

/-- First byte of an area that lies in a host window whose link is down, or else in any host window. -/
def Dev.hostByte (d : Dev) (as : List Area) : Nat :=
  let inWin (p : Nat) (a : Area) : Option Nat := if overlaps a.1 a.2 (hostBase p) hostSize then some (max a.1 (hostBase p)) else none
  let down := as.findSome? (fun a => ([0, 1] : List Nat).findSome? (fun p => if (d.host.port p).up then none else inWin p a))
  down.getD ((as.findSome? (fun a => ([0, 1] : List Nat).findSome? (fun p => inWin p a))).getD 0)

/-- A channel has a burst ready: it runs, its descriptor does not fail, and no held accumulator tile or link holds it back (R63, R475). -/
def Dev.chanReady (d : Dev) (k : Nat) : Bool :=
  let c := d.chan k
  match c.xfer with
  | none => false
  | some x =>
    let b := x.burst c.row c.off
    c.st == 1 && (d.chanFailure c).isNone && !b.areas.any (fun a => d.anyHeld (.flat a)) && !b.areas.any d.linkDown

/-- The channel an engine serves next: one passed over 64 times, else the highest PRIORITY, in rotation after the one served last
(R475). The flag says that age decided. -/
def Dev.nextChan (d : Dev) (e : Nat) : Option (Nat × Bool) :=
  let ids := engineChans e
  let last := Tab.get (ids.length - 1) d.mov.last e
  let rot := (List.range ids.length).map (fun i => ids.getD ((last + 1 + i) % ids.length) 0)
  let ready := rot.filter d.chanReady
  match ready.find? (fun k => 64 ≤ (d.chan k).waitN) with
  | some k => some (k, true)
  | none =>
    let top := ready.foldl (fun m k => max m (d.chan k).prio) 0
    (ready.find? (fun k => (d.chan k).prio == top)).map (fun k => (k, false))

/-- Bytes that lines of plain data take as COMPRESS writes them: granules, map bytes, and the spare map bytes at the row's end
(R201, R203). -/
def compWritten (len o : Nat) (bs : List Byte) : Nat :=
  ((List.range (ceilDiv bs.length 256)).map (fun i => (encodeLine ((bs.drop (256 * i)).take 256)).payload.length + 1)).sum
    + (if len ≤ o + bs.length then mapArea len - lineCount len else 0)

/-- Bytes that a burst writes (R468). -/
def Xfer.burstBytes (x : Xfer) (m : Tab Byte) (o : Nat) (b : Burst) : Nat :=
  if x.kind = .compress then compWritten x.len o (rdBytes m b.src.1 b.src.2) else b.n

/-- The bytes of a failing burst's destination: old ones, new ones, or a mixture, byte by byte a free choice (R482; log entry 8). -/
def mixRange (old : Dev) (w : Wk) (k a n : Nat) : Tab Byte × Tab Bool :=
  (List.range n).foldl (fun (x : Tab Byte × Tab Bool) i =>
    if (Config.freeByte (k * 2 ^ 48 + i)).toNat % 2 = 1
    then (Tab.set 0 x.1 (a + i) (rdByte w.mem (a + i)), Tab.set false x.2 (a + i) (Tab.get false w.poison (a + i)))
    else x) (old.mem, old.poison)

/-- The position after a burst; past the last row the descriptor waits for its write-back (R473, R476). -/
def Chan.afterBurst (c : Chan) (x : Xfer) (n written now : Nat) : Chan :=
  let o := c.off + n
  let c1 := { c with bytes := min (2 ^ 64 - 1) (c.bytes + written), readyAt := now }
  if o < x.len then { c1 with off := o }
  else { c1 with row := c.row + 1, off := 0, wb := if c.row + 1 < x.rows then none else some 0 }

/-- A burst of channel `k` runs: its bytes move, or a parity error stops the descriptor at it (R138 to R142, R473, R482). -/
def Dev.runBurst (d : Dev) (k : Nat) (x : Xfer) (flips : List Nat) : Dev :=
  let c := d.chan k
  let b := x.burst c.row c.off
  let e := chanEngine k
  let w := ({ mem := d.mem, poison := d.poison, free := d.plat.freeCount, flaws := flips, die := e : Wk }).xferPart x c.row c.off b.n
  let ctr := bump (addKinds d.ctr (fun _ => engineInst e) w.cnt) (engineInst e) 0x1A w.errs.length
  if w.bad then
    let a := w.errs.getLastD 0
    let (mem, poison) := mixRange { d with poison := w.poison } w d.plat.freeCount b.dst.1 b.dst.2
    { d with mem := mem, poison := poison, ctr := ctr, plat := { d.plat with freeCount := d.plat.freeCount + 1 } }.updChan k
      (fun c => { c with fail := some (4, a % 2 ^ 48, a / 2 ^ 48) })
  else
    { d with mem := w.mem, poison := w.poison, ctr := ctr }.updChan k (fun c => c.afterBurst x b.n (x.burstBytes d.mem c.off b) d.plat.now)

/-- Ages of an engine's channels after a burst of `k` (R475). -/
def Dev.ageChans (d : Dev) (e k : Nat) : Dev :=
  (engineChans e).foldl (fun u j => u.updChan j (fun c => { c with waitN := if j != k && d.chanReady j then c.waitN + 1 else 0 })) d

/-! ## Failure, reset and release (R479, R482, R483) -/

/-- A descriptor fails: the channel enters ERROR at the failing burst and writes it back with its STATUS; in RESETTING the reset goes on
(R482). -/
def Dev.chanFail (d : Dev) (k status addr kind : Nat) : Dev :=
  let d1 := (if status = 4 then d.chanLog k addr kind else d).updChan k (fun c => { c with faultAddr := addr })
  let d2 := if (d.chan k).st = 5 then d1.count (engineInst (chanEngine k)) 0x28 1 else d1.chanError k status
  d2.writeBack k status

/-- Every register but RING_BASE, RING_LOG2 and PRIORITY takes its reset value, a descriptor in progress being written back with ABORTED
first (R479). -/
def Dev.chanReset (d : Dev) (k : Nat) : Dev :=
  (d.writeBack k 7).updChan k (fun c => { base := c.base, log2 := c.log2, prio := c.prio, relCmd := c.relCmd })

/-- A released channel is reset, its entry is free, and its command is done (R483). -/
def Dev.chanFree (d : Dev) (k : Nat) : Dev :=
  let d := d.chanReset k
  let cmd := (d.chan k).relCmd
  let d := { d with host := d.host.setOwner (chanId k) 0 }.updChan k (fun c => { c with relCmd := 0 })
  d.finish cmd stDone 0 []

/-- A RUNNING channel begins to pause, a FENCE stops waiting (R479, R480). -/
def Chan.pause (c : Chan) (st : Nat) : Chan := { c with st := st, fence := false }

end Sys2Proof.Machine
end

