-- ==== Sys2Proof/Machine/Observe.lean ====
section
/-! DEFINITION. Latch sets, traces and tensor dumps (spec file 20, R519 to R534; 0x0A01 to 0x0A04 of 17). -/

namespace Sys2Proof.Machine

/-! ## Latching (R519, R520) -/

/-- LATCH_SET_DEFINE replaces a whole set. -/
def execLatchSetDefine (q set : Nat) (counters : List Nat) (s : State) : Res :=
  let lay := 8 :: List.replicate 16 16
  startCmd s q 0x0A01 lay (set :: counters)
    (fun _ => { param := firstBadField ((set ≤ 63, 0) :: counters.zipIdx.map (fun (c, i) => (counterIdOk c, fieldByte lay (i + 1)))) })
    (doneAt (fun d =>
      let l : Tab (List Nat) := Tab.set [] d.host.latchSets set (if counters = List.replicate 16 0xFFFF then [] else counters)
      { d with host := { d.host with latchSets := l } }))

/-- LATCH_END: 2 us after the end of a latching command its end latch is taken and its final reply follows (R520). -/
def execLatchEnd (cmd : Nat) (s : State) : Res :=
  let d := s.dev
  match d.host.cmd cmd with
  | none => .next s
  | some c => match c.endLatch with
    | none => .next s
    | some (st, det, t, ext) => event s (t + 2000 ≤ d.plat.now) (d.emitFinal c st det ext)

/-! ## Trace buffers (R521 to R527) -/

/-- A live task is released and not yet completed: no trace or dump write is issued (R534). -/
def Dev.liveBusy (d : Dev) : Bool := d.cad.streams.any (fun e => e.2.opened && (e.2.waiting.isSome || e.2.running.isSome))

/-- Records that a buffer holds (R522). -/
def TraceBuf.slots (b : TraceBuf) : Nat := (b.len - 64) / 32
def TraceBuf.wrap (b : TraceBuf) : Bool := bit b.sources 31
/-- A buffer without WRAP is full. -/
def TraceBuf.full (b : TraceBuf) : Bool := !b.wrap && b.slots ≤ b.widx
/-- The head of a buffer (R522). -/
def TraceBuf.head (b : TraceBuf) : Nat := packBits [(32, b.widx), (32, b.dropped), (1, b2n b.wrapped)]

/-- TRACE_ARM: DONE once capture has begun, at once where domain 83 is ON; a buffer that the port holds already stays as it is. -/
def execTraceArm (q buffer sources dest len : Nat) (s : State) : Res :=
  let lay := [2, 32, 64, 32]
  let a := dest % 2 ^ 48
  startCmd s q 0x0A02 lay [buffer, sources, dest, len]
    (fun d => { param := firstBadField [(bits sources 11 20 == 0, fieldByte lay 1),
                  (a % 64 == 0 && (d.unwritable a len).isNone, fieldByte lay 2), (len % 4096 == 0 && 65536 ≤ len, fieldByte lay 3)],
                own := d.host.claimRefusal (q / 8) (0x18 + buffer) })
    (fun d c =>
      if d.host.own (0x18 + buffer) != 0 then d.finish c.id stDone 0 []
      else
        let on := d.pow.on 83
        let b : TraceBuf := { armed := on, sources := sources, dest := a, len := len, upCmd := if on then 0 else c.id }
        let d1 := { d with host := d.host.setOwner (0x18 + buffer) (q / 8 + 1), obs := { d.obs with bufs := Tab.set {} d.obs.bufs buffer b } }
        if on then d1.finish c.id stDone 0 [] else d1.demand 83)

/-- The head of a buffer is written. -/
def Dev.putHead (d : Dev) (b : Nat) : Dev := let x := d.obs.buf b; d.storeNat x.dest 64 x.head

/-- One record goes into a buffer that has room. -/
def Dev.putWord (d : Dev) (b word : Nat) : Dev :=
  let x := d.obs.buf b
  (d.storeNat (x.dest + 64 + 32 * (x.widx % max x.slots 1)) 32 word).updBuf b (fun x =>
    { x with widx := (x.widx + 1) % 2 ^ 32, wrapped := x.wrapped || x.slots ≤ x.widx })

/-- The LOST record that precedes the next one; it takes that record's TIME (R524, R526; log entry 29). -/
def lostWord (time n : Nat) : Nat := packBits [(64, time), (8, 0xFE), (3, 4), (21, 0), (32, n)]

/-- A record is written to a buffer: a LOST record first where records were dropped; in a full buffer it is dropped (R522, R526). -/
def Dev.putRec (d : Dev) (b : Nat) (r : TraceRec) : Dev :=
  let x := d.obs.buf b
  if x.full then d.dropFor b
  else
    let d := if x.lost = 0 then d else (d.putWord b (lostWord r.time x.lost)).updBuf b (fun x => { x with lost := 0 })
    if (d.obs.buf b).full then d.dropFor b else (d.putWord b r.word).putHead b

/-- Records of a list that a buffer no longer takes. -/
def withoutBuf (b : Nat) (l : List TraceRec) : List TraceRec :=
  (l.map (fun r => { r with bufs := r.bufs.filter (· != b) })).filter (fun r => r.bufs != [])

/-- A buffer is free, and no record waits for it any more. -/
def Obs.dropBuf (o : Obs) (b : Nat) : Obs :=
  { o with bufs := Tab.set {} o.bufs b {}, queue := withoutBuf b o.queue, recs := withoutBuf b o.recs }

/-- Capture into a buffer ends: every record held for it is written, the head last; the buffer is released (R527). -/
def Dev.stopTrace (d : Dev) (b : Nat) : Dev :=
  let x := d.obs.buf b
  let put (d : Dev) (r : TraceRec) : Dev := (if (d.obs.buf b).full then d.count cobInst 0x78 1 else d).putRec b r
  let d1 := (((d.obs.recs ++ d.obs.queue).filter (fun r => r.bufs.contains b)).foldl put d).putHead b
  ({ d1 with obs := d1.obs.dropBuf b, host := d1.host.setOwner (0x18 + b) 0, pow := d1.pow.idle 83 d1.plat.now }).finish x.stopCmd stDone 0 []

/-- A TRACE_STOP begins: at once where no live task is under way, after it otherwise; an arming that still waits ends ABORTED. -/
def Dev.beginStop (d : Dev) (b cmd : Nat) : Dev :=
  let x := d.obs.buf b
  if x.upCmd ≠ 0 then
    (({ d with obs := d.obs.dropBuf b, host := d.host.setOwner (0x18 + b) 0 }).finish x.upCmd stAborted 0 []).finish
      cmd stDone 0 []
  else
    let d := d.updBuf b (fun x => { x with stopCmd := cmd })
    if d.liveBusy then d else d.stopTrace b

/-- TRACE_STOP (R527). -/
def execTraceStop (q buffer : Nat) (s : State) : Res :=
  startCmd s q 0x0A03 [2] [buffer]
    (fun d => { own := match d.host.ownRefusal (q / 8) (0x18 + buffer) with
      | some x => some x
      | none => if (d.obs.buf buffer).stopCmd ≠ 0 then some (stBusy, ownDetail (q / 8 + 1) (0x18 + buffer), []) else none })
    (fun d c => d.beginStop buffer c.id)

/-- A record takes its place: late ones first in order of arrival, the others by TIME, DIE and arrival (R525). -/
def insertRec (r : TraceRec) (l : List TraceRec) : List TraceRec :=
  let before (x : TraceRec) : Bool := if r.late then x.late else x.late || x.time < r.time || (x.time == r.time && x.die ≤ r.die)
  l.takeWhile before ++ r :: l.dropWhile before

/-- A record reaches the trace unit: late, where its TIME lies more than 4 us back; where the 1 MiB staging store is full it is dropped
(R525, R526). -/
def Dev.takeRec (d : Dev) (r : TraceRec) : Dev :=
  let late := decide (r.time + 4000 < d.plat.now)
  let r := { r with late := late, word := setBits r.word 79 1 (b2n late) }
  if 32768 ≤ d.obs.recs.length then d.dropRec r.bufs else { d with obs := { d.obs with recs := insertRec r d.obs.recs } }

/-- The oldest record in the queue of a die goes to the trace unit. -/
def Dev.traceRecord (d : Dev) (die : Nat) : Option Dev :=
  if d.pow.runs 83 then
    (d.obs.queue.find? (fun r => r.die == die)).map (fun r => { d with obs := { d.obs with queue := d.obs.queue.erase r } }.takeRec r)
  else none

/-- TRACE_RECORD: the record of an event that a buffer selected, made with the event, reaches the trace unit (R521 to R526). -/
def execTraceRecord (die : Nat) (s : State) : Res := eventOpt s (s.dev.traceRecord die)

/-- The first record is written to every buffer that selected it. -/
def Dev.writeRec (d : Dev) (r : TraceRec) : Dev :=
  let d1 := { d with obs := { d.obs with recs := d.obs.recs.tail } }
  r.bufs.foldl (fun d b => d.putRec b r) (if r.bufs.any (fun b => (d.obs.buf b).full) then d1.count cobInst 0x78 1 else d1)

/-- The trace unit writes: a capture that is to stop, or the first record once it has been held for 4 us; never during a live task,
nor while a channel of the Cob mover has a burst ready (R525, R527, R534). -/
def Dev.traceWrite (d : Dev) : Option Dev :=
  if d.liveBusy || !d.pow.runs 83 || (d.nextChan 4).isSome then none
  else match ([0, 1, 2, 3] : List Nat).find? (fun b => (d.obs.buf b).stopCmd != 0) with
    | some b => some (d.stopTrace b)
    | none => match d.obs.recs with
      | r :: _ => if r.late || r.time + 4000 ≤ d.plat.now then some (d.writeRec r) else none
      | [] => none

/-- TRACE_RECORD_WRITE. -/
def execTraceRecordWrite (s : State) : Res := eventOpt s s.dev.traceWrite

/-! ## Tensor dumps (R528 to R532) -/

/-- Bytes of a dump's dense element and scale arrays (R40, R530). -/
def dumpElems (sy : Sym) : Nat := sy.rows * packedLen sy.fmt sy.inner
def dumpScales (sy : Sym) : Nat := if fwBlk sy.fmt = 0 then 0 else sy.rows * ceilDiv sy.inner (fwBlk sy.fmt)
/-- Bytes of a dump. -/
def dumpSize (sy : Sym) : Nat := 64 + (if fwBlk sy.fmt = 0 then dumpElems sy else roundUp (dumpElems sy) 64 + dumpScales sy)

/-- The open stream whose frames a dump of a LIVE plan counts: the lowest that runs the plan (log entry 29). -/
def Dev.dumpStream (d : Dev) (h : Nat) : Option Nat :=
  firstIdx (fun n => (d.cad.stream n).opened && (d.cad.stream n).closing.isNone && srPlan (d.cad.stream n).record == h) 16

/-- The last step of a TRAINING plan that has started: that of the steps in progress, else the one before that which the tags of its state
name (R268, R528). -/
def Dev.startedTo (d : Dev) (h : Nat) : Option Nat :=
  let p := d.plan h
  match p.lastStep with
  | some l => some l
  | none => if p.stateLoaded && d.cob.plan == some h && 0 < hdW (d.blkHeader 0) then some (hdW (d.blkHeader 0) - 1) else none

/-- DUMP_TENSOR (R528). -/
def execDumpTensor (q plan symbol step dest len : Nat) (s : State) : Res :=
  let lay := [4, 32, 64, 64, 32]
  let a := dest % 2 ^ 48
  startCmd s q 0x0A04 lay [plan, symbol, step, dest, len]
    (fun d =>
      let p := d.plan plan
      let st := d.dumpStream plan
      let size := match p.sym symbol with | some sy => dumpSize sy | none => 0
      let early := if p.live then (match st with | some n => decide (step < (d.cad.stream n).nextFrame) | none => false)
        else (match d.startedTo plan with | some l => decide (step ≤ l) | none => false)
      { param := firstBadField [(p.ready && (!p.live || st.isSome), 0), ((p.sym symbol).isSome, fieldByte lay 1), (!early, fieldByte lay 2),
                   ((d.unwritable a size).isNone, fieldByte lay 3), (size ≤ len, fieldByte lay 4)],
        own := if !p.valid then some (stParity, 0, []) else if 8 ≤ d.obs.dumps.length then some (stNoMemory, 0, []) else none })
    (fun d c =>
      let x : Dump := { cmd := c.id, plan := plan, sym := symbol, step := step, dest := a,
                        stream := if (d.plan plan).live then d.dumpStream plan else none }
      { d with obs := { d.obs with dumps := d.obs.dumps ++ [x] } }.accept c)

/-- Header of a dump (R530). -/
def dumpHeader (x : Dump) (sy : Sym) : Nat :=
  packBits ([(32, sy.num), (4, sy.cls), (3, if sy.pods = 0 then 4 else sy.podList.headD 0), (9, 0), (16, sy.fmt), (64, x.step),
      (64, dumpElems sy), (64, dumpScales sy)] ++ (List.range 6).map (fun i => (32, sy.dims.getD i 1)) ++ [(3, sy.rank)])

/-- Engine and copy that a dump reads (R529). -/
def Sym.dumpPod (sy : Sym) : Nat := if sy.pods = 0 then 4 else sy.podList.headD 0
def Sym.dumpBase (sy : Sym) : Nat := if sy.pods = 0 then sy.addr else sy.at_ (sy.podList.headD 0)

/-- Device times since which a dump has held writes: of loops that could have been armed, and of passes that could have begun (R529). -/
def Dev.heldSince (d : Dev) (x : Dump) (sy : Sym) : List Nat :=
  let p := d.plan x.plan
  let loops := d.works.flatMap (fun w => match w with
    | .live _ _ => []
    | .step h second => if h != x.plan then [] else match p.run_ second with
      | none => []
      | some r => (p.loops.map (fun l => (l.pod, l.counter))).eraseDups.filterMap (fun (pod, ctr) =>
          let t := d.ctr_ pod ctr
          if t.st != 1 && t.st != 2 && (d.nextLoop pod ctr w).isSome && p.loopWrites pod ctr (Tab.get 0 r.armed (64 * pod + ctr) + 1) sy
          then some (max x.dueAt (max r.startedAt t.doneAt)) else none))
  let passes := match d.cobRun with
    | none => []
    | some (h, r) => if h != x.plan then [] else (d.cob.order ++ d.waitingLayers p).filterMap (fun y =>
        let l := d.cob.layer y
        let mine := (d.cob.layerBlks y).any (fun i => match d.nextPass p r.step i, p.tensor (d.cob.blk i).layer (d.cob.blk i).tensor with
          | some k, some t => (k == 4 && t.wSym == sy.num) || (k ≤ 2 && (t.mSym == sy.num || t.vSym == sy.num))
          | _, _ => false)
        if mine && !l.done && !l.stuck then some (max x.dueAt l.queuedAt) else none)
  loops ++ passes

/-- One more in DUMP_WAIT at each whole us for which a dump holds a write (R529). -/
def Dev.dumpTick (d : Dev) : Dev :=
  let n := (d.obs.dumps.filter (fun x => d.momentCome x && (match (d.plan x.plan).sym x.sym with
    | some sy => match d.heldSince x sy with
      | [] => false
      | t :: ts => let w := d.plat.now - ts.foldl min t; 0 < w && w % 1000 == 0
    | none => false))).length
  if n = 0 then d else d.count cobInst 0x79 n

/-- A dump reads its symbol and writes it to DEST (R529 to R532). -/
def Dev.readDump (d : Dev) (x : Dump) (sy : Sym) (flips : List Nat) : Dev :=
  let e := sy.dumpPod
  let d := d.trace 0x10 e x.plan x.sym 0 x.step
  let w : Wk := { mem := d.mem, poison := d.poison, free := d.plat.freeCount, flaws := flips, die := e }
  let (es, w) := w.symElems sy sy.dumpBase
  let (ss, w) := w.symScales sy sy.dumpBase
  let body := if fwBlk sy.fmt = 0 then es else es ++ List.replicate (roundUp es.length 64 - es.length) 0 ++ ss
  let d0 := d.absorbUnit (dieInst e) (if e < 4 then 4 else 12) e (d.host.cmd x.cmd) w
  let d1 := { d0 with obs := { d0.obs with dumps := d0.obs.dumps.filter (fun y => y.cmd != x.cmd) } }
  let d2 := (d1.put x.dest (leBytes 64 (dumpHeader x sy) ++ body) w.bad).trace 0x10 e x.plan x.sym 1 x.step
  (d2.finish x.cmd (if w.bad then stParity else stDone) x.moves []).assign

/-- The first dump whose moment has come reads: no live task is under way and no channel of the engine has a burst ready (R529, R531,
R534). -/
def Dev.dumpNext (d : Dev) (flips : List Nat) : Option Dev :=
  if d.liveBusy then none
  else d.obs.dumps.findSome? (fun x => match (d.plan x.plan).sym x.sym with
    | some sy => if d.momentCome x && (d.nextChan sy.dumpPod).isNone then some (d.readDump x sy flips) else none
    | none => none)

/-- DUMP_READ. -/
def execDumpRead (flips : List Nat) (s : State) : Res := eventFlips s flips (s.dev.dumpNext flips)

end Sys2Proof.Machine
end

