-- ==== Sys2Proof/Machine/Clock.lean ====
section
/-! DEFINITION. Device time (R152) and the tick. -/

namespace Sys2Proof.Machine

/-- Device time runs from the release of RESET_N while power is good (R152, R488). -/
def Plat.clockRuns (p : Plat) : Bool := p.resetN && p.pwrGood == 0x3F && p.aonUp

/-- One nanosecond of device time (R152). -/
def Plat.tick (p : Plat) : Plat := { p with now := p.now + 1 }

/-- What counts with time while it lasts: fence waits per ns, dump, ring and reply waits per us (R265, R342, R431, R529). -/
def Dev.tick (d : Dev) : Dev :=
  let d := { d with plat := d.plat.tick }
  if d.pow.dead then d else d.fenceTick.dumpTick.ringTick.replyTick

/-- The tick of an empty queue: device time rises by 1 ns and the waits that last are counted (log entry 2). -/
def tick (s : State) : State := if s.dev.plat.clockRuns then { s with dev := s.dev.tick } else s

end Sys2Proof.Machine
end

