-- ==== Sys2Proof/Machine/Admin.lean ====
section
/-! DEFINITION. The meanings of the administration commands 0x0000 to 0x0012 and of the reset they cause (spec file 17;
R450, R542). -/

namespace Sys2Proof.Machine

/-- NOP: the conditions of R423 hold it; then it completes DONE. -/
def execNop (q : Nat) (s : State) : Res := startCmd s q 0x0000 [] [] (fun _ => {}) (doneAt id)

/-- IDENTIFY: DONE with the identity block of the issuing port in two extended entries (R418). -/
def execIdentify (q : Nat) (s : State) : Res :=
  startCmd s q 0x0001 [] [] (fun _ => {})
    (doneAt id (ext := fun d => [bits (d.plat.identity (q / 8)) 0 128, bits (d.plat.identity (q / 8)) 128 128]))

/-- Extended entry 1 of GET_STATUS: loaded plans, open streams, open encoder sessions and device time (R448). -/
def Dev.statusWord (d : Dev) : Nat :=
  packBits [(16, (d.planUsed.map (2 ^ ·)).sum),
            (16, (d.cad.streams.map (fun e => if e.2.opened then 2 ^ e.1 else 0)).sum),
            (4, (d.enc.sess.map (fun e => if e.2.opened then 2 ^ e.1 else 0)).sum), (28, 0), (64, d.plat.now)]

/-- GET_STATUS (R448). -/
def execGetStatus (q : Nat) (s : State) : Res :=
  startCmd s q 0x0002 [] [] (fun _ => {})
    (doneAt id (ext := fun d => [bits d.plat.faultSummary 0 128, d.statusWord]))

/-- The bytes READ_FAULT_LOG writes (R449). -/
def Plat.faultBytes (p : Plat) : List Byte :=
  leBytes 32 (packBits [(32, p.faultLog.length), (32, p.faultLost)]) ++ (p.faultLog.map (fun r => leBytes 32 r.word)).flatten

/-- READ_FAULT_LOG writes the log at DEST and empties it; DETAIL is the number of records written (R449). -/
def execReadFaultLog (q dest : Nat) (s : State) : Res :=
  startCmd s q 0x0003 [64] [dest]
    (fun d => { param := if d.cmdWritable (dest % 2 ^ 48) (32 + 32 * d.plat.faultLog.length) then none else some 0 })
    (fun d c =>
      ({ d.store (dest % 2 ^ 48) d.plat.faultBytes with plat := { d.plat with faultLog := [], faultLost := 0 } }).finish
        c.id stDone d.plat.faultLog.length [])

/-- RESET completes DONE; 10 us after the reply the device resets (R450). -/
def execReset (q : Nat) (s : State) : Res :=
  startCmd s q 0x0004 [] [] (fun _ => {})
    (fun d c => (({ d with plat := { d.plat with resetAt := some d.plat.now } })).finish c.id stDone 0 [])

/-- RESET_EXECUTE: R447, R450; in dormant mode BOOT_ATTEMPTS is cleared and the start runs from time 0 (R502). -/
def execResetExecute (s : State) : Res :=
  let d := s.dev
  let due := match d.plat.resetAt with | some t => decide (t + 10000 ≤ d.plat.now) | none => false
  if due then
    if d.plat.phase = .dormant then nextDev s (({ d.abortAll 0 with plat := { d.plat with bootAttempts := 0 } }).huskStart.alerted d.plat)
    else nextDev s (d.resetNow.alerted d.plat)
  else .next s

/-! ## GPIO (R439, R445, R542, R543) -/

/-- A GPIO pin. -/
def HostIf.pin (h : HostIf) (n : Nat) : Gpio := Tab.get {} h.gpio n

/-- Change a pin. -/
def HostIf.updPin (h : HostIf) (n : Nat) (f : Gpio → Gpio) : HostIf := { h with gpio := Tab.upd {} h.gpio n f }

/-- Level of alternate function 1 of a pin (R542): the console's output is not stated bit by bit and is free. -/
def Dev.altLevel (d : Dev) (pin : Nat) : Bool :=
  match pin with
  | 0 => Config.freeNat d.plat.freeCount % 2 == 1
  | 1 => (d.host.pin 1).input
  | 2 => d.cad.outHigh
  | 3 => d.cad.mode == 2
  | 4 => !d.pow.mirror.any (fun e => 0x100 ≤ e.1 && e.1 % 16 == 0 && bit e.2 9)
  | 5 => match d.cad.lastMiss with | some t => decide (t + 1000 ≤ d.plat.now) | none => true
  | _ => d.plat.deviceState == 1

/-- Level of a pin: driven by the board as an input, by the value as an output, by its alternate function otherwise. -/
def Dev.pinLevel (d : Dev) (pin : Nat) : Bool :=
  let g := d.host.pin pin
  if g.mode = 0 then g.input else if g.mode = 1 then g.value else d.altLevel pin

/-- GPIO_CLAIM claims entry PIN (R439). -/
def execGpioClaim (q pin : Nat) (s : State) : Res :=
  startCmd s q 0x0010 [4] [pin] (fun d => { own := d.host.claimRefusal (q / 8) pin })
    (doneAt (fun d => { d with host := d.host.setOwner pin (q / 8 + 1) }))

/-- A pin becomes a free input (R542). -/
def HostIf.freePin (h : HostIf) (pin : Nat) : HostIf :=
  (h.setOwner pin 0).updPin pin (fun g => { input := g.input })

/-- GPIO_RELEASE: the pin becomes an input (R542). -/
def execGpioRelease (q pin : Nat) (s : State) : Res :=
  startCmd s q 0x0011 [4] [pin] (fun d => { own := d.host.ownRefusal (q / 8) pin })
    (doneAt (fun d => { d with host := d.host.freePin pin }))

/-- GPIO_SET: input, output at VALUE, or the pin's alternate function; DETAIL[0] is the level after it (R542). -/
def execGpioSet (q pin mode value alt : Nat) (s : State) : Res :=
  let lay := [4, 2, 1, 4]
  startCmd s q 0x0012 lay [pin, mode, value, alt]
    (fun d => { param := firstBadField [(mode != 3, fieldByte lay 1), (mode != 2 || (alt == 1 && pin ≤ 6), fieldByte lay 3)],
                own := d.host.ownRefusal (q / 8) pin })
    (doneAt (fun d => { d with host := d.host.updPin pin (fun g =>
        { g with mode := mode, value := if mode = 1 then value == 1 else g.value, alt := if mode = 2 then alt else g.alt, pulse := none }) })
      (detail := fun d => b2n (d.pinLevel pin)))

end Sys2Proof.Machine
end

