-- ==== Sys2Proof/Machine/SlotOps.lean ====
section
/-! DEFINITION. Event slots and scheduler timers (R360 to R362 of spec file 14; R431 of 16; R543 of 21): the slot record, what a
firing does, and where a repeating slot goes on. -/

namespace Sys2Proof.Machine

/-! ## The slot record (R360) -/

def slBeat (r : Nat) : Nat := bits r 0 48
def slPhase (r : Nat) : Nat := bits r 48 24
def slKind (r : Nat) : Nat := bits r 72 4
def slAction (r : Nat) : Nat := bits r 76 2
def slPeriod (r : Nat) : Nat := bits r 80 16
def slTarget (r : Nat) : Nat := bits r 96 16
def slTag (r : Nat) : Nat := bits r 112 32
def slWidth (r : Nat) : Nat := bits r 144 32

/-- A slot record that a command may give: kinds 1 to 3, a pin or queue that exists, and a pulse width in its range (R15, R360,
R362). -/
def slotRecordOk (r : Nat) : Bool :=
  (slKind r == 1 || (slKind r == 2 && slTarget r < 16 && (slAction r != 3 || (100 ≤ slWidth r && slWidth r ≤ 1000000)))
    || (slKind r == 3 && slTarget r < 8))

/-- A GPIO slot needs its pin in the port's hands (R360). -/
def HostIf.slotRefusal (h : HostIf) (port r : Nat) : Option (Nat × Nat × List Nat) :=
  if slKind r = 2 then h.ownRefusal port (slTarget r) else none

/-! ## CADENCE_OUT (R348, R357) -/

def Cad.outMode (c : Cad) : Nat := bits c.cfg 54 2
def Cad.outWidth (c : Cad) : Nat := bits c.sched 9 20
def Cad.outPhase (c : Cad) : Nat := bits c.sched 29 24

/-- CADENCE_OUT goes high for OUT_WIDTH. -/
def Dev.outPulse (d : Dev) : Dev := { d with cad := { d.cad with outHigh := true, outEnd := some (d.plat.now + d.cad.outWidth) } }

/-! ## Firing (R360, R361, R431, R543) -/

/-- A GPIO action, on a pin in output mode only. -/
def HostIf.slotPin (h : HostIf) (r now : Nat) : HostIf :=
  let n := slTarget r
  if (h.pin n).mode != 1 then h
  else h.updPin n (fun g =>
    if slAction r = 0 then { g with value := false, pulse := none }
    else if slAction r = 1 then { g with value := true, pulse := none }
    else if slAction r = 2 then { g with value := !g.value, pulse := none }
    else { g with value := true, pulse := some (now + slWidth r) })

/-- A slot record's action for owner `owner` at beat:phase; `frame` is the frame of a RELEASE_TASK. -/
def Dev.fire (d : Dev) (r owner frame beat phase : Nat) : Dev :=
  match slKind r with
  | 0 => d.releaseTask (slTarget r) frame
  | 1 => if d.cad.outMode = 0 then d else d.outPulse
  | 2 => { d with host := d.host.slotPin r d.plat.now }
  | 3 => d.slotReply (8 * (owner - 1) + slTarget r) (slTag r) beat phase
  | _ => d

/-- Frame of the firing at a beat. -/
def slFrame (r beat : Nat) : Nat := (beat - slBeat r) / max (slPeriod r) 1

/-- The slot after a firing at beat `beat`: the next one `n` periods on, or the slot is free. -/
def Dev.advanceSlot (d : Dev) (slot : Nat) (x : Slot) (beat n : Nat) : Dev :=
  let y : Option Slot := if slPeriod x.record = 0 then none else some { x with nextBeat := beat + n * slPeriod x.record }
  { d with cad := { d.cad with slots := Tab.set none d.cad.slots slot y } }

/-- A firing at once for instants that lie in the past or were jumped: the first at `x.nextBeat` and `n` in all; EVENT_LATE adds
those it lost (R361; log entry 25). -/
def Dev.fireLate (d : Dev) (slot : Nat) (x : Slot) (n : Nat) : Dev :=
  let last := x.nextBeat + (n - 1) * slPeriod x.record
  let d := (d.count cobInst 0x55 (n - 1)).advanceSlot slot x x.nextBeat n
  d.fire x.record x.owner (slFrame x.record last) d.cad.beat (d.cad.phaseAt d.plat.now)

/-- Instants of a slot that lie before the present. -/
def Dev.pastFirings (d : Dev) (x : Slot) : Nat :=
  let c := d.cad
  if c.beat < x.nextBeat then 0
  else if slPeriod x.record = 0 then b2n (c.isPast x.nextBeat (slPhase x.record) d.plat.now)
  else
    let k := (c.beat - x.nextBeat) / slPeriod x.record
    k + b2n (c.isPast (x.nextBeat + k * slPeriod x.record) (slPhase x.record) d.plat.now)

/-- A slot has just been written: instants before now fire once at once (R361). -/
def Dev.slotWritten (d : Dev) (slot : Nat) : Dev :=
  match Tab.get none d.cad.slots slot with
  | none => d
  | some x => let n := d.pastFirings x; if n = 0 then d else d.fireLate slot x n

/-- The first started beat after a beat that has not started (R356). -/
def Cad.landing (c : Cad) (b : Nat) : Nat := (c.hist.map (·.1)).foldl (fun m x => if b < x && x < m then x else m) c.beat

/-- Instants of a slot that a beat skip jumped; 0 where its beat has started. -/
def Cad.jumped (c : Cad) (x : Slot) : Nat :=
  if c.beat ≤ x.nextBeat || c.hist.any (fun e => e.1 == x.nextBeat) then 0
  else if slPeriod x.record = 0 then 1 else ceilDiv (c.landing x.nextBeat - x.nextBeat) (slPeriod x.record)

/-- Device time of the instant of beat:phase as its beat gave it, before a beat that came early moved it; for a beat that was skipped its
phase (R346). -/
def Cad.original (c : Cad) (beat phase : Nat) : Nat :=
  match ((c.beat, c.start, c.pBeat) :: c.hist).find? (fun e => e.1 == beat) with
  | some (_, st, pe) => st + ceilDiv (phase * pe) (2 ^ 40)
  | none => phase

/-- Order of firing: instant, then beat, then the original instant where a beat start moved it, and slot number (R361). -/
def Cad.slotKey (c : Cad) (n : Nat) (x : Slot) : List Nat :=
  [(c.instantOf x.nextBeat (slPhase x.record)).getD 0, x.nextBeat, c.original x.nextBeat (slPhase x.record), n]

/-- Slot `n` is the next to fire: its instant has been reached and no other reached slot comes first. -/
def Dev.slotDue (d : Dev) (n : Nat) (x : Slot) : Bool :=
  let c := d.cad
  let here (y : Slot) : Bool := c.reached y.nextBeat (slPhase y.record) d.plat.now
  here x && c.slots.all (fun e => match e.2 with | some y => e.1 == n || !here y || c.slotKey n x < c.slotKey e.1 y | none => true)

/-- A slot fires at its instant, or once for the instants that a skip jumped. -/
def Dev.fireSlot (d : Dev) (n : Nat) (x : Slot) : Dev :=
  let j := d.cad.jumped x
  if j = 0 then (d.advanceSlot n x x.nextBeat 1).fire x.record x.owner (slFrame x.record x.nextBeat) x.nextBeat (slPhase x.record)
  else d.fireLate n x j

end Sys2Proof.Machine
end

