-- ==== Sys2Proof/Machine/Cadence.lean ====
section
/-! DEFINITION. The cadence unit (spec file 14, R345 to R362; R414 of 16): CADENCE_CONFIG, event slots and scheduler timers, the
beat start, reference events, sync records, lock and holdover. -/

namespace Sys2Proof.Machine

/-! ## Configuration fields (R348) -/

def Cad.source (c : Cad) : Nat := cfgSource c.cfg
def Cad.window (c : Cad) : Nat := bits c.lock 0 17
def Cad.inDelay (c : Cad) : Nat := bits c.lock 17 15
def Cad.holdLimit (c : Cad) : Nat := bits c.lock 32 24

/-! ## CADENCE_CONFIG (R348, R368) -/

/-- CAD_CONFIG meets its ranges; PULSE_BEATS is read under CADENCE_IN only, and MISS_LIMIT under no FREE source (R355, R558). -/
def cadOk (x : Nat) : Bool :=
  1 ≤ cfgDen x && 1000000 * cfgDen x ≤ cfgNum x && cfgNum x ≤ 100000000 * cfgDen x && (cfgSource x != 1 || 1 ≤ cfgPulse x) && cfgSource x != 3
    && bits x 54 2 != 3 && (cfgSource x == 0 || 1 ≤ cfgMiss x)

/-- LOCK_CONFIG meets its ranges beside CAD_CONFIG `cad`: FREE reads no LOCK_WINDOW (R558). -/
def lockOk (cad x : Nat) : Bool := cfgSource cad == 0 || (100 ≤ bits x 0 17 && bits x 0 17 ≤ 100000)

/-- SCHED_CONFIG meets its ranges beside CAD_CONFIG `cad`, and no loaded plan breaks the limit of R368; a CADENCE_OUT held low reads no
OUT_WIDTH (R558). -/
def Dev.schedOk (d : Dev) (cad x : Nat) : Bool :=
  20 ≤ bits x 0 9 && bits x 0 9 ≤ 500 && (bits cad 54 2 == 0 || (100 ≤ bits x 9 20 && bits x 9 20 ≤ 1000000))
    && d.planUsed.all (fun h => (d.plan h).live || sMaxOk (d.plan h).sMax (bits x 0 9))

/-- CADENCE_CONFIG: the configuration of the next beat start; RESERVED bits read 0 (R14, R348). -/
def execCadenceConfig (q cad lock sched : Nat) (s : State) : Res :=
  startCmd s q 0x0901 [64, 64, 64] [cad, lock, sched]
    (fun d => { param := firstBadField [(cadOk cad, 0), (lockOk cad lock, 8), (d.schedOk cad sched, 16)] })
    (doneAt (fun d => { d with cad := { d.cad with pend := some (cad, bits lock 0 56, bits sched 0 53) } }))

/-! ## EVENT_SET, EVENT_CLEAR, TIMER_CLAIM, TIMER_RELEASE (R360 to R362) -/

/-- A slot is written. -/
def Dev.putSlot (d : Dev) (n : Nat) (x : Slot) : Dev := { d with cad := { d.cad with slots := Tab.set none d.cad.slots n (some x) } }

/-- Lowest free slot (R360). -/
def Cad.lowSlot (c : Cad) : Option Nat := firstIdx (fun n => (Tab.get none c.slots n).isNone) 256

/-- EVENT_SET takes the lowest free slot; DETAIL is its number (R360). -/
def execEventSet (q slot : Nat) (s : State) : Res :=
  startCmd s q 0x0902 [256] [slot]
    (fun d => { param := if slotRecordOk slot then none else some 0,
                own := match d.host.slotRefusal (q / 8) slot with
                  | some x => some x
                  | none => if d.cad.lowSlot.isNone then some (stNoMemory, 0, []) else none })
    (fun d c =>
      let n := d.cad.lowSlot.getD 0
      ((d.putSlot n { record := setBits slot 78 2 (q / 8 + 1), owner := q / 8 + 1, nextBeat := slBeat slot }).slotWritten n).finish c.id stDone n [])

/-- EVENT_CLEAR frees a slot (R445). A slot that is already free stays free. -/
def execEventClear (q slot : Nat) (s : State) : Res :=
  startCmd s q 0x0903 [8] [slot]
    (fun d =>
      match Tab.get none d.cad.slots slot with
      | none => {}
      | some x => { param := if slKind x.record = 0 then some 0 else none,
                    own := if x.owner = q / 8 + 1 then none else some (stBusy, portDetail (x.owner - 1), []) })
    (doneAt (fun d => { d with cad := { d.cad with slots := Tab.set none d.cad.slots slot none } }))

/-- A scheduler timer, and a change of it. -/
def Cad.timer (c : Cad) (n : Nat) : Timer := Tab.get {} c.timers n
def Cad.putTimer (c : Cad) (n : Nat) (x : Timer) : Cad := { c with timers := Tab.set {} c.timers n x }

/-- TIMER_CLAIM: a claim of a claimed timer fails and names the owner (R362; log entry 26); the timer starts with the reply. -/
def execTimerClaim (q timer periodic interval slot : Nat) (s : State) : Res :=
  let lay := [3, 1, 32, 256]
  startCmd s q 0x0904 lay [timer, periodic, interval, slot]
    (fun d => { param := firstBadField [(1 ≤ interval, fieldByte lay 2), (slotRecordOk slot, fieldByte lay 3)],
                own := if d.host.own (0x10 + timer) ≠ 0 then some (stBusy, ownDetail (d.host.own (0x10 + timer)) (0x10 + timer), [])
                  else d.host.slotRefusal (q / 8) slot })
    (doneAt (fun d =>
      let t : Timer := { on := true, port := q / 8, periodic := periodic == 1, interval := interval,
                         next := d.plat.now + 1000 * interval, slot := slot }
      { d with cad := d.cad.putTimer timer t, host := d.host.setOwner (0x10 + timer) (q / 8 + 1) }))

/-- TIMER_RELEASE stops and releases the timer (R445). -/
def execTimerRelease (q timer : Nat) (s : State) : Res :=
  startCmd s q 0x0905 [3] [timer] (fun d => { own := d.host.ownRefusal (q / 8) (0x10 + timer) })
    (doneAt (fun d => { d with cad := d.cad.putTimer timer {}, host := d.host.setOwner (0x10 + timer) 0 }))

/-! ## EVENT_SLOT_FIRE, SCHEDULER_TIMER_FIRE, CADENCE_OUT_PULSE, PULSE_WIDTH_END -/

/-- EVENT_SLOT_FIRE (R361). -/
def execEventSlotFire (slot : Nat) (s : State) : Res :=
  match Tab.get none s.dev.cad.slots slot with
  | none => .next s
  | some x => workEvent s (s.dev.slotDue slot x) (s.dev.fireSlot slot x)

/-- SCHEDULER_TIMER_FIRE: timers count device time and ignore beats (R362). -/
def execSchedulerTimerFire (timer : Nat) (s : State) : Res :=
  let d := s.dev
  let t := d.cad.timer timer
  let u : Timer := if t.periodic then { t with next := t.next + 1000 * t.interval } else { t with on := false }
  workEvent s (t.on && t.next ≤ d.plat.now)
    (({ d with cad := d.cad.putTimer timer u }).fire t.slot (t.port + 1) 0 d.cad.beat (d.cad.phaseAt d.plat.now))

/-- The beat whose OUT_PHASE pulse comes next: the first started beat after the last one that had it. -/
def Cad.outDue (c : Cad) : Nat :=
  match c.outBeat with
  | none => c.beat
  | some b => (c.hist.map (·.1)).foldl (fun m x => if b < x && x < m then x else m) c.beat

/-- CADENCE_OUT_PULSE: under OUT_MODE 1, at OUT_PHASE of every beat (R348, R357). -/
def execCadenceOutPulse (s : State) : Res :=
  let d := s.dev
  let c := d.cad
  event s (c.outMode == 1 && c.outBeat != some c.outDue && c.reached c.outDue c.outPhase d.plat.now)
    { d.outPulse with cad := { d.outPulse.cad with outBeat := some c.outDue } }

/-- PULSE_WIDTH_END: the end of a pulse on a GPIO pin 0 to 15, or on CADENCE_OUT as pin 16 (R348, R360). -/
def execPulseWidthEnd (pin : Nat) (s : State) : Res :=
  let d := s.dev
  let ended (t : Option Nat) : Bool := match t with | some x => decide (x ≤ d.plat.now) | none => false
  if pin = 16 then event s (ended d.cad.outEnd) { d with cad := { d.cad with outHigh := false, outEnd := none } }
  else event s (pin < 16 && ended (d.host.pin pin).pulse)
    { d with host := d.host.updPin pin (fun g => { g with value := false, pulse := none }) }

/-! ## Reference events (R350 to R354) -/

/-- Reference period as a fraction: the nominal one in ACQUIRING, P_EST otherwise (R351). -/
def Cad.refPeriod (c : Cad) : Nat × Nat := if c.mode = 1 then (cfgNum c.cfg, cfgDen c.cfg) else (c.pEst, 65536)

/-- An interval agrees: it lies within LOCK_WINDOW of PULSE_BEATS reference periods (R351). -/
def Cad.intervalOk (c : Cad) (iv : Nat) : Bool :=
  let (n, m) := c.refPeriod
  decide (((iv * m : Nat) : Int) - ((cfgPulse c.cfg * n : Nat) : Int) ≤ ((c.window * m : Nat) : Int)
    ∧ ((cfgPulse c.cfg * n : Nat) : Int) - ((iv * m : Nat) : Int) ≤ ((c.window * m : Nat) : Int))

/-- Predicted start of the next beat under lock (R352). -/
def Cad.predicted (c : Cad) : Nat := c.start + c.pEst / 65536

/-- An event is expected for beat `b` (R352). -/
def Cad.expects (c : Cad) (b : Nat) : Bool := c.lockBeat ≤ b && (b - c.lockBeat) % max (cfgPulse c.cfg) 1 == 0

/-- A device time lies in the window of a prediction. -/
def Cad.inWindow (c : Cad) (p t : Nat) : Bool := p ≤ t + c.window && t ≤ p + c.window

/-- The current beat began in a window, about its predicted start, that still holds device time `t`. -/
def Cad.usedWindow (c : Cad) (t : Nat) : Bool :=
  c.hist != [] && c.expects c.beat && c.inWindow c.usedPred t

/-- P_EST while LOCKED to CADENCE_IN: the mean of the last agreeing intervals (R351; log entry 24). -/
def Cad.estimate (c : Cad) : Cad :=
  if c.mode = 2 && c.source = 1 && c.intervals != [] then { c with pEst := c.intervals.sum * 65536 / (c.intervals.length * max (cfgPulse c.cfg) 1) }
  else c

/-- Entry to LOCKED: the phase step follows (R351, R354, R359). -/
def Cad.enterLock (c : Cad) : Cad := { c with mode := 2, stepPend := true, expired := false, lockedBeats := 0, missed := 0, edgeTaken := none }

/-- An interval that agrees joins the last 16. -/
def Cad.pushInterval (c : Cad) (iv : Nat) : Cad := { c with intervals := (iv :: c.intervals).take 16 }

/-- A stamped reference event under source CADENCE_IN; one that agrees moves P_EST at once while LOCKED (R351 to R354). -/
def Dev.refEvent (d : Dev) (t : Nat) : Dev :=
  let c := d.cad
  let iv := c.lastRef.map (fun r => t - r)
  let ok := match iv with | some v => c.intervalOk v | none => false
  let (n, m) := c.refPeriod
  let err : Int := match iv with | some v => (v : Int) - ((cfgPulse c.cfg * n / max m 1 : Nat) : Int) | none => 0
  let c1 := if ok then c.pushInterval (iv.getD 0) else c
  if c.mode = 2 then
    if c.stepPend then { d with cad := { c1.estimate with lastRef := some t, edgeTaken := some (max t (c.start + 1)), refError := err } }
    else if c.expects (c.beat + 1) && c.edgeTaken.isNone && c.inWindow c.predicted t then
      { d with cad := { c1.estimate with lastRef := some t, edgeTaken := some t, missed := 0, refError := (t : Int) - c.predicted } }
    else if c.usedWindow t || (c.expects (c.beat + 1) && c.inWindow c.predicted t) then d
    else d.count cobInst 0x51 1
  else
    let agree := if ok then c.agree + 1 else 0
    let c2 := { c1 with lastRef := some t, agree := agree, refError := err }
    if agree < 4 then { d with cad := c2 } else { d with cad := c2.enterLock.estimate }.count cobInst 0x52 1

/-- CADENCE_IN_EDGE: a rising edge that stayed high for `highNs`; one shorter than 100 ns is ignored (R350). -/
def execCadenceInEdge (highNs : Nat) (s : State) : Res :=
  let d := s.dev
  let t := d.plat.now - d.cad.inDelay
  let d := { d with cad := { d.cad with refSeen := some t } }
  event s (100 ≤ highNs) (if d.cad.source = 1 then d.refEvent t else { d with cad := { d.cad with lastRef := some t } })

/-- REF_WINDOW_END: no event in the window, so the beat starts at its end and REF_MISSED adds one (R352). -/
def execRefWindowEnd (s : State) : Res :=
  let d := s.dev
  let c := d.cad
  event s (c.source == 1 && c.mode == 2 && !c.stepPend && c.edgeTaken.isNone && c.expects (c.beat + 1)
      && c.predicted + c.window + c.inDelay ≤ d.plat.now)
    ({ d with cad := { c with edgeTaken := some (c.predicted + c.window), missed := c.missed + 1 } }.count cobInst 0x50 1)

/-! ## PTP (R351, R355, R356, R414) -/

/-- PTP beat number of the next PTP beat start. -/
def Cad.ptpNext (c : Cad) (now : Nat) : Nat :=
  (((now : Int) + c.ptpOff.getD 0).toNat * cfgDen c.cfg / max (cfgNum c.cfg) 1) + 1

/-- Device time at which the estimated PTP time reaches beat `b` (R355). -/
def Cad.ptpStart (c : Cad) (b : Nat) : Nat := ((ceilDiv (b * cfgNum c.cfg) (max (cfgDen c.cfg) 1) : Nat) - c.ptpOff.getD 0 : Int).toNat

/-- Entry to LOCKED under PTP: the beat that comes next, and the skip or stretch it takes (R356). -/
def Dev.ptpLock (d : Dev) : Dev :=
  let c := d.cad
  let n := c.ptpNext d.plat.now
  let d1 := { d with cad := { c.enterLock with lockBeat := max n (c.beat + 1) } }.count cobInst 0x52 1
  if c.beat + 1 < n then d1.count cobInst 0x53 (n - c.beat - 1)
  else if n ≤ c.beat then d1.count cobInst 0x54 1
  else d1

/-- The unit leaves LOCKED for HOLDOVER, which counts from the current beat (R351). -/
def Cad.holdover (c : Cad) : Cad := { c with mode := 3, anchorBeat := c.beat, anchorStart := c.start, agree := 0, missed := 0, stepPend := false }

/-- A sync record of the PTP port: its offset against the prediction, and the new estimate of PTP time; while LOCKED P_EST is what the
unit makes of its records, and a record that does not agree is an expected event that was missed (R351, R355; log entry 24). -/
def Dev.syncRecord (d : Dev) (ptpTime : Nat) : Dev :=
  let c := d.cad
  let off : Int := (ptpTime : Int) - d.plat.now
  let ok := match c.ptpOff with | some p => decide (off - p ≤ (c.window : Int) ∧ p - off ≤ (c.window : Int)) | none => false
  let agree := if ok then c.agree + 1 else 0
  let missed := if c.mode = 2 && !ok then c.missed + 1 else 0
  let c1 := { c with ptpOff := some (Config.ptpEstimate d.plat.freeCount off), lastSync := some d.plat.now, agree := agree,
                     refError := off - c.ptpOff.getD off, missed := missed }
  let c1 := if c.mode = 2 then { c1 with pEst := Config.ptpPeriod d.plat.freeCount } else c1
  let d1 := { d with cad := c1, plat := { d.plat with freeCount := d.plat.freeCount + 1 } }
  if c.mode = 2 then (if cfgMiss c.cfg ≤ missed then { d1 with cad := c1.holdover } else d1)
  else if 4 ≤ agree then d1.ptpLock else d1

/-- PTP_SYNC_RECORD: records of the other port are discarded (R414). -/
def execPtpSyncRecord (port ptpTime : Nat) (s : State) : Res :=
  event s (s.dev.cad.source == 2 && port == cfgPort s.dev.cad.cfg) (s.dev.syncRecord ptpTime)

/-- PTP_SYNC_TIMEOUT: no sync record for 1 s while LOCKED; HOLDOVER counts from the current beat (R351). -/
def execPtpSyncTimeout (s : State) : Res :=
  let d := s.dev
  let c := d.cad
  event s (c.source == 2 && c.mode == 2 && (match c.lastSync with | some t => decide (t + 10 ^ 9 ≤ d.plat.now) | none => true))
    { d with cad := c.holdover }

/-! ## BEAT_START (R345 to R349, R351 to R356, R359, R392, R394, R408, R549) -/

/-- Device time at which the next beat starts, and its number; none while it waits on a reference event. -/
def Cad.nextBeat (c : Cad) : Option (Nat × Nat) :=
  let b := c.beat + 1
  if c.mode = 2 then
    if c.source = 2 then
      let m := if c.stepPend then c.lockBeat else b
      some (m, max (c.ptpStart m) (c.start + 1))
    else if c.stepPend || c.expects b then c.edgeTaken.map (fun t => (b, t))
    else some (b, c.predicted)
  else if c.mode = 3 then some (b, c.anchorStart + (b - c.anchorBeat) * c.pEst / 65536)
  else some (b, c.anchorStart + (b - c.anchorBeat) * cfgNum c.cfg / max (cfgDen c.cfg) 1)

/-- A configuration takes effect at the start of beat `b` at device time `t` (R348, R349). -/
def Cad.configure (c : Cad) (b t : Nat) (cfg lock sched : Nat) : Cad :=
  let c1 := { c with cfg := cfg, lock := lock, sched := sched, pend := none,
                     outBeat := if bits cfg 54 2 = c.outMode then c.outBeat else some (b - 1),
                     outHigh := c.outHigh && bits cfg 54 2 != 0 }
  if cfgSource cfg = c.source ∧ cfgNum cfg = cfgNum c.cfg ∧ cfgDen cfg = cfgDen c.cfg ∧ cfgPulse cfg = cfgPulse c.cfg then c1
  else { c1 with mode := if cfgSource cfg = 0 then 0 else 1, pEst := nominalEst cfg, anchorBeat := b, anchorStart := t, agree := 0,
                 intervals := [], missed := 0, edgeTaken := none, stepPend := false, ptpOff := none }

/-- The cadence unit enters beat `b` at device time `t`. -/
def Cad.enterBeat (c : Cad) (b t : Nat) : Cad :=
  let counted := c.mode = 2 ∨ c.lockBeat ≠ 0
  let c1 := { c with beat := b, start := t, hist := (c.beat, c.start, c.pBeat) :: c.hist, usedPred := c.predicted,
                     lockedBeats := if counted then min (2 ^ 32 - 1) (c.lockedBeats + 1) else c.lockedBeats,
                     lockBeat := if c.mode = 2 && c.stepPend then b else c.lockBeat, stepPend := false, edgeTaken := none }
  let c2 := if c.mode = 2 && c.source = 1 && cfgMiss c.cfg ≤ c.missed
    then { c1 with mode := 3, anchorBeat := b, anchorStart := t, agree := 0, missed := 0 } else c1
  let c2 := match c2.pend with
    | some (x, y, z) => c2.configure b t x y z
    | none => if c2.mode = 0 ∧ c2.source ≠ 0 then { c2 with mode := 1, anchorBeat := b, anchorStart := t, agree := 0 } else c2
  let c3 := { c2 with pBeat := c2.pEst }
  if c3.mode = 3 ∧ c3.holdLimit ≠ 0 ∧ c3.anchorBeat + c3.holdLimit ≤ b then { c3 with expired := true } else c3

/-- What a beat start does in the power controller: budget, guard-bands, and buses that answer again (R392, R408, R549). -/
def Pow.beatStart (w : Pow) : Pow :=
  { w with budget := w.budgetPend.getD w.budget, budgetPend := none,
           doms := w.doms.map (fun e => (e.1, { e.2 with gb := e.2.gbNew })),
           rails := w.rails.map (fun e => (e.1, if e.2.failed && e.2.answers then { e.2 with failed := false, answers := false } else e.2)) }

/-- Beat `b` starts at device time `t`. -/
def Dev.beatStarts (d : Dev) (b t : Nat) : Dev :=
  let old := d.cad
  let c := old.enterBeat b t
  let fixed := d.pow.fixedIn old.start t * c.pEst / (65536 * max (t - old.start) 1)
  (({ d with cad := c, pow := d.pow.beatStart }).trace 7 4 0 (b % 2 ^ 32) c.mode c.pEst).planBeat fixed

/-- BEAT_START. -/
def execBeatStart (s : State) : Res :=
  match s.dev.cad.nextBeat with
  | some (b, t) => event s (t ≤ s.dev.plat.now) (s.dev.beatStarts b t)
  | none => .next s

end Sys2Proof.Machine
end

