-- ==== Sys2Proof/Machine/Shape.lean ====
section
/-! DEFINITION. Decoded pictures and audio, the shaper's arithmetic, augmentation draws, and the tokenizer (R288, R289, R295 to R298
of spec file 11; R303, R314 to R318 of 12; R464 of 17). -/

namespace Sys2Proof.Machine

/-! ## Decoded pictures (R288) -/

def picW (h : Nat) : Nat := bits h 0 16
def picH (h : Nat) : Nat := bits h 16 16
def picLayout (h : Nat) : Nat := bits h 32 3
def picChroma (h : Nat) : Nat := bits h 35 2
def picDepth (h : Nat) : Nat := bits h 37 5
def picFull (h : Nat) : Bool := bit h 42
def picMatrix (h : Nat) : Nat := bits h 64 8

/-- Header of a decoded object. -/
def objHeader (b : List Byte) : Nat := leNat (b.take 64)

/-- Subsampling factors of the chroma planes. -/
def chromaSx (h : Nat) : Nat := if picChroma h = 3 then 1 else 2
def chromaSy (h : Nat) : Nat := if picChroma h = 1 then 2 else 1

/-- Width and height of each plane. -/
def picPlanes (h : Nat) : List (Nat × Nat) :=
  let l := (picW h, picH h)
  let c := (ceilDiv (picW h) (chromaSx h), ceilDiv (picH h) (chromaSy h))
  match picLayout h with
  | 0 => [l]
  | 1 => [l, c, c]
  | 2 => [l, l]
  | 3 => [l, l, l]
  | _ => [l, l, l, l]

/-- Bytes of one row of a plane. -/
def planeRow (w : Nat) : Nat := 64 * ceilDiv (2 * w) 64
/-- Byte at which plane `i` begins. -/
def planeOff (h i : Nat) : Nat := 64 + (((picPlanes h).take i).map (fun p => p.2 * planeRow p.1)).sum
/-- Bytes of the picture. -/
def picSize (h : Nat) : Nat := planeOff h (picPlanes h).length

/-- The bytes hold a picture in the layout of R288. -/
def picOk (b : List Byte) : Bool :=
  let h := objHeader b
  64 ≤ b.length && 1 ≤ picW h && 1 ≤ picH h && picLayout h ≤ 4 && (picLayout h != 1 || picChroma h != 0) && 1 ≤ picDepth h && picDepth h ≤ 16
    && picSize h ≤ b.length

/-- Coded sample (x, y) of plane `i`. -/
def picSample (b : List Byte) (i x y : Nat) : Nat :=
  let h := objHeader b
  let o := planeOff h i + y * planeRow ((picPlanes h).getD i (0, 0)).1 + 2 * x
  leNat [b.getD o 0, b.getD (o + 1) 0]

/-! ## RGB values (R314, R464) -/

/-- Luma, grey and RGB samples as fractions. -/
def lumaE (h q : Nat) : Q :=
  let d := picDepth h
  if picFull h then Q.mk' q (2 ^ d - 1)
  else ((Q.ofInt q).sub ((Q.ofInt 16).mul (Q.pow2 ((d : Int) - 8)))).div ((Q.ofInt 219).mul (Q.pow2 ((d : Int) - 8)))

/-- Chroma samples as fractions. -/
def chromaE (h q : Nat) : Q :=
  let d := picDepth h
  if picFull h then Q.mk' ((q : Int) - 2 ^ (d - 1)) (2 ^ d - 1)
  else ((Q.ofInt q).sub ((Q.ofInt 128).mul (Q.pow2 ((d : Int) - 8)))).div ((Q.ofInt 224).mul (Q.pow2 ((d : Int) - 8)))

/-- Colour matrix of a picture under MATRIX_MAP (R313). -/
def picMap (map h : Nat) : Nat := bits map (4 * (if 16 ≤ picMatrix h then 2 else picMatrix h)) 4

/-- N_MATRICES of a MEDIA image. -/
def mediaMats (mats : List Byte) : Nat := bits (leNat (mats.take 8)) 0 5

/-- The picture's matrix is in its MEDIA generation (R464). -/
def picMapped (mats : List Byte) (map : Nat) (b : List Byte) : Bool := picLayout (objHeader b) != 1 || picMap map (objHeader b) < mediaMats mats

/-- FP32 value `j` of colour matrix `m`: M row by row, then O. -/
def matVal (mats : List Byte) (m j : Nat) : XR := fp32 (leNat ((mats.drop (64 + 48 * m + 4 * j)).take 4))

/-- c(x, y, k) of R314. -/
def picRgb (mats : List Byte) (map : Nat) (b : List Byte) (x y k : Nat) : XR :=
  let h := objHeader b
  match picLayout h with
  | 1 =>
    let m := picMap map h
    let cx := x / chromaSx h
    let cy := y / chromaSy h
    let e (i : Nat) : XR := XR.ofQ (if i = 0 then lumaE h (picSample b 0 x y) else chromaE h (picSample b i cx cy))
    let t (i : Nat) : XR := (matVal mats m (3 * k + i)).mul (e i)
    rn ((((t 0).add (t 1)).add (t 2)).add (matVal mats m (9 + k)))
  | 3 | 4 => rn (XR.ofQ (lumaE h (picSample b k x y)))
  | _ => rn (XR.ofQ (lumaE h (picSample b 0 x y)))

/-! ## shape_pixel (R314) -/

/-- A crop: left, top, width, height, and whether the picture is mirrored. -/
structure Crop where
  cx : Nat
  cy : Nat
  cw : Nat
  ch : Nat
  flip : Bool
  deriving DecidableEq, Repr

/-- The source coordinate of output position `i` of `n`, clamped to the picture. -/
def srcCoord (i n c cn w : Nat) : Q :=
  let t := ((Q.ofInt c).add (Q.mk' ((2 * i + 1 : Nat) * (cn : Int)) (2 * n))).sub ⟨1, 2⟩
  (t.max Q.zero).min (Q.ofInt ((w : Int) - 1))

/-- What the profile fixes for pictures. -/
structure PixFmt where
  fmt : Nat
  mean : Nat
  istd : Nat
  map : Nat
  deriving DecidableEq, Repr

/-- One output element, as bytes (R314). -/
def shapePixel (f : PixFmt) (mats : List Byte) (b : List Byte) (tw th : Nat) (c : Crop) (x y k : Nat) : List Byte :=
  let h := objHeader b
  let u := srcCoord (if c.flip then tw - 1 - x else x) tw c.cx c.cw (picW h)
  let v := srcCoord y th c.cy c.ch (picH h)
  let x0 := u.floor.toNat
  let y0 := v.floor.toNat
  let x1 := min (x0 + 1) (picW h - 1)
  let y1 := min (y0 + 1) (picH h - 1)
  let a := u.sub (Q.ofInt x0)
  let e := v.sub (Q.ofInt y0)
  let w (p q : Q) (x y : Nat) : XR := (XR.ofQ (p.mul q)).mul (picRgb mats f.map b x y k)
  let na := Q.one.sub a
  let ne := Q.one.sub e
  let s := rn ((((w na ne x0 y0).add (w a ne x1 y0)).add (w na e x0 y1)).add (w a e x1 y1))
  let r := (s.sub (fp32 (bits f.mean (32 * k) 32))).mul (fp32 (bits f.istd (32 * k) 32))
  let g := fwFmt f.fmt
  leBytes (g.width / 8) (g.encode (roundFmt g .rne r 0))

/-- A shaped picture, row-major with the three channels innermost (R303). -/
def shapePicture (f : PixFmt) (mats : List Byte) (b : List Byte) (tw th : Nat) (c : Crop) : List Byte :=
  (List.range th).flatMap (fun y => (List.range tw).flatMap (fun x => ([0, 1, 2] : List Nat).flatMap (fun k => shapePixel f mats b tw th c x y k)))

/-! ## Augmentation (R318) -/

/-- What the profile and the run fix for augmentation. -/
structure Aug where
  en : Nat
  kmin : Nat
  kmax : Nat
  flipP : Nat
  gain : Nat
  seed : Nat
  deriving DecidableEq, Repr

/-- Draw word `j` of operation 0x10 + `op`. -/
def Aug.draw (g : Aug) (index seg op j : Nat) : Nat := (drawBlock g.seed seg index (0x10 + op) 0).word j

/-- Crop and flip of a segment's pictures. -/
def Aug.crop (g : Aug) (index seg h : Nat) : Crop :=
  let flip := bit g.en 1 && g.draw index seg 1 0 < g.flipP
  if bit g.en 0 then
    let k := g.kmin + g.draw index seg 0 0 % (g.kmax - g.kmin + 1)
    let cw := max 1 (picW h * k / 256)
    let ch := max 1 (picH h * k / 256)
    ⟨g.draw index seg 0 1 % (picW h - cw + 1), g.draw index seg 0 2 % (picH h - ch + 1), cw, ch, flip⟩
  else ⟨0, 0, picW h, picH h, flip⟩

/-- GAIN factor. -/
def Aug.factor (g : Aug) (index seg : Nat) : XR :=
  if bit g.en 2 then rn (xExp2 (XR.ofQ (Q.mk' ((g.draw index seg 2 0 % (2 * g.gain + 1) : Nat) - (g.gain : Int)) 8))) else XR.ofInt 1

/-- First frame of an audio segment of `f` frames where `cap` positions are left (SHIFT). -/
def Aug.shift (g : Aug) (index seg f cap : Nat) : Nat :=
  if bit g.en 3 && cap < f then g.draw index seg 3 0 % (f - cap + 1) else 0

/-! ## Audio (R289, R316) -/

def audCh (h : Nat) : Nat := bits h 0 8
def audRate (h : Nat) : Nat := bits h 8 24
def audFrames (h : Nat) : Nat := bits h 32 32

/-- Byte at which a channel begins. -/
def audOff (h c : Nat) : Nat := 64 + c * roundUp (4 * audFrames h) 64

/-- The bytes hold audio in the layout of R289. -/
def audOk (b : List Byte) : Bool :=
  let h := objHeader b
  64 ≤ b.length && 1 ≤ audCh h && audCh h ≤ 8 && audOff h (audCh h - 1) + 4 * audFrames h ≤ b.length

/-- Value of a channel at a frame. -/
def audVal (b : List Byte) (c t : Nat) : XR := fp32 (leNat ((b.drop (audOff (objHeader b) c + 4 * t)).take 4))

/-- An audio object suits the profile (R316). -/
def audFits (ch rate : Nat) (b : List Byte) : Bool :=
  let h := objHeader b
  audRate h == rate && (audCh h == ch || (ch == 1 && 1 < audCh h))

/-- The value of output channel `c` at frame `t`: a copy, or the exact mean of the channels. -/
def audMix (ch : Nat) (b : List Byte) (c t : Nat) : XR :=
  let n := audCh (objHeader b)
  if n = ch then audVal b c t
  else (((List.range n).map (fun i => audVal b i t)).foldl XR.add (.zero false)).div (XR.ofInt n)

/-- Output channel `c` of a segment's objects, each position's bytes (R316). -/
def audPlane (fmt ch : Nat) (factor : XR) (objs : List (List Byte)) (c : Nat) : List (List Byte) :=
  let g := fwFmt fmt
  objs.flatMap (fun b => (List.range (audFrames (objHeader b))).map (fun t =>
    leBytes (g.width / 8) (g.encode (roundFmt g .rne ((audMix ch b c t).mul factor) 0))))

/-! ## TOKEN tables (R295, R296) -/

/-- A TOKEN table as its image gives it. -/
structure TokTab where
  vocab : Nat
  byteIds : List Nat
  merges : List (Nat × Nat × Nat)
  specials : List (Nat × Nat × List Byte)
  classes : List (Nat × Nat × Nat)
  norm : List (Nat × Nat × List Byte)
  digit : Nat
  deriving DecidableEq, Repr

/-- Entries of `n` bytes from a byte on. -/
def tokEntries (b : List Byte) (o n k : Nat) : List (List Byte) := (List.range k).map (fun i => (b.drop (o + n * i)).take n)

/-- Where the sections MERGES, SPECIALS, CLASSES and NORM begin, and where the image ends. -/
def tokSections (h : Nat) : Nat × Nat × Nat × Nat × Nat :=
  let s := 1088 + roundUp (12 * bits h 24 18) 64
  let c := s + roundUp (80 * bits h 42 9) 64
  let n := c + roundUp (8 * bits h 51 13) 64
  (1088, s, c, n, n + 24 * bits h 64 15)

/-- The image read as a table. -/
def readTok (b : List Byte) : TokTab :=
  let h := objHeader b
  let (m, s, c, n, _) := tokSections h
  { vocab := bits h 0 24 + 1, digit := bits h 79 2,
    byteIds := (tokEntries b 64 4 256).map leNat,
    merges := (tokEntries b m 12 (bits h 24 18)).map (fun e => let x := leNat e; (bits x 0 32, bits x 32 32, bits x 64 32)),
    specials := (tokEntries b s 80 (bits h 42 9)).map (fun e => let k := bits (leNat e) 32 8; (leNat (e.take 4), k, (e.drop 16).take k)),
    classes := (tokEntries b c 8 (bits h 51 13)).map (fun e => let x := leNat e; (bits x 0 21, bits x 21 21, bits x 42 3)),
    norm := (tokEntries b n 24 (bits h 64 15)).map (fun e => let k := bits (leNat e) 32 8; (leNat (e.take 4), k, (e.drop 8).take k)) }

/-- No two elements are equal. -/
def distinct : List Nat → Bool
  | [] => true
  | x :: xs => !xs.contains x && distinct xs

/-- Every merge names identifiers that a byte entry or an earlier merge produces. -/
def mergesFounded : List Nat → List (Nat × Nat × Nat) → Bool
  | _, [] => true
  | known, (a, b, r) :: ms => known.contains a && known.contains b && mergesFounded (r :: known) ms

/-- Consecutive elements stand in a relation. -/
def chained {α : Type} (r : α → α → Bool) : List α → Bool
  | a :: b :: l => r a b && chained r (b :: l)
  | _ => true

/-- A range of code points without a surrogate or anything beyond U+10FFFF. -/
def cpRange (a b : Nat) : Bool := a ≤ b && b ≤ 0x10FFFF && (b < 0xD800 || 0xDFFF < a)

/-- The image passes R296; entries break no range of R295 (log entry 32). -/
def tokOk (b : List Byte) : Bool :=
  let h := objHeader b
  let t := readTok b
  let res := t.merges.map (fun m => m.2.2)
  let spec := t.specials.map (fun s => s.1)
  let strs := t.specials.map (fun s => s.2.2)
  64 ≤ b.length && 255 ≤ bits h 0 24 && bits h 24 18 ≤ 262143 && bits h 42 9 ≤ 256 && bits h 51 13 ≤ 4096 && bits h 64 15 ≤ 16384
    && (tokSections h).2.2.2.2 ≤ b.length
    && t.byteIds.all (· < t.vocab) && t.merges.all (fun m => m.1 < t.vocab && m.2.1 < t.vocab && m.2.2 < t.vocab) && spec.all (· < t.vocab)
    && distinct (t.merges.map (fun m => m.1 * 2 ^ 32 + m.2.1))
    && distinct t.byteIds && distinct res && res.all (fun r => !t.byteIds.contains r && !spec.contains r)
    && mergesFounded t.byteIds t.merges
    && t.classes.all (fun c => cpRange c.1 c.2.1 && c.2.2 ≤ 4) && chained (fun a b => a.2.1 < b.1) t.classes
    && t.norm.all (fun n => cpRange n.1 n.1 && n.2.1 ≤ 16) && chained (fun a b => a.1 < b.1) t.norm
    && t.specials.all (fun s => 1 ≤ s.2.1 && s.2.1 ≤ 64) && strs.eraseDups.length == strs.length

/-- A MEDIA image keeps the ranges of R464 (log entry 32). -/
def mediaOk (b : List Byte) : Bool :=
  let h := leNat (b.take 8)
  64 ≤ b.length && bits h 0 5 ≤ 16 && bits h 32 32 ≤ 65536 && 64 + 48 * bits h 0 5 ≤ b.length
    && (bits h 32 32 == 0 || 1024 + bits h 32 32 ≤ b.length)

/-! ## Units (R297) -/

/-- A unit: its bytes with the source offset of each, its class, and its code point where it is one. -/
structure TokUnit where
  bs : List (Byte × Nat)
  cls : Nat
  cp : Option Nat
  deriving DecidableEq, Repr

/-- A continuation byte. -/
def isCont (b : Nat) : Bool := 0x80 ≤ b && b < 0xC0

/-- Code point and length of the shortest-form UTF-8 sequence at the head, if one starts there (RFC 3629). -/
def utf8Head (l : List (Byte × Nat)) : Option (Nat × Nat) :=
  let b (i : Nat) : Nat := match l[i]? with | some x => x.1.toNat | none => 0
  let c (i : Nat) : Nat := b i % 64
  if l = [] then none
  else if b 0 < 0x80 then some (b 0, 1)
  else if b 0 < 0xC0 then none
  else if b 0 < 0xE0 then
    let p := b 0 % 32 * 64 + c 1
    if isCont (b 1) && 0x80 ≤ p then some (p, 2) else none
  else if b 0 < 0xF0 then
    let p := b 0 % 16 * 4096 + c 1 * 64 + c 2
    if isCont (b 1) && isCont (b 2) && 0x800 ≤ p && (p < 0xD800 || 0xDFFF < p) then some (p, 3) else none
  else if b 0 < 0xF8 then
    let p := b 0 % 8 * 262144 + c 1 * 4096 + c 2 * 64 + c 3
    if isCont (b 1) && isCont (b 2) && isCont (b 3) && 0x10000 ≤ p && p ≤ 0x10FFFF then some (p, 4) else none
  else none

/-- Class of a code point: OTHER where no range holds it. -/
def TokTab.cls (t : TokTab) (p : Nat) : Nat := match t.classes.find? (fun c => c.1 ≤ p && p ≤ c.2.1) with | some c => c.2.2 | none => 0

/-- Bytes read as units; `n` bounds their number. -/
def TokTab.units (t : TokTab) : Nat → List (Byte × Nat) → List TokUnit
  | 0, _ => []
  | _, [] => []
  | n + 1, x :: l =>
    match utf8Head (x :: l) with
    | some (p, k) => ⟨(x :: l).take k, t.cls p, some p⟩ :: t.units n ((x :: l).drop k)
    | none => ⟨[x], 0, none⟩ :: t.units n l

/-- Units with each code point that has a rule replaced; a rule never meets its own output (R297, R298). -/
def TokTab.normalise (t : TokTab) (us : List TokUnit) : List TokUnit :=
  us.flatMap (fun u =>
    match (match u.cp with | some p => t.norm.find? (fun (n : Nat × Nat × List Byte) => n.1 == p) | none => none) with
    | some n =>
      let off := match u.bs with | x :: _ => x.2 | [] => 0
      t.units n.2.2.length (n.2.2.map (fun b => (b, off)))
    | none => [u])

/-! ## split and bpe (R297) -/

/-- A chunk cut at unit boundaries into pieces of at most 4,096 bytes: (pieces, open piece). -/
def cutPieces : List TokUnit → List (Byte × Nat) → List (List (Byte × Nat))
  | [], cur => if cur = [] then [] else [cur]
  | u :: us, cur => if cur != [] && 4096 < cur.length + u.bs.length then cur :: cutPieces us u.bs else cutPieces us (cur ++ u.bs)

/-- Units of the chunk that starts at the head, behind a leading space or not. -/
def TokTab.runLen (t : TokTab) (us : List TokUnit) : Nat :=
  match us with
  | [] => 0
  | u :: _ =>
    if u.cls = 4 then
      let k := (us.takeWhile (fun v => v.cls == 4)).length
      if k < us.length && 1 < k then k - 1 else k
    else if u.cls = 3 then
      let k := (us.takeWhile (fun v => v.cls == 3)).length
      if t.digit = 0 then k else min k t.digit
    else if u.cls = 1 ∨ u.cls = 2 then (us.takeWhile (fun v => v.cls == 1 || v.cls == 2)).length
    else (us.takeWhile (fun v => v.cls != 1 && v.cls != 2 && v.cls != 3 && v.cls != 4)).length

/-- The unit is the byte 0x20. -/
def TokUnit.isBlank (u : TokUnit) : Bool := match u.bs with | [x] => x.1.toNat == 0x20 | _ => false

/-- split of R297; `n` bounds the number of chunks. -/
def TokTab.split (t : TokTab) : Nat → List TokUnit → List (List (Byte × Nat))
  | 0, _ => []
  | _, [] => []
  | n + 1, u :: us =>
    let lead := u.isBlank && (match us with | v :: _ => v.cls != 4 | [] => false)
    let k := if lead then 1 + t.runLen us else t.runLen (u :: us)
    cutPieces ((u :: us).take k) [] ++ t.split n ((u :: us).drop k)

/-- Rank and result of a pair. -/
def TokTab.rank (t : TokTab) (a b : Nat) : Option (Nat × Nat) :=
  match t.merges.zipIdx.find? (fun m => m.1.1 == a && m.1.2.1 == b) with
  | some m => some (m.2, m.1.2.2)
  | none => none

/-- The lowest rank of an adjacent pair. -/
def TokTab.lowest (t : TokTab) : List (Nat × Nat) → Option Nat
  | a :: b :: l =>
    match t.rank a.1 b.1, t.lowest (b :: l) with
    | some r, some k => some (min r.1 k)
    | some r, none => some r.1
    | none, k => k
  | _ => none

/-- The leftmost pair of rank `r` merged; a token keeps the offset of its first byte. -/
def TokTab.mergeAt (t : TokTab) (r : Nat) : List (Nat × Nat) → List (Nat × Nat)
  | a :: b :: l =>
    match t.rank a.1 b.1 with
    | some x => if x.1 = r then (x.2, a.2) :: l else a :: t.mergeAt r (b :: l)
    | none => a :: t.mergeAt r (b :: l)
  | l => l

/-- bpe of R297; `n` bounds the number of merges. -/
def TokTab.bpe (t : TokTab) : Nat → List (Nat × Nat) → List (Nat × Nat)
  | 0, l => l
  | n + 1, l => match t.lowest l with | some r => t.bpe n (t.mergeAt r l) | none => l

/-- Identifier of a byte. -/
def TokTab.byteId (t : TokTab) (x : Byte × Nat) : Nat × Nat := (t.byteIds.getD x.1.toNat 0, x.2)

/-- A stretch between special strings. -/
def TokTab.stretch (t : TokTab) (l : List (Byte × Nat)) : List (Nat × Nat) :=
  let us := t.normalise (t.units l.length l)
  (t.split us.length us).flatMap (fun c => t.bpe c.length (c.map t.byteId))

/-- The longest special string at the head. -/
def TokTab.special (t : TokTab) (l : List (Byte × Nat)) : Option (Nat × Nat) :=
  (t.specials.filter (fun s => s.2.2.isPrefixOf (l.map Prod.fst))).foldl (fun best s =>
    match best with
    | some b => if b.2 < s.2.1 then some (s.1, s.2.1) else some b
    | none => some (s.1, s.2.1)) none

/-- Text cut at special strings; `cur` is the open stretch. -/
def TokTab.withSpecials (t : TokTab) : Nat → List (Byte × Nat) → List (Byte × Nat) → List (Nat × Nat)
  | 0, _, cur => t.stretch cur
  | _, [], cur => t.stretch cur
  | n + 1, x :: l, cur =>
    match t.special (x :: l) with
    | some (id, k) => t.stretch cur ++ (id, x.2) :: t.withSpecials n ((x :: l).drop (max k 1)) []
    | none => t.withSpecials n l (cur ++ [x])

/-- Identifiers and source offsets of a text job (R297, R298). -/
def TokTab.tokens (t : TokTab) (codec : Nat) (src : List Byte) : List (Nat × Nat) :=
  let l := src.zipIdx
  if codec = 0x40 then t.withSpecials l.length l []
  else if codec = 0x41 then t.stretch l
  else l.map t.byteId

end Sys2Proof.Machine
end

