-- ==== Sys2Proof/Machine/Decoders.lean ====
section
/-! DEFINITION. What the Huller's engines make of input units: support, concealment, reference damage, output order, and the objects that
they put out (R275, R276, R281 to R283, R286 to R293 of spec file 11). The standards' own syntax and arithmetic are open functions of
Config (log entry 9); the readings of the rules of R291 are log entry 47. -/

namespace Sys2Proof.Machine

/-! ## Units (R275, R276) -/

/-- Units that stand behind their 16-bit lengths; the last one may lack bytes. -/
def lengthUnits : Nat → List Byte → List (List Byte)
  | 0, _ => []
  | n + 1, b => if b.length < 2 then [] else
      let l := 2 + leNat (b.take 2)
      b.take l :: lengthUnits n (b.drop l)

/-- Bytes of a PCM frame. -/
def pcmFrame (k : Coding) : Nat := let (d, _, ch, _) := Config.pcmFormat k.setup; max 1 (d / 8 * ch)

/-- The input units of a source: PCM and the length-prefixed codecs as R276 lays them out. -/
def unitsOf (k : Coding) (src : List Byte) : List (List Byte) :=
  if k.codec = 0x30 then chunks (pcmFrame k) src.length src
  else if k.codec = 0x33 ∨ k.codec = 0x35 then lengthUnits src.length src
  else Config.unitSplit k src

/-- A PCM frame: 16-, 24- or 32-bit integers, or binary32 values, little-endian and interleaved (R276, R287). -/
def pcmUnit (k : Coding) (u : List Byte) : UnitInfo × AudioOut :=
  let (d, fl, ch, rate) := Config.pcmFormat k.setup
  let b := d / 8
  let v (c : Nat) : Int := let x := (u.drop (c * b)).take b; if fl then leNat x else sbits (leNat x) 0 d
  ({ header := 1, rap := true, profile := if fl then .pcmFloat else .pcmInt, channels := ch, rate := rate, depth := d, frames := 1 },
   { intact := u.length == pcmFrame k, depth := if fl then 0 else d, chans := (List.range ch).map (fun c => [v c]) })

/-- What an engine reads in a unit. -/
def readUnit (k : Coding) (u : List Byte) : UnitInfo := if k.codec = 0x30 then (pcmUnit k u).1 else Config.unitInfo k u

/-- An audio unit decoded. -/
def readAudio (k : Coding) (u : List Byte) : AudioOut := if k.codec = 0x30 then (pcmUnit k u).2 else Config.decodeAudio k u

/-! ## Support (R282, R286, R287) -/

/-- A picture of subsampled colour, or grey where that is supported, of a supported depth. -/
def PicInfo.within (p : PicInfo) (grey : Bool) (chromas depths : List Nat) : Bool :=
  ((p.layout == 1 && chromas.contains p.chroma) || (grey && p.layout == 0)) && depths.contains p.depth

/-- Size of a still image. -/
def PicInfo.imageFits (p : PicInfo) : Bool := p.w ≤ 32768 && p.h ≤ 32768 && p.w * p.h ≤ 2 ^ 28

/-- Channels and rate of an audio stream. -/
def UnitInfo.audioFits (u : UnitInfo) (lo hi : Nat) : Bool := 1 ≤ u.channels && u.channels ≤ 8 && lo ≤ u.rate && u.rate ≤ hi

/-- The unit uses nothing outside the tables of R282, R286 and R287. -/
def UnitInfo.supported (u : UnitInfo) (codec : Nat) : Bool :=
  u.inside && (match codec with
    | 0x10 => (u.profile == .mpeg2Main || u.profile == .mpeg2P422) && u.level ≤ 40 && u.pics.all (·.within false [1, 2] [8])
    | 0x11 => [Profile.avcBaseline, .avcMain, .avcHigh, .avcHigh10, .avcHigh422Intra].contains u.profile && u.level ≤ 52
        && u.pics.all (fun p => p.within false [1] [8, 9, 10] || (u.intraOnly && p.within false [2] [8, 9, 10]))
    | 0x12 => [Profile.hevcMain, .hevcMain10, .hevcMain42210].contains u.profile && u.level ≤ 52 && u.pics.all (·.within false [1, 2] [8, 10])
    | 0x13 => u.profile == .av1Main && u.level ≤ 51 && u.pics.all (·.within true [1] [8, 10])
    | 0x20 => (u.profile == .jpegBaseline || u.profile == .jpegProgressive) && (u.comps == 1 || u.comps == 3)
        && u.pics.all (fun p => p.imageFits && p.depth == 8)
    | 0x21 => u.profile == .png && u.pics.all (fun p => p.imageFits && 1 ≤ p.depth && p.depth ≤ 16)
    | 0x30 => u.audioFits 8000 192000 && (if u.profile = .pcmFloat then u.depth == 32 else u.depth == 16 || u.depth == 24 || u.depth == 32)
    | 0x31 => (u.profile == .layer2 || u.profile == .layer3) && u.audioFits 1 192000
    | 0x32 => (u.profile == .aacLc || u.profile == .heAac) && u.audioFits 1 96000
    | 0x33 => (u.profile == .aacLc || u.profile == .heAac) && u.audioFits 1 96000
    | 0x34 => u.profile == .flac && u.audioFits 1 192000 && 4 ≤ u.depth && u.depth ≤ 24
    | 0x35 => u.profile == .opus && u.audioFits 48000 48000
    | _ => false)

/-- A picture exceeds the size that the stream's opening declares (R281). -/
def DecCtx.tooSmall (c : DecCtx) (u : UnitInfo) : Bool :=
  c.inUse && u.pics.any (fun p => c.width < p.codedW || c.height < (if p.pair = 0 then 1 else 2) * p.codedH)

/-! ## Pictures (R288, R291) -/

/-- Header of R288 as the size fields and the stream give it; `w` × `h` may be the coded size. -/
def PicInfo.head (p : PicInfo) (w h : Nat) (damaged : Bool) (conc index ordinal pts : Nat) : Nat :=
  packBits [(16, w), (16, h), (3, p.layout), (2, if p.layout = 1 then p.chroma else 0), (5, p.depth), (1, b2n p.full), (2, p.field), (1, b2n damaged),
    (2, 0), (8, p.primaries), (8, p.transfer), (8, p.matrix), (8, 0), (16, conc), (48, index), (16, ordinal), (64, pts)]

/-- Width and height of the coded planes. -/
def PicInfo.planes (p : PicInfo) : List (Nat × Nat) := picPlanes (p.head p.codedW p.codedH false 0 0 0 0)

/-- Place of the first sample of plane `i` among the picture's samples. -/
def PicInfo.planeAt (p : PicInfo) (i : Nat) : Nat := ((p.planes.take i).map (fun x => x.1 * x.2)).sum

/-- The value that stands for a sample without any source: 2^(d - 1), and full opacity in alpha (R291). -/
def PicInfo.grey (p : PicInfo) : List Nat :=
  p.planes.zipIdx.flatMap (fun x =>
    List.replicate (x.1.1 * x.1.2) (if (p.layout = 2 ∧ x.2 = 1) ∨ (p.layout = 4 ∧ x.2 = 3) then 2 ^ p.depth - 1 else 2 ^ (p.depth - 1)))

/-- What lost samples of a picture take: the co-located ones of the most recent decoded reference picture, or 2^(d - 1) where there is
none; a picture of another size or form has none (R291; log entry 47). -/
def PicInfo.fill (p : PicInfo) (recent : Option DecPic) : List Nat :=
  match recent with
  | some r => if r.info.planes = p.planes && r.info.layout = p.layout && r.info.depth = p.depth then r.samples.map Prod.fst else p.grey
  | none => p.grey

/-- An intact part goes into a picture: what refines samples leaves lost ones alone. -/
def DecPic.part (p : DecPic) (k : Coding) (refs : List DecPic) (part : List Byte) : DecPic :=
  let o := Config.decodePart k p.info (p.samples.map Prod.fst) (refs.map (fun r => r.samples.map Prod.fst)) part
  let hurt := o.reads.any (fun x => match refs[x.1]? with | some r => (match r.samples[x.2]? with | some s => !s.2 | none => false) | none => false)
  { p with samples := o.samples.foldl (fun l x => l.modify x.1 (fun s => if o.refines && !s.2 then s else (x.2, true))) p.samples
           damaged := p.damaged || hurt }

/-- A picture decoded from its parts: damaged parts are discarded, and a PNG ends at the first of them (R291). A reference that the
stream never supplied is a picture of 2^(d - 1), and the picture's samples then all count as filled. -/
def decodePicture (k : Coding) (c : DecCtx) (info : PicInfo) (parts : List (Bool × List Byte)) : DecPic :=
  let find (r : Nat) : Option DecPic := c.refs.find? (fun x => x.info.key == r)
  let lacks := info.refs.any (fun r => (find r).isNone)
  let refs := info.refs.map (fun r => (find r).getD { info := info, samples := info.grey.map (fun v => (v, false)) })
  let blank : DecPic := { info := info, samples := (info.fill (if k.codec < 0x20 then c.recent else none)).map (fun v => (v, false)) }
  let used := if k.codec = 0x21 then parts.takeWhile (fun x => x.1) else parts.filter (fun x => x.1)
  let p := if info.repeats then { (refs.headD blank) with info := info } else used.foldl (fun p x => p.part k refs x.2) blank
  if lacks then { p with samples := p.samples.map (fun s => (s.1, false)), damaged := true } else p

/-- Rows of two fields by turns, plane by plane. -/
def weave (w : Nat) : Nat → List (Nat × Bool) → List (Nat × Bool) → List (Nat × Bool)
  | 0, _, _ => []
  | n + 1, a, b => a.take w ++ b.take w ++ weave w n (a.drop w) (b.drop w)

/-- The frame of a field pair (R283): it carries what the job of its first field gives it (log entry 47). -/
def joinFields (first second : DecPic) : DecPic :=
  let i := first.info
  let (top, bottom) := if i.pair = 1 then (first, second) else (second, first)
  let rows := i.planes.zipIdx.flatMap (fun x =>
    weave x.1.1 x.1.2 (top.samples.drop (i.planeAt x.2)) (bottom.samples.drop (i.planeAt x.2)))
  { first with info := { i with codedH := 2 * i.codedH, cropY := 2 * i.cropY, h := 2 * i.h, pair := 0, field := if i.pair = 1 then 1 else 2 }
               samples := rows, damaged := first.damaged || second.damaged }

/-- Luma samples in the cropping window, and those of them that were filled (R292). -/
def DecPic.luma (p : DecPic) : Nat := p.info.w * p.info.h
def DecPic.filled (p : DecPic) : Nat :=
  ((List.range p.info.h).map (fun y =>
    ((((p.samples.drop ((p.info.cropY + y) * p.info.codedW + p.info.cropX)).take p.info.w).filter (fun s => !s.2)).length))).sum

/-- CONCEALED of `f` filled samples of `n` (R292). -/
def concealed (f n : Nat) : Nat := ceilDiv (f * 65535) n

/-- Bytes up to the next 64-byte boundary. -/
def pad64 (b : List Byte) : List Byte := b ++ List.replicate (roundUp b.length 64 - b.length) 0

/-- Runs of bytes at 64-byte boundaries, one behind the other. -/
def packObjects (l : List (List Byte)) : List Byte := l.foldl (fun b x => pad64 b ++ x) []

/-- A decoded picture as it is put out: its header and the planes of its cropping window (R288). -/
def DecPic.object (p : DecPic) : List Byte :=
  let i := p.info
  let h := i.head i.w i.h p.damaged (concealed p.filled p.luma) p.index p.ordinal p.pts
  let sub (k x : Nat) (f : Nat → Nat) : Nat := if i.layout = 1 ∧ k ≠ 0 then x / f h else x
  leBytes 64 h ++ ((picPlanes h).zip i.planes).zipIdx.flatMap (fun x =>
    let ((w, n), (cw, _)) := x.1
    (List.range n).flatMap (fun y =>
      pad64 (((p.samples.drop (i.planeAt x.2 + (sub x.2 i.cropY chromaSy + y) * cw + sub x.2 i.cropX chromaSx)).take w).flatMap (fun s => leBytes 2 s.1))))

/-! ## Jobs (R283, R288, R289, R291 to R293) -/

/-- What the decoding of a job has come to. -/
structure Decode where
  ctx : DecCtx            -- its stream context
  out : List DecPic := [] -- pictures put out, in output order
  coded : Nat := 0        -- pictures that its units have coded
  corrupt : Bool := false -- a unit that could not be decoded (R293)
  outside : Bool := false -- a unit outside support
  chans : List (List Nat) := [] -- FP32 patterns of each channel
  rate : Nat := 0
  filled : Nat := 0       -- audio samples filled
  deriving DecidableEq, Repr

/-- A stream that waits for a valid header with a random access point; what the engine knew of it is gone (R293, R294, R321). -/
def DecCtx.break (c : DecCtx) : DecCtx := { c with broken := true, state := [], refs := [], recent := none, held := [], field := none }

/-- A picture takes its place in output order. -/
def insertPic (p : DecPic) (l : List DecPic) : List DecPic :=
  l.takeWhile (fun x => x.info.order ≤ p.info.order) ++ p :: l.dropWhile (fun x => x.info.order ≤ p.info.order)

/-- A frame is ready: under LIVE it is output at once, otherwise in the standard's order (R283). -/
def Decode.frame (d : Decode) (live : Bool) (p : DecPic) : Decode :=
  if live then (if p.info.shown then { d with out := d.out ++ [p] } else d)
  else
    let held := if p.info.drop then [] else d.ctx.held
    let held := if p.info.shown then insertPic p held else held
    { d with ctx := { d.ctx with held := held.dropWhile (fun x => x.info.order ≤ p.info.bump) }
             out := d.out ++ held.takeWhile (fun x => x.info.order ≤ p.info.bump) }

/-- A first field whose second never came is output with that field filled (log entry 47). -/
def Decode.closeField (d : Decode) (live : Bool) : Decode :=
  match d.ctx.field with
  | none => d
  | some f => { d with ctx := { d.ctx with field := none } }.frame live
      (joinFields f { f with samples := (f.info.fill d.ctx.recent).map (fun v => (v, false)) })

/-- A picture has been decoded: it is available for reference, and its frame may be ready. -/
def Decode.picture (d : Decode) (live : Bool) (p : DecPic) : Decode :=
  let c := d.ctx
  let refs := c.refs.filter (fun r => p.info.keep.contains r.info.key) ++ (if p.info.isRef then [p] else [])
  let d := { d with ctx := { c with refs := refs, recent := if p.info.isRef then some p else c.recent }, coded := d.coded + 1 }
  match c.field with
  | some f => if p.info.second then { d with ctx := { d.ctx with field := none } }.frame live (joinFields f p)
    else
      let d := d.closeField live
      if p.info.pair = 0 then d.frame live p else { d with ctx := { d.ctx with field := some p } }
  | none => if p.info.pair = 0 then d.frame live p else { d with ctx := { d.ctx with field := some p } }

/-- FP32 pattern of an audio sample: q x 2^-(d - 1) of an integer of depth d (R289; a 32-bit one rounds to nearest: log entry 47). -/
def audioCode (depth : Nat) (q : Int) : Nat := if depth = 0 then q.toNat % 2 ^ 32 else fp32Code (rn (XR.ofQ (Q.mk' q (2 ^ (depth - 1)))))

/-- An audio unit goes behind what the job has decoded; a lost one leaves zero samples, or Opus's concealment (R291). -/
def Decode.audio (d : Decode) (k : Coding) (i : UnitInfo) (u : List Byte) : Decode :=
  let a := readAudio k u
  let lost : List (List Int) := if k.codec = 0x35 then Config.opusConceal k i.channels i.frames else List.replicate i.channels (List.replicate i.frames 0)
  let new := (if a.intact then a.chans else lost).map (fun l => l.map (audioCode (if a.intact then a.depth else 0)))
  { d with chans := (List.range (max d.chans.length i.channels)).map (fun c => d.chans.getD c [] ++ new.getD c []), rate := i.rate
           filled := d.filled + (if a.intact then 0 else i.channels * i.frames), ctx := { d.ctx with state := Config.decoderState k u, broken := false } }

/-- One unit of a job (R281, R282, R291, R293): nothing follows a unit outside support. -/
def Decode.unit (live : Bool) (index pts : Nat) (k : Coding) (d : Decode) (u : List Byte) : Decode :=
  let k := { k with state := d.ctx.state }
  let i := readUnit k u
  if d.outside then d
  else if i.header = 2 || (d.ctx.broken && !(i.header = 1 && i.rap)) then { d with corrupt := true, ctx := d.ctx.break }
  else if !i.supported k.codec || d.ctx.tooSmall i then { d with outside := true }
  else if 0x30 ≤ k.codec then d.audio k i u
  else
    let d := i.pics.zipIdx.foldl (fun d x =>
      let p := decodePicture k d.ctx x.1 (Config.picParts k u x.2)
      d.picture live { p with index := index, pts := pts, ordinal := d.coded }) { d with ctx := { d.ctx with broken := false } }
    { d with ctx := { d.ctx with state := Config.decoderState k u } }

/-- FLUSH: every picture still held is output (R277, R283). -/
def Decode.flush (d : Decode) (live : Bool) : Decode :=
  let d := d.closeField live
  { d with out := d.out ++ d.ctx.held, ctx := { d.ctx with held := [] } }

/-- A job's source decoded. -/
def decodeJob (live flush : Bool) (index pts : Nat) (k : Coding) (c : DecCtx) (src : List Byte) : Decode :=
  let d := (unitsOf k src).foldl (Decode.unit live index pts k) { ctx := c }
  if flush then d.flush live else d

/-- Decoded audio as it is put out (R289). -/
def Decode.audioObject (d : Decode) (index pts : Nat) : List Byte :=
  let n := (d.chans.headD []).length
  packObjects (leBytes 64 (packBits [(8, d.chans.length), (24, d.rate), (32, n), (16, concealed d.filled (d.chans.length * n)), (48, index), (64, pts)])
    :: d.chans.map (fun c => c.flatMap (leBytes 4)))

/-- The objects of a job, and the CONCEALED of the job (R288, R289, R292). -/
def Decode.result (d : Decode) (audio : Bool) (index pts : Nat) : List (List Byte) × Nat :=
  if audio then
    (if d.chans = [] then [] else [d.audioObject index pts], concealed d.filled (d.chans.length * (d.chans.headD []).length))
  else (d.out.map DecPic.object, concealed (d.out.map DecPic.filled).sum (d.out.map DecPic.luma).sum)

end Sys2Proof.Machine
end

