-- ==== Sys2Proof/Machine/IngestOps.lean ====
section
/-! DEFINITION. Operations of the Huller and the sample shaper: job records and completion records, table generations, engines,
samples, slots and late policies (R272 to R302 of spec file 11, R303 to R323 of 12, R462 to R464 of 17). -/

namespace Sys2Proof.Machine

/-! ## Job records (R276, R277) -/

def jCodec (r : Nat) : Nat := bits r 0 8
def jCtx (r : Nat) : Nat := bits r 8 6
def jMemory (r : Nat) : Bool := bit r 14
def jLive (r : Nat) : Bool := bit r 15
def jFlush (r : Nat) : Bool := bit r 16
def jOffsets (r : Nat) : Bool := bit r 17
def jGen (r : Nat) : Nat := bits r 32 32
def jSrc (r : Nat) : Nat := bits r 64 48
def jLen (r : Nat) : Nat := bits r 128 32
def jIndex (r : Nat) : Nat := bits r 160 48
def jSeg (r : Nat) : Nat := bits r 208 8
def jLimit (r : Nat) : Nat := bits r 216 16
def jBudget (r : Nat) : Nat := bits r 232 16
def jDest (r : Nat) : Nat := bits r 256 48
def jDestLen (r : Nat) : Nat := bits r 320 32
def jTag (r : Nat) : Nat := bits r 352 32
def jPts (r : Nat) : Nat := bits r 384 64

/-- RESULT values (R279). -/
def resOk : Nat := 0
def resConcealed : Nat := 1
def resCorrupt : Nat := 2
def resUnsupported : Nat := 3
def resTableGen : Nat := 4
def resOverflow : Nat := 5
def resWithdrawn : Nat := 6
def resPoisoned : Nat := 7

/-- Region that a codec's segments go to (R276, R304); none for a reserved value. -/
def codecRegion (c : Nat) : Option Nat :=
  if 0x40 ≤ c && c ≤ 0x42 then some 0
  else if c = 0x20 ∨ c = 0x21 then some 1
  else if 0x10 ≤ c && c ≤ 0x13 then some 2
  else if 0x30 ≤ c && c ≤ 0x35 then some 3
  else none

/-- The job's region. -/
def Job.region (j : Job) : Nat := (codecRegion (jCodec j.record)).getD 0
/-- The job has a stream context (R277, R280). -/
def Job.hasCtx (j : Job) : Bool := 2 ≤ j.region
/-- Two jobs belong to one stream. -/
def Job.sameCtx (a b : Job) : Bool := a.hasCtx && b.hasCtx && jCtx a.record == jCtx b.record

/-! ## Rings (R462) -/

def Ing.ring (g : Ing) (n : Nat) : Ring := Tab.get {} g.rings n
def Ing.updRing (g : Ing) (n : Nat) (f : Ring → Ring) : Ing := { g with rings := Tab.upd {} g.rings n f }
def Dev.updIng (d : Dev) (f : Ing → Ing) : Dev := { d with ing := f d.ing }

/-- Entries between the consumer index and TAIL. -/
def Ring.waiting (r : Ring) : Nat := (r.tail + 2 ^ 32 - r.head) % 2 ^ 32
/-- Address of entry `i`. -/
def Ring.at_ (r : Ring) (i : Nat) : Nat := r.entry + 64 * (i % 2 ^ r.log2)
/-- Entry `i` as a number. -/
def Dev.ringEntry (d : Dev) (r : Ring) (i : Nat) : Nat := rdNat d.mem (r.at_ i) 64

/-- The heads of a ring's areas: the producer indices, and the consumer index beside the first. -/
def Dev.putCompHead (d : Dev) (n : Nat) : Dev := let r := d.ing.ring n; d.storeNat r.comp 8 (packBits [(32, r.compIdx), (32, r.head)])

/-- Device time at which entry `i` was handed over: that of the first doorbell that covers it (R377; log entry 23). -/
def Ring.rungAt (r : Ring) (i now : Nat) : Nat :=
  match r.bells.find? (fun b => 0 < (b.1 + 2 ^ 32 - i) % 2 ^ 32 && (b.1 + 2 ^ 32 - i) % 2 ^ 32 < 2 ^ 31) with | some b => b.2 | none => now

/-- The consumer index moves on by `k` entries; doorbells that it passes are done. -/
def Ring.eat (r : Ring) (k : Nat) : Ring :=
  let h := (r.head + k) % 2 ^ 32
  { r with head := h, bells := r.bells.filter (fun b => 0 < (b.1 + 2 ^ 32 - h) % 2 ^ 32 && (b.1 + 2 ^ 32 - h) % 2 ^ 32 < 2 ^ 31) }

/-- The consumer index moves on by `k` entries. -/
def Dev.eatEntries (d : Dev) (n k : Nat) : Dev := (d.updIng (fun g => g.updRing n (·.eat k))).putCompHead n

/-! ## Table generations (R299 to R302) -/

/-- First address and size of a slot of TABLES (R273). -/
def tableSlot (media : Bool) (q : Nat) : Nat := if media then hullerBase + 0x1800000 + q * 0x40000 else hullerBase + q * 0x600000
def tableRoom (media : Bool) : Nat := if media then 0x40000 else 0x600000

def Ing.newest (g : Ing) (media : Bool) : Option Gen := g.gens.find? (fun x => x.media == media && x.newest)
def Ing.gen (g : Ing) (media : Bool) (n : Nat) : Option Gen := g.gens.find? (fun x => x.media == media && x.num == n)

/-- Image of a generation, as it stands in its slot; no bytes where there is none. -/
def Dev.genBytes (d : Dev) (media : Bool) (n : Nat) : List Byte :=
  match d.ing.gen media n with | some x => rdBytes d.mem (tableSlot media x.slot) x.len | none => []

/-- The colour matrices of a MEDIA generation (R314). -/
def Dev.genMats (d : Dev) (n : Nat) : List Byte := (d.genBytes true n).take 1024

/-- A text job uses a TOKEN generation, every other job a MEDIA generation (R301; log entry 32). -/
def Job.media (j : Job) : Bool := j.region != 0

/-- The generation is bound: by a job that is queued or running, or by a sample that is not filled (R302, R314). -/
def Ing.bound (g : Ing) (x : Gen) : Bool :=
  g.jobs.any (fun j => j.media == x.media && j.gen == x.num) || (x.media && g.samples.any (fun y => !y.filled && y.gen == x.num))

/-- Generations that are neither newest, loading nor bound retire (R302). -/
def Ing.retire (g : Ing) : Ing := { g with gens := g.gens.filter (fun x => x.newest || x.loading != 0 || g.bound x) }

/-! ## Completion records (R278, R462) -/

/-- The 32 bytes of a completion record. -/
def Job.word (j : Job) (res conc units now : Nat) : Nat :=
  packBits [(32, jTag j.record), (8, res), (8, j.lastEngine), (16, conc), (32, j.gen), (48, jIndex j.record), (16, 0), (32, units), (64, now)]

/-- The record goes to the ring's completion area. -/
def Dev.putRecord (d : Dev) (j : Job) (res conc units : Nat) : Dev :=
  let r := d.ing.ring j.ring
  ((d.storeNat (r.comp + 64 + 32 * (r.compIdx % 2 ^ r.log2)) 32 (j.word res conc units d.plat.now)).updIng (fun g =>
    g.updRing j.ring (fun r => { r with compIdx := (r.compIdx + 1) % 2 ^ 32 }))).putCompHead j.ring

/-- A ring that closes and has no job left is free; its command is done. -/
def Dev.endRing (d : Dev) (n : Nat) : Dev :=
  let r := d.ing.ring n
  if r.closing = 0 || d.ing.jobs.any (fun j => j.ring == n) then d
  else ({ d with ing := { d.ing with rings := Tab.set {} d.ing.rings n {} }, host := d.host.setOwner (0x28 + n) 0 }).finish r.closing stDone 0 []

/-- A job is complete: its record is written, its binding and its engine are free (R278, R302), and no job queues behind it. -/
def Dev.endJob (d : Dev) (j : Job) (res conc units : Nat) : Dev :=
  let d := (d.putRecord j res conc units).trace 0x0D 4 j.lastEngine (jTag j.record) res (jIndex j.record)
  let g := match j.engine with | some b => d.ing.addBusy b j.started d.plat.now | none => d.ing
  let rest := (g.jobs.filter (fun k => k.id != j.id)).map (fun k => { k with ahead := k.ahead.filter (· != j.id) })
  let pow := match j.engine with | some b => d.pow.idle (66 + b) d.plat.now | none => d.pow
  ({ d with pow := pow, ing := { g with jobs := rest }.retire }).endRing j.ring

/-- ns of engine time that a job has taken so far (R320). -/
def Job.time (j : Job) (now : Nat) : Nat := j.ran + (if j.engine.isSome then now - j.started else 0)

/-! ## Engines (R272, R280, R388) -/

/-- A live stream reserves the video engine. -/
def Dev.engineHeld (d : Dev) (e : Nat) : Bool := d.host.own (0xA0 + e) != 0

/-- The open stream that a live job belongs to (R461). -/
def Dev.jobStream (d : Dev) (j : Job) : Option Nat :=
  if jLive j.record then
    firstIdx (fun n => let s := d.cad.stream n; s.opened && srRing s.record == j.ring && srContext s.record == jCtx j.record) 16
  else none

/-- The job waits, its generation is loaded, and its stream lets it run: no other job of the stream runs, and none that came before it
waits. -/
def Ing.mayRun (g : Ing) (j : Job) : Bool :=
  j.engine.isNone && !j.withdrawn && !g.gens.any (fun x => x.media == j.media && x.num == j.gen && x.loading != 0) && g.jobs.all (fun k => k.id == j.id || !j.sameCtx k || (k.engine.isNone && j.id < k.id))

/-- A block can run the job (R280). -/
def Dev.blockTakes (d : Dev) (b : Nat) (j : Job) : Bool :=
  let r := j.region
  if b < 8 then
    r == 2 && (if d.engineHeld b then (match d.jobStream j with | some n => srEngine (d.cad.stream n).record == b | none => false)
      else !jLive j.record)
  else if b < 12 then r == 1
  else if b = 12 then r == 3
  else b < 15 && r == 0

/-- The block is free, and its domain is ON or may be brought up. -/
def Dev.blockFree (d : Dev) (b : Nat) : Bool :=
  !d.ing.jobs.any (fun j => j.engine == some b) && (d.pow.on (66 + b) || (d.pow.dom (66 + b)).hold != 2)

/-- An earlier block of the same kind is free: image engines and tokenizers are taken lowest number first. -/
def Dev.lowerFree (d : Dev) (b : Nat) : Bool :=
  (List.range b).any (fun c => ((8 ≤ c && b < 12) || (c == 13 && b == 14)) && d.blockFree c)

/-- The job that a free block starts next: on the audio engine and the tokenizers a live one first, otherwise the oldest (R280). -/
def Dev.blockJob (d : Dev) (b : Nat) : Option Job :=
  let l := d.ing.jobs.filter (fun j => d.ing.mayRun j && d.blockTakes b j)
  match l.find? (fun j => 12 ≤ b && jLive j.record) with | some j => some j | none => l.head?

/-- What an engine reads the units of a job with. -/
def Dev.coding (d : Dev) (j : Job) : Coding :=
  { codec := jCodec j.record, setup := if j.region = 3 then Config.ctxSetup (jCtx j.record) else []
    tables := if jCodec j.record = 0x20 then d.genBytes true j.gen else [] }

/-- Spill bytes that the working planes of a job's still images take: of those above 4,194,304 pixels (R274). How many the spec does not
say, nor what a spill area too full for them does: the image decodes all the same, DESIGN CHOICE (log entry 46). -/
def Dev.imageSpill (d : Dev) (j : Job) : Nat :=
  if j.region != 1 then 0
  else
    let k := d.coding j
    ((unitsOf k (rdBytes d.mem (jSrc j.record) (jLen j.record))).flatMap (fun u => (Config.unitInfo k u).pics)).foldl
      (fun n p => n + (if 4194304 < p.w * p.h then Config.imagePlanes k.codec p else 0)) 0

/-- The job starts on the block; a stream that comes from another video engine moves first (R281). -/
def Ing.runOn (g : Ing) (b : Nat) (j : Job) (now spill : Nat) : Ing :=
  let c := Tab.get {} g.ctxs (jCtx j.record)
  let moved := b < 8 && (match c.engine with | some e => e != b | none => false)
  { g with jobs := g.jobs.map (fun k => if k.id = j.id then { k with engine := some b, started := now, paused := false, moved := moved, spill := spill, lastEngine := b } else k),
           ctxs := if b < 8 then Tab.upd {} g.ctxs (jCtx j.record) (fun c => { c with engine := some b }) else g.ctxs }

/-- HULLER_JOB_START takes place: the block's job starts, or its domain is asked for. -/
def Dev.startJob (d : Dev) (b : Nat) : Option Dev :=
  if b < 15 && d.blockFree b && !d.lowerFree b then
    (d.blockJob b).map (fun j =>
      if d.pow.runs (66 + b) then d.updIng (fun g => g.runOn b j d.plat.now (d.imageSpill j)) else d.demand (66 + b))
  else none

/-- A live job that the non-live job on the audio engine or a tokenizer gives way to: no other block could take it (R280). -/
def Dev.waitsFor (d : Dev) (b : Nat) (j : Job) : Option Job :=
  if b < 12 || 14 < b || jLive j.record || (b != 12 && (d.blockFree 13 || d.blockFree 14)) then none
  else (d.blockJob b).filter (fun k => jLive k.record)

/-- HULLER_LIVE_PREEMPT takes place: a live job starts at the latest 100 us into the non-live job's running time, which goes on later
(R280). -/
def Dev.preemptJob (d : Dev) (b : Nat) : Option Dev :=
  match d.ing.jobs.find? (fun j => j.engine == some b) with
  | some j => if d.pow.runs (66 + b) then (d.waitsFor b j).map (fun k => d.updIng (fun g => (g.unload b d.plat.now).runOn b k d.plat.now 0)) else none
  | none => none

/-! ## The ingest profile (R303, R313, R463) -/

def Ing.prof (g : Ing) : Nat := g.profile.getD 0
/-- Capacity of a region (R303). -/
def capOf (p r : Nat) : Nat := match r with | 0 => bits p 0 32 | 1 => bits p 32 8 | 2 => bits p 40 16 | _ => bits p 64 32
/-- Planes of a region: the channels of AUDIO. -/
def planesOf (p r : Nat) : Nat := if r = 3 then bits p 536 8 else 1
def pfPix (p : Nat) : PixFmt := { fmt := bits p 224 16, mean := bits p 256 96, istd := bits p 352 96, map := bits p 448 64 }
def pfPolicy (p : Nat) : Nat := bits p 664 8

/-- The run seed that keys the augmentation: that of the training plan (R318). -/
def Dev.runSeed (d : Dev) : Option Nat := ((d.plans.find? (fun e => !e.2.live && e.2.ready)).bind (fun e => e.2.run)).map rsSeed

/-- Augmentation under a profile with the bits `en` and a seed. -/
def profAug (p en seed : Nat) : Aug :=
  { en := en, kmin := bits p 592 16, kmax := bits p 608 16, flipP := bits p 624 32, gain := bits p 656 8, seed := seed }

/-! ## Writes into a batch (R303 to R306, R313) -/

/-- Consecutive positions of a plane of region `r` and slot `b`, from position `start` on, go to every pod that holds them; the planes of an
audio region stand AUDIO_CAP positions apart (R303, R313). -/
def Dev.putRun (d : Dev) (r j b plane start : Nat) (xs : List (List Byte)) : Dev :=
  ([0, 1, 2, 3] : List Nat).foldl (fun d pod =>
    let x := d.ing.dests.getD (4 * r + pod) 0
    let lo := max start (dsFirst x)
    let hi := min (start + xs.length) (dsFirst x + dsCount x)
    let w := posBytes d.ing.prof r
    if lo < hi then
      d.store (dsBase x + j * dsBuf x + b * dsSlot x + plane * bits d.ing.prof 64 32 * w + (lo - dsFirst x) * w) ((xs.drop (lo - start)).take (hi - lo)).flatten
    else d) d

/-- Mask bytes of the positions of a slot, from position 0 on. -/
def Dev.putMask (d : Dev) (r j b : Nat) (xs : List Byte) : Dev :=
  ([0, 1, 2, 3] : List Nat).foldl (fun d pod =>
    let x := d.ing.dests.getD (4 * r + pod) 0
    let hi := min xs.length (dsFirst x + dsCount x)
    if dsFirst x < hi then d.store (dsMask x + j * dsMaskBuf x + b * dsMaskSlot x) ((xs.drop (dsFirst x)).take (hi - dsFirst x)) else d) d

/-- The bytes of a padding position (R305). -/
def padBytes (p r : Nat) : List Byte := if r = 0 then leBytes 4 (bits p 96 32) else List.replicate (posBytes p r) 0

/-- Positions of a region that a sample's segments take. -/
def validOf (segs : List SampleSeg) (r : Nat) : Nat := ((segs.filter (fun s => s.region == r)).map (fun s => s.len)).sum

/-- One entry of a segment table (R306). -/
def SampleSeg.entry (s : SampleSeg) : Nat := packBits [(2, s.region), (8, s.num), (24, s.start), (24, s.len), (6, 0), (64, s.pts)]

/-- VALID_LEN and segment table of slot `b` in the batch header of every pod (R306). -/
def Dev.putHeader (d : Dev) (j b : Nat) (segs : List SampleSeg) : Dev :=
  ([0, 1, 2, 3] : List Nat).foldl (fun d pod =>
    let a := d.ing.headerAt j pod
    let d := ([0, 1, 2, 3] : List Nat).foldl (fun d r => d.storeNat (a + 4 * (16 * r + b)) 4 (validOf segs r)) d
    d.store (a + 256 + 4096 * b) ((List.range 256).flatMap (fun e => leBytes 16 (match segs[e]? with | some s => s.entry | none => 0)))) d

/-- Padding and mask of slot `b` in buffer `j`: a pad sample's mask reads `pad` throughout (R305). -/
def Dev.putPadding (d : Dev) (j b pad : Nat) (segs : List SampleSeg) : Dev :=
  ([0, 1, 2, 3] : List Nat).foldl (fun d r =>
    let p := d.ing.prof
    let v := validOf segs r
    let n := capOf p r - v
    let d := (List.range (planesOf p r)).foldl (fun d c => d.putRun r j b c v (List.replicate n (padBytes p r))) d
    d.putMask r j b (if pad = 0 then List.replicate v 1 ++ List.replicate n 0 else List.replicate (capOf p r) (BitVec.ofNat 8 pad))) d

/-- A segment takes its place by number. -/
def insertSeg (s : SampleSeg) (l : List SampleSeg) : List SampleSeg := l.takeWhile (fun x => x.num < s.num) ++ s :: l.dropWhile (fun x => x.num < s.num)

/-! ## Samples and batches (R309 to R312, R319 to R323) -/

def Ing.sample (g : Ing) (o : Nat) : Option Sample := g.samples.find? (fun s => s.ord == o)
def Ing.updSample (g : Ing) (o : Nat) (f : Sample → Sample) : Ing := { g with samples := g.samples.map (fun s => if s.ord = o then f s else s) }
/-- Number of the batch that ordinal `o` goes to, counted on from the ring's epoch. -/
def Ing.batchNum (g : Ing) (o : Nat) : Nat := g.epoch + o / 16
def Ing.batch (g : Ing) (k : Nat) : Option Batch := g.batches.find? (fun b => b.num == k)
def Ing.updBatch (g : Ing) (k : Nat) (f : Batch → Batch) : Ing := { g with batches := g.batches.map (fun b => if b.num = k then f b else b) }

/-- Decode time of a sample so far (R320, R330). -/
def Dev.decodeTime (d : Dev) (s : Sample) : Nat := s.decode + ((d.ing.jobs.filter (fun j => s.jobs.contains j.id)).map (fun j => j.time d.plat.now)).sum

/-- A sample with a decode time has been finished: the figures of R324. -/
def Ing.noteDecode (g : Ing) (s : Sample) (t : Nat) : Ing :=
  { g with decSum := g.decSum + t, decN := g.decN + 1, decMax := max g.decMax t, decMaxIdx := if g.decMax < t then s.index else g.decMaxIdx }

/-- Slot of sample `s` filled, with its data (`pad` 0) or with a pad sample (R305, R319, R320, R322). -/
def Dev.fillSlot (d : Dev) (s : Sample) (pad status : Nat) : Dev :=
  let k := d.ing.batchNum s.ord
  let j := k % d.ing.buffers
  let b := s.ord % 16
  let segs := if pad = 0 then s.segs else []
  let d := (d.putPadding j b pad segs).putHeader j b segs
  let g := d.ing.updSample s.ord (fun s => { s with filled := true, pad := pad, status := status })
  let g := if status = 7 then g else g.noteDecode s (d.decodeTime s)
  let g := g.updBatch k (fun x => { x with padded := if pad = 0 then x.padded else x.padded ||| 2 ^ b, poisoned := x.poisoned || status == 8 })
  { d with pow := d.pow.idle 81 d.plat.now,
           ing := { g with media := g.media.filter (fun m => m.sample != some s.ord), done := g.done + b2n (pad == 0), padded := g.padded + b2n (pad != 0) }.retire }

/-- The job's stream waits for a valid header with a random access point (R293). -/
def Ing.breakCtx (g : Ing) (j : Job) : Ing := if j.hasCtx then { g with ctxs := Tab.upd {} g.ctxs (jCtx j.record) DecCtx.break } else g

/-- A job is withdrawn: one that runs stops at its next unit boundary, any other completes at once (R319, R321). A withdrawn video or
audio job resets its stream (R293). -/
def Dev.withdraw (d : Dev) (j : Job) : Dev :=
  if j.engine.isSome then d.updIng (fun g => { g with jobs := g.jobs.map (fun k => if k.id = j.id then { k with withdrawn := true } else k) })
  else (d.endJob j resWithdrawn 0 0).updIng (·.breakCtx j)

/-- A sample gives way to a pad sample and its jobs are withdrawn (R319, R320). -/
def Dev.padSample (d : Dev) (s : Sample) (pad status : Nat) : Dev :=
  let mine := d.ing.jobs.filter (fun j => s.jobs.contains j.id)
  mine.foldl Dev.withdraw (d.fillSlot s pad status)

/-- A faulty sample is REPLACED (R319). -/
def Dev.replaceSample (d : Dev) (o status : Nat) : Dev :=
  match d.ing.sample o with
  | some s => if s.filled then d else d.padSample s 2 status
  | none => d

/-- The ring that the shaper serves, closing or not. -/
def Ing.shaperRing (g : Ing) : Option (Nat × Ring) := g.rings.find? (fun e => e.2.on && !e.2.live)

/-- The handoff record of a late sample (R320; log entry 31). -/
def Dev.handoff (d : Dev) (s : Sample) : Dev :=
  match d.ing.shaperRing with
  | none => d
  | some (n, r) =>
    let w := packBits [(64, s.index), (64, s.pos), (64, d.plat.now)]
    let d := (d.storeNat (r.hand + 64 + 32 * (r.handIdx % 2 ^ r.log2)) 32 w).storeNat r.hand 4 ((r.handIdx + 1) % 2 ^ 32)
    d.updIng (fun g => g.updRing n (fun r => { r with handIdx := (r.handIdx + 1) % 2 ^ 32 }))

/-- A sample is late: LATE_POLICY acts on it (R320). -/
def Dev.lateSample (d : Dev) (s : Sample) : Dev :=
  let d := if s.late then d else d.updIng (fun g => { g.updSample s.ord (fun s => { s with late := true }) with lateN := g.lateN + 1 })
  match pfPolicy d.ing.prof with
  | 0 => d
  | 2 => (((d.padSample s 3 6).handoff s).count cobInst 0x43 1).count cobInst 0x44 1
  | _ => (d.padSample s 3 5).count cobInst 0x43 1

/-- Every entry of a sample has been taken. -/
def Sample.whole (s : Sample) : Bool := s.toTake == 0 && s.prepsToTake == 0

/-- Every job and segment of a sample is done: its slot takes its data. -/
def Dev.tryFill (d : Dev) (o : Nat) : Dev :=
  match d.ing.sample o with
  | some s => if !s.filled && s.whole && s.jobs == [] && s.segs.all (fun x => x.shaped) then d.fillSlot s 0 0 else d
  | none => d

/-! ## Ends of jobs -/

/-- SLOT_STATUS for a job's RESULT (R319, R323); none where the sample goes on. -/
def faultStatus (res : Nat) : Option Nat :=
  if res = resCorrupt ∨ res = resTableGen then some 1
  else if res = resUnsupported then some 2
  else if res = resPoisoned then some 8
  else none

/-- A job of a sample is complete; `ms` are the objects it made for the shaper. -/
def Dev.sampleJob (d : Dev) (o : Nat) (j : Job) (res : Nat) (ms : List Media) : Dev :=
  match d.ing.sample o with
  | none => d
  | some s =>
    if s.filled then d
    else
      let seg (x : SampleSeg) : SampleSeg := if x.num = jSeg j.record && !jMemory j.record then { x with jobs := x.jobs - 1 } else x
      let g := d.ing.updSample o (fun s => { s with jobs := s.jobs.filter (· != j.id), decode := s.decode + j.time d.plat.now, segs := s.segs.map seg, doneAt := d.plat.now })
      let d := { d with ing := { g with media := g.media ++ ms } }
      let d := if res = resOverflow && j.region == 0 then d.count cobInst 0x40 1 else d
      match faultStatus res with
      | some st => d.replaceSample o st
      | none => d.tryFill o

/-- A live job without an input for its frame decides the frame's task (R329). -/
def Dev.liveFail (d : Dev) (n : Nat) (j : Job) (res : Nat) : Dev :=
  { d with cad := d.cad.updStream n (fun s => { s with badInputs := s.badInputs ++ [(jIndex j.record, if res = resPoisoned then stParity else stAborted)] }) }

/-- A job that does no work completes as soon as it is taken: withdrawn, its generation not alive, or of a reserved codec. -/
def Dev.deadJob (d : Dev) (j : Job) (res : Nat) : Dev :=
  let d1 := d.endJob j res 0 0
  let d1 := if res = resWithdrawn then d1.updIng (·.breakCtx j) else d1
  match j.sample, d.jobStream j with
  | some o, _ => d1.sampleJob o j res []
  | none, some n => if j.region = 2 && !jMemory j.record then d1.liveFail n j res else d1
  | none, none => d1

end Sys2Proof.Machine
end

