-- ==== Sys2Proof/Machine/Ingest.lean ====
section
/-! DEFINITION. The meanings of the ingest commands 0x0601 to 0x0606 and of the events of the Huller and the sample shaper (spec files
11 and 12; R462 to R464 of 17). -/

namespace Sys2Proof.Machine

/-! ## INGEST_CONFIG (R274, R313, R463) -/

/-- A plain format word among some codes. -/
def plainCode (fw : Nat) (codes : List Nat) : Bool := codes.contains (fwCode fw) && fwOkResult fw && fwBlock fw == 0 && !fwTs fw

/-- Ranges of the profile (R303, R313, R318, R320). -/
def profileOk (p : Nat) : Bool :=
  1 ≤ bits p 0 32 && bits p 0 32 ≤ 262144 && bits p 32 8 ≤ 64 && bits p 40 16 ≤ 1024 && 2 ≤ bits p 56 8 && bits p 56 8 ≤ 4
    && bits p 64 32 ≤ 8388608 && 16 ≤ bits p 192 16 && bits p 192 16 ≤ 4096 && 16 ≤ bits p 208 16 && bits p 208 16 ≤ 4096
    && plainCode (bits p 224 16) [0, 1, 2] && plainCode (bits p 240 16) [0, 1]
    && ([0, 1, 2] : List Nat).all (fun k => fpFinite (bits p (256 + 32 * k) 32) && fpFinite (bits p (352 + 32 * k) 32))
    && 1 ≤ bits p 512 8 && 1 ≤ bits p 520 16 && bits p 520 16 ≤ 1024 && 1 ≤ bits p 536 8 && bits p 536 8 ≤ 8
    && augOk p (bits p 576 4) && bits p 664 8 ≤ 2 && bits p 768 48 % 2 ^ 20 == 0 && 1 ≤ bits p 832 16 && bits p 832 16 ≤ 16384

/-- The batch headers lie in backed pod store (R306). -/
def Dev.headersOk (d : Dev) (p : Nat) : Bool :=
  let a := bits p 704 48
  podStore 0 ≤ a && a < podStore 4 && ([0, 1, 2, 3] : List Nat).all (fun q =>
    (d.unwritable (podShift a ((a - podStore 0) / 0x10000000) q) (bits p 56 8 * headerBytes)).isNone)

/-- Bytes that a region's mask takes in a pod. -/
def maskArea (p x : Nat) : Area :=
  if dsCount x = 0 then (0, 0) else (dsMask x, (bits p 56 8 - 1) * dsMaskBuf x + 15 * dsMaskSlot x + dsCount x)

/-- A destination record names memory that the shaper can write. -/
def Dev.destOk (d : Dev) (p i x : Nat) : Bool :=
  let a := destArea p x (i / 4)
  let m := maskArea p x
  (d.unwritable a.1 a.2).isNone && (d.unwritable m.1 m.2).isNone

/-- The spill area lies in the Cob's backed GDDR7 and meets no area of a plan (R274). -/
def Dev.spillOk (d : Dev) (p : Nat) : Bool :=
  let a : Area := (bits p 768 48, bits p 832 16 * 2 ^ 20)
  (cobGddr ≤ a.1 && a.1 + a.2 ≤ cobGddr + 0x1000000000 && d.backed a.1 a.2
    && d.plans.all (fun e => e.2.areas.all (fun x => !overlaps a.1 a.2 x.2.1 x.2.2)))

/-- What check 7 of INGEST_CONFIG finds. -/
def Dev.configRefusal (d : Dev) (p : Nat) : Option (Nat × Nat × List Nat) :=
  match d.trainingPlan, d.cad.streams.find? (fun e => e.2.opened), d.ing.rings.find? (fun e => e.2.on) with
  | some x, _, _ => some (stBusy, portDetail x.port, [])
  | none, some e, _ => some (stBusy, portDetail e.2.port, [])
  | none, none, some e => some (stBusy, ownDetail (d.host.own (0x28 + e.1)) (0x28 + e.1), [])
  | none, none, none => if d.spillOk p then none else some (stNoMemory, 0, [])

/-- INGEST_CONFIG (R313, R463). -/
def execIngestConfig (q profile : Nat) (dests : List Nat) (s : State) : Res :=
  let lay := 2048 :: List.replicate 16 512
  startCmd s q 0x0601 lay (profile :: dests)
    (fun d => { param := firstBadField ((profileOk profile && d.headersOk profile, 0)
                  :: dests.zipIdx.map (fun (x, i) => (d.destOk profile i x, fieldByte lay (i + 1)))),
                own := d.configRefusal profile })
    (doneAt (fun d => d.updIng (fun g => { g with profile := some profile, dests := dests })))

/-! ## INGEST_RING, INGEST_DOORBELL, INGEST_RING_CLOSE (R311, R312, R439, R462) -/

/-- What check 7 of INGEST_RING finds: another owner, or a training ring besides. -/
def Dev.ringRefusal (d : Dev) (port ring kind : Nat) : Option (Nat × Nat × List Nat) :=
  match d.host.claimRefusal port (0x28 + ring) with
  | some x => some x
  | none =>
    if d.host.own (0x28 + ring) != 0 || kind != 0 then none
    else d.ing.shaperRing.map (fun e => (stBusy, ownDetail (d.host.own (0x28 + e.1)) (0x28 + e.1), []))

/-- A ring is configured: its indices, and for a training ring the ordinals and batch numbers, start at 0 (R311, R462). -/
def Dev.setRing (d : Dev) (port n : Nat) (r : Ring) : Dev :=
  let g := { d.ing with rings := Tab.set {} d.ing.rings n r }
  let g := if r.live then g else { g with epoch := g.epoch + 12 * 2 ^ 32 }
  let d := { d with host := d.host.setOwner (0x28 + n) (port + 1), ing := g }
  let d := d.storeNat r.comp 8 0
  if r.live then d else (d.storeNat r.batch 4 0).storeNat r.hand 4 0

/-- INGEST_RING (R439, R462); a ring that the port holds already stays as it is. -/
def execIngestRing (q ring kind log2 entryBase compBase batchBase handoffBase : Nat) (s : State) : Res :=
  let lay := [4, 1, 5, 64, 64, 64, 64]
  let a (x : Nat) : Nat := x % 2 ^ 48
  let n := 2 ^ log2
  startCmd s q 0x0602 lay [ring, kind, log2, entryBase, compBase, batchBase, handoffBase]
    (fun d => { param := firstBadField [(6 ≤ log2 && log2 ≤ 20, fieldByte lay 2), (d.backed (a entryBase) (64 * n), fieldByte lay 3),
                  ((d.unwritable (a compBase) (64 + 32 * n)).isNone, fieldByte lay 4),
                  (kind != 0 || (d.unwritable (a batchBase) (64 + 128 * 64)).isNone, fieldByte lay 5),
                  (kind != 0 || (d.unwritable (a handoffBase) (64 + 32 * n)).isNone, fieldByte lay 6)],
                own := d.ringRefusal (q / 8) ring kind })
    (doneAt (fun d =>
      if d.host.own (0x28 + ring) != 0 then d
      else d.setRing (q / 8) ring { on := true, port := q / 8, live := kind != 0, log2 := log2, entry := a entryBase, comp := a compBase,
                                    batch := a batchBase, hand := a handoffBase }))

/-- INGEST_DOORBELL (R462). -/
def execIngestDoorbell (q ring tail : Nat) (s : State) : Res :=
  startCmd s q 0x0603 [4, 32] [ring, tail]
    (fun d => { own := d.host.ownRefusal (q / 8) (0x28 + ring) })
    (doneAt (fun d => d.updIng (fun g => g.updRing ring (fun r => { r with tail := tail, bells := r.bells ++ [(tail, d.plat.now)] }))))

/-- A step of the training ring still waits for its batch. -/
def Dev.lacksBatch (d : Dev) (r : StepRun) : Bool := match r.batch with | some k => d.ing.epoch ≤ k && !d.ing.batchReady k | none => false

/-- Steps that wait for a batch of the closing ring, and the steps behind them, end with ABORTED (R312, R458). -/
def Dev.abortUnfed (d : Dev) (h : Nat) : Dev :=
  let p := d.plan h
  let lacks (r : Option StepRun) : Bool := match r with | some r => d.lacksBatch r | none => false
  if lacks p.cur then (d.updPlan h (fun p => { p with cur := p.cur.map (fun r => r.fail stAborted 0 0) })).abortNext h
  else if lacks p.overlap then d.updRun h true (fun r => r.fail stAborted 0 0)
  else if (match p.next with | some n => (match n.batch with | some k => d.ing.epoch ≤ k && !d.ing.batchReady k | none => false) | none => false)
    then d.abortNext h
  else d

/-- A batch that a step in progress reads. -/
def Dev.batchInUse (d : Dev) (k : Nat) : Bool :=
  d.plans.any (fun e => let r (x : Option StepRun) : Bool := match x with | some x => x.batch == some k | none => false
    r e.2.cur || r e.2.overlap || (match e.2.next with | some n => n.batch == some k | none => false))

/-- The ring closes: its jobs are withdrawn and, for a training ring, its samples and batches go (R312, R462). -/
def Dev.closeRing (d : Dev) (n cmd : Nat) : Dev :=
  let live := (d.ing.ring n).live
  let d := if live then d else
    let d := (d.plans.map Prod.fst).foldl Dev.abortUnfed d
    d.updIng (fun g => { g with samples := [], media := g.media.filter (fun m => m.sample.isNone), batches := g.batches.filter (fun b => b.ready && d.batchInUse b.num), unread := [] }.retire)
  let d := d.updIng (fun g => g.updRing n (fun r => { r with closing := cmd }))
  let d := (d.ing.jobs.filter (fun j => j.ring == n)).foldl (fun d j => match d.jobStream j with
    | some m => if j.region = 2 && !jMemory j.record then (d.withdraw j).liveFail m j resWithdrawn else d.withdraw j
    | none => d.withdraw j) d
  d.endRing n

/-- INGEST_RING_CLOSE: DONE once every job of the ring has completed. -/
def execIngestRingClose (q ring : Nat) (s : State) : Res :=
  startCmd s q 0x0604 [4] [ring]
    (fun d => { own := match d.host.ownRefusal (q / 8) (0x28 + ring) with
      | some x => some x
      | none => if (d.ing.ring ring).closing != 0 then some (stBusy, ownDetail (q / 8 + 1) (0x28 + ring), []) else none })
    (fun d c => d.closeRing ring c.id)

/-! ## TABLE_LOAD, TABLE_LOAD_DONE (R296, R299 to R302, R464) -/

/-- Generations of a kind that are alive. -/
def Ing.alive (g : Ing) (media : Bool) : List Gen := g.gens.filter (fun x => x.media == media)

/-- The lowest free slot of a kind. -/
def Ing.freeTable (g : Ing) (media : Bool) : Option Nat := firstIdx (fun q => !(g.alive media).any (fun x => x.slot == q)) 4

/-- TABLE_LOAD: accepted with its number and slot; its image is checked when the load ends (R299, R300; log entry 32). -/
def execTableLoad (q kind src len : Nat) (s : State) : Res :=
  let lay := [1, 64, 32]
  let m := kind != 0
  let a := src % 2 ^ 48
  startCmd s q 0x0605 lay [kind, src, len]
    (fun d => { param := firstBadField [((d.unbacked a len).isNone, fieldByte lay 1), (64 ≤ len && len ≤ tableRoom m, fieldByte lay 2)],
                own := if (d.ing.freeTable m).isNone then some (stTableGen, 0, []) else none })
    (fun d c =>
      let x : Gen := { media := m, num := if m then d.ing.nextMed else d.ing.nextTok, slot := (d.ing.freeTable m).getD 0, loading := c.id,
                       src := a, len := len }
      (d.accept c).updIng (fun g => { g with gens := g.gens ++ [x], nextTok := if m then g.nextTok else g.nextTok + 1,
                                             nextMed := if m then g.nextMed + 1 else g.nextMed }))

/-- A load fails: its slot is free and its number never used again; jobs that had bound to it complete TABLE_GENERATION. -/
def Dev.loadFails (d : Dev) (x : Gen) (status : Nat) : Dev :=
  let d := d.updIng (fun g => { g with gens := g.gens.filter (fun y => y.media != x.media || y.num != x.num) })
  let d := (d.ing.jobs.filter (fun j => j.media == x.media && j.gen == x.num)).foldl (fun d j => d.deadJob j resTableGen) d
  d.finish x.loading status 0 []

/-- A load ends: the image stands in its slot and the generation is the newest, or it fails. -/
def Dev.tableEnds (d : Dev) (x : Gen) : Dev :=
  let b := rdBytes d.mem x.src x.len
  match firstBad d.poison x.src x.len with
  | some a => (d.noteFault cobInst 10 4 0 (d.host.cmd x.loading) a).loadFails x stParity
  | none =>
    if !(if x.media then mediaOk b else tokOk b) then d.loadFails x stBadParam
    else
      let gens := d.ing.gens.map (fun y => if y.media != x.media then y
        else if y.num = x.num then { y with newest := true, loading := 0 } else { y with newest := false })
      ((d.store (tableSlot x.media x.slot) b).updIng (fun g => { g with gens := gens }.retire)).finish x.loading stDone 0 [x.num]

/-- TABLE_LOAD_DONE (R299, R301, R302). -/
def execTableLoadDone (kind num : Nat) (s : State) : Res :=
  eventOpt s (match s.dev.ing.gen (kind != 0) num with | some x => if x.loading = 0 then none else some (s.dev.tableEnds x) | none => none)

/-! ## INGEST_REPORT (R324) -/

/-- ns of busy time of a block in the window. -/
def Dev.blockBusy (d : Dev) (b : Nat) : Nat :=
  Tab.get 0 d.ing.busy b + (match d.ing.jobs.find? (fun j => j.engine == some b) with | some j => d.plat.now - max j.started d.ing.winStart | none => 0)

/-- Jobs that wait for a block: every block that could take a job counts it (log entry 31). -/
def Dev.blockQueue (d : Dev) (b : Nat) : Nat :=
  if b = 15 then d.ing.media.length else (d.ing.jobs.filter (fun j => j.engine.isNone && d.blockTakes b j)).length

/-- The 256 bytes of the report. -/
def Dev.ingestReport (d : Dev) : Nat :=
  let g := d.ing
  let win := d.plat.now - g.winStart
  let spill := g.spillUsed
  let staged := ((g.jobs.filter (fun j => hullerBase + 0x1F00000 ≤ jSrc j.record && jSrc j.record < hullerBase + 0x4000000)).map (fun j => jLen j.record)).sum
  packBits ([(64, g.winStart), (32, d.cad.beat - g.winBeat)]
    ++ (List.range 16).map (fun b => (16, min 1000 (d.blockBusy b * 1000 / max win 1)))
    ++ (List.range 16).map (fun b => (16, d.blockQueue b))
    ++ [(32, g.done), (32, g.padded), (32, g.lateN), (32, g.decSum / (1000 * max g.decN 1)), (32, g.decMax / 1000), (48, g.decMaxIdx),
        (32, ceilDiv spill (2 ^ 20)), (32, ceilDiv staged 1024)])

/-- A new window opens. -/
def Dev.newWindow (d : Dev) : Dev :=
  d.updIng (fun g => { g with winStart := d.plat.now, winBeat := d.cad.beat, busy := [], done := 0, padded := 0, lateN := 0, decSum := 0,
                              decN := 0, decMax := 0, decMaxIdx := 0 })

/-- INGEST_REPORT (R324). -/
def execIngestReport (q dest : Nat) (s : State) : Res :=
  let a := dest % 2 ^ 48
  startCmd s q 0x0606 [64] [dest]
    (fun d => { param := if (d.unwritable a 256).isNone then none else some 0 })
    (doneAt (fun d => (d.storeNat a 256 d.ingestReport).newWindow))

/-! ## HULLER_JOB_TAKE (R277, R301, R462) -/

/-- Live jobs queued ahead of a new one on its engine (R285). -/
def Dev.jobsAhead (d : Dev) (j : Job) : List Nat :=
  match d.jobStream j with
  | some n =>
    let e := srEngine (d.cad.stream n).record
    (d.ing.jobs.filter (fun k => k.region == 2 && (match d.jobStream k with | some m => srEngine (d.cad.stream m).record == e | none => false))).map (·.id)
  | none => []

/-- RESULT of a job that ends as soon as it is taken: its record poisoned, its codec reserved, its generation not alive, its sample
already padded. Where there is no newest MEDIA generation a job that asks for it goes without (log entry 32). -/
def Dev.takeResult (d : Dev) (j : Job) (poisoned : Bool) : Option Nat :=
  let gone := match j.sample with | some o => (match d.ing.sample o with | some s => s.filled | none => true) | none => false
  if gone then some resWithdrawn
  else if poisoned then some resPoisoned
  else if (codecRegion (jCodec j.record)).isNone then some resUnsupported
  else if j.gen = 0 && j.media && jGen j.record = 0xFFFFFFFF then none
  else if (d.ing.gen j.media j.gen).isNone then some resTableGen
  else none

/-- A job record adds to its segment; none where the segment goes to two regions (R304). -/
def addJob (l : List SampleSeg) (r : Nat) : Option (List SampleSeg) :=
  match codecRegion (jCodec r) with
  | none => some l
  | some reg =>
    if jMemory r then some l
    else match l.find? (fun s => s.num == jSeg r) with
      | some s => if s.region = reg then some (l.map (fun x => if x.num = jSeg r then { x with jobs := x.jobs + 1 } else x)) else none
      | none => some (insertSeg { num := jSeg r, region := reg, jobs := 1, pts := jPts r } l)

/-- A job becomes one of its sample's: it adds to its segment, and the first one gives the sample its budget (R304, R320). -/
def Sample.withJob (s : Sample) (j : Job) : Sample :=
  { s with toTake := s.toTake - 1, jobs := s.jobs ++ [j.id], segs := (addJob s.segs j.record).getD s.segs
           budget := if s.toTake = s.total then jBudget j.record else s.budget }

/-- The job breaks its sample: it carries another SAMPLE_INDEX, or its segment goes to another region (R304, R309, R319). -/
def Sample.refuses (s : Sample) (j : Job) : Bool := jIndex j.record != s.index || (addJob s.segs j.record).isNone

/-- The job at the head of a ring is taken and bound. -/
def Dev.takeJob (d : Dev) (n : Nat) : Dev :=
  let r := d.ing.ring n
  let rec_ := d.ringEntry r r.head
  let j0 : Job := { id := d.ing.nextJob, ring := n, record := rec_, sample := if r.live then none else some (r.ordinal - 1), takenAt := d.plat.now, arrived := r.rungAt r.head d.plat.now }
  let gen := if jGen rec_ = 0xFFFFFFFF then (match d.ing.newest j0.media with | some x => x.num | none => 0) else jGen rec_
  let j : Job := { j0 with gen := gen, ahead := d.jobsAhead j0 }
  let bad := firstBad d.poison (r.at_ r.head) 64
  let res := d.takeResult j bad.isSome
  let s := j.sample.bind d.ing.sample
  let broken := match s with | some s => res.isNone && s.refuses j | none => false
  let g := d.ing.updRing n (fun r => { r with jobsLeft := r.jobsLeft - 1 })
  let g := { g with jobs := g.jobs ++ [j], nextJob := g.nextJob + 1 }
  let g := match j.sample with | some o => g.updSample o (·.withJob j) | none => g
  let d := match bad with
    | some a => d.noteFault cobInst 10 4 0 none a
    | none => d
  let d := { d with ing := g }.eatEntries n 1
  match res, j.sample with
  | some x, _ => d.deadJob j x
  | none, some o => if broken then d.replaceSample o 4 else d
  | none, none => d

/-- HULLER_JOB_TAKE (R301): from a live ring at once, from the training ring for the sample taken last. -/
def execHullerJobTake (ring : Nat) (s : State) : Res :=
  let d := s.dev
  let r := d.ing.ring ring
  workEvent s (r.on && r.closing == 0 && 0 < r.waiting && (r.live || 0 < r.jobsLeft)) (d.takeJob ring)

/-! ## HULLER_JOB_START, HULLER_LIVE_PREEMPT (R272, R280, R281) -/

/-- HULLER_JOB_START. -/
def execHullerJobStart (block : Nat) (s : State) : Res := eventOpt s (s.dev.startJob block)

/-- HULLER_LIVE_PREEMPT. -/
def execHullerLivePreempt (block : Nat) (s : State) : Res := eventOpt s (s.dev.preemptJob block)

/-! ## HULLER_JOB_COMPLETE (R278 to R298, R319, R321, R329) -/

/-- What a job reads: the bytes of its source that exist (R131), its tables, and, of a stream's job, its context, where a parity error
comes as an operand: where the context's bytes stand in the spill area the spec leaves open (R294; log entry 46). -/
def Dev.jobReads (d : Dev) (j : Job) (flips : List Nat) (ctxBad : Bool) : List Byte × Wk :=
  let a := jSrc j.record
  let (src, w) := (d.cobWork flips).read a (match d.unbacked a (jLen j.record) with | some x => x - a | none => jLen j.record)
  let w := match d.ing.gen j.media j.gen with
    | some x => if j.region = 0 || jCodec j.record = 0x20 then (w.read (tableSlot x.media x.slot) x.len).2 else w
    | none => w
  let at_ := d.ing.spill.1 + Config.freeNat d.plat.freeCount % max 1 d.ing.spill.2
  (src, if ctxBad && j.hasCtx then (w.fault [at_ + 2 * 2 ^ 48]).count (256 * 5 + 0x25) 1 else w)

/-- Units in an object: pictures, or samples per channel (R278). -/
def Job.unitsOf (j : Job) (out : List (List Byte)) : Nat := if j.region = 3 then (out.map (fun b => audFrames (objHeader b))).sum else out.length

/-- Whole objects that fit in `n` bytes. -/
def fitObjects : Nat → List (List Byte) → List (List Byte)
  | _, [] => []
  | n, b :: l => if b.length ≤ n then b :: fitObjects (n - roundUp b.length 64) l else []

/-- What a job has come to: RESULT, CONCEALED, OUT_UNITS, the bytes for DEST_ADDR, the objects for the shaper, and the stream's context. -/
structure JobEnd where
  res : Nat
  conc : Nat
  units : Nat
  mem : List Byte
  objs : List (List Byte)
  ctx : Option DecCtx := none
  deriving DecidableEq, Repr

/-- End of a text job (R297, R298). -/
def Dev.textEnd (d : Dev) (j : Job) (src : List Byte) : JobEnd :=
  let r := j.record
  let ts := (readTok (d.genBytes false j.gen)).tokens (jCodec r) src
  let fit := if jMemory r then jDestLen r / (if jOffsets r then 8 else 4) else jDestLen r
  let kept := ts.take fit
  let ids := kept.flatMap (fun t => leBytes 4 t.1)
  ⟨if fit < ts.length then resOverflow else resOk, 0, kept.length,
   kept.flatMap (fun t => leBytes 4 t.1 ++ (if jOffsets r then leBytes 4 t.2 else [])), [ids], none⟩

/-- End of a decoded job (R279, R281, R283, R288 to R293): a job with a unit that could not be decoded is CORRUPT with CONCEALED 65,535, one
with a unit outside support UNSUPPORTED without output (log entry 47). -/
def Dev.mediaEnd (d : Dev) (j : Job) (src : List Byte) : JobEnd :=
  let r := j.record
  let e := decodeJob (jLive r) (jFlush r) (jIndex r) (jPts r) (d.coding j) (if j.hasCtx then Tab.get {} d.ing.ctxs (jCtx r) else {}) src
  if e.outside then ⟨resUnsupported, 0, 0, [], [], some e.ctx⟩
  else
    let (out, part) := e.result (j.region == 3) (jIndex r) (jPts r)
    let conc := if e.corrupt then 65535 else part
    let all := packObjects out
    let tooLong := jMemory r && jDestLen r < all.length
    let res := if e.corrupt || (jLimit r != 0xFFFF && jLimit r < conc) then resCorrupt
      else if tooLong then resOverflow else if conc = 0 then resOk else resConcealed
    ⟨res, conc, if tooLong then j.unitsOf (fitObjects (jDestLen r) out) else j.unitsOf out, all.take (jDestLen r), out, some e.ctx⟩

/-- Store at DEST_ADDR as far as the bytes exist (R131); the Huller may write all of its buffers (R273). -/
def Dev.storeFit (d : Dev) (a : Nat) (bs : List Byte) : Dev :=
  d.store a (match d.unbacked a bs.length with | some x => bs.take (x - a) | none => bs)

/-- D of what a live job has decoded: of the luma samples of its pictures and the coded bits of its source (R285). -/
def Dev.jobBound (d : Dev) (j : Job) (objs : List (List Byte)) : Nat :=
  match objs, d.jobStream j with
  | b :: _, some _ => decodeBound (jCodec j.record) (picChroma (objHeader b)) ((objs.map (fun b => picW (objHeader b) * picH (objHeader b))).sum) (8 * jLen j.record)
  | _, _ => 0

/-- The bound of every job that queued behind one takes its D in (R285). -/
def Ing.passBound (g : Ing) (j : Job) (b : Nat) : Ing :=
  { g with jobs := g.jobs.map (fun k => if k.ahead.contains j.id then { k with bound := k.bound + b } else k) }

/-- Objects of a job as they wait for the shaper. -/
def Dev.mediaOf (d : Dev) (j : Job) (stream : Nat) (objs : List (List Byte)) : List Media :=
  objs.map (fun b => { sample := j.sample, stream := stream, frame := jIndex j.record, segment := jSeg j.record, job := j.id, pts := jPts j.record, data := b,
                       mats := d.genMats (if j.media then j.gen else 0), at_ := d.plat.now, arrival := j.arrived, bound := j.bound + d.jobBound j objs })

/-- The stream context that a job leaves. -/
def Ing.keepCtx (g : Ing) (j : Job) (c : Option DecCtx) : Ing :=
  match c with | some c => if j.hasCtx then { g with ctxs := Tab.set {} g.ctxs (jCtx j.record) c } else g | none => g

/-- The outcome of a job takes effect: its output, its record, and what it means for its sample or frame. -/
def Dev.settleJob (d : Dev) (j : Job) (e : JobEnd) : Dev :=
  let r := j.record
  let d := if jMemory r then d.storeFit (jDest r) e.mem else d
  let objs := if jMemory r then [] else e.objs
  let n := d.jobStream j
  let ms := d.mediaOf j (n.getD 0) objs
  let d := ((d.updIng (fun g => g.passBound j (d.jobBound j e.objs))).endJob j e.res e.conc e.units).updIng (fun g => g.keepCtx j e.ctx)
  match j.sample, n with
  | some o, _ => d.sampleJob o j e.res ms
  | none, some n =>
    if j.region != 2 || jMemory r then d
    else if (faultStatus e.res).isSome then d.liveFail n j e.res
    else d.updIng (fun g => { g with media := g.media ++ ms })
  | none, none => d

/-- A job on the block ends: not while its stream's context still moves (R281), nor beyond 100 us past a waiting live job (R280). -/
def Dev.completeJob (d : Dev) (b : Nat) (flips : List Nat) (ctxBad : Bool) : Option Dev :=
  match d.ing.jobs.find? (fun j => j.engine == some b || (j.withdrawn && j.engine.isNone && j.lastEngine == b)) with
  | none => none
  | some j =>
    if j.withdrawn then some ((d.endJob j resWithdrawn 0 0).updIng (·.breakCtx j))
    else if !d.pow.runs (66 + b) || d.plat.now < j.started + (if j.moved then 20000 else 0)
      || (match d.waitsFor b j with | some k => max j.started k.takenAt + 100000 < d.plat.now | none => false) then none
    else
      let (src, w) := d.jobReads j flips ctxBad
      let d := d.absorbUnit cobInst 10 4 none w
      if w.bad then
        let c := (Tab.get {} d.ing.ctxs (jCtx j.record)).break
        some (d.settleJob j ⟨resPoisoned, 0, 0, [], [], if ctxBad then some c else none⟩)
      else some (d.settleJob j (if j.region = 0 then d.textEnd j src else d.mediaEnd j src))

/-- HULLER_JOB_COMPLETE (R278). The operands are the flaws that the job's reads meet, and whether a byte of its stream's context has lost its
parity (log entry 34). -/
def execHullerJobComplete (block : Nat) (flips : List Nat) (ctxBad : Bool) (s : State) : Res :=
  eventOpt s (s.dev.completeJob block flips ctxBad)

end Sys2Proof.Machine
end

