-- ==== Sys2Proof/Machine/Live.lean ====
section
/-! DEFINITION. The meanings of STREAM_OPEN, STREAM_CLOSE, LIVE_TASK_START, CONTEXT_SAVE_DONE, QUANTUM_EXPIRY,
LIVE_TASK_COMPLETE, CONTEXT_RESTORE_DONE and LIVE_DEADLINE (spec files 12 and 14; R461 of 17). -/

namespace Sys2Proof.Machine

/-! ## STREAM_OPEN (R127, R281, R325, R360, R363, R365, R395, R439, R461) -/

/-- Bytes of a picture store and of a stream context (R281). -/
def pictureStore (w h chroma : Nat) : Nat :=
  let m := if chroma = 1 then 3 else if chroma = 2 then 4 else 6
  roundUp (65536 + roundUp w 64 * roundUp h 64 * m) 4096
def contextBytes (r : Nat) : Nat := srDpb r * pictureStore (srW r) (srH r) (srChroma r)

/-- Spill bytes that are free but for what context `ctx` takes (R281). -/
def Ing.freeSpill (g : Ing) (ctx : Nat) : Nat := g.spill.2 - { g with ctxs := g.ctxs.filter (fun e => e.1 != ctx) }.spillUsed

/-- Active clusters of a pod that no open stream reserves, highest number first (R365). -/
def Dev.unreserved (d : Dev) (pod : Nat) : List Nat :=
  ((List.range 12).reverse.map (12 * pod + ·)).filter (fun k => !bit d.plat.retired k
    && !d.cad.streams.any (fun e => e.2.opened && srReserve e.2.record && e.2.clusters.contains k))

/-- Pods that a plan uses. -/
def Plan.usesPods (p : Plan) : List Nat := ([0, 1, 2, 3] : List Nat).filter (fun q => p.streams.any (fun s => s.pod == q))

/-- The cluster set of a stream (R365). -/
def Dev.clusterSet (d : Dev) (r : Nat) : List Nat :=
  (d.plan (srPlan r)).usesPods.flatMap (fun q => (d.unreserved q).take (srClusters r))

/-- Every pod of the plan has CLUSTERS clusters to give. -/
def Dev.setFull (d : Dev) (r : Nat) : Bool := (d.plan (srPlan r)).usesPods.all (fun q => srClusters r ≤ (d.unreserved q).length)

/-- A reservation leaves each pod of the training plan its sum of MIN_CLUSTERS (R127). -/
def Dev.reserveOk (d : Dev) (r : Nat) : Bool :=
  !srReserve r || (match d.trainingPlan with
    | none => true
    | some p => ([0, 1, 2, 3] : List Nat).all (fun q =>
        ((p.branchesOf q).map (·.minc)).sum + (if (d.plan (srPlan r)).usesPods.contains q then srClusters r else 0) ≤ (d.unreserved q).length))

/-- Lowest free stream, and lowest free event slot (R360, R461). -/
def Cad.freeStream (c : Cad) : Option Nat := firstIdx (fun n => !(c.stream n).opened) 16
def Cad.freeSlot (c : Cad) : Option Nat := firstIdx (fun n => (Tab.get none c.slots n).isNone) 256

/-- Conditions of a stream record (R325, R363, R461). -/
def Dev.streamOk (d : Dev) (r : Nat) : Bool :=
  let p := d.plan (srPlan r)
  let ring : Ring := Tab.get {} d.ing.rings (srRing r)
  let pix := (fwFmt (regionFmt (d.ing.profile.getD 0) 1)).width / 8
  let inLen := roundUp (64 + 3 * srOvW r * srOvH r * pix) 64 + srMaxRois r * roundUp (3 * srRw r * srRh r * pix) 64
  p.ready && p.live && ring.on && ring.live && srMaxRois r ≤ 8 && 1 ≤ srClusters r && srClusters r ≤ 12 && d.setFull r
    && 1 ≤ srBpf r && 1 ≤ srDpb r && srDpb r ≤ 16 && 100 ≤ srDeadline r && srDeadline r ≤ 1000000 && srTin r ≤ 1000000
    && 400 ≤ srFLive r && srFLive r ≤ 1250 && srFLive r % 25 == 0 && 0x10 ≤ srCodec r && srCodec r ≤ 0x13 && 1 ≤ srChroma r
    && srRw r ≤ srW r && srRh r ≤ srH r && d.backed (srRois r) 256
    && (d.unwritable (srInput r) inLen).isNone && (d.unwritable (srInput r + srStride r) inLen).isNone
    && d.backed (srRoiBase r) 256 && p.seqWrites.all (fun w => srSeqBase r + w.table ≤ 4095) && d.reserveOk r
    && augOk (d.ing.profile.getD 0) (srAug r)

/-- The energy budget cannot hold F_LIVE for the set (R395). -/
def Dev.powerRefusal (d : Dev) (r : Nat) : Bool :=
  let set := d.clusterSet r
  set.any (fun k => d.fMax (14 * (k / 12) + k % 12) < srFLive r)
    || ((d.planE d.plat.now).sub ((Q.ofInt d.pow.fixedPrev).add (d.reserves.add (d.streamReserve r set)))).le Q.zero

/-- What check 7 of STREAM_OPEN finds. -/
def Dev.openRefusal (d : Dev) (port r : Nat) : Option (Nat × Nat × List Nat) :=
  if !(d.plan (srPlan r)).valid then some (stParity, 0, [])
  else match d.host.claimRefusal port (0xA0 + srEngine r), d.host.ownRefusal port (0x28 + srRing r) with
    | some x, _ => some x
    | none, some x => some x
    | none, none =>
      if d.cad.freeStream.isNone || d.cad.freeSlot.isNone || d.ing.freeSpill (srContext r) < contextBytes r then some (stNoMemory, 0, [])
      else if d.powerRefusal r then some (stPowerLimited, 0, [])
      else none

/-- The record of a stream's event slot (R360). -/
def releaseSlot (r n port : Nat) : Nat :=
  packBits [(48, srBeat0 r), (24, srPhase r), (4, 0), (2, 0), (2, port + 1), (16, srBpf r), (16, n), (32, 0), (32, 0)]

/-- The stream opens: its number, slot, cluster set, stream context and engine. -/
def Dev.openStream (d : Dev) (port r n slot : Nat) : Dev :=
  let st : Stream := { opened := true, port := port, record := r, slot := slot, order := d.cad.nextOrder, clusters := d.clusterSet r }
  let sl : Slot := { record := releaseSlot r n port, owner := port + 1, nextBeat := srBeat0 r }
  let cx : DecCtx := { inUse := true, bytes := contextBytes r, width := srW r, height := srH r }
  { d with cad := { d.cad with streams := Tab.set {} d.cad.streams n st, slots := Tab.set none d.cad.slots slot (some sl), nextOrder := d.cad.nextOrder + 1 },
           host := d.host.setOwner (0xA0 + srEngine r) (port + 1),
           ing := { d.ing with ctxs := Tab.set {} d.ing.ctxs (srContext r) cx } }

/-- STREAM_OPEN (R461). -/
def execStreamOpen (q record : Nat) (s : State) : Res :=
  startCmd s q 0x0501 [640] [record]
    (fun d => { param := if d.streamOk record then none else some 0, own := d.openRefusal (q / 8) record })
    (fun d c => (((d.openStream (q / 8) record (d.cad.freeStream.getD 0) (d.cad.freeSlot.getD 0)).raiseFloor d.fFloor).slotWritten (d.cad.freeSlot.getD 0)).finish c.id stDone (d.cad.freeStream.getD 0) [])

/-! ## STREAM_CLOSE (R365, R445, R461, R532) -/

/-- The engine that a stream reserved is free once no other open stream uses it. -/
def Dev.freeEngine (d : Dev) (e : Nat) : Dev :=
  if d.cad.streams.any (fun x => x.2.opened && srEngine x.2.record == e) then d else { d with host := d.host.setOwner (0xA0 + e) 0 }

/-- A closing stream without a task is gone: slot, context, reservation and engine are free, and its command is done. -/
def Dev.endClose (d : Dev) (n : Nat) : Dev :=
  let s := d.cad.stream n
  match s.closing with
  | none => d
  | some cmd =>
    if s.running.isSome || s.waiting.isSome then d
    else
      let d := { d with cad := { d.cad with streams := Tab.set {} d.cad.streams n {}, slots := Tab.set none d.cad.slots s.slot none },
                        ing := { d.ing with ctxs := Tab.set {} d.ing.ctxs (srContext s.record) {}, media := d.ing.media.filter (fun m => m.sample.isSome || m.stream != n) } }
      (d.freeEngine (srEngine s.record)).finish cmd stDone 0 []

/-- A stream begins to close: a waiting task is dropped with ABORTED, pending dumps of the stream end. -/
def Dev.beginClose (d : Dev) (n cmd : Nat) : Dev :=
  let s := d.cad.stream n
  let d := match s.waiting with
    | some t => (d.taskReply n t.frame stAborted 0 []).dropWaiting n t.frame
    | none => d
  let d := { d with cad := d.cad.updStream n (fun s => { s with closing := some cmd }) }
  ((d.endDumps (fun x => x.stream == some n) stAborted).giveBack s.clusters).endClose n

/-- STREAM_CLOSE: DONE once the stream's task has ended and what it held is free. -/
def execStreamClose (q stream : Nat) (s : State) : Res :=
  startCmd s q 0x0502 [4] [stream]
    (fun d =>
      let st := d.cad.stream stream
      { param := if st.opened && st.closing.isNone then none else some 0,
        own := if st.port = q / 8 then none else some (stBusy, portDetail st.port, []) })
    (fun d c => d.beginClose stream c.id)

/-! ## LIVE_TASK_COMPLETE (R111, R143, R149, R326, R367, R374 to R379, R461, R531) -/

/-- A core runs the task of stream `n`. -/
def Ctx.ofStream (c : Ctx) (n : Nat) : Bool := c.live && c.stream == n

/-- Every stream of the task has ended and every loop it armed is DONE. -/
def Dev.taskDone (d : Dev) (n : Nat) (s : Stream) (t : Task) : Bool :=
  let p := d.plan (srPlan s.record)
  t.runAt.isSome && d.cores.all (fun e => match e.2.ctx with | some c => !c.ofStream n | none => true)
    && p.loops.all (fun l =>
      let k := 64 * l.pod + l.counter
      let m := (p.loopsOn l.pod l.counter).length
      let w := (m + Tab.get 0 t.bases k) % 65536
      let c := d.ctr_ l.pod l.counter
      Tab.get 0 t.armed k == m && ((c.seq == w && c.st == 3) || after16 c.seq w))

/-- No core of the task moves anything. -/
def Dev.taskStill (d : Dev) (n : Nat) : Bool :=
  d.cores.all (fun e => match e.2.ctx with | some c => !c.ofStream n || !c.moving | none => true)

/-- The running task can end. -/
def Dev.taskOver (d : Dev) (n : Nat) (s : Stream) (t : Task) : Bool := if t.bad != 0 || t.dropped then d.taskStill n else d.taskDone n s t

/-- The task's streams leave their cores. -/
def Dev.dropTask (d : Dev) (n : Nat) : Dev :=
  { d with cores := d.cores.map (fun e => (e.1, match e.2.ctx with
      | some c => if c.ofStream n then { e.2 with ctx := none } else e.2
      | none => e.2)) }

/-- The reply of a task that has ended: the status that decided it, DEADLINE_MISSED, or DONE with COUNT and STALE. -/
def Dev.taskStatus (d : Dev) (n : Nat) (s : Stream) (t : Task) : Dev :=
  let r := s.record
  if t.bad != 0 then d.taskReply n t.frame t.bad 0 (if t.bad = stBadParam then [t.fault] else [])
  else if t.dropped then d.missReply n t.frame (d.missCause s t) false
  else
    let list := rdNat d.mem (srRoiBase r) 256
    let late := d.cad.frameDeadline r t.frame < d.plat.now
    let stale := match s.input t.frame with | some i => i.stale | none => false
    let d := if late then d.missReply n t.frame (d.missCause s t) true
      else d.taskReply n t.frame stDone (packBits [(4, bits list 48 4), (1, b2n stale)]) []
    { d with cad := d.cad.updStream n (fun s => { s with rois := (t.frame, list) :: s.rois }) }

/-- What a task dropped while it ran leaves in the OUTPUT symbols that its plan writes is undefined: free bytes (R229, R376; log entry 8). -/
def Dev.freeOutputs (d : Dev) (s : Stream) (t : Task) : Dev :=
  let p := d.plan (srPlan s.record)
  if t.dropped && t.bad == 0 && t.runAt.isSome then
    ((p.syms.filter (fun y => y.cls == 7 && p.writes y.num)).flatMap (·.areas)).foldl (fun d a =>
      { d.store a.1 (freeBytes d.plat.freeCount a.2) with plat := { d.plat with freeCount := d.plat.freeCount + 1 } }) d
  else d

/-- The running task of stream `n` ends: its reply, then the cores, counters, readers and clocks it held are given back. -/
def Dev.endTask (d : Dev) (n : Nat) (s : Stream) (t : Task) : Dev :=
  let failed := t.bad != 0 || t.dropped
  let d := (d.taskStatus n s t).freeOutputs s t
  let d := if failed then (d.dropTask n).idleCtrs t.bases t.armed else d
  let d := (d.frameDumps n t.frame (if t.bad != 0 then t.bad else if t.dropped then stAborted else 0)).closeWork n
  let d := { d with cad := d.cad.updStream n (fun s => { s.spend t.frame with running := none }) }
  ((d.giveBack s.clusters).endClose n).reclock

/-- A waiting task whose frame has no live input ends (R329). -/
def Dev.endBadInput (d : Dev) (n : Nat) (t : Task) (st : Nat) : Dev :=
  ((((d.taskReply n t.frame st 0 []).dropWaiting n t.frame).frameDumps n t.frame st).giveBack (d.cad.stream n).clusters).endClose n

/-- A task at its end: the region list that it has written is read, and a parity error in it is one in the task's data (R140, R143, R326). -/
def Dev.readRois (d : Dev) (s : Stream) (t : Task) : Task × Dev :=
  match firstBad d.poison (srRoiBase s.record) 256 with
  | some a => if t.bad = 0 && !t.dropped then
      ({ t with bad := stParity }, d.noteFault cobInst 13 4 0 none a) else (t, d)
  | none => (t, d)

/-- LIVE_TASK_COMPLETE takes place. -/
def Dev.taskEnds (d : Dev) (n : Nat) : Option Dev :=
  let s := d.cad.stream n
  match s.running.filter (d.taskOver n s), s.waiting with
  | some t, _ => let (t, d) := d.readRois s t; some (d.endTask n s t)
  | none, some t => (s.badInput t.frame).map (fun st => d.endBadInput n t st)
  | none, none => none

/-- LIVE_TASK_COMPLETE (R326, R370, R376). -/
def execLiveTaskComplete (stream : Nat) (s : State) : Res := eventOpt s (s.dev.taskEnds stream)

/-! ## LIVE_TASK_START (R192, R193, R195, R364, R366, R367) -/

/-- Tasks of other streams that wait for the set have had this one run ahead (R377). -/
def Dev.markQueued (d : Dev) (n : Nat) (s : Stream) : Dev :=
  { d with cad := { d.cad with streams := d.cad.streams.map (fun e =>
      if e.1 != n && e.2.opened && d.excludes s e.2 && e.2.able.isSome
      then (e.1, { e.2 with waiting := e.2.waiting.map (fun t => { t with queued := true }) }) else e) } }

/-- A task starts: its pages are prepared, its bases taken, and the training on its set is asked to stop. A failed ALLOC, or a plan
that is no longer valid, ends it at once (R143, R195). -/
def Dev.startTask (d : Dev) (n : Nat) (t : Task) : Dev :=
  let d := d.trace 9 4 n (t.frame % 2 ^ 32) 0 0
  let s := d.cad.stream n
  let p := d.plan (srPlan s.record)
  let run (d : Dev) (t : Task) : Dev := { d with cad := d.cad.updStream n (fun s => { s with waiting := none, running := some t }) }
  if !p.ready || !p.valid then
    let t := { t with bad := stParity, startedAt := some d.plat.now }
    (run d t).endTask n s t
  else
    let (d1, st) := d.openWork p n (srSeqBase s.record) t.frame none
    if st ≠ 0 then
      let t := { t with bad := st, startedAt := some d.plat.now }
      (run d1 t).endTask n s t
    else
      let d2 := run (d1.markQueued n s) { t with startedAt := some d.plat.now, bases := d.bases }
      ((setCores s.clusters).foldl Dev.preempt d2).reclock.launchAll

/-- LIVE_TASK_START takes place. -/
def Dev.taskStarts (d : Dev) (n : Nat) : Option Dev :=
  if d.mayStart n then (d.cad.stream n).able.map (fun t => d.startTask n t) else none

/-- LIVE_TASK_START (R364, R366, R367). -/
def execLiveTaskStart (stream : Nat) (s : State) : Res := eventOpt s (s.dev.taskStarts stream)

/-! ## CONTEXT_SAVE_DONE, QUANTUM_EXPIRY, CONTEXT_RESTORE_DONE (R89, R114, R366) -/

/-- A table with the entries of the keys that `hit` names replaced by those of another. -/
def graft {α : Type} [DecidableEq α] (z : α) (hit : Nat → Bool) (m new : Tab α) : Tab α :=
  new.foldl (fun (m : Tab α) (e : Nat × α) => Tab.set z m e.1 e.2) (m.filter (fun (e : Nat × α) => !hit e.1))

/-- A core's context holds its accumulators: what stands in them, their parity marks and their poison bits (R26, R63, R69). -/
def Dev.saveAcc (d : Dev) (n : Nat) (k : Core) : Core :=
  let mine (a : Nat) : Bool := accWin (4 * n) ≤ a && a < accWin (4 * n + 4)
  { k with savedAcc := d.mem.filter (fun (e : Nat × Byte) => mine e.1), savedBad := d.poison.filter (fun (e : Nat × Bool) => mine e.1), savedPz := k.poison }

/-- The accumulators of a restored context stand as they did, whatever live tasks have left in them (R26). -/
def Dev.restoreAcc (d : Dev) (n : Nat) : Dev :=
  let k := d.core n
  let mine (a : Nat) : Bool := accWin (4 * n) ≤ a && a < accWin (4 * n + 4)
  { d with mem := graft 0 mine d.mem k.savedAcc, poison := graft false mine d.poison k.savedBad }.updCore n (fun k =>
    { k with poison := k.savedPz, savedAcc := [], savedBad := [], savedPz := [] })

/-- A core's context is saved 8 us after its stop, its writes in flight having arrived; a task whose set has come free runs, and a core
that no live task waits for is given back (R366). -/
def Dev.saveDone (d : Dev) (n : Nat) : Option Dev :=
  let k := d.core n
  if k.run = 3 then
    match k.ctx with
    | some c =>
      if k.since + 8000 ≤ d.plat.now ∧ c.arrivals = [] then
        some ((d.updCore n (fun k => { d.saveAcc n k with run := 4, ctx := none, saved := some c })).giveBack [12 * (n / 48) + n % 48 / 4]).launchAll
      else none
    | none => some ((d.updCore n (fun k => { k with run := 4 })).giveBack [12 * (n / 48) + n % 48 / 4]).launchAll
  else if k.run = 4 ∧ d.canLaunch = true then some d.launchAll
  else none

/-- CONTEXT_SAVE_DONE (R366). -/
def execContextSaveDone (core : Nat) (s : State) : Res := eventOpt s (s.dev.saveDone core)

/-- QUANTUM_EXPIRY: a core that has not stopped within QUANTUM us of the request counts, once (R366). -/
def execQuantumExpiry (core : Nat) (s : State) : Res :=
  let d := s.dev
  let k := d.core core
  workEvent s (k.run == 2 && !k.overrun && k.stopAt + 1000 * d.cad.quantum ≤ d.plat.now)
    ((d.count (coreInst core) 0x19 1).updCore core (fun k => { k with overrun := true }))

/-- CONTEXT_RESTORE_DONE: 8 us on, the preempted core resumes its stream and its claims (R89, R114, R366). -/
def execContextRestoreDone (core : Nat) (s : State) : Res :=
  let d := s.dev
  let k := d.core core
  let d1 := ({ d with pods := preemptClaims d.pods d.plat.now (fun m => m == core) false }.restoreAcc core).updCore core (fun k =>
    { k with run := 1, ctx := k.saved.map Ctx.resume, saved := none })
  workEvent s (k.run == 5 && k.since + 8000 ≤ d.plat.now)
    (if k.saved.isSome then d1.after core else (d.updCore core (fun k => { k with run := 0 })).startCore core)

/-! ## LIVE_DEADLINE (R373 to R377) -/

/-- The deadline instant of a task has passed and has not been acted on. -/
def Dev.isLate (d : Dev) (s : Stream) (t : Task) : Bool := !t.missed && d.cad.frameDeadline s.record t.frame < d.plat.now

/-- MISS_POLICY acts: under DROP a waiting task is removed and a running one stops at its next stop points (R376). -/
def Dev.deadline (d : Dev) (n : Nat) : Option Dev :=
  let s := d.cad.stream n
  let drop := srDrop s.record
  match s.running.filter (d.isLate s) with
  | some _ => some (d.updTask n (fun t => { t with missed := true, dropped := drop }))
  | none => match s.waiting.filter (d.isLate s) with
    | some t =>
      if drop && (s.badInput t.frame).isNone then
        some (((((d.missReply n t.frame (d.missCause s t) false).frameDumps n t.frame stAborted).dropWaiting n t.frame).giveBack s.clusters).endClose n)
      else some { d with cad := d.cad.updStream n (fun s => { s with waiting := some { t with missed := true } }) }
    | none => none

/-- LIVE_DEADLINE (R376). -/
def execLiveDeadline (stream : Nat) (s : State) : Res := eventOpt s (s.dev.deadline stream)

end Sys2Proof.Machine
end

