-- ==== Sys2Proof/Machine/MemCmds.lean ====
section
/-! DEFINITION. The meanings of the memory commands 0x0201 to 0x0216 (spec file 17; R147, R190 to R196). -/

namespace Sys2Proof.Machine

/-- FENCE completes when every earlier write of the issuing port has arrived; in this model a write arrives with the
command or event that makes it (R147, R451). -/
def execFence (q : Nat) (s : State) : Res := startCmd s q 0x0201 [] [] (fun _ => {}) (doneAt id)

/-- FILL writes LEN bytes of VALUE; an unbacked or unreachable byte fails it with BAD_PARAM and nothing is written. -/
def execFill (q dest len value : Nat) (s : State) : Res :=
  let lay := [64, 64, 8]
  startCmd s q 0x0202 lay [dest, len, value]
    (fun d => { param := firstBadField [(dest % 64 == 0, fieldByte lay 0), (len % 64 == 0, fieldByte lay 1),
      ((d.unwritable (dest % 2 ^ 48) len).isNone, fieldByte lay 0)] })
    (doneAt (fun d => d.store (dest % 2 ^ 48) (List.replicate len (BitVec.ofNat 8 value))))

/-- WRITE_INLINE writes its data bytes at DEST; LEN runs from 1 to 4,048. -/
def execWriteInline (q dest : Nat) (data : List Byte) (s : State) : Res :=
  let n := data.length
  match s.dev.head q 0x0203 [64, 16] [dest, n] with
  | none => .next s
  | some p =>
    if leBytes n (p.params >>> 128) = data then
      startCmdLen s q 0x0203 [64, 16] [dest, n] (roundUp (16 + n) 8)
        (fun d => { param := firstBadField [(1 ≤ n && n ≤ 4048, 8), ((d.unwritable (dest % 2 ^ 48) n).isNone, 0)] })
        (doneAt (fun d => d.store (dest % 2 ^ 48) data))
    else .next s

/-! ## Pools and tables -/

/-- The range lies in the pod's own pod store or GDDR7 (R452). -/
def inOwnPod (pod a n : Nat) : Bool :=
  (podStore pod ≤ a && a + n ≤ podStore (pod + 1)) || (podGddr pod ≤ a && a + n ≤ podGddr (pod + 1))

/-- POOL_CREATE (R452). -/
def execPoolCreate (q pod pool frameBytes base frames : Nat) (s : State) : Res :=
  let lay := [2, 2, 32, 64, 32]
  let b := base % 2 ^ 48
  startCmd s q 0x0210 lay [pod, pool, frameBytes, base, frames]
    (fun d => { param := firstBadField [(!((d.pod pod).pool pool).inUse, fieldByte lay 1),
      (frameBytes % 4096 == 0 && 4096 ≤ frameBytes && frameBytes ≤ 2 ^ 24, fieldByte lay 2),
      (b % 4096 == 0 && inOwnPod pod b (frames * frameBytes) && d.backed b (frames * frameBytes), fieldByte lay 3)] })
    (doneAt (fun d => d.updPod pod (fun x =>
      let y : Pool := { inUse := true, frameBytes := frameBytes, base := b, frames := frames }
      { x with pools := Tab.set {} x.pools pool y })))

/-- POOL_DESTROY: RESOURCE_BUSY while a frame is allocated or waits under R196. -/
def execPoolDestroy (q pod pool : Nat) (s : State) : Res :=
  startCmd s q 0x0211 [2, 2] [pod, pool]
    (fun d =>
      { param := if ((d.pod pod).pool pool).inUse then none else some 0,
        own := if ((d.pod pod).pool pool).recs.any (fun r => recAlloc r.2) then some (stBusy, 0, []) else none })
    (doneAt (fun d => d.updPod pod (fun x => { x with pools := Tab.set {} x.pools pool {} })))

/-- SEQ_CREATE: a table of INVALID entries served by a pool; RING_PAGES, when nonzero, equals ENTRIES. -/
def execSeqCreate (q pod pool table entries ringPages : Nat) (s : State) : Res :=
  let lay := [2, 2, 12, 16, 8]
  startCmd s q 0x0212 lay [pod, pool, table, entries, ringPages]
    (fun d => { param := firstBadField [(((d.pod pod).pool pool).inUse, fieldByte lay 1), (!((d.pod pod).seq table).inUse, fieldByte lay 2),
      (1 ≤ entries, fieldByte lay 3), (ringPages == 0 || (ringPages == entries && 2 ≤ ringPages), fieldByte lay 4)] })
    (doneAt (fun d => d.updPod pod (fun x => x.updSeq table (fun _ =>
      { inUse := true, pool := pool, entries := entries, ring := ringPages }))))

/-- SEQ_DESTROY: every frame the table names is freed, then the table goes. -/
def execSeqDestroy (q pod table : Nat) (s : State) : Res :=
  let lay := [2, 12]
  startCmd s q 0x0213 lay [pod, table]
    (fun d => { param := if ((d.pod pod).seq table).inUse then none else some (fieldByte lay 1) })
    (doneAt (fun d => d.updPod pod (fun x =>
      ((x.seq table).ents.foldl (fun y e => y.freeEnt e.2) x).updSeq table (fun _ => {}))))

/-! ## Pages (R194) -/

/-- Entry `i` of a table in use exists. -/
def Pod.hasEnt (x : Pod) (t i : Nat) : Bool := (x.seq t).inUse && i < (x.seq t).entries

/-- PAGE_ALLOC: the entry's old frame is freed and a new one taken; extended entry 0 holds its address. NO_MEMORY where no
frame is free. -/
def execPageAlloc (q pod table entry lpage : Nat) (s : State) : Res :=
  let lay := [2, 12, 16, 24]
  startCmd s q 0x0214 lay [pod, table, entry, lpage]
    (fun d => { param := firstBadField [(((d.pod pod).seq table).inUse, fieldByte lay 1), ((d.pod pod).hasEnt table entry, fieldByte lay 2)],
                own := if ((d.pod pod).pageAlloc table entry lpage).isNone then some (stNoMemory, 0, []) else none })
    (fun d c =>
      match (d.pod pod).pageAlloc table entry lpage with
      | some (a, x) => (d.updPod pod (fun _ => x)).finish c.id stDone 0 [a]
      | none => d)

/-- PAGE_SHARE: the source's frame gains a reference, the destination's old frame is freed, and the entry is copied. -/
def execPageShare (q pod srcTable srcEntry dstTable dstEntry : Nat) (s : State) : Res :=
  let lay := [2, 12, 16, 12, 16]
  startCmd s q 0x0215 lay [pod, srcTable, srcEntry, dstTable, dstEntry]
    (fun d =>
      let x := d.pod pod
      let e := x.ent srcTable srcEntry
      { param := firstBadField [((x.seq srcTable).inUse, fieldByte lay 1), (x.hasEnt srcTable srcEntry && entState e == 2, fieldByte lay 2),
          ((x.seq dstTable).inUse, fieldByte lay 3), (x.hasEnt dstTable dstEntry, fieldByte lay 4),
          (x.refs (entFrame e) < 65535, fieldByte lay 2)] })
    (doneAt (fun d => d.updPod pod (fun x =>
      let e := x.ent srcTable srcEntry
      (((x.share (entFrame e)).freeEnt (x.ent dstTable dstEntry)).setEnt dstTable dstEntry e))))

/-- PAGE_FREE: the entry's frame is freed and the entry becomes INVALID. -/
def execPageFree (q pod table entry : Nat) (s : State) : Res :=
  let lay := [2, 12, 16]
  startCmd s q 0x0216 lay [pod, table, entry]
    (fun d => { param := firstBadField [(((d.pod pod).seq table).inUse, fieldByte lay 1), ((d.pod pod).hasEnt table entry, fieldByte lay 2)] })
    (doneAt (fun d => d.updPod pod (fun x =>
      if entState (x.ent table entry) = 0 then x else (x.freeEnt (x.ent table entry)).setEnt table entry 0)))

end Sys2Proof.Machine
end

