-- ==== Sys2Proof/Machine/Mover.lean ====
section
/-! DEFINITION. The meanings of CHANNEL_CLAIM and CHANNEL_RELEASE, of the channel registers' CMD and TAIL, and of the mover engines'
events (spec file 18; R141, R138 of 05; 0x0C01 and 0x0C02 of 17). -/

namespace Sys2Proof.Machine

/-! ## CHANNEL_CLAIM, CHANNEL_RELEASE (R439, R483) -/

/-- CHANNEL_CLAIM: ownership IDs 0x040 to 0x09F. -/
def execChannelClaim (q resource : Nat) (s : State) : Res :=
  startCmd s q 0x0C01 [16] [resource]
    (fun d => { param := if 0x40 ≤ resource ∧ resource ≤ 0x9F then none else some 0, own := d.host.claimRefusal (q / 8) resource })
    (doneAt (fun d => { d with host := d.host.setOwner resource (q / 8 + 1) }))

/-- A channel that is DISABLED, PAUSED or ERROR is released at once; another one pauses first (R483). -/
def Dev.releaseChan (d : Dev) (k cmd : Nat) : Dev :=
  let d := d.updChan k (fun c => { c with relCmd := cmd })
  let st := (d.chan k).st
  if st = 0 ∨ st = 3 ∨ st = 4 then d.chanFree k
  else if st = 1 then d.updChan k (fun c => c.pause 2)
  else d

/-- CHANNEL_RELEASE: DONE once the channel has drained and is released. -/
def execChannelRelease (q resource : Nat) (s : State) : Res :=
  startCmd s q 0x0C02 [16] [resource]
    (fun d => { param := if 0x40 ≤ resource ∧ resource ≤ 0x9F then none else some 0, own := d.host.ownRefusal (q / 8) resource })
    (fun d c => d.releaseChan (resource - 0x40) c.id)

/-! ## TAIL and CMD (R469, R479, R480) -/

/-- A write to a channel's block: only its owner's takes effect, any other adds one to WINDOW_ERROR (R469). -/
def chanWrite (s : State) (port channel : Nat) (f : Dev → Dev) : Res :=
  let d := s.dev
  if !(d.linked port && channel < 96) then .next s
  else if d.host.own (chanId channel) != port + 1 then nextDev s { d with host := d.host.winError port }
  else nextDev s (f d)

/-- A TAIL beyond the ring is ignored and stops the channel with RING_FAULT (R469). -/
def Dev.tailFault (d : Dev) (k : Nat) : Dev :=
  let c := d.chan k
  if c.cur.isSome then d.chanFail k 6 0 0
  else if c.st = 4 ∨ c.st = 5 then d
  else d.chanError k 6

/-- CHANNEL_TAIL, the doorbell. -/
def execChannelTail (port channel value : Nat) (s : State) : Res :=
  chanWrite s port channel (fun d =>
    let c := d.chan channel
    if 2 ^ c.log2 < (value % 2 ^ 32 + 2 ^ 32 - c.doneIdx) % 2 ^ 32 then d.tailFault channel
    else (d.updChan channel (fun c => { c with tail := value % 2 ^ 32 })).takeNext channel)

/-- CHANNEL_START: RUNNING where the ring is backed and within reach, ERROR with RING_FAULT otherwise. -/
def execChannelStart (port channel : Nat) (s : State) : Res :=
  chanWrite s port channel (fun d =>
    let c := d.chan channel
    if c.st != 0 then d
    else if (d.unwritable c.base (32 * 2 ^ c.log2)).isNone then (d.updChan channel (fun c => { c with st := 1 })).takeNext channel
    else d.chanError channel 6)

/-- CHANNEL_PAUSE. -/
def execChannelPause (port channel : Nat) (s : State) : Res :=
  chanWrite s port channel (fun d => if (d.chan channel).st = 1 then d.updChan channel (fun c => c.pause 2) else d)

/-- A paused channel runs again: descriptor HEAD goes on where it stopped, a FENCE waits again from the start (R480). -/
def Chan.resume (c : Chan) (now : Nat) : Chan :=
  { c with st := 1, readyAt := now, fence := match c.cur with | some x => (ringXfer x).kind == .fence | none => false }

/-- CHANNEL_RESUME. -/
def execChannelResume (port channel : Nat) (s : State) : Res :=
  chanWrite s port channel (fun d =>
    if (d.chan channel).st = 3 then (d.updChan channel (fun c => c.resume d.plat.now)).takeNext channel else d)

/-- CHANNEL_RETRY fetches descriptor HEAD again and runs it from row 0, offset 0. -/
def execChannelRetry (port channel : Nat) (s : State) : Res :=
  chanWrite s port channel (fun d =>
    if (d.chan channel).st = 4 then (d.updChan channel (fun c => { c with st := 1, err := 0, row := 0, off := 0 })).takeNext channel else d)

/-- CHANNEL_SKIP: HEAD and DONE_IDX pass descriptor HEAD, where there is one (log entry 27). -/
def execChannelSkip (port channel : Nat) (s : State) : Res :=
  chanWrite s port channel (fun d =>
    let c := d.chan channel
    let h := if c.head = c.tail then c.head else (c.head + 1) % 2 ^ 32
    if c.st = 4 then (d.updChan channel (fun c => { c with st := 1, err := 0, head := h, doneIdx := h, row := 0, off := 0 })).takeNext channel else d)

/-- CHANNEL_RESET: RESETTING from every state but DISABLED. -/
def execChannelReset (port channel : Nat) (s : State) : Res :=
  chanWrite s port channel (fun d => if (d.chan channel).st = 0 then d else d.updChan channel (fun c => { c.pause 5 with err := 0 }))

/-- CHANNEL_QUIESCED: nothing is in flight and no write-back is due; the channel is PAUSED, or reset, and a release ends here (R479,
R480, R481, R483). -/
def execChannelQuiesced (channel : Nat) (s : State) : Res :=
  let d := s.dev
  let c := d.chan channel
  workEvent s ((c.st == 2 || c.st == 5) && c.wb.isNone && c.fail.isNone)
    (if c.relCmd ≠ 0 then d.chanFree channel
     else if c.st = 2 then d.updChan channel (fun c => { c with st := 3 })
     else d.chanReset channel)

/-! ## Engine events (R472 to R477, R482) -/

/-- MOVER_BURST: an engine chooses a channel and issues its next burst (R475). -/
def Dev.moverBurst (d : Dev) (e : Nat) (flips : List Nat) : Option Dev :=
  if 4 < e ∨ !d.pow.runs (engineDom e) then none
  else match d.nextChan e with
    | none => none
    | some (k, aged) =>
      match (d.chan k).xfer with
      | none => none
      | some x =>
        let d1 := d.ageChans e k
        let ids := engineChans e
        let d2 := { d1 with mov := { d1.mov with last := Tab.set (ids.length - 1) d1.mov.last e (k - ids.headD 0) } }
        some ((if aged then d2.count (engineInst e) 0x27 1 else d2).runBurst k x flips)

/-- MOVER_BURST (R473, R475). -/
def execMoverBurst (engine : Nat) (flips : List Nat) (s : State) : Res :=
  eventFlips s flips (s.dev.moverBurst engine flips)

/-- A descriptor's last write has left: it is written back and DONE_IDX passes it (R476). -/
def Dev.passHead (d : Dev) (k : Nat) : Dev :=
  let h := ((d.chan k).head + 1) % 2 ^ 32
  ((d.writeBack k 0).updChan k (fun c => { c with head := h, doneIdx := h, row := 0, off := 0 })).takeNext k

/-- DESCRIPTOR_WRITE_BACK (R476, R484). -/
def execDescriptorWriteBack (channel : Nat) (s : State) : Res :=
  let d := s.dev
  let c := d.chan channel
  workEvent s (c.wb.isSome && (c.st == 1 || c.st == 2 || c.st == 5)) (d.passHead channel)

/-- MOVER_FENCE_DONE: every earlier write of the channel has arrived and the FENCE is written back (R477). -/
def execMoverFenceDone (channel : Nat) (s : State) : Res :=
  let d := s.dev
  workEvent s ((d.chan channel).fence && (d.chan channel).st == 1) (d.passHead channel)

/-- MOVER_FAULT: the failure of R472 that a descriptor meets; where no byte failed the address is the outside's (R482; log entry 27). -/
def execMoverFault (channel status addr : Nat) (s : State) : Res :=
  let d := s.dev
  let c := d.chan channel
  let kind := match c.fail with | some (_, _, k) => k | none => 0
  match d.chanFailure c with
  | some (st, a) => workEvent s (st == status && a.getD addr == addr) (d.chanFail channel st (addr % 2 ^ 48) kind)
  | none => .next s

/-- HOST_TRANSFER_TIMEOUT: a burst to or from a host window has been ready for 1 ms without completing: LINK (R472). -/
def execHostTransferTimeout (channel : Nat) (s : State) : Res :=
  let d := s.dev
  let c := d.chan channel
  match c.xfer with
  | none => .next s
  | some x =>
    let b := x.burst c.row c.off
    workEvent s (c.st == 1 && (d.chanFailure c).isNone && b.areas.any touchesHost && c.readyAt + 1000000 ≤ d.plat.now)
      (d.chanFail channel 5 (d.hostByte b.areas) 0)

end Sys2Proof.Machine
end

