-- ==== Sys2Proof/Machine/Shaper.lean ====
section
/-! DEFINITION. The meanings of SAMPLE_TAKE, SHAPER_PICTURE, SAMPLE_BUDGET_EXPIRY, BATCH_DEADLINE, BATCH_READY and LIVE_INPUT_READY
(R303 to R330 of spec file 12). -/

namespace Sys2Proof.Machine

/-! ## Sample records and prepared entries (R309, R310) -/

def smIndex (x : Nat) : Nat := bits x 0 48
def smPadOnly (x : Nat) : Bool := bit x 66
def smMark (x : Nat) : Nat := if bit x 67 then 3 else 2
/-- Job records and prepared entries that follow; none under PAD_ONLY. -/
def smJobs (x : Nat) : Nat := if smPadOnly x then 0 else bits x 48 9
def smPreps (x : Nat) : Nat := if smPadOnly x then 0 else bits x 57 9

def peKind (x : Nat) : Nat := bits x 0 2
def peRegion (x : Nat) : Nat := bits x 2 2
def peSeg (x : Nat) : Nat := bits x 4 8
def peSrc (x : Nat) : Nat := bits x 64 48
def peLen (x : Nat) : Nat := bits x 128 32

/-- Pictures that stand one behind the other; none where the bytes hold anything else. -/
def splitPics : Nat → List Byte → Option (List (List Byte))
  | _, [] => some []
  | 0, _ => none
  | n + 1, b => if picOk b then (splitPics n (b.drop (picSize (objHeader b)))).map (b.take (picSize (objHeader b)) :: ·) else none

/-- Objects of a prepared entry; none where the entry breaks R310 (log entry 30). -/
def Dev.prepObjects (d : Dev) (x : Nat) : Option (List (List Byte)) :=
  let b := rdBytes d.mem (peSrc x) (peLen x)
  if peLen x = 0 || !d.backed (peSrc x) (peLen x) then none
  else match peKind x with
    | 0 => if peRegion x = 1 || peRegion x = 2 then splitPics (peLen x / 64) b else none
    | 1 => if peRegion x = 3 && audOk b then some [b] else none
    | 2 => if peRegion x = 0 && peLen x % 4 = 0 then some [b] else none
    | _ => none

/-- PTS of prepared data (R288, R289). -/
def prepPts (x : Nat) (b : List Byte) : Nat := match peKind x with | 0 => bits (objHeader b) 160 64 | 1 => bits (objHeader b) 128 64 | _ => 0

/-- A prepared entry adds a segment of its own; none where its number is taken (R310, R319). -/
def Dev.addPrep (d : Dev) (l : List SampleSeg) (x : Nat) : Option (List SampleSeg) :=
  match d.prepObjects x with
  | some bs =>
    if l.any (fun s => s.num == peSeg x) then none
    else some (insertSeg { num := peSeg x, region := peRegion x, pts := prepPts x (bs.headD []) } l)
  | none => none

/-! ## SAMPLE_TAKE (R302, R309 to R312, R314, R319, R320, R322)

A sample's entries are taken one by one, so that a sample of more entries than its ring has passes through it (R309, R462): its record,
then its job records, then its prepared entries. -/

/-- The sample record has 1 to 256 entries behind it (R309). -/
def smOk (x : Nat) : Bool := 1 ≤ smJobs x + smPreps x && smJobs x + smPreps x ≤ 256

/-- The batch of a new sample: made with its deadline where the sample is its first, and free from the start where its step has ended
already; batches that are free make room (R312, R320). -/
def Dev.openBatch (d : Dev) (k : Nat) : Ing :=
  let n := bits d.ing.prof 672 16
  let g := { d.ing with batches := d.ing.batches.filter (fun b => !(b.free && b.num + d.ing.buffers ≤ k)), unread := d.ing.unread.filter (· != k) }
  if (g.batch k).isSome then g
  else
    let b : Batch := { num := k, deadline := if n = 0 then none else some (d.cad.beat + n, d.cad.phaseAt d.plat.now)
                       used := d.ing.unread.contains k, free := d.ing.unread.contains k }
    { g with batches := g.batches ++ [b] }

/-- A byte with a parity error that the shaper has read is logged (R143, R144). -/
def Dev.noteBad (d : Dev) (bad : Option Nat) : Dev :=
  match bad with
  | some a => d.noteFault cobInst 10 4 0 none a
  | none => d

/-- The sample record at the head of ring `n` is taken (R311). -/
def Dev.takeSample (d : Dev) (n : Nat) : Dev :=
  let r := d.ing.ring n
  let x := d.ringEntry r r.head
  let o := r.ordinal
  let k := d.ing.batchNum o
  let bad := firstBad d.poison (r.at_ r.head) 64
  let gen := if smPreps x != 0 || smJobs x == 0 then (match d.ing.newest true with | some y => y.num | none => 0) else 0
  let s : Sample := { ord := o, index := smIndex x, pos := r.head, total := smJobs x, toTake := smJobs x, prepsToTake := smPreps x, gen := gen }
  let g := d.openBatch k
  let late := match g.batch k with | some b => b.late | none => false
  let g := { g with samples := g.samples ++ [s] }
  let g := g.updRing n (fun r => { r with ordinal := r.ordinal + 1, jobsLeft := smJobs x, prepLeft := smPreps x })
  let d := ({ d with ing := g }.noteBad bad).eatEntries n 1
  if bad.isSome then d.replaceSample o 8
  else if smPadOnly x then d.padSample s (smMark x) 7
  else if !smOk x then d.replaceSample o 4
  else if late then d.lateSample s
  else d

/-- The prepared entry at the head of ring `n` goes to the sample taken last: it adds a segment and its objects, or the sample is replaced
(R310, R314, R319); a sample that is filled already passes over it. -/
def Dev.takePrep (d : Dev) (n : Nat) : Dev :=
  let r := d.ing.ring n
  let x := d.ringEntry r r.head
  let o := r.ordinal - 1
  let bad := (firstBad d.poison (r.at_ r.head) 64).orElse (fun _ => firstBad d.poison (peSrc x) (peLen x))
  let d1 := (d.updIng (fun g => (g.updRing n (fun r => { r with prepLeft := r.prepLeft - 1 })).updSample o (fun s => { s with prepsToTake := s.prepsToTake - 1 }))).eatEntries n 1
  match d.ing.sample o with
  | none => d1
  | some s =>
    if s.filled then d1
    else if bad.isSome then (d1.noteBad bad).replaceSample o 8
    else match d.addPrep s.segs x with
      | none => d1.replaceSample o 4
      | some l =>
        let ms := ((d.prepObjects x).getD []).map (fun b => { sample := some o, frame := s.index, segment := peSeg x, pts := prepPts x b, data := b,
                                                              mats := d.genMats s.gen, at_ := d.plat.now, arrival := d.plat.now })
        d1.updIng (fun g => { g.updSample o (fun s => { s with segs := l }) with media := g.media ++ ms })

/-- The shaper can take the entry at the head of a ring: a prepared entry behind the job records of its sample, or a sample record whose
batch has a buffer that no step reads and no batch still fills (R312, R462). -/
def Dev.canTake (d : Dev) (n : Nat) : Bool :=
  let r := d.ing.ring n
  let k := d.ing.batchNum r.ordinal
  r.on && !r.live && r.closing == 0 && d.ing.profile.isSome && r.jobsLeft == 0 && 0 < r.waiting
    && (r.prepLeft != 0 || d.ing.batches.all (fun b => b.num < d.ing.epoch || (b.free && b.ready) || k < b.num + d.ing.buffers))

/-- SAMPLE_TAKE takes place. -/
def Dev.takeEntry (d : Dev) (n : Nat) : Dev :=
  if !d.pow.runs 81 then d.demand 81 else if (d.ing.ring n).prepLeft = 0 then d.takeSample n else d.takePrep n

/-- SAMPLE_TAKE (R311): the shaper's domain is asked for where it is OFF (R388). -/
def execSampleTake (ring : Nat) (s : State) : Res :=
  let d := s.dev
  workEvent s (d.canTake ring) (d.takeEntry ring)

/-! ## SHAPER_PICTURE (R303 to R306, R313 to R319, R464) -/

/-- The segment that is shaped next: of the oldest sample whose entries are all taken and that has one whose jobs are complete and whose
place in its region is known. -/
def Ing.nextSeg (g : Ing) : Option (Sample × SampleSeg) :=
  g.samples.findSome? (fun s =>
    if s.filled || !s.whole then none
    else (s.segs.find? (fun x => !x.shaped && x.jobs == 0 && s.segs.all (fun y => y.shaped || y.region != x.region || x.num ≤ y.num))).map (fun x => (s, x)))

/-- An object placed among objects of rising job order, behind those of its own job. -/
def insertMedia (m : Media) : List Media → List Media
  | [] => [m]
  | x :: xs => if x.job ≤ m.job then x :: insertMedia m xs else m :: x :: xs

/-- Objects of a segment in output order. -/
def Ing.objects (g : Ing) (o seg : Nat) : List Media :=
  (g.media.filter (fun m => m.sample == some o && m.segment == seg)).foldl (fun l m => insertMedia m l) []

/-- Positions of a shaped segment, one list for each plane, or the SLOT_STATUS of its sample (R314 to R316). -/
def shapeSeg (p : Nat) (g : Aug) (index room : Nat) (x : SampleSeg) (ms : List Media) : List (List (List Byte)) × Option Nat :=
  match x.region with
  | 0 =>
    let id (lo : Nat) : List (List Byte) := if bits p lo 32 = 0xFFFFFFFF then [] else [leBytes 4 (bits p lo 32)]
    let body := ms.flatMap (fun m => (List.range (m.data.length / 4)).map (fun i => (m.data.drop (4 * i)).take 4))
    ([id 128 ++ body ++ id 160], none)
  | 3 =>
    let ch := bits p 536 8
    let objs := ms.map (fun m => m.data)
    if !objs.all (audFits ch (bits p 544 32)) then ([], some 2)
    else
      let f := (objs.map (fun b => audFrames (objHeader b))).sum
      let o := g.shift index x.num f room
      let cut (l : List (List Byte)) : List (List Byte) := if bit g.en 3 then (l.drop o).take room else l
      ((List.range ch).map (fun c => cut (audPlane (bits p 240 16) ch (g.factor index x.num) objs c)), none)
  | r =>
    let kept := if r = 2 then ((ms.zipIdx.filter (fun (m : Media × Nat) => m.2 % max (bits p 512 8) 1 == 0)).map Prod.fst).take (bits p 520 16) else ms
    let pix := pfPix p
    if !kept.all (fun m => picMapped m.mats pix.map m.data) then ([], some 2)
    else ([kept.map (fun m => shapePicture pix m.mats m.data (bits p 208 16) (bits p 192 16) (g.crop index x.num (objHeader m.data)))], none)

/-- A segment is shaped into its positions, or its sample is replaced. -/
def Dev.shape (d : Dev) (s : Sample) (x : SampleSeg) (seed : Nat) : Dev :=
  let p := d.ing.prof
  let start := validOf (s.segs.filter (fun y => y.num < x.num)) x.region
  let room := capOf p x.region - start
  let (planes, bad) := shapeSeg p (profAug p (bits p 576 4) seed) s.index room x (d.ing.objects s.ord x.num)
  let len := (planes.headD []).length
  match bad with
  | some st => d.replaceSample s.ord st
  | none =>
    if room < len then d.replaceSample s.ord 3
    else
      let k := d.ing.batchNum s.ord
      let d := planes.zipIdx.foldl (fun d y => d.putRun x.region (k % d.ing.buffers) (s.ord % 16) y.2 start y.1) d
      let elems := if x.region = 1 ∨ x.region = 2 then 3 * bits p 192 16 * bits p 208 16 * len else planes.length * len
      let g := d.ing.updSample s.ord (fun s => { s with segs := s.segs.map (fun y => if y.num = x.num then { y with start := start, len := len, shaped := true } else y) })
      let g := { g with media := g.media.filter (fun m => !(m.sample == some s.ord && m.segment == x.num)), busy := Tab.upd 0 g.busy 15 (· + elems / 8) }
      { d with ing := g, pow := d.pow.idle 81 d.plat.now }.tryFill s.ord

/-- SHAPER_PICTURE takes place: one segment of decoded data goes to its positions, after every live frame (R328, R330). A sample that needs
a run seed waits for one (log entry 30). -/
def Dev.shapeNext (d : Dev) : Option Dev :=
  if d.ing.media.any (fun m => m.sample.isNone) then none
  else match d.ing.nextSeg with
    | none => none
    | some (s, x) =>
      if !d.pow.runs 81 then some (d.demand 81)
      else match d.runSeed with
        | some seed => some (d.shape s x seed)
        | none => if bits d.ing.prof 576 4 = 0 then some (d.shape s x 0) else none

/-- SHAPER_PICTURE (R314). -/
def execShaperPicture (s : State) : Res := eventOpt s s.dev.shapeNext

/-! ## Late samples (R320, R321) -/

/-- The budget of a sample has run out: its decode time exceeds it, or has reached it with a job still running. -/
def Dev.overBudget (d : Dev) (s : Sample) : Bool :=
  let t := d.decodeTime s
  s.budget != 0 && (1000 * s.budget < t || (1000 * s.budget == t && d.ing.jobs.any (fun j => s.jobs.contains j.id && j.engine.isSome)))

/-- SAMPLE_BUDGET_EXPIRY takes place. -/
def Dev.budgetEnds (d : Dev) (o : Nat) : Option Dev :=
  match d.ing.sample o with
  | some s =>
    if s.filled || s.overDone || !d.overBudget s then none
    else
      let d := (d.updIng (fun g => g.updSample o (fun s => { s with overDone := true }))).lateSample s
      some (if pfPolicy d.ing.prof = 0 then d.count cobInst 0x41 1 else d)
  | none => none

/-- SAMPLE_BUDGET_EXPIRY (R320). -/
def execSampleBudgetExpiry (ordinal : Nat) (s : State) : Res := eventOpt s (s.dev.budgetEnds ordinal)

/-- Samples of a batch. -/
def Ing.samplesOf (g : Ing) (k : Nat) : List Sample := g.samples.filter (fun s => g.batchNum s.ord == k)

/-- Every job of a sample was complete at the instant of beat:phase: it is on time (R321). -/
def Dev.onTime (d : Dev) (s : Sample) (beat phase : Nat) : Bool :=
  s.whole && s.total != 0 && s.jobs == [] && (match d.cad.instantOf beat phase with | some i => s.doneAt ≤ i | none => true)

/-- BATCH_DEADLINE takes place: the deadline has passed with a slot that is neither filled nor on time. -/
def Dev.deadlineEnds (d : Dev) (n : Nat) : Option Dev :=
  let k := d.ing.epoch + n
  match d.ing.batch k with
  | some b => match b.deadline with
    | some (beat, phase) =>
      let open_ := (d.ing.samplesOf k).filter (fun s => !s.filled && !d.onTime s beat phase)
      if b.ready || b.late || !d.cad.reached beat phase d.plat.now || ((d.ing.samplesOf k).length == 16 && open_ == []) then none
      else
        let d := d.updIng (fun g => g.updBatch k (fun b => { b with late := true }))
        let d := if pfPolicy d.ing.prof = 0 then d.count cobInst 0x42 1 else d
        some (open_.foldl Dev.lateSample d)
    | none => none
  | none => none

/-- BATCH_DEADLINE (R320). -/
def execBatchDeadline (batch : Nat) (s : State) : Res := eventOpt s (s.dev.deadlineEnds batch)

/-! ## BATCH_READY (R312, R323, R462) -/

/-- The 128 bytes of a batch record. -/
def batchRecord (k padded now : Nat) (ss : List Sample) : Nat :=
  packBits ([(32, k), (16, padded), (16, 0)] ++ ss.map (fun s => (4, s.status)) ++ [(64, now), (64, 0)] ++ ss.map (fun s => (48, s.index)))

/-- Every step in progress that consumes a poisoned batch is poisoned (R294). -/
def Dev.poisonSteps (d : Dev) : Dev := (d.plans.map Prod.fst).foldl (fun d h => (d.poisonedBatch h false).poisonedBatch h true) d

/-- A batch whose slots are all filled is ready; its record is written. -/
def Dev.readyBatch (d : Dev) (n : Nat) : Option Dev :=
  let k := d.ing.epoch + n
  let ss := d.ing.samplesOf k
  match d.ing.batch k, d.ing.shaperRing with
  | some b, some (m, r) =>
    if b.ready || ss.length != 16 || ss.any (fun s => !s.filled) then none
    else
      let d := (d.storeNat (r.batch + 64 + 128 * (r.batchIdx % 64)) 128 (batchRecord k b.padded d.plat.now ss)).storeNat r.batch 4 ((r.batchIdx + 1) % 2 ^ 32)
      let g := (d.ing.updRing m (fun r => { r with batchIdx := (r.batchIdx + 1) % 2 ^ 32 })).updBatch k (fun b => { b with ready := true, readyAt := d.plat.now })
      some { d with ing := { g with samples := g.samples.filter (fun s => g.batchNum s.ord != k) }.retire }.poisonSteps
  | _, _ => none

/-- BATCH_READY (R323). -/
def execBatchReady (batch : Nat) (s : State) : Res := eventOpt s (s.dev.readyBatch batch)

/-! ## LIVE_INPUT_READY (R325 to R328) -/

/-- The region list that frame `f` uses: frame f - 1's where it is written, otherwise the newest earlier one; with its frame (R326). -/
def Stream.listFor (s : Stream) (f : Nat) : Option (Nat × Nat) :=
  (s.rois.filter (fun x => x.1 < f)).foldl (fun best x => match best with | some b => if b.1 < x.1 then some x else some b | none => some x) none

/-- One crop of a list: its window's corner, or none where the entry holds no window (R327). -/
def cropOf (list r : Nat) (rec_ : Nat) : Option (Nat × Nat) :=
  let v (i : Nat) : XR := fp32 (bits list (128 + 128 * r + 32 * i) 32)
  let edge (a b : XR) (rw w : Nat) : Nat :=
    let c := ((a.toQ.add b.toQ).mul ⟨1, 2⟩).floor - ((rw / 2 : Nat) : Int)
    (min (max c 0) ((w : Int) - rw)).toNat
  if min (bits list 48 4) (srMaxRois rec_) ≤ r || !((v 0).isFinite && (v 1).isFinite && (v 2).isFinite && (v 3).isFinite)
    || (v 2).lt (v 0) || (v 3).lt (v 1) then none
  else some (edge (v 0) (v 2) (srRw rec_) (srW rec_), edge (v 1) (v 3) (srRh rec_) (srH rec_))

/-- The live input of a frame: header, overview, crops (R325). -/
def liveInput (p rec_ frame list source : Nat) (stale : Bool) (m : Media) : List Byte :=
  let pix := pfPix p
  let g := profAug p (srAug rec_) (srSeed rec_)
  let w := (fwFmt pix.fmt).width / 8
  let crops := (List.range (srMaxRois rec_)).map (fun r => cropOf list r rec_)
  let whole := g.crop frame m.segment (objHeader m.data)
  let corner := crops.flatMap (fun c => match c with | some (x, y) => [(16, x), (16, y)] | none => [(16, 0), (16, 0)])
  let header := packBits ([(48, frame), (4, (crops.filter (fun c => c.isSome)).length), (1, b2n stale), (11, 0), (48, source), (64, m.pts)] ++ corner)
  let pad (b : List Byte) : List Byte := b ++ List.replicate (roundUp b.length 64 - b.length) 0
  let one (c : Option (Nat × Nat)) : List Byte := match c with
    | some (x, y) => shapePicture pix m.mats m.data (srRw rec_) (srRh rec_) ⟨x, y, srRw rec_, srRh rec_, whole.flip⟩
    | none => List.replicate (3 * srRw rec_ * srRh rec_ * w) 0
  leBytes 64 header ++ pad (shapePicture pix m.mats m.data (srOvW rec_) (srOvH rec_) whole) ++ crops.flatMap (fun c => pad (one c))

/-- A live frame is shaped: its input stands in its buffer and its task may become able to start (R326, R364). -/
def Dev.shapeLive (d : Dev) (n : Nat) (m : Media) : Dev :=
  let s := d.cad.stream n
  let r := s.record
  let best := s.listFor m.frame
  let late := match best with | some b => b.1 + 1 != m.frame | none => false
  let stale := late || best.isNone
  let list := match best with | some b => b.2 | none => rdNat d.mem (srRois r) 256
  let source := match best with | some b => b.1 | none => leNat (freeBytes d.plat.freeCount 6)
  let input : LiveInput := { frame := m.frame, ready := d.plat.now, arrival := m.arrival, allow := m.bound + shapeTime r, stale := stale }
  let d := if late then d.count cobInst 0x45 1 else d
  let d := d.store (srInput r + m.frame % 2 * srStride r) (liveInput d.ing.prof r m.frame list source stale m)
  let elems := 3 * srOvW r * srOvH r + 3 * srMaxRois r * srRw r * srRh r
  let g := { d.ing with busy := Tab.upd 0 d.ing.busy 15 (· + elems / 8) }
  { d with ing := g, pow := d.pow.idle 81 d.plat.now, plat := { d.plat with freeCount := d.plat.freeCount + b2n best.isNone },
           cad := d.cad.updStream n (fun s => { s with inputs := s.inputs ++ [input] }) }.markReady n

/-- LIVE_INPUT_READY takes place: the oldest picture of the stream. A frame has one live input (R325): further pictures of its job give none,
DESIGN CHOICE (log entry 47). A picture whose matrix is not loaded gives no input (R329, R464). -/
def Dev.liveReady (d : Dev) (n : Nat) : Option Dev :=
  match d.ing.media.find? (fun m => m.sample.isNone && m.stream == n) with
  | none => none
  | some m =>
    if !d.pow.runs 81 then some (d.demand 81)
    else
      let rest := d.ing.media.filter (fun x => !(x.sample.isNone && x.job == m.job))
      let d := d.updIng (fun g => { g with media := rest })
      let r := (d.cad.stream n).record
      let fail (d : Dev) (st : Nat) : Dev := { d with cad := d.cad.updStream n (fun s => { s with badInputs := s.badInputs ++ [(m.frame, st)] }) }
      let bad := if ((d.cad.stream n).listFor m.frame).isNone then firstBad d.poison (srRois r) 256 else none
      if bad.isSome then some (fail (d.noteBad bad) stParity)
      else if picMapped m.mats (pfPix d.ing.prof).map m.data then some (d.shapeLive n m)
      else some (fail d stAborted)

/-- LIVE_INPUT_READY (R328). -/
def execLiveInputReady (stream : Nat) (s : State) : Res := eventOpt s (s.dev.liveReady stream)

end Sys2Proof.Machine
end

