-- ==== Sys2Proof/Machine/PortReset.lean ====
section
/-! DEFINITION. The meaning of PORT_RESET (R437 of spec file 16). -/

namespace Sys2Proof.Machine

/-- Semaphores of a port are free. -/
def HostIf.freeSems (h : HostIf) (port : Nat) : HostIf := { h with sems := h.sems.filter (fun e => e.2 != port + 1) }

/-- A trace buffer goes with its port: capture ends, its commands come to their end. -/
def Dev.loseTrace (d : Dev) (b : Nat) : Dev :=
  let x := d.obs.buf b
  (({ d with obs := d.obs.dropBuf b, host := d.host.setOwner (0x18 + b) 0, pow := d.pow.idle 83 d.plat.now }).finish x.upCmd stAborted 0 []).finish x.stopCmd stDone 0 []

/-- A mover channel is paused and free; one that a CHANNEL_RELEASE already quiesces goes on to its end (R437, R483). -/
def Dev.loseChan (d : Dev) (k : Nat) : Dev :=
  let d := if (d.chan k).st = 1 then d.updChan k (fun c => c.pause 2) else d
  if (d.chan k).relCmd ≠ 0 then d else { d with host := d.host.setOwner (chanId k) 0 }

/-- Name of no command: what a ring or session that a port reset closes has for its closing command. -/
def noCmd : Nat := 2 ^ 64

/-- One ownership-table entry of the port is released with what it stands for. Sessions and rings come to rest first; a video engine stays
reserved for its live streams, which a port reset does not affect (log entry 33). -/
def Dev.loseEntry (d : Dev) (id : Nat) : Dev :=
  if id < 0x10 then { d with host := d.host.freePin id }
  else if id < 0x18 then { d with cad := d.cad.putTimer (id - 0x10) {}, host := d.host.setOwner id 0 }
  else if id < 0x1C then d.loseTrace (id - 0x18)
  else if 0x20 ≤ id && id < 0x24 then d.closeSession (id - 0x20) (fun x => { x with portLost := true })
  else if 0x28 ≤ id && id < 0x38 then (if (d.ing.ring (id - 0x28)).closing != 0 then d else d.closeRing (id - 0x28) noCmd)
  else if 0x40 ≤ id && id < 0xA0 then d.loseChan (id - 0x40)
  else d

/-- Entries that the port holds, the reserved engines of its live streams left aside. -/
def HostIf.entriesOf (h : HostIf) (port : Nat) : List Nat := (h.owner.filter (fun e => e.2 == port + 1 && e.1 < 0xA0)).map Prod.fst

/-- A queue of the port after its reset. -/
def Queue.portLost (k : Queue) : Queue := if k.enable then { k with qstate := 2, err := 5, fetched := [] } else k

/-- The port resets (R437). -/
def Dev.resetPort (d : Dev) (port : Nat) : Dev :=
  let sems := (d.host.sems.filter (fun e => e.2 == port + 1)).length
  let ids := d.host.entriesOf port
  let d := { d with host := d.host.freeSems port, ctr := bump d.ctr cobInst 0x71 (sems + ids.length) }
  let d := ids.foldl Dev.loseEntry d
  let h := (List.range 8).foldl (fun (h : HostIf) i => h.updQueue (8 * port + i) Queue.portLost) d.host
  { d with host := h.updPort port (fun p => { p with downAt := none }) }.settled

/-- PORT_RESET: LINK_UP has read 0 for 10 ms without a break. -/
def execPortReset (port : Nat) (s : State) : Res :=
  let d := s.dev
  let p := d.host.port port
  event s (port < 2 && !p.up && (match p.downAt with | some t => decide (t + 10000000 ≤ d.plat.now) | none => false)) (d.resetPort port)

end Sys2Proof.Machine
end

