-- ==== Sys2Proof/Machine/Security.lean ====
section
/-! DEFINITION. The meanings of the events of a start, of the Husk, the TAP and the SMBus target, and of the commands
0x0B01 to 0x0B04 (spec file 19; R554 of 21). Whether a signature verifies is an operand: the spec takes HSS from RFC 8554. -/

namespace Sys2Proof.Machine

/-! ## Flash (R494 to R498) -/

/-- A byte of flash; an unlisted byte reads 0xFF. -/
def flByte (f : Tab Byte) (a : Nat) : Byte := Tab.get 0xFF f a
/-- A little-endian number in flash. -/
def flNat (f : Tab Byte) (a n : Nat) : Nat := leNat ((List.range n).map (fun i => flByte f (a + i)))
/-- Write bytes to flash. -/
def flWrite (f : Tab Byte) (a : Nat) : List Byte → Tab Byte
  | [] => f
  | b :: bs => flWrite (Tab.set 0xFF f a b) (a + 1) bs
/-- Erase a range of flash. -/
def flErase (f : Tab Byte) (a n : Nat) : Tab Byte := f.filter (fun e => e.1 < a || a + n ≤ e.1)

/-- First byte of a firmware slot. -/
def slotBase (img : Nat) : Nat := if img = 0 then 0 else 0x1800000
/-- Bytes of a firmware slot. -/
def slotSize_ : Nat := 0x1800000
/-- First byte of a copy of the configuration record. -/
def configBase (c : Nat) : Nat := 0x3000000 + 0x200000 * c
/-- First byte of a copy of the selection record. -/
def selBase (c : Nat) : Nat := 0x3800000 + 0x8000 * c

/-- The header meets the conditions of R496 that need no signature: FORMAT, DEVICE, STEPPING and, with a customer key,
CO_SIGNED. -/
def headerFits (hdr custKey : Nat) : Bool :=
  bits hdr 0 16 == 1 && bits hdr 16 16 == 0x4800 && bits hdr 32 8 == 0xB0 && (custKey == 0 || bit hdr 48)

/-- Outcome of a slot (R496, R504): 0 VALID, 1 AUTH_FAILED, 2 ROLLBACK, 3 UNREADABLE, from what the signatures and the
digest give: 0 they verify, 3 flash does not answer, anything else they do not. -/
def Plat.slotOutcome (p : Plat) (hdr crypto : Nat) : Nat :=
  if crypto = 3 then 3
  else if crypto ≠ 0 || !headerFits hdr p.customerKey then 1
  else if bits hdr 40 7 < p.svnFloor then 2
  else 0

/-- Header of a slot. -/
def Plat.slotHdr (p : Plat) (img : Nat) : Nat := flNat p.flash (slotBase img) 48

/-- A copy of the selection record: its SEQUENCE and slot, where its CRC matches (R494). -/
def Plat.selCopy (p : Plat) (c : Nat) : Option (Nat × Nat) :=
  let w := flNat p.flash (selBase c) 8
  if flNat p.flash (selBase c + 8) 8 = crc64 (leBytes 8 w) then some (bits w 32 32, bits w 0 1) else none

/-- The slot the newer valid copy names; A without a valid copy (R497). -/
def Plat.selected (p : Plat) : Nat :=
  match p.selCopy 0, p.selCopy 1 with
  | some a, some b => if a.1 < b.1 then b.2 else a.2
  | some a, none => a.2
  | none, some b => b.2
  | none, none => 0

/-- The selection record with the next SEQUENCE, into the older copy (R514). -/
def Plat.select (p : Plat) (img : Nat) : Plat :=
  let (c, seq) := match p.selCopy 0, p.selCopy 1 with
    | some a, some b => if a.1 < b.1 then (0, b.1 + 1) else (1, a.1 + 1)
    | some a, none => (1, a.1 + 1)
    | none, some b => (0, b.1 + 1)
    | none, none => (0, 1)
  let w := packBits [(1, img), (31, 0), (32, seq)]
  { p with flash := flWrite p.flash (selBase c) (leBytes 8 w ++ leBytes 8 (crc64 (leBytes 8 w))) }

/-- A valid copy of the configuration record (R498). -/
def Plat.configCopy (p : Plat) (c : Nat) : Option Nat :=
  let w := flNat p.flash (configBase c) 56
  let ok := bits w 0 16 == 1 && (bits w 64 4 == 8 || bits w 64 4 == 10) && (bits w 68 4 == 4 || bits w 68 4 == 8)
    && bits w 72 2 ≤ 2 && 32 ≤ bits w 74 6 && bits w 74 6 ≤ 48 && 85 ≤ bits w 80 8 && bits w 80 8 ≤ 104
  if ok && flNat p.flash (configBase c + 56) 8 == crc64 (leBytes 56 w) then some w else none

/-- The valid copy with the higher SEQUENCE (R498). -/
def Plat.config (p : Plat) : Option Nat :=
  match p.configCopy 0, p.configCopy 1 with
  | some a, some b => if bits a 32 32 < bits b 32 32 then some b else some a
  | some a, none => some a
  | none, x => x

/-- Firmware takes the fields of the configuration record (R498). -/
def Plat.takeConfig (p : Plat) (w : Nat) : Plat :=
  { p with podDevices := bits w 64 4, cobDevices := bits w 68 4, density := bits w 72 2, gddrRate := bits w 74 6, alertTemp := bits w 80 8,
           opTable := (List.range 8).map (fun k => (bits w (96 + 32 * k) 16, bits w (112 + 32 * k) 16)) }

/-! ## Starts (R488 to R493, R500, R501) -/

/-- RESET_N_ASSERT: RESET_N goes low, or a PWR_GOOD input falls: all work ends, every output is released, and a start in
progress has failed with reason INTERRUPTED (R488, R491, R540, R546). The domains are OFF at once (log entry 11). -/
def execResetNAssert (s : State) : Res :=
  let d := s.dev
  let starting := d.plat.phase == .verify || d.plat.phase == .train || d.plat.phase == .selfTest || d.plat.phase == .wipe
  let p := if starting then { d.plat with lastReason := 0x0A }.log { unit := 13, die := 4 } else d.plat
  if d.plat.phase = .held then .next s
  else
    nextDev s { d with
      plat := { p with resetN := false, phase := .held, thermAlertLow := false, smbAlertLow := false, resetAt := none, lifeAt := none, fwUpd := none },
      host := { nextCmd := d.host.nextCmd, gpio := freshPins d.host.gpio, irqs := d.host.irqs }, cad := {}, pow := d.pow.unpowered,
      plans := [], planUsed := [], pods := [], cores := [], cob := {}, ing := {}, enc := {}, mov := {}, obs := {} }

/-- RESET_N_RELEASE: RESET_N rises with every PWR_GOOD input high: device time and the beat count start from 0, every
register takes its reset value, and a start begins at time 0 of R489 (R152, R347, R488). -/
def execResetNRelease (s : State) : Res :=
  let d := s.dev
  let p := d.plat
  if p.phase = .held ∧ p.resetN = false ∧ p.pwrGood = 0x3F then
    nextDev s (Dev.startZero
      { plat := { p with resetN := true, aonUp := true, now := 0, phase := .verify },
        host := { nextCmd := d.host.nextCmd, gpio := freshPins d.host.gpio, irqs := d.host.irqs },
        pow := { d.pow.unpowered with samples := [], energyTotal := 0, rails := [] },
        mem := keepHost d.mem, poison := keepHost d.poison })
  else .next s

/-- VDD_AON_RISE: BOOT_ATTEMPTS, the fault log and the AON fields of the fault summary start from their initial values; the
board holds RESET_N low meanwhile (R493, R500, R545, R546). Retired clusters are in use again: of the events that could end "that power-on"
the model takes this one (R128; DESIGN CHOICE, log entry 42). -/
def execVddAonRise (s : State) : Res :=
  let d := s.dev
  if d.plat.phase = .held ∧ d.plat.resetN = false then
    nextDev s { d with plat := { d.plat with aonUp := true, bootAttempts := 0, lastReason := 0, dormantReason := 0, faultCode := 0,
                                             faultTime := 0, faultLog := [], faultLost := 0, retired := 0 } }
  else .next s

/-- The running image and what it brings: version, SVN, digest; the Husk advances ATTEST_STEP (R418, R495, R511). -/
def Plat.runImage (p : Plat) (img : Nat) : Plat :=
  let h := p.slotHdr img
  { p with fwLoaded := true, fwImage := img, fwVersion := bits h 64 32, fwSvn := bits h 40 7, fwCommit := bit h 47, fwDigest := bits h 128 256,
           attestActive := p.attestStep < 4096, attestStep := min 4096 (p.attestStep + 1), attestTree := 0, attestLeaf := 0,
           attestReady := false, phase := .train, stageMark := p.now }

/-- OTP_INVALID: LC_WORD holds a reserved value, or a monotonic array reads more steps than it has (R499, R503). -/
def Plat.otpInvalid (p : Plat) : Bool := 4 < p.lcWord || 1024 < p.lcCount || 64 < p.svnFloor || 4096 < p.attestStep

/-- FIRMWARE_VERIFIED: the Husk verifies the selected slot and, where it fails, the other; firmware starts, reads the
configuration record, asks for every domain and begins training (R383, R489, R495 to R498, R511). `statusA` and `statusB` say what the signatures and
digest of each slot give; a flash that answers for neither slot fails the start with FLASH_READ (R503; log entry 16). -/
def execFirmwareVerified (statusA statusB : Nat) (s : State) : Res :=
  let d := s.dev
  let p := d.plat
  let first := p.selected
  let out (img : Nat) : Nat := p.slotOutcome (p.slotHdr img) (if img = 0 then statusA else statusB)
  let second := if out first = 0 then 4 else out (1 - first)
  let p1 := if first = 0 then { p with imgA := out 0, imgB := second } else { p with imgB := out 1, imgA := second }
  if p.phase ≠ .verify then .next s
  else if p.otpInvalid then nextDev s (d.failStart 3)
  else if out first ≠ 0 ∧ second ≠ 0 then nextDev s ({ d with plat := p1 }.failStart (if out first = 3 ∧ second = 3 then 1 else 2))
  else
    let p2 := p1.runImage (if out first = 0 then first else 1 - first)
    match p2.config with
    | none => nextDev s ({ d with plat := p2 }.failStart 4)
    | some w => nextDev s (({ d with plat := p2.takeConfig w }.summaryIrq p).askOn (p2.takeConfig w).allOn)

/-- Training ends: self-test begins, or waits while POWER_BRAKE_N is low (R489, R546). -/
def Plat.trained (p : Plat) : Plat :=
  if p.d2dDone && p.gddrDone then { p with phase := if p.brakeN then .selfTest else .train, stageMark := p.now } else p

/-- D2D_TRAINED: the die-to-die links are trained, or the start fails with D2D_TRAINING (R489, R490). -/
def execD2dTrained (ok : Bool) (s : State) : Res :=
  let d := s.dev
  if d.plat.phase = .train ∧ d.plat.d2dDone = false then
    if ok then nextDev s { d with plat := { d.plat with d2dDone := true }.trained } else nextDev s (d.failStart 5)
  else .next s

/-- GDDR7_TRAINED: GDDR7 is trained and matches the record, or the start fails with GDDR7_TRAINING (R135, R489, R490). -/
def execGddr7Trained (ok : Bool) (s : State) : Res :=
  let d := s.dev
  if d.plat.phase = .train ∧ d.plat.gddrDone = false then
    if ok then nextDev s { d with plat := { d.plat with gddrDone := true }.trained } else nextDev s (d.failStart 6)
  else .next s

/-- SELF_TEST_DONE: every domain that is to be ON being ON, `failed` holds bit 12p + k for each failing cluster, which is retired and goes
OFF; the start fails where a block outside the clusters fails or a pod is left with fewer than 6 (R128, R129, R489). A cluster retired in an
earlier start stays retired: the spec says "for the rest of that power-on" and leaves open what the next self-test changes (DESIGN CHOICE,
log entry 42). -/
def execSelfTestDone (failed : Nat) (othersPass : Bool) (s : State) : Res :=
  let d := s.dev
  let p := { d.plat with retired := (d.plat.retired ||| failed) % 2 ^ 48 }
  if d.plat.phase = .selfTest then
    if othersPass && (List.range 4).all (fun i => 6 ≤ p.activeClusters i) then
      if (List.range 85).all (fun id => !d.plat.allOn id || d.pow.on id) then
        nextDev s (((List.range 85).filter (fun id => d.plat.allOn id && !p.allOn id)).foldl (fun d id => d.reqOff id 0)
          { d with plat := { p with phase := .wipe, stageMark := p.now } })
      else .next s
    else nextDev s ({ d with plat := p }.failStart 7)
  else .next s

/-- Semaphores 0 to 3 are released (R436). -/
def HostIf.freeCpSems (h : HostIf) : HostIf := { h with sems := h.sems.filter (fun e => 4 ≤ e.1 || e.2 != 3) }

/-- READY (R489): BOOT_ATTEMPTS becomes 0, the rollback floor rises with a committing image, counters and latch sets read as
reset, semaphores 0 to 3 are free, and vector 8 is sent; from here on the automatic domains count as idle. -/
def Dev.ready (d : Dev) : Dev :=
  let p := d.plat
  { plat := { p with phase := .ready, bootAttempts := 0, svnFloor := if p.fwCommit && p.svnFloor < p.fwSvn then p.fwSvn else p.svnFloor },
    host := ({ d.host with latchSets := [] }.freeCpSems).irqPorts, cad := d.cad,
    pow := { d.pow with doms := d.pow.doms.map (fun e => (e.1, { e.2 with idleAt := p.now })) }, mem := keepHost d.mem, poison := keepHost d.poison }

/-- START_WIPE_DONE: every byte of storage is wiped and the device is READY; a read-back error fails the start (R492, R489). -/
def execStartWipeDone (ok : Bool) (s : State) : Res :=
  let d := s.dev
  if d.plat.phase = .wipe then
    if ok then nextDev s (d.ready.settled.alerted d.plat) else nextDev s (d.failStart 8)
  else .next s

/-- Reason with which the present stage, or the whole start, has passed its limit (R490, R503). -/
def Plat.overdue (p : Plat) : Option Nat :=
  let past (ms : Nat) : Bool := p.stageMark + ms * 1000000 ≤ p.now
  let waits := p.phase == .train && p.d2dDone && p.gddrDone
  match p.phase with
  | .verify => if past 1000 then some 1 else whole
  | .train => if waits then none else if !p.d2dDone && past 50 then some 5 else if !p.gddrDone && past 500 then some 6 else whole
  | .selfTest => if past 200 then some 7 else whole
  | .wipe => if past 100 then some 8 else whole
  | _ => none
where
  /-- The limit of the whole start. -/
  whole : Option Nat := if p.powerMark + 2000000000 ≤ p.now then some 9 else none

/-- START_STAGE_TIMEOUT: a stage runs past its limit and fails the start (R490, R491). -/
def execStartStageTimeout (s : State) : Res :=
  match s.dev.plat.overdue with
  | some r => nextDev s (s.dev.failStart r)
  | none => .next s

/-- HUSK_RESTART: 100 ms after a failed start, every domain being OFF, the device starts again from time 0 of R489 (R491, R501). -/
def execHuskRestart (s : State) : Res :=
  let d := s.dev
  if d.plat.phase = .failed ∧ d.plat.stageMark + 100000000 ≤ d.plat.now ∧ d.pow.allOff = true then nextDev s (d.huskStart.alerted d.plat) else .next s

/-- ATTEST_TREE_DONE: the bottom tree is complete and ATTEST may sign (R511). -/
def execAttestTreeDone (s : State) : Res :=
  let p := s.dev.plat
  if p.treeBuilds && p.phase != .held then
    nextDev s ({ s.dev with plat := { p with attestReady := true } }.summaryIrq p)
  else .next s

/-! ## TAP and SMBus (R510, R554) -/

/-- JTAG_INSTRUCTION: 0 stands for IDCODE, 1 for BYPASS and any other value for another instruction. Outside BLANK and
DEBUG_OPEN every other instruction acts as BYPASS; in those two states the effect of scan and debug modules is not
given (R510). -/
def execJtagInstruction (ir : Nat) (s : State) : Res :=
  let p := s.dev.plat
  if ir = 0 then nextDev s { s.dev with plat := { p with jtagOut := 0x14800A1D, jtagBypass := false } }
  else if ir ≠ 1 ∧ (p.lcWord = 0 ∨ p.lcWord = 4) then .refused (.jtagScan ir)
  else nextDev s { s.dev with plat := { p with jtagOut := 0, jtagBypass := true } }

/-- The highest junction temperature and its domain, the lowest number first (R554). -/
def Pow.hottest (w : Pow) : Int × Nat :=
  (List.range 86).foldl (fun m id => if m.1 < (w.dom id).temp then ((w.dom id).temp, id) else m) ((w.dom 0).temp, 0)

/-- Contents of a block read (R554). -/
def Dev.smbBlock (d : Dev) (code : Nat) : List Byte :=
  match code with
  | 0 => leBytes 32 (d.plat.identity 0)
  | 1 => leBytes 32 d.plat.faultSummary
  | 2 => leBytes 4 (Tab.get 0 d.pow.mirror 0x18) ++ leBytes 4 (Tab.get 0 d.pow.mirror 0x20)
  | 3 => leBytes 2 (ofInt 16 d.pow.hottest.1) ++ leBytes 2 d.pow.hottest.2
  | 4 => leBytes 1 d.plat.deviceState
  | _ => []

/-- The SMBus target answers from 1 ms after RESET_N rises (R554). -/
def Plat.smbAnswers (p : Plat) : Bool := p.resetN && p.phase != .held && 1000000 ≤ p.now

/-- SMBUS_BLOCK_READ (R554): any other code returns a byte count of 0. -/
def execSmbusBlockRead (code : Nat) (s : State) : Res :=
  let d := s.dev
  if d.plat.smbAnswers then nextDev s { d with plat := { d.plat with smbOut := d.smbBlock code } } else .next s

/-- SMBUS_ALERT_RESPONSE: the target answers the Alert Response Address and releases SMB_ALERT_N (R554). -/
def execSmbusAlertResponse (s : State) : Res :=
  let d := s.dev
  if d.plat.smbAnswers && d.plat.smbAlertLow then nextDev s { d with plat := { d.plat with smbAlertLow := false } } else .next s

/-! ## Firmware update and selection (R513, R514) -/

/-- A command's own read meets a parity error: it completes DATA_PARITY (R140, R143, R144). -/
def Dev.readFault (d : Dev) (c : Cmd) (a : Nat) : Dev :=
  (d.noteFault cobInst 13 4 0 (some c) a).finish c.id stParity 0 []

/-- FW_UPDATE reads and verifies the image before it writes anything; a failing image completes AUTH_FAILED. The write
begins with the erasure of the header sector (R502, R513). -/
def execFwUpdate (q image src len : Nat) (verifies : Bool) (s : State) : Res :=
  let lay := [1, 64, 32]
  let a := src % 2 ^ 48
  startCmd s q 0x0B01 lay [image, src, len]
    (fun d =>
      { param := firstBadField [(d.plat.phase == .dormant || image != d.plat.fwImage, fieldByte lay 0),
          (d.cmdReadable a len, fieldByte lay 1), (len ≤ slotSize_, fieldByte lay 2)],
        own := if d.plat.fwUpd.isSome then some (stBusy, 0, []) else none })
    (fun d c =>
      let data := rdBytes d.mem a len
      let d := d.accept c
      match firstBad d.poison a len with
      | some x => d.readFault c x
      | none =>
      if 4096 < len ∧ d.plat.slotOutcome (leNat (data.take 48)) (b2n (!verifies)) = 0 then
        { d with plat := { d.plat with fwUpd := some { cmd := c.id, image := image, data := data },
                                       flash := flErase d.plat.flash (slotBase image) 0x10000 } }
      else d.finish c.id stAuth 0 [])

/-- FW_UPDATE_DONE: the slot is written and read back; a read-back that differs completes DATA_PARITY. In dormant mode the
selection record names the slot (R502, R513). -/
def execFwUpdateDone (matches_ : Bool) (s : State) : Res :=
  let d := s.dev
  match d.plat.fwUpd with
  | none => .next s
  | some u =>
    let bytes := if matches_ then u.data else freeBytes d.plat.freeCount u.data.length
    let p := { d.plat with fwUpd := none, freeCount := if matches_ then d.plat.freeCount else d.plat.freeCount + 1,
                           flash := flWrite (flErase d.plat.flash (slotBase u.image) slotSize_) (slotBase u.image) bytes }
    let p := if matches_ && p.phase == .dormant then p.select u.image else p
    nextDev s ({ d with plat := p }.finish u.cmd (if matches_ then stDone else stParity) 0 [])

/-- FW_SELECT verifies the slot and writes the selection record (R514). -/
def execFwSelect (q image : Nat) (verifies : Bool) (s : State) : Res :=
  startCmd s q 0x0B02 [1] [image]
    (fun d =>
      { own :=
          if (match d.plat.fwUpd with | some u => u.image == image | none => false) then some (stBusy, 0, [])
          else if d.plat.slotOutcome (d.plat.slotHdr image) (b2n (!verifies)) != 0 then some (stAuth, 0, [])
          else none })
    (doneAt (fun d => { d with plat := d.plat.select image }))

/-! ## Life cycle (R505 to R509) -/

/-- A transition of R506 exists, with the steps of LC_COUNT it needs. -/
def Plat.transition (p : Plat) (target : Nat) : Bool :=
  let left := 1024 - p.lcCount
  let dorm := p.phase != .dormant || target == 3
  dorm && match p.lcWord, target with
    | 0, 1 => 2 ≤ left
    | 1, 2 => 2 ≤ left
    | 1, 4 => 2 ≤ left
    | 2, 4 => 2 ≤ left
    | 4, t => t == p.lcPrior && 1 ≤ left
    | 0, 3 => 1 ≤ left
    | 1, 3 => 1 ≤ left
    | 2, 3 => 1 ≤ left
    | _, _ => false

/-- SIGNERS that a transition needs (R506): 0 none, 1 vendor, 2 customer, 3 vendor then customer. -/
def Plat.signers (p : Plat) (target : Nat) : Nat :=
  if target = 4 then (if p.customerKey = 0 then 1 else 3)
  else if p.lcWord = 0 then 1
  else if target = 3 then (if p.customerKey = 0 then 1 else 2)
  else 0

/-- Number of signers. -/
def signerCount (x : Nat) : Nat := if x = 0 then 0 else if x = 3 then 2 else 1

/-- The credential header names this part, this transition and the present LC_COUNT, with the signers that it needs (R507). -/
def Plat.credFits (p : Plat) (target hdr : Nat) : Bool :=
  bits hdr 0 4 == 1 && bits hdr 4 3 == target && bits hdr 8 2 == p.signers target && bits hdr 32 16 == 0x4800
    && bits hdr 64 64 == p.serial && bits hdr 128 11 == p.lcCount

/-- The transition in the OTP cells (R499, R506, R508). -/
def Plat.lcBurn (p : Plat) (target hdr seed : Nat) : Plat :=
  let newKey := bits hdr 256 256
  if target = 3 then { p with lcWord := 3, lcCount := 1024, attestStep := 4096, secretSeed := 0, attestActive := false, attestReady := false }
  else
    { p with lcWord := target, lcCount := p.lcCount + 1,
             lcPrior := if target = 4 then p.lcWord else target,
             secretSeed := if p.lcWord = 0 then seed % 2 ^ 256 else p.secretSeed,
             customerKey := if p.lcWord = 1 && target == 2 && newKey != 0 then newKey else p.customerKey }

/-- The wipe of LIFECYCLE (R447, R508): all other commands end, their queues' packets are discarded, storage is wiped; the
command itself and its reply ring stay. In dormant mode the wipe covers the Cob base's memories. -/
def Dev.lcWipe (d : Dev) (id : Nat) : Dev :=
  let d := d.abortAll id
  let w := d.cleared d.plat d.host d.cad d.pow
  { w with cad := { w.cad with slots := [], timers := [], streams := [] } }

/-- LIFECYCLE (R506 to R508): `verifies` says whether the credential's signatures verify, `seed` is drawn by the Husk's entropy
source and `key` is the 60-byte attestation public key. -/
def execLifecycle (q target cred credLen : Nat) (verifies : Bool) (seed key : Nat) (s : State) : Res :=
  let lay := [3, 64, 32]
  let a := cred % 2 ^ 48
  startCmd s q 0x0B03 lay [target, cred, credLen]
    (fun d =>
      let hdr := rdNat d.mem a 64
      { param := firstBadField [(target ≤ 4, fieldByte lay 0), (d.cmdReadable a credLen, fieldByte lay 1),
          (credLen == 64 + 5456 * signerCount (bits hdr 8 2), fieldByte lay 2)],
        denied := !d.plat.transition target,
        own := if anyBad d.poison a credLen then none else if d.plat.credFits target hdr && (signerCount (d.plat.signers target) == 0 || verifies) then none else some (stAuth, 0, []) })
    (fun d c =>
      match firstBad d.poison a credLen with
      | some x => (d.accept c).readFault c x
      | none =>
      let hdr := rdNat d.mem a 64
      let ext := if d.plat.lcWord = 0 ∧ target = 1 then (List.range 4).map (fun i => bits (key % 2 ^ 480) (128 * i) 128) else []
      let d := (d.accept c).lcWipe c.id
      let d := { d with plat := d.plat.lcBurn target hdr seed }.summaryIrq d.plat
      let d := { d with plat := { d.plat with lifeAt := if d.plat.phase = Phase.dormant then none else some d.plat.now } }
      d.finish c.id stDone 0 ext)

/-- LIFECYCLE_RESTART: 10 us after the reply the device repeats start-up from GDDR7 training on (R508). -/
def execLifecycleRestart (s : State) : Res :=
  let d := s.dev
  match d.plat.lifeAt with
  | some t => if t + 10000 ≤ d.plat.now then nextDev s (d.resetNow.alerted d.plat) else .next s
  | none => .next s

/-! ## Attestation (R511, R512) -/

/-- The 256-byte report body (R512). -/
def Plat.report (p : Plat) (nonce : Nat) : Nat :=
  packBits [(16, 1), (16, 0x4800), (8, 0xB0), (3, p.lcWord), (3, p.prior), (2, 0), (11, p.lcCount), (5, 0), (64, p.serial),
            (32, p.fwVersion), (7, p.fwSvn), (1, p.fwImage), (7, p.svnFloor), (17, 0), (48, p.retired), (16, 0), (256, p.fwDigest),
            (256, p.customerKey), (256, nonce), (64, p.now), (13, p.attestStep), (3, p.attestTree)]

/-- One bottom leaf is spent; after 32,768 the next tree is generated (R511). -/
def Plat.spendLeaf (p : Plat) : Plat :=
  if p.attestLeaf + 1 = 32768 then { p with attestLeaf := 0, attestTree := p.attestTree + 1, attestReady := false }
  else { p with attestLeaf := p.attestLeaf + 1 }

/-- ATTEST writes the report and its HSS signature, 5,396 bytes given by `signature` (R512); it waits while a bottom tree is
generated, and fails with NO_MEMORY once the trees of the start are spent (R511). -/
def execAttest (q nonce dest len : Nat) (signature : List Byte) (s : State) : Res :=
  let lay := [256, 64, 32]
  let a := dest % 2 ^ 48
  if signature.length ≠ 5396 then .next s
  else
    startCmd s q 0x0B04 lay [nonce, dest, len]
      (fun d =>
        { param := firstBadField [((d.unwritable a 5652).isNone, fieldByte lay 1), (5652 ≤ len, fieldByte lay 2)],
          own := if d.plat.attestReady then none else some (stNoMemory, 0, []) })
      (doneAt (fun d => { d.store a (leBytes 256 (d.plat.report nonce) ++ signature) with plat := d.plat.spendLeaf }.summaryIrq d.plat))

end Sys2Proof.Machine
end

