-- ==== Sys2Proof/Machine/StateIo.lean ====
section
/-! DEFINITION. The meanings of RUN_CONFIG, GROUP_WRITE, STATE_LOAD and STATE_SAVE with their ends (R237, R239, R242, R243, R254,
R256, R264, R268, R269 of spec file 10; R465, R466 of 17). -/

namespace Sys2Proof.Machine

/-! ## RUN_CONFIG (R465) -/

/-- A TRAINING plan is loaded under the handle. -/
def Dev.isTraining (d : Dev) (h : Nat) : Bool := (d.plan h).ready && !(d.plan h).live

/-- Refusal of RUN_CONFIG, STATE_LOAD and STATE_SAVE: RESOURCE_BUSY while a step of the plan is in progress or waiting, or while
another of the three runs (0x07xx of 17, R444). -/
def Dev.stateRefusal (d : Dev) (h : Nat) : Option (Nat × Nat × List Nat) :=
  let p := d.plan h
  match d.planRefusal h with
  | some x => some x
  | none =>
    if p.cur.isSome || p.next.isSome || p.overlap.isSome then some (stBusy, portDetail p.port, [])
    else (d.plans.find? (fun e => e.2.stateCmds != [])).map (fun e => (stBusy, portDetail e.2.port, []))

/-- RUN_CONFIG writes the run state; policy STEP needs PARK to hold a step's reduced gradients (R237). -/
def execRunConfig (q plan run : Nat) (s : State) : Res :=
  let lay := [4, 512]
  startCmd s q 0x0701 lay [plan, run]
    (fun d => { param := firstBadField [(d.isTraining plan, 0), ((runConds run).all id, fieldByte lay 1)],
                own := match d.stateRefusal plan with
                  | some x => some x
                  | none => if rsStepPolicy run && !(d.plan plan).parkHolds then some (stNoMemory, 0, []) else none })
    (doneAt (fun d => d.updPlan plan (fun p => { p with run := some (cleanRun run) })))

/-! ## GROUP_WRITE (R242, R243, R256, R559) -/

/-- Conditions that tie a record to a tensor of its group, (R240, R559). -/
def Plan.tensorConds (p : Plan) (g : Nat) (t : TensorDecl) : List Bool :=
  let is (sym fw : Nat) : Bool := match p.sym sym with | some s => s.fmt % 2 ^ 11 == fw % 2 ^ 11 | none => false
  [ is t.wSym (oFmtW g), is t.mSym (oFmtM g), !oHasV g || is t.vSym (oFmtV g),
    !(oRule g == 5 && t.factored) || decide (t.rr + t.cc ≤ 2 ^ 20) ]

/-- Every condition on record `g` for group `n` of a plan. -/
def Plan.recordConds (p : Plan) (n g : Nat) : List Bool :=
  groupConds g ++ (p.tensors.filter (fun t => t.group == n)).flatMap (p.tensorConds g)

/-- STAGE holds four of the largest block under the plan's records (R256). -/
def Plan.stageHolds (p : Plan) : Bool := p.stageMin ≤ (p.area 1).2

/-- The plan with every pending record and one more in force. -/
def Plan.withRecord (p : Plan) (n g : Nat) : Plan :=
  { p with groupSet := n :: p.groupPend.map (·.1) ++ p.groupSet
           groups := Tab.set 0 (p.groupPend.foldl (fun (m : Tab Nat) (x : Nat × Nat × Nat) => Tab.set 0 m x.1 x.2.2) p.groups) n g }

/-- A step has started (R242). -/
def Plan.hasStarted (p : Plan) (s : Nat) : Bool := match p.lastStep with | some l => s ≤ l | none => false

/-- A write for a group and a step replaces an earlier one for the same. -/
def Plan.addRecord (p : Plan) (n s g : Nat) : Plan :=
  { p with groupPend := p.groupPend.filter (fun x => !(x.1 == n && x.2.1 == s)) ++ [(n, s, g)] }

/-- GROUP_WRITE (R242). -/
def execGroupWrite (q plan group step record : Nat) (s : State) : Res :=
  let lay := [4, 8, 64, 1024]
  startCmd s q 0x0702 lay [plan, group, step, record]
    (fun d => { param := firstBadField [(d.isTraining plan, 0), (!(d.plan plan).hasStarted step, fieldByte lay 2),
                  (((d.plan plan).recordConds group record).all id, fieldByte lay 3)],
                own := match d.planRefusal plan with
                  | some x => some x
                  | none => if ((d.plan plan).withRecord group record).stageHolds then none else some (stNoMemory, 0, []) })
    (doneAt (fun d => d.updPlan plan (fun p => p.addRecord group step (writtenGroup record))))

/-! ## The state image (R466) -/

/-- A shard block of an image: its block, its place in the image and its header. -/
structure ImgBlk where
  blk : Blk
  off : Nat
  hdr : Nat
  group : Nat
  first : Nat
  cnt : Nat
  deriving DecidableEq, Repr

/-- An image as read. -/
structure Img where
  nGroups : Nat
  nShards : Nat
  len : Nat
  run : Nat
  groups : List Nat
  blks : List ImgBlk
  total : Nat
  deriving DecidableEq, Repr

/-- Shards of a plan in increasing layer, tensor and shard. -/
def Plan.allShards (p : Plan) : List (TensorDecl × Nat) := p.tensorsUp.flatMap (fun t => (List.range (p.shards t)).map (fun k => (t, k)))

/-- Read an image at an address, its blocks placed by the records it holds (R248, R466). -/
def Plan.readImage (p : Plan) (m : Tab Byte) (a : Nat) : Img :=
  let h := rdNat m a 64
  let n := bits h 0 9
  let gs := (List.range n).map (fun i => cleanGroup (rdNat m (a + 128 + 128 * i) 128))
  let r := p.allShards.foldl (fun (x : List ImgBlk × Nat) (t, k) =>
    let size := (p.lay (gs.getD t.group 0) t k).size
    let hd := rdNat m (a + x.2) 64
    let b : Blk := { layer := t.layer, tensor := t.tensor, shard := k, home := hdHome hd, size := size }
    (x.1 ++ [{ blk := b, off := x.2, hdr := hd, group := t.group, first := k * p.shardElems, cnt := p.shardCount t k }], x.2 + size))
    ([], 128 + 128 * n)
  { nGroups := n, nShards := bits h 32 32, len := bits h 64 64, run := cleanRun (rdNat m (a + 64) 64), groups := gs, blks := r.1, total := r.2 }

/-- A block's header names the shard that the plan has in its place (R247, R466). -/
def ImgBlk.ok (b : ImgBlk) : Bool :=
  bits b.hdr 200 8 == b.group && bits b.hdr 208 4 == b.blk.tensor && bits b.hdr 212 12 == b.blk.layer
    && bits b.hdr 288 48 == b.first && bits b.hdr 336 24 == b.cnt

/-- The plan with an image's records and run state in force. -/
def Plan.withImage (p : Plan) (x : Img) : Plan :=
  { p with run := some x.run, groupSet := List.range x.nGroups,
           groups := x.groups.zipIdx.foldl (fun (m : Tab Nat) (g, i) => Tab.set 0 m i g) [] }

/-- The completion of a half-done update under R268 would run before the group's first step (R243). -/
def ImgBlk.early (b : ImgBlk) (p : Plan) : Bool := hdMom b.hdr == hdW b.hdr + 1 && hdW b.hdr < oT0 (p.group b.group)

/-- The image breaks a check that gives BAD_PARAM. -/
def Plan.imageBad (p : Plan) (x : Img) : Bool :=
  256 < x.nGroups || x.len != x.total || x.nShards != x.blks.length
    || !((runConds x.run).all id) || !((x.groups.zipIdx.flatMap (fun (g, i) => p.recordConds i g)).all id)
    || !x.blks.all (fun b => b.ok && b.group < x.nGroups) || x.blks.any (fun b => b.early (p.withImage x))

/-- The image needs more memory than the plan's areas have (R237, R256, R466). -/
def Plan.imageTooBig (p : Plan) (x : Img) : Bool :=
  (placeHomes p (x.blks.map (·.blk)) []).isNone || !(p.withImage x).stageHolds || (rsStepPolicy x.run && !p.parkHolds)

/-! ## STATE_LOAD -/

/-- STATE_LOAD (R466): its checks, and ACCEPTED; its work ends with STATE_LOAD_DONE. -/
def execStateLoad (q plan src len : Nat) (s : State) : Res :=
  let lay := [4, 64, 64]
  let a := src % 2 ^ 48
  startCmd s q 0x0703 lay [plan, src, len]
    (fun d =>
      let x := (d.plan plan).readImage d.mem a
      { param := firstBadField [(d.isTraining plan, 0), ((d.unbacked a len).isNone && 128 ≤ len, fieldByte lay 1),
          (x.len ≤ len, fieldByte lay 2), (!(d.plan plan).imageBad x, fieldByte lay 1)],
        own := match d.stateRefusal plan with
          | some x => some x
          | none => if (d.plan plan).imageTooBig x then some (stNoMemory, 0, []) else none })
    (fun d c => (d.accept c).updPlan plan (fun p => { p with stateCmds := p.stateCmds ++ [(c.id, false, a, len)] }))

/-- Blocks of a loaded image put in their homes, QUARANTINED and STAGED clear; a block read with a parity error is named. -/
def Wk.loadBlocks (w : Wk) (a : Nat) : List (ImgBlk × Blk) → List Blk × Wk
  | [] => ([], w)
  | (x, b) :: rest =>
    let (bs, w1) := ({ w with bad := false }).read (a + x.off) b.size
    let h := mkHeader (leNat (bs.take 64)) w1.bad false
    let w2 := ({ w1 with bad := false }.write b.addr bs).write b.addr (leBytes 64 h)
    let (bl, w3) := w2.loadBlocks a rest
    (b :: bl, w3)

/-- A shard whose update was half done when its state was saved completes it; tags that match no row quarantine it (R268, R269). -/
def Dev.finishShard (d : Dev) (h i : Nat) (cmd : Option Cmd) : Dev :=
  let hd := d.blkHeader i
  let b := d.cob.blk i
  if bit hd 194 then d
  else if hdMom hd = hdW hd then d
  else if hdMom hd = hdW hd + 1 then
    let s := hdW hd
    let p := d.plan h
    let p := { p with groups := p.groupSet.foldl (fun m n => Tab.upd 0 m n (fun g => deriveGroup g s)) p.groups }
    let r : StepRun := { step := s }
    let is := d.cob.tensorBlks b.layer b.tensor
    let t := (p.tensor b.layer b.tensor).getD {}
    let needStat := oRule (p.group t.group) = 4 ∧ hdStat (d.statHeader b) = s
    let go (d : Dev) (w : Wk) : Dev := match d.badBlks p w with
      | [] => d.absorbCob 8 cmd w
      | is => is.foldl Dev.quarantine (d.absorbFault 8 cmd w)
    let d := if needStat then go d (d.lambEnd (d.cobWork []) p r is) else d
    if bit (d.blkHeader i) 194 then d else (go d (d.passWork p r i 4 [])).count cobInst 0x35 1
  else d.quarantine i

/-- The layer goes to every pod as its last update sent it, and its fence entries take the loaded W_TAG (R254, R264). -/
def Dev.loadLayer (d : Dev) (h y : Nat) (cmd : Option Cmd) : Dev :=
  let p := d.plan h
  let is := d.cob.layerBlks y
  if is.any (fun i => bit (d.blkHeader i) 194) then d
  else
    let w := is.foldl (fun w i =>
      let sh := d.shOf p ((hdW (d.blkHeader i) + 2 ^ 64 - 1) % 2 ^ 64) i
      match p.sym sh.t.wSym with
      | some sy => let (ws, w) := w.master sh; w.multicast sh sy [0, 1, 2, 3] ws
      | none => w) (d.cobWork [])
    let tag := hdW (d.blkHeader (is.headD 0))
    ([0, 1, 2, 3] : List Nat).foldl (fun d q => d.openFence q y tag) (d.absorbCob 8 cmd w)

/-- The end of a load: blocks, groups and run state of the image, updates completed, layers multicast, fences set. -/
def Dev.loadState (d : Dev) (h cmd a : Nat) (flips : List Nat) : Dev :=
  let p := d.plan h
  let x := p.readImage d.mem a
  let (_, w0) := (d.cobWork flips).read a (128 + 128 * x.nGroups)
  let homes := (placeHomes p (x.blks.map (·.blk)) []).getD []
  if w0.bad then (d.absorbFault 12 (d.host.cmd cmd) w0).finish cmd stParity 0 []
  else
    let (bl, w) := w0.loadBlocks a (x.blks.zip homes)
    let d := d.absorbCob 12 (d.host.cmd cmd) w
    let d := { d with cob := { plan := some h, blks := bl, unitStop := d.cob.unitStop } }
    let q := ((List.range bl.length).filter (fun i => bit (d.blkHeader i) 194)).length
    let d := { d with ctr := bump d.ctr cobInst 0x37 q }
    let d := d.updPlan h (fun p => { (p.withImage x) with stateLoaded := true, lastStep := none, blocked := 0 })
    let d := (List.range bl.length).foldl (fun d i => d.finishShard h i (d.host.cmd cmd)) d
    let d := p.layersUp.foldl (fun d y => d.loadLayer h y (d.host.cmd cmd)) d
    match (List.range bl.length).find? (fun i => bit (d.blkHeader i) 194) with
    | some i =>
      let b := d.cob.blk i
      let d := d.updPlan h (fun p => { p with blocked := stParity })
      d.finish cmd stParity 0 [packBits [(96, 0), (32, faultFields b.layer b.tensor 0 b.shard)]]
    | none => d.finish cmd stDone 0 []

/-- The oldest parameter-state command of a plan ends, if it is of this kind; a load waits until no step is in progress. -/
def Dev.stateEnds (d : Dev) (h : Nat) (save : Bool) (f : Dev → Nat → Nat → Nat → Dev) : Option Dev :=
  let p := d.plan h
  match p.stateCmds with
  | (cmd, k, a, n) :: rest =>
    if k != save || (!save && (p.cur.isSome || p.next.isSome || p.overlap.isSome)) then none
    else some (f (d.updPlan h (fun p => { p with stateCmds := rest })) cmd a n)
  | [] => none

/-- STATE_LOAD_DONE (R239, R254, R264, R268, R269, R466). -/
def execStateLoadDone (plan : Nat) (flips : List Nat) (s : State) : Res :=
  eventFlips s flips (s.dev.stateEnds plan false (fun d cmd a _ => d.loadState plan cmd a flips))

/-! ## STATE_SAVE -/

/-- Groups of a plan's image: up to the highest that holds a record. -/
def Plan.nGroups (p : Plan) : Nat := p.groupSet.foldl (fun m n => max m (n + 1)) 0

/-- Bytes of the image of a plan's state (R466). -/
def Dev.imageLen (d : Dev) (h : Nat) : Nat := 128 + 128 * (d.plan h).nGroups + (d.cob.blks.map (·.size)).sum

/-- STATE_SAVE (R466): its checks, and ACCEPTED; a LEN below the image fails at LEN (log entry 21). -/
def execStateSave (q plan dest len : Nat) (s : State) : Res :=
  let lay := [4, 64, 64]
  let a := dest % 2 ^ 48
  startCmd s q 0x0704 lay [plan, dest, len]
    (fun d =>
      { param := firstBadField [(d.isTraining plan, 0), ((d.unwritable a (d.imageLen plan)).isNone, fieldByte lay 1),
          (d.imageLen plan ≤ len, fieldByte lay 2)],
        own := d.stateRefusal plan })
    (fun d c => (d.accept c).updPlan plan (fun p => { p with stateCmds := p.stateCmds ++ [(c.id, true, a, len)] }))

/-- Blocks written one after the other; a block that meets a parity error is written as free bytes, and named. -/
def Wk.saveBlocks (w : Wk) : List (Nat × Blk) → Nat → List Nat × Wk
  | [], _ => ([], w)
  | (i, b) :: rest, a =>
    let (bs, w1) := ({ w with bad := false }).read b.cur b.size
    let out := if w1.bad then (List.range b.size).map (fun k => Config.freeByte (w.free * 2 ^ 64 + a + k)) else bs
    let (q, w2) := ({ w1 with bad := false }.write a out).saveBlocks rest (a + b.size)
    (if w1.bad then i :: q else q, w2)

/-- The end of a save: the image stands at its place; shards that met a parity error are quarantined (R466). -/
def Dev.saveState (d : Dev) (h cmd a : Nat) (flips : List Nat) : Dev :=
  let p := d.plan h
  let n := p.nGroups
  let bl := d.cob.blks
  let hd := packBits [(9, n), (23, 0), (32, bl.length), (64, d.imageLen h)]
  let w := (d.cobWork flips).write a (leBytes 64 hd ++ leBytes 64 (p.run.getD 0) ++ (List.range n).flatMap (fun i => leBytes 128 (p.group i)))
  let (bad, w) := w.saveBlocks ((List.range bl.length).zip bl) (a + 128 + 128 * n)
  let d := bad.foldl (fun d i => d.quarantine i) (d.absorbCob 12 (d.host.cmd cmd) w)
  match bad with
  | [] => d.finish cmd stDone 0 []
  | i :: _ =>
    let b := d.cob.blk i
    let d := d.updPlan h (fun p => { p with blocked := if p.cur.isSome then p.blocked else stParity })
    d.finish cmd stParity 0 [packBits [(96, 0), (32, faultFields b.layer b.tensor 0 b.shard)]]

/-- STATE_SAVE_DONE (R239, R466). -/
def execStateSaveDone (plan : Nat) (flips : List Nat) (s : State) : Res :=
  eventFlips s flips (s.dev.stateEnds plan true (fun d cmd a _ => d.saveState plan cmd a flips))

end Sys2Proof.Machine
end

