-- ==== Sys2Proof/Machine/Dispatch.lean ====
section
/-! DEFINITION. One arm per constructor of Instr: a direct call of the command's meaning. -/

namespace Sys2Proof.Machine

/-- The effect of one command or event on everything but the queue. -/
def exec (i : Instr) (s : State) : Host.Outcome State Fault Refusal :=
  match i with
  | .nop q => Sys2Proof.Machine.execNop q s
  | .identify q => Sys2Proof.Machine.execIdentify q s
  | .getStatus q => Sys2Proof.Machine.execGetStatus q s
  | .readFaultLog q dest => Sys2Proof.Machine.execReadFaultLog q dest s
  | .reset q => Sys2Proof.Machine.execReset q s
  | .resetExecute => Sys2Proof.Machine.execResetExecute s
  | .gpioClaim q pin => Sys2Proof.Machine.execGpioClaim q pin s
  | .gpioRelease q pin => Sys2Proof.Machine.execGpioRelease q pin s
  | .gpioSet q pin mode value alt => Sys2Proof.Machine.execGpioSet q pin mode value alt s
  | .fence q => Sys2Proof.Machine.execFence q s
  | .fill q dest len value => Sys2Proof.Machine.execFill q dest len value s
  | .writeInline q dest data => Sys2Proof.Machine.execWriteInline q dest data s
  | .poolCreate q pod pool frameBytes base frames => Sys2Proof.Machine.execPoolCreate q pod pool frameBytes base frames s
  | .poolDestroy q pod pool => Sys2Proof.Machine.execPoolDestroy q pod pool s
  | .seqCreate q pod pool table entries ringPages => Sys2Proof.Machine.execSeqCreate q pod pool table entries ringPages s
  | .seqDestroy q pod table => Sys2Proof.Machine.execSeqDestroy q pod table s
  | .pageAlloc q pod table entry lpage => Sys2Proof.Machine.execPageAlloc q pod table entry lpage s
  | .pageShare q pod srcTable srcEntry dstTable dstEntry => Sys2Proof.Machine.execPageShare q pod srcTable srcEntry dstTable dstEntry s
  | .pageFree q pod table entry => Sys2Proof.Machine.execPageFree q pod table entry s
  | .planLoad q src len => Sys2Proof.Machine.execPlanLoad q src len s
  | .planUnload q plan => Sys2Proof.Machine.execPlanUnload q plan s
  | .runStep q plan step => Sys2Proof.Machine.execRunStep q plan step s
  | .stepAbort q plan => Sys2Proof.Machine.execStepAbort q plan s
  | .waitingStepStart plan => Sys2Proof.Machine.execWaitingStepStart plan s
  | .stepComplete plan => Sys2Proof.Machine.execStepComplete plan s
  | .streamOpen q record => Sys2Proof.Machine.execStreamOpen q record s
  | .streamClose q stream => Sys2Proof.Machine.execStreamClose q stream s
  | .ingestConfig q profile dests => Sys2Proof.Machine.execIngestConfig q profile dests s
  | .ingestRing q ring kind log2 entryBase compBase batchBase handoffBase => Sys2Proof.Machine.execIngestRing q ring kind log2 entryBase compBase batchBase handoffBase s
  | .ingestDoorbell q ring tail => Sys2Proof.Machine.execIngestDoorbell q ring tail s
  | .ingestRingClose q ring => Sys2Proof.Machine.execIngestRingClose q ring s
  | .tableLoad q kind src len => Sys2Proof.Machine.execTableLoad q kind src len s
  | .ingestReport q dest => Sys2Proof.Machine.execIngestReport q dest s
  | .runConfig q plan run => Sys2Proof.Machine.execRunConfig q plan run s
  | .groupWrite q plan group step record => Sys2Proof.Machine.execGroupWrite q plan group step record s
  | .stateLoad q plan src len => Sys2Proof.Machine.execStateLoad q plan src len s
  | .stateSave q plan dest len => Sys2Proof.Machine.execStateSave q plan dest len s
  | .domainOn q id => Sys2Proof.Machine.execDomainOn q id s
  | .domainOff q id => Sys2Proof.Machine.execDomainOff q id s
  | .domainAuto q id => Sys2Proof.Machine.execDomainAuto q id s
  | .setEnergyBudget q record => Sys2Proof.Machine.execSetEnergyBudget q record s
  | .ageingReport q dest => Sys2Proof.Machine.execAgeingReport q dest s
  | .cadenceConfig q cad lock sched => Sys2Proof.Machine.execCadenceConfig q cad lock sched s
  | .eventSet q slot => Sys2Proof.Machine.execEventSet q slot s
  | .eventClear q slot => Sys2Proof.Machine.execEventClear q slot s
  | .timerClaim q timer periodic interval slot => Sys2Proof.Machine.execTimerClaim q timer periodic interval slot s
  | .timerRelease q timer => Sys2Proof.Machine.execTimerRelease q timer s
  | .latchSetDefine q set counters => Sys2Proof.Machine.execLatchSetDefine q set counters s
  | .traceArm q buffer sources dest len => Sys2Proof.Machine.execTraceArm q buffer sources dest len s
  | .traceStop q buffer => Sys2Proof.Machine.execTraceStop q buffer s
  | .dumpTensor q plan symbol step dest len => Sys2Proof.Machine.execDumpTensor q plan symbol step dest len s
  | .readTileCounter q pod counter => Sys2Proof.Machine.execReadTileCounter q pod counter s
  | .fwUpdate q image src len verifies => Sys2Proof.Machine.execFwUpdate q image src len verifies s
  | .fwSelect q image verifies => Sys2Proof.Machine.execFwSelect q image verifies s
  | .lifecycle q target cred credLen verifies seed key => Sys2Proof.Machine.execLifecycle q target cred credLen verifies seed key s
  | .lifecycleRestart => Sys2Proof.Machine.execLifecycleRestart s
  | .attest q nonce dest len signature => Sys2Proof.Machine.execAttest q nonce dest len signature s
  | .channelClaim q resource => Sys2Proof.Machine.execChannelClaim q resource s
  | .channelRelease q resource => Sys2Proof.Machine.execChannelRelease q resource s
  | .encOpen q config => Sys2Proof.Machine.execEncOpen q config s
  | .encSubmit q session forceIdr picture pts => Sys2Proof.Machine.execEncSubmit q session forceIdr picture pts s
  | .encConfig q session config => Sys2Proof.Machine.execEncConfig q session config s
  | .encClose q session => Sys2Proof.Machine.execEncClose q session s
  | .registerWrite port offset size value => Sys2Proof.Machine.execRegisterWrite port offset size value s
  | .misalignedWindowAccess port write offset size => Sys2Proof.Machine.execMisalignedWindowAccess port write offset size s
  | .cqTail port queue value => Sys2Proof.Machine.execCqTail port queue value s
  | .queueEnable port queue => Sys2Proof.Machine.execQueueEnable port queue s
  | .qReset port queue => Sys2Proof.Machine.execQReset port queue s
  | .queueDrained q => Sys2Proof.Machine.execQueueDrained q s
  | .packetFetch q fetchFails => Sys2Proof.Machine.execPacketFetch q fetchFails s
  | .irqHoldoffEnd q => Sys2Proof.Machine.execIrqHoldoffEnd q s
  | .semAcquire port n low => Sys2Proof.Machine.execSemAcquire port n low s
  | .semRelease port n => Sys2Proof.Machine.execSemRelease port n s
  | .beatNowRead port => Sys2Proof.Machine.execBeatNowRead port s
  | .deviceTimeRead port half => Sys2Proof.Machine.execDeviceTimeRead port half s
  | .linkTrained port width rate => Sys2Proof.Machine.execLinkTrained port width rate s
  | .linkRetrain port corrected replayed => Sys2Proof.Machine.execLinkRetrain port corrected replayed s
  | .portReset port => Sys2Proof.Machine.execPortReset port s
  | .ptpSyncRecord port ptpTime => Sys2Proof.Machine.execPtpSyncRecord port ptpTime s
  | .ptpSyncTimeout => Sys2Proof.Machine.execPtpSyncTimeout s
  | .resetNAssert => Sys2Proof.Machine.execResetNAssert s
  | .resetNRelease => Sys2Proof.Machine.execResetNRelease s
  | .firmwareVerified statusA statusB => Sys2Proof.Machine.execFirmwareVerified statusA statusB s
  | .d2dTrained ok => Sys2Proof.Machine.execD2dTrained ok s
  | .gddr7Trained ok => Sys2Proof.Machine.execGddr7Trained ok s
  | .selfTestDone failed othersPass => Sys2Proof.Machine.execSelfTestDone failed othersPass s
  | .startWipeDone ok => Sys2Proof.Machine.execStartWipeDone ok s
  | .startStageTimeout => Sys2Proof.Machine.execStartStageTimeout s
  | .huskRestart => Sys2Proof.Machine.execHuskRestart s
  | .attestTreeDone => Sys2Proof.Machine.execAttestTreeDone s
  | .jtagInstruction ir => Sys2Proof.Machine.execJtagInstruction ir s
  | .smbusBlockRead code => Sys2Proof.Machine.execSmbusBlockRead code s
  | .smbusAlertResponse => Sys2Proof.Machine.execSmbusAlertResponse s
  | .powerBrakeAssert => Sys2Proof.Machine.execPowerBrakeAssert s
  | .powerBrakeRelease => Sys2Proof.Machine.execPowerBrakeRelease s
  | .sensorReading temps => Sys2Proof.Machine.execSensorReading temps s
  | .railSample readings podFixed => Sys2Proof.Machine.execRailSample readings podFixed s
  | .fastLimit rail => Sys2Proof.Machine.execFastLimit rail s
  | .fastLimitStop rail => Sys2Proof.Machine.execFastLimitStop rail s
  | .fastLimitRestore rail => Sys2Proof.Machine.execFastLimitRestore rail s
  | .railVoltageReached rail => Sys2Proof.Machine.execRailVoltageReached rail s
  | .avsVoltageTimeout rail => Sys2Proof.Machine.execAvsVoltageTimeout rail s
  | .avsbusRetry rail ok => Sys2Proof.Machine.execAvsbusRetry rail ok s
  | .budgetCheckpoint => Sys2Proof.Machine.execBudgetCheckpoint s
  | .telemetrySnapshot => Sys2Proof.Machine.execTelemetrySnapshot s
  | .idleOffExpiry domain => Sys2Proof.Machine.execIdleOffExpiry domain s
  | .ageingReading domain stressed reference => Sys2Proof.Machine.execAgeingReading domain stressed reference s
  | .domainPoweredUp domain => Sys2Proof.Machine.execDomainPoweredUp domain s
  | .domainDrained domain => Sys2Proof.Machine.execDomainDrained domain s
  | .wipeDone domain => Sys2Proof.Machine.execWipeDone domain s
  | .powerDownDone domain => Sys2Proof.Machine.execPowerDownDone domain s
  | .offDwellEnd domain => Sys2Proof.Machine.execOffDwellEnd domain s
  | .beatStart => Sys2Proof.Machine.execBeatStart s
  | .cadenceInEdge highNs => Sys2Proof.Machine.execCadenceInEdge highNs s
  | .refWindowEnd => Sys2Proof.Machine.execRefWindowEnd s
  | .cadenceOutPulse => Sys2Proof.Machine.execCadenceOutPulse s
  | .pulseWidthEnd pin => Sys2Proof.Machine.execPulseWidthEnd pin s
  | .eventSlotFire slot => Sys2Proof.Machine.execEventSlotFire slot s
  | .schedulerTimerFire timer => Sys2Proof.Machine.execSchedulerTimerFire timer s
  | .liveTaskStart stream => Sys2Proof.Machine.execLiveTaskStart stream s
  | .contextSaveDone core => Sys2Proof.Machine.execContextSaveDone core s
  | .quantumExpiry core => Sys2Proof.Machine.execQuantumExpiry core s
  | .liveTaskComplete stream => Sys2Proof.Machine.execLiveTaskComplete stream s
  | .contextRestoreDone core => Sys2Proof.Machine.execContextRestoreDone core s
  | .liveDeadline stream => Sys2Proof.Machine.execLiveDeadline stream s
  | .descriptorIssue core flips => Sys2Proof.Machine.execDescriptorIssue core flips s
  | .matmulComplete core engine flips => Sys2Proof.Machine.execMatmulComplete core engine flips s
  | .convComplete core engine flips => Sys2Proof.Machine.execConvComplete core engine flips s
  | .combineComplete core engine flips => Sys2Proof.Machine.execCombineComplete core engine flips s
  | .vectorComplete core flips => Sys2Proof.Machine.execVectorComplete core flips s
  | .attentionComplete core flips => Sys2Proof.Machine.execAttentionComplete core flips s
  | .moveComplete core flips => Sys2Proof.Machine.execMoveComplete core flips s
  | .moveArrival core => Sys2Proof.Machine.execMoveArrival core s
  | .counterArm pod counter => Sys2Proof.Machine.execCounterArm pod counter s
  | .tileClaim core => Sys2Proof.Machine.execTileClaim core s
  | .tileCompletion core => Sys2Proof.Machine.execTileCompletion core s
  | .reissueTimeout pod counter index => Sys2Proof.Machine.execReissueTimeout pod counter index s
  | .pageArrival src flips => Sys2Proof.Machine.execPageArrival src flips s
  | .gradientChunkArrival pod flips => Sys2Proof.Machine.execGradientChunkArrival pod flips s
  | .updatePassComplete unit flips => Sys2Proof.Machine.execUpdatePassComplete unit flips s
  | .stageBlockArrival flips => Sys2Proof.Machine.execStageBlockArrival flips s
  | .writebackArrival block flips => Sys2Proof.Machine.execWritebackArrival block flips s
  | .multicastArrival pod layer flips => Sys2Proof.Machine.execMulticastArrival pod layer flips s
  | .hullerJobTake ring => Sys2Proof.Machine.execHullerJobTake ring s
  | .hullerJobStart block => Sys2Proof.Machine.execHullerJobStart block s
  | .hullerLivePreempt block => Sys2Proof.Machine.execHullerLivePreempt block s
  | .hullerJobComplete block flips ctxBad => Sys2Proof.Machine.execHullerJobComplete block flips ctxBad s
  | .sampleTake ring => Sys2Proof.Machine.execSampleTake ring s
  | .shaperPicture => Sys2Proof.Machine.execShaperPicture s
  | .sampleBudgetExpiry ordinal => Sys2Proof.Machine.execSampleBudgetExpiry ordinal s
  | .batchDeadline batch => Sys2Proof.Machine.execBatchDeadline batch s
  | .batchReady batch => Sys2Proof.Machine.execBatchReady batch s
  | .liveInputReady stream => Sys2Proof.Machine.execLiveInputReady stream s
  | .encPictureStart => Sys2Proof.Machine.execEncPictureStart s
  | .encRowCoded => Sys2Proof.Machine.execEncRowCoded s
  | .encSliceWrite => Sys2Proof.Machine.execEncSliceWrite s
  | .encRingWaitLimit => Sys2Proof.Machine.execEncRingWaitLimit s
  | .encPictureDone => Sys2Proof.Machine.execEncPictureDone s
  | .channelTail port channel value => Sys2Proof.Machine.execChannelTail port channel value s
  | .channelStart port channel => Sys2Proof.Machine.execChannelStart port channel s
  | .channelPause port channel => Sys2Proof.Machine.execChannelPause port channel s
  | .channelResume port channel => Sys2Proof.Machine.execChannelResume port channel s
  | .channelRetry port channel => Sys2Proof.Machine.execChannelRetry port channel s
  | .channelSkip port channel => Sys2Proof.Machine.execChannelSkip port channel s
  | .channelReset port channel => Sys2Proof.Machine.execChannelReset port channel s
  | .channelQuiesced channel => Sys2Proof.Machine.execChannelQuiesced channel s
  | .moverBurst engine flips => Sys2Proof.Machine.execMoverBurst engine flips s
  | .descriptorWriteBack channel => Sys2Proof.Machine.execDescriptorWriteBack channel s
  | .moverFenceDone channel => Sys2Proof.Machine.execMoverFenceDone channel s
  | .moverFault channel status addr => Sys2Proof.Machine.execMoverFault channel status addr s
  | .hostTransferTimeout channel => Sys2Proof.Machine.execHostTransferTimeout channel s
  | .traceRecord die => Sys2Proof.Machine.execTraceRecord die s
  | .traceRecordWrite => Sys2Proof.Machine.execTraceRecordWrite s
  | .dumpRead flips => Sys2Proof.Machine.execDumpRead flips s
  | .latchEnd cmd => Sys2Proof.Machine.execLatchEnd cmd s
  | .stopPointReached core engine tiles flips => Sys2Proof.Machine.execStopPointReached core engine tiles flips s
  | .planLoadDone plan => Sys2Proof.Machine.execPlanLoadDone plan s
  | .tableLoadDone kind num => Sys2Proof.Machine.execTableLoadDone kind num s
  | .stateLoadDone plan flips => Sys2Proof.Machine.execStateLoadDone plan flips s
  | .stateSaveDone plan flips => Sys2Proof.Machine.execStateSaveDone plan flips s
  | .fwUpdateDone matches_ => Sys2Proof.Machine.execFwUpdateDone matches_ s
  | .vddAonRise => Sys2Proof.Machine.execVddAonRise s

end Sys2Proof.Machine
end

