-- ==== Sys2Proof/WellFormed.lean ====
section
/-! DEFINITION. Which commands are well formed: every packet field fits its width (R441, R442) and stands on a queue of
R419, and every event names a port, a queue, a unit or a record that the spec gives the device. The meanings are total and do
not ask for it. -/

namespace Sys2Proof

/-- A packet command: its queue, its opcode (R427), and its fields with their widths (R441). -/
structure PacketForm where
  queue : Nat
  opcode : Nat
  layout : List Nat
  fields : List Nat
  deriving DecidableEq, Repr

/-- The packet that a command of spec file 17 stands for; none for an event. -/
def Instr.packet : Instr → Option PacketForm
  | .nop q => some ⟨q, 0x0000, [], []⟩
  | .identify q => some ⟨q, 0x0001, [], []⟩
  | .getStatus q => some ⟨q, 0x0002, [], []⟩
  | .readFaultLog q dest => some ⟨q, 0x0003, [64], [dest]⟩
  | .reset q => some ⟨q, 0x0004, [], []⟩
  | .gpioClaim q pin => some ⟨q, 0x0010, [4], [pin]⟩
  | .gpioRelease q pin => some ⟨q, 0x0011, [4], [pin]⟩
  | .gpioSet q pin mode value alt => some ⟨q, 0x0012, [4, 2, 1, 4], [pin, mode, value, alt]⟩
  | .fence q => some ⟨q, 0x0201, [], []⟩
  | .fill q dest len value => some ⟨q, 0x0202, [64, 64, 8], [dest, len, value]⟩
  | .writeInline q dest data => some ⟨q, 0x0203, [64, 16], [dest, data.length]⟩
  | .poolCreate q pod pool frameBytes base frames => some ⟨q, 0x0210, [2, 2, 32, 64, 32], [pod, pool, frameBytes, base, frames]⟩
  | .poolDestroy q pod pool => some ⟨q, 0x0211, [2, 2], [pod, pool]⟩
  | .seqCreate q pod pool table entries ringPages => some ⟨q, 0x0212, [2, 2, 12, 16, 8], [pod, pool, table, entries, ringPages]⟩
  | .seqDestroy q pod table => some ⟨q, 0x0213, [2, 12], [pod, table]⟩
  | .pageAlloc q pod table entry lpage => some ⟨q, 0x0214, [2, 12, 16, 24], [pod, table, entry, lpage]⟩
  | .pageShare q pod srcTable srcEntry dstTable dstEntry =>
    some ⟨q, 0x0215, [2, 12, 16, 12, 16], [pod, srcTable, srcEntry, dstTable, dstEntry]⟩
  | .pageFree q pod table entry => some ⟨q, 0x0216, [2, 12, 16], [pod, table, entry]⟩
  | .planLoad q src len => some ⟨q, 0x0301, [64, 32], [src, len]⟩
  | .planUnload q plan => some ⟨q, 0x0302, [4], [plan]⟩
  | .runStep q plan step => some ⟨q, 0x0401, [4, 64], [plan, step]⟩
  | .stepAbort q plan => some ⟨q, 0x0402, [4], [plan]⟩
  | .streamOpen q record => some ⟨q, 0x0501, [640], [record]⟩
  | .streamClose q stream => some ⟨q, 0x0502, [4], [stream]⟩
  | .ingestConfig q profile dests => some ⟨q, 0x0601, 2048 :: List.replicate 16 512, profile :: dests⟩
  | .ingestRing q ring kind log2 entryBase compBase batchBase handoffBase =>
    some ⟨q, 0x0602, [4, 1, 5, 64, 64, 64, 64], [ring, kind, log2, entryBase, compBase, batchBase, handoffBase]⟩
  | .ingestDoorbell q ring tail => some ⟨q, 0x0603, [4, 32], [ring, tail]⟩
  | .ingestRingClose q ring => some ⟨q, 0x0604, [4], [ring]⟩
  | .tableLoad q kind src len => some ⟨q, 0x0605, [1, 64, 32], [kind, src, len]⟩
  | .ingestReport q dest => some ⟨q, 0x0606, [64], [dest]⟩
  | .runConfig q plan run => some ⟨q, 0x0701, [4, 512], [plan, run]⟩
  | .groupWrite q plan group step record => some ⟨q, 0x0702, [4, 8, 64, 1024], [plan, group, step, record]⟩
  | .stateLoad q plan src len => some ⟨q, 0x0703, [4, 64, 64], [plan, src, len]⟩
  | .stateSave q plan dest len => some ⟨q, 0x0704, [4, 64, 64], [plan, dest, len]⟩
  | .domainOn q id => some ⟨q, 0x0801, [8], [id]⟩
  | .domainOff q id => some ⟨q, 0x0802, [8], [id]⟩
  | .domainAuto q id => some ⟨q, 0x0803, [8], [id]⟩
  | .setEnergyBudget q record => some ⟨q, 0x0804, [128], [record]⟩
  | .ageingReport q dest => some ⟨q, 0x0805, [64], [dest]⟩
  | .cadenceConfig q cad lock sched => some ⟨q, 0x0901, [64, 64, 64], [cad, lock, sched]⟩
  | .eventSet q slot => some ⟨q, 0x0902, [256], [slot]⟩
  | .eventClear q slot => some ⟨q, 0x0903, [8], [slot]⟩
  | .timerClaim q timer periodic interval slot => some ⟨q, 0x0904, [3, 1, 32, 256], [timer, periodic, interval, slot]⟩
  | .timerRelease q timer => some ⟨q, 0x0905, [3], [timer]⟩
  | .latchSetDefine q set counters => some ⟨q, 0x0A01, 8 :: List.replicate 16 16, set :: counters⟩
  | .traceArm q buffer sources dest len => some ⟨q, 0x0A02, [2, 32, 64, 32], [buffer, sources, dest, len]⟩
  | .traceStop q buffer => some ⟨q, 0x0A03, [2], [buffer]⟩
  | .dumpTensor q plan symbol step dest len => some ⟨q, 0x0A04, [4, 32, 64, 64, 32], [plan, symbol, step, dest, len]⟩
  | .readTileCounter q pod counter => some ⟨q, 0x0A05, [2, 6], [pod, counter]⟩
  | .fwUpdate q image src len _ => some ⟨q, 0x0B01, [1, 64, 32], [image, src, len]⟩
  | .fwSelect q image _ => some ⟨q, 0x0B02, [1], [image]⟩
  | .lifecycle q target cred credLen _ _ _ => some ⟨q, 0x0B03, [3, 64, 32], [target, cred, credLen]⟩
  | .attest q nonce dest len _ => some ⟨q, 0x0B04, [256, 64, 32], [nonce, dest, len]⟩
  | .channelClaim q resource => some ⟨q, 0x0C01, [16], [resource]⟩
  | .channelRelease q resource => some ⟨q, 0x0C02, [16], [resource]⟩
  | .encOpen q config => some ⟨q, 0x0D01, [1024], [config]⟩
  | .encSubmit q session forceIdr picture pts => some ⟨q, 0x0D02, [2, 1, 64, 64], [session, forceIdr, picture, pts]⟩
  | .encConfig q session config => some ⟨q, 0x0D03, [2, 1024], [session, config]⟩
  | .encClose q session => some ⟨q, 0x0D04, [2], [session]⟩
  | .resetExecute | .waitingStepStart _ | .stepComplete _ | .lifecycleRestart | .registerWrite .. | .misalignedWindowAccess .. | .cqTail ..
  | .queueEnable .. | .qReset .. | .queueDrained _ | .packetFetch .. | .irqHoldoffEnd _ | .semAcquire .. | .semRelease ..
  | .beatNowRead _ | .deviceTimeRead .. | .linkTrained .. | .linkRetrain .. | .portReset _ | .ptpSyncRecord .. | .ptpSyncTimeout
  | .resetNAssert | .resetNRelease | .firmwareVerified .. | .d2dTrained _ | .gddr7Trained _ | .selfTestDone .. | .startWipeDone _
  | .startStageTimeout | .huskRestart | .attestTreeDone | .jtagInstruction _ | .smbusBlockRead _ | .smbusAlertResponse | .powerBrakeAssert
  | .powerBrakeRelease | .sensorReading _ | .railSample .. | .fastLimit _ | .fastLimitStop _ | .fastLimitRestore _ | .railVoltageReached _
  | .avsVoltageTimeout _ | .avsbusRetry .. | .budgetCheckpoint | .telemetrySnapshot | .idleOffExpiry _ | .ageingReading ..
  | .domainPoweredUp _ | .domainDrained _ | .wipeDone _ | .powerDownDone _ | .offDwellEnd _ | .beatStart | .cadenceInEdge _ | .refWindowEnd
  | .cadenceOutPulse | .pulseWidthEnd _ | .eventSlotFire _ | .schedulerTimerFire _ | .liveTaskStart _ | .contextSaveDone _ | .quantumExpiry _
  | .liveTaskComplete _ | .contextRestoreDone _ | .liveDeadline _ | .descriptorIssue .. | .matmulComplete .. | .convComplete ..
  | .combineComplete .. | .vectorComplete .. | .attentionComplete .. | .moveComplete .. | .moveArrival _ | .counterArm .. | .tileClaim _
  | .tileCompletion _ | .reissueTimeout .. | .pageArrival .. | .gradientChunkArrival .. | .updatePassComplete .. | .stageBlockArrival _
  | .writebackArrival .. | .multicastArrival .. | .hullerJobTake _ | .hullerJobStart _ | .hullerLivePreempt _ | .hullerJobComplete ..
  | .sampleTake _ | .shaperPicture | .sampleBudgetExpiry _ | .batchDeadline _ | .batchReady _ | .liveInputReady _ | .encPictureStart
  | .encRowCoded | .encSliceWrite | .encRingWaitLimit | .encPictureDone | .channelTail .. | .channelStart .. | .channelPause ..
  | .channelResume .. | .channelRetry .. | .channelSkip .. | .channelReset .. | .channelQuiesced _ | .moverBurst .. | .descriptorWriteBack _
  | .moverFenceDone _ | .moverFault .. | .hostTransferTimeout _ | .traceRecord _ | .traceRecordWrite | .dumpRead _ | .latchEnd _
  | .stopPointReached .. | .planLoadDone _ | .tableLoadDone .. | .stateLoadDone .. | .stateSaveDone .. | .fwUpdateDone _ | .vddAonRise => none

/-- A packet on one of the 16 queues, each field within its width. -/
def PacketForm.wf (p : PacketForm) : Bool :=
  p.queue < 16 && p.fields.length == p.layout.length && (p.fields.zip p.layout).all (fun x => x.1 < 2 ^ x.2)

/-- A write or read of the control window by a port: 1 to 8 bytes, the value within them (R416). -/
def windowOperands (port offset size value : Nat) : Bool :=
  port < 2 && offset < 0x100000 && 1 ≤ size && size ≤ 8 && value < 2 ^ (8 * size)

/-- What an event may name; a packet command is judged by its packet. -/
def Instr.eventWf : Instr → Bool
  | .registerWrite port offset size value => windowOperands port offset size value
  | .misalignedWindowAccess port _ offset size => windowOperands port offset size 0
  | .cqTail port queue value => port < 2 && queue < 8 && value < 2 ^ 32
  | .queueEnable port queue => port < 2 && queue < 8
  | .qReset port queue => port < 2 && queue < 8
  | .queueDrained q => q < 16
  | .packetFetch q _ => q < 16
  | .irqHoldoffEnd q => q < 16
  | .semAcquire port n _ => port < 2 && n < 64
  | .semRelease port n => port < 2 && n < 64
  | .beatNowRead port => port < 2
  | .deviceTimeRead port half => port < 2 && half ≤ 2
  | .linkTrained port width rate => port < 2 && 1 ≤ width && width ≤ 3 && 1 ≤ rate && rate ≤ 2
  | .linkRetrain port _ _ => port < 2
  | .portReset port => port < 2
  | .ptpSyncRecord port ptpTime => port < 2 && ptpTime < 2 ^ 64
  | .selfTestDone failed _ => failed < 2 ^ 48
  | .smbusBlockRead code => code < 2 ^ 8
  | .sensorReading temps => temps.length == 86
  | .railSample readings _ => readings.length == 9
  | .fastLimit rail => rail < 5
  | .fastLimitStop rail => rail < 5
  | .fastLimitRestore rail => rail < 5
  | .railVoltageReached rail => rail < 5
  | .avsVoltageTimeout rail => rail < 5
  | .avsbusRetry rail _ => rail < 5
  | .idleOffExpiry domain => domain ≤ 84
  | .ageingReading domain _ _ => domain ≤ 85
  | .domainPoweredUp domain => domain ≤ 84
  | .domainDrained domain => domain ≤ 84
  | .wipeDone domain => domain ≤ 84
  | .powerDownDone domain => domain ≤ 84
  | .offDwellEnd domain => domain ≤ 84
  | .pulseWidthEnd pin => pin ≤ 16
  | .eventSlotFire slot => slot < 256
  | .schedulerTimerFire timer => timer < 8
  | .liveTaskStart stream => stream < 16
  | .contextSaveDone core => core < 192
  | .quantumExpiry core => core < 192
  | .liveTaskComplete stream => stream < 16
  | .contextRestoreDone core => core < 192
  | .liveDeadline stream => stream < 16
  | .descriptorIssue core _ => core < 192
  | .matmulComplete core engine _ => core < 192 && engine < 4
  | .convComplete core engine _ => core < 192 && engine < 4
  | .combineComplete core engine _ => core < 192 && engine < 4
  | .vectorComplete core _ => core < 192
  | .attentionComplete core _ => core < 192
  | .moveComplete core _ => core < 192
  | .moveArrival core => core < 192
  | .stopPointReached core engine _ _ => core < 192 && engine < 4
  | .counterArm pod counter => pod < 4 && counter < 64
  | .tileClaim core => core < 192
  | .tileCompletion core => core < 192
  | .reissueTimeout pod counter _ => pod < 4 && counter < 64
  | .pageArrival src _ => src < 4
  | .gradientChunkArrival pod _ => pod < 4
  | .updatePassComplete unit _ => unit < 4
  | .multicastArrival pod _ _ => pod < 4
  | .waitingStepStart plan => plan < 16
  | .stepComplete plan => plan < 16
  | .planLoadDone plan => plan < 16
  | .stateLoadDone plan _ => plan < 16
  | .stateSaveDone plan _ => plan < 16
  | .tableLoadDone kind num => kind < 2 && num < 2 ^ 32
  | .hullerJobTake ring => ring < 16
  | .sampleTake ring => ring < 16
  | .liveInputReady stream => stream < 16
  | .channelTail port channel value => port < 2 && channel < 96 && value < 2 ^ 32
  | .channelStart port channel => port < 2 && channel < 96
  | .channelPause port channel => port < 2 && channel < 96
  | .channelResume port channel => port < 2 && channel < 96
  | .channelRetry port channel => port < 2 && channel < 96
  | .channelSkip port channel => port < 2 && channel < 96
  | .channelReset port channel => port < 2 && channel < 96
  | .channelQuiesced channel => channel < 96
  | .moverBurst engine _ => engine < 5
  | .descriptorWriteBack channel => channel < 96
  | .moverFenceDone channel => channel < 96
  | .moverFault channel status addr => channel < 96 && status < 16 && addr < 2 ^ 48
  | .hostTransferTimeout channel => channel < 96
  | .traceRecord die => die < 5
  | .lifecycle _ _ _ _ _ seed key => seed < 2 ^ 256 && key < 2 ^ 480
  | .attest _ _ _ _ signature => signature.length == 5396
  | .writeInline _ _ data => data.length ≤ 4048
  | _ => true

/-- A command is well formed. -/
def Instr.wf (i : Instr) : Bool :=
  i.eventWf && match i.packet with | some p => p.wf | none => true

end Sys2Proof
end

