-- ==== Sys2Proof/Safety.lean ====
section
/-! DEFINITION. The terms that claims are stated in: what holds in every state of a run, when a packet command starts, and what
replies alone change. -/

namespace Sys2Proof.Machine

/-- The one-time-programmable cells of the Husk (R499). -/
structure Otp where
  lcWord : Nat      -- LC_WORD
  lcPrior : Nat     -- the state that DEBUG_OPEN returns to
  lcCount : Nat     -- LC_COUNT
  svnFloor : Nat    -- SVN_FLOOR
  customerKey : Nat -- CUSTOMER_KEY
  secretSeed : Nat  -- SECRET_SEED
  attestStep : Nat  -- ATTEST_STEP
  deriving DecidableEq, Repr

/-- The cells as they stand. -/
def Plat.otp (p : Plat) : Otp :=
  ⟨p.lcWord, p.lcPrior, p.lcCount, p.svnFloor, p.customerKey, p.secretSeed, p.attestStep⟩

/-- The fault log keeps at most 64 records, and counts lost ones only once it is full (R144). -/
def LogOk (log : List FaultRec) (lost : Nat) : Prop := log.length ≤ 64 ∧ (0 < lost → log.length = 64)

/-- Memory stands in its canonical form: addresses strictly rising, no entry equal to what an unlisted address reads as. -/
def Memory.wf (m : Tab Byte) : Bool := Tab.wf 0 m
/-- The parity marks stand in canonical form. -/
def Poison.wf (p : Tab Bool) : Bool := Tab.wf false p
/-- The counters stand in canonical form. -/
def Counters.wf (c : Tab Nat) : Bool := Tab.wf 0 c

/-- Memory, byte parity and counters stand in canonical form, and the fault log is in order. -/
structure Dev.Sound (d : Dev) : Prop where
  mem : Memory.wf d.mem = true
  poison : Poison.wf d.poison = true
  ctr : Counters.wf d.ctr = true
  log : LogOk d.plat.faultLog d.plat.faultLost

/-- The life-cycle word is a state of R505, its count is within its 1,024 cells, and DEBUG_OPEN returns to PROVISIONED or FIELD. -/
structure Otp.Legal (o : Otp) : Prop where
  word : o.lcWord ≤ 4
  count : o.lcCount ≤ 1024
  prior : o.lcWord = 4 → o.lcPrior = 1 ∨ o.lcPrior = 2
  step : o.attestStep ≤ 4096

/-- No cell of a monotonic array returns, and RETIRED stays (R499, R506). -/
structure Otp.Forward (a b : Otp) : Prop where
  count : a.lcCount ≤ b.lcCount
  svn : a.svnFloor ≤ b.svnFloor
  step : a.attestStep ≤ b.attestStep
  retired : a.lcWord = 3 → b.lcWord = 3

/-- A lawful change of the cells: legal cells stay legal and only move forward. -/
def Otp.Step (a b : Otp) : Prop := a.Legal → b.Legal ∧ a.Forward b

/-- What holds in every state of a run. -/
structure State.Inv (s : State) : Prop where
  sound : s.dev.Sound
  otp : s.dev.plat.otp.Legal

/-! ## Packet commands -/

/-- What the outside world decides of a packet command: the bytes that follow WRITE_INLINE's fields are those it names, and a
signature has the 5,396 bytes of R512. -/
def Instr.carries (i : Instr) (p : Packet) : Bool :=
  match i with
  | .writeInline _ _ data => leBytes data.length (p.params >>> 128) = data
  | .attest _ _ _ _ signature => signature.length == 5396
  | _ => true

/-- PARAM_LEN that a command requires (R442): its fields, and the bytes that WRITE_INLINE carries behind them. -/
def Instr.paramBytes (i : Instr) (f : PacketForm) : Nat :=
  match i with
  | .writeInline _ _ data => roundUp (16 + data.length) 8
  | _ => paramLen f.layout

/-- The packet `p` at the head of a queue is the command `i`, whose packet has the form `f`, and its turn has come (R423). -/
structure State.Fronts (s : State) (i : Instr) (f : PacketForm) (p : Packet) : Prop where
  form : i.packet = some f
  head : s.dev.head f.queue f.opcode f.layout f.fields = some p
  data : Instr.carries i p = true

/-- The command's turn has come, and of the checks of R432 those common to all commands find nothing: header fields,
DEVICE_STATE, PARAM_LEN, life-cycle state, semaphore and deadline. -/
structure State.Admits (s : State) (i : Instr) (f : PacketForm) (p : Packet) : Prop extends s.Fronts i f p where
  passes : s.dev.refusal f.queue p (Instr.paramBytes i f) {} = none

/-- A queue's registers but for those that fetching, replying and an interrupt message change. -/
def Queue.setup (k : Queue) : Queue :=
  { k with rqTail := 0, fetched := [], reserved := 0, lastIrq := none, irqHeld := false, qstate := 0, err := 0 }

/-- The host interface but for queues, commands in progress, waiting replies and interrupt messages. -/
def HostIf.quiet (h : HostIf) : HostIf :=
  { h with queues := [], inProg := [], nextCmd := 0, lastStart := 0, irqs := [], waiting := [] }

/-- A trace buffer but for its counts of dropped records. -/
def TraceBuf.setup (x : TraceBuf) : TraceBuf := { x with dropped := 0, lost := 0 }

/-- The device but for what the start and the end of commands change: queues and commands in progress, the bytes of reply rings, the
counters, the record of deadline misses, and the trace records of commands. -/
def Dev.quiet (d : Dev) : Dev :=
  { d with host := d.host.quiet, mem := [], ctr := [], cad := { d.cad with missTotal := 0, missLog := [] },
           obs := { d.obs with bufs := [], queue := [] } }

/-- A byte that replies of queue `q` write: of its reply ring, or of its copy of RQ_TAIL (R421, R429). -/
def Queue.replyByte (q : Nat) (k : Queue) (a : Nat) : Prop :=
  (k.rqBase ≤ a ∧ a < k.rqBase + 16 * 2 ^ k.rqLog2) ∨ (ownWindow q k.shadow = true ∧ k.shadow ≤ a ∧ a < k.shadow + 4)

/-- Device `b` is device `a` but for replies: nothing but queues, commands in progress, the miss record, trace records and their
counts differs, and of memory only bytes of reply rings, and of counters only TRACE_DROP. -/
structure Dev.Replied (a b : Dev) : Prop where
  quiet : b.quiet = a.quiet
  setup : ∀ q, (b.host.queue q).setup = (a.host.queue q).setup
  mem : ∀ x, (∀ q, ¬ (a.host.queue q).replyByte q x) → rdByte b.mem x = rdByte a.mem x
  ctr : ∀ n, n ≠ 0x78 → Tab.get 0 b.ctr n = Tab.get 0 a.ctr n
  bufs : ∀ n, (b.obs.buf n).setup = (a.obs.buf n).setup

/-- The outcome is a next state with the same queue of commands, whose device is `d` but for replies. -/
def Res.Becomes (s : State) (d : Dev) (r : Res) : Prop := ∃ t : State, r = .next t ∧ t.pending = s.pending ∧ d.Replied t.dev

/-- Nothing but the packet `p` of queue `q` waits: no other packet is fetched, and no reply waits for entries. -/
structure Dev.Alone (d : Dev) (q : Nat) (p : Packet) : Prop where
  here : (d.host.queue q).fetched = [p]
  others : ∀ x, x ≠ q → (d.host.queue x).fetched = []
  replies : d.host.waiting = []

/-- Ring position of the `i`-th entry from the producer index on (R421). -/
def Queue.entryPos (k : Queue) : Nat → Nat
  | 0 => k.rqTail % 2 ^ k.rqLog2
  | i + 1 => (k.rqTail + i + 1) % 2 ^ 32 % 2 ^ k.rqLog2

/-- Between devices `a` and `b`, queue `rq`'s reply ring has taken the entries `es`, no more and no fewer: they stand at its
producer index, RQ_TAIL has passed them, and the copy of RQ_TAIL in the port's host window agrees (R421, R428, R429). -/
structure Dev.Answered (a b : Dev) (rq : Nat) (es : List Nat) : Prop where
  tail : (b.host.queue rq).rqTail = ((a.host.queue rq).rqTail + es.length) % 2 ^ 32
  entries : ∀ i e, es[i]? = some e → rdNat b.mem ((a.host.queue rq).rqBase + 16 * (a.host.queue rq).entryPos i) 16 = e % 2 ^ 128
  shadow : ownWindow rq (a.host.queue rq).shadow = true →
    rdNat b.mem (a.host.queue rq).shadow 4 = ((a.host.queue rq).rqTail + es.length) % 2 ^ 32

/-- Queue `rq` writes replies, and its copy of RQ_TAIL lies outside its ring. -/
structure Dev.CanAnswer (d : Dev) (rq : Nat) : Prop where
  replies : (d.host.queue rq).replies = true
  apart : (d.host.queue rq).shadow + 4 ≤ (d.host.queue rq).rqBase ∨
    (d.host.queue rq).rqBase + 16 * 2 ^ (d.host.queue rq).rqLog2 ≤ (d.host.queue rq).shadow

/-- Queue that a packet of queue `q` names for its replies: of the same port (R426). -/
def Packet.replyQueue (p : Packet) (q : Nat) : Nat := q / 8 * 8 + p.queue

/-- A plain packet: neither silent, nor with a deadline, nor latching (R426). -/
structure Packet.Plain (p : Packet) : Prop where
  silent : p.silent = false
  deadline : p.dlEn = false
  latch : p.latchEn = false

/-! ## Power -/

/-- Power unit `b` is `a` but for domain `id`, which reads `x`. -/
structure Pow.Sets (a b : Pow) (id : Nat) (x : Dom) : Prop where
  here : b.dom id = x
  others : ∀ k, k ≠ id → b.dom k = a.dom k
  rest : { b with doms := [] } = { a with doms := [] }

/-- The outcome of a packet command sets domain `id` to `x` and the counters to `c`, and changes nothing else but replies. -/
def Res.SetsDom (s : State) (c : Tab Nat) (id : Nat) (x : Dom) (r : Res) : Prop :=
  ∃ w, s.dev.pow.Sets w id x ∧ Res.Becomes s { s.dev with pow := w, ctr := c } r

/-- Device `b` is `a` after clocks have taken their limits afresh: of domains only clocks, of rails only the commanded voltage, and of
live tasks only the mark that they ran slow have changed (R391, R404). -/
structure Dev.Reclocked (a b : Dev) : Prop where
  doms : ∀ id, ∃ f, b.pow.dom id = { a.pow.dom id with freq := f }
  rails : ∀ g, ∃ v w c, b.pow.rail g = { a.pow.rail g with target := v, waitV := w, cmdAt := c }
  pow : { b.pow with doms := [], rails := [] } = { a.pow with doms := [], rails := [] }
  streams : ∀ n, { b.cad.stream n with running := none } = { a.cad.stream n with running := none }
  cad : { b.cad with streams := [] } = { a.cad with streams := [] }
  rest : { b with pow := a.pow, cad := a.cad } = a

/-! ## Starts -/

/-- From device `a` to `b` a start has failed: the reason and the time are recorded, the fault log takes a record with UNIT 13, every
domain is on its way to OFF, and no byte of memory has changed (R383, R491). -/
structure Dev.StartFails (a b : Dev) (reason : Nat) : Prop where
  phase : b.plat.phase = .failed
  reason : b.plat.lastReason = reason
  mark : b.plat.stageMark = a.plat.now
  log : a.plat.faultLog.length < 64 → b.plat.faultLog = a.plat.faultLog ++ [{ time := a.plat.now, unit := 13, die := 4 }]
  doms : ∀ id, b.pow.dom id = (a.pow.dom id).turnOff a.plat.now
  mem : b.mem = a.mem

end Sys2Proof.Machine
end

