-- ==== Sys2Proof/Certificates/Slice0/Obligations.lean ====
section
/-! DEFINITION. The statements for the provers: what the spec's rules say of the commands, the events and the machine. -/

open Sys2Proof Sys2Proof.Machine

/-! ## The queue of commands and the whole machine -/

/-- A step takes the command at the front of the queue and runs it on the state that holds the rest. -/
def Obligations.StepRunsTheFrontCommand : Prop :=
  ∀ (c : Instr) (rest : List Instr) (s : State), step { s with pending := c :: rest } = exec c { s with pending := rest }

/-- The tick of the empty queue, the model's choice of log entry 2: time goes on where the clock of R152 runs, and nothing but the counts of
waits changes. -/
def Obligations.EmptyQueueTicks : Prop :=
  ∀ s : State, s.pending = [] →
    (s.dev.plat.clockRuns = true → ∃ t : State, step s = .next t ∧
      t = { s with dev := { s.dev with plat := { s.dev.plat with now := s.dev.plat.now + 1 }, ctr := t.dev.ctr } } ∧
      (s.dev.host.waiting = [] → s.dev.enc.cur = none → s.dev.obs.dumps = [] → (∀ e ∈ s.dev.plans, e.2.cur = none) →
        ∀ i k, ctrVal t.dev.ctr i k = ctrVal s.dev.ctr i k % 2 ^ 64 ∨ ctrVal t.dev.ctr i k = ctrVal s.dev.ctr i k) ∧
      (∀ w, s.dev.pow.dead = false → s.dev.host.waiting = [w] → ctrVal t.dev.ctr cobInst 0x72 =
        if w.since ≤ s.dev.plat.now ∧ (s.dev.plat.now + 1 - w.since) % 1000 = 0 then (ctrVal s.dev.ctr cobInst 0x72 + 1) % 2 ^ 64
        else ctrVal s.dev.ctr cobInst 0x72 % 2 ^ 64)) ∧
    (s.dev.plat.clockRuns = false → step s = .next s)

/-- Every command answers a next state and leaves the queue alone, but for the scan instructions that R510 leaves open. -/
def Obligations.OnlyScanInstructionsAreRefused : Prop :=
  ∀ (c : Instr) (s : State), (∃ t : State, exec c s = .next t ∧ t.pending = s.pending) ∨
    (∃ ir, c = .jtagInstruction ir ∧ 2 ≤ ir ∧ (s.dev.plat.lcWord = 0 ∨ s.dev.plat.lcWord = 4) ∧ exec c s = .refused (.jtagScan ir))

/-- The invariant holds in the state after reset, whose OTP cells are those of log entry 7. -/
def Obligations.ResetHoldsTheInvariant : Prop := State.reset.Inv

/-- Every step keeps what holds in every state of a run (R144, R499, R505). -/
def Obligations.StepKeepsTheInvariant : Prop := ∀ s t : State, s.Inv → step s = .next t → t.Inv

/-- Each step of a monotonic array burns one cell, and no cell returns; RETIRED is final (R499, R505). -/
def Obligations.NoOtpCellReturns : Prop :=
  ∀ s t : State, s.dev.plat.otp.Legal → step s = .next t → s.dev.plat.otp.Forward t.dev.plat.otp

/-! ## Packet commands in general -/

/-- A packet command out of turn changes nothing: the model's choice of log entry 4. -/
def Obligations.CommandsOutOfTurnDoNothing : Prop :=
  ∀ (s : State) (i : Instr) (f : PacketForm), i.packet = some f → s.dev.head f.queue f.opcode f.layout f.fields = none → exec i s = .next s

/-- The first check that fails decides the reply, and the command has no effect (R432); a packet with any PARAM_LEN but its command's fails
with BAD_PARAM (R442). -/
def Obligations.RefusedCommandsHaveNoEffect : Prop :=
  (∀ (s : State) (i : Instr) (f : PacketForm) (p : Packet), s.Fronts i f p →
    s.dev.refusal f.queue p (Instr.paramBytes i f) {} ≠ none → Res.Becomes s s.dev (exec i s)) ∧
  (∀ (s : State) (i : Instr) (f : PacketForm) (p : Packet), s.Fronts i f p → s.dev.preCheck p = none →
    p.plen ≠ Instr.paramBytes i f → p.latchEn = false → s.dev.Alone f.queue p → s.dev.CanAnswer (p.replyQueue f.queue) →
    ∃ t : State, exec i s = .next t ∧ t.pending = s.pending ∧ s.dev.Replied t.dev ∧
      s.dev.Answered t.dev (p.replyQueue f.queue) [s.dev.replyNow p.tag stBadParam 0 0xFFFF])

/-- STOPPED refuses every opcode but three, with ABORTED and the fault-summary code; DORMANT refuses every opcode that is not accepted in
dormant mode (R432, R446); a command that the table of R509 denies has no effect. -/
def Obligations.DeviceStatesRefuseCommands : Prop :=
  (∀ (s : State) (i : Instr) (f : PacketForm) (p : Packet), s.Fronts i f p → p.latchEn = false → s.dev.Alone f.queue p →
    s.dev.CanAnswer (p.replyQueue f.queue) →
    (s.dev.plat.deviceState = 3 → f.opcode ∉ [0x0002, 0x0003, 0x0004] →
      ∃ t : State, exec i s = .next t ∧ t.pending = s.pending ∧ s.dev.Replied t.dev ∧
        s.dev.Answered t.dev (p.replyQueue f.queue) [s.dev.replyNow p.tag stAborted 0 s.dev.plat.faultCode]) ∧
    (s.dev.plat.phase = .dormant → f.opcode ∉ [0x0001, 0x0002, 0x0003, 0x0B01, 0x0B03, 0x0004] →
      ∃ t : State, exec i s = .next t ∧ t.pending = s.pending ∧ s.dev.Replied t.dev ∧
        s.dev.Answered t.dev (p.replyQueue f.queue) [s.dev.replyNow p.tag stDormant 0 0])) ∧
  (∀ (s : State) (i : Instr) (f : PacketForm) (p : Packet), s.Fronts i f p →
    (s.dev.plat.lcWord = 3 ∧ f.opcode ∉ [0x0001, 0x0002, 0x0003, 0x0004] ∨
     s.dev.plat.lcWord = 0 ∧ (f.opcode / 256 ∈ [0x03, 0x04, 0x05, 0x06, 0x07, 0x0D] ∨ f.opcode = 0x0B04)) →
    Res.Becomes s s.dev (exec i s))

/-- A command that touches a guarded resource fails unless the issuing port holds its semaphore (R436, R446). -/
def Obligations.GuardedCommandsNeedTheirSemaphore : Prop :=
  (∀ (s : State) (i : Instr) (f : PacketForm) (p : Packet) (n : Nat), s.Fronts i f p →
    (f.opcode, n) ∈ [(0x0B01, 0), (0x0B02, 0), (0x0804, 1), (0x0B03, 2), (0x0901, 3)] →
    Tab.get 0 s.dev.host.sems n ≠ f.queue / 8 + 1 → Res.Becomes s s.dev (exec i s)) ∧
  (∀ (s : State) (q image : Nat) (verifies : Bool) (f : PacketForm) (p : Packet), s.Fronts (.fwSelect q image verifies) f p →
    s.dev.preCheck p = none → p.plen = 8 → s.dev.plat.lcWord ≠ 3 → Tab.get 0 s.dev.host.sems 0 ≠ q / 8 + 1 →
    p.latchEn = false → s.dev.Alone q p → s.dev.CanAnswer (p.replyQueue q) →
    ∃ t : State, exec (.fwSelect q image verifies) s = .next t ∧ t.pending = s.pending ∧ s.dev.Replied t.dev ∧
      s.dev.Answered t.dev (p.replyQueue q) [s.dev.replyNow p.tag stSemNotHeld 0 0])

/-- A command that has not started by the deadline's instant never starts (R372). -/
def Obligations.LateCommandsNeverStart : Prop :=
  (∀ (s : State) (i : Instr) (f : PacketForm) (p : Packet), s.Fronts i f p → p.dlEn = true →
    s.dev.cad.isPast p.dlBeat p.dlPhase s.dev.plat.now = true → Res.Becomes s s.dev (exec i s)) ∧
  (∀ (s : State) (q : Nat) (f : PacketForm) (p : Packet), s.Fronts (.nop q) f p → p.dlEn = true →
    s.dev.cad.isPast p.dlBeat p.dlPhase s.dev.plat.now = true → s.dev.preCheck p = none → p.plen = 0 → s.dev.plat.lcWord ≠ 3 →
    p.latchEn = false → s.dev.Alone q p → s.dev.CanAnswer (p.replyQueue q) →
    ∃ t : State, exec (.nop q) s = .next t ∧ t.pending = s.pending ∧ s.dev.Replied t.dev ∧
      s.dev.Answered t.dev (p.replyQueue q) [s.dev.replyNow p.tag stDeadline 0 8])

/-- The commands that only reply complete DONE, with the entries their rows give (R428 to R430, R448). -/
def Obligations.ReplyOnlyCommandsAnswer : Prop :=
  ∀ (s : State) (q pod counter : Nat) (i : Instr) (f : PacketForm) (p : Packet) (ext : List Nat),
    (i, ext) ∈ [(.nop q, []), (.fence q, []),
      (.identify q, [bits (s.dev.plat.identity (q / 8)) 0 128, bits (s.dev.plat.identity (q / 8)) 128 128]),
      (.getStatus q, [bits s.dev.plat.faultSummary 0 128, s.dev.statusWord]),
      (.readTileCounter q pod counter, [(s.dev.ctr_ pod counter).record % 2 ^ 128, (s.dev.ctr_ pod counter).record / 2 ^ 128])] →
    s.Admits i f p → p.Plain → s.dev.Alone q p → s.dev.CanAnswer (p.replyQueue q) →
    ∃ t : State, exec i s = .next t ∧ t.pending = s.pending ∧ s.dev.Replied t.dev ∧
      s.dev.Answered t.dev (p.replyQueue q) (s.dev.replyNow p.tag stDone ext.length 0 :: ext)

/-! ## Ports, queues, semaphores and the ownership table -/

/-- SEM_ACQUIRE and SEM_RELEASE (R434). -/
def Obligations.SemaphoresAcquireAndRelease : Prop :=
  ∀ (s : State) (port n : Nat), s.dev.linked port = true → n < 64 →
    (Tab.get 0 s.dev.host.sems n = 0 → exec (.semAcquire port n true) s = .next { s with dev := { s.dev with
      host := { s.dev.host with
        sems := Tab.set 0 s.dev.host.sems n (port + 1),
        ports := Tab.upd {} s.dev.host.ports port (fun p => { p with lastRead := packBits [(1, 1), (2, port + 1), (1, 0)] }) } } }) ∧
    (∀ o, 0 < o → o < 4 → Tab.get 0 s.dev.host.sems n = o → ∃ t : State, exec (.semAcquire port n true) s = .next t ∧
      (∀ m, Tab.get 0 t.dev.host.sems m = Tab.get 0 s.dev.host.sems m) ∧
      (t.dev.host.port port).lastRead = packBits [(1, if o = port + 1 then 1 else 0), (2, o), (1, if o = port + 1 then 1 else 0)] ∧
      t = { s with dev := { s.dev with host := { s.dev.host with sems := t.dev.host.sems, ports := t.dev.host.ports } } }) ∧
    exec (.semAcquire port n false) s = .next { s with dev := { s.dev with
      host := s.dev.host.updPort port (fun p => { p with lastRead := 0 }) } } ∧
    (Tab.get 0 s.dev.host.sems n = port + 1 → exec (.semRelease port n) s = .next { s with dev := { s.dev with
      host := { s.dev.host with sems := Tab.set 0 s.dev.host.sems n 0 } } }) ∧
    (Tab.get 0 s.dev.host.sems n ≠ port + 1 → exec (.semRelease port n) s = .next { s with dev := s.dev.count cobInst 0x70 1 })

/-- DEVICE_TIME_READ and BEAT_NOW_READ, and the reads of PHASE_NOW and BEAT_START that follow it (R154, R358; log entry 15). -/
def Obligations.LatchedReadsAgree : Prop :=
  ∀ (s : State) (port : Nat), s.dev.linked port = true →
    s.dev.windowRead port 0x4000 8 = s.dev.plat.now % 2 ^ 64 ∧
    exec (.deviceTimeRead port 2) s = .next { s with dev := { s.dev with
      host := s.dev.host.updPort port (fun p => { p with lastRead := s.dev.plat.now % 2 ^ 64 }) } } ∧
    exec (.deviceTimeRead port 0) s = .next { s with dev := { s.dev with
      host := s.dev.host.updPort port (fun p => { p with lastRead := s.dev.plat.now % 2 ^ 32, devHi := s.dev.plat.now % 2 ^ 64 / 2 ^ 32 }) } } ∧
    exec (.deviceTimeRead port 1) s = .next { s with dev := { s.dev with
      host := s.dev.host.updPort port (fun p => { p with lastRead := p.devHi }) } } ∧
    (∀ t u v : State, exec (.deviceTimeRead port 0) s = .next t → u.dev.linked port = true →
      (u.dev.host.port port).devHi = (t.dev.host.port port).devHi → exec (.deviceTimeRead port 1) u = .next v →
      (v.dev.host.port port).lastRead = s.dev.plat.now % 2 ^ 64 / 2 ^ 32) ∧
    exec (.beatNowRead port) s = .next { s with dev := { s.dev with host := s.dev.host.updPort port (fun p =>
      { p with lastRead := s.dev.cad.beat, phaseLatch := some (s.dev.cad.phaseAt s.dev.plat.now), startLatch := some s.dev.cad.start }) } } ∧
    (∀ (t : State) (u : Dev), exec (.beatNowRead port) s = .next t → u.host.port port = t.dev.host.port port →
      u.windowRead port 0x4010 8 = s.dev.cad.phaseAt s.dev.plat.now ∧ u.windowRead port 0x4018 8 = s.dev.cad.start % 2 ^ 64 ∧
      ((u.host.port port).readDone 0x4010 8).phaseLatch = none ∧ ((u.host.port port).readDone 0x4018 8).startLatch = none)

/-- Refused accesses of the control window (R416, R469). -/
def Obligations.RefusedWindowAccessesAreCounted : Prop :=
  ∀ (s : State) (port off size value : Nat), s.dev.linked port = true → value < 2 ^ 64 →
    (((size ≠ 4 ∧ size ≠ 8) ∨ off % size ≠ 0 ∨ 0x100000 < off + size) →
      exec (.misalignedWindowAccess port false off size) s = .next { s with dev := { s.dev with
        host := (s.dev.host.winError port).updPort port (fun p => { p with lastRead := 2 ^ (8 * size) - 1 }) } }) ∧
    (((size ≠ 4 ∧ size ≠ 8) ∨ off % size ≠ 0 ∨ 0x100000 < off + size
        ∨ (port = 1 ∧ 0x1000 ≤ off ∧ off < 0x1820) ∨ (port = 0 ∧ 0x2000 ≤ off ∧ off < 0x2820)
        ∨ (0x10000 ≤ off ∧ off < 0x16000 ∧ s.dev.host.own (0x40 + (off - 0x10000) / 0x100) ≠ port + 1)) →
      exec (.misalignedWindowAccess port true off size) s = .next { s with dev := { s.dev with host := s.dev.host.winError port } } ∧
      exec (.registerWrite port off size value) s = .next { s with dev := { s.dev with host := s.dev.host.winError port } })

/-- REGISTER_WRITE (R417, R419, R420, R469). -/
def Obligations.RegisterWritesChangeTheirRegister : Prop :=
  ∀ (s : State) (port off size value : Nat), s.dev.linked port = true → s.dev.writeRefused port off size = false →
    (∀ k, k < 8 → 0x1000 * (port + 1) + 0x100 * k ≤ off → off < 0x1000 * (port + 1) + 0x100 * (k + 1) →
      ∃ (t : State) (x : Queue), exec (.registerWrite port off size value) s = .next t ∧ t.pending = s.pending ∧
        ({ s.dev with host := s.dev.host.updQueue (8 * port + k) (fun _ => x) } : Dev).Replied t.dev ∧
        (x.cqTail, x.cqHead, x.rqTail) = ((s.dev.host.queue (8 * port + k)).cqTail, (s.dev.host.queue (8 * port + k)).cqHead,
          (s.dev.host.queue (8 * port + k)).rqTail) ∧ (x.enable = true → (s.dev.host.queue (8 * port + k)).enable = true) ∧
        ((s.dev.host.queue (8 * port + k)).qstate ≠ 0 →
          (x.cqBase, x.cqLog2, x.rqBase, x.rqLog2, x.shadow) = ((s.dev.host.queue (8 * port + k)).cqBase,
            (s.dev.host.queue (8 * port + k)).cqLog2, (s.dev.host.queue (8 * port + k)).rqBase,
            (s.dev.host.queue (8 * port + k)).rqLog2, (s.dev.host.queue (8 * port + k)).shadow)) ∧
        ((s.dev.host.queue (8 * port + k)).qstate = 0 → off % 0x100 = 0 → size = 8 → value < 2 ^ 48 → value % 64 = 0 → x.cqBase = value) ∧
        (off % 0x100 = 0x24 → size = 4 → x.rqHead = value % 2 ^ 32)) ∧
    (off = 0x1000 * (port + 1) + 0x800 → exec (.registerWrite port off size value) s = .next { s with dev := { s.dev with
      host := s.dev.host.updPort port (fun p => { p with irqEn := value.testBit 5 }) } }) ∧
    (∀ n, n < 96 → 0x10000 + 0x100 * n ≤ off → off < 0x10000 + 0x100 * (n + 1) →
      ∃ (b l p : Nat) (e : Bool), exec (.registerWrite port off size value) s = .next { s with dev := s.dev.updChan n (fun c =>
        { c with base := b, log2 := l, prio := p, irqEn := e }) } ∧
        ((s.dev.chan n).st ≠ 0 → b = (s.dev.chan n).base ∧ l = (s.dev.chan n).log2)) ∧
    ((off < 0x1000 ∨ (0x3000 ≤ off ∧ off < 0x10000) ∨ 0x16000 ≤ off) → exec (.registerWrite port off size value) s = .next s)

/-- CQ_TAIL, QUEUE_ENABLE, Q_RESET and QUEUE_DRAINED (R424). -/
def Obligations.QueueControl : Prop :=
  ∀ (s : State) (port k : Nat), s.dev.linked port = true → k < 8 → ∀ (q : Nat) (u : Queue), q = 8 * port + k → s.dev.host.queue q = u →
    (∀ v, v < 2 ^ 32 → (v + 2 ^ 32 - u.cqHead) % 2 ^ 32 ≤ 2 ^ u.cqLog2 → exec (.cqTail port k v) s = .next { s with dev := { s.dev with
      host := s.dev.host.updQueue q (fun x => { x with cqTail := v }) } }) ∧
    (∀ v, v < 2 ^ 32 → 2 ^ u.cqLog2 < (v + 2 ^ 32 - u.cqHead) % 2 ^ 32 → u.qstate ≤ 1 → exec (.cqTail port k v) s = .next { s with dev :=
      { s.dev with host := s.dev.host.updQueue q (fun x => { x with qstate := 2, err := 1 }) } }) ∧
    (∀ d1 : Dev, u.qstate = 0 →
      d1 = { s.dev with host := s.dev.host.updQueue q (fun x =>
        if inHostWindow port u.cqBase (32 * 2 ^ u.cqLog2) = true ∧ inHostWindow port u.rqBase (16 * 2 ^ u.rqLog2) = true then
          { x with enable := true, qstate := 1 } else { x with enable := true, qstate := 2, err := 3 }) } →
      Res.Becomes s d1 (exec (.queueEnable port k) s) ∧
      ((∀ x, (s.dev.host.queue x).fetched = []) → exec (.queueEnable port k) s = .next { s with dev := d1 })) ∧
    (∀ d1 : Dev, d1 = { s.dev with host := s.dev.host.updQueue q (fun x => { x with enable := false, fetched := [], qstate := 3 }) } →
      Res.Becomes s d1 (exec (.qReset port k) s) ∧
      ((∀ x, (s.dev.host.queue x).fetched = []) → exec (.qReset port k) s = .next { s with dev := d1 })) ∧
    (∀ d1 : Dev, u.qstate = 3 → (∀ c ∈ s.dev.host.inProg, c.queue ≠ q) →
      d1 = { s.dev with host := s.dev.host.updQueue q (fun x =>
        { x with cqTail := 0, cqHead := 0, rqTail := 0, rqHead := 0, err := 0, qstate := 0 }) } →
      Res.Becomes s d1 (exec (.queueDrained q) s) ∧
      ((∀ x, (s.dev.host.queue x).fetched = []) → exec (.queueDrained q) s = .next { s with dev := d1 }))

/-- PACKET_FETCH (R422, R424, R426). -/
def Obligations.PacketFetchTakesWholePackets : Prop :=
  ∀ (s : State) (q : Nat) (u : Queue) (hdr n : Nat) (p : Packet), q < 16 → s.dev.host.queue q = u → u.qstate = 1 → u.enable = true →
    0 < (u.cqTail + 2 ^ 32 - u.cqHead) % 2 ^ 32 → s.dev.host.portLoad (q / 8) < 128 → s.dev.linked (q / 8) = true →
    hdr = rdNat s.dev.mem (u.cqBase + 32 * (u.cqHead % 2 ^ u.cqLog2)) 32 → n = (32 + bits hdr 80 12 + 31) / 32 →
    p = { opcode := bits hdr 0 16, ordered := hdr.testBit 16, silent := hdr.testBit 17, dlEn := hdr.testBit 18, latchEn := hdr.testBit 19,
          tag := bits hdr 32 32, queue := bits hdr 64 3, latchSet := bits hdr 72 8, plen := bits hdr 80 12, dlBeat := bits hdr 96 48,
          dlPhase := bits hdr 144 24,
          params := leNat (((u.ringBytes s.dev.mem u.cqHead n).drop 32).take (bits hdr 80 12)) } →
    exec (.packetFetch q true) s = .next { s with dev := { s.dev with host := s.dev.host.updQueue q (fun x => { x with qstate := 2, err := 4 }) } } ∧
    ((4064 < p.plen ∨ 2 ^ u.cqLog2 < n) →
      Res.Becomes s { s.dev with host := s.dev.host.updQueue q (fun x => { x with qstate := 2, err := 2 }) } (exec (.packetFetch q false) s)) ∧
    (p.plen ≤ 4064 → n ≤ 2 ^ u.cqLog2 → (u.cqTail + 2 ^ 32 - u.cqHead) % 2 ^ 32 < n → exec (.packetFetch q false) s = .next s) ∧
    (∀ d1 : Dev, p.plen ≤ 4064 → n ≤ 2 ^ u.cqLog2 → n ≤ (u.cqTail + 2 ^ 32 - u.cqHead) % 2 ^ 32 →
      d1 = { s.dev with host := s.dev.host.updQueue q (fun x =>
        { x with fetched := x.fetched ++ [p], cqHead := (x.cqHead + n) % 2 ^ 32 }) } →
      Res.Becomes s d1 (exec (.packetFetch q false) s) ∧
      ((∀ x, (s.dev.host.queue x).fetched = []) → p.opcode ∈ knownOpcodes → (s.dev.host.queue (p.replyQueue q)).serves = true →
        exec (.packetFetch q false) s = .next { s with dev := d1 }))

/-- Every value that the command reference does not list is refused with BAD_OPCODE (R427). -/
def Obligations.UnknownOpcodesAreRefused : Prop :=
  ∀ (d : Dev) (q : Nat) (p : Packet), q < 16 → d.plat.phase = .ready → d.plat.faultCode = 0 → d.Alone q p → p.opcode ∉ knownOpcodes →
    p.latchEn = false → d.CanAnswer (p.replyQueue q) → 16 ≤ (d.host.queue (p.replyQueue q)).freeEntries →
    (d.host.inProg.filter (fun c => c.port == q / 8)).length < 128 → (p.ordered = true → ∀ c ∈ d.host.inProg, c.queue ≠ q) →
    d.Replied d.settled ∧ d.Answered d.settled (p.replyQueue q) [d.replyNow p.tag stBadOpcode 0 0] ∧
      ∀ x, (d.settled.host.queue x).fetched = []

/-- IRQ_HOLDOFF_END, LINK_TRAINED and LINK_RETRAIN (R411, R420, R425, R501). -/
def Obligations.InterruptsGoOutAndLinksTrain : Prop :=
  (∀ (s : State) (q t0 : Nat) (u : Queue), s.dev.host.queue q = u → u.irqHeld = true → u.lastIrq = some t0 → t0 + u.holdoff * 1000 ≤ s.dev.plat.now →
    (u.rqTail ≠ u.rqHead → exec (.irqHoldoffEnd q) s = .next { s with dev := { s.dev with
      host := (s.dev.host.updQueue q (fun x => { x with irqHeld := false, lastIrq := some s.dev.plat.now })).irq (q / 8) (q % 8) } }) ∧
    (u.rqTail = u.rqHead → exec (.irqHoldoffEnd q) s = .next { s with dev := { s.dev with
      host := s.dev.host.updQueue q (fun x => { x with irqHeld := false }) } })) ∧
  (∀ (s : State) (port width rate : Nat), port < 2 →
    ((s.dev.plat.phase = .dormant ∧ port = 0 ∧ width = 1 ∧ rate = 1 ∨
      s.dev.plat.phase ≠ .dormant ∧ s.dev.plat.phase ≠ .held ∧ 1 ≤ width ∧ width ≤ 3 ∧ 1 ≤ rate ∧ rate ≤ 2 ∧ s.dev.pow.on (64 + port) = true) →
      exec (.linkTrained port width rate) s = .next { s with dev := { s.dev with
        host := (s.dev.host.updPort port (fun p => { p with up := true, width := width, rate := rate, downAt := none })).linkIrq port } }) ∧
    (∀ corrected replayed, (s.dev.host.port port).up = true → 16 ≤ replayed →
      exec (.linkRetrain port corrected replayed) s = .next { s with dev := { s.dev with
        host := (s.dev.host.updPort port (fun p => { p with
          up := false
          width := 0
          rate := 0
          downs := (p.downs + 1) % 2 ^ 32
          downAt := some s.dev.plat.now
          fecCorr := min (2 ^ 32 - 1) (p.fecCorr + corrected)
          fecUncorr := min (2 ^ 32 - 1) (p.fecUncorr + replayed) })).linkIrq port } }))

/-- PORT_RESET: semaphores, pins and timers of the port are free and its enabled queues stand in ERROR with PORT_RESET; of a port that holds
semaphores alone, nothing else changes (R437). -/
def Obligations.PortResetReleasesThePort : Prop :=
  ∀ (s : State) (port t0 : Nat), port < 2 → (s.dev.host.port port).up = false → (s.dev.host.port port).downAt = some t0 →
    t0 + 10000000 ≤ s.dev.plat.now →
    (∃ t : State, exec (.portReset port) s = .next t ∧ t.pending = s.pending ∧ (∀ n, Tab.get 0 t.dev.host.sems n ≠ port + 1) ∧
      (∀ id, id < 0x18 → t.dev.host.own id ≠ port + 1) ∧
      (∀ i, i < 8 → (s.dev.host.queue (8 * port + i)).enable = true →
        (t.dev.host.queue (8 * port + i)).qstate = 2 ∧ (t.dev.host.queue (8 * port + i)).err = 5 ∧ (t.dev.host.queue (8 * port + i)).fetched = [])) ∧
    (s.dev.host.entriesOf port = [] → (∀ x, (x < 8 * port ∨ 8 * port + 8 ≤ x) → (s.dev.host.queue x).fetched = []) →
      (∀ i, i < 8 → (s.dev.host.queue (8 * port + i)).enable = false → (s.dev.host.queue (8 * port + i)).fetched = []) →
      ∃ t : State, exec (.portReset port) s = .next t ∧ t.pending = s.pending ∧
        t.dev = { s.dev with
          host := { s.dev.host with sems := t.dev.host.sems, queues := t.dev.host.queues, ports := t.dev.host.ports }
          ctr := bump s.dev.ctr cobInst 0x71 (s.dev.host.sems.filter (fun e => e.2 == port + 1)).length } ∧
        (∀ n, (∀ e ∈ s.dev.host.sems, e.1 = n → e.2 ≠ port + 1) → Tab.get 0 t.dev.host.sems n = Tab.get 0 s.dev.host.sems n) ∧
        (∀ i, i < 8 → t.dev.host.queue (8 * port + i) = if (s.dev.host.queue (8 * port + i)).enable = true
          then { s.dev.host.queue (8 * port + i) with qstate := 2, err := 5, fetched := [] } else s.dev.host.queue (8 * port + i)) ∧
        (∀ x, (x < 8 * port ∨ 8 * port + 8 ≤ x) → t.dev.host.queue x = s.dev.host.queue x))

/-- GPIO_CLAIM, GPIO_RELEASE, GPIO_SET and CHANNEL_CLAIM (R439, R440, R445, R542). -/
def Obligations.ClaimsOfPinsAndChannels : Prop :=
  ∀ (s : State) (q id : Nat) (f : PacketForm) (p : Packet),
    (∀ i, (i = .gpioClaim q id ∨ (i = .channelClaim q id ∧ 0x40 ≤ id ∧ id ≤ 0x9F)) → s.Admits i f p →
      ((s.dev.host.own id = 0 ∨ s.dev.host.own id = q / 8 + 1) →
        Res.Becomes s { s.dev with host := { s.dev.host with owner := Tab.set 0 s.dev.host.owner id (q / 8 + 1) } } (exec i s)) ∧
      (s.dev.host.own id ≠ 0 → s.dev.host.own id ≠ q / 8 + 1 → p.latchEn = false → s.dev.Alone q p → s.dev.CanAnswer (p.replyQueue q) →
        p.dlEn = false →
        ∃ t : State, exec i s = .next t ∧ t.pending = s.pending ∧ s.dev.Replied t.dev ∧
          s.dev.Answered t.dev (p.replyQueue q) [s.dev.replyNow p.tag stBusy 0 (s.dev.host.own id + 4 * id)])) ∧
    (s.Admits (.gpioRelease q id) f p → s.dev.host.own id = q / 8 + 1 →
      Res.Becomes s { s.dev with host := { s.dev.host with owner := Tab.set 0 s.dev.host.owner id 0, gpio := Tab.upd {} s.dev.host.gpio id (fun g => { input := g.input }) } } (exec (.gpioRelease q id) s)) ∧
    (∀ mode value alt, s.Admits (.gpioSet q id mode value alt) f p → s.dev.host.own id = q / 8 + 1 → mode ≠ 3 →
      (mode = 2 → alt = 1 ∧ id ≤ 6) →
      Res.Becomes s { s.dev with host := s.dev.host.updPin id (fun g => { g with mode := mode, value := if mode = 1 then value == 1 else g.value, alt := if mode = 2 then alt else g.alt, pulse := none }) } (exec (.gpioSet q id mode value alt) s))

/-! ## Administration -/

/-- RESET, RESET_EXECUTE and LIFECYCLE_RESTART (R447, R450, R508); RESET in dormant mode sets BOOT_ATTEMPTS to 0 and starts the device from
time 0 of R489, which adds one (R502). -/
def Obligations.ResetActsAfterItsReply : Prop :=
  (∀ (s : State) (q : Nat) (f : PacketForm) (p : Packet), s.Admits (.reset q) f p →
    Res.Becomes s { s.dev with plat := { s.dev.plat with resetAt := some s.dev.plat.now } } (exec (.reset q) s)) ∧
  (∀ (s : State) (t0 : Nat) (i : Instr), t0 + 10000 ≤ s.dev.plat.now →
    (i = .resetExecute ∧ s.dev.plat.resetAt = some t0 ∧ s.dev.plat.phase ≠ .dormant ∨ i = .lifecycleRestart ∧ s.dev.plat.lifeAt = some t0) →
    ∃ t : State, exec i s = .next t ∧ t.pending = s.pending ∧ t.dev.plat.phase = .train ∧ t.dev.plat.gddrDone = false ∧
      t.dev.plat.deviceState = 0 ∧ t.dev.plat.faultCode = 0 ∧ t.dev.plat.resetAt = none ∧ t.dev.plat.lifeAt = none ∧
      t.dev.host.queues = [] ∧ t.dev.host.sems = ({} : HostIf).sems ∧ t.dev.host.owner = [] ∧ t.dev.host.inProg = [] ∧
      (∀ a, a < hostBase 0 → rdByte t.dev.mem a = 0 ∧ Tab.get false t.dev.poison a = false) ∧
      t.dev.plans = [] ∧ t.dev.planUsed = [] ∧ t.dev.pods = [] ∧ t.dev.cores = [] ∧ t.dev.cob = {} ∧ t.dev.ing = {} ∧ t.dev.enc = {} ∧
      t.dev.mov = {} ∧ t.dev.obs = {} ∧
      (t.dev.cad.beat, t.dev.cad.cfg, t.dev.cad.lock, t.dev.cad.sched) = (s.dev.cad.beat, s.dev.cad.cfg, s.dev.cad.lock, s.dev.cad.sched) ∧
      t.dev.plat.otp = s.dev.plat.otp ∧ t.dev.plat.now = s.dev.plat.now) ∧
  (∀ (s : State) (t0 : Nat), s.dev.plat.resetAt = some t0 → t0 + 10000 ≤ s.dev.plat.now → s.dev.plat.phase = .dormant →
      s.dev.plat.failLimit ≠ 0 → ∃ t : State, exec .resetExecute s = .next t ∧ t.pending = s.pending ∧ t.dev.plat.phase = .verify ∧
        t.dev.plat.bootAttempts = 1 ∧ (∀ n, n < 4 → Tab.get 0 t.dev.host.sems n = 3) ∧ t.dev.host.owner = [] ∧ t.dev.host.queues = [] ∧
        (∀ a, a < hostBase 0 → rdByte t.dev.mem a = 0))

/-! ## Memory, pools, sequence tables and pages -/

/-- FILL, WRITE_INLINE and READ_FAULT_LOG write memory (R445, R449). -/
def Obligations.CommandsWriteMemory : Prop :=
  (∀ (s : State) (q dest : Nat) (f : PacketForm) (p : Packet),
      (∀ len value, s.Admits (.fill q dest len value) f p →
        (dest % 64 = 0 → len % 64 = 0 → s.dev.unwritable (dest % 2 ^ 48) len = none →
          ∃ t : State, exec (.fill q dest len value) s = .next t ∧ t.pending = s.pending ∧
            (s.dev.store (dest % 2 ^ 48) (List.replicate len (BitVec.ofNat 8 value))).Replied t.dev ∧
            (∀ x, (∀ k, ¬ (s.dev.host.queue k).replyByte k x) → rdByte t.dev.mem x =
              if dest % 2 ^ 48 ≤ x ∧ x < dest % 2 ^ 48 + len then BitVec.ofNat 8 value else rdByte s.dev.mem x) ∧
            (∀ x, Tab.get false t.dev.poison x = (Tab.get false s.dev.poison x && !decide (dest % 2 ^ 48 ≤ x ∧ x < dest % 2 ^ 48 + len)))) ∧
        ((dest % 64 ≠ 0 ∨ len % 64 ≠ 0 ∨ s.dev.unwritable (dest % 2 ^ 48) len ≠ none) →
          Res.Becomes s s.dev (exec (.fill q dest len value) s))) ∧
      (∀ data, s.Admits (.writeInline q dest data) f p →
        (1 ≤ data.length → data.length ≤ 4048 → s.dev.unwritable (dest % 2 ^ 48) data.length = none →
          ∃ t : State, exec (.writeInline q dest data) s = .next t ∧ t.pending = s.pending ∧
            (s.dev.store (dest % 2 ^ 48) data).Replied t.dev ∧
            (∀ x, (∀ k, ¬ (s.dev.host.queue k).replyByte k x) → rdByte t.dev.mem x =
              if dest % 2 ^ 48 ≤ x ∧ x < dest % 2 ^ 48 + data.length then data.getD (x - dest % 2 ^ 48) 0 else rdByte s.dev.mem x) ∧
            (∀ x, Tab.get false t.dev.poison x = (Tab.get false s.dev.poison x && !decide (dest % 2 ^ 48 ≤ x ∧ x < dest % 2 ^ 48 + data.length)))) ∧
        ((data = [] ∨ 4048 < data.length ∨ s.dev.unwritable (dest % 2 ^ 48) data.length ≠ none) →
          Res.Becomes s s.dev (exec (.writeInline q dest data) s)))) ∧
  (∀ (s : State) (q dest : Nat) (f : PacketForm) (p : Packet), s.Admits (.readFaultLog q dest) f p →
      s.dev.cmdWritable (dest % 2 ^ 48) (32 + 32 * s.dev.plat.faultLog.length) = true →
      Res.Becomes s { s.dev.store (dest % 2 ^ 48) (leBytes 32 (packBits [(32, s.dev.plat.faultLog.length), (32, s.dev.plat.faultLost)])
          ++ (s.dev.plat.faultLog.map (fun r => leBytes 32 r.word)).flatten) with
        plat := { s.dev.plat with faultLog := [], faultLost := 0 } } (exec (.readFaultLog q dest) s))

/-- POOL_CREATE, POOL_DESTROY, SEQ_CREATE and SEQ_DESTROY (R452). -/
def Obligations.PoolsAndTablesComeAndGo : Prop :=
  ∀ (s : State) (q pod : Nat) (f : PacketForm) (p : Packet),
    (∀ pool frameBytes base frames, s.Admits (.poolCreate q pod pool frameBytes base frames) f p →
      ((s.dev.pod pod).pool pool).inUse = false → frameBytes % 4096 = 0 → 4096 ≤ frameBytes → frameBytes ≤ 16 * 2 ^ 20 → base % 4096 = 0 →
      ((podStore pod ≤ base % 2 ^ 48 ∧ base % 2 ^ 48 + frames * frameBytes ≤ podStore (pod + 1)) ∨
        (podGddr pod ≤ base % 2 ^ 48 ∧ base % 2 ^ 48 + frames * frameBytes ≤ podGddr (pod + 1))) →
      s.dev.unbacked (base % 2 ^ 48) (frames * frameBytes) = none →
      Res.Becomes s (s.dev.updPod pod (fun x => { x with pools := Tab.set {} x.pools pool { inUse := true, frameBytes := frameBytes, base := base % 2 ^ 48, frames := frames, recs := [] } })) (exec (.poolCreate q pod pool frameBytes base frames) s)) ∧
    (∀ pool, s.Admits (.poolDestroy q pod pool) f p → ((s.dev.pod pod).pool pool).inUse = true →
      ((∀ r ∈ ((s.dev.pod pod).pool pool).recs, r.2.testBit 16 = false) →
        Res.Becomes s (s.dev.updPod pod (fun x => { x with pools := Tab.set {} x.pools pool {} })) (exec (.poolDestroy q pod pool) s)) ∧
      ((∃ r ∈ ((s.dev.pod pod).pool pool).recs, r.2.testBit 16 = true) → Res.Becomes s s.dev (exec (.poolDestroy q pod pool) s))) ∧
    (∀ pool table entries ringPages, s.Admits (.seqCreate q pod pool table entries ringPages) f p →
      ((s.dev.pod pod).pool pool).inUse = true → ((s.dev.pod pod).seq table).inUse = false → 1 ≤ entries →
      (ringPages = 0 ∨ 2 ≤ ringPages ∧ ringPages = entries) →
      Res.Becomes s (s.dev.updPod pod (fun x => { x with seqs := Tab.set {} x.seqs table { inUse := true, pool := pool, entries := entries, ring := ringPages, ents := [] } })) (exec (.seqCreate q pod pool table entries ringPages) s)) ∧
    (∀ table, s.Admits (.seqDestroy q pod table) f p → ((s.dev.pod pod).seq table).inUse = true →
      Res.Becomes s (s.dev.updPod pod (fun x =>
        { ((x.seq table).ents.foldl (fun y e => y.freeEnt e.2) x) with
          seqs := Tab.set {} ((x.seq table).ents.foldl (fun y e => y.freeEnt e.2) x).seqs table {} })) (exec (.seqDestroy q pod table) s))

/-- PAGE_ALLOC, PAGE_SHARE and PAGE_FREE (R194). -/
def Obligations.PagesAllocateShareAndFree : Prop :=
  ∀ (s : State) (q pod : Nat) (f : PacketForm) (p : Packet) (x y : Pod), x = s.dev.pod pod →
    (∀ table entry lpage n, s.Admits (.pageAlloc q pod table entry lpage) f p → (x.seq table).inUse = true → entry < (x.seq table).entries →
      n = (x.seq table).pool → y = x.freeEnt (x.ent table entry) →
      (∀ i, i < (y.pool n).frames → (Tab.get 0 (y.pool n).recs i).testBit 16 = false →
        (∀ j, j < i → (Tab.get 0 (y.pool n).recs j).testBit 16 = true) →
        Res.Becomes s (s.dev.updPod pod (fun _ => ((y.updRec n i (fun r => packBits [(16, 1), (1, 1), (15, 0), (32, bits r 32 32)])).updSeq table
          (fun k => { k with ents := Tab.set 0 k.ents entry (packBits [(36, ((y.pool n).base + i * (y.pool n).frameBytes) / 4096), (2, 2), (2, 0), (24, lpage)]) }))))
          (exec (.pageAlloc q pod table entry lpage) s)) ∧
      ((∀ i, i < (y.pool n).frames → (Tab.get 0 (y.pool n).recs i).testBit 16 = true) → Res.Becomes s s.dev (exec (.pageAlloc q pod table entry lpage) s))) ∧
    (∀ st se dt de, s.Admits (.pageShare q pod st se dt de) f p → (x.seq st).inUse = true → se < (x.seq st).entries →
      bits (x.ent st se) 36 2 = 2 → (x.seq dt).inUse = true → de < (x.seq dt).entries → x.refs (entFrame (x.ent st se)) < 65535 →
      y = (x.share (entFrame (x.ent st se))).freeEnt (x.ent dt de) →
      Res.Becomes s (s.dev.updPod pod (fun _ => y.updSeq dt (fun k => { k with ents := Tab.set 0 k.ents de (x.ent st se) })))
        (exec (.pageShare q pod st se dt de) s)) ∧
    (∀ table entry, s.Admits (.pageFree q pod table entry) f p → (x.seq table).inUse = true → entry < (x.seq table).entries →
      bits (x.ent table entry) 36 2 ≠ 0 → y = x.free (entFrame (x.ent table entry)) →
      Res.Becomes s (s.dev.updPod pod (fun _ => y.updSeq table (fun k => { k with ents := Tab.set 0 k.ents entry 0 }))) (exec (.pageFree q pod table entry) s))

/-- FREE and SHARE on the pool record of a frame (R194, R196). -/
def Obligations.FramesFreeAndShare : Prop :=
  ∀ (x : Pod) (a n i r : Nat), x.frameAt a = some (n, i) → Tab.get 0 (x.pool n).recs i = r → r.testBit 16 = true →
    (∀ e ∈ x.pools, ∀ k ∈ e.2.recs, k.2.testBit 16 = false ∨ bits k.2 0 16 ≠ 0) →
    (1 < bits r 0 16 → x.free a = x.updRec n i (fun _ => packBits [(16, bits r 0 16 - 1), (1, 1), (15, 0), (32, bits r 32 32)])) ∧
    (bits r 0 16 ≤ 1 → (∀ k ∈ x.readers, x.epoch < k.2) → bits (Tab.get 0 ((x.free a).pool n).recs i) 0 17 = 0) ∧
    (bits r 0 16 ≤ 1 → (∃ k ∈ x.readers, k.2 ≤ x.epoch) → x.epoch < 2 ^ 32 →
      Tab.get 0 ((x.free a).pool n).recs i = packBits [(16, 0), (1, 1), (15, 0), (32, x.epoch)]) ∧
    (bits r 0 16 < 65535 → Tab.get 0 ((x.share a).pool n).recs i = packBits [(16, bits r 0 16 + 1), (1, 1), (15, 0), (32, bits r 32 32)])

/-! ## Plans and steps -/

/-- PLAN_LOAD and PLAN_LOAD_DONE (R453; log entry 22). -/
def Obligations.PlansLoadWholeOrNotAtAll : Prop :=
  (∀ (s : State) (q src len h : Nat) (f : PacketForm) (p : Packet), s.Admits (.planLoad q src len) f p →
    s.dev.unbacked (src % 2 ^ 48) len = none → 1 ≤ len →
    h < 16 → s.dev.handleTaken h = false → (∀ k, k < h → s.dev.handleTaken k = true) →
    (bits (rdNat s.dev.mem (src % 2 ^ 48) 1) 0 4 = 0 → ∀ e ∈ s.dev.plans, e.2.live = true ∨ (e.2.ready = false ∧ e.2.loadCmd = 0)) →
    Res.Becomes s (s.dev.updPlan h (fun _ => { loadCmd := s.dev.host.nextCmd, loadSrc := src % 2 ^ 48, loadLen := len, port := q / 8, live := bits (rdNat s.dev.mem (src % 2 ^ 48) 1) 0 4 != 0 })) (exec (.planLoad q src len) s)) ∧
  (∀ (s : State) (h : Nat) (b : List Byte) (pl : Plan), s.dev.pow.dead = false → (s.dev.plan h).loadCmd ≠ 0 →
    b = rdBytes s.dev.mem (s.dev.plan h).loadSrc (s.dev.plan h).loadLen → pl = readPlan b (s.dev.plan h).port →
    firstBad s.dev.poison (s.dev.plan h).loadSrc (s.dev.plan h).loadLen = none →
    (s.dev.imageFault b = none → s.dev.imageFits b = true → s.dev.slowRefusal pl = none →
      ∃ t : State, exec (.planLoadDone h) s = .next t ∧ t.pending = s.pending ∧ t.dev.plan h = pl ∧ t.dev.planUsed = s.dev.planUsed ++ [h] ∧
        (((s.dev.updPlan h (fun _ => {})).setUpPlan h b pl).raiseFloor (s.dev.updPlan h (fun _ => {})).fFloor).Replied t.dev) ∧
    ((s.dev.imageFault b ≠ none ∨ s.dev.imageFits b = false ∨ s.dev.slowRefusal pl ≠ none) →
      Res.Becomes s (s.dev.updPlan h (fun _ => {})) (exec (.planLoadDone h) s)))

/-- PLAN_UNLOAD (R143, R453; log entry 22). -/
def Obligations.PlanUnloadNeedsAnIdlePlan : Prop :=
  ∀ (s : State) (q h : Nat) (f : PacketForm) (p : Packet) (pl : Plan), s.Admits (.planUnload q h) f p → pl = s.dev.plan h → pl.ready = true →
    (pl.valid = true → pl.cur = none → pl.next = none → pl.overlap = none →
      (∀ e ∈ s.dev.cad.streams, e.2.opened = true → bits e.2.record 0 4 ≠ h) → (∀ x ∈ s.dev.obs.dumps, x.plan ≠ h) →
      Res.Becomes s { s.dev with
        plans := Tab.set {} s.dev.plans h {}
        planUsed := s.dev.planUsed.filter (fun k => k != h)
        cob := if pl.live = true then s.dev.cob else { unitStop := s.dev.cob.unitStop }
        host := if pl.slowTier = true then { s.dev.host with
          owner := slowChannels.foldl (fun o id => Tab.set 0 o id 0) s.dev.host.owner } else s.dev.host } (exec (.planUnload q h) s)) ∧
    (pl.valid = true → (pl.cur ≠ none ∨ pl.next ≠ none ∨ pl.overlap ≠ none ∨
        (∃ e ∈ s.dev.cad.streams, e.2.opened = true ∧ bits e.2.record 0 4 = h) ∨ (∃ x ∈ s.dev.obs.dumps, x.plan = h)) →
      Res.Becomes s s.dev (exec (.planUnload q h) s)) ∧
    (pl.valid = false → ∃ t : State, exec (.planUnload q h) s = .next t ∧ t.pending = s.pending ∧ t.dev.plan h = {} ∧ h ∉ t.dev.planUsed)

/-- RUN_STEP (R195, R243, R458). -/
def Obligations.RunStepWaitsOrStarts : Prop :=
  ∀ (s : State) (q h step : Nat) (f : PacketForm) (p : Packet) (pl : Plan), s.Admits (.runStep q h step) f p → pl = s.dev.plan h →
    pl.ready = true → pl.live = false → pl.valid = true → pl.run ≠ none → pl.stateLoaded = true → pl.blocked = 0 →
    pl.tooEarly step = false → (pl.batches = true → s.dev.ing.trainRing ≠ none) →
    (∀ r, pl.cur = some r → pl.next = none → pl.overlap = none → step = r.step + 1 →
      (pl.batches = false → Res.Becomes s (s.dev.updPlan h (fun x => { x with next := some { cmd := s.dev.host.nextCmd, step := step } }))
        (exec (.runStep q h step) s)) ∧
      (∀ n g, pl.batches = true → s.dev.ing.trainRing = some (n, g) →
        Res.Becomes s { s.dev.updPlan h (fun x => { x with next := some { cmd := s.dev.host.nextCmd, step := step, batch := some (s.dev.ing.epoch + g.steps) } }) with
          ing := { s.dev.ing with rings := Tab.upd {} s.dev.ing.rings n (fun r => { r with steps := r.steps + 1 }) } } (exec (.runStep q h step) s))) ∧
    (∀ (d1 : Dev) (st : Nat), pl.cur = none → pl.next = none → pl.overlap = none →
      (∀ i, i < s.dev.cob.blks.length → hdMom (s.dev.blkHeader i) = step ∧ hdW (s.dev.blkHeader i) = step) →
      d1 = (((s.dev.begin_ q p).1.accept (s.dev.begin_ q p).2).takeBatch h).1 →
      st = ((Dev.rotateCosts { d1 with cad := d1.cad.takeReservations }).openWork pl (workKey false 0 step) 0 0 (d1.host.cmd s.dev.host.nextCmd)).2 →
      ∃ t : State, exec (.runStep q h step) s = .next t ∧ t.pending = s.pending ∧
        ((st = 0 ∨ st = stParity) → (∃ r, (t.dev.plan h).cur = some r ∧ r.cmd = s.dev.host.nextCmd ∧ r.step = step ∧ (st = stParity → r.bad = stParity)) ∧
          (t.dev.plan h).lastStep = some step) ∧
        (st = stNoMemory → (t.dev.plan h).cur = none ∧ (t.dev.plan h).lastStep = pl.lastStep)) ∧
    ((pl.next ≠ none ∨ pl.overlap ≠ none) → Res.Becomes s s.dev (exec (.runStep q h step) s))

/-- STEP_ABORT (R312, R460, R532). -/
def Obligations.StepAbortStopsTheSteps : Prop :=
  ∀ (s : State) (q h : Nat) (f : PacketForm) (p : Packet) (pl : Plan), s.Admits (.stepAbort q h) f p → pl = s.dev.plan h →
    pl.ready = true → pl.valid = true →
    ∃ plans : Tab Plan, Res.Becomes s { s.dev with
        plans := plans
        obs := { s.dev.obs with dumps := s.dev.obs.dumps.filter (fun x =>
          !(x.plan == h && x.stream.isNone && (pl.cur.isSome || pl.next.any (fun n => x.step == n.step)))) }
        ing := match pl.next with | some n => s.dev.ing.freeBatch n.batch | none => s.dev.ing } (exec (.stepAbort q h) s) ∧
      ∀ k, Tab.get {} plans k = if k = h then { pl with
        cur := pl.cur.map (fun r => if r.bad = 0 then { r with bad := stAborted, faultAt := 0, workFault := 0, noUpdate := true, halting := true }
          else { r with noUpdate := true, halting := true })
        next := none
        overlap := pl.overlap.map (fun r => if r.bad = 0 then { r with bad := stAborted, faultAt := 0, workFault := 0, noUpdate := true, halting := true }
          else { r with noUpdate := true, halting := true })
        aborts := if pl.cur = none ∧ pl.overlap = none then [] else pl.aborts ++ [s.dev.host.nextCmd] } else s.dev.plan k

/-- WAITING_STEP_START and STEP_COMPLETE (R195, R243, R458, R459). -/
def Obligations.StepsStartInTurnAndComplete : Prop :=
  ∀ (s : State) (h : Nat) (pl : Plan), pl = s.dev.plan h → s.dev.pow.dead = false →
    (∀ n st, pl.next = some n → pl.cur = none →
      st = ((Dev.rotateCosts { s.dev.updPlan h (fun p => { p with next := none }) with cad := s.dev.cad.takeReservations }).openWork
        { pl with next := none } (workKey false 0 n.step) 0 0 (s.dev.host.cmd n.cmd)).2 →
      (pl.tooEarly n.step = false → (st = 0 ∨ st = stParity) →
        ∃ (t : State) (r : StepRun), exec (.waitingStepStart h) s = .next t ∧ t.pending = s.pending ∧ (t.dev.plan h).cur = some r ∧ r.cmd = n.cmd ∧
          r.step = n.step ∧ r.batch = n.batch ∧ (t.dev.plan h).next = none ∧ (t.dev.plan h).lastStep = some n.step) ∧
      ((pl.tooEarly n.step = true ∨ st = stNoMemory) → ∃ t : State, exec (.waitingStepStart h) s = .next t ∧ t.pending = s.pending ∧
        (t.dev.plan h).cur = none ∧ (t.dev.plan h).next = none ∧ (t.dev.plan h).lastStep = pl.lastStep)) ∧
    (∀ r, pl.cur = some r → (pl.overlap ≠ none ∨ r.eos = none ∨ r.bad ≠ 0 ∨ r.halting = true) → exec (.waitingStepStart h) s = .next s) ∧
    (∀ r, pl.cur = some r → s.dev.stepOver h r = false → exec (.stepComplete h) s = .next s) ∧
    (∀ r, pl.cur = some r → s.dev.stepOver h r = true → r.bad = 0 → pl.overlap = none →
      ∃ t : State, exec (.stepComplete h) s = .next t ∧ t.pending = s.pending ∧ (t.dev.plan h).cur = none ∧ t.dev.cob.active = false ∧
        ∀ c, s.dev.host.cmd r.cmd = some c → c.pkt.Plain → s.dev.host.waiting = [] → (∀ x, (s.dev.host.queue x).fetched = []) →
          s.dev.CanAnswer c.rq → 16 ≤ 2 ^ (s.dev.host.queue c.rq).rqLog2 → pl.aborts = [] →
          s.dev.Answered t.dev c.rq [s.dev.replyNow c.pkt.tag (if s.dev.padded r = 0 then stDone else stReplaced) 1
            (if s.dev.padded r = 0 then b2n r.gradNF + 2 * r.skipped.length else s.dev.padded r), s.dev.stepEntry pl r])

/-! ## Run state, group records and parameter state -/

/-- RUN_CONFIG, GROUP_WRITE, STATE_LOAD and STATE_SAVE (R242, R465, R466). -/
def Obligations.ParameterStateCommands : Prop :=
  ∀ (s : State) (q h : Nat) (f : PacketForm) (p : Packet) (pl : Plan), pl = s.dev.plan h → pl.ready = true → pl.live = false → pl.valid = true →
    (∀ i, (∃ run, i = .runConfig q h run ∧ (runConds run).all id = true) ∨
        (∃ dest len, i = .stateSave q h dest len ∧ s.dev.unwritable (dest % 2 ^ 48) (s.dev.imageLen h) = none ∧ s.dev.imageLen h ≤ len) →
      s.Admits i f p → (pl.cur ≠ none ∨ pl.next ≠ none ∨ pl.overlap ≠ none ∨ (∃ e ∈ s.dev.plans, e.2.stateCmds ≠ [])) → Res.Becomes s s.dev (exec i s)) ∧
    (∀ group step record, s.Admits (.groupWrite q h group step record) f p → (∀ l, pl.lastStep = some l → l < step) →
      (pl.recordConds group record).all id = true → (pl.withRecord group record).stageHolds = true →
      Res.Becomes s (s.dev.updPlan h (fun x => { x with
        groupPend := x.groupPend.filter (fun y => !(y.1 == group && y.2.1 == step)) ++ [(group, step, writtenGroup record)] })) (exec (.groupWrite q h group step record) s)) ∧
    (pl.cur = none → pl.next = none → pl.overlap = none → (∀ e ∈ s.dev.plans, e.2.stateCmds = []) →
      (∀ run, s.Admits (.runConfig q h run) f p → (runConds run).all id = true → (run.testBit 89 = true → pl.parkHolds = true) →
        Res.Becomes s (s.dev.updPlan h (fun x => { x with run := some (cleanRun run) })) (exec (.runConfig q h run) s)) ∧
      (∀ src len x, s.Admits (.stateLoad q h src len) f p → x = pl.readImage s.dev.mem (src % 2 ^ 48) →
        s.dev.unbacked (src % 2 ^ 48) len = none → 128 ≤ len → x.len ≤ len → pl.imageBad x = false → pl.imageTooBig x = false →
        Res.Becomes s (s.dev.updPlan h (fun y => { y with stateCmds := y.stateCmds ++ [(s.dev.host.nextCmd, false, src % 2 ^ 48, len)] }))
          (exec (.stateLoad q h src len) s)) ∧
      (∀ dest len, s.Admits (.stateSave q h dest len) f p → s.dev.unwritable (dest % 2 ^ 48) (s.dev.imageLen h) = none → s.dev.imageLen h ≤ len →
        Res.Becomes s (s.dev.updPlan h (fun y => { y with stateCmds := y.stateCmds ++ [(s.dev.host.nextCmd, true, dest % 2 ^ 48, len)] }))
          (exec (.stateSave q h dest len) s)))

/-- STATE_LOAD_DONE and STATE_SAVE_DONE (R466). -/
def Obligations.StateImagesLoadAndSave : Prop :=
  ∀ (s : State) (h cmd a n : Nat) (flips : List Nat) (rest : List (Nat × Bool × Nat × Nat)) (pl : Plan), pl = s.dev.plan h →
    s.dev.pow.dead = false → cpFlip flips = false →
    (∀ x, pl.stateCmds = (cmd, false, a, n) :: rest → pl.cur = none → pl.next = none → pl.overlap = none → x = pl.readImage s.dev.mem a →
      ∃ t : State, exec (.stateLoadDone h flips) s = .next t ∧ t.pending = s.pending ∧ (t.dev.plan h).stateCmds = rest ∧
        (((s.dev.cobWork flips).read a (128 + 128 * x.nGroups)).2.bad = false → (t.dev.plan h).run = some x.run ∧
          (t.dev.plan h).stateLoaded = true ∧ (t.dev.plan h).lastStep = none ∧ (t.dev.plan h).groupSet = List.range x.nGroups ∧ t.dev.cob.plan = some h) ∧
        (((s.dev.cobWork flips).read a (128 + 128 * x.nGroups)).2.bad = true → t.dev.plan h = { pl with stateCmds := rest })) ∧
    (∀ m, pl.stateCmds = (cmd, true, a, n) :: rest → m = pl.nGroups →
      ∃ t : State, exec (.stateSaveDone h flips) s = .next t ∧ t.pending = s.pending ∧ (t.dev.plan h).stateCmds = rest ∧
        (flips = [] → (∀ b ∈ s.dev.cob.blks, firstBad s.dev.poison b.cur b.size = none) → t.dev.plan h = { pl with stateCmds := rest } ∧
          ((∀ k x, a ≤ x → x < a + 128 → ¬ (s.dev.host.queue k).replyByte k x) →
            rdNat t.dev.mem a 64 = packBits [(9, m), (23, 0), (32, s.dev.cob.blks.length), (64, 128 + 128 * m + (s.dev.cob.blks.map (·.size)).sum)] ∧
            rdNat t.dev.mem (a + 64) 64 = pl.run.getD 0 % 2 ^ 512) ∧
          (∀ x, (x < a ∨ a + (128 + 128 * m + (s.dev.cob.blks.map (·.size)).sum) ≤ x) → (∀ k, ¬ (s.dev.host.queue k).replyByte k x) →
            rdByte t.dev.mem x = rdByte s.dev.mem x)))

/-! ## Cores -/

/-- DESCRIPTOR_ISSUE (R96 to R98, R107, R108, R143, R187). -/
def Obligations.DescriptorsIssueInOrder : Prop :=
  ∀ (s : State) (n x sz : Nat) (flips : List Nat) (c : Ctx), cpFlip flips = false → s.dev.pow.dead = false →
    (s.dev.core n).ctx = some c → s.dev.coreLive n = true →
    (s.dev.mustStop n c = true → exec (.descriptorIssue n flips) s = .next s) ∧
    ((s.dev.core n).run = 1 → s.dev.mustStop n c = false → c.loop = none → c.ended = false → s.dev.fetch n c c.pc = (x, sz) →
      ((eventWaitDone x c.events = false ∨ s.dev.loopWaitDone c (n / 48) x = false ∨ c.unitFree x = false ∨ c.claimBlocked n x = true) →
        exec (.descriptorIssue n flips) s = .next s) ∧
      (eventWaitDone x c.events = true → s.dev.loopWaitDone c (n / 48) x = true → c.unitFree x = true → c.claimBlocked n x = false →
        (∀ a, flips.find? (fun a => a < 2 ^ 48) = some a →
          ∃ t : State, exec (.descriptorIssue n flips) s = .next t ∧ t.pending = s.pending ∧ t.dev.cores = s.dev.cores ∧
            t.dev.mem = s.dev.mem ∧ (t.dev.plan c.plan).valid = false) ∧
        (flips.find? (fun a => a < 2 ^ 48) = none →
          (dOp x = 1 ∨ dOp x = 3 → exec (.descriptorIssue n flips) s = .next { s with
            dev := ((({ s.dev with
              cores := Tab.upd {} s.dev.cores n (fun k => { k with ctx := some { c with
                pc := c.pc + max sz 64, ops := Tab.set none c.ops (unitOf x) (some { desc := x, size := sz }) } })
              ctr := bump s.dev.ctr (coreInst n) 0x10 1 } : Dev).traceDesc 1 n x).count (engInst (4 * n + unitOf x)) 0x04 (panelSplits x)) }) ∧
          (dOp x ∈ [2, 5, 7] → exec (.descriptorIssue n flips) s = .next { s with
            dev := ({ s.dev with
              cores := Tab.upd {} s.dev.cores n (fun k => { k with ctx := some { c with
                pc := c.pc + max sz 64, ops := Tab.set none c.ops (unitOf x) (some { desc := x, size := sz }) } })
              ctr := bump s.dev.ctr (coreInst n) 0x10 1 } : Dev).traceDesc 1 n x }) ∧
          (∀ w, dOp x = 4 → s.dev.badSlot n x = (none, w) → w.bad = false → exec (.descriptorIssue n flips) s = .next { s with
            dev := ({ s.dev with
              cores := Tab.upd {} s.dev.cores n (fun k => { k with ctx := some { c with
                pc := c.pc + max sz 64, ops := Tab.set none c.ops 6 (some { desc := x, size := sz }) } })
              ctr := bump s.dev.ctr (coreInst n) 0x10 1 } : Dev).traceDesc 1 n x }) ∧
          (∀ b w r, dOp x = 4 → s.dev.badSlot n x = (some b, w) → w.bad = false → c.live = false →
            (s.dev.plan c.plan).run_ c.second = some r → r.bad = 0 →
            ∃ t : State, exec (.descriptorIssue n flips) s = .next t ∧ t.pending = s.pending ∧ t.dev.cores = s.dev.cores ∧
              t.dev.ctr = s.dev.ctr ∧ t.dev.mem = s.dev.mem ∧ (t.dev.plan c.plan).run_ c.second =
                some { r with bad := stBadParam, faultAt := 0, workFault := workFault (dId x) (n / 48) 0 0 b 0 2, noUpdate := true, halting := true }) ∧
          (dOp x = 0 → s.dev.clusterHalted n = false → exec (.descriptorIssue n flips) s = .next { s with
            dev := ({ s.dev with
              cores := Tab.upd {} s.dev.cores n (fun k => { k with ctx := some { c with pc := c.pc + max sz 64, events := signal x c.events } })
              ctr := bump s.dev.ctr (coreInst n) 0x10 1 } : Dev).traceDesc 1 n x }) ∧
          (dOp x = 8 → s.dev.clusterHalted n = false → c.idle = false → exec (.descriptorIssue n flips) s = .next { s with
            dev := ({ s.dev with
              cores := Tab.upd {} s.dev.cores n (fun k => { k with ctx := some { c with
                pc := c.pc + max sz 64, events := signal x c.events, ended := true } })
              ctr := bump s.dev.ctr (coreInst n) 0x10 1 } : Dev).traceDesc 1 n x }) ∧
          (dOp x = 6 → ∃ body, body.length = clBody x ∧ exec (.descriptorIssue n flips) s = .next { s with
            dev := ({ s.dev with
              cores := Tab.upd {} s.dev.cores n (fun k => { k with ctx := some { c with
                pc := c.pc + sz
                loop := some { desc := x, pc := c.pc + sz, body := body, seq := (clRef x + s.dev.ctrBase c (n / 48) (clCtr x)) % 65536, waitClaim := true } } })
              ctr := bump s.dev.ctr (coreInst n) 0x10 1 } : Dev).traceDesc 1 n x }))))

/-- MATMUL_COMPLETE, CONV_COMPLETE, COMBINE_COMPLETE, VECTOR_COMPLETE, ATTENTION_COMPLETE and STOP_POINT_REACHED (R63, R88, R90, R99,
R187 to R189). -/
def Obligations.ComputeOperationsComplete : Prop :=
  ∀ (s : State) (n e : Nat) (flips : List Nat) (c : Ctx) (o : Op) (w : Wk), s.dev.pow.dead = false → cpFlip flips = false →
    s.dev.coreLive n = true → (s.dev.core n).ctx = some c → (s.dev.core n).run = 1 → c.loop = none → c.ended = false →
    (∀ i u, o.stopped = false → c.op u = some o →
      ((e < 4 ∧ u = e ∧ (i, dOp o.desc) ∈ [(.matmulComplete n e flips, 1), (.convComplete n e flips, 3), (.combineComplete n e flips, 5)] ∧
          w = (s.dev.work n flips).finishTiles o.desc (4 * n + e) ⟨mOutGrad o.desc, c.seed, c.step, mOutSym o.desc⟩ o.tiles) ∨
        (u = 4 ∧ i = .vectorComplete n flips ∧ dOp o.desc = 2 ∧ (∀ a ∈ touches o.desc, s.dev.accHeld n a = false) ∧
          w = (s.dev.work n flips).vector o.desc c.seed c.step) ∨
        (u = 6 ∧ i = .attentionComplete n flips ∧ dOp o.desc = 4 ∧ (s.dev.work n flips).unitsBad o.desc o.tiles (aUnits o.desc) = none ∧
          (s.dev.work n flips).unitsFault o.desc o.tiles (aUnits o.desc) = none ∧
          (s.dev.work n flips).unitsWait o.desc o.tiles (aUnits o.desc) = false ∧
          w = (s.dev.work n flips).attention n o.desc c.seed c.step o.tiles (aUnits o.desc))) →
      ∃ t : State, exec i s = .next t ∧ t.pending = s.pending ∧ t.dev.mem = w.mem ∧ t.dev.poison = w.poison ∧
        (t.dev.core n) = { s.dev.core n with poison := w.pz, ctx := some { c with ops := Tab.set none c.ops u none, events := signal o.desc c.events } } ∧
        (∀ m, m ≠ n → t.dev.core m = s.dev.core m) ∧ t.dev.host = s.dev.host ∧ (s.dev.clusterHalted n = false → t.dev.pods = s.dev.pods) ∧
        (w.bad = false → w.gradNF = false → t.dev.plans = s.dev.plans ∧ t.dev.cad = s.dev.cad) ∧
        (∀ r, c.live = false → (s.dev.plan c.plan).run_ c.second = some r → r.bad = 0 →
          ∃ r', (t.dev.plan c.plan).run_ c.second = some r' ∧ r'.gradNF = (r.gradNF || w.gradNF) ∧ r'.bad = (if w.bad then stParity else 0) ∧
            r'.halting = (r.halting || w.bad) ∧ r'.step = r.step)) ∧
    (dOp o.desc = 4 → c.op 6 = some o → o.stopped = false → (s.dev.work n flips).unitsBad o.desc o.tiles (aUnits o.desc) = none →
      (∀ b l r, (s.dev.work n flips).unitsFault o.desc o.tiles (aUnits o.desc) = some (b, l) → c.live = false →
        (s.dev.plan c.plan).run_ c.second = some r → r.bad = 0 →
        ∃ t : State, exec (.attentionComplete n flips) s = .next t ∧ t.pending = s.pending ∧ t.dev.mem = s.dev.mem ∧
          t.dev.core n = { s.dev.core n with ctx := some { c with ops := Tab.set none c.ops 6 none } } ∧
          (t.dev.plan c.plan).run_ c.second = some { r with
            bad := stBadParam
            faultAt := 0
            workFault := workFault (dId o.desc) (n / 48) 0 0 b l 2
            noUpdate := true
            halting := true }) ∧
      ((s.dev.work n flips).unitsFault o.desc o.tiles (aUnits o.desc) = none →
        (s.dev.work n flips).unitsWait o.desc o.tiles (aUnits o.desc) = true → exec (.attentionComplete n flips) s = .next s)) ∧
    (∀ tiles, e < 4 → c.op 6 = none → c.op e = some o → o.stopped = false → s.dev.mustStop n c = true →
      (stopAtOk o.desc tiles = true → o.tiles < tiles →
        w = (s.dev.work n flips).tiles o.desc (4 * n + e) ⟨mOutGrad o.desc, c.seed, c.step, mOutSym o.desc⟩ o.tiles tiles →
        ∃ t : State, exec (.stopPointReached n e tiles flips) s = .next t ∧ t.pending = s.pending ∧ t.dev.mem = w.mem ∧ t.dev.poison = w.poison ∧
          t.dev.core n = { s.dev.core n with poison := w.pz, ctx := some { c with
            ops := Tab.set none c.ops e (some { o with tiles := tiles, stopped := true }) } } ∧ ∀ m, m ≠ n → t.dev.core m = s.dev.core m) ∧
      ((stopAtOk o.desc tiles = false ∨ tiles ≤ o.tiles) → exec (.stopPointReached n e tiles flips) s = .next s)) ∧
    (∀ tiles, c.op 6 = some o → o.stopped = false → s.dev.mustStop n c = true → o.tiles < tiles → tiles < aUnits o.desc →
      (s.dev.work n flips).unitsBad o.desc o.tiles tiles = none → (s.dev.work n flips).unitsFault o.desc o.tiles tiles = none →
      (s.dev.work n flips).unitsWait o.desc o.tiles tiles = false →
      w = (s.dev.work n flips).attention n o.desc c.seed c.step o.tiles tiles →
      ∃ t : State, exec (.stopPointReached n e tiles flips) s = .next t ∧ t.pending = s.pending ∧ t.dev.mem = w.mem ∧
        t.dev.poison = w.poison ∧ t.dev.core n = { s.dev.core n with poison := w.pz, ctx := some { c with
          ops := Tab.set none c.ops 6 (some { o with tiles := tiles, stopped := true }) } } ∧ ∀ m, m ≠ n → t.dev.core m = s.dev.core m)

/-- MOVE_COMPLETE and MOVE_ARRIVAL (R63, R148, R262, R485, R487). -/
def Obligations.MovesCompleteAndArrive : Prop :=
  ∀ (s : State) (n : Nat) (c : Ctx), s.dev.pow.dead = false → (s.dev.core n).ctx = some c → (s.dev.core n).run = 1 → c.loop = none → c.ended = false →
    (∀ (flips : List Nat) (o : Op) (x : Xfer), cpFlip flips = false → s.dev.coreLive n = true → c.op 5 = some o →
      dOp o.desc = 7 → o.stopped = false → (touches o.desc).any s.dev.anyHeld = false → s.dev.sendFull n c o.desc = false → x = moveXfer o.desc →
      (s.dev.moveUnbacked o.desc = false → ∃ t : State, exec (.moveComplete n flips) s = .next t ∧ t.pending = s.pending ∧
        t.dev.mem = ((s.dev.work n flips).move o.desc c.seed c.step).mem ∧
        (∃ z, t.dev.core n = { s.dev.core n with poison := z, ctx := some { c with
          ops := Tab.set none c.ops 5 none, events := signal o.desc c.events, arrivals := c.arrivals ++ arriveOf o.desc } }) ∧
        (∀ m, m ≠ n → t.dev.core m = s.dev.core m) ∧ t.dev.host = s.dev.host ∧ (s.dev.clusterHalted n = false → t.dev.pods = s.dev.pods) ∧
        (flips = [] → mvKind o.desc = 1 → ∀ r j, r < x.rows → j < x.len → rdByte t.dev.mem (x.dst + r * x.ds + j) = BitVec.ofNat 8 x.value) ∧
        (flips = [] → mvKind o.desc = 0 → (x.src + x.srcExt ≤ x.dst ∨ x.dst + x.dstExt ≤ x.src) → x.len ≤ x.ds →
          ∀ r j, r < x.rows → j < x.len → rdByte t.dev.mem (x.dst + r * x.ds + j) = rdByte s.dev.mem (x.src + r * x.ss + j)) ∧
        (flips = [] → mvKind o.desc ≤ 1 → ∀ a, (∀ r, r < x.rows → a < x.dst + r * x.ds ∨ x.dst + r * x.ds + x.len ≤ a) →
          rdByte t.dev.mem a = rdByte s.dev.mem a)) ∧
      (∀ r, s.dev.moveUnbacked o.desc = true → c.live = false → (s.dev.plan c.plan).run_ c.second = some r → r.bad = 0 →
        ∃ t : State, exec (.moveComplete n flips) s = .next t ∧ t.pending = s.pending ∧ t.dev.mem = s.dev.mem ∧
          t.dev.core n = { s.dev.core n with ctx := some { c with ops := Tab.set none c.ops 5 none } } ∧
          (t.dev.plan c.plan).run_ c.second =
            some { r with bad := stBadParam, faultAt := 0, workFault := workFault (dId o.desc) (n / 48) 0 0 0 0 3, noUpdate := true, halting := true })) ∧
    (∀ (flips : List Nat) (o : Op), cpFlip flips = false → c.op 5 = some o → dOp o.desc = 7 → s.dev.sendFull n c o.desc = true →
      exec (.moveComplete n flips) s = .next s) ∧
    (∀ (p m ev win : Nat) (rest : List (Nat × Nat × Nat × Nat)) (c2 : Ctx), c.arrivals = (p, m, ev, win) :: rest → 48 * p + m ≠ n →
      (s.dev.core (48 * p + m)).ctx = some c2 → c2.plan = c.plan →
      ∃ t : State, exec (.moveArrival n) s = .next t ∧ t.pending = s.pending ∧
        t.dev.core n = { s.dev.core n with ctx := some { c with arrivals := rest } } ∧
        t.dev.core (48 * p + m) = { s.dev.core (48 * p + m) with ctx := some { c2 with
          events := Tab.set 0 c2.events ev ((Tab.get 0 c2.events ev + 1) % 65536) } } ∧
        (∀ k, k ≠ n → k ≠ 48 * p + m → t.dev.core k = s.dev.core k) ∧ t.dev.mem = s.dev.mem ∧ t.dev.plans = s.dev.plans)

/-! ## Tile counters and the page ring -/

/-- COUNTER_ARM, TILE_CLAIM, TILE_COMPLETION and REISSUE_TIMEOUT (R110 to R116, R143, R560). -/
def Obligations.TileCountersServeTheirLoops : Prop :=
  ∀ (s : State) (pod ctr : Nat) (k : TileCtr), s.dev.pow.dead = false → k = s.dev.ctr_ pod ctr →
    ((k.st = 1 ∨ k.st = 2) → exec (.counterArm pod ctr) s = .next s) ∧
    (∀ h second r l, pod ≤ 3 → ctr ≤ 63 → k.st ≠ 1 → k.st ≠ 2 → (s.dev.plan h).run_ second = some r → Work.step h second ∈ s.dev.works →
      (∀ w ∈ s.dev.works, w ≠ .step h second → s.dev.armable pod ctr w = none) →
      ((s.dev.plan h).loopsOn pod ctr)[Tab.get 0 r.armed (64 * pod + ctr)]? = some l → r.halting = false → r.batch = none → s.dev.obs.dumps = [] →
      (∀ y ∈ (s.dev.plan h).marked l, r.step ≤ Tab.get 0 (s.dev.pod pod).fence y) →
      ∃ t : State, exec (.counterArm pod ctr) s = .next t ∧ t.pending = s.pending ∧
        t.dev.ctr_ pod ctr = { limit := l.limit, seq := (k.seq + 1) % 65536, st := 1, reissue := l.reissue, mask := Tab.get 0 r.masks (64 * pod + ctr), after := l.reissueAfter, sbBase := l.sbBase, branch := l.branch, padSkip := l.padSkip, doneAt := k.doneAt } ∧
        (∀ p c, (p, c) ≠ (pod, ctr) → t.dev.ctr_ p c = s.dev.ctr_ p c) ∧
        (∀ a, rdByte t.dev.mem a = if l.sbBase ≤ a ∧ a < l.sbBase + ceilDiv l.limit 8 then 0 else rdByte s.dev.mem a) ∧
        (t.dev.plan h).run_ second = some { r with armed := Tab.upd 0 r.armed (64 * pod + ctr) (· + 1) } ∧ t.dev.cores = s.dev.cores) ∧
    (∀ n c l, n / 48 = pod → clCtr l.desc = ctr → s.dev.coreLive n = true → (s.dev.core n).ctx = some c → (s.dev.core n).run = 1 → c.ended = false → s.dev.clusterHalted n = false →
      c.loop = some l →
      (l.waitClaim = true → s.dev.mustStop n c = false →
        (after16 l.seq k.seq = true → exec (.tileClaim n) s = .next s) ∧
        (after16 l.seq k.seq = false → (k.seq ≠ l.seq ∨ k.st = 0 ∨ k.st = 3 ∨ (k.st = 2 ∧ k.queue = []) ∨ k.mask.testBit (n % 48 / 4) = false) →
          exec (.tileClaim n) s = .next { s with dev := s.dev.updCore n (fun x => { x with ctx := some { c with
            loop := none, pc := l.pc + (l.body.map (fun b => max b.2 64)).sum, events := signal l.desc c.events } }) }) ∧
        (∀ i e, k.seq = l.seq → k.mask.testBit (n % 48 / 4) = true → ((k.st = 1 ∧ k.queue = [] ∧ (i, e) = (k.next, 0)) ∨
            ((k.st = 1 ∨ k.st = 2) ∧ k.queue.head? = some (i, e))) →
          anyBad s.dev.poison (clTable l.desc + 128 * i) 128 = false → k.padSkip = false →
          exec (.tileClaim n) s = .next { s with dev := ((s.dev.updCtr pod ctr (fun x => { x with
            claims := x.claims ++ [{ core := n, idx := i, epoch := e, seq := k.seq, claimedAt := s.dev.plat.now }]
            queue := x.queue.tail
            next := if k.queue = [] then k.next + 1 else k.next
            st := if k.queue = [] ∧ k.next + 1 = k.limit then 2 else k.st
            epochs := Tab.set 0 x.epochs i e })).traceTile 3 n ctr i e 0).updCore n (fun x => { x with ctx := some { c with loop := some { l with
              idx := some i, epoch := e, record := rdNat s.dev.mem (clTable l.desc + 128 * i) 128, at_ := 0, padC := none, waitClaim := false } } }) }) ∧
        (∀ i e, k.seq = l.seq → k.mask.testBit (n % 48 / 4) = true → k.st = 1 → k.queue = [] → (i, e) = (k.next, 0) →
          anyBad s.dev.poison (clTable l.desc + 128 * i) 128 = true → ∃ t : State, exec (.tileClaim n) s = .next t ∧
            t.pending = s.pending ∧ t.dev.mem = s.dev.mem ∧ t.dev.cores = s.dev.cores ∧ (t.dev.plan c.plan).valid = false)) ∧
      (∀ i, l.idx = some i → l.body.length ≤ l.at_ → (∀ x ∈ c.ops, ∀ o, x.2 = some o → o.body = false) → c.arrivals = [] →
        anyBad s.dev.poison (k.sbBase + i / 8) 1 = false →
        ((rdByte s.dev.mem (k.sbBase + i / 8)).toNat.testBit (i % 8) = true →
          ∃ t : State, exec (.tileCompletion n) s = .next t ∧ t.pending = s.pending ∧ t.dev.mem = s.dev.mem ∧
            ctrVal t.dev.ctr (podInst pod) 0x20 = (ctrVal s.dev.ctr (podInst pod) 0x20 + 1) % 2 ^ 64 ∧
            (t.dev.ctr_ pod ctr).claims = k.claims.filter (fun x => x.core != n) ∧ (t.dev.ctr_ pod ctr).accepted = k.accepted ∧
            t.dev.core n = { s.dev.core n with ctx := some { c with loop := some { l with idx := none, at_ := 0, waitClaim := true, padC := none, record := 0 } } }) ∧
        ((rdByte s.dev.mem (k.sbBase + i / 8)).toNat.testBit (i % 8) = false →
          (∀ x ∈ k.claims, x.core ≠ n → (x.cancelled = true ∨ x.idx = i) → (s.dev.core x.core).saved = none ∧ (s.dev.core x.core).run = 1 ∧
            ∃ cx, (s.dev.core x.core).ctx = some cx ∧ cx.ended = false ∧ cx.bodyMoving = true) →
          ∃ t : State, exec (.tileCompletion n) s = .next t ∧ t.pending = s.pending ∧
            rdByte t.dev.mem (k.sbBase + i / 8) = rdByte s.dev.mem (k.sbBase + i / 8) ||| BitVec.ofNat 8 (2 ^ (i % 8)) ∧
            (∀ a, a ≠ k.sbBase + i / 8 → rdByte t.dev.mem a = rdByte s.dev.mem a) ∧
            (t.dev.ctr_ pod ctr).accepted = k.accepted + 1 ∧ (t.dev.ctr_ pod ctr).queue = k.queue.filter (fun x => x.1 != i) ∧
            (t.dev.ctr_ pod ctr).claims = (k.claims.filter (fun x => x.core != n)).map (fun x => if x.idx = i then { x with cancelled := true } else x) ∧
            ((k.st = 1 ∨ k.st = 2) → (t.dev.ctr_ pod ctr).st =
              if k.accepted + 1 = k.limit ∧ k.claims.filter (fun x => x.core != n) = [] then 3 else k.st) ∧
            t.dev.core n = { s.dev.core n with ctx := some { c with loop := some { l with idx := none, at_ := 0, waitClaim := true, padC := none, record := 0 } } }))) ∧
    (∀ i, (∀ x p, x ∈ k.claims → (∀ y ∈ k.claims, y.idx = i → y = x) → x.idx = i → x.spellUsed = false → x.cancelled = false → x.preemptAt = some p →
        p + k.after * 1000 ≤ s.dev.plat.now → k.reissue = true → (k.st = 1 ∨ k.st = 2) → (∀ e ∈ k.queue, e.1 ≠ i) → Tab.get 0 k.epochs i < 15 →
        (rdByte s.dev.mem (k.sbBase + i / 8)).toNat.testBit (i % 8) = false →
        exec (.reissueTimeout pod ctr i) s = .next { s with dev := s.dev.updCtr pod ctr (fun y => { y with
          queue := y.queue ++ [(i, Tab.get 0 k.epochs i + 1)]
          claims := y.claims.map (fun z => if z.core = x.core ∧ z.idx = i then { z with spellUsed := true } else z) }) }) ∧
      ((k.reissue = false ∨ (∃ e ∈ k.queue, e.1 = i) ∨ 15 ≤ Tab.get 0 k.epochs i ∨ (rdByte s.dev.mem (k.sbBase + i / 8)).toNat.testBit (i % 8) = true ∨
        (∀ x ∈ k.claims, x.idx = i → x.spellUsed = true ∨ x.cancelled = true ∨ x.preemptAt = none)) → exec (.reissueTimeout pod ctr i) s = .next s))

/-! ## The reduction switch, the update units, the tier manager, the fences and the page ring -/

/-- GRADIENT_CHUNK_ARRIVAL, UPDATE_PASS_COMPLETE, STAGE_BLOCK_ARRIVAL, WRITEBACK_ARRIVAL, MULTICAST_ARRIVAL and PAGE_ARRIVAL (R197, R244 to R246,
R250, R258 to R260, R264). -/
def Obligations.CobAndPageRingDeliver : Prop :=
  ∀ (s : State) (flips : List Nat), s.dev.pow.dead = false → cpFlip flips = false →
    (∀ (h : Nat) (r : StepRun) (pl : Plan), s.dev.cobRun = some (h, r) → pl = s.dev.plan h →
      (∀ pod j t sy c es codes w, j = Tab.get 0 s.dev.cob.sent pod → chunkAt pl pl.sendOrder j = some (t, sy, c) → es = chunkElems sy c →
        (32 ≤ j - s.dev.cob.reducedN → exec (.gradientChunkArrival pod flips) s = .next s) ∧
        (∀ t2 sy2 c2, pod ≤ 3 → r.halting = false → s.dev.gradFormed h r pod sy = true → j - s.dev.cob.reducedN < 32 →
          chunkAt pl pl.sendOrder s.dev.cob.reducedN = some (t2, sy2, c2) → s.dev.parkRoom pl (chunkElems sy2 c2).length = true →
          (s.dev.cobWork flips).sendCodes sy (sy.at_ pod) (es.headD 0) (es.headD 0 + es.length) = (codes, w) → w.bad = false →
          ((∃ q, q ≤ 3 ∧ q ≠ pod ∧ Tab.get 0 s.dev.cob.sent q ≤ s.dev.cob.reducedN) →
            ∃ u : State, exec (.gradientChunkArrival pod flips) s = .next u ∧ u.pending = s.pending ∧
              u.dev.cob = { s.dev.cob with sent := Tab.set 0 s.dev.cob.sent pod (j + 1), buf := Tab.upd [] s.dev.cob.buf pod (· ++ [codes]) } ∧
              u.dev.mem = s.dev.mem ∧ u.dev.plans = s.dev.plans ∧ u.dev.pods = s.dev.pods ∧ u.dev.cores = s.dev.cores ∧ u.dev.host = s.dev.host) ∧
          (∀ buf : Tab (List (List Nat)), buf = Tab.upd [] s.dev.cob.buf pod (· ++ [codes]) → s.dev.cob.reducedN ≤ j →
            (∀ q, q ≤ 3 → q ≠ pod → s.dev.cob.reducedN < Tab.get 0 s.dev.cob.sent q) →
            ∃ u : State, exec (.gradientChunkArrival pod flips) s = .next u ∧ u.pending = s.pending ∧
              u.dev.cob.reducedN = s.dev.cob.reducedN + 1 ∧ Tab.get 0 u.dev.cob.sent pod = j + 1 ∧
              (∀ q, q ≤ 3 → Tab.get [] u.dev.cob.buf q = (Tab.get [] buf q).tail) ∧
              ((∃ x ∈ reduce4 ((Tab.get [] buf 0).headD []) ((Tab.get [] buf 1).headD []) ((Tab.get [] buf 2).headD []) ((Tab.get [] buf 3).headD []),
                  (fp32 x).isFinite = false) → ∃ r', (u.dev.plan h).cur = some r' ∧ r'.gradNF = true)))) ∧
      (∀ n i k w, n ≤ 3 → Tab.get none s.dev.cob.units n = some (i, k) → w = s.dev.passWork pl r i k flips → s.dev.badBlks pl w = [] →
        ∃ u : State, exec (.updatePassComplete n flips) s = .next u ∧ u.pending = s.pending ∧
          u.dev.cob.passed = s.dev.cob.passed ++ [(i, k)] ∧
          u.dev.cob.slots = (if k = 2 then s.dev.cob.slots.filter (fun x => x.blk != i) else s.dev.cob.slots) ∧
          (k = 4 → i < s.dev.cob.blks.length → u.dev.cob.blk i = { s.dev.cob.blk i with used := true, writing := (s.dev.cob.blk i).home != 0 }) ∧
          (∀ a, (∀ b ∈ s.dev.cob.blks, a < b.cur ∨ b.cur + 64 ≤ a) → rdByte u.dev.mem a = rdByte w.mem a)) ∧
      (∀ pod y, pod ≤ 3 → y ∈ pl.layersUp → r.noUpdate = false →
        ((s.dev.cob.layer y).done = true → (s.dev.cob.layer y).skip = false → (s.dev.cob.layer y).stuck = false →
          (s.dev.cob.layer y).fenced.testBit pod = false → digestStep (rsDigest (pl.run.getD 0)) r.step = false →
          exec (.multicastArrival pod y flips) s = .next { s with
            dev := ({ s.dev with
              cob := s.dev.cob.updLayer y (fun l => { l with fenced := l.fenced ||| 2 ^ pod })
              pods := Tab.upd {} s.dev.pods pod (fun x => { x with fence := Tab.set 0 x.fence y (r.step + 1) }) } : Dev).trace 0x0B 4 pod y 3 r.step }) ∧
        (((s.dev.cob.layer y).done = false ∨ (s.dev.cob.layer y).fenced.testBit pod = true) →
          exec (.multicastArrival pod y flips) s = .next s))) ∧
    (∀ h i a bs w, s.dev.cob.plan = some h → s.dev.cobRun = none → s.dev.nextStage = some i → i < s.dev.cob.blks.length →
      placeIn 64 ((s.dev.plan h).area 1) s.dev.cob.staged (s.dev.cob.blk i).size = some a →
      s.dev.backed (s.dev.cob.blk i).addr (s.dev.cob.blk i).size = true → 64 ≤ (s.dev.cob.blk i).size →
      (s.dev.cobWork flips).read (s.dev.cob.blk i).addr (s.dev.cob.blk i).size = (bs, w) → w.bad = false →
      ∃ u : State, exec (.stageBlockArrival flips) s = .next u ∧ u.pending = s.pending ∧ u.dev.cob.blk i = { s.dev.cob.blk i with stage := some a } ∧
        (flips = [] → ∀ x, 64 ≤ x → x < (s.dev.cob.blk i).size → rdByte u.dev.mem (a + x) = rdByte s.dev.mem ((s.dev.cob.blk i).addr + x)) ∧
        (flips = [] → ∀ x, (x < a ∨ a + (s.dev.cob.blk i).size ≤ x) → rdByte u.dev.mem x = rdByte s.dev.mem x)) ∧
    (∀ i a b, b = s.dev.cob.blk i → i < s.dev.cob.blks.length → b.stage = some a →
      (b.writing = false → exec (.writebackArrival i flips) s = .next s) ∧
      (b.writing = true → s.dev.backed b.addr b.size = true → firstBad s.dev.poison a b.size = none → 64 ≤ b.size →
        ∃ u : State, exec (.writebackArrival i []) s = .next u ∧ u.pending = s.pending ∧
          u.dev.cob.blk i = { b with writing := false, stage := if hdPinned (header s.dev.mem a) = true then some a else none } ∧
          header u.dev.mem b.addr = mkHeader (header s.dev.mem a) (bit (header s.dev.mem a) 194) (hdPinned (header s.dev.mem a)) % 2 ^ 512 ∧
          (∀ x, 64 ≤ x → x < b.size → rdByte u.dev.mem (b.addr + x) = rdByte s.dev.mem (a + x)) ∧
          (∀ x, (x < b.addr ∨ b.addr + b.size ≤ x) → rdByte u.dev.mem x = rdByte s.dev.mem x))) ∧
    (∀ src p e, (s.dev.pod src).nextPage = some p → p.hops = 0 → p.dst ≠ src → anyBad s.dev.poison p.srcAddr p.bytes = false →
      (s.dev.pod p.dst).privEntries p.key p.table p.lpage = [e] → (e + 8 ≤ p.dstAddr ∨ p.dstAddr + p.bytes ≤ e) →
      ∃ u : State, exec (.pageArrival src []) s = .next u ∧ u.pending = s.pending ∧
        (u.dev.pod src).xfers = (s.dev.pod src).xfers.erase p ∧ (u.dev.pod p.dst).xfers = (s.dev.pod p.dst).xfers ∧
        rdBytes u.dev.mem p.dstAddr p.bytes = rdBytes s.dev.mem p.srcAddr p.bytes ∧
        rdNat u.dev.mem e 8 = mkEntry p.dstAddr 2 p.lpage % 2 ^ 64 ∧
        (∀ x, (x < p.dstAddr ∨ p.dstAddr + p.bytes ≤ x) → (x < e ∨ e + 8 ≤ x) → rdByte u.dev.mem x = rdByte s.dev.mem x))

/-! ## Ingest -/

/-- INGEST_CONFIG, INGEST_RING, INGEST_DOORBELL, INGEST_RING_CLOSE, TABLE_LOAD, TABLE_LOAD_DONE and INGEST_REPORT (R299 to R302, R311 to R313, R324, R462
to R464). -/
def Obligations.IngestCommandsTakeEffect : Prop :=
  ∀ (s : State) (q : Nat) (f : PacketForm) (p : Packet),
    (∀ profile dests, s.Admits (.ingestConfig q profile dests) f p → profileOk profile = true → s.dev.headersOk profile = true →
      (∀ x i, dests[i]? = some x → s.dev.destOk profile i x = true) →
      ((s.dev.trainingPlan = none ∧ (∀ e ∈ s.dev.cad.streams, e.2.opened = false) ∧ (∀ e ∈ s.dev.ing.rings, e.2.on = false) ∧ s.dev.spillOk profile = true) →
        Res.Becomes s { s.dev with ing := { s.dev.ing with profile := some profile, dests := dests } } (exec (.ingestConfig q profile dests) s)) ∧
      ((s.dev.trainingPlan ≠ none ∨ (∃ e ∈ s.dev.cad.streams, e.2.opened = true) ∨ (∃ e ∈ s.dev.ing.rings, e.2.on = true) ∨ s.dev.spillOk profile = false) →
        Res.Becomes s s.dev (exec (.ingestConfig q profile dests) s))) ∧
    (∀ ring kind log2 ea ca ba ha, s.Admits (.ingestRing q ring kind log2 ea ca ba ha) f p → 6 ≤ log2 → log2 ≤ 20 →
      s.dev.backed (ea % 2 ^ 48) (64 * 2 ^ log2) = true → s.dev.unwritable (ca % 2 ^ 48) (64 + 32 * 2 ^ log2) = none →
      (kind = 0 → s.dev.unwritable (ba % 2 ^ 48) (64 + 128 * 64) = none ∧ s.dev.unwritable (ha % 2 ^ 48) (64 + 32 * 2 ^ log2) = none) →
      (s.dev.host.own (0x28 + ring) = q / 8 + 1 → Res.Becomes s s.dev (exec (.ingestRing q ring kind log2 ea ca ba ha) s)) ∧
      (∀ r d, s.dev.host.own (0x28 + ring) = 0 → (kind = 0 → s.dev.ing.shaperRing = none) →
        r = { on := true, port := q / 8, live := kind != 0, log2 := log2, entry := ea % 2 ^ 48, comp := ca % 2 ^ 48, batch := ba % 2 ^ 48, hand := ha % 2 ^ 48 } →
        d = { s.dev with
          host := s.dev.host.setOwner (0x28 + ring) (q / 8 + 1)
          ing := { s.dev.ing with
            rings := Tab.set {} s.dev.ing.rings ring r
            epoch := if kind = 0 then s.dev.ing.epoch + 12 * 2 ^ 32 else s.dev.ing.epoch } } →
        Res.Becomes s (if kind = 0 then ((d.storeNat (ca % 2 ^ 48) 8 0).storeNat (ba % 2 ^ 48) 4 0).storeNat (ha % 2 ^ 48) 4 0
          else d.storeNat (ca % 2 ^ 48) 8 0) (exec (.ingestRing q ring kind log2 ea ca ba ha) s))) ∧
    (∀ ring tail, s.Admits (.ingestDoorbell q ring tail) f p →
      (s.dev.host.own (0x28 + ring) = q / 8 + 1 → Res.Becomes s { s.dev with ing := { s.dev.ing with
        rings := Tab.upd {} s.dev.ing.rings ring (fun r => { r with tail := tail, bells := r.bells ++ [(tail, s.dev.plat.now)] }) } } (exec (.ingestDoorbell q ring tail) s)) ∧
      (s.dev.host.own (0x28 + ring) ≠ q / 8 + 1 → Res.Becomes s s.dev (exec (.ingestDoorbell q ring tail) s))) ∧
    (∀ ring, s.Admits (.ingestRingClose q ring) f p → s.dev.host.own (0x28 + ring) = q / 8 + 1 → (s.dev.ing.ring ring).closing = 0 →
      (s.dev.ing.ring ring).live = true → s.dev.host.nextCmd ≠ 0 →
      ((∀ j ∈ s.dev.ing.jobs, j.ring ≠ ring) → Res.Becomes s { s.dev with
        host := s.dev.host.setOwner (0x28 + ring) 0
        ing := { s.dev.ing with rings := Tab.set {} s.dev.ing.rings ring {} } } (exec (.ingestRingClose q ring) s)) ∧
      ((∃ j ∈ s.dev.ing.jobs, j.ring = ring) → (∀ j ∈ s.dev.ing.jobs, j.ring = ring → j.engine ≠ none ∧ s.dev.jobStream j = none ∧
          ∀ k ∈ s.dev.ing.jobs, k.id = j.id → k.ring = ring) →
        Res.Becomes s { s.dev with ing := { s.dev.ing with
          rings := Tab.upd {} s.dev.ing.rings ring (fun r => { r with closing := s.dev.host.nextCmd })
          jobs := s.dev.ing.jobs.map (fun j => if j.ring = ring then { j with withdrawn := true } else j) } } (exec (.ingestRingClose q ring) s))) ∧
    (∀ kind src len, s.Admits (.tableLoad q kind src len) f p → s.dev.unbacked (src % 2 ^ 48) len = none → 64 ≤ len → len ≤ tableRoom (kind != 0) →
      (s.dev.ing.freeTable (kind != 0) = none → Res.Becomes s s.dev (exec (.tableLoad q kind src len) s)) ∧
      (∀ slot, slot < 4 → (∀ x ∈ s.dev.ing.gens, x.media = (kind != 0) → x.slot ≠ slot) →
        (∀ k, k < slot → ∃ x ∈ s.dev.ing.gens, x.media = (kind != 0) ∧ x.slot = k) →
        Res.Becomes s { s.dev with ing := { s.dev.ing with
          gens := s.dev.ing.gens ++ [{ media := kind != 0, num := if kind = 0 then s.dev.ing.nextTok else s.dev.ing.nextMed, slot := slot, loading := s.dev.host.nextCmd, src := src % 2 ^ 48, len := len }]
          nextTok := if kind = 0 then s.dev.ing.nextTok + 1 else s.dev.ing.nextTok
          nextMed := if kind = 0 then s.dev.ing.nextMed else s.dev.ing.nextMed + 1 } } (exec (.tableLoad q kind src len) s))) ∧
    (∀ kind num x b, s.dev.pow.dead = false → s.dev.ing.gen (kind != 0) num = some x → x.loading ≠ 0 → b = rdBytes s.dev.mem x.src x.len →
      firstBad s.dev.poison x.src x.len = none →
      ((if kind = 0 then tokOk b else mediaOk b) = true → Res.Becomes s ((s.dev.store (tableSlot (kind != 0) x.slot) b).updIng (fun g =>
        Ing.retire { g with gens := g.gens.map (fun y => if y.media = (kind != 0) then
          (if y.num = num then { y with newest := true, loading := 0 } else { y with newest := false }) else y) })) (exec (.tableLoadDone kind num) s)) ∧
      ((if kind = 0 then tokOk b else mediaOk b) = false → (∀ j ∈ s.dev.ing.jobs, j.media = (kind != 0) → j.gen ≠ num) →
        Res.Becomes s { s.dev with ing := { s.dev.ing with gens := s.dev.ing.gens.filter (fun y => y.media != (kind != 0) || y.num != num) } }
          (exec (.tableLoadDone kind num) s))) ∧
    (∀ dest, s.Admits (.ingestReport q dest) f p → s.dev.unwritable (dest % 2 ^ 48) 256 = none →
      Res.Becomes s ((s.dev.storeNat (dest % 2 ^ 48) 256 s.dev.ingestReport).updIng (fun g => { g with
        winStart := s.dev.plat.now, winBeat := s.dev.cad.beat, busy := [], done := 0, padded := 0, lateN := 0, decSum := 0, decN := 0, decMax := 0, decMaxIdx := 0 }))
        (exec (.ingestReport q dest) s))


/-- HULLER_JOB_TAKE, HULLER_JOB_START, HULLER_LIVE_PREEMPT and HULLER_JOB_COMPLETE (R277 to R280, R301). -/
def Obligations.HullerJobsRunAndEnd : Prop :=
  ∀ s : State, s.dev.pow.dead = false →
    (∀ n r x media, r = s.dev.ing.ring n → x = s.dev.ringEntry r r.head → media = (codecRegion (jCodec x) != some 0) → r.on = true → r.live = true → r.closing = 0 →
      0 < r.waiting → firstBad s.dev.poison (r.at_ r.head) 64 = none → codecRegion (jCodec x) ≠ none →
      (∀ g, (if jGen x = 0xFFFFFFFF then s.dev.ing.newest media = some g else s.dev.ing.gen media (jGen x) = some g) → s.dev.ing.gen media g.num ≠ none →
        ∃ (t : State) (j : Job), exec (.hullerJobTake n) s = .next t ∧ t.pending = s.pending ∧ t.dev.ing.jobs = s.dev.ing.jobs ++ [j] ∧
          j.id = s.dev.ing.nextJob ∧ j.ring = n ∧ j.record = x ∧ j.gen = g.num ∧ j.sample = none ∧ j.engine = none ∧ j.takenAt = s.dev.plat.now ∧ j.arrived = r.rungAt r.head s.dev.plat.now ∧
          (t.dev.ing.ring n).head = (r.head + 1) % 2 ^ 32 ∧ t.dev.cad = s.dev.cad) ∧
      (jGen x ≠ 0xFFFFFFFF → s.dev.ing.gen media (jGen x) = none → (jLive x = false) →
        ∃ t : State, exec (.hullerJobTake n) s = .next t ∧ t.pending = s.pending ∧ (t.dev.ing.ring n).head = (r.head + 1) % 2 ^ 32 ∧
          (t.dev.ing.ring n).compIdx = (r.compIdx + 1) % 2 ^ 32 ∧
          rdNat t.dev.mem (r.comp + 64 + 32 * (r.compIdx % 2 ^ r.log2)) 32 =
            packBits [(32, jTag x), (8, 4), (8, 0), (16, 0), (32, jGen x), (48, jIndex x), (16, 0), (32, 0), (64, s.dev.plat.now)] % 2 ^ 256)) ∧
    (∀ b, b < 15 → s.dev.blockFree b = true → s.dev.lowerFree b = false → s.dev.pow.runs (66 + b) = true →
      (∀ j, s.dev.blockJob b = some j → ∃ t : State, exec (.hullerJobStart b) s = .next t ∧ t.pending = s.pending ∧ t.dev.mem = s.dev.mem ∧
        t.dev.ing.jobs = s.dev.ing.jobs.map (fun k => if k.id = j.id then { k with
          engine := some b, started := s.dev.plat.now, paused := false, lastEngine := b, spill := s.dev.imageSpill j
          moved := decide (b < 8) && (match (Tab.get {} s.dev.ing.ctxs (jCtx j.record)).engine with | some e => e != b | none => false) } else k)) ∧
      (s.dev.blockJob b = none → exec (.hullerJobStart b) s = .next s)) ∧
    (∀ b j, j ∈ s.dev.ing.jobs → j.engine = some b → (∀ x ∈ s.dev.ing.jobs, x.engine = some b → x = j) → s.dev.pow.runs (66 + b) = true →
      (∀ k, s.dev.waitsFor b j = some k → k.id ≠ j.id → ∃ t : State, exec (.hullerLivePreempt b) s = .next t ∧ t.pending = s.pending ∧
        ∀ y ∈ t.dev.ing.jobs, (y.id = k.id → y.engine = some b ∧ y.started = s.dev.plat.now) ∧
          (y.id = j.id → y.engine = none ∧ y.paused = true ∨ ∃ x ∈ s.dev.ing.jobs, x.id = j.id ∧ x ≠ j)) ∧
      (s.dev.waitsFor b j = none → exec (.hullerLivePreempt b) s = .next s)) ∧
    (∀ b j flips ctxBad r src w e, j ∈ s.dev.ing.jobs → j.engine = some b →
      (∀ x ∈ s.dev.ing.jobs, (x.engine = some b ∨ (x.withdrawn = true ∧ x.engine = none ∧ x.lastEngine = b)) → x = j) →
      j.sample = none → s.dev.jobStream j = none → r = s.dev.ing.ring j.ring →
      (j.withdrawn = true → ∃ t : State, exec (.hullerJobComplete b flips ctxBad) s = .next t ∧ t.pending = s.pending ∧
        t.dev.ing.jobs = (s.dev.ing.jobs.filter (fun k => k.id != j.id)).map (fun k => { k with ahead := k.ahead.filter (· != j.id) }) ∧
        (r.closing = 0 → rdNat t.dev.mem (r.comp + 64 + 32 * (r.compIdx % 2 ^ r.log2)) 32 =
          packBits [(32, jTag j.record), (8, 6), (8, j.lastEngine), (16, 0), (32, j.gen), (48, jIndex j.record), (16, 0), (32, 0), (64, s.dev.plat.now)] % 2 ^ 256)) ∧
      (j.withdrawn = false → s.dev.pow.runs (66 + b) = true → j.started + (if j.moved = true then 20000 else 0) ≤ s.dev.plat.now →
        s.dev.waitsFor b j = none → r.closing = 0 → s.dev.jobReads j flips ctxBad = (src, w) →
        (w.bad = true → ∃ t : State, exec (.hullerJobComplete b flips ctxBad) s = .next t ∧ t.pending = s.pending ∧
          rdNat t.dev.mem (r.comp + 64 + 32 * (r.compIdx % 2 ^ r.log2)) 32 = packBits [(32, jTag j.record), (8, 7), (8, j.lastEngine), (16, 0),
            (32, j.gen), (48, jIndex j.record), (16, 0), (32, 0), (64, s.dev.plat.now)] % 2 ^ 256) ∧
        (w.bad = false → e = (if j.region = 0 then s.dev.textEnd j src else s.dev.mediaEnd j src) →
          ∃ t : State, exec (.hullerJobComplete b flips ctxBad) s = .next t ∧ t.pending = s.pending ∧
            t.dev.ing.jobs = (s.dev.ing.jobs.filter (fun k => k.id != j.id)).map (fun k => { k with ahead := k.ahead.filter (· != j.id) }) ∧
            rdNat t.dev.mem (r.comp + 64 + 32 * (r.compIdx % 2 ^ r.log2)) 32 = packBits [(32, jTag j.record), (8, e.res), (8, j.lastEngine), (16, e.conc),
              (32, j.gen), (48, jIndex j.record), (16, 0), (32, e.units), (64, s.dev.plat.now)] % 2 ^ 256 ∧
            (jMemory j.record = true → s.dev.unbacked (jDest j.record) e.mem.length = none →
              (jDest j.record + e.mem.length ≤ r.comp ∨ r.comp + 64 + 32 * 2 ^ r.log2 ≤ jDest j.record) →
              rdBytes t.dev.mem (jDest j.record) e.mem.length = e.mem))))

/-- SAMPLE_TAKE, SHAPER_PICTURE, SAMPLE_BUDGET_EXPIRY, BATCH_DEADLINE, BATCH_READY and LIVE_INPUT_READY (R303 to R330). -/
def Obligations.SamplesFillTheirBatches : Prop :=
  ∀ s : State, s.dev.pow.dead = false → s.dev.pow.runs 81 = true →
    (∀ n r x, r = s.dev.ing.ring n → x = s.dev.ringEntry r r.head → s.dev.canTake n = true →
      (r.prepLeft = 0 → (∀ y ∈ s.dev.ing.samples, y.ord ≠ r.ordinal) →
        (firstBad s.dev.poison (r.at_ r.head) 64 = none → smPadOnly x = false → smOk x = true → (∀ b ∈ s.dev.ing.batches, b.late = false) →
          ∃ (t : State) (y : Sample), exec (.sampleTake n) s = .next t ∧ t.pending = s.pending ∧ t.dev.ing.samples = s.dev.ing.samples ++ [y] ∧
            y.ord = r.ordinal ∧ y.index = smIndex x ∧ y.toTake = smJobs x ∧ y.prepsToTake = smPreps x ∧ y.filled = false ∧
            (t.dev.ing.ring n).ordinal = r.ordinal + 1 ∧ (t.dev.ing.ring n).head = (r.head + 1) % 2 ^ 32 ∧
            (t.dev.ing.ring n).jobsLeft = smJobs x ∧ (t.dev.ing.ring n).prepLeft = smPreps x ∧
            (t.dev.ing.batch (s.dev.ing.epoch + r.ordinal / 16)).isSome = true) ∧
        ((firstBad s.dev.poison (r.at_ r.head) 64 ≠ none ∨ smPadOnly x = true ∨ smOk x = false) →
          ∃ (t : State) (y : Sample), exec (.sampleTake n) s = .next t ∧ t.pending = s.pending ∧ t.dev.ing.sample r.ordinal = some y ∧ y.filled = true ∧
            (y.status, y.pad) = (if firstBad s.dev.poison (r.at_ r.head) 64 ≠ none then (8, 2) else if smPadOnly x = true then (7, smMark x) else (4, 2)) ∧
            (t.dev.ing.ring n).ordinal = r.ordinal + 1)) ∧
      (∀ sm, r.prepLeft ≠ 0 → s.dev.ing.sample (r.ordinal - 1) = some sm → sm.filled = false →
        firstBad s.dev.poison (r.at_ r.head) 64 = none → firstBad s.dev.poison (peSrc x) (peLen x) = none →
        (∀ l bs, s.dev.addPrep sm.segs x = some l → s.dev.prepObjects x = some bs →
          ∃ (t : State) (y : Sample), exec (.sampleTake n) s = .next t ∧ t.pending = s.pending ∧ t.dev.ing.sample (r.ordinal - 1) = some y ∧
            y.segs = l ∧ y.prepsToTake = sm.prepsToTake - 1 ∧ t.dev.ing.media.map (·.data) = s.dev.ing.media.map (·.data) ++ bs ∧
            (t.dev.ing.ring n).prepLeft = r.prepLeft - 1 ∧ (t.dev.ing.ring n).head = (r.head + 1) % 2 ^ 32) ∧
        (s.dev.addPrep sm.segs x = none → ∃ (t : State) (y : Sample), exec (.sampleTake n) s = .next t ∧ t.pending = s.pending ∧
          t.dev.ing.sample (r.ordinal - 1) = some y ∧ y.filled = true ∧ y.status = 4 ∧ y.pad = 2))) ∧
    (∀ sm x seed planes room, (∀ m ∈ s.dev.ing.media, m.sample ≠ none) → s.dev.ing.nextSeg = some (sm, x) → s.dev.ing.sample sm.ord = some sm →
      s.dev.runSeed = some seed → room = capOf s.dev.ing.prof x.region - validOf (sm.segs.filter (fun y => y.num < x.num)) x.region →
      shapeSeg s.dev.ing.prof (profAug s.dev.ing.prof (bits s.dev.ing.prof 576 4) seed) sm.index room x (s.dev.ing.objects sm.ord x.num) = (planes, none) →
      ((planes.headD []).length ≤ room → ∃ (t : State) (y : Sample), exec .shaperPicture s = .next t ∧ t.pending = s.pending ∧
        t.dev.ing.sample sm.ord = some y ∧ y.segs = sm.segs.map (fun z => if z.num = x.num then { z with
          start := validOf (sm.segs.filter (fun y => y.num < x.num)) x.region, len := (planes.headD []).length, shaped := true } else z)) ∧
      (room < (planes.headD []).length → ∃ (t : State) (y : Sample), exec .shaperPicture s = .next t ∧ t.pending = s.pending ∧
        t.dev.ing.sample sm.ord = some y ∧ y.filled = true ∧ y.status = 3 ∧ y.pad = 2)) ∧
    (∀ o sm, s.dev.ing.sample o = some sm → sm.filled = false → sm.overDone = false →
      (s.dev.overBudget sm = false → exec (.sampleBudgetExpiry o) s = .next s) ∧
      (s.dev.overBudget sm = true → pfPolicy s.dev.ing.prof = 0 → ∃ (t : State) (y : Sample), exec (.sampleBudgetExpiry o) s = .next t ∧ t.pending = s.pending ∧
        t.dev.ing.sample o = some y ∧ y.overDone = true ∧ y.filled = false ∧ ctrVal t.dev.ctr cobInst 0x41 = (ctrVal s.dev.ctr cobInst 0x41 + 1) % 2 ^ 64) ∧
      (s.dev.overBudget sm = true → pfPolicy s.dev.ing.prof ≠ 0 → ∃ (t : State) (y : Sample), exec (.sampleBudgetExpiry o) s = .next t ∧ t.pending = s.pending ∧
        t.dev.ing.sample o = some y ∧ y.filled = true ∧ y.pad = 3 ∧ y.status = if pfPolicy s.dev.ing.prof = 2 then 6 else 5)) ∧
    (∀ n k b beat phase, k = s.dev.ing.epoch + n → s.dev.ing.batch k = some b → b.deadline = some (beat, phase) → b.ready = false → b.late = false →
      (s.dev.cad.reached beat phase s.dev.plat.now = false → exec (.batchDeadline n) s = .next s) ∧
      (s.dev.cad.reached beat phase s.dev.plat.now = true → ((s.dev.ing.samplesOf k).length ≠ 16 ∨ ∃ y ∈ s.dev.ing.samplesOf k, y.filled = false ∧ s.dev.onTime y beat phase = false) →
        ∃ t : State, exec (.batchDeadline n) s = .next t ∧ t.pending = s.pending ∧ (∃ c, t.dev.ing.batch k = some c ∧ c.late = true) ∧
          (pfPolicy s.dev.ing.prof = 0 → ctrVal t.dev.ctr cobInst 0x42 = (ctrVal s.dev.ctr cobInst 0x42 + 1) % 2 ^ 64 ∧
            t.dev.ing.samples.map (·.filled) = s.dev.ing.samples.map (·.filled)) ∧
          (pfPolicy s.dev.ing.prof ≠ 0 → ∀ y ∈ t.dev.ing.samples, s.dev.ing.epoch + y.ord / 16 = k → y.filled = true ∨
            ∃ z ∈ s.dev.ing.samples, z.ord = y.ord ∧ s.dev.onTime z beat phase = true))) ∧
    (∀ n k b m r ss, k = s.dev.ing.epoch + n → ss = s.dev.ing.samplesOf k → s.dev.ing.batch k = some b → b.ready = false → s.dev.ing.shaperRing = some (m, r) →
      ss.length = 16 →
      ((∃ y ∈ ss, y.filled = false) → exec (.batchReady n) s = .next s) ∧
      ((∀ y ∈ ss, y.filled = true) → ∃ t : State, exec (.batchReady n) s = .next t ∧ t.pending = s.pending ∧
        (∃ c, t.dev.ing.batch k = some c ∧ c.ready = true ∧ c.readyAt = s.dev.plat.now) ∧
        t.dev.ing.samples = s.dev.ing.samples.filter (fun y => s.dev.ing.epoch + y.ord / 16 != k) ∧
        rdNat t.dev.mem (r.batch + 64 + 128 * (r.batchIdx % 64)) 128 = packBits ([(32, k), (16, b.padded), (16, 0)] ++ ss.map (fun y => (4, y.status)) ++
          [(64, s.dev.plat.now), (64, 0)] ++ ss.map (fun y => (48, y.index))) % 2 ^ 1024 ∧
        rdNat t.dev.mem r.batch 4 = (r.batchIdx + 1) % 2 ^ 32 ∧
        (∀ a, (a < r.batch ∨ r.batch + 64 + 128 * 64 ≤ a) → rdByte t.dev.mem a = rdByte s.dev.mem a))) ∧
    (∀ n m rec_, s.dev.ing.media.find? (fun m => m.sample.isNone && m.stream == n) = some m → rec_ = (s.dev.cad.stream n).record →
      (∀ g list, picMapped m.mats (pfPix s.dev.ing.prof).map m.data = true → (s.dev.cad.stream n).listFor m.frame = some (g, list) →
        ∃ (t : State) (bs : List Byte), exec (.liveInputReady n) s = .next t ∧ t.pending = s.pending ∧
          bs = liveInput s.dev.ing.prof rec_ m.frame list g (g + 1 != m.frame) m ∧
          rdBytes t.dev.mem (srInput rec_ + m.frame % 2 * srStride rec_) bs.length = bs ∧
          (t.dev.cad.stream n).inputs = (s.dev.cad.stream n).inputs ++ [{ frame := m.frame, ready := s.dev.plat.now, arrival := m.arrival, allow := m.bound + shapeTime rec_, stale := g + 1 != m.frame }] ∧
          t.dev.ing.media = s.dev.ing.media.filter (fun x => !(x.sample.isNone && x.job == m.job))) ∧
      ((s.dev.cad.stream n).listFor m.frame = none → firstBad s.dev.poison (srRois rec_) 256 = none → picMapped m.mats (pfPix s.dev.ing.prof).map m.data = true →
        ∃ t : State, exec (.liveInputReady n) s = .next t ∧ t.pending = s.pending ∧ ∃ i, (t.dev.cad.stream n).inputs =
          (s.dev.cad.stream n).inputs ++ [i] ∧ i.frame = m.frame ∧ i.stale = true) ∧
      (((s.dev.cad.stream n).listFor m.frame ≠ none ∨ firstBad s.dev.poison (srRois rec_) 256 = none) →
        picMapped m.mats (pfPix s.dev.ing.prof).map m.data = false → ∃ t : State, exec (.liveInputReady n) s = .next t ∧ t.pending = s.pending ∧
        t.dev.mem = s.dev.mem ∧ (t.dev.cad.stream n).badInputs = (s.dev.cad.stream n).badInputs ++ [(m.frame, stAborted)] ∧
        (t.dev.cad.stream n).inputs = (s.dev.cad.stream n).inputs))

/-! ## The video encoder -/

/-- ENC_OPEN, ENC_SUBMIT, ENC_CONFIG, ENC_CLOSE, ENC_PICTURE_START, ENC_ROW_CODED, ENC_SLICE_WRITE, ENC_RING_WAIT_LIMIT and ENC_PICTURE_DONE (R334 to
R344). -/
def Obligations.EncoderSessionsAndPictures : Prop :=
  ∀ (s : State) (q : Nat) (f : PacketForm) (p : Packet), s.dev.pow.on 82 = true → s.dev.host.nextCmd ≠ 0 →
    (∀ config, s.Admits (.encOpen q config) f p →
      ((s.dev.encOk config = false ∨ ∀ n, n < 4 → s.dev.host.own (0x20 + n) ≠ 0) → Res.Becomes s s.dev (exec (.encOpen q config) s)) ∧
      (∀ n, s.dev.encOk config = true → n < 4 → s.dev.host.own (0x20 + n) = 0 → (∀ m, m < n → s.dev.host.own (0x20 + m) ≠ 0) →
        Res.Becomes s { s.dev with
          enc := { s.dev.enc with
            sess := Tab.set {} s.dev.enc.sess n { opened := true, order := s.dev.enc.nextOrder, cfg := config, qpCarry := ecQpInit config }
            nextOrder := s.dev.enc.nextOrder + 1 }
          host := s.dev.host.setOwner (0x20 + n) (q / 8 + 1) } (exec (.encOpen q config) s))) ∧
    (∀ (n : Nat) (x : EncSess), x = s.dev.enc.sess_ n → x.opened = true → s.dev.host.own (0x20 + n) = q / 8 + 1 →
      (∀ force pic pts, s.Admits (.encSubmit q n force pic pts) f p → s.dev.pictureOk x.cfg (pic % 2 ^ 48) = true →
        (4 ≤ x.queue.length → Res.Becomes s s.dev (exec (.encSubmit q n force pic pts) s)) ∧
        (x.queue.length < 4 → x.closeCmd = 0 → Res.Becomes s { s.dev with enc := { s.dev.enc with
          sess := Tab.upd {} s.dev.enc.sess n (fun y => { y with
            queue := y.queue ++ [{
              cmd := s.dev.host.nextCmd
              idr := force == 1
              addr := pic % 2 ^ 48
              pic := rdBytes s.dev.mem (pic % 2 ^ 48) (encBytes x.cfg)
              pts := pts
              seq := s.dev.enc.nextOrder }] })
          nextOrder := s.dev.enc.nextOrder + 1 } } (exec (.encSubmit q n force pic pts) s))) ∧
      (∀ config, s.Admits (.encConfig q n config) f p →
        (s.dev.encOk config = true → ecFixed config = ecFixed x.cfg → Res.Becomes s { s.dev with enc := { s.dev.enc with
          sess := Tab.upd {} s.dev.enc.sess n (fun y => { y with pend := some config }) } } (exec (.encConfig q n config) s)) ∧
        ((s.dev.encOk config = false ∨ ecFixed config ≠ ecFixed x.cfg) → Res.Becomes s s.dev (exec (.encConfig q n config) s))) ∧
      (s.Admits (.encClose q n) f p → x.closeCmd = 0 →
        ((∀ c, s.dev.enc.cur ≠ some (n, c)) → Res.Becomes s { s.dev with
          enc := { s.dev.enc with sess := Tab.set {} s.dev.enc.sess n {} }
          host := s.dev.host.setOwner (0x20 + n) 0
          pow := s.dev.pow.idle 82 s.dev.plat.now } (exec (.encClose q n) s)) ∧
        (∀ c, s.dev.enc.cur = some (n, c) → c.waitAt = none → Res.Becomes s { s.dev with enc := { s.dev.enc with
          sess := Tab.upd {} s.dev.enc.sess n (fun y => { y with queue := [], closeCmd := s.dev.host.nextCmd }) } } (exec (.encClose q n) s)))) ∧
    (s.dev.pow.dead = false →
      (∀ n e rest x cfg, s.dev.enc.cur = none → s.dev.pow.runs 82 = true → s.dev.enc.next = some n → x = s.dev.enc.sess_ n → x.queue = e :: rest →
        cfg = x.pend.getD x.cfg → firstBad s.dev.poison e.addr (encBytes cfg) = none →
        ∃ (t : State) (y : EncCur), exec .encPictureStart s = .next t ∧ t.pending = s.pending ∧ t.dev.enc.cur = some (n, y) ∧ t.dev.mem = s.dev.mem ∧
          y.sub = e ∧ y.idr = (e.idr || x.needIdr) ∧ y.row = 0 ∧ y.written = 0 ∧ y.bytes = 0 ∧ y.bad = false ∧
          y.qps = [] ∧ (y.idr = true → y.intra = (0, ecCols cfg) ∧ y.params = true) ∧
          (t.dev.enc.sess_ n).queue = rest ∧ (t.dev.enc.sess_ n).cfg = cfg ∧ (t.dev.enc.sess_ n).pend = none ∧ (t.dev.enc.sess_ n).needIdr = false ∧
          (∀ m, m ≠ n → t.dev.enc.sess_ m = s.dev.enc.sess_ m)) ∧
      (s.dev.enc.cur ≠ none → exec .encPictureStart s = .next s)) ∧
    (∀ (n : Nat) (x : EncCur) (e : EncSess) (c : Nat), s.dev.enc.cur = some (n, x) → e = s.dev.enc.sess_ n → c = e.cfg →
      (s.dev.pow.runs 82 = true → x.row < ecRows c → x.sliceDue c = false → ecQpMin c ≤ ecQpMax c →
        x.changed = 0 → rdBytes s.dev.mem x.sub.addr (encBytes c) = x.sub.pic → ∃ (t : State) (k : Nat) (row : List Bool),
          exec .encRowCoded s = .next t ∧ t.pending = s.pending ∧ t.dev.enc.sess = s.dev.enc.sess ∧ t.dev.mem = s.dev.mem ∧
          row = Config.encRow c 0 (ecSamples c x.sub.pic) (e.refOf x) x.idr x.intra (x.qps ++ [k]) ∧
          t.dev.enc.cur = some (n, { x with row := x.row + 1, qps := x.qps ++ [k], acc := x.acc + row.length, data := x.data ++ row }) ∧
          (x.row = 0 → k = min (max (e.qpCarry + if ecVbv c / 2 < e.fill then 2 else 0) (ecQpMin c)) (ecQpMax c)) ∧
          (0 < x.row → ecTarget c (x.row - 1) + ecBudget c / (2 * max (ecRows c) 1) < x.acc →
            k = min (max (x.qps.getLastD 0 + 1) (ecQpMin c)) (ecQpMax c)) ∧
          (0 < x.row → x.acc + ecBudget c / (2 * max (ecRows c) 1) < ecTarget c (x.row - 1) →
            k = min (max (x.qps.getLastD 0 - 1) (ecQpMin c)) (ecQpMax c))) ∧
      (x.sliceDue c = true → exec .encRowCoded s = .next s) ∧
      (∀ slice, x.sliceDue c = true → slice = x.slice c →
        (s.dev.recordFits c e.woff (roundUp (32 + slice.length) 64) = false → exec .encSliceWrite s = .next { s with dev := { s.dev with
          enc := { s.dev.enc with cur := some (n, { x with waitAt := some (x.waitAt.getD s.dev.plat.now) }) } } }) ∧
        (s.dev.recordFits c e.woff (roundUp (32 + slice.length) 64) = true → e.woff + roundUp (32 + slice.length) 64 < ecRoom c → ∃ t : State,
          exec .encSliceWrite s = .next t ∧ t.pending = s.pending ∧
          rdBytes t.dev.mem (ecRing c + 64 + e.woff) (32 + slice.length) = leBytes 32 (packBits [(32, slice.length), (16, x.written),
            (1, if x.row = ecRows c then 1 else 0), (1, if x.idr = true then 1 else 0), (14, 0), (64, x.sub.pts), (64, s.dev.plat.now)]) ++ slice ∧
          rdNat t.dev.mem (ecRing c) 8 = (e.woff + roundUp (32 + slice.length) 64) % 2 ^ 64 ∧
          (t.dev.enc.sess_ n).woff = e.woff + roundUp (32 + slice.length) 64 ∧
          t.dev.enc.cur = some (n, { x with
            written := x.row, data := [], bytes := x.bytes + roundUp (32 + slice.length) 64, slices := x.slices + 1, waitAt := none }) ∧
          (∀ a, (a < ecRing c + 64 + e.woff ∨ ecRing c + 64 + e.woff + roundUp (32 + slice.length) 64 ≤ a) → (a < ecRing c ∨ ecRing c + 8 ≤ a) →
            rdByte t.dev.mem a = rdByte s.dev.mem a))) ∧
      (e.opened = true → e.closeCmd = 0 → e.portLost = false →
        (∀ w, x.waitAt = some w → w + 1000 * ecWait c ≤ s.dev.plat.now → Res.Becomes s { s.dev with
          ctr := bump s.dev.ctr cobInst 0x4B 1
          enc := { s.dev.enc with
            cur := none
            sess := Tab.upd {} s.dev.enc.sess n (fun y => { y with needIdr := true }) } } (exec .encRingWaitLimit s)) ∧
        (x.waitAt = none → exec .encRingWaitLimit s = .next s) ∧
        (x.written = ecRows c → Res.Becomes s { s.dev with enc := { s.dev.enc with
          cur := none
          sess := Tab.upd {} s.dev.enc.sess n (fun y => { y with fill := y.fill + 8 * x.bytes - ecBudget c, qpCarry := x.qps.getLastD y.qpCarry, ref := y.decoded x }) } } (exec .encPictureDone s)) ∧
        (x.written ≠ ecRows c → exec .encPictureDone s = .next s)))

/-! ## Power commands -/

/-- DOMAIN_ON, DOMAIN_OFF, DOMAIN_AUTO, SET_ENERGY_BUDGET, AGEING_REPORT and AGEING_READING (R385 to R388, R392, R406 to R410). -/
def Obligations.PowerCommandsAct : Prop :=
  ∀ (s : State) (q : Nat) (f : PacketForm) (p : Packet) (n : Nat), s.dev.host.nextCmd = n → n ≠ 0 →
    (∀ (id : Nat) (x y : Dom), s.Admits (.domainOn q id) f p → id ≤ 84 → s.dev.plat.retiredDom id = false → x = s.dev.pow.dom id →
      y = { x with hold := if isAuto id then 1 else 0 } → x.pendOn = false →
      (x.pendOff = false →
        (x.st = 2 → Res.SetsDom s s.dev.ctr id y (exec (.domainOn q id) s)) ∧
        (x.st = 1 → Res.SetsDom s s.dev.ctr id { y with onCmds := x.onCmds ++ [n] } (exec (.domainOn q id) s)) ∧
        (2 < x.st → Res.SetsDom s (bump s.dev.ctr cobInst 0x60 1) id { y with pendOn := true, pendCmds := x.pendCmds ++ [n] }
          (exec (.domainOn q id) s)) ∧
        (x.st = 0 → x.dwell = false → (∀ k, parentOf id = some k → s.dev.pow.on k = true) → (57 ≤ id → id ≤ 60 → s.dev.pow.brakeActed = false) →
          Res.SetsDom s s.dev.ctr id { y with st := 1, wantUp := false, since := s.dev.plat.now, onCmds := x.onCmds ++ [n] }
            (exec (.domainOn q id) s))) ∧
      (x.pendOff = true → x.st = 1 → Res.SetsDom s (bump s.dev.ctr cobInst 0x61 1) id
        { y with pendOff := false, pendCmds := [], onCmds := x.onCmds ++ [n] } (exec (.domainOn q id) s))) ∧
    (∀ (id : Nat) (x y : Dom), s.Admits (.domainOff q id) f p → id ≤ 84 → s.dev.plat.retiredDom id = false → id ≠ 64 + q / 8 →
      (s.dev.offRefusal id ≠ none → Res.Becomes s s.dev (exec (.domainOff q id) s)) ∧
      (s.dev.offRefusal id = none → x = s.dev.pow.dom id → y = { x with hold := if isAuto id then 2 else 0 } → x.pendOff = false →
        (x.pendOn = false →
          (x.st = 2 → Res.SetsDom s s.dev.ctr id { y with st := 3, since := s.dev.plat.now, offCmds := x.offCmds ++ [n] }
            (exec (.domainOff q id) s)) ∧
          (x.st = 0 → x.wantUp = false → Res.SetsDom s s.dev.ctr id y (exec (.domainOff q id) s)) ∧
          ((x.st = 1 ∨ (x.st = 0 ∧ x.wantUp = true)) → Res.SetsDom s (bump s.dev.ctr cobInst 0x60 1) id
            { y with pendOff := true, pendCmds := x.pendCmds ++ [n] } (exec (.domainOff q id) s)) ∧
          (2 < x.st → Res.SetsDom s s.dev.ctr id { y with offCmds := x.offCmds ++ [n] } (exec (.domainOff q id) s))) ∧
        (x.pendOn = true → 2 < x.st → Res.SetsDom s (bump s.dev.ctr cobInst 0x61 1) id
          { y with pendOn := false, pendCmds := [], offCmds := x.offCmds ++ [n] } (exec (.domainOff q id) s)))) ∧
    (∀ (id : Nat) (x : Dom), s.Admits (.domainAuto q id) f p → isAuto id = true → id ≤ 84 → s.dev.plat.retiredDom id = false → x = s.dev.pow.dom id →
      ((s.dev.domBusy id = false ∨ x.st = 1 ∨ x.st = 2) → Res.SetsDom s s.dev.ctr id { x with hold := 0 } (exec (.domainAuto q id) s)) ∧
      (s.dev.domBusy id = true → x.st = 0 → x.wantUp = false → x.pendOn = false → x.pendOff = false → x.dwell = false →
        (∀ k, parentOf id = some k → s.dev.pow.on k = true) → s.dev.pow.brakeActed = false →
        Res.SetsDom s s.dev.ctr id { x with hold := 0, st := 1, since := s.dev.plat.now } (exec (.domainAuto q id) s))) ∧
    (∀ record, s.Admits (.setEnergyBudget q record) f p →
      (budgetBad record = false → (bits record 0 32 = 0 ∨ (Q.ofInt ((bits record 0 32 : Int) * 10 ^ 5)).lt s.dev.reserves = false) →
        Res.Becomes s { s.dev with pow := { s.dev.pow with budgetPend := some record } } (exec (.setEnergyBudget q record) s)) ∧
      ((budgetBad record = true ∨ (0 < bits record 0 32 ∧ (Q.ofInt ((bits record 0 32 : Int) * 10 ^ 5)).lt s.dev.reserves = true)) →
        Res.Becomes s s.dev (exec (.setEnergyBudget q record) s))) ∧
    (∀ dest, s.Admits (.ageingReport q dest) f p → s.dev.unwritable (dest % 2 ^ 48) 1440 = none →
      Res.Becomes s (s.dev.store (dest % 2 ^ 48) s.dev.ageReport) (exec (.ageingReport q dest) s) ∧ s.dev.ageReport.length = 1440 ∧
      leNat (s.dev.ageReport.take 8) = s.dev.plat.now % 2 ^ 64 ∧
      (∀ k, k < 86 → leNat ((s.dev.ageReport.drop (64 + 16 * k)).take 2) = (s.dev.pow.dom k).ai % 2 ^ 16)) ∧
    (∀ (id st re : Nat) (x : Dom), x = s.dev.pow.dom id → id ≤ 85 → (id = 85 ∨ s.dev.pow.on id = true) → 0 < st → 0 < re →
      (s.dev.ageDue id = false → exec (.ageingReading id st re) s = .next s) ∧
      (s.dev.ageDue id = true → ∃ (w : Pow) (y : Dom), exec (.ageingReading id st re) s = .next { s with dev := { s.dev with pow := w } } ∧
        s.dev.pow.Sets w id y ∧ y.readings = ((s.dev.plat.now, y.ai) :: x.readings).take 8 ∧ y.lastBeat = s.dev.cad.beat ∧
        y.gbNew = min 255 (15 + ceilDiv (y.ai * 600) 65536) ∧ y.gb = x.gb ∧ y.st = x.st ∧ y.temp = x.temp ∧ y.hold = x.hold ∧
        (x.rho0 = none → y.rho0 = some (st, re) ∧ y.ai = 0 ∧ y.nReads = 0) ∧
        (∀ s0 r0, x.rho0 = some (s0, r0) → 0 < s0 → 0 < r0 → y.rho0 = x.rho0 ∧ y.nReads = min 65535 (x.nReads + 1) ∧
          (s0 * re ≤ st * r0 → y.ai = 0) ∧
          (∀ k, k * (s0 * re) ≤ (s0 * re - st * r0) * 65536 → (s0 * re - st * r0) * 65536 < (k + 1) * (s0 * re) → k ≤ 65535 → y.ai = k))))

/-! ## Domain events -/

/-- DOMAIN_DRAINED, WIPE_DONE, POWER_DOWN_DONE, OFF_DWELL_END, DOMAIN_POWERED_UP and IDLE_OFF_EXPIRY (R381 to R388). -/
def Obligations.DomainsGoThroughTheirStates : Prop :=
  ∀ (s : State) (id : Nat) (x : Dom) (now : Nat), x = s.dev.pow.dom id → now = s.dev.plat.now → id ≤ 84 →
    (x.st ≠ 3 → exec (.domainDrained id) s = .next s) ∧ (x.st ≠ 4 → exec (.wipeDone id) s = .next s) ∧
    (x.st ≠ 5 → exec (.powerDownDone id) s = .next s) ∧ (x.st ≠ 0 → exec (.offDwellEnd id) s = .next s) ∧
    (x.st ≠ 1 → exec (.domainPoweredUp id) s = .next s) ∧ (x.st ≠ 2 → exec (.idleOffExpiry id) s = .next s) ∧
    (x.st = 3 → s.dev.drained id = true → ∃ t : State, exec (.domainDrained id) s = .next t ∧ t.pending = s.pending ∧
      s.dev.pow.Sets t.dev.pow id { x with st := 4, since := now } ∧ t.dev.mem = s.dev.mem ∧
      ((id < 57 ∨ (60 < id ∧ id < 64) ∨ 80 < id) → t.dev = ({ s.dev with pow := t.dev.pow } : Dev).traceDoms s.dev.pow) ∧
      (57 ≤ id → id ≤ 60 → t.dev.cob.blks = s.dev.cob.blks ∧ t.dev.cob.order = s.dev.cob.order ∧ t.dev.cob.units = s.dev.cob.units) ∧
      (66 ≤ id → id ≤ 80 → t.dev = ({ s.dev with pow := t.dev.pow, ing := t.dev.ing } : Dev).traceDoms s.dev.pow ∧ ∀ j ∈ t.dev.ing.jobs, j.engine ≠ some (id - 66)) ∧
      (id = 64 ∨ id = 65 → t.dev = ({ s.dev with pow := t.dev.pow, host := t.dev.host } : Dev).traceDoms s.dev.pow ∧ (t.dev.host.port (id - 64)).up = false)) ∧
    (x.st = 4 → (x.stopped = true ∨ now < x.since + wipeTime s.dev.plat s.dev.pow id) → exec (.wipeDone id) s = .next s) ∧
    (x.st = 4 → x.stopped = false → x.since + wipeTime s.dev.plat s.dev.pow id ≤ now → ∃ t : State, exec (.wipeDone id) s = .next t ∧ t.pending = s.pending ∧
      s.dev.pow.Sets t.dev.pow id { x with st := 5, since := now } ∧ t.dev.plat = s.dev.plat ∧ t.dev.plans = s.dev.plans ∧
      (∀ lo hi, ((isCluster id = true ∧ lo = coreStore (48 * (id / 14) + 4 * (id % 14)) ∧ hi = lo + 0x1000000) ∨
          (id < 56 ∧ id % 14 = 12 ∧ lo = podStore (id / 14) ∧ hi = lo + 0x10000000) ∨
          (id < 56 ∧ id % 14 = 13 ∧ lo = podGddr (id / 14) ∧ hi = lo + 0x1000000000) ∨
          (id = 61 ∧ lo = sramBase ∧ hi = lo + 0x8000000) ∨ (id = 62 ∧ lo = sramBase + 0x8000000 ∧ hi = lo + 0x8000000) ∨
          (id = 63 ∧ lo = cobGddr ∧ hi = lo + 0x1000000000)) →
        (∀ a, lo ≤ a → a < hi → rdByte t.dev.mem a = 0) ∧
        (isCluster id = false → ∀ a, (a < lo ∨ hi ≤ a) → rdByte t.dev.mem a = rdByte s.dev.mem a)) ∧
      (id = 82 → t.dev.enc.cur = none ∧ ∀ n, (t.dev.enc.sess_ n).ref = [] ∧ (t.dev.enc.sess_ n).opened = (s.dev.enc.sess_ n).opened)) ∧
    (x.st = 5 → x.since + 10000 ≤ now → (x.pendOn = false ∨ ∀ k, parentOf id = some k → s.dev.pow.on k = true) →
      Res.SetsDom s s.dev.ctr id { x with
        st := 0
        dwell := true
        since := now
        offCmds := []
        freq := 0
        pendOn := false
        pendCmds := []
        wantUp := x.pendOn
        onCmds := if x.pendOn then x.pendCmds else [] } (exec (.powerDownDone id) s)) ∧
    (∀ k, x.st = 5 → x.since + 10000 ≤ now → x.pendOn = true → parentOf id = some k → s.dev.pow.on k = false →
      ∃ t : State, exec (.powerDownDone id) s = .next t ∧ t.pending = s.pending ∧ (t.dev.pow.dom id).st = 0 ∧ (t.dev.pow.dom id).wantUp = true ∧
        ((t.dev.pow.dom k).wantUp = true ∨ (t.dev.pow.dom k).st = 1 ∨ (t.dev.pow.dom k).pendOn = true)) ∧
    (x.st = 0 → x.dwell = true → x.since + 10000 ≤ now →
      (x.wantUp = false → ∃ w, s.dev.pow.Sets w id { x with dwell := false } ∧
        exec (.offDwellEnd id) s = .next { s with dev := ({ s.dev with pow := w } : Dev).traceDoms s.dev.pow }) ∧
      (x.wantUp = true → (∀ k, parentOf id = some k → s.dev.pow.on k = true) → (57 ≤ id → id ≤ 60 → s.dev.pow.brakeActed = false) →
        ∃ w, s.dev.pow.Sets w id { x with dwell := false, st := 1, wantUp := false, since := now } ∧
          exec (.offDwellEnd id) s = .next { s with dev := ({ s.dev with pow := w } : Dev).traceDoms s.dev.pow })) ∧
    (x.st = 1 → x.since + upTime id ≤ now → ∃ (t : State) (y : Dom), exec (.domainPoweredUp id) s = .next t ∧ t.pending = s.pending ∧
      t.dev.pow.dom id = y ∧ y.st = (if x.pendOff then 3 else 2) ∧ y.since = now ∧ y.idleAt = now ∧ y.onCmds = [] ∧ y.pendOff = false ∧
      y.pendCmds = [] ∧ y.offCmds = (if x.pendOff then x.pendCmds else []) ∧
      (isCluster id = true → ∀ n, n = 48 * (id / 14) + 4 * (id % 14) → (∀ m, n ≤ m → m < n + 4 → t.dev.core m = {}) ∧
        (∀ m, (m < n ∨ n + 4 ≤ m) → t.dev.core m = s.dev.core m) ∧
        (∀ a, coreStore n ≤ a → a < coreStore (n + 4) → (∀ q, ¬ (s.dev.host.queue q).replyByte q a) → rdByte t.dev.mem a = 0))) ∧
    (x.st = 2 → s.dev.plat.phase = .ready → isAuto id = true → x.hold ≠ 1 → bits s.dev.pow.budget 64 24 ≠ 0 → s.dev.domBusy id = false →
      x.idleAt + 1000 * bits s.dev.pow.budget 64 24 ≤ now → x.pendOn = false → x.pendOff = false →
      ∃ w, s.dev.pow.Sets w id { x with st := 3, since := now } ∧ exec (.idleOffExpiry id) s = .next { s with
        dev := ({ s.dev with pow := w } : Dev).traceDoms s.dev.pow })

/-! ## Rails, brake, heat, budget and telemetry -/

/-- RAIL_VOLTAGE_REACHED, AVS_VOLTAGE_TIMEOUT, AVSBUS_RETRY, FAST_LIMIT, FAST_LIMIT_STOP, FAST_LIMIT_RESTORE, POWER_BRAKE_ASSERT, POWER_BRAKE_RELEASE,
SENSOR_READING, RAIL_SAMPLE, BUDGET_CHECKPOINT and TELEMETRY_SNAPSHOT (R391 to R405, R546, R549). -/
def Obligations.RailsBrakeAndHeatAct : Prop :=
  ∀ (s : State) (d : Dev) (w : Pow) (now : Nat), d = s.dev → w = d.pow → now = d.plat.now →
    (∀ g r, g < 5 → r = w.rail g →
      (r.waitV = true → ∃ t : State, exec (.railVoltageReached g) s = .next t ∧ t.pending = s.pending ∧
        Dev.Reclocked { d with pow := w.updRail g (fun r => { r with volt := r.target, waitV := false }) } t.dev) ∧
      (r.waitV = false → exec (.railVoltageReached g) s = .next s) ∧
      (r.waitV = true → r.cmdAt + 1000000 ≤ now → ∃ t : State, exec (.avsVoltageTimeout g) s = .next t ∧ t.pending = s.pending ∧
        Dev.Reclocked { d with pow := w.updRail g (fun r => { r with failed := true, waitV := false, answers := false, failAt := now }) } t.dev ∧
        ∀ id, isCluster id = true → id / 14 = g → (w.dom id).st = 2 → (t.dev.pow.dom id).freq ≤ 400) ∧
      (r.failed = true → r.failAt + 10000000 ≤ now → ∀ ok, exec (.avsbusRetry g ok) s = .next { s with dev := { d with
        pow := w.updRail g (fun r => { r with answers := ok, failAt := now }) } }) ∧
      (r.fastAt = none → ∃ t : State, exec (.fastLimit g) s = .next t ∧ t.pending = s.pending ∧
        t.dev.ctr = bump d.ctr cobInst 0x63 1 ∧ (t.dev.pow.rail g).fastAt = some now ∧ t.dev.mem = d.mem ∧
        ∀ id, isCluster id = true → id / 14 = g → (w.dom id).st = 2 → w.floorRun = false → d.cad.liveClock (12 * (id / 14) + id % 14) = none →
          (t.dev.pow.dom id).freq ≤ opFreq w.op / 2) ∧
      (∀ a, r.fastAt = some a →
        (a + 10000 ≤ now → ∃ t : State, exec (.fastLimitStop g) s = .next t ∧ t.pending = s.pending ∧ t.dev.ctr = d.ctr ∧
          ∀ id, isCluster id = true → id / 14 = g → (w.dom id).st = 2 → d.cad.liveClock (12 * (id / 14) + id % 14) = none →
            (t.dev.pow.dom id).freq = 0) ∧
        (a + 100000 ≤ now → ∃ t : State, exec (.fastLimitRestore g) s = .next t ∧ t.pending = s.pending ∧ t.dev.ctr = d.ctr ∧
          (t.dev.pow.rail g).fastAt = none ∧ ∀ id, isCluster id = true → id / 14 = g →
            (t.dev.pow.dom id).fastHalf = false ∧ (t.dev.pow.dom id).fastStop = false) ∧
        (now < a + 10000 → exec (.fastLimitStop g) s = .next s ∧ exec (.fastLimitRestore g) s = .next s))) ∧
    (d.plat.brakeN = true → (∀ u, 57 ≤ u → u ≤ 60 → w.on u = false ∧ (w.dom u).st ≠ 1 ∧ (w.dom u).wantUp = false) →
      ∃ t : State, exec .powerBrakeAssert s = .next t ∧ t.pending = s.pending ∧
        Dev.Reclocked { d with
          plat := { d.plat with brakeN := false }
          pow := { w with brakeActed := true, brakeUnits := [] }
          ctr := bump d.ctr cobInst 0x66 1 } t.dev ∧
        ∀ id, isCluster id = true → (w.dom id).st = 2 → (t.dev.pow.dom id).freq ≤ bits w.budget 88 11) ∧
    (d.plat.brakeN = false → w.brakeUnits = [] → (∀ u, 57 ≤ u → u ≤ 60 → (w.dom u).wantUp = false) → ∃ t : State, exec .powerBrakeRelease s = .next t ∧ t.pending = s.pending ∧
      Dev.Reclocked { d with plat := d.plat.brakeOff, pow := { w with brakeActed := false, brakeReplan := true } } t.dev ∧ t.dev.plat.brakeN = true) ∧
    (∀ u, d.plat.brakeN = false → 57 ≤ u → u ≤ 60 → w.brakeUnits = [u] → (w.dom u).st = 0 → (w.dom u).pendOn = false → (w.dom u).pendOff = false →
      (w.dom u).dwell = false → w.on 56 = true → ∃ t : State, exec .powerBrakeRelease s = .next t ∧ t.pending = s.pending ∧
        (t.dev.pow.dom u).st = 1 ∧ t.dev.plat.brakeN = true ∧ t.dev.pow.brakeActed = false) ∧
    (∀ temps : List Int, temps.length = 86 → ∃ t : State, exec (.sensorReading temps) s = .next t ∧ t.pending = s.pending ∧ t.dev.mem = d.mem ∧
      (∀ id x, temps[id]? = some x →
        (t.dev.pow.dom id).temp = x ∧ (t.dev.pow.dom id).ceiling = thermCeiling x ∧ (x ≤ 1520 → (t.dev.pow.dom id).ceiling = 1250) ∧
        (1680 < x → (w.dom id).st ≠ 0 → (id < 57 ∨ 60 < id) → (t.dev.pow.dom id).stopped = true ∧ ((w.dom id).st = 2 → (t.dev.pow.dom id).freq = 0)) ∧
        (x ≤ 1664 → (t.dev.pow.dom id).stopped = false) ∧
        (1760 ≤ x → t.dev.pow.trip = true ∧ (w.trip = false → t.dev.plat.faultCode = 2 ∧ t.dev.plat.faultTime = now ∧ t.dev.plat.smbAlertLow = true)) ∧
        (16 * (d.plat.alertTemp : Int) ≤ x → t.dev.plat.thermAlertLow = true))) ∧
    (∀ (rs : List (Nat × Nat)) (fixed : Nat), rs.length = 9 → (∀ e, w.samples.head? = some e → e.1 + 100000 ≤ now) →
      (∀ i, i < 5 → (w.rail i).failed = false) → ∃ t : State, exec (.railSample rs fixed) s = .next t ∧ t.pending = s.pending ∧
        t.dev = { d with pow := t.dev.pow } ∧ t.dev.pow.doms = w.doms ∧ t.dev.pow.energyTotal = w.energyTotal + (rs.map (fun e => e.1 * e.2)).sum ∧
        (∀ i e, i < 6 → rs[i]? = some e → (t.dev.pow.rail i).mV = e.1 ∧ (t.dev.pow.rail i).cur = e.2 ∧
          (t.dev.pow.rail i).curMax = max (w.rail i).curMax e.2 ∧ (i < 5 → (t.dev.pow.rail i).acc = (w.rail i).acc + e.1 * e.2))) ∧
    (∀ (rs : List (Nat × Nat)) (fixed : Nat) e, w.samples.head? = some e → now < e.1 + 100000 → exec (.railSample rs fixed) s = .next s) ∧
    (d.plat.phase = .ready → w.lastCheck / 1000000 < now / 1000000 → ∃ t : State, exec .budgetCheckpoint s = .next t ∧ t.pending = s.pending ∧
      t.dev.pow.lastCheck = now ∧ t.dev.pow.brakeReplan = false ∧ t.dev.mem = d.mem ∧
      (w.brakeReplan = false → t.dev.pow.op = w.op ∨ t.dev.pow.op + 1 = w.op ∨ (t.dev.pow.op = 0 ∧ t.dev.pow.floorRun = true))) ∧
    (now / 1000000 ≤ w.lastCheck / 1000000 → exec .budgetCheckpoint s = .next s) ∧
    (w.lastSnap / 1000000 < now / 1000000 → ∃ t : State, exec .telemetrySnapshot s = .next t ∧ t.pending = s.pending ∧
      t.dev = { d with pow := t.dev.pow } ∧ t.dev.pow.lastSnap = now ∧ t.dev.pow.doms = w.doms ∧
      Tab.get 0 t.dev.pow.mirror 0 = (Tab.get 0 w.mirror 0 + 2) % 2 ^ 64 ∧ Tab.get 0 t.dev.pow.mirror 8 = now ∧
      (∀ id, id < 85 → bits (Tab.get 0 t.dev.pow.mirror (0x100 + 16 * id)) 0 3 = (w.dom id).st % 8) ∧
      (∀ g, (t.dev.pow.rail g).acc = 0 ∧ (t.dev.pow.rail g).curMax = 0)) ∧
    (now / 1000000 ≤ w.lastSnap / 1000000 → exec .telemetrySnapshot s = .next s)

/-! ## Cadence -/

/-- CADENCE_CONFIG, BEAT_START, CADENCE_IN_EDGE, REF_WINDOW_END, CADENCE_OUT_PULSE, PULSE_WIDTH_END, PTP_SYNC_RECORD and PTP_SYNC_TIMEOUT (R345 to
R359, R414). The stamp of an edge, the count of P_EST and the estimate of PTP are the model's readings (log entry 24). -/
def Obligations.CadenceRuns : Prop :=
  ∀ (s : State) (d : Dev) (c : Cad) (now : Nat), d = s.dev → c = d.cad → now = d.plat.now →
    (∀ (q : Nat) (f : PacketForm) (p : Packet) (cad lock sched : Nat), s.Admits (.cadenceConfig q cad lock sched) f p →
      (cadOk cad = true → lockOk cad lock = true → d.schedOk cad sched = true → Res.Becomes s { d with cad := { c with
        pend := some (cad, lock % 2 ^ 56, sched % 2 ^ 53) } } (exec (.cadenceConfig q cad lock sched) s)) ∧
      ((cadOk cad = false ∨ lockOk cad lock = false ∨ d.schedOk cad sched = false) → Res.Becomes s d (exec (.cadenceConfig q cad lock sched) s))) ∧
    (∀ b st, b = c.beat + 1 →
      (((c.mode = 0 ∨ c.mode = 1) ∧ st = c.anchorStart + (b - c.anchorBeat) * cfgNum c.cfg / max (cfgDen c.cfg) 1) ∨
        (c.mode = 2 ∧ c.source = 1 ∧ (c.stepPend = true ∨ c.expects b = true) ∧ c.edgeTaken = some st) ∨
        (c.mode = 2 ∧ c.source = 1 ∧ c.stepPend = false ∧ c.expects b = false ∧ st = c.start + c.pEst / 65536) ∨
        (c.mode = 2 ∧ c.source = 2 ∧ c.stepPend = false ∧ st = max (c.ptpStart b) (c.start + 1)) ∨
        (c.mode = 3 ∧ st = c.anchorStart + (b - c.anchorBeat) * c.pEst / 65536)) →
      (now < st → exec .beatStart s = .next s) ∧
      (st ≤ now → ∃ (t : State) (k : Cad), exec .beatStart s = .next t ∧ t.pending = s.pending ∧ t.dev.cad = k ∧ t.dev.mem = d.mem ∧
        k.beat = b ∧ k.start = st ∧ k.hist = (c.beat, c.start, c.pBeat) :: c.hist ∧ k.pend = none ∧
        (∀ x y z, c.pend = some (x, y, z) → k.cfg = x ∧ k.lock = y ∧ k.sched = z) ∧
        (c.pend = none → k.cfg = c.cfg ∧ k.lock = c.lock ∧ k.sched = c.sched) ∧
        t.dev.pow.budget = d.pow.budgetPend.getD d.pow.budget ∧ t.dev.pow.budgetPend = none ∧
        (∀ id, (t.dev.pow.dom id).gb = (d.pow.dom id).gbNew) ∧
        (∀ g, (d.pow.rail g).failed = true → (t.dev.pow.rail g).failed = !(d.pow.rail g).answers))) ∧
    (∀ high, high < 100 → exec (.cadenceInEdge high) s = .next s) ∧
    (∀ high t, 100 ≤ high → t = now - c.inDelay →
      (c.source ≠ 1 → exec (.cadenceInEdge high) s = .next { s with dev := { d with cad := { c with refSeen := some t, lastRef := some t } } }) ∧
      (c.source = 1 → c.mode = 2 → c.stepPend = false → c.expects (c.beat + 1) = true → c.edgeTaken = none →
        c.start + c.pEst / 65536 ≤ t + c.window → t ≤ c.start + c.pEst / 65536 + c.window → ∃ v : State, exec (.cadenceInEdge high) s = .next v ∧
          v.pending = s.pending ∧ v.dev = { d with cad := v.dev.cad } ∧ v.dev.cad.edgeTaken = some t ∧ v.dev.cad.lastRef = some t ∧
          v.dev.cad.missed = 0 ∧ v.dev.cad.mode = 2 ∧ v.dev.cad.refError = (t : Int) - (c.start + c.pEst / 65536 : Nat)) ∧
      (c.source = 1 → c.mode = 2 → c.stepPend = false → c.expects (c.beat + 1) = false → c.usedWindow t = false →
        exec (.cadenceInEdge high) s = .next { s with dev := { d with cad := { c with refSeen := some t }, ctr := bump d.ctr cobInst 0x51 1 } }) ∧
      (∀ r, c.source = 1 → c.mode = 1 → c.agree = 3 → c.lastRef = some r →
        (t - r) * cfgDen c.cfg ≤ (cfgPulse c.cfg) * cfgNum c.cfg + c.window * cfgDen c.cfg →
        (cfgPulse c.cfg) * cfgNum c.cfg ≤ (t - r) * cfgDen c.cfg + c.window * cfgDen c.cfg → ∃ v : State, exec (.cadenceInEdge high) s = .next v ∧
          v.pending = s.pending ∧ v.dev = { d with cad := v.dev.cad, ctr := bump d.ctr cobInst 0x52 1 } ∧ v.dev.cad.mode = 2 ∧
          v.dev.cad.stepPend = true ∧ v.dev.cad.lockedBeats = 0 ∧ v.dev.cad.lastRef = some t ∧ v.dev.cad.beat = c.beat)) ∧
    (c.source = 1 → c.mode = 2 → c.stepPend = false → c.edgeTaken = none → c.expects (c.beat + 1) = true →
      (now < c.start + c.pEst / 65536 + c.window + c.inDelay → exec .refWindowEnd s = .next s) ∧
      (c.start + c.pEst / 65536 + c.window + c.inDelay ≤ now → exec .refWindowEnd s = .next { s with dev := { d with
        cad := { c with edgeTaken := some (c.start + c.pEst / 65536 + c.window), missed := c.missed + 1 }
        ctr := bump d.ctr cobInst 0x50 1 } })) ∧
    (∀ b, c.outMode = 1 → c.outBeat = none → b = c.beat → (now < c.instant c.outPhase → exec .cadenceOutPulse s = .next s) ∧
      (c.instant c.outPhase ≤ now → exec .cadenceOutPulse s = .next { s with dev := { d with cad := { c with
        outHigh := true
        outEnd := some (now + c.outWidth)
        outBeat := some b } } })) ∧
    (c.outMode ≠ 1 → exec .cadenceOutPulse s = .next s) ∧
    (∀ e, c.outEnd = some e → e ≤ now → exec (.pulseWidthEnd 16) s = .next { s with dev := { d with cad := { c with outHigh := false, outEnd := none } } }) ∧
    (∀ n e, n < 16 → (d.host.pin n).pulse = some e →
      (now < e → exec (.pulseWidthEnd n) s = .next s) ∧
      (e ≤ now → ∃ h : HostIf, exec (.pulseWidthEnd n) s = .next { s with dev := { d with host := h } } ∧
        h.pin n = { d.host.pin n with value := false, pulse := none } ∧ (∀ m, m ≠ n → h.pin m = d.host.pin m) ∧
        { h with gpio := [] } = { d.host with gpio := [] })) ∧
    (∀ port time, (c.source ≠ 2 ∨ port ≠ cfgPort c.cfg) → exec (.ptpSyncRecord port time) s = .next s) ∧
    (∀ port time, c.source = 2 → port = cfgPort c.cfg → ∃ t : State, exec (.ptpSyncRecord port time) s = .next t ∧ t.pending = s.pending ∧
      t.dev.cad.ptpOff = some (Config.ptpEstimate d.plat.freeCount ((time : Int) - now)) ∧ t.dev.cad.lastSync = some now ∧
      t.dev.cad.beat = c.beat ∧ t.dev.cad.start = c.start ∧
      (∀ o, c.mode = 1 → c.agree = 3 → c.ptpOff = some o → ((time : Int) - now) - o ≤ c.window → o - ((time : Int) - now) ≤ c.window →
        t.dev.cad.mode = 2 ∧ t.dev.cad.stepPend = true) ∧
      (c.mode = 1 → c.agree < 3 → t.dev.cad.mode = 1) ∧
      (c.mode = 2 → (c.ptpOff = none ∨ ∃ o, c.ptpOff = some o ∧ ((c.window : Int) < ((time : Int) - now) - o ∨ (c.window : Int) < o - ((time : Int) - now))) →
        t.dev.cad.mode = if cfgMiss c.cfg ≤ c.missed + 1 then 3 else 2)) ∧
    (∀ t, c.source = 2 → c.mode = 2 → c.lastSync = some t →
      (now < t + 1000000000 → exec .ptpSyncTimeout s = .next s) ∧
      (t + 1000000000 ≤ now → exec .ptpSyncTimeout s = .next { s with dev := { d with cad := { c with
        mode := 3
        anchorBeat := c.beat
        anchorStart := c.start
        agree := 0
        missed := 0
        stepPend := false } } }))

/-! ## Event slots and timers -/

/-- EVENT_SET and EVENT_CLEAR (R360, R361, R445). -/
def Obligations.SlotCommandsWriteAndClear : Prop :=
  ∀ (s : State) (d : Dev) (c : Cad) (q : Nat) (f : PacketForm) (p : Packet), d = s.dev → c = d.cad →
    (∀ r n, s.Admits (.eventSet q r) f p → slotRecordOk r = true → (slKind r = 2 → d.host.own (slTarget r) = q / 8 + 1) → n < 256 →
      Tab.get none c.slots n = none → (∀ m, m < n → Tab.get none c.slots m ≠ none) → c.beat < slBeat r →
      ∃ t : State, exec (.eventSet q r) s = .next t ∧ t.pending = s.pending ∧ Dev.Replied { d with cad := { c with
        slots := Tab.set none c.slots n (some { record := setBits r 78 2 (q / 8 + 1), owner := q / 8 + 1, nextBeat := slBeat r }) } } t.dev) ∧
    (∀ r, s.Admits (.eventSet q r) f p →
      (slotRecordOk r = false ∨ (slKind r = 2 ∧ d.host.own (slTarget r) ≠ q / 8 + 1) ∨ ∀ n, n < 256 → Tab.get none c.slots n ≠ none) →
      ∃ t : State, exec (.eventSet q r) s = .next t ∧ t.pending = s.pending ∧ Dev.Replied d t.dev) ∧
    (∀ n x, s.Admits (.eventClear q n) f p → Tab.get none c.slots n = some x → slKind x.record ≠ 0 → x.owner = q / 8 + 1 →
      ∃ t : State, exec (.eventClear q n) s = .next t ∧ t.pending = s.pending ∧
        Dev.Replied { d with cad := { c with slots := Tab.set none c.slots n none } } t.dev) ∧
    (∀ n x, s.Admits (.eventClear q n) f p → Tab.get none c.slots n = some x → slKind x.record = 0 ∨ x.owner ≠ q / 8 + 1 →
      ∃ t : State, exec (.eventClear q n) s = .next t ∧ t.pending = s.pending ∧ Dev.Replied d t.dev) ∧
    (∀ n, s.Admits (.eventClear q n) f p → Tab.get none c.slots n = none →
      ∃ t : State, exec (.eventClear q n) s = .next t ∧ t.pending = s.pending ∧
        Dev.Replied { d with cad := { c with slots := Tab.set none c.slots n none } } t.dev)

/-- TIMER_CLAIM and TIMER_RELEASE (R362, R445). -/
def Obligations.TimersAreClaimedAndReleased : Prop :=
  ∀ (s : State) (d : Dev) (c : Cad) (q n : Nat) (f : PacketForm) (p : Packet), d = s.dev → c = d.cad →
    (∀ per iv r, s.Admits (.timerClaim q n per iv r) f p → d.host.own (0x10 + n) = 0 → 1 ≤ iv → slotRecordOk r = true →
      (slKind r = 2 → d.host.own (slTarget r) = q / 8 + 1) →
      ∃ t : State, exec (.timerClaim q n per iv r) s = .next t ∧ t.pending = s.pending ∧ Dev.Replied { d with
        cad := { c with timers := Tab.set {} c.timers n { on := true, port := q / 8, periodic := per == 1, interval := iv, next := d.plat.now + 1000 * iv, slot := r } }
        host := d.host.setOwner (0x10 + n) (q / 8 + 1) } t.dev) ∧
    (∀ per iv r, s.Admits (.timerClaim q n per iv r) f p → (d.host.own (0x10 + n) ≠ 0 ∨ iv = 0 ∨ slotRecordOk r = false) →
      ∃ t : State, exec (.timerClaim q n per iv r) s = .next t ∧ t.pending = s.pending ∧ Dev.Replied d t.dev) ∧
    (s.Admits (.timerRelease q n) f p → d.host.own (0x10 + n) = q / 8 + 1 →
      ∃ t : State, exec (.timerRelease q n) s = .next t ∧ t.pending = s.pending ∧ Dev.Replied { d with
        cad := { c with timers := Tab.set {} c.timers n {} }
        host := d.host.setOwner (0x10 + n) 0 } t.dev) ∧
    (s.Admits (.timerRelease q n) f p → d.host.own (0x10 + n) ≠ q / 8 + 1 →
      ∃ t : State, exec (.timerRelease q n) s = .next t ∧ t.pending = s.pending ∧ Dev.Replied d t.dev)

/-- EVENT_SLOT_FIRE and SCHEDULER_TIMER_FIRE (R360 to R362, R364). -/
def Obligations.SlotsAndTimersFire : Prop :=
  ∀ (s : State) (d : Dev) (c : Cad) (now : Nat), d = s.dev → c = d.cad → now = d.plat.now → d.pow.dead = false →
    (∀ n, Tab.get none c.slots n = none → exec (.eventSlotFire n) s = .next s) ∧
    (∀ (n : Nat) (x : Slot) (y : Option Slot), Tab.get none c.slots n = some x →
      (d.slotDue n x = false → exec (.eventSlotFire n) s = .next s) ∧
      (d.slotDue n x = true → c.jumped x = 0 → y = (if slPeriod x.record = 0 then none else some { x with nextBeat := x.nextBeat + slPeriod x.record }) →
        (slKind x.record = 1 → c.outMode ≠ 0 → exec (.eventSlotFire n) s = .next { s with dev := { d with cad := { c with
          slots := Tab.set none c.slots n y
          outHigh := true
          outEnd := some (now + c.outWidth) } } }) ∧
        (slKind x.record = 2 → (d.host.pin (slTarget x.record)).mode = 1 → ∃ h : HostIf, exec (.eventSlotFire n) s = .next { s with dev := { d with
            cad := { c with slots := Tab.set none c.slots n y }
            host := h } } ∧
          { h with gpio := [] } = { d.host with gpio := [] } ∧ (∀ m, m ≠ slTarget x.record → h.pin m = d.host.pin m) ∧
          (h.pin (slTarget x.record)).mode = 1 ∧
          (slAction x.record = 0 → (h.pin (slTarget x.record)).value = false) ∧
          (slAction x.record = 1 → (h.pin (slTarget x.record)).value = true) ∧
          (slAction x.record = 2 → (h.pin (slTarget x.record)).value = !(d.host.pin (slTarget x.record)).value) ∧
          (slAction x.record = 3 → (h.pin (slTarget x.record)).value = true ∧
            (h.pin (slTarget x.record)).pulse = some (now + slWidth x.record))) ∧
        (slKind x.record = 3 → Res.Becomes s { d with cad := { c with slots := Tab.set none c.slots n y } } (exec (.eventSlotFire n) s)) ∧
        (slKind x.record = 0 → (c.stream (slTarget x.record)).opened = true → (c.stream (slTarget x.record)).closing = none →
          (c.stream (slTarget x.record)).waiting = none → ∃ (t : State) (u : Task), exec (.eventSlotFire n) s = .next t ∧ t.pending = s.pending ∧
            (t.dev.cad.stream (slTarget x.record)).waiting = some u ∧ u.frame = (x.nextBeat - slBeat x.record) / max (slPeriod x.record) 1 ∧
            u.releasedAt = now ∧ t.dev.cad.slots = Tab.set none c.slots n y ∧ t.dev.mem = d.mem ∧
            (∀ m, m ≠ slTarget x.record → t.dev.cad.stream m = c.stream m)))) ∧
    (∀ (n : Nat) (x y : Timer), x = Tab.get {} c.timers n → y = (if x.periodic then { x with next := x.next + 1000 * x.interval } else { x with on := false }) →
      ((x.on = false ∨ now < x.next) → exec (.schedulerTimerFire n) s = .next s) ∧
      (x.on = true → x.next ≤ now →
        (slKind x.slot = 1 → c.outMode ≠ 0 → exec (.schedulerTimerFire n) s = .next { s with dev := { d with cad := { c with
          timers := Tab.set {} c.timers n y
          outHigh := true
          outEnd := some (now + c.outWidth) } } }) ∧
        (slKind x.slot = 2 → exec (.schedulerTimerFire n) s = .next { s with dev := { d with
          cad := { c with timers := Tab.set {} c.timers n y }
          host := d.host.slotPin x.slot now } }) ∧
        (slKind x.slot = 3 → Res.Becomes s { d with cad := { c with timers := Tab.set {} c.timers n y } } (exec (.schedulerTimerFire n) s))))

/-! ## Live streams -/

/-- STREAM_OPEN, STREAM_CLOSE, LIVE_TASK_START, CONTEXT_SAVE_DONE, QUANTUM_EXPIRY, CONTEXT_RESTORE_DONE, LIVE_TASK_COMPLETE and LIVE_DEADLINE (R364 to
R376, R461). -/
def Obligations.LiveStreamsRun : Prop :=
  ∀ (s : State) (d : Dev) (c : Cad) (now : Nat), d = s.dev → c = d.cad → now = d.plat.now → d.pow.dead = false →
    (∀ (q : Nat) (f : PacketForm) (p : Packet), d.host.nextCmd ≠ 0 →
      (∀ r, s.Admits (.streamOpen q r) f p →
        ((d.streamOk r = false ∨ d.openRefusal (q / 8) r ≠ none) → Res.Becomes s d (exec (.streamOpen q r) s)) ∧
        (∀ n m, d.streamOk r = true → d.openRefusal (q / 8) r = none → c.beat < srBeat0 r →
          n < 16 → (c.stream n).opened = false → (∀ k, k < n → (c.stream k).opened = true) →
          m < 256 → Tab.get none c.slots m = none → (∀ k, k < m → Tab.get none c.slots k ≠ none) → Res.Becomes s (({ d with
            cad := { c with
              streams := Tab.set {} c.streams n { opened := true, port := q / 8, record := r, slot := m, order := c.nextOrder, clusters := d.clusterSet r }
              slots := Tab.set none c.slots m (some { record := releaseSlot r n (q / 8), owner := q / 8 + 1, nextBeat := srBeat0 r })
              nextOrder := c.nextOrder + 1 }
            host := d.host.setOwner (0xA0 + srEngine r) (q / 8 + 1)
            ing := { d.ing with ctxs := Tab.set {} d.ing.ctxs (srContext r) { inUse := true, bytes := contextBytes r, width := srW r, height := srH r } } } : Dev).raiseFloor d.fFloor) (exec (.streamOpen q r) s))) ∧
      (∀ n x, s.Admits (.streamClose q n) f p → x = c.stream n → x.opened = true → x.closing = none → x.waiting = none →
        (x.port ≠ q / 8 → Res.Becomes s d (exec (.streamClose q n) s)) ∧
        (x.port = q / 8 → (∀ y ∈ d.obs.dumps, y.stream ≠ some n) →
          (x.running ≠ none → Res.Becomes s { d with cad := { c with
            streams := Tab.upd {} c.streams n (fun y => { y with closing := some d.host.nextCmd }) } } (exec (.streamClose q n) s)) ∧
          (x.running = none → (∀ k ∈ setCores x.clusters, (d.core k).run ≠ 4) →
            (∀ e ∈ c.streams, e.1 ≠ n → e.2.opened = true → srEngine e.2.record ≠ srEngine x.record) → Res.Becomes s { d with
              cad := { c with streams := Tab.set {} c.streams n {}, slots := Tab.set none c.slots x.slot none }
              ing := { d.ing with
                ctxs := Tab.set {} d.ing.ctxs (srContext x.record) {}
                media := d.ing.media.filter (fun m => m.sample.isSome || m.stream != n) }
              host := d.host.setOwner (0xA0 + srEngine x.record) 0 } (exec (.streamClose q n) s))))) ∧
    (∀ (n : Nat) (x : Stream) (u : Task) (k : Plan), x = c.stream n → x.waiting = some u → u.bad = 0 → u.dropped = false → k = d.plan (srPlan x.record) →
      d.mayStart n = true → k.ready = true → k.valid = true → ((d.trace 9 4 n (u.frame % 2 ^ 32) 0 0).openWork k n (srSeqBase x.record) u.frame none).2 = 0 →
      (∀ m ∈ setCores x.clusters, (d.core m).run = 0 ∧ (d.core m).ctx = none) → n < 16 → u.runAt = none →
      (∀ m, (c.stream m).opened = false → (c.stream m).running = none) →
      ∃ (t : State) (v : Task), exec (.liveTaskStart n) s = .next t ∧ t.pending = s.pending ∧ (t.dev.cad.stream n).waiting = none ∧
        (t.dev.cad.stream n).running = some v ∧ v.frame = u.frame ∧ v.startedAt = some now ∧ v.runAt = some now ∧ v.bad = 0 ∧
        (∀ m ∈ setCores x.clusters, (t.dev.core m).run = 4) ∧
        (∀ y ∈ k.streams, (setCores x.clusters).contains (48 * y.pod + y.core) = true → y.core < 48 → y.pod < 4 →
          ∃ z : Ctx, (t.dev.core (48 * y.pod + y.core)).ctx = some z ∧ z.live = true ∧ z.stream = n)) ∧
    (∀ n, d.mayStart n = false → exec (.liveTaskStart n) s = .next s) ∧
    (∀ (n : Nat) (x : Ctx), (d.core n).run = 3 → (d.core n).ctx = some x →
      (now < (d.core n).since + 8000 → exec (.contextSaveDone n) s = .next s) ∧
      ((d.core n).since + 8000 ≤ now → x.arrivals = [] → n < 192 →
        (∀ e ∈ c.streams, ∀ u, e.2.running = some u → u.startedAt = none ∨ u.runAt ≠ none) →
        (d.wantsCluster (12 * (n / 48) + n % 48 / 4) = true → exec (.contextSaveDone n) s = .next { s with dev := { d with
          cores := Tab.upd {} d.cores n (fun k => { d.saveAcc n k with run := 4, ctx := none, saved := some x }) } }) ∧
        (d.wantsCluster (12 * (n / 48) + n % 48 / 4) = false → ∃ t : State, exec (.contextSaveDone n) s = .next t ∧ t.pending = s.pending ∧
          (t.dev.core n).run = 5 ∧ (t.dev.core n).saved = some x ∧ (t.dev.core n).ctx = none ∧ (t.dev.core n).since = now ∧ t.dev.mem = d.mem))) ∧
    (∀ n, (d.core n).run = 2 → (d.core n).overrun = false →
      (now < (d.core n).stopAt + 1000 * c.quantum → exec (.quantumExpiry n) s = .next s) ∧
      ((d.core n).stopAt + 1000 * c.quantum ≤ now → exec (.quantumExpiry n) s = .next { s with dev := { d with
        ctr := bump d.ctr (coreInst n) 0x19 1
        cores := Tab.upd {} d.cores n (fun k => { k with overrun := true }) } })) ∧
    (∀ (n : Nat) (x : Ctx), (d.core n).run = 5 → (d.core n).saved = some x →
      (now < (d.core n).since + 8000 → exec (.contextRestoreDone n) s = .next s) ∧
      ((d.core n).since + 8000 ≤ now → x.loop = none → x.ended = false → ∃ t : State, exec (.contextRestoreDone n) s = .next t ∧
        t.pending = s.pending ∧ t.dev = { d with cores := t.dev.cores, pods := t.dev.pods, mem := t.dev.mem, poison := t.dev.poison } ∧
        t.dev.core n = { d.core n with run := 1, ctx := some x.resume, saved := none, poison := (d.core n).savedPz, savedAcc := [], savedBad := [], savedPz := [] } ∧
        (∀ m, m ≠ n → t.dev.core m = d.core m) ∧
        (Tab.wf 0 (d.core n).savedAcc = true → (∀ e ∈ (d.core n).savedAcc, accWin (4 * n) ≤ e.1 ∧ e.1 < accWin (4 * n + 4)) →
          ∀ a, rdByte t.dev.mem a = if accWin (4 * n) ≤ a ∧ a < accWin (4 * n + 4) then Tab.get 0 (d.core n).savedAcc a else rdByte d.mem a))) ∧
    (∀ (n : Nat) (x : Stream) (u : Task), x = c.stream n → x.running = some u → u.bad = 0 → u.dropped = false →
      (d.taskDone n x u = false → (∀ v, x.waiting = some v → x.badInput v.frame = none) → exec (.liveTaskComplete n) s = .next s) ∧
      (d.taskDone n x u = true → firstBad d.poison (srRoiBase x.record) 256 = none → ∃ t : State, exec (.liveTaskComplete n) s = .next t ∧ t.pending = s.pending ∧
        (t.dev.cad.stream n).running = none ∧
        (x.closing = none → (t.dev.cad.stream n).rois = (u.frame, rdNat d.mem (srRoiBase x.record) 256) :: x.rois ∧
          (t.dev.cad.stream n).opened = x.opened))) ∧
    (∀ (n st : Nat) (x : Stream) (u : Task), x = c.stream n → x.running = none → x.waiting = some u → x.badInput u.frame = some st → x.closing = none →
      ∃ t : State, exec (.liveTaskComplete n) s = .next t ∧ t.pending = s.pending ∧ (t.dev.cad.stream n).waiting = none ∧
        (t.dev.cad.stream n).badInput u.frame = none) ∧
    (∀ (n : Nat) (x : Stream), x = c.stream n →
      (∀ u, x.running = some u → u.missed = false → c.frameDeadline x.record u.frame < now → ∃ t : State, exec (.liveDeadline n) s = .next t ∧
        t.pending = s.pending ∧ t.dev = { d with cad := t.dev.cad } ∧
        t.dev.cad.stream n = { x with running := some { u with missed := true, dropped := srDrop x.record } } ∧
        (∀ m, m ≠ n → t.dev.cad.stream m = c.stream m)) ∧
      (∀ u, x.running = none → x.waiting = some u → u.missed = false → c.frameDeadline x.record u.frame < now → srDrop x.record = false →
        ∃ t : State, exec (.liveDeadline n) s = .next t ∧ t.pending = s.pending ∧ t.dev = { d with cad := t.dev.cad } ∧
          t.dev.cad.stream n = { x with waiting := some { u with missed := true } } ∧ (∀ m, m ≠ n → t.dev.cad.stream m = c.stream m)) ∧
      (∀ u, x.running = none → x.closing = none → x.waiting = some u → u.missed = false → c.frameDeadline x.record u.frame < now →
        srDrop x.record = true → x.badInput u.frame = none →
        ∃ t : State, exec (.liveDeadline n) s = .next t ∧ t.pending = s.pending ∧ (t.dev.cad.stream n).waiting = none ∧ (t.dev.cad.stream n).running = none) ∧
      ((∀ u, x.running = some u → u.missed = true ∨ now ≤ c.frameDeadline x.record u.frame) →
        (∀ u, x.waiting = some u → u.missed = true ∨ now ≤ c.frameDeadline x.record u.frame) → exec (.liveDeadline n) s = .next s))

/-! ## The mover -/

/-- CHANNEL_TAIL, CHANNEL_START, CHANNEL_PAUSE, CHANNEL_RESUME, CHANNEL_RETRY, CHANNEL_SKIP, CHANNEL_RESET, CHANNEL_QUIESCED, CHANNEL_RELEASE,
MOVER_BURST, DESCRIPTOR_WRITE_BACK, MOVER_FENCE_DONE, MOVER_FAULT and HOST_TRANSFER_TIMEOUT (R467 to R484). SKIP at HEAD = TAIL and the fault
address of BAD_DESC and ALIGN are the model's (log entry 27). -/
def Obligations.ChannelsMoveTheirRings : Prop :=
  ∀ (s : State) (d : Dev) (k : Nat) (c : Chan), d = s.dev → c = d.chan k →
    (∀ port (set : (Chan → Chan) → State), (∀ f, set f = { s with dev := { d with mov := { d.mov with chans := Tab.upd {} d.mov.chans k f } } }) →
      d.linked port = true → k < 96 →
      (d.host.own (0x40 + k) ≠ port + 1 →
        (∀ v, exec (.channelTail port k v) s = .next { s with dev := { d with host := d.host.winError port } }) ∧
        exec (.channelStart port k) s = .next { s with dev := { d with host := d.host.winError port } } ∧
        exec (.channelReset port k) s = .next { s with dev := { d with host := d.host.winError port } }) ∧
      (d.host.own (0x40 + k) = port + 1 →
        (∀ v, v < 2 ^ 32 → (v + 2 ^ 32 - c.doneIdx) % 2 ^ 32 ≤ 2 ^ c.log2 → (c.st ≠ 1 ∨ c.cur ≠ none) →
          exec (.channelTail port k v) s = .next (set (fun x => { x with tail := v }))) ∧
        (∀ v, v < 2 ^ 32 → 2 ^ c.log2 < (v + 2 ^ 32 - c.doneIdx) % 2 ^ 32 → c.cur = none → (c.st < 4 ∨ 5 < c.st) → ∃ t : State,
          exec (.channelTail port k v) s = .next t ∧ t.pending = s.pending ∧ t.dev.mem = d.mem ∧ t.dev.chan k = { c with st := 4, err := 6, fence := false } ∧
          (∀ j, j ≠ k → t.dev.chan j = d.chan j)) ∧
        (c.st = 0 → d.unwritable c.base (32 * 2 ^ c.log2) ≠ none → ∃ t : State, exec (.channelStart port k) s = .next t ∧ t.pending = s.pending ∧
          t.dev.mem = d.mem ∧ t.dev.chan k = { c with st := 4, err := 6, fence := false }) ∧
        (c.st = 0 → d.unwritable c.base (32 * 2 ^ c.log2) = none →
          (c.head = c.tail → exec (.channelStart port k) s = .next (set (fun x => { x with st := 1 }))) ∧
          (∀ a x, a = c.base + 32 * (c.head % 2 ^ c.log2) → x = rdNat d.mem a 32 → c.head ≠ c.tail → c.cur = none → d.unbacked a 32 = none →
            firstBad d.poison a 32 = none → ∃ t : State, exec (.channelStart port k) s = .next t ∧ t.pending = s.pending ∧ t.dev.mem = d.mem ∧
              (bits x 0 1 = 0 → (t.dev.chan k).st = 4 ∧ (t.dev.chan k).err = 6 ∧ (t.dev.chan k).cur = none) ∧
              (bits x 0 1 = 1 → (t.dev.chan k).st = 1 ∧ (t.dev.chan k).cur = some x ∧ (t.dev.chan k).row = 0 ∧ (t.dev.chan k).off = 0 ∧
                (t.dev.chan k).head = c.head))) ∧
        (c.st = 1 → exec (.channelPause port k) s = .next (set (fun x => { x with st := 2, fence := false }))) ∧
        (c.st ≠ 1 → exec (.channelPause port k) s = .next s) ∧
        (∀ x, c.st = 3 → c.cur = some x → ∃ t : State, exec (.channelResume port k) s = .next t ∧ t.pending = s.pending ∧ t.dev.mem = d.mem ∧
          (t.dev.chan k).st = 1 ∧ (t.dev.chan k).cur = some x ∧ (t.dev.chan k).row = c.row ∧ (t.dev.chan k).off = c.off ∧
          (∀ j, j ≠ k → t.dev.chan j = d.chan j)) ∧
        (c.st ≠ 3 → exec (.channelResume port k) s = .next s) ∧
        (c.st = 4 → c.head = c.tail → exec (.channelRetry port k) s = .next (set (fun x => { x with st := 1, err := 0, row := 0, off := 0 }))) ∧
        (c.st ≠ 4 → exec (.channelRetry port k) s = .next s ∧ exec (.channelSkip port k) s = .next s) ∧
        (c.st = 4 → c.head ≠ c.tail → (c.head + 1) % 2 ^ 32 = c.tail → exec (.channelSkip port k) s = .next (set (fun x =>
          { x with st := 1, err := 0, head := c.tail, doneIdx := c.tail, row := 0, off := 0 }))) ∧
        (c.st = 0 → exec (.channelReset port k) s = .next s) ∧
        (c.st ≠ 0 → exec (.channelReset port k) s = .next (set (fun x => { x with st := 5, err := 0, fence := false })))) ∧
      (d.pow.dead = false → c.relCmd = 0 → c.wb = none → c.fail = none →
        (c.st = 2 → exec (.channelQuiesced k) s = .next (set (fun x => { x with st := 3 }))) ∧
        (c.st = 5 → c.cur = none → exec (.channelQuiesced k) s = .next (set (fun x => { base := x.base, log2 := x.log2, prio := x.prio }))) ∧
        (c.st ≠ 2 → c.st ≠ 5 → exec (.channelQuiesced k) s = .next s))) ∧
    (∀ (q : Nat) (f : PacketForm) (p : Packet), s.Admits (.channelRelease q (0x40 + k)) f p → k < 96 → d.host.nextCmd ≠ 0 →
      (d.host.own (0x40 + k) ≠ q / 8 + 1 → Res.Becomes s d (exec (.channelRelease q (0x40 + k)) s)) ∧
      (d.host.own (0x40 + k) = q / 8 + 1 →
        ((c.st = 0 ∨ c.st = 3 ∨ c.st = 4) → c.cur = none → Res.Becomes s { d with
          mov := { d.mov with chans := Tab.upd {} d.mov.chans k (fun x => { base := x.base, log2 := x.log2, prio := x.prio }) }
          host := d.host.setOwner (0x40 + k) 0 } (exec (.channelRelease q (0x40 + k)) s)) ∧
        (c.st = 1 → Res.Becomes s { d with mov := { d.mov with chans := Tab.upd {} d.mov.chans k (fun x =>
          { x with relCmd := d.host.nextCmd, st := 2, fence := false }) } } (exec (.channelRelease q (0x40 + k)) s)))) ∧
    (∀ (e : Nat) (flips : List Nat) (aged : Bool) (x : Xfer) (b : Burst) (w : Wk), d.pow.dead = false → e ≤ 4 → d.pow.runs (engineDom e) = true →
      cpFlip flips = false → d.nextChan e = some (k, aged) → c.xfer = some x → b = x.burst c.row c.off →
      w = ({ mem := d.mem, poison := d.poison, free := d.plat.freeCount, flaws := flips, die := chanEngine k : Wk }).xferPart x c.row c.off b.n →
      ∃ (t : State) (y : Chan), exec (.moverBurst e flips) s = .next t ∧ t.pending = s.pending ∧ t.dev.chan k = y ∧
        t.dev.host = d.host ∧ y.st = c.st ∧ y.cur = c.cur ∧ y.head = c.head ∧ y.waitN = 0 ∧
        (∀ j, j ≠ k → { t.dev.chan j with waitN := 0 } = { d.chan j with waitN := 0 }) ∧
        (w.bad = false → t.dev.mem = w.mem ∧ t.dev.poison = w.poison ∧ y.fail = c.fail ∧
          (c.off + b.n < x.len → y.row = c.row ∧ y.off = c.off + b.n ∧ y.wb = c.wb) ∧
          (x.len ≤ c.off + b.n → y.row = c.row + 1 ∧ y.off = 0 ∧ (c.row + 1 < x.rows → y.wb = none) ∧ (x.rows ≤ c.row + 1 → y.wb = some 0))) ∧
        (w.bad = true → y.row = c.row ∧ y.off = c.off ∧ y.wb = c.wb ∧ y.fail = some (4, w.errs.getLastD 0 % 2 ^ 48, w.errs.getLastD 0 / 2 ^ 48) ∧
          (∀ a, (a < b.dst.1 ∨ b.dst.1 + b.dst.2 ≤ a) → rdByte t.dev.mem a = rdByte d.mem a))) ∧
    (∀ x, d.pow.dead = false → c.cur = some x → (c.head + 1) % 2 ^ 32 = c.tail →
      (∀ (t : Instr), ((t = .descriptorWriteBack k ∧ c.wb ≠ none ∧ (c.st = 1 ∨ c.st = 2 ∨ c.st = 5)) ∨ (t = .moverFenceDone k ∧ c.fence = true ∧ c.st = 1)) →
        ∃ (u : State), exec t s = .next u ∧ u.pending = s.pending ∧
          u.dev.chan k = { c with cur := none, wb := none, fence := false, fail := none, head := c.tail, doneIdx := c.tail, row := 0, off := 0 } ∧
          rdNat u.dev.mem c.headAddr 4 = setBits (setBits (x % 2 ^ 32) 0 1 0) 8 4 0 % 2 ^ 32 ∧
          (∀ a, (a < c.headAddr ∨ c.headAddr + 4 ≤ a) → rdByte u.dev.mem a = rdByte d.mem a) ∧
          u.dev.host.irqs = (if bit x 4 ∧ c.irqEn = true ∧ (d.host.own (0x40 + k) = 1 ∨ d.host.own (0x40 + k) = 2)
            then (d.host.own (0x40 + k) - 1, 9) :: d.host.irqs else d.host.irqs))) ∧
    (c.wb = none → exec (.descriptorWriteBack k) s = .next s) ∧ (c.fence = false → exec (.moverFenceDone k) s = .next s) ∧
    (∀ st a addr x, d.pow.dead = false → d.chanFailure c = some (st, a) → a.getD addr = addr → c.cur = some x → c.st ≠ 5 → addr < 2 ^ 48 → st < 16 → ∃ t : State,
      exec (.moverFault k st addr) s = .next t ∧ t.pending = s.pending ∧ (t.dev.chan k).st = 4 ∧ (t.dev.chan k).err = st ∧
      (t.dev.chan k).faultAddr = addr ∧ (t.dev.chan k).cur = none ∧ (t.dev.chan k).head = c.head ∧
      rdNat t.dev.mem c.headAddr 4 = setBits (setBits (x % 2 ^ 32) 0 1 0) 8 4 st % 2 ^ 32 ∧
      (∀ b, (b < c.headAddr ∨ c.headAddr + 4 ≤ b) → rdByte t.dev.mem b = rdByte d.mem b)) ∧
    (d.chanFailure c = none → ∀ st addr, exec (.moverFault k st addr) s = .next s) ∧
    (∀ x, d.pow.dead = false → c.xfer = some x → c.st = 1 → d.chanFailure c = none → (x.burst c.row c.off).areas.any touchesHost = true →
      (d.plat.now < c.readyAt + 1000000 → exec (.hostTransferTimeout k) s = .next s) ∧
      (c.readyAt + 1000000 ≤ d.plat.now → ∃ t : State, exec (.hostTransferTimeout k) s = .next t ∧ t.pending = s.pending ∧
        (t.dev.chan k).st = 4 ∧ (t.dev.chan k).err = 5 ∧ (t.dev.chan k).cur = none ∧ (t.dev.chan k).head = c.head))

/-! ## Latches, traces and dumps -/

/-- LATCH_SET_DEFINE, TRACE_ARM and TRACE_STOP (R519, R521, R527). -/
def Obligations.LatchSetsAndTraceBuffers : Prop :=
  ∀ (s : State) (d : Dev) (q b : Nat) (f : PacketForm) (p : Packet) (x : TraceBuf) (freed : Dev), d = s.dev → d.host.nextCmd ≠ 0 → x = d.obs.buf b →
    freed = { d with
      host := d.host.setOwner (0x18 + b) 0
      obs := { d.obs with bufs := Tab.set {} d.obs.bufs b {}, recs := withoutBuf b d.obs.recs } } →
    (∀ set counters, s.Admits (.latchSetDefine q set counters) f p →
      (set ≤ 63 → (∀ x ∈ counters, counterIdOk x = true) → ∃ t : State, exec (.latchSetDefine q set counters) s = .next t ∧ t.pending = s.pending ∧
        Dev.Replied { d with host := { d.host with latchSets := Tab.set [] d.host.latchSets set (if counters = List.replicate 16 0xFFFF then [] else counters) } } t.dev) ∧
      ((63 < set ∨ ∃ x ∈ counters, counterIdOk x = false) → ∃ t : State, exec (.latchSetDefine q set counters) s = .next t ∧ t.pending = s.pending ∧
        Dev.Replied d t.dev)) ∧
    (∀ src dest len a, s.Admits (.traceArm q b src dest len) f p → a = dest % 2 ^ 48 →
      ((bits src 11 20 ≠ 0 ∨ a % 64 ≠ 0 ∨ d.unwritable a len ≠ none ∨ len % 4096 ≠ 0 ∨ len < 65536 ∨ d.host.own (0x18 + b) ≠ 0) →
        ∃ t : State, exec (.traceArm q b src dest len) s = .next t ∧ t.pending = s.pending ∧ Dev.Replied d t.dev) ∧
      (bits src 11 20 = 0 → a % 64 = 0 → d.unwritable a len = none → len % 4096 = 0 → 65536 ≤ len → d.host.own (0x18 + b) = 0 →
        (d.pow.on 83 = true → ∃ t : State, exec (.traceArm q b src dest len) s = .next t ∧ t.pending = s.pending ∧ Dev.Replied { d with
          host := d.host.setOwner (0x18 + b) (q / 8 + 1)
          obs := { d.obs with bufs := Tab.set {} d.obs.bufs b { armed := true, sources := src, dest := a, len := len } } } t.dev) ∧
        (d.pow.on 83 = false → ∃ t : State, exec (.traceArm q b src dest len) s = .next t ∧ t.pending = s.pending ∧
          t.dev.host.own (0x18 + b) = q / 8 + 1 ∧ t.dev.pow = (d.demand 83).pow ∧
          t.dev.obs.buf b = { armed := false, sources := src, dest := a, len := len, upCmd := d.host.nextCmd } ∧
          (∀ n, n ≠ b → (t.dev.obs.buf n).setup = (d.obs.buf n).setup)))) ∧
    (s.Admits (.traceStop q b) f p →
      (d.host.own (0x18 + b) ≠ q / 8 + 1 ∨ x.stopCmd ≠ 0 → ∃ t : State, exec (.traceStop q b) s = .next t ∧ t.pending = s.pending ∧ Dev.Replied d t.dev) ∧
      (d.host.own (0x18 + b) = q / 8 + 1 → x.stopCmd = 0 →
        (x.upCmd ≠ 0 → ∃ t : State, exec (.traceStop q b) s = .next t ∧ t.pending = s.pending ∧ Dev.Replied freed t.dev) ∧
        (x.upCmd = 0 → d.liveBusy = true → ∃ t : State, exec (.traceStop q b) s = .next t ∧ t.pending = s.pending ∧ Dev.Replied { d with obs := { d.obs with
          bufs := Tab.upd {} d.obs.bufs b (fun x => { x with stopCmd := d.host.nextCmd }) } } t.dev) ∧
        (x.upCmd = 0 → d.liveBusy = false → bit x.sources 2 = false → (∀ r ∈ d.obs.recs ++ d.obs.queue, b ∉ r.bufs) →
          ∃ t : State, exec (.traceStop q b) s = .next t ∧ t.pending = s.pending ∧ Dev.Replied { freed with
            mem := wrBytes d.mem x.dest (leBytes 64 x.head)
            poison := setBad d.poison x.dest false 64
            pow := d.pow.idle 83 d.plat.now } t.dev)))

/-- LATCH_END, TRACE_RECORD and TRACE_RECORD_WRITE (R520, R522, R523, R525, R526, R534). -/
def Obligations.TraceRecordsReachTheirBuffers : Prop :=
  ∀ (s : State) (d : Dev) (now : Nat), d = s.dev → now = d.plat.now →
    (∀ id c e, d.host.cmd id = some c → c.endLatch = some e →
      (now < e.2.2.1 + 2000 → exec (.latchEnd id) s = .next s) ∧
      (e.2.2.1 + 2000 ≤ now → ∃ t : State, exec (.latchEnd id) s = .next t ∧ t.pending = s.pending ∧ Dev.Replied d t.dev ∧
        ∀ y ∈ t.dev.host.inProg, y.id ≠ c.id)) ∧
    (∀ id, d.host.cmd id = none → exec (.latchEnd id) s = .next s) ∧
    (∀ die, d.pow.runs 83 = false ∨ (∀ r ∈ d.obs.queue, r.die ≠ die) → exec (.traceRecord die) s = .next s) ∧
    (∀ (die : Nat) (r y : TraceRec), d.pow.dead = false → d.pow.runs 83 = true → d.obs.queue.find? (fun r => r.die == die) = some r →
      y = { r with late := decide (r.time + 4000 < now), word := setBits r.word 79 1 (if r.time + 4000 < now then 1 else 0) } →
      (d.obs.recs.length < 32768 → ∃ (l1 l2 : List TraceRec), exec (.traceRecord die) s = .next { s with
          dev := { d with obs := { d.obs with queue := d.obs.queue.erase r, recs := l1 ++ y :: l2 } } } ∧ d.obs.recs = l1 ++ l2 ∧
        (y.late = true → ∀ z ∈ l1, z.late = true) ∧
        (y.late = false → (∀ z ∈ l1, z.late = true ∨ z.time < y.time ∨ (z.time = y.time ∧ z.die ≤ y.die)) ∧
          ∀ z ∈ l2.head?, z.late = false ∧ (y.time < z.time ∨ (y.time = z.time ∧ y.die < z.die)))) ∧
      (32768 ≤ d.obs.recs.length → ∃ t : State, exec (.traceRecord die) s = .next t ∧ t.pending = s.pending ∧ t.dev.obs.recs = d.obs.recs ∧
        t.dev.obs.queue = d.obs.queue.erase r ∧ t.dev.ctr = bump d.ctr cobInst 0x78 1 ∧ t.dev.mem = d.mem ∧
        ∀ n, r.bufs = [n] → (t.dev.obs.buf n).dropped = ((d.obs.buf n).dropped + 1) % 2 ^ 32)) ∧
    (d.liveBusy = true → exec .traceRecordWrite s = .next s) ∧
    (∀ r rest b x, d.pow.dead = false → d.liveBusy = false → d.pow.runs 83 = true → d.nextChan 4 = none → (∀ n, n < 4 → (d.obs.buf n).stopCmd = 0) →
      d.obs.recs = r :: rest → x = d.obs.buf b → r.bufs = [b] →
      (r.late = false → now < r.time + 4000 → exec .traceRecordWrite s = .next s) ∧
      ((r.late = true ∨ r.time + 4000 ≤ now) →
        (x.full = true → ∃ t : State, exec .traceRecordWrite s = .next t ∧ t.pending = s.pending ∧ t.dev.obs.recs = rest ∧ t.dev.mem = d.mem ∧
          (t.dev.obs.buf b).dropped = (x.dropped + 1) % 2 ^ 32 ∧ t.dev.ctr = bump d.ctr cobInst 0x78 1) ∧
        (x.full = false → x.lost = 0 → ∃ t : State, exec .traceRecordWrite s = .next t ∧ t.pending = s.pending ∧
          t.dev.obs.recs = rest ∧ (t.dev.obs.buf b).widx = (x.widx + 1) % 2 ^ 32 ∧ (t.dev.obs.buf b).dropped = x.dropped ∧ t.dev.ctr = d.ctr ∧
          rdNat t.dev.mem (x.dest + 64 + 32 * (x.widx % max x.slots 1)) 32 = r.word % 2 ^ 256 ∧
          rdNat t.dev.mem x.dest 64 = (t.dev.obs.buf b).head % 2 ^ 512 ∧
          (∀ a, (a < x.dest ∨ x.dest + 64 ≤ a) → (a < x.dest + 64 + 32 * (x.widx % max x.slots 1) ∨ x.dest + 96 + 32 * (x.widx % max x.slots 1) ≤ a) →
            rdByte t.dev.mem a = rdByte d.mem a)))) ∧
    (∀ b x, d.pow.dead = false → d.liveBusy = false → d.pow.runs 83 = true → d.nextChan 4 = none → b < 4 → x = d.obs.buf b → x.stopCmd ≠ 0 →
      (∀ n, n < b → (d.obs.buf n).stopCmd = 0) → (∀ r ∈ d.obs.recs ++ d.obs.queue, b ∉ r.bufs) →
      ∃ t : State, exec .traceRecordWrite s = .next t ∧ t.pending = s.pending ∧ Dev.Replied { d with
        mem := wrBytes d.mem x.dest (leBytes 64 x.head)
        poison := setBad d.poison x.dest false 64
        host := d.host.setOwner (0x18 + b) 0
        pow := d.pow.idle 83 now
        obs := { d.obs with bufs := Tab.set {} d.obs.bufs b {}, recs := withoutBuf b d.obs.recs } } t.dev)

/-- DUMP_TENSOR and DUMP_READ (R528 to R530, R534). The stream whose frames count is the model's where several run one plan (log
entry 29). -/
def Obligations.DumpsReadTheirSymbols : Prop :=
  ∀ (s : State) (d : Dev), d = s.dev →
    (∀ (q : Nat) (f : PacketForm) (p : Packet) (h n step dest len a : Nat) (x : Plan) (y : Sym), s.Admits (.dumpTensor q h n step dest len) f p →
      d.host.nextCmd ≠ 0 → a = dest % 2 ^ 48 → x = d.plan h →
      ((x.ready = false ∨ x.sym n = none ∨ x.valid = false ∨ 8 ≤ d.obs.dumps.length) →
        ∃ t : State, exec (.dumpTensor q h n step dest len) s = .next t ∧ t.pending = s.pending ∧ Dev.Replied d t.dev) ∧
      (x.sym n = some y → ((∃ l, x.live = false ∧ d.startedTo h = some l ∧ step ≤ l) ∨ (∃ m, x.live = true ∧ d.dumpStream h = some m ∧
          step < (d.cad.stream m).nextFrame) ∨ d.unwritable a (dumpSize y) ≠ none ∨ len < dumpSize y) →
        ∃ t : State, exec (.dumpTensor q h n step dest len) s = .next t ∧ t.pending = s.pending ∧ Dev.Replied d t.dev) ∧
      (x.ready = true → x.sym n = some y → d.unwritable a (dumpSize y) = none → dumpSize y ≤ len → x.valid = true → d.obs.dumps.length < 8 →
        (x.live = false → (∀ l, d.startedTo h = some l → l < step) → ∃ t : State, exec (.dumpTensor q h n step dest len) s = .next t ∧ t.pending = s.pending ∧
          Dev.Replied { d with obs := { d.obs with dumps := d.obs.dumps ++ [{ cmd := d.host.nextCmd, plan := h, sym := n, step := step, dest := a }] } } t.dev) ∧
        (∀ m, x.live = true → d.dumpStream h = some m → (d.cad.stream m).nextFrame ≤ step →
          ∃ t : State, exec (.dumpTensor q h n step dest len) s = .next t ∧ t.pending = s.pending ∧ Dev.Replied { d with obs := { d.obs with
            dumps := d.obs.dumps ++ [{ cmd := d.host.nextCmd, plan := h, sym := n, step := step, dest := a, stream := some m }] } } t.dev))) ∧
    (∀ flips, cpFlip flips = false → (d.liveBusy = true ∨ d.obs.dumps = [] ∨ d.pow.dead = true) → exec (.dumpRead flips) s = .next s) ∧
    (∀ flips x rest y, cpFlip flips = false → d.pow.dead = false → d.liveBusy = false → d.obs.dumps = x :: rest → (d.plan x.plan).sym x.sym = some y →
      d.momentCome x = true → d.nextChan y.dumpPod = none → d.cobRun = none →
      ∃ t : State, exec (.dumpRead flips) s = .next t ∧ t.pending = s.pending ∧
        t.dev.obs.dumps = rest.filter (fun z => z.cmd != x.cmd) ∧
        ((∀ a q, x.dest ≤ a → a < x.dest + 64 → ¬ (d.host.queue q).replyByte q a) → rdNat t.dev.mem x.dest 64 = dumpHeader x y % 2 ^ 512))

/-! ## Starts -/

/-- RESET_N_ASSERT, RESET_N_RELEASE, VDD_AON_RISE and HUSK_RESTART (R347, R488 to R493, R500, R501). That retired clusters are in use again
at VDD_AON_RISE, and that no domain takes the steps of R383 without supply, are the model's (log entries 11 and 42). -/
def Obligations.StartsBeginAtTheirEvents : Prop :=
  ∀ (s : State) (d : Dev) (p : Plat), d = s.dev → p = d.plat →
    (p.phase = .held → exec .resetNAssert s = .next s) ∧
    (p.phase ≠ .held → exec .resetNRelease s = .next s ∧ exec .vddAonRise s = .next s) ∧
    (p.phase ≠ .held → ∃ t : State, exec .resetNAssert s = .next t ∧ t.pending = s.pending ∧ t.dev.plat.phase = .held ∧ t.dev.plat.resetN = false ∧
      t.dev.planUsed = [] ∧ t.dev.cores = [] ∧ t.dev.mov = {} ∧ t.dev.host.queues = [] ∧ t.dev.mem = d.mem ∧ (∀ id, (t.dev.pow.dom id).st = 0) ∧
      t.dev.plat.otp = p.otp ∧ t.dev.plat.flash = p.flash ∧
      ((p.phase = .verify ∨ p.phase = .train ∨ p.phase = .selfTest ∨ p.phase = .wipe) → t.dev.plat.lastReason = 0x0A ∧
        (p.faultLog.length < 64 → t.dev.plat.faultLog = p.faultLog ++ [{ time := p.now, unit := 13, die := 4 }])) ∧
      ((p.phase = .ready ∨ p.phase = .failed ∨ p.phase = .dormant) → t.dev.plat.lastReason = p.lastReason ∧ t.dev.plat.faultLog = p.faultLog)) ∧
    (p.phase = .held → p.resetN = true ∨ p.pwrGood ≠ 0x3F → exec .resetNRelease s = .next s) ∧
    (p.phase = .held → p.resetN = false → p.pwrGood = 0x3F → ∃ t : State, exec .resetNRelease s = .next t ∧ t.pending = s.pending ∧
      t.dev.plat.resetN = true ∧ t.dev.plat.now = 0 ∧ t.dev.cad = {} ∧ t.dev.plans = [] ∧
      (∀ a, a < hostBase 0 → rdByte t.dev.mem a = 0) ∧ (∀ a, hostBase 0 ≤ a → rdByte t.dev.mem a = rdByte d.mem a) ∧
      (p.bootAttempts ≠ p.failLimit → t.dev.plat.phase = .verify ∧ t.dev.plat.bootAttempts = p.bootAttempts + 1 ∧
        (∀ id, (t.dev.pow.dom id).st = if id = 64 ∨ id = 65 then 1 else 0) ∧
        (p.lcWord = 4 → t.dev.plat.lcWord = p.lcPrior ∧ t.dev.plat.lcCount = min 1024 (p.lcCount + 1)) ∧
        (p.lcWord ≠ 4 → t.dev.plat.otp = p.otp)) ∧
      (p.bootAttempts = p.failLimit → t.dev.plat.phase = .dormant ∧ t.dev.plat.dormantReason = p.lastReason ∧ t.dev.plat.otp = p.otp ∧
        (∀ id, (t.dev.pow.dom id).st = 0))) ∧
    (p.phase = .held → p.resetN = true → exec .vddAonRise s = .next s) ∧
    (p.phase = .held → p.resetN = false → exec .vddAonRise s = .next { s with dev := { d with plat := { p with
      aonUp := true
      bootAttempts := 0
      lastReason := 0
      dormantReason := 0
      faultCode := 0
      faultTime := 0
      faultLog := []
      faultLost := 0
      retired := 0 } } }) ∧
    ((p.phase ≠ .failed ∨ p.now < p.stageMark + 100000000 ∨ d.pow.allOff = false) → exec .huskRestart s = .next s) ∧
    (p.phase = .failed → p.stageMark + 100000000 ≤ p.now → d.pow.allOff = true → ∃ t : State, exec .huskRestart s = .next t ∧ t.pending = s.pending ∧
      t.dev.plat.now = p.now ∧ t.dev.plans = [] ∧ t.dev.cad.beat = d.cad.beat + 1 ∧ t.dev.cad.start = p.now ∧ t.dev.plat.faultLog = p.faultLog ∧
      (∀ a, a < hostBase 0 → rdByte t.dev.mem a = 0) ∧ (∀ a, hostBase 0 ≤ a → rdByte t.dev.mem a = rdByte d.mem a) ∧
      (p.bootAttempts ≠ p.failLimit → t.dev.plat.phase = .verify ∧ t.dev.plat.bootAttempts = p.bootAttempts + 1) ∧
      (p.bootAttempts = p.failLimit → t.dev.plat.phase = .dormant ∧ t.dev.plat.dormantReason = p.lastReason))

/-- FIRMWARE_VERIFIED, D2D_TRAINED, GDDR7_TRAINED, SELF_TEST_DONE and START_WIPE_DONE (R128, R489 to R492, R495 to R498, R503). FLASH_READ where
neither slot answers, and a cluster that stays retired over later starts, are the model's (log entries 16 and 42). -/
def Obligations.StagesOfAStartFollow : Prop :=
  ∀ (s : State) (d : Dev) (p : Plat), d = s.dev → p = d.plat →
    (∀ a b, p.phase ≠ .verify → exec (.firmwareVerified a b) s = .next s) ∧
    (∀ a b, p.phase = .verify → p.otpInvalid = true → ∃ t : State, exec (.firmwareVerified a b) s = .next t ∧ t.pending = s.pending ∧ d.StartFails t.dev 3) ∧
    (∀ a b x y, p.phase = .verify → p.otpInvalid = false → x = p.slotOutcome (p.slotHdr 0) a → y = p.slotOutcome (p.slotHdr 1) b →
      (x ≠ 0 → y ≠ 0 → p.selected < 2 → ∃ t : State, exec (.firmwareVerified a b) s = .next t ∧ t.pending = s.pending ∧
        d.StartFails t.dev (if x = 3 ∧ y = 3 then 1 else 2)) ∧
      (∀ img, img < 2 → p.selected < 2 → (if img = 0 then x else y) = 0 → (img ≠ p.selected → (if p.selected = 0 then x else y) ≠ 0) →
        (p.config = none → ∃ t : State, exec (.firmwareVerified a b) s = .next t ∧ t.pending = s.pending ∧ d.StartFails t.dev 4) ∧
        (∀ w, p.config = some w → ∃ t : State, exec (.firmwareVerified a b) s = .next t ∧ t.pending = s.pending ∧ t.dev.plat.phase = .train ∧
          t.dev.plat.fwLoaded = true ∧ t.dev.plat.fwImage = img ∧ t.dev.plat.fwVersion = bits (p.slotHdr img) 64 32 ∧
          t.dev.plat.attestStep = min 4096 (p.attestStep + 1) ∧ t.dev.plat.podDevices = bits w 64 4 ∧ t.dev.plat.cobDevices = bits w 68 4 ∧
          (d.host.cmd 0 = none → t.dev.mem = d.mem)))) ∧
    (p.phase ≠ .train → ∀ ok, exec (.d2dTrained ok) s = .next s ∧ exec (.gddr7Trained ok) s = .next s) ∧
    (p.phase = .train → p.d2dDone = false → (∃ t : State, exec (.d2dTrained false) s = .next t ∧ t.pending = s.pending ∧ d.StartFails t.dev 5) ∧
      (p.gddrDone = false → exec (.d2dTrained true) s = .next { s with dev := { d with plat := { p with d2dDone := true } } }) ∧
      (p.gddrDone = true → exec (.d2dTrained true) s = .next { s with dev := { d with plat := { p with
        d2dDone := true
        phase := if p.brakeN then .selfTest else .train
        stageMark := p.now } } })) ∧
    (p.phase = .train → p.gddrDone = false → (∃ t : State, exec (.gddr7Trained false) s = .next t ∧ t.pending = s.pending ∧ d.StartFails t.dev 6) ∧
      (p.d2dDone = false → exec (.gddr7Trained true) s = .next { s with dev := { d with plat := { p with gddrDone := true } } }) ∧
      (p.d2dDone = true → exec (.gddr7Trained true) s = .next { s with dev := { d with plat := { p with
        gddrDone := true
        phase := if p.brakeN then .selfTest else .train
        stageMark := p.now } } })) ∧
    (∀ failed ok, p.phase ≠ .selfTest → exec (.selfTestDone failed ok) s = .next s) ∧
    (∀ failed r, p.phase = .selfTest → r = (p.retired ||| failed) % 2 ^ 48 →
      (∃ t : State, exec (.selfTestDone failed false) s = .next t ∧ t.pending = s.pending ∧ d.StartFails t.dev 7) ∧
      ((∃ i, i < 4 ∧ ({ p with retired := r } : Plat).activeClusters i < 6) → ∃ t : State, exec (.selfTestDone failed true) s = .next t ∧
        t.pending = s.pending ∧ d.StartFails t.dev 7) ∧
      ((∀ i, i < 4 → 6 ≤ ({ p with retired := r } : Plat).activeClusters i) →
        ((∃ id, id < 85 ∧ p.retiredDom id = false ∧ d.pow.on id = false) → exec (.selfTestDone failed true) s = .next s) ∧
        ((∀ id, id < 85 → (p.retiredDom id = true ∨ d.pow.on id = true) ∧ (d.pow.dom id).pendOn = false ∧ (d.pow.dom id).pendOff = false) →
          ∃ t : State, exec (.selfTestDone failed true) s = .next t ∧ t.pending = s.pending ∧ t.dev.mem = d.mem ∧
            t.dev.plat = { p with retired := r, phase := .wipe, stageMark := p.now } ∧
            (∀ id, (p.retiredDom id = true ∨ ({ p with retired := r } : Plat).retiredDom id = false) → t.dev.pow.dom id = d.pow.dom id) ∧
            (∀ id, p.retiredDom id = false → ({ p with retired := r } : Plat).retiredDom id = true →
              t.dev.pow.dom id = { d.pow.dom id with st := 3, since := p.now })))) ∧
    (p.phase ≠ .wipe → ∀ ok, exec (.startWipeDone ok) s = .next s) ∧
    (p.phase = .wipe → (∃ t : State, exec (.startWipeDone false) s = .next t ∧ t.pending = s.pending ∧ d.StartFails t.dev 8) ∧
      ∃ t : State, exec (.startWipeDone true) s = .next t ∧ t.pending = s.pending ∧
        t.dev.plat.phase = .ready ∧ t.dev.plat.bootAttempts = 0 ∧
        t.dev.plat.svnFloor = (if p.fwCommit = true then max p.svnFloor p.fwSvn else p.svnFloor) ∧
        (∀ a, a < hostBase 0 → (∀ q, ¬ (d.host.queue q).replyByte q a) → rdByte t.dev.mem a = 0) ∧ t.dev.host.latchSets = [])

/-- START_STAGE_TIMEOUT, ATTEST_TREE_DONE, SMBUS_BLOCK_READ and SMBUS_ALERT_RESPONSE (R425, R490, R503, R511, R554). -/
def Obligations.StartsTimeOutAndTheSmbusAnswers : Prop :=
  ∀ (s : State) (d : Dev) (p : Plat), d = s.dev → p = d.plat →
    (∀ r, ((r = 1 ∧ p.phase = .verify ∧ p.stageMark + 1000000000 ≤ p.now) ∨
        (r = 5 ∧ p.phase = .train ∧ p.d2dDone = false ∧ p.stageMark + 50000000 ≤ p.now) ∨
        (r = 6 ∧ p.phase = .train ∧ p.d2dDone = true ∧ p.gddrDone = false ∧ p.stageMark + 500000000 ≤ p.now) ∨
        (r = 7 ∧ p.phase = .selfTest ∧ p.stageMark + 200000000 ≤ p.now) ∨
        (r = 8 ∧ p.phase = .wipe ∧ p.stageMark + 100000000 ≤ p.now) ∨
        (r = 9 ∧ p.phase = .selfTest ∧ p.now < p.stageMark + 200000000 ∧ p.powerMark + 2000000000 ≤ p.now)) →
      ∃ t : State, exec .startStageTimeout s = .next t ∧ t.pending = s.pending ∧ d.StartFails t.dev r) ∧
    ((p.phase = .ready ∨ p.phase = .dormant ∨ p.phase = .held ∨ p.phase = .failed ∨ (p.phase = .train ∧ p.d2dDone = true ∧ p.gddrDone = true)) →
      exec .startStageTimeout s = .next s) ∧
    ((p.treeBuilds = false ∨ p.phase = .held) → exec .attestTreeDone s = .next s) ∧
    (p.treeBuilds = true → p.phase ≠ .held → ∃ l, exec .attestTreeDone s = .next { s with
        dev := { d with plat := { p with attestReady := true }, host := { d.host with irqs := l } } } ∧
      (({ p with attestReady := true } : Plat).faultSummary = p.faultSummary → l = d.host.irqs) ∧
      (({ p with attestReady := true } : Plat).faultSummary ≠ p.faultSummary → ∀ i, i < 2 → (d.host.port i).irqEn = true → (i, 8) ∈ l)) ∧
    ((p.resetN = false ∨ p.phase = .held ∨ p.now < 1000000) → (∀ code, exec (.smbusBlockRead code) s = .next s) ∧ exec .smbusAlertResponse s = .next s) ∧
    (p.resetN = true → p.phase ≠ .held → 1000000 ≤ p.now → (∀ code, exec (.smbusBlockRead code) s = .next { s with dev := { d with
        plat := { p with smbOut := d.smbBlock code } } }) ∧ (∀ code, 4 < code → d.smbBlock code = []) ∧ (d.smbBlock 0).length = 32 ∧ (d.smbBlock 1).length = 32 ∧
      (p.smbAlertLow = true → exec .smbusAlertResponse s = .next { s with dev := { d with plat := { p with smbAlertLow := false } } }) ∧
      (p.smbAlertLow = false → exec .smbusAlertResponse s = .next s))

/-! ## Firmware, life cycle, attestation and the TAP -/

/-- FW_UPDATE, FW_UPDATE_DONE and FW_SELECT (R140, R143, R494 to R497, R502, R513, R514). What signatures give is an operand, and a LEN above a
slot's 24 MiB is refused by the model (log entry 9). -/
def Obligations.FirmwareCommandsWriteSlots : Prop :=
  ∀ (s : State) (d : Dev) (p : Plat), d = s.dev → p = d.plat →
    (∀ (q : Nat) (f : PacketForm) (k : Packet) (img src len : Nat) (ok : Bool) (a : Nat), s.Admits (.fwUpdate q img src len ok) f k →
      d.host.nextCmd ≠ 0 → a = src % 2 ^ 48 →
      (((p.phase ≠ .dormant ∧ img = p.fwImage) ∨ d.cmdReadable a len = false ∨ 0x1800000 < len ∨ p.fwUpd ≠ none) →
        ∃ t : State, exec (.fwUpdate q img src len ok) s = .next t ∧ t.pending = s.pending ∧ Dev.Replied d t.dev) ∧
      ((p.phase = .dormant ∨ img ≠ p.fwImage) → d.cmdReadable a len = true → len ≤ 0x1800000 → p.fwUpd = none →
        (firstBad d.poison a len ≠ none → ∃ t : State, exec (.fwUpdate q img src len ok) s = .next t ∧ t.pending = s.pending ∧
          t.dev.plat.flash = p.flash ∧ t.dev.plat.fwUpd = none ∧ (p.faultLog.length < 64 → t.dev.plat.faultLog.length = p.faultLog.length + 1)) ∧
        (firstBad d.poison a len = none → 4096 < len → p.slotOutcome (leNat ((rdBytes d.mem a len).take 48)) (if ok then 0 else 1) = 0 →
          ∃ t : State, exec (.fwUpdate q img src len ok) s = .next t ∧ t.pending = s.pending ∧ Dev.Replied { d with plat := { p with
            fwUpd := some { cmd := d.host.nextCmd, image := img, data := rdBytes d.mem a len }
            flash := flErase p.flash (slotBase img) 0x10000 } } t.dev) ∧
        (firstBad d.poison a len = none → (len ≤ 4096 ∨ p.slotOutcome (leNat ((rdBytes d.mem a len).take 48)) (if ok then 0 else 1) ≠ 0) →
          ∃ t : State, exec (.fwUpdate q img src len ok) s = .next t ∧ t.pending = s.pending ∧ Dev.Replied d t.dev))) ∧
    (∀ (q : Nat) (f : PacketForm) (k : Packet) (img : Nat) (ok : Bool), s.Admits (.fwSelect q img ok) f k → d.host.nextCmd ≠ 0 →
      ((∀ u, p.fwUpd = some u → u.image ≠ img) → p.slotOutcome (p.slotHdr img) (if ok then 0 else 1) = 0 →
        ∃ t : State, exec (.fwSelect q img ok) s = .next t ∧ t.pending = s.pending ∧ Dev.Replied { d with plat := p.select img } t.dev) ∧
      (((∃ u, p.fwUpd = some u ∧ u.image = img) ∨ p.slotOutcome (p.slotHdr img) (if ok then 0 else 1) ≠ 0) →
        ∃ t : State, exec (.fwSelect q img ok) s = .next t ∧ t.pending = s.pending ∧ Dev.Replied d t.dev)) ∧
    (∀ ok, p.fwUpd = none → exec (.fwUpdateDone ok) s = .next s) ∧
    (∀ u, p.fwUpd = some u → u.data.length ≤ 0x1800000 → u.image < 2 →
      (∃ (t : State) (g : Tab Byte), exec (.fwUpdateDone true) s = .next t ∧ t.pending = s.pending ∧
        (p.phase ≠ .dormant → Dev.Replied { d with plat := { p with fwUpd := none, flash := g } } t.dev) ∧
        (p.phase = .dormant → Dev.Replied { d with plat := ({ p with fwUpd := none, flash := g } : Plat).select u.image } t.dev) ∧
        (∀ i b, u.data[i]? = some b → flByte g (slotBase u.image + i) = b) ∧
        (∀ a, slotBase u.image + u.data.length ≤ a → a < slotBase u.image + 0x1800000 → flByte g a = 0xFF) ∧
        (∀ a, (a < slotBase u.image ∨ slotBase u.image + 0x1800000 ≤ a) → flByte g a = flByte p.flash a)) ∧
      (∃ (t : State) (g : Tab Byte), exec (.fwUpdateDone false) s = .next t ∧ t.pending = s.pending ∧
        Dev.Replied { d with plat := { p with fwUpd := none, freeCount := p.freeCount + 1, flash := g } } t.dev ∧
        (∀ a, (a < slotBase u.image ∨ slotBase u.image + 0x1800000 ≤ a) → flByte g a = flByte p.flash a)))

/-- LIFECYCLE, ATTEST and JTAG_INSTRUCTION (R140, R143, R499, R505 to R512). What a credential's signatures give is an operand (log entry 9). -/
def Obligations.LifeCycleAndAttestationAct : Prop :=
  ∀ (s : State) (d : Dev) (p : Plat), d = s.dev → p = d.plat →
    (∀ (q : Nat) (f : PacketForm) (k : Packet) (target cred len : Nat) (ok : Bool) (seed key a hdr : Nat),
      s.Admits (.lifecycle q target cred len ok seed key) f k → d.host.nextCmd ≠ 0 → a = cred % 2 ^ 48 → hdr = rdNat d.mem a 64 →
      target ≤ 4 → d.cmdReadable a len = true → len = 64 + 5456 * signerCount (bits hdr 8 2) →
      (p.transition target = false → ∃ t : State, exec (.lifecycle q target cred len ok seed key) s = .next t ∧ t.pending = s.pending ∧ Dev.Replied d t.dev) ∧
      (p.transition target = true → firstBad d.poison a len ≠ none → ∃ t : State,
        exec (.lifecycle q target cred len ok seed key) s = .next t ∧ t.pending = s.pending ∧ t.dev.plat.otp = p.otp ∧ t.dev.planUsed = d.planUsed ∧
        t.dev.plat.lifeAt = p.lifeAt ∧ (p.faultLog.length < 64 → t.dev.plat.faultLog.length = p.faultLog.length + 1)) ∧
      (p.transition target = true → firstBad d.poison a len = none →
        ((p.credFits target hdr = false ∨ (signerCount (p.signers target) ≠ 0 ∧ ok = false)) →
          ∃ t : State, exec (.lifecycle q target cred len ok seed key) s = .next t ∧ t.pending = s.pending ∧ Dev.Replied d t.dev) ∧
        (p.credFits target hdr = true → (signerCount (p.signers target) = 0 ∨ ok = true) → ∃ t : State,
          exec (.lifecycle q target cred len ok seed key) s = .next t ∧ t.pending = s.pending ∧ t.dev.plat.lcWord = target ∧
          t.dev.planUsed = [] ∧ t.dev.cores = [] ∧ t.dev.plat.svnFloor = p.svnFloor ∧
          (∀ b, b < hostBase 0 → (∀ j, ¬ (d.host.queue j).replyByte j b) → rdByte t.dev.mem b = 0) ∧
          (target ≠ 3 → t.dev.plat.lcCount = p.lcCount + 1 ∧ t.dev.plat.attestStep = p.attestStep) ∧
          (target = 3 → t.dev.plat.lcCount = 1024 ∧ t.dev.plat.attestStep = 4096 ∧ t.dev.plat.secretSeed = 0) ∧
          (target = 4 → t.dev.plat.lcPrior = p.lcWord) ∧
          (p.phase ≠ .dormant → t.dev.plat.lifeAt = some p.now) ∧ (p.phase = .dormant → t.dev.plat.lifeAt = none)))) ∧
    (∀ (q : Nat) (f : PacketForm) (k : Packet) (nonce dest len : Nat) (sig : List Byte) (a : Nat), s.Admits (.attest q nonce dest len sig) f k →
      d.host.nextCmd ≠ 0 → a = dest % 2 ^ 48 →
      ((d.unwritable a 5652 ≠ none ∨ len < 5652 ∨ p.attestReady = false) → ∃ t : State, exec (.attest q nonce dest len sig) s = .next t ∧
        t.pending = s.pending ∧ Dev.Replied d t.dev) ∧
      (d.unwritable a 5652 = none → 5652 ≤ len → p.attestReady = true → ∃ t : State, exec (.attest q nonce dest len sig) s = .next t ∧
        t.pending = s.pending ∧ Dev.Replied { d.store a (leBytes 256 (p.report nonce) ++ sig) with plat := p.spendLeaf } t.dev)) ∧
    exec (.jtagInstruction 0) s = .next { s with dev := { d with plat := { p with jtagOut := 0x14800A1D, jtagBypass := false } } } ∧
    (∀ ir, ir ≠ 0 → (ir = 1 ∨ (p.lcWord ≠ 0 ∧ p.lcWord ≠ 4)) → exec (.jtagInstruction ir) s = .next { s with dev := { d with plat := { p with
      jtagOut := 0
      jtagBypass := true } } }) ∧
    (∀ ir, ir ≠ 0 → ir ≠ 1 → (p.lcWord = 0 ∨ p.lcWord = 4) → exec (.jtagInstruction ir) s = .refused (.jtagScan ir))
end

