-- ==== Sys2Proof/Laws/Tab.lean ====
section
/-! SUPPORT. The laws of the sparse tables: what a key reads as after a write, and that every operation keeps the canonical form. -/

namespace Sys2Proof.Machine

variable {α : Type}

/-- What keys read as after a key is set. -/
theorem Tab.get_set [DecidableEq α] (d v : α) (m : Tab α) (k j : Nat) :
    Tab.get d (Tab.set d m k v) j = if j = k then v else Tab.get d m j := by
  induction m with
  | nil => by_cases hv : v = d <;> simp [Tab.set, Tab.get, hv]
  | cons e m ih =>
    obtain ⟨k', v'⟩ := e
    simp only [Tab.set]
    split
    · rename_i h
      subst h
      split
      · rw [ih]; simp only [Tab.get]; split <;> rfl
      · simp only [Tab.get]; split <;> rfl
    · split
      · simp only [Tab.get]
      · rename_i h _
        simp only [Tab.get, ih]
        split
        · rename_i hj; subst hj; simp [Ne.symm h]
        · rfl

/-- A key reads as the value just set. -/
@[simp] theorem Tab.get_set_same [DecidableEq α] (d v : α) (m : Tab α) (k : Nat) : Tab.get d (Tab.set d m k v) k = v := by
  simp [Tab.get_set]

/-- Every other key reads as before. -/
theorem Tab.get_set_other [DecidableEq α] (d v : α) (m : Tab α) (k j : Nat) (hj : j ≠ k) :
    Tab.get d (Tab.set d m k v) j = Tab.get d m j := by
  simp [Tab.get_set, hj]

/-- What keys read as after a key is changed. -/
theorem Tab.get_upd [DecidableEq α] (d : α) (m : Tab α) (k j : Nat) (f : α → α) :
    Tab.get d (Tab.upd d m k f) j = if j = k then f (Tab.get d m k) else Tab.get d m j := Tab.get_set d _ m k j

/-- Keys above a bound stay above it. -/
theorem Tab.above_set [DecidableEq α] (d v : α) (m : Tab α) (k b : Nat) (hb : b < k) (h : Tab.above b m = true) :
    Tab.above b (Tab.set d m k v) = true := by
  induction m with
  | nil => by_cases hv : v = d <;> simp [Tab.set, Tab.above, hv, hb]
  | cons e m ih =>
    obtain ⟨k', v'⟩ := e
    simp only [Tab.above, List.all_cons, Bool.and_eq_true, decide_eq_true_eq] at h ih ⊢
    obtain ⟨h1, h2⟩ := h
    simp only [Tab.set]
    split
    · split
      · exact ih h2
      · simp only [List.all_cons, Bool.and_eq_true, decide_eq_true_eq]; exact ⟨hb, h2⟩
    · split
      · simp only [List.all_cons, Bool.and_eq_true, decide_eq_true_eq]; exact ⟨hb, h1, h2⟩
      · simp only [List.all_cons, Bool.and_eq_true, decide_eq_true_eq]; exact ⟨h1, ih h2⟩

/-- Dropping entries keeps the canonical form. -/
@[simp] theorem Tab.wf_filter [DecidableEq α] (d : α) (m : Tab α) (p : Nat × α → Bool) (h : Tab.wf d m = true) :
    Tab.wf d (m.filter p) = true := by
  induction m with
  | nil => rfl
  | cons e m ih =>
    obtain ⟨k', v'⟩ := e
    simp only [Tab.wf, Bool.and_eq_true, decide_eq_true_eq] at h
    obtain ⟨⟨hd, hab⟩, hm⟩ := h
    simp only [List.filter_cons]
    split
    · simp only [Tab.wf, Bool.and_eq_true, decide_eq_true_eq]
      refine ⟨⟨hd, ?_⟩, ih hm⟩
      simp only [Tab.above, List.all_eq_true, decide_eq_true_eq, List.mem_filter] at hab ⊢
      exact fun e he => hab e he.1
    · exact ih hm

/-- Setting a key keeps the canonical form. -/
@[simp] theorem Tab.wf_set [DecidableEq α] (d v : α) (m : Tab α) (k : Nat) (h : Tab.wf d m = true) : Tab.wf d (Tab.set d m k v) = true := by
  induction m with
  | nil => by_cases hv : v = d <;> simp [Tab.set, Tab.wf, Tab.above, hv]
  | cons e m ih =>
    obtain ⟨k', v'⟩ := e
    simp only [Tab.wf, Bool.and_eq_true, decide_eq_true_eq] at h
    obtain ⟨⟨hd, hab⟩, hm⟩ := h
    simp only [Tab.set]
    split
    · rename_i h1
      subst h1
      split
      · exact ih hm
      · rename_i hv; simp [Tab.wf, hv, hab, hm]
    · split
      · rename_i h1 h2
        have : Tab.above k m = true := by
          simp only [Tab.above, List.all_eq_true, decide_eq_true_eq] at hab ⊢
          intro e he
          have := hab e he
          omega
        simp [Tab.wf, hd, hab, hm, h2.2]
        simp only [Tab.above, List.all_cons] at this ⊢
        simp [h2.1, this]
      · rename_i h1 h2
        simp only [Tab.wf, Bool.and_eq_true, decide_eq_true_eq]
        refine ⟨⟨hd, ?_⟩, ih hm⟩
        by_cases hv : v = d
        · subst hv
          clear ih h1 h2 hm hd
          induction m with
          | nil => simp [Tab.set, Tab.above]
          | cons e m ih =>
            simp only [Tab.above, List.all_cons, Bool.and_eq_true, decide_eq_true_eq] at hab ih ⊢
            simp only [Tab.set]
            split
            · simpa using ih hab.2
            · simp only [ne_eq, not_true, and_false, if_false, List.all_cons, Bool.and_eq_true, decide_eq_true_eq]
              exact ⟨hab.1, ih hab.2⟩
        · exact Tab.above_set d v m k k' (by have := not_and.1 h2; by_contra hc; exact this (by omega) hv) hab

/-- Changing a key keeps the canonical form. -/
@[simp] theorem Tab.wf_upd [DecidableEq α] (d : α) (m : Tab α) (k : Nat) (f : α → α) (h : Tab.wf d m = true) :
    Tab.wf d (Tab.upd d m k f) = true := Tab.wf_set d _ m k h

@[simp] theorem Tab.wf_nil [DecidableEq α] (d : α) : Tab.wf d ([] : Tab α) = true := rfl

/-- A fold keeps a property that every step of it keeps. -/
theorem foldl_keeps {β γ : Type} (P : β → Prop) (f : β → γ → β) (hf : ∀ b c, P b → P (f b c)) :
    ∀ (l : List γ) (b : β), P b → P (l.foldl f b)
  | [], _, h => h
  | c :: l, b, h => foldl_keeps P f hf l (f b c) (hf b c h)

end Sys2Proof.Machine
end

