-- ==== Sys2Proof/Laws/Sound.lean ====
section
/-! SUPPORT. What soundness of a device asks of its parts, and that the operations on memory, parity, counters and the
fault log keep it. -/

namespace Sys2Proof.Machine

@[simp] theorem Dev.Sound.mem_wf {d : Dev} (h : d.Sound) : Memory.wf d.mem = true := h.mem
@[simp] theorem Dev.Sound.poison_wf {d : Dev} (h : d.Sound) : Poison.wf d.poison = true := h.poison
@[simp] theorem Dev.Sound.ctr_wf {d : Dev} (h : d.Sound) : Counters.wf d.ctr = true := h.ctr
@[simp] theorem Dev.Sound.log_ok {d : Dev} (h : d.Sound) : LogOk d.plat.faultLog d.plat.faultLost := h.log

/-- Soundness of a device is soundness of its memory, parity, counters and fault log; no other field matters. -/
@[simp] theorem Dev.sound_mk (plat host cad pow mem poison ctr plans planUsed pods cores cob ing enc mov obs) :
    (Dev.mk plat host cad pow mem poison ctr plans planUsed pods cores cob ing enc mov obs).Sound ↔
      LogOk plat.faultLog plat.faultLost ∧ Memory.wf mem = true ∧ Poison.wf poison = true ∧ Counters.wf ctr = true :=
  ⟨fun h => ⟨h.log, h.mem, h.poison, h.ctr⟩, fun h => ⟨h.2.1, h.2.2.1, h.2.2.2, h.1⟩⟩

/-- The cells of a platform, put together again. -/
@[simp] theorem Plat.otp_eta (p : Plat) :
    (⟨p.lcWord, p.lcPrior, p.lcCount, p.svnFloor, p.customerKey, p.secretSeed, p.attestStep⟩ : Otp) = p.otp := rfl

/-- The cells of a platform given field by field. -/
@[simp] theorem Plat.otp_mk (now powerMark stageMark phase d2dDone gddrDone fullStart resetN pwrGood brakeN aonUp thermAlertLow smbAlertLow
    smbOut jtagOut jtagBypass bootAttempts lastReason dormantReason faultCode faultTime imgA imgB fwLoaded serial
    fwVersion fwImage fwSvn fwCommit fwDigest retired podDevices cobDevices density gddrRate alertTemp opTable
    lcWord lcPrior lcCount svnFloor failLimit customerKey secretSeed attestStep attestReady attestTree attestLeaf
    attestActive flash fwUpd resetAt lifeAt faultLog faultLost freeCount) :
    (Plat.mk now powerMark stageMark phase d2dDone gddrDone fullStart resetN pwrGood brakeN aonUp thermAlertLow smbAlertLow
    smbOut jtagOut jtagBypass bootAttempts lastReason dormantReason faultCode faultTime imgA imgB fwLoaded serial
    fwVersion fwImage fwSvn fwCommit fwDigest retired podDevices cobDevices density gddrRate alertTemp opTable
    lcWord lcPrior lcCount svnFloor failLimit customerKey secretSeed attestStep attestReady attestTree attestLeaf
    attestActive flash fwUpd resetAt lifeAt faultLog faultLost freeCount).otp = ⟨lcWord, lcPrior, lcCount, svnFloor, customerKey, secretSeed, attestStep⟩ := rfl

theorem Otp.Step.refl (o : Otp) : o.Step o := fun h => ⟨h, ⟨Nat.le_refl _, Nat.le_refl _, Nat.le_refl _, id⟩⟩

theorem Otp.Step.trans {a b c : Otp} (h : a.Step b) (h' : b.Step c) : a.Step c := fun ha =>
  have ⟨hb, f⟩ := h ha
  have ⟨hc, g⟩ := h' hb
  ⟨hc, ⟨f.1.trans g.1, f.2.trans g.2, f.3.trans g.3, fun x => g.4 (f.4 x)⟩⟩

theorem Otp.Step.of_eq {a b : Otp} (h : b = a) : a.Step b := h ▸ Otp.Step.refl a

/-- A log with nothing in it is in order. -/
@[simp] theorem logOk_nil : LogOk [] 0 := by simp [LogOk]

/-- Logging keeps the log in order. -/
@[simp] theorem Plat.log_ok (p : Plat) (r : FaultRec) (h : LogOk p.faultLog p.faultLost) :
    LogOk (p.log r).faultLog (p.log r).faultLost := by
  unfold Plat.log
  obtain ⟨h1, h2⟩ := h
  split
  · refine ⟨by simp; omega, fun h => ?_⟩
    have := h2 h
    omega
  · exact ⟨h1, fun _ => by simp only; omega⟩

/-- Logging leaves the cells alone. -/
@[simp] theorem Plat.log_otp (p : Plat) (r : FaultRec) : (p.log r).otp = p.otp := by
  unfold Plat.log
  split <;> rfl

/-! ## Memory -/

@[simp] theorem wf_wrBytes (m : Tab Byte) (a : Nat) (bs : List Byte) (h : Memory.wf m = true) : Memory.wf (wrBytes m a bs) = true := by
  induction bs generalizing m a with
  | nil => exact h
  | cons b bs ih => exact ih _ _ (Tab.wf_set 0 b m a h)

@[simp] theorem wf_wrNat (m : Tab Byte) (a n v : Nat) (h : Memory.wf m = true) : Memory.wf (wrNat m a n v) = true := wf_wrBytes m a _ h

@[simp] theorem wf_wipeRange (m : Tab Byte) (a n : Nat) (h : Memory.wf m = true) : Memory.wf (wipeRange m a n) = true := Tab.wf_filter 0 m _ h

@[simp] theorem wf_setBad (p : Tab Bool) (a : Nat) (bad : Bool) (n : Nat) (h : Poison.wf p = true) : Poison.wf (setBad p a bad n) = true := by
  induction n generalizing p a with
  | zero => exact h
  | succ n ih => exact ih _ _ (Tab.wf_set false bad p a h)

@[simp] theorem wf_flipBad (p : Tab Bool) (flips : List Nat) (h : Poison.wf p = true) : Poison.wf (flipBad p flips) = true :=
  foldl_keeps (fun q => Poison.wf q = true) _ (fun b a hb => Tab.wf_set false true b a hb) flips p h

@[simp] theorem wf_wipeBad (p : Tab Bool) (a n : Nat) (h : Poison.wf p = true) : Poison.wf (wipeBad p a n) = true := Tab.wf_filter false p _ h

@[simp] theorem wf_bump (c : Tab Nat) (inst kind n : Nat) (h : Counters.wf c = true) : Counters.wf (bump c inst kind n) = true := Tab.wf_set 0 _ c _ h

@[simp] theorem wf_wrEntries (m : Tab Byte) (k : Queue) (i : Nat) (es : List Nat) (h : Memory.wf m = true) : Memory.wf (wrEntries m k i es) = true := by
  induction es generalizing m i with
  | nil => exact h
  | cons e es ih => exact ih _ _ (wf_wrNat m _ 16 e h)

/-! ## The workspace of an operation -/

/-- Memory and parity of a workspace stand in canonical form. -/
structure Wk.Ok (w : Wk) : Prop where
  mem : Memory.wf w.mem = true
  poison : Poison.wf w.poison = true

@[simp] theorem Wk.Ok.mem_wf {w : Wk} (h : w.Ok) : Memory.wf w.mem = true := h.mem
@[simp] theorem Wk.Ok.poison_wf {w : Wk} (h : w.Ok) : Poison.wf w.poison = true := h.poison

@[simp] theorem Wk.ok_mk (mem poison bad errs cnt pz gradNF free flaws die) :
    (Wk.mk mem poison bad errs cnt pz gradNF free flaws die).Ok ↔ Memory.wf mem = true ∧ Poison.wf poison = true :=
  ⟨fun h => ⟨h.mem, h.poison⟩, fun h => ⟨h.1, h.2⟩⟩

theorem ok_ite {c : Prop} [Decidable c] {a b : Wk} (ha : a.Ok) (hb : b.Ok) : (if c then a else b).Ok := by split <;> assumption

theorem ok_ite2 {α : Type} {c : Prop} [Decidable c] {a b : α × Wk} (ha : a.2.Ok) (hb : b.2.Ok) : (if c then a else b).2.Ok := by
  split <;> assumption

@[simp] theorem ok_ite_iff {c : Prop} [Decidable c] {a b : Wk} : (if c then a else b).Ok ↔ (c → a.Ok) ∧ (¬c → b.Ok) := by
  split <;> simp [*]

@[simp] theorem ok_ite2_iff {α : Type} {c : Prop} [Decidable c] {a b : α × Wk} : (if c then a else b).2.Ok ↔ (c → a.2.Ok) ∧ (¬c → b.2.Ok) := by
  split <;> simp [*]

theorem ok_foldl {β : Type} (f : Wk → β → Wk) (l : List β) (w : Wk) (hf : ∀ w x, w.Ok → (f w x).Ok) (h : w.Ok) : (l.foldl f w).Ok :=
  foldl_keeps Wk.Ok f hf l w h

theorem ok_foldl2 {α β : Type} (f : α × Wk → β → α × Wk) (l : List β) (w : α × Wk) (hf : ∀ w x, w.2.Ok → (f w x).2.Ok) (h : w.2.Ok) :
    (l.foldl f w).2.Ok := foldl_keeps (fun w => w.2.Ok) f hf l w h

theorem ok_foldr2 {α β : Type} (f : β → α × Wk → α × Wk) (l : List β) (w : α × Wk) (hf : ∀ w x, w.2.Ok → (f x w).2.Ok) (h : w.2.Ok) :
    (l.foldr f w).2.Ok := by
  induction l with
  | nil => exact h
  | cons x l ih => exact hf _ x ih

/-! ## Choices -/

@[simp] theorem sound_ite_iff {c : Prop} [Decidable c] {a b : Dev} : (if c then a else b).Sound ↔ (c → a.Sound) ∧ (¬c → b.Sound) := by
  split <;> simp [*]

theorem sound_ite {c : Prop} [Decidable c] {a b : Dev} (ha : a.Sound) (hb : b.Sound) : (if c then a else b).Sound := by
  split <;> assumption

@[simp] theorem otp_ite_eq {c : Prop} [Decidable c] {a b : Dev} :
    (if c then a else b).plat.otp = if c then a.plat.otp else b.plat.otp := by
  split <;> rfl

theorem otp_ite {c : Prop} [Decidable c] {a b : Dev} {o : Otp} (ha : a.plat.otp = o) (hb : b.plat.otp = o) :
    (if c then a else b).plat.otp = o := by
  split <;> assumption

@[simp] theorem memory_ite {c : Prop} [Decidable c] {a b : Tab Byte} :
    Memory.wf (if c then a else b) = true ↔ (c → Memory.wf a = true) ∧ (¬c → Memory.wf b = true) := by
  split <;> simp [*]

@[simp] theorem poison_ite {c : Prop} [Decidable c] {a b : Tab Bool} :
    Poison.wf (if c then a else b) = true ↔ (c → Poison.wf a = true) ∧ (¬c → Poison.wf b = true) := by
  split <;> simp [*]

@[simp] theorem counters_ite {c : Prop} [Decidable c] {a b : Tab Nat} :
    Counters.wf (if c then a else b) = true ↔ (c → Counters.wf a = true) ∧ (¬c → Counters.wf b = true) := by
  split <;> simp [*]

/-- What a device derived from a sound one is: its unnamed fields do not matter. -/
theorem Dev.Sound.of_eq {d e : Dev} (h : d.Sound) (h1 : e.mem = d.mem) (h2 : e.poison = d.poison) (h3 : e.ctr = d.ctr)
    (h4 : e.plat = d.plat) : e.Sound := ⟨h1 ▸ h.mem, h2 ▸ h.poison, h3 ▸ h.ctr, h4 ▸ h.log⟩

/-! ## Folds over a device -/

theorem memory_foldl {β : Type} (f : Tab Byte → β → Tab Byte) (l : List β) (m : Tab Byte)
    (hf : ∀ m x, Memory.wf m = true → Memory.wf (f m x) = true) (h : Memory.wf m = true) : Memory.wf (l.foldl f m) = true :=
  foldl_keeps (fun m => Memory.wf m = true) f hf l m h

theorem counters_foldl {β : Type} (f : Tab Nat → β → Tab Nat) (l : List β) (c : Tab Nat)
    (hf : ∀ c x, Counters.wf c = true → Counters.wf (f c x) = true) (h : Counters.wf c = true) : Counters.wf (l.foldl f c) = true :=
  foldl_keeps (fun c => Counters.wf c = true) f hf l c h

/-- A fold whose steps keep a device sound keeps it sound. -/
theorem sound_foldl {β : Type} (f : Dev → β → Dev) (l : List β) (d : Dev) (hf : ∀ d x, d.Sound → (f d x).Sound) (h : d.Sound) :
    (l.foldl f d).Sound := foldl_keeps Dev.Sound f hf l d h

theorem sound_foldl1 {α β : Type} (f : Dev × α → β → Dev × α) (l : List β) (x : Dev × α) (hf : ∀ x y, x.1.Sound → (f x y).1.Sound)
    (h : x.1.Sound) : (l.foldl f x).1.Sound := foldl_keeps (fun x => x.1.Sound) f hf l x h

theorem otp_foldl1 {α β : Type} (f : Dev × α → β → Dev × α) (l : List β) (x : Dev × α) (hf : ∀ x y, (f x y).1.plat.otp = x.1.plat.otp) :
    (l.foldl f x).1.plat.otp = x.1.plat.otp :=
  foldl_keeps (fun e => e.1.plat.otp = x.1.plat.otp) f (fun e y he => (hf e y).trans he) l x rfl

@[simp] theorem sound_ite1_iff {α : Type} {c : Prop} [Decidable c] {a b : Dev × α} :
    (if c then a else b).1.Sound ↔ (c → a.1.Sound) ∧ (¬c → b.1.Sound) := by
  split <;> simp [*]

@[simp] theorem otp_ite1_eq {α : Type} {c : Prop} [Decidable c] {a b : Dev × α} :
    (if c then a else b).1.plat.otp = if c then a.1.plat.otp else b.1.plat.otp := by
  split <;> rfl

/-- A fold whose steps leave the cells alone leaves them alone. -/
theorem otp_foldl {β : Type} (f : Dev → β → Dev) (l : List β) (d : Dev) (hf : ∀ d x, (f d x).plat.otp = d.plat.otp) :
    (l.foldl f d).plat.otp = d.plat.otp :=
  foldl_keeps (fun e => e.plat.otp = d.plat.otp) f (fun e x he => (hf e x).trans he) l d rfl

end Sys2Proof.Machine
end

