-- ==== Sys2Proof/Laws/KeepWork.lean ====
section
/-! SUPPORT. The arithmetic operations keep their workspace in canonical form. -/

namespace Sys2Proof.Machine

/-! ## Ops -/

@[simp] theorem Dev.put_sound (d : Dev) (a : Nat) (bs : List Byte) (bad : Bool) (hs : d.Sound) : (Dev.put d a bs bad).Sound := by
  unfold Dev.put; simp (maxDischargeDepth := 12) [*]

@[simp] theorem Dev.put_otp (d : Dev) (a : Nat) (bs : List Byte) (bad : Bool) : (Dev.put d a bs bad).plat.otp = d.plat.otp := by
  unfold Dev.put; simp (maxDischargeDepth := 12) [*]

@[simp] theorem Dev.store_sound (d : Dev) (a : Nat) (bs : List Byte) (hs : d.Sound) : (Dev.store d a bs).Sound := by
  unfold Dev.store; simp (maxDischargeDepth := 12) [*]

@[simp] theorem Dev.store_otp (d : Dev) (a : Nat) (bs : List Byte) : (Dev.store d a bs).plat.otp = d.plat.otp := by
  unfold Dev.store; simp (maxDischargeDepth := 12) [*]

@[simp] theorem Dev.storeNat_sound (d : Dev) (a : Nat) (n : Nat) (v : Nat) (hs : d.Sound) : (Dev.storeNat d a n v).Sound := by
  unfold Dev.storeNat; simp (maxDischargeDepth := 12) [*]

@[simp] theorem Dev.storeNat_otp (d : Dev) (a : Nat) (n : Nat) (v : Nat) : (Dev.storeNat d a n v).plat.otp = d.plat.otp := by
  unfold Dev.storeNat; simp (maxDischargeDepth := 12) [*]

@[simp] theorem Dev.count_sound (d : Dev) (inst : Nat) (kind : Nat) (n : Nat) (hs : d.Sound) : (Dev.count d inst kind n).Sound := by
  unfold Dev.count; simp (maxDischargeDepth := 12) [*]

@[simp] theorem Dev.count_otp (d : Dev) (inst : Nat) (kind : Nat) (n : Nat) : (Dev.count d inst kind n).plat.otp = d.plat.otp := by
  unfold Dev.count; simp (maxDischargeDepth := 12) [*]

@[simp] theorem Dev.updBuf_sound (d : Dev) (b : Nat) (f : TraceBuf → TraceBuf) (hs : d.Sound) : (Dev.updBuf d b f).Sound := by
  unfold Dev.updBuf; simp (maxDischargeDepth := 12) [*]

@[simp] theorem Dev.updBuf_otp (d : Dev) (b : Nat) (f : TraceBuf → TraceBuf) : (Dev.updBuf d b f).plat.otp = d.plat.otp := by
  unfold Dev.updBuf; simp (maxDischargeDepth := 12) [*]

@[simp] theorem Dev.dropFor_sound (d : Dev) (b : Nat) (hs : d.Sound) : (Dev.dropFor d b).Sound := by
  unfold Dev.dropFor; simp (maxDischargeDepth := 12) [*]

@[simp] theorem Dev.dropFor_otp (d : Dev) (b : Nat) : (Dev.dropFor d b).plat.otp = d.plat.otp := by
  unfold Dev.dropFor; simp (maxDischargeDepth := 12) [*]

@[simp] theorem Dev.dropRec_sound (d : Dev) (bs : List Nat) (hs : d.Sound) : (Dev.dropRec d bs).Sound := by
  unfold Dev.dropRec; (repeat' (first
    | assumption
    | (simp (maxDischargeDepth := 12) [*]; done)
    | with_reducible refine sound_ite ?_ ?_
    | split
    | with_reducible refine sound_foldl _ _ _ (fun _ _ _ => ?_) ?_))

@[simp] theorem Dev.dropRec_otp (d : Dev) (bs : List Nat) : (Dev.dropRec d bs).plat.otp = d.plat.otp := by
  unfold Dev.dropRec; (repeat' (first
    | assumption
    | (simp (maxDischargeDepth := 12) [*]; done)
    | with_reducible refine otp_ite ?_ ?_
    | split
    | with_reducible refine otp_foldl _ _ _ (fun _ _ => ?_)
    | with_reducible refine Eq.trans (otp_foldl _ _ _ (fun _ _ => ?_)) ?_))

@[simp] theorem Dev.trace_sound (d : Dev) (type : Nat) (die : Nat) (unit : Nat) (id : Nat) (arg0 : Nat) (arg1 : Nat) (hs : d.Sound) :
    (Dev.trace d type die unit id arg0 arg1).Sound := by
  unfold Dev.trace; (repeat' split) <;> simp (maxDischargeDepth := 12) [*]

@[simp] theorem Dev.trace_otp (d : Dev) (type : Nat) (die : Nat) (unit : Nat) (id : Nat) (arg0 : Nat) (arg1 : Nat) :
    (Dev.trace d type die unit id arg0 arg1).plat.otp = d.plat.otp := by
  unfold Dev.trace; (repeat' split) <;> simp (maxDischargeDepth := 12) [*]

@[simp] theorem Dev.traceFault_sound (d : Dev) (r : FaultRec) (hs : d.Sound) : (Dev.traceFault d r).Sound := by
  unfold Dev.traceFault; simp (maxDischargeDepth := 12) [*]

@[simp] theorem Dev.traceFault_otp (d : Dev) (r : FaultRec) : (Dev.traceFault d r).plat.otp = d.plat.otp := by
  unfold Dev.traceFault; simp (maxDischargeDepth := 12) [*]

@[simp] theorem Dev.parity_sound (d : Dev) (inst : Nat) (r : FaultRec) (hs : d.Sound) : (Dev.parity d inst r).Sound := by
  unfold Dev.parity; simp (maxDischargeDepth := 12) [*]

@[simp] theorem Dev.parity_otp (d : Dev) (inst : Nat) (r : FaultRec) : (Dev.parity d inst r).plat.otp = d.plat.otp := by
  unfold Dev.parity; simp (maxDischargeDepth := 12) [*]


/-! ## Operands -/

@[simp] theorem Wk.count_sound (w : Wk) (kind : Nat) (n : Nat) (hw : w.Ok) : (Wk.count w kind n).Ok := by
  unfold Wk.count; simp (maxDischargeDepth := 12) [*]

@[simp] theorem Wk.meet_sound (w : Wk) (hit : Nat → Bool) (hw : w.Ok) : (Wk.meet w hit).2.Ok := by
  unfold Wk.meet; (repeat' (first
    | assumption
    | (simp (maxDischargeDepth := 12) [*]; done)
    | with_reducible refine ok_ite ?_ ?_
    | with_reducible refine ok_ite2 ?_ ?_
    | with_reducible refine ok_foldl _ _ _ (fun _ _ _ => ?_) ?_
    | with_reducible refine ok_foldl2 _ _ _ (fun _ _ _ => ?_) ?_
    | with_reducible refine ok_foldr2 _ _ _ (fun _ _ _ => ?_) ?_
    | with_reducible refine Wk.mapM_ok _ _ _ (fun _ _ _ => ?_) ?_
    | (simp only [Wk.ok_mk]; refine ⟨?_, ?_⟩)
    | split))

@[simp] theorem Wk.fault_sound (w : Wk) (es : List Nat) (hw : w.Ok) : (Wk.fault w es).Ok := by
  unfold Wk.fault; (repeat' (first
    | assumption
    | (simp (maxDischargeDepth := 12) [*]; done)
    | with_reducible refine ok_ite ?_ ?_
    | with_reducible refine ok_ite2 ?_ ?_
    | with_reducible refine ok_foldl _ _ _ (fun _ _ _ => ?_) ?_
    | with_reducible refine ok_foldl2 _ _ _ (fun _ _ _ => ?_) ?_
    | with_reducible refine ok_foldr2 _ _ _ (fun _ _ _ => ?_) ?_
    | with_reducible refine Wk.mapM_ok _ _ _ (fun _ _ _ => ?_) ?_
    | (simp only [Wk.ok_mk]; refine ⟨?_, ?_⟩)
    | split))

@[simp] theorem Wk.read_sound (w : Wk) (a : Nat) (n : Nat) (hw : w.Ok) : (Wk.read w a n).2.Ok := by
  unfold Wk.read; (repeat' (first
    | assumption
    | (simp (maxDischargeDepth := 12) [*]; done)))

@[simp] theorem Wk.write_sound (w : Wk) (a : Nat) (bs : List Byte) (hw : w.Ok) : (Wk.write w a bs).Ok := by
  unfold Wk.write
  dsimp only
  refine Wk.fault_sound _ _ ?_
  have h : (if w.flaws = [] then (([] : List Nat), w) else w.meet (fun f => flawKind f != 0 && flawHits w.die a bs.length f)).2.Ok :=
    ok_ite2 hw (Wk.meet_sound _ _ hw)
  exact (Wk.ok_mk ..).2 ⟨memory_foldl _ _ _ (fun _ _ h => Tab.wf_set 0 _ _ _ h) (wf_wrBytes _ _ _ h.mem),
    wf_flipBad _ _ (wf_setBad _ _ _ _ h.poison)⟩

@[simp] theorem Wk.readLine_sound (w : Wk) (a : Nat) (lb : Nat) (t : Nat) (hw : w.Ok) : (Wk.readLine w a lb t).2.Ok := by
  unfold Wk.readLine; (repeat' (first
    | assumption
    | (simp (maxDischargeDepth := 12) [*]; done)
    | with_reducible refine ok_ite ?_ ?_
    | with_reducible refine ok_ite2 ?_ ?_
    | with_reducible refine ok_foldl _ _ _ (fun _ _ _ => ?_) ?_
    | with_reducible refine ok_foldl2 _ _ _ (fun _ _ _ => ?_) ?_
    | with_reducible refine ok_foldr2 _ _ _ (fun _ _ _ => ?_) ?_
    | with_reducible refine Wk.mapM_ok _ _ _ (fun _ _ _ => ?_) ?_
    | (simp only [Wk.ok_mk]; refine ⟨?_, ?_⟩)
    | split))

@[simp] theorem Wk.readLines_sound (w : Wk) (a lb t0 k : Nat) (hw : w.Ok) : (w.readLines a lb t0 k).2.Ok := by
  induction k generalizing w t0 with
  | zero => exact hw
  | succ k ih => exact ih _ _ (Wk.readLine_sound w a lb t0 hw)

@[simp] theorem Wk.readPart_sound (w : Wk) (a : Nat) (lb : Nat) (comp : Bool) (s : Nat) (n : Nat) (hw : w.Ok) :
    (Wk.readPart w a lb comp s n).2.Ok := by
  unfold Wk.readPart; simp (maxDischargeDepth := 12) [*]

@[simp] theorem Wk.writeLine_sound (w : Wk) (a : Nat) (lb : Nat) (t : Nat) (x : List Byte) (hw : w.Ok) : (Wk.writeLine w a lb t x).Ok := by
  unfold Wk.writeLine; simp (maxDischargeDepth := 12) [*]

@[simp] theorem Wk.writePart_sound (w : Wk) (a : Nat) (lb : Nat) (comp : Bool) (s : Nat) (bs : List Byte) (hw : w.Ok) :
    (Wk.writePart w a lb comp s bs).Ok := by
  unfold Wk.writePart
  dsimp only
  have := ok_foldl (fun w i => w.writeLine a lb (s / 256 + i) ((bs.drop (256 * i)).take 256)) (List.range (ceilDiv bs.length 256)) w
    (fun w i h => Wk.writeLine_sound w _ _ _ _ h) hw
  simp (maxDischargeDepth := 12) [hw, this]

@[simp] theorem Wk.readRow_sound (w : Wk) (fw : Nat) (a : Nat) (sa : Nat) (n : Nat) (comp : Bool) (k0 : Nat) (m : Nat) (hw : w.Ok) :
    (Wk.readRow w fw a sa n comp k0 m).2.Ok := by
  unfold Wk.readRow; simp (maxDischargeDepth := 12) [*]

@[simp] theorem Wk.readRuns_sound (w : Wk) (a : Nat) (lb : Nat) (comp : Bool) (runs : List (Nat × Nat)) (hw : w.Ok) :
    (Wk.readRuns w a lb comp runs).2.Ok := by
  unfold Wk.readRuns; (repeat' (first
    | assumption
    | (simp (maxDischargeDepth := 12) [*]; done)
    | with_reducible refine ok_ite ?_ ?_
    | with_reducible refine ok_ite2 ?_ ?_
    | with_reducible refine ok_foldl _ _ _ (fun _ _ _ => ?_) ?_
    | with_reducible refine ok_foldl2 _ _ _ (fun _ _ _ => ?_) ?_))

@[simp] theorem Wk.readElems_sound (w : Wk) (fw : Nat) (a : Nat) (sa : Nat) (n : Nat) (comp : Bool) (runs : List (Nat × Nat)) (hw : w.Ok) :
    (Wk.readElems w fw a sa n comp runs).2.Ok := by
  unfold Wk.readElems; simp (maxDischargeDepth := 12) [*]

@[simp] theorem Wk.convRow_sound (w : Wk) (fw : Nat) (s : Site) (n0 : Nat) (ys : List XR) (hw : w.Ok) : (Wk.convRow w fw s n0 ys).2.2.Ok := by
  unfold Wk.convRow; (repeat' (first
    | assumption
    | (simp (maxDischargeDepth := 12) [*]; done)
    | with_reducible refine ok_ite ?_ ?_
    | with_reducible refine ok_ite2 ?_ ?_
    | with_reducible refine ok_foldl _ _ _ (fun _ _ _ => ?_) ?_
    | with_reducible refine ok_foldl2 _ _ _ (fun _ _ _ => ?_) ?_
    | with_reducible refine ok_foldr2 _ _ _ (fun _ _ _ => ?_) ?_
    | with_reducible refine Wk.mapM_ok _ _ _ (fun _ _ _ => ?_) ?_
    | (simp only [Wk.ok_mk]; refine ⟨?_, ?_⟩)
    | split))

@[simp] theorem Wk.storeRow_sound (w : Wk) (fw : Nat) (a : Nat) (sa : Nat) (n : Nat) (comp : Bool) (s : Site) (n0 : Nat) (j0 : Nat) (ys : List XR) (hw : w.Ok) :
    (Wk.storeRow w fw a sa n comp s n0 j0 ys).Ok := by
  unfold Wk.storeRow; simp (maxDischargeDepth := 12) [*]


/-! ## MatOps -/

theorem Wk.mapM_ok {α β : Type} (f : Wk → α → β × Wk) (l : List α) (w : Wk) (hf : ∀ w x, w.Ok → (f w x).2.Ok) (hw : w.Ok) :
    (w.mapM f l).2.Ok := by
  induction l generalizing w with
  | nil => exact hw
  | cons x l ih => exact ih _ (hf w x hw)

@[simp] theorem Wk.pixel_sound (w : Wk) (d : Nat) (b : Nat) (y : Nat) (x : Nat) (hw : w.Ok) : (Wk.pixel w d b y x).2.Ok := by
  unfold Wk.pixel; simp (maxDischargeDepth := 12) [*]

@[simp] theorem Wk.leftRow_sound (w : Wk) (d : Nat) (b : Nat) (i : Nat) (hw : w.Ok) : (Wk.leftRow w d b i).2.Ok := by
  unfold Wk.leftRow; (repeat' (first
    | assumption
    | (simp (maxDischargeDepth := 12) [*]; done)
    | with_reducible refine ok_ite ?_ ?_
    | with_reducible refine ok_ite2 ?_ ?_
    | with_reducible refine ok_foldl _ _ _ (fun _ _ _ => ?_) ?_
    | with_reducible refine ok_foldl2 _ _ _ (fun _ _ _ => ?_) ?_
    | with_reducible refine ok_foldr2 _ _ _ (fun _ _ _ => ?_) ?_
    | with_reducible refine Wk.mapM_ok _ _ _ (fun _ _ _ => ?_) ?_
    | (simp only [Wk.ok_mk]; refine ⟨?_, ?_⟩)
    | split))

@[simp] theorem Wk.rightRow_sound (w : Wk) (d : Nat) (b : Nat) (j : Nat) (hw : w.Ok) : (Wk.rightRow w d b j).2.Ok := by
  unfold Wk.rightRow; simp (maxDischargeDepth := 12) [*]

@[simp] theorem Wk.refA_sound (w : Wk) (d : Nat) (b : Nat) (i : Nat) (segs : List Seg) (hw : w.Ok) : (Wk.refA w d b i segs).2.Ok := by
  unfold Wk.refA; (repeat' (first
    | assumption
    | (simp (maxDischargeDepth := 12) [*]; done)
    | with_reducible refine ok_ite ?_ ?_
    | with_reducible refine ok_ite2 ?_ ?_
    | with_reducible refine ok_foldl _ _ _ (fun _ _ _ => ?_) ?_
    | with_reducible refine ok_foldl2 _ _ _ (fun _ _ _ => ?_) ?_
    | with_reducible refine ok_foldr2 _ _ _ (fun _ _ _ => ?_) ?_
    | with_reducible refine Wk.mapM_ok _ _ _ (fun _ _ _ => ?_) ?_
    | (simp only [Wk.ok_mk]; refine ⟨?_, ?_⟩)
    | split))

@[simp] theorem Wk.refB_sound (w : Wk) (d : Nat) (b : Nat) (j : Nat) (r : Row) (hw : w.Ok) : (Wk.refB w d b j r).2.Ok := by
  unfold Wk.refB; simp (maxDischargeDepth := 12) [*]

@[simp] theorem Wk.words_sound (w : Wk) (a : Nat) (n : Nat) (hw : w.Ok) : (Wk.words w a n).2.Ok := by
  unfold Wk.words; simp (maxDischargeDepth := 12) [*]

@[simp] theorem Wk.startRow_sound (w : Wk) (d : Nat) (g : Nat) (at_ : Nat) (b : Nat) (i : Nat) (r : Nat) (j0 : Nat) (m : Nat) (hw : w.Ok) :
    (Wk.startRow w d g at_ b i r j0 m).2.Ok := by
  unfold Wk.startRow; simp (maxDischargeDepth := 12) [*]

@[simp] theorem Wk.storeAcc_sound (w : Wk) (d : Nat) (g : Nat) (at_ : Nat) (rows : List (List Nat)) (hw : w.Ok) :
    (Wk.storeAcc w d g at_ rows).Ok := by
  unfold Wk.storeAcc; (repeat' (first
    | assumption
    | (simp (maxDischargeDepth := 12) [*]; done)
    | with_reducible refine ok_ite ?_ ?_
    | with_reducible refine ok_ite2 ?_ ?_
    | with_reducible refine ok_foldl _ _ _ (fun _ _ _ => ?_) ?_))

@[simp] theorem Wk.rightRows_sound (w : Wk) (d : Nat) (b : Nat) (tm : Nat) (tn : Nat) (m : Nat) (hw : w.Ok) : (Wk.rightRows w d b tm tn m).2.Ok := by
  unfold Wk.rightRows
  dsimp only
  exact ok_ite hw (Wk.mapM_ok _ _ _ (fun w j h => Wk.rightRow_sound w d b _ h) hw)

@[simp] theorem Wk.productTile_sound (w : Wk) (d : Nat) (g : Nat) (b : Nat) (tm : Nat) (tn : Nat) (q : Nat) (hw : w.Ok) :
    (Wk.productTile w d g b tm tn q).2.Ok := by
  unfold Wk.productTile
  extract_lets at_ rows m
  have h1 := Wk.rightRows_sound w d b tm tn m hw
  generalize w.rightRows d b tm tn m = x1 at h1
  obtain ⟨cols, w1⟩ := x1
  have h2 := Wk.mapM_ok (fun w i => w.leftRow d b i) rows w1 (fun w i h => Wk.leftRow_sound w d b i h) h1
  dsimp only
  generalize w1.mapM (fun w i => w.leftRow d b i) rows = x2 at h2 ⊢
  obtain ⟨lefts, w2⟩ := x2
  have h3 := Wk.mapM_ok (fun w i => w.startRow d g at_ b i (i - 64 * tm) (64 * tn) m) rows w2
    (fun w i h => Wk.startRow_sound w d g at_ b i _ _ m h) h2
  dsimp only at h2 h3 ⊢
  generalize w2.mapM (fun w i => w.startRow d g at_ b i (i - 64 * tm) (64 * tn) m) rows = x3 at h3 ⊢
  obtain ⟨starts, w3⟩ := x3
  dsimp only at h3 ⊢
  split
  · have h4 : ∀ x : Wk, x.Ok → ∀ n, ((((x.mapM (fun w x => w.refA d b x.1 x.2) (rows.zip lefts)).2.mapM
        (fun w x => w.refB d b (64 * tn + x.1) x.2) ((List.range m).zip cols)).2).count 0x06 n).Ok := fun x hx n =>
      Wk.count_sound _ _ _ (Wk.mapM_ok _ _ _ (fun w y h => Wk.refB_sound _ _ _ _ _ h)
        (Wk.mapM_ok _ _ _ (fun w y h => Wk.refA_sound _ _ _ _ _ h) hx))
    exact (Wk.ok_mk ..).2 ⟨(h4 _ (by simp (maxDischargeDepth := 12) [h3]) _).mem, (h4 _ (by simp (maxDischargeDepth := 12) [h3]) _).poison⟩
  · simp (maxDischargeDepth := 12) [h3]

@[simp] theorem Wk.combineTile_sound (w : Wk) (d : Nat) (g : Nat) (b : Nat) (tm : Nat) (tn : Nat) (q : Nat) (hw : w.Ok) :
    (Wk.combineTile w d g b tm tn q).2.Ok := by
  unfold Wk.combineTile
  dsimp only
  refine ok_ite2 ?_ ?_
  · refine Wk.read_sound _ _ _ (Wk.read_sound _ _ _ (Wk.mapM_ok _ _ _ (fun w x h => Wk.read_sound _ _ _ h)
      (Wk.count_sound _ _ _ (Wk.storeAcc_sound _ _ _ _ _ (Wk.mapM_ok _ _ _ (fun w x h =>
        Wk.mapM_ok _ _ _ (fun w y h => Wk.words_sound _ _ _ h) h) hw)))))
  · exact Wk.count_sound _ _ _ (Wk.storeAcc_sound _ _ _ _ _ (Wk.mapM_ok _ _ _ (fun w x h =>
        Wk.mapM_ok _ _ _ (fun w y h => Wk.words_sound _ _ _ h) h) hw))

@[simp] theorem Wk.winoTile_sound (w : Wk) (d : Nat) (b : Nat) (t : Nat) (hw : w.Ok) : (Wk.winoTile w d b t).2.Ok := by
  unfold Wk.winoTile; (repeat' (first
    | assumption
    | (simp (maxDischargeDepth := 12) [*]; done)
    | with_reducible refine ok_ite ?_ ?_
    | with_reducible refine ok_ite2 ?_ ?_
    | with_reducible refine ok_foldl _ _ _ (fun _ _ _ => ?_) ?_
    | with_reducible refine ok_foldl2 _ _ _ (fun _ _ _ => ?_) ?_
    | with_reducible refine ok_foldr2 _ _ _ (fun _ _ _ => ?_) ?_
    | with_reducible refine Wk.mapM_ok _ _ _ (fun _ _ _ => ?_) ?_
    | (simp only [Wk.ok_mk]; refine ⟨?_, ?_⟩)
    | split))

@[simp] theorem Wk.winoBlock_sound (w : Wk) (d : Nat) (g : Nat) (b : Nat) (blk : Nat) (tn : Nat) (q : Nat) (hw : w.Ok) :
    (Wk.winoBlock w d g b blk tn q).2.Ok := by
  unfold Wk.winoBlock
  dsimp only
  refine ok_foldl _ _ _ (fun w x h => ok_foldl _ _ _ (fun w r h => Wk.write_sound _ _ _ h) (Wk.storeAcc_sound _ _ _ _ _ h)) ?_
  exact Wk.mapM_ok _ _ _ (fun w t h => Wk.winoTile_sound w d b t h) (Wk.mapM_ok _ _ _ (fun w j h => Wk.rightRow_sound w d b _ h) hw)

@[simp] theorem Wk.poolPixel_sound (w : Wk) (d : Nat) (b : Nat) (y : Nat) (x : Nat) (c0 : Nat) (m : Nat) (hw : w.Ok) :
    (Wk.poolPixel w d b y x c0 m).2.Ok := by
  unfold Wk.poolPixel; simp (maxDischargeDepth := 12) [*]

@[simp] theorem Wk.poolTile_sound (w : Wk) (d : Nat) (g : Nat) (b : Nat) (tm : Nat) (tn : Nat) (q : Nat) (hw : w.Ok) :
    (Wk.poolTile w d g b tm tn q).2.Ok := by
  unfold Wk.poolTile
  dsimp only
  refine Wk.storeAcc_sound _ _ _ _ _ (Wk.mapM_ok _ _ _ (fun w x h => Wk.mapM_ok _ _ _ (fun w y h => ?_) h) hw)
  split
  · exact Wk.poolPixel_sound _ _ _ _ _ _ _ h
  · exact h

@[simp] theorem Wk.bias_sound (w : Wk) (d : Nat) (i : Nat) (j0 : Nat) (m : Nat) (hw : w.Ok) : (Wk.bias w d i j0 m).2.Ok := by
  unfold Wk.bias; simp (maxDischargeDepth := 12) [*]

@[simp] theorem Wk.epiRow_sound (w : Wk) (d : Nat) (b : Nat) (j0 : Nat) (s : Site) (i : Nat) (y0 : List XR) (hw : w.Ok) :
    (Wk.epiRow w d b j0 s i y0).Ok := by
  unfold Wk.epiRow; simp (maxDischargeDepth := 12) [*]

@[simp] theorem Wk.tile_sound (w : Wk) (d : Nat) (g : Nat) (b : Nat) (tm : Nat) (tn : Nat) (q : Nat) (hw : w.Ok) :
    (Wk.tile w d g b tm tn q).2.Ok := by
  unfold Wk.tile; simp (maxDischargeDepth := 12) [*]

@[simp] theorem Wk.strip_sound (w : Wk) (d : Nat) (g : Nat) (s : Site) (x : Strip) (hw : w.Ok) : (Wk.strip w d g s x).Ok := by
  unfold Wk.strip; (repeat' (first
    | assumption
    | (simp (maxDischargeDepth := 12) [*]; done)
    | with_reducible refine ok_ite ?_ ?_
    | with_reducible refine ok_ite2 ?_ ?_
    | with_reducible refine ok_foldl _ _ _ (fun _ _ _ => ?_) ?_
    | with_reducible refine ok_foldl2 _ _ _ (fun _ _ _ => ?_) ?_))

@[simp] theorem Wk.partMask_sound (w : Wk) (d : Nat) (hw : w.Ok) : (Wk.partMask w d).Ok := by
  unfold Wk.partMask; simp (maxDischargeDepth := 12) [*]

@[simp] theorem Wk.tiles_sound (w : Wk) (d : Nat) (g : Nat) (s : Site) (t0 : Nat) (t1 : Nat) (hw : w.Ok) : (Wk.tiles w d g s t0 t1).Ok := by
  unfold Wk.tiles; (repeat' (first
    | assumption
    | (simp (maxDischargeDepth := 12) [*]; done)
    | with_reducible refine ok_ite ?_ ?_
    | with_reducible refine ok_ite2 ?_ ?_
    | with_reducible refine ok_foldl _ _ _ (fun _ _ _ => ?_) ?_))

@[simp] theorem Wk.finishTiles_sound (w : Wk) (d : Nat) (g : Nat) (s : Site) (t0 : Nat) (hw : w.Ok) : (Wk.finishTiles w d g s t0).Ok := by
  unfold Wk.finishTiles; simp (maxDischargeDepth := 12) [*]


/-! ## VecOps -/

@[simp] theorem Wk.vecRow_sound (w : Wk) (fw : Nat) (a : Nat) (sa : Nat) (t : Q) (n : Nat) (hw : w.Ok) : (Wk.vecRow w fw a sa t n).2.Ok := by
  unfold Wk.vecRow; simp (maxDischargeDepth := 12) [*]

@[simp] theorem Wk.bcast_sound (w : Wk) (mode : Nat) (fw : Nat) (a : Nat) (rs : Nat) (imm : Nat) (i : Nat) (n : Nat) (hw : w.Ok) :
    (Wk.bcast w mode fw a rs imm i n).2.Ok := by
  unfold Wk.bcast; simp (maxDischargeDepth := 12) [*]

@[simp] theorem Wk.vecStore_sound (w : Wk) (d : Nat) (s : Site) (i : Nat) (ys : List XR) (hw : w.Ok) : (Wk.vecStore w d s i ys).Ok := by
  unfold Wk.vecStore; simp (maxDischargeDepth := 12) [*]

@[simp] theorem Wk.vecOne_sound (w : Wk) (d : Nat) (s : Site) (i : Nat) (hw : w.Ok) : (Wk.vecOne w d s i).Ok := by
  unfold Wk.vecOne; simp (maxDischargeDepth := 12) [*]

@[simp] theorem Wk.vecSuppress_sound (w : Wk) (d : Nat) (s : Site) (hw : w.Ok) : (Wk.vecSuppress w d s).Ok := by
  unfold Wk.vecSuppress; (repeat' (first
    | assumption
    | (simp (maxDischargeDepth := 12) [*]; done)
    | with_reducible refine ok_ite ?_ ?_
    | with_reducible refine ok_ite2 ?_ ?_
    | with_reducible refine ok_foldl _ _ _ (fun _ _ _ => ?_) ?_
    | with_reducible refine ok_foldl2 _ _ _ (fun _ _ _ => ?_) ?_))

@[simp] theorem Wk.vector_sound (w : Wk) (d : Nat) (seed : Nat) (step : Nat) (hw : w.Ok) : (Wk.vector w d seed step).Ok := by
  unfold Wk.vector; (repeat' (first
    | assumption
    | (simp (maxDischargeDepth := 12) [*]; done)
    | with_reducible refine ok_ite ?_ ?_
    | with_reducible refine ok_ite2 ?_ ?_
    | with_reducible refine ok_foldl _ _ _ (fun _ _ _ => ?_) ?_))


/-! ## PageOps -/

@[simp] theorem Dev.updPod_sound (d : Dev) (p : Nat) (f : Pod → Pod) (hs : d.Sound) : (Dev.updPod d p f).Sound := by
  unfold Dev.updPod; simp (maxDischargeDepth := 12) [*]

@[simp] theorem Dev.updPod_otp (d : Dev) (p : Nat) (f : Pod → Pod) : (Dev.updPod d p f).plat.otp = d.plat.otp := by
  unfold Dev.updPod; simp (maxDischargeDepth := 12) [*]


/-! ## AttnOps -/

@[simp] theorem Wk.slot_sound (w : Wk) (d : Nat) (b : Nat) (hw : w.Ok) : (Wk.slot w d b).2.Ok := by
  unfold Wk.slot; simp (maxDischargeDepth := 12) [*]

@[simp] theorem Wk.keyRow_sound (w : Wk) (d : Nat) (s : ASlot) (j : Nat) (hw : w.Ok) : (Wk.keyRow w d s j).2.Ok := by
  unfold Wk.keyRow; simp (maxDischargeDepth := 12) [*]

@[simp] theorem Wk.proj_sound (w : Wk) (d : Nat) (base : Nat) (n : Nat) (h : Nat) (hw : w.Ok) : (Wk.proj w d base n h).2.Ok := by
  unfold Wk.proj; (repeat' (first
    | assumption
    | (simp (maxDischargeDepth := 12) [*]; done)
    | with_reducible refine ok_ite ?_ ?_
    | with_reducible refine ok_ite2 ?_ ?_
    | with_reducible refine ok_foldl _ _ _ (fun _ _ _ => ?_) ?_
    | with_reducible refine ok_foldl2 _ _ _ (fun _ _ _ => ?_) ?_
    | with_reducible refine ok_foldr2 _ _ _ (fun _ _ _ => ?_) ?_))

@[simp] theorem Wk.headKeys_sound (w : Wk) (d : Nat) (h : Nat) (ks : List KeyRow) (hw : w.Ok) : (Wk.headKeys w d h ks).2.Ok := by
  unfold Wk.headKeys; simp (maxDischargeDepth := 12) [*]

@[simp] theorem Wk.queryRow_sound (w : Wk) (d : Nat) (s : ASlot) (b : Nat) (h : Nat) (r : Nat) (hw : w.Ok) : (Wk.queryRow w d s b h r).2.Ok := by
  unfold Wk.queryRow; simp (maxDischargeDepth := 12) [*]

@[simp] theorem Wk.attnStore_sound (w : Wk) (d : Nat) (base : Nat) (sym : Nat) (seed : Nat) (step : Nat) (b : Nat) (h : Nat) (r : Nat) (ys : List XR) (hw : w.Ok) :
    (Wk.attnStore w d base sym seed step b h r ys).Ok := by
  unfold Wk.attnStore; simp (maxDischargeDepth := 12) [*]

@[simp] theorem Wk.forwardOut_sound (w : Wk) (d : Nat) (seed : Nat) (step : Nat) (s : ASlot) (b : Nat) (h : Nat) (r : Nat) (hk : List HeadKey) (hw : w.Ok) :
    (Wk.forwardOut w d seed step s b h r hk).Ok := by
  unfold Wk.forwardOut; simp (maxDischargeDepth := 12) [*]

@[simp] theorem Wk.backwardQ_sound (w : Wk) (d : Nat) (seed : Nat) (step : Nat) (s : ASlot) (b : Nat) (h : Nat) (r : Nat) (hk : List HeadKey) (hw : w.Ok) :
    (Wk.backwardQ w d seed step s b h r hk).Ok := by
  unfold Wk.backwardQ; simp (maxDischargeDepth := 12) [*]

@[simp] theorem Wk.backwardKV_sound (w : Wk) (d : Nat) (seed : Nat) (step : Nat) (s : ASlot) (b : Nat) (h : Nat) (r : Nat) (hk : List HeadKey) (hw : w.Ok) :
    (Wk.backwardKV w d seed step s b h r hk).Ok := by
  unfold Wk.backwardKV
  dsimp only
  refine Wk.attnStore_sound _ _ _ _ _ _ _ _ _ _ (Wk.attnStore_sound _ _ _ _ _ _ _ _ _ _ ?_)
  split
  · exact hw
  · refine ok_foldr2 _ _ _ (fun x y h => ?_) hw
    refine ok_ite2 ?_ h
    exact Wk.queryRow_sound _ _ _ _ _ _ h

@[simp] theorem Wk.attnUnit_sound (w : Wk) (d : Nat) (seed : Nat) (step : Nat) (u : Nat) (hw : w.Ok) : (Wk.attnUnit w d seed step u).Ok := by
  unfold Wk.attnUnit
  dsimp only
  refine ok_foldl _ _ _ (fun w r h => ?_) (Wk.headKeys_sound _ _ _ _ (ok_foldr2 _ _ _ (fun x y h => Wk.keyRow_sound _ _ _ _ h) (Wk.slot_sound _ _ _ hw)))
  split
  · exact Wk.forwardOut_sound _ _ _ _ _ _ _ _ _ h
  · exact Wk.backwardQ_sound _ _ _ _ _ _ _ _ _ h
  · exact Wk.backwardKV_sound _ _ _ _ _ _ _ _ _ h

@[simp] theorem Wk.attnUnits_sound (w : Wk) (d : Nat) (seed : Nat) (step : Nat) (u0 : Nat) (u1 : Nat) (hw : w.Ok) :
    (Wk.attnUnits w d seed step u0 u1).Ok := by
  unfold Wk.attnUnits; (repeat' (first
    | assumption
    | (simp (maxDischargeDepth := 12) [*]; done)
    | with_reducible refine ok_ite ?_ ?_
    | with_reducible refine ok_ite2 ?_ ?_
    | with_reducible refine ok_foldl _ _ _ (fun _ _ _ => ?_) ?_))


/-! ## MoveOps -/

@[simp] theorem Wk.xferPart_sound (w : Wk) (x : Xfer) (r : Nat) (o : Nat) (n : Nat) (hw : w.Ok) : (Wk.xferPart w x r o n).Ok := by
  unfold Wk.xferPart; (repeat' (first
    | assumption
    | (simp (maxDischargeDepth := 12) [*]; done)
    | with_reducible refine ok_ite ?_ ?_
    | with_reducible refine ok_ite2 ?_ ?_
    | with_reducible refine ok_foldl _ _ _ (fun _ _ _ => ?_) ?_
    | with_reducible refine ok_foldl2 _ _ _ (fun _ _ _ => ?_) ?_
    | with_reducible refine ok_foldr2 _ _ _ (fun _ _ _ => ?_) ?_
    | with_reducible refine Wk.mapM_ok _ _ _ (fun _ _ _ => ?_) ?_
    | (simp only [Wk.ok_mk]; refine ⟨?_, ?_⟩)
    | split))

@[simp] theorem Wk.xfer_sound (w : Wk) (x : Xfer) (hw : w.Ok) : (Wk.xfer w x).Ok := by
  unfold Wk.xfer; (repeat' (first
    | assumption
    | (simp (maxDischargeDepth := 12) [*]; done)
    | with_reducible refine ok_ite ?_ ?_
    | with_reducible refine ok_ite2 ?_ ?_
    | with_reducible refine ok_foldl _ _ _ (fun _ _ _ => ?_) ?_))

@[simp] theorem Wk.generate_sound (w : Wk) (d : Nat) (seed : Nat) (step : Nat) (hw : w.Ok) : (Wk.generate w d seed step).Ok := by
  unfold Wk.generate; (repeat' (first
    | assumption
    | (simp (maxDischargeDepth := 12) [*]; done)
    | with_reducible refine ok_ite ?_ ?_
    | with_reducible refine ok_ite2 ?_ ?_
    | with_reducible refine ok_foldl _ _ _ (fun _ _ _ => ?_) ?_))


/-! ## UpdateOps -/

@[simp] theorem Wk.section__sound (w : Wk) (fw : Nat) (a : Nat) (sa : Nat) (n : Nat) (t : Q) (hw : w.Ok) : (Wk.section_ w fw a sa n t).2.Ok := by
  unfold Wk.section_; simp (maxDischargeDepth := 12) [*]

@[simp] theorem Wk.master_sound (w : Wk) (s : Sh) (hw : w.Ok) : (Wk.master w s).2.Ok := by
  unfold Wk.master; simp (maxDischargeDepth := 12) [*]

@[simp] theorem Wk.storeMaster_sound (w : Wk) (s : Sh) (ys : List XR) (hw : w.Ok) : (Wk.storeMaster w s ys).Ok := by
  unfold Wk.storeMaster; simp (maxDischargeDepth := 12) [*]

@[simp] theorem Wk.moment_sound (w : Wk) (s : Sh) (hw : w.Ok) : (Wk.moment w s).2.Ok := by
  unfold Wk.moment; simp (maxDischargeDepth := 12) [*]

@[simp] theorem Wk.second_sound (w : Wk) (s : Sh) (hw : w.Ok) : (Wk.second w s).2.Ok := by
  unfold Wk.second; simp (maxDischargeDepth := 12) [*]

@[simp] theorem Wk.factors_sound (w : Wk) (s : Sh) (hw : w.Ok) : (Wk.factors w s).2.Ok := by
  unfold Wk.factors; simp (maxDischargeDepth := 12) [*]

@[simp] theorem Wk.nonfin_sound (w : Wk) (odd : List Bool) (hw : w.Ok) : (Wk.nonfin w odd).Ok := by
  unfold Wk.nonfin; simp (maxDischargeDepth := 12) [*]

@[simp] theorem Wk.storeMoment_sound (w : Wk) (s : Sh) (ys : List XR) (hw : w.Ok) : (Wk.storeMoment w s ys).Ok := by
  unfold Wk.storeMoment; simp (maxDischargeDepth := 12) [*]

@[simp] theorem Wk.storeSecond_sound (w : Wk) (s : Sh) (ys : List XR) (hw : w.Ok) : (Wk.storeSecond w s ys).Ok := by
  unfold Wk.storeSecond; simp (maxDischargeDepth := 12) [*]

@[simp] theorem Wk.gradCodes_sound (w : Wk) (a : Nat) (n : Nat) (hw : w.Ok) : (Wk.gradCodes w a n).2.Ok := by
  unfold Wk.gradCodes; simp (maxDischargeDepth := 12) [*]

@[simp] theorem Wk.momentPass_sound (w : Wk) (s : Sh) (gs : List XR) (fac : List XR) (stat0 : XR) (stat1 : XR) (hw : w.Ok) :
    (Wk.momentPass w s gs fac stat0 stat1).Ok := by
  unfold Wk.momentPass; (repeat' (first
    | assumption
    | (simp (maxDischargeDepth := 12) [*]; done)
    | with_reducible refine ok_ite ?_ ?_
    | with_reducible refine ok_ite2 ?_ ?_
    | with_reducible refine ok_foldl _ _ _ (fun _ _ _ => ?_) ?_
    | with_reducible refine ok_foldl2 _ _ _ (fun _ _ _ => ?_) ?_
    | with_reducible refine ok_foldr2 _ _ _ (fun _ _ _ => ?_) ?_
    | with_reducible refine Wk.mapM_ok _ _ _ (fun _ _ _ => ?_) ?_
    | (simp only [Wk.ok_mk]; refine ⟨?_, ?_⟩)
    | split))

@[simp] theorem Wk.updates_sound (w : Wk) (s : Sh) (ws : List XR) (stat0 : XR) (hw : w.Ok) : (Wk.updates w s ws stat0).2.Ok := by
  unfold Wk.updates; (repeat' (first
    | assumption
    | (simp (maxDischargeDepth := 12) [*]; done)
    | with_reducible refine ok_ite ?_ ?_
    | with_reducible refine ok_ite2 ?_ ?_
    | with_reducible refine ok_foldl _ _ _ (fun _ _ _ => ?_) ?_
    | with_reducible refine ok_foldl2 _ _ _ (fun _ _ _ => ?_) ?_
    | with_reducible refine ok_foldr2 _ _ _ (fun _ _ _ => ?_) ?_
    | with_reducible refine Wk.mapM_ok _ _ _ (fun _ _ _ => ?_) ?_
    | (simp only [Wk.ok_mk]; refine ⟨?_, ?_⟩)
    | split))

@[simp] theorem Wk.placeWeights_sound (w : Wk) (sy : Sym) (base : Nat) (n0 : Nat) (cs : List Nat) (ss : List Nat) (hw : w.Ok) :
    (Wk.placeWeights w sy base n0 cs ss).Ok := by
  unfold Wk.placeWeights; (repeat' (first
    | assumption
    | (simp (maxDischargeDepth := 12) [*]; done)
    | with_reducible refine ok_ite ?_ ?_
    | with_reducible refine ok_ite2 ?_ ?_
    | with_reducible refine ok_foldl _ _ _ (fun _ _ _ => ?_) ?_))

@[simp] theorem Wk.working_sound (w : Wk) (s : Sh) (ws : List XR) (hw : w.Ok) : (Wk.working w s ws).2.2.Ok := by
  unfold Wk.working; simp (maxDischargeDepth := 12) [*]

@[simp] theorem Wk.multicast_sound (w : Wk) (s : Sh) (sy : Sym) (pods : List Nat) (ws : List XR) (hw : w.Ok) : (Wk.multicast w s sy pods ws).Ok := by
  unfold Wk.multicast; (repeat' (first
    | assumption
    | (simp (maxDischargeDepth := 12) [*]; done)
    | with_reducible refine ok_ite ?_ ?_
    | with_reducible refine ok_ite2 ?_ ?_
    | with_reducible refine ok_foldl _ _ _ (fun _ _ _ => ?_) ?_))

@[simp] theorem Wk.weightPass_sound (w : Wk) (s : Sh) (sy : Sym) (stat0 : XR) (hw : w.Ok) : (Wk.weightPass w s sy stat0).Ok := by
  unfold Wk.weightPass; simp (maxDischargeDepth := 12) [*]

end Sys2Proof.Machine
end

