-- ==== Sys2Proof/Laws/KeepReply.lean ====
section
/-! SUPPORT. The reply path, power and starts: each operation keeps a device sound and leaves the one-time-programmable cells alone, or changes them lawfully. -/

namespace Sys2Proof.Machine

/-! ## Reply -/

@[simp] theorem Dev.post_sound (d : Dev) (q : Nat) (es : List Nat) (hs : d.Sound) : (Dev.post d q es).Sound := by
  unfold Dev.post; simp (maxDischargeDepth := 12) [*]

@[simp] theorem Dev.post_otp (d : Dev) (q : Nat) (es : List Nat) : (Dev.post d q es).plat.otp = d.plat.otp := by
  unfold Dev.post; simp (maxDischargeDepth := 12) [*]

@[simp] theorem Dev.flushGo_sound (ws : List SlotReply) (d : Dev) (h : d.Sound) : (Dev.flushGo ws d).Sound := by
  induction ws generalizing d with
  | nil => exact h
  | cons w ws ih =>
    unfold Dev.flushGo
    dsimp only
    split
    · exact ih d h
    · split
      · simp (maxDischargeDepth := 12) [ih d h]
      · exact ih _ (by simp (maxDischargeDepth := 12) [h])

@[simp] theorem Dev.flushGo_otp (ws : List SlotReply) (d : Dev) : (Dev.flushGo ws d).plat.otp = d.plat.otp := by
  induction ws generalizing d with
  | nil => rfl
  | cons w ws ih =>
    unfold Dev.flushGo
    dsimp only
    split
    · exact ih d
    · split
      · exact ih d
      · exact (ih _).trans (by simp)

@[simp] theorem Dev.replyTick_sound (d : Dev) (hs : d.Sound) : (Dev.replyTick d).Sound := by
  unfold Dev.replyTick; simp (maxDischargeDepth := 12) [*]

@[simp] theorem Dev.replyTick_otp (d : Dev) : (Dev.replyTick d).plat.otp = d.plat.otp := by
  unfold Dev.replyTick; simp (maxDischargeDepth := 12) [*]

@[simp] theorem Dev.flush_sound (d : Dev) (hs : d.Sound) : (Dev.flush d).Sound := by
  unfold Dev.flush; simp (maxDischargeDepth := 12) [*]

@[simp] theorem Dev.flush_otp (d : Dev) : (Dev.flush d).plat.otp = d.plat.otp := by
  unfold Dev.flush; simp (maxDischargeDepth := 12) [*]

@[simp] theorem Dev.sendReply_sound (d : Dev) (r : SlotReply) (hs : d.Sound) : (Dev.sendReply d r).Sound := by
  unfold Dev.sendReply; simp (maxDischargeDepth := 12) [*]

@[simp] theorem Dev.sendReply_otp (d : Dev) (r : SlotReply) : (Dev.sendReply d r).plat.otp = d.plat.otp := by
  unfold Dev.sendReply; simp (maxDischargeDepth := 12) [*]

@[simp] theorem Dev.slotReply_sound (d : Dev) (rq : Nat) (tag : Nat) (beat : Nat) (phase : Nat) (hs : d.Sound) :
    (Dev.slotReply d rq tag beat phase).Sound := by
  unfold Dev.slotReply; simp (maxDischargeDepth := 12) [*]

@[simp] theorem Dev.slotReply_otp (d : Dev) (rq : Nat) (tag : Nat) (beat : Nat) (phase : Nat) :
    (Dev.slotReply d rq tag beat phase).plat.otp = d.plat.otp := by
  unfold Dev.slotReply; simp (maxDischargeDepth := 12) [*]

@[simp] theorem Dev.refuse_sound (d : Dev) (q : Nat) (p : Packet) (status : Nat) (detail : Nat) (ext : List Nat) (hs : d.Sound) :
    (Dev.refuse d q p status detail ext).Sound := by
  unfold Dev.refuse; simp (maxDischargeDepth := 12) [*]

@[simp] theorem Dev.refuse_otp (d : Dev) (q : Nat) (p : Packet) (status : Nat) (detail : Nat) (ext : List Nat) :
    (Dev.refuse d q p status detail ext).plat.otp = d.plat.otp := by
  unfold Dev.refuse; simp (maxDischargeDepth := 12) [*]

@[simp] theorem Dev.settle_sound (n : Nat) (d : Dev) (h : d.Sound) : (Dev.settle n d).Sound := by
  induction n generalizing d with
  | zero => exact h
  | succ n ih =>
    unfold Dev.settle
    repeat' split
    all_goals first | exact h | exact ih _ (by simp (maxDischargeDepth := 12) [h])

@[simp] theorem Dev.settle_otp (n : Nat) (d : Dev) : (Dev.settle n d).plat.otp = d.plat.otp := by
  induction n generalizing d with
  | zero => rfl
  | succ n ih =>
    unfold Dev.settle
    repeat' split
    all_goals first | rfl | exact (ih _).trans (by simp)

@[simp] theorem Dev.settled_sound (d : Dev) (hs : d.Sound) : (Dev.settled d).Sound := by
  unfold Dev.settled; simp (maxDischargeDepth := 12) [*]

@[simp] theorem Dev.settled_otp (d : Dev) : (Dev.settled d).plat.otp = d.plat.otp := by
  unfold Dev.settled; simp (maxDischargeDepth := 12) [*]

@[simp] theorem Dev.emitFinal_sound (d : Dev) (c : Cmd) (status : Nat) (detail : Nat) (ext : List Nat) (hs : d.Sound) :
    (Dev.emitFinal d c status detail ext).Sound := by
  unfold Dev.emitFinal; simp (maxDischargeDepth := 12) [*]

@[simp] theorem Dev.emitFinal_otp (d : Dev) (c : Cmd) (status : Nat) (detail : Nat) (ext : List Nat) :
    (Dev.emitFinal d c status detail ext).plat.otp = d.plat.otp := by
  unfold Dev.emitFinal; simp (maxDischargeDepth := 12) [*]

@[simp] theorem Dev.finish_sound (d : Dev) (id : Nat) (status : Nat) (detail : Nat) (ext : List Nat) (hs : d.Sound) :
    (Dev.finish d id status detail ext).Sound := by
  unfold Dev.finish; (repeat' split) <;> simp (maxDischargeDepth := 12) [*]

@[simp] theorem Dev.finish_otp (d : Dev) (id : Nat) (status : Nat) (detail : Nat) (ext : List Nat) :
    (Dev.finish d id status detail ext).plat.otp = d.plat.otp := by
  unfold Dev.finish; (repeat' split) <;> simp (maxDischargeDepth := 12) [*]

@[simp] theorem Dev.accept_sound (d : Dev) (c : Cmd) (hs : d.Sound) : (Dev.accept d c).Sound := by
  unfold Dev.accept; simp (maxDischargeDepth := 12) [*]

@[simp] theorem Dev.accept_otp (d : Dev) (c : Cmd) : (Dev.accept d c).plat.otp = d.plat.otp := by
  unfold Dev.accept; simp (maxDischargeDepth := 12) [*]

@[simp] theorem Dev.begin__sound (d : Dev) (q : Nat) (p : Packet) (hs : d.Sound) : (Dev.begin_ d q p).1.Sound := by
  unfold Dev.begin_; simp (maxDischargeDepth := 12) [*]

@[simp] theorem Dev.begin__otp (d : Dev) (q : Nat) (p : Packet) : (Dev.begin_ d q p).1.plat.otp = d.plat.otp := by
  unfold Dev.begin_; simp (maxDischargeDepth := 12) [*]

@[simp] theorem Dev.noteMiss_sound (d : Dev) (p : Packet) (status : Nat) (hs : d.Sound) : (Dev.noteMiss d p status).Sound := by
  unfold Dev.noteMiss; simp (maxDischargeDepth := 12) [*]

@[simp] theorem Dev.noteMiss_otp (d : Dev) (p : Packet) (status : Nat) : (Dev.noteMiss d p status).plat.otp = d.plat.otp := by
  unfold Dev.noteMiss; simp (maxDischargeDepth := 12) [*]
/-- A DONE command leaves a sound device where its effect does. -/
theorem doneAt_sound (f : Dev → Dev) (detail : Dev → Nat) (ext : Dev → List Nat) (d : Dev) (c : Cmd) (h : (f d).Sound) :
    (doneAt f detail ext d c).Sound := by
  unfold doneAt
  simp [h]
/-- A DONE command leaves the cells as its effect does. -/
theorem doneAt_otp (f : Dev → Dev) (detail : Dev → Nat) (ext : Dev → List Nat) (d : Dev) (c : Cmd) :
    (doneAt f detail ext d c).plat.otp = (f d).plat.otp := by
  unfold doneAt
  simp


/-! ## PowerOps -/

@[simp] theorem Dev.traceDoms_sound (d : Dev) (old : Pow) (hs : d.Sound) : (Dev.traceDoms d old).Sound := by
  unfold Dev.traceDoms
  split
  · exact hs
  · refine sound_foldl _ _ _ (fun d id h => ?_) hs
    split
    · exact h
    · exact Dev.trace_sound _ _ _ _ _ _ _ h

@[simp] theorem Dev.traceDoms_otp (d : Dev) (old : Pow) : (Dev.traceDoms d old).plat.otp = d.plat.otp := by
  unfold Dev.traceDoms; (repeat' (first
    | assumption
    | (simp (maxDischargeDepth := 12) [*]; done)
    | with_reducible refine otp_ite ?_ ?_
    | split
    | with_reducible refine otp_foldl _ _ _ (fun _ _ => ?_)))

@[simp] theorem Dev.acceptId_sound (d : Dev) (id : Nat) (hs : d.Sound) : (Dev.acceptId d id).Sound := by
  unfold Dev.acceptId; (repeat' split) <;> simp (maxDischargeDepth := 12) [*]

@[simp] theorem Dev.acceptId_otp (d : Dev) (id : Nat) : (Dev.acceptId d id).plat.otp = d.plat.otp := by
  unfold Dev.acceptId; (repeat' split) <;> simp (maxDischargeDepth := 12) [*]

@[simp] theorem Dev.finishAll_sound (d : Dev) (ids : List Nat) (status : Nat) (hs : d.Sound) : (Dev.finishAll d ids status).Sound := by
  unfold Dev.finishAll; (repeat' (first
    | assumption
    | (simp (maxDischargeDepth := 12) [*]; done)
    | with_reducible refine sound_ite ?_ ?_
    | split
    | with_reducible refine sound_foldl _ _ _ (fun _ _ _ => ?_) ?_))

@[simp] theorem Dev.finishAll_otp (d : Dev) (ids : List Nat) (status : Nat) : (Dev.finishAll d ids status).plat.otp = d.plat.otp := by
  unfold Dev.finishAll; (repeat' (first
    | assumption
    | (simp (maxDischargeDepth := 12) [*]; done)
    | with_reducible refine otp_ite ?_ ?_
    | split
    | with_reducible refine otp_foldl _ _ _ (fun _ _ => ?_)))

@[simp] theorem Dev.cancelPend_sound (d : Dev) (id : Nat) (hs : d.Sound) : (Dev.cancelPend d id).Sound := by
  unfold Dev.cancelPend; simp (maxDischargeDepth := 12) [*]

@[simp] theorem Dev.cancelPend_otp (d : Dev) (id : Nat) : (Dev.cancelPend d id).plat.otp = d.plat.otp := by
  unfold Dev.cancelPend; simp (maxDischargeDepth := 12) [*]

@[simp] theorem Dev.reqOn1_sound (d : Dev) (id : Nat) (cmd : Nat) (hs : d.Sound) : (Dev.reqOn1 d id cmd).Sound := by
  unfold Dev.reqOn1; simp (maxDischargeDepth := 12) [*]

@[simp] theorem Dev.reqOn1_otp (d : Dev) (id : Nat) (cmd : Nat) : (Dev.reqOn1 d id cmd).plat.otp = d.plat.otp := by
  unfold Dev.reqOn1; simp (maxDischargeDepth := 12) [*]

@[simp] theorem Dev.reqOn_sound (d : Dev) (id : Nat) (cmd : Nat) (hs : d.Sound) : (Dev.reqOn d id cmd).Sound := by
  unfold Dev.reqOn; (repeat' split) <;> simp (maxDischargeDepth := 12) [*]

@[simp] theorem Dev.reqOn_otp (d : Dev) (id : Nat) (cmd : Nat) : (Dev.reqOn d id cmd).plat.otp = d.plat.otp := by
  unfold Dev.reqOn; (repeat' split) <;> simp (maxDischargeDepth := 12) [*]

@[simp] theorem Dev.reqOff_sound (d : Dev) (id : Nat) (cmd : Nat) (hs : d.Sound) : (Dev.reqOff d id cmd).Sound := by
  unfold Dev.reqOff; simp (maxDischargeDepth := 12) [*]

@[simp] theorem Dev.reqOff_otp (d : Dev) (id : Nat) (cmd : Nat) : (Dev.reqOff d id cmd).plat.otp = d.plat.otp := by
  unfold Dev.reqOff; simp (maxDischargeDepth := 12) [*]

@[simp] theorem Dev.demand_sound (d : Dev) (id : Nat) (hs : d.Sound) : (Dev.demand d id).Sound := by
  unfold Dev.demand; simp (maxDischargeDepth := 12) [*]

@[simp] theorem Dev.demand_otp (d : Dev) (id : Nat) : (Dev.demand d id).plat.otp = d.plat.otp := by
  unfold Dev.demand; simp (maxDischargeDepth := 12) [*]

@[simp] theorem Dev.traceUp_sound (d : Dev) (id : Nat) (hs : d.Sound) : (Dev.traceUp d id).Sound := by
  unfold Dev.traceUp; simp (maxDischargeDepth := 12) [*]

@[simp] theorem Dev.traceUp_otp (d : Dev) (id : Nat) : (Dev.traceUp d id).plat.otp = d.plat.otp := by
  unfold Dev.traceUp; simp (maxDischargeDepth := 12) [*]

@[simp] theorem Dev.noteStop_sound (d : Dev) (u : Nat) (hs : d.Sound) : (Dev.noteStop d u).Sound := by
  unfold Dev.noteStop; simp (maxDischargeDepth := 12) [*]

@[simp] theorem Dev.noteStop_otp (d : Dev) (u : Nat) : (Dev.noteStop d u).plat.otp = d.plat.otp := by
  unfold Dev.noteStop; simp (maxDischargeDepth := 12) [*]

@[simp] theorem Dev.wipeDomain_sound (d : Dev) (id : Nat) (hs : d.Sound) : (Dev.wipeDomain d id).Sound := by
  unfold Dev.wipeDomain
  dsimp only
  repeat' refine sound_ite ?_ ?_
  all_goals simp (maxDischargeDepth := 12) [hs]

@[simp] theorem Dev.wipeDomain_otp (d : Dev) (id : Nat) : (Dev.wipeDomain d id).plat.otp = d.plat.otp := by
  unfold Dev.wipeDomain
  dsimp only
  repeat' refine otp_ite ?_ ?_
  all_goals rfl

@[simp] theorem Dev.commandRail_sound (d : Dev) (g : Nat) (hs : d.Sound) : (Dev.commandRail d g).Sound := by
  unfold Dev.commandRail; simp (maxDischargeDepth := 12) [*]

@[simp] theorem Dev.commandRail_otp (d : Dev) (g : Nat) : (Dev.commandRail d g).plat.otp = d.plat.otp := by
  unfold Dev.commandRail; simp (maxDischargeDepth := 12) [*]

@[simp] theorem Dev.reclock_sound (d : Dev) (hs : d.Sound) : (Dev.reclock d).Sound := by
  unfold Dev.reclock; simp (maxDischargeDepth := 12) [*]

@[simp] theorem Dev.reclock_otp (d : Dev) : (Dev.reclock d).plat.otp = d.plat.otp := by
  unfold Dev.reclock; simp (maxDischargeDepth := 12) [*]

@[simp] theorem Dev.halt_sound (d : Dev) (k : Nat) (hs : d.Sound) : (Dev.halt d k).Sound := by
  unfold Dev.halt; simp (maxDischargeDepth := 12) [*]

@[simp] theorem Dev.halt_otp (d : Dev) (k : Nat) : (Dev.halt d k).plat.otp = d.plat.otp := by
  unfold Dev.halt; simp (maxDischargeDepth := 12) [*]

@[simp] theorem Dev.unhalt_sound (d : Dev) (k : Nat) (hs : d.Sound) : (Dev.unhalt d k).Sound := by
  unfold Dev.unhalt; simp (maxDischargeDepth := 12) [*]

@[simp] theorem Dev.unhalt_otp (d : Dev) (k : Nat) : (Dev.unhalt d k).plat.otp = d.plat.otp := by
  unfold Dev.unhalt; simp (maxDischargeDepth := 12) [*]

@[simp] theorem Dev.setOp_sound (d : Dev) (op : Nat) (floorRun : Bool) (hs : d.Sound) : (Dev.setOp d op floorRun).Sound := by
  unfold Dev.setOp; simp (maxDischargeDepth := 12) [*]

@[simp] theorem Dev.setOp_otp (d : Dev) (op : Nat) (floorRun : Bool) : (Dev.setOp d op floorRun).plat.otp = d.plat.otp := by
  unfold Dev.setOp; simp (maxDischargeDepth := 12) [*]

@[simp] theorem Dev.planWith_sound (d : Dev) (t : Q) (fixed : Q) (e : Q) (hs : d.Sound) : (Dev.planWith d t fixed e).Sound := by
  unfold Dev.planWith
  dsimp only
  split
  · simp (maxDischargeDepth := 12) [hs]
  · exact Dev.setOp_sound _ _ _ (sound_foldl _ _ _ (fun d k hd => Dev.halt_sound d k hd) hs)

@[simp] theorem Dev.planWith_otp (d : Dev) (t : Q) (fixed : Q) (e : Q) : (Dev.planWith d t fixed e).plat.otp = d.plat.otp := by
  unfold Dev.planWith
  dsimp only
  split
  · simp
  · exact (Dev.setOp_otp _ _ _).trans (otp_foldl _ _ _ (fun d k => Dev.halt_otp d k))

@[simp] theorem Dev.planBeat_sound (d : Dev) (fixed : Nat) (hs : d.Sound) : (Dev.planBeat d fixed).Sound := by
  unfold Dev.planBeat
  have := sound_foldl (fun d k => d.unhalt k) d.pow.haltedSet d (fun d k hd => Dev.unhalt_sound d k hd) hs
  exact Dev.reclock_sound _ (Dev.planWith_sound _ _ _ _ (by
    exact (Dev.sound_mk ..).2 ⟨this.log, this.mem, this.poison, this.ctr⟩))

@[simp] theorem Dev.planBeat_otp (d : Dev) (fixed : Nat) : (Dev.planBeat d fixed).plat.otp = d.plat.otp := by
  unfold Dev.planBeat
  have := otp_foldl (fun d k => d.unhalt k) d.pow.haltedSet d (fun d k => Dev.unhalt_otp d k)
  simp only [Dev.reclock_otp, Dev.planWith_otp]
  exact this

@[simp] theorem Dev.planCheckpoint_sound (d : Dev) (hs : d.Sound) : (Dev.planCheckpoint d).Sound := by
  unfold Dev.planCheckpoint; dsimp only; (repeat' split) <;> simp (maxDischargeDepth := 12) [*]

@[simp] theorem Dev.planCheckpoint_otp (d : Dev) : (Dev.planCheckpoint d).plat.otp = d.plat.otp := by
  unfold Dev.planCheckpoint; dsimp only; (repeat' split) <;> simp (maxDischargeDepth := 12) [*]

@[simp] theorem Dev.raiseFloor_sound (d : Dev) (was : Nat) (hs : d.Sound) : (Dev.raiseFloor d was).Sound := by
  unfold Dev.raiseFloor
  split
  · exact hs
  · exact Dev.reclock_sound _ (Dev.setOp_sound _ _ _ (sound_foldl _ _ _ (fun d k h => Dev.halt_sound d k h) hs))

@[simp] theorem Dev.raiseFloor_otp (d : Dev) (was : Nat) : (Dev.raiseFloor d was).plat.otp = d.plat.otp := by
  unfold Dev.raiseFloor
  split
  · rfl
  · exact (Dev.reclock_otp _).trans ((Dev.setOp_otp _ _ _).trans (otp_foldl _ _ _ (fun d k => Dev.halt_otp d k)))


/-! ## StartOps -/

theorem wf_keepHost {α : Type} [DecidableEq α] (x : α) (m : Tab α) (h : Tab.wf x m = true) : Tab.wf x (keepHost m) = true :=
  Tab.wf_filter x m _ h

@[simp] theorem memory_keepHost (m : Tab Byte) (h : Memory.wf m = true) : Memory.wf (keepHost m) = true := wf_keepHost 0 m h

@[simp] theorem poison_keepHost (m : Tab Bool) (h : Poison.wf m = true) : Poison.wf (keepHost m) = true := wf_keepHost false m h

@[simp] theorem Dev.abortAll_sound (d : Dev) (keep : Nat) (hs : d.Sound) : (Dev.abortAll d keep).Sound := by
  unfold Dev.abortAll; (repeat' (first
    | assumption
    | (simp (maxDischargeDepth := 12) [*]; done)
    | with_reducible refine sound_ite ?_ ?_
    | split
    | with_reducible refine sound_foldl _ _ _ (fun _ _ _ => ?_) ?_))

@[simp] theorem Dev.abortAll_otp (d : Dev) (keep : Nat) : (Dev.abortAll d keep).plat.otp = d.plat.otp := by
  unfold Dev.abortAll; (repeat' (first
    | assumption
    | (simp (maxDischargeDepth := 12) [*]; done)
    | with_reducible refine otp_ite ?_ ?_
    | split
    | with_reducible refine otp_foldl _ _ _ (fun _ _ => ?_)))

@[simp] theorem Dev.askOn_sound (d : Dev) (p : Nat → Bool) (hs : d.Sound) : (Dev.askOn d p).Sound := by
  unfold Dev.askOn; (repeat' (first
    | assumption
    | (simp (maxDischargeDepth := 12) [*]; done)
    | with_reducible refine sound_ite ?_ ?_
    | split
    | with_reducible refine sound_foldl _ _ _ (fun _ _ _ => ?_) ?_))

@[simp] theorem Dev.askOn_otp (d : Dev) (p : Nat → Bool) : (Dev.askOn d p).plat.otp = d.plat.otp := by
  unfold Dev.askOn; (repeat' (first
    | assumption
    | (simp (maxDischargeDepth := 12) [*]; done)
    | with_reducible refine otp_ite ?_ ?_
    | split
    | with_reducible refine otp_foldl _ _ _ (fun _ _ => ?_)))

@[simp] theorem Dev.cleared_sound (d : Dev) (plat : Plat) (host : HostIf) (cad : Cad) (pow : Pow) (hs : d.Sound) (hp : LogOk plat.faultLog plat.faultLost) :
    (Dev.cleared d plat host cad pow).Sound := by
  unfold Dev.cleared; simp (maxDischargeDepth := 12) [*]

@[simp] theorem Dev.cleared_otp (d : Dev) (plat : Plat) (host : HostIf) (cad : Cad) (pow : Pow) :
    (d.cleared plat host cad pow).plat.otp = plat.otp := rfl

@[simp] theorem Plat.noFault_sound (p : Plat) (hp : LogOk p.faultLog p.faultLost) : LogOk (Plat.noFault p).faultLog (Plat.noFault p).faultLost := by
  unfold Plat.noFault; simp (maxDischargeDepth := 12) [*]

@[simp] theorem Plat.noFault_otp (p : Plat) : (Plat.noFault p).otp = p.otp := by
  unfold Plat.noFault; simp (maxDischargeDepth := 12) [*]

@[simp] theorem Dev.summaryIrq_sound (d : Dev) (old : Plat) (hs : d.Sound) (hp : LogOk old.faultLog old.faultLost) :
    (Dev.summaryIrq d old).Sound := by
  unfold Dev.summaryIrq; simp (maxDischargeDepth := 12) [*]

@[simp] theorem Dev.summaryIrq_otp (d : Dev) (old : Plat) : (Dev.summaryIrq d old).plat.otp = d.plat.otp := by
  unfold Dev.summaryIrq; simp (maxDischargeDepth := 12) [*]

@[simp] theorem Dev.alerted_sound (d : Dev) (old : Plat) (hs : d.Sound) (hp : LogOk old.faultLog old.faultLost) : (Dev.alerted d old).Sound := by
  unfold Dev.alerted; simp (maxDischargeDepth := 12) [*]

@[simp] theorem Dev.alerted_otp (d : Dev) (old : Plat) : (Dev.alerted d old).plat.otp = d.plat.otp := by
  unfold Dev.alerted; simp (maxDischargeDepth := 12) [*]

@[simp] theorem Dev.resetNow_sound (d : Dev) (hs : d.Sound) : (Dev.resetNow d).Sound := by
  unfold Dev.resetNow; simp (maxDischargeDepth := 12) [*]

@[simp] theorem Dev.resetNow_otp (d : Dev) : (Dev.resetNow d).plat.otp = d.plat.otp := by
  unfold Dev.resetNow; simp (maxDischargeDepth := 12) [*]

@[simp] theorem Plat.closeDebug_sound (p : Plat) (hp : LogOk p.faultLog p.faultLost) :
    LogOk (Plat.closeDebug p).faultLog (Plat.closeDebug p).faultLost := by
  unfold Plat.closeDebug; (repeat' split) <;> simp (maxDischargeDepth := 12) [*]
/-- Leaving DEBUG_OPEN is a lawful change (R506). -/
theorem Plat.closeDebug_step (p : Plat) : p.otp.Step p.closeDebug.otp := by
  intro h
  obtain ⟨h1, h2, h3, h4⟩ := h
  unfold Plat.closeDebug
  split
  · rename_i hd
    have := h3 hd
    simp only [Plat.otp] at *
    exact ⟨⟨by dsimp only; omega, by dsimp only; omega, fun h => by dsimp only at *; omega, h4⟩,
      ⟨by dsimp only; omega, Nat.le_refl _, Nat.le_refl _, fun h => by dsimp only at *; omega⟩⟩
  · exact ⟨⟨h1, h2, h3, h4⟩, ⟨Nat.le_refl _, Nat.le_refl _, Nat.le_refl _, id⟩⟩

@[simp] theorem Dev.startZero_sound (d : Dev) (hs : d.Sound) : (Dev.startZero d).Sound := by
  unfold Dev.startZero
  have : LogOk d.plat.noFault.closeDebug.faultLog d.plat.noFault.closeDebug.faultLost := by
    unfold Plat.closeDebug
    split <;> exact hs.log
  extract_lets p q
  split
  · exact ⟨hs.mem, hs.poison, rfl, hs.log⟩
  · exact Dev.askOn_sound _ _ ⟨hs.mem, hs.poison, hs.ctr, this⟩
/-- A start changes the cells lawfully. -/
theorem Dev.startZero_step (d : Dev) : d.plat.otp.Step d.startZero.plat.otp := by
  unfold Dev.startZero
  extract_lets p q
  split
  · exact Otp.Step.refl _
  · rw [Dev.askOn_otp]
    exact Plat.closeDebug_step d.plat.noFault

@[simp] theorem Dev.huskStart_sound (d : Dev) (hs : d.Sound) : (Dev.huskStart d).Sound := by
  unfold Dev.huskStart; simp (maxDischargeDepth := 12) [*]
/-- A start by the Husk changes the cells lawfully. -/
theorem Dev.huskStart_step (d : Dev) : d.plat.otp.Step d.huskStart.plat.otp := by
  unfold Dev.huskStart
  exact (Otp.Step.of_eq (Dev.cleared_otp ..)).trans (Dev.startZero_step _)

@[simp] theorem Dev.failStart_sound (d : Dev) (reason : Nat) (hs : d.Sound) : (Dev.failStart d reason).Sound := by
  unfold Dev.failStart; simp (maxDischargeDepth := 12) [*]

@[simp] theorem Dev.failStart_otp (d : Dev) (reason : Nat) : (Dev.failStart d reason).plat.otp = d.plat.otp := by
  unfold Dev.failStart; simp (maxDischargeDepth := 12) [*]


/-! ## Power -/

@[simp] theorem Dev.senseDom_sound (d : Dev) (id : Nat) (t : Int) (hs : d.Sound) : (Dev.senseDom d id t).Sound := by
  unfold Dev.senseDom; simp (maxDischargeDepth := 12) [*]

@[simp] theorem Dev.senseDom_otp (d : Dev) (id : Nat) (t : Int) : (Dev.senseDom d id t).plat.otp = d.plat.otp := by
  unfold Dev.senseDom; simp (maxDischargeDepth := 12) [*]

@[simp] theorem Dev.thermTrip_sound (d : Dev) (hs : d.Sound) : (Dev.thermTrip d).Sound := by
  unfold Dev.thermTrip; simp (maxDischargeDepth := 12) [*]

@[simp] theorem Dev.thermTrip_otp (d : Dev) : (Dev.thermTrip d).plat.otp = d.plat.otp := by
  unfold Dev.thermTrip; simp (maxDischargeDepth := 12) [*]

@[simp] theorem Dev.thermAlert_sound (d : Dev) (temps : List Int) (hs : d.Sound) : (Dev.thermAlert d temps).Sound := by
  unfold Dev.thermAlert; simp (maxDischargeDepth := 12) [*]

@[simp] theorem Dev.thermAlert_otp (d : Dev) (temps : List Int) : (Dev.thermAlert d temps).plat.otp = d.plat.otp := by
  unfold Dev.thermAlert; simp (maxDischargeDepth := 12) [*]

@[simp] theorem Plat.brakeOff_sound (p : Plat) (hp : LogOk p.faultLog p.faultLost) :
    LogOk (Plat.brakeOff p).faultLog (Plat.brakeOff p).faultLost := by
  unfold Plat.brakeOff; (repeat' split) <;> simp (maxDischargeDepth := 12) [*]

@[simp] theorem Plat.brakeOff_otp (p : Plat) : (Plat.brakeOff p).otp = p.otp := by
  unfold Plat.brakeOff; (repeat' split) <;> simp (maxDischargeDepth := 12) [*]

end Sys2Proof.Machine
end

