-- ==== Sys2Proof/Laws/KeepCores.lean ====
section
/-! SUPPORT. The cores, engines and pod sequencers keep a device sound and leave the one-time-programmable cells alone. -/

namespace Sys2Proof.Machine

/-! ## CoreOps -/

theorem logOk_foldl {β : Type} (f : Plat → β → Plat) (l : List β) (p : Plat)
    (hf : ∀ p x, LogOk p.faultLog p.faultLost → LogOk (f p x).faultLog (f p x).faultLost) (h : LogOk p.faultLog p.faultLost) :
    LogOk (l.foldl f p).faultLog (l.foldl f p).faultLost := foldl_keeps (fun p => LogOk p.faultLog p.faultLost) f hf l p h

@[simp] theorem wf_addKinds (ctr : Tab Nat) (inst : Nat → Nat) (cnt : Tab Nat) (h : Counters.wf ctr = true) :
    Counters.wf (addKinds ctr inst cnt) = true :=
  foldl_keeps (fun c => Counters.wf c = true) _ (fun c x hc => by split <;> exact wf_bump c _ _ _ hc) cnt ctr h

@[simp] theorem wf_addCounts (ctr : Tab Nat) (n e : Nat) (cnt : Tab Nat) (h : Counters.wf ctr = true) : Counters.wf (addCounts ctr n e cnt) = true :=
  wf_addKinds _ _ _ h

@[simp] theorem Dev.updPlan_sound (d : Dev) (h : Nat) (f : Plan → Plan) (hs : d.Sound) : (Dev.updPlan d h f).Sound := by
  unfold Dev.updPlan; simp (maxDischargeDepth := 12) [*]

@[simp] theorem Dev.updPlan_otp (d : Dev) (h : Nat) (f : Plan → Plan) : (Dev.updPlan d h f).plat.otp = d.plat.otp := by
  unfold Dev.updPlan; simp (maxDischargeDepth := 12) [*]

@[simp] theorem Dev.updCore_sound (d : Dev) (n : Nat) (f : Core → Core) (hs : d.Sound) : (Dev.updCore d n f).Sound := by
  unfold Dev.updCore; simp (maxDischargeDepth := 12) [*]

@[simp] theorem Dev.updCore_otp (d : Dev) (n : Nat) (f : Core → Core) : (Dev.updCore d n f).plat.otp = d.plat.otp := by
  unfold Dev.updCore; simp (maxDischargeDepth := 12) [*]

@[simp] theorem Dev.updTask_sound (d : Dev) (n : Nat) (f : Task → Task) (hs : d.Sound) : (Dev.updTask d n f).Sound := by
  unfold Dev.updTask; simp (maxDischargeDepth := 12) [*]

@[simp] theorem Dev.updTask_otp (d : Dev) (n : Nat) (f : Task → Task) : (Dev.updTask d n f).plat.otp = d.plat.otp := by
  unfold Dev.updTask; simp (maxDischargeDepth := 12) [*]

@[simp] theorem Dev.updRun_sound (d : Dev) (h : Nat) (second : Bool) (f : StepRun → StepRun) (hs : d.Sound) : (Dev.updRun d h second f).Sound := by
  unfold Dev.updRun; simp (maxDischargeDepth := 12) [*]

@[simp] theorem Dev.updRun_otp (d : Dev) (h : Nat) (second : Bool) (f : StepRun → StepRun) : (Dev.updRun d h second f).plat.otp = d.plat.otp := by
  unfold Dev.updRun; simp (maxDischargeDepth := 12) [*]

@[simp] theorem Dev.failWork_sound (d : Dev) (c : Ctx) (st : Nat) (entry : Nat) (hs : d.Sound) : (Dev.failWork d c st entry).Sound := by
  unfold Dev.failWork; simp (maxDischargeDepth := 12) [*]

@[simp] theorem Dev.failWork_otp (d : Dev) (c : Ctx) (st : Nat) (entry : Nat) : (Dev.failWork d c st entry).plat.otp = d.plat.otp := by
  unfold Dev.failWork; simp (maxDischargeDepth := 12) [*]

@[simp] theorem Dev.breakPlan_sound (d : Dev) (c : Ctx) (hs : d.Sound) : (Dev.breakPlan d c).Sound := by
  unfold Dev.breakPlan; simp (maxDischargeDepth := 12) [*]

@[simp] theorem Dev.breakPlan_otp (d : Dev) (c : Ctx) : (Dev.breakPlan d c).plat.otp = d.plat.otp := by
  unfold Dev.breakPlan; simp (maxDischargeDepth := 12) [*]

@[simp] theorem Dev.updCtr_sound (d : Dev) (pod : Nat) (n : Nat) (f : TileCtr → TileCtr) (hs : d.Sound) : (Dev.updCtr d pod n f).Sound := by
  unfold Dev.updCtr; simp (maxDischargeDepth := 12) [*]

@[simp] theorem Dev.updCtr_otp (d : Dev) (pod : Nat) (n : Nat) (f : TileCtr → TileCtr) : (Dev.updCtr d pod n f).plat.otp = d.plat.otp := by
  unfold Dev.updCtr; simp (maxDischargeDepth := 12) [*]

@[simp] theorem Dev.tryStop_sound (d : Dev) (n : Nat) (hs : d.Sound) : (Dev.tryStop d n).Sound := by
  unfold Dev.tryStop; dsimp only; (repeat' split) <;> simp (maxDischargeDepth := 12) [*]

@[simp] theorem Dev.tryStop_otp (d : Dev) (n : Nat) : (Dev.tryStop d n).plat.otp = d.plat.otp := by
  unfold Dev.tryStop; dsimp only; (repeat' split) <;> simp (maxDischargeDepth := 12) [*]

@[simp] theorem Dev.sendPages_sound (d : Dev) (c : Ctx) (pod : Nat) (ctr : Nat) (seq : Nat) (hs : d.Sound) :
    (Dev.sendPages d c pod ctr seq).Sound := by
  unfold Dev.sendPages; simp (maxDischargeDepth := 12) [*]

@[simp] theorem Dev.sendPages_otp (d : Dev) (c : Ctx) (pod : Nat) (ctr : Nat) (seq : Nat) :
    (Dev.sendPages d c pod ctr seq).plat.otp = d.plat.otp := by
  unfold Dev.sendPages; simp (maxDischargeDepth := 12) [*]

@[simp] theorem Dev.endClaim_sound (d : Dev) (c : Ctx) (core : Nat) (ctr : Nat) (hs : d.Sound) : (Dev.endClaim d c core ctr).Sound := by
  unfold Dev.endClaim; simp (maxDischargeDepth := 12) [*]

@[simp] theorem Dev.endClaim_otp (d : Dev) (c : Ctx) (core : Nat) (ctr : Nat) : (Dev.endClaim d c core ctr).plat.otp = d.plat.otp := by
  unfold Dev.endClaim; simp (maxDischargeDepth := 12) [*]

@[simp] theorem Dev.reap_sound (d : Dev) (n : Nat) (hs : d.Sound) : (Dev.reap d n).Sound := by
  unfold Dev.reap; (repeat' split) <;> simp (maxDischargeDepth := 12) [*]

@[simp] theorem Dev.reap_otp (d : Dev) (n : Nat) : (Dev.reap d n).plat.otp = d.plat.otp := by
  unfold Dev.reap; (repeat' split) <;> simp (maxDischargeDepth := 12) [*]

@[simp] theorem Dev.startCore_sound (d : Dev) (n : Nat) (hs : d.Sound) : (Dev.startCore d n).Sound := by
  unfold Dev.startCore; (repeat' split) <;> simp (maxDischargeDepth := 12) [*]

@[simp] theorem Dev.startCore_otp (d : Dev) (n : Nat) : (Dev.startCore d n).plat.otp = d.plat.otp := by
  unfold Dev.startCore; (repeat' split) <;> simp (maxDischargeDepth := 12) [*]

@[simp] theorem Dev.startCores_sound (d : Dev) (hs : d.Sound) : (Dev.startCores d).Sound := by
  unfold Dev.startCores
  exact sound_foldl _ _ _ (fun d n h => Dev.startCore_sound d n h) hs

@[simp] theorem Dev.startCores_otp (d : Dev) : (Dev.startCores d).plat.otp = d.plat.otp := by
  unfold Dev.startCores
  exact otp_foldl _ _ _ (fun d n => Dev.startCore_otp d n)

@[simp] theorem Dev.prune_sound (d : Dev) (n : Nat) (hs : d.Sound) : (Dev.prune d n).Sound := by
  unfold Dev.prune; (repeat' split) <;> simp (maxDischargeDepth := 12) [*]

@[simp] theorem Dev.prune_otp (d : Dev) (n : Nat) : (Dev.prune d n).plat.otp = d.plat.otp := by
  unfold Dev.prune; (repeat' split) <;> simp (maxDischargeDepth := 12) [*]

@[simp] theorem Dev.after_sound (d : Dev) (n : Nat) (hs : d.Sound) : (Dev.after d n).Sound := by
  unfold Dev.after; simp (maxDischargeDepth := 12) [*]

@[simp] theorem Dev.after_otp (d : Dev) (n : Nat) : (Dev.after d n).plat.otp = d.plat.otp := by
  unfold Dev.after; simp (maxDischargeDepth := 12) [*]

@[simp] theorem Dev.traceDesc_sound (d : Dev) (type : Nat) (n : Nat) (x : Nat) (hs : d.Sound) : (Dev.traceDesc d type n x).Sound := by
  unfold Dev.traceDesc; simp (maxDischargeDepth := 12) [*]

@[simp] theorem Dev.traceDesc_otp (d : Dev) (type : Nat) (n : Nat) (x : Nat) : (Dev.traceDesc d type n x).plat.otp = d.plat.otp := by
  unfold Dev.traceDesc; simp (maxDischargeDepth := 12) [*]

@[simp] theorem Dev.opDone_sound (d : Dev) (n : Nat) (u : Nat) (o : Op) (hs : d.Sound) : (Dev.opDone d n u o).Sound := by
  unfold Dev.opDone; simp (maxDischargeDepth := 12) [*]

@[simp] theorem Dev.opDone_otp (d : Dev) (n : Nat) (u : Nat) (o : Op) : (Dev.opDone d n u o).plat.otp = d.plat.otp := by
  unfold Dev.opDone; simp (maxDischargeDepth := 12) [*]

@[simp] theorem Dev.work_sound (d : Dev) (n : Nat) (flips : List Nat) (hs : d.Sound) : (Dev.work d n flips).Ok := by
  unfold Dev.work; simp (maxDischargeDepth := 12) [*]

@[simp] theorem Plat.logReads_sound (p : Plat) (unit : Nat) (die : Nat) (descId : Nat) (cmd : Option Cmd) (errs : List Nat) (hp : LogOk p.faultLog p.faultLost) :
    LogOk (Plat.logReads p unit die descId cmd errs).faultLog (Plat.logReads p unit die descId cmd errs).faultLost := by
  unfold Plat.logReads
  exact logOk_foldl _ _ _ (fun p a h => Plat.log_ok p _ h) hp

@[simp] theorem Plat.logReads_otp (p : Plat) (unit : Nat) (die : Nat) (descId : Nat) (cmd : Option Cmd) (errs : List Nat) :
    (Plat.logReads p unit die descId cmd errs).otp = p.otp := by
  unfold Plat.logReads
  exact foldl_keeps (fun q => q.otp = p.otp) _ (fun q a h => (Plat.log_otp q _).trans h) _ _ rfl

@[simp] theorem Dev.traceFaults_sound (d : Dev) (unit : Nat) (die : Nat) (descId : Nat) (cmd : Option Cmd) (errs : List Nat) (hs : d.Sound) :
    (Dev.traceFaults d unit die descId cmd errs).Sound := by
  unfold Dev.traceFaults; (repeat' (first
    | assumption
    | (simp (maxDischargeDepth := 12) [*]; done)
    | with_reducible refine sound_ite ?_ ?_
    | split
    | with_reducible refine sound_foldl _ _ _ (fun _ _ _ => ?_) ?_))

@[simp] theorem Dev.traceFaults_otp (d : Dev) (unit : Nat) (die : Nat) (descId : Nat) (cmd : Option Cmd) (errs : List Nat) :
    (Dev.traceFaults d unit die descId cmd errs).plat.otp = d.plat.otp := by
  unfold Dev.traceFaults; (repeat' (first
    | assumption
    | (simp (maxDischargeDepth := 12) [*]; done)
    | with_reducible refine otp_ite ?_ ?_
    | split
    | with_reducible refine otp_foldl _ _ _ (fun _ _ => ?_)))

@[simp] theorem Dev.noteFault_sound (d : Dev) (inst : Nat) (unit : Nat) (die : Nat) (descId : Nat) (cmd : Option Cmd) (a : Nat) (hs : d.Sound) :
    (Dev.noteFault d inst unit die descId cmd a).Sound := by
  unfold Dev.noteFault; simp (maxDischargeDepth := 12) [*]

@[simp] theorem Dev.noteFault_otp (d : Dev) (inst : Nat) (unit : Nat) (die : Nat) (descId : Nat) (cmd : Option Cmd) (a : Nat) :
    (Dev.noteFault d inst unit die descId cmd a).plat.otp = d.plat.otp := by
  unfold Dev.noteFault; simp (maxDischargeDepth := 12) [*]

@[simp] theorem Dev.absorbUnit_sound (d : Dev) (inst : Nat) (unit : Nat) (die : Nat) (cmd : Option Cmd) (w : Wk) (hs : d.Sound) (hw : w.Ok) :
    (Dev.absorbUnit d inst unit die cmd w).Sound := by
  unfold Dev.absorbUnit
  exact Dev.traceFaults_sound _ _ _ _ _ _ ((Dev.sound_mk ..).2 ⟨Plat.logReads_sound _ _ _ _ _ _ hs.log, hw.mem, hw.poison, wf_bump _ _ _ _ (wf_addKinds _ _ _ hs.ctr)⟩)

@[simp] theorem Dev.absorbUnit_otp (d : Dev) (inst : Nat) (unit : Nat) (die : Nat) (cmd : Option Cmd) (w : Wk) :
    (Dev.absorbUnit d inst unit die cmd w).plat.otp = d.plat.otp := by
  unfold Dev.absorbUnit; simp (maxDischargeDepth := 12) [*]

@[simp] theorem Dev.absorb_sound (d : Dev) (n : Nat) (e : Nat) (unit : Nat) (desc : Nat) (c : Ctx) (w : Wk) (hs : d.Sound) (hw : w.Ok) :
    (Dev.absorb d n e unit desc c w).Sound := by
  unfold Dev.absorb; simp (maxDischargeDepth := 12) [*]

@[simp] theorem Dev.absorb_otp (d : Dev) (n : Nat) (e : Nat) (unit : Nat) (desc : Nat) (c : Ctx) (w : Wk) :
    (Dev.absorb d n e unit desc c w).plat.otp = d.plat.otp := by
  unfold Dev.absorb; simp (maxDischargeDepth := 12) [*]

@[simp] theorem Dev.padCount_sound (d : Dev) (n : Nat) (batch : Nat) (word : Nat) (hs : d.Sound) : (Dev.padCount d n batch word).2.Ok := by
  unfold Dev.padCount; simp (maxDischargeDepth := 12) [*]


/-! ## Cores -/

@[simp] theorem Dev.badSlot_sound (d : Dev) (n : Nat) (x : Nat) (hs : d.Sound) : (Dev.badSlot d n x).2.Ok := by
  unfold Dev.badSlot; (repeat' (first
    | assumption
    | (simp (maxDischargeDepth := 12) [*]; done)
    | with_reducible refine ok_ite ?_ ?_
    | with_reducible refine ok_ite2 ?_ ?_
    | with_reducible refine ok_foldl _ _ _ (fun _ _ _ => ?_) ?_
    | with_reducible refine ok_foldl2 _ _ _ (fun _ _ _ => ?_) ?_))

@[simp] theorem Dev.issue_sound (d : Dev) (n : Nat) (c : Ctx) (x : Nat) (sz : Nat) (body : Bool) (hs : d.Sound) :
    (Dev.issue d n c x sz body).Sound := by
  unfold Dev.issue
  extract_lets ctx counted
  have hc : ∀ d : Dev, d.Sound → (counted d).Sound := fun d h => Dev.traceDesc_sound _ _ _ _ (Dev.count_sound _ _ _ _ h)
  have hx : ∀ f, (ctx f).Sound := fun f => Dev.updCore_sound _ _ _ hs
  clear_value ctx counted
  dsimp only
  (repeat' split) <;> first
    | simp (maxDischargeDepth := 12) [*]; done
    | exact Dev.count_sound _ _ _ _ (hc _ (hx _))
    | exact hc _ (hx _)

@[simp] theorem Dev.issue_otp (d : Dev) (n : Nat) (c : Ctx) (x : Nat) (sz : Nat) (body : Bool) :
    (Dev.issue d n c x sz body).plat.otp = d.plat.otp := by
  unfold Dev.issue
  extract_lets ctx counted
  have hc : ∀ d : Dev, (counted d).plat.otp = d.plat.otp := fun d => (Dev.traceDesc_otp _ _ _ _).trans (Dev.count_otp _ _ _ _)
  have hx : ∀ f, (ctx f).plat.otp = d.plat.otp := fun f => Dev.updCore_otp _ _ _
  clear_value ctx counted
  dsimp only
  (repeat' split) <;> first
    | simp (maxDischargeDepth := 12) [*]; done
    | exact (Dev.count_otp _ _ _ _).trans ((hc _).trans (hx _))
    | exact (hc _).trans (hx _)

@[simp] theorem Dev.issueNext_sound (d : Dev) (n : Nat) (hs : d.Sound) : (Dev.issueNext d n).Sound := by
  unfold Dev.issueNext; (repeat' split) <;> simp (maxDischargeDepth := 12) [*]

@[simp] theorem Dev.issueNext_otp (d : Dev) (n : Nat) : (Dev.issueNext d n).plat.otp = d.plat.otp := by
  unfold Dev.issueNext; (repeat' split) <;> simp (maxDischargeDepth := 12) [*]

@[simp] theorem Dev.fatalParity_sound (d : Dev) (hs : d.Sound) : (Dev.fatalParity d).Sound := by
  unfold Dev.fatalParity; simp (maxDischargeDepth := 12) [*]

@[simp] theorem Dev.fatalParity_otp (d : Dev) : (Dev.fatalParity d).plat.otp = d.plat.otp := by
  unfold Dev.fatalParity; simp (maxDischargeDepth := 12) [*]

@[simp] theorem Dev.structFault_sound (d : Dev) (n : Nat) (c : Ctx) (unit : Nat) (a : Nat) (hs : d.Sound) : (Dev.structFault d n c unit a).Sound := by
  unfold Dev.structFault; simp (maxDischargeDepth := 12) [*]

@[simp] theorem Dev.structFault_otp (d : Dev) (n : Nat) (c : Ctx) (unit : Nat) (a : Nat) : (Dev.structFault d n c unit a).plat.otp = d.plat.otp := by
  unfold Dev.structFault; simp (maxDischargeDepth := 12) [*]

theorem Dev.issueFrom_sound (d : Dev) (n : Nat) (flips : List Nat) (hs : d.Sound) {d' : Dev} (e : Dev.issueFrom d n flips = some d') : d'.Sound := by
  unfold Dev.issueFrom at e; (repeat' split at e) <;> simp at e <;> (try subst e) <;> simp (maxDischargeDepth := 12) [*]

theorem Dev.issueFrom_otp (d : Dev) (n : Nat) (flips : List Nat) {d' : Dev} (e : Dev.issueFrom d n flips = some d') : d'.plat.otp = d.plat.otp := by
  unfold Dev.issueFrom at e; (repeat' split at e) <;> simp at e <;> (try subst e) <;> simp (maxDischargeDepth := 12) [*]

@[simp] theorem Dev.matDone_sound (d : Dev) (n : Nat) (e : Nat) (flips : List Nat) (c : Ctx) (o : Op) (hs : d.Sound) :
    (Dev.matDone d n e flips c o).Sound := by
  unfold Dev.matDone; simp (maxDischargeDepth := 12) [*]

@[simp] theorem Dev.matDone_otp (d : Dev) (n : Nat) (e : Nat) (flips : List Nat) (c : Ctx) (o : Op) :
    (Dev.matDone d n e flips c o).plat.otp = d.plat.otp := by
  unfold Dev.matDone; simp (maxDischargeDepth := 12) [*]

theorem Dev.engineDone_sound (d : Dev) (n : Nat) (e : Nat) (op : Nat) (flips : List Nat) (hs : d.Sound) {d' : Dev} (e : Dev.engineDone d n e op flips = some d') :
    d'.Sound := by
  unfold Dev.engineDone at e
  split at e
  · simp only [Option.map_eq_some_iff] at e
    obtain ⟨⟨c, o⟩, -, rfl⟩ := e
    exact Dev.matDone_sound _ _ _ _ _ _ hs
  · simp at e

theorem Dev.engineDone_otp (d : Dev) (n : Nat) (e : Nat) (op : Nat) (flips : List Nat) {d' : Dev} (e : Dev.engineDone d n e op flips = some d') :
    d'.plat.otp = d.plat.otp := by
  unfold Dev.engineDone at e
  split at e
  · simp only [Option.map_eq_some_iff] at e
    obtain ⟨⟨c, o⟩, -, rfl⟩ := e
    exact Dev.matDone_otp _ _ _ _ _ _
  · simp at e

theorem Dev.vectorDone_sound (d : Dev) (n : Nat) (flips : List Nat) (hs : d.Sound) {d' : Dev} (e : Dev.vectorDone d n flips = some d') :
    d'.Sound := by
  unfold Dev.vectorDone at e; (repeat' split at e) <;> simp at e <;> (try subst e) <;> simp (maxDischargeDepth := 12) [*]

theorem Dev.vectorDone_otp (d : Dev) (n : Nat) (flips : List Nat) {d' : Dev} (e : Dev.vectorDone d n flips = some d') : d'.plat.otp = d.plat.otp := by
  unfold Dev.vectorDone at e; (repeat' split at e) <;> simp at e <;> (try subst e) <;> simp (maxDischargeDepth := 12) [*]

@[simp] theorem Wk.freeAcc_sound (w : Wk) (n : Nat) (hw : w.Ok) : (Wk.freeAcc w n).Ok := by
  unfold Wk.freeAcc; simp (maxDischargeDepth := 12) [*]

@[simp] theorem Wk.attention_sound (w : Wk) (n : Nat) (x : Nat) (seed : Nat) (step : Nat) (u0 : Nat) (u1 : Nat) (hw : w.Ok) :
    (Wk.attention w n x seed step u0 u1).Ok := by
  unfold Wk.attention; simp (maxDischargeDepth := 12) [*]

theorem Dev.attnDone_sound (d : Dev) (n : Nat) (flips : List Nat) (hs : d.Sound) {d' : Dev} (e : Dev.attnDone d n flips = some d') : d'.Sound := by
  unfold Dev.attnDone at e; dsimp only at e; (repeat' split at e) <;> simp at e <;> (try subst e) <;> (repeat' (first
    | assumption
    | (simp (maxDischargeDepth := 12) [*]; done)))

theorem Dev.attnDone_otp (d : Dev) (n : Nat) (flips : List Nat) {d' : Dev} (e : Dev.attnDone d n flips = some d') : d'.plat.otp = d.plat.otp := by
  unfold Dev.attnDone at e; dsimp only at e; (repeat' split at e) <;> simp at e <;> (try subst e) <;> (repeat' (first
    | assumption
    | (simp (maxDischargeDepth := 12) [*]; done)))

@[simp] theorem Wk.move_sound (w : Wk) (x : Nat) (seed : Nat) (step : Nat) (hw : w.Ok) : (Wk.move w x seed step).Ok := by
  unfold Wk.move; simp (maxDischargeDepth := 12) [*]

theorem Dev.arrive_sound (d : Dev) (n : Nat) (hs : d.Sound) {d' : Dev} (e : Dev.arrive d n = some d') : d'.Sound := by
  unfold Dev.arrive at e; (repeat' split at e) <;> simp at e <;> (try subst e) <;> simp (maxDischargeDepth := 12) [*]

theorem Dev.arrive_otp (d : Dev) (n : Nat) {d' : Dev} (e : Dev.arrive d n = some d') : d'.plat.otp = d.plat.otp := by
  unfold Dev.arrive at e; (repeat' split at e) <;> simp at e <;> (try subst e) <;> simp (maxDischargeDepth := 12) [*]

theorem Dev.stopAt__sound (d : Dev) (n : Nat) (e : Nat) (tiles : Nat) (flips : List Nat) (hs : d.Sound) {d' : Dev} (e : Dev.stopAt_ d n e tiles flips = some d') :
    d'.Sound := by
  unfold Dev.stopAt_ at e; dsimp only at e; (repeat' split at e) <;> simp at e <;> (try subst e) <;> (repeat' (first
    | assumption
    | (simp (maxDischargeDepth := 12) [*]; done)))

theorem Dev.stopAt__otp (d : Dev) (n : Nat) (e : Nat) (tiles : Nat) (flips : List Nat) {d' : Dev} (e : Dev.stopAt_ d n e tiles flips = some d') :
    d'.plat.otp = d.plat.otp := by
  unfold Dev.stopAt_ at e; dsimp only at e; (repeat' split at e) <;> simp at e <;> (try subst e) <;> (repeat' (first
    | assumption
    | (simp (maxDischargeDepth := 12) [*]; done)))


/-! ## Tiles -/

@[simp] theorem Dev.fenceTick_sound (d : Dev) (hs : d.Sound) : (Dev.fenceTick d).Sound := by
  unfold Dev.fenceTick; simp (maxDischargeDepth := 12) [*]

@[simp] theorem Dev.fenceTick_otp (d : Dev) : (Dev.fenceTick d).plat.otp = d.plat.otp := by
  unfold Dev.fenceTick; simp (maxDischargeDepth := 12) [*]

@[simp] theorem Dev.armFor_sound (d : Dev) (pod : Nat) (ctr : Nat) (w : Work) (l : LoopDecl) (hs : d.Sound) : (Dev.armFor d pod ctr w l).Sound := by
  unfold Dev.armFor; dsimp only; (repeat' split) <;> simp (maxDischargeDepth := 12) [*]

@[simp] theorem Dev.armFor_otp (d : Dev) (pod : Nat) (ctr : Nat) (w : Work) (l : LoopDecl) : (Dev.armFor d pod ctr w l).plat.otp = d.plat.otp := by
  unfold Dev.armFor; dsimp only; (repeat' split) <;> simp (maxDischargeDepth := 12) [*]

theorem Dev.arm_sound (d : Dev) (pod : Nat) (ctr : Nat) (hs : d.Sound) {d' : Dev} (e : Dev.arm d pod ctr = some d') : d'.Sound := by
  unfold Dev.arm at e
  dsimp only at e
  split at e
  · simp at e
  · obtain ⟨w, -, hw⟩ := List.exists_of_findSome?_eq_some e
    simp only [Option.map_eq_some_iff] at hw
    obtain ⟨l, -, rfl⟩ := hw
    exact Dev.armFor_sound _ _ _ _ _ hs

theorem Dev.arm_otp (d : Dev) (pod : Nat) (ctr : Nat) {d' : Dev} (e : Dev.arm d pod ctr = some d') : d'.plat.otp = d.plat.otp := by
  unfold Dev.arm at e
  dsimp only at e
  split at e
  · simp at e
  · obtain ⟨w, -, hw⟩ := List.exists_of_findSome?_eq_some e
    simp only [Option.map_eq_some_iff] at hw
    obtain ⟨l, -, rfl⟩ := hw
    exact Dev.armFor_otp _ _ _ _ _

@[simp] theorem Dev.reapSaved_sound (d : Dev) (m : Nat) (ctr : Nat) (hs : d.Sound) : (Dev.reapSaved d m ctr).Sound := by
  unfold Dev.reapSaved; (repeat' split) <;> simp (maxDischargeDepth := 12) [*]

@[simp] theorem Dev.reapSaved_otp (d : Dev) (m : Nat) (ctr : Nat) : (Dev.reapSaved d m ctr).plat.otp = d.plat.otp := by
  unfold Dev.reapSaved; (repeat' split) <;> simp (maxDischargeDepth := 12) [*]

@[simp] theorem Dev.traceTile_sound (d : Dev) (type : Nat) (n : Nat) (ctr : Nat) (idx : Nat) (epoch : Nat) (accepted : Nat) (hs : d.Sound) :
    (Dev.traceTile d type n ctr idx epoch accepted).Sound := by
  unfold Dev.traceTile; simp (maxDischargeDepth := 12) [*]

@[simp] theorem Dev.traceTile_otp (d : Dev) (type : Nat) (n : Nat) (ctr : Nat) (idx : Nat) (epoch : Nat) (accepted : Nat) :
    (Dev.traceTile d type n ctr idx epoch accepted).plat.otp = d.plat.otp := by
  unfold Dev.traceTile; simp (maxDischargeDepth := 12) [*]

@[simp] theorem Dev.complete_sound (d : Dev) (n : Nat) (c : Ctx) (ctr : Nat) (idx : Nat) (hs : d.Sound) : (Dev.complete d n c ctr idx).Sound := by
  unfold Dev.complete
  extract_lets pod t epoch a cost d1 d2 d3 d4 others
  have h1 : d1.Sound := Dev.traceTile_sound _ _ _ _ _ _ _ (Dev.store_sound _ _ _ hs)
  have h2 : d2.Sound := sound_ite (Dev.updPod_sound _ _ _ h1) h1
  have h4 : d4.Sound := Dev.endClaim_sound _ _ _ _ (Dev.updCtr_sound _ _ _ _ h2)
  clear_value d4
  refine sound_ite (Dev.endClaim_sound _ _ _ _ (Dev.structFault_sound _ _ _ _ _ hs))
    (sound_ite (Dev.endClaim_sound _ _ _ _ (Dev.traceTile_sound _ _ _ _ _ _ _ (Dev.count_sound _ _ _ _ hs))) ?_)
  exact sound_foldl _ _ _ (fun d m h => Dev.after_sound _ _ (Dev.reapSaved_sound _ _ _ h)) h4

@[simp] theorem Dev.complete_otp (d : Dev) (n : Nat) (c : Ctx) (ctr : Nat) (idx : Nat) : (Dev.complete d n c ctr idx).plat.otp = d.plat.otp := by
  unfold Dev.complete
  extract_lets pod t epoch a cost d1 d2 d3 d4 others
  have h1 : d1.plat.otp = d.plat.otp := Dev.traceTile_otp _ _ _ _ _ _ _
  have h2 : d2.plat.otp = d.plat.otp := otp_ite ((Dev.updPod_otp _ _ _).trans h1) h1
  have h4 : d4.plat.otp = d.plat.otp := ((Dev.endClaim_otp _ _ _ _).trans (Dev.updCtr_otp _ _ _ _)).trans h2
  clear_value d4
  refine otp_ite ((Dev.endClaim_otp _ _ _ _).trans (Dev.structFault_otp _ _ _ _ _))
    (otp_ite ((Dev.endClaim_otp _ _ _ _).trans (Dev.traceTile_otp _ _ _ _ _ _ _)) ?_)
  exact (otp_foldl _ _ _ (fun d m => (Dev.after_otp _ _).trans (Dev.reapSaved_otp _ _ _))).trans h4

@[simp] theorem Dev.nextClaim_sound (d : Dev) (n : Nat) (hs : d.Sound) : (Dev.nextClaim d n).Sound := by
  unfold Dev.nextClaim; simp (maxDischargeDepth := 12) [*]

@[simp] theorem Dev.nextClaim_otp (d : Dev) (n : Nat) : (Dev.nextClaim d n).plat.otp = d.plat.otp := by
  unfold Dev.nextClaim; simp (maxDischargeDepth := 12) [*]

theorem Dev.tileDone_sound (d : Dev) (n : Nat) (hs : d.Sound) {d' : Dev} (e : Dev.tileDone d n = some d') : d'.Sound := by
  unfold Dev.tileDone at e; (repeat' split at e) <;> simp at e <;> (try subst e) <;> simp (maxDischargeDepth := 12) [*]

theorem Dev.tileDone_otp (d : Dev) (n : Nat) {d' : Dev} (e : Dev.tileDone d n = some d') : d'.plat.otp = d.plat.otp := by
  unfold Dev.tileDone at e; (repeat' split at e) <;> simp at e <;> (try subst e) <;> simp (maxDischargeDepth := 12) [*]

@[simp] theorem Dev.takeTile_sound (d : Dev) (n : Nat) (c : Ctx) (l : LoopRun) (idx : Nat) (epoch : Nat) (hs : d.Sound) :
    (Dev.takeTile d n c l idx epoch).Sound := by
  unfold Dev.takeTile
  extract_lets pod ctr t d1 a rec_ 
  have h1 : d1.Sound := Dev.traceTile_sound _ _ _ _ _ _ _ (Dev.updCtr_sound _ _ _ _ hs)
  clear_value d1
  refine sound_ite (Dev.endClaim_sound _ _ _ _ (Dev.structFault_sound _ _ _ _ _ h1)) ?_
  have h2 : (if (t.padSkip && !c.live) = true then
      match d1.padCount n (d1.stepBatch c) (bits rec_ 960 64) with
      | (k, w) => (some k, if w.bad = true then d1.absorb n 0 3 0 c w else d1)
      else ((none : Option Nat), d1)).2.Sound := by
    split
    · exact sound_ite (Dev.absorb_sound _ _ _ _ _ _ _ h1 (Dev.padCount_sound _ _ _ _ h1)) h1
    · exact h1
  revert h2
  generalize (if (t.padSkip && !c.live) = true then
      match d1.padCount n (d1.stepBatch c) (bits rec_ 960 64) with
      | (k, w) => (some k, if w.bad = true then d1.absorb n 0 3 0 c w else d1)
      else ((none : Option Nat), d1)) = x
  intro h2
  have h3 := Dev.updCore_sound x.2 n (fun k => { k with ctx := some { c with loop := some { l with idx := some idx, epoch := epoch, record := rec_, at_ := 0, padC := x.1, waitClaim := false } } }) h2
  exact sound_ite (Dev.nextClaim_sound _ _ (Dev.complete_sound _ _ _ _ _ (Dev.count_sound _ _ _ _ h3))) h3

@[simp] theorem Dev.takeTile_otp (d : Dev) (n : Nat) (c : Ctx) (l : LoopRun) (idx : Nat) (epoch : Nat) :
    (Dev.takeTile d n c l idx epoch).plat.otp = d.plat.otp := by
  unfold Dev.takeTile
  extract_lets pod ctr t d1 a rec_ 
  have h1 : d1.plat.otp = d.plat.otp := (Dev.traceTile_otp _ _ _ _ _ _ _).trans (Dev.updCtr_otp _ _ _ _)
  clear_value d1
  refine otp_ite (((Dev.endClaim_otp _ _ _ _).trans (Dev.structFault_otp _ _ _ _ _)).trans h1) ?_
  have h2 : (if (t.padSkip && !c.live) = true then
      match d1.padCount n (d1.stepBatch c) (bits rec_ 960 64) with
      | (k, w) => (some k, if w.bad = true then d1.absorb n 0 3 0 c w else d1)
      else ((none : Option Nat), d1)).2.plat.otp = d.plat.otp := by
    split
    · exact otp_ite ((Dev.absorb_otp _ _ _ _ _ _ _).trans h1) h1
    · exact h1
  revert h2
  generalize (if (t.padSkip && !c.live) = true then
      match d1.padCount n (d1.stepBatch c) (bits rec_ 960 64) with
      | (k, w) => (some k, if w.bad = true then d1.absorb n 0 3 0 c w else d1)
      else ((none : Option Nat), d1)) = x
  intro h2
  have h3 := (Dev.updCore_otp x.2 n (fun k => { k with ctx := some { c with loop := some { l with idx := some idx, epoch := epoch, record := rec_, at_ := 0, padC := x.1, waitClaim := false } } })).trans h2
  exact otp_ite (((Dev.nextClaim_otp _ _).trans (Dev.complete_otp _ _ _ _ _)).trans ((Dev.count_otp _ _ _ _).trans h3)) h3

theorem Dev.claim_sound (d : Dev) (n : Nat) (hs : d.Sound) {d' : Dev} (e : Dev.claim d n = some d') : d'.Sound := by
  unfold Dev.claim at e; dsimp only at e; (repeat' split at e) <;> simp at e <;> (try subst e) <;> (repeat' (first
    | assumption
    | (simp (maxDischargeDepth := 12) [*]; done)))

theorem Dev.claim_otp (d : Dev) (n : Nat) {d' : Dev} (e : Dev.claim d n = some d') : d'.plat.otp = d.plat.otp := by
  unfold Dev.claim at e; dsimp only at e; (repeat' split at e) <;> simp at e <;> (try subst e) <;> (repeat' (first
    | assumption
    | (simp (maxDischargeDepth := 12) [*]; done)))

theorem Dev.reissue_sound (d : Dev) (pod : Nat) (ctr : Nat) (idx : Nat) (hs : d.Sound) {d' : Dev} (e : Dev.reissue d pod ctr idx = some d') :
    d'.Sound := by
  unfold Dev.reissue at e; (repeat' split at e) <;> simp at e <;> (try subst e) <;> simp (maxDischargeDepth := 12) [*]

theorem Dev.reissue_otp (d : Dev) (pod : Nat) (ctr : Nat) (idx : Nat) {d' : Dev} (e : Dev.reissue d pod ctr idx = some d') :
    d'.plat.otp = d.plat.otp := by
  unfold Dev.reissue at e; (repeat' split at e) <;> simp at e <;> (try subst e) <;> simp (maxDischargeDepth := 12) [*]

theorem Dev.pageIn_sound (d : Dev) (src : Nat) (flips : List Nat) (hs : d.Sound) {d' : Dev} (e : Dev.pageIn d src flips = some d') : d'.Sound := by
  unfold Dev.pageIn at e
  split at e
  · simp at e
  · rename_i p _
    dsimp -zeta only at e
    extract_lets work cmd w d1 d2 d3 d4 at e
    have hw : w.Ok := Wk.write_sound _ _ _ (Wk.read_sound _ _ _ ((Wk.ok_mk ..).2 ⟨hs.mem, hs.poison⟩))
    have h1 : d1.Sound := Dev.absorbUnit_sound _ _ _ _ _ _ hs hw
    have h2 : d2.Sound := sound_foldl _ _ _ (fun d a h => Dev.storeNat_sound _ _ _ _ h) h1
    have h3 : d3.Sound := Dev.updPod_sound _ _ _ h2
    have h4 : d4.Sound := by
      refine sound_ite h3 ?_
      split
      · exact Dev.updPod_sound _ _ _ h3
      · exact h3
    clear_value d4 d3 d2 d1 cmd work
    simp only [Option.some.injEq] at e
    subst e
    refine sound_ite ?_ h4
    split
    · exact Dev.updRun_sound _ _ _ _ h4
    · exact h4

theorem Dev.pageIn_otp (d : Dev) (src : Nat) (flips : List Nat) {d' : Dev} (e : Dev.pageIn d src flips = some d') : d'.plat.otp = d.plat.otp := by
  unfold Dev.pageIn at e
  split at e
  · simp at e
  · rename_i p _
    dsimp -zeta only at e
    extract_lets work cmd w d1 d2 d3 d4 at e
    have h1 : d1.plat.otp = d.plat.otp := Dev.absorbUnit_otp _ _ _ _ _ _
    have h2 : d2.plat.otp = d.plat.otp := (otp_foldl _ _ _ (fun d a => Dev.storeNat_otp _ _ _ _)).trans h1
    have h3 : d3.plat.otp = d.plat.otp := (Dev.updPod_otp _ _ _).trans h2
    have h4 : d4.plat.otp = d.plat.otp := by
      refine otp_ite h3 ?_
      split
      · exact (Dev.updPod_otp _ _ _).trans h3
      · exact h3
    clear_value d4 d3 d2 d1 cmd work
    simp only [Option.some.injEq] at e
    subst e
    refine otp_ite ?_ h4
    split
    · exact (Dev.updRun_otp _ _ _ _).trans h4
    · exact h4

end Sys2Proof.Machine
end

