-- ==== Sys2Proof/Laws/KeepCob.lean ====
section
/-! SUPPORT. The Cob, the steps and the plans keep a device sound and leave the one-time-programmable cells alone. -/

namespace Sys2Proof.Machine

/-! ## Cob -/

@[simp] theorem Dev.cobWork_sound (d : Dev) (flips : List Nat) (hs : d.Sound) : (Dev.cobWork d flips).Ok := by
  unfold Dev.cobWork; simp (maxDischargeDepth := 12) [*]

@[simp] theorem Dev.absorbCob_sound (d : Dev) (unit : Nat) (cmd : Option Cmd) (w : Wk) (hs : d.Sound) (hw : w.Ok) :
    (Dev.absorbCob d unit cmd w).Sound := by
  unfold Dev.absorbCob
  exact Dev.absorbUnit_sound _ _ _ _ _ _ hs hw

@[simp] theorem Dev.absorbCob_otp (d : Dev) (unit : Nat) (cmd : Option Cmd) (w : Wk) : (Dev.absorbCob d unit cmd w).plat.otp = d.plat.otp := by
  unfold Dev.absorbCob; simp (maxDischargeDepth := 12) [*]

@[simp] theorem Dev.absorbFault_sound (d : Dev) (unit : Nat) (cmd : Option Cmd) (w : Wk) (hs : d.Sound) (hw : w.Ok) :
    (Dev.absorbFault d unit cmd w).Sound := by
  unfold Dev.absorbFault; simp (maxDischargeDepth := 12) [*]

@[simp] theorem Dev.absorbFault_otp (d : Dev) (unit : Nat) (cmd : Option Cmd) (w : Wk) : (Dev.absorbFault d unit cmd w).plat.otp = d.plat.otp := by
  unfold Dev.absorbFault; simp (maxDischargeDepth := 12) [*]

@[simp] theorem Dev.quarantine_sound (d : Dev) (i : Nat) (hs : d.Sound) : (Dev.quarantine d i).Sound := by
  unfold Dev.quarantine; dsimp only; (repeat' split) <;> simp (maxDischargeDepth := 12) [*]

@[simp] theorem Dev.quarantine_otp (d : Dev) (i : Nat) : (Dev.quarantine d i).plat.otp = d.plat.otp := by
  unfold Dev.quarantine; dsimp only; (repeat' split) <;> simp (maxDischargeDepth := 12) [*]

@[simp] theorem Dev.takeUp_sound (d : Dev) (s : Nat) (u : Nat) (y : Nat) (hs : d.Sound) : (Dev.takeUp d s u y).Sound := by
  unfold Dev.takeUp; simp (maxDischargeDepth := 12) [*]

@[simp] theorem Dev.takeUp_otp (d : Dev) (s : Nat) (u : Nat) (y : Nat) : (Dev.takeUp d s u y).plat.otp = d.plat.otp := by
  unfold Dev.takeUp; simp (maxDischargeDepth := 12) [*]

@[simp] theorem Dev.assign1_sound (d : Dev) (u : Nat) (hs : d.Sound) : (Dev.assign1 d u).Sound := by
  unfold Dev.assign1; dsimp only; (repeat' split) <;> simp (maxDischargeDepth := 12) [*]

@[simp] theorem Dev.assign1_otp (d : Dev) (u : Nat) : (Dev.assign1 d u).plat.otp = d.plat.otp := by
  unfold Dev.assign1; dsimp only; (repeat' split) <;> simp (maxDischargeDepth := 12) [*]

@[simp] theorem Dev.assign_sound (d : Dev) (hs : d.Sound) : (Dev.assign d).Sound := by
  unfold Dev.assign; simp (maxDischargeDepth := 12) [*]

@[simp] theorem Dev.assign_otp (d : Dev) : (Dev.assign d).plat.otp = d.plat.otp := by
  unfold Dev.assign; simp (maxDischargeDepth := 12) [*]

@[simp] theorem Dev.openFence_sound (d : Dev) (pod : Nat) (y : Nat) (tag : Nat) (hs : d.Sound) : (Dev.openFence d pod y tag).Sound := by
  unfold Dev.openFence; simp (maxDischargeDepth := 12) [*]

@[simp] theorem Dev.openFence_otp (d : Dev) (pod : Nat) (y : Nat) (tag : Nat) : (Dev.openFence d pod y tag).plat.otp = d.plat.otp := by
  unfold Dev.openFence; simp (maxDischargeDepth := 12) [*]

@[simp] theorem Dev.skipLayer_sound (d : Dev) (h : Nat) (s : Nat) (y : Nat) (hs : d.Sound) : (Dev.skipLayer d h s y).Sound := by
  unfold Dev.skipLayer
  extract_lets is d1 c c' c'' e
  have h1 : d1.Sound := sound_foldl _ _ _ (fun d i h => Dev.storeNat_sound _ _ _ _ h) hs
  have h2 : e.Sound := (Dev.sound_mk ..).2 ⟨h1.log, h1.mem, h1.poison, h1.ctr⟩
  clear_value e
  exact Dev.updRun_sound _ _ _ _ (sound_foldl _ _ _ (fun d p h => Dev.openFence_sound d p _ _ h) h2)

@[simp] theorem Dev.skipLayer_otp (d : Dev) (h : Nat) (s : Nat) (y : Nat) : (Dev.skipLayer d h s y).plat.otp = d.plat.otp := by
  unfold Dev.skipLayer
  extract_lets is d1 c c' c'' e
  have h1 : d1.plat.otp = d.plat.otp := otp_foldl _ _ _ (fun d i => Dev.storeNat_otp _ _ _ _)
  have h2 : e.plat.otp = d.plat.otp := h1
  clear_value e
  exact (Dev.updRun_otp _ _ _ _).trans ((otp_foldl _ _ _ (fun d p => Dev.openFence_otp d p _ _)).trans h2)

@[simp] theorem Dev.readyLayers_sound (d : Dev) (hs : d.Sound) : (Dev.readyLayers d).Sound := by
  unfold Dev.readyLayers
  split
  · exact hs
  · rename_i h r _
    dsimp only
    refine sound_ite hs (Dev.assign_sound _ (sound_foldl _ _ _ (fun d i h => Dev.demand_sound d i h) (sound_foldl _ _ _ (fun d y hd => ?_) hs)))
    refine sound_ite (Dev.skipLayer_sound _ _ _ _ hd) ?_
    exact (Dev.sound_mk ..).2 ⟨hd.log, hd.mem, hd.poison, hd.ctr⟩

@[simp] theorem Dev.readyLayers_otp (d : Dev) : (Dev.readyLayers d).plat.otp = d.plat.otp := by
  unfold Dev.readyLayers
  split
  · rfl
  · dsimp only
    refine otp_ite rfl ((Dev.assign_otp _).trans ((otp_foldl _ _ _ (fun d i => Dev.demand_otp d i)).trans (otp_foldl _ _ _ (fun d y => ?_))))
    exact otp_ite (Dev.skipLayer_otp _ _ _ _) rfl

@[simp] theorem Wk.sendCodes_sound (w : Wk) (sy : Sym) (base : Nat) (n0 : Nat) (n1 : Nat) (hw : w.Ok) : (Wk.sendCodes w sy base n0 n1).2.Ok := by
  unfold Wk.sendCodes; (repeat' (first
    | assumption
    | (simp (maxDischargeDepth := 12) [*]; done)
    | with_reducible refine ok_ite ?_ ?_
    | with_reducible refine ok_ite2 ?_ ?_
    | with_reducible refine ok_foldl _ _ _ (fun _ _ _ => ?_) ?_
    | with_reducible refine ok_foldl2 _ _ _ (fun _ _ _ => ?_) ?_))

@[simp] theorem Dev.placeShard_sound (d : Dev) (p : Plan) (t : TensorDecl) (k : Nat) (codes : List Nat) (hs : d.Sound) :
    (Dev.placeShard d p t k codes).Sound := by
  unfold Dev.placeShard; (repeat' split) <;> simp (maxDischargeDepth := 12) [*]

@[simp] theorem Dev.placeShard_otp (d : Dev) (p : Plan) (t : TensorDecl) (k : Nat) (codes : List Nat) :
    (Dev.placeShard d p t k codes).plat.otp = d.plat.otp := by
  unfold Dev.placeShard; (repeat' split) <;> simp (maxDischargeDepth := 12) [*]

@[simp] theorem Dev.placeShards_sound (d : Dev) (p : Plan) (t : TensorDecl) (k : Nat) (hs : d.Sound) : (d.placeShards p t k).Sound := by
  induction k generalizing d with
  | zero => exact hs
  | succ k ih =>
    unfold Dev.placeShards
    dsimp only
    refine sound_ite hs (ih _ ?_)
    have := Dev.placeShard_sound d p t d.cob.nextShard (d.cob.part.take (p.shardCount t d.cob.nextShard)) hs
    exact (Dev.sound_mk ..).2 ⟨this.log, this.mem, this.poison, this.ctr⟩

@[simp] theorem Dev.placeShards_otp (d : Dev) (p : Plan) (t : TensorDecl) (k : Nat) : (d.placeShards p t k).plat.otp = d.plat.otp := by
  induction k generalizing d with
  | zero => rfl
  | succ k ih =>
    unfold Dev.placeShards
    dsimp only
    exact otp_ite rfl ((ih _).trans (Dev.placeShard_otp d p t _ _))

@[simp] theorem Dev.layerReduced_sound (d : Dev) (h : Nat) (y : Nat) (hs : d.Sound) : (Dev.layerReduced d h y).Sound := by
  unfold Dev.layerReduced; simp (maxDischargeDepth := 12) [*]

@[simp] theorem Dev.layerReduced_otp (d : Dev) (h : Nat) (y : Nat) : (Dev.layerReduced d h y).plat.otp = d.plat.otp := by
  unfold Dev.layerReduced; simp (maxDischargeDepth := 12) [*]

@[simp] theorem Dev.reduceNext_sound (d : Dev) (h : Nat) (hs : d.Sound) : (Dev.reduceNext d h).Sound := by
  unfold Dev.reduceNext; dsimp only; (repeat' split) <;> simp (maxDischargeDepth := 12) [*]

@[simp] theorem Dev.reduceNext_otp (d : Dev) (h : Nat) : (Dev.reduceNext d h).plat.otp = d.plat.otp := by
  unfold Dev.reduceNext; dsimp only; (repeat' split) <;> simp (maxDischargeDepth := 12) [*]

theorem Dev.chunkIn_sound (d : Dev) (pod : Nat) (flips : List Nat) (hs : d.Sound) {d' : Dev} (e : Dev.chunkIn d pod flips = some d') : d'.Sound := by
  unfold Dev.chunkIn at e
  split at e
  · simp at e
  · rename_i h r _
    extract_lets p j at e
    split at e
    · simp at e
    · rename_i t sy c _
      dsimp only at e
      obtain ⟨-, e⟩ := Option.ite_none_left_eq_some.1 e
      have hw := Dev.absorbFault_sound d 7 d.cobCmd ((d.cobWork flips).sendCodes sy (sy.at_ pod) ((chunkElems sy c).headD 0)
        ((chunkElems sy c).headD 0 + (chunkElems sy c).length)).2 hs (Wk.sendCodes_sound _ _ _ _ _ (Dev.cobWork_sound _ _ hs))
      split at e <;> simp only [Option.some.injEq] at e <;> subst e
      · exact Dev.updRun_sound _ _ _ _ hw
      · exact sound_ite (Dev.reduceNext_sound _ _ ((Dev.sound_mk ..).2 ⟨hw.log, hw.mem, hw.poison, hw.ctr⟩))
          ((Dev.sound_mk ..).2 ⟨hw.log, hw.mem, hw.poison, hw.ctr⟩)

theorem Dev.chunkIn_otp (d : Dev) (pod : Nat) (flips : List Nat) {d' : Dev} (e : Dev.chunkIn d pod flips = some d') : d'.plat.otp = d.plat.otp := by
  unfold Dev.chunkIn at e
  split at e
  · simp at e
  · rename_i h r _
    extract_lets p j at e
    split at e
    · simp at e
    · dsimp only at e
      obtain ⟨-, e⟩ := Option.ite_none_left_eq_some.1 e
      split at e <;> simp only [Option.some.injEq] at e <;> subst e
      · exact (Dev.updRun_otp _ _ _ _).trans (Dev.absorbFault_otp _ _ _ _)
      · exact otp_ite ((Dev.reduceNext_otp _ _).trans (Dev.absorbFault_otp _ _ _ _)) (Dev.absorbFault_otp _ _ _ _)

@[simp] theorem Dev.gradFor_sound (d : Dev) (w : Wk) (p : Plan) (r : StepRun) (i : Nat) (hs : d.Sound) (hw : w.Ok) :
    (Dev.gradFor d w p r i).2.Ok := by
  unfold Dev.gradFor; (repeat' (first
    | assumption
    | (simp (maxDischargeDepth := 12) [*]; done)
    | with_reducible refine ok_ite ?_ ?_
    | with_reducible refine ok_ite2 ?_ ?_
    | with_reducible refine ok_foldl _ _ _ (fun _ _ _ => ?_) ?_
    | with_reducible refine ok_foldl2 _ _ _ (fun _ _ _ => ?_) ?_
    | with_reducible refine ok_foldr2 _ _ _ (fun _ _ _ => ?_) ?_
    | with_reducible refine Wk.mapM_ok _ _ _ (fun _ _ _ => ?_) ?_
    | (simp only [Wk.ok_mk]; refine ⟨?_, ?_⟩)
    | split))

theorem gather_ok (is : List Nat) (f : Wk → Nat → List XR × Wk) (w : Wk) (hf : ∀ w x, w.Ok → (f w x).2.Ok) (hw : w.Ok) : (gather is f w).2.Ok := by
  unfold gather
  exact ok_foldl2 _ _ _ (fun x i h => hf _ _ h) hw

@[simp] theorem Dev.lambEnd_sound (d : Dev) (w : Wk) (p : Plan) (r : StepRun) (is : List Nat) (hs : d.Sound) (hw : w.Ok) :
    (Dev.lambEnd d w p r is).Ok := by
  unfold Dev.lambEnd
  dsimp only
  refine Wk.write_sound _ _ _ (Wk.nonfin_sound _ _ (gather_ok _ _ _ (fun w i h => ?_) (gather_ok _ _ _ (fun w i h => Wk.master_sound _ _ h) hw)))
  exact Wk.second_sound _ _ (Wk.moment_sound _ _ (Wk.master_sound _ _ h))

@[simp] theorem Dev.clipEnd_sound (d : Dev) (w : Wk) (p : Plan) (r : StepRun) (is : List Nat) (hs : d.Sound) (hw : w.Ok) :
    (Dev.clipEnd d w p r is).Ok := by
  unfold Dev.clipEnd
  extract_lets i0 s0 g hd
  have hg := gather_ok is (fun w i => d.gradFor w p r i) w (fun w i h => Dev.gradFor_sound d w p r i hs h) hw
  generalize gather is (fun w i => d.gradFor w p r i) w = x at hg ⊢
  obtain ⟨gs, w1⟩ := x
  clear_value s0 g hd i0
  split
  rename_i _ gs' w' he
  obtain ⟨rfl, rfl⟩ := Prod.mk.inj he
  split
  · split
    rename_i _ old w2 he
    have hf := Wk.factors_sound w1 s0 hg
    rw [he] at hf
    extract_lets new_ st stat0 us w3
    have h3 : w3.Ok := Wk.storeRow_sound _ _ _ _ _ _ _ _ _ _ (Wk.nonfin_sound _ _ hf)
    clear_value w3 us stat0
    exact Wk.write_sound _ _ _ (Wk.nonfin_sound _ _ h3)
  · split
    rename_i _ vs w2 he
    have hv := gather_ok is (fun w i =>
        have s := d.shOf p r.step i
        match d.gradFor w p r i with
        | (gs, w) => match w.second s with
          | (vs, w) => (adaV s gs vs, w)) w1
      (fun w i h => by simp only; exact Wk.second_sound _ _ (Dev.gradFor_sound d w p r i hs h)) hg
    rw [he] at hv
    extract_lets us
    clear_value us
    exact Wk.write_sound _ _ _ (Wk.nonfin_sound _ _ hv)

@[simp] theorem Dev.passWork_sound (d : Dev) (p : Plan) (r : StepRun) (i : Nat) (k : Nat) (flips : List Nat) (hs : d.Sound) :
    (Dev.passWork d p r i k flips).Ok := by
  unfold Dev.passWork; (repeat' (first
    | assumption
    | (simp (maxDischargeDepth := 12) [*]; done)
    | with_reducible refine ok_ite ?_ ?_
    | with_reducible refine ok_ite2 ?_ ?_
    | with_reducible refine ok_foldl _ _ _ (fun _ _ _ => ?_) ?_
    | with_reducible refine ok_foldl2 _ _ _ (fun _ _ _ => ?_) ?_
    | with_reducible refine ok_foldr2 _ _ _ (fun _ _ _ => ?_) ?_
    | with_reducible refine Wk.mapM_ok _ _ _ (fun _ _ _ => ?_) ?_
    | (simp only [Wk.ok_mk]; refine ⟨?_, ?_⟩)
    | split))

@[simp] theorem Dev.unitStops_sound (d : Dev) (u : Nat) (hs : d.Sound) : (Dev.unitStops d u).Sound := by
  unfold Dev.unitStops; simp (maxDischargeDepth := 12) [*]

@[simp] theorem Dev.unitStops_otp (d : Dev) (u : Nat) : (Dev.unitStops d u).plat.otp = d.plat.otp := by
  unfold Dev.unitStops; simp (maxDischargeDepth := 12) [*]

theorem Dev.passEnds_sound (d : Dev) (u : Nat) (flips : List Nat) (hs : d.Sound) {d' : Dev} (e : Dev.passEnds d u flips = some d') : d'.Sound := by
  unfold Dev.passEnds at e
  split at e
  · simp at e
  · extract_lets d1 src d2 at e
    have h1 : d1.Sound := Dev.assign1_sound d u hs
    split at e
    · rename_i i k h r _ _
      extract_lets p y w hurt d3 d4 d5 d6 at e
      have hw : w.Ok := Dev.passWork_sound d1 p r i k flips h1
      have h2 : d2.Sound := (Dev.sound_mk ..).2 ⟨h1.log, h1.mem, h1.poison, h1.ctr⟩
      have h3 : d3.Sound := Dev.absorbCob_sound _ _ _ _ h2 hw
      have h4 : d4.Sound := (Dev.sound_mk ..).2 ⟨h3.log, h3.mem, h3.poison, h3.ctr⟩
      have h5 : d5.Sound := sound_ite ((Dev.sound_mk ..).2 ⟨h4.log, h4.mem, h4.poison, h4.ctr⟩) h4
      have h6 : d6.Sound := sound_ite (Dev.updRun_sound _ _ _ _ h5) h5
      clear_value d6
      split at e <;> simp only [Option.some.injEq] at e <;> subst e
      · exact Dev.assign_sound _ (Dev.unitStops_sound _ _ (sound_foldl _ _ _ (fun d i h => Dev.quarantine_sound d i h)
          (Dev.absorbFault_sound _ _ _ _ h2 hw)))
      · exact Dev.assign_sound _ (Dev.unitStops_sound _ _ h6)
    · simp at e

theorem Dev.passEnds_otp (d : Dev) (u : Nat) (flips : List Nat) {d' : Dev} (e : Dev.passEnds d u flips = some d') : d'.plat.otp = d.plat.otp := by
  unfold Dev.passEnds at e
  split at e
  · simp at e
  · extract_lets d1 src d2 at e
    have h1 : d1.plat.otp = d.plat.otp := Dev.assign1_otp d u
    split at e
    · rename_i i k h r _ _
      extract_lets p y w hurt d3 d4 d5 d6 at e
      have h2 : d2.plat.otp = d.plat.otp := h1
      have h3 : d3.plat.otp = d.plat.otp := (Dev.absorbCob_otp _ _ _ _).trans h2
      have h4 : d4.plat.otp = d.plat.otp := h3
      have h5 : d5.plat.otp = d.plat.otp := otp_ite h4 h4
      have h6 : d6.plat.otp = d.plat.otp := otp_ite ((Dev.updRun_otp _ _ _ _).trans h5) h5
      clear_value d6
      split at e <;> simp only [Option.some.injEq] at e <;> subst e
      · exact (Dev.assign_otp _).trans ((Dev.unitStops_otp _ _).trans ((otp_foldl _ _ _ (fun d i => Dev.quarantine_otp d i)).trans
          ((Dev.absorbFault_otp _ _ _ _).trans h2)))
      · exact (Dev.assign_otp _).trans ((Dev.unitStops_otp _ _).trans h6)
    · simp at e

theorem Dev.stageIn_sound (d : Dev) (flips : List Nat) (hs : d.Sound) {d' : Dev} (e : Dev.stageIn d flips = some d') : d'.Sound := by
  unfold Dev.stageIn at e; dsimp only at e; (repeat' split at e) <;> simp at e <;> (try subst e) <;> (repeat' (first
    | assumption
    | (simp (maxDischargeDepth := 12) [*]; done)))

theorem Dev.stageIn_otp (d : Dev) (flips : List Nat) {d' : Dev} (e : Dev.stageIn d flips = some d') : d'.plat.otp = d.plat.otp := by
  unfold Dev.stageIn at e; dsimp only at e; (repeat' split at e) <;> simp at e <;> (try subst e) <;> (repeat' (first
    | assumption
    | (simp (maxDischargeDepth := 12) [*]; done)))

theorem Dev.writtenBack_sound (d : Dev) (i : Nat) (flips : List Nat) (hs : d.Sound) {d' : Dev} (e : Dev.writtenBack d i flips = some d') :
    d'.Sound := by
  unfold Dev.writtenBack at e; dsimp only at e; (repeat' split at e) <;> simp at e <;> (try subst e) <;> (repeat' (first
    | assumption
    | (simp (maxDischargeDepth := 12) [*]; done)))

theorem Dev.writtenBack_otp (d : Dev) (i : Nat) (flips : List Nat) {d' : Dev} (e : Dev.writtenBack d i flips = some d') :
    d'.plat.otp = d.plat.otp := by
  unfold Dev.writtenBack at e; dsimp only at e; (repeat' split at e) <;> simp at e <;> (try subst e) <;> (repeat' (first
    | assumption
    | (simp (maxDischargeDepth := 12) [*]; done)))

@[simp] theorem Wk.rowsOf_sound (w : Wk) (a : Nat) (lb : Nat) (pitch : Nat) (n : Nat) (comp : Bool) (hw : w.Ok) :
    (Wk.rowsOf w a lb pitch n comp).2.Ok := by
  unfold Wk.rowsOf; (repeat' (first
    | assumption
    | (simp (maxDischargeDepth := 12) [*]; done)
    | with_reducible refine ok_ite ?_ ?_
    | with_reducible refine ok_ite2 ?_ ?_
    | with_reducible refine ok_foldl _ _ _ (fun _ _ _ => ?_) ?_
    | with_reducible refine ok_foldl2 _ _ _ (fun _ _ _ => ?_) ?_))

@[simp] theorem Wk.symElems_sound (w : Wk) (sy : Sym) (base : Nat) (hw : w.Ok) : (Wk.symElems w sy base).2.Ok := by
  unfold Wk.symElems; simp (maxDischargeDepth := 12) [*]

@[simp] theorem Wk.symScales_sound (w : Wk) (sy : Sym) (base : Nat) (hw : w.Ok) : (Wk.symScales w sy base).2.Ok := by
  unfold Wk.symScales; simp (maxDischargeDepth := 12) [*]

@[simp] theorem Wk.digest_sound (w : Wk) (sys : List Sym) (place : Sym → Nat) (hw : w.Ok) : (Wk.digest w sys place).2.Ok := by
  unfold Wk.digest; (repeat' (first
    | assumption
    | (simp (maxDischargeDepth := 12) [*]; done)
    | with_reducible refine ok_ite ?_ ?_
    | with_reducible refine ok_ite2 ?_ ?_
    | with_reducible refine ok_foldl _ _ _ (fun _ _ _ => ?_) ?_
    | with_reducible refine ok_foldl2 _ _ _ (fun _ _ _ => ?_) ?_))

@[simp] theorem Dev.sendLayer_sound (d : Dev) (w : Wk) (p : Plan) (s : Nat) (y : Nat) (pods : List Nat) (hs : d.Sound) (hw : w.Ok) :
    (Dev.sendLayer d w p s y pods).Ok := by
  unfold Dev.sendLayer; (repeat' (first
    | assumption
    | (simp (maxDischargeDepth := 12) [*]; done)
    | with_reducible refine ok_ite ?_ ?_
    | with_reducible refine ok_ite2 ?_ ?_
    | with_reducible refine ok_foldl _ _ _ (fun _ _ _ => ?_) ?_
    | with_reducible refine ok_foldl2 _ _ _ (fun _ _ _ => ?_) ?_
    | with_reducible refine ok_foldr2 _ _ _ (fun _ _ _ => ?_) ?_
    | with_reducible refine Wk.mapM_ok _ _ _ (fun _ _ _ => ?_) ?_
    | (simp only [Wk.ok_mk]; refine ⟨?_, ?_⟩)
    | split))

theorem Dev.multicastIn_sound (d : Dev) (pod : Nat) (y : Nat) (flips : List Nat) (hs : d.Sound) {d' : Dev} (e : Dev.multicastIn d pod y flips = some d') :
    d'.Sound := by
  unfold Dev.multicastIn at e; dsimp only at e; (repeat' split at e) <;> simp at e <;> (try subst e) <;> (repeat' (first
    | assumption
    | (simp (maxDischargeDepth := 12) [*]; done)))

theorem Dev.multicastIn_otp (d : Dev) (pod : Nat) (y : Nat) (flips : List Nat) {d' : Dev} (e : Dev.multicastIn d pod y flips = some d') :
    d'.plat.otp = d.plat.otp := by
  unfold Dev.multicastIn at e; dsimp only at e; (repeat' split at e) <;> simp at e <;> (try subst e) <;> (repeat' (first
    | assumption
    | (simp (maxDischargeDepth := 12) [*]; done)))

theorem Dev.moveDone_sound (d : Dev) (n : Nat) (flips : List Nat) (hs : d.Sound) {d' : Dev} (e : Dev.moveDone d n flips = some d') : d'.Sound := by
  unfold Dev.moveDone at e; dsimp only at e; (repeat' split at e) <;> simp at e <;> (try subst e) <;> (repeat' (first
    | assumption
    | (simp (maxDischargeDepth := 12) [*]; done)))

theorem Dev.moveDone_otp (d : Dev) (n : Nat) (flips : List Nat) {d' : Dev} (e : Dev.moveDone d n flips = some d') : d'.plat.otp = d.plat.otp := by
  unfold Dev.moveDone at e; dsimp only at e; (repeat' split at e) <;> simp at e <;> (try subst e) <;> (repeat' (first
    | assumption
    | (simp (maxDischargeDepth := 12) [*]; done)))


/-! ## WorkOps -/

@[simp] theorem Dev.rowAddrs_sound (d : Dev) (p : Plan) (s : SeqWrite) (base : Nat) (first : Nat) (last : Nat) (hs : d.Sound) :
    (Dev.rowAddrs d p s base first last).Sound := by
  unfold Dev.rowAddrs; (repeat' (first
    | assumption
    | (simp (maxDischargeDepth := 12) [*]; done)
    | with_reducible refine sound_ite ?_ ?_
    | split
    | with_reducible refine sound_foldl _ _ _ (fun _ _ _ => ?_) ?_))

@[simp] theorem Dev.rowAddrs_otp (d : Dev) (p : Plan) (s : SeqWrite) (base : Nat) (first : Nat) (last : Nat) :
    (Dev.rowAddrs d p s base first last).plat.otp = d.plat.otp := by
  unfold Dev.rowAddrs; (repeat' (first
    | assumption
    | (simp (maxDischargeDepth := 12) [*]; done)
    | with_reducible refine otp_ite ?_ ?_
    | split
    | with_reducible refine otp_foldl _ _ _ (fun _ _ => ?_)))

@[simp] theorem Wk.copyAll_sound (w : Wk) (cs : List (Nat × Nat × Nat)) (hw : w.Ok) : (Wk.copyAll w cs).Ok := by
  unfold Wk.copyAll; (repeat' (first
    | assumption
    | (simp (maxDischargeDepth := 12) [*]; done)
    | with_reducible refine ok_ite ?_ ?_
    | with_reducible refine ok_ite2 ?_ ?_
    | with_reducible refine ok_foldl _ _ _ (fun _ _ _ => ?_) ?_))

@[simp] theorem Dev.prepare_sound (d : Dev) (p : Plan) (key : Nat) (base : Nat) (frame : Nat) (cmd : Option Cmd) (hs : d.Sound) :
    (Dev.prepare d p key base frame cmd).1.Sound := by
  unfold Dev.prepare
  refine sound_foldl1 _ _ _ (fun x s h => ?_) hs
  have h1 : ∀ f, (x.1.updPod s.pod f).Sound := fun f => Dev.updPod_sound _ _ _ h
  have h2 : ∀ (d : Dev) (cs : List (Nat × Nat × Nat)) k, d.Sound → ((d.absorbUnit (podInst s.pod) 4 s.pod cmd
      (({ mem := d.mem, poison := d.poison, free := d.plat.freeCount, die := s.pod } : Wk).copyAll cs)).count (podInst s.pod) 0x22 k).Sound :=
    fun d cs k hd => Dev.count_sound _ _ _ _ (Dev.absorbUnit_sound _ _ _ _ _ _ hd (Wk.copyAll_sound _ _ ((Wk.ok_mk ..).2 ⟨hd.mem, hd.poison⟩)))
  refine (sound_ite1_iff).2 ⟨fun _ => h, fun _ => (sound_ite1_iff).2 ⟨fun _ => h2 _ _ _ (h1 _), fun _ => ?_⟩⟩
  exact Dev.rowAddrs_sound _ _ _ _ _ _ (h2 _ _ _ (h1 _))

@[simp] theorem Dev.prepare_otp (d : Dev) (p : Plan) (key : Nat) (base : Nat) (frame : Nat) (cmd : Option Cmd) :
    (Dev.prepare d p key base frame cmd).1.plat.otp = d.plat.otp := by
  unfold Dev.prepare
  refine (otp_foldl1 _ _ _ (fun x s => ?_)).trans rfl
  simp

@[simp] theorem Dev.privWrite_sound (d : Dev) (x : Pod) (key : Nat) (t : Nat) (pt : Nat) (hs : d.Sound) : (Dev.privWrite d x key t pt).Sound := by
  unfold Dev.privWrite; (repeat' (first
    | assumption
    | (simp (maxDischargeDepth := 12) [*]; done)
    | with_reducible refine sound_ite ?_ ?_
    | split
    | with_reducible refine sound_foldl _ _ _ (fun _ _ _ => ?_) ?_))

@[simp] theorem Dev.privWrite_otp (d : Dev) (x : Pod) (key : Nat) (t : Nat) (pt : Nat) : (Dev.privWrite d x key t pt).plat.otp = d.plat.otp := by
  unfold Dev.privWrite; (repeat' (first
    | assumption
    | (simp (maxDischargeDepth := 12) [*]; done)
    | with_reducible refine otp_ite ?_ ?_
    | split
    | with_reducible refine otp_foldl _ _ _ (fun _ _ => ?_)
    | with_reducible refine Eq.trans (otp_foldl _ _ _ (fun _ _ => ?_)) ?_))

@[simp] theorem Dev.openPod_sound (d : Dev) (p : Plan) (key : Nat) (base : Nat) (pod : Nat) (hs : d.Sound) :
    (Dev.openPod d p key base pod).1.Sound := by
  unfold Dev.openPod
  exact sound_foldl _ _ _ (fun d x h => Dev.privWrite_sound d _ _ _ _ h) (Dev.updPod_sound _ _ _ hs)

@[simp] theorem Dev.openPod_otp (d : Dev) (p : Plan) (key : Nat) (base : Nat) (pod : Nat) :
    (Dev.openPod d p key base pod).1.plat.otp = d.plat.otp := by
  unfold Dev.openPod
  exact (otp_foldl _ _ _ (fun d x => Dev.privWrite_otp d _ _ _ _)).trans (Dev.updPod_otp _ _ _)

@[simp] theorem Dev.openWork_sound (d : Dev) (p : Plan) (key : Nat) (base : Nat) (frame : Nat) (cmd : Option Cmd) (hs : d.Sound) :
    (Dev.openWork d p key base frame cmd).1.Sound := by
  unfold Dev.openWork
  have h1 := Dev.prepare_sound d p key base frame cmd hs
  dsimp only
  split
  · exact h1
  · refine sound_foldl1 _ _ _ (fun x q h => ?_) h1
    split
    · exact h
    · exact Dev.openPod_sound _ _ _ _ _ h

@[simp] theorem Dev.openWork_otp (d : Dev) (p : Plan) (key : Nat) (base : Nat) (frame : Nat) (cmd : Option Cmd) :
    (Dev.openWork d p key base frame cmd).1.plat.otp = d.plat.otp := by
  unfold Dev.openWork
  have h1 := Dev.prepare_otp d p key base frame cmd
  dsimp only
  split
  · exact h1
  · refine (otp_foldl1 _ _ _ (fun x q => ?_)).trans h1
    split
    · rfl
    · exact Dev.openPod_otp _ _ _ _ _

@[simp] theorem Dev.closeWork_sound (d : Dev) (key : Nat) (hs : d.Sound) : (Dev.closeWork d key).Sound := by
  unfold Dev.closeWork; simp (maxDischargeDepth := 12) [*]

@[simp] theorem Dev.closeWork_otp (d : Dev) (key : Nat) : (Dev.closeWork d key).plat.otp = d.plat.otp := by
  unfold Dev.closeWork; simp (maxDischargeDepth := 12) [*]

@[simp] theorem Dev.idleCtrs_sound (d : Dev) (bases : Tab Nat) (armed : Tab Nat) (hs : d.Sound) : (Dev.idleCtrs d bases armed).Sound := by
  unfold Dev.idleCtrs; (repeat' (first
    | assumption
    | (simp (maxDischargeDepth := 12) [*]; done)
    | with_reducible refine sound_ite ?_ ?_
    | split
    | with_reducible refine sound_foldl _ _ _ (fun _ _ _ => ?_) ?_))

@[simp] theorem Dev.idleCtrs_otp (d : Dev) (bases : Tab Nat) (armed : Tab Nat) : (Dev.idleCtrs d bases armed).plat.otp = d.plat.otp := by
  unfold Dev.idleCtrs; (repeat' (first
    | assumption
    | (simp (maxDischargeDepth := 12) [*]; done)
    | with_reducible refine otp_ite ?_ ?_
    | split
    | with_reducible refine otp_foldl _ _ _ (fun _ _ => ?_)))


/-! ## Steps -/

@[simp] theorem Dev.cobBegin_sound (d : Dev) (h : Nat) (step : Nat) (hs : d.Sound) : (Dev.cobBegin d h step).Sound := by
  unfold Dev.cobBegin; simp (maxDischargeDepth := 12) [*]

@[simp] theorem Dev.cobBegin_otp (d : Dev) (h : Nat) (step : Nat) : (Dev.cobBegin d h step).plat.otp = d.plat.otp := by
  unfold Dev.cobBegin; simp (maxDischargeDepth := 12) [*]

@[simp] theorem Dev.poisonedBatch_sound (d : Dev) (h : Nat) (second : Bool) (hs : d.Sound) : (Dev.poisonedBatch d h second).Sound := by
  unfold Dev.poisonedBatch; (repeat' split) <;> simp (maxDischargeDepth := 12) [*]

@[simp] theorem Dev.poisonedBatch_otp (d : Dev) (h : Nat) (second : Bool) : (Dev.poisonedBatch d h second).plat.otp = d.plat.otp := by
  unfold Dev.poisonedBatch; (repeat' split) <;> simp (maxDischargeDepth := 12) [*]

@[simp] theorem Dev.rotateCosts_sound (d : Dev) (hs : d.Sound) : (Dev.rotateCosts d).Sound := by
  unfold Dev.rotateCosts; simp (maxDischargeDepth := 12) [*]

@[simp] theorem Dev.rotateCosts_otp (d : Dev) : (Dev.rotateCosts d).plat.otp = d.plat.otp := by
  unfold Dev.rotateCosts; simp (maxDischargeDepth := 12) [*]

@[simp] theorem Dev.endDumps_sound (d : Dev) (sel : Dump → Bool) (status : Nat) (hs : d.Sound) : (Dev.endDumps d sel status).Sound := by
  unfold Dev.endDumps; (repeat' (first
    | assumption
    | (simp (maxDischargeDepth := 12) [*]; done)
    | with_reducible refine sound_ite ?_ ?_
    | split
    | with_reducible refine sound_foldl _ _ _ (fun _ _ _ => ?_) ?_))

@[simp] theorem Dev.endDumps_otp (d : Dev) (sel : Dump → Bool) (status : Nat) : (Dev.endDumps d sel status).plat.otp = d.plat.otp := by
  unfold Dev.endDumps; (repeat' (first
    | assumption
    | (simp (maxDischargeDepth := 12) [*]; done)
    | with_reducible refine otp_ite ?_ ?_
    | split
    | with_reducible refine otp_foldl _ _ _ (fun _ _ => ?_)))

@[simp] theorem Dev.startStep_sound (d : Dev) (h : Nat) (cmd : Nat) (step : Nat) (batch : Option Nat) (second : Bool) (hs : d.Sound) :
    (Dev.startStep d h cmd step batch second).Sound := by
  unfold Dev.startStep
  extract_lets p early d1 key
  have h1 : d1.Sound := sound_ite hs (Dev.rotateCosts_sound _ ((Dev.sound_mk ..).2 ⟨hs.log, hs.mem, hs.poison, hs.ctr⟩))
  have h2 : (if early = true then (d1, stBadParam) else d1.openWork p key 0 0 (d1.host.cmd cmd)).1.Sound :=
    sound_ite1_iff.2 ⟨fun _ => h1, fun _ => Dev.openWork_sound _ _ _ _ _ _ h1⟩
  generalize (if early = true then (d1, stBadParam) else d1.openWork p key 0 0 (d1.host.cmd cmd)) = x at h2 ⊢
  obtain ⟨d2, st⟩ := x
  simp only at h2 ⊢
  refine sound_ite (Dev.finish_sound _ _ _ _ _ (Dev.endDumps_sound _ _ _ ?_)) ?_
  · have h3 := Dev.closeWork_sound d2 key h2
    exact (Dev.sound_mk ..).2 ⟨h3.log, h3.mem, h3.poison, h3.ctr⟩
  · refine Dev.startCores_sound _ (Dev.poisonedBatch_sound _ _ _ (sound_foldl _ _ _ (fun d m h => Dev.updCtr_sound _ _ _ _ h) ?_))
    exact sound_ite (Dev.updPlan_sound _ _ _ h2) (Dev.cobBegin_sound _ _ _ (Dev.updPlan_sound _ _ _ h2))

@[simp] theorem Dev.startStep_otp (d : Dev) (h : Nat) (cmd : Nat) (step : Nat) (batch : Option Nat) (second : Bool) :
    (Dev.startStep d h cmd step batch second).plat.otp = d.plat.otp := by
  unfold Dev.startStep
  extract_lets p early d1 key
  have h1 : d1.plat.otp = d.plat.otp := otp_ite rfl (Dev.rotateCosts_otp _)
  have h2 : (if early = true then (d1, stBadParam) else d1.openWork p key 0 0 (d1.host.cmd cmd)).1.plat.otp = d.plat.otp := by
    split
    · exact h1
    · exact (Dev.openWork_otp _ _ _ _ _ _).trans h1
  generalize (if early = true then (d1, stBadParam) else d1.openWork p key 0 0 (d1.host.cmd cmd)) = x at h2 ⊢
  obtain ⟨d2, st⟩ := x
  simp only at h2 ⊢
  refine otp_ite ((Dev.finish_otp _ _ _ _ _).trans ((Dev.endDumps_otp _ _ _).trans ((Dev.closeWork_otp d2 key).trans h2))) ?_
  refine (Dev.startCores_otp _).trans ((Dev.poisonedBatch_otp _ _ _).trans ((otp_foldl _ _ _ (fun d m => Dev.updCtr_otp _ _ _ _)).trans ?_))
  exact otp_ite h2 ((Dev.cobBegin_otp _ _ _).trans h2)

@[simp] theorem Dev.takeBatch_sound (d : Dev) (plan : Nat) (hs : d.Sound) : (Dev.takeBatch d plan).1.Sound := by
  unfold Dev.takeBatch; (repeat' split) <;> simp (maxDischargeDepth := 12) [*]

@[simp] theorem Dev.takeBatch_otp (d : Dev) (plan : Nat) : (Dev.takeBatch d plan).1.plat.otp = d.plat.otp := by
  unfold Dev.takeBatch; (repeat' split) <;> simp (maxDischargeDepth := 12) [*]

theorem Dev.startWaiting_sound (d : Dev) (h : Nat) (hs : d.Sound) {d' : Dev} (e : Dev.startWaiting d h = some d') : d'.Sound := by
  unfold Dev.startWaiting at e; dsimp only at e; (repeat' split at e) <;> simp at e <;> (try subst e) <;> (repeat' (first
    | assumption
    | (simp (maxDischargeDepth := 12) [*]; done)))

theorem Dev.startWaiting_otp (d : Dev) (h : Nat) {d' : Dev} (e : Dev.startWaiting d h = some d') : d'.plat.otp = d.plat.otp := by
  unfold Dev.startWaiting at e; dsimp only at e; (repeat' split at e) <;> simp at e <;> (try subst e) <;> (repeat' (first
    | assumption
    | (simp (maxDischargeDepth := 12) [*]; done)))

@[simp] theorem Dev.dropStreams_sound (d : Dev) (h : Nat) (hs : d.Sound) : (Dev.dropStreams d h).Sound := by
  unfold Dev.dropStreams; simp (maxDischargeDepth := 12) [*]

@[simp] theorem Dev.dropStreams_otp (d : Dev) (h : Nat) : (Dev.dropStreams d h).plat.otp = d.plat.otp := by
  unfold Dev.dropStreams; simp (maxDischargeDepth := 12) [*]

@[simp] theorem Dev.abortNext_sound (d : Dev) (h : Nat) (hs : d.Sound) : (Dev.abortNext d h).Sound := by
  unfold Dev.abortNext; dsimp only; (repeat' split) <;> simp (maxDischargeDepth := 12) [*]

@[simp] theorem Dev.abortNext_otp (d : Dev) (h : Nat) : (Dev.abortNext d h).plat.otp = d.plat.otp := by
  unfold Dev.abortNext; dsimp only; (repeat' split) <;> simp (maxDischargeDepth := 12) [*]

@[simp] theorem Dev.promote_sound (d : Dev) (h : Nat) (hs : d.Sound) : (Dev.promote d h).Sound := by
  unfold Dev.promote; (repeat' split) <;> simp (maxDischargeDepth := 12) [*]

@[simp] theorem Dev.promote_otp (d : Dev) (h : Nat) : (Dev.promote d h).plat.otp = d.plat.otp := by
  unfold Dev.promote; (repeat' split) <;> simp (maxDischargeDepth := 12) [*]

@[simp] theorem Dev.endAborts_sound (d : Dev) (h : Nat) (hs : d.Sound) : (Dev.endAborts d h).Sound := by
  unfold Dev.endAborts; (repeat' (first
    | assumption
    | (simp (maxDischargeDepth := 12) [*]; done)
    | with_reducible refine sound_ite ?_ ?_
    | split
    | with_reducible refine sound_foldl _ _ _ (fun _ _ _ => ?_) ?_))

@[simp] theorem Dev.endAborts_otp (d : Dev) (h : Nat) : (Dev.endAborts d h).plat.otp = d.plat.otp := by
  unfold Dev.endAborts; (repeat' (first
    | assumption
    | (simp (maxDischargeDepth := 12) [*]; done)
    | with_reducible refine otp_ite ?_ ?_
    | split
    | with_reducible refine otp_foldl _ _ _ (fun _ _ => ?_)
    | with_reducible refine Eq.trans (otp_foldl _ _ _ (fun _ _ => ?_)) ?_))

@[simp] theorem Dev.endStep_sound (d : Dev) (h : Nat) (r : StepRun) (hs : d.Sound) : (Dev.endStep d h r).Sound := by
  unfold Dev.endStep
  extract_lets bad d1 d2 ext d3
  have h1 : d1.Sound := sound_ite (Dev.updPlan_sound _ _ _ hs) hs
  have h2 : d2.Sound := sound_ite (Dev.idleCtrs_sound _ _ _ (Dev.dropStreams_sound _ _ h1)) h1
  have h3 : d3.Sound := Dev.closeWork_sound d2 (workKey false 0 r.step) h2
  clear_value d3 ext d2
  simp only
  have h4 : ∀ f st (o : Obs), (if bad = true then d3.endDumps f st else { d3 with obs := o }).Sound := fun f st o =>
    sound_ite (Dev.endDumps_sound _ _ _ h3) ((Dev.sound_mk ..).2 ⟨h3.log, h3.mem, h3.poison, h3.ctr⟩)
  have h5 : ∀ (d : Dev) i w u, d.Sound → ((({ d with ing := i, pow := w } : Dev).updPlan h u).finish r.cmd (d2.stepStatus r).1 (d2.stepStatus r).2
      ext).Sound := fun d i w u hd =>
    Dev.finish_sound _ _ _ _ _ (Dev.updPlan_sound _ _ _ ((Dev.sound_mk ..).2 ⟨hd.log, hd.mem, hd.poison, hd.ctr⟩))
  exact Dev.startCores_sound _ (Dev.endAborts_sound _ _ (Dev.promote_sound _ _ (sound_ite (Dev.abortNext_sound _ _ (h5 _ _ _ _ (h4 _ _ _)))
    (h5 _ _ _ _ (h4 _ _ _)))))

@[simp] theorem Dev.endStep_otp (d : Dev) (h : Nat) (r : StepRun) : (Dev.endStep d h r).plat.otp = d.plat.otp := by
  unfold Dev.endStep
  extract_lets bad d1 d2 ext d3
  have h1 : d1.plat.otp = d.plat.otp := otp_ite (Dev.updPlan_otp _ _ _) rfl
  have h2 : d2.plat.otp = d.plat.otp := otp_ite ((Dev.idleCtrs_otp _ _ _).trans ((Dev.dropStreams_otp _ _).trans h1)) h1
  have h3 : d3.plat.otp = d.plat.otp := (Dev.closeWork_otp d2 (workKey false 0 r.step)).trans h2
  clear_value d3 ext d2
  simp only
  have h4 : ∀ f st (o : Obs), (if bad = true then d3.endDumps f st else { d3 with obs := o }).plat.otp = d.plat.otp := fun f st o =>
    otp_ite ((Dev.endDumps_otp _ _ _).trans h3) h3
  have h5 : ∀ (e : Dev) i w u, e.plat.otp = d.plat.otp → ((({ e with ing := i, pow := w } : Dev).updPlan h u).finish r.cmd (d2.stepStatus r).1
      (d2.stepStatus r).2 ext).plat.otp = d.plat.otp := fun e i w u he =>
    (Dev.finish_otp _ _ _ _ _).trans ((Dev.updPlan_otp _ _ _).trans he)
  exact (Dev.startCores_otp _).trans ((Dev.endAborts_otp _ _).trans ((Dev.promote_otp _ _).trans
    (otp_ite ((Dev.abortNext_otp _ _).trans (h5 _ _ _ _ (h4 _ _ _))) (h5 _ _ _ _ (h4 _ _ _)))))

theorem Dev.stepEnds_sound (d : Dev) (h : Nat) (hs : d.Sound) {d' : Dev} (e : Dev.stepEnds d h = some d') : d'.Sound := by
  unfold Dev.stepEnds at e; (repeat' split at e) <;> simp at e <;> (try subst e) <;> simp (maxDischargeDepth := 12) [*]

theorem Dev.stepEnds_otp (d : Dev) (h : Nat) {d' : Dev} (e : Dev.stepEnds d h = some d') : d'.plat.otp = d.plat.otp := by
  unfold Dev.stepEnds at e; (repeat' split at e) <;> simp at e <;> (try subst e) <;> simp (maxDischargeDepth := 12) [*]

@[simp] theorem Dev.abortSteps_sound (d : Dev) (h : Nat) (hs : d.Sound) : (Dev.abortSteps d h).Sound := by
  unfold Dev.abortSteps; simp (maxDischargeDepth := 12) [*]

@[simp] theorem Dev.abortSteps_otp (d : Dev) (h : Nat) : (Dev.abortSteps d h).plat.otp = d.plat.otp := by
  unfold Dev.abortSteps; simp (maxDischargeDepth := 12) [*]


/-! ## Plans -/

@[simp] theorem Dev.freshCtrs_sound (d : Dev) (p : Plan) (hs : d.Sound) : (Dev.freshCtrs d p).Sound := by
  unfold Dev.freshCtrs; (repeat' (first
    | assumption
    | (simp (maxDischargeDepth := 12) [*]; done)
    | with_reducible refine sound_ite ?_ ?_
    | split
    | with_reducible refine sound_foldl _ _ _ (fun _ _ _ => ?_) ?_))

@[simp] theorem Dev.freshCtrs_otp (d : Dev) (p : Plan) : (Dev.freshCtrs d p).plat.otp = d.plat.otp := by
  unfold Dev.freshCtrs; (repeat' (first
    | assumption
    | (simp (maxDischargeDepth := 12) [*]; done)
    | with_reducible refine otp_ite ?_ ?_
    | split
    | with_reducible refine otp_foldl _ _ _ (fun _ _ => ?_)))

@[simp] theorem Dev.emptyCob_sound (d : Dev) (hs : d.Sound) : (Dev.emptyCob d).Sound := by
  unfold Dev.emptyCob; simp (maxDischargeDepth := 12) [*]

@[simp] theorem Dev.emptyCob_otp (d : Dev) : (Dev.emptyCob d).plat.otp = d.plat.otp := by
  unfold Dev.emptyCob; simp (maxDischargeDepth := 12) [*]

@[simp] theorem Dev.setUpPlan_sound (d : Dev) (h : Nat) (b : List Byte) (p : Plan) (hs : d.Sound) : (Dev.setUpPlan d h b p).Sound := by
  unfold Dev.setUpPlan
  extract_lets d1 d2 d3
  have h1 : d1.Sound := sound_foldl _ _ _ (fun d x h => Dev.store_sound _ _ _ h) hs
  have h2 : d2.Sound := Dev.freshCtrs_sound _ _ (Dev.updPlan_sound _ _ _ h1)
  have h3 : d3.Sound := (Dev.sound_mk ..).2 ⟨h2.log, h2.mem, h2.poison, h2.ctr⟩
  exact sound_ite h3 ((Dev.sound_mk ..).2 ⟨h3.log, h3.mem, h3.poison, h3.ctr⟩)

@[simp] theorem Dev.setUpPlan_otp (d : Dev) (h : Nat) (b : List Byte) (p : Plan) : (Dev.setUpPlan d h b p).plat.otp = d.plat.otp := by
  unfold Dev.setUpPlan
  extract_lets d1 d2 d3
  have h1 : d1.plat.otp = d.plat.otp := otp_foldl _ _ _ (fun d x => Dev.store_otp _ _ _)
  have h2 : d2.plat.otp = d.plat.otp := (Dev.freshCtrs_otp _ _).trans h1
  exact otp_ite h2 h2

@[simp] theorem Dev.loadEnds_sound (d : Dev) (h : Nat) (hs : d.Sound) : (Dev.loadEnds d h).Sound := by
  unfold Dev.loadEnds; dsimp only; (repeat' split) <;> simp (maxDischargeDepth := 12) [*]

@[simp] theorem Dev.loadEnds_otp (d : Dev) (h : Nat) : (Dev.loadEnds d h).plat.otp = d.plat.otp := by
  unfold Dev.loadEnds; dsimp only; (repeat' split) <;> simp (maxDischargeDepth := 12) [*]

@[simp] theorem Dev.endState_sound (d : Dev) (h : Nat) (status : Nat) (hs : d.Sound) : (Dev.endState d h status).Sound := by
  unfold Dev.endState; (repeat' (first
    | assumption
    | (simp (maxDischargeDepth := 12) [*]; done)
    | with_reducible refine sound_ite ?_ ?_
    | split
    | with_reducible refine sound_foldl _ _ _ (fun _ _ _ => ?_) ?_))

@[simp] theorem Dev.endState_otp (d : Dev) (h : Nat) (status : Nat) : (Dev.endState d h status).plat.otp = d.plat.otp := by
  unfold Dev.endState; (repeat' (first
    | assumption
    | (simp (maxDischargeDepth := 12) [*]; done)
    | with_reducible refine otp_ite ?_ ?_
    | split
    | with_reducible refine otp_foldl _ _ _ (fun _ _ => ?_)))

@[simp] theorem Dev.endUsers_sound (d : Dev) (h : Nat) (hs : d.Sound) : (Dev.endUsers d h).Sound := by
  unfold Dev.endUsers
  extract_lets d1 d2 p
  have h1 : d1.Sound := by
    simp only [d1]
    split
    · exact Dev.endStep_sound _ _ _ hs
    · exact hs
  have h2 : d2.Sound := by
    simp only [d2]
    split
    · exact Dev.endStep_sound _ _ _ h1
    · exact h1
  exact sound_foldl _ _ _ (fun d c h => Dev.finish_sound _ _ _ _ _ h) (Dev.endDumps_sound _ _ _ h2)

@[simp] theorem Dev.endUsers_otp (d : Dev) (h : Nat) : (Dev.endUsers d h).plat.otp = d.plat.otp := by
  unfold Dev.endUsers
  extract_lets d1 d2 p
  have h1 : d1.plat.otp = d.plat.otp := by
    simp only [d1]
    split
    · exact Dev.endStep_otp _ _ _
    · rfl
  have h2 : d2.plat.otp = d.plat.otp := by
    simp only [d2]
    split
    · exact (Dev.endStep_otp _ _ _).trans h1
    · exact h1
  exact (otp_foldl _ _ _ (fun d c => Dev.finish_otp _ _ _ _ _)).trans ((Dev.endDumps_otp _ _ _).trans h2)

@[simp] theorem Dev.dropPlan_sound (d : Dev) (h : Nat) (hs : d.Sound) : (Dev.dropPlan d h).Sound := by
  unfold Dev.dropPlan; simp (maxDischargeDepth := 12) [*]

@[simp] theorem Dev.dropPlan_otp (d : Dev) (h : Nat) : (Dev.dropPlan d h).plat.otp = d.plat.otp := by
  unfold Dev.dropPlan; simp (maxDischargeDepth := 12) [*]

end Sys2Proof.Machine
end

