-- ==== Sys2Proof/Laws/KeepLive.lean ====
section
/-! SUPPORT. The cadence unit, live tasks, the trace unit and the encoder keep a device sound and leave the one-time-programmable cells alone. -/

namespace Sys2Proof.Machine

/-! ## LiveOps -/

@[simp] theorem Dev.markReady_sound (d : Dev) (n : Nat) (hs : d.Sound) : (Dev.markReady d n).Sound := by
  unfold Dev.markReady; dsimp only; (repeat' split) <;> simp (maxDischargeDepth := 12) [*]

@[simp] theorem Dev.markReady_otp (d : Dev) (n : Nat) : (Dev.markReady d n).plat.otp = d.plat.otp := by
  unfold Dev.markReady; dsimp only; (repeat' split) <;> simp (maxDischargeDepth := 12) [*]

@[simp] theorem Dev.taskReply_sound (d : Dev) (n : Nat) (k : Nat) (status : Nat) (detail : Nat) (ext : List Nat) (hs : d.Sound) :
    (Dev.taskReply d n k status detail ext).Sound := by
  unfold Dev.taskReply; simp (maxDischargeDepth := 12) [*]

@[simp] theorem Dev.taskReply_otp (d : Dev) (n : Nat) (k : Nat) (status : Nat) (detail : Nat) (ext : List Nat) :
    (Dev.taskReply d n k status detail ext).plat.otp = d.plat.otp := by
  unfold Dev.taskReply; simp (maxDischargeDepth := 12) [*]

@[simp] theorem Dev.liveMiss_sound (d : Dev) (n : Nat) (k : Nat) (cause : Nat) (effect : Bool) (hs : d.Sound) :
    (Dev.liveMiss d n k cause effect).Sound := by
  unfold Dev.liveMiss; simp (maxDischargeDepth := 12) [*]

@[simp] theorem Dev.liveMiss_otp (d : Dev) (n : Nat) (k : Nat) (cause : Nat) (effect : Bool) :
    (Dev.liveMiss d n k cause effect).plat.otp = d.plat.otp := by
  unfold Dev.liveMiss; simp (maxDischargeDepth := 12) [*]

@[simp] theorem Dev.missReply_sound (d : Dev) (n : Nat) (k : Nat) (cause : Nat) (effect : Bool) (hs : d.Sound) :
    (Dev.missReply d n k cause effect).Sound := by
  unfold Dev.missReply; simp (maxDischargeDepth := 12) [*]

@[simp] theorem Dev.missReply_otp (d : Dev) (n : Nat) (k : Nat) (cause : Nat) (effect : Bool) :
    (Dev.missReply d n k cause effect).plat.otp = d.plat.otp := by
  unfold Dev.missReply; simp (maxDischargeDepth := 12) [*]

@[simp] theorem Dev.dropWaiting_sound (d : Dev) (n : Nat) (k : Nat) (hs : d.Sound) : (Dev.dropWaiting d n k).Sound := by
  unfold Dev.dropWaiting; simp (maxDischargeDepth := 12) [*]

@[simp] theorem Dev.dropWaiting_otp (d : Dev) (n : Nat) (k : Nat) : (Dev.dropWaiting d n k).plat.otp = d.plat.otp := by
  unfold Dev.dropWaiting; simp (maxDischargeDepth := 12) [*]

@[simp] theorem Dev.frameDumps_sound (d : Dev) (n : Nat) (k : Nat) (bad : Nat) (hs : d.Sound) : (Dev.frameDumps d n k bad).Sound := by
  unfold Dev.frameDumps; simp (maxDischargeDepth := 12) [*]

@[simp] theorem Dev.frameDumps_otp (d : Dev) (n : Nat) (k : Nat) (bad : Nat) : (Dev.frameDumps d n k bad).plat.otp = d.plat.otp := by
  unfold Dev.frameDumps; simp (maxDischargeDepth := 12) [*]

@[simp] theorem Dev.skipTask_sound (d : Dev) (n : Nat) (t : Task) (hs : d.Sound) : (Dev.skipTask d n t).Sound := by
  unfold Dev.skipTask; (repeat' split) <;> simp (maxDischargeDepth := 12) [*]

@[simp] theorem Dev.skipTask_otp (d : Dev) (n : Nat) (t : Task) : (Dev.skipTask d n t).plat.otp = d.plat.otp := by
  unfold Dev.skipTask; (repeat' split) <;> simp (maxDischargeDepth := 12) [*]

@[simp] theorem Dev.releaseTask_sound (d : Dev) (n : Nat) (k : Nat) (hs : d.Sound) : (Dev.releaseTask d n k).Sound := by
  unfold Dev.releaseTask; dsimp only; (repeat' split) <;> simp (maxDischargeDepth := 12) [*]

@[simp] theorem Dev.releaseTask_otp (d : Dev) (n : Nat) (k : Nat) : (Dev.releaseTask d n k).plat.otp = d.plat.otp := by
  unfold Dev.releaseTask; dsimp only; (repeat' split) <;> simp (maxDischargeDepth := 12) [*]

@[simp] theorem Dev.preempt_sound (d : Dev) (n : Nat) (hs : d.Sound) : (Dev.preempt d n).Sound := by
  unfold Dev.preempt; simp (maxDischargeDepth := 12) [*]

@[simp] theorem Dev.preempt_otp (d : Dev) (n : Nat) : (Dev.preempt d n).plat.otp = d.plat.otp := by
  unfold Dev.preempt; simp (maxDischargeDepth := 12) [*]

@[simp] theorem Dev.retryDumps_sound (d : Dev) (n : Nat) (hs : d.Sound) : (Dev.retryDumps d n).Sound := by
  unfold Dev.retryDumps; (repeat' (first
    | assumption
    | (simp (maxDischargeDepth := 12) [*]; done)
    | with_reducible refine sound_ite ?_ ?_
    | split
    | with_reducible refine sound_foldl _ _ _ (fun _ _ _ => ?_) ?_))

@[simp] theorem Dev.retryDumps_otp (d : Dev) (n : Nat) : (Dev.retryDumps d n).plat.otp = d.plat.otp := by
  unfold Dev.retryDumps; (repeat' (first
    | assumption
    | (simp (maxDischargeDepth := 12) [*]; done)
    | with_reducible refine otp_ite ?_ ?_
    | split
    | with_reducible refine otp_foldl _ _ _ (fun _ _ => ?_)))

@[simp] theorem Dev.launch_sound (d : Dev) (n : Nat) (hs : d.Sound) : (Dev.launch d n).Sound := by
  unfold Dev.launch
  extract_lets s
  split
  · exact hs
  · extract_lets h start
    refine sound_ite hs (Dev.retryDumps_sound _ _ (sound_foldl _ _ _ (fun d x hd => ?_) (Dev.updTask_sound _ _ _ hs)))
    exact sound_ite (Dev.updCore_sound _ _ _ hd) hd

@[simp] theorem Dev.launch_otp (d : Dev) (n : Nat) : (Dev.launch d n).plat.otp = d.plat.otp := by
  unfold Dev.launch
  extract_lets s
  split
  · rfl
  · extract_lets h start
    refine otp_ite rfl ((Dev.retryDumps_otp _ _).trans ((otp_foldl _ _ _ (fun d x => ?_)).trans rfl))
    exact otp_ite rfl rfl

@[simp] theorem Dev.launchAll_sound (d : Dev) (hs : d.Sound) : (Dev.launchAll d).Sound := by
  unfold Dev.launchAll
  exact sound_foldl _ _ _ (fun d n h => Dev.launch_sound d n h) hs

@[simp] theorem Dev.launchAll_otp (d : Dev) : (Dev.launchAll d).plat.otp = d.plat.otp := by
  unfold Dev.launchAll
  exact otp_foldl _ _ _ (fun d n => Dev.launch_otp d n)

@[simp] theorem Dev.giveBack_sound (d : Dev) (set : List Nat) (hs : d.Sound) : (Dev.giveBack d set).Sound := by
  unfold Dev.giveBack; (repeat' (first
    | assumption
    | (simp (maxDischargeDepth := 12) [*]; done)
    | with_reducible refine sound_ite ?_ ?_
    | split
    | with_reducible refine sound_foldl _ _ _ (fun _ _ _ => ?_) ?_))

@[simp] theorem Dev.giveBack_otp (d : Dev) (set : List Nat) : (Dev.giveBack d set).plat.otp = d.plat.otp := by
  unfold Dev.giveBack; (repeat' (first
    | assumption
    | (simp (maxDischargeDepth := 12) [*]; done)
    | with_reducible refine otp_ite ?_ ?_
    | split
    | with_reducible refine otp_foldl _ _ _ (fun _ _ => ?_)))


/-! ## Observe -/

@[simp] theorem Dev.putHead_sound (d : Dev) (b : Nat) (hs : d.Sound) : (Dev.putHead d b).Sound := by
  unfold Dev.putHead; simp (maxDischargeDepth := 12) [*]

@[simp] theorem Dev.putHead_otp (d : Dev) (b : Nat) : (Dev.putHead d b).plat.otp = d.plat.otp := by
  unfold Dev.putHead; simp (maxDischargeDepth := 12) [*]

@[simp] theorem Dev.putWord_sound (d : Dev) (b : Nat) (word : Nat) (hs : d.Sound) : (Dev.putWord d b word).Sound := by
  unfold Dev.putWord; simp (maxDischargeDepth := 12) [*]

@[simp] theorem Dev.putWord_otp (d : Dev) (b : Nat) (word : Nat) : (Dev.putWord d b word).plat.otp = d.plat.otp := by
  unfold Dev.putWord; simp (maxDischargeDepth := 12) [*]

@[simp] theorem Dev.putRec_sound (d : Dev) (b : Nat) (r : TraceRec) (hs : d.Sound) : (Dev.putRec d b r).Sound := by
  unfold Dev.putRec; simp (maxDischargeDepth := 12) [*]

@[simp] theorem Dev.putRec_otp (d : Dev) (b : Nat) (r : TraceRec) : (Dev.putRec d b r).plat.otp = d.plat.otp := by
  unfold Dev.putRec; simp (maxDischargeDepth := 12) [*]

@[simp] theorem Dev.stopTrace_sound (d : Dev) (b : Nat) (hs : d.Sound) : (Dev.stopTrace d b).Sound := by
  unfold Dev.stopTrace
  extract_lets x put d1
  have hp : ∀ d r, d.Sound → (put d r).Sound := fun d r h => Dev.putRec_sound _ _ _ (sound_ite (Dev.count_sound _ _ _ _ h) h)
  have h1 : d1.Sound := Dev.putHead_sound _ _ (sound_foldl _ _ _ hp hs)
  exact Dev.finish_sound _ _ _ _ _ ((Dev.sound_mk ..).2 ⟨h1.log, h1.mem, h1.poison, h1.ctr⟩)

@[simp] theorem Dev.stopTrace_otp (d : Dev) (b : Nat) : (Dev.stopTrace d b).plat.otp = d.plat.otp := by
  unfold Dev.stopTrace
  extract_lets x put d1
  have hp : ∀ d r, (put d r).plat.otp = d.plat.otp := fun d r => (Dev.putRec_otp _ _ _).trans (otp_ite (Dev.count_otp _ _ _ _) rfl)
  have h1 : d1.plat.otp = d.plat.otp := (Dev.putHead_otp _ _).trans (otp_foldl _ _ _ hp)
  clear_value d1
  exact (Dev.finish_otp _ _ _ _ _).trans h1

@[simp] theorem Dev.beginStop_sound (d : Dev) (b : Nat) (cmd : Nat) (hs : d.Sound) : (Dev.beginStop d b cmd).Sound := by
  unfold Dev.beginStop; simp (maxDischargeDepth := 12) [*]

@[simp] theorem Dev.beginStop_otp (d : Dev) (b : Nat) (cmd : Nat) : (Dev.beginStop d b cmd).plat.otp = d.plat.otp := by
  unfold Dev.beginStop; simp (maxDischargeDepth := 12) [*]

@[simp] theorem Dev.takeRec_sound (d : Dev) (r : TraceRec) (hs : d.Sound) : (Dev.takeRec d r).Sound := by
  unfold Dev.takeRec; simp (maxDischargeDepth := 12) [*]

@[simp] theorem Dev.takeRec_otp (d : Dev) (r : TraceRec) : (Dev.takeRec d r).plat.otp = d.plat.otp := by
  unfold Dev.takeRec; simp (maxDischargeDepth := 12) [*]

theorem Dev.traceRecord_sound (d : Dev) (die : Nat) (hs : d.Sound) {d' : Dev} (e : Dev.traceRecord d die = some d') : d'.Sound := by
  unfold Dev.traceRecord at e
  split at e
  · obtain ⟨r, -, rfl⟩ := Option.map_eq_some_iff.1 e
    exact Dev.takeRec_sound _ _ ((Dev.sound_mk ..).2 ⟨hs.log, hs.mem, hs.poison, hs.ctr⟩)
  · simp at e

theorem Dev.traceRecord_otp (d : Dev) (die : Nat) {d' : Dev} (e : Dev.traceRecord d die = some d') : d'.plat.otp = d.plat.otp := by
  unfold Dev.traceRecord at e
  split at e
  · obtain ⟨r, -, rfl⟩ := Option.map_eq_some_iff.1 e
    exact Dev.takeRec_otp _ _
  · simp at e

@[simp] theorem Dev.writeRec_sound (d : Dev) (r : TraceRec) (hs : d.Sound) : (Dev.writeRec d r).Sound := by
  unfold Dev.writeRec; (repeat' (first
    | assumption
    | (simp (maxDischargeDepth := 12) [*]; done)
    | with_reducible refine sound_ite ?_ ?_
    | split
    | with_reducible refine sound_foldl _ _ _ (fun _ _ _ => ?_) ?_))

@[simp] theorem Dev.writeRec_otp (d : Dev) (r : TraceRec) : (Dev.writeRec d r).plat.otp = d.plat.otp := by
  unfold Dev.writeRec; (repeat' (first
    | assumption
    | (simp (maxDischargeDepth := 12) [*]; done)
    | with_reducible refine otp_ite ?_ ?_
    | split
    | with_reducible refine otp_foldl _ _ _ (fun _ _ => ?_)
    | with_reducible refine Eq.trans (otp_foldl _ _ _ (fun _ _ => ?_)) ?_))

theorem Dev.traceWrite_sound (d : Dev) (hs : d.Sound) {d' : Dev} (e : Dev.traceWrite d = some d') : d'.Sound := by
  unfold Dev.traceWrite at e; (repeat' split at e) <;> simp at e <;> (try subst e) <;> simp (maxDischargeDepth := 12) [*]

theorem Dev.traceWrite_otp (d : Dev) {d' : Dev} (e : Dev.traceWrite d = some d') : d'.plat.otp = d.plat.otp := by
  unfold Dev.traceWrite at e; (repeat' split at e) <;> simp at e <;> (try subst e) <;> simp (maxDischargeDepth := 12) [*]

@[simp] theorem Dev.dumpTick_sound (d : Dev) (hs : d.Sound) : (Dev.dumpTick d).Sound := by
  unfold Dev.dumpTick; simp (maxDischargeDepth := 12) [*]

@[simp] theorem Dev.dumpTick_otp (d : Dev) : (Dev.dumpTick d).plat.otp = d.plat.otp := by
  unfold Dev.dumpTick; simp (maxDischargeDepth := 12) [*]

@[simp] theorem Dev.readDump_sound (d : Dev) (x : Dump) (sy : Sym) (flips : List Nat) (hs : d.Sound) : (Dev.readDump d x sy flips).Sound := by
  unfold Dev.readDump
  extract_lets e d1 w
  have h1 : d1.Sound := Dev.trace_sound _ _ _ _ _ _ _ hs
  have hw : w.Ok := (Wk.ok_mk ..).2 ⟨h1.mem, h1.poison⟩
  clear_value d1 w
  have h2 := Wk.symScales_sound (w.symElems sy sy.dumpBase).2 sy sy.dumpBase (Wk.symElems_sound w sy sy.dumpBase hw)
  have h3 : ∀ k, (d1.absorbUnit (dieInst e) k e (d1.host.cmd x.cmd) ((w.symElems sy sy.dumpBase).2.symScales sy sy.dumpBase).2).Sound :=
    fun k => Dev.absorbUnit_sound _ _ _ _ _ _ h1 h2
  exact Dev.assign_sound _ (Dev.finish_sound _ _ _ _ _ (Dev.trace_sound _ _ _ _ _ _ _ (Dev.put_sound _ _ _ _
    ((Dev.sound_mk ..).2 ⟨(h3 _).log, (h3 _).mem, (h3 _).poison, (h3 _).ctr⟩))))

@[simp] theorem Dev.readDump_otp (d : Dev) (x : Dump) (sy : Sym) (flips : List Nat) : (Dev.readDump d x sy flips).plat.otp = d.plat.otp := by
  unfold Dev.readDump
  extract_lets e d1 w
  have h1 : d1.plat.otp = d.plat.otp := Dev.trace_otp _ _ _ _ _ _ _
  clear_value d1 w
  have h3 : ∀ k w', (d1.absorbUnit (dieInst e) k e (d1.host.cmd x.cmd) w').plat.otp = d.plat.otp :=
    fun k w' => (Dev.absorbUnit_otp _ _ _ _ _ _).trans h1
  exact (Dev.assign_otp _).trans ((Dev.finish_otp _ _ _ _ _).trans ((Dev.trace_otp _ _ _ _ _ _ _).trans ((Dev.put_otp _ _ _ _).trans (h3 _ _))))

theorem Dev.dumpNext_sound (d : Dev) (flips : List Nat) (hs : d.Sound) {d' : Dev} (e : Dev.dumpNext d flips = some d') : d'.Sound := by
  unfold Dev.dumpNext at e
  split at e
  · simp at e
  · obtain ⟨x, -, hx⟩ := List.exists_of_findSome?_eq_some e
    split at hx
    · split at hx <;> simp only [Option.some.injEq, reduceCtorEq] at hx
      subst hx
      exact Dev.readDump_sound _ _ _ _ hs
    · simp at hx

theorem Dev.dumpNext_otp (d : Dev) (flips : List Nat) {d' : Dev} (e : Dev.dumpNext d flips = some d') : d'.plat.otp = d.plat.otp := by
  unfold Dev.dumpNext at e
  split at e
  · simp at e
  · obtain ⟨x, -, hx⟩ := List.exists_of_findSome?_eq_some e
    split at hx
    · split at hx <;> simp only [Option.some.injEq, reduceCtorEq] at hx
      subst hx
      exact Dev.readDump_otp _ _ _ _
    · simp at hx


/-! ## Encoder -/

@[simp] theorem Dev.updSess_sound (d : Dev) (n : Nat) (f : EncSess → EncSess) (hs : d.Sound) : (Dev.updSess d n f).Sound := by
  unfold Dev.updSess; simp (maxDischargeDepth := 12) [*]

@[simp] theorem Dev.updSess_otp (d : Dev) (n : Nat) (f : EncSess → EncSess) : (Dev.updSess d n f).plat.otp = d.plat.otp := by
  unfold Dev.updSess; simp (maxDischargeDepth := 12) [*]

@[simp] theorem Dev.openSess_sound (d : Dev) (n : Nat) (port : Nat) (cfg : Nat) (hs : d.Sound) : (Dev.openSess d n port cfg).Sound := by
  unfold Dev.openSess; simp (maxDischargeDepth := 12) [*]

@[simp] theorem Dev.openSess_otp (d : Dev) (n : Nat) (port : Nat) (cfg : Nat) : (Dev.openSess d n port cfg).plat.otp = d.plat.otp := by
  unfold Dev.openSess; simp (maxDischargeDepth := 12) [*]

@[simp] theorem Dev.freeSession_sound (d : Dev) (n : Nat) (hs : d.Sound) : (Dev.freeSession d n).Sound := by
  unfold Dev.freeSession; simp (maxDischargeDepth := 12) [*]

@[simp] theorem Dev.freeSession_otp (d : Dev) (n : Nat) : (Dev.freeSession d n).plat.otp = d.plat.otp := by
  unfold Dev.freeSession; simp (maxDischargeDepth := 12) [*]

@[simp] theorem Dev.endSession_sound (d : Dev) (n : Nat) (hs : d.Sound) : (Dev.endSession d n).Sound := by
  unfold Dev.endSession; simp (maxDischargeDepth := 12) [*]

@[simp] theorem Dev.endSession_otp (d : Dev) (n : Nat) : (Dev.endSession d n).plat.otp = d.plat.otp := by
  unfold Dev.endSession; simp (maxDischargeDepth := 12) [*]

@[simp] theorem Dev.endPicture_sound (d : Dev) (n : Nat) (c : EncCur) (status : Nat) (hs : d.Sound) : (Dev.endPicture d n c status).Sound := by
  unfold Dev.endPicture; simp (maxDischargeDepth := 12) [*]

@[simp] theorem Dev.endPicture_otp (d : Dev) (n : Nat) (c : EncCur) (status : Nat) : (Dev.endPicture d n c status).plat.otp = d.plat.otp := by
  unfold Dev.endPicture; simp (maxDischargeDepth := 12) [*]

@[simp] theorem Dev.ringTick_sound (d : Dev) (hs : d.Sound) : (Dev.ringTick d).Sound := by
  unfold Dev.ringTick; (repeat' split) <;> simp (maxDischargeDepth := 12) [*]

@[simp] theorem Dev.ringTick_otp (d : Dev) : (Dev.ringTick d).plat.otp = d.plat.otp := by
  unfold Dev.ringTick; (repeat' split) <;> simp (maxDischargeDepth := 12) [*]

@[simp] theorem Dev.dropPicture_sound (d : Dev) (n : Nat) (c : EncCur) (hs : d.Sound) : (Dev.dropPicture d n c).Sound := by
  unfold Dev.dropPicture; simp (maxDischargeDepth := 12) [*]

@[simp] theorem Dev.dropPicture_otp (d : Dev) (n : Nat) (c : EncCur) : (Dev.dropPicture d n c).plat.otp = d.plat.otp := by
  unfold Dev.dropPicture; simp (maxDischargeDepth := 12) [*]

@[simp] theorem Dev.closeSession_sound (d : Dev) (n : Nat) (f : EncSess → EncSess) (hs : d.Sound) : (Dev.closeSession d n f).Sound := by
  unfold Dev.closeSession
  extract_lets subs e
  have h1 : e.Sound := sound_foldl _ _ _ (fun d x h => Dev.finish_sound _ _ _ _ _ h) (Dev.updSess_sound _ _ _ hs)
  clear_value e
  split
  · exact sound_ite (Dev.dropPicture_sound _ _ _ h1) (Dev.endSession_sound _ _ h1)
  · exact Dev.endSession_sound _ _ h1

@[simp] theorem Dev.closeSession_otp (d : Dev) (n : Nat) (f : EncSess → EncSess) : (Dev.closeSession d n f).plat.otp = d.plat.otp := by
  unfold Dev.closeSession
  extract_lets subs e
  have h1 : e.plat.otp = d.plat.otp := (otp_foldl _ _ _ (fun d x => Dev.finish_otp _ _ _ _ _)).trans rfl
  clear_value e
  split
  · exact otp_ite ((Dev.dropPicture_otp _ _ _).trans h1) ((Dev.endSession_otp _ _).trans h1)
  · exact (Dev.endSession_otp _ _).trans h1

theorem Dev.startPicture_sound (d : Dev) (hs : d.Sound) {d' : Dev} (e : Dev.startPicture d = some d') : d'.Sound := by
  unfold Dev.startPicture at e; dsimp only at e; (repeat' split at e) <;> simp at e <;> (try subst e) <;> (repeat' (first
    | assumption
    | (simp (maxDischargeDepth := 12) [*]; done)))

theorem Dev.startPicture_otp (d : Dev) {d' : Dev} (e : Dev.startPicture d = some d') : d'.plat.otp = d.plat.otp := by
  unfold Dev.startPicture at e; dsimp only at e; (repeat' split at e) <;> simp at e <;> (try subst e) <;> (repeat' (first
    | assumption
    | (simp (maxDischargeDepth := 12) [*]; done)))

@[simp] theorem Dev.codeRow_sound (d : Dev) (n : Nat) (x : EncCur) (hs : d.Sound) : (Dev.codeRow d n x).Sound := by
  unfold Dev.codeRow; simp (maxDischargeDepth := 12) [*]

@[simp] theorem Dev.codeRow_otp (d : Dev) (n : Nat) (x : EncCur) : (Dev.codeRow d n x).plat.otp = d.plat.otp := by
  unfold Dev.codeRow; simp (maxDischargeDepth := 12) [*]

@[simp] theorem Dev.ringPut_sound (d : Dev) (c : Nat) (o : Nat) (bs : List Byte) (bad : Bool) (hs : d.Sound) : (Dev.ringPut d c o bs bad).Sound := by
  unfold Dev.ringPut; simp (maxDischargeDepth := 12) [*]

@[simp] theorem Dev.ringPut_otp (d : Dev) (c : Nat) (o : Nat) (bs : List Byte) (bad : Bool) : (Dev.ringPut d c o bs bad).plat.otp = d.plat.otp := by
  unfold Dev.ringPut; simp (maxDischargeDepth := 12) [*]

@[simp] theorem Dev.putSlice_sound (d : Dev) (n : Nat) (x : EncCur) (slice : List Byte) (hs : d.Sound) : (Dev.putSlice d n x slice).Sound := by
  unfold Dev.putSlice; simp (maxDischargeDepth := 12) [*]

@[simp] theorem Dev.putSlice_otp (d : Dev) (n : Nat) (x : EncCur) (slice : List Byte) : (Dev.putSlice d n x slice).plat.otp = d.plat.otp := by
  unfold Dev.putSlice; simp (maxDischargeDepth := 12) [*]


/-! ## Clock -/

@[simp] theorem Plat.tick_sound (p : Plat) (hp : LogOk p.faultLog p.faultLost) : LogOk (Plat.tick p).faultLog (Plat.tick p).faultLost := by
  unfold Plat.tick; (repeat' split) <;> simp (maxDischargeDepth := 12) [*]

@[simp] theorem Plat.tick_otp (p : Plat) : (Plat.tick p).otp = p.otp := by
  unfold Plat.tick; simp

@[simp] theorem Dev.tick_sound (d : Dev) (hs : d.Sound) : (Dev.tick d).Sound := by
  unfold Dev.tick; simp (maxDischargeDepth := 12) [*]

@[simp] theorem Dev.tick_otp (d : Dev) : (Dev.tick d).plat.otp = d.plat.otp := by
  unfold Dev.tick; simp (maxDischargeDepth := 12) [*]


/-! ## SlotOps -/

@[simp] theorem Dev.outPulse_sound (d : Dev) (hs : d.Sound) : (Dev.outPulse d).Sound := by
  unfold Dev.outPulse; simp (maxDischargeDepth := 12) [*]

@[simp] theorem Dev.outPulse_otp (d : Dev) : (Dev.outPulse d).plat.otp = d.plat.otp := by
  unfold Dev.outPulse; simp (maxDischargeDepth := 12) [*]

@[simp] theorem Dev.fire_sound (d : Dev) (r : Nat) (owner : Nat) (frame : Nat) (beat : Nat) (phase : Nat) (hs : d.Sound) :
    (Dev.fire d r owner frame beat phase).Sound := by
  unfold Dev.fire; (repeat' split) <;> simp (maxDischargeDepth := 12) [*]

@[simp] theorem Dev.fire_otp (d : Dev) (r : Nat) (owner : Nat) (frame : Nat) (beat : Nat) (phase : Nat) :
    (Dev.fire d r owner frame beat phase).plat.otp = d.plat.otp := by
  unfold Dev.fire; (repeat' split) <;> simp (maxDischargeDepth := 12) [*]

@[simp] theorem Dev.advanceSlot_sound (d : Dev) (slot : Nat) (x : Slot) (beat : Nat) (n : Nat) (hs : d.Sound) :
    (Dev.advanceSlot d slot x beat n).Sound := by
  unfold Dev.advanceSlot; simp (maxDischargeDepth := 12) [*]

@[simp] theorem Dev.advanceSlot_otp (d : Dev) (slot : Nat) (x : Slot) (beat : Nat) (n : Nat) :
    (Dev.advanceSlot d slot x beat n).plat.otp = d.plat.otp := by
  unfold Dev.advanceSlot; simp (maxDischargeDepth := 12) [*]

@[simp] theorem Dev.fireLate_sound (d : Dev) (slot : Nat) (x : Slot) (n : Nat) (hs : d.Sound) : (Dev.fireLate d slot x n).Sound := by
  unfold Dev.fireLate; simp (maxDischargeDepth := 12) [*]

@[simp] theorem Dev.fireLate_otp (d : Dev) (slot : Nat) (x : Slot) (n : Nat) : (Dev.fireLate d slot x n).plat.otp = d.plat.otp := by
  unfold Dev.fireLate; simp (maxDischargeDepth := 12) [*]

@[simp] theorem Dev.slotWritten_sound (d : Dev) (slot : Nat) (hs : d.Sound) : (Dev.slotWritten d slot).Sound := by
  unfold Dev.slotWritten; (repeat' split) <;> simp (maxDischargeDepth := 12) [*]

@[simp] theorem Dev.slotWritten_otp (d : Dev) (slot : Nat) : (Dev.slotWritten d slot).plat.otp = d.plat.otp := by
  unfold Dev.slotWritten; (repeat' split) <;> simp (maxDischargeDepth := 12) [*]

@[simp] theorem Dev.fireSlot_sound (d : Dev) (n : Nat) (x : Slot) (hs : d.Sound) : (Dev.fireSlot d n x).Sound := by
  unfold Dev.fireSlot; simp (maxDischargeDepth := 12) [*]

@[simp] theorem Dev.fireSlot_otp (d : Dev) (n : Nat) (x : Slot) : (Dev.fireSlot d n x).plat.otp = d.plat.otp := by
  unfold Dev.fireSlot; simp (maxDischargeDepth := 12) [*]


/-! ## Cadence -/

@[simp] theorem Dev.putSlot_sound (d : Dev) (n : Nat) (x : Slot) (hs : d.Sound) : (Dev.putSlot d n x).Sound := by
  unfold Dev.putSlot; simp (maxDischargeDepth := 12) [*]

@[simp] theorem Dev.putSlot_otp (d : Dev) (n : Nat) (x : Slot) : (Dev.putSlot d n x).plat.otp = d.plat.otp := by
  unfold Dev.putSlot; simp (maxDischargeDepth := 12) [*]

@[simp] theorem Dev.refEvent_sound (d : Dev) (t : Nat) (hs : d.Sound) : (Dev.refEvent d t).Sound := by
  unfold Dev.refEvent; simp (maxDischargeDepth := 12) [*]

@[simp] theorem Dev.refEvent_otp (d : Dev) (t : Nat) : (Dev.refEvent d t).plat.otp = d.plat.otp := by
  unfold Dev.refEvent; simp (maxDischargeDepth := 12) [*]

@[simp] theorem Dev.ptpLock_sound (d : Dev) (hs : d.Sound) : (Dev.ptpLock d).Sound := by
  unfold Dev.ptpLock; simp (maxDischargeDepth := 12) [*]

@[simp] theorem Dev.ptpLock_otp (d : Dev) : (Dev.ptpLock d).plat.otp = d.plat.otp := by
  unfold Dev.ptpLock; simp (maxDischargeDepth := 12) [*]

@[simp] theorem Dev.syncRecord_sound (d : Dev) (ptpTime : Nat) (hs : d.Sound) : (Dev.syncRecord d ptpTime).Sound := by
  unfold Dev.syncRecord; simp (maxDischargeDepth := 12) [*]

@[simp] theorem Dev.syncRecord_otp (d : Dev) (ptpTime : Nat) : (Dev.syncRecord d ptpTime).plat.otp = d.plat.otp := by
  unfold Dev.syncRecord; simp (maxDischargeDepth := 12) [*]

@[simp] theorem Dev.beatStarts_sound (d : Dev) (b : Nat) (t : Nat) (hs : d.Sound) : (Dev.beatStarts d b t).Sound := by
  unfold Dev.beatStarts; simp (maxDischargeDepth := 12) [*]

@[simp] theorem Dev.beatStarts_otp (d : Dev) (b : Nat) (t : Nat) : (Dev.beatStarts d b t).plat.otp = d.plat.otp := by
  unfold Dev.beatStarts; simp (maxDischargeDepth := 12) [*]

end Sys2Proof.Machine
end

