-- ==== Sys2Proof/Laws/KeepIngest.lean ====
section
/-! SUPPORT. Ingest, the shaper and the live streams keep a device sound and leave the one-time-programmable cells alone. -/

namespace Sys2Proof.Machine

/-! ## IngestOps -/

@[simp] theorem Dev.updIng_sound (d : Dev) (f : Ing → Ing) (hs : d.Sound) : (Dev.updIng d f).Sound := by
  unfold Dev.updIng; simp (maxDischargeDepth := 12) [*]

@[simp] theorem Dev.updIng_otp (d : Dev) (f : Ing → Ing) : (Dev.updIng d f).plat.otp = d.plat.otp := by
  unfold Dev.updIng; simp (maxDischargeDepth := 12) [*]

@[simp] theorem Dev.putCompHead_sound (d : Dev) (n : Nat) (hs : d.Sound) : (Dev.putCompHead d n).Sound := by
  unfold Dev.putCompHead; simp (maxDischargeDepth := 12) [*]

@[simp] theorem Dev.putCompHead_otp (d : Dev) (n : Nat) : (Dev.putCompHead d n).plat.otp = d.plat.otp := by
  unfold Dev.putCompHead; simp (maxDischargeDepth := 12) [*]

@[simp] theorem Dev.eatEntries_sound (d : Dev) (n : Nat) (k : Nat) (hs : d.Sound) : (Dev.eatEntries d n k).Sound := by
  unfold Dev.eatEntries; simp (maxDischargeDepth := 12) [*]

@[simp] theorem Dev.eatEntries_otp (d : Dev) (n : Nat) (k : Nat) : (Dev.eatEntries d n k).plat.otp = d.plat.otp := by
  unfold Dev.eatEntries; simp (maxDischargeDepth := 12) [*]

@[simp] theorem Dev.putRecord_sound (d : Dev) (j : Job) (res : Nat) (conc : Nat) (units : Nat) (hs : d.Sound) :
    (Dev.putRecord d j res conc units).Sound := by
  unfold Dev.putRecord; simp (maxDischargeDepth := 12) [*]

@[simp] theorem Dev.putRecord_otp (d : Dev) (j : Job) (res : Nat) (conc : Nat) (units : Nat) :
    (Dev.putRecord d j res conc units).plat.otp = d.plat.otp := by
  unfold Dev.putRecord; simp (maxDischargeDepth := 12) [*]

@[simp] theorem Dev.endRing_sound (d : Dev) (n : Nat) (hs : d.Sound) : (Dev.endRing d n).Sound := by
  unfold Dev.endRing; simp (maxDischargeDepth := 12) [*]

@[simp] theorem Dev.endRing_otp (d : Dev) (n : Nat) : (Dev.endRing d n).plat.otp = d.plat.otp := by
  unfold Dev.endRing; simp (maxDischargeDepth := 12) [*]

@[simp] theorem Dev.endJob_sound (d : Dev) (j : Job) (res : Nat) (conc : Nat) (units : Nat) (hs : d.Sound) :
    (Dev.endJob d j res conc units).Sound := by
  unfold Dev.endJob; simp (maxDischargeDepth := 12) [*]

@[simp] theorem Dev.endJob_otp (d : Dev) (j : Job) (res : Nat) (conc : Nat) (units : Nat) :
    (Dev.endJob d j res conc units).plat.otp = d.plat.otp := by
  unfold Dev.endJob; simp (maxDischargeDepth := 12) [*]

theorem Dev.startJob_sound (d : Dev) (b : Nat) (hs : d.Sound) {d' : Dev} (e : Dev.startJob d b = some d') : d'.Sound := by
  unfold Dev.startJob at e
  split at e
  · simp only [Option.map_eq_some_iff] at e
    obtain ⟨j, -, rfl⟩ := e
    exact sound_ite (Dev.updIng_sound _ _ hs) (Dev.demand_sound _ _ hs)
  · simp at e

theorem Dev.startJob_otp (d : Dev) (b : Nat) {d' : Dev} (e : Dev.startJob d b = some d') : d'.plat.otp = d.plat.otp := by
  unfold Dev.startJob at e
  split at e
  · simp only [Option.map_eq_some_iff] at e
    obtain ⟨j, -, rfl⟩ := e
    exact otp_ite rfl (Dev.demand_otp _ _)
  · simp at e

theorem Dev.preemptJob_sound (d : Dev) (b : Nat) (hs : d.Sound) {d' : Dev} (e : Dev.preemptJob d b = some d') : d'.Sound := by
  unfold Dev.preemptJob at e
  split at e
  · split at e
    · obtain ⟨k, -, rfl⟩ := Option.map_eq_some_iff.1 e
      exact Dev.updIng_sound _ _ hs
    · simp at e
  · simp at e

theorem Dev.preemptJob_otp (d : Dev) (b : Nat) {d' : Dev} (e : Dev.preemptJob d b = some d') : d'.plat.otp = d.plat.otp := by
  unfold Dev.preemptJob at e
  split at e
  · split at e
    · obtain ⟨k, -, rfl⟩ := Option.map_eq_some_iff.1 e
      exact Dev.updIng_otp _ _
    · simp at e
  · simp at e

@[simp] theorem Dev.putRun_sound (d : Dev) (r : Nat) (j : Nat) (b : Nat) (plane : Nat) (start : Nat) (xs : List (List Byte)) (hs : d.Sound) :
    (Dev.putRun d r j b plane start xs).Sound := by
  unfold Dev.putRun; simp (maxDischargeDepth := 12) [*]

@[simp] theorem Dev.putRun_otp (d : Dev) (r : Nat) (j : Nat) (b : Nat) (plane : Nat) (start : Nat) (xs : List (List Byte)) :
    (Dev.putRun d r j b plane start xs).plat.otp = d.plat.otp := by
  unfold Dev.putRun; simp (maxDischargeDepth := 12) [*]

@[simp] theorem Dev.putMask_sound (d : Dev) (r : Nat) (j : Nat) (b : Nat) (xs : List Byte) (hs : d.Sound) : (Dev.putMask d r j b xs).Sound := by
  unfold Dev.putMask; simp (maxDischargeDepth := 12) [*]

@[simp] theorem Dev.putMask_otp (d : Dev) (r : Nat) (j : Nat) (b : Nat) (xs : List Byte) : (Dev.putMask d r j b xs).plat.otp = d.plat.otp := by
  unfold Dev.putMask; simp (maxDischargeDepth := 12) [*]

@[simp] theorem Dev.putHeader_sound (d : Dev) (j : Nat) (b : Nat) (segs : List SampleSeg) (hs : d.Sound) : (Dev.putHeader d j b segs).Sound := by
  unfold Dev.putHeader
  refine sound_foldl _ _ _ (fun d q h => ?_) hs
  exact Dev.store_sound _ _ _ (sound_foldl _ _ _ (fun d r h => Dev.storeNat_sound _ _ _ _ h) h)

@[simp] theorem Dev.putHeader_otp (d : Dev) (j : Nat) (b : Nat) (segs : List SampleSeg) : (Dev.putHeader d j b segs).plat.otp = d.plat.otp := by
  unfold Dev.putHeader
  refine otp_foldl _ _ _ (fun d q => ?_)
  exact (Dev.store_otp _ _ _).trans (otp_foldl _ _ _ (fun d r => Dev.storeNat_otp _ _ _ _))

@[simp] theorem Dev.putPadding_sound (d : Dev) (j : Nat) (b : Nat) (pad : Nat) (segs : List SampleSeg) (hs : d.Sound) :
    (Dev.putPadding d j b pad segs).Sound := by
  unfold Dev.putPadding
  refine sound_foldl _ _ _ (fun d q h => ?_) hs
  exact Dev.putMask_sound _ _ _ _ _ (sound_foldl _ _ _ (fun d r h => Dev.putRun_sound _ _ _ _ _ _ _ h) h)

@[simp] theorem Dev.putPadding_otp (d : Dev) (j : Nat) (b : Nat) (pad : Nat) (segs : List SampleSeg) :
    (Dev.putPadding d j b pad segs).plat.otp = d.plat.otp := by
  unfold Dev.putPadding
  refine otp_foldl _ _ _ (fun d q => ?_)
  exact (Dev.putMask_otp _ _ _ _ _).trans (otp_foldl _ _ _ (fun d r => Dev.putRun_otp _ _ _ _ _ _ _))

@[simp] theorem Dev.fillSlot_sound (d : Dev) (s : Sample) (pad : Nat) (status : Nat) (hs : d.Sound) : (Dev.fillSlot d s pad status).Sound := by
  unfold Dev.fillSlot; simp (maxDischargeDepth := 12) [*]

@[simp] theorem Dev.fillSlot_otp (d : Dev) (s : Sample) (pad : Nat) (status : Nat) : (Dev.fillSlot d s pad status).plat.otp = d.plat.otp := by
  unfold Dev.fillSlot; simp (maxDischargeDepth := 12) [*]

@[simp] theorem Dev.withdraw_sound (d : Dev) (j : Job) (hs : d.Sound) : (Dev.withdraw d j).Sound := by
  unfold Dev.withdraw; simp (maxDischargeDepth := 12) [*]

@[simp] theorem Dev.withdraw_otp (d : Dev) (j : Job) : (Dev.withdraw d j).plat.otp = d.plat.otp := by
  unfold Dev.withdraw; simp (maxDischargeDepth := 12) [*]

@[simp] theorem Dev.padSample_sound (d : Dev) (s : Sample) (pad : Nat) (status : Nat) (hs : d.Sound) : (Dev.padSample d s pad status).Sound := by
  unfold Dev.padSample; (repeat' (first
    | assumption
    | (simp (maxDischargeDepth := 12) [*]; done)
    | with_reducible refine sound_ite ?_ ?_
    | split
    | with_reducible refine sound_foldl _ _ _ (fun _ _ _ => ?_) ?_))

@[simp] theorem Dev.padSample_otp (d : Dev) (s : Sample) (pad : Nat) (status : Nat) : (Dev.padSample d s pad status).plat.otp = d.plat.otp := by
  unfold Dev.padSample; (repeat' (first
    | assumption
    | (simp (maxDischargeDepth := 12) [*]; done)
    | with_reducible refine otp_ite ?_ ?_
    | split
    | with_reducible refine otp_foldl _ _ _ (fun _ _ => ?_)
    | with_reducible refine Eq.trans (otp_foldl _ _ _ (fun _ _ => ?_)) ?_))

@[simp] theorem Dev.replaceSample_sound (d : Dev) (o : Nat) (status : Nat) (hs : d.Sound) : (Dev.replaceSample d o status).Sound := by
  unfold Dev.replaceSample; (repeat' split) <;> simp (maxDischargeDepth := 12) [*]

@[simp] theorem Dev.replaceSample_otp (d : Dev) (o : Nat) (status : Nat) : (Dev.replaceSample d o status).plat.otp = d.plat.otp := by
  unfold Dev.replaceSample; (repeat' split) <;> simp (maxDischargeDepth := 12) [*]

@[simp] theorem Dev.handoff_sound (d : Dev) (s : Sample) (hs : d.Sound) : (Dev.handoff d s).Sound := by
  unfold Dev.handoff; (repeat' split) <;> simp (maxDischargeDepth := 12) [*]

@[simp] theorem Dev.handoff_otp (d : Dev) (s : Sample) : (Dev.handoff d s).plat.otp = d.plat.otp := by
  unfold Dev.handoff; (repeat' split) <;> simp (maxDischargeDepth := 12) [*]

@[simp] theorem Dev.lateSample_sound (d : Dev) (s : Sample) (hs : d.Sound) : (Dev.lateSample d s).Sound := by
  unfold Dev.lateSample; dsimp only; (repeat' split) <;> simp (maxDischargeDepth := 12) [*]

@[simp] theorem Dev.lateSample_otp (d : Dev) (s : Sample) : (Dev.lateSample d s).plat.otp = d.plat.otp := by
  unfold Dev.lateSample; dsimp only; (repeat' split) <;> simp (maxDischargeDepth := 12) [*]

@[simp] theorem Dev.tryFill_sound (d : Dev) (o : Nat) (hs : d.Sound) : (Dev.tryFill d o).Sound := by
  unfold Dev.tryFill; (repeat' split) <;> simp (maxDischargeDepth := 12) [*]

@[simp] theorem Dev.tryFill_otp (d : Dev) (o : Nat) : (Dev.tryFill d o).plat.otp = d.plat.otp := by
  unfold Dev.tryFill; (repeat' split) <;> simp (maxDischargeDepth := 12) [*]

@[simp] theorem Dev.sampleJob_sound (d : Dev) (o : Nat) (j : Job) (res : Nat) (ms : List Media) (hs : d.Sound) :
    (Dev.sampleJob d o j res ms).Sound := by
  unfold Dev.sampleJob; (repeat' split) <;> simp (maxDischargeDepth := 12) [*]

@[simp] theorem Dev.sampleJob_otp (d : Dev) (o : Nat) (j : Job) (res : Nat) (ms : List Media) :
    (Dev.sampleJob d o j res ms).plat.otp = d.plat.otp := by
  unfold Dev.sampleJob; (repeat' split) <;> simp (maxDischargeDepth := 12) [*]

@[simp] theorem Dev.liveFail_sound (d : Dev) (n : Nat) (j : Job) (res : Nat) (hs : d.Sound) : (Dev.liveFail d n j res).Sound := by
  unfold Dev.liveFail; simp (maxDischargeDepth := 12) [*]

@[simp] theorem Dev.liveFail_otp (d : Dev) (n : Nat) (j : Job) (res : Nat) : (Dev.liveFail d n j res).plat.otp = d.plat.otp := by
  unfold Dev.liveFail; simp (maxDischargeDepth := 12) [*]

@[simp] theorem Dev.deadJob_sound (d : Dev) (j : Job) (res : Nat) (hs : d.Sound) : (Dev.deadJob d j res).Sound := by
  unfold Dev.deadJob; (repeat' split) <;> simp (maxDischargeDepth := 12) [*]

@[simp] theorem Dev.deadJob_otp (d : Dev) (j : Job) (res : Nat) : (Dev.deadJob d j res).plat.otp = d.plat.otp := by
  unfold Dev.deadJob; (repeat' split) <;> simp (maxDischargeDepth := 12) [*]


/-! ## Ingest -/

@[simp] theorem Dev.setRing_sound (d : Dev) (port : Nat) (n : Nat) (r : Ring) (hs : d.Sound) : (Dev.setRing d port n r).Sound := by
  unfold Dev.setRing; simp (maxDischargeDepth := 12) [*]

@[simp] theorem Dev.setRing_otp (d : Dev) (port : Nat) (n : Nat) (r : Ring) : (Dev.setRing d port n r).plat.otp = d.plat.otp := by
  unfold Dev.setRing; simp (maxDischargeDepth := 12) [*]

@[simp] theorem Dev.abortUnfed_sound (d : Dev) (h : Nat) (hs : d.Sound) : (Dev.abortUnfed d h).Sound := by
  unfold Dev.abortUnfed; simp (maxDischargeDepth := 12) [*]

@[simp] theorem Dev.abortUnfed_otp (d : Dev) (h : Nat) : (Dev.abortUnfed d h).plat.otp = d.plat.otp := by
  unfold Dev.abortUnfed; simp (maxDischargeDepth := 12) [*]

@[simp] theorem Dev.closeRing_sound (d : Dev) (n : Nat) (cmd : Nat) (hs : d.Sound) : (Dev.closeRing d n cmd).Sound := by
  unfold Dev.closeRing
  extract_lets live d1 d2 d3 d4
  have h1 : d1.Sound := sound_foldl _ _ _ (fun d h hd => Dev.abortUnfed_sound _ _ hd) hs
  have h3 : d3.Sound := Dev.updIng_sound _ _ (sound_ite hs (Dev.updIng_sound _ _ h1))
  refine Dev.endRing_sound _ _ (sound_foldl _ _ _ (fun d j h => ?_) h3)
  split
  · exact sound_ite (Dev.liveFail_sound _ _ _ _ (Dev.withdraw_sound _ _ h)) (Dev.withdraw_sound _ _ h)
  · exact Dev.withdraw_sound _ _ h

@[simp] theorem Dev.closeRing_otp (d : Dev) (n : Nat) (cmd : Nat) : (Dev.closeRing d n cmd).plat.otp = d.plat.otp := by
  unfold Dev.closeRing
  extract_lets live d1 d2 d3 d4
  have h1 : d1.plat.otp = d.plat.otp := otp_foldl _ _ _ (fun d h => Dev.abortUnfed_otp _ _)
  have h2 : d2.plat.otp = d.plat.otp := otp_ite rfl h1
  refine (Dev.endRing_otp _ _).trans ((otp_foldl _ _ _ (fun d j => ?_)).trans h2)
  split
  · exact otp_ite ((Dev.liveFail_otp _ _ _ _).trans (Dev.withdraw_otp _ _)) (Dev.withdraw_otp _ _)
  · exact Dev.withdraw_otp _ _

@[simp] theorem Dev.loadFails_sound (d : Dev) (x : Gen) (status : Nat) (hs : d.Sound) : (Dev.loadFails d x status).Sound := by
  unfold Dev.loadFails
  exact Dev.finish_sound _ _ _ _ _ (sound_foldl _ _ _ (fun d j h => Dev.deadJob_sound _ _ _ h) (Dev.updIng_sound _ _ hs))

@[simp] theorem Dev.loadFails_otp (d : Dev) (x : Gen) (status : Nat) : (Dev.loadFails d x status).plat.otp = d.plat.otp := by
  unfold Dev.loadFails
  exact (Dev.finish_otp _ _ _ _ _).trans ((otp_foldl _ _ _ (fun d j => Dev.deadJob_otp _ _ _)).trans rfl)

@[simp] theorem Dev.tableEnds_sound (d : Dev) (x : Gen) (hs : d.Sound) : (Dev.tableEnds d x).Sound := by
  unfold Dev.tableEnds; (repeat' split) <;> simp (maxDischargeDepth := 12) [*]

@[simp] theorem Dev.tableEnds_otp (d : Dev) (x : Gen) : (Dev.tableEnds d x).plat.otp = d.plat.otp := by
  unfold Dev.tableEnds; (repeat' split) <;> simp (maxDischargeDepth := 12) [*]

@[simp] theorem Dev.newWindow_sound (d : Dev) (hs : d.Sound) : (Dev.newWindow d).Sound := by
  unfold Dev.newWindow; simp (maxDischargeDepth := 12) [*]

@[simp] theorem Dev.newWindow_otp (d : Dev) : (Dev.newWindow d).plat.otp = d.plat.otp := by
  unfold Dev.newWindow; simp (maxDischargeDepth := 12) [*]

@[simp] theorem Dev.takeJob_sound (d : Dev) (n : Nat) (hs : d.Sound) : (Dev.takeJob d n).Sound := by
  unfold Dev.takeJob; dsimp only; (repeat' split) <;> simp (maxDischargeDepth := 12) [*]

@[simp] theorem Dev.takeJob_otp (d : Dev) (n : Nat) : (Dev.takeJob d n).plat.otp = d.plat.otp := by
  unfold Dev.takeJob; dsimp only; (repeat' split) <;> simp (maxDischargeDepth := 12) [*]

@[simp] theorem Dev.jobReads_sound (d : Dev) (j : Job) (flips : List Nat) (ctxBad : Bool) (hs : d.Sound) : (Dev.jobReads d j flips ctxBad).2.Ok := by
  unfold Dev.jobReads; (repeat' (first
    | assumption
    | (simp (maxDischargeDepth := 12) [*]; done)
    | with_reducible refine ok_ite ?_ ?_
    | with_reducible refine ok_ite2 ?_ ?_
    | with_reducible refine ok_foldl _ _ _ (fun _ _ _ => ?_) ?_
    | with_reducible refine ok_foldl2 _ _ _ (fun _ _ _ => ?_) ?_
    | with_reducible refine ok_foldr2 _ _ _ (fun _ _ _ => ?_) ?_
    | with_reducible refine Wk.mapM_ok _ _ _ (fun _ _ _ => ?_) ?_
    | (simp only [Wk.ok_mk]; refine ⟨?_, ?_⟩)
    | split))

@[simp] theorem Dev.storeFit_sound (d : Dev) (a : Nat) (bs : List Byte) (hs : d.Sound) : (Dev.storeFit d a bs).Sound := by
  unfold Dev.storeFit; simp (maxDischargeDepth := 12) [*]

@[simp] theorem Dev.storeFit_otp (d : Dev) (a : Nat) (bs : List Byte) : (Dev.storeFit d a bs).plat.otp = d.plat.otp := by
  unfold Dev.storeFit; simp (maxDischargeDepth := 12) [*]

@[simp] theorem Dev.settleJob_sound (d : Dev) (j : Job) (e : JobEnd) (hs : d.Sound) : (Dev.settleJob d j e).Sound := by
  unfold Dev.settleJob; dsimp only; (repeat' split) <;> simp (maxDischargeDepth := 12) [*]

@[simp] theorem Dev.settleJob_otp (d : Dev) (j : Job) (e : JobEnd) : (Dev.settleJob d j e).plat.otp = d.plat.otp := by
  unfold Dev.settleJob; dsimp only; (repeat' split) <;> simp (maxDischargeDepth := 12) [*]

theorem Dev.completeJob_sound (d : Dev) (b : Nat) (flips : List Nat) (ctxBad : Bool) (hs : d.Sound) {d' : Dev} (e : Dev.completeJob d b flips ctxBad = some d') :
    d'.Sound := by
  unfold Dev.completeJob at e; dsimp only at e; (repeat' split at e) <;> simp at e <;> (try subst e) <;> (repeat' (first
    | assumption
    | (simp (maxDischargeDepth := 12) [*]; done)))

theorem Dev.completeJob_otp (d : Dev) (b : Nat) (flips : List Nat) (ctxBad : Bool) {d' : Dev} (e : Dev.completeJob d b flips ctxBad = some d') :
    d'.plat.otp = d.plat.otp := by
  unfold Dev.completeJob at e; (repeat' split at e) <;> simp at e <;> (try subst e) <;> simp (maxDischargeDepth := 12) [*]


/-! ## Live -/

theorem wf_graft {α : Type} [DecidableEq α] (z : α) (hit : Nat → Bool) (m new : Tab α) (h : Tab.wf z m = true) :
    Tab.wf z (graft z hit m new) = true :=
  foldl_keeps (fun m => Tab.wf z m = true) _ (fun m e h => Tab.wf_set z _ m _ h) new _ (Tab.wf_filter z m _ h)

@[simp] theorem Dev.readRois_sound (d : Dev) (s : Stream) (t : Task) (hs : d.Sound) : (d.readRois s t).2.Sound := by
  unfold Dev.readRois
  (repeat' split) <;> simp [hs]

@[simp] theorem Dev.readRois_otp (d : Dev) (s : Stream) (t : Task) : (d.readRois s t).2.plat.otp = d.plat.otp := by
  unfold Dev.readRois
  (repeat' split) <;> simp

@[simp] theorem Dev.openStream_sound (d : Dev) (port : Nat) (r : Nat) (n : Nat) (slot : Nat) (hs : d.Sound) :
    (Dev.openStream d port r n slot).Sound := by
  unfold Dev.openStream; simp (maxDischargeDepth := 12) [*]

@[simp] theorem Dev.openStream_otp (d : Dev) (port : Nat) (r : Nat) (n : Nat) (slot : Nat) :
    (Dev.openStream d port r n slot).plat.otp = d.plat.otp := by
  unfold Dev.openStream; simp (maxDischargeDepth := 12) [*]

@[simp] theorem Dev.freeEngine_sound (d : Dev) (e : Nat) (hs : d.Sound) : (Dev.freeEngine d e).Sound := by
  unfold Dev.freeEngine; simp (maxDischargeDepth := 12) [*]

@[simp] theorem Dev.freeEngine_otp (d : Dev) (e : Nat) : (Dev.freeEngine d e).plat.otp = d.plat.otp := by
  unfold Dev.freeEngine; simp (maxDischargeDepth := 12) [*]

@[simp] theorem Dev.endClose_sound (d : Dev) (n : Nat) (hs : d.Sound) : (Dev.endClose d n).Sound := by
  unfold Dev.endClose; dsimp only; (repeat' split) <;> simp (maxDischargeDepth := 12) [*]

@[simp] theorem Dev.endClose_otp (d : Dev) (n : Nat) : (Dev.endClose d n).plat.otp = d.plat.otp := by
  unfold Dev.endClose; dsimp only; (repeat' split) <;> simp (maxDischargeDepth := 12) [*]

@[simp] theorem Dev.beginClose_sound (d : Dev) (n : Nat) (cmd : Nat) (hs : d.Sound) : (Dev.beginClose d n cmd).Sound := by
  unfold Dev.beginClose; dsimp only; (repeat' split) <;> simp (maxDischargeDepth := 12) [*]

@[simp] theorem Dev.beginClose_otp (d : Dev) (n : Nat) (cmd : Nat) : (Dev.beginClose d n cmd).plat.otp = d.plat.otp := by
  unfold Dev.beginClose; dsimp only; (repeat' split) <;> simp (maxDischargeDepth := 12) [*]

@[simp] theorem Dev.dropTask_sound (d : Dev) (n : Nat) (hs : d.Sound) : (Dev.dropTask d n).Sound := by
  unfold Dev.dropTask; simp (maxDischargeDepth := 12) [*]

@[simp] theorem Dev.dropTask_otp (d : Dev) (n : Nat) : (Dev.dropTask d n).plat.otp = d.plat.otp := by
  unfold Dev.dropTask; simp (maxDischargeDepth := 12) [*]

@[simp] theorem Dev.taskStatus_sound (d : Dev) (n : Nat) (s : Stream) (t : Task) (hs : d.Sound) : (Dev.taskStatus d n s t).Sound := by
  unfold Dev.taskStatus; simp (maxDischargeDepth := 12) [*]

@[simp] theorem Dev.taskStatus_otp (d : Dev) (n : Nat) (s : Stream) (t : Task) : (Dev.taskStatus d n s t).plat.otp = d.plat.otp := by
  unfold Dev.taskStatus; simp (maxDischargeDepth := 12) [*]

@[simp] theorem Dev.freeOutputs_sound (d : Dev) (s : Stream) (t : Task) (hs : d.Sound) : (Dev.freeOutputs d s t).Sound := by
  unfold Dev.freeOutputs; (repeat' (first
    | assumption
    | (simp (maxDischargeDepth := 12) [*]; done)
    | with_reducible refine sound_ite ?_ ?_
    | split
    | with_reducible refine sound_foldl _ _ _ (fun _ _ _ => ?_) ?_))

@[simp] theorem Dev.freeOutputs_otp (d : Dev) (s : Stream) (t : Task) : (Dev.freeOutputs d s t).plat.otp = d.plat.otp := by
  unfold Dev.freeOutputs; (repeat' (first
    | assumption
    | (simp (maxDischargeDepth := 12) [*]; done)
    | with_reducible refine otp_ite ?_ ?_
    | split
    | with_reducible refine otp_foldl _ _ _ (fun _ _ => ?_)))

@[simp] theorem Dev.endTask_sound (d : Dev) (n : Nat) (s : Stream) (t : Task) (hs : d.Sound) : (Dev.endTask d n s t).Sound := by
  unfold Dev.endTask; simp (maxDischargeDepth := 12) [*]

@[simp] theorem Dev.endTask_otp (d : Dev) (n : Nat) (s : Stream) (t : Task) : (Dev.endTask d n s t).plat.otp = d.plat.otp := by
  unfold Dev.endTask; simp (maxDischargeDepth := 12) [*]

@[simp] theorem Dev.endBadInput_sound (d : Dev) (n : Nat) (t : Task) (st : Nat) (hs : d.Sound) : (Dev.endBadInput d n t st).Sound := by
  unfold Dev.endBadInput; simp (maxDischargeDepth := 12) [*]

@[simp] theorem Dev.endBadInput_otp (d : Dev) (n : Nat) (t : Task) (st : Nat) : (Dev.endBadInput d n t st).plat.otp = d.plat.otp := by
  unfold Dev.endBadInput; simp (maxDischargeDepth := 12) [*]

theorem Dev.taskEnds_sound (d : Dev) (n : Nat) (hs : d.Sound) {d' : Dev} (e : Dev.taskEnds d n = some d') : d'.Sound := by
  unfold Dev.taskEnds at e
  extract_lets s at e
  split at e
  · simp only [Option.some.injEq] at e
    subst e
    exact Dev.endTask_sound _ _ _ _ (Dev.readRois_sound _ _ _ hs)
  · obtain ⟨st, -, rfl⟩ := Option.map_eq_some_iff.1 e
    exact Dev.endBadInput_sound _ _ _ _ hs
  · simp at e

theorem Dev.taskEnds_otp (d : Dev) (n : Nat) {d' : Dev} (e : Dev.taskEnds d n = some d') : d'.plat.otp = d.plat.otp := by
  unfold Dev.taskEnds at e
  extract_lets s at e
  split at e
  · simp only [Option.some.injEq] at e
    subst e
    exact (Dev.endTask_otp _ _ _ _).trans (Dev.readRois_otp _ _ _)
  · obtain ⟨st, -, rfl⟩ := Option.map_eq_some_iff.1 e
    exact Dev.endBadInput_otp _ _ _ _
  · simp at e

@[simp] theorem Dev.markQueued_sound (d : Dev) (n : Nat) (s : Stream) (hs : d.Sound) : (Dev.markQueued d n s).Sound := by
  unfold Dev.markQueued; simp (maxDischargeDepth := 12) [*]

@[simp] theorem Dev.markQueued_otp (d : Dev) (n : Nat) (s : Stream) : (Dev.markQueued d n s).plat.otp = d.plat.otp := by
  unfold Dev.markQueued; simp (maxDischargeDepth := 12) [*]

@[simp] theorem Dev.startTask_sound (d : Dev) (n : Nat) (t : Task) (hs : d.Sound) : (Dev.startTask d n t).Sound := by
  unfold Dev.startTask
  extract_lets d0 s p run
  have h0 : d0.Sound := Dev.trace_sound _ _ _ _ _ _ _ hs
  have hr : ∀ (d : Dev) t, d.Sound → (run d t).Sound := fun d t h => (Dev.sound_mk ..).2 ⟨h.log, h.mem, h.poison, h.ctr⟩
  clear_value run d0
  refine sound_ite (Dev.endTask_sound _ _ _ _ (hr _ _ h0)) ?_
  have h1 := Dev.openWork_sound d0 p n (srSeqBase s.record) t.frame none h0
  generalize d0.openWork p n (srSeqBase s.record) t.frame none = x at h1 ⊢
  obtain ⟨d1, failed⟩ := x
  simp only at h1 ⊢
  refine sound_ite (Dev.endTask_sound _ _ _ _ (hr _ _ h1)) ?_
  exact Dev.launchAll_sound _ (Dev.reclock_sound _ (sound_foldl _ _ _ (fun d m h => Dev.preempt_sound _ _ h) (hr _ _ (Dev.markQueued_sound _ _ _ h1))))

@[simp] theorem Dev.startTask_otp (d : Dev) (n : Nat) (t : Task) : (Dev.startTask d n t).plat.otp = d.plat.otp := by
  unfold Dev.startTask
  extract_lets d0 s p run
  have h0 : d0.plat.otp = d.plat.otp := Dev.trace_otp _ _ _ _ _ _ _
  have hr : ∀ (d : Dev) t, (run d t).plat.otp = d.plat.otp := fun d t => rfl
  clear_value run d0
  refine otp_ite ((Dev.endTask_otp _ _ _ _).trans ((hr _ _).trans h0)) ?_
  have h1 := (Dev.openWork_otp d0 p n (srSeqBase s.record) t.frame none).trans h0
  generalize d0.openWork p n (srSeqBase s.record) t.frame none = x at h1 ⊢
  obtain ⟨d1, failed⟩ := x
  simp only at h1 ⊢
  refine otp_ite ((Dev.endTask_otp _ _ _ _).trans ((hr _ _).trans h1)) ?_
  exact (Dev.launchAll_otp _).trans ((Dev.reclock_otp _).trans ((otp_foldl _ _ _ (fun d m => Dev.preempt_otp _ _)).trans ((hr _ _).trans ((Dev.markQueued_otp _ _ _).trans h1))))

theorem Dev.taskStarts_sound (d : Dev) (n : Nat) (hs : d.Sound) {d' : Dev} (e : Dev.taskStarts d n = some d') : d'.Sound := by
  unfold Dev.taskStarts at e
  split at e
  · simp only [Option.map_eq_some_iff] at e
    obtain ⟨t, -, rfl⟩ := e
    exact Dev.startTask_sound _ _ _ hs
  · simp at e

theorem Dev.taskStarts_otp (d : Dev) (n : Nat) {d' : Dev} (e : Dev.taskStarts d n = some d') : d'.plat.otp = d.plat.otp := by
  unfold Dev.taskStarts at e
  split at e
  · simp only [Option.map_eq_some_iff] at e
    obtain ⟨t, -, rfl⟩ := e
    exact Dev.startTask_otp _ _ _
  · simp at e

@[simp] theorem Dev.restoreAcc_sound (d : Dev) (n : Nat) (hs : d.Sound) : (Dev.restoreAcc d n).Sound := by
  unfold Dev.restoreAcc
  exact Dev.updCore_sound _ _ _ ((Dev.sound_mk ..).2 ⟨hs.log, wf_graft _ _ _ _ hs.mem, wf_graft _ _ _ _ hs.poison, hs.ctr⟩)

@[simp] theorem Dev.restoreAcc_otp (d : Dev) (n : Nat) : (Dev.restoreAcc d n).plat.otp = d.plat.otp := by
  unfold Dev.restoreAcc; simp (maxDischargeDepth := 12) [*]

theorem Dev.saveDone_sound (d : Dev) (n : Nat) (hs : d.Sound) {d' : Dev} (e : Dev.saveDone d n = some d') : d'.Sound := by
  unfold Dev.saveDone at e
  extract_lets k at e
  repeat' split at e
  all_goals simp only [Option.some.injEq, reduceCtorEq] at e
  all_goals subst e
  · exact Dev.launchAll_sound _ (Dev.giveBack_sound _ _ (Dev.updCore_sound _ _ _ hs))
  · exact Dev.launchAll_sound _ (Dev.giveBack_sound _ _ (Dev.updCore_sound _ _ _ hs))
  · exact Dev.launchAll_sound _ hs

theorem Dev.saveDone_otp (d : Dev) (n : Nat) {d' : Dev} (e : Dev.saveDone d n = some d') : d'.plat.otp = d.plat.otp := by
  unfold Dev.saveDone at e
  extract_lets k at e
  repeat' split at e
  all_goals simp only [Option.some.injEq, reduceCtorEq] at e
  all_goals subst e
  · exact (Dev.launchAll_otp _).trans ((Dev.giveBack_otp _ _).trans (Dev.updCore_otp _ _ _))
  · exact (Dev.launchAll_otp _).trans ((Dev.giveBack_otp _ _).trans (Dev.updCore_otp _ _ _))
  · exact Dev.launchAll_otp _

theorem Dev.deadline_sound (d : Dev) (n : Nat) (hs : d.Sound) {d' : Dev} (e : Dev.deadline d n = some d') : d'.Sound := by
  unfold Dev.deadline at e; dsimp only at e; (repeat' split at e) <;> simp at e <;> (try subst e) <;> (repeat' (first
    | assumption
    | (simp (maxDischargeDepth := 12) [*]; done)))

theorem Dev.deadline_otp (d : Dev) (n : Nat) {d' : Dev} (e : Dev.deadline d n = some d') : d'.plat.otp = d.plat.otp := by
  unfold Dev.deadline at e; dsimp only at e; (repeat' split at e) <;> simp at e <;> (try subst e) <;> (repeat' (first
    | assumption
    | (simp (maxDischargeDepth := 12) [*]; done)))


/-! ## Shaper -/

@[simp] theorem Dev.noteBad_sound (d : Dev) (bad : Option Nat) (hs : d.Sound) : (Dev.noteBad d bad).Sound := by
  unfold Dev.noteBad; (repeat' split) <;> simp (maxDischargeDepth := 12) [*]

@[simp] theorem Dev.noteBad_otp (d : Dev) (bad : Option Nat) : (Dev.noteBad d bad).plat.otp = d.plat.otp := by
  unfold Dev.noteBad; (repeat' split) <;> simp (maxDischargeDepth := 12) [*]

@[simp] theorem Dev.takeSample_sound (d : Dev) (n : Nat) (hs : d.Sound) : (Dev.takeSample d n).Sound := by
  unfold Dev.takeSample; dsimp only; (repeat' split) <;> simp (maxDischargeDepth := 12) [*]

@[simp] theorem Dev.takeSample_otp (d : Dev) (n : Nat) : (Dev.takeSample d n).plat.otp = d.plat.otp := by
  unfold Dev.takeSample; dsimp only; (repeat' split) <;> simp (maxDischargeDepth := 12) [*]

@[simp] theorem Dev.takePrep_sound (d : Dev) (n : Nat) (hs : d.Sound) : (Dev.takePrep d n).Sound := by
  unfold Dev.takePrep; dsimp only; (repeat' split) <;> simp (maxDischargeDepth := 12) [*]

@[simp] theorem Dev.takePrep_otp (d : Dev) (n : Nat) : (Dev.takePrep d n).plat.otp = d.plat.otp := by
  unfold Dev.takePrep; dsimp only; (repeat' split) <;> simp (maxDischargeDepth := 12) [*]

@[simp] theorem Dev.takeEntry_sound (d : Dev) (n : Nat) (hs : d.Sound) : (Dev.takeEntry d n).Sound := by
  unfold Dev.takeEntry; simp (maxDischargeDepth := 12) [*]

@[simp] theorem Dev.takeEntry_otp (d : Dev) (n : Nat) : (Dev.takeEntry d n).plat.otp = d.plat.otp := by
  unfold Dev.takeEntry; simp (maxDischargeDepth := 12) [*]

@[simp] theorem Dev.shape_sound (d : Dev) (s : Sample) (x : SampleSeg) (seed : Nat) (hs : d.Sound) : (Dev.shape d s x seed).Sound := by
  unfold Dev.shape
  extract_lets p start room
  split
  extract_lets len
  split
  · exact Dev.replaceSample_sound _ _ _ hs
  · refine sound_ite (Dev.replaceSample_sound _ _ _ hs) (Dev.tryFill_sound _ _ ?_)
    simp only [Dev.sound_mk]
    refine ⟨Dev.Sound.log ?_, Dev.Sound.mem ?_, Dev.Sound.poison ?_, Dev.Sound.ctr ?_⟩ <;>
      exact sound_foldl _ _ _ (fun d y h => Dev.putRun_sound _ _ _ _ _ _ _ h) hs

@[simp] theorem Dev.shape_otp (d : Dev) (s : Sample) (x : SampleSeg) (seed : Nat) : (Dev.shape d s x seed).plat.otp = d.plat.otp := by
  unfold Dev.shape
  extract_lets p start room
  split
  extract_lets len
  split
  · exact Dev.replaceSample_otp _ _ _
  · refine otp_ite (Dev.replaceSample_otp _ _ _) ((Dev.tryFill_otp _ _).trans ?_)
    exact otp_foldl _ _ _ (fun d y => Dev.putRun_otp _ _ _ _ _ _ _)

theorem Dev.shapeNext_sound (d : Dev) (hs : d.Sound) {d' : Dev} (e : Dev.shapeNext d = some d') : d'.Sound := by
  unfold Dev.shapeNext at e; (repeat' split at e) <;> simp at e <;> (try subst e) <;> simp (maxDischargeDepth := 12) [*]

theorem Dev.shapeNext_otp (d : Dev) {d' : Dev} (e : Dev.shapeNext d = some d') : d'.plat.otp = d.plat.otp := by
  unfold Dev.shapeNext at e; (repeat' split at e) <;> simp at e <;> (try subst e) <;> simp (maxDischargeDepth := 12) [*]

theorem Dev.budgetEnds_sound (d : Dev) (o : Nat) (hs : d.Sound) {d' : Dev} (e : Dev.budgetEnds d o = some d') : d'.Sound := by
  unfold Dev.budgetEnds at e; (repeat' split at e) <;> simp at e <;> (try subst e) <;> simp (maxDischargeDepth := 12) [*]

theorem Dev.budgetEnds_otp (d : Dev) (o : Nat) {d' : Dev} (e : Dev.budgetEnds d o = some d') : d'.plat.otp = d.plat.otp := by
  unfold Dev.budgetEnds at e; (repeat' split at e) <;> simp at e <;> (try subst e) <;> simp (maxDischargeDepth := 12) [*]

theorem Dev.deadlineEnds_sound (d : Dev) (n : Nat) (hs : d.Sound) {d' : Dev} (e : Dev.deadlineEnds d n = some d') : d'.Sound := by
  unfold Dev.deadlineEnds at e; dsimp only at e; (repeat' split at e) <;> simp at e <;> (try subst e) <;> (repeat' (first
    | assumption
    | (simp (maxDischargeDepth := 12) [*]; done)
    | with_reducible refine sound_ite ?_ ?_
    | split
    | with_reducible refine sound_foldl _ _ _ (fun _ _ _ => ?_) ?_))

theorem Dev.deadlineEnds_otp (d : Dev) (n : Nat) {d' : Dev} (e : Dev.deadlineEnds d n = some d') : d'.plat.otp = d.plat.otp := by
  unfold Dev.deadlineEnds at e; dsimp only at e; (repeat' split at e) <;> simp at e <;> (try subst e) <;> (repeat' (first
    | assumption
    | (simp (maxDischargeDepth := 12) [*]; done)
    | with_reducible refine otp_ite ?_ ?_
    | split
    | with_reducible refine otp_foldl _ _ _ (fun _ _ => ?_)
    | with_reducible refine Eq.trans (otp_foldl _ _ _ (fun _ _ => ?_)) ?_))

@[simp] theorem Dev.poisonSteps_sound (d : Dev) (hs : d.Sound) : (Dev.poisonSteps d).Sound := by
  unfold Dev.poisonSteps; (repeat' (first
    | assumption
    | (simp (maxDischargeDepth := 12) [*]; done)
    | with_reducible refine sound_ite ?_ ?_
    | split
    | with_reducible refine sound_foldl _ _ _ (fun _ _ _ => ?_) ?_))

@[simp] theorem Dev.poisonSteps_otp (d : Dev) : (Dev.poisonSteps d).plat.otp = d.plat.otp := by
  unfold Dev.poisonSteps; (repeat' (first
    | assumption
    | (simp (maxDischargeDepth := 12) [*]; done)
    | with_reducible refine otp_ite ?_ ?_
    | split
    | with_reducible refine otp_foldl _ _ _ (fun _ _ => ?_)))

theorem Dev.readyBatch_sound (d : Dev) (n : Nat) (hs : d.Sound) {d' : Dev} (e : Dev.readyBatch d n = some d') : d'.Sound := by
  unfold Dev.readyBatch at e; dsimp only at e; (repeat' split at e) <;> simp at e <;> (try subst e) <;> (repeat' (first
    | assumption
    | (simp (maxDischargeDepth := 12) [*]; done)))

theorem Dev.readyBatch_otp (d : Dev) (n : Nat) {d' : Dev} (e : Dev.readyBatch d n = some d') : d'.plat.otp = d.plat.otp := by
  unfold Dev.readyBatch at e; dsimp only at e; (repeat' split at e) <;> simp at e <;> (try subst e) <;> (repeat' (first
    | assumption
    | (simp (maxDischargeDepth := 12) [*]; done)))

@[simp] theorem Dev.shapeLive_sound (d : Dev) (n : Nat) (m : Media) (hs : d.Sound) : (Dev.shapeLive d n m).Sound := by
  unfold Dev.shapeLive; simp (maxDischargeDepth := 12) [*]

@[simp] theorem Dev.shapeLive_otp (d : Dev) (n : Nat) (m : Media) : (Dev.shapeLive d n m).plat.otp = d.plat.otp := by
  unfold Dev.shapeLive; simp (maxDischargeDepth := 12) [*]

theorem Dev.liveReady_sound (d : Dev) (n : Nat) (hs : d.Sound) {d' : Dev} (e : Dev.liveReady d n = some d') : d'.Sound := by
  unfold Dev.liveReady at e; dsimp only at e; (repeat' split at e) <;> simp at e <;> (try subst e) <;> (repeat' (first
    | assumption
    | (simp (maxDischargeDepth := 12) [*]; done)))

theorem Dev.liveReady_otp (d : Dev) (n : Nat) {d' : Dev} (e : Dev.liveReady d n = some d') : d'.plat.otp = d.plat.otp := by
  unfold Dev.liveReady at e; dsimp only at e; (repeat' split at e) <;> simp at e <;> (try subst e) <;> (repeat' (first
    | assumption
    | (simp (maxDischargeDepth := 12) [*]; done)))

end Sys2Proof.Machine
end

