-- ==== Sys2Proof/Laws/KeepUnits.lean ====
section
/-! SUPPORT. The control window, the mover and the ports keep a device sound and leave the one-time-programmable cells alone. -/

namespace Sys2Proof.Machine

/-! ## Ports -/

@[simp] theorem Dev.windowWrite_sound (d : Dev) (port : Nat) (off : Nat) (size : Nat) (value : Nat) (hs : d.Sound) :
    (Dev.windowWrite d port off size value).Sound := by
  unfold Dev.windowWrite; (repeat' split) <;> simp (maxDischargeDepth := 12) [*]

@[simp] theorem Dev.windowWrite_otp (d : Dev) (port : Nat) (off : Nat) (size : Nat) (value : Nat) :
    (Dev.windowWrite d port off size value).plat.otp = d.plat.otp := by
  unfold Dev.windowWrite
  refine otp_ite rfl (otp_ite rfl ?_)
  split
  · rfl
  · refine otp_ite ?_ (otp_ite rfl rfl)
    exact (Dev.settled_otp _).trans (Dev.flush_otp _)

@[simp] theorem Dev.badLength_sound (d : Dev) (q : Nat) (p : Packet) (hs : d.Sound) : (Dev.badLength d q p).Sound := by
  unfold Dev.badLength; simp (maxDischargeDepth := 12) [*]

@[simp] theorem Dev.badLength_otp (d : Dev) (q : Nat) (p : Packet) : (Dev.badLength d q p).plat.otp = d.plat.otp := by
  unfold Dev.badLength; simp (maxDischargeDepth := 12) [*]


/-! ## MoverOps -/

theorem wf_mixRange (old : Dev) (w : Wk) (k a n : Nat) (h : old.Sound) :
    Memory.wf (mixRange old w k a n).1 = true ∧ Poison.wf (mixRange old w k a n).2 = true := by
  unfold mixRange
  refine foldl_keeps (fun (x : Tab Byte × Tab Bool) => Memory.wf x.1 = true ∧ Poison.wf x.2 = true) _ (fun x i hx => ?_) _ _ ⟨h.mem, h.poison⟩
  split
  · exact ⟨Tab.wf_set 0 _ _ _ hx.1, Tab.wf_set false _ _ _ hx.2⟩
  · exact hx

@[simp] theorem Dev.updChan_sound (d : Dev) (k : Nat) (f : Chan → Chan) (hs : d.Sound) : (Dev.updChan d k f).Sound := by
  unfold Dev.updChan; simp (maxDischargeDepth := 12) [*]

@[simp] theorem Dev.updChan_otp (d : Dev) (k : Nat) (f : Chan → Chan) : (Dev.updChan d k f).plat.otp = d.plat.otp := by
  unfold Dev.updChan; simp (maxDischargeDepth := 12) [*]

@[simp] theorem Dev.chanIrq_sound (d : Dev) (k : Nat) (vec : Nat) (hs : d.Sound) : (Dev.chanIrq d k vec).Sound := by
  unfold Dev.chanIrq; simp (maxDischargeDepth := 12) [*]

@[simp] theorem Dev.chanIrq_otp (d : Dev) (k : Nat) (vec : Nat) : (Dev.chanIrq d k vec).plat.otp = d.plat.otp := by
  unfold Dev.chanIrq; simp (maxDischargeDepth := 12) [*]

@[simp] theorem Dev.chanError_sound (d : Dev) (k : Nat) (code : Nat) (hs : d.Sound) : (Dev.chanError d k code).Sound := by
  unfold Dev.chanError; simp (maxDischargeDepth := 12) [*]

@[simp] theorem Dev.chanError_otp (d : Dev) (k : Nat) (code : Nat) : (Dev.chanError d k code).plat.otp = d.plat.otp := by
  unfold Dev.chanError; simp (maxDischargeDepth := 12) [*]

@[simp] theorem Dev.writeBack_sound (d : Dev) (k : Nat) (status : Nat) (hs : d.Sound) : (Dev.writeBack d k status).Sound := by
  unfold Dev.writeBack; dsimp only; (repeat' split) <;> simp (maxDischargeDepth := 12) [*]

@[simp] theorem Dev.writeBack_otp (d : Dev) (k : Nat) (status : Nat) : (Dev.writeBack d k status).plat.otp = d.plat.otp := by
  unfold Dev.writeBack; dsimp only; (repeat' split) <;> simp (maxDischargeDepth := 12) [*]

@[simp] theorem Dev.chanLog_sound (d : Dev) (k : Nat) (addr : Nat) (kind : Nat) (hs : d.Sound) : (Dev.chanLog d k addr kind).Sound := by
  unfold Dev.chanLog; simp (maxDischargeDepth := 12) [*]

@[simp] theorem Dev.chanLog_otp (d : Dev) (k : Nat) (addr : Nat) (kind : Nat) : (Dev.chanLog d k addr kind).plat.otp = d.plat.otp := by
  unfold Dev.chanLog; simp (maxDischargeDepth := 12) [*]

@[simp] theorem Dev.takeNext_sound (d : Dev) (k : Nat) (hs : d.Sound) : (Dev.takeNext d k).Sound := by
  unfold Dev.takeNext; dsimp only; (repeat' split) <;> simp (maxDischargeDepth := 12) [*]

@[simp] theorem Dev.takeNext_otp (d : Dev) (k : Nat) : (Dev.takeNext d k).plat.otp = d.plat.otp := by
  unfold Dev.takeNext; dsimp only; (repeat' split) <;> simp (maxDischargeDepth := 12) [*]

@[simp] theorem Dev.runBurst_sound (d : Dev) (k : Nat) (x : Xfer) (flips : List Nat) (hs : d.Sound) : (Dev.runBurst d k x flips).Sound := by
  unfold Dev.runBurst
  extract_lets c b e w ctr
  have h1 : w.Ok := Wk.xferPart_sound _ _ _ _ _ ((Wk.ok_mk ..).2 ⟨hs.mem, hs.poison⟩)
  have h2 : Counters.wf ctr = true := wf_bump _ _ _ _ (wf_addKinds _ _ _ hs.ctr)
  clear_value w ctr
  refine sound_ite ?_ (Dev.updChan_sound _ _ _ ((Dev.sound_mk ..).2 ⟨hs.log, h1.mem, h1.poison, h2⟩))
  have h3 := wf_mixRange { d with poison := w.poison } w d.plat.freeCount b.dst.1 b.dst.2
    ((Dev.sound_mk ..).2 ⟨hs.log, hs.mem, h1.poison, hs.ctr⟩)
  generalize mixRange { d with poison := w.poison } w d.plat.freeCount b.dst.1 b.dst.2 = y at h3 ⊢
  obtain ⟨mem, poison⟩ := y
  exact Dev.updChan_sound _ _ _ ((Dev.sound_mk ..).2 ⟨hs.log, h3.1, h3.2, h2⟩)

@[simp] theorem Dev.runBurst_otp (d : Dev) (k : Nat) (x : Xfer) (flips : List Nat) : (Dev.runBurst d k x flips).plat.otp = d.plat.otp := by
  unfold Dev.runBurst; simp (maxDischargeDepth := 12) [*]

@[simp] theorem Dev.ageChans_sound (d : Dev) (e : Nat) (k : Nat) (hs : d.Sound) : (Dev.ageChans d e k).Sound := by
  unfold Dev.ageChans; (repeat' (first
    | assumption
    | (simp (maxDischargeDepth := 12) [*]; done)
    | with_reducible refine sound_ite ?_ ?_
    | split
    | with_reducible refine sound_foldl _ _ _ (fun _ _ _ => ?_) ?_))

@[simp] theorem Dev.ageChans_otp (d : Dev) (e : Nat) (k : Nat) : (Dev.ageChans d e k).plat.otp = d.plat.otp := by
  unfold Dev.ageChans; (repeat' (first
    | assumption
    | (simp (maxDischargeDepth := 12) [*]; done)
    | with_reducible refine otp_ite ?_ ?_
    | split
    | with_reducible refine otp_foldl _ _ _ (fun _ _ => ?_)))

@[simp] theorem Dev.chanFail_sound (d : Dev) (k : Nat) (status : Nat) (addr : Nat) (kind : Nat) (hs : d.Sound) :
    (Dev.chanFail d k status addr kind).Sound := by
  unfold Dev.chanFail; simp (maxDischargeDepth := 12) [*]

@[simp] theorem Dev.chanFail_otp (d : Dev) (k : Nat) (status : Nat) (addr : Nat) (kind : Nat) :
    (Dev.chanFail d k status addr kind).plat.otp = d.plat.otp := by
  unfold Dev.chanFail; simp (maxDischargeDepth := 12) [*]

@[simp] theorem Dev.chanReset_sound (d : Dev) (k : Nat) (hs : d.Sound) : (Dev.chanReset d k).Sound := by
  unfold Dev.chanReset; simp (maxDischargeDepth := 12) [*]

@[simp] theorem Dev.chanReset_otp (d : Dev) (k : Nat) : (Dev.chanReset d k).plat.otp = d.plat.otp := by
  unfold Dev.chanReset; simp (maxDischargeDepth := 12) [*]

@[simp] theorem Dev.chanFree_sound (d : Dev) (k : Nat) (hs : d.Sound) : (Dev.chanFree d k).Sound := by
  unfold Dev.chanFree; simp (maxDischargeDepth := 12) [*]

@[simp] theorem Dev.chanFree_otp (d : Dev) (k : Nat) : (Dev.chanFree d k).plat.otp = d.plat.otp := by
  unfold Dev.chanFree; simp (maxDischargeDepth := 12) [*]


/-! ## Mover -/

@[simp] theorem Dev.releaseChan_sound (d : Dev) (k : Nat) (cmd : Nat) (hs : d.Sound) : (Dev.releaseChan d k cmd).Sound := by
  unfold Dev.releaseChan; simp (maxDischargeDepth := 12) [*]

@[simp] theorem Dev.releaseChan_otp (d : Dev) (k : Nat) (cmd : Nat) : (Dev.releaseChan d k cmd).plat.otp = d.plat.otp := by
  unfold Dev.releaseChan; simp (maxDischargeDepth := 12) [*]

@[simp] theorem Dev.tailFault_sound (d : Dev) (k : Nat) (hs : d.Sound) : (Dev.tailFault d k).Sound := by
  unfold Dev.tailFault; simp (maxDischargeDepth := 12) [*]

@[simp] theorem Dev.tailFault_otp (d : Dev) (k : Nat) : (Dev.tailFault d k).plat.otp = d.plat.otp := by
  unfold Dev.tailFault; simp (maxDischargeDepth := 12) [*]

theorem Dev.moverBurst_sound (d : Dev) (e : Nat) (flips : List Nat) (hs : d.Sound) {d' : Dev} (e : Dev.moverBurst d e flips = some d') :
    d'.Sound := by
  unfold Dev.moverBurst at e; (repeat' split at e) <;> simp at e <;> (try subst e) <;> simp (maxDischargeDepth := 12) [*]

theorem Dev.moverBurst_otp (d : Dev) (e : Nat) (flips : List Nat) {d' : Dev} (e : Dev.moverBurst d e flips = some d') : d'.plat.otp = d.plat.otp := by
  unfold Dev.moverBurst at e; (repeat' split at e) <;> simp at e <;> (try subst e) <;> simp (maxDischargeDepth := 12) [*]

@[simp] theorem Dev.passHead_sound (d : Dev) (k : Nat) (hs : d.Sound) : (Dev.passHead d k).Sound := by
  unfold Dev.passHead; simp (maxDischargeDepth := 12) [*]

@[simp] theorem Dev.passHead_otp (d : Dev) (k : Nat) : (Dev.passHead d k).plat.otp = d.plat.otp := by
  unfold Dev.passHead; simp (maxDischargeDepth := 12) [*]


/-! ## PortReset -/

@[simp] theorem Dev.loseTrace_sound (d : Dev) (b : Nat) (hs : d.Sound) : (Dev.loseTrace d b).Sound := by
  unfold Dev.loseTrace; simp (maxDischargeDepth := 12) [*]

@[simp] theorem Dev.loseTrace_otp (d : Dev) (b : Nat) : (Dev.loseTrace d b).plat.otp = d.plat.otp := by
  unfold Dev.loseTrace; simp (maxDischargeDepth := 12) [*]

@[simp] theorem Dev.loseChan_sound (d : Dev) (k : Nat) (hs : d.Sound) : (Dev.loseChan d k).Sound := by
  unfold Dev.loseChan; simp (maxDischargeDepth := 12) [*]

@[simp] theorem Dev.loseChan_otp (d : Dev) (k : Nat) : (Dev.loseChan d k).plat.otp = d.plat.otp := by
  unfold Dev.loseChan; simp (maxDischargeDepth := 12) [*]

@[simp] theorem Dev.loseEntry_sound (d : Dev) (id : Nat) (hs : d.Sound) : (Dev.loseEntry d id).Sound := by
  unfold Dev.loseEntry; simp (maxDischargeDepth := 12) [*]

@[simp] theorem Dev.loseEntry_otp (d : Dev) (id : Nat) : (Dev.loseEntry d id).plat.otp = d.plat.otp := by
  unfold Dev.loseEntry; simp (maxDischargeDepth := 12) [*]

@[simp] theorem Dev.resetPort_sound (d : Dev) (port : Nat) (hs : d.Sound) : (Dev.resetPort d port).Sound := by
  unfold Dev.resetPort
  extract_lets sems ids d1 d2 h
  have h1 : d1.Sound := (Dev.sound_mk ..).2 ⟨hs.log, hs.mem, hs.poison, wf_bump _ _ _ _ hs.ctr⟩
  have h2 : d2.Sound := sound_foldl _ _ _ (fun d i h => Dev.loseEntry_sound _ _ h) h1
  exact Dev.settled_sound _ ((Dev.sound_mk ..).2 ⟨h2.log, h2.mem, h2.poison, h2.ctr⟩)

@[simp] theorem Dev.resetPort_otp (d : Dev) (port : Nat) : (Dev.resetPort d port).plat.otp = d.plat.otp := by
  unfold Dev.resetPort
  extract_lets sems ids d1 d2 h
  have h2 : d2.plat.otp = d.plat.otp := (otp_foldl _ _ _ (fun d i => Dev.loseEntry_otp _ _)).trans rfl
  exact (Dev.settled_otp _).trans h2

end Sys2Proof.Machine
end

