-- ==== Sys2Proof/Laws/KeepState.lean ====
section
/-! SUPPORT. The Husk and the parameter state: what keeps a device sound, and what changes the one-time-programmable cells lawfully. -/

namespace Sys2Proof.Machine

/-! ## Security -/

@[simp] theorem Plat.select_sound (p : Plat) (img : Nat) (hp : LogOk p.faultLog p.faultLost) :
    LogOk (Plat.select p img).faultLog (Plat.select p img).faultLost := by
  unfold Plat.select; simp (maxDischargeDepth := 12) [*]

@[simp] theorem Plat.select_otp (p : Plat) (img : Nat) : (Plat.select p img).otp = p.otp := by
  unfold Plat.select; simp (maxDischargeDepth := 12) [*]

@[simp] theorem Plat.takeConfig_sound (p : Plat) (w : Nat) (hp : LogOk p.faultLog p.faultLost) :
    LogOk (Plat.takeConfig p w).faultLog (Plat.takeConfig p w).faultLost := by
  unfold Plat.takeConfig; simp (maxDischargeDepth := 12) [*]

@[simp] theorem Plat.takeConfig_otp (p : Plat) (w : Nat) : (Plat.takeConfig p w).otp = p.otp := by
  unfold Plat.takeConfig; simp (maxDischargeDepth := 12) [*]

@[simp] theorem Plat.runImage_sound (p : Plat) (img : Nat) (hp : LogOk p.faultLog p.faultLost) :
    LogOk (Plat.runImage p img).faultLog (Plat.runImage p img).faultLost := by
  unfold Plat.runImage; simp (maxDischargeDepth := 12) [*]
/-- The Husk's step of ATTEST_STEP is a lawful change (R511). -/
theorem Plat.runImage_step (p : Plat) (img : Nat) : p.otp.Step (p.runImage img).otp := by
  intro h
  have := h.step
  refine ⟨⟨h.1, h.2, h.3, Nat.min_le_left _ _⟩, ⟨Nat.le_refl _, Nat.le_refl _, ?_, id⟩⟩
  simp only [Plat.otp, Plat.runImage] at *
  omega

@[simp] theorem Plat.trained_sound (p : Plat) (hp : LogOk p.faultLog p.faultLost) : LogOk (Plat.trained p).faultLog (Plat.trained p).faultLost := by
  unfold Plat.trained; (repeat' split) <;> simp (maxDischargeDepth := 12) [*]

@[simp] theorem Plat.trained_otp (p : Plat) : (Plat.trained p).otp = p.otp := by
  unfold Plat.trained; (repeat' split) <;> simp (maxDischargeDepth := 12) [*]

@[simp] theorem Dev.ready_sound (d : Dev) (hs : d.Sound) : (Dev.ready d).Sound := by
  unfold Dev.ready
  exact (Dev.sound_mk ..).2 ⟨hs.log, memory_keepHost _ hs.mem, poison_keepHost _ hs.poison, rfl⟩
/-- READY raises the rollback floor at most (R489). -/
theorem Dev.ready_step (d : Dev) : d.plat.otp.Step d.ready.plat.otp := by
  intro h
  refine ⟨⟨h.1, h.2, h.3, h.4⟩, ⟨Nat.le_refl _, ?_, Nat.le_refl _, id⟩⟩
  simp only [Plat.otp, Dev.ready]
  split
  · rename_i hc
    simp only [Bool.and_eq_true, decide_eq_true_eq] at hc
    omega
  · exact Nat.le_refl _

@[simp] theorem Dev.readFault_sound (d : Dev) (c : Cmd) (a : Nat) (hs : d.Sound) : (Dev.readFault d c a).Sound := by
  unfold Dev.readFault; simp (maxDischargeDepth := 12) [*]

@[simp] theorem Dev.readFault_otp (d : Dev) (c : Cmd) (a : Nat) : (Dev.readFault d c a).plat.otp = d.plat.otp := by
  unfold Dev.readFault; simp (maxDischargeDepth := 12) [*]

@[simp] theorem Plat.lcBurn_sound (p : Plat) (target : Nat) (hdr : Nat) (seed : Nat) (hp : LogOk p.faultLog p.faultLost) :
    LogOk (Plat.lcBurn p target hdr seed).faultLog (Plat.lcBurn p target hdr seed).faultLost := by
  unfold Plat.lcBurn; (repeat' split) <;> simp (maxDischargeDepth := 12) [*]
/-- What the cells are where a transition exists: not RETIRED, a step of LC_COUNT left, and DEBUG_OPEN entered from PROVISIONED or FIELD
only (R506). -/
def Otp.May (o : Otp) (target : Nat) : Prop := o.lcWord ≠ 3 ∧ o.lcCount < 1024 ∧ target ≤ 4 ∧ (target = 4 → o.lcWord = 1 ∨ o.lcWord = 2)

theorem Plat.transition_may (p : Plat) (target : Nat) (hl : p.otp.Legal) (ht : p.transition target = true) : p.otp.May target := by
  have h3 := hl.prior
  simp only [Plat.otp] at h3
  unfold Plat.transition at ht
  simp only [Bool.and_eq_true] at ht
  obtain ⟨-, ht⟩ := ht
  simp only [Otp.May, Plat.otp]
  split at ht <;> simp only [Bool.and_eq_true, beq_iff_eq, decide_eq_true_eq, Bool.false_eq_true] at ht <;> omega

/-- A transition that exists is a lawful change of the cells (R506). -/
theorem Plat.lcBurn_step (p : Plat) (target hdr seed : Nat) (ht : p.otp.Legal → p.otp.May target) : p.otp.Step (p.lcBurn target hdr seed).otp := by
  intro h
  obtain ⟨w1, w2, w3, w4⟩ := ht h
  obtain ⟨h1, h2, h3, h4⟩ := h
  simp only [Plat.otp] at h1 h2 h3 h4 w1 w2 w4
  unfold Plat.lcBurn
  dsimp only
  split
  · exact ⟨⟨by dsimp only [Plat.otp]; omega, Nat.le_refl _, fun he => absurd he (by dsimp only [Plat.otp]; omega), Nat.le_refl _⟩,
      ⟨h2, Nat.le_refl _, h4, fun _ => rfl⟩⟩
  · refine ⟨⟨w3, by simp only [Plat.otp]; omega, fun he => ?_, h4⟩, ⟨by simp only [Plat.otp]; omega, Nat.le_refl _, Nat.le_refl _, fun he => absurd he w1⟩⟩
    simp only [Plat.otp] at he ⊢
    simp only [he, if_true]
    exact w4 he

@[simp] theorem Dev.lcWipe_sound (d : Dev) (id : Nat) (hs : d.Sound) : (Dev.lcWipe d id).Sound := by
  unfold Dev.lcWipe; simp (maxDischargeDepth := 12) [*]

@[simp] theorem Dev.lcWipe_otp (d : Dev) (id : Nat) : (Dev.lcWipe d id).plat.otp = d.plat.otp := by
  unfold Dev.lcWipe; simp (maxDischargeDepth := 12) [*]

@[simp] theorem Plat.spendLeaf_sound (p : Plat) (hp : LogOk p.faultLog p.faultLost) :
    LogOk (Plat.spendLeaf p).faultLog (Plat.spendLeaf p).faultLost := by
  unfold Plat.spendLeaf; (repeat' split) <;> simp (maxDischargeDepth := 12) [*]

@[simp] theorem Plat.spendLeaf_otp (p : Plat) : (Plat.spendLeaf p).otp = p.otp := by
  unfold Plat.spendLeaf; (repeat' split) <;> simp (maxDischargeDepth := 12) [*]


/-! ## StateIo -/

@[simp] theorem Wk.loadBlocks_sound (w : Wk) (a : Nat) (l : List (ImgBlk × Blk)) (hw : w.Ok) : (w.loadBlocks a l).2.Ok := by
  induction l generalizing w with
  | nil => exact hw
  | cons e l ih =>
    obtain ⟨x, b⟩ := e
    unfold Wk.loadBlocks
    dsimp only
    have h1 := Wk.read_sound { w with bad := false } (a + x.off) b.size ((Wk.ok_mk ..).2 ⟨hw.mem, hw.poison⟩)
    exact ih _ (Wk.write_sound _ _ _ (Wk.write_sound _ _ _ ((Wk.ok_mk ..).2 ⟨h1.mem, h1.poison⟩)))

@[simp] theorem Dev.finishShard_sound (d : Dev) (h : Nat) (i : Nat) (cmd : Option Cmd) (hs : d.Sound) : (Dev.finishShard d h i cmd).Sound := by
  unfold Dev.finishShard
  extract_lets hd b s p p2 r is t needStat go d1
  have hg : ∀ (e : Dev) w, e.Sound → w.Ok → (go e w).Sound := by
    intro e w he hw
    unfold go
    split
    · exact Dev.absorbCob_sound _ _ _ _ he hw
    · exact sound_foldl _ _ _ (fun d i h => Dev.quarantine_sound _ _ h) (Dev.absorbFault_sound _ _ _ _ he hw)
  have h1 : d1.Sound := sound_ite (hg _ _ hs (Dev.lambEnd_sound _ _ _ _ _ hs (Dev.cobWork_sound _ _ hs))) hs
  clear_value d1 go
  exact sound_ite hs (sound_ite hs (sound_ite (sound_ite h1 (Dev.count_sound _ _ _ _ (hg _ _ h1 (Dev.passWork_sound _ _ _ _ _ _ h1))))
    (Dev.quarantine_sound _ _ hs)))

@[simp] theorem Dev.finishShard_otp (d : Dev) (h : Nat) (i : Nat) (cmd : Option Cmd) : (Dev.finishShard d h i cmd).plat.otp = d.plat.otp := by
  unfold Dev.finishShard
  extract_lets hd b s p p2 r is t needStat go d1
  have hg : ∀ (e : Dev) w, (go e w).plat.otp = e.plat.otp := by
    intro e w
    unfold go
    split
    · exact Dev.absorbCob_otp _ _ _ _
    · exact (otp_foldl _ _ _ (fun d i => Dev.quarantine_otp _ _)).trans (Dev.absorbFault_otp _ _ _ _)
  have h1 : d1.plat.otp = d.plat.otp := otp_ite (hg _ _) rfl
  clear_value d1 go
  exact otp_ite rfl (otp_ite rfl (otp_ite (otp_ite h1 ((Dev.count_otp _ _ _ _).trans ((hg _ _).trans h1)))
    (Dev.quarantine_otp _ _)))

@[simp] theorem Dev.loadLayer_sound (d : Dev) (h : Nat) (y : Nat) (cmd : Option Cmd) (hs : d.Sound) : (Dev.loadLayer d h y cmd).Sound := by
  unfold Dev.loadLayer
  extract_lets p is w tag
  have h1 : w.Ok := by
    refine ok_foldl _ _ _ (fun w i h => ?_) (Dev.cobWork_sound d [] hs)
    extract_lets sh
    split
    · exact Wk.multicast_sound _ _ _ _ _ (Wk.master_sound _ _ h)
    · exact h
  clear_value w
  refine sound_ite hs ?_
  exact sound_foldl _ _ _ (fun d q h => Dev.openFence_sound _ _ _ _ h) (Dev.absorbCob_sound _ _ _ _ hs h1)

@[simp] theorem Dev.loadLayer_otp (d : Dev) (h : Nat) (y : Nat) (cmd : Option Cmd) : (Dev.loadLayer d h y cmd).plat.otp = d.plat.otp := by
  unfold Dev.loadLayer
  dsimp only
  exact otp_ite rfl ((otp_foldl _ _ _ (fun d q => Dev.openFence_otp _ _ _ _)).trans (Dev.absorbCob_otp _ _ _ _))

@[simp] theorem Dev.loadState_sound (d : Dev) (h : Nat) (cmd : Nat) (a : Nat) (flips : List Nat) (hs : d.Sound) :
    (Dev.loadState d h cmd a flips).Sound := by
  unfold Dev.loadState
  have h0 := Wk.read_sound (d.cobWork flips) a (128 + 128 * ((d.plan h).readImage d.mem a).nGroups) (Dev.cobWork_sound d flips hs)
  extract_lets p x homes
  generalize (d.cobWork flips).read a (128 + 128 * x.nGroups) = y at h0 ⊢
  obtain ⟨_, w0⟩ := y
  have h1 := Wk.loadBlocks_sound w0 a (x.blks.zip homes) h0
  simp only at h0 h1 ⊢
  generalize Wk.loadBlocks w0 a (x.blks.zip homes) = z at h1 ⊢
  obtain ⟨bl, w⟩ := z
  simp only at h0 h1 ⊢
  refine sound_ite (Dev.finish_sound _ _ _ _ _ (Dev.absorbFault_sound _ _ _ _ hs h0)) ?_
  have h2 := Dev.absorbCob_sound d 12 (d.host.cmd cmd) w hs h1
  generalize d.absorbCob 12 (d.host.cmd cmd) w = d1 at h2 ⊢
  split
  · refine Dev.finish_sound _ _ _ _ _ (Dev.updPlan_sound _ _ _ (sound_foldl _ _ _ (fun d i hd => Dev.loadLayer_sound _ _ _ _ hd)
      (sound_foldl _ _ _ (fun d i hd => Dev.finishShard_sound _ _ _ _ hd) (Dev.updPlan_sound _ _ _ ?_))))
    exact (Dev.sound_mk ..).2 ⟨h2.log, h2.mem, h2.poison, wf_bump _ _ _ _ h2.ctr⟩
  · refine Dev.finish_sound _ _ _ _ _ (sound_foldl _ _ _ (fun d i hd => Dev.loadLayer_sound _ _ _ _ hd)
      (sound_foldl _ _ _ (fun d i hd => Dev.finishShard_sound _ _ _ _ hd) (Dev.updPlan_sound _ _ _ ?_)))
    exact (Dev.sound_mk ..).2 ⟨h2.log, h2.mem, h2.poison, wf_bump _ _ _ _ h2.ctr⟩

@[simp] theorem Dev.loadState_otp (d : Dev) (h : Nat) (cmd : Nat) (a : Nat) (flips : List Nat) :
    (Dev.loadState d h cmd a flips).plat.otp = d.plat.otp := by
  unfold Dev.loadState
  dsimp only
  refine otp_ite ((Dev.finish_otp _ _ _ _ _).trans (Dev.absorbFault_otp _ _ _ _)) ?_
  split
  · exact (Dev.finish_otp _ _ _ _ _).trans ((Dev.updPlan_otp _ _ _).trans ((otp_foldl _ _ _ (fun d i => Dev.loadLayer_otp _ _ _ _)).trans
      ((otp_foldl _ _ _ (fun d i => Dev.finishShard_otp _ _ _ _)).trans ((Dev.updPlan_otp _ _ _).trans (Dev.absorbCob_otp _ _ _ _)))))
  · exact (Dev.finish_otp _ _ _ _ _).trans ((otp_foldl _ _ _ (fun d i => Dev.loadLayer_otp _ _ _ _)).trans
      ((otp_foldl _ _ _ (fun d i => Dev.finishShard_otp _ _ _ _)).trans ((Dev.updPlan_otp _ _ _).trans (Dev.absorbCob_otp _ _ _ _))))

theorem Dev.stateEnds_sound (d : Dev) (h : Nat) (save : Bool) (f : Dev → Nat → Nat → Nat → Dev) (hf : ∀ d c a n, d.Sound → (f d c a n).Sound)
    (hs : d.Sound) {d' : Dev} (e : d.stateEnds h save f = some d') : d'.Sound := by
  unfold Dev.stateEnds at e
  extract_lets p at e
  split at e
  · split at e <;> simp only [Option.some.injEq, reduceCtorEq] at e
    subst e
    exact hf _ _ _ _ (Dev.updPlan_sound _ _ _ hs)
  · simp at e

theorem Dev.stateEnds_otp (d : Dev) (h : Nat) (save : Bool) (f : Dev → Nat → Nat → Nat → Dev)
    (hf : ∀ d c a n, (f d c a n).plat.otp = d.plat.otp) {d' : Dev} (e : d.stateEnds h save f = some d') : d'.plat.otp = d.plat.otp := by
  unfold Dev.stateEnds at e
  extract_lets p at e
  split at e
  · split at e <;> simp only [Option.some.injEq, reduceCtorEq] at e
    subst e
    exact hf _ _ _ _
  · simp at e

@[simp] theorem Wk.saveBlocks_sound (w : Wk) (l : List (Nat × Blk)) (k : Nat) (hw : w.Ok) : (w.saveBlocks l k).2.Ok := by
  induction l generalizing w k with
  | nil => exact hw
  | cons e l ih =>
    obtain ⟨x, b⟩ := e
    unfold Wk.saveBlocks
    dsimp only
    simp (maxDischargeDepth := 12) [hw, ih]

@[simp] theorem Dev.saveState_sound (d : Dev) (h : Nat) (cmd : Nat) (a : Nat) (flips : List Nat) (hs : d.Sound) :
    (Dev.saveState d h cmd a flips).Sound := by
  unfold Dev.saveState
  dsimp only
  have h1 := fun flips a bs => Wk.write_sound (d.cobWork flips) a bs (Dev.cobWork_sound d flips hs)
  split
  · exact Dev.finish_sound _ _ _ _ _ (sound_foldl _ _ _ (fun d i hd => Dev.quarantine_sound _ _ hd) (Dev.absorbCob_sound _ _ _ _ hs (Wk.saveBlocks_sound _ _ _ (h1 _ _ _))))
  · exact Dev.finish_sound _ _ _ _ _ (Dev.updPlan_sound _ _ _ (sound_foldl _ _ _ (fun d i hd => Dev.quarantine_sound _ _ hd)
      (Dev.absorbCob_sound _ _ _ _ hs (Wk.saveBlocks_sound _ _ _ (h1 _ _ _)))))

@[simp] theorem Dev.saveState_otp (d : Dev) (h : Nat) (cmd : Nat) (a : Nat) (flips : List Nat) :
    (Dev.saveState d h cmd a flips).plat.otp = d.plat.otp := by
  unfold Dev.saveState
  dsimp only
  split
  · exact (Dev.finish_otp _ _ _ _ _).trans ((otp_foldl _ _ _ (fun d i => Dev.quarantine_otp _ _)).trans (Dev.absorbCob_otp _ _ _ _))
  · exact (Dev.finish_otp _ _ _ _ _).trans ((Dev.updPlan_otp _ _ _).trans ((otp_foldl _ _ _ (fun d i => Dev.quarantine_otp _ _)).trans (Dev.absorbCob_otp _ _ _ _)))

end Sys2Proof.Machine
end

