-- ==== Sys2Proof/Laws/Trace.lean ====
section
/-! SUPPORT. What making a trace record changes: the records, the trace buffers and the counters, and nothing else (R521 to R526). -/

namespace Sys2Proof.Machine

theorem Dev.dropFor_obs (d : Dev) (b : Nat) : ∃ o, d.dropFor b = { d with obs := o } := ⟨(d.dropFor b).obs, rfl⟩

theorem Dev.dropRec_obs (d : Dev) (bs : List Nat) : ∃ o c, d.dropRec bs = { d with obs := o, ctr := c } := by
  refine foldl_keeps (fun e => ∃ o c, e = { d with obs := o, ctr := c }) Dev.dropFor ?_ bs _ ⟨d.obs, bump d.ctr cobInst 0x78 1, rfl⟩
  rintro _ b ⟨o, c, rfl⟩
  exact ⟨(Dev.dropFor { d with obs := o, ctr := c } b).obs, c, rfl⟩

/-- A trace record changes the records, the buffers and the counters alone. -/
theorem Dev.trace_obs (d : Dev) (type die unit id arg0 arg1 : Nat) :
    ∃ o c, d.trace type die unit id arg0 arg1 = { d with obs := o, ctr := c } := by
  unfold Dev.trace
  split
  · exact ⟨d.obs, d.ctr, rfl⟩
  · split
    · exact Dev.dropRec_obs _ _
    · exact ⟨{ d.obs with queue := d.obs.queue ++ [_] }, d.ctr, rfl⟩

@[simp] theorem Dev.trace_plat (d : Dev) (type die unit id arg0 arg1 : Nat) : (d.trace type die unit id arg0 arg1).plat = d.plat := by
  obtain ⟨o, c, h⟩ := d.trace_obs type die unit id arg0 arg1
  rw [h]

@[simp] theorem Dev.trace_host (d : Dev) (type die unit id arg0 arg1 : Nat) : (d.trace type die unit id arg0 arg1).host = d.host := by
  obtain ⟨o, c, h⟩ := d.trace_obs type die unit id arg0 arg1
  rw [h]

@[simp] theorem Dev.trace_cad (d : Dev) (type die unit id arg0 arg1 : Nat) : (d.trace type die unit id arg0 arg1).cad = d.cad := by
  obtain ⟨o, c, h⟩ := d.trace_obs type die unit id arg0 arg1
  rw [h]

@[simp] theorem Dev.trace_pow (d : Dev) (type die unit id arg0 arg1 : Nat) : (d.trace type die unit id arg0 arg1).pow = d.pow := by
  obtain ⟨o, c, h⟩ := d.trace_obs type die unit id arg0 arg1
  rw [h]

@[simp] theorem Dev.trace_mem (d : Dev) (type die unit id arg0 arg1 : Nat) : (d.trace type die unit id arg0 arg1).mem = d.mem := by
  obtain ⟨o, c, h⟩ := d.trace_obs type die unit id arg0 arg1
  rw [h]

@[simp] theorem Dev.trace_poison (d : Dev) (type die unit id arg0 arg1 : Nat) : (d.trace type die unit id arg0 arg1).poison = d.poison := by
  obtain ⟨o, c, h⟩ := d.trace_obs type die unit id arg0 arg1
  rw [h]

@[simp] theorem Dev.trace_plans (d : Dev) (type die unit id arg0 arg1 : Nat) : (d.trace type die unit id arg0 arg1).plans = d.plans := by
  obtain ⟨o, c, h⟩ := d.trace_obs type die unit id arg0 arg1
  rw [h]

@[simp] theorem Dev.trace_planUsed (d : Dev) (type die unit id arg0 arg1 : Nat) : (d.trace type die unit id arg0 arg1).planUsed = d.planUsed := by
  obtain ⟨o, c, h⟩ := d.trace_obs type die unit id arg0 arg1
  rw [h]

@[simp] theorem Dev.trace_pods (d : Dev) (type die unit id arg0 arg1 : Nat) : (d.trace type die unit id arg0 arg1).pods = d.pods := by
  obtain ⟨o, c, h⟩ := d.trace_obs type die unit id arg0 arg1
  rw [h]

@[simp] theorem Dev.trace_cores (d : Dev) (type die unit id arg0 arg1 : Nat) : (d.trace type die unit id arg0 arg1).cores = d.cores := by
  obtain ⟨o, c, h⟩ := d.trace_obs type die unit id arg0 arg1
  rw [h]

@[simp] theorem Dev.trace_cob (d : Dev) (type die unit id arg0 arg1 : Nat) : (d.trace type die unit id arg0 arg1).cob = d.cob := by
  obtain ⟨o, c, h⟩ := d.trace_obs type die unit id arg0 arg1
  rw [h]

@[simp] theorem Dev.trace_ing (d : Dev) (type die unit id arg0 arg1 : Nat) : (d.trace type die unit id arg0 arg1).ing = d.ing := by
  obtain ⟨o, c, h⟩ := d.trace_obs type die unit id arg0 arg1
  rw [h]

@[simp] theorem Dev.trace_enc (d : Dev) (type die unit id arg0 arg1 : Nat) : (d.trace type die unit id arg0 arg1).enc = d.enc := by
  obtain ⟨o, c, h⟩ := d.trace_obs type die unit id arg0 arg1
  rw [h]

@[simp] theorem Dev.trace_mov (d : Dev) (type die unit id arg0 arg1 : Nat) : (d.trace type die unit id arg0 arg1).mov = d.mov := by
  obtain ⟨o, c, h⟩ := d.trace_obs type die unit id arg0 arg1
  rw [h]

/-- Without a buffer that selects it an event makes no record. -/
theorem Dev.trace_none (d : Dev) (type die unit id arg0 arg1 : Nat) (h : d.obs.takers type = []) : d.trace type die unit id arg0 arg1 = d := by
  unfold Dev.trace
  rw [h]

end Sys2Proof.Machine
end

