-- ==== Sys2Proof/Laws/Outcome.lean ====
section
/-! SUPPORT. The outcomes of commands and events: what each form of a meaning gives. -/

namespace Sys2Proof.Machine

/-- A change of the device that keeps it sound and leaves the one-time-programmable cells alone. -/
structure Dev.Kept (d0 d : Dev) : Prop where
  sound : d0.Sound → d.Sound
  otp : d.plat.otp = d0.plat.otp

/-- A change of the device that keeps it sound and changes its cells lawfully. -/
structure Dev.Lawful (d0 d : Dev) : Prop where
  sound : d0.Sound → d.Sound
  otp : d0.plat.otp.Step d.plat.otp

theorem Dev.Kept.lawful {d0 d : Dev} (h : d0.Kept d) : d0.Lawful d := ⟨h.sound, Otp.Step.of_eq h.otp⟩

theorem Dev.Kept.refl (d : Dev) : d.Kept d := ⟨id, rfl⟩

theorem Dev.Kept.trans {a b c : Dev} (h : a.Kept b) (h' : b.Kept c) : a.Kept c := ⟨h'.sound ∘ h.sound, h'.otp.trans h.otp⟩

theorem Dev.Lawful.refl (d : Dev) : d.Lawful d := ⟨id, Otp.Step.refl _⟩

theorem Dev.Lawful.trans {a b c : Dev} (h : a.Lawful b) (h' : b.Lawful c) : a.Lawful c := ⟨h'.sound ∘ h.sound, h.otp.trans h'.otp⟩

/-- The outcome is a next state with the same queue, whose device has the property. -/
def Res.Gives (s : State) (P : Dev → Prop) (r : Res) : Prop := ∃ d, r = nextDev s d ∧ P d

theorem gives_mono {s : State} {P Q : Dev → Prop} {r : Res} (h : Res.Gives s P r) (hpq : ∀ d, P d → Q d) : Res.Gives s Q r := by
  obtain ⟨d, rfl, hd⟩ := h
  exact ⟨d, rfl, hpq d hd⟩

theorem gives_next {s : State} {P : Dev → Prop} (h : P s.dev) : Res.Gives s P (.next s) := ⟨s.dev, rfl, h⟩

theorem gives_nextDev {s : State} {P : Dev → Prop} {d : Dev} (h : P d) : Res.Gives s P (nextDev s d) := ⟨d, rfl, h⟩

theorem gives_ite {s : State} {P : Dev → Prop} {c : Prop} [Decidable c] {a b : Res} (ha : c → Res.Gives s P a) (hb : ¬c → Res.Gives s P b) :
    Res.Gives s P (if c then a else b) := by
  split <;> rename_i h
  · exact ha h
  · exact hb h

theorem gives_event {s : State} {P : Dev → Prop} {c : Bool} {d : Dev} (h0 : P s.dev) (h : c = true → P d) : Res.Gives s P (event s c d) :=
  gives_ite (fun hc => gives_nextDev (h hc)) (fun _ => gives_next h0)

theorem gives_workEvent {s : State} {P : Dev → Prop} {c : Bool} {d : Dev} (h0 : P s.dev) (h : c = true → P d) : Res.Gives s P (workEvent s c d) :=
  gives_event h0 (fun hc => h (Bool.and_eq_true_iff.1 hc).2)

theorem gives_eventOpt {s : State} {P : Dev → Prop} {o : Option Dev} (h0 : P s.dev) (h : ∀ d', o = some d' → P d') :
    Res.Gives s P (eventOpt s o) := by
  unfold eventOpt
  split
  · exact gives_ite (fun _ => gives_next h0) (fun _ => gives_nextDev (h _ rfl))
  · exact gives_next h0

theorem kept_eventFlips {s : State} {flips : List Nat} {o : Option Dev} (h : ∀ d', o = some d' → s.dev.Kept d') :
    Res.Gives s s.dev.Kept (eventFlips s flips o) := by
  unfold eventFlips
  exact gives_ite (fun _ => gives_nextDev ⟨fun hs => Dev.fatalParity_sound _ hs, Dev.fatalParity_otp _⟩)
    (fun _ => gives_eventOpt (Dev.Kept.refl _) h)

/-- A packet command keeps what its effect keeps. -/
theorem kept_startCmdLen {s : State} {q op : Nat} {lay args : List Nat} {len : Nat} {ck : Dev → Checks} {eff : Dev → Cmd → Dev}
    (h : ∀ (d : Dev) (c : Cmd), d.Kept (eff d c)) : Res.Gives s s.dev.Kept (startCmdLen s q op lay args len ck eff) := by
  unfold startCmdLen
  split
  · exact gives_next (Dev.Kept.refl _)
  · split
    · refine gives_nextDev ⟨fun hs => ?_, ?_⟩
      · simp (maxDischargeDepth := 12) [hs]
      · simp
    · rename_i p _ _
      refine gives_nextDev ⟨fun hs => ?_, ?_⟩
      · exact Dev.settled_sound _ ((h _ _).sound (Dev.begin__sound _ _ _ hs))
      · exact (Dev.settled_otp _).trans ((h _ _).otp.trans (Dev.begin__otp _ _ _))

theorem kept_startCmd {s : State} {q op : Nat} {lay args : List Nat} {ck : Dev → Checks} {eff : Dev → Cmd → Dev}
    (h : ∀ (d : Dev) (c : Cmd), d.Kept (eff d c)) : Res.Gives s s.dev.Kept (startCmd s q op lay args ck eff) := kept_startCmdLen h

theorem kept_doneAt {f : Dev → Dev} {detail : Dev → Nat} {ext : Dev → List Nat} (d : Dev) (c : Cmd) (h : d.Kept (f d)) :
    d.Kept (doneAt f detail ext d c) :=
  ⟨fun hs => doneAt_sound _ _ _ _ _ (h.sound hs), (doneAt_otp _ _ _ _ _).trans h.otp⟩

theorem kept_chanWrite {s : State} {port channel : Nat} {f : Dev → Dev} (h : s.dev.Kept (f s.dev)) :
    Res.Gives s s.dev.Kept (chanWrite s port channel f) := by
  unfold chanWrite
  refine gives_ite (fun _ => gives_next (Dev.Kept.refl _)) (fun _ => gives_ite (fun _ => gives_nextDev ?_) (fun _ => gives_nextDev h))
  exact ⟨fun hs => (Dev.sound_mk ..).2 ⟨hs.log, hs.mem, hs.poison, hs.ctr⟩, rfl⟩

theorem Dev.startZero_step_of {o : Otp} (d : Dev) (h : d.plat.otp = o) : o.Step d.startZero.plat.otp := h ▸ Dev.startZero_step d

theorem Dev.huskStart_step_of {o : Otp} (d : Dev) (h : d.plat.otp = o) : o.Step d.huskStart.plat.otp := h ▸ Dev.huskStart_step d

/-- Where a command's checks pass, none of them finds anything. -/
theorem Dev.refusal_none {d : Dev} {q : Nat} {p : Packet} {len : Nat} {ck : Checks} (h : d.refusal q p len ck = none) :
    ck.param = none ∧ ck.own = none ∧ ck.denied = false := by
  obtain ⟨pa, ow, de⟩ := ck
  unfold Dev.refusal at h
  dsimp only at h ⊢
  split at h
  · simp at h
  · split at h
    · simp at h
    · cases pa with
      | some x => simp at h
      | none =>
        cases de with
        | true => simp at h
        | false =>
          cases ow with
          | none => exact ⟨rfl, rfl, rfl⟩
          | some r =>
            simp only at h
            split at h
            · simp at h
            · split at h <;> split at h <;> simp at h

/-- A packet command whose effect is lawful where its checks pass is lawful. -/
theorem lawful_startCmd {s : State} {q op : Nat} {lay args : List Nat} {ck : Dev → Checks} {eff : Dev → Cmd → Dev}
    (hs : ∀ (d : Dev) (c : Cmd), d.Sound → (eff d c).Sound)
    (ho : ∀ (d : Dev) (c : Cmd), d.plat = s.dev.plat → (ck s.dev).denied = false → d.plat.otp.Step (eff d c).plat.otp) :
    Res.Gives s s.dev.Lawful (startCmd s q op lay args ck eff) := by
  unfold startCmd startCmdLen
  split
  · exact gives_next (Dev.Lawful.refl _)
  · split
    · refine gives_nextDev ⟨fun hs => ?_, Otp.Step.of_eq ?_⟩
      · simp (maxDischargeDepth := 12) [hs]
      · simp
    · rename_i p _ _ hr
      obtain ⟨-, -, hd⟩ := Dev.refusal_none hr
      refine gives_nextDev ⟨fun h => ?_, ?_⟩
      · exact Dev.settled_sound _ (hs _ _ (Dev.begin__sound _ _ _ h))
      · rw [Dev.settled_otp]
        exact (Otp.Step.of_eq (Dev.begin__otp _ _ _)).trans (ho (s.dev.begin_ q p).1 _ (Dev.trace_plat ..) hd)

end Sys2Proof.Machine
end

