-- ==== Sys2Proof/Laws/CommandsHost.lean ====
section
/-! SUPPORT. Packet, queue, window, memory, plan and step commands: each answers a next state with the same queue and a sound device. -/

namespace Sys2Proof.Machine

theorem execRegisterWrite_kept (port : Nat) (offset : Nat) (size : Nat) (value : Nat) (s : State) :
    Res.Gives s s.dev.Kept (execRegisterWrite port offset size value s) := by
  unfold execRegisterWrite
  exact gives_event (Dev.Kept.refl _) (fun _ => ⟨fun h => by simp (maxDischargeDepth := 12) [*], by simp⟩)

theorem execMisalignedWindowAccess_kept (port : Nat) (write : Bool) (offset : Nat) (size : Nat) (s : State) :
    Res.Gives s s.dev.Kept (execMisalignedWindowAccess port write offset size s) := by
  unfold execMisalignedWindowAccess
  exact gives_event (Dev.Kept.refl _) (fun _ => ⟨fun h => by simp (maxDischargeDepth := 12) [*], by simp⟩)

theorem execCqTail_kept (port : Nat) (queue : Nat) (value : Nat) (s : State) :
    Res.Gives s s.dev.Kept (execCqTail port queue value s) := by
  unfold execCqTail
  exact gives_event (Dev.Kept.refl _) (fun _ => ⟨fun h => by simp (maxDischargeDepth := 12) [*], by simp⟩)

theorem execQueueEnable_kept (port : Nat) (queue : Nat) (s : State) :
    Res.Gives s s.dev.Kept (execQueueEnable port queue s) := by
  unfold execQueueEnable
  exact gives_event (Dev.Kept.refl _) (fun _ => ⟨fun h => by simp (maxDischargeDepth := 12) [*], by simp⟩)

theorem execQReset_kept (port : Nat) (queue : Nat) (s : State) :
    Res.Gives s s.dev.Kept (execQReset port queue s) := by
  unfold execQReset
  exact gives_event (Dev.Kept.refl _) (fun _ => ⟨fun h => by simp (maxDischargeDepth := 12) [*], by simp⟩)

theorem execQueueDrained_kept (q : Nat) (s : State) :
    Res.Gives s s.dev.Kept (execQueueDrained q s) := by
  unfold execQueueDrained
  exact gives_event (Dev.Kept.refl _) (fun _ => ⟨fun h => by simp (maxDischargeDepth := 12) [*], by simp⟩)

theorem execPacketFetch_kept (q : Nat) (fetchFails : Bool) (s : State) : Res.Gives s s.dev.Kept (execPacketFetch q fetchFails s) := by
  unfold execPacketFetch
  repeat' (first
    | exact gives_next (Dev.Kept.refl _)
    | with_reducible refine kept_startCmd (fun d c => ?_)
    | with_reducible refine kept_startCmdLen (fun d c => ?_)
    | with_reducible refine kept_doneAt _ _ ?_
    | with_reducible refine kept_eventFlips (fun d' e => ?_)
    | with_reducible refine gives_eventOpt (Dev.Kept.refl _) (fun d' e => ?_)
    | with_reducible refine gives_event (Dev.Kept.refl _) (fun _ => ?_)
    | with_reducible refine gives_nextDev ?_
    | with_reducible refine gives_ite (fun _ => ?_) (fun _ => ?_)
    | with_reducible refine kept_chanWrite ?_
    | (refine ⟨fun h => ?_, ?_⟩ <;> simp (maxDischargeDepth := 12) [*]; done))

theorem execIrqHoldoffEnd_kept (q : Nat) (s : State) :
    Res.Gives s s.dev.Kept (execIrqHoldoffEnd q s) := by
  unfold execIrqHoldoffEnd
  exact gives_ite (fun _ => gives_ite (fun _ => gives_nextDev ⟨fun h => by simp (maxDischargeDepth := 12) [*], by simp⟩) (fun _ => gives_nextDev ⟨fun h => by simp (maxDischargeDepth := 12) [*], by simp⟩)) (fun _ => gives_next (Dev.Kept.refl _))

theorem execSemAcquire_kept (port : Nat) (n : Nat) (low : Bool) (s : State) :
    Res.Gives s s.dev.Kept (execSemAcquire port n low s) := by
  unfold execSemAcquire
  exact gives_ite (fun _ => gives_ite (fun _ => gives_nextDev ⟨fun h => by simp (maxDischargeDepth := 12) [*], by simp⟩) (fun _ => gives_nextDev ⟨fun h => by simp (maxDischargeDepth := 12) [*], by simp⟩)) (fun _ => gives_next (Dev.Kept.refl _))

theorem execSemRelease_kept (port : Nat) (n : Nat) (s : State) :
    Res.Gives s s.dev.Kept (execSemRelease port n s) := by
  unfold execSemRelease
  exact gives_ite (fun _ => gives_ite (fun _ => gives_nextDev ⟨fun h => by simp (maxDischargeDepth := 12) [*], by simp⟩) (fun _ => gives_nextDev ⟨fun h => by simp (maxDischargeDepth := 12) [*], by simp⟩)) (fun _ => gives_next (Dev.Kept.refl _))

theorem execBeatNowRead_kept (port : Nat) (s : State) :
    Res.Gives s s.dev.Kept (execBeatNowRead port s) := by
  unfold execBeatNowRead
  exact gives_event (Dev.Kept.refl _) (fun _ => ⟨fun h => by simp (maxDischargeDepth := 12) [*], by simp⟩)

theorem execDeviceTimeRead_kept (port : Nat) (half : Nat) (s : State) :
    Res.Gives s s.dev.Kept (execDeviceTimeRead port half s) := by
  unfold execDeviceTimeRead
  exact gives_event (Dev.Kept.refl _) (fun _ => ⟨fun h => by simp (maxDischargeDepth := 12) [*], by simp⟩)

theorem execLinkTrained_kept (port : Nat) (width : Nat) (rate : Nat) (s : State) :
    Res.Gives s s.dev.Kept (execLinkTrained port width rate s) := by
  unfold execLinkTrained
  exact gives_event (Dev.Kept.refl _) (fun _ => ⟨fun h => by simp (maxDischargeDepth := 12) [*], by simp⟩)

theorem execLinkRetrain_kept (port : Nat) (corrected : Nat) (replayed : Nat) (s : State) :
    Res.Gives s s.dev.Kept (execLinkRetrain port corrected replayed s) := by
  unfold execLinkRetrain
  exact gives_event (Dev.Kept.refl _) (fun _ => ⟨fun h => by simp (maxDischargeDepth := 12) [*], by simp⟩)

theorem execRunStep_kept (q : Nat) (plan : Nat) (step : Nat) (s : State) :
    Res.Gives s s.dev.Kept (execRunStep q plan step s) := by
  unfold execRunStep
  exact kept_startCmd (fun d c => ⟨fun h => by simp (maxDischargeDepth := 12) [*], by simp⟩)

theorem execWaitingStepStart_kept (plan : Nat) (s : State) :
    Res.Gives s s.dev.Kept (execWaitingStepStart plan s) := by
  unfold execWaitingStepStart
  exact gives_eventOpt (Dev.Kept.refl _) (fun d' e => ⟨fun h => Dev.startWaiting_sound _ _ h e, Dev.startWaiting_otp _ _ e⟩)

theorem execStepComplete_kept (plan : Nat) (s : State) :
    Res.Gives s s.dev.Kept (execStepComplete plan s) := by
  unfold execStepComplete
  exact gives_eventOpt (Dev.Kept.refl _) (fun d' e => ⟨fun h => Dev.stepEnds_sound _ _ h e, Dev.stepEnds_otp _ _ e⟩)

theorem execStepAbort_kept (q : Nat) (plan : Nat) (s : State) :
    Res.Gives s s.dev.Kept (execStepAbort q plan s) := by
  unfold execStepAbort
  exact kept_startCmd (fun d c => ⟨fun h => by simp (maxDischargeDepth := 12) [*], by simp⟩)

theorem execReadTileCounter_kept (q : Nat) (pod : Nat) (counter : Nat) (s : State) : Res.Gives s s.dev.Kept (execReadTileCounter q pod counter s) := by
  unfold execReadTileCounter
  repeat' (first
    | exact gives_next (Dev.Kept.refl _)
    | with_reducible refine kept_startCmd (fun d c => ?_)
    | with_reducible refine kept_startCmdLen (fun d c => ?_)
    | with_reducible refine kept_doneAt _ _ ?_
    | with_reducible refine kept_eventFlips (fun d' e => ?_)
    | with_reducible refine gives_eventOpt (Dev.Kept.refl _) (fun d' e => ?_)
    | with_reducible refine gives_event (Dev.Kept.refl _) (fun _ => ?_)
    | with_reducible refine gives_nextDev ?_
    | with_reducible refine gives_ite (fun _ => ?_) (fun _ => ?_)
    | with_reducible refine kept_chanWrite ?_
    | (refine ⟨fun h => ?_, ?_⟩ <;> simp (maxDischargeDepth := 12) [*]; done))

theorem execPlanLoad_kept (q : Nat) (src : Nat) (len : Nat) (s : State) :
    Res.Gives s s.dev.Kept (execPlanLoad q src len s) := by
  unfold execPlanLoad
  exact kept_startCmd (fun d c => ⟨fun h => by simp (maxDischargeDepth := 12) [*], by simp⟩)

theorem execPlanLoadDone_kept (plan : Nat) (s : State) :
    Res.Gives s s.dev.Kept (execPlanLoadDone plan s) := by
  unfold execPlanLoadDone
  exact gives_event (Dev.Kept.refl _) (fun _ => ⟨fun h => by simp (maxDischargeDepth := 12) [*], by simp⟩)

theorem execPlanUnload_kept (q : Nat) (plan : Nat) (s : State) :
    Res.Gives s s.dev.Kept (execPlanUnload q plan s) := by
  unfold execPlanUnload
  exact kept_startCmd (fun d c => kept_doneAt _ _ ⟨fun h => by simp (maxDischargeDepth := 12) [*], by simp⟩)

theorem execLatchSetDefine_kept (q : Nat) (set : Nat) (counters : List Nat) (s : State) : Res.Gives s s.dev.Kept (execLatchSetDefine q set counters s) := by
  unfold execLatchSetDefine
  repeat' (first
    | exact gives_next (Dev.Kept.refl _)
    | with_reducible refine kept_startCmd (fun d c => ?_)
    | with_reducible refine kept_startCmdLen (fun d c => ?_)
    | with_reducible refine kept_doneAt _ _ ?_
    | with_reducible refine kept_eventFlips (fun d' e => ?_)
    | with_reducible refine gives_eventOpt (Dev.Kept.refl _) (fun d' e => ?_)
    | with_reducible refine gives_event (Dev.Kept.refl _) (fun _ => ?_)
    | with_reducible refine gives_nextDev ?_
    | with_reducible refine gives_ite (fun _ => ?_) (fun _ => ?_)
    | with_reducible refine kept_chanWrite ?_
    | (refine ⟨fun h => ?_, ?_⟩ <;> simp (maxDischargeDepth := 12) [*]; done))

theorem execLatchEnd_kept (cmd : Nat) (s : State) : Res.Gives s s.dev.Kept (execLatchEnd cmd s) := by
  unfold execLatchEnd
  dsimp only
  split
  · exact gives_next (Dev.Kept.refl _)
  · split
    · exact gives_next (Dev.Kept.refl _)
    · exact gives_event (Dev.Kept.refl _) (fun _ => ⟨fun h => Dev.emitFinal_sound _ _ _ _ _ h, Dev.emitFinal_otp _ _ _ _ _⟩)

theorem execTraceArm_kept (q : Nat) (buffer : Nat) (sources : Nat) (dest : Nat) (len : Nat) (s : State) :
    Res.Gives s s.dev.Kept (execTraceArm q buffer sources dest len s) := by
  unfold execTraceArm
  exact kept_startCmd (fun d c => ⟨fun h => by simp (maxDischargeDepth := 12) [*], by simp⟩)

theorem execTraceStop_kept (q : Nat) (buffer : Nat) (s : State) :
    Res.Gives s s.dev.Kept (execTraceStop q buffer s) := by
  unfold execTraceStop
  exact kept_startCmd (fun d c => ⟨fun h => by simp (maxDischargeDepth := 12) [*], by simp⟩)

theorem execTraceRecord_kept (die : Nat) (s : State) :
    Res.Gives s s.dev.Kept (execTraceRecord die s) := by
  unfold execTraceRecord
  exact gives_eventOpt (Dev.Kept.refl _) (fun d' e => ⟨fun h => Dev.traceRecord_sound _ _ h e, Dev.traceRecord_otp _ _ e⟩)

theorem execTraceRecordWrite_kept (s : State) :
    Res.Gives s s.dev.Kept (execTraceRecordWrite s) := by
  unfold execTraceRecordWrite
  exact gives_eventOpt (Dev.Kept.refl _) (fun d' e => ⟨fun h => Dev.traceWrite_sound _ h e, Dev.traceWrite_otp _ e⟩)

theorem execDumpTensor_kept (q : Nat) (plan : Nat) (symbol : Nat) (step : Nat) (dest : Nat) (len : Nat) (s : State) :
    Res.Gives s s.dev.Kept (execDumpTensor q plan symbol step dest len s) := by
  unfold execDumpTensor
  exact kept_startCmd (fun d c => ⟨fun h => by simp (maxDischargeDepth := 12) [*], by simp⟩)

theorem execDumpRead_kept (flips : List Nat) (s : State) :
    Res.Gives s s.dev.Kept (execDumpRead flips s) := by
  unfold execDumpRead
  exact kept_eventFlips (fun d' e => ⟨fun h => Dev.dumpNext_sound _ _ h e, Dev.dumpNext_otp _ _ e⟩)

theorem execNop_kept (q : Nat) (s : State) :
    Res.Gives s s.dev.Kept (execNop q s) := by
  unfold execNop
  exact kept_startCmd (fun d c => kept_doneAt _ _ ⟨fun h => by simp (maxDischargeDepth := 12) [*], by simp⟩)

theorem execIdentify_kept (q : Nat) (s : State) :
    Res.Gives s s.dev.Kept (execIdentify q s) := by
  unfold execIdentify
  exact kept_startCmd (fun d c => kept_doneAt _ _ ⟨fun h => by simp (maxDischargeDepth := 12) [*], by simp⟩)

theorem execGetStatus_kept (q : Nat) (s : State) :
    Res.Gives s s.dev.Kept (execGetStatus q s) := by
  unfold execGetStatus
  exact kept_startCmd (fun d c => kept_doneAt _ _ ⟨fun h => by simp (maxDischargeDepth := 12) [*], by simp⟩)

theorem execReadFaultLog_kept (q : Nat) (dest : Nat) (s : State) :
    Res.Gives s s.dev.Kept (execReadFaultLog q dest s) := by
  unfold execReadFaultLog
  exact kept_startCmd (fun d c => ⟨fun h => by simp (maxDischargeDepth := 12) [*], by simp⟩)

theorem execReset_kept (q : Nat) (s : State) :
    Res.Gives s s.dev.Kept (execReset q s) := by
  unfold execReset
  exact kept_startCmd (fun d c => ⟨fun h => by simp (maxDischargeDepth := 12) [*], by simp⟩)

theorem execResetExecute_lawful (s : State) : Res.Gives s s.dev.Lawful (execResetExecute s) := by
  unfold execResetExecute
  dsimp only
  refine gives_ite (fun _ => gives_ite (fun _ => gives_nextDev ?_) (fun _ => gives_nextDev ?_)) (fun _ => gives_next (Dev.Lawful.refl _))
  · refine ⟨fun h => ?_, ?_⟩
    · have h1 := Dev.abortAll_sound s.dev 0 h
      exact Dev.alerted_sound _ _ (Dev.huskStart_sound _ ((Dev.sound_mk ..).2 ⟨h.log, h1.mem, h1.poison, h1.ctr⟩)) h.log
    · rw [Dev.alerted_otp]
      exact Dev.huskStart_step_of _ rfl
  · exact ⟨fun h => Dev.alerted_sound _ _ (Dev.resetNow_sound _ h) h.log, Otp.Step.of_eq ((Dev.alerted_otp _ _).trans (Dev.resetNow_otp _))⟩

theorem execGpioClaim_kept (q : Nat) (pin : Nat) (s : State) :
    Res.Gives s s.dev.Kept (execGpioClaim q pin s) := by
  unfold execGpioClaim
  exact kept_startCmd (fun d c => kept_doneAt _ _ ⟨fun h => by simp (maxDischargeDepth := 12) [*], by simp⟩)

theorem execGpioRelease_kept (q : Nat) (pin : Nat) (s : State) :
    Res.Gives s s.dev.Kept (execGpioRelease q pin s) := by
  unfold execGpioRelease
  exact kept_startCmd (fun d c => kept_doneAt _ _ ⟨fun h => by simp (maxDischargeDepth := 12) [*], by simp⟩)

theorem execGpioSet_kept (q : Nat) (pin : Nat) (mode : Nat) (value : Nat) (alt : Nat) (s : State) :
    Res.Gives s s.dev.Kept (execGpioSet q pin mode value alt s) := by
  unfold execGpioSet
  exact kept_startCmd (fun d c => kept_doneAt _ _ ⟨fun h => by simp (maxDischargeDepth := 12) [*], by simp⟩)

theorem execFence_kept (q : Nat) (s : State) :
    Res.Gives s s.dev.Kept (execFence q s) := by
  unfold execFence
  exact kept_startCmd (fun d c => kept_doneAt _ _ ⟨fun h => by simp (maxDischargeDepth := 12) [*], by simp⟩)

theorem execFill_kept (q : Nat) (dest : Nat) (len : Nat) (value : Nat) (s : State) : Res.Gives s s.dev.Kept (execFill q dest len value s) := by
  unfold execFill
  repeat' (first
    | exact gives_next (Dev.Kept.refl _)
    | with_reducible refine kept_startCmd (fun d c => ?_)
    | with_reducible refine kept_startCmdLen (fun d c => ?_)
    | with_reducible refine kept_doneAt _ _ ?_
    | with_reducible refine kept_eventFlips (fun d' e => ?_)
    | with_reducible refine gives_eventOpt (Dev.Kept.refl _) (fun d' e => ?_)
    | with_reducible refine gives_event (Dev.Kept.refl _) (fun _ => ?_)
    | with_reducible refine gives_nextDev ?_
    | with_reducible refine gives_ite (fun _ => ?_) (fun _ => ?_)
    | with_reducible refine kept_chanWrite ?_
    | (refine ⟨fun h => ?_, ?_⟩ <;> simp (maxDischargeDepth := 12) [*]; done))

theorem execWriteInline_kept (q : Nat) (dest : Nat) (data : List Byte) (s : State) : Res.Gives s s.dev.Kept (execWriteInline q dest data s) := by
  unfold execWriteInline
  repeat' (first
    | exact gives_next (Dev.Kept.refl _)
    | with_reducible refine kept_startCmd (fun d c => ?_)
    | with_reducible refine kept_startCmdLen (fun d c => ?_)
    | with_reducible refine kept_doneAt _ _ ?_
    | with_reducible refine kept_eventFlips (fun d' e => ?_)
    | with_reducible refine gives_eventOpt (Dev.Kept.refl _) (fun d' e => ?_)
    | with_reducible refine gives_event (Dev.Kept.refl _) (fun _ => ?_)
    | with_reducible refine gives_nextDev ?_
    | with_reducible refine gives_ite (fun _ => ?_) (fun _ => ?_)
    | with_reducible refine kept_chanWrite ?_
    | (refine ⟨fun h => ?_, ?_⟩ <;> simp (maxDischargeDepth := 12) [*]; done)
    | (refine ⟨fun h => ?_, ?_⟩ <;> (repeat' split) <;> simp (maxDischargeDepth := 12) [*]; done)
    | (refine ⟨fun h => ?_, ?_⟩ <;> dsimp only <;> (repeat' split) <;> simp (maxDischargeDepth := 12) [*]; done)
    | split
    | extract_lets)

theorem execPoolCreate_kept (q : Nat) (pod : Nat) (pool : Nat) (frameBytes : Nat) (base : Nat) (frames : Nat) (s : State) : Res.Gives s s.dev.Kept (execPoolCreate q pod pool frameBytes base frames s) := by
  unfold execPoolCreate
  repeat' (first
    | exact gives_next (Dev.Kept.refl _)
    | with_reducible refine kept_startCmd (fun d c => ?_)
    | with_reducible refine kept_startCmdLen (fun d c => ?_)
    | with_reducible refine kept_doneAt _ _ ?_
    | with_reducible refine kept_eventFlips (fun d' e => ?_)
    | with_reducible refine gives_eventOpt (Dev.Kept.refl _) (fun d' e => ?_)
    | with_reducible refine gives_event (Dev.Kept.refl _) (fun _ => ?_)
    | with_reducible refine gives_nextDev ?_
    | with_reducible refine gives_ite (fun _ => ?_) (fun _ => ?_)
    | with_reducible refine kept_chanWrite ?_
    | (refine ⟨fun h => ?_, ?_⟩ <;> simp (maxDischargeDepth := 12) [*]; done))

theorem execPoolDestroy_kept (q : Nat) (pod : Nat) (pool : Nat) (s : State) :
    Res.Gives s s.dev.Kept (execPoolDestroy q pod pool s) := by
  unfold execPoolDestroy
  exact kept_startCmd (fun d c => kept_doneAt _ _ ⟨fun h => by simp (maxDischargeDepth := 12) [*], by simp⟩)

theorem execSeqCreate_kept (q : Nat) (pod : Nat) (pool : Nat) (table : Nat) (entries : Nat) (ringPages : Nat) (s : State) :
    Res.Gives s s.dev.Kept (execSeqCreate q pod pool table entries ringPages s) := by
  unfold execSeqCreate
  exact kept_startCmd (fun d c => kept_doneAt _ _ ⟨fun h => by simp (maxDischargeDepth := 12) [*], by simp⟩)

theorem execSeqDestroy_kept (q : Nat) (pod : Nat) (table : Nat) (s : State) :
    Res.Gives s s.dev.Kept (execSeqDestroy q pod table s) := by
  unfold execSeqDestroy
  exact kept_startCmd (fun d c => kept_doneAt _ _ ⟨fun h => by simp (maxDischargeDepth := 12) [*], by simp⟩)

theorem execPageAlloc_kept (q : Nat) (pod : Nat) (table : Nat) (entry : Nat) (lpage : Nat) (s : State) :
    Res.Gives s s.dev.Kept (execPageAlloc q pod table entry lpage s) := by
  unfold execPageAlloc
  exact kept_startCmd (fun d c => ⟨fun h => by (repeat' split) <;> simp (maxDischargeDepth := 12) [*], by (repeat' split) <;> simp⟩)

theorem execPageShare_kept (q : Nat) (pod : Nat) (srcTable : Nat) (srcEntry : Nat) (dstTable : Nat) (dstEntry : Nat) (s : State) : Res.Gives s s.dev.Kept (execPageShare q pod srcTable srcEntry dstTable dstEntry s) := by
  unfold execPageShare
  repeat' (first
    | exact gives_next (Dev.Kept.refl _)
    | with_reducible refine kept_startCmd (fun d c => ?_)
    | with_reducible refine kept_startCmdLen (fun d c => ?_)
    | with_reducible refine kept_doneAt _ _ ?_
    | with_reducible refine kept_eventFlips (fun d' e => ?_)
    | with_reducible refine gives_eventOpt (Dev.Kept.refl _) (fun d' e => ?_)
    | with_reducible refine gives_event (Dev.Kept.refl _) (fun _ => ?_)
    | with_reducible refine gives_nextDev ?_
    | with_reducible refine gives_ite (fun _ => ?_) (fun _ => ?_)
    | with_reducible refine kept_chanWrite ?_
    | (refine ⟨fun h => ?_, ?_⟩ <;> simp (maxDischargeDepth := 12) [*]; done))

theorem execPageFree_kept (q : Nat) (pod : Nat) (table : Nat) (entry : Nat) (s : State) :
    Res.Gives s s.dev.Kept (execPageFree q pod table entry s) := by
  unfold execPageFree
  exact kept_startCmd (fun d c => kept_doneAt _ _ ⟨fun h => by simp (maxDischargeDepth := 12) [*], by simp⟩)

end Sys2Proof.Machine
end

