-- ==== Sys2Proof/Laws/CommandsUnits.lean ====
section
/-! SUPPORT. Cadence, live, ingest, encoder and power commands: each answers a next state with the same queue and a sound device. -/

namespace Sys2Proof.Machine

theorem execDomainOn_kept (q : Nat) (id : Nat) (s : State) :
    Res.Gives s s.dev.Kept (execDomainOn q id s) := by
  unfold execDomainOn
  exact kept_startCmd (fun d c => ⟨fun h => by simp (maxDischargeDepth := 12) [*], by simp⟩)

theorem execDomainOff_kept (q : Nat) (id : Nat) (s : State) :
    Res.Gives s s.dev.Kept (execDomainOff q id s) := by
  unfold execDomainOff
  exact kept_startCmd (fun d c => ⟨fun h => by simp (maxDischargeDepth := 12) [*], by simp⟩)

theorem execDomainAuto_kept (q : Nat) (id : Nat) (s : State) : Res.Gives s s.dev.Kept (execDomainAuto q id s) := by
  unfold execDomainAuto
  repeat' (first
    | exact gives_next (Dev.Kept.refl _)
    | with_reducible refine kept_startCmd (fun d c => ?_)
    | with_reducible refine kept_startCmdLen (fun d c => ?_)
    | with_reducible refine kept_doneAt _ _ ?_
    | with_reducible refine kept_eventFlips (fun d' e => ?_)
    | with_reducible refine gives_eventOpt (Dev.Kept.refl _) (fun d' e => ?_)
    | with_reducible refine gives_event (Dev.Kept.refl _) (fun _ => ?_)
    | with_reducible refine gives_nextDev ?_
    | with_reducible refine gives_ite (fun _ => ?_) (fun _ => ?_)
    | with_reducible refine kept_chanWrite ?_
    | (refine ⟨fun h => ?_, ?_⟩ <;> simp (maxDischargeDepth := 12) [*]; done))

theorem execSetEnergyBudget_kept (q : Nat) (record : Nat) (s : State) : Res.Gives s s.dev.Kept (execSetEnergyBudget q record s) := by
  unfold execSetEnergyBudget
  repeat' (first
    | exact gives_next (Dev.Kept.refl _)
    | with_reducible refine kept_startCmd (fun d c => ?_)
    | with_reducible refine kept_startCmdLen (fun d c => ?_)
    | with_reducible refine kept_doneAt _ _ ?_
    | with_reducible refine kept_eventFlips (fun d' e => ?_)
    | with_reducible refine gives_eventOpt (Dev.Kept.refl _) (fun d' e => ?_)
    | with_reducible refine gives_event (Dev.Kept.refl _) (fun _ => ?_)
    | with_reducible refine gives_nextDev ?_
    | with_reducible refine gives_ite (fun _ => ?_) (fun _ => ?_)
    | with_reducible refine kept_chanWrite ?_
    | (refine ⟨fun h => ?_, ?_⟩ <;> simp (maxDischargeDepth := 12) [*]; done))

theorem execAgeingReport_kept (q : Nat) (dest : Nat) (s : State) : Res.Gives s s.dev.Kept (execAgeingReport q dest s) := by
  unfold execAgeingReport
  repeat' (first
    | exact gives_next (Dev.Kept.refl _)
    | with_reducible refine kept_startCmd (fun d c => ?_)
    | with_reducible refine kept_startCmdLen (fun d c => ?_)
    | with_reducible refine kept_doneAt _ _ ?_
    | with_reducible refine kept_eventFlips (fun d' e => ?_)
    | with_reducible refine gives_eventOpt (Dev.Kept.refl _) (fun d' e => ?_)
    | with_reducible refine gives_event (Dev.Kept.refl _) (fun _ => ?_)
    | with_reducible refine gives_nextDev ?_
    | with_reducible refine gives_ite (fun _ => ?_) (fun _ => ?_)
    | with_reducible refine kept_chanWrite ?_
    | (refine ⟨fun h => ?_, ?_⟩ <;> simp (maxDischargeDepth := 12) [*]; done))

theorem execDomainDrained_kept (domain : Nat) (s : State) :
    Res.Gives s s.dev.Kept (execDomainDrained domain s) := by
  unfold execDomainDrained
  exact gives_event (Dev.Kept.refl _) (fun _ => ⟨fun h => by simp (maxDischargeDepth := 12) [*], by simp⟩)

theorem execWipeDone_kept (domain : Nat) (s : State) :
    Res.Gives s s.dev.Kept (execWipeDone domain s) := by
  unfold execWipeDone
  exact gives_event (Dev.Kept.refl _) (fun _ => ⟨fun h => by simp (maxDischargeDepth := 12) [*], by simp⟩)

theorem execPowerDownDone_kept (domain : Nat) (s : State) : Res.Gives s s.dev.Kept (execPowerDownDone domain s) := by
  unfold execPowerDownDone
  repeat' (first
    | exact gives_next (Dev.Kept.refl _)
    | with_reducible refine kept_startCmd (fun d c => ?_)
    | with_reducible refine kept_startCmdLen (fun d c => ?_)
    | with_reducible refine kept_doneAt _ _ ?_
    | with_reducible refine kept_eventFlips (fun d' e => ?_)
    | with_reducible refine gives_eventOpt (Dev.Kept.refl _) (fun d' e => ?_)
    | with_reducible refine gives_event (Dev.Kept.refl _) (fun _ => ?_)
    | with_reducible refine gives_nextDev ?_
    | with_reducible refine gives_ite (fun _ => ?_) (fun _ => ?_)
    | with_reducible refine kept_chanWrite ?_
    | (refine ⟨fun h => ?_, ?_⟩ <;> simp (maxDischargeDepth := 12) [*]; done)
    | (refine ⟨fun h => ?_, ?_⟩ <;> (repeat' split) <;> simp (maxDischargeDepth := 12) [*]; done))

theorem execOffDwellEnd_kept (domain : Nat) (s : State) :
    Res.Gives s s.dev.Kept (execOffDwellEnd domain s) := by
  unfold execOffDwellEnd
  exact gives_event (Dev.Kept.refl _) (fun _ => ⟨fun h => by simp (maxDischargeDepth := 12) [*], by simp⟩)

theorem execDomainPoweredUp_kept (domain : Nat) (s : State) :
    Res.Gives s s.dev.Kept (execDomainPoweredUp domain s) := by
  unfold execDomainPoweredUp
  exact gives_event (Dev.Kept.refl _) (fun _ => ⟨fun h => by simp (maxDischargeDepth := 12) [*], by simp⟩)

theorem execIdleOffExpiry_kept (domain : Nat) (s : State) :
    Res.Gives s s.dev.Kept (execIdleOffExpiry domain s) := by
  unfold execIdleOffExpiry
  exact gives_event (Dev.Kept.refl _) (fun _ => ⟨fun h => by simp (maxDischargeDepth := 12) [*], by simp⟩)

theorem execSensorReading_kept (temps : List Int) (s : State) : Res.Gives s s.dev.Kept (execSensorReading temps s) := by
  unfold execSensorReading
  extract_lets d1 d2
  have h1 : s.dev.Kept d1 := ⟨fun h => sound_foldl _ _ _ (fun d x h => Dev.senseDom_sound _ _ _ h) h, otp_foldl _ _ _ (fun d x => Dev.senseDom_otp _ _ _)⟩
  clear_value d1
  have h2 : s.dev.Kept d2 := ⟨fun h => sound_ite (Dev.thermTrip_sound _ (h1.sound h)) (h1.sound h), otp_ite ((Dev.thermTrip_otp _).trans h1.otp) h1.otp⟩
  clear_value d2
  refine gives_event (Dev.Kept.refl _) (fun _ => ?_)
  exact ⟨fun h => Dev.reclock_sound _ (Dev.thermAlert_sound _ _ (h2.sound h)), (Dev.reclock_otp _).trans ((Dev.thermAlert_otp _ _).trans h2.otp)⟩

theorem execRailSample_kept (readings : List (Nat × Nat)) (podFixed : Nat) (s : State) :
    Res.Gives s s.dev.Kept (execRailSample readings podFixed s) := by
  unfold execRailSample
  exact gives_event (Dev.Kept.refl _) (fun _ => ⟨fun h => by simp (maxDischargeDepth := 12) [*], by simp⟩)

theorem execFastLimit_kept (rail : Nat) (s : State) :
    Res.Gives s s.dev.Kept (execFastLimit rail s) := by
  unfold execFastLimit
  exact gives_event (Dev.Kept.refl _) (fun _ => ⟨fun h => by simp (maxDischargeDepth := 12) [*], by simp⟩)

theorem execFastLimitStop_kept (rail : Nat) (s : State) :
    Res.Gives s s.dev.Kept (execFastLimitStop rail s) := by
  unfold execFastLimitStop
  exact gives_event (Dev.Kept.refl _) (fun _ => ⟨fun h => by simp (maxDischargeDepth := 12) [*], by simp⟩)

theorem execFastLimitRestore_kept (rail : Nat) (s : State) :
    Res.Gives s s.dev.Kept (execFastLimitRestore rail s) := by
  unfold execFastLimitRestore
  exact gives_event (Dev.Kept.refl _) (fun _ => ⟨fun h => by simp (maxDischargeDepth := 12) [*], by simp⟩)

theorem execRailVoltageReached_kept (rail : Nat) (s : State) :
    Res.Gives s s.dev.Kept (execRailVoltageReached rail s) := by
  unfold execRailVoltageReached
  exact gives_event (Dev.Kept.refl _) (fun _ => ⟨fun h => by simp (maxDischargeDepth := 12) [*], by simp⟩)

theorem execAvsVoltageTimeout_kept (rail : Nat) (s : State) :
    Res.Gives s s.dev.Kept (execAvsVoltageTimeout rail s) := by
  unfold execAvsVoltageTimeout
  exact gives_event (Dev.Kept.refl _) (fun _ => ⟨fun h => by simp (maxDischargeDepth := 12) [*], by simp⟩)

theorem execAvsbusRetry_kept (rail : Nat) (ok : Bool) (s : State) :
    Res.Gives s s.dev.Kept (execAvsbusRetry rail ok s) := by
  unfold execAvsbusRetry
  exact gives_event (Dev.Kept.refl _) (fun _ => ⟨fun h => by simp (maxDischargeDepth := 12) [*], by simp⟩)

theorem execPowerBrakeAssert_kept (s : State) : Res.Gives s s.dev.Kept (execPowerBrakeAssert s) := by
  unfold execPowerBrakeAssert
  dsimp only
  refine gives_event (Dev.Kept.refl _) (fun _ => ⟨fun h => ?_, ?_⟩)
  · refine Dev.reclock_sound _ (sound_foldl _ _ _ (fun d u h => Dev.reqOff_sound _ _ _ h) ?_)
    exact (Dev.sound_mk ..).2 ⟨h.log, h.mem, h.poison, wf_bump _ _ _ _ h.ctr⟩
  · exact (Dev.reclock_otp _).trans (otp_foldl _ _ _ (fun d u => Dev.reqOff_otp _ _ _))

theorem execPowerBrakeRelease_kept (s : State) : Res.Gives s s.dev.Kept (execPowerBrakeRelease s) := by
  unfold execPowerBrakeRelease
  extract_lets d src d1 d2
  have hd : s.dev.Sound → d1.Sound := fun h => (Dev.sound_mk ..).2 ⟨Plat.brakeOff_sound _ h.log, h.mem, h.poison, h.ctr⟩
  have h1 : s.dev.Sound → d2.Sound := fun h => sound_foldl _ _ d1 (fun d u h => Dev.reqOn_sound _ _ _ h) (hd h)
  have h2 : d2.plat.otp = s.dev.plat.otp := (otp_foldl _ _ d1 (fun d u => Dev.reqOn_otp _ _ _)).trans (Plat.brakeOff_otp _)
  clear_value d2
  refine gives_event (Dev.Kept.refl _) (fun _ => ⟨fun h => ?_, ?_⟩)
  · exact Dev.reclock_sound _ (Dev.traceDoms_sound _ _ ((Dev.sound_mk ..).2 ⟨(h1 h).log, (h1 h).mem, (h1 h).poison, (h1 h).ctr⟩))
  · exact (Dev.reclock_otp _).trans ((Dev.traceDoms_otp _ _).trans h2)

theorem execBudgetCheckpoint_kept (s : State) :
    Res.Gives s s.dev.Kept (execBudgetCheckpoint s) := by
  unfold execBudgetCheckpoint
  exact gives_event (Dev.Kept.refl _) (fun _ => ⟨fun h => by simp (maxDischargeDepth := 12) [*], by simp⟩)

theorem execTelemetrySnapshot_kept (s : State) :
    Res.Gives s s.dev.Kept (execTelemetrySnapshot s) := by
  unfold execTelemetrySnapshot
  exact gives_event (Dev.Kept.refl _) (fun _ => ⟨fun h => by simp (maxDischargeDepth := 12) [*], by simp⟩)

theorem execAgeingReading_kept (domain : Nat) (stressed : Nat) (reference : Nat) (s : State) :
    Res.Gives s s.dev.Kept (execAgeingReading domain stressed reference s) := by
  unfold execAgeingReading
  exact gives_event (Dev.Kept.refl _) (fun _ => ⟨fun h => by simp (maxDischargeDepth := 12) [*], by simp⟩)

theorem execEncOpen_kept (q : Nat) (config : Nat) (s : State) :
    Res.Gives s s.dev.Kept (execEncOpen q config s) := by
  unfold execEncOpen
  exact kept_startCmd (fun d c => ⟨fun h => by simp (maxDischargeDepth := 12) [*], by simp⟩)

theorem execEncSubmit_kept (q : Nat) (session : Nat) (forceIdr : Nat) (picture : Nat) (pts : Nat) (s : State) :
    Res.Gives s s.dev.Kept (execEncSubmit q session forceIdr picture pts s) := by
  unfold execEncSubmit
  exact kept_startCmd (fun d c => ⟨fun h => by simp (maxDischargeDepth := 12) [*], by simp⟩)

theorem execEncConfig_kept (q : Nat) (session : Nat) (config : Nat) (s : State) :
    Res.Gives s s.dev.Kept (execEncConfig q session config s) := by
  unfold execEncConfig
  exact kept_startCmd (fun d c => kept_doneAt _ _ ⟨fun h => by simp (maxDischargeDepth := 12) [*], by simp⟩)

theorem execEncClose_kept (q : Nat) (session : Nat) (s : State) :
    Res.Gives s s.dev.Kept (execEncClose q session s) := by
  unfold execEncClose
  exact kept_startCmd (fun d c => ⟨fun h => by simp (maxDischargeDepth := 12) [*], by simp⟩)

theorem execEncPictureStart_kept (s : State) :
    Res.Gives s s.dev.Kept (execEncPictureStart s) := by
  unfold execEncPictureStart
  exact gives_eventOpt (Dev.Kept.refl _) (fun d' e => ⟨fun h => Dev.startPicture_sound _ h e, Dev.startPicture_otp _ e⟩)

theorem execEncRowCoded_kept (s : State) : Res.Gives s s.dev.Kept (execEncRowCoded s) := by
  unfold execEncRowCoded
  dsimp only
  split
  · exact gives_next (Dev.Kept.refl _)
  · exact gives_workEvent (Dev.Kept.refl _) (fun _ => ⟨fun h => Dev.codeRow_sound _ _ _ h, Dev.codeRow_otp _ _ _⟩)

theorem execEncSliceWrite_kept (s : State) : Res.Gives s s.dev.Kept (execEncSliceWrite s) := by
  unfold execEncSliceWrite
  dsimp only
  split
  · exact gives_next (Dev.Kept.refl _)
  · refine gives_workEvent (Dev.Kept.refl _) (fun _ => ⟨fun h => ?_, ?_⟩)
    · exact sound_ite (Dev.putSlice_sound _ _ _ _ h) ((Dev.sound_mk ..).2 ⟨h.log, h.mem, h.poison, h.ctr⟩)
    · exact otp_ite (Dev.putSlice_otp _ _ _ _) rfl

theorem execEncRingWaitLimit_kept (s : State) : Res.Gives s s.dev.Kept (execEncRingWaitLimit s) := by
  unfold execEncRingWaitLimit
  dsimp only
  split
  · exact gives_next (Dev.Kept.refl _)
  · exact gives_workEvent (Dev.Kept.refl _) (fun _ => ⟨fun h => Dev.dropPicture_sound _ _ _ h, Dev.dropPicture_otp _ _ _⟩)

theorem execEncPictureDone_kept (s : State) : Res.Gives s s.dev.Kept (execEncPictureDone s) := by
  unfold execEncPictureDone
  dsimp only
  split
  · exact gives_next (Dev.Kept.refl _)
  · exact gives_workEvent (Dev.Kept.refl _) (fun _ => ⟨fun h => Dev.endPicture_sound _ _ _ _ (Dev.updSess_sound _ _ _ h), (Dev.endPicture_otp _ _ _ _).trans (Dev.updSess_otp _ _ _)⟩)

theorem execCadenceConfig_kept (q : Nat) (cad : Nat) (lock : Nat) (sched : Nat) (s : State) : Res.Gives s s.dev.Kept (execCadenceConfig q cad lock sched s) := by
  unfold execCadenceConfig
  repeat' (first
    | exact gives_next (Dev.Kept.refl _)
    | with_reducible refine kept_startCmd (fun d c => ?_)
    | with_reducible refine kept_startCmdLen (fun d c => ?_)
    | with_reducible refine kept_doneAt _ _ ?_
    | with_reducible refine kept_eventFlips (fun d' e => ?_)
    | with_reducible refine gives_eventOpt (Dev.Kept.refl _) (fun d' e => ?_)
    | with_reducible refine gives_event (Dev.Kept.refl _) (fun _ => ?_)
    | with_reducible refine gives_nextDev ?_
    | with_reducible refine gives_ite (fun _ => ?_) (fun _ => ?_)
    | with_reducible refine kept_chanWrite ?_
    | (refine ⟨fun h => ?_, ?_⟩ <;> simp (maxDischargeDepth := 12) [*]; done))

theorem execEventSet_kept (q : Nat) (slot : Nat) (s : State) :
    Res.Gives s s.dev.Kept (execEventSet q slot s) := by
  unfold execEventSet
  exact kept_startCmd (fun d c => ⟨fun h => by simp (maxDischargeDepth := 12) [*], by simp⟩)

theorem execEventClear_kept (q : Nat) (slot : Nat) (s : State) : Res.Gives s s.dev.Kept (execEventClear q slot s) := by
  unfold execEventClear
  repeat' (first
    | exact gives_next (Dev.Kept.refl _)
    | with_reducible refine kept_startCmd (fun d c => ?_)
    | with_reducible refine kept_startCmdLen (fun d c => ?_)
    | with_reducible refine kept_doneAt _ _ ?_
    | with_reducible refine kept_eventFlips (fun d' e => ?_)
    | with_reducible refine gives_eventOpt (Dev.Kept.refl _) (fun d' e => ?_)
    | with_reducible refine gives_event (Dev.Kept.refl _) (fun _ => ?_)
    | with_reducible refine gives_nextDev ?_
    | with_reducible refine gives_ite (fun _ => ?_) (fun _ => ?_)
    | with_reducible refine kept_chanWrite ?_
    | (refine ⟨fun h => ?_, ?_⟩ <;> simp (maxDischargeDepth := 12) [*]; done))

theorem execTimerClaim_kept (q : Nat) (timer : Nat) (periodic : Nat) (interval : Nat) (slot : Nat) (s : State) : Res.Gives s s.dev.Kept (execTimerClaim q timer periodic interval slot s) := by
  unfold execTimerClaim
  repeat' (first
    | exact gives_next (Dev.Kept.refl _)
    | with_reducible refine kept_startCmd (fun d c => ?_)
    | with_reducible refine kept_startCmdLen (fun d c => ?_)
    | with_reducible refine kept_doneAt _ _ ?_
    | with_reducible refine kept_eventFlips (fun d' e => ?_)
    | with_reducible refine gives_eventOpt (Dev.Kept.refl _) (fun d' e => ?_)
    | with_reducible refine gives_event (Dev.Kept.refl _) (fun _ => ?_)
    | with_reducible refine gives_nextDev ?_
    | with_reducible refine gives_ite (fun _ => ?_) (fun _ => ?_)
    | with_reducible refine kept_chanWrite ?_
    | (refine ⟨fun h => ?_, ?_⟩ <;> simp (maxDischargeDepth := 12) [*]; done))

theorem execTimerRelease_kept (q : Nat) (timer : Nat) (s : State) :
    Res.Gives s s.dev.Kept (execTimerRelease q timer s) := by
  unfold execTimerRelease
  exact kept_startCmd (fun d c => kept_doneAt _ _ ⟨fun h => by simp (maxDischargeDepth := 12) [*], by simp⟩)

theorem execEventSlotFire_kept (slot : Nat) (s : State) :
    Res.Gives s s.dev.Kept (execEventSlotFire slot s) := by
  unfold execEventSlotFire
  (repeat' split) <;> first | exact gives_next (Dev.Kept.refl _) | exact gives_event (Dev.Kept.refl _) (fun _ => ⟨fun h => by simp (maxDischargeDepth := 12) [*], by simp⟩)

theorem execSchedulerTimerFire_kept (timer : Nat) (s : State) :
    Res.Gives s s.dev.Kept (execSchedulerTimerFire timer s) := by
  unfold execSchedulerTimerFire
  exact gives_event (Dev.Kept.refl _) (fun _ => ⟨fun h => by simp (maxDischargeDepth := 12) [*], by simp⟩)

theorem execCadenceOutPulse_kept (s : State) :
    Res.Gives s s.dev.Kept (execCadenceOutPulse s) := by
  unfold execCadenceOutPulse
  exact gives_event (Dev.Kept.refl _) (fun _ => ⟨fun h => by simp (maxDischargeDepth := 12) [*], by simp⟩)

theorem execPulseWidthEnd_kept (pin : Nat) (s : State) :
    Res.Gives s s.dev.Kept (execPulseWidthEnd pin s) := by
  unfold execPulseWidthEnd
  exact gives_ite (fun _ => gives_event (Dev.Kept.refl _) (fun _ => ⟨fun h => by simp (maxDischargeDepth := 12) [*], by simp⟩)) (fun _ => gives_event (Dev.Kept.refl _) (fun _ => ⟨fun h => by simp (maxDischargeDepth := 12) [*], by simp⟩))

theorem execCadenceInEdge_kept (highNs : Nat) (s : State) :
    Res.Gives s s.dev.Kept (execCadenceInEdge highNs s) := by
  unfold execCadenceInEdge
  exact gives_event (Dev.Kept.refl _) (fun _ => ⟨fun h => by simp (maxDischargeDepth := 12) [*], by simp⟩)

theorem execRefWindowEnd_kept (s : State) :
    Res.Gives s s.dev.Kept (execRefWindowEnd s) := by
  unfold execRefWindowEnd
  exact gives_event (Dev.Kept.refl _) (fun _ => ⟨fun h => by simp (maxDischargeDepth := 12) [*], by simp⟩)

theorem execPtpSyncRecord_kept (port : Nat) (ptpTime : Nat) (s : State) :
    Res.Gives s s.dev.Kept (execPtpSyncRecord port ptpTime s) := by
  unfold execPtpSyncRecord
  exact gives_event (Dev.Kept.refl _) (fun _ => ⟨fun h => by simp (maxDischargeDepth := 12) [*], by simp⟩)

theorem execPtpSyncTimeout_kept (s : State) :
    Res.Gives s s.dev.Kept (execPtpSyncTimeout s) := by
  unfold execPtpSyncTimeout
  exact gives_event (Dev.Kept.refl _) (fun _ => ⟨fun h => by simp (maxDischargeDepth := 12) [*], by simp⟩)

theorem execBeatStart_kept (s : State) :
    Res.Gives s s.dev.Kept (execBeatStart s) := by
  unfold execBeatStart
  (repeat' split) <;> first | exact gives_next (Dev.Kept.refl _) | exact gives_event (Dev.Kept.refl _) (fun _ => ⟨fun h => by simp (maxDischargeDepth := 12) [*], by simp⟩)

theorem execIngestConfig_kept (q : Nat) (profile : Nat) (dests : List Nat) (s : State) :
    Res.Gives s s.dev.Kept (execIngestConfig q profile dests s) := by
  unfold execIngestConfig
  exact kept_startCmd (fun d c => kept_doneAt _ _ ⟨fun h => by simp (maxDischargeDepth := 12) [*], by simp⟩)

theorem execIngestRing_kept (q : Nat) (ring : Nat) (kind : Nat) (log2 : Nat) (entryBase : Nat) (compBase : Nat) (batchBase : Nat) (handoffBase : Nat) (s : State) : Res.Gives s s.dev.Kept (execIngestRing q ring kind log2 entryBase compBase batchBase handoffBase s) := by
  unfold execIngestRing
  repeat' (first
    | exact gives_next (Dev.Kept.refl _)
    | with_reducible refine kept_startCmd (fun d c => ?_)
    | with_reducible refine kept_startCmdLen (fun d c => ?_)
    | with_reducible refine kept_doneAt _ _ ?_
    | with_reducible refine kept_eventFlips (fun d' e => ?_)
    | with_reducible refine gives_eventOpt (Dev.Kept.refl _) (fun d' e => ?_)
    | with_reducible refine gives_event (Dev.Kept.refl _) (fun _ => ?_)
    | with_reducible refine gives_nextDev ?_
    | with_reducible refine gives_ite (fun _ => ?_) (fun _ => ?_)
    | with_reducible refine kept_chanWrite ?_
    | (refine ⟨fun h => ?_, ?_⟩ <;> simp (maxDischargeDepth := 12) [*]; done))

theorem execIngestDoorbell_kept (q : Nat) (ring : Nat) (tail : Nat) (s : State) :
    Res.Gives s s.dev.Kept (execIngestDoorbell q ring tail s) := by
  unfold execIngestDoorbell
  exact kept_startCmd (fun d c => kept_doneAt _ _ ⟨fun h => by simp (maxDischargeDepth := 12) [*], by simp⟩)

theorem execIngestRingClose_kept (q : Nat) (ring : Nat) (s : State) :
    Res.Gives s s.dev.Kept (execIngestRingClose q ring s) := by
  unfold execIngestRingClose
  exact kept_startCmd (fun d c => ⟨fun h => by simp (maxDischargeDepth := 12) [*], by simp⟩)

theorem execTableLoad_kept (q : Nat) (kind : Nat) (src : Nat) (len : Nat) (s : State) :
    Res.Gives s s.dev.Kept (execTableLoad q kind src len s) := by
  unfold execTableLoad
  exact kept_startCmd (fun d c => ⟨fun h => by simp (maxDischargeDepth := 12) [*], by simp⟩)

theorem execTableLoadDone_kept (kind num : Nat) (s : State) : Res.Gives s s.dev.Kept (execTableLoadDone kind num s) := by
  unfold execTableLoadDone
  refine gives_eventOpt (Dev.Kept.refl _) (fun d' e => ?_)
  split at e
  · split at e <;> simp only [Option.some.injEq, reduceCtorEq] at e
    subst e
    exact ⟨fun h => Dev.tableEnds_sound _ _ h, Dev.tableEnds_otp _ _⟩
  · simp at e

theorem execIngestReport_kept (q : Nat) (dest : Nat) (s : State) : Res.Gives s s.dev.Kept (execIngestReport q dest s) := by
  unfold execIngestReport
  repeat' (first
    | exact gives_next (Dev.Kept.refl _)
    | with_reducible refine kept_startCmd (fun d c => ?_)
    | with_reducible refine kept_startCmdLen (fun d c => ?_)
    | with_reducible refine kept_doneAt _ _ ?_
    | with_reducible refine kept_eventFlips (fun d' e => ?_)
    | with_reducible refine gives_eventOpt (Dev.Kept.refl _) (fun d' e => ?_)
    | with_reducible refine gives_event (Dev.Kept.refl _) (fun _ => ?_)
    | with_reducible refine gives_nextDev ?_
    | with_reducible refine gives_ite (fun _ => ?_) (fun _ => ?_)
    | with_reducible refine kept_chanWrite ?_
    | (refine ⟨fun h => ?_, ?_⟩ <;> simp (maxDischargeDepth := 12) [*]; done))

theorem execHullerJobTake_kept (ring : Nat) (s : State) :
    Res.Gives s s.dev.Kept (execHullerJobTake ring s) := by
  unfold execHullerJobTake
  exact gives_event (Dev.Kept.refl _) (fun _ => ⟨fun h => by simp (maxDischargeDepth := 12) [*], by simp⟩)

theorem execHullerJobStart_kept (block : Nat) (s : State) :
    Res.Gives s s.dev.Kept (execHullerJobStart block s) := by
  unfold execHullerJobStart
  exact gives_eventOpt (Dev.Kept.refl _) (fun d' e => ⟨fun h => Dev.startJob_sound _ _ h e, Dev.startJob_otp _ _ e⟩)

theorem execHullerLivePreempt_kept (block : Nat) (s : State) :
    Res.Gives s s.dev.Kept (execHullerLivePreempt block s) := by
  unfold execHullerLivePreempt
  exact gives_eventOpt (Dev.Kept.refl _) (fun d' e => ⟨fun h => Dev.preemptJob_sound _ _ h e, Dev.preemptJob_otp _ _ e⟩)

theorem execHullerJobComplete_kept (block : Nat) (flips : List Nat) (ctxBad : Bool) (s : State) :
    Res.Gives s s.dev.Kept (execHullerJobComplete block flips ctxBad s) := by
  unfold execHullerJobComplete
  exact gives_eventOpt (Dev.Kept.refl _) (fun d' e => ⟨fun h => Dev.completeJob_sound _ _ _ _ h e, Dev.completeJob_otp _ _ _ _ e⟩)

theorem execStreamOpen_kept (q : Nat) (record : Nat) (s : State) :
    Res.Gives s s.dev.Kept (execStreamOpen q record s) := by
  unfold execStreamOpen
  exact kept_startCmd (fun d c => ⟨fun h => by simp (maxDischargeDepth := 12) [*], by simp⟩)

theorem execStreamClose_kept (q : Nat) (stream : Nat) (s : State) :
    Res.Gives s s.dev.Kept (execStreamClose q stream s) := by
  unfold execStreamClose
  exact kept_startCmd (fun d c => ⟨fun h => by simp (maxDischargeDepth := 12) [*], by simp⟩)

theorem execLiveTaskComplete_kept (stream : Nat) (s : State) :
    Res.Gives s s.dev.Kept (execLiveTaskComplete stream s) := by
  unfold execLiveTaskComplete
  exact gives_eventOpt (Dev.Kept.refl _) (fun d' e => ⟨fun h => Dev.taskEnds_sound _ _ h e, Dev.taskEnds_otp _ _ e⟩)

theorem execLiveTaskStart_kept (stream : Nat) (s : State) :
    Res.Gives s s.dev.Kept (execLiveTaskStart stream s) := by
  unfold execLiveTaskStart
  exact gives_eventOpt (Dev.Kept.refl _) (fun d' e => ⟨fun h => Dev.taskStarts_sound _ _ h e, Dev.taskStarts_otp _ _ e⟩)

theorem execContextSaveDone_kept (core : Nat) (s : State) :
    Res.Gives s s.dev.Kept (execContextSaveDone core s) := by
  unfold execContextSaveDone
  exact gives_eventOpt (Dev.Kept.refl _) (fun d' e => ⟨fun h => Dev.saveDone_sound _ _ h e, Dev.saveDone_otp _ _ e⟩)

theorem execQuantumExpiry_kept (core : Nat) (s : State) :
    Res.Gives s s.dev.Kept (execQuantumExpiry core s) := by
  unfold execQuantumExpiry
  exact gives_event (Dev.Kept.refl _) (fun _ => ⟨fun h => by simp (maxDischargeDepth := 12) [*], by simp⟩)

theorem execContextRestoreDone_kept (core : Nat) (s : State) :
    Res.Gives s s.dev.Kept (execContextRestoreDone core s) := by
  unfold execContextRestoreDone
  exact gives_event (Dev.Kept.refl _) (fun _ => ⟨fun h => by simp (maxDischargeDepth := 12) [*], by simp⟩)

theorem execLiveDeadline_kept (stream : Nat) (s : State) :
    Res.Gives s s.dev.Kept (execLiveDeadline stream s) := by
  unfold execLiveDeadline
  exact gives_eventOpt (Dev.Kept.refl _) (fun d' e => ⟨fun h => Dev.deadline_sound _ _ h e, Dev.deadline_otp _ _ e⟩)

theorem execSampleTake_kept (ring : Nat) (s : State) :
    Res.Gives s s.dev.Kept (execSampleTake ring s) := by
  unfold execSampleTake
  exact gives_event (Dev.Kept.refl _) (fun _ => ⟨fun h => by simp (maxDischargeDepth := 12) [*], by simp⟩)

theorem execShaperPicture_kept (s : State) :
    Res.Gives s s.dev.Kept (execShaperPicture s) := by
  unfold execShaperPicture
  exact gives_eventOpt (Dev.Kept.refl _) (fun d' e => ⟨fun h => Dev.shapeNext_sound _ h e, Dev.shapeNext_otp _ e⟩)

theorem execSampleBudgetExpiry_kept (ordinal : Nat) (s : State) :
    Res.Gives s s.dev.Kept (execSampleBudgetExpiry ordinal s) := by
  unfold execSampleBudgetExpiry
  exact gives_eventOpt (Dev.Kept.refl _) (fun d' e => ⟨fun h => Dev.budgetEnds_sound _ _ h e, Dev.budgetEnds_otp _ _ e⟩)

theorem execBatchDeadline_kept (batch : Nat) (s : State) :
    Res.Gives s s.dev.Kept (execBatchDeadline batch s) := by
  unfold execBatchDeadline
  exact gives_eventOpt (Dev.Kept.refl _) (fun d' e => ⟨fun h => Dev.deadlineEnds_sound _ _ h e, Dev.deadlineEnds_otp _ _ e⟩)

theorem execBatchReady_kept (batch : Nat) (s : State) :
    Res.Gives s s.dev.Kept (execBatchReady batch s) := by
  unfold execBatchReady
  exact gives_eventOpt (Dev.Kept.refl _) (fun d' e => ⟨fun h => Dev.readyBatch_sound _ _ h e, Dev.readyBatch_otp _ _ e⟩)

theorem execLiveInputReady_kept (stream : Nat) (s : State) :
    Res.Gives s s.dev.Kept (execLiveInputReady stream s) := by
  unfold execLiveInputReady
  exact gives_eventOpt (Dev.Kept.refl _) (fun d' e => ⟨fun h => Dev.liveReady_sound _ _ h e, Dev.liveReady_otp _ _ e⟩)

end Sys2Proof.Machine
end

