-- ==== Sys2Proof/Laws/CommandsRest.lean ====
section
/-! SUPPORT. The remaining commands and events: each answers a next state with the same queue and a sound device. -/

namespace Sys2Proof.Machine

theorem execDescriptorIssue_kept (core : Nat) (flips : List Nat) (s : State) :
    Res.Gives s s.dev.Kept (execDescriptorIssue core flips s) := by
  unfold execDescriptorIssue
  exact kept_eventFlips (fun d' e => ⟨fun h => Dev.issueFrom_sound _ _ _ h e, Dev.issueFrom_otp _ _ _ e⟩)

theorem execMatmulComplete_kept (core : Nat) (engine : Nat) (flips : List Nat) (s : State) :
    Res.Gives s s.dev.Kept (execMatmulComplete core engine flips s) := by
  unfold execMatmulComplete
  exact kept_eventFlips (fun d' e => ⟨fun h => Dev.engineDone_sound _ _ _ _ _ h e, Dev.engineDone_otp _ _ _ _ _ e⟩)

theorem execConvComplete_kept (core : Nat) (engine : Nat) (flips : List Nat) (s : State) :
    Res.Gives s s.dev.Kept (execConvComplete core engine flips s) := by
  unfold execConvComplete
  exact kept_eventFlips (fun d' e => ⟨fun h => Dev.engineDone_sound _ _ _ _ _ h e, Dev.engineDone_otp _ _ _ _ _ e⟩)

theorem execCombineComplete_kept (core : Nat) (engine : Nat) (flips : List Nat) (s : State) :
    Res.Gives s s.dev.Kept (execCombineComplete core engine flips s) := by
  unfold execCombineComplete
  exact kept_eventFlips (fun d' e => ⟨fun h => Dev.engineDone_sound _ _ _ _ _ h e, Dev.engineDone_otp _ _ _ _ _ e⟩)

theorem execVectorComplete_kept (core : Nat) (flips : List Nat) (s : State) :
    Res.Gives s s.dev.Kept (execVectorComplete core flips s) := by
  unfold execVectorComplete
  exact kept_eventFlips (fun d' e => ⟨fun h => Dev.vectorDone_sound _ _ _ h e, Dev.vectorDone_otp _ _ _ e⟩)

theorem execAttentionComplete_kept (core : Nat) (flips : List Nat) (s : State) :
    Res.Gives s s.dev.Kept (execAttentionComplete core flips s) := by
  unfold execAttentionComplete
  exact kept_eventFlips (fun d' e => ⟨fun h => Dev.attnDone_sound _ _ _ h e, Dev.attnDone_otp _ _ _ e⟩)

theorem execMoveArrival_kept (core : Nat) (s : State) :
    Res.Gives s s.dev.Kept (execMoveArrival core s) := by
  unfold execMoveArrival
  exact gives_eventOpt (Dev.Kept.refl _) (fun d' e => ⟨fun h => Dev.arrive_sound _ _ h e, Dev.arrive_otp _ _ e⟩)

theorem execStopPointReached_kept (core : Nat) (engine : Nat) (tiles : Nat) (flips : List Nat) (s : State) :
    Res.Gives s s.dev.Kept (execStopPointReached core engine tiles flips s) := by
  unfold execStopPointReached
  exact kept_eventFlips (fun d' e => ⟨fun h => Dev.stopAt__sound _ _ _ _ _ h e, Dev.stopAt__otp _ _ _ _ _ e⟩)

theorem execCounterArm_kept (pod : Nat) (counter : Nat) (s : State) :
    Res.Gives s s.dev.Kept (execCounterArm pod counter s) := by
  unfold execCounterArm
  exact gives_eventOpt (Dev.Kept.refl _) (fun d' e => ⟨fun h => Dev.arm_sound _ _ _ h e, Dev.arm_otp _ _ _ e⟩)

theorem execTileCompletion_kept (core : Nat) (s : State) :
    Res.Gives s s.dev.Kept (execTileCompletion core s) := by
  unfold execTileCompletion
  exact gives_eventOpt (Dev.Kept.refl _) (fun d' e => ⟨fun h => Dev.tileDone_sound _ _ h e, Dev.tileDone_otp _ _ e⟩)

theorem execTileClaim_kept (core : Nat) (s : State) :
    Res.Gives s s.dev.Kept (execTileClaim core s) := by
  unfold execTileClaim
  exact gives_eventOpt (Dev.Kept.refl _) (fun d' e => ⟨fun h => Dev.claim_sound _ _ h e, Dev.claim_otp _ _ e⟩)

theorem execReissueTimeout_kept (pod : Nat) (counter : Nat) (index : Nat) (s : State) :
    Res.Gives s s.dev.Kept (execReissueTimeout pod counter index s) := by
  unfold execReissueTimeout
  exact gives_eventOpt (Dev.Kept.refl _) (fun d' e => ⟨fun h => Dev.reissue_sound _ _ _ _ h e, Dev.reissue_otp _ _ _ _ e⟩)

theorem execPageArrival_kept (src : Nat) (flips : List Nat) (s : State) :
    Res.Gives s s.dev.Kept (execPageArrival src flips s) := by
  unfold execPageArrival
  exact kept_eventFlips (fun d' e => ⟨fun h => Dev.pageIn_sound _ _ _ h e, Dev.pageIn_otp _ _ _ e⟩)

theorem execGradientChunkArrival_kept (pod : Nat) (flips : List Nat) (s : State) :
    Res.Gives s s.dev.Kept (execGradientChunkArrival pod flips s) := by
  unfold execGradientChunkArrival
  exact kept_eventFlips (fun d' e => ⟨fun h => Dev.chunkIn_sound _ _ _ h e, Dev.chunkIn_otp _ _ _ e⟩)

theorem execUpdatePassComplete_kept (unit : Nat) (flips : List Nat) (s : State) :
    Res.Gives s s.dev.Kept (execUpdatePassComplete unit flips s) := by
  unfold execUpdatePassComplete
  exact kept_eventFlips (fun d' e => ⟨fun h => Dev.passEnds_sound _ _ _ h e, Dev.passEnds_otp _ _ _ e⟩)

theorem execStageBlockArrival_kept (flips : List Nat) (s : State) :
    Res.Gives s s.dev.Kept (execStageBlockArrival flips s) := by
  unfold execStageBlockArrival
  exact kept_eventFlips (fun d' e => ⟨fun h => Dev.stageIn_sound _ _ h e, Dev.stageIn_otp _ _ e⟩)

theorem execWritebackArrival_kept (block : Nat) (flips : List Nat) (s : State) :
    Res.Gives s s.dev.Kept (execWritebackArrival block flips s) := by
  unfold execWritebackArrival
  exact kept_eventFlips (fun d' e => ⟨fun h => Dev.writtenBack_sound _ _ _ h e, Dev.writtenBack_otp _ _ _ e⟩)

theorem execMulticastArrival_kept (pod : Nat) (layer : Nat) (flips : List Nat) (s : State) :
    Res.Gives s s.dev.Kept (execMulticastArrival pod layer flips s) := by
  unfold execMulticastArrival
  exact kept_eventFlips (fun d' e => ⟨fun h => Dev.multicastIn_sound _ _ _ _ h e, Dev.multicastIn_otp _ _ _ _ e⟩)

theorem execMoveComplete_kept (core : Nat) (flips : List Nat) (s : State) :
    Res.Gives s s.dev.Kept (execMoveComplete core flips s) := by
  unfold execMoveComplete
  exact kept_eventFlips (fun d' e => ⟨fun h => Dev.moveDone_sound _ _ _ h e, Dev.moveDone_otp _ _ _ e⟩)

theorem execChannelClaim_kept (q : Nat) (resource : Nat) (s : State) :
    Res.Gives s s.dev.Kept (execChannelClaim q resource s) := by
  unfold execChannelClaim
  exact kept_startCmd (fun d c => kept_doneAt _ _ ⟨fun h => by simp (maxDischargeDepth := 12) [*], by simp⟩)

theorem execChannelRelease_kept (q : Nat) (resource : Nat) (s : State) :
    Res.Gives s s.dev.Kept (execChannelRelease q resource s) := by
  unfold execChannelRelease
  exact kept_startCmd (fun d c => ⟨fun h => by simp (maxDischargeDepth := 12) [*], by simp⟩)

theorem execChannelTail_kept (port : Nat) (channel : Nat) (value : Nat) (s : State) :
    Res.Gives s s.dev.Kept (execChannelTail port channel value s) := by
  unfold execChannelTail
  exact kept_chanWrite ⟨fun h => by simp (maxDischargeDepth := 12) [*], by simp⟩

theorem execChannelStart_kept (port : Nat) (channel : Nat) (s : State) :
    Res.Gives s s.dev.Kept (execChannelStart port channel s) := by
  unfold execChannelStart
  exact kept_chanWrite ⟨fun h => by simp (maxDischargeDepth := 12) [*], by simp⟩

theorem execChannelPause_kept (port : Nat) (channel : Nat) (s : State) :
    Res.Gives s s.dev.Kept (execChannelPause port channel s) := by
  unfold execChannelPause
  exact kept_chanWrite ⟨fun h => by simp (maxDischargeDepth := 12) [*], by simp⟩

theorem execChannelResume_kept (port : Nat) (channel : Nat) (s : State) :
    Res.Gives s s.dev.Kept (execChannelResume port channel s) := by
  unfold execChannelResume
  exact kept_chanWrite ⟨fun h => by simp (maxDischargeDepth := 12) [*], by simp⟩

theorem execChannelRetry_kept (port : Nat) (channel : Nat) (s : State) :
    Res.Gives s s.dev.Kept (execChannelRetry port channel s) := by
  unfold execChannelRetry
  exact kept_chanWrite ⟨fun h => by simp (maxDischargeDepth := 12) [*], by simp⟩

theorem execChannelSkip_kept (port : Nat) (channel : Nat) (s : State) :
    Res.Gives s s.dev.Kept (execChannelSkip port channel s) := by
  unfold execChannelSkip
  exact kept_chanWrite ⟨fun h => by simp (maxDischargeDepth := 12) [*], by simp⟩

theorem execChannelReset_kept (port : Nat) (channel : Nat) (s : State) :
    Res.Gives s s.dev.Kept (execChannelReset port channel s) := by
  unfold execChannelReset
  exact kept_chanWrite ⟨fun h => by simp (maxDischargeDepth := 12) [*], by simp⟩

theorem execChannelQuiesced_kept (channel : Nat) (s : State) :
    Res.Gives s s.dev.Kept (execChannelQuiesced channel s) := by
  unfold execChannelQuiesced
  exact gives_event (Dev.Kept.refl _) (fun _ => ⟨fun h => by simp (maxDischargeDepth := 12) [*], by simp⟩)

theorem execMoverBurst_kept (engine : Nat) (flips : List Nat) (s : State) :
    Res.Gives s s.dev.Kept (execMoverBurst engine flips s) := by
  unfold execMoverBurst
  exact kept_eventFlips (fun d' e => ⟨fun h => Dev.moverBurst_sound _ _ _ h e, Dev.moverBurst_otp _ _ _ e⟩)

theorem execDescriptorWriteBack_kept (channel : Nat) (s : State) :
    Res.Gives s s.dev.Kept (execDescriptorWriteBack channel s) := by
  unfold execDescriptorWriteBack
  exact gives_event (Dev.Kept.refl _) (fun _ => ⟨fun h => by simp (maxDischargeDepth := 12) [*], by simp⟩)

theorem execMoverFenceDone_kept (channel : Nat) (s : State) :
    Res.Gives s s.dev.Kept (execMoverFenceDone channel s) := by
  unfold execMoverFenceDone
  exact gives_event (Dev.Kept.refl _) (fun _ => ⟨fun h => by simp (maxDischargeDepth := 12) [*], by simp⟩)

theorem execMoverFault_kept (channel status addr : Nat) (s : State) : Res.Gives s s.dev.Kept (execMoverFault channel status addr s) := by
  unfold execMoverFault
  dsimp only
  split
  · exact gives_workEvent (Dev.Kept.refl _) (fun _ => ⟨fun h => Dev.chanFail_sound _ _ _ _ _ h, Dev.chanFail_otp _ _ _ _ _⟩)
  · exact gives_next (Dev.Kept.refl _)

theorem execHostTransferTimeout_kept (channel : Nat) (s : State) : Res.Gives s s.dev.Kept (execHostTransferTimeout channel s) := by
  unfold execHostTransferTimeout
  dsimp only
  split
  · exact gives_next (Dev.Kept.refl _)
  · exact gives_workEvent (Dev.Kept.refl _) (fun _ => ⟨fun h => Dev.chanFail_sound _ _ _ _ _ h, Dev.chanFail_otp _ _ _ _ _⟩)

theorem execPortReset_kept (port : Nat) (s : State) :
    Res.Gives s s.dev.Kept (execPortReset port s) := by
  unfold execPortReset
  exact gives_event (Dev.Kept.refl _) (fun _ => ⟨fun h => by simp (maxDischargeDepth := 12) [*], by simp⟩)

theorem execResetNAssert_kept (s : State) : Res.Gives s s.dev.Kept (execResetNAssert s) := by
  unfold execResetNAssert
  repeat' (first
    | exact gives_next (Dev.Kept.refl _)
    | with_reducible refine kept_startCmd (fun d c => ?_)
    | with_reducible refine kept_startCmdLen (fun d c => ?_)
    | with_reducible refine kept_doneAt _ _ ?_
    | with_reducible refine kept_eventFlips (fun d' e => ?_)
    | with_reducible refine gives_eventOpt (Dev.Kept.refl _) (fun d' e => ?_)
    | with_reducible refine gives_event (Dev.Kept.refl _) (fun _ => ?_)
    | with_reducible refine gives_nextDev ?_
    | with_reducible refine gives_ite (fun _ => ?_) (fun _ => ?_)
    | with_reducible refine kept_chanWrite ?_
    | (refine ⟨fun h => ?_, ?_⟩ <;> simp (maxDischargeDepth := 12) [*]; done)
    | (refine ⟨fun h => ?_, ?_⟩ <;> (repeat' split) <;> simp (maxDischargeDepth := 12) [*]; done))

theorem execResetNRelease_lawful (s : State) : Res.Gives s s.dev.Lawful (execResetNRelease s) := by
  unfold execResetNRelease
  dsimp only
  refine gives_ite (fun _ => gives_nextDev ?_) (fun _ => gives_next (Dev.Lawful.refl _))
  refine ⟨fun h => Dev.startZero_sound _ ?_, ?_⟩
  · exact (Dev.sound_mk ..).2 ⟨h.log, memory_keepHost _ h.mem, poison_keepHost _ h.poison, rfl⟩
  · exact Dev.startZero_step_of _ rfl

theorem execVddAonRise_kept (s : State) :
    Res.Gives s s.dev.Kept (execVddAonRise s) := by
  unfold execVddAonRise
  exact gives_ite (fun _ => gives_nextDev ⟨fun h => by simp (maxDischargeDepth := 12) [*], by simp⟩) (fun _ => gives_next (Dev.Kept.refl _))

theorem execFirmwareVerified_lawful (a b : Nat) (s : State) : Res.Gives s s.dev.Lawful (execFirmwareVerified a b s) := by
  unfold execFirmwareVerified
  extract_lets d p first out second p1 p2
  clear_value first out second
  have h1 : p1.otp = s.dev.plat.otp := by
    simp only [p1]
    split <;> rfl
  have hl : LogOk s.dev.plat.faultLog s.dev.plat.faultLost → LogOk p1.faultLog p1.faultLost := by
    intro h
    simp only [p1]
    split <;> exact h
  clear_value p1
  refine gives_ite (fun _ => gives_next (Dev.Lawful.refl _)) (fun _ => gives_ite (fun _ => gives_nextDev ?_) (fun _ => gives_ite (fun _ => gives_nextDev ?_) (fun _ => ?_)))
  · exact ⟨fun h => Dev.failStart_sound _ _ h, Otp.Step.of_eq (Dev.failStart_otp _ _)⟩
  · exact ⟨fun h => Dev.failStart_sound _ _ ((Dev.sound_mk ..).2 ⟨hl h.log, h.mem, h.poison, h.ctr⟩), Otp.Step.of_eq ((Dev.failStart_otp _ _).trans h1)⟩
  · have h2 : s.dev.plat.otp.Step p2.otp := (Otp.Step.of_eq h1).trans (Plat.runImage_step _ _)
    have hl2 : LogOk s.dev.plat.faultLog s.dev.plat.faultLost → LogOk p2.faultLog p2.faultLost := fun h => Plat.runImage_sound _ _ (hl h)
    clear_value p2
    split
    · exact gives_nextDev ⟨fun h => Dev.failStart_sound _ _ ((Dev.sound_mk ..).2 ⟨hl2 h.log, h.mem, h.poison, h.ctr⟩),
        h2.trans (Otp.Step.of_eq (Dev.failStart_otp _ _))⟩
    · refine gives_nextDev ⟨fun h => Dev.askOn_sound _ _ (Dev.summaryIrq_sound _ _
        ((Dev.sound_mk ..).2 ⟨Plat.takeConfig_sound _ _ (hl2 h.log), h.mem, h.poison, h.ctr⟩) h.log), h2.trans (Otp.Step.of_eq ?_)⟩
      exact (Dev.askOn_otp _ _).trans ((Dev.summaryIrq_otp _ _).trans (Plat.takeConfig_otp _ _))

theorem execD2dTrained_kept (ok : Bool) (s : State) : Res.Gives s s.dev.Kept (execD2dTrained ok s) := by
  unfold execD2dTrained
  refine gives_ite (fun _ => gives_ite (fun _ => gives_nextDev ?_) (fun _ => gives_nextDev ?_)) (fun _ => gives_next (Dev.Kept.refl _))
  · exact ⟨fun h => ⟨h.mem, h.poison, h.ctr, Plat.trained_sound _ h.log⟩, Plat.trained_otp _⟩
  · exact ⟨fun h => Dev.failStart_sound _ _ h, Dev.failStart_otp _ _⟩

theorem execGddr7Trained_kept (ok : Bool) (s : State) : Res.Gives s s.dev.Kept (execGddr7Trained ok s) := by
  unfold execGddr7Trained
  refine gives_ite (fun _ => gives_ite (fun _ => gives_nextDev ?_) (fun _ => gives_nextDev ?_)) (fun _ => gives_next (Dev.Kept.refl _))
  · exact ⟨fun h => ⟨h.mem, h.poison, h.ctr, Plat.trained_sound _ h.log⟩, Plat.trained_otp _⟩
  · exact ⟨fun h => Dev.failStart_sound _ _ h, Dev.failStart_otp _ _⟩

theorem execSelfTestDone_kept (failed : Nat) (othersPass : Bool) (s : State) : Res.Gives s s.dev.Kept (execSelfTestDone failed othersPass s) := by
  unfold execSelfTestDone
  extract_lets d p
  refine gives_ite (fun _ => gives_ite (fun _ => gives_ite (fun _ => gives_nextDev ?_) (fun _ => gives_next (Dev.Kept.refl _)))
    (fun _ => gives_nextDev ?_)) (fun _ => gives_next (Dev.Kept.refl _))
  · exact ⟨fun h => sound_foldl _ _ _ (fun d id h => Dev.reqOff_sound _ _ _ h) ⟨h.mem, h.poison, h.ctr, h.log⟩,
      otp_foldl _ _ _ (fun d id => Dev.reqOff_otp _ _ _)⟩
  · exact ⟨fun h => Dev.failStart_sound _ _ ⟨h.mem, h.poison, h.ctr, h.log⟩, Dev.failStart_otp _ _⟩

theorem execStartWipeDone_lawful (ok : Bool) (s : State) : Res.Gives s s.dev.Lawful (execStartWipeDone ok s) := by
  unfold execStartWipeDone
  dsimp only
  refine gives_ite (fun _ => gives_ite (fun _ => gives_nextDev ?_) (fun _ => gives_nextDev ?_)) (fun _ => gives_next (Dev.Lawful.refl _))
  · refine ⟨fun h => Dev.alerted_sound _ _ (Dev.settled_sound _ (Dev.ready_sound _ h)) h.log, ?_⟩
    rw [Dev.alerted_otp, Dev.settled_otp]
    exact Dev.ready_step _
  · exact ⟨fun h => Dev.failStart_sound _ _ h, Otp.Step.of_eq (Dev.failStart_otp _ _)⟩

theorem execStartStageTimeout_kept (s : State) : Res.Gives s s.dev.Kept (execStartStageTimeout s) := by
  unfold execStartStageTimeout
  split
  · exact gives_nextDev ⟨fun h => Dev.failStart_sound _ _ h, Dev.failStart_otp _ _⟩
  · exact gives_next (Dev.Kept.refl _)

theorem execHuskRestart_lawful (s : State) : Res.Gives s s.dev.Lawful (execHuskRestart s) := by
  unfold execHuskRestart
  dsimp only
  refine gives_ite (fun _ => gives_nextDev ?_) (fun _ => gives_next (Dev.Lawful.refl _))
  refine ⟨fun h => Dev.alerted_sound _ _ (Dev.huskStart_sound _ h) h.log, ?_⟩
  rw [Dev.alerted_otp]
  exact Dev.huskStart_step _

theorem execAttestTreeDone_kept (s : State) :
    Res.Gives s s.dev.Kept (execAttestTreeDone s) := by
  unfold execAttestTreeDone
  exact gives_event (Dev.Kept.refl _) (fun _ => ⟨fun h => by simp (maxDischargeDepth := 12) [*], by simp⟩)

theorem execJtagInstruction_kept (ir : Nat) (s : State) :
    execJtagInstruction ir s = .refused (.jtagScan ir) ∨ Res.Gives s s.dev.Kept (execJtagInstruction ir s) := by
  unfold execJtagInstruction
  dsimp only
  split
  · exact Or.inr (gives_nextDev ⟨fun h => (Dev.sound_mk ..).2 ⟨h.log, h.mem, h.poison, h.ctr⟩, rfl⟩)
  · split
    · exact Or.inl rfl
    · exact Or.inr (gives_nextDev ⟨fun h => (Dev.sound_mk ..).2 ⟨h.log, h.mem, h.poison, h.ctr⟩, rfl⟩)

theorem execSmbusBlockRead_kept (code : Nat) (s : State) :
    Res.Gives s s.dev.Kept (execSmbusBlockRead code s) := by
  unfold execSmbusBlockRead
  exact gives_event (Dev.Kept.refl _) (fun _ => ⟨fun h => by simp (maxDischargeDepth := 12) [*], by simp⟩)

theorem execSmbusAlertResponse_kept (s : State) :
    Res.Gives s s.dev.Kept (execSmbusAlertResponse s) := by
  unfold execSmbusAlertResponse
  exact gives_event (Dev.Kept.refl _) (fun _ => ⟨fun h => by simp (maxDischargeDepth := 12) [*], by simp⟩)

theorem execFwUpdate_kept (q image src len : Nat) (verifies : Bool) (s : State) : Res.Gives s s.dev.Kept (execFwUpdate q image src len verifies s) := by
  unfold execFwUpdate
  refine kept_startCmd (fun d c => ?_)
  have h0 : d.Kept (d.accept c) := ⟨Dev.accept_sound _ _, Dev.accept_otp _ _⟩
  dsimp only
  split
  · exact h0.trans ⟨fun h => Dev.readFault_sound _ _ _ h, Dev.readFault_otp _ _ _⟩
  · split
    · exact h0.trans ⟨fun h => ⟨h.mem, h.poison, h.ctr, h.log⟩, rfl⟩
    · exact h0.trans ⟨fun h => Dev.finish_sound _ _ _ _ _ h, Dev.finish_otp _ _ _ _ _⟩

theorem execFwUpdateDone_kept (m : Bool) (s : State) : Res.Gives s s.dev.Kept (execFwUpdateDone m s) := by
  unfold execFwUpdateDone
  extract_lets d
  split
  · exact gives_next (Dev.Kept.refl _)
  · extract_lets bytes p p2
    have h1 : p.otp = s.dev.plat.otp := rfl
    have l1 : p.faultLog = s.dev.plat.faultLog ∧ p.faultLost = s.dev.plat.faultLost := ⟨rfl, rfl⟩
    clear_value p bytes
    have h2 : p2.otp = p.otp := by
      simp only [p2]
      split
      · exact Plat.select_otp _ _
      · rfl
    have l2 : LogOk p.faultLog p.faultLost → LogOk p2.faultLog p2.faultLost := by
      intro h
      simp only [p2]
      split
      · exact Plat.select_sound _ _ h
      · exact h
    clear_value p2
    refine gives_nextDev ⟨fun h => Dev.finish_sound _ _ _ _ _ ((Dev.sound_mk ..).2 ⟨l2 ?_, h.mem, h.poison, h.ctr⟩),
      (Dev.finish_otp _ _ _ _ _).trans (h2.trans h1)⟩
    rw [l1.1, l1.2]
    exact h.log

theorem execFwSelect_kept (q : Nat) (image : Nat) (verifies : Bool) (s : State) :
    Res.Gives s s.dev.Kept (execFwSelect q image verifies s) := by
  unfold execFwSelect
  exact kept_startCmd (fun d c => kept_doneAt _ _ ⟨fun h => by simp (maxDischargeDepth := 12) [*], by simp⟩)

theorem execLifecycle_lawful (q target cred credLen : Nat) (verifies : Bool) (seed key : Nat) (s : State) :
    Res.Gives s s.dev.Lawful (execLifecycle q target cred credLen verifies seed key s) := by
  unfold execLifecycle
  dsimp only
  refine lawful_startCmd (fun d c h => ?_) (fun d c hp hd => ?_)
  · split
    · exact Dev.readFault_sound _ _ _ (Dev.accept_sound _ _ h)
    · have h1 := Dev.lcWipe_sound _ c.id (Dev.accept_sound d c h)
      generalize (d.accept c).lcWipe c.id = e at h1 ⊢
      generalize rdNat d.mem (cred % 2 ^ 48) 64 = hdr
      have hb : ({ e with plat := e.plat.lcBurn target hdr seed } : Dev).Sound := ⟨h1.mem, h1.poison, h1.ctr, Plat.lcBurn_sound _ _ _ _ h1.log⟩
      have h2 := Dev.summaryIrq_sound _ e.plat hb h1.log
      generalize Dev.summaryIrq { e with plat := e.plat.lcBurn target hdr seed } e.plat = f at h2 ⊢
      exact Dev.finish_sound _ _ _ _ _ ⟨h2.mem, h2.poison, h2.ctr, h2.log⟩
  · simp only [Bool.not_eq_false'] at hd
    rw [← hp] at hd
    split
    · exact Otp.Step.of_eq ((Dev.readFault_otp _ _ _).trans (Dev.accept_otp _ _))
    · rw [Dev.finish_otp]
      have hw : ((d.accept c).lcWipe c.id).plat.otp = d.plat.otp := (Dev.lcWipe_otp _ _).trans (Dev.accept_otp _ _)
      generalize (d.accept c).lcWipe c.id = e at hw ⊢
      generalize rdNat d.mem (cred % 2 ^ 48) 64 = hdr
      have hb := Plat.lcBurn_step e.plat target hdr seed (by rw [hw]; exact fun hl => Plat.transition_may _ _ hl hd)
      rw [hw] at hb
      have h2 := Dev.summaryIrq_otp { e with plat := e.plat.lcBurn target hdr seed } e.plat
      generalize Dev.summaryIrq { e with plat := e.plat.lcBurn target hdr seed } e.plat = f at h2 ⊢
      exact hb.trans (Otp.Step.of_eq h2)

theorem execLifecycleRestart_kept (s : State) : Res.Gives s s.dev.Kept (execLifecycleRestart s) := by
  unfold execLifecycleRestart
  dsimp only
  split
  · refine gives_ite (fun _ => gives_nextDev ?_) (fun _ => gives_next (Dev.Kept.refl _))
    exact ⟨fun h => Dev.alerted_sound _ _ (Dev.resetNow_sound _ h) h.log, (Dev.alerted_otp _ _).trans (Dev.resetNow_otp _)⟩
  · exact gives_next (Dev.Kept.refl _)

theorem execAttest_kept (q : Nat) (nonce : Nat) (dest : Nat) (len : Nat) (signature : List Byte) (s : State) : Res.Gives s s.dev.Kept (execAttest q nonce dest len signature s) := by
  unfold execAttest
  repeat' (first
    | exact gives_next (Dev.Kept.refl _)
    | with_reducible refine kept_startCmd (fun d c => ?_)
    | with_reducible refine kept_startCmdLen (fun d c => ?_)
    | with_reducible refine kept_doneAt _ _ ?_
    | with_reducible refine kept_eventFlips (fun d' e => ?_)
    | with_reducible refine gives_eventOpt (Dev.Kept.refl _) (fun d' e => ?_)
    | with_reducible refine gives_event (Dev.Kept.refl _) (fun _ => ?_)
    | with_reducible refine gives_nextDev ?_
    | with_reducible refine gives_ite (fun _ => ?_) (fun _ => ?_)
    | with_reducible refine kept_chanWrite ?_
    | (refine ⟨fun h => ?_, ?_⟩ <;> simp (maxDischargeDepth := 12) [*]; done))

theorem execRunConfig_kept (q : Nat) (plan : Nat) (run : Nat) (s : State) :
    Res.Gives s s.dev.Kept (execRunConfig q plan run s) := by
  unfold execRunConfig
  exact kept_startCmd (fun d c => kept_doneAt _ _ ⟨fun h => by simp (maxDischargeDepth := 12) [*], by simp⟩)

theorem execGroupWrite_kept (q : Nat) (plan : Nat) (group : Nat) (step : Nat) (record : Nat) (s : State) :
    Res.Gives s s.dev.Kept (execGroupWrite q plan group step record s) := by
  unfold execGroupWrite
  exact kept_startCmd (fun d c => kept_doneAt _ _ ⟨fun h => by simp (maxDischargeDepth := 12) [*], by simp⟩)

theorem execStateLoad_kept (q : Nat) (plan : Nat) (src : Nat) (len : Nat) (s : State) :
    Res.Gives s s.dev.Kept (execStateLoad q plan src len s) := by
  unfold execStateLoad
  exact kept_startCmd (fun d c => ⟨fun h => by simp (maxDischargeDepth := 12) [*], by simp⟩)

theorem execStateLoadDone_kept (plan : Nat) (flips : List Nat) (s : State) : Res.Gives s s.dev.Kept (execStateLoadDone plan flips s) := by
  unfold execStateLoadDone
  exact kept_eventFlips (fun d' e => ⟨fun h => Dev.stateEnds_sound _ _ _ _ (fun d c a n h => Dev.loadState_sound _ _ _ _ _ h) h e,
    Dev.stateEnds_otp _ _ _ _ (fun d c a n => Dev.loadState_otp _ _ _ _ _) e⟩)

theorem execStateSave_kept (q : Nat) (plan : Nat) (dest : Nat) (len : Nat) (s : State) :
    Res.Gives s s.dev.Kept (execStateSave q plan dest len s) := by
  unfold execStateSave
  exact kept_startCmd (fun d c => ⟨fun h => by simp (maxDischargeDepth := 12) [*], by simp⟩)

theorem execStateSaveDone_kept (plan : Nat) (flips : List Nat) (s : State) : Res.Gives s s.dev.Kept (execStateSaveDone plan flips s) := by
  unfold execStateSaveDone
  exact kept_eventFlips (fun d' e => ⟨fun h => Dev.stateEnds_sound _ _ _ _ (fun d c a n h => Dev.saveState_sound _ _ _ _ _ h) h e,
    Dev.stateEnds_otp _ _ _ _ (fun d c a n => Dev.saveState_otp _ _ _ _ _) e⟩)

end Sys2Proof.Machine
end

