-- ==== Sys2Proof/Laws/Reply.lean ====
section
/-! SUPPORT. The reply path: what replies, refusals and the start and end of commands change, and what they leave alone. -/

namespace Sys2Proof.Machine

/-! ## Memory -/

/-- A byte outside the stored range reads as before. -/
theorem rdByte_wrBytes_other (bs : List Byte) : ∀ (m : Tab Byte) (a x : Nat), (x < a ∨ a + bs.length ≤ x) → rdByte (wrBytes m a bs) x = rdByte m x := by
  induction bs with
  | nil => intros; rfl
  | cons b bs ih =>
    intro m a x h
    simp only [List.length_cons] at h
    simp only [wrBytes]
    rw [ih _ _ _ (by omega)]
    simp only [rdByte]
    exact Tab.get_set_other 0 b m a x (by omega)

/-- A byte of the stored range reads as stored. -/
theorem rdByte_wrBytes (bs : List Byte) : ∀ (m : Tab Byte) (a i : Nat) (h : i < bs.length), rdByte (wrBytes m a bs) (a + i) = bs[i] := by
  induction bs with
  | nil => intro m a i h; simp at h
  | cons b bs ih =>
    intro m a i h
    simp only [wrBytes]
    cases i with
    | zero =>
      rw [rdByte_wrBytes_other _ _ _ _ (by omega)]
      simp [rdByte]
    | succ i =>
      have := ih (Tab.set 0 m a b) (a + 1) i (by simpa using h)
      rw [show a + (i + 1) = a + 1 + i by omega, this]
      simp

/-- The stored range reads as stored. -/
@[simp] theorem rdBytes_wrBytes (m : Tab Byte) (a : Nat) (bs : List Byte) : rdBytes (wrBytes m a bs) a bs.length = bs := by
  refine List.ext_getElem (by simp [rdBytes]) ?_
  intro i h1 h2
  simp only [rdBytes, List.getElem_map, List.getElem_range]
  exact rdByte_wrBytes bs m a i h2

@[simp] theorem leBytes_length (n x : Nat) : (leBytes n x).length = n := by
  induction n generalizing x with
  | zero => rfl
  | succ n ih => simp [leBytes, ih]

/-- The little-endian number of a number's bytes. -/
@[simp] theorem leNat_leBytes (n x : Nat) : leNat (leBytes n x) = x % 256 ^ n := by
  induction n generalizing x with
  | zero => simp [leBytes, leNat, Nat.mod_one]
  | succ n ih =>
    simp only [leBytes, leNat, ih, BitVec.toNat_ofNat]
    rw [show (2 : Nat) ^ 8 = 256 from rfl]
    rw [Nat.pow_succ, Nat.mul_comm (256 ^ n) 256, Nat.mod_mul]

/-- A stored number reads as stored. -/
@[simp] theorem rdNat_wrNat (m : Tab Byte) (a n v : Nat) : rdNat (wrNat m a n v) a n = v % 256 ^ n := by
  have := rdBytes_wrBytes m a (leBytes n v)
  rw [leBytes_length] at this
  simp [rdNat, wrNat, this]

theorem rdByte_wrNat_other (m : Tab Byte) (a n v x : Nat) (h : x < a ∨ a + n ≤ x) : rdByte (wrNat m a n v) x = rdByte m x :=
  rdByte_wrBytes_other _ m a x (by simpa using h)

/-- A wiped byte reads 0; the others read as before. -/
theorem rdByte_wipeRange (m : Tab Byte) (a n x : Nat) : rdByte (wipeRange m a n) x = if a ≤ x ∧ x < a + n then 0 else rdByte m x := by
  induction m with
  | nil => simp [wipeRange, rdByte, Tab.get]
  | cons e m ih =>
    obtain ⟨k, v⟩ := e
    simp only [wipeRange, rdByte, List.filter_cons] at ih ⊢
    split
    · rename_i h
      simp only [Bool.or_eq_true, decide_eq_true_eq] at h
      simp only [Tab.get, ih]
      split
      · rename_i hx; subst hx; rw [if_neg (by omega)]
      · rfl
    · rename_i h
      simp only [Bool.or_eq_true, decide_eq_true_eq, not_or, Nat.not_lt, Nat.not_le] at h
      rw [ih]
      split
      · rfl
      · simp only [Tab.get]; rw [if_neg (by omega)]

@[simp] theorem Dev.put_host (d : Dev) (a : Nat) (bs : List Byte) (bad : Bool) : (d.put a bs bad).host = d.host := rfl
@[simp] theorem Dev.store_host (d : Dev) (a : Nat) (bs : List Byte) : (d.store a bs).host = d.host := rfl
@[simp] theorem Dev.store_mem (d : Dev) (a : Nat) (bs : List Byte) : (d.store a bs).mem = wrBytes d.mem a bs := rfl
@[simp] theorem Dev.store_plat (d : Dev) (a : Nat) (bs : List Byte) : (d.store a bs).plat = d.plat := rfl

/-! ## Queues -/

theorem HostIf.queue_updQueue (h : HostIf) (q x : Nat) (f : Queue → Queue) : (h.updQueue q f).queue x = if x = q then f (h.queue q) else h.queue x := by
  simp only [HostIf.queue, HostIf.updQueue, Tab.get_upd]

@[simp] theorem HostIf.quiet_updQueue (h : HostIf) (q : Nat) (f : Queue → Queue) : (h.updQueue q f).quiet = h.quiet := rfl

/-- A change of a queue block that leaves its registers alone leaves those of every queue alone. -/
theorem HostIf.setup_updQueue (h : HostIf) (q x : Nat) (f : Queue → Queue) (hf : ∀ k, (f k).setup = k.setup) :
    ((h.updQueue q f).queue x).setup = (h.queue x).setup := by
  rw [HostIf.queue_updQueue]
  split
  · rename_i e; subst e; exact hf _
  · rfl

/-! ## The relation -/

/-- Queues alike in their registers have the same reply bytes. -/
theorem Queue.replyByte_congr {k k' : Queue} (h : k.setup = k'.setup) (q a : Nat) : k.replyByte q a ↔ k'.replyByte q a := by
  simp only [Queue.setup, Queue.mk.injEq] at h
  simp only [Queue.replyByte]
  rw [h.2.2.2.2.2.2.2.2.1, h.2.2.2.2.2.2.2.2.2.1, h.2.2.2.2.2.2.2.2.2.2.2.2.1]

theorem Dev.Replied.refl (d : Dev) : d.Replied d := ⟨rfl, fun _ => rfl, fun _ _ => rfl, fun _ _ => rfl, fun _ => rfl⟩

theorem Dev.Replied.trans {a b c : Dev} (h : a.Replied b) (h' : b.Replied c) : a.Replied c :=
  ⟨h'.quiet.trans h.quiet, fun q => (h'.setup q).trans (h.setup q),
   fun x hx => (h'.mem x (fun q hq => hx q ((Queue.replyByte_congr (h.setup q) q x).1 hq))).trans (h.mem x hx),
   fun n hn => (h'.ctr n hn).trans (h.ctr n hn), fun n => (h'.bufs n).trans (h.bufs n)⟩

/-- A device whose host interface alone has changed, in queues, commands in progress, waiting replies and interrupt messages. -/
theorem Dev.Replied.of_host {d : Dev} {h : HostIf} (hq : h.quiet = d.host.quiet) (hs : ∀ q, (h.queue q).setup = (d.host.queue q).setup) :
    d.Replied { d with host := h } :=
  ⟨by simp [Dev.quiet, hq], hs, fun _ _ => rfl, fun _ _ => rfl, fun _ => rfl⟩

theorem HostIf.replyIrq_quiet (h : HostIf) (q now : Nat) : (h.replyIrq q now).quiet = h.quiet := by
  unfold HostIf.replyIrq
  dsimp only
  split
  · rfl
  · split <;> split <;> rfl

theorem HostIf.replyIrq_setup (h : HostIf) (q now x : Nat) : ((h.replyIrq q now).queue x).setup = (h.queue x).setup := by
  unfold HostIf.replyIrq
  dsimp only
  split
  · rfl
  · split
    all_goals
      split
      · exact HostIf.setup_updQueue h q x (fun k => { k with lastIrq := some now, irqHeld := false }) (fun _ => rfl)
      · exact HostIf.setup_updQueue h q x (fun k => { k with irqHeld := true }) (fun _ => rfl)

/-- A byte outside the ring reads as before. -/
theorem rdByte_wrEntries (k : Queue) (x : Nat) (hx : ¬ (k.rqBase ≤ x ∧ x < k.rqBase + 16 * 2 ^ k.rqLog2)) :
    ∀ (es : List Nat) (m : Tab Byte) (i : Nat), rdByte (wrEntries m k i es) x = rdByte m x := by
  intro es
  induction es with
  | nil => intros; rfl
  | cons e es ih =>
    intro m i
    simp only [wrEntries]
    rw [ih]
    have : i % 2 ^ k.rqLog2 < 2 ^ k.rqLog2 := Nat.mod_lt _ (by positivity)
    exact rdByte_wrNat_other _ _ _ _ _ (by omega)

theorem Dev.post_replied (d : Dev) (q : Nat) (es : List Nat) : d.Replied (d.post q es) := by
  unfold Dev.post
  dsimp only
  split
  · exact Dev.Replied.refl d
  · have hh : ∀ f : Queue → Queue, (∀ k, (f k).setup = k.setup) →
        ((d.host.updQueue q f).replyIrq q d.plat.now).quiet = d.host.quiet ∧
        ∀ x, (((d.host.updQueue q f).replyIrq q d.plat.now).queue x).setup = (d.host.queue x).setup := fun f hf =>
      ⟨by rw [HostIf.replyIrq_quiet]; rfl, fun x => by rw [HostIf.replyIrq_setup]; exact HostIf.setup_updQueue _ _ _ _ hf⟩
    obtain ⟨h1, h2⟩ := hh (fun k => { k with rqTail := ((d.host.queue q).rqTail + es.length) % 2 ^ 32 }) (fun _ => rfl)
    refine ⟨by simp only [Dev.quiet]; rw [h1], h2, ?_, fun _ _ => rfl, fun _ => rfl⟩
    intro x hx
    have hq := hx q
    simp only [Queue.replyByte, not_or] at hq
    dsimp only
    split
    · rename_i hw
      rw [rdByte_wrNat_other _ _ _ _ _ (by simp only [hw, true_and] at hq; omega), rdByte_wrEntries _ _ hq.1]
    · exact rdByte_wrEntries _ _ hq.1 _ _ _

theorem Dev.flushGo_replied : ∀ (ws : List SlotReply) (d : Dev), d.Replied (Dev.flushGo ws d) := by
  intro ws
  induction ws with
  | nil => intro d; exact Dev.Replied.refl d
  | cons w ws ih =>
    intro d
    unfold Dev.flushGo
    dsimp only
    split
    · exact ih d
    · split
      · exact (ih d).trans (Dev.Replied.of_host rfl (fun _ => rfl))
      · exact (Dev.post_replied _ _ _).trans (ih _)

theorem Dev.flush_replied (d : Dev) : d.Replied d.flush := by
  unfold Dev.flush
  split
  · exact Dev.Replied.refl d
  · exact (Dev.Replied.of_host (d := d) (h := { d.host with waiting := [] }) rfl (fun _ => rfl)).trans (Dev.flushGo_replied _ _)

theorem Dev.sendReply_replied (d : Dev) (r : SlotReply) : d.Replied (d.sendReply r) := by
  unfold Dev.sendReply
  exact (Dev.Replied.of_host (d := d) (h := { d.host with waiting := d.host.waiting ++ [{ r with since := d.plat.now }] }) rfl
    (fun _ => rfl)).trans (Dev.flush_replied _)

theorem Dev.slotReply_replied (d : Dev) (rq tag beat phase : Nat) : d.Replied (d.slotReply rq tag beat phase) := Dev.sendReply_replied d _

theorem Dev.miss_replied (d : Dev) (stream cause : Nat) (effect : Bool) (frameBeat deadline ready end_ : Nat) :
    d.Replied { d with cad := d.cad.miss stream cause effect frameBeat deadline ready end_ } :=
  ⟨rfl, fun _ => rfl, fun _ _ => rfl, fun _ _ => rfl, fun _ => rfl⟩

theorem Dev.accept_replied (d : Dev) (c : Cmd) : d.Replied (d.accept c) := by
  unfold Dev.accept
  split
  · exact Dev.Replied.refl d
  · exact Dev.post_replied _ _ _

theorem Dev.popHead_replied (d : Dev) (q : Nat) : d.Replied { d with host := d.host.popHead q } :=
  Dev.Replied.of_host rfl (fun x => HostIf.setup_updQueue d.host q x _ (fun _ => rfl))

theorem Dev.refuse_replied (d : Dev) (q : Nat) (p : Packet) (status detail : Nat) (ext : List Nat) : d.Replied (d.refuse q p status detail ext) :=
  (Dev.popHead_replied d q).trans (Dev.post_replied _ _ _)

theorem Dev.noteMiss_replied (d : Dev) (p : Packet) (status : Nat) : d.Replied (d.noteMiss p status) := by
  unfold Dev.noteMiss
  split
  · exact Dev.miss_replied ..
  · exact Dev.Replied.refl d

theorem Dev.replyFault_replied (d : Dev) (q : Nat) : d.Replied { d with host := d.host.replyFault q } :=
  Dev.Replied.of_host rfl (fun x => HostIf.setup_updQueue d.host q x _ (fun _ => rfl))

theorem Dev.settle_replied : ∀ (n : Nat) (d : Dev), d.Replied (Dev.settle n d) := by
  intro n
  induction n with
  | zero => intro d; exact Dev.Replied.refl d
  | succ n ih =>
    intro d
    unfold Dev.settle
    split
    · exact (Dev.replyFault_replied d _).trans (ih _)
    · split
      · exact Dev.Replied.refl d
      · split
        · exact Dev.Replied.refl d
        · split
          · exact Dev.Replied.refl d
          · split
            · exact (Dev.refuse_replied d _ _ _ _ _).trans (ih _)
            · exact (Dev.refuse_replied d _ _ _ _ _).trans (ih _)

theorem Dev.settled_replied (d : Dev) : d.Replied d.settled := Dev.settle_replied _ d

theorem Dev.retire_replied (d : Dev) (c : Cmd) : d.Replied { d with host := d.host.retire c } :=
  Dev.Replied.of_host rfl (fun x => HostIf.setup_updQueue { d.host with inProg := d.host.inProg.filter (fun x => x.id != c.id) } c.rq x _ (fun _ => rfl))

theorem Dev.dropFor_replied (d : Dev) (b : Nat) : d.Replied (d.dropFor b) :=
  ⟨rfl, fun _ => rfl, fun _ _ => rfl, fun _ _ => rfl, fun n => by
    simp only [Dev.dropFor, Dev.updBuf, Obs.buf, Tab.get_upd]
    split
    · rename_i h; subst h; rfl
    · rfl⟩

/-- A trace record is no more than a reply changes. -/
theorem Dev.trace_replied (d : Dev) (type die unit id arg0 arg1 : Nat) : d.Replied (d.trace type die unit id arg0 arg1) := by
  unfold Dev.trace
  split
  · exact Dev.Replied.refl d
  · split
    · refine foldl_keeps (fun e => d.Replied e) Dev.dropFor (fun e b he => he.trans (Dev.dropFor_replied e b)) _ _ ?_
      exact ⟨rfl, fun _ => rfl, fun _ _ => rfl, fun n hn => Tab.get_set_other 0 _ _ _ n (by simpa [cobInst] using hn), fun _ => rfl⟩
    · exact ⟨rfl, fun _ => rfl, fun _ _ => rfl, fun _ _ => rfl, fun _ => rfl⟩

theorem Dev.emitFinal_replied (d : Dev) (c : Cmd) (status detail : Nat) (ext : List Nat) : d.Replied (d.emitFinal c status detail ext) := by
  unfold Dev.emitFinal
  dsimp only
  split
  · exact ((Dev.retire_replied d c).trans (Dev.trace_replied ..)).trans (Dev.flush_replied _) |>.trans (Dev.settled_replied _)
  · exact (((Dev.retire_replied d c).trans (Dev.trace_replied ..)).trans (Dev.post_replied _ _ _)).trans (Dev.flush_replied _)
      |>.trans (Dev.settled_replied _)

theorem Dev.finish_replied (d : Dev) (id status detail : Nat) (ext : List Nat) : d.Replied (d.finish id status detail ext) := by
  unfold Dev.finish
  split
  · exact Dev.Replied.refl d
  · rename_i c _
    extract_lets missed inst
    have h1 : d.Replied (if missed = true then { d with cad := d.cad.miss 63 8 true c.pkt.tag inst 0 d.plat.now } else d) := by
      split
      · exact Dev.miss_replied ..
      · exact Dev.Replied.refl d
    split
    split
    · exact h1.trans (Dev.Replied.of_host rfl (fun _ => rfl))
    · exact h1.trans (Dev.emitFinal_replied _ _ _ _ _)

theorem Dev.begin__replied (d : Dev) (q : Nat) (p : Packet) : d.Replied (d.begin_ q p).1 := by
  unfold Dev.begin_
  extract_lets ids c h
  refine Dev.Replied.trans (b := { d with host := { h with inProg := h.inProg ++ [c], nextCmd := c.id + 1, lastStart := q } })
    (Dev.Replied.of_host rfl (fun x => ?_)) (Dev.trace_replied ..)
  refine Eq.trans (HostIf.setup_updQueue (d.host.popHead q) (q / 8 * 8 + p.queue) x (fun k => { k with reserved := k.reserved + 16 }) ?_)
    (HostIf.setup_updQueue d.host q x (fun k => { k with fetched := k.fetched.tail }) ?_)
  · exact fun _ => rfl
  · exact fun _ => rfl

/-! ## Packet commands -/

/-- Where the common checks find nothing, the command's own checks decide. -/
theorem Dev.refusal_of_passes {d : Dev} {q : Nat} {p : Packet} {len : Nat} {ck : Checks} (h : d.refusal q p len {} = none)
    (h1 : ck.param = none) (h2 : ck.own = none) (h3 : ck.denied = false) : d.refusal q p len ck = none := by
  obtain ⟨a, b, c⟩ := ck
  subst h1 h2 h3
  exact h

/-- Where a common check finds something, the command is refused whatever its own checks find. -/
theorem Dev.refusal_of_refused {d : Dev} {q : Nat} {p : Packet} {len : Nat} {ck : Checks} (h : d.refusal q p len {} ≠ none) :
    d.refusal q p len ck ≠ none := by
  intro hn
  obtain ⟨h1, h2, h3⟩ := Dev.refusal_none hn
  obtain ⟨a, b, c⟩ := ck
  subst h1 h2 h3
  exact h hn

/-- The command's head, its checks and its refusal. -/
theorem startCmdLen_refused {s : State} {q op : Nat} {lay args : List Nat} {len : Nat} {ck : Dev → Checks} {eff : Dev → Cmd → Dev} {p : Packet}
    (hh : s.dev.head q op lay args = some p) (hr : s.dev.refusal q p len (ck s.dev) ≠ none) :
    Res.Becomes s s.dev (startCmdLen s q op lay args len ck eff) := by
  unfold startCmdLen
  rw [hh]
  dsimp only
  split
  · refine ⟨_, rfl, rfl, ?_⟩
    exact ((Dev.refuse_replied _ _ _ _ _ _).trans (Dev.noteMiss_replied _ _ _)).trans (Dev.settled_replied _)
  · contradiction

/-- The command starts. -/
theorem startCmdLen_starts {s : State} {q op : Nat} {lay args : List Nat} {len : Nat} {ck : Dev → Checks} {eff : Dev → Cmd → Dev} {p : Packet}
    (hh : s.dev.head q op lay args = some p) (hr : s.dev.refusal q p len (ck s.dev) = none) :
    startCmdLen s q op lay args len ck eff = nextDev s (eff (s.dev.begin_ q p).1 (s.dev.begin_ q p).2).settled := by
  unfold startCmdLen
  rw [hh]
  dsimp only
  rw [hr]

/-- The command starts, and becomes what its effect gives. -/
theorem startCmdLen_becomes {s : State} {q op : Nat} {lay args : List Nat} {len : Nat} {ck : Dev → Checks} {eff : Dev → Cmd → Dev} {p : Packet}
    {d : Dev} (hh : s.dev.head q op lay args = some p) (hr : s.dev.refusal q p len {} = none)
    (h1 : (ck s.dev).param = none) (h2 : (ck s.dev).own = none) (h3 : (ck s.dev).denied = false)
    (h : d.Replied (eff (s.dev.begin_ q p).1 (s.dev.begin_ q p).2)) : Res.Becomes s d (startCmdLen s q op lay args len ck eff) := by
  rw [startCmdLen_starts hh (Dev.refusal_of_passes hr h1 h2 h3)]
  exact ⟨_, rfl, rfl, h.trans (Dev.settled_replied _)⟩

theorem startCmd_becomes {s : State} {q op : Nat} {lay args : List Nat} {ck : Dev → Checks} {eff : Dev → Cmd → Dev} {p : Packet}
    {d : Dev} (hh : s.dev.head q op lay args = some p) (hr : s.dev.refusal q p (paramLen lay) {} = none)
    (h1 : (ck s.dev).param = none) (h2 : (ck s.dev).own = none) (h3 : (ck s.dev).denied = false)
    (h : d.Replied (eff (s.dev.begin_ q p).1 (s.dev.begin_ q p).2)) : Res.Becomes s d (startCmd s q op lay args ck eff) :=
  startCmdLen_becomes hh hr h1 h2 h3 h

theorem doneAt_replied (f : Dev → Dev) (detail : Dev → Nat) (ext : Dev → List Nat) (d : Dev) (c : Cmd) : (f d).Replied (doneAt f detail ext d c) :=
  Dev.finish_replied _ _ _ _ _

/-- A started command has changed the host interface, the trace records and their counts alone. -/
theorem Dev.begin__host (d : Dev) (q : Nat) (p : Packet) :
    ∃ h o c, (d.begin_ q p).1 = { d with host := h, obs := o, ctr := c } ∧ h.quiet = d.host.quiet := by
  unfold Dev.begin_
  extract_lets ids c h
  obtain ⟨o, k, e⟩ := Dev.trace_obs { d with host := { h with inProg := h.inProg ++ [c], nextCmd := c.id + 1, lastStart := q } } 5 4 c.traceUnit p.tag p.opcode 0
  exact ⟨_, o, k, e, rfl⟩

theorem Dev.begin__quiet (d : Dev) (q : Nat) (p : Packet) : (d.begin_ q p).1.host.quiet = d.host.quiet := by
  obtain ⟨h, o, c, e, hq⟩ := Dev.begin__host d q p
  rw [e]
  exact hq

theorem Dev.begin__setup (d : Dev) (q : Nat) (p : Packet) (x : Nat) : ((d.begin_ q p).1.host.queue x).setup = (d.host.queue x).setup :=
  (Dev.begin__replied d q p).setup x

/-- Devices that differ in their host interface alone, as replies make it differ. -/
theorem Dev.Replied.host_only {a : Dev} {h h' : HostIf} (hq : h'.quiet = h.quiet) (hs : ∀ q, (h'.queue q).setup = (h.queue q).setup) :
    ({ a with host := h } : Dev).Replied { a with host := h' } :=
  Dev.Replied.of_host (d := { a with host := h }) hq hs

end Sys2Proof.Machine
end

