-- ==== Sys2Proof/Laws/Answer.lean ====
section
/-! SUPPORT. What stands in a reply ring after a command completes at once or is refused. -/

namespace Sys2Proof.Machine

/-- Ring position of the `i`-th entry written from index `t` on. -/
def ringPos (l t : Nat) : Nat → Nat
  | 0 => t % 2 ^ l
  | i + 1 => (t + i + 1) % 2 ^ 32 % 2 ^ l

theorem Queue.entryPos_eq (k : Queue) (i : Nat) : k.entryPos i = ringPos k.rqLog2 k.rqTail i := by cases i <;> rfl

theorem ringPos_succ (l t i : Nat) : ringPos l ((t + 1) % 2 ^ 32) i = ringPos l t (i + 1) := by
  cases i with
  | zero => rfl
  | succ i => simp only [ringPos]; congr 1; omega

theorem ringPos_lt (l t i : Nat) : ringPos l t i < 2 ^ l := by
  cases i <;> exact Nat.mod_lt _ (by positivity)

theorem ringPos_mod (l t i : Nat) (h : 16 ≤ 2 ^ l) : ringPos l t i % 16 = (t + i) % 16 := by
  have hl : 4 ≤ l := by
    by_contra hc
    have : 2 ^ l ≤ 2 ^ 3 := Nat.pow_le_pow_right (by norm_num) (by omega)
    omega
  obtain ⟨c, rfl⟩ := Nat.exists_eq_add_of_le hl
  have hd : (16 : Nat) ∣ 2 ^ (4 + c) := ⟨2 ^ c, by rw [Nat.pow_add]⟩
  cases i with
  | zero => simp only [ringPos, Nat.mod_mod_of_dvd _ hd, Nat.add_zero]
  | succ i => simp only [ringPos, Nat.mod_mod_of_dvd _ hd]; omega

/-- Entries written to a ring that holds them read as written. -/
theorem rdNat_wrEntries (k : Queue) (h16 : 16 ≤ 2 ^ k.rqLog2) : ∀ (es : List Nat) (m : Tab Byte) (t i e : Nat), es.length ≤ 16 → es[i]? = some e →
    rdNat (wrEntries m k t es) (k.rqBase + 16 * ringPos k.rqLog2 t i) 16 = e % 2 ^ 128 := by
  have frame : ∀ (es : List Nat) (m : Tab Byte) (t p : Nat), (∀ i, i < es.length → ringPos k.rqLog2 t i ≠ p) →
      rdNat (wrEntries m k t es) (k.rqBase + 16 * p) 16 = rdNat m (k.rqBase + 16 * p) 16 := by
    intro es
    induction es with
    | nil => intros; rfl
    | cons e es ih =>
      intro m t p hp
      simp only [wrEntries]
      rw [ih _ _ _ (fun i hi => by rw [ringPos_succ]; exact hp (i + 1) (by simpa using hi))]
      have h0 := hp 0 (by simp)
      simp only [ringPos] at h0
      simp only [rdNat, rdBytes]
      congr 1
      refine List.map_congr_left (fun j hj => ?_)
      simp only [List.mem_range] at hj
      exact rdByte_wrNat_other _ _ _ _ _ (by omega)
  intro es
  induction es with
  | nil => intro m t i e _ h; simp at h
  | cons x es ih =>
    intro m t i e hl h
    simp only [List.length_cons] at hl
    simp only [wrEntries]
    cases i with
    | zero =>
      simp only [List.getElem?_cons_zero, Option.some.injEq] at h
      subst h
      rw [frame]
      · rw [show ringPos k.rqLog2 t 0 = t % 2 ^ k.rqLog2 from rfl, rdNat_wrNat, show (256 : Nat) ^ 16 = 2 ^ 128 by norm_num]
      · intro j hj he
        rw [ringPos_succ] at he
        have := congrArg (· % 16) he
        simp only [ringPos_mod _ _ _ h16] at this
        omega
    | succ i =>
      rw [← ringPos_succ]
      exact ih _ _ _ _ (by omega) (by simpa using h)

theorem rdNat_wrNat_other (m : Tab Byte) (a n v b k : Nat) (h : b + k ≤ a ∨ a + n ≤ b) : rdNat (wrNat m a n v) b k = rdNat m b k := by
  simp only [rdNat, rdBytes]
  congr 1
  refine List.map_congr_left (fun j hj => ?_)
  simp only [List.mem_range] at hj
  exact rdByte_wrNat_other _ _ _ _ _ (by omega)

@[simp] theorem HostIf.irq_queue (h : HostIf) (p v x : Nat) : (h.irq p v).queue x = h.queue x := rfl

theorem HostIf.replyIrq_rqTail (h : HostIf) (q now x : Nat) : ((h.replyIrq q now).queue x).rqTail = (h.queue x).rqTail := by
  unfold HostIf.replyIrq
  dsimp only
  (repeat' split) <;> simp only [HostIf.irq_queue, HostIf.queue_updQueue] <;> split <;> simp_all

theorem HostIf.replyIrq_fetched (h : HostIf) (q now x : Nat) : ((h.replyIrq q now).queue x).fetched = (h.queue x).fetched := by
  unfold HostIf.replyIrq
  dsimp only
  (repeat' split) <;> simp only [HostIf.irq_queue, HostIf.queue_updQueue] <;> split <;> simp_all

theorem HostIf.replyIrq_waiting (h : HostIf) (q now : Nat) : (h.replyIrq q now).waiting = h.waiting := by
  unfold HostIf.replyIrq
  dsimp only
  (repeat' split) <;> rfl

/-- A post to a ring that has room for it is an answer. -/
theorem Dev.post_answered {d : Dev} {q : Nat} {es : List Nat} (hc : d.CanAnswer q) (h16 : 16 ≤ 2 ^ (d.host.queue q).rqLog2) (hl : es.length ≤ 16) :
    d.Answered (d.post q es) q es := by
  unfold Dev.post
  simp only [hc.replies, Bool.not_true, Bool.false_eq_true, if_false]
  refine ⟨?_, ?_, ?_⟩
  · rw [HostIf.replyIrq_rqTail, HostIf.queue_updQueue, if_pos rfl]
  · intro i e he
    rw [Queue.entryPos_eq]
    have := ringPos_lt (d.host.queue q).rqLog2 (d.host.queue q).rqTail i
    split
    · rw [rdNat_wrNat_other _ _ _ _ _ _ (by have := hc.apart; omega)]
      exact rdNat_wrEntries _ h16 _ _ _ _ _ hl he
    · exact rdNat_wrEntries _ h16 _ _ _ _ _ hl he
  · intro ho
    simp only [ho, if_true]
    rw [rdNat_wrNat]
    exact Nat.mod_mod_of_dvd _ ⟨1, by norm_num⟩


theorem Dev.post_fetched (d : Dev) (q x : Nat) (es : List Nat) : ((d.post q es).host.queue x).fetched = (d.host.queue x).fetched := by
  unfold Dev.post
  dsimp only
  split
  · rfl
  · rw [HostIf.replyIrq_fetched, HostIf.queue_updQueue]
    split <;> simp_all

theorem Dev.post_waiting (d : Dev) (q : Nat) (es : List Nat) : (d.post q es).host.waiting = d.host.waiting := by
  unfold Dev.post
  dsimp only
  split
  · rfl
  · rw [HostIf.replyIrq_waiting]; rfl

/-- With no packet fetched nothing is left to settle. -/
theorem Dev.settled_of_empty {d : Dev} (h : ∀ q, (d.host.queue q).fetched = []) : d.settled = d := by
  unfold Dev.settled
  unfold Dev.settle
  have h1 : ∀ q, d.host.replyFaultQ q = false := fun q => by simp [HostIf.replyFaultQ, h]
  have h2 : d.nextQueue = none := by
    have h3 : ∀ q, d.canStart q = false := fun q => by simp [Dev.canStart, h]
    simp [Dev.nextQueue, h3]
  have h3 : (List.range 16).find? (fun q => d.plat.takesCommands && d.host.replyFaultQ q) = none := by simp [h1]
  rw [h3, h2]

theorem Dev.flush_of_none {d : Dev} (h : d.host.waiting = []) : d.flush = d := by simp [Dev.flush, h]

/-- The command's name finds it while it is in progress. -/
theorem Dev.begin__cmd (d : Dev) (q : Nat) (p : Packet) : (d.begin_ q p).1.host.cmd (d.begin_ q p).2.id = some (d.begin_ q p).2 := by
  simp [Dev.begin_, HostIf.cmd]

theorem Dev.nextQueue_canStart {d : Dev} {q : Nat} (h : d.nextQueue = some q) : d.canStart q = true := by
  unfold Dev.nextQueue at h
  have key : ∀ (l : List Nat) (b : Option Nat), (∀ x, b = some x → d.canStart x = true) → ∀ x, l.foldl (fun best q =>
      if d.canStart q then
        match best with
        | none => some q
        | some b =>
          let pq := (d.host.queue q).prio
          let pb := (d.host.queue b).prio
          if pb < pq || (pb == pq && rotDist d.host.lastStart q < rotDist d.host.lastStart b) then some q else some b
      else best) b = some x → d.canStart x = true := by
    intro l
    induction l with
    | nil => intro b hb x hx; exact hb x hx
    | cons y l ih =>
      intro b hb x hx
      refine ih _ ?_ x hx
      intro z hz
      by_cases hy : d.canStart y = true
      · simp only [hy, if_true] at hz
        split at hz
        · simp only [Option.some.injEq] at hz; exact hz ▸ hy
        · split at hz
          · simp only [Option.some.injEq] at hz; exact hz ▸ hy
          · simp only [Option.some.injEq] at hz; exact hb z (by rw [← hz])
      · simp only [hy] at hz
        exact hb z (by simpa using hz)
  exact key _ none (by simp) q h

/-- The head of a queue that is next to start: its packet stands first, and its reply queue serves with 16 entries free. -/
theorem Dev.head_spec {d : Dev} {q op : Nat} {lay args : List Nat} {p : Packet} (h : d.head q op lay args = some p) :
    d.canStart q = true ∧ (d.host.queue q).fetched.head? = some p ∧ (d.host.queue (p.replyQueue q)).serves = true
      ∧ 16 ≤ (d.host.queue (p.replyQueue q)).freeEntries ∧ p.opcode = op := by
  unfold Dev.head at h
  split at h
  · rename_i hq
    have hc := Dev.nextQueue_canStart hq
    split at h
    · simp at h
    · rename_i p' rest hf
      split at h
      · rename_i ho
        simp only [Option.some.injEq] at h
        subst h
        refine ⟨hc, by simp [hf], ?_, ?_, ho.1⟩
        · simp only [Dev.canStart, hf, Bool.and_eq_true] at hc
          exact hc.1.1.2
        · simp only [Dev.canStart, hf, Bool.and_eq_true, decide_eq_true_eq] at hc
          exact hc.1.2
      · simp at h
  · simp at h

theorem Queue.ring16 {k : Queue} (h : 16 ≤ k.freeEntries) : 16 ≤ 2 ^ k.rqLog2 := by unfold Queue.freeEntries at h; omega


theorem Dev.Answered.congr {a a' b : Dev} {rq : Nat} {es : List Nat} (h : a'.Answered b rq es)
    (hs : (a'.host.queue rq).setup = (a.host.queue rq).setup) (ht : (a'.host.queue rq).rqTail = (a.host.queue rq).rqTail) :
    a.Answered b rq es := by
  simp only [Queue.setup, Queue.mk.injEq] at hs
  have h1 : (a'.host.queue rq).rqBase = (a.host.queue rq).rqBase := hs.2.2.2.2.2.2.2.2.1
  have h2 : (a'.host.queue rq).rqLog2 = (a.host.queue rq).rqLog2 := hs.2.2.2.2.2.2.2.2.2.1
  have h3 : (a'.host.queue rq).shadow = (a.host.queue rq).shadow := hs.2.2.2.2.2.2.2.2.2.2.2.2.1
  obtain ⟨x, y, z⟩ := h
  refine ⟨by rw [x, ht], fun i e he => ?_, fun ho => ?_⟩
  · rw [← y i e he, Queue.entryPos_eq, Queue.entryPos_eq, h1, h2, ht]
  · rw [← h3] at ho ⊢
    rw [z ho, ht]

/-- The answer of an emitted final reply where nothing else waits. -/
theorem Dev.emitFinal_answers {d : Dev} {c : Cmd} {status detail : Nat} {ext : List Nat} (hp : c.pkt.Plain) (hw : d.host.waiting = [])
    (hf : ∀ x, (d.host.queue x).fetched = []) (hc : d.CanAnswer c.rq) (h16 : 16 ≤ 2 ^ (d.host.queue c.rq).rqLog2) (hl : ext.length ≤ 15) :
    d.Answered (d.emitFinal c status detail ext) c.rq (d.replyNow c.pkt.tag status ext.length detail :: ext)
      ∧ (d.emitFinal c status detail ext).settled = d.emitFinal c status detail ext := by
  have hq : ∀ x, (d.host.retire c).queue x = if x = c.rq then { d.host.queue c.rq with reserved := (d.host.queue c.rq).reserved - 16 }
      else d.host.queue x := fun x => HostIf.queue_updQueue { d.host with inProg := d.host.inProg.filter (fun x => x.id != c.id) } c.rq x _
  have hh : ∀ detail, ({ d with host := d.host.retire c }.trace 6 4 c.traceUnit c.pkt.tag (status + 2 ^ 16 * detail) 0).host = d.host.retire c :=
    fun _ => Dev.trace_host ..
  have hf1 : ∀ x, ((d.host.retire c).queue x).fetched = [] := by
    intro x; rw [hq]; split <;> simp [hf]
  have e : d.emitFinal c status detail ext = Dev.post ({ d with host := d.host.retire c }.trace 6 4 c.traceUnit c.pkt.tag
      (status + 2 ^ 16 * detail) 0) c.rq (d.replyNow c.pkt.tag status ext.length detail :: ext) := by
    unfold Dev.emitFinal
    simp only [hp.silent, hp.latch, Bool.false_and, Bool.false_eq_true, if_false, List.append_nil, List.length_nil, Nat.add_zero]
    rw [Dev.flush_of_none (by rw [Dev.post_waiting, hh]; exact hw)]
    exact Dev.settled_of_empty (fun x => by rw [Dev.post_fetched, hh]; exact hf1 x)
  rw [e]
  refine ⟨?_, Dev.settled_of_empty (fun x => by rw [Dev.post_fetched, hh]; exact hf1 x)⟩
  have h1 : (d.host.retire c).queue c.rq = { d.host.queue c.rq with reserved := (d.host.queue c.rq).reserved - 16 } := by
    rw [hq]; simp
  refine Dev.Answered.congr (Dev.post_answered ⟨?_, ?_⟩ ?_ (by simp only [List.length_cons]; omega)) ?_ ?_
  · rw [hh, h1]; exact hc.replies
  · rw [hh, h1]; exact hc.apart
  · rw [hh, h1]; exact h16
  · rw [hh, h1]; rfl
  · rw [hh, h1]

theorem Dev.finish_plain {d : Dev} {c : Cmd} {id status detail : Nat} {ext : List Nat} (hcmd : d.host.cmd id = some c) (hp : c.pkt.Plain) :
    d.finish id status detail ext = d.emitFinal c status detail ext := by
  unfold Dev.finish
  rw [hcmd]
  simp [hp.deadline, hp.latch]

/-- What starting a plain command leaves of the queues, where nothing else waits. -/
theorem Dev.begin__alone {d : Dev} {q : Nat} {p : Packet} (ha : d.Alone q p) (x : Nat) :
    ((d.begin_ q p).1.host.queue x).fetched = [] ∧ ((d.begin_ q p).1.host.queue x).rqTail = (d.host.queue x).rqTail := by
  have e : (d.begin_ q p).1.host.queue x
      = ((d.host.popHead q).updQueue (q / 8 * 8 + p.queue) (fun k => { k with reserved := k.reserved + 16 })).queue x := by
    simp only [Dev.begin_, Dev.trace_host]
    rfl
  have h2 : ∀ y, ((d.host.popHead q).queue y).fetched = [] ∧ ((d.host.popHead q).queue y).rqTail = (d.host.queue y).rqTail := by
    intro y
    unfold HostIf.popHead
    rw [HostIf.queue_updQueue]
    split
    · rename_i h; subst h; simp [ha.here]
    · rename_i hy; exact ⟨ha.others y hy, rfl⟩
  rw [e, HostIf.queue_updQueue]
  split
  · rename_i h; subst h; exact h2 _
  · exact h2 _

theorem Dev.begin__waiting {d : Dev} {q : Nat} {p : Packet} (ha : d.Alone q p) : (d.begin_ q p).1.host.waiting = [] := by
  simp only [Dev.begin_, Dev.trace_host]
  exact ha.replies

theorem Dev.begin__replyNow (d : Dev) (q : Nat) (p : Packet) (tag status ext detail : Nat) :
    (d.begin_ q p).1.replyNow tag status ext detail = d.replyNow tag status ext detail := by
  simp only [Dev.replyNow, Dev.begin_, Dev.trace_plat, Dev.trace_cad]

theorem Dev.CanAnswer.congr {a b : Dev} {rq : Nat} (h : a.CanAnswer rq) (hs : (b.host.queue rq).setup = (a.host.queue rq).setup)
    (hq : (b.host.queue rq).qstate = (a.host.queue rq).qstate) (he : (b.host.queue rq).err = (a.host.queue rq).err) : b.CanAnswer rq := by
  simp only [Queue.setup, Queue.mk.injEq] at hs
  have h1 : (b.host.queue rq).rqBase = (a.host.queue rq).rqBase := hs.2.2.2.2.2.2.2.2.1
  have h2 : (b.host.queue rq).rqLog2 = (a.host.queue rq).rqLog2 := hs.2.2.2.2.2.2.2.2.2.1
  have h3 : (b.host.queue rq).shadow = (a.host.queue rq).shadow := hs.2.2.2.2.2.2.2.2.2.2.2.2.1
  refine ⟨?_, ?_⟩
  · have := h.replies
    simpa [Queue.replies, Queue.serves, hq, he] using this
  · rw [h1, h2, h3]; exact h.apart

theorem Dev.begin__state (d : Dev) (q : Nat) (p : Packet) (x : Nat) :
    ((d.begin_ q p).1.host.queue x).qstate = (d.host.queue x).qstate ∧ ((d.begin_ q p).1.host.queue x).err = (d.host.queue x).err := by
  have e : (d.begin_ q p).1.host.queue x
      = ((d.host.popHead q).updQueue (q / 8 * 8 + p.queue) (fun k => { k with reserved := k.reserved + 16 })).queue x := by
    simp only [Dev.begin_, Dev.trace_host]
    rfl
  have h2 : ∀ y, ((d.host.popHead q).queue y).qstate = (d.host.queue y).qstate ∧ ((d.host.popHead q).queue y).err = (d.host.queue y).err := by
    intro y
    unfold HostIf.popHead
    rw [HostIf.queue_updQueue]
    split
    · rename_i h; subst h; simp
    · exact ⟨rfl, rfl⟩
  rw [e, HostIf.queue_updQueue]
  split
  · rename_i h; subst h; exact h2 _
  · exact h2 _

/-- A plain command that completes DONE at once, with nothing else waiting, answers with its reply and extended entries. -/
theorem startCmdLen_answers {s : State} {q op : Nat} {lay args : List Nat} {len : Nat} {ck : Dev → Checks} {p : Packet}
    {detail : Dev → Nat} {ext : Dev → List Nat}
    (hh : s.dev.head q op lay args = some p) (hr : s.dev.refusal q p len (ck s.dev) = none) (hp : p.Plain) (ha : s.dev.Alone q p)
    (hc : s.dev.CanAnswer (p.replyQueue q)) (hl : (ext (s.dev.begin_ q p).1).length ≤ 15) :
    ∃ t : State, startCmdLen s q op lay args len ck (doneAt id detail ext) = .next t ∧ t.pending = s.pending ∧ s.dev.Replied t.dev ∧
      s.dev.Answered t.dev (p.replyQueue q)
        (s.dev.replyNow p.tag stDone (ext (s.dev.begin_ q p).1).length (detail (s.dev.begin_ q p).1) :: ext (s.dev.begin_ q p).1) := by
  rw [startCmdLen_starts hh hr]
  refine ⟨_, rfl, rfl, (((Dev.begin__replied _ _ _).trans (doneAt_replied id _ _ _ _)).trans (Dev.settled_replied _)), ?_⟩
  obtain ⟨_, _, _, h16, _⟩ := Dev.head_spec hh
  have h16 := Queue.ring16 h16
  have hset := Dev.begin__setup s.dev q p (p.replyQueue q)
  have hlog : ((s.dev.begin_ q p).1.host.queue (p.replyQueue q)).rqLog2 = (s.dev.host.queue (p.replyQueue q)).rqLog2 := by
    simp only [Queue.setup, Queue.mk.injEq] at hset; exact hset.2.2.2.2.2.2.2.2.2.1
  have hst := Dev.begin__state s.dev q p (p.replyQueue q)
  obtain ⟨h1, h2⟩ := Dev.emitFinal_answers (d := (s.dev.begin_ q p).1) (c := (s.dev.begin_ q p).2) (status := stDone)
    (detail := detail (s.dev.begin_ q p).1) (ext := ext (s.dev.begin_ q p).1) hp (Dev.begin__waiting ha) (fun x => (Dev.begin__alone ha x).1)
    (hc.congr hset hst.1 hst.2) (hlog ▸ h16) hl
  dsimp only [doneAt, id]
  rw [Dev.finish_plain (Dev.begin__cmd _ _ _) hp, h2]
  rw [Dev.begin__replyNow] at h1
  exact Dev.Answered.congr h1 hset ((Dev.begin__alone ha _).2)

/-- A refused plain command, with nothing else waiting, answers with the status of the first check that fails. -/
theorem startCmdLen_refusal_answers {s : State} {q op : Nat} {lay args : List Nat} {len : Nat} {ck : Dev → Checks} {eff : Dev → Cmd → Dev}
    {p : Packet} {st det : Nat} {ext : List Nat}
    (hh : s.dev.head q op lay args = some p) (hr : s.dev.refusal q p len (ck s.dev) = some (st, det, ext)) (hp : p.latchEn = false)
    (ha : s.dev.Alone q p) (hc : s.dev.CanAnswer (p.replyQueue q)) (hl : ext.length ≤ 15) :
    ∃ t : State, startCmdLen s q op lay args len ck eff = .next t ∧ t.pending = s.pending ∧ s.dev.Replied t.dev ∧
      s.dev.Answered t.dev (p.replyQueue q) (s.dev.replyNow p.tag st ext.length det :: ext) := by
  obtain ⟨_, _, _, h16, _⟩ := Dev.head_spec hh
  have h16 := Queue.ring16 h16
  have e : startCmdLen s q op lay args len ck eff = nextDev s ((s.dev.refuse q p st det ext).noteMiss p st).settled := by
    unfold startCmdLen; rw [hh]; dsimp only; rw [hr]
  rw [e]
  refine ⟨_, rfl, rfl, ((Dev.refuse_replied _ _ _ _ _ _).trans (Dev.noteMiss_replied _ _ _)).trans (Dev.settled_replied _), ?_⟩
  have hq : ∀ x, ((s.dev.host.popHead q).queue x) = if x = q then { s.dev.host.queue q with fetched := (s.dev.host.queue q).fetched.tail }
      else s.dev.host.queue x := fun x => HostIf.queue_updQueue _ _ _ _
  have hf : ∀ x, ((s.dev.host.popHead q).queue x).fetched = [] := by
    intro x; rw [hq]; split
    · simp [ha.here]
    · rename_i hx; exact ha.others x hx
  have hr1 : s.dev.refuse q p st det ext = ({ s.dev with host := s.dev.host.popHead q } : Dev).post (p.replyQueue q)
      (s.dev.replyNow p.tag st ext.length det :: ext) := by
    unfold Dev.refuse
    simp only [hp, Bool.false_eq_true, if_false, List.append_nil, List.length_nil, Nat.add_zero]
    rfl
  have hs : ((s.dev.refuse q p st det ext).noteMiss p st).settled = (s.dev.refuse q p st det ext).noteMiss p st := by
    refine Dev.settled_of_empty (fun x => ?_)
    have : ((s.dev.refuse q p st det ext).noteMiss p st).host = (s.dev.refuse q p st det ext).host := by
      unfold Dev.noteMiss; split <;> rfl
    rw [this, hr1, Dev.post_fetched]
    exact hf x
  rw [hs]
  have hA : s.dev.Answered (s.dev.refuse q p st det ext) (p.replyQueue q) (s.dev.replyNow p.tag st ext.length det :: ext) := by
    rw [hr1]
    have h1 : ((s.dev.host.popHead q).queue (p.replyQueue q)).setup = (s.dev.host.queue (p.replyQueue q)).setup :=
      HostIf.setup_updQueue _ _ _ _ (fun _ => rfl)
    have h2 : ((s.dev.host.popHead q).queue (p.replyQueue q)).rqTail = (s.dev.host.queue (p.replyQueue q)).rqTail
        ∧ ((s.dev.host.popHead q).queue (p.replyQueue q)).qstate = (s.dev.host.queue (p.replyQueue q)).qstate
        ∧ ((s.dev.host.popHead q).queue (p.replyQueue q)).err = (s.dev.host.queue (p.replyQueue q)).err := by
      rw [hq]; split
      · rename_i e; rw [e]; simp
      · simp
    have h3 : ((s.dev.host.popHead q).queue (p.replyQueue q)).rqLog2 = (s.dev.host.queue (p.replyQueue q)).rqLog2 := by
      have h1 := h1
      simp only [Queue.setup, Queue.mk.injEq] at h1; exact h1.2.2.2.2.2.2.2.2.2.1
    refine Dev.Answered.congr (Dev.post_answered (hc.congr h1 h2.2.1 h2.2.2) ?_ (by simp only [List.length_cons]; omega)) h1 h2.1
    rw [show ({ s.dev with host := s.dev.host.popHead q } : Dev).host = s.dev.host.popHead q from rfl, h3]
    exact h16
  have hn : ∀ d : Dev, s.dev.Answered d (p.replyQueue q) (s.dev.replyNow p.tag st ext.length det :: ext) →
      s.dev.Answered (d.noteMiss p st) (p.replyQueue q) (s.dev.replyNow p.tag st ext.length det :: ext) := by
    intro d h
    unfold Dev.noteMiss
    split
    · exact ⟨h.tail, h.entries, h.shadow⟩
    · exact h
  exact hn _ hA

end Sys2Proof.Machine
end

