-- ==== Sys2Proof/Laws/Packets.lean ====
section
/-! SUPPORT. What every packet command has in common: its meaning is one start of a command with checks and an effect. -/

namespace Sys2Proof.Machine

theorem form_of_startCmd {s : State} {r : Res} {q op : Nat} {lay args : List Nat} {ck : Dev → Checks} {eff : Dev → Cmd → Dev}
    (h : r = startCmd s q op lay args ck eff) : ∃ ck eff, r = startCmdLen s q op lay args (paramLen lay) ck eff := ⟨ck, eff, h⟩

/-- The meaning of a packet command at the head of its queue is a start of that command. -/
theorem exec_of_packet {s : State} {i : Instr} {f : PacketForm} {p : Packet} (h : s.Fronts i f p) :
    ∃ ck eff, exec i s = startCmdLen s f.queue f.opcode f.layout f.fields (Instr.paramBytes i f) ck eff := by
  obtain ⟨hf, hh, hd⟩ := h
  cases i with
  | nop q => cases hf; change ∃ ck eff, execNop q s = _; unfold execNop; exact form_of_startCmd rfl
  | identify q => cases hf; change ∃ ck eff, execIdentify q s = _; unfold execIdentify; exact form_of_startCmd rfl
  | getStatus q => cases hf; change ∃ ck eff, execGetStatus q s = _; unfold execGetStatus; exact form_of_startCmd rfl
  | readFaultLog q dest => cases hf; change ∃ ck eff, execReadFaultLog q dest s = _; unfold execReadFaultLog; exact form_of_startCmd rfl
  | reset q => cases hf; change ∃ ck eff, execReset q s = _; unfold execReset; exact form_of_startCmd rfl
  | resetExecute => cases hf
  | gpioClaim q pin => cases hf; change ∃ ck eff, execGpioClaim q pin s = _; unfold execGpioClaim; exact form_of_startCmd rfl
  | gpioRelease q pin => cases hf; change ∃ ck eff, execGpioRelease q pin s = _; unfold execGpioRelease; exact form_of_startCmd rfl
  | gpioSet q pin mode value alt => cases hf; change ∃ ck eff, execGpioSet q pin mode value alt s = _; unfold execGpioSet; exact form_of_startCmd rfl
  | fence q => cases hf; change ∃ ck eff, execFence q s = _; unfold execFence; exact form_of_startCmd rfl
  | fill q dest len value => cases hf; change ∃ ck eff, execFill q dest len value s = _; unfold execFill; exact form_of_startCmd rfl
  | writeInline q dest data =>
    cases hf
    simp only [Instr.carries, decide_eq_true_eq] at hd
    change ∃ ck eff, execWriteInline q dest data s = _
    unfold execWriteInline
    have hh' : s.dev.head q 0x0203 [64, 16] [dest, data.length] = some p := hh
    simp only [hh', hd, if_true]
    exact ⟨_, _, rfl⟩
  | poolCreate q pod pool frameBytes base frames => cases hf; change ∃ ck eff, execPoolCreate q pod pool frameBytes base frames s = _; unfold execPoolCreate; exact form_of_startCmd rfl
  | poolDestroy q pod pool => cases hf; change ∃ ck eff, execPoolDestroy q pod pool s = _; unfold execPoolDestroy; exact form_of_startCmd rfl
  | seqCreate q pod pool table entries ringPages => cases hf; change ∃ ck eff, execSeqCreate q pod pool table entries ringPages s = _; unfold execSeqCreate; exact form_of_startCmd rfl
  | seqDestroy q pod table => cases hf; change ∃ ck eff, execSeqDestroy q pod table s = _; unfold execSeqDestroy; exact form_of_startCmd rfl
  | pageAlloc q pod table entry lpage => cases hf; change ∃ ck eff, execPageAlloc q pod table entry lpage s = _; unfold execPageAlloc; exact form_of_startCmd rfl
  | pageShare q pod srcTable srcEntry dstTable dstEntry => cases hf; change ∃ ck eff, execPageShare q pod srcTable srcEntry dstTable dstEntry s = _; unfold execPageShare; exact form_of_startCmd rfl
  | pageFree q pod table entry => cases hf; change ∃ ck eff, execPageFree q pod table entry s = _; unfold execPageFree; exact form_of_startCmd rfl
  | planLoad q src len => cases hf; change ∃ ck eff, execPlanLoad q src len s = _; unfold execPlanLoad; exact form_of_startCmd rfl
  | planUnload q plan => cases hf; change ∃ ck eff, execPlanUnload q plan s = _; unfold execPlanUnload; exact form_of_startCmd rfl
  | runStep q plan step => cases hf; change ∃ ck eff, execRunStep q plan step s = _; unfold execRunStep; exact form_of_startCmd rfl
  | stepAbort q plan => cases hf; change ∃ ck eff, execStepAbort q plan s = _; unfold execStepAbort; exact form_of_startCmd rfl
  | waitingStepStart plan => cases hf
  | stepComplete plan => cases hf
  | streamOpen q record => cases hf; change ∃ ck eff, execStreamOpen q record s = _; unfold execStreamOpen; exact form_of_startCmd rfl
  | streamClose q stream => cases hf; change ∃ ck eff, execStreamClose q stream s = _; unfold execStreamClose; exact form_of_startCmd rfl
  | ingestConfig q profile dests => cases hf; change ∃ ck eff, execIngestConfig q profile dests s = _; unfold execIngestConfig; exact form_of_startCmd rfl
  | ingestRing q ring kind log2 entryBase compBase batchBase handoffBase => cases hf; change ∃ ck eff, execIngestRing q ring kind log2 entryBase compBase batchBase handoffBase s = _; unfold execIngestRing; exact form_of_startCmd rfl
  | ingestDoorbell q ring tail => cases hf; change ∃ ck eff, execIngestDoorbell q ring tail s = _; unfold execIngestDoorbell; exact form_of_startCmd rfl
  | ingestRingClose q ring => cases hf; change ∃ ck eff, execIngestRingClose q ring s = _; unfold execIngestRingClose; exact form_of_startCmd rfl
  | tableLoad q kind src len => cases hf; change ∃ ck eff, execTableLoad q kind src len s = _; unfold execTableLoad; exact form_of_startCmd rfl
  | ingestReport q dest => cases hf; change ∃ ck eff, execIngestReport q dest s = _; unfold execIngestReport; exact form_of_startCmd rfl
  | runConfig q plan run => cases hf; change ∃ ck eff, execRunConfig q plan run s = _; unfold execRunConfig; exact form_of_startCmd rfl
  | groupWrite q plan group step record => cases hf; change ∃ ck eff, execGroupWrite q plan group step record s = _; unfold execGroupWrite; exact form_of_startCmd rfl
  | stateLoad q plan src len => cases hf; change ∃ ck eff, execStateLoad q plan src len s = _; unfold execStateLoad; exact form_of_startCmd rfl
  | stateSave q plan dest len => cases hf; change ∃ ck eff, execStateSave q plan dest len s = _; unfold execStateSave; exact form_of_startCmd rfl
  | domainOn q id => cases hf; change ∃ ck eff, execDomainOn q id s = _; unfold execDomainOn; exact form_of_startCmd rfl
  | domainOff q id => cases hf; change ∃ ck eff, execDomainOff q id s = _; unfold execDomainOff; exact form_of_startCmd rfl
  | domainAuto q id => cases hf; change ∃ ck eff, execDomainAuto q id s = _; unfold execDomainAuto; exact form_of_startCmd rfl
  | setEnergyBudget q record => cases hf; change ∃ ck eff, execSetEnergyBudget q record s = _; unfold execSetEnergyBudget; exact form_of_startCmd rfl
  | ageingReport q dest => cases hf; change ∃ ck eff, execAgeingReport q dest s = _; unfold execAgeingReport; exact form_of_startCmd rfl
  | cadenceConfig q cad lock sched => cases hf; change ∃ ck eff, execCadenceConfig q cad lock sched s = _; unfold execCadenceConfig; exact form_of_startCmd rfl
  | eventSet q slot => cases hf; change ∃ ck eff, execEventSet q slot s = _; unfold execEventSet; exact form_of_startCmd rfl
  | eventClear q slot => cases hf; change ∃ ck eff, execEventClear q slot s = _; unfold execEventClear; exact form_of_startCmd rfl
  | timerClaim q timer periodic interval slot => cases hf; change ∃ ck eff, execTimerClaim q timer periodic interval slot s = _; unfold execTimerClaim; exact form_of_startCmd rfl
  | timerRelease q timer => cases hf; change ∃ ck eff, execTimerRelease q timer s = _; unfold execTimerRelease; exact form_of_startCmd rfl
  | latchSetDefine q set counters => cases hf; change ∃ ck eff, execLatchSetDefine q set counters s = _; unfold execLatchSetDefine; exact form_of_startCmd rfl
  | traceArm q buffer sources dest len => cases hf; change ∃ ck eff, execTraceArm q buffer sources dest len s = _; unfold execTraceArm; exact form_of_startCmd rfl
  | traceStop q buffer => cases hf; change ∃ ck eff, execTraceStop q buffer s = _; unfold execTraceStop; exact form_of_startCmd rfl
  | dumpTensor q plan symbol step dest len => cases hf; change ∃ ck eff, execDumpTensor q plan symbol step dest len s = _; unfold execDumpTensor; exact form_of_startCmd rfl
  | readTileCounter q pod counter => cases hf; change ∃ ck eff, execReadTileCounter q pod counter s = _; unfold execReadTileCounter; exact form_of_startCmd rfl
  | fwUpdate q image src len verifies => cases hf; change ∃ ck eff, execFwUpdate q image src len verifies s = _; unfold execFwUpdate; exact form_of_startCmd rfl
  | fwSelect q image verifies => cases hf; change ∃ ck eff, execFwSelect q image verifies s = _; unfold execFwSelect; exact form_of_startCmd rfl
  | lifecycle q target cred credLen verifies seed key => cases hf; change ∃ ck eff, execLifecycle q target cred credLen verifies seed key s = _; unfold execLifecycle; exact form_of_startCmd rfl
  | lifecycleRestart => cases hf
  | attest q nonce dest len signature =>
    cases hf
    simp only [Instr.carries, beq_iff_eq] at hd
    change ∃ ck eff, execAttest q nonce dest len signature s = _
    unfold execAttest
    dsimp only
    rw [if_neg (not_not.2 hd)]
    exact form_of_startCmd rfl
  | channelClaim q resource => cases hf; change ∃ ck eff, execChannelClaim q resource s = _; unfold execChannelClaim; exact form_of_startCmd rfl
  | channelRelease q resource => cases hf; change ∃ ck eff, execChannelRelease q resource s = _; unfold execChannelRelease; exact form_of_startCmd rfl
  | encOpen q config => cases hf; change ∃ ck eff, execEncOpen q config s = _; unfold execEncOpen; exact form_of_startCmd rfl
  | encSubmit q session forceIdr picture pts => cases hf; change ∃ ck eff, execEncSubmit q session forceIdr picture pts s = _; unfold execEncSubmit; exact form_of_startCmd rfl
  | encConfig q session config => cases hf; change ∃ ck eff, execEncConfig q session config s = _; unfold execEncConfig; exact form_of_startCmd rfl
  | encClose q session => cases hf; change ∃ ck eff, execEncClose q session s = _; unfold execEncClose; exact form_of_startCmd rfl
  | registerWrite port offset size value => cases hf
  | misalignedWindowAccess port write offset size => cases hf
  | cqTail port queue value => cases hf
  | queueEnable port queue => cases hf
  | qReset port queue => cases hf
  | queueDrained q => cases hf
  | packetFetch q fetchFails => cases hf
  | irqHoldoffEnd q => cases hf
  | semAcquire port n low => cases hf
  | semRelease port n => cases hf
  | beatNowRead port => cases hf
  | deviceTimeRead port half => cases hf
  | linkTrained port width rate => cases hf
  | linkRetrain port corrected replayed => cases hf
  | portReset port => cases hf
  | ptpSyncRecord port ptpTime => cases hf
  | ptpSyncTimeout => cases hf
  | resetNAssert => cases hf
  | resetNRelease => cases hf
  | firmwareVerified statusA statusB => cases hf
  | d2dTrained ok => cases hf
  | gddr7Trained ok => cases hf
  | selfTestDone failed othersPass => cases hf
  | startWipeDone ok => cases hf
  | startStageTimeout => cases hf
  | huskRestart => cases hf
  | attestTreeDone => cases hf
  | jtagInstruction ir => cases hf
  | smbusBlockRead code => cases hf
  | smbusAlertResponse => cases hf
  | powerBrakeAssert => cases hf
  | powerBrakeRelease => cases hf
  | sensorReading temps => cases hf
  | railSample readings podFixed => cases hf
  | fastLimit rail => cases hf
  | fastLimitStop rail => cases hf
  | fastLimitRestore rail => cases hf
  | railVoltageReached rail => cases hf
  | avsVoltageTimeout rail => cases hf
  | avsbusRetry rail ok => cases hf
  | budgetCheckpoint => cases hf
  | telemetrySnapshot => cases hf
  | idleOffExpiry domain => cases hf
  | ageingReading domain stressed reference => cases hf
  | domainPoweredUp domain => cases hf
  | domainDrained domain => cases hf
  | wipeDone domain => cases hf
  | powerDownDone domain => cases hf
  | offDwellEnd domain => cases hf
  | beatStart => cases hf
  | cadenceInEdge highNs => cases hf
  | refWindowEnd => cases hf
  | cadenceOutPulse => cases hf
  | pulseWidthEnd pin => cases hf
  | eventSlotFire slot => cases hf
  | schedulerTimerFire timer => cases hf
  | liveTaskStart stream => cases hf
  | contextSaveDone core => cases hf
  | quantumExpiry core => cases hf
  | liveTaskComplete stream => cases hf
  | contextRestoreDone core => cases hf
  | liveDeadline stream => cases hf
  | descriptorIssue core flips => cases hf
  | matmulComplete core engine flips => cases hf
  | convComplete core engine flips => cases hf
  | combineComplete core engine flips => cases hf
  | vectorComplete core flips => cases hf
  | attentionComplete core flips => cases hf
  | moveComplete core flips => cases hf
  | moveArrival core => cases hf
  | counterArm pod counter => cases hf
  | tileClaim core => cases hf
  | tileCompletion core => cases hf
  | reissueTimeout pod counter index => cases hf
  | pageArrival src flips => cases hf
  | gradientChunkArrival pod flips => cases hf
  | updatePassComplete unit flips => cases hf
  | stageBlockArrival flips => cases hf
  | writebackArrival block flips => cases hf
  | multicastArrival pod layer flips => cases hf
  | hullerJobTake ring => cases hf
  | hullerJobStart block => cases hf
  | hullerLivePreempt block => cases hf
  | hullerJobComplete block flips ctxBad => cases hf
  | sampleTake ring => cases hf
  | shaperPicture => cases hf
  | sampleBudgetExpiry ordinal => cases hf
  | batchDeadline batch => cases hf
  | batchReady batch => cases hf
  | liveInputReady stream => cases hf
  | encPictureStart => cases hf
  | encRowCoded => cases hf
  | encSliceWrite => cases hf
  | encRingWaitLimit => cases hf
  | encPictureDone => cases hf
  | channelTail port channel value => cases hf
  | channelStart port channel => cases hf
  | channelPause port channel => cases hf
  | channelResume port channel => cases hf
  | channelRetry port channel => cases hf
  | channelSkip port channel => cases hf
  | channelReset port channel => cases hf
  | channelQuiesced channel => cases hf
  | moverBurst engine flips => cases hf
  | descriptorWriteBack channel => cases hf
  | moverFenceDone channel => cases hf
  | moverFault channel status addr => cases hf
  | hostTransferTimeout channel => cases hf
  | traceRecord die => cases hf
  | traceRecordWrite => cases hf
  | dumpRead flips => cases hf
  | latchEnd cmd => cases hf
  | stopPointReached core engine tiles flips => cases hf
  | planLoadDone plan => cases hf
  | tableLoadDone kind num => cases hf
  | stateLoadDone plan flips => cases hf
  | stateSaveDone plan flips => cases hf
  | fwUpdateDone matches_ => cases hf
  | vddAonRise => cases hf

/-- A packet command that is not the next to start does not take place. -/
theorem exec_out_of_turn {s : State} {i : Instr} {f : PacketForm} (hf : i.packet = some f)
    (hh : s.dev.head f.queue f.opcode f.layout f.fields = none) : exec i s = .next s := by
  have hkey : ∀ {q op : Nat} {lay args : List Nat} {len : Nat} {ck : Dev → Checks} {eff : Dev → Cmd → Dev},
      s.dev.head q op lay args = none → startCmdLen s q op lay args len ck eff = .next s := by
    intro q op lay args len ck eff h
    unfold startCmdLen
    rw [h]
  cases i with
  | nop q => cases hf; change execNop q s = _; unfold execNop; exact hkey hh
  | identify q => cases hf; change execIdentify q s = _; unfold execIdentify; exact hkey hh
  | getStatus q => cases hf; change execGetStatus q s = _; unfold execGetStatus; exact hkey hh
  | readFaultLog q dest => cases hf; change execReadFaultLog q dest s = _; unfold execReadFaultLog; exact hkey hh
  | reset q => cases hf; change execReset q s = _; unfold execReset; exact hkey hh
  | resetExecute => cases hf
  | gpioClaim q pin => cases hf; change execGpioClaim q pin s = _; unfold execGpioClaim; exact hkey hh
  | gpioRelease q pin => cases hf; change execGpioRelease q pin s = _; unfold execGpioRelease; exact hkey hh
  | gpioSet q pin mode value alt => cases hf; change execGpioSet q pin mode value alt s = _; unfold execGpioSet; exact hkey hh
  | fence q => cases hf; change execFence q s = _; unfold execFence; exact hkey hh
  | fill q dest len value => cases hf; change execFill q dest len value s = _; unfold execFill; exact hkey hh
  | writeInline q dest data =>
    cases hf
    change execWriteInline q dest data s = _
    unfold execWriteInline
    have hh' : s.dev.head q 0x0203 [64, 16] [dest, data.length] = none := hh
    simp only [hh']
  | poolCreate q pod pool frameBytes base frames => cases hf; change execPoolCreate q pod pool frameBytes base frames s = _; unfold execPoolCreate; exact hkey hh
  | poolDestroy q pod pool => cases hf; change execPoolDestroy q pod pool s = _; unfold execPoolDestroy; exact hkey hh
  | seqCreate q pod pool table entries ringPages => cases hf; change execSeqCreate q pod pool table entries ringPages s = _; unfold execSeqCreate; exact hkey hh
  | seqDestroy q pod table => cases hf; change execSeqDestroy q pod table s = _; unfold execSeqDestroy; exact hkey hh
  | pageAlloc q pod table entry lpage => cases hf; change execPageAlloc q pod table entry lpage s = _; unfold execPageAlloc; exact hkey hh
  | pageShare q pod srcTable srcEntry dstTable dstEntry => cases hf; change execPageShare q pod srcTable srcEntry dstTable dstEntry s = _; unfold execPageShare; exact hkey hh
  | pageFree q pod table entry => cases hf; change execPageFree q pod table entry s = _; unfold execPageFree; exact hkey hh
  | planLoad q src len => cases hf; change execPlanLoad q src len s = _; unfold execPlanLoad; exact hkey hh
  | planUnload q plan => cases hf; change execPlanUnload q plan s = _; unfold execPlanUnload; exact hkey hh
  | runStep q plan step => cases hf; change execRunStep q plan step s = _; unfold execRunStep; exact hkey hh
  | stepAbort q plan => cases hf; change execStepAbort q plan s = _; unfold execStepAbort; exact hkey hh
  | waitingStepStart plan => cases hf
  | stepComplete plan => cases hf
  | streamOpen q record => cases hf; change execStreamOpen q record s = _; unfold execStreamOpen; exact hkey hh
  | streamClose q stream => cases hf; change execStreamClose q stream s = _; unfold execStreamClose; exact hkey hh
  | ingestConfig q profile dests => cases hf; change execIngestConfig q profile dests s = _; unfold execIngestConfig; exact hkey hh
  | ingestRing q ring kind log2 entryBase compBase batchBase handoffBase => cases hf; change execIngestRing q ring kind log2 entryBase compBase batchBase handoffBase s = _; unfold execIngestRing; exact hkey hh
  | ingestDoorbell q ring tail => cases hf; change execIngestDoorbell q ring tail s = _; unfold execIngestDoorbell; exact hkey hh
  | ingestRingClose q ring => cases hf; change execIngestRingClose q ring s = _; unfold execIngestRingClose; exact hkey hh
  | tableLoad q kind src len => cases hf; change execTableLoad q kind src len s = _; unfold execTableLoad; exact hkey hh
  | ingestReport q dest => cases hf; change execIngestReport q dest s = _; unfold execIngestReport; exact hkey hh
  | runConfig q plan run => cases hf; change execRunConfig q plan run s = _; unfold execRunConfig; exact hkey hh
  | groupWrite q plan group step record => cases hf; change execGroupWrite q plan group step record s = _; unfold execGroupWrite; exact hkey hh
  | stateLoad q plan src len => cases hf; change execStateLoad q plan src len s = _; unfold execStateLoad; exact hkey hh
  | stateSave q plan dest len => cases hf; change execStateSave q plan dest len s = _; unfold execStateSave; exact hkey hh
  | domainOn q id => cases hf; change execDomainOn q id s = _; unfold execDomainOn; exact hkey hh
  | domainOff q id => cases hf; change execDomainOff q id s = _; unfold execDomainOff; exact hkey hh
  | domainAuto q id => cases hf; change execDomainAuto q id s = _; unfold execDomainAuto; exact hkey hh
  | setEnergyBudget q record => cases hf; change execSetEnergyBudget q record s = _; unfold execSetEnergyBudget; exact hkey hh
  | ageingReport q dest => cases hf; change execAgeingReport q dest s = _; unfold execAgeingReport; exact hkey hh
  | cadenceConfig q cad lock sched => cases hf; change execCadenceConfig q cad lock sched s = _; unfold execCadenceConfig; exact hkey hh
  | eventSet q slot => cases hf; change execEventSet q slot s = _; unfold execEventSet; exact hkey hh
  | eventClear q slot => cases hf; change execEventClear q slot s = _; unfold execEventClear; exact hkey hh
  | timerClaim q timer periodic interval slot => cases hf; change execTimerClaim q timer periodic interval slot s = _; unfold execTimerClaim; exact hkey hh
  | timerRelease q timer => cases hf; change execTimerRelease q timer s = _; unfold execTimerRelease; exact hkey hh
  | latchSetDefine q set counters => cases hf; change execLatchSetDefine q set counters s = _; unfold execLatchSetDefine; exact hkey hh
  | traceArm q buffer sources dest len => cases hf; change execTraceArm q buffer sources dest len s = _; unfold execTraceArm; exact hkey hh
  | traceStop q buffer => cases hf; change execTraceStop q buffer s = _; unfold execTraceStop; exact hkey hh
  | dumpTensor q plan symbol step dest len => cases hf; change execDumpTensor q plan symbol step dest len s = _; unfold execDumpTensor; exact hkey hh
  | readTileCounter q pod counter => cases hf; change execReadTileCounter q pod counter s = _; unfold execReadTileCounter; exact hkey hh
  | fwUpdate q image src len verifies => cases hf; change execFwUpdate q image src len verifies s = _; unfold execFwUpdate; exact hkey hh
  | fwSelect q image verifies => cases hf; change execFwSelect q image verifies s = _; unfold execFwSelect; exact hkey hh
  | lifecycle q target cred credLen verifies seed key => cases hf; change execLifecycle q target cred credLen verifies seed key s = _; unfold execLifecycle; exact hkey hh
  | lifecycleRestart => cases hf
  | attest q nonce dest len signature =>
    cases hf
    change execAttest q nonce dest len signature s = _
    unfold execAttest
    dsimp only
    split
    · rfl
    · exact hkey hh
  | channelClaim q resource => cases hf; change execChannelClaim q resource s = _; unfold execChannelClaim; exact hkey hh
  | channelRelease q resource => cases hf; change execChannelRelease q resource s = _; unfold execChannelRelease; exact hkey hh
  | encOpen q config => cases hf; change execEncOpen q config s = _; unfold execEncOpen; exact hkey hh
  | encSubmit q session forceIdr picture pts => cases hf; change execEncSubmit q session forceIdr picture pts s = _; unfold execEncSubmit; exact hkey hh
  | encConfig q session config => cases hf; change execEncConfig q session config s = _; unfold execEncConfig; exact hkey hh
  | encClose q session => cases hf; change execEncClose q session s = _; unfold execEncClose; exact hkey hh
  | registerWrite port offset size value => cases hf
  | misalignedWindowAccess port write offset size => cases hf
  | cqTail port queue value => cases hf
  | queueEnable port queue => cases hf
  | qReset port queue => cases hf
  | queueDrained q => cases hf
  | packetFetch q fetchFails => cases hf
  | irqHoldoffEnd q => cases hf
  | semAcquire port n low => cases hf
  | semRelease port n => cases hf
  | beatNowRead port => cases hf
  | deviceTimeRead port half => cases hf
  | linkTrained port width rate => cases hf
  | linkRetrain port corrected replayed => cases hf
  | portReset port => cases hf
  | ptpSyncRecord port ptpTime => cases hf
  | ptpSyncTimeout => cases hf
  | resetNAssert => cases hf
  | resetNRelease => cases hf
  | firmwareVerified statusA statusB => cases hf
  | d2dTrained ok => cases hf
  | gddr7Trained ok => cases hf
  | selfTestDone failed othersPass => cases hf
  | startWipeDone ok => cases hf
  | startStageTimeout => cases hf
  | huskRestart => cases hf
  | attestTreeDone => cases hf
  | jtagInstruction ir => cases hf
  | smbusBlockRead code => cases hf
  | smbusAlertResponse => cases hf
  | powerBrakeAssert => cases hf
  | powerBrakeRelease => cases hf
  | sensorReading temps => cases hf
  | railSample readings podFixed => cases hf
  | fastLimit rail => cases hf
  | fastLimitStop rail => cases hf
  | fastLimitRestore rail => cases hf
  | railVoltageReached rail => cases hf
  | avsVoltageTimeout rail => cases hf
  | avsbusRetry rail ok => cases hf
  | budgetCheckpoint => cases hf
  | telemetrySnapshot => cases hf
  | idleOffExpiry domain => cases hf
  | ageingReading domain stressed reference => cases hf
  | domainPoweredUp domain => cases hf
  | domainDrained domain => cases hf
  | wipeDone domain => cases hf
  | powerDownDone domain => cases hf
  | offDwellEnd domain => cases hf
  | beatStart => cases hf
  | cadenceInEdge highNs => cases hf
  | refWindowEnd => cases hf
  | cadenceOutPulse => cases hf
  | pulseWidthEnd pin => cases hf
  | eventSlotFire slot => cases hf
  | schedulerTimerFire timer => cases hf
  | liveTaskStart stream => cases hf
  | contextSaveDone core => cases hf
  | quantumExpiry core => cases hf
  | liveTaskComplete stream => cases hf
  | contextRestoreDone core => cases hf
  | liveDeadline stream => cases hf
  | descriptorIssue core flips => cases hf
  | matmulComplete core engine flips => cases hf
  | convComplete core engine flips => cases hf
  | combineComplete core engine flips => cases hf
  | vectorComplete core flips => cases hf
  | attentionComplete core flips => cases hf
  | moveComplete core flips => cases hf
  | moveArrival core => cases hf
  | counterArm pod counter => cases hf
  | tileClaim core => cases hf
  | tileCompletion core => cases hf
  | reissueTimeout pod counter index => cases hf
  | pageArrival src flips => cases hf
  | gradientChunkArrival pod flips => cases hf
  | updatePassComplete unit flips => cases hf
  | stageBlockArrival flips => cases hf
  | writebackArrival block flips => cases hf
  | multicastArrival pod layer flips => cases hf
  | hullerJobTake ring => cases hf
  | hullerJobStart block => cases hf
  | hullerLivePreempt block => cases hf
  | hullerJobComplete block flips ctxBad => cases hf
  | sampleTake ring => cases hf
  | shaperPicture => cases hf
  | sampleBudgetExpiry ordinal => cases hf
  | batchDeadline batch => cases hf
  | batchReady batch => cases hf
  | liveInputReady stream => cases hf
  | encPictureStart => cases hf
  | encRowCoded => cases hf
  | encSliceWrite => cases hf
  | encRingWaitLimit => cases hf
  | encPictureDone => cases hf
  | channelTail port channel value => cases hf
  | channelStart port channel => cases hf
  | channelPause port channel => cases hf
  | channelResume port channel => cases hf
  | channelRetry port channel => cases hf
  | channelSkip port channel => cases hf
  | channelReset port channel => cases hf
  | channelQuiesced channel => cases hf
  | moverBurst engine flips => cases hf
  | descriptorWriteBack channel => cases hf
  | moverFenceDone channel => cases hf
  | moverFault channel status addr => cases hf
  | hostTransferTimeout channel => cases hf
  | traceRecord die => cases hf
  | traceRecordWrite => cases hf
  | dumpRead flips => cases hf
  | latchEnd cmd => cases hf
  | stopPointReached core engine tiles flips => cases hf
  | planLoadDone plan => cases hf
  | tableLoadDone kind num => cases hf
  | stateLoadDone plan flips => cases hf
  | stateSaveDone plan flips => cases hf
  | fwUpdateDone matches_ => cases hf
  | vddAonRise => cases hf

end Sys2Proof.Machine
end

