-- ==== Sys2Proof/Laws/Exec.lean ====
section
/-! SUPPORT. What every command does: one lemma over all of them. -/

namespace Sys2Proof.Machine

set_option maxRecDepth 4000 in
set_option maxHeartbeats 1000000 in
/-- Every command keeps the device sound and changes the one-time-programmable cells lawfully, but for the scan instructions that are
refused. -/
theorem exec_lawful (c : Instr) (s : State) : Res.Gives s s.dev.Lawful (exec c s) ∨
    (∃ ir, c = .jtagInstruction ir ∧ 2 ≤ ir ∧ (s.dev.plat.lcWord = 0 ∨ s.dev.plat.lcWord = 4) ∧ exec c s = .refused (.jtagScan ir)) := by
  cases c
  case nop q => simp only [exec]; exact .inl (gives_mono (execNop_kept _ s) (fun _ => Dev.Kept.lawful))
  case identify q => simp only [exec]; exact .inl (gives_mono (execIdentify_kept _ s) (fun _ => Dev.Kept.lawful))
  case getStatus q => simp only [exec]; exact .inl (gives_mono (execGetStatus_kept _ s) (fun _ => Dev.Kept.lawful))
  case readFaultLog q dest => simp only [exec]; exact .inl (gives_mono (execReadFaultLog_kept _ _ s) (fun _ => Dev.Kept.lawful))
  case reset q => simp only [exec]; exact .inl (gives_mono (execReset_kept _ s) (fun _ => Dev.Kept.lawful))
  case resetExecute => simp only [exec]; exact .inl (execResetExecute_lawful  s)
  case gpioClaim q pin => simp only [exec]; exact .inl (gives_mono (execGpioClaim_kept _ _ s) (fun _ => Dev.Kept.lawful))
  case gpioRelease q pin => simp only [exec]; exact .inl (gives_mono (execGpioRelease_kept _ _ s) (fun _ => Dev.Kept.lawful))
  case gpioSet q pin mode value alt => simp only [exec]; exact .inl (gives_mono (execGpioSet_kept _ _ _ _ _ s) (fun _ => Dev.Kept.lawful))
  case fence q => simp only [exec]; exact .inl (gives_mono (execFence_kept _ s) (fun _ => Dev.Kept.lawful))
  case fill q dest len value => simp only [exec]; exact .inl (gives_mono (execFill_kept _ _ _ _ s) (fun _ => Dev.Kept.lawful))
  case writeInline q dest data => simp only [exec]; exact .inl (gives_mono (execWriteInline_kept _ _ _ s) (fun _ => Dev.Kept.lawful))
  case poolCreate q pod pool frameBytes base frames => simp only [exec]; exact .inl (gives_mono (execPoolCreate_kept _ _ _ _ _ _ s) (fun _ => Dev.Kept.lawful))
  case poolDestroy q pod pool => simp only [exec]; exact .inl (gives_mono (execPoolDestroy_kept _ _ _ s) (fun _ => Dev.Kept.lawful))
  case seqCreate q pod pool table entries ringPages => simp only [exec]; exact .inl (gives_mono (execSeqCreate_kept _ _ _ _ _ _ s) (fun _ => Dev.Kept.lawful))
  case seqDestroy q pod table => simp only [exec]; exact .inl (gives_mono (execSeqDestroy_kept _ _ _ s) (fun _ => Dev.Kept.lawful))
  case pageAlloc q pod table entry lpage => simp only [exec]; exact .inl (gives_mono (execPageAlloc_kept _ _ _ _ _ s) (fun _ => Dev.Kept.lawful))
  case pageShare q pod srcTable srcEntry dstTable dstEntry => simp only [exec]; exact .inl (gives_mono (execPageShare_kept _ _ _ _ _ _ s) (fun _ => Dev.Kept.lawful))
  case pageFree q pod table entry => simp only [exec]; exact .inl (gives_mono (execPageFree_kept _ _ _ _ s) (fun _ => Dev.Kept.lawful))
  case planLoad q src len => simp only [exec]; exact .inl (gives_mono (execPlanLoad_kept _ _ _ s) (fun _ => Dev.Kept.lawful))
  case planUnload q plan => simp only [exec]; exact .inl (gives_mono (execPlanUnload_kept _ _ s) (fun _ => Dev.Kept.lawful))
  case runStep q plan step => simp only [exec]; exact .inl (gives_mono (execRunStep_kept _ _ _ s) (fun _ => Dev.Kept.lawful))
  case stepAbort q plan => simp only [exec]; exact .inl (gives_mono (execStepAbort_kept _ _ s) (fun _ => Dev.Kept.lawful))
  case waitingStepStart plan => simp only [exec]; exact .inl (gives_mono (execWaitingStepStart_kept _ s) (fun _ => Dev.Kept.lawful))
  case stepComplete plan => simp only [exec]; exact .inl (gives_mono (execStepComplete_kept _ s) (fun _ => Dev.Kept.lawful))
  case streamOpen q record => simp only [exec]; exact .inl (gives_mono (execStreamOpen_kept _ _ s) (fun _ => Dev.Kept.lawful))
  case streamClose q stream => simp only [exec]; exact .inl (gives_mono (execStreamClose_kept _ _ s) (fun _ => Dev.Kept.lawful))
  case ingestConfig q profile dests => simp only [exec]; exact .inl (gives_mono (execIngestConfig_kept _ _ _ s) (fun _ => Dev.Kept.lawful))
  case ingestRing q ring kind log2 entryBase compBase batchBase handoffBase => simp only [exec]; exact .inl (gives_mono (execIngestRing_kept _ _ _ _ _ _ _ _ s) (fun _ => Dev.Kept.lawful))
  case ingestDoorbell q ring tail => simp only [exec]; exact .inl (gives_mono (execIngestDoorbell_kept _ _ _ s) (fun _ => Dev.Kept.lawful))
  case ingestRingClose q ring => simp only [exec]; exact .inl (gives_mono (execIngestRingClose_kept _ _ s) (fun _ => Dev.Kept.lawful))
  case tableLoad q kind src len => simp only [exec]; exact .inl (gives_mono (execTableLoad_kept _ _ _ _ s) (fun _ => Dev.Kept.lawful))
  case ingestReport q dest => simp only [exec]; exact .inl (gives_mono (execIngestReport_kept _ _ s) (fun _ => Dev.Kept.lawful))
  case runConfig q plan run => simp only [exec]; exact .inl (gives_mono (execRunConfig_kept _ _ _ s) (fun _ => Dev.Kept.lawful))
  case groupWrite q plan group step record => simp only [exec]; exact .inl (gives_mono (execGroupWrite_kept _ _ _ _ _ s) (fun _ => Dev.Kept.lawful))
  case stateLoad q plan src len => simp only [exec]; exact .inl (gives_mono (execStateLoad_kept _ _ _ _ s) (fun _ => Dev.Kept.lawful))
  case stateSave q plan dest len => simp only [exec]; exact .inl (gives_mono (execStateSave_kept _ _ _ _ s) (fun _ => Dev.Kept.lawful))
  case domainOn q id => simp only [exec]; exact .inl (gives_mono (execDomainOn_kept _ _ s) (fun _ => Dev.Kept.lawful))
  case domainOff q id => simp only [exec]; exact .inl (gives_mono (execDomainOff_kept _ _ s) (fun _ => Dev.Kept.lawful))
  case domainAuto q id => simp only [exec]; exact .inl (gives_mono (execDomainAuto_kept _ _ s) (fun _ => Dev.Kept.lawful))
  case setEnergyBudget q record => simp only [exec]; exact .inl (gives_mono (execSetEnergyBudget_kept _ _ s) (fun _ => Dev.Kept.lawful))
  case ageingReport q dest => simp only [exec]; exact .inl (gives_mono (execAgeingReport_kept _ _ s) (fun _ => Dev.Kept.lawful))
  case cadenceConfig q cad lock sched => simp only [exec]; exact .inl (gives_mono (execCadenceConfig_kept _ _ _ _ s) (fun _ => Dev.Kept.lawful))
  case eventSet q slot => simp only [exec]; exact .inl (gives_mono (execEventSet_kept _ _ s) (fun _ => Dev.Kept.lawful))
  case eventClear q slot => simp only [exec]; exact .inl (gives_mono (execEventClear_kept _ _ s) (fun _ => Dev.Kept.lawful))
  case timerClaim q timer periodic interval slot => simp only [exec]; exact .inl (gives_mono (execTimerClaim_kept _ _ _ _ _ s) (fun _ => Dev.Kept.lawful))
  case timerRelease q timer => simp only [exec]; exact .inl (gives_mono (execTimerRelease_kept _ _ s) (fun _ => Dev.Kept.lawful))
  case latchSetDefine q set counters => simp only [exec]; exact .inl (gives_mono (execLatchSetDefine_kept _ _ _ s) (fun _ => Dev.Kept.lawful))
  case traceArm q buffer sources dest len => simp only [exec]; exact .inl (gives_mono (execTraceArm_kept _ _ _ _ _ s) (fun _ => Dev.Kept.lawful))
  case traceStop q buffer => simp only [exec]; exact .inl (gives_mono (execTraceStop_kept _ _ s) (fun _ => Dev.Kept.lawful))
  case dumpTensor q plan symbol step dest len => simp only [exec]; exact .inl (gives_mono (execDumpTensor_kept _ _ _ _ _ _ s) (fun _ => Dev.Kept.lawful))
  case readTileCounter q pod counter => simp only [exec]; exact .inl (gives_mono (execReadTileCounter_kept _ _ _ s) (fun _ => Dev.Kept.lawful))
  case fwUpdate q image src len verifies => simp only [exec]; exact .inl (gives_mono (execFwUpdate_kept _ _ _ _ _ s) (fun _ => Dev.Kept.lawful))
  case fwSelect q image verifies => simp only [exec]; exact .inl (gives_mono (execFwSelect_kept _ _ _ s) (fun _ => Dev.Kept.lawful))
  case lifecycle q target cred credLen verifies seed key => simp only [exec]; exact .inl (execLifecycle_lawful _ _ _ _ _ _ _ s)
  case lifecycleRestart => simp only [exec]; exact .inl (gives_mono (execLifecycleRestart_kept  s) (fun _ => Dev.Kept.lawful))
  case attest q nonce dest len signature => simp only [exec]; exact .inl (gives_mono (execAttest_kept _ _ _ _ _ s) (fun _ => Dev.Kept.lawful))
  case channelClaim q resource => simp only [exec]; exact .inl (gives_mono (execChannelClaim_kept _ _ s) (fun _ => Dev.Kept.lawful))
  case channelRelease q resource => simp only [exec]; exact .inl (gives_mono (execChannelRelease_kept _ _ s) (fun _ => Dev.Kept.lawful))
  case encOpen q config => simp only [exec]; exact .inl (gives_mono (execEncOpen_kept _ _ s) (fun _ => Dev.Kept.lawful))
  case encSubmit q session forceIdr picture pts => simp only [exec]; exact .inl (gives_mono (execEncSubmit_kept _ _ _ _ _ s) (fun _ => Dev.Kept.lawful))
  case encConfig q session config => simp only [exec]; exact .inl (gives_mono (execEncConfig_kept _ _ _ s) (fun _ => Dev.Kept.lawful))
  case encClose q session => simp only [exec]; exact .inl (gives_mono (execEncClose_kept _ _ s) (fun _ => Dev.Kept.lawful))
  case registerWrite port offset size value => simp only [exec]; exact .inl (gives_mono (execRegisterWrite_kept _ _ _ _ s) (fun _ => Dev.Kept.lawful))
  case misalignedWindowAccess port write offset size => simp only [exec]; exact .inl (gives_mono (execMisalignedWindowAccess_kept _ _ _ _ s) (fun _ => Dev.Kept.lawful))
  case cqTail port queue value => simp only [exec]; exact .inl (gives_mono (execCqTail_kept _ _ _ s) (fun _ => Dev.Kept.lawful))
  case queueEnable port queue => simp only [exec]; exact .inl (gives_mono (execQueueEnable_kept _ _ s) (fun _ => Dev.Kept.lawful))
  case qReset port queue => simp only [exec]; exact .inl (gives_mono (execQReset_kept _ _ s) (fun _ => Dev.Kept.lawful))
  case queueDrained q => simp only [exec]; exact .inl (gives_mono (execQueueDrained_kept _ s) (fun _ => Dev.Kept.lawful))
  case packetFetch q fetchFails => simp only [exec]; exact .inl (gives_mono (execPacketFetch_kept _ _ s) (fun _ => Dev.Kept.lawful))
  case irqHoldoffEnd q => simp only [exec]; exact .inl (gives_mono (execIrqHoldoffEnd_kept _ s) (fun _ => Dev.Kept.lawful))
  case semAcquire port n low => simp only [exec]; exact .inl (gives_mono (execSemAcquire_kept _ _ _ s) (fun _ => Dev.Kept.lawful))
  case semRelease port n => simp only [exec]; exact .inl (gives_mono (execSemRelease_kept _ _ s) (fun _ => Dev.Kept.lawful))
  case beatNowRead port => simp only [exec]; exact .inl (gives_mono (execBeatNowRead_kept _ s) (fun _ => Dev.Kept.lawful))
  case deviceTimeRead port half => simp only [exec]; exact .inl (gives_mono (execDeviceTimeRead_kept _ _ s) (fun _ => Dev.Kept.lawful))
  case linkTrained port width rate => simp only [exec]; exact .inl (gives_mono (execLinkTrained_kept _ _ _ s) (fun _ => Dev.Kept.lawful))
  case linkRetrain port corrected replayed => simp only [exec]; exact .inl (gives_mono (execLinkRetrain_kept _ _ _ s) (fun _ => Dev.Kept.lawful))
  case portReset port => simp only [exec]; exact .inl (gives_mono (execPortReset_kept _ s) (fun _ => Dev.Kept.lawful))
  case ptpSyncRecord port ptpTime => simp only [exec]; exact .inl (gives_mono (execPtpSyncRecord_kept _ _ s) (fun _ => Dev.Kept.lawful))
  case ptpSyncTimeout => simp only [exec]; exact .inl (gives_mono (execPtpSyncTimeout_kept  s) (fun _ => Dev.Kept.lawful))
  case resetNAssert => simp only [exec]; exact .inl (gives_mono (execResetNAssert_kept  s) (fun _ => Dev.Kept.lawful))
  case resetNRelease => simp only [exec]; exact .inl (execResetNRelease_lawful  s)
  case firmwareVerified statusA statusB => simp only [exec]; exact .inl (execFirmwareVerified_lawful _ _ s)
  case d2dTrained ok => simp only [exec]; exact .inl (gives_mono (execD2dTrained_kept _ s) (fun _ => Dev.Kept.lawful))
  case gddr7Trained ok => simp only [exec]; exact .inl (gives_mono (execGddr7Trained_kept _ s) (fun _ => Dev.Kept.lawful))
  case selfTestDone failed othersPass => simp only [exec]; exact .inl (gives_mono (execSelfTestDone_kept _ _ s) (fun _ => Dev.Kept.lawful))
  case startWipeDone ok => simp only [exec]; exact .inl (execStartWipeDone_lawful _ s)
  case startStageTimeout => simp only [exec]; exact .inl (gives_mono (execStartStageTimeout_kept  s) (fun _ => Dev.Kept.lawful))
  case huskRestart => simp only [exec]; exact .inl (execHuskRestart_lawful  s)
  case attestTreeDone => simp only [exec]; exact .inl (gives_mono (execAttestTreeDone_kept  s) (fun _ => Dev.Kept.lawful))
  case jtagInstruction ir =>
    rcases execJtagInstruction_kept ir s with h | h
    · right
      refine ⟨ir, rfl, ?_⟩
      have h2 := h
      unfold execJtagInstruction at h2
      dsimp only at h2
      split at h2
      · simp [nextDev] at h2
      · split at h2
        · rename_i a b; exact ⟨by omega, b.2, h⟩
        · simp [nextDev] at h2
    · exact .inl (gives_mono h (fun _ => Dev.Kept.lawful))
  case smbusBlockRead code => simp only [exec]; exact .inl (gives_mono (execSmbusBlockRead_kept _ s) (fun _ => Dev.Kept.lawful))
  case smbusAlertResponse => simp only [exec]; exact .inl (gives_mono (execSmbusAlertResponse_kept  s) (fun _ => Dev.Kept.lawful))
  case powerBrakeAssert => simp only [exec]; exact .inl (gives_mono (execPowerBrakeAssert_kept  s) (fun _ => Dev.Kept.lawful))
  case powerBrakeRelease => simp only [exec]; exact .inl (gives_mono (execPowerBrakeRelease_kept  s) (fun _ => Dev.Kept.lawful))
  case sensorReading temps => simp only [exec]; exact .inl (gives_mono (execSensorReading_kept _ s) (fun _ => Dev.Kept.lawful))
  case railSample readings podFixed => simp only [exec]; exact .inl (gives_mono (execRailSample_kept _ _ s) (fun _ => Dev.Kept.lawful))
  case fastLimit rail => simp only [exec]; exact .inl (gives_mono (execFastLimit_kept _ s) (fun _ => Dev.Kept.lawful))
  case fastLimitStop rail => simp only [exec]; exact .inl (gives_mono (execFastLimitStop_kept _ s) (fun _ => Dev.Kept.lawful))
  case fastLimitRestore rail => simp only [exec]; exact .inl (gives_mono (execFastLimitRestore_kept _ s) (fun _ => Dev.Kept.lawful))
  case railVoltageReached rail => simp only [exec]; exact .inl (gives_mono (execRailVoltageReached_kept _ s) (fun _ => Dev.Kept.lawful))
  case avsVoltageTimeout rail => simp only [exec]; exact .inl (gives_mono (execAvsVoltageTimeout_kept _ s) (fun _ => Dev.Kept.lawful))
  case avsbusRetry rail ok => simp only [exec]; exact .inl (gives_mono (execAvsbusRetry_kept _ _ s) (fun _ => Dev.Kept.lawful))
  case budgetCheckpoint => simp only [exec]; exact .inl (gives_mono (execBudgetCheckpoint_kept  s) (fun _ => Dev.Kept.lawful))
  case telemetrySnapshot => simp only [exec]; exact .inl (gives_mono (execTelemetrySnapshot_kept  s) (fun _ => Dev.Kept.lawful))
  case idleOffExpiry domain => simp only [exec]; exact .inl (gives_mono (execIdleOffExpiry_kept _ s) (fun _ => Dev.Kept.lawful))
  case ageingReading domain stressed reference => simp only [exec]; exact .inl (gives_mono (execAgeingReading_kept _ _ _ s) (fun _ => Dev.Kept.lawful))
  case domainPoweredUp domain => simp only [exec]; exact .inl (gives_mono (execDomainPoweredUp_kept _ s) (fun _ => Dev.Kept.lawful))
  case domainDrained domain => simp only [exec]; exact .inl (gives_mono (execDomainDrained_kept _ s) (fun _ => Dev.Kept.lawful))
  case wipeDone domain => simp only [exec]; exact .inl (gives_mono (execWipeDone_kept _ s) (fun _ => Dev.Kept.lawful))
  case powerDownDone domain => simp only [exec]; exact .inl (gives_mono (execPowerDownDone_kept _ s) (fun _ => Dev.Kept.lawful))
  case offDwellEnd domain => simp only [exec]; exact .inl (gives_mono (execOffDwellEnd_kept _ s) (fun _ => Dev.Kept.lawful))
  case beatStart => simp only [exec]; exact .inl (gives_mono (execBeatStart_kept  s) (fun _ => Dev.Kept.lawful))
  case cadenceInEdge highNs => simp only [exec]; exact .inl (gives_mono (execCadenceInEdge_kept _ s) (fun _ => Dev.Kept.lawful))
  case refWindowEnd => simp only [exec]; exact .inl (gives_mono (execRefWindowEnd_kept  s) (fun _ => Dev.Kept.lawful))
  case cadenceOutPulse => simp only [exec]; exact .inl (gives_mono (execCadenceOutPulse_kept  s) (fun _ => Dev.Kept.lawful))
  case pulseWidthEnd pin => simp only [exec]; exact .inl (gives_mono (execPulseWidthEnd_kept _ s) (fun _ => Dev.Kept.lawful))
  case eventSlotFire slot => simp only [exec]; exact .inl (gives_mono (execEventSlotFire_kept _ s) (fun _ => Dev.Kept.lawful))
  case schedulerTimerFire timer => simp only [exec]; exact .inl (gives_mono (execSchedulerTimerFire_kept _ s) (fun _ => Dev.Kept.lawful))
  case liveTaskStart stream => simp only [exec]; exact .inl (gives_mono (execLiveTaskStart_kept _ s) (fun _ => Dev.Kept.lawful))
  case contextSaveDone core => simp only [exec]; exact .inl (gives_mono (execContextSaveDone_kept _ s) (fun _ => Dev.Kept.lawful))
  case quantumExpiry core => simp only [exec]; exact .inl (gives_mono (execQuantumExpiry_kept _ s) (fun _ => Dev.Kept.lawful))
  case liveTaskComplete stream => simp only [exec]; exact .inl (gives_mono (execLiveTaskComplete_kept _ s) (fun _ => Dev.Kept.lawful))
  case contextRestoreDone core => simp only [exec]; exact .inl (gives_mono (execContextRestoreDone_kept _ s) (fun _ => Dev.Kept.lawful))
  case liveDeadline stream => simp only [exec]; exact .inl (gives_mono (execLiveDeadline_kept _ s) (fun _ => Dev.Kept.lawful))
  case descriptorIssue core flips => simp only [exec]; exact .inl (gives_mono (execDescriptorIssue_kept _ _ s) (fun _ => Dev.Kept.lawful))
  case matmulComplete core engine flips => simp only [exec]; exact .inl (gives_mono (execMatmulComplete_kept _ _ _ s) (fun _ => Dev.Kept.lawful))
  case convComplete core engine flips => simp only [exec]; exact .inl (gives_mono (execConvComplete_kept _ _ _ s) (fun _ => Dev.Kept.lawful))
  case combineComplete core engine flips => simp only [exec]; exact .inl (gives_mono (execCombineComplete_kept _ _ _ s) (fun _ => Dev.Kept.lawful))
  case vectorComplete core flips => simp only [exec]; exact .inl (gives_mono (execVectorComplete_kept _ _ s) (fun _ => Dev.Kept.lawful))
  case attentionComplete core flips => simp only [exec]; exact .inl (gives_mono (execAttentionComplete_kept _ _ s) (fun _ => Dev.Kept.lawful))
  case moveComplete core flips => simp only [exec]; exact .inl (gives_mono (execMoveComplete_kept _ _ s) (fun _ => Dev.Kept.lawful))
  case moveArrival core => simp only [exec]; exact .inl (gives_mono (execMoveArrival_kept _ s) (fun _ => Dev.Kept.lawful))
  case counterArm pod counter => simp only [exec]; exact .inl (gives_mono (execCounterArm_kept _ _ s) (fun _ => Dev.Kept.lawful))
  case tileClaim core => simp only [exec]; exact .inl (gives_mono (execTileClaim_kept _ s) (fun _ => Dev.Kept.lawful))
  case tileCompletion core => simp only [exec]; exact .inl (gives_mono (execTileCompletion_kept _ s) (fun _ => Dev.Kept.lawful))
  case reissueTimeout pod counter index => simp only [exec]; exact .inl (gives_mono (execReissueTimeout_kept _ _ _ s) (fun _ => Dev.Kept.lawful))
  case pageArrival src flips => simp only [exec]; exact .inl (gives_mono (execPageArrival_kept _ _ s) (fun _ => Dev.Kept.lawful))
  case gradientChunkArrival pod flips => simp only [exec]; exact .inl (gives_mono (execGradientChunkArrival_kept _ _ s) (fun _ => Dev.Kept.lawful))
  case updatePassComplete unit flips => simp only [exec]; exact .inl (gives_mono (execUpdatePassComplete_kept _ _ s) (fun _ => Dev.Kept.lawful))
  case stageBlockArrival flips => simp only [exec]; exact .inl (gives_mono (execStageBlockArrival_kept _ s) (fun _ => Dev.Kept.lawful))
  case writebackArrival block flips => simp only [exec]; exact .inl (gives_mono (execWritebackArrival_kept _ _ s) (fun _ => Dev.Kept.lawful))
  case multicastArrival pod layer flips => simp only [exec]; exact .inl (gives_mono (execMulticastArrival_kept _ _ _ s) (fun _ => Dev.Kept.lawful))
  case hullerJobTake ring => simp only [exec]; exact .inl (gives_mono (execHullerJobTake_kept _ s) (fun _ => Dev.Kept.lawful))
  case hullerJobStart block => simp only [exec]; exact .inl (gives_mono (execHullerJobStart_kept _ s) (fun _ => Dev.Kept.lawful))
  case hullerLivePreempt block => simp only [exec]; exact .inl (gives_mono (execHullerLivePreempt_kept _ s) (fun _ => Dev.Kept.lawful))
  case hullerJobComplete block flips ctxBad => simp only [exec]; exact .inl (gives_mono (execHullerJobComplete_kept _ _ _ s) (fun _ => Dev.Kept.lawful))
  case sampleTake ring => simp only [exec]; exact .inl (gives_mono (execSampleTake_kept _ s) (fun _ => Dev.Kept.lawful))
  case shaperPicture => simp only [exec]; exact .inl (gives_mono (execShaperPicture_kept  s) (fun _ => Dev.Kept.lawful))
  case sampleBudgetExpiry ordinal => simp only [exec]; exact .inl (gives_mono (execSampleBudgetExpiry_kept _ s) (fun _ => Dev.Kept.lawful))
  case batchDeadline batch => simp only [exec]; exact .inl (gives_mono (execBatchDeadline_kept _ s) (fun _ => Dev.Kept.lawful))
  case batchReady batch => simp only [exec]; exact .inl (gives_mono (execBatchReady_kept _ s) (fun _ => Dev.Kept.lawful))
  case liveInputReady stream => simp only [exec]; exact .inl (gives_mono (execLiveInputReady_kept _ s) (fun _ => Dev.Kept.lawful))
  case encPictureStart => simp only [exec]; exact .inl (gives_mono (execEncPictureStart_kept  s) (fun _ => Dev.Kept.lawful))
  case encRowCoded => simp only [exec]; exact .inl (gives_mono (execEncRowCoded_kept s) (fun _ => Dev.Kept.lawful))
  case encSliceWrite => simp only [exec]; exact .inl (gives_mono (execEncSliceWrite_kept s) (fun _ => Dev.Kept.lawful))
  case encRingWaitLimit => simp only [exec]; exact .inl (gives_mono (execEncRingWaitLimit_kept  s) (fun _ => Dev.Kept.lawful))
  case encPictureDone => simp only [exec]; exact .inl (gives_mono (execEncPictureDone_kept  s) (fun _ => Dev.Kept.lawful))
  case channelTail port channel value => simp only [exec]; exact .inl (gives_mono (execChannelTail_kept _ _ _ s) (fun _ => Dev.Kept.lawful))
  case channelStart port channel => simp only [exec]; exact .inl (gives_mono (execChannelStart_kept _ _ s) (fun _ => Dev.Kept.lawful))
  case channelPause port channel => simp only [exec]; exact .inl (gives_mono (execChannelPause_kept _ _ s) (fun _ => Dev.Kept.lawful))
  case channelResume port channel => simp only [exec]; exact .inl (gives_mono (execChannelResume_kept _ _ s) (fun _ => Dev.Kept.lawful))
  case channelRetry port channel => simp only [exec]; exact .inl (gives_mono (execChannelRetry_kept _ _ s) (fun _ => Dev.Kept.lawful))
  case channelSkip port channel => simp only [exec]; exact .inl (gives_mono (execChannelSkip_kept _ _ s) (fun _ => Dev.Kept.lawful))
  case channelReset port channel => simp only [exec]; exact .inl (gives_mono (execChannelReset_kept _ _ s) (fun _ => Dev.Kept.lawful))
  case channelQuiesced channel => simp only [exec]; exact .inl (gives_mono (execChannelQuiesced_kept _ s) (fun _ => Dev.Kept.lawful))
  case moverBurst engine flips => simp only [exec]; exact .inl (gives_mono (execMoverBurst_kept _ _ s) (fun _ => Dev.Kept.lawful))
  case descriptorWriteBack channel => simp only [exec]; exact .inl (gives_mono (execDescriptorWriteBack_kept _ s) (fun _ => Dev.Kept.lawful))
  case moverFenceDone channel => simp only [exec]; exact .inl (gives_mono (execMoverFenceDone_kept _ s) (fun _ => Dev.Kept.lawful))
  case moverFault channel status addr => simp only [exec]; exact .inl (gives_mono (execMoverFault_kept _ _ _ s) (fun _ => Dev.Kept.lawful))
  case hostTransferTimeout channel => simp only [exec]; exact .inl (gives_mono (execHostTransferTimeout_kept _ s) (fun _ => Dev.Kept.lawful))
  case traceRecord die => simp only [exec]; exact .inl (gives_mono (execTraceRecord_kept _ s) (fun _ => Dev.Kept.lawful))
  case traceRecordWrite => simp only [exec]; exact .inl (gives_mono (execTraceRecordWrite_kept  s) (fun _ => Dev.Kept.lawful))
  case dumpRead flips => simp only [exec]; exact .inl (gives_mono (execDumpRead_kept _ s) (fun _ => Dev.Kept.lawful))
  case latchEnd cmd => simp only [exec]; exact .inl (gives_mono (execLatchEnd_kept _ s) (fun _ => Dev.Kept.lawful))
  case stopPointReached core engine tiles flips => simp only [exec]; exact .inl (gives_mono (execStopPointReached_kept _ _ _ _ s) (fun _ => Dev.Kept.lawful))
  case planLoadDone plan => simp only [exec]; exact .inl (gives_mono (execPlanLoadDone_kept _ s) (fun _ => Dev.Kept.lawful))
  case tableLoadDone kind num => simp only [exec]; exact .inl (gives_mono (execTableLoadDone_kept _ _ s) (fun _ => Dev.Kept.lawful))
  case stateLoadDone plan flips => simp only [exec]; exact .inl (gives_mono (execStateLoadDone_kept _ _ s) (fun _ => Dev.Kept.lawful))
  case stateSaveDone plan flips => simp only [exec]; exact .inl (gives_mono (execStateSaveDone_kept _ _ s) (fun _ => Dev.Kept.lawful))
  case fwUpdateDone matches_ => simp only [exec]; exact .inl (gives_mono (execFwUpdateDone_kept _ s) (fun _ => Dev.Kept.lawful))
  case vddAonRise => simp only [exec]; exact .inl (gives_mono (execVddAonRise_kept  s) (fun _ => Dev.Kept.lawful))

end Sys2Proof.Machine
end

