-- ==== Sys2Proof/Laws/PerInstr.lean ====
section
/-! SUPPORT. Statements made row by row: the packet of a command. -/

namespace Sys2Proof.Laws.PacketShape

open Sys2Proof Sys2Proof.Machine

/-- The packet of a command carries an opcode that the interpreter knows (R427), parameters of whole 8-byte words that fit a
packet (R442), and, where the command is well formed, one value for each field of its layout (R441). -/
def Statement (i : Instr) : Prop :=
  ∀ f, i.packet = some f → f.opcode ∈ knownOpcodes ∧ paramLen f.layout % 8 = 0 ∧ paramLen f.layout < 2 ^ 12 ∧
    (i.wf = true → f.fields.length = f.layout.length)

theorem length_of_wf {i : Instr} {f : PacketForm} (h : i.wf = true) (hf : i.packet = some f) : f.fields.length = f.layout.length := by
  unfold Instr.wf at h
  rw [hf] at h
  simp only [PacketForm.wf, Bool.and_eq_true, beq_iff_eq] at h
  exact h.2.1.2

theorem of_form {i : Instr} {q op : Nat} {lay fields : List Nat} (h : i.packet = some ⟨q, op, lay, fields⟩) (h1 : op ∈ knownOpcodes)
    (h2 : paramLen lay % 8 = 0) (h3 : paramLen lay < 2 ^ 12) : Statement i := by
  intro f hf
  have hl := fun w => length_of_wf (i := i) w hf
  rw [h] at hf; cases hf
  exact ⟨h1, h2, h3, hl⟩

theorem nop (q : Nat) : Statement (.nop q) := of_form rfl (by decide) (by decide) (by decide)
theorem identify (q : Nat) : Statement (.identify q) := of_form rfl (by decide) (by decide) (by decide)
theorem getStatus (q : Nat) : Statement (.getStatus q) := of_form rfl (by decide) (by decide) (by decide)
theorem readFaultLog (q dest : Nat) : Statement (.readFaultLog q dest) := of_form rfl (by decide) (by decide) (by decide)
theorem reset (q : Nat) : Statement (.reset q) := of_form rfl (by decide) (by decide) (by decide)
theorem resetExecute : Statement .resetExecute := nofun
theorem gpioClaim (q pin : Nat) : Statement (.gpioClaim q pin) := of_form rfl (by decide) (by decide) (by decide)
theorem gpioRelease (q pin : Nat) : Statement (.gpioRelease q pin) := of_form rfl (by decide) (by decide) (by decide)
theorem gpioSet (q pin mode value alt : Nat) : Statement (.gpioSet q pin mode value alt) := of_form rfl (by decide) (by decide) (by decide)
theorem fence (q : Nat) : Statement (.fence q) := of_form rfl (by decide) (by decide) (by decide)
theorem fill (q dest len value : Nat) : Statement (.fill q dest len value) := of_form rfl (by decide) (by decide) (by decide)
theorem writeInline (q dest : Nat) (data : List Byte) : Statement (.writeInline q dest data) := of_form rfl (by decide) (by decide) (by decide)
theorem poolCreate (q pod pool frameBytes base frames : Nat) : Statement (.poolCreate q pod pool frameBytes base frames) := of_form rfl (by decide) (by decide) (by decide)
theorem poolDestroy (q pod pool : Nat) : Statement (.poolDestroy q pod pool) := of_form rfl (by decide) (by decide) (by decide)
theorem seqCreate (q pod pool table entries ringPages : Nat) : Statement (.seqCreate q pod pool table entries ringPages) := of_form rfl (by decide) (by decide) (by decide)
theorem seqDestroy (q pod table : Nat) : Statement (.seqDestroy q pod table) := of_form rfl (by decide) (by decide) (by decide)
theorem pageAlloc (q pod table entry lpage : Nat) : Statement (.pageAlloc q pod table entry lpage) := of_form rfl (by decide) (by decide) (by decide)
theorem pageShare (q pod srcTable srcEntry dstTable dstEntry : Nat) : Statement (.pageShare q pod srcTable srcEntry dstTable dstEntry) := of_form rfl (by decide) (by decide) (by decide)
theorem pageFree (q pod table entry : Nat) : Statement (.pageFree q pod table entry) := of_form rfl (by decide) (by decide) (by decide)
theorem planLoad (q src len : Nat) : Statement (.planLoad q src len) := of_form rfl (by decide) (by decide) (by decide)
theorem planUnload (q plan : Nat) : Statement (.planUnload q plan) := of_form rfl (by decide) (by decide) (by decide)
theorem runStep (q plan step : Nat) : Statement (.runStep q plan step) := of_form rfl (by decide) (by decide) (by decide)
theorem stepAbort (q plan : Nat) : Statement (.stepAbort q plan) := of_form rfl (by decide) (by decide) (by decide)
theorem waitingStepStart (plan : Nat) : Statement (.waitingStepStart plan) := nofun
theorem stepComplete (plan : Nat) : Statement (.stepComplete plan) := nofun
theorem streamOpen (q record : Nat) : Statement (.streamOpen q record) := of_form rfl (by decide) (by decide) (by decide)
theorem streamClose (q stream : Nat) : Statement (.streamClose q stream) := of_form rfl (by decide) (by decide) (by decide)
theorem ingestConfig (q profile : Nat) (dests : List Nat) : Statement (.ingestConfig q profile dests) := of_form rfl (by decide) (by decide) (by decide)
theorem ingestRing (q ring kind log2 entryBase compBase batchBase handoffBase : Nat) : Statement (.ingestRing q ring kind log2 entryBase compBase batchBase handoffBase) := of_form rfl (by decide) (by decide) (by decide)
theorem ingestDoorbell (q ring tail : Nat) : Statement (.ingestDoorbell q ring tail) := of_form rfl (by decide) (by decide) (by decide)
theorem ingestRingClose (q ring : Nat) : Statement (.ingestRingClose q ring) := of_form rfl (by decide) (by decide) (by decide)
theorem tableLoad (q kind src len : Nat) : Statement (.tableLoad q kind src len) := of_form rfl (by decide) (by decide) (by decide)
theorem ingestReport (q dest : Nat) : Statement (.ingestReport q dest) := of_form rfl (by decide) (by decide) (by decide)
theorem runConfig (q plan run : Nat) : Statement (.runConfig q plan run) := of_form rfl (by decide) (by decide) (by decide)
theorem groupWrite (q plan group step record : Nat) : Statement (.groupWrite q plan group step record) := of_form rfl (by decide) (by decide) (by decide)
theorem stateLoad (q plan src len : Nat) : Statement (.stateLoad q plan src len) := of_form rfl (by decide) (by decide) (by decide)
theorem stateSave (q plan dest len : Nat) : Statement (.stateSave q plan dest len) := of_form rfl (by decide) (by decide) (by decide)
theorem domainOn (q id : Nat) : Statement (.domainOn q id) := of_form rfl (by decide) (by decide) (by decide)
theorem domainOff (q id : Nat) : Statement (.domainOff q id) := of_form rfl (by decide) (by decide) (by decide)
theorem domainAuto (q id : Nat) : Statement (.domainAuto q id) := of_form rfl (by decide) (by decide) (by decide)
theorem setEnergyBudget (q record : Nat) : Statement (.setEnergyBudget q record) := of_form rfl (by decide) (by decide) (by decide)
theorem ageingReport (q dest : Nat) : Statement (.ageingReport q dest) := of_form rfl (by decide) (by decide) (by decide)
theorem cadenceConfig (q cad lock sched : Nat) : Statement (.cadenceConfig q cad lock sched) := of_form rfl (by decide) (by decide) (by decide)
theorem eventSet (q slot : Nat) : Statement (.eventSet q slot) := of_form rfl (by decide) (by decide) (by decide)
theorem eventClear (q slot : Nat) : Statement (.eventClear q slot) := of_form rfl (by decide) (by decide) (by decide)
theorem timerClaim (q timer periodic interval slot : Nat) : Statement (.timerClaim q timer periodic interval slot) := of_form rfl (by decide) (by decide) (by decide)
theorem timerRelease (q timer : Nat) : Statement (.timerRelease q timer) := of_form rfl (by decide) (by decide) (by decide)
theorem latchSetDefine (q set : Nat) (counters : List Nat) : Statement (.latchSetDefine q set counters) := of_form rfl (by decide) (by decide) (by decide)
theorem traceArm (q buffer sources dest len : Nat) : Statement (.traceArm q buffer sources dest len) := of_form rfl (by decide) (by decide) (by decide)
theorem traceStop (q buffer : Nat) : Statement (.traceStop q buffer) := of_form rfl (by decide) (by decide) (by decide)
theorem dumpTensor (q plan symbol step dest len : Nat) : Statement (.dumpTensor q plan symbol step dest len) := of_form rfl (by decide) (by decide) (by decide)
theorem readTileCounter (q pod counter : Nat) : Statement (.readTileCounter q pod counter) := of_form rfl (by decide) (by decide) (by decide)
theorem fwUpdate (q image src len : Nat) (verifies : Bool) : Statement (.fwUpdate q image src len verifies) := of_form rfl (by decide) (by decide) (by decide)
theorem fwSelect (q image : Nat) (verifies : Bool) : Statement (.fwSelect q image verifies) := of_form rfl (by decide) (by decide) (by decide)
theorem lifecycle (q target cred credLen : Nat) (verifies : Bool) (seed key : Nat) : Statement (.lifecycle q target cred credLen verifies seed key) := of_form rfl (by decide) (by decide) (by decide)
theorem lifecycleRestart : Statement .lifecycleRestart := nofun
theorem attest (q nonce dest len : Nat) (signature : List Byte) : Statement (.attest q nonce dest len signature) := of_form rfl (by decide) (by decide) (by decide)
theorem channelClaim (q resource : Nat) : Statement (.channelClaim q resource) := of_form rfl (by decide) (by decide) (by decide)
theorem channelRelease (q resource : Nat) : Statement (.channelRelease q resource) := of_form rfl (by decide) (by decide) (by decide)
theorem encOpen (q config : Nat) : Statement (.encOpen q config) := of_form rfl (by decide) (by decide) (by decide)
theorem encSubmit (q session forceIdr picture pts : Nat) : Statement (.encSubmit q session forceIdr picture pts) := of_form rfl (by decide) (by decide) (by decide)
theorem encConfig (q session config : Nat) : Statement (.encConfig q session config) := of_form rfl (by decide) (by decide) (by decide)
theorem encClose (q session : Nat) : Statement (.encClose q session) := of_form rfl (by decide) (by decide) (by decide)
theorem registerWrite (port offset size value : Nat) : Statement (.registerWrite port offset size value) := nofun
theorem misalignedWindowAccess (port : Nat) (write : Bool) (offset size : Nat) : Statement (.misalignedWindowAccess port write offset size) := nofun
theorem cqTail (port queue value : Nat) : Statement (.cqTail port queue value) := nofun
theorem queueEnable (port queue : Nat) : Statement (.queueEnable port queue) := nofun
theorem qReset (port queue : Nat) : Statement (.qReset port queue) := nofun
theorem queueDrained (q : Nat) : Statement (.queueDrained q) := nofun
theorem packetFetch (q : Nat) (fetchFails : Bool) : Statement (.packetFetch q fetchFails) := nofun
theorem irqHoldoffEnd (q : Nat) : Statement (.irqHoldoffEnd q) := nofun
theorem semAcquire (port n : Nat) (low : Bool) : Statement (.semAcquire port n low) := nofun
theorem semRelease (port n : Nat) : Statement (.semRelease port n) := nofun
theorem beatNowRead (port : Nat) : Statement (.beatNowRead port) := nofun
theorem deviceTimeRead (port half : Nat) : Statement (.deviceTimeRead port half) := nofun
theorem linkTrained (port width rate : Nat) : Statement (.linkTrained port width rate) := nofun
theorem linkRetrain (port corrected replayed : Nat) : Statement (.linkRetrain port corrected replayed) := nofun
theorem portReset (port : Nat) : Statement (.portReset port) := nofun
theorem ptpSyncRecord (port ptpTime : Nat) : Statement (.ptpSyncRecord port ptpTime) := nofun
theorem ptpSyncTimeout : Statement .ptpSyncTimeout := nofun
theorem resetNAssert : Statement .resetNAssert := nofun
theorem resetNRelease : Statement .resetNRelease := nofun
theorem firmwareVerified (statusA statusB : Nat) : Statement (.firmwareVerified statusA statusB) := nofun
theorem d2dTrained (ok : Bool) : Statement (.d2dTrained ok) := nofun
theorem gddr7Trained (ok : Bool) : Statement (.gddr7Trained ok) := nofun
theorem selfTestDone (failed : Nat) (othersPass : Bool) : Statement (.selfTestDone failed othersPass) := nofun
theorem startWipeDone (ok : Bool) : Statement (.startWipeDone ok) := nofun
theorem startStageTimeout : Statement .startStageTimeout := nofun
theorem huskRestart : Statement .huskRestart := nofun
theorem attestTreeDone : Statement .attestTreeDone := nofun
theorem jtagInstruction (ir : Nat) : Statement (.jtagInstruction ir) := nofun
theorem smbusBlockRead (code : Nat) : Statement (.smbusBlockRead code) := nofun
theorem smbusAlertResponse : Statement .smbusAlertResponse := nofun
theorem powerBrakeAssert : Statement .powerBrakeAssert := nofun
theorem powerBrakeRelease : Statement .powerBrakeRelease := nofun
theorem sensorReading (temps : List Int) : Statement (.sensorReading temps) := nofun
theorem railSample (readings : List (Nat × Nat)) (podFixed : Nat) : Statement (.railSample readings podFixed) := nofun
theorem fastLimit (rail : Nat) : Statement (.fastLimit rail) := nofun
theorem fastLimitStop (rail : Nat) : Statement (.fastLimitStop rail) := nofun
theorem fastLimitRestore (rail : Nat) : Statement (.fastLimitRestore rail) := nofun
theorem railVoltageReached (rail : Nat) : Statement (.railVoltageReached rail) := nofun
theorem avsVoltageTimeout (rail : Nat) : Statement (.avsVoltageTimeout rail) := nofun
theorem avsbusRetry (rail : Nat) (ok : Bool) : Statement (.avsbusRetry rail ok) := nofun
theorem budgetCheckpoint : Statement .budgetCheckpoint := nofun
theorem telemetrySnapshot : Statement .telemetrySnapshot := nofun
theorem idleOffExpiry (domain : Nat) : Statement (.idleOffExpiry domain) := nofun
theorem ageingReading (domain stressed reference : Nat) : Statement (.ageingReading domain stressed reference) := nofun
theorem domainPoweredUp (domain : Nat) : Statement (.domainPoweredUp domain) := nofun
theorem domainDrained (domain : Nat) : Statement (.domainDrained domain) := nofun
theorem wipeDone (domain : Nat) : Statement (.wipeDone domain) := nofun
theorem powerDownDone (domain : Nat) : Statement (.powerDownDone domain) := nofun
theorem offDwellEnd (domain : Nat) : Statement (.offDwellEnd domain) := nofun
theorem beatStart : Statement .beatStart := nofun
theorem cadenceInEdge (highNs : Nat) : Statement (.cadenceInEdge highNs) := nofun
theorem refWindowEnd : Statement .refWindowEnd := nofun
theorem cadenceOutPulse : Statement .cadenceOutPulse := nofun
theorem pulseWidthEnd (pin : Nat) : Statement (.pulseWidthEnd pin) := nofun
theorem eventSlotFire (slot : Nat) : Statement (.eventSlotFire slot) := nofun
theorem schedulerTimerFire (timer : Nat) : Statement (.schedulerTimerFire timer) := nofun
theorem liveTaskStart (stream : Nat) : Statement (.liveTaskStart stream) := nofun
theorem contextSaveDone (core : Nat) : Statement (.contextSaveDone core) := nofun
theorem quantumExpiry (core : Nat) : Statement (.quantumExpiry core) := nofun
theorem liveTaskComplete (stream : Nat) : Statement (.liveTaskComplete stream) := nofun
theorem contextRestoreDone (core : Nat) : Statement (.contextRestoreDone core) := nofun
theorem liveDeadline (stream : Nat) : Statement (.liveDeadline stream) := nofun
theorem descriptorIssue (core : Nat) (flips : List Nat) : Statement (.descriptorIssue core flips) := nofun
theorem matmulComplete (core engine : Nat) (flips : List Nat) : Statement (.matmulComplete core engine flips) := nofun
theorem convComplete (core engine : Nat) (flips : List Nat) : Statement (.convComplete core engine flips) := nofun
theorem combineComplete (core engine : Nat) (flips : List Nat) : Statement (.combineComplete core engine flips) := nofun
theorem vectorComplete (core : Nat) (flips : List Nat) : Statement (.vectorComplete core flips) := nofun
theorem attentionComplete (core : Nat) (flips : List Nat) : Statement (.attentionComplete core flips) := nofun
theorem moveComplete (core : Nat) (flips : List Nat) : Statement (.moveComplete core flips) := nofun
theorem moveArrival (core : Nat) : Statement (.moveArrival core) := nofun
theorem counterArm (pod counter : Nat) : Statement (.counterArm pod counter) := nofun
theorem tileClaim (core : Nat) : Statement (.tileClaim core) := nofun
theorem tileCompletion (core : Nat) : Statement (.tileCompletion core) := nofun
theorem reissueTimeout (pod counter index : Nat) : Statement (.reissueTimeout pod counter index) := nofun
theorem pageArrival (src : Nat) (flips : List Nat) : Statement (.pageArrival src flips) := nofun
theorem gradientChunkArrival (pod : Nat) (flips : List Nat) : Statement (.gradientChunkArrival pod flips) := nofun
theorem updatePassComplete (unit : Nat) (flips : List Nat) : Statement (.updatePassComplete unit flips) := nofun
theorem stageBlockArrival (flips : List Nat) : Statement (.stageBlockArrival flips) := nofun
theorem writebackArrival (block : Nat) (flips : List Nat) : Statement (.writebackArrival block flips) := nofun
theorem multicastArrival (pod layer : Nat) (flips : List Nat) : Statement (.multicastArrival pod layer flips) := nofun
theorem hullerJobTake (ring : Nat) : Statement (.hullerJobTake ring) := nofun
theorem hullerJobStart (block : Nat) : Statement (.hullerJobStart block) := nofun
theorem hullerLivePreempt (block : Nat) : Statement (.hullerLivePreempt block) := nofun
theorem hullerJobComplete (block : Nat) (flips : List Nat) (ctxBad : Bool) : Statement (.hullerJobComplete block flips ctxBad) := nofun
theorem sampleTake (ring : Nat) : Statement (.sampleTake ring) := nofun
theorem shaperPicture : Statement .shaperPicture := nofun
theorem sampleBudgetExpiry (ordinal : Nat) : Statement (.sampleBudgetExpiry ordinal) := nofun
theorem batchDeadline (batch : Nat) : Statement (.batchDeadline batch) := nofun
theorem batchReady (batch : Nat) : Statement (.batchReady batch) := nofun
theorem liveInputReady (stream : Nat) : Statement (.liveInputReady stream) := nofun
theorem encPictureStart : Statement .encPictureStart := nofun
theorem encRowCoded : Statement .encRowCoded := nofun
theorem encSliceWrite : Statement .encSliceWrite := nofun
theorem encRingWaitLimit : Statement .encRingWaitLimit := nofun
theorem encPictureDone : Statement .encPictureDone := nofun
theorem channelTail (port channel value : Nat) : Statement (.channelTail port channel value) := nofun
theorem channelStart (port channel : Nat) : Statement (.channelStart port channel) := nofun
theorem channelPause (port channel : Nat) : Statement (.channelPause port channel) := nofun
theorem channelResume (port channel : Nat) : Statement (.channelResume port channel) := nofun
theorem channelRetry (port channel : Nat) : Statement (.channelRetry port channel) := nofun
theorem channelSkip (port channel : Nat) : Statement (.channelSkip port channel) := nofun
theorem channelReset (port channel : Nat) : Statement (.channelReset port channel) := nofun
theorem channelQuiesced (channel : Nat) : Statement (.channelQuiesced channel) := nofun
theorem moverBurst (engine : Nat) (flips : List Nat) : Statement (.moverBurst engine flips) := nofun
theorem descriptorWriteBack (channel : Nat) : Statement (.descriptorWriteBack channel) := nofun
theorem moverFenceDone (channel : Nat) : Statement (.moverFenceDone channel) := nofun
theorem moverFault (channel status addr : Nat) : Statement (.moverFault channel status addr) := nofun
theorem hostTransferTimeout (channel : Nat) : Statement (.hostTransferTimeout channel) := nofun
theorem traceRecord (die : Nat) : Statement (.traceRecord die) := nofun
theorem traceRecordWrite : Statement .traceRecordWrite := nofun
theorem dumpRead (flips : List Nat) : Statement (.dumpRead flips) := nofun
theorem latchEnd (cmd : Nat) : Statement (.latchEnd cmd) := nofun
theorem stopPointReached (core engine tiles : Nat) (flips : List Nat) : Statement (.stopPointReached core engine tiles flips) := nofun
theorem planLoadDone (plan : Nat) : Statement (.planLoadDone plan) := nofun
theorem tableLoadDone (kind num : Nat) : Statement (.tableLoadDone kind num) := nofun
theorem stateLoadDone (plan : Nat) (flips : List Nat) : Statement (.stateLoadDone plan flips) := nofun
theorem stateSaveDone (plan : Nat) (flips : List Nat) : Statement (.stateSaveDone plan flips) := nofun
theorem fwUpdateDone (matches_ : Bool) : Statement (.fwUpdateDone matches_) := nofun
theorem vddAonRise : Statement .vddAonRise := nofun

end Sys2Proof.Laws.PacketShape
end

