-- ==== Sys2Proof/Laws/Start.lean ====
section
/-! SUPPORT. Short ways to a packet command's outcome: commands that complete at once, refusals by the command's own check, and
what ending every command leaves alone. -/

namespace Sys2Proof.Machine

/-- Functions that agree on an entry change a table alike. -/
theorem Tab.upd_congr {α : Type} [DecidableEq α] (d : α) (m : Tab α) (k : Nat) (f g : α → α) (h : f (Tab.get d m k) = g (Tab.get d m k)) :
    Tab.upd d m k f = Tab.upd d m k g := by
  unfold Tab.upd; rw [h]

theorem HostIf.updQueue_congr (h : HostIf) (q : Nat) (f g : Queue → Queue) (e : f (h.queue q) = g (h.queue q)) :
    h.updQueue q f = h.updQueue q g := by
  unfold HostIf.updQueue; rw [Tab.upd_congr]; exact e

/-- Where the common checks find nothing, the command's own check 7 refuses. -/
theorem Dev.refusal_own {d : Dev} {q : Nat} {p : Packet} {len : Nat} {ck : Checks} {r : Nat × Nat × List Nat} (h : d.refusal q p len {} = none)
    (h1 : ck.param = none) (h2 : ck.own = some r) (h3 : ck.denied = false) : d.refusal q p len ck = some r := by
  obtain ⟨a, b, c⟩ := ck
  simp only at h1 h2 h3
  subst h1 h2 h3
  unfold Dev.refusal at h ⊢
  split
  · rename_i e; rw [e] at h; simp at h
  · rename_i e
    rw [e] at h
    simp only at h
    split
    · rename_i e2; rw [if_pos e2] at h; simp at h
    · rename_i e2; rw [if_neg e2] at h
      simp only at h ⊢
      split
      · rename_i e3; rw [if_pos e3] at h; simp at h
      · rename_i e3; rw [if_neg e3] at h
        cases hg : guardSem p.opcode with
        | none => simp
        | some n =>
          rw [hg] at h
          simp only at h ⊢
          split
          · rename_i e4; rw [if_pos e4] at h; simp at h
          · rfl

/-- Where the common checks find nothing, a parameter found wrong refuses the command. -/
theorem Dev.refusal_param {d : Dev} {q : Nat} {p : Packet} {len : Nat} {ck : Checks} {off : Nat} (h : d.refusal q p len {} = none)
    (h1 : ck.param = some off) : d.refusal q p len ck = some (stBadParam, off, []) := by
  unfold Dev.refusal at h ⊢
  split
  · rename_i e; rw [e] at h; simp at h
  · rename_i e
    rw [e] at h
    simp only at h
    split
    · rename_i e2; rw [if_pos e2] at h; simp at h
    · rw [h1]

/-- A refused command has no effect but its reply. -/
theorem startCmdLen_param {s : State} {q op : Nat} {lay args : List Nat} {len : Nat} {ck : Dev → Checks} {eff : Dev → Cmd → Dev} {p : Packet}
    (hh : s.dev.head q op lay args = some p) (hr : s.dev.refusal q p len {} = none) (h1 : (ck s.dev).param ≠ none) :
    Res.Becomes s s.dev (startCmdLen s q op lay args len ck eff) := by
  cases h : (ck s.dev).param with
  | none => contradiction
  | some off => exact startCmdLen_refused hh (by rw [Dev.refusal_param hr h]; simp)

/-- A command that its own check refuses has no effect but its reply. -/
theorem startCmdLen_own {s : State} {q op : Nat} {lay args : List Nat} {len : Nat} {ck : Dev → Checks} {eff : Dev → Cmd → Dev} {p : Packet}
    (hh : s.dev.head q op lay args = some p) (hr : s.dev.refusal q p len {} = none) (h1 : (ck s.dev).param = none)
    (h2 : (ck s.dev).own ≠ none) (h3 : (ck s.dev).denied = false) : Res.Becomes s s.dev (startCmdLen s q op lay args len ck eff) := by
  cases h : (ck s.dev).own with
  | none => contradiction
  | some r => exact startCmdLen_refused hh (by rw [Dev.refusal_own hr h1 h h3]; simp)

/-- A device that differs from another, up to replies, in what a start changes of its queues alone. -/
theorem Dev.Replied.begun {d a b : Dev} {q : Nat} {p : Packet} (h1 : b.quiet = a.quiet) (h2 : a.host.queues = d.host.queues)
    (h3 : b.host.queues = (d.begin_ q p).1.host.queues) (h4 : b.mem = a.mem) (h5 : ∀ n, n ≠ 0x78 → Tab.get 0 b.ctr n = Tab.get 0 a.ctr n)
    (h6 : ∀ n, (b.obs.buf n).setup = (a.obs.buf n).setup) : a.Replied b := by
  refine ⟨h1, fun x => ?_, fun x _ => by rw [h4], h5, h6⟩
  have := Dev.begin__setup d q p x
  simp only [HostIf.queue] at this ⊢
  rw [h3, h2]; exact this

/-- A command that completes DONE at once. -/
theorem startCmdLen_done {s : State} {q op : Nat} {lay args : List Nat} {len : Nat} {ck : Dev → Checks} {f : Dev → Dev} {detail : Dev → Nat}
    {ext : Dev → List Nat} {p : Packet} {d : Dev} (hh : s.dev.head q op lay args = some p) (hr : s.dev.refusal q p len {} = none)
    (h1 : (ck s.dev).param = none) (h2 : (ck s.dev).own = none) (h3 : (ck s.dev).denied = false)
    (h : d.Replied (f (s.dev.begin_ q p).1)) : Res.Becomes s d (startCmdLen s q op lay args len ck (doneAt f detail ext)) :=
  startCmdLen_becomes hh hr h1 h2 h3 (h.trans (Dev.finish_replied _ _ _ _ _))

/-- No condition on the fields fails. -/
theorem firstBadField_none {cs : List (Bool × Nat)} (h : ∀ c ∈ cs, c.1 = true) : firstBadField cs = none := by
  unfold firstBadField
  rw [List.find?_eq_none.2 (fun c hc => by simp [h c hc])]
  rfl

/-- Some condition on the fields fails. -/
theorem firstBadField_some {cs : List (Bool × Nat)} (h : ∃ c ∈ cs, c.1 = false) : firstBadField cs ≠ none := by
  unfold firstBadField
  intro hn
  obtain ⟨c, hc, hf⟩ := h
  rw [Option.map_eq_none_iff, List.find?_eq_none] at hn
  simpa [hf] using hn c hc

/-- A change of the device that replies do not reach keeps the relation. -/
theorem Dev.Replied.map {a b : Dev} (h : a.Replied b) (g : Dev → Dev) (hq : ∀ d, (g d).quiet = g d.quiet) (hh : ∀ d, (g d).host = d.host)
    (hm : ∀ d, (g d).mem = d.mem) (hc : ∀ d, (g d).ctr = d.ctr) (hb : ∀ d, (g d).obs = d.obs) : (g a).Replied (g b) :=
  ⟨by rw [hq, hq, h.quiet], fun q => by rw [hh, hh]; exact h.setup q, fun x hx => by rw [hm, hm]; rw [hh] at hx; exact h.mem x hx,
   fun n hn => by rw [hc, hc]; exact h.ctr n hn, fun n => by rw [hb, hb]; exact h.bufs n⟩

/-! ## Packets dropped and commands ended -/

theorem HostIf.queue_dropPackets (h : HostIf) (x : Nat) : h.dropPackets.queue x = { h.queue x with fetched := [] } := by
  unfold HostIf.queue HostIf.dropPackets
  dsimp only
  induction h.queues with
  | nil => rfl
  | cons e m ih =>
    simp only [List.map_cons, Tab.get]
    split
    · rfl
    · exact ih

theorem Dev.dropPackets_replied (d : Dev) : d.Replied { d with host := d.host.dropPackets } :=
  Dev.Replied.of_host rfl (fun q => by rw [HostIf.queue_dropPackets]; rfl)

theorem Dev.abortAll_replied (d : Dev) (k : Nat) : d.Replied (d.abortAll k) := by
  unfold Dev.abortAll
  exact foldl_keeps (fun x => d.Replied x) _ (fun b c hb => hb.trans (Dev.emitFinal_replied _ _ _ _ _)) _ _ (Dev.dropPackets_replied d)

theorem Dev.Replied.plat {a b : Dev} (h : a.Replied b) : b.plat = a.plat := show b.quiet.plat = a.quiet.plat by rw [h.quiet]
theorem Dev.Replied.pow {a b : Dev} (h : a.Replied b) : b.pow = a.pow := show b.quiet.pow = a.quiet.pow by rw [h.quiet]
theorem Dev.Replied.poison {a b : Dev} (h : a.Replied b) : b.poison = a.poison := show b.quiet.poison = a.quiet.poison by rw [h.quiet]
theorem Dev.Replied.plans {a b : Dev} (h : a.Replied b) : b.plans = a.plans := show b.quiet.plans = a.quiet.plans by rw [h.quiet]
theorem Dev.Replied.planUsed {a b : Dev} (h : a.Replied b) : b.planUsed = a.planUsed := show b.quiet.planUsed = a.quiet.planUsed by rw [h.quiet]
theorem Dev.Replied.pods {a b : Dev} (h : a.Replied b) : b.pods = a.pods := show b.quiet.pods = a.quiet.pods by rw [h.quiet]
theorem Dev.Replied.cores {a b : Dev} (h : a.Replied b) : b.cores = a.cores := show b.quiet.cores = a.quiet.cores by rw [h.quiet]
theorem Dev.Replied.cob {a b : Dev} (h : a.Replied b) : b.cob = a.cob := show b.quiet.cob = a.quiet.cob by rw [h.quiet]
theorem Dev.Replied.ing {a b : Dev} (h : a.Replied b) : b.ing = a.ing := show b.quiet.ing = a.quiet.ing by rw [h.quiet]
theorem Dev.Replied.enc {a b : Dev} (h : a.Replied b) : b.enc = a.enc := show b.quiet.enc = a.quiet.enc by rw [h.quiet]
theorem Dev.Replied.mov {a b : Dev} (h : a.Replied b) : b.mov = a.mov := show b.quiet.mov = a.quiet.mov by rw [h.quiet]
theorem Dev.Replied.recs {a b : Dev} (h : a.Replied b) : b.obs.recs = a.obs.recs := show b.quiet.obs.recs = a.quiet.obs.recs by rw [h.quiet]
theorem Dev.Replied.dumps {a b : Dev} (h : a.Replied b) : b.obs.dumps = a.obs.dumps := show b.quiet.obs.dumps = a.quiet.obs.dumps by rw [h.quiet]

/-- Wiped storage below the host windows reads as its default. -/
theorem Tab.get_keepHost {α : Type} (d : α) (m : Tab α) (a : Nat) (h : a < hostBase 0) : Tab.get d (keepHost m) a = d := by
  induction m with
  | nil => rfl
  | cons e m ih =>
    simp only [keepHost, List.filter_cons] at ih ⊢
    split
    · rename_i hk
      simp only [Tab.get]
      rw [if_neg (by simp at hk; omega)]
      exact ih
    · exact ih

end Sys2Proof.Machine
end

