-- ==== Sys2Proof/Laws/State.lean ====
section
/-! SUPPORT. What each named update of the device leaves as it was, field by field, so that no proof unfolds a record update. -/

namespace Sys2Proof.Machine

/-! ## Updates of the device: every field but the one updated -/

@[simp] theorem Dev.put_plat (d : Dev) (a : Nat) (bs : List Byte) (bad : Bool) : (d.put a bs bad).plat = d.plat := rfl
@[simp] theorem Dev.put_cad (d : Dev) (a : Nat) (bs : List Byte) (bad : Bool) : (d.put a bs bad).cad = d.cad := rfl
@[simp] theorem Dev.put_pow (d : Dev) (a : Nat) (bs : List Byte) (bad : Bool) : (d.put a bs bad).pow = d.pow := rfl
@[simp] theorem Dev.put_ctr (d : Dev) (a : Nat) (bs : List Byte) (bad : Bool) : (d.put a bs bad).ctr = d.ctr := rfl
@[simp] theorem Dev.put_plans (d : Dev) (a : Nat) (bs : List Byte) (bad : Bool) : (d.put a bs bad).plans = d.plans := rfl
@[simp] theorem Dev.put_planUsed (d : Dev) (a : Nat) (bs : List Byte) (bad : Bool) : (d.put a bs bad).planUsed = d.planUsed := rfl
@[simp] theorem Dev.put_pods (d : Dev) (a : Nat) (bs : List Byte) (bad : Bool) : (d.put a bs bad).pods = d.pods := rfl
@[simp] theorem Dev.put_cores (d : Dev) (a : Nat) (bs : List Byte) (bad : Bool) : (d.put a bs bad).cores = d.cores := rfl
@[simp] theorem Dev.put_cob (d : Dev) (a : Nat) (bs : List Byte) (bad : Bool) : (d.put a bs bad).cob = d.cob := rfl
@[simp] theorem Dev.put_ing (d : Dev) (a : Nat) (bs : List Byte) (bad : Bool) : (d.put a bs bad).ing = d.ing := rfl
@[simp] theorem Dev.put_enc (d : Dev) (a : Nat) (bs : List Byte) (bad : Bool) : (d.put a bs bad).enc = d.enc := rfl
@[simp] theorem Dev.put_mov (d : Dev) (a : Nat) (bs : List Byte) (bad : Bool) : (d.put a bs bad).mov = d.mov := rfl
@[simp] theorem Dev.put_obs (d : Dev) (a : Nat) (bs : List Byte) (bad : Bool) : (d.put a bs bad).obs = d.obs := rfl

@[simp] theorem Dev.store_cad (d : Dev) (a : Nat) (bs : List Byte) : (d.store a bs).cad = d.cad := rfl
@[simp] theorem Dev.store_pow (d : Dev) (a : Nat) (bs : List Byte) : (d.store a bs).pow = d.pow := rfl
@[simp] theorem Dev.store_ctr (d : Dev) (a : Nat) (bs : List Byte) : (d.store a bs).ctr = d.ctr := rfl
@[simp] theorem Dev.store_plans (d : Dev) (a : Nat) (bs : List Byte) : (d.store a bs).plans = d.plans := rfl
@[simp] theorem Dev.store_planUsed (d : Dev) (a : Nat) (bs : List Byte) : (d.store a bs).planUsed = d.planUsed := rfl
@[simp] theorem Dev.store_pods (d : Dev) (a : Nat) (bs : List Byte) : (d.store a bs).pods = d.pods := rfl
@[simp] theorem Dev.store_cores (d : Dev) (a : Nat) (bs : List Byte) : (d.store a bs).cores = d.cores := rfl
@[simp] theorem Dev.store_cob (d : Dev) (a : Nat) (bs : List Byte) : (d.store a bs).cob = d.cob := rfl
@[simp] theorem Dev.store_ing (d : Dev) (a : Nat) (bs : List Byte) : (d.store a bs).ing = d.ing := rfl
@[simp] theorem Dev.store_enc (d : Dev) (a : Nat) (bs : List Byte) : (d.store a bs).enc = d.enc := rfl
@[simp] theorem Dev.store_mov (d : Dev) (a : Nat) (bs : List Byte) : (d.store a bs).mov = d.mov := rfl
@[simp] theorem Dev.store_obs (d : Dev) (a : Nat) (bs : List Byte) : (d.store a bs).obs = d.obs := rfl

@[simp] theorem Dev.storeNat_plat (d : Dev) (a n v : Nat) : (d.storeNat a n v).plat = d.plat := rfl
@[simp] theorem Dev.storeNat_host (d : Dev) (a n v : Nat) : (d.storeNat a n v).host = d.host := rfl
@[simp] theorem Dev.storeNat_cad (d : Dev) (a n v : Nat) : (d.storeNat a n v).cad = d.cad := rfl
@[simp] theorem Dev.storeNat_pow (d : Dev) (a n v : Nat) : (d.storeNat a n v).pow = d.pow := rfl
@[simp] theorem Dev.storeNat_ctr (d : Dev) (a n v : Nat) : (d.storeNat a n v).ctr = d.ctr := rfl
@[simp] theorem Dev.storeNat_plans (d : Dev) (a n v : Nat) : (d.storeNat a n v).plans = d.plans := rfl
@[simp] theorem Dev.storeNat_planUsed (d : Dev) (a n v : Nat) : (d.storeNat a n v).planUsed = d.planUsed := rfl
@[simp] theorem Dev.storeNat_pods (d : Dev) (a n v : Nat) : (d.storeNat a n v).pods = d.pods := rfl
@[simp] theorem Dev.storeNat_cores (d : Dev) (a n v : Nat) : (d.storeNat a n v).cores = d.cores := rfl
@[simp] theorem Dev.storeNat_cob (d : Dev) (a n v : Nat) : (d.storeNat a n v).cob = d.cob := rfl
@[simp] theorem Dev.storeNat_ing (d : Dev) (a n v : Nat) : (d.storeNat a n v).ing = d.ing := rfl
@[simp] theorem Dev.storeNat_enc (d : Dev) (a n v : Nat) : (d.storeNat a n v).enc = d.enc := rfl
@[simp] theorem Dev.storeNat_mov (d : Dev) (a n v : Nat) : (d.storeNat a n v).mov = d.mov := rfl
@[simp] theorem Dev.storeNat_obs (d : Dev) (a n v : Nat) : (d.storeNat a n v).obs = d.obs := rfl

@[simp] theorem Dev.count_plat (d : Dev) (inst kind n : Nat) : (d.count inst kind n).plat = d.plat := rfl
@[simp] theorem Dev.count_host (d : Dev) (inst kind n : Nat) : (d.count inst kind n).host = d.host := rfl
@[simp] theorem Dev.count_cad (d : Dev) (inst kind n : Nat) : (d.count inst kind n).cad = d.cad := rfl
@[simp] theorem Dev.count_pow (d : Dev) (inst kind n : Nat) : (d.count inst kind n).pow = d.pow := rfl
@[simp] theorem Dev.count_mem (d : Dev) (inst kind n : Nat) : (d.count inst kind n).mem = d.mem := rfl
@[simp] theorem Dev.count_poison (d : Dev) (inst kind n : Nat) : (d.count inst kind n).poison = d.poison := rfl
@[simp] theorem Dev.count_plans (d : Dev) (inst kind n : Nat) : (d.count inst kind n).plans = d.plans := rfl
@[simp] theorem Dev.count_planUsed (d : Dev) (inst kind n : Nat) : (d.count inst kind n).planUsed = d.planUsed := rfl
@[simp] theorem Dev.count_pods (d : Dev) (inst kind n : Nat) : (d.count inst kind n).pods = d.pods := rfl
@[simp] theorem Dev.count_cores (d : Dev) (inst kind n : Nat) : (d.count inst kind n).cores = d.cores := rfl
@[simp] theorem Dev.count_cob (d : Dev) (inst kind n : Nat) : (d.count inst kind n).cob = d.cob := rfl
@[simp] theorem Dev.count_ing (d : Dev) (inst kind n : Nat) : (d.count inst kind n).ing = d.ing := rfl
@[simp] theorem Dev.count_enc (d : Dev) (inst kind n : Nat) : (d.count inst kind n).enc = d.enc := rfl
@[simp] theorem Dev.count_mov (d : Dev) (inst kind n : Nat) : (d.count inst kind n).mov = d.mov := rfl
@[simp] theorem Dev.count_obs (d : Dev) (inst kind n : Nat) : (d.count inst kind n).obs = d.obs := rfl

@[simp] theorem Dev.updPlan_plat (d : Dev) (h : Nat) (f : Plan → Plan) : (d.updPlan h f).plat = d.plat := rfl
@[simp] theorem Dev.updPlan_host (d : Dev) (h : Nat) (f : Plan → Plan) : (d.updPlan h f).host = d.host := rfl
@[simp] theorem Dev.updPlan_cad (d : Dev) (h : Nat) (f : Plan → Plan) : (d.updPlan h f).cad = d.cad := rfl
@[simp] theorem Dev.updPlan_pow (d : Dev) (h : Nat) (f : Plan → Plan) : (d.updPlan h f).pow = d.pow := rfl
@[simp] theorem Dev.updPlan_mem (d : Dev) (h : Nat) (f : Plan → Plan) : (d.updPlan h f).mem = d.mem := rfl
@[simp] theorem Dev.updPlan_poison (d : Dev) (h : Nat) (f : Plan → Plan) : (d.updPlan h f).poison = d.poison := rfl
@[simp] theorem Dev.updPlan_ctr (d : Dev) (h : Nat) (f : Plan → Plan) : (d.updPlan h f).ctr = d.ctr := rfl
@[simp] theorem Dev.updPlan_planUsed (d : Dev) (h : Nat) (f : Plan → Plan) : (d.updPlan h f).planUsed = d.planUsed := rfl
@[simp] theorem Dev.updPlan_pods (d : Dev) (h : Nat) (f : Plan → Plan) : (d.updPlan h f).pods = d.pods := rfl
@[simp] theorem Dev.updPlan_cores (d : Dev) (h : Nat) (f : Plan → Plan) : (d.updPlan h f).cores = d.cores := rfl
@[simp] theorem Dev.updPlan_cob (d : Dev) (h : Nat) (f : Plan → Plan) : (d.updPlan h f).cob = d.cob := rfl
@[simp] theorem Dev.updPlan_ing (d : Dev) (h : Nat) (f : Plan → Plan) : (d.updPlan h f).ing = d.ing := rfl
@[simp] theorem Dev.updPlan_enc (d : Dev) (h : Nat) (f : Plan → Plan) : (d.updPlan h f).enc = d.enc := rfl
@[simp] theorem Dev.updPlan_mov (d : Dev) (h : Nat) (f : Plan → Plan) : (d.updPlan h f).mov = d.mov := rfl
@[simp] theorem Dev.updPlan_obs (d : Dev) (h : Nat) (f : Plan → Plan) : (d.updPlan h f).obs = d.obs := rfl

@[simp] theorem Dev.updPod_plat (d : Dev) (p : Nat) (f : Pod → Pod) : (d.updPod p f).plat = d.plat := rfl
@[simp] theorem Dev.updPod_host (d : Dev) (p : Nat) (f : Pod → Pod) : (d.updPod p f).host = d.host := rfl
@[simp] theorem Dev.updPod_cad (d : Dev) (p : Nat) (f : Pod → Pod) : (d.updPod p f).cad = d.cad := rfl
@[simp] theorem Dev.updPod_pow (d : Dev) (p : Nat) (f : Pod → Pod) : (d.updPod p f).pow = d.pow := rfl
@[simp] theorem Dev.updPod_mem (d : Dev) (p : Nat) (f : Pod → Pod) : (d.updPod p f).mem = d.mem := rfl
@[simp] theorem Dev.updPod_poison (d : Dev) (p : Nat) (f : Pod → Pod) : (d.updPod p f).poison = d.poison := rfl
@[simp] theorem Dev.updPod_ctr (d : Dev) (p : Nat) (f : Pod → Pod) : (d.updPod p f).ctr = d.ctr := rfl
@[simp] theorem Dev.updPod_plans (d : Dev) (p : Nat) (f : Pod → Pod) : (d.updPod p f).plans = d.plans := rfl
@[simp] theorem Dev.updPod_planUsed (d : Dev) (p : Nat) (f : Pod → Pod) : (d.updPod p f).planUsed = d.planUsed := rfl
@[simp] theorem Dev.updPod_cores (d : Dev) (p : Nat) (f : Pod → Pod) : (d.updPod p f).cores = d.cores := rfl
@[simp] theorem Dev.updPod_cob (d : Dev) (p : Nat) (f : Pod → Pod) : (d.updPod p f).cob = d.cob := rfl
@[simp] theorem Dev.updPod_ing (d : Dev) (p : Nat) (f : Pod → Pod) : (d.updPod p f).ing = d.ing := rfl
@[simp] theorem Dev.updPod_enc (d : Dev) (p : Nat) (f : Pod → Pod) : (d.updPod p f).enc = d.enc := rfl
@[simp] theorem Dev.updPod_mov (d : Dev) (p : Nat) (f : Pod → Pod) : (d.updPod p f).mov = d.mov := rfl
@[simp] theorem Dev.updPod_obs (d : Dev) (p : Nat) (f : Pod → Pod) : (d.updPod p f).obs = d.obs := rfl

@[simp] theorem Dev.updCore_plat (d : Dev) (n : Nat) (f : Core → Core) : (d.updCore n f).plat = d.plat := rfl
@[simp] theorem Dev.updCore_host (d : Dev) (n : Nat) (f : Core → Core) : (d.updCore n f).host = d.host := rfl
@[simp] theorem Dev.updCore_cad (d : Dev) (n : Nat) (f : Core → Core) : (d.updCore n f).cad = d.cad := rfl
@[simp] theorem Dev.updCore_pow (d : Dev) (n : Nat) (f : Core → Core) : (d.updCore n f).pow = d.pow := rfl
@[simp] theorem Dev.updCore_mem (d : Dev) (n : Nat) (f : Core → Core) : (d.updCore n f).mem = d.mem := rfl
@[simp] theorem Dev.updCore_poison (d : Dev) (n : Nat) (f : Core → Core) : (d.updCore n f).poison = d.poison := rfl
@[simp] theorem Dev.updCore_ctr (d : Dev) (n : Nat) (f : Core → Core) : (d.updCore n f).ctr = d.ctr := rfl
@[simp] theorem Dev.updCore_plans (d : Dev) (n : Nat) (f : Core → Core) : (d.updCore n f).plans = d.plans := rfl
@[simp] theorem Dev.updCore_planUsed (d : Dev) (n : Nat) (f : Core → Core) : (d.updCore n f).planUsed = d.planUsed := rfl
@[simp] theorem Dev.updCore_pods (d : Dev) (n : Nat) (f : Core → Core) : (d.updCore n f).pods = d.pods := rfl
@[simp] theorem Dev.updCore_cob (d : Dev) (n : Nat) (f : Core → Core) : (d.updCore n f).cob = d.cob := rfl
@[simp] theorem Dev.updCore_ing (d : Dev) (n : Nat) (f : Core → Core) : (d.updCore n f).ing = d.ing := rfl
@[simp] theorem Dev.updCore_enc (d : Dev) (n : Nat) (f : Core → Core) : (d.updCore n f).enc = d.enc := rfl
@[simp] theorem Dev.updCore_mov (d : Dev) (n : Nat) (f : Core → Core) : (d.updCore n f).mov = d.mov := rfl
@[simp] theorem Dev.updCore_obs (d : Dev) (n : Nat) (f : Core → Core) : (d.updCore n f).obs = d.obs := rfl

@[simp] theorem Dev.updIng_plat (d : Dev) (f : Ing → Ing) : (d.updIng f).plat = d.plat := rfl
@[simp] theorem Dev.updIng_host (d : Dev) (f : Ing → Ing) : (d.updIng f).host = d.host := rfl
@[simp] theorem Dev.updIng_cad (d : Dev) (f : Ing → Ing) : (d.updIng f).cad = d.cad := rfl
@[simp] theorem Dev.updIng_pow (d : Dev) (f : Ing → Ing) : (d.updIng f).pow = d.pow := rfl
@[simp] theorem Dev.updIng_mem (d : Dev) (f : Ing → Ing) : (d.updIng f).mem = d.mem := rfl
@[simp] theorem Dev.updIng_poison (d : Dev) (f : Ing → Ing) : (d.updIng f).poison = d.poison := rfl
@[simp] theorem Dev.updIng_ctr (d : Dev) (f : Ing → Ing) : (d.updIng f).ctr = d.ctr := rfl
@[simp] theorem Dev.updIng_plans (d : Dev) (f : Ing → Ing) : (d.updIng f).plans = d.plans := rfl
@[simp] theorem Dev.updIng_planUsed (d : Dev) (f : Ing → Ing) : (d.updIng f).planUsed = d.planUsed := rfl
@[simp] theorem Dev.updIng_pods (d : Dev) (f : Ing → Ing) : (d.updIng f).pods = d.pods := rfl
@[simp] theorem Dev.updIng_cores (d : Dev) (f : Ing → Ing) : (d.updIng f).cores = d.cores := rfl
@[simp] theorem Dev.updIng_cob (d : Dev) (f : Ing → Ing) : (d.updIng f).cob = d.cob := rfl
@[simp] theorem Dev.updIng_enc (d : Dev) (f : Ing → Ing) : (d.updIng f).enc = d.enc := rfl
@[simp] theorem Dev.updIng_mov (d : Dev) (f : Ing → Ing) : (d.updIng f).mov = d.mov := rfl
@[simp] theorem Dev.updIng_obs (d : Dev) (f : Ing → Ing) : (d.updIng f).obs = d.obs := rfl

@[simp] theorem Dev.updSess_plat (d : Dev) (n : Nat) (f : EncSess → EncSess) : (d.updSess n f).plat = d.plat := rfl
@[simp] theorem Dev.updSess_host (d : Dev) (n : Nat) (f : EncSess → EncSess) : (d.updSess n f).host = d.host := rfl
@[simp] theorem Dev.updSess_cad (d : Dev) (n : Nat) (f : EncSess → EncSess) : (d.updSess n f).cad = d.cad := rfl
@[simp] theorem Dev.updSess_pow (d : Dev) (n : Nat) (f : EncSess → EncSess) : (d.updSess n f).pow = d.pow := rfl
@[simp] theorem Dev.updSess_mem (d : Dev) (n : Nat) (f : EncSess → EncSess) : (d.updSess n f).mem = d.mem := rfl
@[simp] theorem Dev.updSess_poison (d : Dev) (n : Nat) (f : EncSess → EncSess) : (d.updSess n f).poison = d.poison := rfl
@[simp] theorem Dev.updSess_ctr (d : Dev) (n : Nat) (f : EncSess → EncSess) : (d.updSess n f).ctr = d.ctr := rfl
@[simp] theorem Dev.updSess_plans (d : Dev) (n : Nat) (f : EncSess → EncSess) : (d.updSess n f).plans = d.plans := rfl
@[simp] theorem Dev.updSess_planUsed (d : Dev) (n : Nat) (f : EncSess → EncSess) : (d.updSess n f).planUsed = d.planUsed := rfl
@[simp] theorem Dev.updSess_pods (d : Dev) (n : Nat) (f : EncSess → EncSess) : (d.updSess n f).pods = d.pods := rfl
@[simp] theorem Dev.updSess_cores (d : Dev) (n : Nat) (f : EncSess → EncSess) : (d.updSess n f).cores = d.cores := rfl
@[simp] theorem Dev.updSess_cob (d : Dev) (n : Nat) (f : EncSess → EncSess) : (d.updSess n f).cob = d.cob := rfl
@[simp] theorem Dev.updSess_ing (d : Dev) (n : Nat) (f : EncSess → EncSess) : (d.updSess n f).ing = d.ing := rfl
@[simp] theorem Dev.updSess_mov (d : Dev) (n : Nat) (f : EncSess → EncSess) : (d.updSess n f).mov = d.mov := rfl
@[simp] theorem Dev.updSess_obs (d : Dev) (n : Nat) (f : EncSess → EncSess) : (d.updSess n f).obs = d.obs := rfl

@[simp] theorem Dev.updChan_plat (d : Dev) (k : Nat) (f : Chan → Chan) : (d.updChan k f).plat = d.plat := rfl
@[simp] theorem Dev.updChan_host (d : Dev) (k : Nat) (f : Chan → Chan) : (d.updChan k f).host = d.host := rfl
@[simp] theorem Dev.updChan_cad (d : Dev) (k : Nat) (f : Chan → Chan) : (d.updChan k f).cad = d.cad := rfl
@[simp] theorem Dev.updChan_pow (d : Dev) (k : Nat) (f : Chan → Chan) : (d.updChan k f).pow = d.pow := rfl
@[simp] theorem Dev.updChan_mem (d : Dev) (k : Nat) (f : Chan → Chan) : (d.updChan k f).mem = d.mem := rfl
@[simp] theorem Dev.updChan_poison (d : Dev) (k : Nat) (f : Chan → Chan) : (d.updChan k f).poison = d.poison := rfl
@[simp] theorem Dev.updChan_ctr (d : Dev) (k : Nat) (f : Chan → Chan) : (d.updChan k f).ctr = d.ctr := rfl
@[simp] theorem Dev.updChan_plans (d : Dev) (k : Nat) (f : Chan → Chan) : (d.updChan k f).plans = d.plans := rfl
@[simp] theorem Dev.updChan_planUsed (d : Dev) (k : Nat) (f : Chan → Chan) : (d.updChan k f).planUsed = d.planUsed := rfl
@[simp] theorem Dev.updChan_pods (d : Dev) (k : Nat) (f : Chan → Chan) : (d.updChan k f).pods = d.pods := rfl
@[simp] theorem Dev.updChan_cores (d : Dev) (k : Nat) (f : Chan → Chan) : (d.updChan k f).cores = d.cores := rfl
@[simp] theorem Dev.updChan_cob (d : Dev) (k : Nat) (f : Chan → Chan) : (d.updChan k f).cob = d.cob := rfl
@[simp] theorem Dev.updChan_ing (d : Dev) (k : Nat) (f : Chan → Chan) : (d.updChan k f).ing = d.ing := rfl
@[simp] theorem Dev.updChan_enc (d : Dev) (k : Nat) (f : Chan → Chan) : (d.updChan k f).enc = d.enc := rfl
@[simp] theorem Dev.updChan_obs (d : Dev) (k : Nat) (f : Chan → Chan) : (d.updChan k f).obs = d.obs := rfl

@[simp] theorem Dev.updBuf_plat (d : Dev) (b : Nat) (f : TraceBuf → TraceBuf) : (d.updBuf b f).plat = d.plat := rfl
@[simp] theorem Dev.updBuf_host (d : Dev) (b : Nat) (f : TraceBuf → TraceBuf) : (d.updBuf b f).host = d.host := rfl
@[simp] theorem Dev.updBuf_cad (d : Dev) (b : Nat) (f : TraceBuf → TraceBuf) : (d.updBuf b f).cad = d.cad := rfl
@[simp] theorem Dev.updBuf_pow (d : Dev) (b : Nat) (f : TraceBuf → TraceBuf) : (d.updBuf b f).pow = d.pow := rfl
@[simp] theorem Dev.updBuf_mem (d : Dev) (b : Nat) (f : TraceBuf → TraceBuf) : (d.updBuf b f).mem = d.mem := rfl
@[simp] theorem Dev.updBuf_poison (d : Dev) (b : Nat) (f : TraceBuf → TraceBuf) : (d.updBuf b f).poison = d.poison := rfl
@[simp] theorem Dev.updBuf_ctr (d : Dev) (b : Nat) (f : TraceBuf → TraceBuf) : (d.updBuf b f).ctr = d.ctr := rfl
@[simp] theorem Dev.updBuf_plans (d : Dev) (b : Nat) (f : TraceBuf → TraceBuf) : (d.updBuf b f).plans = d.plans := rfl
@[simp] theorem Dev.updBuf_planUsed (d : Dev) (b : Nat) (f : TraceBuf → TraceBuf) : (d.updBuf b f).planUsed = d.planUsed := rfl
@[simp] theorem Dev.updBuf_pods (d : Dev) (b : Nat) (f : TraceBuf → TraceBuf) : (d.updBuf b f).pods = d.pods := rfl
@[simp] theorem Dev.updBuf_cores (d : Dev) (b : Nat) (f : TraceBuf → TraceBuf) : (d.updBuf b f).cores = d.cores := rfl
@[simp] theorem Dev.updBuf_cob (d : Dev) (b : Nat) (f : TraceBuf → TraceBuf) : (d.updBuf b f).cob = d.cob := rfl
@[simp] theorem Dev.updBuf_ing (d : Dev) (b : Nat) (f : TraceBuf → TraceBuf) : (d.updBuf b f).ing = d.ing := rfl
@[simp] theorem Dev.updBuf_enc (d : Dev) (b : Nat) (f : TraceBuf → TraceBuf) : (d.updBuf b f).enc = d.enc := rfl
@[simp] theorem Dev.updBuf_mov (d : Dev) (b : Nat) (f : TraceBuf → TraceBuf) : (d.updBuf b f).mov = d.mov := rfl

@[simp] theorem Dev.putSlot_plat (d : Dev) (n : Nat) (x : Slot) : (d.putSlot n x).plat = d.plat := rfl
@[simp] theorem Dev.putSlot_host (d : Dev) (n : Nat) (x : Slot) : (d.putSlot n x).host = d.host := rfl
@[simp] theorem Dev.putSlot_pow (d : Dev) (n : Nat) (x : Slot) : (d.putSlot n x).pow = d.pow := rfl
@[simp] theorem Dev.putSlot_mem (d : Dev) (n : Nat) (x : Slot) : (d.putSlot n x).mem = d.mem := rfl
@[simp] theorem Dev.putSlot_poison (d : Dev) (n : Nat) (x : Slot) : (d.putSlot n x).poison = d.poison := rfl
@[simp] theorem Dev.putSlot_ctr (d : Dev) (n : Nat) (x : Slot) : (d.putSlot n x).ctr = d.ctr := rfl
@[simp] theorem Dev.putSlot_plans (d : Dev) (n : Nat) (x : Slot) : (d.putSlot n x).plans = d.plans := rfl
@[simp] theorem Dev.putSlot_planUsed (d : Dev) (n : Nat) (x : Slot) : (d.putSlot n x).planUsed = d.planUsed := rfl
@[simp] theorem Dev.putSlot_pods (d : Dev) (n : Nat) (x : Slot) : (d.putSlot n x).pods = d.pods := rfl
@[simp] theorem Dev.putSlot_cores (d : Dev) (n : Nat) (x : Slot) : (d.putSlot n x).cores = d.cores := rfl
@[simp] theorem Dev.putSlot_cob (d : Dev) (n : Nat) (x : Slot) : (d.putSlot n x).cob = d.cob := rfl
@[simp] theorem Dev.putSlot_ing (d : Dev) (n : Nat) (x : Slot) : (d.putSlot n x).ing = d.ing := rfl
@[simp] theorem Dev.putSlot_enc (d : Dev) (n : Nat) (x : Slot) : (d.putSlot n x).enc = d.enc := rfl
@[simp] theorem Dev.putSlot_mov (d : Dev) (n : Nat) (x : Slot) : (d.putSlot n x).mov = d.mov := rfl
@[simp] theorem Dev.putSlot_obs (d : Dev) (n : Nat) (x : Slot) : (d.putSlot n x).obs = d.obs := rfl

@[simp] theorem Dev.setOp_plat (d : Dev) (op : Nat) (floorRun : Bool) : (d.setOp op floorRun).plat = d.plat := rfl
@[simp] theorem Dev.setOp_host (d : Dev) (op : Nat) (floorRun : Bool) : (d.setOp op floorRun).host = d.host := rfl
@[simp] theorem Dev.setOp_cad (d : Dev) (op : Nat) (floorRun : Bool) : (d.setOp op floorRun).cad = d.cad := rfl
@[simp] theorem Dev.setOp_mem (d : Dev) (op : Nat) (floorRun : Bool) : (d.setOp op floorRun).mem = d.mem := rfl
@[simp] theorem Dev.setOp_poison (d : Dev) (op : Nat) (floorRun : Bool) : (d.setOp op floorRun).poison = d.poison := rfl
@[simp] theorem Dev.setOp_ctr (d : Dev) (op : Nat) (floorRun : Bool) : (d.setOp op floorRun).ctr = d.ctr := rfl
@[simp] theorem Dev.setOp_plans (d : Dev) (op : Nat) (floorRun : Bool) : (d.setOp op floorRun).plans = d.plans := rfl
@[simp] theorem Dev.setOp_planUsed (d : Dev) (op : Nat) (floorRun : Bool) : (d.setOp op floorRun).planUsed = d.planUsed := rfl
@[simp] theorem Dev.setOp_pods (d : Dev) (op : Nat) (floorRun : Bool) : (d.setOp op floorRun).pods = d.pods := rfl
@[simp] theorem Dev.setOp_cores (d : Dev) (op : Nat) (floorRun : Bool) : (d.setOp op floorRun).cores = d.cores := rfl
@[simp] theorem Dev.setOp_cob (d : Dev) (op : Nat) (floorRun : Bool) : (d.setOp op floorRun).cob = d.cob := rfl
@[simp] theorem Dev.setOp_ing (d : Dev) (op : Nat) (floorRun : Bool) : (d.setOp op floorRun).ing = d.ing := rfl
@[simp] theorem Dev.setOp_enc (d : Dev) (op : Nat) (floorRun : Bool) : (d.setOp op floorRun).enc = d.enc := rfl
@[simp] theorem Dev.setOp_mov (d : Dev) (op : Nat) (floorRun : Bool) : (d.setOp op floorRun).mov = d.mov := rfl
@[simp] theorem Dev.setOp_obs (d : Dev) (op : Nat) (floorRun : Bool) : (d.setOp op floorRun).obs = d.obs := rfl

/-! ## Updates of the host interface -/

@[simp] theorem HostIf.updQueue_ports (h : HostIf) (q : Nat) (f : Queue → Queue) : (h.updQueue q f).ports = h.ports := rfl
@[simp] theorem HostIf.updQueue_lastStart (h : HostIf) (q : Nat) (f : Queue → Queue) : (h.updQueue q f).lastStart = h.lastStart := rfl
@[simp] theorem HostIf.updQueue_inProg (h : HostIf) (q : Nat) (f : Queue → Queue) : (h.updQueue q f).inProg = h.inProg := rfl
@[simp] theorem HostIf.updQueue_nextCmd (h : HostIf) (q : Nat) (f : Queue → Queue) : (h.updQueue q f).nextCmd = h.nextCmd := rfl
@[simp] theorem HostIf.updQueue_sems (h : HostIf) (q : Nat) (f : Queue → Queue) : (h.updQueue q f).sems = h.sems := rfl
@[simp] theorem HostIf.updQueue_owner (h : HostIf) (q : Nat) (f : Queue → Queue) : (h.updQueue q f).owner = h.owner := rfl
@[simp] theorem HostIf.updQueue_irqs (h : HostIf) (q : Nat) (f : Queue → Queue) : (h.updQueue q f).irqs = h.irqs := rfl
@[simp] theorem HostIf.updQueue_gpio (h : HostIf) (q : Nat) (f : Queue → Queue) : (h.updQueue q f).gpio = h.gpio := rfl
@[simp] theorem HostIf.updQueue_waiting (h : HostIf) (q : Nat) (f : Queue → Queue) : (h.updQueue q f).waiting = h.waiting := rfl
@[simp] theorem HostIf.updQueue_latchSets (h : HostIf) (q : Nat) (f : Queue → Queue) : (h.updQueue q f).latchSets = h.latchSets := rfl

@[simp] theorem HostIf.updPort_queues (h : HostIf) (p : Nat) (f : Port → Port) : (h.updPort p f).queues = h.queues := rfl
@[simp] theorem HostIf.updPort_lastStart (h : HostIf) (p : Nat) (f : Port → Port) : (h.updPort p f).lastStart = h.lastStart := rfl
@[simp] theorem HostIf.updPort_inProg (h : HostIf) (p : Nat) (f : Port → Port) : (h.updPort p f).inProg = h.inProg := rfl
@[simp] theorem HostIf.updPort_nextCmd (h : HostIf) (p : Nat) (f : Port → Port) : (h.updPort p f).nextCmd = h.nextCmd := rfl
@[simp] theorem HostIf.updPort_sems (h : HostIf) (p : Nat) (f : Port → Port) : (h.updPort p f).sems = h.sems := rfl
@[simp] theorem HostIf.updPort_owner (h : HostIf) (p : Nat) (f : Port → Port) : (h.updPort p f).owner = h.owner := rfl
@[simp] theorem HostIf.updPort_irqs (h : HostIf) (p : Nat) (f : Port → Port) : (h.updPort p f).irqs = h.irqs := rfl
@[simp] theorem HostIf.updPort_gpio (h : HostIf) (p : Nat) (f : Port → Port) : (h.updPort p f).gpio = h.gpio := rfl
@[simp] theorem HostIf.updPort_waiting (h : HostIf) (p : Nat) (f : Port → Port) : (h.updPort p f).waiting = h.waiting := rfl
@[simp] theorem HostIf.updPort_latchSets (h : HostIf) (p : Nat) (f : Port → Port) : (h.updPort p f).latchSets = h.latchSets := rfl

@[simp] theorem HostIf.updPin_ports (h : HostIf) (n : Nat) (f : Gpio → Gpio) : (h.updPin n f).ports = h.ports := rfl
@[simp] theorem HostIf.updPin_queues (h : HostIf) (n : Nat) (f : Gpio → Gpio) : (h.updPin n f).queues = h.queues := rfl
@[simp] theorem HostIf.updPin_lastStart (h : HostIf) (n : Nat) (f : Gpio → Gpio) : (h.updPin n f).lastStart = h.lastStart := rfl
@[simp] theorem HostIf.updPin_inProg (h : HostIf) (n : Nat) (f : Gpio → Gpio) : (h.updPin n f).inProg = h.inProg := rfl
@[simp] theorem HostIf.updPin_nextCmd (h : HostIf) (n : Nat) (f : Gpio → Gpio) : (h.updPin n f).nextCmd = h.nextCmd := rfl
@[simp] theorem HostIf.updPin_sems (h : HostIf) (n : Nat) (f : Gpio → Gpio) : (h.updPin n f).sems = h.sems := rfl
@[simp] theorem HostIf.updPin_owner (h : HostIf) (n : Nat) (f : Gpio → Gpio) : (h.updPin n f).owner = h.owner := rfl
@[simp] theorem HostIf.updPin_irqs (h : HostIf) (n : Nat) (f : Gpio → Gpio) : (h.updPin n f).irqs = h.irqs := rfl
@[simp] theorem HostIf.updPin_waiting (h : HostIf) (n : Nat) (f : Gpio → Gpio) : (h.updPin n f).waiting = h.waiting := rfl
@[simp] theorem HostIf.updPin_latchSets (h : HostIf) (n : Nat) (f : Gpio → Gpio) : (h.updPin n f).latchSets = h.latchSets := rfl

@[simp] theorem HostIf.setOwner_ports (h : HostIf) (id owner : Nat) : (h.setOwner id owner).ports = h.ports := rfl
@[simp] theorem HostIf.setOwner_queues (h : HostIf) (id owner : Nat) : (h.setOwner id owner).queues = h.queues := rfl
@[simp] theorem HostIf.setOwner_lastStart (h : HostIf) (id owner : Nat) : (h.setOwner id owner).lastStart = h.lastStart := rfl
@[simp] theorem HostIf.setOwner_inProg (h : HostIf) (id owner : Nat) : (h.setOwner id owner).inProg = h.inProg := rfl
@[simp] theorem HostIf.setOwner_nextCmd (h : HostIf) (id owner : Nat) : (h.setOwner id owner).nextCmd = h.nextCmd := rfl
@[simp] theorem HostIf.setOwner_sems (h : HostIf) (id owner : Nat) : (h.setOwner id owner).sems = h.sems := rfl
@[simp] theorem HostIf.setOwner_irqs (h : HostIf) (id owner : Nat) : (h.setOwner id owner).irqs = h.irqs := rfl
@[simp] theorem HostIf.setOwner_gpio (h : HostIf) (id owner : Nat) : (h.setOwner id owner).gpio = h.gpio := rfl
@[simp] theorem HostIf.setOwner_waiting (h : HostIf) (id owner : Nat) : (h.setOwner id owner).waiting = h.waiting := rfl
@[simp] theorem HostIf.setOwner_latchSets (h : HostIf) (id owner : Nat) : (h.setOwner id owner).latchSets = h.latchSets := rfl

@[simp] theorem HostIf.irq_ports (h : HostIf) (port vec : Nat) : (h.irq port vec).ports = h.ports := rfl
@[simp] theorem HostIf.irq_queues (h : HostIf) (port vec : Nat) : (h.irq port vec).queues = h.queues := rfl
@[simp] theorem HostIf.irq_lastStart (h : HostIf) (port vec : Nat) : (h.irq port vec).lastStart = h.lastStart := rfl
@[simp] theorem HostIf.irq_inProg (h : HostIf) (port vec : Nat) : (h.irq port vec).inProg = h.inProg := rfl
@[simp] theorem HostIf.irq_nextCmd (h : HostIf) (port vec : Nat) : (h.irq port vec).nextCmd = h.nextCmd := rfl
@[simp] theorem HostIf.irq_sems (h : HostIf) (port vec : Nat) : (h.irq port vec).sems = h.sems := rfl
@[simp] theorem HostIf.irq_owner (h : HostIf) (port vec : Nat) : (h.irq port vec).owner = h.owner := rfl
@[simp] theorem HostIf.irq_gpio (h : HostIf) (port vec : Nat) : (h.irq port vec).gpio = h.gpio := rfl
@[simp] theorem HostIf.irq_waiting (h : HostIf) (port vec : Nat) : (h.irq port vec).waiting = h.waiting := rfl
@[simp] theorem HostIf.irq_latchSets (h : HostIf) (port vec : Nat) : (h.irq port vec).latchSets = h.latchSets := rfl

/-! ## Updates of the power unit -/

@[simp] theorem Pow.upd_rails (w : Pow) (id : Nat) (f : Dom → Dom) : (w.upd id f).rails = w.rails := rfl
@[simp] theorem Pow.upd_budget (w : Pow) (id : Nat) (f : Dom → Dom) : (w.upd id f).budget = w.budget := rfl
@[simp] theorem Pow.upd_budgetPend (w : Pow) (id : Nat) (f : Dom → Dom) : (w.upd id f).budgetPend = w.budgetPend := rfl
@[simp] theorem Pow.upd_op (w : Pow) (id : Nat) (f : Dom → Dom) : (w.upd id f).op = w.op := rfl
@[simp] theorem Pow.upd_floorRun (w : Pow) (id : Nat) (f : Dom → Dom) : (w.upd id f).floorRun = w.floorRun := rfl
@[simp] theorem Pow.upd_energyE (w : Pow) (id : Nat) (f : Dom → Dom) : (w.upd id f).energyE = w.energyE := rfl
@[simp] theorem Pow.upd_reserve (w : Pow) (id : Nat) (f : Dom → Dom) : (w.upd id f).reserve = w.reserve := rfl
@[simp] theorem Pow.upd_samples (w : Pow) (id : Nat) (f : Dom → Dom) : (w.upd id f).samples = w.samples := rfl
@[simp] theorem Pow.upd_energyTotal (w : Pow) (id : Nat) (f : Dom → Dom) : (w.upd id f).energyTotal = w.energyTotal := rfl
@[simp] theorem Pow.upd_fixedPrev (w : Pow) (id : Nat) (f : Dom → Dom) : (w.upd id f).fixedPrev = w.fixedPrev := rfl
@[simp] theorem Pow.upd_trip (w : Pow) (id : Nat) (f : Dom → Dom) : (w.upd id f).trip = w.trip := rfl
@[simp] theorem Pow.upd_dead (w : Pow) (id : Nat) (f : Dom → Dom) : (w.upd id f).dead = w.dead := rfl
@[simp] theorem Pow.upd_brakeActed (w : Pow) (id : Nat) (f : Dom → Dom) : (w.upd id f).brakeActed = w.brakeActed := rfl
@[simp] theorem Pow.upd_brakeReplan (w : Pow) (id : Nat) (f : Dom → Dom) : (w.upd id f).brakeReplan = w.brakeReplan := rfl
@[simp] theorem Pow.upd_lastCheck (w : Pow) (id : Nat) (f : Dom → Dom) : (w.upd id f).lastCheck = w.lastCheck := rfl
@[simp] theorem Pow.upd_lastSnap (w : Pow) (id : Nat) (f : Dom → Dom) : (w.upd id f).lastSnap = w.lastSnap := rfl
@[simp] theorem Pow.upd_brakeUnits (w : Pow) (id : Nat) (f : Dom → Dom) : (w.upd id f).brakeUnits = w.brakeUnits := rfl
@[simp] theorem Pow.upd_mirror (w : Pow) (id : Nat) (f : Dom → Dom) : (w.upd id f).mirror = w.mirror := rfl

@[simp] theorem Pow.updRail_doms (w : Pow) (g : Nat) (f : Rail → Rail) : (w.updRail g f).doms = w.doms := rfl
@[simp] theorem Pow.updRail_budget (w : Pow) (g : Nat) (f : Rail → Rail) : (w.updRail g f).budget = w.budget := rfl
@[simp] theorem Pow.updRail_budgetPend (w : Pow) (g : Nat) (f : Rail → Rail) : (w.updRail g f).budgetPend = w.budgetPend := rfl
@[simp] theorem Pow.updRail_op (w : Pow) (g : Nat) (f : Rail → Rail) : (w.updRail g f).op = w.op := rfl
@[simp] theorem Pow.updRail_floorRun (w : Pow) (g : Nat) (f : Rail → Rail) : (w.updRail g f).floorRun = w.floorRun := rfl
@[simp] theorem Pow.updRail_energyE (w : Pow) (g : Nat) (f : Rail → Rail) : (w.updRail g f).energyE = w.energyE := rfl
@[simp] theorem Pow.updRail_reserve (w : Pow) (g : Nat) (f : Rail → Rail) : (w.updRail g f).reserve = w.reserve := rfl
@[simp] theorem Pow.updRail_samples (w : Pow) (g : Nat) (f : Rail → Rail) : (w.updRail g f).samples = w.samples := rfl
@[simp] theorem Pow.updRail_energyTotal (w : Pow) (g : Nat) (f : Rail → Rail) : (w.updRail g f).energyTotal = w.energyTotal := rfl
@[simp] theorem Pow.updRail_fixedPrev (w : Pow) (g : Nat) (f : Rail → Rail) : (w.updRail g f).fixedPrev = w.fixedPrev := rfl
@[simp] theorem Pow.updRail_trip (w : Pow) (g : Nat) (f : Rail → Rail) : (w.updRail g f).trip = w.trip := rfl
@[simp] theorem Pow.updRail_dead (w : Pow) (g : Nat) (f : Rail → Rail) : (w.updRail g f).dead = w.dead := rfl
@[simp] theorem Pow.updRail_brakeActed (w : Pow) (g : Nat) (f : Rail → Rail) : (w.updRail g f).brakeActed = w.brakeActed := rfl
@[simp] theorem Pow.updRail_brakeReplan (w : Pow) (g : Nat) (f : Rail → Rail) : (w.updRail g f).brakeReplan = w.brakeReplan := rfl
@[simp] theorem Pow.updRail_lastCheck (w : Pow) (g : Nat) (f : Rail → Rail) : (w.updRail g f).lastCheck = w.lastCheck := rfl
@[simp] theorem Pow.updRail_lastSnap (w : Pow) (g : Nat) (f : Rail → Rail) : (w.updRail g f).lastSnap = w.lastSnap := rfl
@[simp] theorem Pow.updRail_brakeUnits (w : Pow) (g : Nat) (f : Rail → Rail) : (w.updRail g f).brakeUnits = w.brakeUnits := rfl
@[simp] theorem Pow.updRail_mirror (w : Pow) (g : Nat) (f : Rail → Rail) : (w.updRail g f).mirror = w.mirror := rfl

/-! ## What an update leaves at its key, and at every other -/

@[simp] theorem Dev.chan_updChan (d : Dev) (k j : Nat) (f : Chan → Chan) : (d.updChan k f).chan j = if j = k then f (d.chan k) else d.chan j :=
  Tab.get_upd _ _ _ _ _
@[simp] theorem Dev.pod_updPod (d : Dev) (k j : Nat) (f : Pod → Pod) : (d.updPod k f).pod j = if j = k then f (d.pod k) else d.pod j :=
  Tab.get_upd _ _ _ _ _
@[simp] theorem Dev.core_updCore (d : Dev) (k j : Nat) (f : Core → Core) : (d.updCore k f).core j = if j = k then f (d.core k) else d.core j :=
  Tab.get_upd _ _ _ _ _
@[simp] theorem Dev.plan_updPlan (d : Dev) (k j : Nat) (f : Plan → Plan) : (d.updPlan k f).plan j = if j = k then f (d.plan k) else d.plan j :=
  Tab.get_upd _ _ _ _ _
@[simp] theorem Obs.buf_updBuf (d : Dev) (k j : Nat) (f : TraceBuf → TraceBuf) :
    (d.updBuf k f).obs.buf j = if j = k then f (d.obs.buf k) else d.obs.buf j := Tab.get_upd _ _ _ _ _
@[simp] theorem Enc.sess_updSess (d : Dev) (k j : Nat) (f : EncSess → EncSess) :
    (d.updSess k f).enc.sess_ j = if j = k then f (d.enc.sess_ k) else d.enc.sess_ j := Tab.get_upd _ _ _ _ _
@[simp] theorem Ing.ring_updRing (g : Ing) (k j : Nat) (f : Ring → Ring) : (g.updRing k f).ring j = if j = k then f (g.ring k) else g.ring j :=
  Tab.get_upd _ _ _ _ _
@[simp] theorem Cad.stream_updStream (c : Cad) (k j : Nat) (f : Stream → Stream) :
    (c.updStream k f).stream j = if j = k then f (c.stream k) else c.stream j := Tab.get_upd _ _ _ _ _
@[simp] theorem HostIf.port_updPort (h : HostIf) (k j : Nat) (f : Port → Port) : (h.updPort k f).port j = if j = k then f (h.port k) else h.port j :=
  Tab.get_upd _ _ _ _ _
@[simp] theorem HostIf.own_setOwner (h : HostIf) (k j o : Nat) : (h.setOwner k o).own j = if j = k then o else h.own j := Tab.get_set _ _ _ _ _
@[simp] theorem Pow.dom_upd (w : Pow) (k j : Nat) (f : Dom → Dom) : (w.upd k f).dom j = if j = k then f (w.dom k) else w.dom j :=
  Tab.get_upd _ _ _ _ _
@[simp] theorem Pow.rail_updRail (w : Pow) (k j : Nat) (f : Rail → Rail) : (w.updRail k f).rail j = if j = k then f (w.rail k) else w.rail j :=
  Tab.get_upd _ _ _ _ _

end Sys2Proof.Machine
end

