-- ==== Sys2Proof/Tests/Slice0.lean ====
section
/-! SUPPORT. Tests of single commands on small states, ill-formed commands that the checks of WellFormed refuse, and for the statements of
Certificates/Slice0/Obligations.lean states and operands that meet their hypotheses. Expected values come from the spec's rules. -/

namespace Sys2Proof.Tests

set_option Elab.async false

open Sys2Proof.Machine

/-! ## Small states -/

/-- A device in READY: every domain ON, both links up, port A holds semaphores 0 to 3, and queue 0 serves with its ring in A's host memory. -/
def base : Dev where
  plat := { phase := .ready, now := 10000000000, fwLoaded := true }
  host := { ports := [(0, { up := true }), (1, { up := true })], sems := [(0, 1), (1, 1), (2, 1), (3, 1)],
            queues := [(0, { enable := true, qstate := 1, cqBase := 0x800000000000, rqBase := 0x800000010000, shadow := 0x800000020000 })] }
  pow := { doms := (List.range 86).map (fun id => (id, { st := 2 })) }

/-- The packet that carries a command's fields at their places (R441); WRITE_INLINE's bytes follow them. -/
def pack (i : Instr) (f : PacketForm) : Packet where
  opcode := f.opcode
  plen := Instr.paramBytes i f
  params := (((fieldPlaces f.layout 0).zip f.fields).map (fun x => x.2 <<< x.1.1)).sum +
    (match i with | .writeInline _ _ data => leNat data <<< 128 | _ => 0)

/-- A device with a command's packet, and nothing else, waiting at the head of its queue. -/
def front (d : Dev) (i : Instr) : State :=
  match i.packet with
  | none => { dev := d }
  | some f => { dev := { d with host := d.host.updQueue f.queue (fun k => { k with fetched := [pack i f] }) } }

/-- The command's turn has come and the common checks find nothing. -/
def admitted (d : Dev) (i : Instr) : Bool :=
  match i.packet with
  | none => false
  | some f => (front d i).dev.head f.queue f.opcode f.layout f.fields == some (pack i f) && Instr.carries i (pack i f) &&
      (front d i).dev.refusal f.queue (pack i f) (Instr.paramBytes i f) {} == none

/-- The command is admitted, and its device meets a further condition. -/
def Met (d : Dev) (i : Instr) (c : Dev → Prop) : Prop := ∃ f p, (front d i).Admits i f p ∧ c (front d i).dev

theorem met (d : Dev) (i : Instr) (c : Dev → Prop) (h : admitted d i = true) (hc : c (front d i).dev) : Met d i c := by
  unfold admitted at h
  split at h
  · exact absurd h (by decide)
  · rename_i f hf
    simp only [Bool.and_eq_true, beq_iff_eq] at h
    exact ⟨f, pack i f, ⟨⟨hf, h.1.1, h.1.2⟩, h.2⟩, hc⟩


/-- Some packet stands where the command's would, and its turn has come. -/
def placed (d : Dev) (i : Instr) (p : Packet) : State :=
  match i.packet with
  | none => { dev := d }
  | some f => { dev := { d with host := d.host.updQueue f.queue (fun k => { k with fetched := [p] }) } }

/-- A packet fronts its queue, alone, its replies can be written, and it meets a further condition. -/
def Met1 (d : Dev) (i : Instr) (p : Packet) (c : Dev → PacketForm → Prop) : Prop :=
  ∃ f, (placed d i p).Fronts i f p ∧ (placed d i p).dev.Alone f.queue p ∧ (placed d i p).dev.CanAnswer (p.replyQueue f.queue) ∧
    p.latchEn = false ∧ c (placed d i p).dev f

theorem alone0 (d : Dev) (k : Queue) (p : Packet) (hq : d.host.queues = [(0, k)]) (hw : d.host.waiting = []) :
    ({ d with host := d.host.updQueue 0 (fun k => { k with fetched := [p] }) } : Dev).Alone 0 p := by
  refine ⟨?_, ?_, hw⟩
  · simp [HostIf.queue, HostIf.updQueue, Tab.get_upd]
  · intro x hx
    simp [HostIf.queue, HostIf.updQueue, Tab.get_upd, hx, hq, Tab.get]

theorem met1 (d : Dev) (i : Instr) (p : Packet) (k : Queue) (f : PacketForm) (c : Dev → PacketForm → Prop) (hi : i.packet = some f)
    (hf : f.queue = 0) (hq : d.host.queues = [(0, k)]) (hw : d.host.waiting = [])
    (hh : (placed d i p).dev.head f.queue f.opcode f.layout f.fields = some p) (hc : Instr.carries i p = true)
    (hr : ((placed d i p).dev.host.queue (p.replyQueue 0)).replies = true)
    (ha : ((placed d i p).dev.host.queue (p.replyQueue 0)).shadow + 4 ≤ ((placed d i p).dev.host.queue (p.replyQueue 0)).rqBase ∨
      ((placed d i p).dev.host.queue (p.replyQueue 0)).rqBase + 16 * 2 ^ ((placed d i p).dev.host.queue (p.replyQueue 0)).rqLog2 ≤
        ((placed d i p).dev.host.queue (p.replyQueue 0)).shadow)
    (hl : p.latchEn = false) (h : c (placed d i p).dev f) : Met1 d i p c := by
  refine ⟨f, ⟨hi, hh, hc⟩, ?_, ?_, hl, h⟩
  · simp only [placed, hi, hf]
    exact alone0 d k p hq hw
  · rw [hf]; exact ⟨hr, ha⟩

/-- What an absent entry has to meet, it meets. -/
theorem none_all {α : Type} {o : Option α} {P : α → Prop} (h : o = none) : ∀ x, o = some x → P x := by
  intro x hx; rw [h] at hx; cases hx
/-- A present entry meets what its value meets. -/
theorem some_all {α : Type} {o : Option α} {P : α → Prop} (a : α) (h : o = some a) (hp : P a) : ∀ x, o = some x → P x := by
  intro x hx; rw [h] at hx; cases hx; exact hp
/-- Where no queue but 0 is set up, every other queue is empty. -/
theorem idle (d : Dev) (k : Queue) (hq : d.host.queues = [(0, k)]) (x : Nat) (hx : x ≠ 0) : (d.host.queue x).fetched = [] := by
  simp [HostIf.queue, hq, Tab.get, hx]

/-! ## Ill-formed commands -/

theorem test_wf_queue : (Instr.nop 16).wf = false ∧ (Instr.nop 15).wf = true := by decide +kernel
theorem test_wf_pin_field : (Instr.gpioClaim 0 16).wf = false ∧ (Instr.gpioClaim 0 15).wf = true := by decide +kernel
theorem test_wf_inline : (Instr.writeInline 0 0 (List.replicate 4049 0)).wf = false := by decide +kernel
theorem test_wf_signature : (Instr.attest 0 0 0 0 []).wf = false := by decide +kernel
theorem test_wf_lifecycle : (Instr.lifecycle 0 8 0 0 true 0 0).wf = false ∧ (Instr.lifecycle 0 1 0 0 true (2 ^ 256) 0).wf = false := by decide +kernel
theorem test_wf_latch_set : (Instr.latchSetDefine 0 0 [1, 2]).wf = false := by decide +kernel
theorem test_wf_window : (Instr.registerWrite 2 0 4 0).wf = false ∧ (Instr.registerWrite 0 0 4 (2 ^ 32)).wf = false ∧
    (Instr.misalignedWindowAccess 0 true 0 9).wf = false := by decide +kernel
theorem test_wf_ports : (Instr.cqTail 0 8 0).wf = false ∧ (Instr.queueEnable 2 0).wf = false ∧ (Instr.qReset 0 8).wf = false ∧
    (Instr.portReset 2).wf = false ∧ (Instr.beatNowRead 2).wf = false ∧ (Instr.deviceTimeRead 0 3).wf = false ∧
    (Instr.linkTrained 0 0 1).wf = false ∧ (Instr.linkTrained 0 1 3).wf = false ∧ (Instr.linkRetrain 2 0 0).wf = false ∧
    (Instr.ptpSyncRecord 0 (2 ^ 64)).wf = false := by decide +kernel
theorem test_wf_queues : (Instr.queueDrained 16).wf = false ∧ (Instr.packetFetch 16 true).wf = false ∧ (Instr.irqHoldoffEnd 16).wf = false ∧
    (Instr.semAcquire 0 64 true).wf = false ∧ (Instr.semRelease 0 64).wf = false := by decide +kernel
theorem test_wf_start : (Instr.selfTestDone (2 ^ 48) true).wf = false ∧ (Instr.smbusBlockRead 256).wf = false := by decide +kernel
theorem test_wf_power : (Instr.sensorReading []).wf = false ∧ (Instr.railSample [] 0).wf = false ∧ (Instr.fastLimit 5).wf = false ∧
    (Instr.fastLimitStop 5).wf = false ∧ (Instr.fastLimitRestore 5).wf = false ∧ (Instr.railVoltageReached 5).wf = false ∧
    (Instr.avsVoltageTimeout 5).wf = false ∧ (Instr.avsbusRetry 5 true).wf = false ∧ (Instr.idleOffExpiry 85).wf = false ∧
    (Instr.ageingReading 86 1 1).wf = false ∧ (Instr.domainPoweredUp 85).wf = false ∧ (Instr.domainDrained 85).wf = false ∧
    (Instr.wipeDone 85).wf = false ∧ (Instr.powerDownDone 85).wf = false ∧ (Instr.offDwellEnd 85).wf = false := by decide +kernel
theorem test_wf_cadence : (Instr.pulseWidthEnd 17).wf = false ∧ (Instr.eventSlotFire 256).wf = false ∧ (Instr.schedulerTimerFire 8).wf = false ∧
    (Instr.liveTaskStart 16).wf = false ∧ (Instr.liveTaskComplete 16).wf = false ∧ (Instr.liveDeadline 16).wf = false := by decide +kernel
theorem test_wf_cores : (Instr.descriptorIssue 192 []).wf = false ∧ (Instr.matmulComplete 0 4 []).wf = false ∧ (Instr.convComplete 192 0 []).wf = false ∧
    (Instr.combineComplete 0 4 []).wf = false ∧ (Instr.vectorComplete 192 []).wf = false ∧ (Instr.attentionComplete 192 []).wf = false ∧
    (Instr.moveComplete 192 []).wf = false ∧ (Instr.moveArrival 192).wf = false ∧ (Instr.stopPointReached 0 4 0 []).wf = false ∧
    (Instr.contextSaveDone 192).wf = false ∧ (Instr.quantumExpiry 192).wf = false ∧ (Instr.contextRestoreDone 192).wf = false := by decide +kernel
theorem test_wf_pods : (Instr.counterArm 4 0).wf = false ∧ (Instr.tileClaim 192).wf = false ∧ (Instr.tileCompletion 192).wf = false ∧
    (Instr.reissueTimeout 0 64 0).wf = false ∧ (Instr.pageArrival 4 []).wf = false ∧ (Instr.gradientChunkArrival 4 []).wf = false ∧
    (Instr.updatePassComplete 4 []).wf = false ∧ (Instr.multicastArrival 4 0 []).wf = false := by decide +kernel
theorem test_wf_plans : (Instr.waitingStepStart 16).wf = false ∧ (Instr.stepComplete 16).wf = false ∧ (Instr.planLoadDone 16).wf = false ∧
    (Instr.stateLoadDone 16 []).wf = false ∧ (Instr.stateSaveDone 16 []).wf = false ∧ (Instr.tableLoadDone 2 0).wf = false ∧
    (Instr.hullerJobTake 16).wf = false ∧ (Instr.sampleTake 16).wf = false ∧ (Instr.liveInputReady 16).wf = false := by decide +kernel
theorem test_wf_mover : (Instr.channelTail 0 96 0).wf = false ∧ (Instr.channelStart 0 96).wf = false ∧ (Instr.channelPause 0 96).wf = false ∧
    (Instr.channelResume 0 96).wf = false ∧ (Instr.channelRetry 0 96).wf = false ∧ (Instr.channelSkip 0 96).wf = false ∧
    (Instr.channelReset 0 96).wf = false ∧ (Instr.channelQuiesced 96).wf = false ∧ (Instr.moverBurst 5 []).wf = false ∧
    (Instr.descriptorWriteBack 96).wf = false ∧ (Instr.moverFenceDone 96).wf = false ∧ (Instr.moverFault 0 16 0).wf = false ∧
    (Instr.hostTransferTimeout 96).wf = false ∧ (Instr.traceRecord 5).wf = false := by decide +kernel

/-! ## The machine and packet commands in general -/

theorem witness_EmptyQueueTicks : State.reset.pending = [] ∧ State.reset.dev.plat.clockRuns = true := by decide +kernel
/-- One reply waits for room in its ring, and the tick ends its first microsecond. -/
def replyWaits : Dev := { base with
  plat := { base.plat with now := 1999 }
  host := { base.host with waiting := [{ since := 1000 }] } }
theorem witness_EmptyQueueTicks_reply : replyWaits.pow.dead = false ∧ replyWaits.plat.clockRuns = true ∧
    replyWaits.host.waiting.map (·.since) = [1000] ∧ 1000 ≤ replyWaits.plat.now ∧ (replyWaits.plat.now + 1 - 1000) % 1000 = 0 := by decide +kernel
theorem witness_EmptyQueueTicks_held : ({ dev := { plat := { resetN := false } } } : State).dev.plat.clockRuns = false := by decide +kernel
theorem witness_StepKeepsTheInvariant : ({ dev := base } : State).Inv ∧ ∃ t : State, step { dev := base } = .next t :=
  ⟨⟨⟨by decide +kernel, by decide +kernel, by decide +kernel, ⟨by decide +kernel, by decide +kernel⟩⟩,
    ⟨by decide +kernel, by decide +kernel, by decide +kernel, by decide +kernel⟩⟩, _, rfl⟩
theorem witness_NoOtpCellReturns : base.plat.otp.Legal ∧ ∃ t : State, step { dev := base } = .next t :=
  ⟨⟨by decide +kernel, by decide +kernel, by decide +kernel, by decide +kernel⟩, _, rfl⟩
theorem witness_CommandsOutOfTurnDoNothing : (Instr.nop 0).packet = some ⟨0, 0, [], []⟩ ∧ base.head 0 0 [] [] = none := by decide +kernel
theorem witness_RefusedCommandsHaveNoEffect : Met1 base (.nop 0) { opcode := 0, plen := 8 } (fun d f =>
    d.refusal f.queue { opcode := 0, plen := 8 } (Instr.paramBytes (.nop 0) f) {} ≠ none) :=
  met1 _ _ _ _ _ _ rfl rfl rfl rfl (by decide +kernel) rfl (by decide +kernel) (by decide +kernel) rfl (by decide +kernel)
theorem witness_RefusedCommandsHaveNoEffect_len : Met1 base (.nop 0) { opcode := 0, plen := 1 } (fun d f =>
    d.preCheck { opcode := 0, plen := 1 } = none ∧ (1 : Nat) ≠ Instr.paramBytes (.nop 0) f) :=
  met1 _ _ _ _ _ _ rfl rfl rfl rfl (by decide +kernel) rfl (by decide +kernel) (by decide +kernel) rfl (by decide +kernel)
theorem witness_DeviceStatesRefuseCommands_stopped : Met1 { base with plat := { base.plat with faultCode := 1 } } (.nop 0) { opcode := 0 } (fun d f =>
    d.plat.deviceState = 3 ∧ f.opcode ∉ [0x0002, 0x0003, 0x0004]) :=
  met1 _ _ _ _ _ _ rfl rfl rfl rfl (by decide +kernel) rfl (by decide +kernel) (by decide +kernel) rfl (by decide +kernel)
theorem witness_DeviceStatesRefuseCommands_dormant : Met1 { base with plat := { base.plat with phase := .dormant } } (.nop 0) { opcode := 0 } (fun d f =>
    d.plat.phase = .dormant ∧ f.opcode ∉ [0x0001, 0x0002, 0x0003, 0x0B01, 0x0B03, 0x0004]) :=
  met1 _ _ _ _ _ _ rfl rfl rfl rfl (by decide +kernel) rfl (by decide +kernel) (by decide +kernel) rfl (by decide +kernel)
theorem witness_DeviceStatesRefuseCommands_retired : Met1 { base with plat := { base.plat with lcWord := 3 } } (.nop 0) { opcode := 0 } (fun d f =>
    d.plat.lcWord = 3 ∧ f.opcode ∉ [0x0001, 0x0002, 0x0003, 0x0004]) :=
  met1 _ _ _ _ _ _ rfl rfl rfl rfl (by decide +kernel) rfl (by decide +kernel) (by decide +kernel) rfl (by decide +kernel)
theorem witness_DeviceStatesRefuseCommands_blank : Met1 { base with plat := { base.plat with lcWord := 0 } } (.planUnload 0 0) { opcode := 0x0302, plen := 8 }
    (fun d f => d.plat.lcWord = 0 ∧ f.opcode / 256 ∈ [0x03, 0x04, 0x05, 0x06, 0x07, 0x0D]) :=
  met1 _ _ _ _ _ _ rfl rfl rfl rfl (by decide +kernel) rfl (by decide +kernel) (by decide +kernel) rfl (by decide +kernel)
theorem witness_GuardedCommandsNeedTheirSemaphore : Met1 { base with host := { base.host with sems := [(0, 2)] } } (.fwSelect 0 1 true)
    { opcode := 0x0B02, plen := 8, params := 1 } (fun d f => (f.opcode, 0) ∈ [(0x0B01, 0), (0x0B02, 0), (0x0804, 1), (0x0B03, 2), (0x0901, 3)] ∧
      Tab.get 0 d.host.sems 0 ≠ f.queue / 8 + 1 ∧ d.preCheck { opcode := 0x0B02, plen := 8, params := 1 } = none ∧ d.plat.lcWord ≠ 3) :=
  met1 _ _ _ _ _ _ rfl rfl rfl rfl (by decide +kernel) rfl (by decide +kernel) (by decide +kernel) rfl (by decide +kernel)
theorem witness_LateCommandsNeverStart : Met1 base (.nop 0) { opcode := 0, dlEn := true } (fun d _ =>
    d.cad.isPast 0 0 d.plat.now = true ∧ d.preCheck { opcode := 0, dlEn := true } = none ∧ d.plat.lcWord ≠ 3) :=
  met1 _ _ _ _ _ _ rfl rfl rfl rfl (by decide +kernel) rfl (by decide +kernel) (by decide +kernel) rfl (by decide +kernel)
theorem witness_ReplyOnlyCommandsAnswer (i : Instr) (h : i ∈ [.nop 0, .fence 0, .identify 0, .getStatus 0, .readTileCounter 0 3 63]) :
    admitted base i = true ∧ (∀ f, (pack i f).Plain) ∧ ∀ f, i.packet = some f → (front base i).dev.Alone 0 (pack i f) ∧ (front base i).dev.CanAnswer 0 := by
  simp only [List.mem_cons, List.not_mem_nil, or_false] at h
  rcases h with rfl | rfl | rfl | rfl | rfl <;>
    exact ⟨by decide +kernel, fun f => ⟨rfl, rfl, rfl⟩, fun f hf => by
      cases hf; exact ⟨alone0 base _ _ rfl rfl, by decide +kernel, by decide +kernel⟩⟩

/-! ## Ports, queues, semaphores and the ownership table -/

/-- Queue 0 of `base`, changed. -/
def withQ (f : Queue → Queue) : Dev := { base with host := base.host.updQueue 0 f }

theorem witness_SemaphoresAcquireAndRelease : base.linked 0 = true ∧ Tab.get 0 base.host.sems 63 = 0 ∧ Tab.get 0 base.host.sems 0 = 1 ∧
    base.linked 1 = true ∧ Tab.get 0 base.host.sems 3 ≠ 2 := by decide +kernel
theorem witness_LatchedReadsAgree : base.linked 0 = true ∧
    ∃ t v : State, exec (.deviceTimeRead 0 0) { dev := base } = .next t ∧ t.dev.linked 0 = true ∧ exec (.deviceTimeRead 0 1) t = .next v :=
  ⟨by decide +kernel, _, _, rfl, by decide +kernel, rfl⟩
theorem witness_LatchedReadsAgree_beat : base.linked 1 = true ∧
    ∃ t : State, exec (.beatNowRead 1) { dev := base } = .next t ∧ (t.dev.host.port 1).startLatch = some base.cad.start :=
  ⟨by decide +kernel, _, rfl, by decide +kernel⟩
theorem witness_RefusedWindowAccessesAreCounted : base.linked 0 = true ∧ (3 ≠ 4 ∧ 3 ≠ 8) ∧ 0xFFFFE % 4 ≠ 0 ∧ 0x100000 < 0xFFFFC + 8 ∧
    base.linked 1 = true ∧ base.host.own (0x40 + (0x15FF8 - 0x10000) / 0x100) ≠ 0 + 1 := by decide +kernel
theorem witness_RegisterWritesChangeTheirRegister : base.linked 0 = true ∧ base.writeRefused 0 0x1100 8 = false ∧
    (base.host.queue 1).qstate = 0 ∧ base.writeRefused 0 0x1024 4 = false ∧ (base.host.queue 0).qstate ≠ 0 ∧
    base.writeRefused 0 0x1800 8 = false ∧ base.writeRefused 0 0xFFFF8 8 = false := by decide +kernel
theorem witness_RegisterWritesChangeTheirRegister_channel (d : Dev)
    (h : d = { base with host := base.host.setOwner (0x40 + 95) 1 }) : d.linked 0 = true ∧ d.writeRefused 0 0x15F00 8 = false ∧
    0x10000 + 0x100 * 95 ≤ 0x15F00 := by subst h; decide +kernel
theorem witness_QueueControl_cqTail : base.linked 0 = true ∧ (16 + 2 ^ 32 - (base.host.queue 0).cqHead) % 2 ^ 32 ≤ 2 ^ (base.host.queue 0).cqLog2 ∧
    2 ^ (base.host.queue 0).cqLog2 < (17 + 2 ^ 32 - (base.host.queue 0).cqHead) % 2 ^ 32 ∧ (base.host.queue 0).qstate ≤ 1 := by decide +kernel
theorem witness_QueueControl_enable : base.linked 0 = true ∧ (base.host.queue 7).qstate = 0 ∧ ∀ x, (base.host.queue x).fetched = [] :=
  ⟨by decide +kernel, by decide +kernel, fun x => by by_cases h : x = 0; · subst h; rfl
                                                     · exact idle base _ rfl x h⟩
theorem witness_QueueControl_drained : (withQ (fun k => { k with qstate := 3 })).linked 0 = true ∧
    ((withQ (fun k => { k with qstate := 3 })).host.queue 0).qstate = 3 ∧ ∀ c ∈ (withQ (fun k => { k with qstate := 3 })).host.inProg, c.queue ≠ 0 := by
  decide +kernel
/-- One entry waits in the command ring of queue 0, whose packet names `b0` and `b1` as the bytes of PARAM_LEN. -/
def ringDev (b0 b1 : Byte) : Dev :=
  { withQ (fun k => { k with cqTail := 1 }) with mem := [(0x80000000000A, b0), (0x80000000000B, b1)] }
/-- The hypotheses of PACKET_FETCH but for PARAM_LEN. -/
def fetches (d : Dev) : Prop := (d.host.queue 0).qstate = 1 ∧ (d.host.queue 0).enable = true ∧
  0 < ((d.host.queue 0).cqTail + 2 ^ 32 - (d.host.queue 0).cqHead) % 2 ^ 32 ∧ d.host.portLoad 0 < 128 ∧ d.plat.phase ≠ .held
theorem witness_PacketFetchTakesWholePackets : fetches (withQ (fun k => { k with cqTail := 1 })) ∧
    bits (rdNat (withQ (fun k => { k with cqTail := 1 })).mem 0x800000000000 32) 80 12 = 0 ∧ 0 ∈ knownOpcodes := by
  unfold fetches; decide +kernel
theorem witness_PacketFetchTakesWholePackets_long : fetches (ringDev 0xE1 0x0F) ∧ bits (rdNat (ringDev 0xE1 0x0F).mem 0x800000000000 32) 80 12 = 4065 := by
  unfold fetches; decide +kernel
theorem witness_PacketFetchTakesWholePackets_wait : fetches (ringDev 0x01 0) ∧ bits (rdNat (ringDev 0x01 0).mem 0x800000000000 32) 80 12 = 1 ∧
    ((ringDev 0x01 0).host.queue 0).cqTail < (32 + 1 + 31) / 32 := by unfold fetches; decide +kernel
theorem witness_UnknownOpcodesAreRefused : ∃ d : Dev, d.plat.phase = .ready ∧ d.plat.faultCode = 0 ∧ d.Alone 0 { opcode := 0xFFFF } ∧
    (0xFFFF : Nat) ∉ knownOpcodes ∧ d.CanAnswer 0 ∧ 16 ≤ (d.host.queue 0).freeEntries ∧ d.host.inProg = [] :=
  ⟨{ base with host := base.host.updQueue 0 (fun k => { k with fetched := [{ opcode := 0xFFFF }] }) }, rfl, rfl,
    alone0 base _ _ rfl rfl, by decide +kernel, ⟨by decide +kernel, by decide +kernel⟩, by decide +kernel, rfl⟩
theorem witness_InterruptsGoOutAndLinksTrain : ∃ d : Dev, (d.host.queue 0).irqHeld = true ∧ (d.host.queue 0).lastIrq = some 0 ∧
    0 + (d.host.queue 0).holdoff * 1000 ≤ d.plat.now ∧ (d.host.queue 0).rqTail ≠ (d.host.queue 0).rqHead :=
  ⟨withQ (fun k => { k with irqHeld := true, lastIrq := some 0, holdoff := 65535, rqTail := 1 }), by decide +kernel⟩
theorem witness_InterruptsGoOutAndLinksTrain_read : ∃ d : Dev, (d.host.queue 0).irqHeld = true ∧ (d.host.queue 0).lastIrq = some d.plat.now ∧
    (d.host.queue 0).holdoff = 0 ∧ (d.host.queue 0).rqTail = (d.host.queue 0).rqHead :=
  ⟨withQ (fun k => { k with irqHeld := true, lastIrq := some 10000000000 }), by decide +kernel⟩
theorem witness_InterruptsGoOutAndLinksTrain_links : base.plat.phase ≠ .dormant ∧ base.plat.phase ≠ .held ∧ base.pow.on 65 = true ∧
    (base.host.port 1).up = true ∧ ({ base with plat := { base.plat with phase := .dormant } } : Dev).plat.phase = .dormant := by decide +kernel
theorem witness_PortResetReleasesThePort : ∃ d : Dev, (d.host.port 1).up = false ∧ (d.host.port 1).downAt = some 0 ∧ 0 + 10000000 ≤ d.plat.now ∧
    d.host.entriesOf 1 = [] ∧ (∀ x, (d.host.queue x).fetched = []) ∧ Tab.get 0 d.host.sems 9 = 2 :=
  ⟨{ base with host := { base.host with ports := [(1, { downAt := some 0 })], sems := [(9, 2)] } }, by decide +kernel, by decide +kernel,
    by decide +kernel, by decide +kernel, fun x => by
      by_cases h : x = 0
      · subst h; rfl
      · exact idle _ _ rfl x h, by decide +kernel⟩
theorem witness_ClaimsOfPinsAndChannels : Met base (.gpioClaim 0 15) (fun d => d.host.own 15 = 0) ∧ Met base (.channelClaim 0 0x9F) (fun d => d.host.own 0x9F = 0) :=
  ⟨met _ _ _ (by decide +kernel) (by decide +kernel), met _ _ _ (by decide +kernel) (by decide +kernel)⟩
theorem witness_ClaimsOfPinsAndChannels_taken : Met1 { base with host := base.host.setOwner 3 2 } (.gpioClaim 0 3) { opcode := 0x0010, plen := 8, params := 3 }
    (fun d _ => d.host.own 3 ≠ 0 ∧ d.host.own 3 ≠ 0 / 8 + 1) :=
  met1 _ _ _ _ _ _ rfl rfl rfl rfl (by decide +kernel) rfl (by decide +kernel) (by decide +kernel) rfl (by decide +kernel)
theorem witness_ClaimsOfPinsAndChannels_held : Met { base with host := base.host.setOwner 3 1 } (.gpioRelease 0 3) (fun d => d.host.own 3 = 0 / 8 + 1) ∧
    Met { base with host := base.host.setOwner 6 1 } (.gpioSet 0 6 2 0 1) (fun d => d.host.own 6 = 0 / 8 + 1) :=
  ⟨met _ _ _ (by decide +kernel) (by decide +kernel), met _ _ _ (by decide +kernel) (by decide +kernel)⟩

/-! ## Administration -/

theorem witness_CommandsWriteMemory_log : Met base (.readFaultLog 0 0x8000000000) (fun d => d.cmdWritable 0x8000000000 (32 + 32 * d.plat.faultLog.length) = true) :=
  met _ _ _ (by decide +kernel) (by decide +kernel)
theorem witness_ResetActsAfterItsReply : Met base (.reset 0) (fun _ => True) := met _ _ _ (by decide +kernel) trivial
theorem witness_ResetActsAfterItsReply_execute : ∃ d : Dev, d.plat.resetAt = some 1 ∧ d.plat.lifeAt = some 1 ∧ 1 + 10000 ≤ d.plat.now ∧ d.plat.phase ≠ .dormant :=
  ⟨{ plat := { now := 10001, resetAt := some 1, lifeAt := some 1, phase := .ready } }, by decide +kernel⟩
theorem witness_ResetActsAfterItsReply_dormant : ∃ d : Dev, d.plat.resetAt = some 1 ∧ 1 + 10000 ≤ d.plat.now ∧ d.plat.phase = .dormant ∧ d.plat.failLimit ≠ 0 :=
  ⟨{ plat := { now := 10001, resetAt := some 1, phase := .dormant } }, by decide +kernel⟩

/-! ## Memory, pools, sequence tables and pages -/

theorem witness_CommandsWriteMemory : Met base (.fill 0 0x8000000000 64 7) (fun d => d.unwritable 0x8000000000 64 = none) ∧
    Met base (.writeInline 0 0x9000000000 [1, 2, 3]) (fun d => d.unwritable 0x9000000000 3 = none) :=
  ⟨met _ _ _ (by decide +kernel) (by decide +kernel), met _ _ _ (by decide +kernel) (by decide +kernel)⟩
theorem witness_CommandsWriteMemory_refused : Met base (.fill 0 1 64 7) (fun _ => 1 % 64 ≠ 0) ∧
    Met base (.writeInline 0 0xFFFFFFFFFF [1]) (fun d => d.unwritable 0xFFFFFFFFFF 1 ≠ none) ∧ Met base (.writeInline 0 0 []) (fun _ => True) :=
  ⟨met _ _ _ (by decide +kernel) (by decide +kernel), met _ _ _ (by decide +kernel) (by decide +kernel), met _ _ _ (by decide +kernel) trivial⟩
/-- `base` with pod 3 as given. -/
def withPod (x : Pod) : Dev := { base with pods := [(3, x)] }
/-- A pod with pool 3 of two frames, the first in use, and table 4,095 with one valid page. -/
def podX : Pod where
  pools := [(3, { inUse := true, frameBytes := 4096, base := podStore 3, frames := 2, recs := [(0, 2 ^ 16 + 1)] })]
  seqs := [(4095, { inUse := true, pool := 3, entries := 65535, ents := [(65534, mkEntry (podStore 3) 2 9)] })]
theorem witness_PoolsAndTablesComeAndGo : Met base (.poolCreate 0 3 3 (16 * 2 ^ 20) (podStore 3) 1)
    (fun d => ((d.pod 3).pool 3).inUse = false ∧ d.unbacked (podStore 3) (1 * (16 * 2 ^ 20)) = none) :=
  met _ _ _ (by decide +kernel) (by decide +kernel)
theorem witness_PoolsAndTablesComeAndGo_destroy : Met (withPod { pools := [(3, { inUse := true })] }) (.poolDestroy 0 3 3)
      (fun d => ((d.pod 3).pool 3).inUse = true ∧ ∀ r ∈ ((d.pod 3).pool 3).recs, r.2.testBit 16 = false) ∧
    Met (withPod podX) (.poolDestroy 0 3 3) (fun d => ((d.pod 3).pool 3).inUse = true ∧ ∃ r ∈ ((d.pod 3).pool 3).recs, r.2.testBit 16 = true) :=
  ⟨met _ _ _ (by decide +kernel) (by decide +kernel), met _ _ _ (by decide +kernel) (by decide +kernel)⟩
theorem witness_PoolsAndTablesComeAndGo_tables : Met (withPod podX) (.seqCreate 0 3 3 0 65535 0) (fun d => ((d.pod 3).pool 3).inUse = true ∧
      ((d.pod 3).seq 0).inUse = false) ∧ Met (withPod podX) (.seqDestroy 0 3 4095) (fun d => ((d.pod 3).seq 4095).inUse = true) :=
  ⟨met _ _ _ (by decide +kernel) (by decide +kernel), met _ _ _ (by decide +kernel) (by decide +kernel)⟩
theorem witness_PagesAllocateShareAndFree : Met (withPod podX) (.pageAlloc 0 3 4095 0 5) (fun d => ((d.pod 3).seq 4095).inUse = true ∧
    ∃ y, y = (d.pod 3).freeEnt ((d.pod 3).ent 4095 0) ∧ 1 < (y.pool 3).frames ∧ (Tab.get 0 (y.pool 3).recs 1).testBit 16 = false ∧
      ∀ j, j < 1 → (Tab.get 0 (y.pool 3).recs j).testBit 16 = true) :=
  met _ _ _ (by decide +kernel) ⟨by decide +kernel, _, rfl, by decide +kernel⟩
theorem witness_PagesAllocateShareAndFree_full : Met (withPod { podX with pools := [(3, { inUse := true })] }) (.pageAlloc 0 3 4095 0 5)
    (fun d => ((d.pod 3).seq 4095).inUse = true ∧ ∀ i, i < (((d.pod 3).freeEnt ((d.pod 3).ent 4095 0)).pool 3).frames →
      (Tab.get 0 (((d.pod 3).freeEnt ((d.pod 3).ent 4095 0)).pool 3).recs i).testBit 16 = true) :=
  met _ _ _ (by decide +kernel) (by decide +kernel)
theorem witness_PagesAllocateShareAndFree_share : Met (withPod podX) (.pageShare 0 3 4095 65534 4095 0) (fun d => ((d.pod 3).seq 4095).inUse = true ∧
      bits ((d.pod 3).ent 4095 65534) 36 2 = 2 ∧ (d.pod 3).refs (entFrame ((d.pod 3).ent 4095 65534)) < 65535) ∧
    Met (withPod podX) (.pageFree 0 3 4095 65534) (fun d => ((d.pod 3).seq 4095).inUse = true ∧ bits ((d.pod 3).ent 4095 65534) 36 2 ≠ 0) :=
  ⟨met _ _ _ (by decide +kernel) (by decide +kernel), met _ _ _ (by decide +kernel) (by decide +kernel)⟩
theorem witness_FramesFreeAndShare : podX.frameAt (podStore 3) = some (3, 0) ∧ (Tab.get 0 (podX.pool 3).recs 0).testBit 16 = true ∧
    (∀ e ∈ podX.pools, ∀ k ∈ e.2.recs, k.2.testBit 16 = false ∨ bits k.2 0 16 ≠ 0) ∧ bits (Tab.get 0 (podX.pool 3).recs 0) 0 16 ≤ 1 ∧
    (∀ k ∈ podX.readers, podX.epoch < k.2) := by decide +kernel
theorem witness_FramesFreeAndShare_reader : ∃ x : Pod, x.frameAt (podStore 3) = some (3, 0) ∧ (Tab.get 0 (x.pool 3).recs 0).testBit 16 = true ∧
    (∀ e ∈ x.pools, ∀ k ∈ e.2.recs, k.2.testBit 16 = false ∨ bits k.2 0 16 ≠ 0) ∧ bits (Tab.get 0 (x.pool 3).recs 0) 0 16 ≤ 1 ∧
    (∃ k ∈ x.readers, k.2 ≤ x.epoch) ∧ x.epoch < 2 ^ 32 := ⟨{ podX with readers := [(1, 0)] }, by decide +kernel⟩

/-! ## Plans, steps, parameter state -/

/-- `base` with plan `h` as given. -/
def withPlan (h : Nat) (pl : Plan) : Dev := { base with plans := [(h, pl)] }
/-- A training plan that has been loaded, with run state and parameter state. -/
def planX : Plan where
  ready := true
  run := some (2 ^ 96)
  stateLoaded := true

theorem witness_PlansLoadWholeOrNotAtAll : Met base (.planLoad 0 0x8000000000 1) (fun d => d.unbacked (0x8000000000 % 2 ^ 48) 1 = none ∧
    d.handleTaken 0 = false ∧ bits (rdNat d.mem (0x8000000000 % 2 ^ 48) 1) 0 4 = 0 ∧ ∀ e ∈ d.plans, e.2.live = true ∨ (e.2.ready = false ∧ e.2.loadCmd = 0)) :=
  met _ _ _ (by decide +kernel) (by decide +kernel)
theorem witness_PlansLoadWholeOrNotAtAll_handle : Met { base with planUsed := [0], plans := [(0, { ready := true, live := true })] } (.planLoad 0 0x8000000000 256)
    (fun d => d.handleTaken 1 = false ∧ (∀ k, k < 1 → d.handleTaken k = true) ∧ ∀ e ∈ d.plans, e.2.live = true ∨ (e.2.ready = false ∧ e.2.loadCmd = 0)) :=
  met _ _ _ (by decide +kernel) (by decide +kernel)
/-- A device that loads plan 15 from 256 bytes of GDDR7. -/
def loading (m : Tab Byte) : Dev := { withPlan 15 { loadCmd := 1, loadSrc := 0x8000000000, loadLen := 256, live := true } with mem := m }
theorem witness_PlansLoadWholeOrNotAtAll_done : ∃ d : Dev, d.pow.dead = false ∧ (d.plan 15).loadCmd ≠ 0 ∧
    firstBad d.poison (d.plan 15).loadSrc (d.plan 15).loadLen = none ∧ ∃ b, b = rdBytes d.mem (d.plan 15).loadSrc (d.plan 15).loadLen ∧
      d.imageFault b = none ∧ d.imageFits b = true ∧ d.slowRefusal (readPlan b (d.plan 15).port) = none :=
  ⟨loading [(0x8000000000, 1), (0x8000000002, 1), (0x8000000005, 1)], by decide +kernel, by decide +kernel, by decide +kernel, _, rfl, by decide +kernel⟩
theorem witness_PlansLoadWholeOrNotAtAll_fault : ∃ d : Dev, (d.plan 15).loadCmd ≠ 0 ∧
    d.imageFault (rdBytes d.mem (d.plan 15).loadSrc (d.plan 15).loadLen) ≠ none := ⟨loading [], by decide +kernel⟩
theorem witness_PlanUnloadNeedsAnIdlePlan_invalid : Met (withPlan 7 { planX with valid := false, cur := some {} }) (.planUnload 0 7)
    (fun d => (d.plan 7).ready = true ∧ (d.plan 7).valid = false) := met _ _ _ (by decide +kernel) (by decide +kernel)
theorem witness_PlanUnloadNeedsAnIdlePlan : Met (withPlan 15 planX) (.planUnload 0 15) (fun d => (d.plan 15).ready = true ∧ (d.plan 15).valid = true ∧
      ((d.plan 15).cur = none ∧ (d.plan 15).next = none ∧ (d.plan 15).overlap = none) ∧ d.cad.streams = [] ∧ d.obs.dumps = []) ∧
    Met (withPlan 0 { planX with cur := some {} }) (.planUnload 0 0) (fun d => (d.plan 0).ready = true ∧ (d.plan 0).valid = true ∧ (d.plan 0).cur ≠ none) :=
  ⟨met _ _ _ (by decide +kernel) (by decide +kernel), met _ _ _ (by decide +kernel) (by decide +kernel)⟩
/-- What RUN_STEP asks of its plan. -/
def runs (pl : Plan) (step : Nat) (d : Dev) : Prop := pl.ready = true ∧ pl.live = false ∧ pl.valid = true ∧ pl.run ≠ none ∧ pl.stateLoaded = true ∧
  pl.blocked = 0 ∧ pl.tooEarly step = false ∧ (pl.batches = true → d.ing.trainRing ≠ none)
theorem witness_RunStepWaitsOrStarts : Met (withPlan 0 { planX with cur := some { step := 6 } }) (.runStep 0 0 7)
    (fun d => runs (d.plan 0) 7 d ∧ (d.plan 0).cur = some { step := 6 } ∧ (d.plan 0).next = none ∧ (d.plan 0).overlap = none ∧ (d.plan 0).batches = false) :=
  met _ _ _ (by decide +kernel) (by unfold runs; decide +kernel)
theorem witness_RunStepWaitsOrStarts_ring : Met { withPlan 0 { planX with batches := true, cur := some { step := 6 } } with ing := { rings := [(15, { on := true })] } }
    (.runStep 0 0 7) (fun d => runs (d.plan 0) 7 d ∧ (d.plan 0).batches = true ∧ d.ing.trainRing = some (15, { on := true })) :=
  met _ _ _ (by decide +kernel) (by unfold runs; decide +kernel)
theorem witness_RunStepWaitsOrStarts_start : Met (withPlan 0 planX) (.runStep 0 0 7) (fun d => runs (d.plan 0) 7 d ∧ (d.plan 0).cur = none ∧
    (d.plan 0).next = none ∧ (d.plan 0).overlap = none ∧ ∀ i, i < d.cob.blks.length → hdMom (d.blkHeader i) = 7 ∧ hdW (d.blkHeader i) = 7) :=
  met _ _ _ (by decide +kernel) (by unfold runs; decide +kernel)
theorem witness_RunStepWaitsOrStarts_opens : ∃ (d1 : Dev) (f : PacketForm) (p : Packet), (Instr.runStep 0 0 7).packet = some f ∧ p = pack (.runStep 0 0 7) f ∧
    d1 = ((((front (withPlan 0 planX) (.runStep 0 0 7)).dev.begin_ 0 p).1.accept ((front (withPlan 0 planX) (.runStep 0 0 7)).dev.begin_ 0 p).2).takeBatch 0).1 ∧
    ((Dev.rotateCosts { d1 with cad := d1.cad.takeReservations }).openWork planX (workKey false 0 7) 0 0 (d1.host.cmd base.host.nextCmd)).2 = 0 :=
  ⟨_, _, _, rfl, rfl, rfl, by decide +kernel⟩
theorem witness_RunStepWaitsOrStarts_full : Met (withPlan 0 { planX with next := some {} }) (.runStep 0 0 7)
    (fun d => runs (d.plan 0) 7 d ∧ ((d.plan 0).next ≠ none ∨ (d.plan 0).overlap ≠ none)) :=
  met _ _ _ (by decide +kernel) (by unfold runs; decide +kernel)
theorem witness_StepAbortStopsTheSteps : Met (withPlan 0 { planX with cur := some {} }) (.stepAbort 0 0)
    (fun d => (d.plan 0).ready = true ∧ (d.plan 0).valid = true ∧ d.obs.dumps = [] ∧ (d.plan 0).cur ≠ none) :=
  met _ _ _ (by decide +kernel) (by decide +kernel)
theorem witness_StepsStartInTurnAndComplete : ∃ (d : Dev) (n : StepRun), d.pow.dead = false ∧ (d.plan 15).next = some n ∧ (d.plan 15).cur = none ∧
    ((Dev.rotateCosts { d.updPlan 15 (fun p => { p with next := none }) with cad := d.cad.takeReservations }).openWork
      { d.plan 15 with next := none } (workKey false 0 n.step) 0 0 (d.host.cmd n.cmd)).2 = 0 ∧ (d.plan 15).tooEarly n.step = false :=
  ⟨withPlan 15 { planX with next := some { cmd := 1, step := 7 } }, { cmd := 1, step := 7 }, by decide +kernel⟩
theorem witness_StepsStartInTurnAndComplete_early : ∃ (d : Dev) (n : StepRun), d.pow.dead = false ∧ (d.plan 15).next = some n ∧ (d.plan 15).cur = none ∧
    (d.plan 15).tooEarly n.step = true :=
  ⟨withPlan 15 { planX with next := some { cmd := 1, step := 7 }, groupSet := [511], groups := [(511, 8 <<< 320)] }, { cmd := 1, step := 7 }, by decide +kernel⟩
theorem witness_StepsStartInTurnAndComplete_done : ∃ d : Dev, d.pow.dead = false ∧ (d.plan 0).cur = some { cmd := 1, step := 7, eos := none } ∧
    d.stepOver 0 { cmd := 1, step := 7 } = true ∧ (d.plan 0).overlap = none ∧ d.host.cmd 1 = some { id := 1 } ∧ d.host.waiting = [] ∧
    (∀ x, (d.host.queue x).fetched = []) ∧ d.CanAnswer 0 ∧ 16 ≤ 2 ^ (d.host.queue 0).rqLog2 ∧ (d.plan 0).aborts = [] ∧ ({} : Packet).Plain :=
  ⟨{ withPlan 0 { planX with cur := some { cmd := 1, step := 7 } } with host := { base.host with inProg := [{ id := 1 }] } }, by decide +kernel, by decide +kernel,
    by decide +kernel, by decide +kernel, by decide +kernel, rfl, fun x => by
      by_cases h : x = 0
      · subst h; rfl
      · exact idle _ _ rfl x h, ⟨by decide +kernel, by decide +kernel⟩, by decide +kernel, by decide +kernel, ⟨rfl, rfl, rfl⟩⟩
theorem witness_StepsStartInTurnAndComplete_running : ∃ (d : Dev) (r : StepRun), (d.plan 0).cur = some r ∧ d.stepOver 0 r = false :=
  ⟨withPlan 0 { planX with loops := [{}], cur := some {} }, {}, by decide +kernel⟩

/-- What the commands of parameter state ask of their plan. -/
def idlePlan (pl : Plan) (d : Dev) : Prop := pl.ready = true ∧ pl.live = false ∧ pl.valid = true ∧ pl.cur = none ∧ pl.next = none ∧ pl.overlap = none ∧
  ∀ e ∈ d.plans, e.2.stateCmds = []
theorem witness_ParameterStateCommands_run : Met (withPlan 0 planX) (.runConfig 0 0 (2 ^ 96 + 2 ^ 89)) (fun d => idlePlan (d.plan 0) d ∧
      (runConds (2 ^ 96 + 2 ^ 89)).all id = true ∧ (d.plan 0).parkHolds = true) ∧
    Met (withPlan 0 { planX with cur := some {} }) (.runConfig 0 0 (2 ^ 96)) (fun d => (d.plan 0).ready = true ∧ (runConds (2 ^ 96)).all id = true ∧ (d.plan 0).cur ≠ none) :=
  ⟨met _ _ _ (by decide +kernel) (by unfold idlePlan; decide +kernel), met _ _ _ (by decide +kernel) (by decide +kernel)⟩
theorem witness_ParameterStateCommands_save : Met (withPlan 0 planX) (.stateSave 0 0 0x8000000000 128) (fun d => idlePlan (d.plan 0) d ∧
    d.unwritable (0x8000000000 % 2 ^ 48) (d.imageLen 0) = none ∧ d.imageLen 0 ≤ 128) :=
  met _ _ _ (by decide +kernel) (by unfold idlePlan; decide +kernel)
/-- An image of parameter state with no group and no shard: 128 bytes, and a run state with GROWTH 1. -/
def imageX : Tab Byte := [(0x8000000008, 128), (0x800000004C, 1)]
theorem witness_ParameterStateCommands_load : Met { withPlan 0 planX with mem := imageX } (.stateLoad 0 0 0x8000000000 128) (fun d => idlePlan (d.plan 0) d ∧
    d.unbacked (0x8000000000 % 2 ^ 48) 128 = none ∧ ∃ x, x = (d.plan 0).readImage d.mem (0x8000000000 % 2 ^ 48) ∧ x.len ≤ 128 ∧
      (d.plan 0).imageBad x = false ∧ (d.plan 0).imageTooBig x = false) :=
  met _ _ _ (by decide +kernel) ⟨by unfold idlePlan; decide +kernel, by decide +kernel, _, rfl, by decide +kernel, by decide +kernel, by decide +kernel⟩
theorem witness_StateImagesLoadAndSave : ∃ d : Dev, d.pow.dead = false ∧ (d.plan 15).stateCmds = [(1, false, 0x8000000000, 128)] ∧ (d.plan 15).cur = none ∧
    (d.plan 15).next = none ∧ (d.plan 15).overlap = none ∧
    firstBad (flipBad d.poison []) 0x8000000000 (128 + 128 * ((d.plan 15).readImage d.mem 0x8000000000).nGroups) = none :=
  ⟨{ withPlan 15 { planX with stateCmds := [(1, false, 0x8000000000, 128)] } with mem := imageX }, by decide +kernel⟩
theorem witness_StateImagesLoadAndSave_parity : ∃ d : Dev, (d.plan 0).stateCmds = [(1, false, 0x8000000000, 128)] ∧ (2 : Nat) ^ 48 - 1 < 2 ^ 48 ∧
    firstBad (flipBad d.poison [0x8000000000]) 0x8000000000 (128 + 128 * ((d.plan 0).readImage d.mem 0x8000000000).nGroups) ≠ none :=
  ⟨{ withPlan 0 { planX with stateCmds := [(1, false, 0x8000000000, 128)] } with mem := imageX }, by decide +kernel⟩
theorem witness_StateImagesLoadAndSave_save : ∃ d : Dev, d.pow.dead = false ∧ (d.plan 0).stateCmds = [(1, true, 0x9000000000, 128)] ∧ d.cob.blks = [] ∧
    ∀ k x, 0x9000000000 ≤ x → x < 0x9000000000 + 128 → ¬ (d.host.queue k).replyByte k x :=
  ⟨withPlan 0 { planX with stateCmds := [(1, true, 0x9000000000, 128)] }, by decide +kernel, by decide +kernel, by decide +kernel, fun k x h1 h2 => by
    by_cases hk : k = 0
    · subst hk; simp [Queue.replyByte, withPlan, base, HostIf.queue, Tab.get]; omega
    · simp [Queue.replyByte, withPlan, base, HostIf.queue, Tab.get, hk]; omega⟩

/-! ## Cores, tile counters, the Cob and the page ring -/

/-- Core 191 of `base` runs a stream of training plan 0, whose descriptors begin with a byte. -/
def onCore (op : Byte) (c : Ctx) (r : StepRun) : Dev :=
  { withPlan 0 { planX with desc := op :: List.replicate 127 0, cur := some r } with cores := [(191, { run := 1, ctx := some c })] }
/-- The descriptor at the pc of core 191 can be issued. -/
def issuable (d : Dev) (c : Ctx) (x : Nat) : Prop := (d.core 191).ctx = some c ∧ d.coreLive 191 = true ∧ (d.core 191).run = 1 ∧ d.mustStop 191 c = false ∧
  c.loop = none ∧ c.ended = false ∧ (d.fetch 191 c c.pc).1 = x ∧ eventWaitDone x c.events = true ∧ d.loopWaitDone c 3 x = true ∧ c.unitFree x = true ∧
  c.claimBlocked 191 x = false
theorem witness_DescriptorsIssueInOrder (op : Nat) (h : op ∈ [0, 1, 2, 3, 5, 6, 7, 8]) :
    issuable (onCore (BitVec.ofNat 8 op) {} {}) {} op ∧ dOp op = op ∧ ({} : Ctx).idle = true := by
  simp only [List.mem_cons, List.not_mem_nil, or_false] at h
  rcases h with rfl | rfl | rfl | rfl | rfl | rfl | rfl | rfl <;> (unfold issuable; decide +kernel)
theorem witness_DescriptorsIssueInOrder_attention : ∃ d : Dev, issuable d {} 4 ∧ ((d.badSlot 191 4).1 = none ∧ (d.badSlot 191 4).2.bad = false) :=
  ⟨onCore 4 {} {}, by unfold issuable; decide +kernel⟩
theorem witness_DescriptorsIssueInOrder_stop : ∃ (d : Dev) (c : Ctx), (d.core 191).ctx = some c ∧ d.coreLive 191 = true ∧ d.mustStop 191 c = true :=
  ⟨onCore 1 {} { halting := true }, {}, by decide +kernel⟩
theorem witness_DescriptorsIssueInOrder_busy : ∃ (d : Dev) (c : Ctx), (d.core 191).ctx = some c ∧ d.coreLive 191 = true ∧ (d.core 191).run = 1 ∧
    d.mustStop 191 c = false ∧ c.loop = none ∧ c.ended = false ∧ c.unitFree (d.fetch 191 c c.pc).1 = false :=
  ⟨onCore 1 { ops := [(0, some { desc := 1 })] } {}, { ops := [(0, some { desc := 1 })] }, by decide +kernel⟩
/-- Core 191 runs an operation on a unit. -/
def busy (u : Nat) (o : Op) : Dev := onCore 0 { ops := [(u, some o)] } {}
/-- What the completion of an operation asks of core 191. -/
def completes (d : Dev) (u : Nat) (o : Op) : Prop := d.pow.dead = false ∧ d.coreLive 191 = true ∧ (d.core 191).run = 1 ∧
  ∃ c, (d.core 191).ctx = some c ∧ c.loop = none ∧ c.ended = false ∧ c.op u = some o ∧ o.stopped = false
theorem witness_ComputeOperationsComplete : completes (busy 3 { desc := 1 }) 3 { desc := 1 } ∧ completes (busy 3 { desc := 3 }) 3 { desc := 3 } ∧
    completes (busy 3 { desc := 5 }) 3 { desc := 5 } :=
  ⟨⟨by decide +kernel, by decide +kernel, by decide +kernel, _, rfl, by decide +kernel⟩, ⟨by decide +kernel, by decide +kernel, by decide +kernel, _, rfl, by decide +kernel⟩,
    by decide +kernel, by decide +kernel, by decide +kernel, _, rfl, by decide +kernel⟩
theorem witness_ComputeOperationsComplete_vector : completes (busy 4 { desc := 2 }) 4 { desc := 2 } ∧ ∀ a ∈ touches 2, (busy 4 { desc := 2 }).accHeld 191 a = false :=
  ⟨⟨by decide +kernel, by decide +kernel, by decide +kernel, _, rfl, by decide +kernel⟩, by decide +kernel⟩
theorem witness_ComputeOperationsComplete_attention : completes (busy 6 { desc := 4 }) 6 { desc := 4 } ∧
    ((busy 6 { desc := 4 }).work 191 []).unitsBad 4 0 (aUnits 4) = none ∧ ((busy 6 { desc := 4 }).work 191 []).unitsFault 4 0 (aUnits 4) = none ∧
    ((busy 6 { desc := 4 }).work 191 []).unitsWait 4 0 (aUnits 4) = false :=
  ⟨⟨by decide +kernel, by decide +kernel, by decide +kernel, _, rfl, by decide +kernel⟩, by decide +kernel⟩
/-- ATTENTION of one unit: one batch index, one head, one query row that meets one key position. -/
def attnX : Nat := 4 + 1 <<< 216 + 1 <<< 224 + 1 <<< 240 + 1 <<< 256 + 0x8000001000 <<< 848
/-- Core 191 at that ATTENTION, whose page table stands at the start of GDDR7 and has `e` in the byte of its first entry's state. -/
def atPage (e : Byte) (o : Op) : Dev :=
  { busy 6 o with mem := Tab.set 0 [(0x8000001004, 1), (0x8000001008, 1), (0x8000001018, 0x80)] 0x8000000004 e }
theorem witness_ComputeOperationsComplete_wait : (atPage 0x10 { desc := attnX }).coreLive 191 = true ∧ dOp attnX = 4 ∧
    ((atPage 0x10 { desc := attnX }).work 191 []).unitsBad attnX 0 (aUnits attnX) = none ∧
    ((atPage 0x10 { desc := attnX }).work 191 []).unitsFault attnX 0 (aUnits attnX) = none ∧
    ((atPage 0x10 { desc := attnX }).work 191 []).unitsWait attnX 0 (aUnits attnX) = true := by decide +kernel
theorem witness_ComputeOperationsComplete_page : ∃ b l, ((atPage 0 { desc := attnX }).work 191 []).unitsBad attnX 0 (aUnits attnX) = none ∧
    ((atPage 0 { desc := attnX }).work 191 []).unitsFault attnX 0 (aUnits attnX) = some (b, l) := ⟨_, _, by decide +kernel, rfl⟩

/-- A MATMUL of two output tiles, one above the other. -/
def tallX : Nat := 1 + 65 <<< 192 + 1 <<< 216 + 1 <<< 240 + 1 <<< 256 + 1 <<< 320
theorem witness_ComputeOperationsComplete_stop : ∃ (d : Dev) (c : Ctx), (d.core 191).ctx = some c ∧ d.coreLive 191 = true ∧ (d.core 191).run = 1 ∧ c.op 6 = none ∧
    c.op 0 = some { desc := tallX } ∧ d.mustStop 191 c = true ∧ stopAtOk tallX 1 = true ∧ stopAtOk tallX 2 = false :=
  ⟨onCore 1 { ops := [(0, some { desc := tallX })] } { halting := true }, _, rfl, by decide +kernel⟩
/-- The same ATTENTION with two heads. -/
def heads2 : Nat := attnX + 1 <<< 216
theorem witness_ComputeOperationsComplete_units : ∃ (d : Dev) (c : Ctx), (d.core 191).ctx = some c ∧ c.op 6 = some { desc := heads2 } ∧ d.mustStop 191 c = true ∧
    1 < aUnits heads2 ∧ (d.work 191 []).unitsBad heads2 0 1 = none ∧ (d.work 191 []).unitsFault heads2 0 1 = none ∧ (d.work 191 []).unitsWait heads2 0 1 = false :=
  ⟨onCore 4 { ops := [(6, some { desc := heads2 })] } { halting := true }, _, rfl, by decide +kernel⟩
theorem witness_MovesCompleteAndArrive : completes (busy 5 { desc := 7 + 2 ^ 128 }) 5 { desc := 7 + 2 ^ 128 } ∧ dOp (7 + 2 ^ 128) = 7 ∧ mvKind (7 + 2 ^ 128) = 1 ∧
    (touches (7 + 2 ^ 128)).any (busy 5 { desc := 7 + 2 ^ 128 }).anyHeld = false ∧
    (busy 5 { desc := 7 + 2 ^ 128 }).sendFull 191 { ops := [(5, some { desc := 7 + 2 ^ 128 })] } (7 + 2 ^ 128) = false ∧ (busy 5 { desc := 7 + 2 ^ 128 }).moveUnbacked (7 + 2 ^ 128) = false :=
  ⟨⟨by decide +kernel, by decide +kernel, by decide +kernel, _, rfl, by decide +kernel⟩, by decide +kernel⟩
/-- A fill of one byte at the last address below the host windows, which nothing backs. -/
def farFill : Nat := packBits [(8, 7), (120, 0), (32, 1), (64, 0), (64, 2 ^ 47 - 1), (32, 1), (24, 1)]
theorem witness_MovesCompleteAndArrive_unbacked : ∃ (d : Dev) (x : Nat), completes d 5 { desc := x } ∧ dOp x = 7 ∧ d.moveUnbacked x = true ∧
    (touches x).any d.anyHeld = false ∧ (∀ c, (d.core 191).ctx = some c → d.sendFull 191 c x = false) ∧ (d.plan 0).run_ false = some {} :=
  ⟨busy 5 { desc := farFill }, farFill,
    ⟨by decide +kernel, by decide +kernel, by decide +kernel, _, rfl, by decide +kernel, by decide +kernel, by decide +kernel, by decide +kernel⟩, by decide +kernel, by decide +kernel, by decide +kernel,
    some_all _ rfl (by decide +kernel), by decide +kernel⟩
theorem witness_MovesCompleteAndArrive_arrival : ∃ (d : Dev) (c c2 : Ctx), d.pow.dead = false ∧ (d.core 191).ctx = some c ∧ (d.core 191).run = 1 ∧ c.loop = none ∧
    c.ended = false ∧ c.arrivals = [(0, 0, 15, 0)] ∧ (d.core (48 * 0 + 0)).ctx = some c2 ∧ c2.plan = c.plan :=
  ⟨{ onCore 0 {} {} with cores := [(0, { run := 1, ctx := some {} }), (191, { run := 1, ctx := some { arrivals := [(0, 0, 15, 0)] } })] }, _, _,
    by decide +kernel, rfl, by decide +kernel, rfl, rfl, rfl, rfl, rfl⟩

/-- Pod 3's counter 63 as given. -/
def withCtr (d : Dev) (k : TileCtr) : Dev := { d with pods := [(3, { ctrs := [(63, k)] })] }
theorem witness_TileCountersServeTheirLoops : ∃ d : Dev, d.pow.dead = false ∧ (d.ctr_ 3 63).st ≠ 1 ∧ (d.ctr_ 3 63).st ≠ 2 ∧
    (d.plan 0).run_ false = some {} ∧ Work.step 0 false ∈ d.works ∧ (∀ w ∈ d.works, w ≠ .step 0 false → d.armable 3 63 w = none) ∧
    ((d.plan 0).loopsOn 3 63)[0]? = some { counter := 63, pod := 3 } ∧ d.obs.dumps = [] ∧
    ∀ y ∈ (d.plan 0).marked { counter := 63, pod := 3 }, 0 ≤ Tab.get 0 (d.pod 3).fence y :=
  ⟨withPlan 0 { planX with loops := [{ counter := 63, pod := 3 }], cur := some {} }, by decide +kernel⟩
/-- The CLAIM descriptor of counter 63 with no body. -/
def clDesc : Nat := 6 + 63 <<< 128
/-- Core 191 at a tile loop of counter 63. -/
def inLoop (l : LoopRun) (k : TileCtr) : Dev := withCtr (onCore 0 { loop := some l } {}) k
/-- What a claim or a completion asks of core 191. -/
def loops (d : Dev) (l : LoopRun) : Prop := d.pow.dead = false ∧ clCtr l.desc = 63 ∧ d.coreLive 191 = true ∧ (d.core 191).ctx = some { loop := some l } ∧ (d.core 191).run = 1 ∧
  d.clusterHalted 191 = false
theorem witness_TileCountersServeTheirLoops_claim : ∃ (d : Dev) (l : LoopRun) (k : TileCtr), loops d l ∧ k = d.ctr_ 3 63 ∧ l.waitClaim = true ∧
    d.mustStop 191 { loop := some l } = false ∧ after16 l.seq k.seq = false ∧ k.seq = l.seq ∧ k.mask.testBit (191 % 48 / 4) = true ∧ k.st = 1 ∧ k.queue = [] ∧
    anyBad d.poison (clTable l.desc + 128 * k.next) 128 = false ∧ k.padSkip = false :=
  ⟨inLoop { desc := clDesc, seq := 65535 } { st := 1, seq := 65535, mask := 0xFFF, limit := 1 }, { desc := clDesc, seq := 65535 }, _,
    by unfold loops; decide +kernel, rfl, by decide +kernel⟩
theorem witness_TileCountersServeTheirLoops_leave : ∃ (d : Dev) (l : LoopRun) (k : TileCtr), loops d l ∧ k = d.ctr_ 3 63 ∧ l.waitClaim = true ∧
    d.mustStop 191 { loop := some l } = false ∧ after16 l.seq k.seq = false ∧ k.st = 3 :=
  ⟨inLoop { desc := clDesc } { st := 3 }, { desc := clDesc }, _, by unfold loops; decide +kernel, rfl, by decide +kernel⟩
theorem witness_TileCountersServeTheirLoops_wait : ∃ (d : Dev) (l : LoopRun) (k : TileCtr), loops d l ∧ k = d.ctr_ 3 63 ∧ l.waitClaim = true ∧
    d.mustStop 191 { loop := some l } = false ∧ after16 l.seq k.seq = true :=
  ⟨inLoop { desc := clDesc, seq := 1 } {}, { desc := clDesc, seq := 1 }, _, by unfold loops; decide +kernel, rfl, by decide +kernel⟩
/-- Core 191 holds tile 0 of the loop. -/
def tile0 : TileCtr where
  st := 2
  limit := 1
  sbBase := 0x8000000000
  claims := [{ core := 191 }]
theorem witness_TileCountersServeTheirLoops_completion (b : Byte) (h : b ∈ [0, 1]) : ∃ (d : Dev) (l : LoopRun) (k : TileCtr), loops d l ∧ k = d.ctr_ 3 63 ∧
    l.idx = some 0 ∧ l.body.length ≤ l.at_ ∧ anyBad d.poison (k.sbBase + 0 / 8) 1 = false ∧ (rdByte d.mem (k.sbBase + 0 / 8)).toNat.testBit (0 % 8) = (b == 1) ∧
    ∀ x ∈ k.claims, x.core = 191 := by
  simp only [List.mem_cons, List.not_mem_nil, or_false] at h
  rcases h with rfl | rfl
  · exact ⟨inLoop { desc := clDesc, idx := some 0, waitClaim := false } tile0, { desc := clDesc, idx := some 0, waitClaim := false }, _,
      by unfold loops; decide +kernel, rfl, by decide +kernel⟩
  · exact ⟨{ inLoop { desc := clDesc, idx := some 0, waitClaim := false } tile0 with mem := [(0x8000000000, 1)] },
      { desc := clDesc, idx := some 0, waitClaim := false }, _, by unfold loops; decide +kernel, rfl, by decide +kernel⟩
theorem witness_TileCountersServeTheirLoops_reissue : ∃ (d : Dev) (k : TileCtr) (x : Claim) (p : Nat), k = d.ctr_ 3 63 ∧ x ∈ k.claims ∧
    (∀ y ∈ k.claims, y.idx = 0 → y = x) ∧ x.idx = 0 ∧ x.spellUsed = false ∧ x.cancelled = false ∧ x.preemptAt = some p ∧ p + k.after * 1000 ≤ d.plat.now ∧
    k.reissue = true ∧ k.st = 2 ∧ (∀ e ∈ k.queue, e.1 ≠ 0) ∧ Tab.get 0 k.epochs 0 < 15 ∧ (rdByte d.mem (k.sbBase + 0 / 8)).toNat.testBit (0 % 8) = false :=
  ⟨withCtr base { tile0 with reissue := true, claims := [{ core := 191, preemptAt := some 0 }], epochs := [(0, 14)] }, _, { core := 191, preemptAt := some 0 }, 0,
    rfl, by decide +kernel⟩

/-- A plan with one parameter tensor, whose gradient has four elements. -/
def planG : Plan where
  ready := true
  run := some (2 ^ 96)
  stateLoaded := true
  cur := some { step := 7 }
  syms := [{ num := 5, dims := [4], pods := 15 }]
  tensors := [{ gSym := 5, elems := 4 }]
  areas := [(1, 0x9000000000, 0x100000), (5, 0xA000000000, 0x100000)]
/-- Step 7 of that plan stands in the Cob's hands. -/
def reducing (c : Cob) : Dev := { withPlan 0 planG with cob := { c with plan := some 0, step := 7, active := true } }
/-- What a gradient chunk needs. -/
def chunk (d : Dev) (pod j : Nat) : Prop := d.cobRun = some (0, { step := 7 }) ∧ j = Tab.get 0 d.cob.sent pod ∧ j - d.cob.reducedN < 32 ∧
  ∃ t sy c codes w, chunkAt planG planG.sendOrder j = some (t, sy, c) ∧ d.gradFormed 0 { step := 7 } pod sy = true ∧
    (∃ t2 sy2 c2, chunkAt planG planG.sendOrder d.cob.reducedN = some (t2, sy2, c2) ∧ d.parkRoom planG (chunkElems sy2 c2).length = true) ∧
    (d.cobWork []).sendCodes sy (sy.at_ pod) ((chunkElems sy c).headD 0) ((chunkElems sy c).headD 0 + (chunkElems sy c).length) = (codes, w) ∧ w.bad = false
theorem witness_CobAndPageRingDeliver : ∃ d : Dev, d.pow.dead = false ∧ chunk d 3 0 ∧ ∃ q, q ≤ 3 ∧ q ≠ 3 ∧ Tab.get 0 d.cob.sent q ≤ d.cob.reducedN :=
  ⟨reducing {}, by decide +kernel, ⟨by decide +kernel, by decide +kernel, by decide +kernel, _, _, _, _, _, rfl, by decide +kernel,
    ⟨_, _, _, rfl, by decide +kernel⟩, rfl, by decide +kernel⟩, 0, by decide +kernel⟩
theorem witness_CobAndPageRingDeliver_reduce : ∃ d : Dev, chunk d 3 0 ∧ d.cob.reducedN ≤ 0 ∧ ∀ q, q ≤ 3 → q ≠ 3 → d.cob.reducedN < Tab.get 0 d.cob.sent q :=
  ⟨reducing { sent := [(0, 1), (1, 1), (2, 1)], buf := [(0, [[0, 0, 0, 0]]), (1, [[0, 0, 0, 0]]), (2, [[0, 0, 0, 0]])] },
    ⟨by decide +kernel, by decide +kernel, by decide +kernel, _, _, _, _, _, rfl, by decide +kernel,
    ⟨_, _, _, rfl, by decide +kernel⟩, rfl, by decide +kernel⟩, by decide +kernel, by decide +kernel⟩
theorem witness_CobAndPageRingDeliver_pass : ∃ d : Dev, d.pow.dead = false ∧ d.cobRun = some (0, { step := 7 }) ∧
    Tab.get none d.cob.units 3 = some (0, 1) ∧ d.badBlks (d.plan 0) (d.passWork (d.plan 0) { step := 7 } 0 1 []) = [] :=
  ⟨reducing { blks := [{ size := 128, addr := 0x8000000000 }], units := [(3, some (0, 1))] }, by decide +kernel⟩
theorem witness_CobAndPageRingDeliver_multicast : ∃ d : Dev, d.cobRun = some (0, { step := 7 }) ∧ 1 ∈ (d.plan 0).layersUp ∧ (d.cob.layer 1).done = true ∧
    (d.cob.layer 1).skip = false ∧ (d.cob.layer 1).stuck = false ∧ (d.cob.layer 1).fenced.testBit 3 = false ∧
    digestStep (rsDigest ((d.plan 0).run.getD 0)) 7 = false := ⟨reducing { layers := [(1, { done := true })] }, by decide +kernel⟩
/-- A shard whose home is COB_HOME, staged or not. -/
def blkX (stage : Option Nat) : Blk where
  layer := 1
  home := 1
  addr := 0xB000000000
  size := 128
  stage := stage
  writing := stage.isSome
theorem witness_CobAndPageRingDeliver_stage : ∃ (d : Dev) (bs : List Byte) (w : Wk), d.pow.dead = false ∧ d.cob.plan = some 0 ∧ d.cobRun = none ∧ d.nextStage = some 0 ∧
    placeIn 64 ((d.plan 0).area 1) d.cob.staged (d.cob.blk 0).size = some 0x9000000000 ∧ d.backed (d.cob.blk 0).addr (d.cob.blk 0).size = true ∧
    (d.cobWork []).read (d.cob.blk 0).addr (d.cob.blk 0).size = (bs, w) ∧ w.bad = false :=
  ⟨{ withPlan 0 { planG with cur := none } with cob := { plan := some 0, blks := [blkX none] } }, _, _, by decide +kernel, by decide +kernel, by decide +kernel, by decide +kernel,
    by decide +kernel, by decide +kernel, rfl, by decide +kernel⟩
theorem witness_CobAndPageRingDeliver_back : ∃ (d : Dev) (b : Blk), b = d.cob.blk 0 ∧ 0 < d.cob.blks.length ∧ b.stage = some 0x9000000000 ∧ b.writing = true ∧
    d.backed b.addr b.size = true ∧ firstBad d.poison 0x9000000000 b.size = none ∧ 64 ≤ b.size :=
  ⟨reducing { blks := [blkX (some 0x9000000000)] }, _, rfl, by decide +kernel⟩
theorem witness_CobAndPageRingDeliver_page : ∃ (d : Dev) (p : PageXfer), d.pow.dead = false ∧ (d.pod 3).nextPage = some p ∧ p.hops = 0 ∧ p.dst ≠ 3 ∧
    anyBad d.poison p.srcAddr p.bytes = false ∧ (d.pod p.dst).privEntries p.key p.table p.lpage = [0xA000000000] ∧ 0xA000000000 + 8 ≤ p.dstAddr :=
  ⟨{ base with pods := [(3, { xfers := [{ src := 3, key := 23, table := 4095, bytes := 4096, srcAddr := 0x8000000000, dstAddr := 0xB000000000 }] }),
      (0, { priv := [(23, [(4095, 0xA000000000)])], seqs := [(4095, { inUse := true, entries := 1 })] })] }, _, by decide +kernel, rfl, by decide +kernel⟩

/-! ## Ingest and the encoder -/

/-- A batch profile at the least value of each bounded field: one token, two buffers, crops of 16 by 16 pixels. -/
def profX : Nat := packBits [(32, 1), (24, 0), (8, 2), (128, 0), (16, 16), (16, 16), (288, 0), (8, 1), (16, 1), (8, 1), (48, 0), (16, 1), (16, 1), (80, 0),
  (48, podStore 0), (16, 0), (48, cobGddr), (16, 0), (16, 1)]
/-- `base` with a Huller and shaper as given. -/
def withIng (g : Ing) : Dev := { base with ing := g }
theorem witness_IngestCommandsTakeEffect : Met base (.ingestConfig 0 profX (List.replicate 16 0)) (fun d => profileOk profX = true ∧ d.headersOk profX = true ∧
    d.destOk profX 0 0 = true ∧ d.trainingPlan = none ∧ d.cad.streams = [] ∧ d.ing.rings = [] ∧ d.spillOk profX = true) :=
  met _ _ _ (by decide +kernel) (by decide +kernel)
theorem witness_IngestCommandsTakeEffect_ring : Met base (.ingestRing 0 15 1 20 0x8000000000 0x8010000000 0 0) (fun d =>
    d.backed (0x8000000000 % 2 ^ 48) (64 * 2 ^ 20) = true ∧ d.unwritable (0x8010000000 % 2 ^ 48) (64 + 32 * 2 ^ 20) = none ∧ d.host.own (0x28 + 15) = 0) :=
  met _ _ _ (by decide +kernel) (by decide +kernel)
theorem witness_IngestCommandsTakeEffect_training : Met base (.ingestRing 0 0 0 6 0x8000000000 0x8000100000 0x8000200000 0x8000300000) (fun d =>
    d.unwritable (0x8000200000 % 2 ^ 48) (64 + 128 * 64) = none ∧ d.unwritable (0x8000300000 % 2 ^ 48) (64 + 32 * 2 ^ 6) = none ∧ d.host.own 0x28 = 0 ∧
    d.ing.shaperRing = none) := met _ _ _ (by decide +kernel) (by decide +kernel)
theorem witness_IngestCommandsTakeEffect_doorbell : Met { base with host := base.host.setOwner (0x28 + 15) 1 } (.ingestDoorbell 0 15 (2 ^ 32 - 1))
      (fun d => d.host.own (0x28 + 15) = 0 / 8 + 1) ∧ Met base (.ingestDoorbell 0 15 1) (fun d => d.host.own (0x28 + 15) ≠ 0 / 8 + 1) :=
  ⟨met _ _ _ (by decide +kernel) (by decide +kernel), met _ _ _ (by decide +kernel) (by decide +kernel)⟩
theorem witness_IngestCommandsTakeEffect_close : Met { withIng { rings := [(15, { on := true, live := true })] } with host := base.host.setOwner (0x28 + 15) 1 }
    (.ingestRingClose 0 15) (fun d => d.host.own (0x28 + 15) = 0 / 8 + 1 ∧ (d.ing.ring 15).closing = 0 ∧ (d.ing.ring 15).live = true ∧ d.host.nextCmd ≠ 0 ∧
      d.ing.jobs = []) := met _ _ _ (by decide +kernel) (by decide +kernel)
theorem witness_IngestCommandsTakeEffect_withdraw : Met { withIng { rings := [(15, { on := true, live := true })], jobs := [{ id := 1, ring := 15, engine := some 0 }] } with
      host := base.host.setOwner (0x28 + 15) 1 } (.ingestRingClose 0 15) (fun d => (d.ing.ring 15).live = true ∧ d.ing.jobs = [{ id := 1, ring := 15, engine := some 0 }] ∧
      d.jobStream { id := 1, ring := 15, engine := some 0 } = none) := met _ _ _ (by decide +kernel) (by decide +kernel)
theorem witness_IngestCommandsTakeEffect_table : Met (withIng { gens := [{ media := true, num := 1 }], nextMed := 2 }) (.tableLoad 0 1 0x8000000000 0x40000)
    (fun d => d.unbacked (0x8000000000 % 2 ^ 48) 0x40000 = none ∧ 0x40000 ≤ tableRoom true ∧ (∀ x ∈ d.ing.gens, x.media = true → x.slot ≠ 1) ∧
      ∀ k, k < 1 → ∃ x ∈ d.ing.gens, x.media = true ∧ x.slot = k) := met _ _ _ (by decide +kernel) (by decide +kernel)
theorem witness_IngestCommandsTakeEffect_full : Met (withIng { gens := [{}, { slot := 1 }, { slot := 2 }, { slot := 3 }] }) (.tableLoad 0 0 0x8000000000 64)
    (fun d => d.unbacked (0x8000000000 % 2 ^ 48) 64 = none ∧ 64 ≤ tableRoom false ∧ d.ing.freeTable false = none) :=
  met _ _ _ (by decide +kernel) (by decide +kernel)
theorem witness_IngestCommandsTakeEffect_loaded : ∃ (d : Dev) (x : Gen), d.pow.dead = false ∧ d.ing.gen true 1 = some x ∧ x.loading ≠ 0 ∧
    firstBad d.poison x.src x.len = none ∧ mediaOk (rdBytes d.mem x.src x.len) = true :=
  ⟨withIng { gens := [{ media := true, num := 1, loading := 1, src := 0x8000000000, len := 64 }] }, _, by decide +kernel, rfl, by decide +kernel⟩
theorem witness_IngestCommandsTakeEffect_bad : ∃ (d : Dev) (x : Gen), d.pow.dead = false ∧ d.ing.gen false 1 = some x ∧ x.loading ≠ 0 ∧
    firstBad d.poison x.src x.len = none ∧ tokOk (rdBytes d.mem x.src x.len) = false ∧ d.ing.jobs = [] :=
  ⟨withIng { gens := [{ num := 1, loading := 1, src := 0x8000000000, len := 64 }] }, _, by decide +kernel, rfl, by decide +kernel⟩
theorem witness_IngestCommandsTakeEffect_report : Met base (.ingestReport 0 0x8000000000) (fun d => d.unwritable (0x8000000000 % 2 ^ 48) 256 = none) :=
  met _ _ _ (by decide +kernel) (by decide +kernel)

/-- A live ring whose first entry is a video job of MEDIA generation 5. -/
def jobRing (g : List Gen) : Dev :=
  { withIng { rings := [(15, { on := true, live := true, tail := 1, entry := 0x8000000000, comp := 0x8000100000 })], gens := g } with
    mem := [(0x8000000000, 0x10), (0x8000000004, 5)] }
/-- What HULLER_JOB_TAKE asks of it. -/
def takes (d : Dev) : Prop := d.pow.dead = false ∧ (d.ing.ring 15).on = true ∧ (d.ing.ring 15).live = true ∧ (d.ing.ring 15).closing = 0 ∧ 0 < (d.ing.ring 15).waiting ∧
  firstBad d.poison ((d.ing.ring 15).at_ (d.ing.ring 15).head) 64 = none ∧ codecRegion (jCodec (d.ringEntry (d.ing.ring 15) 0)) = some 2 ∧
  jGen (d.ringEntry (d.ing.ring 15) 0) = 5 ∧ jLive (d.ringEntry (d.ing.ring 15) 0) = false
theorem witness_HullerJobsRunAndEnd_take : takes (jobRing [{ media := true, num := 5 }]) ∧ (jobRing [{ media := true, num := 5 }]).ing.gen true 5 ≠ none ∧
    takes (jobRing []) ∧ (jobRing []).ing.gen true 5 = none := by unfold takes; decide +kernel
theorem witness_HullerJobsRunAndEnd : ∃ d : Dev, d.pow.dead = false ∧ d.blockFree 14 = true ∧ d.lowerFree 14 = false ∧ d.pow.runs (66 + 14) = true ∧
    d.blockJob 14 = some { id := 2, record := 0x40 } :=
  ⟨withIng { jobs := [{ id := 1, record := 0x40, engine := some 13 }, { id := 2, record := 0x40 }] }, by decide +kernel⟩
theorem witness_HullerJobsRunAndEnd_none : base.blockFree 0 = true ∧ base.lowerFree 0 = false ∧ base.pow.runs (66 + 0) = true ∧ base.blockJob 0 = none := by
  decide +kernel
theorem witness_HullerJobsRunAndEnd_preempt : ∃ (d : Dev) (j k : Job), d.pow.runs (66 + 12) = true ∧ j ∈ d.ing.jobs ∧ j.engine = some 12 ∧ jLive j.record = false ∧
    (∀ x ∈ d.ing.jobs, x.engine = some 12 → x = j) ∧ d.waitsFor 12 j = some k ∧ k.id ≠ j.id :=
  ⟨withIng { jobs := [{ id := 1, record := 0x30, engine := some 12 }, { id := 2, record := 0x8130 }] }, { id := 1, record := 0x30, engine := some 12 },
    { id := 2, record := 0x8130 }, by decide +kernel⟩
/-- Video engine 7 runs one job of a live ring. -/
def working (j : Job) : Dev := withIng { rings := [(15, { on := true, live := true, comp := 0x8000100000 })], jobs := [j] }
/-- What the end of that job needs. -/
def ends (d : Dev) (j : Job) : Prop := d.pow.dead = false ∧ d.ing.jobs = [j] ∧ j.engine = some 7 ∧ j.sample = none ∧ d.jobStream j = none ∧ (d.ing.ring j.ring).closing = 0
theorem witness_HullerJobsRunAndEnd_withdrawn : ∃ j : Job, ends (working j) j ∧ j.withdrawn = true :=
  ⟨{ id := 1, ring := 15, record := 0x10, engine := some 7, withdrawn := true }, by unfold ends; decide +kernel⟩
theorem witness_HullerJobsRunAndEnd_media : ∃ j : Job, ends (working j) j ∧ j.withdrawn = false ∧ (working j).pow.runs (66 + 7) = true ∧
    j.started + (if j.moved = true then 20000 else 0) ≤ (working j).plat.now ∧ (working j).waitsFor 7 j = none ∧
    ((working j).jobReads j [] false).2.bad = false ∧ j.region ≠ 0 :=
  ⟨{ id := 1, ring := 15, record := 0x10, engine := some 7, moved := true }, by unfold ends; decide +kernel⟩
theorem witness_HullerJobsRunAndEnd_bad : ∃ j : Job, ends (working j) j ∧ j.withdrawn = false ∧ (working j).waitsFor 7 j = none ∧
    ((working j).jobReads j [] true).2.bad = true := ⟨{ id := 1, ring := 15, record := 0x10, engine := some 7 }, by unfold ends; decide +kernel⟩
theorem witness_HullerJobsRunAndEnd_memory : ∃ (j : Job) (n : Nat), ends (working j) j ∧ j.withdrawn = false ∧ (working j).pow.runs (66 + 7) = true ∧
    (working j).waitsFor 7 j = none ∧ ((working j).jobReads j [] false).2.bad = false ∧ j.region = 0 ∧ jMemory j.record = true ∧
    n = ((working j).textEnd j ((working j).jobReads j [] false).1).mem.length ∧ (working j).unbacked (jDest j.record) n = none ∧
    jDest j.record + n ≤ ((working j).ing.ring j.ring).comp :=
  ⟨{ id := 1, ring := 15, record := 0x4040, engine := some 7 }, _, by unfold ends; decide +kernel, rfl, by decide +kernel, by decide +kernel, by decide +kernel,
    by decide +kernel, by decide +kernel, rfl, by decide +kernel, by decide +kernel⟩

/-- A training ring with entries in pod store, under the profile above. -/
def feed (m : Tab Byte) (g : Ing) : Dev :=
  { withIng { g with profile := some profX, rings := [(0, { on := true, tail := 64, entry := 0x8000000000, comp := 0x8000100000, batch := 0x8000200000, hand := 0x8000300000 })] } with
    mem := m }
theorem witness_SamplesFillTheirBatches : ∃ d : Dev, d.pow.dead = false ∧ d.pow.runs 81 = true ∧ d.canTake 0 = true ∧ d.ing.samples = [] ∧ d.ing.batches = [] ∧
    (d.ing.ring 0).prepLeft = 0 ∧ firstBad d.poison ((d.ing.ring 0).at_ 0) 64 = none ∧ smPadOnly (d.ringEntry (d.ing.ring 0) 0) = false ∧
    smOk (d.ringEntry (d.ing.ring 0) 0) = true :=
  ⟨feed [(0x8000000006, 1), (0x8000000040, 0x40)] {}, by decide +kernel⟩
theorem witness_SamplesFillTheirBatches_pad : ∃ d : Dev, d.pow.runs 81 = true ∧ d.canTake 0 = true ∧ d.ing.samples = [] ∧
    (d.ing.ring 0).prepLeft = 0 ∧ smPadOnly (d.ringEntry (d.ing.ring 0) 0) = true := ⟨feed [(0x8000000008, 4)] {}, by decide +kernel⟩
/-- The shaper has taken a sample's record, and one prepared entry of tokens is due: four bytes at the start of GDDR7's second MiB. -/
def preps (len : Byte) : Dev :=
  { feed [(0x8000000000, 2), (0x800000000A, 0x10), (0x800000000C, 0x80), (0x8000000010, len)] { samples := [{ prepsToTake := 1 }] } with
    ing := { profile := some profX, samples := [{ prepsToTake := 1 }],
             rings := [(0, { on := true, tail := 64, entry := 0x8000000000, ordinal := 1, prepLeft := 1 })] } }
theorem witness_SamplesFillTheirBatches_prep : ∃ (d : Dev) (sm : Sample) (l : List SampleSeg) (bs : List (List Byte)), d.canTake 0 = true ∧
    (d.ing.ring 0).prepLeft ≠ 0 ∧ d.ing.sample ((d.ing.ring 0).ordinal - 1) = some sm ∧ sm.filled = false ∧
    firstBad d.poison (peSrc (d.ringEntry (d.ing.ring 0) 0)) (peLen (d.ringEntry (d.ing.ring 0) 0)) = none ∧
    d.addPrep sm.segs (d.ringEntry (d.ing.ring 0) 0) = some l ∧ d.prepObjects (d.ringEntry (d.ing.ring 0) 0) = some bs :=
  ⟨preps 4, { prepsToTake := 1 }, [{}], [[0, 0, 0, 0]], by decide +kernel⟩
theorem witness_SamplesFillTheirBatches_badPrep : (preps 0).canTake 0 = true ∧ ((preps 0).ing.ring 0).prepLeft ≠ 0 ∧
    (preps 0).addPrep [] ((preps 0).ringEntry ((preps 0).ing.ring 0) 0) = none := by decide +kernel
/-- A sample of one TOKEN segment. -/
def smX : Sample where
  segs := [{}]
/-- The same device with a training plan, whose seed the shaper uses. -/
def shaping (g : Ing) : Dev := { feed [] g with plans := [(0, planX)] }
theorem witness_SamplesFillTheirBatches_picture : ∃ (d : Dev) (seed : Nat) (planes : List (List (List Byte))), d.ing.media = [] ∧ d.ing.nextSeg = some (smX, {}) ∧
    d.ing.sample 0 = some smX ∧ d.runSeed = some seed ∧
    shapeSeg d.ing.prof (profAug d.ing.prof (bits d.ing.prof 576 4) seed) smX.index (capOf d.ing.prof 0 - validOf (smX.segs.filter (fun y => y.num < 0)) 0) {}
      (d.ing.objects 0 0) = (planes, none) :=
  ⟨shaping { samples := [smX] }, _, _, by decide +kernel, rfl, by decide +kernel, rfl, rfl⟩
theorem witness_SamplesFillTheirBatches_budget : ∃ (d : Dev) (sm : Sample), d.ing.sample 15 = some sm ∧ sm.filled = false ∧ sm.overDone = false ∧ d.overBudget sm = true ∧
    pfPolicy d.ing.prof = 0 :=
  ⟨feed [] { samples := [{ ord := 15, budget := 1, decode := 1001 }] }, { ord := 15, budget := 1, decode := 1001 }, by decide +kernel⟩
theorem witness_SamplesFillTheirBatches_deadline : ∃ (d : Dev) (b : Batch), d.ing.batch (d.ing.epoch + 3) = some b ∧ b.deadline = some (0, 0) ∧ b.ready = false ∧
    b.late = false ∧ d.cad.reached 0 0 d.plat.now = true ∧ (d.ing.samplesOf (d.ing.epoch + 3)).length ≠ 16 :=
  ⟨feed [] { batches := [{ num := 3, deadline := some (0, 0) }] }, _, rfl, by decide +kernel⟩
theorem witness_SamplesFillTheirBatches_ready (filled : Bool) : ∃ (d : Dev) (b : Batch), d.ing.batch (d.ing.epoch + 3) = some b ∧ b.ready = false ∧
    d.ing.shaperRing ≠ none ∧ (d.ing.samplesOf (d.ing.epoch + 3)).length = 16 ∧ ∀ y ∈ d.ing.samplesOf (d.ing.epoch + 3), y.filled = filled := by
  refine ⟨feed [] { samples := (List.range 16).map (fun i => { ord := 48 + i, filled := filled }), batches := [{ num := 3 }] }, { num := 3 }, ?_⟩
  cases filled <;> decide +kernel
/-- A picture for stream 15, frame 1, and a crop list of frame 0. -/
def livePic (list : List (Nat × Nat)) (pic : List Byte) : Dev :=
  { withIng { media := [{ stream := 15, frame := 1, data := pic }] } with cad := { streams := [(15, { opened := true, rois := list })] } }
theorem witness_SamplesFillTheirBatches_live : ∃ (d : Dev) (m : Media), d.pow.dead = false ∧ d.pow.runs 81 = true ∧
    d.ing.media.find? (fun m => m.sample.isNone && m.stream == 15) = some m ∧ picMapped m.mats (pfPix d.ing.prof).map m.data = true ∧
    (d.cad.stream 15).listFor m.frame = some (0, 0) :=
  ⟨livePic [(0, 0)] [], _, by decide +kernel, by decide +kernel, rfl, by decide +kernel⟩

/-- An H.264 configuration at its least rate and level: 128 by 64 at 60/1, QP 0 to 51, a ring of 64 KiB in GDDR7. -/
def encX : Nat := packBits [(8, 0), (8, 9), (16, 128), (16, 64), (16, 60), (16, 1), (32, 64000), (32, 64000), (6, 51), (6, 0), (6, 51), (5, 1), (1, 0), (8, 2), (32, 0),
  (48, 0x8000000000), (32, 0x10000), (32, 1000000)]
theorem witness_EncoderSessionsAndPictures : Met { base with host := base.host.setOwner 0x20 2 } (.encOpen 0 encX) (fun d => d.pow.on 82 = true ∧ d.host.nextCmd ≠ 0 ∧
    d.encOk encX = true ∧ d.host.own (0x20 + 1) = 0 ∧ ∀ m, m < 1 → d.host.own (0x20 + m) ≠ 0) := met _ _ _ (by decide +kernel) (by decide +kernel)
/-- Session 3 is open and belongs to port A. -/
def session (x : EncSess) (c : Option (Nat × EncCur)) : Dev :=
  { base with enc := { sess := [(3, { x with opened := true, cfg := encX })], cur := c }, host := base.host.setOwner 0x23 1,
              mem := [(0x8001000000, 128), (0x8001000002, 64), (0x8001000004, 9), (0x8001000005, 1)] }
theorem witness_EncoderSessionsAndPictures_submit : Met (session {} none) (.encSubmit 0 3 1 0x8001000000 7) (fun d => (d.enc.sess_ 3).opened = true ∧
    d.host.own (0x20 + 3) = 0 / 8 + 1 ∧ d.pictureOk (d.enc.sess_ 3).cfg (0x8001000000 % 2 ^ 48) = true ∧ (d.enc.sess_ 3).queue.length < 4 ∧ (d.enc.sess_ 3).closeCmd = 0) :=
  met _ _ _ (by decide +kernel) (by decide +kernel)
theorem witness_EncoderSessionsAndPictures_fifth : Met (session { queue := [{}, {}, {}, {}] } none) (.encSubmit 0 3 1 0x8001000000 7) (fun d =>
    d.pictureOk (d.enc.sess_ 3).cfg (0x8001000000 % 2 ^ 48) = true ∧ 4 ≤ (d.enc.sess_ 3).queue.length) :=
  met _ _ _ (by decide +kernel) (by decide +kernel)
theorem witness_EncoderSessionsAndPictures_config : Met (session {} none) (.encConfig 0 3 encX) (fun d => d.encOk encX = true ∧ ecFixed encX = ecFixed (d.enc.sess_ 3).cfg) ∧
    Met (session {} none) (.encConfig 0 3 0) (fun d => d.encOk 0 = false) :=
  ⟨met _ _ _ (by decide +kernel) (by decide +kernel), met _ _ _ (by decide +kernel) (by decide +kernel)⟩
theorem witness_EncoderSessionsAndPictures_close : Met (session {} none) (.encClose 0 3) (fun d => (d.enc.sess_ 3).closeCmd = 0 ∧ d.enc.cur = none) ∧
    Met (session {} (some (3, {}))) (.encClose 0 3) (fun d => (d.enc.sess_ 3).closeCmd = 0 ∧ d.enc.cur = some (3, {})) :=
  ⟨met _ _ _ (by decide +kernel) (by decide +kernel), met _ _ _ (by decide +kernel) (by decide +kernel)⟩
theorem witness_EncoderSessionsAndPictures_start : ∃ d : Dev, d.pow.dead = false ∧ d.enc.cur = none ∧ d.pow.runs 82 = true ∧ d.enc.next = some 3 ∧
    (d.enc.sess_ 3).queue = [{ addr := 0x8001000000 }] ∧ firstBad d.poison 0x8001000000 (encBytes ((d.enc.sess_ 3).pend.getD (d.enc.sess_ 3).cfg)) = none :=
  ⟨session { queue := [{ addr := 0x8001000000 }] } none, by decide +kernel⟩
/-- The last row of a picture as it was submitted, the three before it written. -/
def lastRow : EncCur where
  sub := { addr := 0x8001000000, pic := rdBytes (session {} none).mem 0x8001000000 (encBytes encX) }
  row := 3
  written := 3
theorem witness_EncoderSessionsAndPictures_row : ∃ (d : Dev) (x : EncCur), d.enc.cur = some (3, x) ∧ d.pow.runs 82 = true ∧ x.row + 1 = ecRows (d.enc.sess_ 3).cfg ∧
    x.sliceDue (d.enc.sess_ 3).cfg = false ∧ ecQpMin (d.enc.sess_ 3).cfg ≤ ecQpMax (d.enc.sess_ 3).cfg ∧ x.changed = 0 ∧
    rdBytes d.mem x.sub.addr (encBytes (d.enc.sess_ 3).cfg) = x.sub.pic := by
  have h : encBytes ((session {} (some (3, lastRow))).enc.sess_ 3).cfg = encBytes encX := by decide +kernel
  refine ⟨session {} (some (3, lastRow)), lastRow, rfl, by decide +kernel, by decide +kernel, by decide +kernel, by decide +kernel, rfl, ?_⟩
  rw [h]; simp only [lastRow, session]
theorem witness_EncoderSessionsAndPictures_slice (h : (({ row := 1 } : EncCur).slice encX).length = 32) : ∃ (d : Dev) (x : EncCur),
    d.enc.cur = some (3, x) ∧ x.sliceDue (d.enc.sess_ 3).cfg = true ∧
    d.recordFits (d.enc.sess_ 3).cfg (d.enc.sess_ 3).woff (roundUp (32 + (x.slice encX).length) 64) = true ∧
    (d.enc.sess_ 3).woff + roundUp (32 + (x.slice encX).length) 64 < ecRoom (d.enc.sess_ 3).cfg :=
  ⟨session {} (some (3, { row := 1 })), { row := 1 }, by rw [h]; decide +kernel⟩
theorem witness_EncoderSessionsAndPictures_full : ∃ (d : Dev) (x : EncCur), d.enc.cur = some (3, x) ∧ x.sliceDue (d.enc.sess_ 3).cfg = true ∧
    ∀ n, d.recordFits (d.enc.sess_ 3).cfg (d.enc.sess_ 3).woff (roundUp (32 + n) 64) = false :=
  ⟨session { woff := 65408 } (some (3, { row := 1 })), { row := 1 }, by decide +kernel, by decide +kernel, fun n => by
    have h : 64 ≤ roundUp (32 + n) 64 := by unfold roundUp ceilDiv; omega
    have e : (session { woff := 65408 } (some (3, { row := 1 }))).recordFits ((session { woff := 65408 } (some (3, { row := 1 }))).enc.sess_ 3).cfg
        ((session { woff := 65408 } (some (3, { row := 1 }))).enc.sess_ 3).woff (roundUp (32 + n) 64) =
        decide (65408 + roundUp (32 + n) 64 < 65472) := rfl
    rw [e]; exact decide_eq_false (by omega)⟩
theorem witness_EncoderSessionsAndPictures_wait : ∃ (d : Dev) (x : EncCur), d.enc.cur = some (3, x) ∧ (d.enc.sess_ 3).opened = true ∧ (d.enc.sess_ 3).closeCmd = 0 ∧
    (d.enc.sess_ 3).portLost = false ∧ x.waitAt = some 0 ∧ 0 + 1000 * ecWait (d.enc.sess_ 3).cfg ≤ d.plat.now :=
  ⟨session {} (some (3, { waitAt := some 0 })), { waitAt := some 0 }, by decide +kernel⟩
theorem witness_EncoderSessionsAndPictures_done : ∃ (d : Dev) (x : EncCur), d.enc.cur = some (3, x) ∧ (d.enc.sess_ 3).opened = true ∧ (d.enc.sess_ 3).closeCmd = 0 ∧
    (d.enc.sess_ 3).portLost = false ∧ x.written = ecRows (d.enc.sess_ 3).cfg :=
  ⟨session {} (some (3, { row := 4, written := 4 })), { row := 4, written := 4 }, by decide +kernel⟩

/-! ## Power, cadence, slots, live streams -/

/-- `base` with domain `id` as given. -/
def withDom (id : Nat) (x : Dom) : Dev := { base with pow := { base.pow with doms := Tab.set {} base.pow.doms id x } }
theorem witness_PowerCommandsAct_on (x : Dom) (h : x ∈ [{ st := 0 }, { st := 1 }, { st := 2 }, { st := 3 }]) : Met (withDom 60 x) (.domainOn 0 60) (fun d =>
    d.host.nextCmd ≠ 0 ∧ d.plat.retiredDom 60 = false ∧ d.pow.dom 60 = x ∧ x.pendOn = false ∧ x.pendOff = false ∧ x.dwell = false ∧ parentOf 60 = some 56 ∧
    d.pow.on 56 = true ∧ d.pow.brakeActed = false) := by
  simp only [List.mem_cons, List.not_mem_nil, or_false] at h
  rcases h with rfl | rfl | rfl | rfl <;> exact met _ _ _ (by decide +kernel) (by decide +kernel)
theorem witness_PowerCommandsAct_cancel : Met (withDom 0 { st := 1, pendOff := true }) (.domainOn 0 0) (fun d => (d.pow.dom 0).pendOff = true ∧ (d.pow.dom 0).st = 1 ∧
      (d.pow.dom 0).pendOn = false ∧ d.plat.retiredDom 0 = false) ∧
    Met (withDom 84 { st := 4, pendOn := true }) (.domainOff 0 84) (fun d => d.offRefusal 84 = none ∧ (d.pow.dom 84).pendOff = false ∧ (d.pow.dom 84).pendOn = true ∧
      2 < (d.pow.dom 84).st) := ⟨met _ _ _ (by decide +kernel) (by decide +kernel), met _ _ _ (by decide +kernel) (by decide +kernel)⟩
theorem witness_PowerCommandsAct_off (x : Dom) (h : x ∈ [{ st := 0 }, { st := 0, wantUp := true }, { st := 1 }, { st := 2 }, { st := 3 }]) :
    Met (withDom 83 x) (.domainOff 0 83) (fun d => d.plat.retiredDom 83 = false ∧ 83 ≠ 64 + 0 / 8 ∧ d.offRefusal 83 = none ∧ d.pow.dom 83 = x ∧ x.pendOff = false ∧
      x.pendOn = false) := by
  simp only [List.mem_cons, List.not_mem_nil, or_false] at h
  rcases h with rfl | rfl | rfl | rfl | rfl <;> exact met _ _ _ (by decide +kernel) (by decide +kernel)
theorem witness_PowerCommandsAct_busy : Met base (.domainOff 0 12) (fun d => d.offRefusal 12 ≠ none ∧ d.plat.retiredDom 12 = false ∧ 12 ≠ 64 + 0 / 8) :=
  met _ _ _ (by decide +kernel) (by decide +kernel)
theorem witness_PowerCommandsAct_auto : Met (withDom 66 { st := 2, hold := 1 }) (.domainAuto 0 66) (fun d => isAuto 66 = true ∧ d.plat.retiredDom 66 = false ∧ d.domBusy 66 = false) ∧
    Met { withDom 57 { st := 0, hold := 2 } with cob := { active := true } } (.domainAuto 0 57) (fun d => d.domBusy 57 = true ∧ (d.pow.dom 57).st = 0 ∧
      (d.pow.dom 57).wantUp = false ∧ (d.pow.dom 57).pendOn = false ∧ (d.pow.dom 57).pendOff = false ∧ (d.pow.dom 57).dwell = false ∧ d.pow.on 56 = true ∧ d.pow.brakeActed = false) :=
  ⟨met _ _ _ (by decide +kernel) (by decide +kernel), met _ _ _ (by decide +kernel) (by decide +kernel)⟩
/-- A budget record at its least powers. -/
def budgetX : Nat := packBits [(32, 0), (12, 200), (12, 200), (4, 0), (4, 0), (24, 0), (11, 1250)]
theorem witness_PowerCommandsAct_budget : Met { base with host := { base.host with sems := [(1, 1)] } } (.setEnergyBudget 0 budgetX) (fun _ => budgetBad budgetX = false ∧ bits budgetX 0 32 = 0) ∧
    Met base (.setEnergyBudget 0 0) (fun _ => budgetBad 0 = true) :=
  ⟨met _ _ _ (by decide +kernel) (by decide +kernel), met _ _ _ (by decide +kernel) (by decide +kernel)⟩
theorem witness_PowerCommandsAct_report : Met base (.ageingReport 0 0x8000000000) (fun d => d.unwritable (0x8000000000 % 2 ^ 48) 1440 = none) :=
  met _ _ _ (by decide +kernel) (by decide +kernel)
theorem witness_PowerCommandsAct_reading : base.ageDue 85 = true ∧ base.pow.on 84 = true ∧ base.ageDue 84 = true ∧ (base.pow.dom 84).rho0 = none ∧
    (withDom 84 { st := 2, rho0 := some (1, 1) }).ageDue 84 = false := by decide +kernel
theorem witness_PowerCommandsAct_later : ∃ d : Dev, (d.pow.dom 84).rho0 = some (3, 2) ∧ d.pow.on 84 = true ∧ d.ageDue 84 = true :=
  ⟨{ withDom 84 { st := 2, rho0 := some (3, 2) } with cad := { beat := 65536 } }, by decide +kernel⟩

theorem witness_DomainsGoThroughTheirStates_down : ∃ d : Dev, (d.pow.dom 84).st = 3 ∧ d.drained 84 = true := ⟨withDom 84 { st := 3 }, by decide +kernel⟩
theorem witness_DomainsGoThroughTheirStates_wipe : ∃ d : Dev, (d.pow.dom 0).st = 4 ∧ (d.pow.dom 0).since + wipeTime d.plat d.pow 0 ≤ d.plat.now ∧ isCluster 0 = true :=
  ⟨withDom 0 { st := 4 }, by decide +kernel⟩
theorem witness_DomainsGoThroughTheirStates_off : ∃ d : Dev, (d.pow.dom 84).st = 5 ∧ (d.pow.dom 84).since + 10000 ≤ d.plat.now ∧ (d.pow.dom 84).pendOn = false :=
  ⟨withDom 84 { st := 5 }, by decide +kernel⟩
theorem witness_DomainsGoThroughTheirStates_dwell (up : Bool) : ∃ d : Dev, (d.pow.dom 60).st = 0 ∧ (d.pow.dom 60).dwell = true ∧ (d.pow.dom 60).since + 10000 ≤ d.plat.now ∧
    (d.pow.dom 60).wantUp = up ∧ d.pow.on 56 = true ∧ d.pow.brakeActed = false :=
  ⟨withDom 60 { dwell := true, wantUp := up }, by cases up <;> decide +kernel⟩
theorem witness_DomainsGoThroughTheirStates_up : ∃ d : Dev, (d.pow.dom 0).st = 1 ∧ (d.pow.dom 0).since + upTime 0 ≤ d.plat.now := ⟨withDom 0 { st := 1 }, by decide +kernel⟩
theorem witness_DomainsGoThroughTheirStates_idle : ∃ d : Dev, (d.pow.dom 83).st = 2 ∧ d.plat.phase = .ready ∧ isAuto 83 = true ∧ (d.pow.dom 83).hold ≠ 1 ∧
    bits d.pow.budget 64 24 ≠ 0 ∧ d.domBusy 83 = false ∧ (d.pow.dom 83).idleAt + 1000 * bits d.pow.budget 64 24 ≤ d.plat.now ∧ (d.pow.dom 83).pendOn = false ∧
    (d.pow.dom 83).pendOff = false := ⟨base, by decide +kernel⟩

/-- `base` with rail group 4 as given. -/
def withRail (r : Rail) : Dev := { base with pow := { base.pow with rails := [(4, r)] } }
theorem witness_RailsBrakeAndHeatAct : ((withRail { waitV := true }).pow.rail 4).waitV = true ∧ 0 + 1000000 ≤ (withRail { waitV := true }).plat.now ∧
    ((withRail { failed := true }).pow.rail 4).failed = true ∧ 0 + 10000000 ≤ (withRail { failed := true }).plat.now ∧ (base.pow.rail 4).fastAt = none ∧
    ((withRail { fastAt := some 0 }).pow.rail 4).fastAt = some 0 ∧ 0 + 100000 ≤ base.plat.now := by decide +kernel
theorem witness_RailsBrakeAndHeatAct_brake : ∃ d : Dev, d.plat.brakeN = true ∧ ∀ u, 57 ≤ u → u ≤ 60 → d.pow.on u = false ∧ (d.pow.dom u).st ≠ 1 ∧ (d.pow.dom u).wantUp = false := by
  refine ⟨{ plat := base.plat }, by decide +kernel, fun u h1 h2 => ?_⟩
  have h : u = 57 ∨ u = 58 ∨ u = 59 ∨ u = 60 := by omega
  rcases h with rfl | rfl | rfl | rfl <;> decide +kernel
theorem witness_RailsBrakeAndHeatAct_release : ∃ d : Dev, d.plat.brakeN = false ∧ d.pow.brakeUnits = [] := ⟨{ plat := { brakeN := false } }, by decide +kernel⟩
theorem witness_RailsBrakeAndHeatAct_sample : base.pow.samples.head? = none ∧ (∀ i, i < 5 → (base.pow.rail i).failed = false) ∧ base.plat.phase = .ready ∧
    base.pow.lastCheck / 1000000 < base.plat.now / 1000000 ∧ base.pow.lastSnap / 1000000 < base.plat.now / 1000000 ∧ (List.replicate 86 (0 : Int)).length = 86 := by decide +kernel

/-- `base` with a cadence as given. -/
def withCad (c : Cad) : Dev := { base with cad := c }
/-- CAD_CONFIG with a source, OUT_MODE 1 and the default period. -/
def cadX (source : Nat) : Nat := packBits [(32, 40000000), (16, 1), (3, 1), (2, source), (1, 0), (2, 1), (8, 3)]
theorem witness_CadenceRuns_config : Met base (.cadenceConfig 0 (cadX 2) 100 (20 + 100 <<< 9)) (fun d => cadOk (cadX 2) = true ∧ lockOk (cadX 2) 100 = true ∧ d.schedOk (cadX 2) (20 + 100 <<< 9) = true) ∧
    Met base (.cadenceConfig 0 0 100 0) (fun _ => cadOk 0 = false) :=
  ⟨met _ _ _ (by decide +kernel) (by decide +kernel), met _ _ _ (by decide +kernel) (by decide +kernel)⟩
theorem witness_CadenceRuns_beat : (base.cad.mode = 0 ∧ base.cad.anchorStart + (base.cad.beat + 1 - base.cad.anchorBeat) * cfgNum base.cad.cfg / max (cfgDen base.cad.cfg) 1 ≤
    base.plat.now) ∧ ∃ c : Cad, c.mode = 2 ∧ c.source = 1 ∧ c.stepPend = true ∧ c.edgeTaken = some base.plat.now :=
  ⟨by decide +kernel, { cfg := cadX 1, mode := 2, stepPend := true, edgeTaken := some 10000000000 }, by decide +kernel⟩
theorem witness_CadenceRuns_edge : ∃ (d : Dev) (c : Cad) (t : Nat), c = d.cad ∧ t = d.plat.now - c.inDelay ∧ c.source = 1 ∧ c.mode = 2 ∧ c.stepPend = false ∧
    c.expects (c.beat + 1) = true ∧ c.edgeTaken = none ∧ c.start + c.pEst / 65536 ≤ t + c.window ∧ t ≤ c.start + c.pEst / 65536 + c.window ∧
    c.start + c.pEst / 65536 + c.window + c.inDelay ≤ d.plat.now + c.window :=
  ⟨withCad { cfg := cadX 1, mode := 2, start := 9960000000 }, _, _, rfl, rfl, by decide +kernel⟩
theorem witness_CadenceRuns_acquire : ∃ (d : Dev) (c : Cad) (r : Nat), c = d.cad ∧ c.source = 1 ∧ c.mode = 1 ∧ c.agree = 3 ∧ c.lastRef = some r ∧
    (d.plat.now - c.inDelay - r) * cfgDen c.cfg ≤ (cfgPulse c.cfg) * cfgNum c.cfg + c.window * cfgDen c.cfg ∧
    (cfgPulse c.cfg) * cfgNum c.cfg ≤ (d.plat.now - c.inDelay - r) * cfgDen c.cfg + c.window * cfgDen c.cfg :=
  ⟨withCad { cfg := cadX 1, mode := 1, agree := 3, lastRef := some 9960000000 }, _, 9960000000, rfl, by decide +kernel⟩
theorem witness_CadenceRuns_stray : ∃ (d : Dev) (c : Cad) (t : Nat), c = d.cad ∧ t = d.plat.now - c.inDelay ∧ c.source = 1 ∧ c.mode = 2 ∧ c.stepPend = false ∧
    c.expects (c.beat + 1) = false ∧ c.usedWindow t = false :=
  ⟨withCad { cfg := cadX 1, mode := 2, lockBeat := 9 }, _, _, rfl, rfl, by decide +kernel⟩
theorem witness_CadenceRuns_window : ∃ (d : Dev) (c : Cad), c = d.cad ∧ c.source = 1 ∧ c.mode = 2 ∧ c.stepPend = false ∧ c.edgeTaken = none ∧ c.expects (c.beat + 1) = true ∧
    c.start + c.pEst / 65536 + c.window + c.inDelay ≤ d.plat.now := ⟨withCad { cfg := cadX 1, mode := 2 }, _, rfl, by decide +kernel⟩
theorem witness_CadenceRuns_pulses : ∃ (d : Dev) (c : Cad), c = d.cad ∧ c.outMode = 1 ∧ c.outBeat = none ∧ c.instant c.outPhase ≤ d.plat.now ∧ c.outEnd = some 0 ∧
    (d.host.pin 15).pulse = some 0 :=
  ⟨{ withCad { cfg := cadX 0, outEnd := some 0 } with host := { base.host with gpio := [(15, { mode := 1, pulse := some 0 })] } }, _, rfl, by decide +kernel⟩
theorem witness_CadenceRuns_ptp : ∃ (d : Dev) (c : Cad), c = d.cad ∧ c.source = 2 ∧ cfgPort c.cfg = 0 ∧ c.mode = 1 ∧ c.agree = 3 ∧ c.ptpOff = some 0 ∧
    ((10000000000 : Int) - d.plat.now) - 0 ≤ c.window ∧ 0 - ((10000000000 : Int) - d.plat.now) ≤ c.window :=
  ⟨withCad { cfg := cadX 2, mode := 1, agree := 3, ptpOff := some 0 }, _, rfl, by decide +kernel⟩
theorem witness_CadenceRuns_timeout : ∃ (d : Dev) (c : Cad), c = d.cad ∧ c.source = 2 ∧ c.mode = 2 ∧ c.lastSync = some 0 ∧ 0 + 1000000000 ≤ d.plat.now :=
  ⟨withCad { cfg := cadX 2, mode := 2, lastSync := some 0 }, _, rfl, by decide +kernel⟩

/-- A slot record: beat, kind, action, period and target; pulses last 100 ns. -/
def slotX (beat kind action period target : Nat) : Nat := packBits [(48, beat), (24, 0), (4, kind), (2, action), (2, 1), (16, period), (16, target), (32, 0), (32, 100)]
theorem witness_SlotCommandsWriteAndClear : Met base (.eventSet 0 (slotX 1 3 0 0 7)) (fun d => slotRecordOk (slotX 1 3 0 0 7) = true ∧ slKind (slotX 1 3 0 0 7) ≠ 2 ∧
      Tab.get none d.cad.slots 0 = none ∧ d.cad.beat < slBeat (slotX 1 3 0 0 7)) ∧
    Met { base with host := base.host.setOwner 15 1 } (.eventSet 0 (slotX 1 2 3 0 15)) (fun d => slotRecordOk (slotX 1 2 3 0 15) = true ∧
      d.host.own (slTarget (slotX 1 2 3 0 15)) = 0 / 8 + 1) ∧
    Met base (.eventSet 0 (slotX 1 3 0 0 8)) (fun _ => slotRecordOk (slotX 1 3 0 0 8) = false) :=
  ⟨met _ _ _ (by decide +kernel) (by decide +kernel), met _ _ _ (by decide +kernel) (by decide +kernel), met _ _ _ (by decide +kernel) (by decide +kernel)⟩
theorem witness_SlotCommandsWriteAndClear_clear : Met (withCad { slots := [(255, some { record := slotX 1 3 0 0 0, owner := 1 })] }) (.eventClear 0 255) (fun d =>
      Tab.get none d.cad.slots 255 = some { record := slotX 1 3 0 0 0, owner := 1 } ∧ slKind (slotX 1 3 0 0 0) ≠ 0) ∧
    Met (withCad { slots := [(0, some { record := slotX 1 0 0 0 0, owner := 1 })] }) (.eventClear 0 0) (fun d =>
      Tab.get none d.cad.slots 0 = some { record := slotX 1 0 0 0 0, owner := 1 } ∧ slKind (slotX 1 0 0 0 0) = 0) ∧
    Met base (.eventClear 0 0) (fun d => Tab.get none d.cad.slots 0 = none) :=
  ⟨met _ _ _ (by decide +kernel) (by decide +kernel), met _ _ _ (by decide +kernel) (by decide +kernel), met _ _ _ (by decide +kernel) (by decide +kernel)⟩
theorem witness_TimersAreClaimedAndReleased : Met base (.timerClaim 0 7 1 (2 ^ 32 - 1) (slotX 0 1 0 0 0)) (fun d => d.host.own (0x10 + 7) = 0 ∧ slotRecordOk (slotX 0 1 0 0 0) = true ∧
      slKind (slotX 0 1 0 0 0) ≠ 2) ∧
    Met { base with host := base.host.setOwner 0x17 1 } (.timerRelease 0 7) (fun d => d.host.own (0x10 + 7) = 0 / 8 + 1) ∧
    Met base (.timerRelease 0 0) (fun d => d.host.own (0x10 + 0) ≠ 0 / 8 + 1) :=
  ⟨met _ _ _ (by decide +kernel) (by decide +kernel), met _ _ _ (by decide +kernel) (by decide +kernel), met _ _ _ (by decide +kernel) (by decide +kernel)⟩
/-- Slot 255 fires at beat 0; pin 15 drives, and stream 15 is open. -/
def firing (kind action : Nat) : Dev :=
  { withCad { cfg := cadX 0, slots := [(255, some { record := slotX 0 kind action 1 15, owner := 1 })], streams := [(15, { opened := true })] } with
    host := { base.host with gpio := [(15, { mode := 1 })] } }
theorem witness_SlotsAndTimersFire (kind : Nat) (h : kind ∈ [0, 1, 2, 3]) : ∃ (d : Dev) (x : Slot), Tab.get none d.cad.slots 255 = some x ∧ d.slotDue 255 x = true ∧
    d.cad.jumped x = 0 ∧ slKind x.record = kind ∧ d.cad.outMode ≠ 0 ∧ slTarget x.record = 15 ∧ (d.host.pin 15).mode = 1 ∧ slAction x.record = 3 ∧
    (d.cad.stream 15).opened = true ∧ (d.cad.stream 15).closing = none ∧ (d.cad.stream 15).waiting = none := by
  simp only [List.mem_cons, List.not_mem_nil, or_false] at h
  rcases h with rfl | rfl | rfl | rfl
  · exact ⟨firing 0 3, { record := slotX 0 0 3 1 15, owner := 1 }, by decide +kernel⟩
  · exact ⟨firing 1 3, { record := slotX 0 1 3 1 15, owner := 1 }, by decide +kernel⟩
  · exact ⟨firing 2 3, { record := slotX 0 2 3 1 15, owner := 1 }, by decide +kernel⟩
  · exact ⟨firing 3 3, { record := slotX 0 3 3 1 15, owner := 1 }, by decide +kernel⟩
theorem witness_SlotsAndTimersFire_timer : ∃ (d : Dev) (x : Timer), x = Tab.get {} d.cad.timers 7 ∧ x.on = true ∧ x.next ≤ d.plat.now ∧ slKind x.slot = 1 ∧ d.cad.outMode ≠ 0 :=
  ⟨withCad { cfg := cadX 0, timers := [(7, { on := true, slot := slotX 0 1 0 0 0 })] }, _, rfl, by decide +kernel⟩

/-- A record of a stream of plan 15 on video engine 7, ring 15 and stream context 63. -/
def streamX : Nat := packBits [(4, 15), (3, 7), (1, 0), (6, 63), (4, 15), (1, 0), (9, 0), (4, 1), (8, 1), (8, 1), (16, 0), (48, 1), (32, 0), (20, 100), (20, 0), (11, 400),
  (13, 0), (16, 16), (16, 16), (8, 0x10), (2, 1), (86, 0), (48, 0x8000000000), (64, 0), (48, 0x8000001000), (16, 0), (32, 4096), (48, 0x8000004000), (12, 0)]
/-- A device on which that stream can be opened. -/
def streaming : Dev :=
  { base with
    ing := { profile := some profX, rings := [(15, { on := true, live := true })] }
    plans := [(15, { ready := true, live := true, streams := [{ pod := 3 }] })]
    host := base.host.setOwner (0x28 + 15) 1 }
theorem witness_LiveStreamsRun_open : Met streaming (.streamOpen 0 streamX) (fun d => d.pow.dead = false ∧ d.host.nextCmd ≠ 0 ∧ d.streamOk streamX = true ∧
    d.openRefusal (0 / 8) streamX = none ∧ d.cad.beat < srBeat0 streamX ∧ (d.cad.stream 0).opened = false ∧ Tab.get none d.cad.slots 0 = none) :=
  met _ _ _ (by decide +kernel) (by decide +kernel)
/-- The same record with the DROP policy. -/
def dropX : Nat := streamX + 1 <<< 18
theorem witness_LiveStreamsRun_refused : Met base (.streamOpen 0 0) (fun d => d.streamOk 0 = false) := met _ _ _ (by decide +kernel) (by decide +kernel)
theorem witness_LiveStreamsRun_close : Met (withCad { streams := [(15, { opened := true })] }) (.streamClose 0 15) (fun d => (d.cad.stream 15).opened = true ∧
      (d.cad.stream 15).closing = none ∧ (d.cad.stream 15).waiting = none ∧ (d.cad.stream 15).running = none ∧ d.obs.dumps = [] ∧
      (∀ k ∈ setCores (d.cad.stream 15).clusters, (d.core k).run ≠ 4) ∧ ∀ e ∈ d.cad.streams, e.1 = 15) ∧
    Met (withCad { streams := [(15, { opened := true, running := some {} })] }) (.streamClose 0 15) (fun d => (d.cad.stream 15).port = 0 / 8 ∧ (d.cad.stream 15).running ≠ none) :=
  ⟨met _ _ _ (by decide +kernel) (by decide +kernel), met _ _ _ (by decide +kernel) (by decide +kernel)⟩
/-- Stream 15 with a task that waits or runs. -/
def liveDev (x : Stream) : Dev := { streaming with cad := { streams := [(15, { x with opened := true, record := streamX, clusters := [47] })] } }
theorem witness_LiveStreamsRun_start : ∃ (d : Dev) (x : Stream) (u : Task), x = d.cad.stream 15 ∧ x.waiting = some u ∧ u.bad = 0 ∧ u.dropped = false ∧ d.mayStart 15 = true ∧
    (d.plan (srPlan x.record)).ready = true ∧ (d.plan (srPlan x.record)).valid = true ∧ ((d.trace 9 4 15 (u.frame % 2 ^ 32) 0 0).openWork (d.plan (srPlan x.record)) 15 (srSeqBase x.record) u.frame none).2 = 0 ∧
    (∀ m ∈ setCores x.clusters, (d.core m).run = 0 ∧ (d.core m).ctx = none) ∧ u.runAt = none ∧ setCores x.clusters ≠ [] :=
  ⟨liveDev { waiting := some { readyAt := some 0 } }, _, { readyAt := some 0 }, rfl, by decide +kernel⟩
theorem witness_LiveStreamsRun_start_others (m : Nat) (h : ((liveDev { waiting := some { readyAt := some 0 } }).cad.stream m).opened = false) :
    ((liveDev { waiting := some { readyAt := some 0 } }).cad.stream m).running = none := by
  by_cases e : m = 15
  · subst e; exact absurd h (by decide +kernel)
  · simp [liveDev, Cad.stream, Tab.get, e]
theorem witness_LiveStreamsRun_idle : base.mayStart 15 = false := by decide +kernel
/-- Core 191 with a context and a state of R366. -/
def preempted (run : Nat) : Dev := { base with cores := [(191, { run := run, ctx := if run = 5 then none else some {}, saved := if run = 5 then some {} else none })] }
theorem witness_LiveStreamsRun_switch : ((preempted 3).core 191).run = 3 ∧ ((preempted 3).core 191).ctx = some {} ∧ ((preempted 3).core 191).since + 8000 ≤ (preempted 3).plat.now ∧
    ((preempted 2).core 191).run = 2 ∧ ((preempted 2).core 191).overrun = false ∧
    ((preempted 2).core 191).stopAt + 1000 * (preempted 2).cad.quantum ≤ (preempted 2).plat.now ∧
    ((preempted 5).core 191).run = 5 ∧ ((preempted 5).core 191).saved = some {} ∧ ((preempted 5).core 191).since + 8000 ≤ (preempted 5).plat.now := by decide +kernel
theorem witness_LiveStreamsRun_done : ∃ (d : Dev) (x : Stream) (u : Task), x = d.cad.stream 15 ∧ x.running = some u ∧ u.bad = 0 ∧ u.dropped = false ∧ d.taskDone 15 x u = true ∧
    x.closing = none := ⟨liveDev { running := some { runAt := some 0 } }, _, { runAt := some 0 }, rfl, by decide +kernel⟩
theorem witness_LiveStreamsRun_badInput : ∃ (d : Dev) (x : Stream) (u : Task), x = d.cad.stream 15 ∧ x.running = none ∧ x.waiting = some u ∧
    x.badInput u.frame = some stAborted ∧ x.closing = none :=
  ⟨liveDev { waiting := some {}, badInputs := [(0, stAborted)] }, _, {}, rfl, by decide +kernel⟩
theorem witness_LiveStreamsRun_drop : ∃ (d : Dev) (x : Stream) (u : Task), x = d.cad.stream 15 ∧ x.running = none ∧ x.closing = none ∧ x.waiting = some u ∧
    u.missed = false ∧ d.cad.frameDeadline x.record u.frame < d.plat.now ∧ srDrop x.record = true ∧ x.badInput u.frame = none :=
  ⟨{ streaming with cad := { streams := [(15, { opened := true, record := dropX, waiting := some {} })] } }, _, {}, rfl, by decide +kernel⟩
theorem witness_LiveStreamsRun_late : ∃ (d : Dev) (x y : Stream) (u : Task), x = d.cad.stream 15 ∧ x.running = some u ∧ u.missed = false ∧
    d.cad.frameDeadline x.record u.frame < d.plat.now ∧ srDrop x.record = false ∧ y.running = none ∧ (liveDev y).cad.stream 15 = { y with opened := true, record := streamX, clusters := [47] } ∧
    y.waiting = some u := ⟨liveDev { running := some {} }, _, { waiting := some {} }, {}, rfl, by decide +kernel⟩

/-! ## The mover, observation, starts, security -/

/-- Port B owns channel 95, which stands as given. -/
def withChan (c : Chan) (m : Tab Byte) : Dev := { base with mov := { chans := [(95, c)] }, host := base.host.setOwner (0x40 + 95) 2, mem := m }
theorem witness_ChannelsMoveTheirRings : base.linked 0 = true ∧ base.host.own (0x40 + 95) ≠ 0 + 1 ∧ (withChan {} []).linked 1 = true ∧
    (withChan {} []).host.own (0x40 + 95) = 1 + 1 := by decide +kernel
/-- Channel 95 in a state, with its ring at the start of pod store. -/
def ringChan (st : Nat) : Chan where
  base := 0x8000000000
  st := st
theorem witness_ChannelsMoveTheirRings_tail : ∃ (d : Dev) (c : Chan), c = d.chan 95 ∧ c.cur = none ∧ c.st = 0 ∧ (16 + 2 ^ 32 - c.doneIdx) % 2 ^ 32 ≤ 2 ^ c.log2 ∧
    2 ^ c.log2 < (17 + 2 ^ 32 - c.doneIdx) % 2 ^ 32 := ⟨withChan (ringChan 0) [], _, rfl, by decide +kernel⟩
theorem witness_ChannelsMoveTheirRings_start : ∃ (d : Dev) (c : Chan), c = d.chan 95 ∧ c.st = 0 ∧ d.unwritable c.base (32 * 2 ^ c.log2) = none ∧ c.head ≠ c.tail ∧ c.cur = none ∧
    d.unbacked (c.base + 32 * (c.head % 2 ^ c.log2)) 32 = none ∧ firstBad d.poison (c.base + 32 * (c.head % 2 ^ c.log2)) 32 = none ∧
    bits (rdNat d.mem (c.base + 32 * (c.head % 2 ^ c.log2)) 32) 0 1 = 1 :=
  ⟨withChan { ringChan 0 with tail := 1 } [(0x8000000000, 1)], _, rfl, by decide +kernel⟩
theorem witness_ChannelsMoveTheirRings_nowhere : ∃ (d : Dev) (c : Chan), c = d.chan 95 ∧ c.st = 0 ∧ d.unwritable c.base (32 * 2 ^ c.log2) ≠ none :=
  ⟨withChan { base := 2 ^ 47 - 64 } [], _, rfl, by decide +kernel⟩
theorem witness_ChannelsMoveTheirRings_states (st : Nat) (h : st ∈ [0, 1, 2, 3, 4, 5]) : ∃ (d : Dev) (c : Chan), c = d.chan 95 ∧ c.st = st ∧ c.cur = none ∧ c.relCmd = 0 ∧
    c.wb = none ∧ c.fail = none ∧ c.head = c.tail := by
  simp only [List.mem_cons, List.not_mem_nil, or_false] at h
  rcases h with rfl | rfl | rfl | rfl | rfl | rfl
  · exact ⟨withChan (ringChan 0) [], _, rfl, by decide +kernel⟩
  · exact ⟨withChan (ringChan 1) [], _, rfl, by decide +kernel⟩
  · exact ⟨withChan (ringChan 2) [], _, rfl, by decide +kernel⟩
  · exact ⟨withChan (ringChan 3) [], _, rfl, by decide +kernel⟩
  · exact ⟨withChan (ringChan 4) [], _, rfl, by decide +kernel⟩
  · exact ⟨withChan (ringChan 5) [], _, rfl, by decide +kernel⟩
theorem witness_ChannelsMoveTheirRings_skip : ∃ (d : Dev) (c : Chan), c = d.chan 95 ∧ c.st = 4 ∧ c.head ≠ c.tail ∧ (c.head + 1) % 2 ^ 32 = c.tail :=
  ⟨withChan { ringChan 4 with head := 2 ^ 32 - 1 } [], _, rfl, by decide +kernel⟩
theorem witness_ChannelsMoveTheirRings_release : Met { base with host := base.host.setOwner (0x40 + 95) 1 } (.channelRelease 0 (0x40 + 95)) (fun d =>
      d.host.own (0x40 + 95) = 0 / 8 + 1 ∧ (d.chan 95).st = 0 ∧ (d.chan 95).cur = none ∧ d.host.nextCmd ≠ 0) ∧
    Met base (.channelRelease 0 (0x40 + 95)) (fun d => d.host.own (0x40 + 95) ≠ 0 / 8 + 1) :=
  ⟨met _ _ _ (by decide +kernel) (by decide +kernel), met _ _ _ (by decide +kernel) (by decide +kernel)⟩
/-- A valid FILL descriptor of one row of 64 bytes at an address. -/
def fillX (a : Nat) : Nat := packBits [(1, 1), (3, 1), (20, 0), (24, 1), (48, 0), (48, a), (32, 64)]
theorem witness_ChannelsMoveTheirRings_burst : ∃ (d : Dev) (c : Chan) (x : Xfer) (w : Wk), c = d.chan 95 ∧ d.pow.dead = false ∧ d.pow.runs (engineDom 4) = true ∧
    d.nextChan 4 = some (95, false) ∧ c.xfer = some x ∧
    w = ({ mem := d.mem, poison := flipBad d.poison [2 ^ 48 - 1], free := d.plat.freeCount : Wk }).xferPart x c.row c.off (x.burst c.row c.off).n ∧ w.bad = false :=
  ⟨withChan { ringChan 1 with cur := some (fillX 0x8000004000), tail := 1 } [], _, _, _, rfl, by decide +kernel, by decide +kernel, by decide +kernel, rfl, rfl, by decide +kernel⟩
theorem witness_ChannelsMoveTheirRings_back : ∃ (d : Dev) (c : Chan), c = d.chan 95 ∧ c.cur = some (fillX 0x8000004000) ∧ (c.head + 1) % 2 ^ 32 = c.tail ∧ c.wb ≠ none ∧ c.st = 5 ∧
    c.fence = true := ⟨withChan { ringChan 5 with cur := some (fillX 0x8000004000), tail := 1, wb := some 0, fence := true } [], _, rfl, by decide +kernel⟩
theorem witness_ChannelsMoveTheirRings_fault : ∃ (d : Dev) (c : Chan), c = d.chan 95 ∧ d.chanFailure c = some (1, some (2 ^ 47 - 64)) ∧ c.cur = some (fillX (2 ^ 47 - 64)) ∧ c.st ≠ 5 :=
  ⟨withChan { ringChan 1 with cur := some (fillX (2 ^ 47 - 64)), tail := 1 } [], _, rfl, by decide +kernel⟩
theorem witness_ChannelsMoveTheirRings_host : ∃ (d : Dev) (c : Chan) (x : Xfer), c = d.chan 95 ∧ c.xfer = some x ∧ c.st = 1 ∧ d.chanFailure c = none ∧
    (x.burst c.row c.off).areas.any touchesHost = true ∧ c.readyAt + 1000000 ≤ d.plat.now :=
  ⟨withChan { ringChan 1 with cur := some (fillX 0x800000100000), tail := 1 } [], _, _, rfl, rfl, by decide +kernel⟩

theorem witness_LatchSetsAndTraceBuffers : Met base (.latchSetDefine 0 63 (0x10 :: List.replicate 15 0xFFFF)) (fun _ =>
    (∀ x ∈ (0x10 :: List.replicate 15 0xFFFF), counterIdOk x = true) ∧ (0x10 :: List.replicate 15 0xFFFF) ≠ List.replicate 16 0xFFFF) :=
  met _ _ _ (by decide +kernel) (by decide +kernel)
/-- What TRACE_ARM asks of its operands. -/
def arms (d : Dev) : Prop := bits (2 ^ 31 + 2 ^ 10) 11 20 = 0 ∧ (0x8000000000 % 2 ^ 48) % 64 = 0 ∧ d.unwritable (0x8000000000 % 2 ^ 48) 65536 = none ∧ 65536 % 4096 = 0
theorem witness_LatchSetsAndTraceBuffers_arm : Met base (.traceArm 0 3 (2 ^ 31 + 2 ^ 10) 0x8000000000 65536) (fun d => arms d ∧ d.host.own (0x18 + 3) = 0 ∧ d.pow.on 83 = true) ∧
    Met { base with host := base.host.setOwner 0x1B 2 } (.traceArm 0 3 (2 ^ 31 + 2 ^ 10) 0x8000000000 65536) (fun d => arms d ∧ d.host.own (0x18 + 3) ≠ 0 ∧ d.host.own (0x18 + 3) ≠ 0 / 8 + 1) :=
  ⟨met _ _ _ (by decide +kernel) (by unfold arms; decide +kernel), met _ _ _ (by decide +kernel) (by unfold arms; decide +kernel)⟩
/-- Port A holds trace buffer 3, which captures source 10. -/
def tracing (r : List TraceRec) : Dev :=
  { base with obs := { bufs := [(3, { armed := true, sources := 2 ^ 10, dest := 0x8000000000, len := 65536 })], recs := r, queue := [{ die := 3, bufs := [3] }] }, host := base.host.setOwner 0x1B 1 }
/-- The same with nothing left to collect. -/
def captured (r : List TraceRec) : Dev := { tracing r with obs := { (tracing r).obs with queue := [] } }
theorem witness_LatchSetsAndTraceBuffers_stop : Met (captured []) (.traceStop 0 3) (fun d => d.host.own (0x18 + 3) = 0 / 8 + 1 ∧ (d.obs.buf 3).stopCmd = 0 ∧ (d.obs.buf 3).upCmd = 0 ∧
    d.liveBusy = false ∧ bit (d.obs.buf 3).sources 2 = false ∧ ∀ r ∈ d.obs.recs ++ d.obs.queue, 3 ∉ r.bufs) :=
  met _ _ _ (by decide +kernel) (by decide +kernel)
theorem witness_DumpsReadTheirSymbols : Met (withPlan 15 { planX with syms := [{ num := 5, dims := [4], fmt := 0 }] }) (.dumpTensor 0 15 5 0 0x8000000000 4096) (fun d =>
    (d.plan 15).ready = true ∧ (d.plan 15).live = false ∧ (d.plan 15).sym 5 = some { num := 5, dims := [4], fmt := 0 } ∧ (d.plan 15).lastStep = none ∧
    d.unwritable (0x8000000000 % 2 ^ 48) (dumpSize { num := 5, dims := [4], fmt := 0 }) = none ∧ dumpSize { num := 5, dims := [4], fmt := 0 } ≤ 4096 ∧
    (d.plan 15).valid = true ∧ d.obs.dumps.length < 8) := met _ _ _ (by decide +kernel) (by decide +kernel)
theorem witness_TraceRecordsReachTheirBuffers_end : ∃ (d : Dev) (c : Cmd), d.host.cmd 1 = some c ∧ c.endLatch = some (0, 0, 0, []) ∧ 0 + 2000 ≤ d.plat.now :=
  ⟨{ base with host := { base.host with inProg := [{ id := 1, endLatch := some (0, 0, 0, []) }] } }, _, rfl, by decide +kernel⟩
theorem witness_TraceRecordsReachTheirBuffers : ∃ (d : Dev) (r : TraceRec), d.pow.dead = false ∧ d.pow.runs 83 = true ∧
    d.obs.queue.find? (fun r => r.die == 3) = some r ∧ d.obs.recs.length < 32768 := ⟨tracing [], { die := 3, bufs := [3] }, by decide +kernel⟩
/-- What TRACE_RECORD_WRITE asks of a record that stands first. -/
def writes (d : Dev) (r : TraceRec) : Prop := d.pow.dead = false ∧ d.liveBusy = false ∧ d.pow.runs 83 = true ∧ d.nextChan 4 = none ∧
  (∀ n, n < 4 → (d.obs.buf n).stopCmd = 0) ∧ d.obs.recs = [r] ∧ r.bufs = [3]
theorem witness_TraceRecordsReachTheirBuffers_write : ∃ (d : Dev) (r : TraceRec), writes d r ∧ r.time + 4000 ≤ d.plat.now ∧ (d.obs.buf 3).full = false ∧
    (d.obs.buf 3).lost = 0 := ⟨tracing [{ bufs := [3] }], { bufs := [3] }, by unfold writes; decide +kernel⟩
theorem witness_TraceRecordsReachTheirBuffers_hold : ∃ (d : Dev) (r : TraceRec), writes d r ∧ r.late = false ∧ d.plat.now < r.time + 4000 :=
  ⟨tracing [{ time := 10000000000, bufs := [3] }], { time := 10000000000, bufs := [3] }, by unfold writes; decide +kernel⟩
theorem witness_TraceRecordsReachTheirBuffers_stop : ∃ d : Dev, d.pow.dead = false ∧ d.liveBusy = false ∧ d.pow.runs 83 = true ∧ d.nextChan 4 = none ∧
    (d.obs.buf 3).stopCmd ≠ 0 ∧ (∀ n, n < 3 → (d.obs.buf n).stopCmd = 0) ∧ ∀ r ∈ d.obs.recs ++ d.obs.queue, 3 ∉ r.bufs :=
  ⟨{ base with obs := { bufs := [(3, { armed := true, stopCmd := 1 })] } }, by decide +kernel⟩
theorem witness_DumpsReadTheirSymbols_read : ∃ (d : Dev) (x : Dump) (y : Sym), d.pow.dead = false ∧ d.liveBusy = false ∧ d.obs.dumps = [x] ∧ (d.plan x.plan).sym x.sym = some y ∧
    d.momentCome x = true ∧ d.nextChan y.dumpPod = none ∧ d.cobRun = none ∧ ∀ a q, x.dest ≤ a → a < x.dest + 64 → ¬ (d.host.queue q).replyByte q a :=
  ⟨{ withPlan 15 { planX with syms := [{ num := 5, dims := [4] }] } with obs := { dumps := [{ plan := 15, sym := 5, dest := 0x9000000000, due := true }] } },
    { plan := 15, sym := 5, dest := 0x9000000000, due := true }, { num := 5, dims := [4] }, by decide +kernel, by decide +kernel, by decide +kernel, by decide +kernel, by decide +kernel, by decide +kernel, by decide +kernel,
    fun a q h1 h2 => by
      by_cases hk : q = 0
      · subst hk; simp [Queue.replyByte, withPlan, base, HostIf.queue, Tab.get] at *; omega
      · simp [Queue.replyByte, withPlan, base, HostIf.queue, Tab.get, hk] at *; omega⟩
theorem witness_DumpsReadTheirSymbols_busy : (liveDev { running := some {} }).liveBusy = true := by decide +kernel

theorem witness_StagesOfAStartFollow_verify : State.reset.dev.plat.phase = .verify ∧ State.reset.dev.plat.otpInvalid = false ∧ (∃ w, State.reset.dev.plat.config = some w) ∧
    State.reset.dev.plat.slotOutcome (State.reset.dev.plat.slotHdr State.reset.dev.plat.selected) 0 = 0 ∧
    State.reset.dev.plat.slotOutcome (State.reset.dev.plat.slotHdr 0) 1 ≠ 0 ∧ State.reset.dev.plat.slotOutcome (State.reset.dev.plat.slotHdr 1) 3 ≠ 0 ∧
    State.reset.dev.plat.selected < 2 :=
  ⟨by decide +kernel, by decide +kernel, Option.isSome_iff_exists.mp (by decide +kernel), by decide +kernel⟩
/-- A platform in a stage of a start. -/
def stage (ph : Phase) : Plat := { base.plat with phase := ph }
theorem witness_StartsTimeOutAndTheSmbusAnswers_stages : (stage .train).d2dDone = false ∧ (stage .train).gddrDone = false ∧ (stage .train).stageMark + 500000000 ≤ (stage .train).now ∧
    (stage .selfTest).stageMark + 200000000 ≤ (stage .selfTest).now ∧ (stage .wipe).stageMark + 100000000 ≤ (stage .wipe).now ∧
    (stage .failed).stageMark + 100000000 ≤ (stage .failed).now ∧ (stage .verify).stageMark + 1000000000 ≤ (stage .verify).now ∧
    (stage .failed).bootAttempts ≠ (stage .failed).failLimit := by decide +kernel
theorem witness_StartsTimeOutAndTheSmbusAnswers_slow : ∃ p : Plat, p.phase = .selfTest ∧ p.now < p.stageMark + 200000000 ∧ p.powerMark + 2000000000 ≤ p.now :=
  ⟨{ stage .selfTest with stageMark := 10000000000 }, by decide +kernel⟩
theorem witness_StagesOfAStartFollow_domains : base.plat.retired = 0 ∧ ∀ id, id < 85 → (base.plat.retiredDom id = true ∨ base.pow.on id = true) ∧
    (base.pow.dom id).pendOn = false ∧ (base.pow.dom id).pendOff = false := by decide +kernel
theorem witness_StagesOfAStartFollow_train : (stage .train).phase = .train ∧ (stage .train).d2dDone = false ∧ (stage .train).gddrDone = false := by decide +kernel
theorem witness_StagesOfAStartFollow : (∀ i, i < 4 → 6 ≤ ({ stage .selfTest with retired := 0x3F } : Plat).activeClusters i) ∧
    ({ stage .selfTest with retired := 0x7F } : Plat).activeClusters 0 < 6 ∧ ((stage .selfTest).retired ||| 0x7F) % 2 ^ 48 = 0x7F := by decide +kernel
theorem witness_StartsBeginAtTheirEvents : ∃ p : Plat, p.phase = .held ∧ p.resetN = false ∧ p.pwrGood = 0x3F ∧ p.bootAttempts = p.failLimit :=
  ⟨{ stage .held with resetN := false, bootAttempts := 3 }, by decide +kernel⟩
theorem witness_StartsTimeOutAndTheSmbusAnswers : ({ base.plat with attestActive := true } : Plat).treeBuilds = true ∧ base.plat.resetN = true ∧ base.plat.phase ≠ .held ∧
    1000000 ≤ base.plat.now ∧ ({ base.plat with smbAlertLow := true } : Plat).smbAlertLow = true := by decide +kernel
theorem witness_StartsBeginAtTheirEvents_husk : ∃ d : Dev, d.plat.phase = .failed ∧ d.plat.stageMark + 100000000 ≤ d.plat.now ∧ d.pow.allOff = true :=
  ⟨{ plat := stage .failed, pow := { doms := [] } }, by decide +kernel⟩
theorem witness_StagesOfAStartFollow_invalid : ∃ p : Plat, p.phase = .verify ∧ p.otpInvalid = true := ⟨{ stage .verify with lcWord := 5 }, by decide +kernel⟩
theorem witness_StagesOfAStartFollow_config : ∃ p : Plat, p.phase = .verify ∧ p.config = none := ⟨{ stage .verify with flash := [] }, by decide +kernel⟩

/-- A firmware header for this device, at the start of pod store. -/
def imageDev : Dev := { base with mem := [(0x8000000000, 1), (0x8000000003, 0x48), (0x8000000004, 0xB0)] }
theorem witness_FirmwareCommandsWriteSlots : Met imageDev (.fwUpdate 0 1 0x8000000000 4097 true) (fun d => 1 ≠ d.plat.fwImage ∧ d.cmdReadable (0x8000000000 % 2 ^ 48) 4097 = true ∧
    d.plat.fwUpd = none ∧ firstBad d.poison (0x8000000000 % 2 ^ 48) 4097 = none ∧ d.plat.slotOutcome (rdNat d.mem (0x8000000000 % 2 ^ 48) 48) 0 = 0 ∧ d.plat.slotOutcome (rdNat d.mem (0x8000000000 % 2 ^ 48) 48) 1 ≠ 0) :=
  met _ _ _ (by decide +kernel) (by decide +kernel)
theorem witness_FirmwareCommandsWriteSlots_select : Met base (.fwSelect 0 0 true) (fun d => d.plat.fwUpd = none ∧ d.plat.slotOutcome (d.plat.slotHdr 0) 0 = 0) ∧
    Met base (.fwSelect 0 1 true) (fun d => d.plat.slotOutcome (d.plat.slotHdr 1) 0 ≠ 0) :=
  ⟨met _ _ _ (by decide +kernel) (by decide +kernel), met _ _ _ (by decide +kernel) (by decide +kernel)⟩
theorem witness_FirmwareCommandsWriteSlots_parity : Met { imageDev with poison := [(0x8000001000, true)] } (.fwUpdate 0 1 0x8000000000 4097 true)
    (fun d => d.plat.fwUpd = none ∧ firstBad d.poison (0x8000000000 % 2 ^ 48) 4097 ≠ none) := met _ _ _ (by decide +kernel) (by decide +kernel)
/-- A life-cycle credential header for LC_COUNT 1 and serial number 0, at the start of pod store. -/
def credDev (target signers : Nat) : Dev :=
  { base with mem := [(0x8000000000, BitVec.ofNat 8 (1 + 16 * target)), (0x8000000001, BitVec.ofNat 8 signers), (0x8000000005, 0x48), (0x8000000010, 1)] }
theorem witness_LifeCycleAndAttestationAct : Met (credDev 2 0) (.lifecycle 0 2 0x8000000000 64 false 0 0) (fun d => d.cmdReadable (0x8000000000 % 2 ^ 48) 64 = true ∧
      64 = 64 + 5456 * signerCount (bits (rdNat d.mem (0x8000000000 % 2 ^ 48) 64) 8 2) ∧ d.plat.transition 2 = true ∧
      d.plat.credFits 2 (rdNat d.mem (0x8000000000 % 2 ^ 48) 64) = true ∧ signerCount (d.plat.signers 2) = 0) ∧
    Met (credDev 4 1) (.lifecycle 0 4 0x8000000000 5520 false 0 0) (fun d => 5520 = 64 + 5456 * signerCount (bits (rdNat d.mem (0x8000000000 % 2 ^ 48) 64) 8 2) ∧
      d.plat.transition 4 = true ∧ signerCount (d.plat.signers 4) ≠ 0) :=
  ⟨met _ _ _ (by decide +kernel) (by decide +kernel), met _ _ _ (by decide +kernel) (by decide +kernel)⟩
theorem witness_LifeCycleAndAttestationAct_parity : Met { credDev 2 0 with poison := [(0x800000003F, true)] } (.lifecycle 0 2 0x8000000000 64 false 0 0)
      (fun d => d.plat.transition 2 = true ∧ firstBad d.poison (0x8000000000 % 2 ^ 48) 64 ≠ none) ∧
    Met (credDev 0 0) (.lifecycle 0 0 0x8000000000 64 false 0 0) (fun d => d.plat.transition 0 = false) :=
  ⟨met _ _ _ (by decide +kernel) (by decide +kernel), met _ _ _ (by decide +kernel) (by decide +kernel)⟩
theorem witness_LifeCycleAndAttestationAct_scan : base.plat.lcWord ≠ 0 ∧ base.plat.lcWord ≠ 4 ∧ ({ base.plat with lcWord := 4 } : Plat).lcWord = 4 := by decide +kernel
theorem witness_LifeCycleAndAttestationAct_attest : Met { base with plat := { base.plat with attestReady := true } } (.attest 0 0 0x8000000000 5652 (List.replicate 5396 0)) (fun d =>
    d.unwritable (0x8000000000 % 2 ^ 48) 5652 = none ∧ d.plat.attestReady = true) := met _ _ _ (by decide +kernel) (by decide +kernel)
theorem witness_FirmwareCommandsWriteSlots_done : ∃ (d : Dev) (u : FwUpd), d.plat.fwUpd = some u ∧ u.data.length ≤ 0x1800000 ∧ u.image < 2 ∧ d.plat.phase ≠ .dormant ∧ u.image = 1 :=
  ⟨{ base with plat := { base.plat with fwUpd := some { image := 1, data := [1] } } }, _, rfl, by decide +kernel⟩

/-! ## One command on a small state; the expected values come from the rules named -/

/-- The device after one command. -/
def after (i : Instr) (s : State) : Dev := match exec i s with | .next t => t.dev | _ => {}

/-- STATUS DONE, no continuation entry, DETAIL 0 (R428, R433); RQ_TAIL moves on by one entry. -/
theorem test_nop_replies : bits (rdNat (after (.nop 0) (front base (.nop 0))).mem 0x800000010000 16) 32 24 = 0 ∧
    ((after (.nop 0) (front base (.nop 0))).host.queue 0).rqTail = 1 := by decide +kernel
/-- A PARAM_LEN of 8 for NOP, which takes no parameters, is BAD_PARAM, status 3 of R433 (R442). -/
theorem test_nop_wrong_length : bits (rdNat (after (.nop 0) (placed base (.nop 0) { plen := 8 })).mem 0x800000010000 16) 32 4 = 3 := by decide +kernel
/-- The word of R434: a free semaphore is acquired by port B, OWNER 2. -/
theorem test_sem_acquire : Tab.get 0 (after (.semAcquire 1 63 true) { dev := base }).host.sems 63 = 2 ∧
    Tab.get 0 (after (.semAcquire 1 0 true) { dev := base }).host.sems 0 = 1 := by decide +kernel
/-- A tail more than the ring's 16 entries ahead puts the queue in ERROR with code 1 (R424). -/
theorem test_cq_tail_overflow : ((after (.cqTail 0 0 17) { dev := base }).host.queue 0).qstate = 2 ∧ ((after (.cqTail 0 0 17) { dev := base }).host.queue 0).err = 1 ∧
    ((after (.cqTail 0 0 16) { dev := base }).host.queue 0).qstate = 1 := by decide +kernel
/-- GPIO_SET drives an owned pin high (R543). -/
theorem test_gpio_set : ((after (.gpioSet 0 6 1 1 0) (front { base with host := base.host.setOwner 6 1 } (.gpioSet 0 6 1 1 0))).host.pin 6).value = true ∧
    ((after (.gpioSet 0 6 1 1 0) (front { base with host := base.host.setOwner 6 1 } (.gpioSet 0 6 1 1 0))).host.pin 6).mode = 1 := by decide +kernel
/-- FILL stores its byte in all of its range and nowhere else. -/
theorem test_fill : rdByte (after (.fill 0 0x8000000000 64 7) (front base (.fill 0 0x8000000000 64 7))).mem 0x800000003F = 7 ∧
    rdByte (after (.fill 0 0x8000000000 64 7) (front base (.fill 0 0x8000000000 64 7))).mem 0x8000000040 = 0 := by decide +kernel
/-- WRITE_INLINE stores its bytes in order. -/
theorem test_write_inline : rdNat (after (.writeInline 0 0x9000000000 [1, 2, 3]) (front base (.writeInline 0 0x9000000000 [1, 2, 3]))).mem 0x9000000000 4 = 0x030201 := by
  decide +kernel
/-- PAGE_ALLOC takes the lowest free frame (R193): frame 1 of the pool whose frame 0 is in use. -/
theorem test_page_alloc : (Tab.get 0 (((after (.pageAlloc 0 3 4095 0 5) (front (withPod podX) (.pageAlloc 0 3 4095 0 5))).pod 3).pool 3).recs 1).testBit 16 = true ∧
    entFrame (((after (.pageAlloc 0 3 4095 0 5) (front (withPod podX) (.pageAlloc 0 3 4095 0 5))).pod 3).ent 4095 0) = podStore 3 + 4096 := by decide +kernel
/-- IDCODE of R510. -/
theorem test_jtag_idcode : (after (.jtagInstruction 0) { dev := base }).plat.jtagOut = 0x14800A1D := by decide +kernel
/-- 110 degrees, 1,760 sixteenths, trips (R401); 109.9375 degrees does not. -/
theorem test_thermal_trip : (after (.sensorReading (1760 :: List.replicate 85 400)) { dev := base }).pow.trip = true ∧
    (after (.sensorReading (1759 :: List.replicate 85 400)) { dev := base }).pow.trip = false := by decide +kernel
/-- The default period is 40 ms: beat 1 starts at 40,000,000 ns and not before (R348, R349). -/
theorem test_beat_start : (after .beatStart { dev := { plat := { now := 40000000 } } }).cad.beat = 1 ∧ (after .beatStart { dev := { plat := { now := 39999999 } } }).cad.beat = 0 := by
  decide +kernel
/-- SIGNAL of a SYNC descriptor raises its event counter, and the pc moves on by 64 bytes (R94, R97). -/
theorem test_descriptor_issue : ((after (.descriptorIssue 191 []) { dev := onCore 0 {} {} }).core 191).ctx.map (·.pc) = some 64 := by decide +kernel
/-- A MOVE of kind FILL writes 9 to the four bytes of its row. -/
theorem test_move_fill : rdNat (after (.moveComplete 191 []) { dev := busy 5 { desc := packBits [(8, 7), (120, 0), (3, 1), (29, 0), (8, 9), (56, 0), (64, 0x8000000000), (32, 4), (24, 1)] } }).mem
    0x8000000000 5 = 0x09090909 := by decide +kernel
/-- The claim of the last index leaves nothing to claim (R112). -/
theorem test_tile_claim : ((after (.tileClaim 191) { dev := inLoop { desc := clDesc } { st := 1, mask := 0xFFF, limit := 1 } }).ctr_ 3 63).next = 1 ∧
    ((after (.tileClaim 191) { dev := inLoop { desc := clDesc } { st := 1, mask := 0xFFF, limit := 1 } }).ctr_ 3 63).claims.map (·.core) = [191] := by decide +kernel
/-- CHANNEL_START of a ring with nothing in it runs and waits (R470); CHANNEL_PAUSE brings it to PAUSING. -/
theorem test_channel : ((after (.channelStart 1 95) { dev := withChan (ringChan 0) [] }).chan 95).st = 1 ∧ ((after (.channelPause 1 95) { dev := withChan (ringChan 1) [] }).chan 95).st = 2 := by
  decide +kernel
/-- DOMAIN_ON of an OFF domain enters POWERING_UP (R383). -/
theorem test_domain_on : ((after (.domainOn 0 60) (front (withDom 60 {}) (.domainOn 0 60))).pow.dom 60).st = 1 := by decide +kernel
/-- Records that are due together apply in the order of their steps, not of the commands: step 7's stays in force (R242). -/
theorem test_group_order : ({ groupPend := [(0, 7, 70), (0, 5, 50)] } : Plan).groupAt 0 10 = 70 ∧
    ({ groupPend := [(0, 7, 70), (0, 5, 50)] } : Plan).groupAt 0 6 = 50 := by decide +kernel
/-- The latch of BEAT_NOW answers one read of PHASE_NOW in port A's window (R358). -/
theorem test_phase_latch : ((after (.beatNowRead 0) { dev := base }).host.port 0).phaseLatch = some (base.cad.phaseAt base.plat.now) ∧
    (((after (.beatNowRead 0) { dev := base }).host.port 0).readDone 0x4010 8).phaseLatch = none := by decide +kernel
/-- RESET_N holds the device, and its release starts it afresh at device time 0 (R152, R488). -/
theorem test_reset_n : (after .resetNAssert { dev := base }).plat.phase = .held ∧
    (after .resetNRelease { dev := { plat := { stage .held with resetN := false, bootAttempts := 0 } } }).plat.now = 0 := by decide +kernel

end Sys2Proof.Tests
end

