-- ==== Sys2Proof/Proofs/WorkFrames.lean ====
section
/-! SUPPORT. What a failure of work, the fault records of an operation and the steps that follow a change of a core leave as they were. -/

namespace Sys2Proof.Machine

/-! ## The step that a stream serves -/

/-- A change of a plan's step is seen in that step. -/
@[simp] theorem Plan.updRun_run (p : Plan) (second : Bool) (f : StepRun → StepRun) :
    (p.updRun second f).run_ second = (p.run_ second).map f := by
  cases second <;> rfl

@[simp] theorem Dev.updRun_run (d : Dev) (h : Nat) (second : Bool) (f : StepRun → StepRun) :
    ((d.updRun h second f).plan h).run_ second = ((d.plan h).run_ second).map f := by
  simp [Dev.updRun]

/-- The failure of a training step's work is a failure of that step. -/
theorem Dev.failWork_run (d : Dev) (c : Ctx) (st entry : Nat) (hl : c.live = false) :
    ((d.failWork c st entry).plan c.plan).run_ c.second = ((d.plan c.plan).run_ c.second).map (·.fail st 0 entry) := by
  simp [Dev.failWork, hl]

/-- A failure of work changes the plans or the live streams alone. -/
theorem Dev.failWork_frame (d : Dev) (c : Ctx) (st entry : Nat) :
    ∃ cad plans, d.failWork c st entry = { d with cad := cad, plans := plans } := by
  unfold Dev.failWork
  split
  · exact ⟨(d.updTask c.stream _).cad, d.plans, rfl⟩
  · exact ⟨d.cad, (d.updRun c.plan c.second _).plans, rfl⟩

/-! ## Fault records -/

/-- The FAULT records of an operation change the records, the trace buffers and the counters alone (R524). -/
theorem Dev.traceFaults_frame (d : Dev) (unit die descId : Nat) (cmd : Option Cmd) (errs : List Nat) :
    ∃ o ctr, d.traceFaults unit die descId cmd errs = { d with obs := o, ctr := ctr } := by
  refine foldl_keeps (fun t => ∃ o ctr, t = { d with obs := o, ctr := ctr }) _ ?_ _ d ⟨d.obs, d.ctr, rfl⟩
  rintro _ e ⟨o, ctr, rfl⟩
  exact Dev.trace_obs _ _ _ _ _ _ _

/-! ## What follows a change of a core -/

/-- Outside a tile loop there is no claim to end. -/
theorem Dev.reap_noLoop (d : Dev) (n : Nat) (c : Ctx) (hc : (d.core n).ctx = some c) (hloop : c.loop = none) : d.reap n = d := by
  simp [Dev.reap, hc, hloop]

/-- A stream before its END keeps its core. -/
theorem Dev.prune_notEnded (d : Dev) (n : Nat) (c : Ctx) (hc : (d.core n).ctx = some c) (hend : c.ended = false) : d.prune n = d := by
  simp [Dev.prune, hc, hend]

/-- A running core that reaches a stop point has its claims preempted where its cluster is halted, and nothing else happens (R396). -/
theorem Dev.tryStop_running (d : Dev) (n : Nat) (hrun : (d.core n).run = 1) :
    ∃ pods, d.tryStop n = { d with pods := pods } ∧ (d.clusterHalted n = false → pods = d.pods) := by
  unfold Dev.tryStop
  simp only [hrun, OfNat.one_ne_ofNat, if_false, true_and]
  split
  · rename_i h
    exact ⟨_, rfl, fun h0 => by simp [h0] at h⟩
  · exact ⟨d.pods, rfl, fun _ => rfl⟩

/-- What follows a change of a running core, outside a tile loop and before END: preempted claims at most, in a halted cluster. -/
theorem Dev.after_running (d : Dev) (n : Nat) (c : Ctx) (hc : (d.core n).ctx = some c) (hrun : (d.core n).run = 1)
    (hloop : c.loop = none) (hend : c.ended = false) :
    ∃ pods, d.after n = { d with pods := pods } ∧ (d.clusterHalted n = false → pods = d.pods) := by
  obtain ⟨pods, hstop, hpods⟩ := d.tryStop_running n hrun
  refine ⟨pods, ?_, hpods⟩
  unfold Dev.after
  rw [d.reap_noLoop n c hc hloop, hstop]
  exact Dev.prune_notEnded _ n c hc hend

/-! ## Outcomes of events of work -/

/-- While work goes on an event that can take place has its effect. -/
theorem eventFlips_some (s : State) (flips : List Nat) (d : Dev) (hdead : s.dev.pow.dead = false) (hcp : cpFlip flips = false) :
    eventFlips s flips (some d) = .next { s with dev := d } := by
  simp [eventFlips, eventOpt, nextDev, hdead, hcp]

/-- An event that cannot take place changes nothing. -/
theorem eventFlips_none (s : State) (flips : List Nat) (hcp : cpFlip flips = false) : eventFlips s flips none = .next s := by
  simp [eventFlips, eventOpt, hcp]

end Sys2Proof.Machine
end

