-- ==== Sys2Proof/Proofs/OperationEffects.lean ====
section
/-! SUPPORT. How the workspace of an operation reaches the device, its core and the work that its stream belongs to. -/

namespace Sys2Proof.Machine

/-! ## The outcome of an operation for its step or task -/

/-- The last part of `Dev.absorb`: the training step takes GRAD_NONFINITE, and the work fails where a read met a parity error (R142, R234). -/
def Dev.reportWork (d : Dev) (c : Ctx) (w : Wk) : Dev :=
  let d1 := if w.gradNF && !c.live then d.updRun c.plan c.second (fun r => { r with gradNF := true }) else d
  if w.bad then d1.failWork c stParity 0 else d1

/-- An operation's effects: memory, parity, the poison bits of its core, and the outcome for its work; beside these the counters, the
platform's log and the trace change alone. -/
theorem Dev.absorb_eq (d : Dev) (n e unit desc : Nat) (c : Ctx) (w : Wk) :
    ∃ plat ctr o, d.absorb n e unit desc c w =
      (({ d with mem := w.mem, poison := w.poison, plat := plat, ctr := ctr, obs := o } : Dev).updCore n
        (fun k => { k with poison := w.pz })).reportWork c w := by
  unfold Dev.absorb
  dsimp only
  generalize ({ d.plat with freeCount := d.plat.freeCount + 1 } : Plat).logReads unit (n / 48) (dId desc) (d.workCmd c) w.errs = plat
  generalize bump (addCounts d.ctr n e w.cnt) (coreInst n) 0x1A w.errs.length = ctr
  obtain ⟨o, ctr', h⟩ := Dev.traceFaults_frame { d with mem := w.mem, poison := w.poison, plat := plat, ctr := ctr }
    unit (n / 48) (dId desc) (d.workCmd c) w.errs
  rw [h]
  exact ⟨plat, ctr', o, rfl⟩

/-- The outcome of an operation changes the plans or the live streams alone. -/
theorem Dev.reportWork_frame (d : Dev) (c : Ctx) (w : Wk) : ∃ cad plans, d.reportWork c w = { d with cad := cad, plans := plans } := by
  unfold Dev.reportWork
  dsimp only
  split
  · split
    · obtain ⟨cad, plans, h⟩ := (d.updRun c.plan c.second (fun r => { r with gradNF := true })).failWork_frame c stParity 0
      exact ⟨cad, plans, h⟩
    · exact d.failWork_frame c stParity 0
  · split
    · exact ⟨d.cad, (d.updRun c.plan c.second _).plans, rfl⟩
    · exact ⟨d.cad, d.plans, rfl⟩

/-- An operation without a parity error and a non-finite gradient tells its work nothing. -/
theorem Dev.reportWork_clean (d : Dev) (c : Ctx) (w : Wk) (hbad : w.bad = false) (hnf : w.gradNF = false) : d.reportWork c w = d := by
  simp [Dev.reportWork, hbad, hnf]

/-- What a training step that has not failed takes from an operation. -/
theorem Dev.reportWork_step (d : Dev) (c : Ctx) (w : Wk) (r : StepRun) (hl : c.live = false)
    (hr : (d.plan c.plan).run_ c.second = some r) (hok : r.bad = 0) :
    ∃ r', ((d.reportWork c w).plan c.plan).run_ c.second = some r' ∧ r'.gradNF = (r.gradNF || w.gradNF) ∧
      r'.bad = (if w.bad then stParity else 0) ∧ r'.halting = (r.halting || w.bad) ∧ r'.step = r.step := by
  unfold Dev.reportWork
  cases w.gradNF <;> cases w.bad <;> simp [hl, hr, hok, Dev.failWork_run, StepRun.fail]

/-! ## Device after an operation -/

/-- Device `t` has taken from `d` what workspace `w` of an operation of stream `c` on core `n` holds, and the stream goes on as `x`. -/
structure Dev.Takes (d : Dev) (n : Nat) (c : Ctx) (w : Wk) (x : Ctx) (t : Dev) : Prop where
  mem : t.mem = w.mem
  poison : t.poison = w.poison
  core : t.core n = { d.core n with poison := w.pz, ctx := some x }
  other : ∀ m, m ≠ n → t.core m = d.core m
  host : t.host = d.host
  pow : t.pow = d.pow
  pods : d.clusterHalted n = false → t.pods = d.pods
  clean : w.bad = false → w.gradNF = false → t.plans = d.plans ∧ t.cad = d.cad
  step : ∀ r, c.live = false → (d.plan c.plan).run_ c.second = some r → r.bad = 0 →
    ∃ r', (t.plan c.plan).run_ c.second = some r' ∧ r'.gradNF = (r.gradNF || w.gradNF) ∧ r'.bad = (if w.bad then stParity else 0) ∧
      r'.halting = (r.halting || w.bad) ∧ r'.step = r.step

variable {d t : Dev} {n : Nat} {c x : Ctx} {w : Wk}

/-- An operation's effects reach the device and its core, whose stream has yet to move on. -/
theorem Dev.absorb_takes (e unit desc : Nat) (hc : (d.core n).ctx = some c) : d.Takes n c w c (d.absorb n e unit desc c w) := by
  obtain ⟨plat, ctr, o, h⟩ := d.absorb_eq n e unit desc c w
  rw [h]
  generalize hd1 : ({ d with mem := w.mem, poison := w.poison, plat := plat, ctr := ctr, obs := o } : Dev).updCore n
    (fun k => { k with poison := w.pz }) = d1
  obtain ⟨cad, plans, hf⟩ := d1.reportWork_frame c w
  have hcore : ∀ m, (d1.reportWork c w).core m = if m = n then { d.core n with poison := w.pz } else d.core m := by
    intro m
    have hsame : (d1.reportWork c w).core m = d1.core m := by rw [hf]; rfl
    rw [hsame, ← hd1, Dev.core_updCore]
    rfl
  exact {
    mem := by rw [hf, ← hd1]; rfl
    poison := by rw [hf, ← hd1]; rfl
    core := by simp [hcore, ← hc]
    other := fun m hm => by simp [hcore, hm]
    host := by rw [hf, ← hd1]; rfl
    pow := by rw [hf, ← hd1]; rfl
    pods := fun _ => by rw [hf, ← hd1]; rfl
    clean := fun hbad hnf => by rw [d1.reportWork_clean c w hbad hnf, ← hd1]; exact ⟨rfl, rfl⟩
    step := fun r hl hr hok => d1.reportWork_step c w r hl (by rw [← hd1]; exact hr) hok }

/-- The stream goes on after a change of its context. -/
theorem Dev.Takes.updCtx (h : d.Takes n c w x t) (f : Ctx → Ctx) :
    d.Takes n c w (f x) (t.updCore n (fun k => { k with ctx := k.ctx.map f })) where
  mem := h.mem
  poison := h.poison
  core := by simp [h.core]
  other m hm := by simp [hm, h.other m hm]
  host := h.host
  pow := h.pow
  pods := h.pods
  clean := h.clean
  step := h.step

/-- A trace record takes nothing from the device. -/
theorem Dev.Takes.traceDesc (h : d.Takes n c w x t) (type m desc : Nat) : d.Takes n c w x (t.traceDesc type m desc) := by
  obtain ⟨o, ctr, ht⟩ := t.trace_obs type (m / 48) (m % 48) (dId desc) (dOp desc + 256 * (if unitOf desc < 4 then unitOf desc else 0))
    (if type = 2 then Config.freeNat t.plat.freeCount else 0)
  unfold Dev.traceDesc
  rw [ht]
  exact ⟨h.mem, h.poison, h.core, h.other, h.host, h.pow, h.pods, h.clean, h.step⟩

/-- What follows a change of a running core leaves the operation's effects as they are. -/
theorem Dev.Takes.after (h : d.Takes n c w x t) (hrun : (d.core n).run = 1) (hloop : x.loop = none) (hend : x.ended = false) :
    d.Takes n c w x (t.after n) := by
  obtain ⟨pods, ht, hpods⟩ := t.after_running n x (by rw [h.core]) (by rw [h.core]; exact hrun) hloop hend
  have hhalt : t.clusterHalted n = d.clusterHalted n := by simp only [Dev.clusterHalted, h.pow]
  rw [ht]
  exact ⟨h.mem, h.poison, h.core, h.other, h.host, h.pow, fun h0 => (hpods (hhalt.trans h0)).trans (h.pods h0), h.clean, h.step⟩

/-- An operation completes on a running core: its unit is free and its signal counts (R90, R97). -/
theorem Dev.Takes.opDone (h : d.Takes n c w c t) (u : Nat) (o : Op) (hrun : (d.core n).run = 1) (hloop : c.loop = none)
    (hend : c.ended = false) :
    d.Takes n c w { c with ops := Tab.set none c.ops u none, events := signal o.desc c.events } (t.opDone n u o) :=
  ((h.updCtx (fun c => { c.setOp u none with events := signal o.desc c.events })).traceDesc 2 n o.desc).after hrun hloop hend

/-- An operation stands at a stop point of a running core (R88). -/
theorem Dev.Takes.stopped (h : d.Takes n c w c t) (u : Nat) (o : Op) (hrun : (d.core n).run = 1) (hloop : c.loop = none)
    (hend : c.ended = false) :
    d.Takes n c w { c with ops := Tab.set none c.ops u (some o) }
      ((t.updCore n (fun k => { k with ctx := k.ctx.map (fun c => c.setOp u (some o)) })).after n) :=
  (h.updCtx (fun c => c.setOp u (some o))).after hrun hloop hend

end Sys2Proof.Machine
end

