-- ==== Sys2Proof/Proofs/ComputeCompletions.lean ====
section
/-! PROOFS. The completions and stop points of a core's compute operations (R63, R88, R90, R97, R99, R187 to R189):
what each event answers, and O36. -/

namespace Sys2Proof.Machine

section
variable {d : Dev} {n e u : Nat} {flips : List Nat} {c : Ctx} {o : Op}

/-- The operation that runs on a unit. -/
theorem Dev.running_eq {op : Nat} (hlive : d.coreLive n = true) (hc : (d.core n).ctx = some c) (hs : o.stopped = false)
    (ho : c.op u = some o) (hop : dOp o.desc = op) : d.running n u op = some (c, o) := by
  simp [Dev.running, hlive, hc, ho, hs, hop]

/-! ## Completions -/

/-- The completion events of the engines' opcodes (R90). -/
theorem exec_engineComplete {i : Instr} {op : Nat} (s : State)
    (hi : (i, op) ∈ [(.matmulComplete n e flips, 1), (.convComplete n e flips, 3), (.combineComplete n e flips, 5)]) :
    exec i s = eventFlips s flips (s.dev.engineDone n e op flips) := by
  simp only [List.mem_cons, Prod.mk.injEq, List.not_mem_nil, or_false] at hi
  obtain ⟨rfl, rfl⟩ | ⟨rfl, rfl⟩ | ⟨rfl, rfl⟩ := hi <;> rfl

theorem exec_vectorComplete (s : State) : exec (.vectorComplete n flips) s = eventFlips s flips (s.dev.vectorDone n flips) := rfl

theorem exec_attentionComplete (s : State) : exec (.attentionComplete n flips) s = eventFlips s flips (s.dev.attnDone n flips) := rfl

theorem exec_stopPointReached (s : State) (tiles : Nat) :
    exec (.stopPointReached n e tiles flips) s = eventFlips s flips (s.dev.stopAt_ n e tiles flips) := rfl

section
variable (hlive : d.coreLive n = true) (hc : (d.core n).ctx = some c) (hs : o.stopped = false)
include hlive hc hs

/-- An engine's operation does its remaining tiles and completes. -/
theorem Dev.engineDone_eq (he : e < 4) (ho : c.op e = some o) :
    d.engineDone n e (dOp o.desc) flips = some ((d.absorb n e 0 o.desc c
      ((d.work n flips).finishTiles o.desc (4 * n + e) ⟨mOutGrad o.desc, c.seed, c.step, mOutSym o.desc⟩ o.tiles)).opDone n e o) := by
  simp [Dev.engineDone, he, Dev.running_eq hlive hc hs ho rfl, Dev.matDone]

/-- A VECTOR that waits for no held accumulator tile completes (R63, R99). -/
theorem Dev.vectorDone_eq (ho : c.op 4 = some o) (hop : dOp o.desc = 2) (hfree : ∀ a ∈ touches o.desc, d.accHeld n a = false) :
    d.vectorDone n flips = some ((d.absorb n 0 1 o.desc c ((d.work n flips).vector o.desc c.seed c.step)).opDone n 4 o) := by
  simpa [Dev.vectorDone, Dev.running_eq hlive hc hs ho hop] using hfree

section
variable (ho : c.op 6 = some o) (hop : dOp o.desc = 4) (hpage : (d.work n flips).unitsBad o.desc o.tiles (aUnits o.desc) = none)
include ho hop hpage

/-- An ATTENTION whose page entries are intact and present does its remaining units and completes. -/
theorem Dev.attnDone_eq (hfault : (d.work n flips).unitsFault o.desc o.tiles (aUnits o.desc) = none)
    (hwait : (d.work n flips).unitsWait o.desc o.tiles (aUnits o.desc) = false) :
    d.attnDone n flips = some ((d.absorb n 0 0 o.desc c
      ((d.work n flips).attention n o.desc c.seed c.step o.tiles (aUnits o.desc))).opDone n 6 o) := by
  simp [Dev.attnDone, Dev.running_eq hlive hc hs ho hop, hpage, hfault, hwait]

/-- An ATTENTION that meets a rejected page entry fails its work and frees its unit (R187). -/
theorem Dev.attnDone_fault {b l : Nat} (hfault : (d.work n flips).unitsFault o.desc o.tiles (aUnits o.desc) = some (b, l)) :
    d.attnDone n flips = some ((d.failWork c stBadParam (workFault (dId o.desc) (n / 48) 0 0 b l 2)).updCore n
      (fun k => { k with ctx := k.ctx.map (fun c => c.setOp 6 none) })) := by
  simp [Dev.attnDone, Dev.running_eq hlive hc hs ho hop, hpage, hfault]

/-- An ATTENTION waits for a PENDING page (R189). -/
theorem Dev.attnDone_wait (hfault : (d.work n flips).unitsFault o.desc o.tiles (aUnits o.desc) = none)
    (hwait : (d.work n flips).unitsWait o.desc o.tiles (aUnits o.desc) = true) : d.attnDone n flips = none := by
  simp [Dev.attnDone, Dev.running_eq hlive hc hs ho hop, hpage, hfault, hwait]

end
end

/-- The device after a work failure of a training step whose unit `u` is then free. -/
theorem Dev.failWork_frees (hc : (d.core n).ctx = some c) (hl : c.live = false) {r : StepRun}
    (hr : (d.plan c.plan).run_ c.second = some r) (hok : r.bad = 0) (st entry : Nat) (t : Dev)
    (ht : t = (d.failWork c st entry).updCore n (fun k => { k with ctx := k.ctx.map (fun c => c.setOp u none) })) :
    t.mem = d.mem ∧ t.core n = { d.core n with ctx := some { c with ops := Tab.set none c.ops u none } } ∧
      (t.plan c.plan).run_ c.second = some { r with bad := st, faultAt := 0, workFault := entry, noUpdate := true, halting := true } := by
  have hrun := d.failWork_run c st entry hl
  obtain ⟨cad, plans, hf⟩ := d.failWork_frame c st entry
  have hcore : (d.failWork c st entry).core n = d.core n := by rw [hf]; rfl
  subst ht
  refine ⟨by rw [hf]; rfl, ?_, ?_⟩
  · rw [Dev.core_updCore, if_pos rfl, hcore, hc]; rfl
  · rw [hr] at hrun
    exact hrun.trans (by simp [StepRun.fail, hok])

/-! ## Stop points (R88) -/

section
variable {tiles : Nat} (hlive : d.coreLive n = true) (hc : (d.core n).ctx = some c) (hstop : d.mustStop n c = true)
include hlive hc hstop

section
variable (he : e < 4) (hidle : c.op 6 = none) (ho : c.op e = some o)
include he hidle ho

/-- An engine stops at a stop point past the tiles completed before. -/
theorem Dev.stopAt_engine (hs : o.stopped = false) (hok : stopAtOk o.desc tiles = true) (hlt : o.tiles < tiles) :
    d.stopAt_ n e tiles flips = some (((d.absorb n e 0 o.desc c ((d.work n flips).tiles o.desc (4 * n + e)
      ⟨mOutGrad o.desc, c.seed, c.step, mOutSym o.desc⟩ o.tiles tiles)).updCore n
        (fun k => { k with ctx := k.ctx.map (fun c => c.setOp e (some { o with tiles := tiles, stopped := true })) })).after n) := by
  have h6 : e ≠ 6 := by omega
  simp [Dev.stopAt_, hlive, hc, hstop, hidle, ho, hs, hok, he, h6, Nat.not_le.2 hlt]

/-- Any other number of tiles is no stop point. -/
theorem Dev.stopAt_engine_none (hno : stopAtOk o.desc tiles = false ∨ tiles ≤ o.tiles) : d.stopAt_ n e tiles flips = none := by
  have h6 : e ≠ 6 := by omega
  obtain hno | hno := hno <;> simp [Dev.stopAt_, hlive, hc, hstop, hidle, ho, h6, hno]

end

/-- An ATTENTION stops between two units whose page entries are intact and present. -/
theorem Dev.stopAt_attention (ho : c.op 6 = some o) (hs : o.stopped = false) (hlt : o.tiles < tiles) (hrest : tiles < aUnits o.desc)
    (hpage : (d.work n flips).unitsBad o.desc o.tiles tiles = none) (hfault : (d.work n flips).unitsFault o.desc o.tiles tiles = none)
    (hwait : (d.work n flips).unitsWait o.desc o.tiles tiles = false) :
    d.stopAt_ n e tiles flips = some (((d.absorb n 0 0 o.desc c ((d.work n flips).attention n o.desc c.seed c.step o.tiles tiles)).updCore n
      (fun k => { k with ctx := k.ctx.map (fun c => c.setOp 6 (some { o with tiles := tiles, stopped := true })) })).after n) := by
  simp [Dev.stopAt_, hlive, hc, hstop, ho, hs, hpage, hfault, hwait, Nat.not_le.2 hlt, Nat.not_le.2 hrest]

end

end

/-- Settles O36: each event's answer is the device that has taken the operation's workspace, by one equation for each meaning and the frame
`Dev.Takes` of `Dev.absorb`, `Dev.opDone` and the stop. -/
theorem computeOperationsComplete : Obligations.ComputeOperationsComplete := by
  intro s n e flips c o w hdead hcp hlive hc hrun hloop hend
  refine ⟨?completion, ?attention, ?engineStop, ?attentionStop⟩
  case completion =>
    intro i u hs ho h
    obtain ⟨t, hexec, ht⟩ : ∃ t, exec i s = .next { s with dev := t } ∧
        s.dev.Takes n c w { c with ops := Tab.set none c.ops u none, events := signal o.desc c.events } t := by
      obtain ⟨he, rfl, hi, rfl⟩ | ⟨rfl, rfl, hop, hfree, rfl⟩ | ⟨rfl, rfl, hop, hpage, hfault, hwait, rfl⟩ := h
      · rw [exec_engineComplete s hi, Dev.engineDone_eq hlive hc hs he ho, eventFlips_some s flips _ hdead hcp]
        exact ⟨_, rfl, (Dev.absorb_takes _ _ _ hc).opDone _ o hrun hloop hend⟩
      · rw [exec_vectorComplete, Dev.vectorDone_eq hlive hc hs ho hop hfree, eventFlips_some s flips _ hdead hcp]
        exact ⟨_, rfl, (Dev.absorb_takes _ _ _ hc).opDone _ o hrun hloop hend⟩
      · rw [exec_attentionComplete, Dev.attnDone_eq hlive hc hs ho hop hpage hfault hwait, eventFlips_some s flips _ hdead hcp]
        exact ⟨_, rfl, (Dev.absorb_takes _ _ _ hc).opDone _ o hrun hloop hend⟩
    exact ⟨_, hexec, rfl, ht.mem, ht.poison, ht.core, ht.other, ht.host, ht.pods, ht.clean, ht.step⟩
  case attention =>
    intro hop ho hs hpage
    refine ⟨fun b l r hfault hl hr hok => ?_, fun hfault hwait => ?_⟩
    · rw [exec_attentionComplete, Dev.attnDone_fault hlive hc hs ho hop hpage hfault, eventFlips_some s flips _ hdead hcp]
      exact ⟨_, rfl, rfl, Dev.failWork_frees hc hl hr hok _ _ _ rfl⟩
    · rw [exec_attentionComplete, Dev.attnDone_wait hlive hc hs ho hop hpage hfault hwait, eventFlips_none s flips hcp]
  case engineStop =>
    intro tiles he hidle ho hs hstop
    refine ⟨fun hok hlt hw => ?_, fun hno => ?_⟩
    · have ht := (Dev.absorb_takes (w := w) e 0 o.desc hc).stopped e { o with tiles := tiles, stopped := true } hrun hloop hend
      rw [exec_stopPointReached, Dev.stopAt_engine hlive hc hstop he hidle ho hs hok hlt, ← hw, eventFlips_some s flips _ hdead hcp]
      exact ⟨_, rfl, rfl, ht.mem, ht.poison, ht.core, ht.other⟩
    · rw [exec_stopPointReached, Dev.stopAt_engine_none hlive hc hstop he hidle ho hno, eventFlips_none s flips hcp]
  case attentionStop =>
    intro tiles ho hs hstop hlt hrest hpage hfault hwait hw
    have ht := (Dev.absorb_takes (w := w) 0 0 o.desc hc).stopped 6 { o with tiles := tiles, stopped := true } hrun hloop hend
    rw [exec_stopPointReached, Dev.stopAt_attention hlive hc hstop ho hs hlt hrest hpage hfault hwait, ← hw,
      eventFlips_some s flips _ hdead hcp]
    exact ⟨_, rfl, rfl, ht.mem, ht.poison, ht.core, ht.other⟩

end Sys2Proof.Machine
end

