-- ==== Sys2Proof/Proofs/SequencerSteps.lean ====
section
/-! SUPPORT. What the steps after a change of a core leave as it is, and what a parity error in a structure and an event of work without
operands of its own do. -/

namespace Sys2Proof.Machine

/-! ## A core that goes on -/

/-- Devices with the same table of cores agree on every core. -/
theorem Dev.core_congr {d e : Dev} (h : d.cores = e.cores) (n : Nat) : d.core n = e.core n := by rw [Dev.core, Dev.core, h]

section
variable {d : Dev} {n : Nat} {c : Ctx}

/-- A body that moves goes on, whatever becomes of its claim. -/
theorem Dev.reap_bodyMoving (hc : (d.core n).ctx = some c) (hbody : c.bodyMoving = true) : d.reap n = d := by
  unfold Dev.reap
  cases hl : c.loop <;> simp [hc, hl, hbody]

/-- A loop that holds no tile has no claim to end. -/
theorem Dev.reap_noTile {l : LoopRun} (hc : (d.core n).ctx = some c) (hl : c.loop = some l) (hidx : l.idx = none) : d.reap n = d := by
  simp [Dev.reap, Dev.loopCancelled, hc, hl, hidx]

/-- A running core comes to no stop where its cluster trains or an operation moves. -/
theorem Dev.tryStop_goesOn (hrun : (d.core n).run = 1) (h : d.clusterHalted n = false ∨ (d.core n).still = false) : d.tryStop n = d := by
  obtain h | h := h <;> simp [Dev.tryStop, hrun, h]

/-- A stream keeps its core before its END, and while operations run. -/
theorem Dev.prune_busy (hc : (d.core n).ctx = some c) (h : c.ended = false ∨ c.idle = false) : d.prune n = d := by
  obtain h | h := h <;> simp [Dev.prune, hc, h]

/-- Nothing follows a change of a running core that has no claim to end, no stop to make and no END to leave by. -/
theorem Dev.after_goesOn (hc : (d.core n).ctx = some c) (hrun : (d.core n).run = 1) (hreap : d.reap n = d)
    (hstop : d.clusterHalted n = false ∨ (d.core n).still = false) (hend : c.ended = false ∨ c.idle = false) : d.after n = d := by
  rw [Dev.after, hreap, Dev.tryStop_goesOn hrun hstop, Dev.prune_busy hc hend]

/-- A body that moves is no core at rest. -/
theorem Core.still_bodyMoving {k : Core} (hc : k.ctx = some c) (hbody : c.bodyMoving = true) : k.still = false := by
  have hmoving : c.moving = true := by
    simp only [Ctx.bodyMoving, Ctx.moving, List.any_eq_true] at hbody ⊢
    obtain ⟨⟨u, o⟩, hmem, ho⟩ := hbody
    refine ⟨(u, o), hmem, ?_⟩
    cases o with
    | none => exact ho
    | some o => exact (Bool.and_eq_true _ _ ▸ ho : o.body = true ∧ (!o.stopped) = true).2
  simp [Core.still, hc, hmoving]

end

/-! ## Parity errors in structures (R143) -/

/-- One parity error in a unit's own read changes the counters, the fault log and the trace alone. -/
theorem Dev.noteFault_frame (d : Dev) (inst unit die descId : Nat) (cmd : Option Cmd) (a : Nat) :
    ∃ ctr plat o, d.noteFault inst unit die descId cmd a = { d with ctr := ctr, plat := plat, obs := o } := by
  obtain ⟨o, ctr, h⟩ := Dev.traceFaults_frame
    { d with ctr := bump d.ctr inst 0x1A 1, plat := d.plat.logReads unit die descId cmd [a] } unit die descId cmd [a]
  exact ⟨ctr, _, o, h⟩

/-- A change of a live task leaves the plans as they are. -/
@[simp] theorem Dev.updTask_plan (d : Dev) (n h : Nat) (f : Task → Task) : (d.updTask n f).plan h = d.plan h := rfl

/-- A plan whose structures met a parity error is no longer valid. -/
theorem Dev.breakPlan_invalid (d : Dev) (c : Ctx) : ((d.breakPlan c).plan c.plan).valid = false := by
  unfold Dev.breakPlan Dev.failWork
  cases c.live
  · cases c.second <;> simp [Dev.updRun, Plan.updRun]
  · simp

/-- A parity error in a structure leaves memory, cores and pods as they are, and the plan invalid. -/
theorem Dev.structFault_invalid (d : Dev) (n : Nat) (c : Ctx) (unit a : Nat) :
    (d.structFault n c unit a).mem = d.mem ∧ (d.structFault n c unit a).cores = d.cores ∧
      ((d.structFault n c unit a).plan c.plan).valid = false := by
  unfold Dev.structFault
  obtain ⟨ctr, plat, o, hnote⟩ := d.noteFault_frame (if unit = 2 then coreInst n else podInst (n / 48)) unit (n / 48) 0 (d.workCmd c) a
  refine ⟨?_, ?_, Dev.breakPlan_invalid _ c⟩ <;> rw [hnote, Dev.breakPlan]
  all_goals
    obtain ⟨cad, plans, hfail⟩ := Dev.failWork_frame
      (Dev.updPlan { d with ctr := ctr, plat := plat, obs := o } c.plan (fun p => { p with valid := false })) c stParity 0
    rw [hfail]
    rfl

/-! ## Events that read no flaws -/

/-- While work goes on an event that can take place has its effect. -/
theorem eventOpt_some (s : State) (d : Dev) (hdead : s.dev.pow.dead = false) : eventOpt s (some d) = .next { s with dev := d } := by
  simp [eventOpt, nextDev, hdead]

/-- An event that cannot take place changes nothing. -/
theorem eventOpt_none (s : State) : eventOpt s none = .next s := rfl

end Sys2Proof.Machine
end

