-- ==== Sys2Proof/Proofs/DescriptorIssue.lean ====
section
/-! PROOFS. The issue of a stream's descriptors by DESCRIPTOR_ISSUE (R94 to R98, R107, R108, R143, R187): when it takes place, what each
opcode does, and O35. -/

namespace Sys2Proof.Machine

/-! ## The issue of one descriptor -/

/-- The device after descriptor `x` has issued on core `n`, whose stream goes on as `c`: one more descriptor is counted and traced. -/
def Dev.issued (d : Dev) (n : Nat) (c : Ctx) (x : Nat) : Dev :=
  ((d.updCore n (fun k => { k with ctx := some c })).count (coreInst n) 0x10 1).traceDesc 1 n x

section
variable {d : Dev} {n x sz : Nat} {c : Ctx}

theorem Dev.issued_cores : (d.issued n c x).cores = (d.updCore n (fun k => { k with ctx := some c })).cores := Dev.trace_cores _ _ _ _ _ _ _

theorem Dev.issued_pow : (d.issued n c x).pow = d.pow := Dev.trace_pow _ _ _ _ _ _ _

theorem Dev.issued_core : (d.issued n c x).core n = { d.core n with ctx := some c } := by
  calc (d.issued n c x).core n
    _ = (d.updCore n (fun k => { k with ctx := some c })).core n := Dev.core_congr Dev.issued_cores n
    _ = { d.core n with ctx := some c } := by simp

/-- A stream outside a tile loop goes on after an issue. -/
theorem Dev.issued_after (hrun : (d.core n).run = 1) (hhalt : d.clusterHalted n = false) (hloop : c.loop = none)
    (hend : c.ended = false ∨ c.idle = false) : (d.issued n c x).after n = d.issued n c x := by
  have hc : ((d.issued n c x).core n).ctx = some c := by rw [Dev.issued_core]
  refine Dev.after_goesOn hc (by rw [Dev.issued_core]; exact hrun) (Dev.reap_noLoop _ n c hc hloop) (.inl ?_) hend
  simpa only [Dev.clusterHalted, Dev.issued_pow] using hhalt

/-- A MATMUL or CONV starts on its engine and counts its split panels. -/
theorem Dev.issue_engine (hop : dOp x = 1 ∨ dOp x = 3) : d.issue n c x sz false =
    (d.issued n ((c.advance sz false).setOp (unitOf x) (some { desc := x, size := sz })) x).count
      (engInst (4 * n + unitOf x)) 0x04 (panelSplits x) := by
  obtain hop | hop := hop <;> simp [Dev.issue, Dev.issued, hop]

/-- A VECTOR, COMBINE or MOVE starts on its unit. -/
theorem Dev.issue_unit (hop : dOp x ∈ [2, 5, 7]) : d.issue n c x sz false =
    d.issued n ((c.advance sz false).setOp (unitOf x) (some { desc := x, size := sz })) x := by
  simp only [List.mem_cons, List.not_mem_nil, or_false] at hop
  obtain hop | hop | hop := hop <;> simp [Dev.issue, Dev.issued, hop]

/-- An ATTENTION whose slot records are sound starts on its unit (R187). -/
theorem Dev.issue_attention {w : Wk} (hop : dOp x = 4) (hslot : d.badSlot n x = (none, w)) (hw : w.bad = false) :
    d.issue n c x sz false = d.issued n ((c.advance sz false).setOp 6 (some { desc := x, size := sz })) x := by
  simp [Dev.issue, Dev.issued, hop, hslot, hw]

/-- An ATTENTION with a rejected slot record fails its work instead (R187). -/
theorem Dev.issue_badSlot {w : Wk} {b : Nat} (hop : dOp x = 4) (hslot : d.badSlot n x = (some b, w)) (hw : w.bad = false) :
    d.issue n c x sz false = d.failWork c stBadParam (workFault (dId x) (n / 48) 0 0 b 0 2) := by
  simp [Dev.issue, hop, hslot, hw]

/-- A NOP counts its signal. -/
theorem Dev.issue_nop (hop : dOp x = 0) :
    d.issue n c x sz false = (d.issued n { c.advance sz false with events := signal x c.events } x).after n := by
  simp [Dev.issue, Dev.issued, hop]

/-- END marks the end of the stream. -/
theorem Dev.issue_end (hop : dOp x = 8) :
    d.issue n c x sz false = (d.issued n { c.advance sz false with events := signal x c.events, ended := true } x).after n := by
  simp [Dev.issue, Dev.issued, hop]

/-- A CLAIM enters its tile loop (R108). -/
theorem Dev.issue_claim (hop : dOp x = 6) : d.issue n c x sz false = d.issued n (d.enterLoop n c x sz) x := by
  simp [Dev.issue, Dev.issued, hop]

end

/-- As many descriptors as asked for are laid out. -/
theorem Plan.length_nextDescs (p : Plan) : ∀ (k o : Nat), (p.nextDescs k o).length = k
  | 0, _ => rfl
  | k + 1, _ => congrArg (· + 1) (p.length_nextDescs k _)

/-! ## The event -/

theorem exec_descriptorIssue (n : Nat) (flips : List Nat) (s : State) :
    exec (.descriptorIssue n flips) s = eventFlips s flips (s.dev.issueFrom n flips) := rfl

section
variable {d : Dev} {n x sz : Nat} {flips : List Nat} {c : Ctx} (hc : (d.core n).ctx = some c)
include hc

/-- Nothing issues on a core that has to reach a stop point. -/
theorem Dev.issueFrom_mustStop (hstop : d.mustStop n c = true) : d.issueFrom n flips = none := by
  simp [Dev.issueFrom, Dev.canIssue, hc, hstop]

variable (hlive : d.coreLive n = true) (hstop : d.mustStop n c = false) (hloop : c.loop = none) (hend : c.ended = false)
  (hfetch : d.fetch n c c.pc = (x, sz))
include hlive hstop hloop hend hfetch

/-- The next descriptor of a stream outside a tile loop issues where its waits and its unit allow it (R96 to R98). -/
theorem Dev.canIssue_eq_mayIssue : d.canIssue n = d.mayIssue n c x := by
  simp [Dev.canIssue, Dev.nextDesc, hlive, hc, hstop, hloop, hend, hfetch]

/-- Where it may not, nothing issues. -/
theorem Dev.issueFrom_waits (hmay : d.mayIssue n c x = false) : d.issueFrom n flips = none := by
  simp [Dev.issueFrom, Dev.canIssue_eq_mayIssue hc hlive hstop hloop hend hfetch, hmay]

/-- A parity error in the fetched bytes breaks the plan instead (R143). -/
theorem Dev.issueFrom_flaw {a : Nat} (hmay : d.mayIssue n c x = true) (hflaw : flips.find? (fun a => a < 2 ^ 48) = some a) :
    d.issueFrom n flips = some (d.structFault n c 2 a) := by
  simp only [Dev.issueFrom, Dev.canIssue_eq_mayIssue hc hlive hstop hloop hend hfetch, hmay, hc, hflaw, if_true]

/-- The descriptor issues. -/
theorem Dev.issueFrom_issue (hmay : d.mayIssue n c x = true) (hflaw : flips.find? (fun a => a < 2 ^ 48) = none) :
    d.issueFrom n flips = some (d.issue n c x sz false) := by
  simp only [Dev.issueFrom, Dev.canIssue_eq_mayIssue hc hlive hstop hloop hend hfetch, hmay, hc, hflaw, if_true]
  simp [Dev.issueNext, Dev.nextDesc, hc, hloop, hend, hfetch]

end

/-- The four conditions of an issue. -/
theorem Dev.mayIssue_eq_true {d : Dev} {n x : Nat} {c : Ctx} (hevent : eventWaitDone x c.events = true)
    (hwait : d.loopWaitDone c (n / 48) x = true) (hfree : c.unitFree x = true) (hclaim : c.claimBlocked n x = false) :
    d.mayIssue n c x = true := by
  simp [Dev.mayIssue, hevent, hwait, hfree, hclaim]

/-- One condition that does not hold keeps a descriptor from issuing. -/
theorem Dev.mayIssue_eq_false {d : Dev} {n x : Nat} {c : Ctx} (h : eventWaitDone x c.events = false ∨
    d.loopWaitDone c (n / 48) x = false ∨ c.unitFree x = false ∨ c.claimBlocked n x = true) : d.mayIssue n c x = false := by
  obtain h | h | h | h := h <;> simp [Dev.mayIssue, h]

/-- Settles O35: the event is one equation for each of its conditions, and the issue one for each opcode; what follows a NOP and an END on a
core whose cluster trains changes nothing. -/
theorem descriptorsIssueInOrder : Obligations.DescriptorsIssueInOrder := by
  intro s n x sz flips c hcp hdead hc hlive
  refine ⟨fun hstop => ?_, fun hrun hstop hloop hend hfetch => ⟨fun hno => ?_, fun hevent hwait hfree hclaim => ?_⟩⟩
  · rw [exec_descriptorIssue, Dev.issueFrom_mustStop hc hstop, eventFlips_none s flips hcp]
  · rw [exec_descriptorIssue, Dev.issueFrom_waits hc hlive hstop hloop hend hfetch (Dev.mayIssue_eq_false hno), eventFlips_none s flips hcp]
  have hmay := Dev.mayIssue_eq_true hevent hwait hfree hclaim
  refine ⟨fun a hflaw => ?_, fun hflaw => ?_⟩
  · rw [exec_descriptorIssue, Dev.issueFrom_flaw hc hlive hstop hloop hend hfetch hmay hflaw, eventFlips_some s flips _ hdead hcp]
    obtain ⟨hmem, hcores, hvalid⟩ := s.dev.structFault_invalid n c 2 a
    exact ⟨_, rfl, rfl, hcores, hmem, hvalid⟩
  have hexec : exec (.descriptorIssue n flips) s = .next { s with dev := s.dev.issue n c x sz false } := by
    rw [exec_descriptorIssue, Dev.issueFrom_issue hc hlive hstop hloop hend hfetch hmay hflaw, eventFlips_some s flips _ hdead hcp]
  rw [hexec]
  refine ⟨fun hop => ?engine, fun hop => ?unit, fun w hop hslot hw => ?attention, fun b w r hop hslot hw hl hr hok => ?badSlot,
    fun hop hhalt => ?nop, fun hop hhalt hidle => ?stop, fun hop => ?claim⟩
  case engine => rw [Dev.issue_engine hop]; rfl
  case unit => rw [Dev.issue_unit hop]; rfl
  case attention => rw [Dev.issue_attention hop hslot hw]; rfl
  case badSlot =>
    rw [Dev.issue_badSlot hop hslot hw]
    have hrun := s.dev.failWork_run c stBadParam (workFault (dId x) (n / 48) 0 0 b 0 2) hl
    obtain ⟨cad, plans, hfail⟩ := s.dev.failWork_frame c stBadParam (workFault (dId x) (n / 48) 0 0 b 0 2)
    refine ⟨_, rfl, rfl, ?_, ?_, ?_, hrun.trans (by simp [hr, StepRun.fail, hok])⟩ <;> rw [hfail]
  case nop =>
    rw [Dev.issue_nop hop, Dev.issued_after (c := { c.advance sz false with events := signal x c.events }) hrun hhalt hloop (.inl hend)]
    rfl
  case stop =>
    rw [Dev.issue_end hop, Dev.issued_after (c := { c.advance sz false with events := signal x c.events, ended := true }) hrun hhalt hloop
      (.inr hidle)]
    rfl
  case claim =>
    rw [Dev.issue_claim hop]
    exact ⟨_, by rw [List.length_map, Plan.length_nextDescs], rfl⟩

end Sys2Proof.Machine
end

