-- ==== Sys2Proof/Proofs/TileCounters.lean ====
section
/-! SUPPORT. The rules of a pod's tile counters (R111 to R116): what a counter reads as after each change of the device, and the end of a
claim. -/

namespace Sys2Proof.Machine

/-! ## Reading a counter and a core -/

/-- Devices with the same pods agree on every tile counter. -/
theorem Dev.ctr_congr {d e : Dev} (h : d.pods = e.pods) (p k : Nat) : d.ctr_ p k = e.ctr_ p k := by
  simp only [Dev.ctr_, Dev.pod, h]

/-- What counters read as after one of them is changed. -/
@[simp] theorem Dev.ctr_updCtr (d : Dev) (pod ctr p k : Nat) (f : TileCtr → TileCtr) :
    (d.updCtr pod ctr f).ctr_ p k = if p = pod ∧ k = ctr then f (d.ctr_ pod ctr) else d.ctr_ p k := by
  unfold Dev.ctr_ Dev.updCtr
  rw [Dev.pod_updPod]
  by_cases hp : p = pod
  · simp [hp, Tab.get_upd]
  · simp [hp]

/-- A change of a pod that keeps its counters. -/
theorem Dev.ctr_updPod (d : Dev) (pod p k : Nat) (f : Pod → Pod) (hf : ∀ x, (f x).ctrs = x.ctrs) :
    (d.updPod pod f).ctr_ p k = d.ctr_ p k := by
  unfold Dev.ctr_
  rw [Dev.pod_updPod]
  by_cases hp : p = pod
  · simp [hp, hf]
  · simp [hp]

/-- Two changes of a counter are one where they agree on it. -/
theorem Dev.updCtr_congr (d : Dev) (pod ctr : Nat) {f g : TileCtr → TileCtr} (h : f (d.ctr_ pod ctr) = g (d.ctr_ pod ctr)) :
    d.updCtr pod ctr f = d.updCtr pod ctr g := by
  have hpod : (fun x : Pod => { x with ctrs := Tab.upd {} x.ctrs ctr f }) (d.pod pod) =
      (fun x : Pod => { x with ctrs := Tab.upd {} x.ctrs ctr g }) (d.pod pod) :=
    congrArg (fun t => { d.pod pod with ctrs := Tab.set {} (d.pod pod).ctrs ctr t }) h
  exact congrArg (fun x => { d with pods := Tab.set {} d.pods pod x }) hpod

/-- Two changes of a core are one where they agree on it. -/
theorem Dev.updCore_congr (d : Dev) (n : Nat) {f g : Core → Core} (h : f (d.core n) = g (d.core n)) : d.updCore n f = d.updCore n g :=
  congrArg (fun x => { d with cores := Tab.set {} d.cores n x }) h

/-- A change of a counter changes the pods alone. -/
theorem Dev.updCtr_frame (d : Dev) (pod ctr : Nat) (f : TileCtr → TileCtr) : ∃ pods, d.updCtr pod ctr f = { d with pods := pods } := ⟨_, rfl⟩

/-- A tile's trace record changes the records, the buffers and the counters alone. -/
theorem Dev.traceTile_obs (d : Dev) (type n ctr idx epoch accepted : Nat) :
    ∃ o c, d.traceTile type n ctr idx epoch accepted = { d with obs := o, ctr := c } := Dev.trace_obs _ _ _ _ _ _ _

@[simp] theorem Dev.traceTile_mem (d : Dev) (type n ctr idx epoch accepted : Nat) : (d.traceTile type n ctr idx epoch accepted).mem = d.mem :=
  Dev.trace_mem _ _ _ _ _ _ _
@[simp] theorem Dev.traceTile_cores (d : Dev) (type n ctr idx epoch accepted : Nat) :
    (d.traceTile type n ctr idx epoch accepted).cores = d.cores := Dev.trace_cores _ _ _ _ _ _ _
@[simp] theorem Dev.traceTile_pow (d : Dev) (type n ctr idx epoch accepted : Nat) : (d.traceTile type n ctr idx epoch accepted).pow = d.pow :=
  Dev.trace_pow _ _ _ _ _ _ _
@[simp] theorem Dev.traceTile_pods (d : Dev) (type n ctr idx epoch accepted : Nat) : (d.traceTile type n ctr idx epoch accepted).pods = d.pods :=
  Dev.trace_pods _ _ _ _ _ _ _

/-- The measured costs of a pod are beside its counters. -/
theorem Pod.addCost_ctrs (x : Pod) (earlier : Bool) (branch ns : Nat) : (x.addCost earlier branch ns).ctrs = x.ctrs := by
  unfold Pod.addCost
  split <;> rfl

/-! ## Counters of events -/

/-- One counter is raised, modulo 2^64 (R515). -/
theorem ctrVal_bump (c : Tab Nat) (inst kind n : Nat) : ctrVal (bump c inst kind n) inst kind = (ctrVal c inst kind + n) % 2 ^ 64 :=
  Tab.get_set_same 0 _ c _

/-- The others stay. -/
theorem ctrVal_bump_other (c : Tab Nat) (inst kind n i k : Nat) (h : i * 256 + k ≠ inst * 256 + kind) :
    ctrVal (bump c inst kind n) i k = ctrVal c i k := Tab.get_set_other 0 _ c _ _ h

/-- A dropped trace record raises TRACE_DROP alone (R526). -/
theorem Dev.dropRec_ctrVal (d : Dev) (bs : List Nat) (i k : Nat) (h : i * 256 + k ≠ cobInst * 256 + 0x78) :
    ctrVal (d.dropRec bs).ctr i k = ctrVal d.ctr i k :=
  foldl_keeps (fun e : Dev => ctrVal e.ctr i k = ctrVal d.ctr i k) Dev.dropFor (fun _ _ he => he) bs (d.count cobInst 0x78 1)
    (ctrVal_bump_other d.ctr cobInst 0x78 1 i k h)

/-- A trace record raises no counter but TRACE_DROP. -/
theorem Dev.trace_ctrVal (d : Dev) (type die unit id arg0 arg1 i k : Nat) (h : i * 256 + k ≠ cobInst * 256 + 0x78) :
    ctrVal (d.trace type die unit id arg0 arg1).ctr i k = ctrVal d.ctr i k := by
  unfold Dev.trace
  split
  · rfl
  · split
    · exact d.dropRec_ctrVal _ i k h
    · rfl

theorem Dev.traceTile_ctrVal (d : Dev) (type n ctr idx epoch accepted i k : Nat) (h : i * 256 + k ≠ cobInst * 256 + 0x78) :
    ctrVal (d.traceTile type n ctr idx epoch accepted).ctr i k = ctrVal d.ctr i k := Dev.trace_ctrVal _ _ _ _ _ _ _ i k h

/-! ## The end of a claim (R113, R116) -/

/-- Pages on their way leave the counters as they are. -/
theorem Dev.sendPages_ctr (d : Dev) (c : Ctx) (pod ctr seq p k : Nat) : (d.sendPages c pod ctr seq).ctr_ p k = d.ctr_ p k := by
  unfold Dev.sendPages
  split
  · rfl
  · exact Dev.ctr_updPod _ _ _ _ _ (fun _ => rfl)

/-- The end of a claim changes the pods alone. -/
theorem Dev.endClaim_frame (d : Dev) (c : Ctx) (n ctr : Nat) : ∃ pods, d.endClaim c n ctr = { d with pods := pods } := by
  unfold Dev.endClaim Dev.sendPages
  dsimp only
  split
  · split <;> exact ⟨_, rfl⟩
  · exact ⟨_, rfl⟩

/-- The counter after the end of a claim: it has lost the claim, and it is DONE where nothing is left. -/
theorem Dev.endClaim_ctr (d : Dev) (c : Ctx) (n ctr : Nat) :
    ∃ at_, (d.endClaim c n ctr).ctr_ (n / 48) ctr = { (d.ctr_ (n / 48) ctr).endClaim n with doneAt := at_ } := by
  unfold Dev.endClaim
  dsimp only
  split
  · rw [Dev.sendPages_ctr, Dev.ctr_updCtr, if_pos ⟨rfl, rfl⟩]
    exact ⟨_, rfl⟩
  · rw [Dev.ctr_updCtr, if_pos ⟨rfl, rfl⟩]
    exact ⟨_, rfl⟩

/-! ## The answers of a counter to a claim (R112) -/

/-- A loop sequence number does not come after itself. -/
theorem after16_self (a : Nat) : after16 a a = false := by
  have h : (a + 65536 - a % 65536) % 65536 = 0 := by omega
  simp [after16, h]

/-- VALID = 0: the counter is past the loop, IDLE or DONE, has nothing left to issue, or masks the core's cluster. -/
theorem TileCtr.offer_eq_none (k : TileCtr) (n seq : Nat)
    (h : k.seq ≠ seq ∨ k.st = 0 ∨ k.st = 3 ∨ (k.st = 2 ∧ k.queue = []) ∨ k.mask.testBit (n % 48 / 4) = false) : k.offer n seq = none := by
  obtain h | h | h | ⟨hst, hq⟩ | h := h
  · simp [TileCtr.offer, h]
  · simp [TileCtr.offer, h]
  · simp [TileCtr.offer, h]
  · simp [TileCtr.offer, hst, hq]
  · simp [TileCtr.offer, bit, h]

section
variable {k : TileCtr} {n seq i e : Nat} (hidx : (k.st = 1 ∧ k.queue = [] ∧ (i, e) = (k.next, 0)) ∨
  ((k.st = 1 ∨ k.st = 2) ∧ k.queue.head? = some (i, e)))
include hidx

/-- The counter offers the oldest entry of its reissue queue, or else NEXT. -/
theorem TileCtr.offer_eq_some (hseq : k.seq = seq) (hmask : k.mask.testBit (n % 48 / 4) = true) : k.offer n seq = some (i, e) := by
  obtain ⟨hst, hq, hnext⟩ | ⟨hst, hq⟩ := hidx
  · simp [TileCtr.offer, bit, hseq, hmask, hst, hq, hnext]
  · obtain ⟨tl, hq⟩ := List.head?_eq_some_iff.1 hq
    obtain hst | hst := hst <;> simp [TileCtr.offer, bit, hseq, hmask, hst, hq]

/-- What the counter holds once it has given that index. -/
theorem TileCtr.give_eq (now : Nat) : k.give n now i e = { k with
    claims := k.claims ++ [{ core := n, idx := i, epoch := e, seq := k.seq, claimedAt := now }]
    queue := k.queue.tail
    next := if k.queue = [] then k.next + 1 else k.next
    st := if k.queue = [] ∧ k.next + 1 = k.limit then 2 else k.st
    epochs := Tab.set 0 k.epochs i e } := by
  obtain ⟨hst, hq, -⟩ | ⟨-, hq⟩ := hidx
  · simp [TileCtr.give, hst, hq]
  · obtain ⟨tl, hq⟩ := List.head?_eq_some_iff.1 hq
    simp [TileCtr.give, hq]

end

end Sys2Proof.Machine
end

