-- ==== Sys2Proof/Proofs/TileLoops.lean ====
section
/-! PROOFS. The events of the pods' tile counters (R110 to R116, R143, R560): COUNTER_ARM, TILE_CLAIM, TILE_COMPLETION and REISSUE_TIMEOUT, what
each answers, and O38. -/

namespace Sys2Proof.Machine

/-! ## COUNTER_ARM (R111, R560) -/

theorem exec_counterArm (pod ctr : Nat) (s : State) : exec (.counterArm pod ctr) s = eventOpt s (s.dev.arm pod ctr) := rfl

/-- An ARMED or DRAINING counter is not armed. -/
theorem Dev.arm_inUse (d : Dev) (pod ctr : Nat) (h : (d.ctr_ pod ctr).st = 1 ∨ (d.ctr_ pod ctr).st = 2) : d.arm pod ctr = none := by
  obtain h | h := h <;> simp [Dev.arm, h]

/-- The one element of a list at which a function into an option has a value gives the first value. -/
theorem findSome?_of_unique {α β : Type} {f : α → Option β} {l : List α} {a : α} {b : β} (ha : a ∈ l) (hb : f a = some b)
    (hrest : ∀ x ∈ l, x ≠ a → f x = none) : l.findSome? f = some b := by
  cases hfind : l.findSome? f with
  | none => exact absurd (List.findSome?_eq_none_iff.1 hfind a ha) (by simp [hb])
  | some b' =>
    obtain ⟨x, hx, hfx⟩ := List.exists_of_findSome?_eq_some hfind
    have hxa : x = a := by
      by_contra hne
      simp [hrest x hx hne] at hfx
    rw [← hfx, hxa, hb]

section
variable {d : Dev} {pod ctr h : Nat} {second : Bool} {r : StepRun} {l : LoopDecl} (hr : (d.plan h).run_ second = some r)
include hr

/-- A training step may arm its next loop where it does not halt, the fences are open, and no batch and no dump is to wait for. -/
theorem Dev.armable_step (hl : ((d.plan h).loopsOn pod ctr)[Tab.get 0 r.armed (64 * pod + ctr)]? = some l) (hhalt : r.halting = false)
    (hbatch : r.batch = none) (hdumps : d.obs.dumps = []) (hfence : ∀ y ∈ (d.plan h).marked l, r.step ≤ Tab.get 0 (d.pod pod).fence y) :
    d.armable pod ctr (.step h second) = some l := by
  have hheld : d.workHeld pod ctr (.step h second) = false := by simp [Dev.workHeld, Dev.loopHeld, hr, hdumps]
  simpa [Dev.armable, hheld, Dev.nextLoop, hr, hl, hhalt, hbatch] using hfence

/-- The device once a counter is armed for a training step: the scoreboard wiped, the counter with the loop's fields, the step's own count of
loops. -/
theorem Dev.armFor_step : d.armFor pod ctr (.step h second) l =
    (({ d with mem := wipeRange d.mem l.sbBase (ceilDiv l.limit 8), poison := wipeBad d.poison l.sbBase (ceilDiv l.limit 8) } : Dev).updCtr pod ctr
      (fun t => t.arm l (Tab.get 0 r.masks (64 * pod + ctr)) false)).updRun h second
        (fun r => { r with armed := Tab.upd 0 r.armed (64 * pod + ctr) (· + 1) }) := by
  have hr' : (Dev.plan { d with mem := wipeRange d.mem l.sbBase (ceilDiv l.limit 8), poison := wipeBad d.poison l.sbBase (ceilDiv l.limit 8) } h).run_
      second = some r := hr
  simp only [Dev.armFor, hr']

end

/-- A counter that is free takes the loop of the one work that may arm it. -/
theorem Dev.arm_unique {d : Dev} {pod ctr : Nat} {w : Work} {l : LoopDecl} (hpod : pod ≤ 3) (hctr : ctr ≤ 63) (h1 : (d.ctr_ pod ctr).st ≠ 1)
    (h2 : (d.ctr_ pod ctr).st ≠ 2) (hw : w ∈ d.works) (hl : d.armable pod ctr w = some l)
    (hrest : ∀ v ∈ d.works, v ≠ w → d.armable pod ctr v = none) :
    d.arm pod ctr = some (d.armFor pod ctr w l) := by
  have hfind : d.works.findSome? (fun v => (d.armable pod ctr v).map (fun l => d.armFor pod ctr v l)) = some (d.armFor pod ctr w l) :=
    findSome?_of_unique hw (by simp [hl]) (fun v hv hne => by simp [hrest v hv hne])
  simp [Dev.arm, Nat.not_lt.2 hpod, Nat.not_lt.2 hctr, h1, h2, hfind]

/-! ## TILE_CLAIM (R110, R112) -/

theorem exec_tileClaim (n : Nat) (s : State) : exec (.tileClaim n) s = eventOpt s (s.dev.claim n) := rfl

section
variable {d : Dev} {n : Nat} {c : Ctx} {l : LoopRun} (hlive : d.coreLive n = true) (hc : (d.core n).ctx = some c) (hrun : (d.core n).run = 1)
include hlive hc hrun

/-- The stream of a running core has it and may act. -/
theorem Dev.coreCtx_running : d.coreCtx n = some c := by simp [Dev.coreCtx, hlive, hc, hrun]

section
variable (hl : c.loop = some l)
include hl

/-- The claim waits while the loop is not armed. -/
theorem Dev.claim_waits (hafter : after16 l.seq (d.ctr_ (n / 48) (clCtr l.desc)).seq = true) : d.claim n = none := by
  simp [Dev.claim, Dev.coreCtx_running hlive hc hrun, hl, hafter]

variable (hwait : l.waitClaim = true) (hstop : d.mustStop n c = false)
  (hafter : after16 l.seq (d.ctr_ (n / 48) (clCtr l.desc)).seq = false)
include hwait hstop hafter

/-- Without an offer the core leaves its loop. -/
theorem Dev.claim_leaves (hoffer : (d.ctr_ (n / 48) (clCtr l.desc)).offer n l.seq = none) :
    d.claim n = some ((d.updCore n (fun k => { k with ctx := some (c.leaveLoop l) })).after n) := by
  simp [Dev.claim, Dev.coreCtx_running hlive hc hrun, hl, hwait, hstop, hafter, hoffer]

/-- An offered tile is taken. -/
theorem Dev.claim_takes {i e : Nat} (hoffer : (d.ctr_ (n / 48) (clCtr l.desc)).offer n l.seq = some (i, e)) :
    d.claim n = some (d.takeTile n c l i e) := by
  simp [Dev.claim, Dev.coreCtx_running hlive hc hrun, hl, hwait, hstop, hafter, hoffer]

end

end

/-- Nothing follows the leave of a loop on a core whose cluster trains. -/
theorem Dev.leaveLoop_after {d : Dev} {n : Nat} {c : Ctx} {l : LoopRun} (hrun : (d.core n).run = 1) (hend : c.ended = false)
    (hhalt : d.clusterHalted n = false) :
    (d.updCore n (fun k => { k with ctx := some (c.leaveLoop l) })).after n = d.updCore n (fun k => { k with ctx := some (c.leaveLoop l) }) := by
  have hc' : ((d.updCore n (fun k => { k with ctx := some (c.leaveLoop l) })).core n).ctx = some (c.leaveLoop l) := by simp
  exact Dev.after_goesOn hc' (by simpa using hrun) (Dev.reap_noLoop _ n _ hc' rfl) (.inl hhalt) (.inl hend)

section
variable {d : Dev} {n i e : Nat} {c : Ctx} {l : LoopRun}

/-- A core that holds a tile has read its record, and its body starts (R108). -/
theorem Dev.takeTile_clean (hbad : anyBad d.poison (clTable l.desc + 128 * i) 128 = false) (hpad : (d.ctr_ (n / 48) (clCtr l.desc)).padSkip = false) :
    d.takeTile n c l i e = ((d.updCtr (n / 48) (clCtr l.desc) (fun t => t.give n d.plat.now i e)).traceTile 3 n (clCtr l.desc) i e 0).updCore n
      (fun k => { k with ctx := some { c with loop := some { l with
        idx := some i, epoch := e, record := rdNat d.mem (clTable l.desc + 128 * i) 128, at_ := 0, padC := none, waitClaim := false } } }) := by
  obtain ⟨o, cs, ht⟩ := (d.updCtr (n / 48) (clCtr l.desc) (fun t => t.give n d.plat.now i e)).traceTile_obs 3 n (clCtr l.desc) i e 0
  obtain ⟨pods, hu⟩ := d.updCtr_frame (n / 48) (clCtr l.desc) (fun t => t.give n d.plat.now i e)
  unfold Dev.takeTile
  dsimp only
  rw [ht, hu]
  simp [hbad, hpad]

/-- A tile record that carries a parity error breaks the plan (R143). -/
theorem Dev.takeTile_flaw (hbad : anyBad d.poison (clTable l.desc + 128 * i) 128 = true) :
    (d.takeTile n c l i e).mem = d.mem ∧ (d.takeTile n c l i e).cores = d.cores ∧ ((d.takeTile n c l i e).plan c.plan).valid = false := by
  obtain ⟨o, cs, ht⟩ := (d.updCtr (n / 48) (clCtr l.desc) (fun t => t.give n d.plat.now i e)).traceTile_obs 3 n (clCtr l.desc) i e 0
  obtain ⟨pods, hu⟩ := d.updCtr_frame (n / 48) (clCtr l.desc) (fun t => t.give n d.plat.now i e)
  unfold Dev.takeTile
  dsimp only
  rw [ht, hu, if_pos hbad]
  generalize hd1 : ({ d with pods := pods, obs := o, ctr := cs } : Dev) = d1
  obtain ⟨pods', hend⟩ := (d1.structFault n c 3 (clTable l.desc + 128 * i)).endClaim_frame c n (clCtr l.desc)
  obtain ⟨hmem, hcores, hvalid⟩ := d1.structFault_invalid n c 3 (clTable l.desc + 128 * i)
  rw [hend]
  exact ⟨hmem.trans (by rw [← hd1]), hcores.trans (by rw [← hd1]), hvalid⟩

end

/-! ## TILE_COMPLETION (R113, R116) -/

theorem exec_tileCompletion (n : Nat) (s : State) : exec (.tileCompletion n) s = eventOpt s (s.dev.tileDone n) := rfl

/-- The loop of a core that waits for its next claim. -/
def LoopRun.waiting (l : LoopRun) : LoopRun := { l with idx := none, at_ := 0, waitClaim := true, padC := none, record := 0 }

/-- Core `n`, whose cluster trains, runs stream `c` in loop `l` and has done the body of tile `i`, with all writes arrived. -/
structure Dev.BodyDone (d : Dev) (n : Nat) (c : Ctx) (l : LoopRun) (i : Nat) : Prop where
  live : d.coreLive n = true
  ctx : (d.core n).ctx = some c
  run : (d.core n).run = 1
  notEnded : c.ended = false
  trains : d.clusterHalted n = false
  loop : c.loop = some l
  tile : l.idx = some i
  issued : l.body.length ≤ l.at_
  idle : ∀ x ∈ c.ops, ∀ o, x.2 = some o → o.body = false
  arrived : c.arrivals = []

section
variable {d : Dev} {n i : Nat} {c : Ctx} {l : LoopRun}

/-- A body that is done completes its tile (R110). -/
theorem Dev.BodyDone.tileDone_eq (h : d.BodyDone n c l i) : d.tileDone n = some ((d.complete n c (clCtr l.desc) i).nextClaim n) := by
  simp only [Dev.tileDone, Dev.coreCtx_running h.live h.ctx h.run, h.loop, h.tile, h.arrived]
  simp only [Nat.not_lt.2 h.issued, decide_false, Bool.false_or, bne_self_eq_false, Bool.or_false, ite_eq_right_iff, reduceCtorEq, imp_false,
    Bool.not_eq_true, List.any_eq_false]
  rintro ⟨u, _ | o⟩ hmem
  · rfl
  · exact h.idle _ hmem o rfl

/-- A running core whose cluster trains waits for its next claim, and nothing else follows. -/
theorem Dev.nextClaim_eq (hc : (d.core n).ctx = some c) (hrun : (d.core n).run = 1) (hl : c.loop = some l) (hend : c.ended = false)
    (hhalt : d.clusterHalted n = false) :
    d.nextClaim n = d.updCore n (fun k => { k with ctx := some { c with loop := some l.waiting } }) := by
  have hwait : d.updCore n (fun k => { k with ctx := k.ctx.map (fun c => { c with loop := c.loop.map LoopRun.waiting }) }) =
      d.updCore n (fun k => { k with ctx := some { c with loop := some l.waiting } }) := d.updCore_congr n (by simp [hc, hl])
  have hc' : ((d.updCore n (fun k => { k with ctx := some { c with loop := some l.waiting } })).core n).ctx =
      some { c with loop := some l.waiting } := by simp
  calc d.nextClaim n
    _ = (d.updCore n (fun k => { k with ctx := some { c with loop := some l.waiting } })).after n := congrArg (·.after n) hwait
    _ = _ := Dev.after_goesOn hc' (by simpa using hrun) (Dev.reap_noTile hc' rfl rfl) (.inl hhalt) (.inl hend)

/-- A completion that leaves the cores and the power unit as they are ends with the core waiting for its next claim. -/
theorem Dev.BodyDone.nextClaim_eq (h : d.BodyDone n c l i) {e : Dev} (hcores : e.cores = d.cores) (hpow : e.pow = d.pow) :
    e.nextClaim n = e.updCore n (fun k => { k with ctx := some { c with loop := some l.waiting } }) ∧
      (e.nextClaim n).core n = { d.core n with ctx := some { c with loop := some l.waiting } } := by
  have hcore := Dev.core_congr hcores n
  have hhalt : e.clusterHalted n = false := by simpa only [Dev.clusterHalted, hpow] using h.trains
  have hnext := Dev.nextClaim_eq (d := e) (by rw [hcore, h.ctx]) (by rw [hcore, h.run]) h.loop h.notEnded hhalt
  refine ⟨hnext, ?_⟩
  rw [hnext, Dev.core_updCore, if_pos rfl, hcore]

end

/-- A counter that has accepted tile `i` from core `n`: the other claims of the index are cancelled, and no reissue of it waits. -/
def TileCtr.accept (k : TileCtr) (n i : Nat) : TileCtr := { k.cancelOthers n i with accepted := k.accepted + 1 }

/-- The claims that remain after the accepted one has ended. -/
theorem TileCtr.accept_endClaim_claims (k : TileCtr) (n i : Nat) : ((k.accept n i).endClaim n).claims =
    (k.claims.filter (fun x => x.core != n)).map (fun x => if x.idx = i then { x with cancelled := true } else x) := by
  have hcore : ∀ x : Claim, (if x.core != n && x.idx == i then { x with cancelled := true } else x).core = x.core :=
    fun x => by split <;> rfl
  simp only [TileCtr.endClaim, TileCtr.accept, TileCtr.cancelOthers, List.filter_map, Function.comp_def, hcore]
  refine List.map_congr_left (fun x hx => ?_)
  have hne : (x.core != n) = true := (List.mem_filter.1 hx).2
  simp [hne]

/-- A cancelled claim that remains was cancelled before or is one of the accepted index. -/
theorem TileCtr.accept_endClaim_cancelled {k : TileCtr} {n i : Nat} {x : Claim} (hx : x ∈ ((k.accept n i).endClaim n).claims)
    (hcancelled : x.cancelled = true) : ∃ y ∈ k.claims, y.core = x.core ∧ y.core ≠ n ∧ (y.cancelled = true ∨ y.idx = i) := by
  rw [TileCtr.accept_endClaim_claims] at hx
  obtain ⟨y, hy, rfl⟩ := List.mem_map.1 hx
  obtain ⟨hy, hne⟩ := List.mem_filter.1 hy
  refine ⟨y, hy, by split <;> rfl, by simpa using hne, ?_⟩
  by_cases hi : y.idx = i
  · exact .inr hi
  · exact .inl (by rwa [if_neg hi] at hcancelled)

/-- The counter is DONE once all LIMIT tiles are accepted and no claim runs (R116). -/
theorem TileCtr.accept_endClaim_st (k : TileCtr) (n i : Nat) (hst : k.st = 1 ∨ k.st = 2) : ((k.accept n i).endClaim n).st =
    if k.accepted + 1 = k.limit ∧ k.claims.filter (fun x => x.core != n) = [] then 3 else k.st := by
  have hst' : ((k.accept n i).endClaim n).st =
      if k.accepted + 1 = k.limit ∧ ((k.accept n i).endClaim n).claims = [] ∧ (k.st = 1 ∨ k.st = 2) then 3 else k.st := rfl
  simp only [hst', TileCtr.accept_endClaim_claims, List.map_eq_nil_iff, hst, and_true]

/-- The claim of core `n` ends with its tile accepted. -/
def Dev.endAccepted (d : Dev) (n : Nat) (c : Ctx) (ctr i : Nat) : Dev :=
  (d.updCtr (n / 48) ctr (fun k => k.accept n i)).endClaim c n ctr

/-- The cores with cancelled claims on a counter take note of them. -/
def Dev.reapCancelled (d : Dev) (pod ctr : Nat) : Dev :=
  (((d.ctr_ pod ctr).claims.filter (fun k => k.cancelled)).map (·.core)).foldl (fun d m => (d.reapSaved m ctr).after m) d

theorem Dev.endAccepted_frame (d : Dev) (n : Nat) (c : Ctx) (ctr i : Nat) : ∃ pods, d.endAccepted n c ctr i = { d with pods := pods } := by
  unfold Dev.endAccepted
  obtain ⟨pods, h⟩ := (d.updCtr (n / 48) ctr (fun k => k.accept n i)).endClaim_frame c n ctr
  exact ⟨pods, h⟩

theorem Dev.endAccepted_ctr (d : Dev) (n : Nat) (c : Ctx) (ctr i : Nat) :
    ∃ at_, (d.endAccepted n c ctr i).ctr_ (n / 48) ctr = { ((d.ctr_ (n / 48) ctr).accept n i).endClaim n with doneAt := at_ } := by
  obtain ⟨at_, h⟩ := (d.updCtr (n / 48) ctr (fun k => k.accept n i)).endClaim_ctr c n ctr
  rw [Dev.ctr_updCtr, if_pos ⟨rfl, rfl⟩] at h
  exact ⟨at_, h⟩

/-- Core `m` runs a loop's body that moves: it does not yet take note of a cancelled claim. -/
def Dev.bodyRuns (d : Dev) (m : Nat) : Prop :=
  (d.core m).saved = none ∧ (d.core m).run = 1 ∧ ∃ cx, (d.core m).ctx = some cx ∧ cx.ended = false ∧ cx.bodyMoving = true

/-- A core without a saved context has no saved claim to end. -/
theorem Dev.reapSaved_none {d : Dev} {m ctr : Nat} (h : (d.core m).saved = none) : d.reapSaved m ctr = d := by
  rw [Dev.reapSaved, h]

/-- Cancelled claims whose bodies move change nothing yet (R113). -/
theorem Dev.reapCancelled_moving (d : Dev) (pod ctr : Nat) (h : ∀ x ∈ (d.ctr_ pod ctr).claims, x.cancelled = true → d.bodyRuns x.core) :
    d.reapCancelled pod ctr = d := by
  refine List.foldlRecOn (motive := (· = d)) _ _ rfl ?_
  rintro _ rfl m hm
  obtain ⟨x, hx, rfl⟩ := List.mem_map.1 hm
  obtain ⟨hx, hcancelled⟩ := List.mem_filter.1 hx
  obtain ⟨hsaved, hrun, cx, hcx, hend, hbody⟩ := h x hx hcancelled
  rw [Dev.reapSaved_none hsaved]
  exact Dev.after_goesOn hcx hrun (Dev.reap_bodyMoving hcx hbody) (.inr (Core.still_bodyMoving hcx hbody)) (.inl hend)

section
variable {d : Dev} {n ctr i : Nat} {c : Ctx} {k : TileCtr} (hk : k = d.ctr_ (n / 48) ctr)
  (hbad : anyBad d.poison (k.sbBase + i / 8) 1 = false)
include hk hbad

/-- A completion whose scoreboard bit is set counts as a duplicate and ends the claim. -/
theorem Dev.complete_duplicate (hbit : (rdByte d.mem (k.sbBase + i / 8)).toNat.testBit (i % 8) = true) :
    ∃ u : Dev, u.mem = d.mem ∧ u.cores = d.cores ∧ u.pow = d.pow ∧ u.ctr_ (n / 48) ctr = k ∧
      ctrVal u.ctr (podInst (n / 48)) 0x20 = (ctrVal d.ctr (podInst (n / 48)) 0x20 + 1) % 2 ^ 64 ∧
      d.complete n c ctr i = u.endClaim c n ctr := by
  subst hk
  unfold Dev.complete
  simp only [hbad, bit, hbit, if_true, Bool.false_eq_true, if_false]
  refine ⟨_, ?mem, ?cores, ?pow, ?counter, ?count, rfl⟩
  case mem => simp
  case cores => simp
  case pow => simp
  case counter => exact Dev.ctr_congr (by simp) _ _
  case count =>
    have hne : podInst (n / 48) * 256 + 0x20 ≠ cobInst * 256 + 0x78 := by
      simp only [podInst, cobInst]
      omega
    rw [Dev.traceTile_ctrVal _ _ _ _ _ _ _ _ _ hne]
    exact ctrVal_bump d.ctr (podInst (n / 48)) 0x20 1

/-- A completion whose scoreboard bit is clear is accepted: the bit is set, and the counter takes the tile. Beside these the trace and the
measured costs of the pod change alone. -/
theorem Dev.complete_accepted (hbit : (rdByte d.mem (k.sbBase + i / 8)).toNat.testBit (i % 8) = false) :
    ∃ e : Dev, e.mem = (d.store (k.sbBase + i / 8) [rdByte d.mem (k.sbBase + i / 8) ||| BitVec.ofNat 8 (2 ^ (i % 8))]).mem ∧ e.cores = d.cores ∧
      e.pow = d.pow ∧ e.ctr_ (n / 48) ctr = k ∧ d.complete n c ctr i = (e.endAccepted n c ctr i).reapCancelled (n / 48) ctr := by
  subst hk
  generalize hsb : (d.ctr_ (n / 48) ctr).sbBase + i / 8 = a at *
  unfold Dev.complete
  simp only [hsb, hbad, bit, hbit, Bool.false_eq_true, if_false]
  refine ⟨_, ?mem, ?cores, ?pow, ?counter, rfl⟩
  case mem => split <;> simp
  case cores => split <;> simp
  case pow => split <;> simp
  case counter =>
    split
    · rw [Dev.ctr_updPod _ _ _ _ _ (fun x => Pod.addCost_ctrs x _ _ _)]
      exact Dev.ctr_congr (by simp) _ _
    · exact Dev.ctr_congr (by simp) _ _

end

/-- A stored byte is the only one that changes. -/
theorem rdByte_store_byte (d : Dev) (a x : Nat) (b : Byte) : rdByte (d.store a [b]).mem x = if x = a then b else rdByte d.mem x :=
  Tab.get_set 0 b d.mem a x

section
variable {d : Dev} {n i : Nat} {c : Ctx} {l : LoopRun} {k : TileCtr} (h : d.BodyDone n c l i) (hk : k = d.ctr_ (n / 48) (clCtr l.desc))
  (hbad : anyBad d.poison (k.sbBase + i / 8) 1 = false)
include h hk hbad

/-- A duplicate completion: DUP_TILE counts and the claim ends. -/
theorem Dev.BodyDone.tileDone_duplicate (hbit : (rdByte d.mem (k.sbBase + i / 8)).toNat.testBit (i % 8) = true) :
    ∃ t at_, d.tileDone n = some t ∧ t.mem = d.mem ∧
      ctrVal t.ctr (podInst (n / 48)) 0x20 = (ctrVal d.ctr (podInst (n / 48)) 0x20 + 1) % 2 ^ 64 ∧
      t.ctr_ (n / 48) (clCtr l.desc) = { k.endClaim n with doneAt := at_ } ∧
      t.core n = { d.core n with ctx := some { c with loop := some l.waiting } } := by
  obtain ⟨u, hmem, hcores, hpow, huk, hcount, hdup⟩ := Dev.complete_duplicate (c := c) hk hbad hbit
  obtain ⟨pods, hframe⟩ := u.endClaim_frame c n (clCtr l.desc)
  obtain ⟨at_, hcounter⟩ := u.endClaim_ctr c n (clCtr l.desc)
  rw [huk] at hcounter
  obtain ⟨hnext, hcore⟩ := h.nextClaim_eq (e := u.endClaim c n (clCtr l.desc)) (by rw [hframe, ← hcores]) (by rw [hframe, ← hpow])
  refine ⟨_, at_, by rw [h.tileDone_eq, hdup], ?_, ?_, ?_, hcore⟩ <;> rw [hnext]
  · rw [Dev.updCore_mem, hframe, ← hmem]
  · rw [Dev.updCore_ctr, hframe, ← hcount]
  · exact hcounter

/-- A completion that is accepted: the scoreboard bit is set, the counter takes the tile, and the cancelled claims of bodies that move go on. -/
theorem Dev.BodyDone.tileDone_accepted (hbit : (rdByte d.mem (k.sbBase + i / 8)).toNat.testBit (i % 8) = false)
    (hothers : ∀ x ∈ k.claims, x.core ≠ n → (x.cancelled = true ∨ x.idx = i) → d.bodyRuns x.core) :
    ∃ t at_, d.tileDone n = some t ∧
      t.mem = (d.store (k.sbBase + i / 8) [rdByte d.mem (k.sbBase + i / 8) ||| BitVec.ofNat 8 (2 ^ (i % 8))]).mem ∧
      t.ctr_ (n / 48) (clCtr l.desc) = { (k.accept n i).endClaim n with doneAt := at_ } ∧
      t.core n = { d.core n with ctx := some { c with loop := some l.waiting } } := by
  obtain ⟨u, hmem, hcores, hpow, huk, hacc⟩ := Dev.complete_accepted (c := c) hk hbad hbit
  obtain ⟨pods, hframe⟩ := u.endAccepted_frame n c (clCtr l.desc) i
  obtain ⟨at_, hcounter⟩ := u.endAccepted_ctr n c (clCtr l.desc) i
  rw [huk] at hcounter
  have hcores' : (u.endAccepted n c (clCtr l.desc) i).cores = d.cores := by rw [hframe, ← hcores]
  have hreap := (u.endAccepted n c (clCtr l.desc) i).reapCancelled_moving (n / 48) (clCtr l.desc) (fun x hx hcancelled => by
    obtain ⟨y, hy, hcore, hne, hyi⟩ := TileCtr.accept_endClaim_cancelled (by rwa [hcounter] at hx) hcancelled
    rw [← hcore, Dev.bodyRuns, Dev.core_congr hcores']
    exact hothers y hy hne hyi)
  obtain ⟨hnext, hcore⟩ := h.nextClaim_eq (e := u.endAccepted n c (clCtr l.desc) i) hcores' (by rw [hframe, ← hpow])
  refine ⟨_, at_, by rw [h.tileDone_eq, hacc, hreap], ?_, ?_, hcore⟩ <;> rw [hnext]
  · rw [Dev.updCore_mem, hframe, ← hmem]
  · exact hcounter

end

/-! ## REISSUE_TIMEOUT (R114) -/

theorem exec_reissueTimeout (pod ctr i : Nat) (s : State) : exec (.reissueTimeout pod ctr i) s = eventOpt s (s.dev.reissue pod ctr i) := rfl

section
variable {d : Dev} {pod ctr i : Nat} {k : TileCtr} (hk : k = d.ctr_ pod ctr)

/-- The one claim of an index is overdue once its spell of preemption has lasted REISSUE_AFTER us. -/
theorem TileCtr.overdue_eq {x : Claim} {p now : Nat} (hx : x ∈ k.claims) (hone : ∀ y ∈ k.claims, y.idx = i → y = x) (hidx : x.idx = i)
    (hused : x.spellUsed = false) (hcancelled : x.cancelled = false) (hpre : x.preemptAt = some p) (hlate : p + k.after * 1000 ≤ now) :
    k.overdue i now = some x := by
  unfold TileCtr.overdue
  cases hfind : k.claims.find? _ with
  | none => exact absurd (List.find?_eq_none.1 hfind x hx) (by simp [hidx, hused, hcancelled, hpre, hlate])
  | some y =>
    have hy := List.find?_some hfind
    simp only [Bool.and_eq_true, beq_iff_eq] at hy
    obtain ⟨⟨⟨hyi, -⟩, -⟩, -⟩ := hy
    rw [hone y (List.mem_of_find?_eq_some hfind) hyi]

/-- No claim is overdue that has queued its index, is cancelled or is not preempted. -/
theorem TileCtr.overdue_eq_none {now : Nat}
    (h : ∀ x ∈ k.claims, x.idx = i → x.spellUsed = true ∨ x.cancelled = true ∨ x.preemptAt = none) : k.overdue i now = none := by
  refine List.find?_eq_none.2 (fun x hx => ?_)
  by_cases hidx : x.idx = i
  · obtain h | h | h := h x hx hidx <;> simp [h]
  · simp [hidx]

include hk

/-- The index of an overdue claim joins the queue where the counter may reissue it. -/
theorem Dev.reissue_queues {x : Claim} (hdue : k.overdue i d.plat.now = some x) (hre : k.reissue = true) (hst : k.st = 1 ∨ k.st = 2)
    (hqueue : ∀ e ∈ k.queue, e.1 ≠ i) (hepoch : Tab.get 0 k.epochs i < 15)
    (hbit : (rdByte d.mem (k.sbBase + i / 8)).toNat.testBit (i % 8) = false) :
    d.reissue pod ctr i = some (d.updCtr pod ctr (fun t => t.requeue x.core i)) := by
  subst hk
  have hq : (d.ctr_ pod ctr).queue.any (fun e => e.1 == i) = false := by simpa using hqueue
  have hmay : d.mayReissue pod ctr i = true := by simp [Dev.mayReissue, hre, hst, hq, hepoch, bit, hbit]
  simp [Dev.reissue, hdue, hmay]

/-- With REISSUE 0, the index queued, epoch 15 reached, the bit set or no claim overdue nothing is queued. -/
theorem Dev.reissue_none (h : k.reissue = false ∨ (∃ e ∈ k.queue, e.1 = i) ∨ 15 ≤ Tab.get 0 k.epochs i ∨
    (rdByte d.mem (k.sbBase + i / 8)).toNat.testBit (i % 8) = true ∨
      (∀ x ∈ k.claims, x.idx = i → x.spellUsed = true ∨ x.cancelled = true ∨ x.preemptAt = none)) : d.reissue pod ctr i = none := by
  subst hk
  have hno : d.mayReissue pod ctr i = false ∨ (d.ctr_ pod ctr).overdue i d.plat.now = none := by
    obtain h | ⟨e, he, hi⟩ | h | h | h := h
    · exact .inl (by simp [Dev.mayReissue, h])
    · have hq : (d.ctr_ pod ctr).queue.any (fun e => e.1 == i) = true := List.any_eq_true.2 ⟨e, he, by simp [hi]⟩
      exact .inl (by simp [Dev.mayReissue, hq])
    · exact .inl (by simp [Dev.mayReissue, Nat.not_lt.2 h])
    · exact .inl (by simp [Dev.mayReissue, bit, h])
    · exact .inr (TileCtr.overdue_eq_none h)
  unfold Dev.reissue
  obtain h | h := hno
  · cases (d.ctr_ pod ctr).overdue i d.plat.now <;> simp [h]
  · rw [h]

end

/-! ## The obligation -/

/-- Settles O38: each event is one equation for each of its answers, and the counter is read off the changes of that answer. -/
theorem tileCountersServeTheirLoops : Obligations.TileCountersServeTheirLoops := by
  intro s pod ctr k hdead hk
  refine ⟨fun hst => ?inUse, fun h second r l hpod hctr h1 h2 hr hw hrest hl hhalt hbatch hdumps hfence => ?arm,
    fun n c l hn hctr hlive hc hrun hend hhalt hl => ⟨fun hwait hstop => ⟨fun hafter => ?waits, fun hafter hno => ?leaves,
      fun i e hseq hmask hidx hbad hpad => ?takes, fun i e hseq hmask hst hq hidx hbad => ?flaw⟩,
      fun i hi hat hops harr hbad => ⟨fun hbit => ?duplicate, fun hbit hothers => ?accepted⟩⟩,
    fun i => ⟨fun x p hx hone hi hused hcancelled hpre hlate hre hst hqueue hepoch hbit => ?reissue, fun hno => ?noReissue⟩⟩
  case inUse =>
    subst hk
    rw [exec_counterArm, Dev.arm_inUse _ _ _ hst, eventOpt_none]
  case arm =>
    subst hk
    have harm := Dev.arm_unique hpod hctr h1 h2 hw (Dev.armable_step hr hl hhalt hbatch hdumps hfence) hrest
    rw [exec_counterArm, harm, eventOpt_some s _ hdead, Dev.armFor_step hr]
    refine ⟨_, rfl, rfl, ?_, fun p q hne => ?_, fun a => rdByte_wipeRange _ _ _ _, ?_, rfl⟩
    · refine (Dev.ctr_updCtr _ pod ctr pod ctr _).trans ?_
      rw [if_pos ⟨rfl, rfl⟩]
      rfl
    · refine (Dev.ctr_updCtr _ pod ctr p q _).trans ?_
      rw [if_neg (fun h => hne (Prod.ext h.1 h.2))]
      rfl
    · rw [Dev.updRun_run]
      exact congrArg (Option.map _) hr
  case waits =>
    subst hn hctr hk
    rw [exec_tileClaim, Dev.claim_waits hlive hc hrun hl hafter, eventOpt_none]
  case leaves =>
    subst hn hctr hk
    rw [exec_tileClaim, Dev.claim_leaves hlive hc hrun hl hwait hstop hafter (TileCtr.offer_eq_none _ n _ hno), eventOpt_some s _ hdead,
      Dev.leaveLoop_after hrun hend hhalt]
    rfl
  case takes =>
    subst hn hctr hk
    have hafter : after16 l.seq (s.dev.ctr_ (n / 48) (clCtr l.desc)).seq = false := hseq ▸ after16_self _
    rw [exec_tileClaim, Dev.claim_takes hlive hc hrun hl hwait hstop hafter (TileCtr.offer_eq_some hidx hseq hmask), eventOpt_some s _ hdead,
      Dev.takeTile_clean hbad hpad, Dev.updCtr_congr]
    exact TileCtr.give_eq hidx _
  case flaw =>
    subst hn hctr hk
    have hafter : after16 l.seq (s.dev.ctr_ (n / 48) (clCtr l.desc)).seq = false := hseq ▸ after16_self _
    rw [exec_tileClaim, Dev.claim_takes hlive hc hrun hl hwait hstop hafter (TileCtr.offer_eq_some (.inl ⟨hst, hq, hidx⟩) hseq hmask),
      eventOpt_some s _ hdead]
    obtain ⟨hmem, hcores, hvalid⟩ := Dev.takeTile_flaw (n := n) (e := e) (c := c) hbad
    exact ⟨_, rfl, rfl, hmem, hcores, hvalid⟩
  case duplicate =>
    subst hn hctr
    obtain ⟨t, at_, hdone, hmem, hcount, hcounter, hcore⟩ :=
      Dev.BodyDone.tileDone_duplicate ⟨hlive, hc, hrun, hend, hhalt, hl, hi, hat, hops, harr⟩ hk hbad hbit
    rw [exec_tileCompletion, hdone, eventOpt_some s _ hdead]
    exact ⟨_, rfl, rfl, hmem, hcount, congrArg TileCtr.claims hcounter, by rw [hcounter]; rfl, hcore⟩
  case accepted =>
    subst hn hctr
    obtain ⟨t, at_, hdone, hmem, hcounter, hcore⟩ :=
      Dev.BodyDone.tileDone_accepted ⟨hlive, hc, hrun, hend, hhalt, hl, hi, hat, hops, harr⟩ hk hbad hbit hothers
    rw [exec_tileCompletion, hdone, eventOpt_some s _ hdead]
    refine ⟨_, rfl, rfl, ?_, fun a ha => ?_, congrArg TileCtr.accepted hcounter, congrArg TileCtr.queue hcounter,
      (congrArg TileCtr.claims hcounter).trans (k.accept_endClaim_claims n i),
      fun hst => (congrArg TileCtr.st hcounter).trans (k.accept_endClaim_st n i hst), hcore⟩
    · rw [hmem, rdByte_store_byte, if_pos rfl]
    · rw [hmem, rdByte_store_byte, if_neg ha]
  case reissue =>
    have hdue := TileCtr.overdue_eq hx hone hi hused hcancelled hpre hlate
    rw [exec_reissueTimeout, Dev.reissue_queues hk hdue hre hst hqueue hepoch hbit, eventOpt_some s _ hdead]
    subst hk
    rw [Dev.updCtr_congr]
    rfl
  case noReissue => rw [exec_reissueTimeout, Dev.reissue_none hk hno, eventOpt_none]

end Sys2Proof.Machine
end

