-- ==== Sys2Proof/Proofs/StepInvariant.lean ====
section
/-! PROOFS. What holds in every state of a run (R144, R499, R505, R506): it holds at reset and every step keeps it; O4 and O5. -/

namespace Sys2Proof.Machine

/-- A lawful change of the device keeps what holds in every state of a run. -/
theorem Dev.Lawful.inv {s t : State} (h : s.dev.Lawful t.dev) (hs : s.Inv) : t.Inv := ⟨h.sound hs.sound, (h.otp hs.otp).1⟩

/-- The tick of the empty queue keeps the device sound and its cells as they are. -/
theorem tick_kept (s : State) : s.dev.Kept (tick s).dev := by
  unfold tick
  split
  · exact ⟨Dev.tick_sound _, Dev.tick_otp _⟩
  · exact Dev.Kept.refl _

/-- A step that answers a next state is a lawful change of the device: the tick, or the command at the front of the queue. -/
theorem step_lawful {s t : State} (h : step s = .next t) : s.dev.Lawful t.dev := by
  unfold step at h
  split at h
  case h_1 =>
    cases h
    exact (tick_kept s).lawful
  case h_2 c rest _ =>
    obtain ⟨d, hexec, hd⟩ | ⟨ir, -, -, -, hexec⟩ := exec_lawful c { s with pending := rest } <;> rw [hexec] at h <;> cases h
    exact hd

/-- Settles O4: nothing is stored, marked, counted or logged at reset, and the cells are those of log entry 7. -/
theorem resetHoldsTheInvariant : Obligations.ResetHoldsTheInvariant where
  sound := ⟨Tab.wf_nil 0, Tab.wf_nil false, Tab.wf_nil 0, logOk_nil⟩
  otp := ⟨by decide, by decide, by decide, by decide⟩

/-- Settles O5: every step is a lawful change of the device. -/
theorem stepKeepsTheInvariant : Obligations.StepKeepsTheInvariant := fun _ _ hs h => (step_lawful h).inv hs

end Sys2Proof.Machine
end

