-- ==== Sys2Proof/Proofs/EmptyQueueTick.lean ====
section
/-! PROOFS. The tick of the empty queue (R152, R431; log entry 2): time rises, the waits that last are counted, and O2. -/

namespace Sys2Proof.Machine

/-! ## What the parts of a tick count -/

/-- From device `d` to `e` counters alone have changed, and REPLY_WAIT is not among them. -/
def Dev.OtherCounts (d e : Dev) : Prop :=
  ∃ ctr, e = { d with ctr := ctr } ∧ ctrVal ctr cobInst 0x72 = ctrVal d.ctr cobInst 0x72

theorem Dev.OtherCounts.refl (d : Dev) : d.OtherCounts d := ⟨d.ctr, rfl, rfl⟩

/-- A counter of another key is counted besides. -/
theorem Dev.OtherCounts.count {d e : Dev} (h : d.OtherCounts e) (inst kind n : Nat) (hkey : inst * 256 + kind ≠ cobInst * 256 + 0x72) :
    d.OtherCounts (e.count inst kind n) := by
  obtain ⟨ctr, rfl, hval⟩ := h
  exact ⟨bump ctr inst kind n, rfl, (ctrVal_bump_other ctr inst kind n _ _ hkey.symm).trans hval⟩

/-- FENCE_WAIT of the pods (R265). -/
theorem Dev.OtherCounts.fenceTick {d e : Dev} (h : d.OtherCounts e) : d.OtherCounts e.fenceTick := by
  unfold Dev.fenceTick
  split
  · exact h
  · refine foldl_keeps d.OtherCounts _ (fun e p he => he.count _ _ _ ?_) _ e h
    simp only [podInst, cobInst]
    omega

/-- DUMP_WAIT (R529). -/
theorem Dev.OtherCounts.dumpTick {d e : Dev} (h : d.OtherCounts e) : d.OtherCounts e.dumpTick := by
  unfold Dev.dumpTick
  dsimp only
  split
  · exact h
  · exact h.count _ _ _ (by decide)

/-- ENC_RING_WAIT (R342). -/
theorem Dev.OtherCounts.ringTick {d e : Dev} (h : d.OtherCounts e) : d.OtherCounts e.ringTick := by
  unfold Dev.ringTick
  split
  · split
    · split
      · exact h.count _ _ _ (by decide)
      · exact h
    · exact h
  · exact h

/-- REPLY_WAIT while one reply waits, after counts of other kinds (R431). -/
theorem Dev.OtherCounts.replyTick_one {d e : Dev} (h : d.OtherCounts e) (w : SlotReply) (hwait : d.host.waiting = [w]) :
    ctrVal e.replyTick.ctr cobInst 0x72 =
      if w.since < d.plat.now ∧ (d.plat.now - w.since) % 1000 = 0 then (ctrVal d.ctr cobInst 0x72 + 1) % 2 ^ 64
      else ctrVal d.ctr cobInst 0x72 % 2 ^ 64 := by
  obtain ⟨ctr, rfl, hval⟩ := h
  simp only [Dev.replyTick, ctrVal_bump, hval, hwait]
  by_cases hdue : w.since < d.plat.now ∧ (d.plat.now - w.since) % 1000 = 0 <;> simp [hdue]

/-! ## The tick -/

/-- The tick of a device that works: time has gone on, other counters than REPLY_WAIT may have, and then the replies are counted. -/
theorem Dev.tick_alive (d : Dev) (h : d.pow.dead = false) :
    ∃ e, Dev.OtherCounts { d with plat := d.plat.tick } e ∧ d.tick = e.replyTick :=
  ⟨_, (Dev.OtherCounts.refl _).fenceTick.dumpTick.ringTick, by simp [Dev.tick, h]⟩

/-- The tick of a device whose domains are dead counts nothing. -/
theorem Dev.tick_dead (d : Dev) (h : d.pow.dead = true) : d.tick = { d with plat := d.plat.tick } := by simp [Dev.tick, h]

/-- A tick changes device time and counters alone. -/
theorem Dev.tick_frame (d : Dev) : ∃ ctr, d.tick = { d with plat := { d.plat with now := d.plat.now + 1 }, ctr := ctr } := by
  cases hdead : d.pow.dead
  case true => exact ⟨d.ctr, d.tick_dead hdead⟩
  case false =>
    obtain ⟨e, ⟨ctr, rfl, -⟩, ht⟩ := d.tick_alive hdead
    exact ⟨_, ht⟩

/-- With nothing that waits, a tick adds nothing to any counter. -/
theorem Dev.tick_quiet (d : Dev) (hdead : d.pow.dead = false) (hwait : d.host.waiting = []) (henc : d.enc.cur = none)
    (hdump : d.obs.dumps = []) (hplans : ∀ e ∈ d.plans, e.2.cur = none) :
    d.tick = { d with plat := d.plat.tick, ctr := bump d.ctr cobInst 0x72 0 } := by
  have hidle : d.plans.all (fun e => e.2.cur.isNone) = true := List.all_eq_true.2 fun e he => by simp [hplans e he]
  simp [Dev.tick, hdead, Dev.fenceTick, hidle, Dev.dumpTick, hdump, Dev.ringTick, henc, Dev.replyTick, hwait]

/-- Nothing added leaves a counter as it is, but for the 64 bits it keeps (R515). -/
theorem ctrVal_bump_zero (c : Tab Nat) (inst kind i k : Nat) :
    ctrVal (bump c inst kind 0) i k = ctrVal c i k % 2 ^ 64 ∨ ctrVal (bump c inst kind 0) i k = ctrVal c i k := by
  by_cases hkey : i * 256 + k = inst * 256 + kind
  · exact .inl (by simp only [ctrVal, hkey]; exact ctrVal_bump c inst kind 0)
  · exact .inr (ctrVal_bump_other c inst kind 0 i k hkey)

/-- Settles O2, by the frame of the tick and what its parts count. -/
theorem emptyQueueTicks : Obligations.EmptyQueueTicks := by
  intro s hempty
  have hstep : step s = .next (tick s) := by rw [step, hempty]
  refine ⟨fun hruns => ?runs, fun hstands => ?stands⟩
  case runs =>
    have htick : tick s = { s with dev := s.dev.tick } := by rw [tick, if_pos hruns]
    refine ⟨{ s with dev := s.dev.tick }, hstep.trans (congrArg _ htick), ?frame,
      fun hwait henc hdump hplans i k => ?quiet, fun w hdead hwait => ?reply⟩
    case frame =>
      obtain ⟨ctr, ht⟩ := s.dev.tick_frame
      rw [ht]
    case quiet =>
      dsimp only
      cases hdead : s.dev.pow.dead
      case true => exact .inr (by rw [s.dev.tick_dead hdead])
      case false =>
        rw [s.dev.tick_quiet hdead hwait henc hdump hplans]
        exact ctrVal_bump_zero _ _ _ i k
    case reply =>
      obtain ⟨e, he, ht⟩ := s.dev.tick_alive hdead
      have hcount := he.replyTick_one w hwait
      simp only [Plat.tick, Nat.lt_succ_iff] at hcount
      exact ht ▸ hcount
  case stands => rw [hstep, tick, if_neg (by simp [hstands])]

end Sys2Proof.Machine
end

