-- ==== Sys2Proof/Proofs/LatchedReads.lean ====
section
/-! PROOFS. The reads that latch for a port (R154, R358): DEVICE_TIME_READ, BEAT_NOW_READ, the window reads that follow, and O14. -/

namespace Sys2Proof.Machine

section
variable {s : State} {port : Nat} (hlink : s.dev.linked port = true)
include hlink

/-- DEVICE_TIME_READ of a port whose link is up, by the half it reads (R154). -/
theorem exec_deviceTimeRead_linked {half : Nat} (hhalf : half ≤ 2) :
    exec (.deviceTimeRead port half) s = .next { s with dev := { s.dev with host := s.dev.host.updPort port (fun p =>
      if half = 0 then { p with lastRead := s.dev.plat.now % 2 ^ 64 % 2 ^ 32, devHi := s.dev.plat.now % 2 ^ 64 / 2 ^ 32 }
      else if half = 1 then { p with lastRead := p.devHi }
      else { p with lastRead := s.dev.plat.now % 2 ^ 64 }) } } := by
  simp [exec, execDeviceTimeRead, nextDev, hlink, hhalf]

/-- BEAT_NOW_READ of a port whose link is up (R358). -/
theorem exec_beatNowRead_linked :
    exec (.beatNowRead port) s = .next { s with dev := { s.dev with host := s.dev.host.updPort port (fun p =>
      { p with lastRead := s.dev.cad.beat, phaseLatch := some (s.dev.cad.phaseAt s.dev.plat.now), startLatch := some s.dev.cad.start }) } } := by
  simp [exec, execBeatNowRead, nextDev, hlink]

end

/-! ## Window reads of the cadence block -/

/-- A 64-bit read of the cadence block returns the word at its offset (R415). -/
theorem Dev.windowRead_cadWord (d : Dev) (port : Nat) {off : Nat} (hoff : off < 0x1000) (halign : off % 8 = 0) :
    d.windowRead port (0x4000 + off) 8 = d.cadWord port off 8 % 2 ^ 64 := by
  have haligned : windowAligned (0x4000 + off) 8 = true := by
    simp only [windowAligned, beq_self_eq_true, Bool.or_true, Bool.true_and, Bool.and_eq_true, beq_iff_eq, decide_eq_true_eq]
    omega
  have hword : d.windowWord port (0x4000 + off) 8 = d.cadWord port off 8 := by
    unfold Dev.windowWord
    dsimp only
    iterate 12 rw [if_neg (by omega)]
    rw [if_pos (by omega), Nat.add_sub_cancel_left]
  have hdiv : (0x4000 + off) / 8 * 8 = 0x4000 + off := by omega
  have hmod : (0x4000 + off) % 8 = 0 := by omega
  rw [Dev.windowRead, if_pos haligned, hdiv, hmod, hword]
  rfl

/-- A 64-bit read of PHASE_NOW returns what the port has latched (R358). -/
theorem Dev.windowRead_phaseLatch {d : Dev} {port x : Nat} (h : (d.host.port port).phaseLatch = some x) :
    d.windowRead port 0x4010 8 = x % 2 ^ 64 :=
  (d.windowRead_cadWord port (off := 0x10) (by decide) (by decide)).trans (by simp [Dev.cadWord, h])

/-- A 64-bit read of BEAT_START returns what the port has latched (R358). -/
theorem Dev.windowRead_startLatch {d : Dev} {port x : Nat} (h : (d.host.port port).startLatch = some x) :
    d.windowRead port 0x4018 8 = x % 2 ^ 64 :=
  (d.windowRead_cadWord port (off := 0x18) (by decide) (by decide)).trans (by simp [Dev.cadWord, h])

/-- A phase has 24 bits (R345). -/
theorem Cad.phaseAt_lt (c : Cad) (t : Nat) : c.phaseAt t < 2 ^ 24 := by
  unfold Cad.phaseAt
  omega

/-! ## The latched reads agree -/

/-- Settles O14, by the answers of the two commands and what a window read finds latched. -/
theorem latchedReadsAgree : Obligations.LatchedReadsAgree := by
  intro s port hlink
  refine ⟨s.dev.windowRead_cadWord port (off := 0) (by decide) (by decide), exec_deviceTimeRead_linked hlink (half := 2) (by decide),
    ?low, exec_deviceTimeRead_linked hlink (half := 1) (by decide), ?upper, exec_beatNowRead_linked hlink, ?beat⟩
  case low =>
    have hmod : s.dev.plat.now % 2 ^ 64 % 2 ^ 32 = s.dev.plat.now % 2 ^ 32 := Nat.mod_mod_of_dvd _ ⟨2 ^ 32, by decide⟩
    exact hmod ▸ exec_deviceTimeRead_linked hlink (half := 0) (by decide)
  case upper =>
    intro t u v ht hulink hlatch hv
    rw [exec_deviceTimeRead_linked hlink (half := 0) (by decide)] at ht
    rw [exec_deviceTimeRead_linked hulink (half := 1) (by decide)] at hv
    cases ht
    cases hv
    simpa using hlatch
  case beat =>
    intro t u ht hport
    rw [exec_beatNowRead_linked hlink] at ht
    cases ht
    rw [HostIf.port_updPort, if_pos rfl] at hport
    have hphase := Dev.windowRead_phaseLatch (d := u) (congrArg Port.phaseLatch hport)
    have hfits : s.dev.cad.phaseAt s.dev.plat.now < 2 ^ 64 := lt_trans (s.dev.cad.phaseAt_lt _) (by decide)
    exact ⟨hphase.trans (Nat.mod_eq_of_lt hfits), Dev.windowRead_startLatch (congrArg Port.startLatch hport), rfl, rfl⟩

end Sys2Proof.Machine
end

