-- ==== Sys2Proof/Proofs/TransferBytes.lean ====
section
/-! SUPPORT. What a transfer of kind COPY or FILL leaves in memory, row by row (R471, R485). -/

namespace Sys2Proof.Machine

/-! ## Reads and writes that meet no flaw -/

@[simp] theorem Wk.fault_mem (w : Wk) (es : List Nat) : (w.fault es).mem = w.mem := by cases es <;> rfl
@[simp] theorem Wk.fault_flaws (w : Wk) (es : List Nat) : (w.fault es).flaws = w.flaws := by cases es <;> rfl

/-- A read that meets no flaw returns the bytes of memory and changes none of them. -/
theorem Wk.read_flawless (w : Wk) (a n : Nat) (h : w.flaws = []) :
    (w.read a n).1 = rdBytes w.mem a n ∧ (w.read a n).2.mem = w.mem ∧ (w.read a n).2.flaws = [] := by
  simp [Wk.read, h]

/-- A write that meets no flaw stores its bytes. -/
theorem Wk.write_flawless (w : Wk) (a : Nat) (bs : List Byte) (h : w.flaws = []) :
    (w.write a bs).mem = wrBytes w.mem a bs ∧ (w.write a bs).flaws = [] := by
  simp [Wk.write, h]

/-! ## The rows of a transfer -/

/-- The bytes that row `r` of a COPY or a FILL takes to its destination, from memory `m`. -/
def Xfer.rowData (x : Xfer) (m : Tab Byte) (r : Nat) : List Byte :=
  if x.kind = .fill then List.replicate x.len (BitVec.ofNat 8 x.value) else rdBytes m (x.src + r * x.ss) x.len

@[simp] theorem Xfer.rowData_length (x : Xfer) (m : Tab Byte) (r : Nat) : (x.rowData m r).length = x.len := by
  unfold Xfer.rowData
  split <;> simp [rdBytes]

/-- Memory after the first `k` rows of a COPY or a FILL. -/
def Xfer.afterRows (x : Xfer) (m : Tab Byte) : Nat → Tab Byte
  | 0 => m
  | k + 1 => wrBytes (x.afterRows m k) (x.dst + k * x.ds) (x.rowData (x.afterRows m k) k)

section
variable {x : Xfer} (hkind : x.kind = .copy ∨ x.kind = .fill)
include hkind

/-- A row that meets no flaw is stored at its destination. -/
theorem Wk.xferPart_flawless (w : Wk) (r : Nat) (h : w.flaws = []) :
    (w.xferPart x r 0 x.len).mem = wrBytes w.mem (x.dst + r * x.ds) (x.rowData w.mem r) ∧ (w.xferPart x r 0 x.len).flaws = [] := by
  obtain hcopy | hfill := hkind
  · obtain ⟨hbytes, hmem, hflaws⟩ := w.read_flawless (x.src + r * x.ss) x.len h
    have hwrite := (w.read (x.src + r * x.ss) x.len).2.write_flawless (x.dst + r * x.ds) (w.read (x.src + r * x.ss) x.len).1 hflaws
    rw [hmem, hbytes] at hwrite
    simpa [Wk.xferPart, Xfer.rowData, hcopy, hbytes] using hwrite
  · simpa [Wk.xferPart, Xfer.rowData, hfill] using
      w.write_flawless (x.dst + r * x.ds) (List.replicate x.len (BitVec.ofNat 8 x.value)) h

/-- A COPY or a FILL that meets no flaw leaves memory as after its rows. -/
theorem Wk.xfer_flawless (w : Wk) (h : w.flaws = []) : (w.xfer x).mem = x.afterRows w.mem x.rows := by
  have hwrites : x.writes = true := by obtain hk | hk := hkind <;> simp [Xfer.writes, Xfer.reads, hk]
  have hrows : ∀ k, ∃ t, (List.range k).foldl (fun w r => Wk.xferPart w x r 0 x.len) w = t ∧ t.mem = x.afterRows w.mem k ∧ t.flaws = [] := by
    intro k
    induction k with
    | zero => exact ⟨w, rfl, rfl, h⟩
    | succ k ih =>
      obtain ⟨t, ht, hmem, hflaws⟩ := ih
      obtain ⟨hrow, hflaws'⟩ := Wk.xferPart_flawless hkind t k hflaws
      exact ⟨_, by rw [List.range_succ, List.foldl_append, ht]; rfl, by rw [hrow, hmem]; rfl, hflaws'⟩
  obtain ⟨t, ht, hmem, -⟩ := hrows x.rows
  rw [Wk.xfer, if_pos hwrites, ht, hmem]

end

/-! ## The bytes after the rows -/

section
variable {x : Xfer} {m : Tab Byte} {k : Nat}

/-- A byte outside every row's destination stays as it is. -/
theorem Xfer.afterRows_outside {a : Nat} (h : ∀ r, r < k → a < x.dst + r * x.ds ∨ x.dst + r * x.ds + x.len ≤ a) :
    rdByte (x.afterRows m k) a = rdByte m a := by
  induction k with
  | zero => rfl
  | succ k ih =>
    refine (rdByte_wrBytes_other _ _ _ a ?_).trans (ih fun r hr => h r (Nat.lt_succ_of_lt hr))
    rw [Xfer.rowData_length]
    exact h k (Nat.lt_succ_self k)

/-- The row just stored reads as its data. -/
theorem Xfer.afterRows_last {j : Nat} (hj : j < x.len) :
    rdByte (x.afterRows m (k + 1)) (x.dst + k * x.ds + j) = (x.rowData (x.afterRows m k) k)[j]'(by simpa using hj) :=
  rdByte_wrBytes _ _ _ j _

/-- A FILL leaves its value in every byte of its rows, wherever they lie. -/
theorem Xfer.afterRows_fill (hkind : x.kind = .fill) {r j : Nat} (hr : r < k) (hj : j < x.len) :
    rdByte (x.afterRows m k) (x.dst + r * x.ds + j) = BitVec.ofNat 8 x.value := by
  induction k with
  | zero => omega
  | succ k ih =>
    by_cases hin : x.dst + k * x.ds ≤ x.dst + r * x.ds + j ∧ x.dst + r * x.ds + j < x.dst + k * x.ds + x.len
    · obtain ⟨i, hi⟩ := Nat.exists_eq_add_of_le hin.1
      rw [hi, Xfer.afterRows_last (by omega)]
      simp [Xfer.rowData, hkind]
    · have hlt : r < k := by
        refine lt_of_le_of_ne (Nat.lt_succ_iff.1 hr) fun hrk => hin ?_
        subst hrk
        omega
      refine (rdByte_wrBytes_other _ _ _ _ ?_).trans (ih hlt)
      rw [Xfer.rowData_length]
      omega

/-- Rows of destinations that lie `DST_STRIDE` or more apart do not overlap. -/
theorem Xfer.row_before (hds : x.len ≤ x.ds) {r k j : Nat} (hr : r < k) (hj : j < x.len) : x.dst + r * x.ds + j < x.dst + k * x.ds := by
  have hrow : (r + 1) * x.ds ≤ k * x.ds := Nat.mul_le_mul_right _ hr
  rw [Nat.succ_mul] at hrow
  omega

/-- A COPY to rows that overlap neither each other nor the source leaves each source byte at its destination. -/
theorem Xfer.afterRows_copy (hkind : x.kind = .copy) (hds : x.len ≤ x.ds)
    (hapart : ∀ r r' j, r < k → r' < k → j < x.len →
      x.src + r * x.ss + j < x.dst + r' * x.ds ∨ x.dst + r' * x.ds + x.len ≤ x.src + r * x.ss + j)
    {r j : Nat} (hr : r < k) (hj : j < x.len) :
    rdByte (x.afterRows m k) (x.dst + r * x.ds + j) = rdByte m (x.src + r * x.ss + j) := by
  induction k with
  | zero => omega
  | succ k ih =>
    obtain rfl | hlt := Nat.eq_or_lt_of_le (Nat.lt_succ_iff.1 hr)
    · rw [Xfer.afterRows_last hj]
      simp only [Xfer.rowData, hkind, reduceCtorEq, if_false, rdBytes, List.getElem_map, List.getElem_range]
      exact Xfer.afterRows_outside fun r' hr' => hapart r r' j (Nat.lt_succ_self r) (Nat.lt_succ_of_lt hr') hj
    · refine (rdByte_wrBytes_other _ _ _ _ (.inl (Xfer.row_before hds hlt hj))).trans
        (ih (fun r r' j hr hr' => hapart r r' j (Nat.lt_succ_of_lt hr) (Nat.lt_succ_of_lt hr')) hlt)

/-- A source that ends before the destination begins, or begins after it ends, shares no byte with any row of it. -/
theorem Xfer.rows_apart (hkind : x.kind = .copy) (h : x.src + x.srcExt ≤ x.dst ∨ x.dst + x.dstExt ≤ x.src) (r r' j : Nat)
    (hr : r < x.rows) (hr' : r' < x.rows) (hj : j < x.len) :
    x.src + r * x.ss + j < x.dst + r' * x.ds ∨ x.dst + r' * x.ds + x.len ≤ x.src + r * x.ss + j := by
  have hsrc : r * x.ss ≤ (x.rows - 1) * x.ss := Nat.mul_le_mul_right _ (by omega)
  have hdst : r' * x.ds ≤ (x.rows - 1) * x.ds := Nat.mul_le_mul_right _ (by omega)
  simp only [Xfer.srcExt, Xfer.dstExt, Xfer.srcLen, Xfer.dstLen, hkind, reduceCtorEq, if_false] at h
  omega

end

end Sys2Proof.Machine
end

