-- ==== Sys2Proof/Proofs/MoveEvents.lean ====
section
/-! PROOFS. MOVE_COMPLETE and MOVE_ARRIVAL (R63, R148, R262, R485, R487): when a MOVE waits, fails or ends, its arrival signal, and O37. -/

namespace Sys2Proof.Machine

theorem exec_moveComplete (n : Nat) (flips : List Nat) (s : State) :
    exec (.moveComplete n flips) s = eventFlips s flips (s.dev.moveDone n flips) := rfl

theorem exec_moveArrival (n : Nat) (s : State) : exec (.moveArrival n) s = eventOpt s (s.dev.arrive n) := rfl

/-! ## The bytes of a MOVE -/

section
variable {d : Dev} {n desc seed step : Nat}

/-- MOVE_KIND 0 is COPY and 1 is FILL (R485). -/
theorem moveXfer_kind (h : mvKind desc ≤ 1) : (moveXfer desc).kind = if mvKind desc = 0 then .copy else .fill := by
  obtain hk | hk : mvKind desc = 0 ∨ mvKind desc = 1 := by omega
  all_goals simp [moveXfer, hk]

/-- A COPY or a FILL without flaws leaves memory as after the rows of its transfer. -/
theorem Dev.work_move_mem (h : mvKind desc ≤ 1) :
    ((d.work n []).move desc seed step).mem = (moveXfer desc).afterRows d.mem (moveXfer desc).rows := by
  have hkind : (moveXfer desc).kind = .copy ∨ (moveXfer desc).kind = .fill := by
    rw [moveXfer_kind h]
    split <;> simp
  rw [Wk.move, if_neg (by omega)]
  exact Wk.xfer_flawless hkind _ rfl

end

/-! ## What MOVE_COMPLETE answers -/

section
variable {d : Dev} {n : Nat} {flips : List Nat} {c : Ctx} {o : Op}

/-- A MOVE that finds the pod's send area full waits, whatever else holds (R262). -/
theorem Dev.moveDone_sendFull (hc : (d.core n).ctx = some c) (ho : c.op 5 = some o) (hfull : d.sendFull n c o.desc = true) :
    d.moveDone n flips = none := by
  cases hrun : d.running n 5 7 with
  | none => simp [Dev.moveDone, hrun]
  | some x =>
    obtain rfl : (c, o) = x := by
      simp only [Dev.running, hc, ho] at hrun
      split at hrun
      · split at hrun <;> simp_all
      · simp at hrun
    simp [Dev.moveDone, hrun, hfull]

section
variable (hlive : d.coreLive n = true) (hc : (d.core n).ctx = some c) (hs : o.stopped = false) (ho : c.op 5 = some o)
  (hop : dOp o.desc = 7) (hheld : (touches o.desc).any d.anyHeld = false) (hroom : d.sendFull n c o.desc = false)
include hlive hc hs ho hop hheld hroom

/-- A MOVE every byte of which is backed does its transfer, owes its arrival signal and completes (R485, R487). -/
theorem Dev.moveDone_backed (hback : d.moveUnbacked o.desc = false) : d.moveDone n flips = some
    (((d.absorb n 0 2 o.desc c ((d.work n flips).move o.desc c.seed c.step)).updCore n
      (fun k => { k with ctx := k.ctx.map (fun c => { c with arrivals := c.arrivals ++ arriveOf o.desc }) })).opDone n 5 o) := by
  simp only [Dev.moveDone, Dev.running_eq hlive hc hs ho hop, hheld, hroom, hback, Bool.or_self, Bool.false_eq_true, if_false]

/-- A MOVE that meets an unbacked byte fails its work and frees its endpoint (R487). -/
theorem Dev.moveDone_unbacked (hback : d.moveUnbacked o.desc = true) : d.moveDone n flips = some
    ((d.failWork c stBadParam (workFault (dId o.desc) (n / 48) 0 0 0 0 3)).updCore n
      (fun k => { k with ctx := k.ctx.map (fun c => c.setOp 5 none) })) := by
  simp only [Dev.moveDone, Dev.running_eq hlive hc hs ho hop, hheld, hroom, hback, Bool.or_self, Bool.false_eq_true, if_false, if_true]

end

/-- The operation on a unit completes on a running core whose stream has gone on as `x`. -/
theorem Dev.Takes.opDone_ctx {t : Dev} {w : Wk} {x : Ctx} (h : d.Takes n c w x t) (u : Nat) (o : Op) (hrun : (d.core n).run = 1)
    (hloop : x.loop = none) (hend : x.ended = false) :
    d.Takes n c w { x with ops := Tab.set none x.ops u none, events := signal o.desc x.events } (t.opDone n u o) :=
  ((h.updCtx (fun c => { c.setOp u none with events := signal o.desc c.events })).traceDesc 2 n o.desc).after hrun hloop hend

/-! ## What MOVE_ARRIVAL answers -/

/-- A signal counts on the stream that serves its plan. -/
theorem Core.gain_stream {k : Core} {c : Ctx} {plan ev : Nat} (hc : k.ctx = some c) (hplan : c.plan = plan) :
    k.gain plan ev = { k with ctx := some { c with events := Tab.set 0 c.events ev ((Tab.get 0 c.events ev + 1) % 65536) } } := by
  simp only [Core.gain, hc, hplan, if_true]
  rfl

/-- The oldest signal due leaves its stream and counts on the stream of the same plan of another core; no other core, no byte of memory and
no plan changes. -/
theorem Dev.arrive_signals {p m ev win : Nat} {rest : List (Nat × Nat × Nat × Nat)} {c2 : Ctx} (hc : (d.core n).ctx = some c)
    (hrun : (d.core n).run = 1) (hloop : c.loop = none) (hend : c.ended = false) (hdue : c.arrivals = (p, m, ev, win) :: rest)
    (hne : 48 * p + m ≠ n) (hc2 : (d.core (48 * p + m)).ctx = some c2) (hplan : c2.plan = c.plan) :
    ∃ t, d.arrive n = some t ∧ t.core n = { d.core n with ctx := some { c with arrivals := rest } } ∧
      t.core (48 * p + m) = { d.core (48 * p + m) with ctx := some { c2 with
        events := Tab.set 0 c2.events ev ((Tab.get 0 c2.events ev + 1) % 65536) } } ∧
      (∀ k, k ≠ n → k ≠ 48 * p + m → t.core k = d.core k) ∧ t.mem = d.mem ∧ t.plans = d.plans := by
  generalize ht : (d.updCore n (fun k => { k with ctx := some { c with arrivals := rest } })).updCore (48 * p + m)
    (fun k => k.gain c.plan ev) = t
  have harrive : d.arrive n = some (t.after n) := by simp only [Dev.arrive, hc, hdue, ht]
  have hsender : t.core n = { d.core n with ctx := some { c with arrivals := rest } } := by simp [← ht, hne.symm]
  have htarget : t.core (48 * p + m) = (d.core (48 * p + m)).gain c.plan ev := by simp [← ht, hne]
  have hothers : ∀ k, k ≠ n → k ≠ 48 * p + m → t.core k = d.core k := fun k hk hk2 => by simp [← ht, hk, hk2]
  obtain ⟨pods, hafter, -⟩ := t.after_running n { c with arrivals := rest } (by rw [hsender]) (by rw [hsender]; exact hrun) hloop hend
  rw [hafter] at harrive
  exact ⟨_, harrive, hsender, htarget.trans (Core.gain_stream hc2 hplan), hothers, by rw [← ht]; rfl, by rw [← ht]; rfl⟩

end

/-- Settles O37: MOVE_COMPLETE by the equation of each outcome, the frame `Dev.Takes` and the bytes of the transfer's rows; MOVE_ARRIVAL by
what the two cores hold after the signal. -/
theorem movesCompleteAndArrive : Obligations.MovesCompleteAndArrive := by
  intro s n c hdead hc hrun hloop hend
  refine ⟨?complete, ?full, ?arrival⟩
  case complete =>
    rintro flips o x hcp hlive ho hop hs hheld hroom rfl
    refine ⟨fun hback => ?backed, fun r hback hl hr hok => ?unbacked⟩
    case backed =>
      have ht := ((Dev.absorb_takes (w := (s.dev.work n flips).move o.desc c.seed c.step) 0 2 o.desc hc).updCtx
        (fun c => { c with arrivals := c.arrivals ++ arriveOf o.desc })).opDone_ctx 5 o hrun hloop hend
      rw [exec_moveComplete, Dev.moveDone_backed hlive hc hs ho hop hheld hroom hback, eventFlips_some s flips _ hdead hcp]
      refine ⟨_, rfl, rfl, ht.mem, ⟨_, ht.core⟩, ht.other, ht.host, ht.pods, ?fill, ?copy, ?outside⟩
      all_goals
        rintro rfl hkind
        have hle : mvKind o.desc ≤ 1 := by omega
        have hx := moveXfer_kind hle
        have hmem := ht.mem.trans (Dev.work_move_mem hle)
        dsimp only
        rw [hmem]
      case fill => exact fun r j hr hj => Xfer.afterRows_fill (by simp [hx, hkind]) hr hj
      case copy =>
        have hcopy : (moveXfer o.desc).kind = .copy := by simp [hx, hkind]
        exact fun hapart hds r j hr hj => Xfer.afterRows_copy hcopy hds (Xfer.rows_apart hcopy hapart) hr hj
      case outside => exact fun a ha => Xfer.afterRows_outside ha
    case unbacked =>
      rw [exec_moveComplete, Dev.moveDone_unbacked hlive hc hs ho hop hheld hroom hback, eventFlips_some s flips _ hdead hcp]
      exact ⟨_, rfl, rfl, Dev.failWork_frees hc hl hr hok _ _ _ rfl⟩
  case full =>
    intro flips o hcp ho _ hfull
    rw [exec_moveComplete, Dev.moveDone_sendFull hc ho hfull, eventFlips_none s flips hcp]
  case arrival =>
    intro p m ev win rest c2 hdue hne hc2 hplan
    obtain ⟨t, harrive, ht⟩ := Dev.arrive_signals hc hrun hloop hend hdue hne hc2 hplan
    rw [exec_moveArrival, harrive, eventOpt_some s t hdead]
    exact ⟨_, rfl, rfl, ht⟩

end Sys2Proof.Machine
end

