-- ==== Sys2Proof/Proofs/AdmittedCommands.lean ====
section
/-! SUPPORT. Ways from `State.Admits` to the outcome of a packet command of fixed length: its effect, a refusal by its own check 7, and a
change of one pod that is DONE at once (R432). -/

namespace Sys2Proof.Machine

/-! ## Devices that differ by replies -/

/-- Replies do not reach a pod. -/
theorem Dev.Replied.updPod {a b : Dev} (h : a.Replied b) (k : Nat) (g : Pod → Pod) : (a.updPod k g).Replied (b.updPod k g) :=
  h.map (fun d => d.updPod k g) (fun _ => rfl) (fun _ => rfl) (fun _ => rfl) (fun _ => rfl) (fun _ => rfl)

theorem Dev.Replied.pod {a b : Dev} (h : a.Replied b) (k : Nat) : b.pod k = a.pod k := by rw [Dev.pod, h.pods, Dev.pod]

/-- Changes that agree on the pod as it stands change the device alike. -/
theorem Dev.updPod_congr {d : Dev} {k : Nat} {g g' : Pod → Pod} (h : g (d.pod k) = g' (d.pod k)) : d.updPod k g = d.updPod k g' := by
  rw [Dev.updPod, Dev.updPod, Tab.upd_congr _ _ _ g g' h]

/-! ## Outcomes of an admitted command -/

/-- A command's own checks find nothing. -/
structure Checks.Clear (c : Checks) : Prop where
  param : c.param = none
  own : c.own = none
  denied : c.denied = false

/-- A command's checks find nothing before check 7, which refuses it. -/
structure Checks.OwnRefuses (c : Checks) : Prop where
  param : c.param = none
  own : c.own ≠ none
  denied : c.denied = false

section
variable {s : State} {i : Instr} {f : PacketForm} {p : Packet} {ck : Dev → Checks}

/-- An admitted command whose own checks find nothing has its effect. -/
theorem State.Admits.becomes {eff : Dev → Cmd → Dev} {d : Dev} (h : s.Admits i f p) (hlen : Instr.paramBytes i f = paramLen f.layout)
    (hck : (ck s.dev).Clear) (heff : d.Replied (eff (s.dev.begin_ f.queue p).1 (s.dev.begin_ f.queue p).2)) :
    Res.Becomes s d (startCmd s f.queue f.opcode f.layout f.fields ck eff) :=
  startCmd_becomes h.head (hlen ▸ h.passes) hck.param hck.own hck.denied heff

/-- An admitted command that its own check 7 refuses has no effect but its reply. -/
theorem State.Admits.refusedByOwn {eff : Dev → Cmd → Dev} (h : s.Admits i f p) (hlen : Instr.paramBytes i f = paramLen f.layout)
    (hck : (ck s.dev).OwnRefuses) : Res.Becomes s s.dev (startCmd s f.queue f.opcode f.layout f.fields ck eff) :=
  startCmdLen_own h.head (hlen ▸ h.passes) hck.param hck.own hck.denied

/-- An admitted command that changes one pod and is DONE at once; the change may be given by one that agrees on the pod as it stands. -/
theorem State.Admits.updPod {k : Nat} {g g' : Pod → Pod} (h : s.Admits i f p) (hlen : Instr.paramBytes i f = paramLen f.layout)
    (hck : (ck s.dev).Clear) (hg : g (s.dev.pod k) = g' (s.dev.pod k)) :
    Res.Becomes s (s.dev.updPod k g) (startCmd s f.queue f.opcode f.layout f.fields ck (doneAt (fun d => d.updPod k g'))) := by
  rw [Dev.updPod_congr hg]
  exact h.becomes hlen hck (((s.dev.begin__replied _ p).updPod k g').trans (doneAt_replied (fun d => d.updPod k g') ..))

end

end Sys2Proof.Machine
end

