-- ==== Sys2Proof/Proofs/PageRecords.lean ====
section
/-! PROOFS. Pool records (R193, R194, R196): the fields of a record, what ALLOC, FREE, SHARE and the return of waiting frames leave in it,
and O27. -/

namespace Sys2Proof.Machine

/-! ## Tables changed entry by entry -/

/-- A change of every value that keeps the default changes what a key reads as. -/
theorem Tab.get_map {α : Type} (d : α) (m : Tab α) (h : α → α) (hd : h d = d) (k : Nat) :
    Tab.get d (m.map (fun e => (e.1, h e.2))) k = h (Tab.get d m k) := by
  induction m with
  | nil => exact hd.symm
  | cons e m ih =>
    simp only [List.map_cons, Tab.get]
    split
    · rfl
    · exact ih

/-- An entry of a table after a key is set is the new one or an old one. -/
theorem Tab.mem_set {α : Type} [DecidableEq α] {d v : α} {m : Tab α} {k : Nat} {e : Nat × α} (he : e ∈ Tab.set d m k v) :
    e = (k, v) ∨ e ∈ m := by
  induction m with
  | nil =>
    simp only [Tab.set] at he
    split at he <;> simp_all
  | cons e' m ih =>
    simp only [Tab.set] at he
    split at he
    · split at he
      · exact (ih he).imp_right (List.mem_cons_of_mem _)
      · exact (List.mem_cons.1 he).imp_right (List.mem_cons_of_mem _)
    · split at he
      · exact List.mem_cons.1 he
      · obtain rfl | he := List.mem_cons.1 he
        · exact .inr List.mem_cons_self
        · exact (ih he).imp_right (List.mem_cons_of_mem _)

/-- A key reads as the default or as the value of an entry. -/
theorem Tab.get_eq_default_or_mem {α : Type} (d : α) (m : Tab α) (k : Nat) : Tab.get d m k = d ∨ (k, Tab.get d m k) ∈ m := by
  induction m with
  | nil => exact .inl rfl
  | cons e m ih =>
    simp only [Tab.get]
    split
    · next h => exact .inr (h ▸ List.mem_cons_self)
    · exact ih.imp_right (List.mem_cons_of_mem _)

/-! ## Fields of a record (R193) -/

theorem b2n_le (b : Bool) : b2n b ≤ 1 := by
  cases b <;> decide

theorem mkRec_eq (ref : Nat) (alloc : Bool) (epoch : Nat) :
    mkRec ref alloc epoch = ref % 2 ^ 16 + 2 ^ 16 * b2n alloc + 2 ^ 32 * (epoch % 2 ^ 32) := by
  have hb := b2n_le alloc
  simp only [mkRec, packBits]
  omega

@[simp] theorem recRef_mkRec (ref : Nat) (alloc : Bool) (epoch : Nat) : recRef (mkRec ref alloc epoch) = ref % 2 ^ 16 := by
  rw [recRef, bits, mkRec_eq, Nat.shiftRight_zero]
  omega

@[simp] theorem recAlloc_mkRec (ref : Nat) (alloc : Bool) (epoch : Nat) : recAlloc (mkRec ref alloc epoch) = alloc := by
  have hbit : mkRec ref alloc epoch / 2 ^ 16 % 2 = b2n alloc := by
    have hb := b2n_le alloc
    rw [mkRec_eq]
    omega
  rw [recAlloc, bit, Nat.testBit_eq_decide_div_mod_eq, hbit]
  cases alloc <;> rfl

@[simp] theorem recEpoch_mkRec (ref : Nat) (alloc : Bool) (epoch : Nat) : recEpoch (mkRec ref alloc epoch) = epoch % 2 ^ 32 := by
  have hb := b2n_le alloc
  rw [recEpoch, bits, mkRec_eq, Nat.shiftRight_eq_div_pow]
  omega

/-- REFCOUNT and ALLOCATED of a free frame's record read 0 together. -/
theorem bits_mkRec_free (epoch : Nat) : bits (mkRec 0 false epoch) 0 17 = 0 := by
  rw [bits, mkRec_eq, Nat.shiftRight_zero, b2n, if_neg Bool.false_ne_true]
  omega

/-! ## Records under the updates of a pod -/

section
variable {x : Pod} {n i : Nat} {f g : Nat → Nat}

@[simp] theorem Pod.pool_updRec (x : Pod) (n i m : Nat) (f : Nat → Nat) :
    (x.updRec n i f).pool m = if m = n then { x.pool n with recs := Tab.upd 0 (x.pool n).recs i f } else x.pool m :=
  Tab.get_upd ({} : Pool) x.pools n m (fun p => { p with recs := Tab.upd 0 p.recs i f })

/-- The record that an update changes. -/
theorem Pod.rec_updRec (x : Pod) (n i : Nat) (f : Nat → Nat) :
    Tab.get 0 ((x.updRec n i f).pool n).recs i = f (Tab.get 0 (x.pool n).recs i) := by
  simp [Tab.get_upd]

/-- Updates that agree on the record as it stands change the pod alike. -/
theorem Pod.updRec_congr (h : f (Tab.get 0 (x.pool n).recs i) = g (Tab.get 0 (x.pool n).recs i)) : x.updRec n i f = x.updRec n i g := by
  unfold Pod.updRec
  rw [Tab.upd_congr _ _ n _ (fun p => { p with recs := Tab.upd 0 p.recs i g })]
  exact congrArg _ (Tab.upd_congr _ _ _ _ _ h)

/-- A record after an update is the new one or an old one. -/
theorem Pod.mem_updRec {e : Nat × Pool} {k : Nat × Nat} (he : e ∈ (x.updRec n i f).pools) (hk : k ∈ e.2.recs) :
    k.2 = f (Tab.get 0 (x.pool n).recs i) ∨ ∃ e' ∈ x.pools, k ∈ e'.2.recs := by
  obtain rfl | he := Tab.mem_set he
  · obtain rfl | hk := Tab.mem_set hk
    · exact .inl rfl
    · obtain hnone | hpool := Tab.get_eq_default_or_mem ({} : Pool) x.pools n
      · simp [hnone] at hk
      · exact .inr ⟨_, hpool, hk⟩
  · exact .inr ⟨e, he, hk⟩

end

/-! ## The return of waiting frames (R196) -/

/-- What the return of frames makes of a record: with REFCOUNT 0, and no open reader whose epoch is at or below FREE_EPOCH, it is free. -/
def Pod.sweepRec (x : Pod) (r : Nat) : Nat :=
  if recAlloc r && recRef r == 0 && !x.readers.any (fun k => k.2 ≤ recEpoch r) then mkRec 0 false (recEpoch r) else r

theorem Pod.sweep_eq_map (x : Pod) :
    x.sweep = { x with pools := x.pools.map (fun e => (e.1, { e.2 with recs := e.2.recs.map (fun r => (r.1, x.sweepRec r.2)) })) } := by
  unfold Pod.sweep Pod.sweepRec
  congr 1
  refine List.map_congr_left fun e _ => ?_
  dsimp only
  congr 2
  refine List.map_congr_left fun r _ => ?_
  split <;> rfl

/-- A record after the return of frames. -/
theorem Pod.rec_sweep (x : Pod) (n i : Nat) :
    Tab.get 0 (x.sweep.pool n).recs i = x.sweepRec (Tab.get 0 (x.pool n).recs i) := by
  have hpool : x.sweep.pool n = { x.pool n with recs := (x.pool n).recs.map (fun r => (r.1, x.sweepRec r.2)) } := by
    rw [x.sweep_eq_map]
    exact Tab.get_map {} x.pools (fun p => { p with recs := p.recs.map (fun r => (r.1, x.sweepRec r.2)) }) rfl n
  rw [hpool]
  exact Tab.get_map 0 _ x.sweepRec rfl i

/-- A record that is free or counted stays. -/
theorem Pod.sweepRec_settled {x : Pod} {r : Nat} (h : recAlloc r = false ∨ recRef r ≠ 0) : x.sweepRec r = r := by
  rw [Pod.sweepRec, if_neg]
  obtain h | h := h <;> simp [h]

/-- A frame that waits returns where every open reader started after its FREE_EPOCH. -/
theorem Pod.sweepRec_returns {x : Pod} {r : Nat} (hwait : recAlloc r = true ∧ recRef r = 0) (h : ∀ k ∈ x.readers, recEpoch r < k.2) :
    x.sweepRec r = mkRec 0 false (recEpoch r) := by
  rw [Pod.sweepRec, if_pos]
  simpa [hwait] using h

/-- A frame that an open reader may hold stays as it is. -/
theorem Pod.sweepRec_held {x : Pod} {r : Nat} (h : ∃ k ∈ x.readers, k.2 ≤ recEpoch r) : x.sweepRec r = r := by
  rw [Pod.sweepRec, if_neg]
  simpa using fun _ _ => h

/-- Where no frame waits, the return of frames changes nothing. -/
theorem Pod.sweep_settled {x : Pod} (h : ∀ e ∈ x.pools, ∀ k ∈ e.2.recs, recAlloc k.2 = false ∨ recRef k.2 ≠ 0) : x.sweep = x := by
  have hpools : x.pools.map (fun e => (e.1, { e.2 with recs := e.2.recs.map (fun r => (r.1, x.sweepRec r.2)) })) = x.pools := by
    refine (List.map_congr_left fun e he => ?_).trans (List.map_id _)
    have hrecs : e.2.recs.map (fun r => (r.1, x.sweepRec r.2)) = e.2.recs :=
      (List.map_congr_left fun k hk => by rw [Pod.sweepRec_settled (h e he k hk)]; rfl).trans (List.map_id _)
    rw [hrecs]
    rfl
  rw [x.sweep_eq_map, hpools]

/-! ## FREE, SHARE and ALLOC (R194) -/

/-- What FREE leaves in the record of its frame before frames return. -/
def Pod.freedRec (x : Pod) (r : Nat) : Nat :=
  if recRef r ≤ 1 then mkRec 0 (recAlloc r) x.epoch else mkRec (recRef r - 1) (recAlloc r) (recEpoch r)

section
variable {x : Pod} {a n i : Nat}

theorem Pod.freedRec_last {r : Nat} (halloc : recAlloc r = true) (hlast : recRef r ≤ 1) : x.freedRec r = mkRec 0 true x.epoch := by
  rw [Pod.freedRec, if_pos hlast, halloc]

theorem Pod.freedRec_counted {r : Nat} (halloc : recAlloc r = true) (hcount : 1 < recRef r) :
    x.freedRec r = mkRec (recRef r - 1) true (recEpoch r) := by
  rw [Pod.freedRec, if_neg (by omega), halloc]

theorem Pod.free_of_frameAt (h : x.frameAt a = some (n, i)) : x.free a = (x.updRec n i x.freedRec).sweep := by
  rw [Pod.free, h]
  rfl

theorem Pod.share_of_frameAt (h : x.frameAt a = some (n, i)) :
    x.share a = x.updRec n i (fun r => mkRec (recRef r + 1) (recAlloc r) (recEpoch r)) := by
  rw [Pod.share, h]

/-- The record of a frame that FREE has let go. -/
theorem Pod.rec_free (h : x.frameAt a = some (n, i)) :
    Tab.get 0 ((x.free a).pool n).recs i = (x.updRec n i x.freedRec).sweepRec (x.freedRec (Tab.get 0 (x.pool n).recs i)) := by
  rw [Pod.free_of_frameAt h, Pod.rec_sweep, Pod.rec_updRec]

/-- ALLOC takes the lowest frame that is not ALLOCATED. -/
theorem Pod.alloc_lowest (hi : i < (x.pool n).frames) (hfree : recAlloc (Tab.get 0 (x.pool n).recs i) = false)
    (hlow : ∀ j, j < i → recAlloc (Tab.get 0 (x.pool n).recs j) = true) :
    x.alloc n = some ((x.pool n).addr i, x.updRec n i (fun r => mkRec 1 true (recEpoch r))) := by
  have hfirst : firstIdx (fun i => !recAlloc (Tab.get 0 (x.pool n).recs i)) (x.pool n).frames = some i := by
    simpa [firstIdx, List.find?_range_eq_some, hfree, hi] using hlow
  simp [Pod.alloc, hfirst]

/-- ALLOC finds nothing where every frame is ALLOCATED. -/
theorem Pod.alloc_full (hfull : ∀ i, i < (x.pool n).frames → recAlloc (Tab.get 0 (x.pool n).recs i) = true) : x.alloc n = none := by
  simpa [Pod.alloc, firstIdx, List.find?_range_eq_none] using hfull

end

/-- Settles O27: FREE writes the record of its frame and then returns the frames that wait, of which there is at most that one. -/
theorem framesFreeAndShare : Obligations.FramesFreeAndShare := by
  rintro x a n i _ hat rfl halloc hothers
  generalize hr : Tab.get 0 (x.pool n).recs i = r at halloc
  replace halloc : recAlloc r = true := halloc
  refine ⟨fun hcount => ?counted, fun hlast hopen => ?returned, fun hlast hheld hepoch => ?held, fun hroom => ?shared⟩
  case counted =>
    replace hcount : 1 < recRef r := hcount
    have hfreed := Pod.freedRec_counted (x := x) halloc hcount
    have hsettled : ∀ e ∈ (x.updRec n i x.freedRec).pools, ∀ k ∈ e.2.recs, recAlloc k.2 = false ∨ recRef k.2 ≠ 0 := by
      intro e he k hk
      obtain hnew | ⟨e', he', hk'⟩ := Pod.mem_updRec he hk
      · have : recRef r < 2 ^ 16 := Nat.mod_lt _ (by decide)
        rw [hnew, hr, hfreed, recRef_mkRec]
        omega
      · exact hothers e' he' k hk'
    rw [Pod.free_of_frameAt hat, Pod.sweep_settled hsettled]
    exact Pod.updRec_congr (by rw [hr, hfreed]; rfl)
  case returned =>
    rw [Pod.rec_free hat, hr, Pod.freedRec_last halloc hlast, Pod.sweepRec_returns (by simp) (fun k hk => ?_)]
    · exact bits_mkRec_free _
    · rw [recEpoch_mkRec]
      exact (Nat.mod_le _ _).trans_lt (hopen k hk)
  case held =>
    rw [Pod.rec_free hat, hr, Pod.freedRec_last halloc hlast, Pod.sweepRec_held]
    · rfl
    · rwa [recEpoch_mkRec, Nat.mod_eq_of_lt hepoch]
  case shared =>
    rw [Pod.share_of_frameAt hat, Pod.rec_updRec, hr, halloc]
    rfl

end Sys2Proof.Machine
end

