-- ==== Sys2Proof/Proofs/PageCommands.lean ====
section
/-! PROOFS. The commands on pools, sequence tables and pages (R191 to R196, R452): POOL_CREATE to PAGE_FREE as changes of their pod, O25
and O26. -/

namespace Sys2Proof.Machine

/-! ## Meanings of the commands -/

section
variable (q pod pool table entry : Nat) (s : State)

theorem exec_poolCreate (frameBytes base frames : Nat) :
    exec (.poolCreate q pod pool frameBytes base frames) s = execPoolCreate q pod pool frameBytes base frames s := rfl
theorem exec_poolDestroy : exec (.poolDestroy q pod pool) s = execPoolDestroy q pod pool s := rfl
theorem exec_seqCreate (entries ringPages : Nat) :
    exec (.seqCreate q pod pool table entries ringPages) s = execSeqCreate q pod pool table entries ringPages s := rfl
theorem exec_seqDestroy : exec (.seqDestroy q pod table) s = execSeqDestroy q pod table s := rfl
theorem exec_pageAlloc (lpage : Nat) : exec (.pageAlloc q pod table entry lpage) s = execPageAlloc q pod table entry lpage s := rfl
theorem exec_pageShare (srcTable srcEntry dstTable dstEntry : Nat) :
    exec (.pageShare q pod srcTable srcEntry dstTable dstEntry) s = execPageShare q pod srcTable srcEntry dstTable dstEntry s := rfl
theorem exec_pageFree : exec (.pageFree q pod table entry) s = execPageFree q pod table entry s := rfl

end

theorem Pod.hasEnt_of_lt {x : Pod} {t i : Nat} (huse : (x.seq t).inUse = true) (hi : i < (x.seq t).entries) : x.hasEnt t i = true := by
  simp [Pod.hasEnt, huse, hi]

theorem inOwnPod_of_range {pod a n : Nat}
    (h : (podStore pod ≤ a ∧ a + n ≤ podStore (pod + 1)) ∨ (podGddr pod ≤ a ∧ a + n ≤ podGddr (pod + 1))) :
    inOwnPod pod a n = true := by
  simpa [inOwnPod] using h

/-! ## PAGE_ALLOC on the pod -/

section
variable {x y : Pod} {table entry n : Nat}

/-- PAGE_ALLOC names the lowest free frame once the frame of the entry is freed. -/
theorem Pod.pageAlloc_lowest {i : Nat} (lpage : Nat) (hn : n = (x.seq table).pool) (hy : y = x.freeEnt (x.ent table entry))
    (hi : i < (y.pool n).frames) (hfree : recAlloc (Tab.get 0 (y.pool n).recs i) = false)
    (hlow : ∀ j, j < i → recAlloc (Tab.get 0 (y.pool n).recs j) = true) :
    x.pageAlloc table entry lpage = some ((y.pool n).addr i,
      (y.updRec n i (fun r => mkRec 1 true (recEpoch r))).setEnt table entry (mkEntry ((y.pool n).addr i) 2 lpage)) := by
  rw [Pod.pageAlloc, ← hn, ← hy, Pod.alloc_lowest hi hfree hlow]
  rfl

/-- PAGE_ALLOC fails where no frame is free even then. -/
theorem Pod.pageAlloc_full (lpage : Nat) (hn : n = (x.seq table).pool) (hy : y = x.freeEnt (x.ent table entry))
    (hfull : ∀ i, i < (y.pool n).frames → recAlloc (Tab.get 0 (y.pool n).recs i) = true) : x.pageAlloc table entry lpage = none := by
  rw [Pod.pageAlloc, ← hn, ← hy, Pod.alloc_full hfull]
  rfl

end

/-! ## Outcomes -/

/-- Settles O25: each command is a change of its pod that is DONE at once; a pool with an allocated frame is RESOURCE_BUSY. -/
theorem poolsAndTablesComeAndGo : Obligations.PoolsAndTablesComeAndGo := by
  intro s q pod f p
  refine ⟨fun pool frameBytes base frames h hunused hmul hmin hmax halign hown hback => ?poolCreate, fun pool h huse => ?poolDestroy,
    fun pool table entries ringPages h huse hunused hone hring => ?seqCreate, fun table h huse => ?seqDestroy⟩
  case poolCreate =>
    cases h.form
    rw [exec_poolCreate]
    refine h.updPod rfl ⟨firstBadField_none ?_, rfl, rfl⟩ rfl
    have halign48 : base % 2 ^ 48 % 4096 = 0 := by omega
    generalize base % 2 ^ 48 = b at *
    simpa [hunused, hmul, hmin, halign48, inOwnPod_of_range hown, Dev.backed, hback] using hmax
  case poolDestroy =>
    cases h.form
    rw [exec_poolDestroy]
    refine ⟨fun hfree => h.updPod rfl ⟨if_pos huse, if_neg ?free, rfl⟩ rfl, fun hbusy => h.refusedByOwn rfl ⟨if_pos huse, ?busy, rfl⟩⟩
    case free => simpa [recAlloc, bit] using hfree
    case busy =>
      have hany : ((s.dev.pod pod).pool pool).recs.any (fun r => recAlloc r.2) = true := List.any_eq_true.2 hbusy
      simp [hany]
  case seqCreate =>
    cases h.form
    rw [exec_seqCreate]
    refine h.updPod rfl ⟨firstBadField_none ?_, rfl, rfl⟩ rfl
    have hring' : (ringPages == 0 || (ringPages == entries && 2 ≤ ringPages)) = true := by simpa [and_comm] using hring
    simp [huse, hunused, hone, hring']
  case seqDestroy =>
    cases h.form
    rw [exec_seqDestroy]
    exact h.updPod rfl ⟨if_pos huse, rfl, rfl⟩ rfl

/-- Settles O26: PAGE_ALLOC by what it takes from the pod, PAGE_SHARE and PAGE_FREE as changes of the pod. -/
theorem pagesAllocateShareAndFree : Obligations.PagesAllocateShareAndFree := by
  rintro s q pod f p x y rfl
  refine ⟨fun table entry lpage n h huse hentry hn hy => ?alloc, fun st se dt de h hsuse hse hvalid hduse hde hrefs hy => ?share,
    fun table entry h huse hentry hnamed hy => ?free⟩
  case alloc =>
    cases h.form
    rw [exec_pageAlloc]
    have hent := Pod.hasEnt_of_lt huse hentry
    refine ⟨fun i hi hfree hlow => ?taken, fun hfull => ?full⟩
    case taken =>
      have halloc := Pod.pageAlloc_lowest lpage hn hy hi hfree hlow
      have hbegun := s.dev.begin__replied q p
      refine h.becomes rfl ⟨firstBadField_none (by simp [huse, hent]), by simp [halloc], rfl⟩ ?_
      simp only [hbegun.pod, halloc]
      exact (hbegun.updPod pod _).trans (Dev.finish_replied ..)
    case full =>
      have hnone := Pod.pageAlloc_full lpage hn hy hfull
      exact h.refusedByOwn rfl ⟨firstBadField_none (by simp [huse, hent]), by simp [hnone], rfl⟩
  case share =>
    cases h.form
    rw [exec_pageShare]
    refine h.updPod rfl ⟨firstBadField_none ?_, rfl, rfl⟩ (by rw [hy]; rfl)
    have hvalid' : entState ((s.dev.pod pod).ent st se) = 2 := hvalid
    simp [hsuse, hduse, Pod.hasEnt_of_lt hsuse hse, Pod.hasEnt_of_lt hduse hde, hvalid', hrefs]
  case free =>
    cases h.form
    rw [exec_pageFree]
    have hnamed' : entState ((s.dev.pod pod).ent table entry) ≠ 0 := hnamed
    refine h.updPod rfl ⟨firstBadField_none (by simp [huse, Pod.hasEnt_of_lt huse hentry]), rfl, rfl⟩ ?_
    rw [if_neg hnamed', Pod.freeEnt, if_neg hnamed', hy]
    rfl

end Sys2Proof.Machine
end

