-- ==== Sys2Proof/Proofs/StateCommands.lean ====
section
/-! PROOFS. RUN_CONFIG, GROUP_WRITE, STATE_LOAD and STATE_SAVE as packet commands (R237, R242, R465, R466): when another step or command
keeps them off, what each leaves in its plan, and O33. -/

namespace Sys2Proof.Machine

/-! ## Changes of a plan by an admitted command -/

/-- Replies do not reach a plan. -/
theorem Dev.Replied.updPlan {a b : Dev} (h : a.Replied b) (k : Nat) (g : Plan → Plan) : (a.updPlan k g).Replied (b.updPlan k g) :=
  h.map (fun d => d.updPlan k g) (fun _ => rfl) (fun _ => rfl) (fun _ => rfl) (fun _ => rfl) (fun _ => rfl)

section
variable {s : State} {i : Instr} {f : PacketForm} {p : Packet} {ck : Dev → Checks} {k : Nat}

/-- An admitted command that changes one plan and is DONE at once. -/
theorem State.Admits.updPlan {g : Plan → Plan} (h : s.Admits i f p) (hlen : Instr.paramBytes i f = paramLen f.layout)
    (hck : (ck s.dev).Clear) :
    Res.Becomes s (s.dev.updPlan k g) (startCmd s f.queue f.opcode f.layout f.fields ck (doneAt (fun d => d.updPlan k g))) :=
  h.becomes hlen hck (((s.dev.begin__replied _ p).updPlan k g).trans (doneAt_replied (fun d => d.updPlan k g) ..))

/-- An admitted command that replies ACCEPTED and joins the plan's line of parameter-state commands under its own name. -/
theorem State.Admits.joinsLine {save : Bool} {a n : Nat} (h : s.Admits i f p) (hlen : Instr.paramBytes i f = paramLen f.layout)
    (hck : (ck s.dev).Clear) :
    Res.Becomes s (s.dev.updPlan k (fun y => { y with stateCmds := y.stateCmds ++ [(s.dev.host.nextCmd, save, a, n)] }))
      (startCmd s f.queue f.opcode f.layout f.fields ck
        (fun d c => (d.accept c).updPlan k (fun y => { y with stateCmds := y.stateCmds ++ [(c.id, save, a, n)] }))) :=
  h.becomes hlen hck (((s.dev.begin__replied _ p).trans (Dev.accept_replied _ _)).updPlan k _)

end

/-! ## Meanings of the commands -/

section
variable (q plan : Nat) (s : State)

theorem exec_runConfig (run : Nat) : exec (.runConfig q plan run) s = execRunConfig q plan run s := rfl
theorem exec_groupWrite (group step record : Nat) :
    exec (.groupWrite q plan group step record) s = execGroupWrite q plan group step record s := rfl
theorem exec_stateLoad (src len : Nat) : exec (.stateLoad q plan src len) s = execStateLoad q plan src len s := rfl
theorem exec_stateSave (dest len : Nat) : exec (.stateSave q plan dest len) s = execStateSave q plan dest len s := rfl

end

/-! ## Refusals (R444) -/

section
variable {d : Dev} {h : Nat}

/-- A step of the plan in progress, waiting or started ahead, or a parameter-state command of any plan, keeps the command off. -/
theorem Dev.stateRefusal_busy (hbusy : (d.plan h).cur ≠ none ∨ (d.plan h).next ≠ none ∨ (d.plan h).overlap ≠ none ∨
    ∃ e ∈ d.plans, e.2.stateCmds ≠ []) : ∃ r, d.stateRefusal h = some r := by
  unfold Dev.stateRefusal
  dsimp only
  split
  · exact ⟨_, rfl⟩
  · split
    · exact ⟨_, rfl⟩
    · next hsteps =>
      simp only [Bool.or_eq_true, Option.isSome_iff_ne_none, not_or, not_not] at hsteps
      obtain ⟨⟨hcur, hnext⟩, hover⟩ := hsteps
      have hcmd : ∃ e ∈ d.plans, e.2.stateCmds ≠ [] := by simpa only [hcur, hnext, hover, ne_eq, not_true, false_or] using hbusy
      refine Option.ne_none_iff_exists'.1 ?_
      rw [ne_eq, Option.map_eq_none_iff, List.find?_eq_none]
      simpa using hcmd

/-- Nothing keeps the command off an intact plan that is idle while no parameter-state command runs. -/
theorem Dev.stateRefusal_idle (hvalid : (d.plan h).valid = true) (hcur : (d.plan h).cur = none) (hnext : (d.plan h).next = none)
    (hover : (d.plan h).overlap = none) (hcmds : ∀ e ∈ d.plans, e.2.stateCmds = []) : d.stateRefusal h = none := by
  have hfind : d.plans.find? (fun e => e.2.stateCmds != []) = none := List.find?_eq_none.2 fun e he => by simp [hcmds e he]
  simp [Dev.stateRefusal, Dev.planRefusal, hvalid, hcur, hnext, hover, hfind]

end

/-- A step after the last one started has not started (R242). -/
theorem Plan.hasStarted_eq_false {p : Plan} {step : Nat} (hlast : ∀ l, p.lastStep = some l → l < step) : p.hasStarted step = false := by
  unfold Plan.hasStarted
  split
  · next l hl => simpa using hlast l hl
  · rfl

/-- Settles O33: each command is refused by its check 7 while the plan is busy, and else is a change of its plan. -/
theorem parameterStateCommands : Obligations.ParameterStateCommands := by
  rintro s q h f p _ rfl hready hlive hvalid
  have htrain : s.dev.isTraining h = true := by simp [Dev.isTraining, hready, hlive]
  refine ⟨fun i hi hadm hbusy => ?busy, fun group step record hadm hlast hconds hroom => ?groupWrite, fun hcur hnext hover hcmds =>
    ⟨fun run hadm hconds hpark => ?runConfig, fun src len x hadm hx hback hlen hfits hbad hbig => ?stateLoad,
      fun dest len hadm hplace hfits => ?stateSave⟩⟩
  case busy =>
    obtain ⟨r, hrefusal⟩ := Dev.stateRefusal_busy hbusy
    obtain ⟨run, rfl, hconds⟩ | ⟨dest, len, rfl, hplace, hfits⟩ := hi
    · cases hadm.form
      rw [exec_runConfig]
      exact hadm.refusedByOwn rfl ⟨firstBadField_none (by simpa [htrain] using hconds), by simp [hrefusal], rfl⟩
    · cases hadm.form
      rw [exec_stateSave]
      exact hadm.refusedByOwn rfl ⟨firstBadField_none (by simpa [htrain, hfits] using hplace), by simp [hrefusal], rfl⟩
  case groupWrite =>
    cases hadm.form
    rw [exec_groupWrite]
    refine hadm.updPlan rfl ⟨firstBadField_none ?_, ?_, rfl⟩
    · simpa [htrain, Plan.hasStarted_eq_false hlast] using hconds
    · simp [Dev.planRefusal, hvalid, hroom]
  all_goals have hidle := Dev.stateRefusal_idle hvalid hcur hnext hover hcmds
  case runConfig =>
    cases hadm.form
    rw [exec_runConfig]
    refine hadm.updPlan rfl ⟨firstBadField_none (by simpa [htrain] using hconds), ?_, rfl⟩
    simpa [hidle, rsStepPolicy, bit] using hpark
  case stateLoad =>
    subst hx
    cases hadm.form
    rw [exec_stateLoad]
    refine hadm.joinsLine rfl ⟨firstBadField_none ?_, ?_, rfl⟩
    · simpa [htrain, hlen] using ⟨hback, hfits, hbad⟩
    · simpa [hidle] using hbig
  case stateSave =>
    cases hadm.form
    rw [exec_stateSave]
    exact hadm.joinsLine rfl ⟨firstBadField_none (by simpa [htrain, hfits] using hplace), hidle, rfl⟩

end Sys2Proof.Machine
end

