-- ==== Sys2Proof/Proofs/CobFrames.lean ====
section
/-! SUPPORT. What the work of the Cob's units, quarantines and fences leave of the plans (R264, R268, R269), and reads and writes that meet no
parity error (R142). -/

namespace Sys2Proof.Machine

/-! ## What a unit of the Cob has written -/

/-- What a unit has written reaches memory and parity; beside these the platform's log, the counters and the trace change alone. -/
theorem Dev.absorbCob_frame (d : Dev) (unit : Nat) (cmd : Option Cmd) (w : Wk) : ∃ plat ctr o,
    d.absorbCob unit cmd w = { d with mem := w.mem, poison := w.poison, plat := plat, ctr := ctr, obs := o } := by
  unfold Dev.absorbCob Dev.absorbUnit
  generalize ({ d.plat with freeCount := d.plat.freeCount + 1 } : Plat).logReads unit 4 0 cmd w.errs = plat
  generalize bump (addKinds d.ctr (fun _ => cobInst) w.cnt) cobInst 0x1A w.errs.length = ctr
  obtain ⟨o, ctr', h⟩ := Dev.traceFaults_frame { d with mem := w.mem, poison := w.poison, plat := plat, ctr := ctr } unit 4 0 cmd w.errs
  exact ⟨plat, ctr', o, h⟩

section
variable (d : Dev) (unit : Nat) (cmd : Option Cmd) (w : Wk)

@[simp] theorem Dev.absorbCob_mem : (d.absorbCob unit cmd w).mem = w.mem := by
  obtain ⟨plat, ctr, o, h⟩ := d.absorbCob_frame unit cmd w
  rw [h]

@[simp] theorem Dev.absorbCob_host : (d.absorbCob unit cmd w).host = d.host := by
  obtain ⟨plat, ctr, o, h⟩ := d.absorbCob_frame unit cmd w
  rw [h]

@[simp] theorem Dev.absorbCob_plans : (d.absorbCob unit cmd w).plans = d.plans := by
  obtain ⟨plat, ctr, o, h⟩ := d.absorbCob_frame unit cmd w
  rw [h]

@[simp] theorem Dev.absorbCob_cob : (d.absorbCob unit cmd w).cob = d.cob := by
  obtain ⟨plat, ctr, o, h⟩ := d.absorbCob_frame unit cmd w
  rw [h]

@[simp] theorem Dev.absorbFault_plans : (d.absorbFault unit cmd w).plans = d.plans := d.absorbCob_plans _ _ _

@[simp] theorem Dev.absorbFault_cob : (d.absorbFault unit cmd w).cob = d.cob := d.absorbCob_cob _ _ _

end

/-- Devices with the same plans agree on every plan. -/
theorem Dev.plan_congr {d e : Dev} (h : e.plans = d.plans) (n : Nat) : e.plan n = d.plan n := by rw [Dev.plan, Dev.plan, h]

/-! ## What quarantines leave of a plan -/

/-- A plan but for its step in progress and the status that later steps fail with. -/
def Plan.settings (p : Plan) : Plan := { p with cur := none, blocked := 0 }

/-- From device `d` to `e` the plans keep their settings, and the Cob works for the same plan. -/
structure Dev.KeepsPlans (d e : Dev) : Prop where
  plan : ∀ h, (e.plan h).settings = (d.plan h).settings
  cob : e.cob.plan = d.cob.plan

namespace Dev.KeepsPlans

variable {d e e' : Dev}

theorem refl (d : Dev) : d.KeepsPlans d := ⟨fun _ => rfl, rfl⟩

theorem trans (h : d.KeepsPlans e) (h' : e.KeepsPlans e') : d.KeepsPlans e' :=
  ⟨fun n => (h'.plan n).trans (h.plan n), h'.cob.trans h.cob⟩

theorem of_eq (hplans : e.plans = d.plans) (hcob : e.cob = d.cob) : d.KeepsPlans e :=
  ⟨fun n => congrArg Plan.settings (Dev.plan_congr hplans n), congrArg Cob.plan hcob⟩

/-- Every step of a fold keeps the plans, and so does the fold. -/
theorem foldl {γ : Type} {f : Dev → γ → Dev} (hf : ∀ (e : Dev) c, e.KeepsPlans (f e c)) (l : List γ) (d : Dev) : d.KeepsPlans (l.foldl f d) :=
  foldl_keeps d.KeepsPlans f (fun e c he => he.trans (hf e c)) l d (refl d)

/-- A change of a plan that keeps its settings. -/
theorem updPlan {g : Plan → Plan} (hg : ∀ p, (g p).settings = p.settings) (d : Dev) (h : Nat) : d.KeepsPlans (d.updPlan h g) where
  plan n := by
    rw [Dev.plan_updPlan]
    split
    · next hn => rw [hg, hn]
    · rfl
  cob := rfl

theorem updBlocked (d : Dev) (h : Nat) (g : Plan → Nat) : d.KeepsPlans (d.updPlan h (fun p => { p with blocked := g p })) :=
  updPlan (g := fun p => { p with blocked := g p }) (fun _ => rfl) d h

theorem updRun (d : Dev) (h : Nat) (f : StepRun → StepRun) : d.KeepsPlans (d.updRun h false f) :=
  updPlan (g := fun p => p.updRun false f) (fun _ => rfl) d h

theorem finish (d : Dev) (id status detail : Nat) (ext : List Nat) : d.KeepsPlans (d.finish id status detail ext) :=
  of_eq (Dev.finish_replied d id status detail ext).plans (Dev.finish_replied d id status detail ext).cob

theorem absorbCob (d : Dev) (unit : Nat) (cmd : Option Cmd) (w : Wk) : d.KeepsPlans (d.absorbCob unit cmd w) :=
  of_eq (d.absorbCob_plans unit cmd w) (d.absorbCob_cob unit cmd w)

theorem absorbFault (d : Dev) (unit : Nat) (cmd : Option Cmd) (w : Wk) : d.KeepsPlans (d.absorbFault unit cmd w) :=
  of_eq (d.absorbFault_plans unit cmd w) (d.absorbFault_cob unit cmd w)

/-- A quarantine fails the step in progress, or blocks later ones (R269). -/
theorem quarantine (d : Dev) (i : Nat) : d.KeepsPlans (d.quarantine i) := by
  unfold Dev.quarantine
  dsimp only
  split
  · refine trans ?_ (updPlan (fun p => ?_) _ _)
    · refine trans ?_ (updRun _ _ _)
      exact ⟨fun _ => rfl, rfl⟩
    · split <;> rfl
  · exact ⟨fun _ => rfl, rfl⟩

theorem openFence (d : Dev) (pod y tag : Nat) : d.KeepsPlans (d.openFence pod y tag) :=
  of_eq (by simp [Dev.openFence]) (by simp [Dev.openFence])

end Dev.KeepsPlans

/-! ## Reads and writes without parity errors -/

/-- No byte of a range carries a parity error. -/
theorem firstBad_eq_none {p : Tab Bool} {a n : Nat} :
    firstBad p a n = none ↔ ∀ e ∈ p, e.2 = true → a ≤ e.1 → a + n ≤ e.1 := by
  simp [firstBad, List.find?_eq_none]

/-- An entry that marks a parity error after a range is cleared marked it before. -/
theorem mem_of_mem_setBad_false {e : Nat × Bool} (he : e.2 = true) {n : Nat} : ∀ {p : Tab Bool} {a : Nat}, e ∈ setBad p a false n → e ∈ p := by
  induction n with
  | zero => exact fun h => h
  | succ n ih =>
    intro p a h
    obtain rfl | h := Tab.mem_set (ih h)
    · simp at he
    · exact h

/-- Clearing a range makes no parity error. -/
theorem firstBad_setBad_false {p : Tab Bool} {b m : Nat} (h : firstBad p b m = none) (a n : Nat) :
    firstBad (setBad p a false n) b m = none := by
  rw [firstBad_eq_none] at h ⊢
  exact fun e he hbad => h e (mem_of_mem_setBad_false hbad he) hbad

/-- A read that meets neither a flaw nor a parity error changes nothing. -/
theorem Wk.read_clean {w : Wk} {a n : Nat} (hflaws : w.flaws = []) (hclean : firstBad w.poison a n = none) :
    w.read a n = (rdBytes w.mem a n, w) := by
  rw [Wk.read, if_pos hflaws]
  dsimp only
  rw [hclean]
  rfl

/-- A write that meets no flaw, of an operation without a parity error, clears the parity of its bytes. -/
theorem Wk.write_poison {w : Wk} (hflaws : w.flaws = []) (hbad : w.bad = false) (a : Nat) (bs : List Byte) :
    (w.write a bs).poison = setBad w.poison a false bs.length := by
  simp [Wk.write, hflaws, hbad, flipBad, Wk.fault]

/-! ## Bytes and numbers in memory -/

/-- Stores one behind the other. -/
theorem wrBytes_append (xs ys : List Byte) : ∀ (m : Tab Byte) (a : Nat), wrBytes m a (xs ++ ys) = wrBytes (wrBytes m a xs) (a + xs.length) ys := by
  induction xs with
  | nil => exact fun _ _ => rfl
  | cons x xs ih =>
    intro m a
    simp only [List.cons_append, wrBytes, ih, List.length_cons]
    congr 1
    omega

/-- Memories that agree on the bytes of a number agree on it. -/
theorem rdNat_congr {m m' : Tab Byte} {a n : Nat} (h : ∀ x, a ≤ x → x < a + n → rdByte m' x = rdByte m x) : rdNat m' a n = rdNat m a n := by
  have hbytes : rdBytes m' a n = rdBytes m a n :=
    List.map_congr_left fun i hi => h _ (Nat.le_add_right a i) (Nat.add_lt_add_left (List.mem_range.1 hi) a)
  rw [rdNat, rdNat, hbytes]

/-- Packed fields fill no more than their widths. -/
theorem packBits_lt : ∀ fs : List (Nat × Nat), packBits fs < 2 ^ (fs.map Prod.fst).sum
  | [] => by simp [packBits]
  | (w, v) :: fs => by
    have hfield : v % 2 ^ w < 2 ^ w := Nat.mod_lt _ (by positivity)
    calc packBits ((w, v) :: fs)
      _ < 2 ^ w + 2 ^ w * packBits fs := Nat.add_lt_add_right hfield _
      _ = 2 ^ w * (packBits fs + 1) := by rw [Nat.mul_add_one, Nat.add_comm]
      _ ≤ 2 ^ w * 2 ^ (fs.map Prod.fst).sum := Nat.mul_le_mul_left _ (packBits_lt fs)
      _ = _ := (Nat.pow_add ..).symm

end Sys2Proof.Machine
end

