-- ==== Sys2Proof/Proofs/StateImages.lean ====
section
/-! PROOFS. STATE_LOAD_DONE and STATE_SAVE_DONE (R239, R254, R264, R268, R269, R466): what a load leaves in its plan, what stands in memory
after a save, and O34. -/

namespace Sys2Proof.Machine

theorem exec_stateLoadDone (h : Nat) (flips : List Nat) (s : State) :
    exec (.stateLoadDone h flips) s = eventFlips s flips (s.dev.stateEnds h false (fun d cmd a _ => d.loadState h cmd a flips)) := rfl

theorem exec_stateSaveDone (h : Nat) (flips : List Nat) (s : State) :
    exec (.stateSaveDone h flips) s = eventFlips s flips (s.dev.stateEnds h true (fun d cmd a _ => d.saveState h cmd a flips)) := rfl

/-! ## The oldest command of the line -/

section
variable {d : Dev} {h cmd a n : Nat} {rest : List (Nat × Bool × Nat × Nat)}

/-- The oldest load ends while no step is in progress, waiting or started ahead. -/
theorem Dev.stateEnds_load {f : Dev → Nat → Nat → Nat → Dev} (hline : (d.plan h).stateCmds = (cmd, false, a, n) :: rest)
    (hcur : (d.plan h).cur = none) (hnext : (d.plan h).next = none) (hover : (d.plan h).overlap = none) :
    d.stateEnds h false f = some (f (d.updPlan h (fun p => { p with stateCmds := rest })) cmd a n) := by
  simp [Dev.stateEnds, hline, hcur, hnext, hover]

/-- The oldest save ends. -/
theorem Dev.stateEnds_save {f : Dev → Nat → Nat → Nat → Dev} (hline : (d.plan h).stateCmds = (cmd, true, a, n) :: rest) :
    d.stateEnds h true f = some (f (d.updPlan h (fun p => { p with stateCmds := rest })) cmd a n) := by
  simp [Dev.stateEnds, hline]

end

/-- The plan once a command has left the line. -/
theorem Dev.plan_line (d : Dev) (h : Nat) (rest : List (Nat × Bool × Nat × Nat)) :
    (d.updPlan h (fun p => { p with stateCmds := rest })).plan h = { d.plan h with stateCmds := rest } := by
  rw [Dev.plan_updPlan, if_pos rfl]

/-! ## STATE_LOAD_DONE -/

namespace Dev.KeepsPlans

/-- The completion of a half-done update keeps the plans (R268). -/
theorem finishShard (d : Dev) (h i : Nat) (cmd : Option Cmd) : d.KeepsPlans (d.finishShard h i cmd) := by
  unfold Dev.finishShard
  extract_lets hd b s p p' r is t needStat go d1
  have hgo : ∀ (e : Dev) w, e.KeepsPlans (go e w) := by
    intro e w
    unfold go
    split
    · exact absorbCob e 8 cmd w
    · exact (absorbFault e 8 cmd w).trans (foldl quarantine _ _)
  have hstat : d.KeepsPlans d1 := by
    unfold d1
    split
    · exact hgo _ _
    · exact refl d
  clear_value d1 go
  split
  · exact refl d
  · split
    · exact refl d
    · split
      · split
        · exact hstat
        · exact (hstat.trans (hgo _ _)).trans (of_eq rfl rfl)
      · exact quarantine d i

/-- The multicast of a loaded layer and its fences keep the plans (R254, R264). -/
theorem loadLayer (d : Dev) (h y : Nat) (cmd : Option Cmd) : d.KeepsPlans (d.loadLayer h y cmd) := by
  unfold Dev.loadLayer
  dsimp only
  split
  · exact refl d
  · exact (absorbCob d 8 cmd _).trans (foldl (fun e q => openFence e q y _) _ _)

/-- What a device holds of a plan's settings and of the Cob's plan, it keeps. -/
theorem ends {d e : Dev} {h : Nat} {p : Plan} {c : Option Nat} (hkeep : d.KeepsPlans e) (hplan : (d.plan h).settings = p) (hcob : d.cob.plan = c) :
    (e.plan h).settings = p ∧ e.cob.plan = c := ⟨(hkeep.plan h).trans hplan, hkeep.cob.trans hcob⟩

end Dev.KeepsPlans

section
variable {d : Dev} {h cmd a : Nat} {flips : List Nat} {x : Img} (hx : x = (d.plan h).readImage d.mem a)
include hx

/-- An image whose header, run state or records meet a parity error changes no plan. -/
theorem Dev.loadState_flawed (hbad : ((d.cobWork flips).read a (128 + 128 * x.nGroups)).2.bad = true) :
    (d.loadState h cmd a flips).plans = d.plans := by
  subst hx
  unfold Dev.loadState
  dsimp only
  rw [if_pos hbad, (Dev.finish_replied ..).plans, Dev.absorbFault_plans]

/-- Else the plan takes the image's settings, and the Cob works for it. -/
theorem Dev.loadState_clean (hbad : ((d.cobWork flips).read a (128 + 128 * x.nGroups)).2.bad = false) :
    ((d.loadState h cmd a flips).plan h).settings = Plan.settings { (d.plan h).withImage x with stateLoaded := true, lastStep := none } ∧
      (d.loadState h cmd a flips).cob.plan = some h := by
  subst hx
  unfold Dev.loadState
  dsimp only
  rw [if_neg (by simp [hbad])]
  generalize (Wk.loadBlocks _ a _) = loaded
  generalize hd1 : Dev.updPlan _ h _ = d1
  have hplan : (d1.plan h).settings =
      Plan.settings { (d.plan h).withImage ((d.plan h).readImage d.mem a) with stateLoaded := true, lastStep := none } := by
    rw [← hd1, Dev.plan_updPlan, if_pos rfl]
    exact congrArg (fun p => Plan.settings { Plan.withImage p ((d.plan h).readImage d.mem a) with stateLoaded := true, lastStep := none })
      (Dev.plan_congr (d.absorbCob_plans ..) h)
  have hcob : d1.cob.plan = some h := by rw [← hd1]; rfl
  have htail := ((Dev.KeepsPlans.foldl (fun e i => Dev.KeepsPlans.finishShard e h i (e.host.cmd cmd)) (List.range loaded.1.length) d1).trans
    (Dev.KeepsPlans.foldl (fun e y => Dev.KeepsPlans.loadLayer e h y (e.host.cmd cmd)) (d.plan h).layersUp _))
  refine Dev.KeepsPlans.ends (d := d1) ?_ hplan hcob
  split
  · exact (htail.trans (Dev.KeepsPlans.updBlocked _ h _)).trans (Dev.KeepsPlans.finish ..)
  · exact htail.trans (Dev.KeepsPlans.finish ..)

end

/-! ## STATE_SAVE_DONE -/

/-- The bytes of an image ahead of its blocks: header, run state and group records (R466). -/
def Dev.imageHead (d : Dev) (h : Nat) : List Byte :=
  leBytes 64 (packBits [(9, (d.plan h).nGroups), (23, 0), (32, d.cob.blks.length), (64, d.imageLen h)]) ++ leBytes 64 ((d.plan h).run.getD 0) ++
    (List.range (d.plan h).nGroups).flatMap (fun i => leBytes 128 ((d.plan h).group i))

/-- The blocks that meet a parity error in a save to address `a`, and what the save leaves. -/
def Dev.saved (d : Dev) (h a : Nat) (flips : List Nat) : List Nat × Wk :=
  ((d.cobWork flips).write a (d.imageHead h)).saveBlocks ((List.range d.cob.blks.length).zip d.cob.blks) (a + 128 + 128 * (d.plan h).nGroups)

theorem Dev.imageHead_length (d : Dev) (h : Nat) : (d.imageHead h).length = 128 + 128 * (d.plan h).nGroups := by
  simp only [Dev.imageHead, List.length_append, leBytes_length, List.length_flatMap, List.map_const', List.length_range, List.sum_replicate,
    smul_eq_mul]
  omega

/-- A save that meets no parity error is DONE. -/
theorem Dev.saveState_clean {d : Dev} {h cmd a : Nat} {flips : List Nat} {w : Wk} (hsaved : d.saved h a flips = ([], w)) :
    d.saveState h cmd a flips = (d.absorbCob 12 (d.host.cmd cmd) w).finish cmd stDone 0 [] := by
  have hs : Wk.saveBlocks _ _ _ = ([], w) := hsaved
  unfold Dev.imageHead at hs
  unfold Dev.saveState
  dsimp only
  rw [hs]
  rfl

/-- A save keeps the plans. -/
theorem Dev.KeepsPlans.saveState (d : Dev) (h cmd a : Nat) (flips : List Nat) : d.KeepsPlans (d.saveState h cmd a flips) := by
  unfold Dev.saveState
  dsimp only
  generalize Wk.saveBlocks _ _ _ = saved
  have hquarantine := (absorbCob d 12 (d.host.cmd cmd) saved.2).trans (foldl quarantine saved.1 _)
  split
  · exact hquarantine.trans (finish ..)
  · exact (hquarantine.trans (updBlocked _ h _)).trans (finish ..)

/-- Blocks without a parity error are written one after the other, and no byte outside them changes. -/
theorem Wk.saveBlocks_clean : ∀ (l : List (Nat × Blk)) (w : Wk) (a : Nat), w.flaws = [] →
    (∀ e ∈ l, firstBad w.poison e.2.cur e.2.size = none) →
    ∃ w', w.saveBlocks l a = ([], w') ∧
      ∀ x, (x < a ∨ a + (l.map (fun e => e.2.size)).sum ≤ x) → rdByte w'.mem x = rdByte w.mem x := by
  intro l
  induction l with
  | nil => exact fun w a _ _ => ⟨w, rfl, fun _ _ => rfl⟩
  | cons e l ih =>
    obtain ⟨i, b⟩ := e
    intro w a hflaws hclean
    have hread := Wk.read_clean (w := { w with bad := false }) hflaws (hclean (i, b) List.mem_cons_self)
    obtain ⟨hmem, hflaws'⟩ := Wk.write_flawless { w with bad := false } a (rdBytes w.mem b.cur b.size) hflaws
    have hpoison := Wk.write_poison (w := { w with bad := false }) hflaws rfl a (rdBytes w.mem b.cur b.size)
    obtain ⟨w', hsave, hrest⟩ := ih (Wk.write { w with bad := false } a (rdBytes w.mem b.cur b.size)) (a + b.size) hflaws' (fun e he => by
      rw [hpoison]
      exact firstBad_setBad_false (hclean e (List.mem_cons_of_mem _ he)) a _)
    refine ⟨w', ?_, fun x hx => ?_⟩
    · simp only [Wk.saveBlocks, hread, Bool.false_eq_true, if_false, hsave]
    · simp only [List.map_cons, List.sum_cons] at hx
      rw [hrest x (by omega), hmem]
      exact rdByte_wrBytes_other _ _ _ _ (by simp only [rdBytes, List.length_map, List.length_range]; omega)

section
variable {d : Dev} {h a : Nat}

/-- A save of blocks without parity errors puts the head of the image at its place, and no byte outside the image changes. -/
theorem Dev.saved_clean (hclean : ∀ b ∈ d.cob.blks, firstBad d.poison b.cur b.size = none) :
    ∃ w, d.saved h a [] = ([], w) ∧ ∀ x, (x < a + 128 + 128 * (d.plan h).nGroups ∨ a + d.imageLen h ≤ x) →
      rdByte w.mem x = rdByte (wrBytes d.mem a (d.imageHead h)) x := by
  obtain ⟨hmem, hflaws⟩ := (d.cobWork []).write_flawless a (d.imageHead h) rfl
  obtain ⟨w, hsave, hrest⟩ := Wk.saveBlocks_clean ((List.range d.cob.blks.length).zip d.cob.blks) _ (a + 128 + 128 * (d.plan h).nGroups) hflaws
    (fun e he => by
      rw [Wk.write_poison (w := d.cobWork []) rfl rfl]
      exact firstBad_setBad_false (hclean e.2 (List.of_mem_zip he).2) a _)
  have hsize : (((List.range d.cob.blks.length).zip d.cob.blks).map (fun e => e.2.size)).sum = (d.cob.blks.map (·.size)).sum :=
    congrArg List.sum ((List.map_map (f := Prod.snd) (g := Blk.size)).symm.trans
      (congrArg (List.map Blk.size) (List.map_snd_zip (by simp))))
  refine ⟨w, hsave, fun x hx => ?_⟩
  rw [hrest x (by rw [hsize]; simp only [Dev.imageLen] at hx; omega), hmem]
  rfl

/-- The first 128 bytes of an image: its header, then the run state (R466). -/
theorem Dev.rdNat_imageHead (m : Tab Byte) :
    rdNat (wrBytes m a (d.imageHead h)) a 64 =
        packBits [(9, (d.plan h).nGroups), (23, 0), (32, d.cob.blks.length), (64, d.imageLen h)] ∧
      rdNat (wrBytes m a (d.imageHead h)) (a + 64) 64 = (d.plan h).run.getD 0 % 2 ^ 512 := by
  generalize hhd : packBits [(9, (d.plan h).nGroups), (23, 0), (32, d.cob.blks.length), (64, d.imageLen h)] = hd
  have hlt : hd < 256 ^ 64 := hhd ▸ (packBits_lt _).trans (by norm_num)
  have hhead : wrBytes m a (d.imageHead h) = wrBytes (wrNat (wrNat m a 64 hd) (a + 64) 64 ((d.plan h).run.getD 0)) (a + 128)
      ((List.range (d.plan h).nGroups).flatMap (fun i => leBytes 128 ((d.plan h).group i))) := by
    rw [Dev.imageHead, hhd, wrBytes_append, wrBytes_append, List.length_append, leBytes_length, leBytes_length]
    rfl
  have hbefore : ∀ x, x < a + 128 → rdByte (wrBytes m a (d.imageHead h)) x =
      rdByte (wrNat (wrNat m a 64 hd) (a + 64) 64 ((d.plan h).run.getD 0)) x := fun x hx => by
    rw [hhead]
    exact rdByte_wrBytes_other _ _ _ _ (.inl hx)
  have h512 : 256 ^ 64 = 2 ^ 512 := by rw [show 512 = 8 * 64 from rfl, Nat.pow_mul]
  constructor
  · rw [rdNat_congr (fun x _ hx => hbefore x (by omega)), rdNat_wrNat_other _ _ _ _ _ _ (.inl le_rfl), rdNat_wrNat, Nat.mod_eq_of_lt hlt]
  · rw [rdNat_congr (fun x _ hx => hbefore x (by omega)), rdNat_wrNat, h512]

/-- A save of blocks without parity errors leaves the plans as they are and the image's head at its place, and outside the image and the reply
rings no byte of memory changes (R466). -/
theorem Dev.saveState_image (cmd : Nat) (hclean : ∀ b ∈ d.cob.blks, firstBad d.poison b.cur b.size = none) :
    (d.saveState h cmd a []).plans = d.plans ∧
      ((∀ k x, a ≤ x → x < a + 128 → ¬ (d.host.queue k).replyByte k x) →
        rdNat (d.saveState h cmd a []).mem a 64 =
            packBits [(9, (d.plan h).nGroups), (23, 0), (32, d.cob.blks.length), (64, d.imageLen h)] ∧
          rdNat (d.saveState h cmd a []).mem (a + 64) 64 = (d.plan h).run.getD 0 % 2 ^ 512) ∧
      ∀ x, (x < a ∨ a + d.imageLen h ≤ x) → (∀ k, ¬ (d.host.queue k).replyByte k x) →
        rdByte (d.saveState h cmd a []).mem x = rdByte d.mem x := by
  obtain ⟨w, hsaved, hbytes⟩ := Dev.saved_clean (h := h) (a := a) hclean
  rw [Dev.saveState_clean hsaved]
  have hreplied := Dev.finish_replied (d.absorbCob 12 (d.host.cmd cmd) w) cmd stDone 0 []
  have hmem := hreplied.mem
  simp only [Dev.absorbCob_mem, Dev.absorbCob_host] at hmem
  refine ⟨hreplied.plans.trans (Dev.absorbCob_plans ..), fun hapart => ?head, fun x hx hquiet => ?outside⟩
  case head =>
    have hhead : ∀ x, a ≤ x → x < a + 128 → rdByte ((d.absorbCob 12 (d.host.cmd cmd) w).finish cmd stDone 0 []).mem x =
        rdByte (wrBytes d.mem a (d.imageHead h)) x := fun x hge hlt =>
      (hmem x (fun k => hapart k x hge hlt)).trans (hbytes x (by omega))
    rw [rdNat_congr (fun x hge hlt => hhead x hge (by omega)), rdNat_congr (a := a + 64) (fun x hge hlt => hhead x (by omega) (by omega))]
    exact Dev.rdNat_imageHead d.mem
  case outside =>
    have hlen : 128 + 128 * (d.plan h).nGroups ≤ d.imageLen h := Nat.le_add_right _ _
    rw [hmem x hquiet, hbytes x (by omega)]
    exact rdByte_wrBytes_other _ _ _ _ (by rw [Dev.imageHead_length]; omega)

end

/-- Settles O34: a load by the settings its plan takes, or the plan it leaves; a save by the plans it keeps and the bytes of its image. -/
theorem stateImagesLoadAndSave : Obligations.StateImagesLoadAndSave := by
  rintro s h cmd a n flips rest _ rfl hdead hcp
  have hplan := s.dev.plan_line h rest
  refine ⟨fun x hline hcur hnext hover hx => ?load, fun m hline hm => ?save⟩
  case load =>
    rw [exec_stateLoadDone, Dev.stateEnds_load hline hcur hnext hover, eventFlips_some s flips _ hdead hcp]
    generalize hd : s.dev.updPlan h (fun p => { p with stateCmds := rest }) = d at *
    have hmem : d.mem = s.dev.mem := by rw [← hd]; rfl
    have hx' : x = (d.plan h).readImage d.mem a := by rw [hplan, hmem]; exact hx
    have hwork : s.dev.cobWork flips = d.cobWork flips := by rw [← hd]; rfl
    rw [hwork]
    cases hbad : ((d.cobWork flips).read a (128 + 128 * x.nGroups)).2.bad
    case false =>
      obtain ⟨hset, hcob⟩ := Dev.loadState_clean (cmd := cmd) hx' hbad
      have hcmds := congrArg Plan.stateCmds hset
      rw [hplan] at hcmds
      exact ⟨_, rfl, rfl, hcmds, fun _ => ⟨congrArg Plan.run hset, congrArg Plan.stateLoaded hset, congrArg Plan.lastStep hset,
        congrArg Plan.groupSet hset, hcob⟩, nofun⟩
    case true =>
      have hsame := (Dev.plan_congr (Dev.loadState_flawed (cmd := cmd) hx' hbad) h).trans hplan
      exact ⟨_, rfl, rfl, congrArg Plan.stateCmds hsame, nofun, fun _ => hsame⟩
  case save =>
    rw [exec_stateSaveDone, Dev.stateEnds_save hline, eventFlips_some s flips _ hdead hcp]
    generalize hd : s.dev.updPlan h (fun p => { p with stateCmds := rest }) = d at *
    have hcmds := congrArg Plan.stateCmds ((Dev.KeepsPlans.saveState d h cmd a flips).plan h)
    refine ⟨_, rfl, rfl, hcmds.trans (congrArg Plan.stateCmds hplan), ?_⟩
    rintro rfl hclean
    obtain ⟨hplans, hhead, houtside⟩ := Dev.saveState_image (d := d) (h := h) (a := a) cmd (by rw [← hd]; exact hclean)
    have hgroups : (d.plan h).nGroups = m := by rw [hplan, hm]; rfl
    have hrun : (d.plan h).run = (s.dev.plan h).run := by rw [hplan]
    have hblks : d.cob.blks = s.dev.cob.blks := by rw [← hd]; rfl
    have hhost : d.host = s.dev.host := by rw [← hd]; rfl
    have hmem : d.mem = s.dev.mem := by rw [← hd]; rfl
    simp only [Dev.imageLen, hgroups, hrun, hblks, hhost, hmem] at hhead houtside
    exact ⟨(Dev.plan_congr hplans h).trans hplan, hhead, houtside⟩

end Sys2Proof.Machine
end

