-- ==== Sys2Proof/Proofs/ReductionFrames.lean ====
section
/-! SUPPORT. What the Cob's units, the layers that become ready and the placement of reduced shards leave as it is of the reduction's intake,
of the passes and the blocks, and of memory (R237, R244 to R246, R250, R260, R261, R267, R268). -/

namespace Sys2Proof.Machine

/-! ## What the Cob keeps -/

/-- What the reduction switch has taken in: the chunks reduced, those that each pod has sent, and those that wait. -/
def Cob.intake (c : Cob) : Nat × Tab Nat × Tab (List (List Nat)) := (c.reducedN, c.sent, c.buf)

/-- The blocks, the reduced gradients held for them, and the passes done. -/
def Cob.shards (c : Cob) : List Blk × List GSlot × List (Nat × Nat) := (c.blks, c.slots, c.passed)

/-- The step in progress of a plan is marked GRAD_NONFINITE (R246). -/
def Dev.Marked (d : Dev) (h : Nat) : Prop := ∃ r, (d.plan h).cur = some r ∧ r.gradNF = true

/-- The byte lies in no header of a block's copy in use. -/
def offHeaders (bs : List Blk) (a : Nat) : Prop := ∀ b ∈ bs, a < b.cur ∨ b.cur + 64 ≤ a

/-- From device `d` to `e` the intake of the reduction switch stays, and a step that is marked GRAD_NONFINITE stays so. -/
structure Dev.KeepsIntake (d e : Dev) : Prop where
  intake : e.cob.intake = d.cob.intake
  marked : ∀ h, d.Marked h → e.Marked h

/-- From device `d` to `e` the blocks, their gradients, the passes done and, but for headers, memory stay besides. -/
structure Dev.KeepsShards (d e : Dev) : Prop extends d.KeepsIntake e where
  shards : e.cob.shards = d.cob.shards
  mem : ∀ a, offHeaders d.cob.blks a → rdByte e.mem a = rdByte d.mem a

/-- A change of a plan whose step in progress stays marked. -/
theorem Dev.Marked.updPlan {d : Dev} {h n : Nat} {g : Plan → Plan} (hm : d.Marked n)
    (hg : ∀ r, (d.plan h).cur = some r → r.gradNF = true → ∃ r', (g (d.plan h)).cur = some r' ∧ r'.gradNF = true) : (d.updPlan h g).Marked n := by
  obtain ⟨r, hr, hnf⟩ := hm
  unfold Dev.Marked
  rw [Dev.plan_updPlan]
  split
  · next hn => exact hg r (hn ▸ hr) hnf
  · exact ⟨r, hr, hnf⟩

namespace Dev.KeepsIntake

variable {d e e' : Dev}

theorem of_eq (hcob : e.cob.intake = d.cob.intake) (hplans : e.plans = d.plans) : d.KeepsIntake e :=
  ⟨hcob, fun h ⟨r, hr⟩ => ⟨r, by rw [Dev.plan_congr hplans]; exact hr⟩⟩

theorem refl (d : Dev) : d.KeepsIntake d := of_eq rfl rfl

theorem trans (h : d.KeepsIntake e) (h' : e.KeepsIntake e') : d.KeepsIntake e' :=
  ⟨h'.intake.trans h.intake, fun n hn => h'.marked n (h.marked n hn)⟩

theorem foldl {γ : Type} {f : Dev → γ → Dev} (hf : ∀ (e : Dev) c, e.KeepsIntake (f e c)) (l : List γ) (d : Dev) : d.KeepsIntake (l.foldl f d) :=
  foldl_keeps d.KeepsIntake f (fun e c he => he.trans (hf e c)) l d (refl d)

theorem replied (h : d.Replied e) : d.KeepsIntake e := of_eq (congrArg Cob.intake h.cob) h.plans

theorem storeNat (d : Dev) (a n v : Nat) : d.KeepsIntake (d.storeNat a n v) := of_eq rfl rfl

theorem trace (d : Dev) (type die unit id arg0 arg1 : Nat) : d.KeepsIntake (d.trace type die unit id arg0 arg1) := of_eq (by simp) (by simp)

end Dev.KeepsIntake

namespace Dev.KeepsShards

variable {d e e' : Dev}

theorem of_eq (hintake : e.cob.intake = d.cob.intake) (hshards : e.cob.shards = d.cob.shards) (hplans : e.plans = d.plans)
    (hmem : e.mem = d.mem) : d.KeepsShards e :=
  ⟨.of_eq hintake hplans, hshards, fun _ _ => by rw [hmem]⟩

theorem refl (d : Dev) : d.KeepsShards d := of_eq rfl rfl rfl rfl

theorem blks (h : d.KeepsShards e) : e.cob.blks = d.cob.blks := congrArg Prod.fst h.shards

theorem trans (h : d.KeepsShards e) (h' : e.KeepsShards e') : d.KeepsShards e' :=
  ⟨h.toKeepsIntake.trans h'.toKeepsIntake, h'.shards.trans h.shards,
    fun a ha => (h'.mem a (h.blks.symm ▸ ha)).trans (h.mem a ha)⟩

theorem foldl {γ : Type} {f : Dev → γ → Dev} (hf : ∀ (e : Dev) c, e.KeepsShards (f e c)) (l : List γ) (d : Dev) : d.KeepsShards (l.foldl f d) :=
  foldl_keeps d.KeepsShards f (fun e c he => he.trans (hf e c)) l d (refl d)

theorem updRun {f : StepRun → StepRun} (hf : ∀ r, r.gradNF = true → (f r).gradNF = true) (d : Dev) (h : Nat) :
    d.KeepsShards (d.updRun h false f) :=
  ⟨⟨rfl, fun _ hm => hm.updPlan (fun r hr hnf => ⟨f r, by simp [Plan.updRun, hr], hf r hnf⟩)⟩, rfl, fun _ _ => rfl⟩

theorem updPlan {g : Plan → Plan} (hg : ∀ p, (g p).cur = p.cur) (d : Dev) (h : Nat) : d.KeepsShards (d.updPlan h g) :=
  ⟨⟨rfl, fun _ hm => hm.updPlan (fun r hr hnf => ⟨r, by rw [hg, hr], hnf⟩)⟩, rfl, fun _ _ => rfl⟩

theorem trace (d : Dev) (type die unit id arg0 arg1 : Nat) : d.KeepsShards (d.trace type die unit id arg0 arg1) :=
  of_eq (by simp) (by simp) (by simp) (by simp)

end Dev.KeepsShards

/-! ## Blocks -/

theorem Cob.blk_mem {c : Cob} {i : Nat} (hi : i < c.blks.length) : c.blk i ∈ c.blks := by
  rw [Cob.blk, List.getD_eq_getElem _ _ hi]
  exact List.getElem_mem hi

theorem Cob.blk_updBlk {c : Cob} {i : Nat} (hi : i < c.blks.length) (f : Blk → Blk) : (c.updBlk i f).blk i = f (c.blk i) := by
  simp [Cob.blk, Cob.updBlk, setAt, hi]

/-- A change of a block that keeps the place of its copy in use keeps the places of headers. -/
theorem offHeaders_updBlk {c : Cob} {a : Nat} (h : offHeaders c.blks a) (i : Nat) {f : Blk → Blk} (hf : ∀ b, (f b).cur = b.cur) :
    offHeaders (c.updBlk i f).blks a := by
  intro b hb
  obtain ⟨⟨b', j⟩, hmem, rfl⟩ := List.mem_map.1 hb
  have hb' : b' ∈ c.blks := (List.mem_zipIdx hmem).2.2 ▸ List.getElem_mem _
  dsimp only
  split
  · rw [hf]
    exact h b' hb'
  · exact h b' hb'

/-! ## The update units (R250, R261, R267 to R269) -/

namespace Dev.KeepsShards

/-- A quarantine changes of memory one byte of its shard's header (R269). -/
theorem quarantine {d : Dev} {i : Nat} (hi : i < d.cob.blks.length) : d.KeepsShards (d.quarantine i) := by
  unfold Dev.quarantine
  extract_lets b d1 d2
  have h1 : d.KeepsShards d2 := by
    refine ⟨.of_eq rfl rfl, rfl, fun a ha => rdByte_wrBytes_other _ _ _ _ ?_⟩
    have hb := ha b (Cob.blk_mem hi)
    rw [leBytes_length]
    omega
  clear_value d2
  split
  · refine (h1.trans (updRun (fun r hr => ?_) _ _)).trans (updPlan (fun p => ?_) _ _)
    · split <;> exact hr
    · split <;> rfl
  · exact h1

theorem takeUp (d : Dev) (s u y : Nat) : d.KeepsShards (d.takeUp s u y) := by
  unfold Dev.takeUp
  split
  · exact of_eq rfl rfl rfl rfl
  · exact refl d

end Dev.KeepsShards

/-- The block of the pass that a unit takes next is one of the loaded plan's. -/
theorem Dev.pick_lt {d : Dev} {u i k : Nat} (h : d.pick u = some (i, k)) : i < d.cob.blks.length := by
  unfold Dev.pick at h
  split at h
  · cases h
  · obtain ⟨y, -, hy⟩ := List.exists_of_findSome?_eq_some h
    dsimp only at hy
    split at hy
    · cases hy
    · obtain ⟨j, hj, hk⟩ := List.exists_of_findSome?_eq_some hy
      have hlt : j < d.cob.blks.length := List.mem_range.1 (List.mem_filter.1 (List.mem_filter.1 hj).1).1
      split at hk
      · split at hk
        · cases hk
        · cases hk
          exact hlt
      · cases hk

namespace Dev.KeepsShards

/-- A unit takes its next pass (R267, R268). -/
theorem assign1 (d : Dev) (u : Nat) : d.KeepsShards (d.assign1 u) := by
  unfold Dev.assign1
  split
  · exact refl d
  · split
    · exact refl d
    · next i k hpick =>
      extract_lets y d1 c1 d2
      have h2 : d.KeepsShards d2 := by
        refine (takeUp d d.cob.step u y).trans ?_
        unfold d2
        split
        · exact refl d1
        · refine trans ?_ (trace ..)
          exact of_eq rfl rfl rfl rfl
      clear_value d2
      split
      · exact h2.trans (quarantine (h2.blks.symm ▸ Dev.pick_lt hpick))
      · split
        · split
          · refine (h2.trans ?_).trans (updRun (fun _ hr => ?_) _ _)
            · exact of_eq rfl rfl rfl rfl
            · exact hr
          · exact h2
        · exact h2.trans (of_eq rfl rfl rfl rfl)

theorem assign (d : Dev) : d.KeepsShards d.assign := foldl assign1 _ d

/-- A thermal stop takes effect (R267, R400). -/
theorem unitStops (d : Dev) (u : Nat) : d.KeepsShards (d.unitStops u) := by
  unfold Dev.unitStops
  split
  · exact of_eq rfl rfl rfl rfl
  · exact refl d

end Dev.KeepsShards

/-! ## Demand for power domains (R382, R385, R388) -/

namespace Dev.KeepsIntake

theorem acceptId (d : Dev) (id : Nat) : d.KeepsIntake (d.acceptId id) := by
  unfold Dev.acceptId
  split
  · exact replied (d.accept_replied _)
  · exact refl d

theorem cancelPend (d : Dev) (id : Nat) : d.KeepsIntake (d.cancelPend id) := by
  unfold Dev.cancelPend Dev.finishAll
  refine trans ?_ (foldl (fun e c => replied (e.finish_replied c stAborted 0 [])) _ _)
  exact of_eq rfl rfl

theorem traceDoms (d : Dev) (old : Pow) : d.KeepsIntake (d.traceDoms old) := by
  unfold Dev.traceDoms
  split
  · exact refl d
  · refine foldl (fun e id => ?_) _ _
    split
    · exact refl e
    · exact trace ..

theorem reqOn1 (d : Dev) (id cmd : Nat) : d.KeepsIntake (d.reqOn1 id cmd) := by
  unfold Dev.reqOn1
  extract_lets d1 x
  have h1 : d.KeepsIntake d1 := by
    unfold d1
    split
    · exact cancelPend d id
    · exact refl d
  clear_value d1
  refine h1.trans ?_
  split
  · refine trans ?_ (acceptId _ cmd)
    exact of_eq rfl rfl
  · split
    · refine trans ?_ (traceDoms _ d1.pow)
      exact of_eq rfl rfl
    · split
      · exact of_eq rfl rfl
      · split
        · exact replied (d1.finish_replied ..)
        · refine trans ?_ (acceptId _ cmd)
          exact of_eq rfl rfl

theorem demand (d : Dev) (id : Nat) : d.KeepsIntake (d.demand id) := by
  unfold Dev.demand Dev.reqOn
  dsimp only
  split
  · split
    · split
      · exact (reqOn1 d _ 0).trans (reqOn1 _ id 0)
      · exact reqOn1 d id 0
    · exact reqOn1 d id 0
  · exact refl d

/-! ## Reduced shards and ready layers (R237, R246, R260, R261) -/

theorem placeShard (d : Dev) (p : Plan) (t : TensorDecl) (k : Nat) (codes : List Nat) : d.KeepsIntake (d.placeShard p t k codes) := by
  unfold Dev.placeShard
  split
  · exact refl d
  · extract_lets n buf
    split
    extract_lets d1 first c d2
    split
    · refine trans ?_ (trace ..)
      exact of_eq rfl rfl
    · exact of_eq rfl rfl

theorem placeShards (p : Plan) (t : TensorDecl) (fuel : Nat) : ∀ d : Dev, d.KeepsIntake (d.placeShards p t fuel) := by
  induction fuel with
  | zero => exact refl
  | succ fuel ih =>
    intro d
    unfold Dev.placeShards
    extract_lets n part d1
    split
    · exact refl d
    · have h1 : d.KeepsIntake d1 := placeShard d p t _ _
      clear_value d1
      refine (h1.trans ?_).trans (ih _)
      exact of_eq rfl rfl

theorem layerReduced (d : Dev) (h y : Nat) : d.KeepsIntake (d.layerReduced h y) := by
  unfold Dev.layerReduced
  extract_lets nf d1 p r flag
  have h1 : d.KeepsIntake d1 := by
    refine trans ?_ (trace ..)
    exact of_eq rfl rfl
  clear_value d1
  split
  · refine (h1.trans (KeepsShards.updPlan (fun _ => ?_) d1 h).toKeepsIntake).trans (KeepsShards.updRun (fun _ hr => ?_) _ h).toKeepsIntake
    · rfl
    · exact hr
  · exact h1

/-- The fence of a layer opens in a pod (R264). -/
theorem openFence (d : Dev) (pod y tag : Nat) : d.KeepsIntake (d.openFence pod y tag) := by
  refine trans ?_ (trace ..)
  exact of_eq rfl rfl

theorem skipLayer (d : Dev) (h s y : Nat) : d.KeepsIntake (d.skipLayer h s y) := by
  unfold Dev.skipLayer
  extract_lets is d1 c c1 c2 d2
  have h1 : d.KeepsIntake d1 := foldl (fun e i => storeNat e _ 16 _) is d
  have hc : c.intake = d1.cob.intake := by
    refine foldl_keeps (fun b : Cob => b.intake = d1.cob.intake) _ (fun _ _ hb => ?_) is _ rfl
    exact hb
  clear_value c d1
  have h2 : d1.KeepsIntake d2 := of_eq hc rfl
  clear_value d2
  refine ((h1.trans h2).trans (foldl (fun e p => openFence e p y _) _ _)).trans (KeepsShards.updRun (fun _ hr => ?_) _ h).toKeepsIntake
  exact hr

theorem readyLayers (d : Dev) : d.KeepsIntake d.readyLayers := by
  unfold Dev.readyLayers
  split
  · exact refl d
  · next h r _ =>
    extract_lets p ys d1
    split
    · exact refl d
    · refine ((foldl (fun e y => ?_) _ d).trans (foldl demand _ _)).trans (KeepsShards.assign _).toKeepsIntake
      extract_lets
      split
      · exact skipLayer e h _ y
      · exact of_eq rfl rfl

end Dev.KeepsIntake

/-- With no step in the Cob's hands no layer becomes ready. -/
theorem Dev.readyLayers_idle {d : Dev} (h : d.cobRun = none) : d.readyLayers = d := by
  rw [Dev.readyLayers, h]

end Sys2Proof.Machine
end

