-- ==== Sys2Proof/Proofs/CobDeliveries.lean ====
section
/-! PROOFS. The deliveries of the Cob and of the page ring (R197, R244 to R246, R250, R258 to R260, R264): what each arrival answers, and O39. -/

namespace Sys2Proof.Machine

theorem exec_gradientChunkArrival (pod : Nat) (flips : List Nat) (s : State) :
    exec (.gradientChunkArrival pod flips) s = eventFlips s flips (s.dev.chunkIn pod flips) := rfl

theorem exec_updatePassComplete (n : Nat) (flips : List Nat) (s : State) :
    exec (.updatePassComplete n flips) s = eventFlips s flips (s.dev.passEnds n flips) := rfl

theorem exec_stageBlockArrival (flips : List Nat) (s : State) :
    exec (.stageBlockArrival flips) s = eventFlips s flips (s.dev.stageIn flips) := rfl

theorem exec_writebackArrival (i : Nat) (flips : List Nat) (s : State) :
    exec (.writebackArrival i flips) s = eventFlips s flips (s.dev.writtenBack i flips) := rfl

theorem exec_multicastArrival (pod y : Nat) (flips : List Nat) (s : State) :
    exec (.multicastArrival pod y flips) s = eventFlips s flips (s.dev.multicastIn pod y flips) := rfl

theorem exec_pageArrival (src : Nat) (flips : List Nat) (s : State) :
    exec (.pageArrival src flips) s = eventFlips s flips (s.dev.pageIn src flips) := rfl

/-! ## GRADIENT_CHUNK_ARRIVAL -/

/-- The step in the Cob's hands is the plan's step in progress. -/
theorem Dev.cobRun_cur {d : Dev} {h : Nat} {r : StepRun} (hrun : d.cobRun = some (h, r)) : (d.plan h).cur = some r := by
  unfold Dev.cobRun at hrun
  split at hrun
  · split at hrun
    · split at hrun
      · simp only [Option.some.injEq, Prod.mk.injEq] at hrun
        obtain ⟨rfl, rfl⟩ := hrun
        assumption
      · cases hrun
    · cases hrun
  · cases hrun

/-- The reads of a unit that carried no parity error over change the platform's log, parity, the counters and the trace alone. -/
theorem Dev.absorbFault_frame (d : Dev) (unit : Nat) (cmd : Option Cmd) (w : Wk) : ∃ poison plat ctr o,
    d.absorbFault unit cmd w = { d with poison := poison, plat := plat, ctr := ctr, obs := o } := by
  unfold Dev.absorbFault
  generalize hw : ({ w with mem := d.mem, poison := _, cnt := _ } : Wk) = w'
  obtain ⟨plat, ctr, o, h⟩ := d.absorbCob_frame unit cmd w'
  refine ⟨w'.poison, plat, ctr, o, ?_⟩
  rw [h, ← hw]

/-- A pod's copy of a chunk waits at the switch (R245). -/
def Dev.bufferChunk (d : Dev) (pod : Nat) (codes : List Nat) (w : Wk) : Dev :=
  { d.absorbFault 7 d.cobCmd w with cob := { d.cob with
      sent := Tab.set 0 d.cob.sent pod (Tab.get 0 d.cob.sent pod + 1), buf := Tab.upd [] d.cob.buf pod (· ++ [codes]) } }

/-- Each pod has sent more than `n` chunks. -/
theorem allSent_iff {n : Nat} {sent : Tab Nat} :
    ([0, 1, 2, 3] : List Nat).all (fun q => n < Tab.get 0 sent q) = true ↔ ∀ q, q ≤ 3 → n < Tab.get 0 sent q := by
  simp only [List.all_eq_true, decide_eq_true_eq]
  exact ⟨fun h q hq => h q (by interval_cases q <;> simp), fun h q hq => h q (by simp at hq; omega)⟩

section
variable {d : Dev} {h pod : Nat} {r : StepRun} {flips : List Nat}

theorem Dev.bufferChunk_sent (d : Dev) (pod q : Nat) (codes : List Nat) (w : Wk) :
    Tab.get 0 (d.bufferChunk pod codes w).cob.sent q = if q = pod then Tab.get 0 d.cob.sent pod + 1 else Tab.get 0 d.cob.sent q :=
  Tab.get_set ..

theorem Dev.bufferChunk_frame (d : Dev) (pod : Nat) (codes : List Nat) (w : Wk) : ∃ poison plat ctr o,
    d.bufferChunk pod codes w = { d with poison := poison, plat := plat, ctr := ctr, obs := o, cob := (d.bufferChunk pod codes w).cob } := by
  obtain ⟨poison, plat, ctr, o, hf⟩ := d.absorbFault_frame 7 d.cobCmd w
  refine ⟨poison, plat, ctr, o, ?_⟩
  unfold Dev.bufferChunk
  rw [hf]

/-- Without a credit no chunk is sent (R245). -/
theorem Dev.chunkIn_noCredit (hrun : d.cobRun = some (h, r)) (hcredit : 32 ≤ Tab.get 0 d.cob.sent pod - d.cob.reducedN) :
    d.chunkIn pod flips = none := by
  unfold Dev.chunkIn
  rw [hrun]
  dsimp only
  split
  · rfl
  · simp [hcredit]

section
variable {t t2 : TensorDecl} {sy sy2 : Sym} {c c2 : Nat} {codes : List Nat} {w : Wk} (hrun : d.cobRun = some (h, r))
  (hchunk : chunkAt (d.plan h) (d.plan h).sendOrder (Tab.get 0 d.cob.sent pod) = some (t, sy, c)) (hpod : pod ≤ 3) (hgo : r.halting = false)
  (hformed : d.gradFormed h r pod sy = true) (hcredit : Tab.get 0 d.cob.sent pod - d.cob.reducedN < 32)
  (hnext : chunkAt (d.plan h) (d.plan h).sendOrder d.cob.reducedN = some (t2, sy2, c2))
  (hroom : d.parkRoom (d.plan h) (chunkElems sy2 c2).length = true)
  (hread : (d.cobWork flips).sendCodes sy (sy.at_ pod) ((chunkElems sy c).headD 0) ((chunkElems sy c).headD 0 + (chunkElems sy c).length) =
    (codes, w)) (hbad : w.bad = false)
include hrun hchunk hpod hgo hformed hcredit hnext hroom hread hbad

/-- A chunk sent against a credit and read intact is buffered, and with the fourth copy the next chunk is reduced (R244, R245). -/
theorem Dev.chunkIn_intact :
    d.chunkIn pod flips = some (if ([0, 1, 2, 3] : List Nat).all (fun q => d.cob.reducedN < Tab.get 0 (d.bufferChunk pod codes w).cob.sent q) then
      (d.bufferChunk pod codes w).reduceNext h else d.bufferChunk pod codes w) := by
  unfold Dev.chunkIn
  rw [hrun]
  dsimp only
  rw [hchunk]
  dsimp only
  rw [hnext, hread]
  dsimp only
  rw [if_neg (by simp [hgo, hformed, hroom, Nat.not_lt.2 hpod, Nat.not_le.2 hcredit]), if_neg (by simp [hbad])]
  rfl

/-- While another pod's copy of the next chunk is missing, the chunk is buffered. -/
theorem Dev.chunkIn_waits (hmissing : ∃ q, q ≤ 3 ∧ q ≠ pod ∧ Tab.get 0 d.cob.sent q ≤ d.cob.reducedN) :
    d.chunkIn pod flips = some (d.bufferChunk pod codes w) := by
  obtain ⟨q, hq, hne, hless⟩ := hmissing
  have hnot : ¬ ∀ q, q ≤ 3 → d.cob.reducedN < Tab.get 0 (d.bufferChunk pod codes w).cob.sent q := fun hall => by
    have hlt := hall q hq
    rw [Dev.bufferChunk_sent, if_neg hne] at hlt
    omega
  rw [Dev.chunkIn_intact hrun hchunk hpod hgo hformed hcredit hnext hroom hread hbad, if_neg (mt allSent_iff.1 hnot)]

/-- With the fourth copy the next chunk is reduced. -/
theorem Dev.chunkIn_reduces (hle : d.cob.reducedN ≤ Tab.get 0 d.cob.sent pod)
    (hpresent : ∀ q, q ≤ 3 → q ≠ pod → d.cob.reducedN < Tab.get 0 d.cob.sent q) :
    d.chunkIn pod flips = some ((d.bufferChunk pod codes w).reduceNext h) := by
  have hall : ∀ q, q ≤ 3 → d.cob.reducedN < Tab.get 0 (d.bufferChunk pod codes w).cob.sent q := fun q hq => by
    rw [Dev.bufferChunk_sent]
    split
    · omega
    · next hne => exact hpresent q hq hne
  rw [Dev.chunkIn_intact hrun hchunk hpod hgo hformed hcredit hnext hroom hread hbad, if_pos (allSent_iff.2 hall)]

end

/-- The chunk that the four copies at the switch's head make. -/
def Cob.headSum (c : Cob) : List Nat :=
  reduce4 ((Tab.get [] c.buf 0).headD []) ((Tab.get [] c.buf 1).headD []) ((Tab.get [] c.buf 2).headD []) ((Tab.get [] c.buf 3).headD [])

/-- The buffers without the oldest copy of each pod. -/
theorem Cob.buf_tails (b : Tab (List (List Nat))) {q : Nat} (hq : q ≤ 3) :
    Tab.get [] (([0, 1, 2, 3] : List Nat).foldl (fun b q => Tab.upd [] b q List.tail) b) q = (Tab.get [] b q).tail := by
  interval_cases q <;> simp [Tab.get_upd]

/-- The reduction takes each pod's oldest copy and counts one chunk more; a non-finite sum marks the step (R244 to R246). -/
theorem Dev.reduceNext_spec {t : TensorDecl} {sy : Sym} {c : Nat} (hnext : chunkAt (d.plan h) (d.plan h).sendOrder d.cob.reducedN = some (t, sy, c))
    (hcur : (d.plan h).cur = some r) :
    (d.reduceNext h).cob.reducedN = d.cob.reducedN + 1 ∧ (d.reduceNext h).cob.sent = d.cob.sent ∧
      (∀ q, q ≤ 3 → Tab.get [] (d.reduceNext h).cob.buf q = (Tab.get [] d.cob.buf q).tail) ∧
      ((∃ x ∈ d.cob.headSum, (fp32 x).isFinite = false) → (d.reduceNext h).Marked h) := by
  have hreduce : ∃ d2 : Dev, d2.KeepsIntake (d.reduceNext h) ∧ d2.cob.intake = (d.cob.reducedN + 1, d.cob.sent,
      ([0, 1, 2, 3] : List Nat).foldl (fun b q => Tab.upd [] b q List.tail) d.cob.buf) ∧
      ((∃ x ∈ d.cob.headSum, (fp32 x).isFinite = false) → d2.Marked h) := by
    unfold Dev.reduceNext
    extract_lets +onlyGivenNames p
    rw [hnext]
    dsimp -zeta only
    extract_lets copy out nf buf _ base cob d1 d2 last d3 lastOfLayer
    have hbase : base.sent = d.cob.sent := by unfold base; split <;> rfl
    have hcob : d1.cob.intake = (d.cob.reducedN + 1, d.cob.sent, buf) := by
      rw [← hbase]
      unfold d1
      dsimp only
      split <;> rfl
    refine ⟨d2, ?keep, ?intake, ?marked⟩
    case keep =>
      have hplace : d2.KeepsIntake d3 := KeepsIntake.placeShards p t _ d2
      refine (hplace.trans ?_).trans (KeepsIntake.readyLayers _)
      split
      · exact KeepsIntake.layerReduced d3 h t.layer
      · exact KeepsIntake.refl d3
    case intake =>
      unfold d2
      split <;> exact hcob
    case marked =>
      rintro ⟨x, hx, hinf⟩
      have hnf : nf = true := List.any_eq_true.2 ⟨x, hx, by simp [hinf]⟩
      unfold d2
      rw [if_pos hnf]
      have hrun := Dev.updRun_run d1 h false (fun r => { r with gradNF := true })
      exact ⟨{ r with gradNF := true }, hrun.trans (congrArg (Option.map _) hcur), rfl⟩
  obtain ⟨d2, hkeep, hintake, hmarked⟩ := hreduce
  have hin := hkeep.intake.trans hintake
  simp only [Cob.intake, Prod.mk.injEq] at hin
  obtain ⟨hn, hsent, hbuf⟩ := hin
  exact ⟨hn, hsent, fun q hq => by rw [hbuf, Cob.buf_tails _ hq], fun hnf => hkeep.marked h (hmarked hnf)⟩

end

/-! ## UPDATE_PASS_COMPLETE -/

/-- What a pass leaves behind does not depend on the passes in progress. -/
theorem Cob.passDone_units (c : Cob) (units : Tab (Option (Nat × Nat))) (i k : Nat) :
    (Cob.passDone { c with units := units } i k).shards = (c.passDone i k).shards := by
  unfold Cob.passDone
  dsimp only
  split
  · rfl
  · split <;> rfl

/-- A unit whose pass met no parity error in a shard: the pass is recorded, and units go on (R250, R267). -/
theorem Dev.passEnds_intact {d : Dev} {h n i k : Nat} {r : StepRun} {flips : List Nat} (hn : n ≤ 3) (hrun : d.cobRun = some (h, r))
    (hunit : Tab.get none d.cob.units n = some (i, k)) (hclean : d.badBlks (d.plan h) (d.passWork (d.plan h) r i k flips) = []) :
    ∃ d1 e : Dev, d.passEnds n flips = some e ∧ d1.cob.shards = (d.cob.passDone i k).shards ∧
      d1.mem = (d.passWork (d.plan h) r i k flips).mem ∧ d1.KeepsShards e := by
  have hbusy : d.assign1 n = d := by simp [Dev.assign1, hunit]
  unfold Dev.passEnds
  rw [if_neg (Nat.not_lt.2 hn), hbusy]
  extract_lets +onlyGivenNames d0
  rw [hunit, hrun]
  dsimp -zeta only
  extract_lets p y w hurt _ d1 d2 d3 d4 d5
  have hhurt : ¬ (hurt != []) = true := by simp [show hurt = [] from hclean]
  rw [if_neg hhurt]
  have hcob : d2.cob = d1.cob := Dev.absorbCob_cob ..
  have hmem : d2.mem = w.mem := Dev.absorbCob_mem ..
  have hlayer : d3.KeepsShards d4 := by
    unfold d4
    split
    · exact KeepsShards.of_eq rfl rfl rfl rfl
    · exact KeepsShards.refl d3
  have hfail : d4.KeepsShards d5 := by
    unfold d5
    split
    · refine KeepsShards.updRun (fun r hr => ?_) d4 h
      unfold StepRun.fail
      split <;> exact hr
    · exact KeepsShards.refl d4
  refine ⟨d3, _, rfl, ?_, hmem, ((hlayer.trans hfail).trans (.unitStops d5 n)).trans (.assign _)⟩
  calc (d2.cob.passDone i k).shards
    _ = (d1.cob.passDone i k).shards := by rw [hcob]
    _ = (d.cob.passDone i k).shards := Cob.passDone_units ..

theorem Cob.passDone_passed (c : Cob) (i k : Nat) : (c.passDone i k).passed = c.passed ++ [(i, k)] := by
  unfold Cob.passDone
  dsimp only
  split
  · rfl
  · split <;> rfl

theorem Cob.passDone_slots (c : Cob) (i k : Nat) :
    (c.passDone i k).slots = if k = 2 then c.slots.filter (fun x => x.blk != i) else c.slots := by
  unfold Cob.passDone
  dsimp only
  split
  · rfl
  · split <;> rfl

theorem Cob.passDone_weight {c : Cob} {i : Nat} (hi : i < c.blks.length) :
    (c.passDone i 4).blk i = { c.blk i with used := true, writing := (c.blk i).home != 0 } :=
  Cob.blk_updBlk (c := { c with passed := c.passed ++ [(i, 4)] }) hi _

/-- The end of a pass leaves every block's copy in use where it lies. -/
theorem Cob.passDone_offHeaders {c : Cob} {a : Nat} (h : offHeaders c.blks a) (i k : Nat) : offHeaders (c.passDone i k).blks a := by
  unfold Cob.passDone
  dsimp only
  split
  · exact h
  · split
    · exact offHeaders_updBlk (c := { c with passed := c.passed ++ [(i, k)] }) h i (fun _ => rfl)
    · exact h

/-! ## MULTICAST_ARRIVAL -/

section
variable {d : Dev} {h pod y : Nat} {r : StepRun} {flips : List Nat} (hrun : d.cobRun = some (h, r))
include hrun

/-- Off a digest step the fence of an updated layer opens as its multicast arrives (R264). -/
theorem Dev.multicastIn_opens (hpod : pod ≤ 3) (hy : y ∈ (d.plan h).layersUp) (hgo : r.noUpdate = false) (hdone : (d.cob.layer y).done = true)
    (hskip : (d.cob.layer y).skip = false) (hstuck : (d.cob.layer y).stuck = false) (hfence : (d.cob.layer y).fenced.testBit pod = false)
    (hdigest : digestStep (rsDigest ((d.plan h).run.getD 0)) r.step = false) :
    d.multicastIn pod y flips =
      some ({ d with cob := d.cob.updLayer y (fun l => { l with fenced := l.fenced ||| 2 ^ pod }) }.openFence pod y (r.step + 1)) := by
  unfold Dev.multicastIn
  rw [hrun]
  simp [hdone, hskip, hstuck, hgo, hy, hdigest, bit, hfence, Nat.not_lt.2 hpod]

/-- A layer that is not updated yet, or whose fence is open in the pod, has no multicast on its way. -/
theorem Dev.multicastIn_none (hno : (d.cob.layer y).done = false ∨ (d.cob.layer y).fenced.testBit pod = true) : d.multicastIn pod y flips = none := by
  unfold Dev.multicastIn
  rw [hrun]
  obtain hno | hno := hno <;> simp [hno, bit]

end

/-! ## Copies of state blocks (R247, R258, R259) -/

/-- Memory once a block of `n` bytes at `src` has been copied to `dst` and its header there is `hd`. -/
def copyBlock (m : Tab Byte) (src dst n hd : Nat) : Tab Byte := wrNat (wrBytes m dst (rdBytes m src n)) dst 64 hd

section
variable {m : Tab Byte} {src dst n hd x : Nat}

theorem rdBytes_length (m : Tab Byte) (a n : Nat) : (rdBytes m a n).length = n := by simp [rdBytes]

/-- The sections of the block are those of the source. -/
theorem copyBlock_section (hx : 64 ≤ x) (hn : x < n) : rdByte (copyBlock m src dst n hd) (dst + x) = rdByte m (src + x) := by
  rw [copyBlock, rdByte_wrNat_other _ _ _ _ _ (.inr (by omega)), rdByte_wrBytes _ _ _ x (by rwa [rdBytes_length])]
  simp [rdBytes]

/-- No byte outside the copy changes. -/
theorem copyBlock_outside (hn : 64 ≤ n) (hx : x < dst ∨ dst + n ≤ x) : rdByte (copyBlock m src dst n hd) x = rdByte m x := by
  rw [copyBlock, rdByte_wrNat_other _ _ _ _ _ (by omega)]
  exact rdByte_wrBytes_other _ _ _ _ (by rwa [rdBytes_length])

theorem header_copyBlock : header (copyBlock m src dst n hd) dst = hd % 2 ^ 512 := by
  rw [header, copyBlock, rdNat_wrNat, show (256 : Nat) ^ 64 = 2 ^ 512 by rw [show 512 = 8 * 64 from rfl, Nat.pow_mul]]

end

/-- A unit that meets no flaw copies a block and stores its header. -/
theorem Wk.copyBlock_flawless {w w' : Wk} {bs : List Byte} {src dst n hd : Nat} (hflaws : w.flaws = []) (hread : w.read src n = (bs, w')) :
    ((w'.write dst bs).write dst (leBytes 64 hd)).mem = copyBlock w.mem src dst n hd := by
  obtain ⟨hbytes, hmem, hflaws'⟩ := w.read_flawless src n hflaws
  rw [hread] at hbytes hmem hflaws'
  obtain ⟨hmem1, hflaws1⟩ := w'.write_flawless dst bs hflaws'
  rw [(Wk.write_flawless _ dst (leBytes 64 hd) hflaws1).1, hmem1]
  dsimp only at hbytes hmem
  rw [hbytes, hmem]
  rfl

/-! ## STAGE_BLOCK_ARRIVAL and WRITEBACK_ARRIVAL -/

/-- An intact block that finds a place arrives in STAGE; with no step in the Cob's hands no layer waits for it (R258). -/
theorem Dev.stageIn_intact {d : Dev} {h i a : Nat} {flips : List Nat} {bs : List Byte} {w : Wk} (hplan : d.cob.plan = some h)
    (hidle : d.cobRun = none) (hnext : d.nextStage = some i)
    (hplace : placeIn 64 ((d.plan h).area 1) d.cob.staged (d.cob.blk i).size = some a)
    (hback : d.backed (d.cob.blk i).addr (d.cob.blk i).size = true)
    (hread : (d.cobWork flips).read (d.cob.blk i).addr (d.cob.blk i).size = (bs, w)) (hbad : w.bad = false) :
    ∃ e hd, d.stageIn flips = some e ∧ e.cob = d.cob.updBlk i (fun b => { b with stage := some a }) ∧
      e.mem = ((w.write a bs).write a (leBytes 64 hd)).mem := by
  unfold Dev.stageIn
  rw [hplan, hnext]
  dsimp only
  rw [hplace]
  dsimp only
  rw [hread]
  generalize mkHeader _ _ true = hd
  simp only [hback, hbad, Bool.not_true, Bool.false_eq_true, if_false]
  generalize hw : (w.write a bs).write a (leBytes 64 hd) = w'
  obtain ⟨plat, ctr, o, hf⟩ := d.absorbCob_frame 12 d.cobCmd w'
  rw [hf, Dev.readyLayers_idle]
  · exact ⟨_, hd, rfl, rfl, by rw [hw]⟩
  · exact hidle

/-- A block with no write-back under way has none arrive. -/
theorem Dev.writtenBack_none {d : Dev} {i : Nat} {flips : List Nat} (h : (d.cob.blk i).writing = false) : d.writtenBack i flips = none := by
  unfold Dev.writtenBack
  dsimp only
  split
  · rfl
  · simp [h]

/-- The write-back of an intact block: the home copy, and the place in STAGE (R258, R259). -/
theorem Dev.writtenBack_intact {d : Dev} {i a : Nat} (hstage : (d.cob.blk i).stage = some a) (hwriting : (d.cob.blk i).writing = true)
    (hback : d.backed (d.cob.blk i).addr (d.cob.blk i).size = true) (hclean : firstBad d.poison a (d.cob.blk i).size = none) :
    ∃ e, d.writtenBack i [] = some e ∧
      e.cob = d.cob.updBlk i (fun b => { b with writing := false, stage := if hdPinned (header d.mem a) then some a else none }) ∧
      e.mem = copyBlock d.mem a (d.cob.blk i).addr (d.cob.blk i).size
        (mkHeader (header d.mem a) (bit (header d.mem a) 194) (hdPinned (header d.mem a))) := by
  have hread := Wk.read_clean (w := d.cobWork []) (a := a) (n := (d.cob.blk i).size) rfl hclean
  unfold Dev.writtenBack
  dsimp only
  rw [hstage]
  dsimp only
  rw [hread]
  simp only [hwriting, hback, Bool.not_true, Bool.or_self, Bool.false_eq_true, if_false]
  refine ⟨_, rfl, by rw [Dev.absorbCob_cob], ?_⟩
  dsimp only
  rw [Dev.absorbCob_mem, Wk.copyBlock_flawless rfl hread]
  rfl

/-! ## PAGE_ARRIVAL -/

theorem firstBad_of_anyBad {p : Tab Bool} {a n : Nat} (h : anyBad p a n = false) : firstBad p a n = none := by
  rw [anyBad, List.any_eq_false] at h
  rw [firstBad, List.find?_eq_none.2 h]
  rfl

/-- What a unit has written reaches memory and parity; beside these the platform's log, the counters and the trace change alone. -/
theorem Dev.absorbUnit_frame (d : Dev) (inst unit die : Nat) (cmd : Option Cmd) (w : Wk) : ∃ plat ctr o,
    d.absorbUnit inst unit die cmd w = { d with mem := w.mem, poison := w.poison, plat := plat, ctr := ctr, obs := o } := by
  unfold Dev.absorbUnit
  generalize ({ d.plat with freeCount := d.plat.freeCount + 1 } : Plat).logReads unit die 0 cmd w.errs = plat
  generalize bump (addKinds d.ctr (fun _ => inst) w.cnt) inst 0x1A w.errs.length = ctr
  obtain ⟨o, ctr', h⟩ := Dev.traceFaults_frame { d with mem := w.mem, poison := w.poison, plat := plat, ctr := ctr } unit die 0 cmd w.errs
  exact ⟨plat, ctr', o, h⟩

/-- Bytes copied to `a` stay where a number is stored beside them. -/
theorem rdBytes_copied {m : Tab Byte} {src a n e k v : Nat} (hapart : e + k ≤ a ∨ a + n ≤ e) :
    rdBytes (wrNat (wrBytes m a (rdBytes m src n)) e k v) a n = rdBytes m src n := by
  have hcopy := rdBytes_wrBytes m a (rdBytes m src n)
  rw [rdBytes_length] at hcopy
  refine (List.map_congr_left fun i hi => rdByte_wrNat_other _ e k v (a + i) ?_).trans hcopy
  have hlt := List.mem_range.1 hi
  omega

/-- An intact page at its last hop: its bytes, its one table entry, and its leaving the ring (R197, R198). -/
theorem Dev.pageIn_lastHop {d : Dev} {src e : Nat} {p : PageXfer} (hnext : (d.pod src).nextPage = some p) (hhops : p.hops = 0)
    (hclean : anyBad d.poison p.srcAddr p.bytes = false) (hentry : (d.pod p.dst).privEntries p.key p.table p.lpage = [e]) :
    ∃ t, d.pageIn src [] = some t ∧ t.pods = Tab.upd {} d.pods src (fun x => { x with xfers := x.xfers.erase p }) ∧
      t.mem = wrNat (wrBytes d.mem p.dstAddr (rdBytes d.mem p.srcAddr p.bytes)) e 8 (mkEntry p.dstAddr 2 p.lpage) := by
  generalize hw0 : ({ mem := d.mem, poison := d.poison, free := d.plat.freeCount, flaws := [], die := p.dst } : Wk) = w0
  have hflaws : w0.flaws = [] := by rw [← hw0]
  have hmem0 : w0.mem = d.mem := by rw [← hw0]
  have hread : w0.read p.srcAddr p.bytes = (rdBytes d.mem p.srcAddr p.bytes, w0) := by
    rw [Wk.read_clean hflaws (by rw [← hw0]; exact firstBad_of_anyBad hclean), hmem0]
  unfold Dev.pageIn
  rw [hnext]
  dsimp -zeta only
  rw [hw0, hread]
  dsimp -zeta only
  extract_lets work cmd w d1 d2 d3 d4
  have hbad : w.bad = false := by
    have hsame : w.bad = w0.bad := by simp [w, Wk.write, hflaws, Wk.fault]
    rw [hsame, ← hw0]
  have hmem : w.mem = wrBytes d.mem p.dstAddr (rdBytes d.mem p.srcAddr p.bytes) :=
    (w0.write_flawless p.dstAddr _ hflaws).1.trans (by rw [hmem0])
  obtain ⟨plat, ctr, o, hf⟩ := d.absorbUnit_frame (podInst p.dst) 3 p.dst cmd w
  have hd2 : d2 = d1.storeNat e 8 (mkEntry p.dstAddr 2 p.lpage) := by
    have hsame : d1.pod p.dst = d.pod p.dst := by unfold d1; rw [hf]; rfl
    unfold d2
    rw [hsame, hentry]
    rfl
  have hd4 : d4 = d3 := if_pos hhops
  rw [hbad, if_neg Bool.false_ne_true, hd4]
  refine ⟨d3, rfl, ?_, ?_⟩
  · unfold d3
    rw [hd2]
    unfold d1
    rw [hf]
    rfl
  · unfold d3
    rw [hd2]
    unfold d1
    rw [hf, ← hmem]
    rfl

/-! ## The obligation -/

/-- Settles O39: each arrival by the equation for its meaning; what follows a reduction or a pass keeps the reduction's intake or the shards. -/
theorem cobAndPageRingDeliver : Obligations.CobAndPageRingDeliver := by
  intro s flips hdead hcp
  refine ⟨?cob, ?stage, ?back, ?page⟩
  case cob =>
    rintro h r pl hrun rfl
    refine ⟨?chunk, ?pass, ?multicast⟩
    case chunk =>
      rintro pod j t sy c es codes w rfl hchunk rfl
      rw [exec_gradientChunkArrival]
      refine ⟨fun hcredit => ?noCredit, fun t2 sy2 c2 hpod hgo hformed hcredit hnext hroom hread hbad => ?_⟩
      case noCredit => rw [Dev.chunkIn_noCredit hrun hcredit, eventFlips_none s flips hcp]
      obtain ⟨poison, plat, ctr, o, hf⟩ := s.dev.bufferChunk_frame pod codes w
      refine ⟨fun hmissing => ?buffered, fun buf hbuf hle hpresent => ?reduced⟩
      case buffered =>
        rw [Dev.chunkIn_waits hrun hchunk hpod hgo hformed hcredit hnext hroom hread hbad hmissing, eventFlips_some s flips _ hdead hcp]
        refine ⟨_, rfl, rfl, rfl, ?_⟩
        rw [hf]
        exact ⟨rfl, rfl, rfl, rfl, rfl⟩
      case reduced =>
        subst hbuf
        rw [Dev.chunkIn_reduces hrun hchunk hpod hgo hformed hcredit hnext hroom hread hbad hle hpresent, eventFlips_some s flips _ hdead hcp]
        have hplan : (s.dev.bufferChunk pod codes w).plan h = s.dev.plan h := by rw [hf]; rfl
        obtain ⟨hn, hsent, htails, hmark⟩ := Dev.reduceNext_spec (d := s.dev.bufferChunk pod codes w) (h := h) (hplan ▸ hnext)
          (hplan ▸ Dev.cobRun_cur hrun)
        exact ⟨_, rfl, rfl, hn, by rw [hsent, Dev.bufferChunk_sent, if_pos rfl], htails, hmark⟩
    case pass =>
      rintro n i k w hn hunit rfl hclean
      obtain ⟨d1, e, hends, hshards, hmem, hkeep⟩ := Dev.passEnds_intact hn hrun hunit hclean
      rw [exec_updatePassComplete, hends, eventFlips_some s flips _ hdead hcp]
      have hall := hkeep.shards.trans hshards
      simp only [Cob.shards, Prod.mk.injEq] at hall hshards
      obtain ⟨hblks, hslots, hpassed⟩ := hall
      refine ⟨_, rfl, rfl, hpassed.trans (Cob.passDone_passed ..), hslots.trans (Cob.passDone_slots ..), ?_, fun a ha => ?_⟩
      · rintro rfl hi
        rw [← Cob.passDone_weight hi, Cob.blk, hblks, Cob.blk]
      · rw [hkeep.mem a (hshards.1 ▸ Cob.passDone_offHeaders ha i k), hmem]
    case multicast =>
      intro pod y hpod hy hgo
      rw [exec_multicastArrival]
      refine ⟨fun hdone hskip hstuck hfence hdigest => ?_, fun hno => ?_⟩
      · rw [Dev.multicastIn_opens hrun hpod hy hgo hdone hskip hstuck hfence hdigest, eventFlips_some s flips _ hdead hcp]
        rfl
      · rw [Dev.multicastIn_none hrun hno, eventFlips_none s flips hcp]
  case stage =>
    intro h i a bs w hplan hidle hnext hi hplace hback hsize hread hbad
    obtain ⟨e, hd, hstage, hcob, hmem⟩ := Dev.stageIn_intact hplan hidle hnext hplace hback hread hbad
    rw [exec_stageBlockArrival, hstage, eventFlips_some s flips _ hdead hcp]
    refine ⟨_, rfl, rfl, by rw [hcob, Cob.blk_updBlk hi], ?_, ?_⟩
    · rintro rfl x hx hlt
      rw [hmem, Wk.copyBlock_flawless rfl hread]
      exact copyBlock_section hx hlt
    · rintro rfl x hx
      rw [hmem, Wk.copyBlock_flawless rfl hread]
      exact copyBlock_outside hsize hx
  case back =>
    rintro i a b rfl hi hstage
    refine ⟨fun hno => ?_, fun hwriting hback hclean hsize => ?_⟩
    · rw [exec_writebackArrival, Dev.writtenBack_none hno, eventFlips_none s flips hcp]
    · obtain ⟨e, hend, hcob, hmem⟩ := Dev.writtenBack_intact hstage hwriting hback hclean
      rw [exec_writebackArrival, hend, eventFlips_some s [] _ hdead rfl]
      refine ⟨_, rfl, rfl, by rw [hcob, Cob.blk_updBlk hi], ?_, fun x hx hlt => ?_, fun x hx => ?_⟩
      · rw [hmem, header_copyBlock]
      · rw [hmem, copyBlock_section hx hlt]
      · rw [hmem, copyBlock_outside hsize hx]
  case page =>
    intro src p e hnext hhops hne hclean hentry hapart
    obtain ⟨d, hin, hpods, hmem⟩ := Dev.pageIn_lastHop hnext hhops hclean hentry
    rw [exec_pageArrival, hin, eventFlips_some s [] _ hdead rfl]
    have hpod : ∀ n, d.pod n = (s.dev.updPod src (fun x => { x with xfers := x.xfers.erase p })).pod n := fun n => by rw [Dev.pod, hpods]; rfl
    refine ⟨_, rfl, rfl, by rw [hpod]; simp, by rw [hpod]; simp [hne], ?_, ?_, fun x hx hxe => ?_⟩
    · rw [hmem, rdBytes_copied hapart]
    · rw [hmem, rdNat_wrNat, show (256 : Nat) ^ 8 = 2 ^ 64 by norm_num]
    · rw [hmem, rdByte_wrNat_other _ _ _ _ _ hxe, rdByte_wrBytes_other _ _ _ _ (by rwa [rdBytes_length])]

end Sys2Proof.Machine
end

