-- ==== Sys2Proof/Proofs/IngestLaws.lean ====
section
/-! SUPPORT. Stores, claims and changes of the Huller are made alike on devices that differ by replies; rings that begin and close (R311,
R462), the lowest free slot of TABLES (R299), jobs that are withdrawn together (R321), and the report of R324. -/

namespace Sys2Proof.Machine

/-! ## Tables -/

/-- What stood at a key does not matter once the key is cleared. -/
theorem Tab.clear_upd {α : Type} [DecidableEq α] (d : α) (m : Tab α) (k : Nat) (f : α → α) :
    Tab.set d (Tab.upd d m k f) k d = Tab.set d m k d := by
  rw [Tab.upd]
  generalize f (Tab.get d m k) = v
  induction m with
  | nil => by_cases hv : v = d <;> simp [Tab.set, hv]
  | cons e m ih =>
    obtain ⟨k', v'⟩ := e
    by_cases hk : k = k'
    · by_cases hv : v = d
      · simpa [Tab.set, hk, hv] using hk ▸ hv ▸ ih
      · simp [Tab.set, hk, hv]
    · by_cases hbefore : k < k' ∧ v ≠ d
      · simp [Tab.set, hk, hbefore]
      · simpa [Tab.set, hk, hbefore] using ih

/-! ## Changes that replies do not reach -/

/-- A byte that reads alike in two memories does so after both take the same bytes. -/
theorem rdByte_wrBytes_congr {m m' : Tab Byte} {x : Nat} (h : rdByte m' x = rdByte m x) (a : Nat) (bs : List Byte) :
    rdByte (wrBytes m' a bs) x = rdByte (wrBytes m a bs) x := by
  by_cases hin : x < a ∨ a + bs.length ≤ x
  · rw [rdByte_wrBytes_other _ _ _ _ hin, rdByte_wrBytes_other _ _ _ _ hin, h]
  · obtain ⟨i, rfl⟩ := Nat.exists_eq_add_of_le (show a ≤ x by omega)
    rw [rdByte_wrBytes _ _ _ _ (by omega), rdByte_wrBytes _ _ _ _ (by omega)]

theorem Dev.quiet_store (d : Dev) (a : Nat) (bs : List Byte) : (d.store a bs).quiet = { d.quiet.store a bs with mem := [] } := rfl

namespace Dev.Replied
variable {a b : Dev} (h : a.Replied b)
include h

theorem updIng (g : Ing → Ing) : (a.updIng g).Replied (b.updIng g) :=
  h.map (fun d => d.updIng g) (fun _ => rfl) (fun _ => rfl) (fun _ => rfl) (fun _ => rfl) (fun _ => rfl)

theorem store (x : Nat) (bs : List Byte) : (a.store x bs).Replied (b.store x bs) :=
  ⟨by rw [Dev.quiet_store, Dev.quiet_store, h.quiet], h.setup, fun y hy => rdByte_wrBytes_congr (h.mem y hy) x bs, h.ctr, h.bufs⟩

theorem storeNat (x n v : Nat) : (a.storeNat x n v).Replied (b.storeNat x n v) := h.store x _

theorem own (id : Nat) : b.host.own id = a.host.own id := show b.quiet.host.own id = a.quiet.host.own id by rw [h.quiet]

theorem setOwner (id owner : Nat) :
    ({ a with host := a.host.setOwner id owner } : Dev).Replied { b with host := b.host.setOwner id owner } :=
  ⟨show { b.quiet with host := b.quiet.host.setOwner id owner } = { a.quiet with host := a.quiet.host.setOwner id owner } by rw [h.quiet],
   h.setup, h.mem, h.ctr, h.bufs⟩

end Dev.Replied

/-! ## Rings (R311, R462) -/

/-- A ring begins: it has its owner and its record, a training ring also its batch numbers, before its areas' indices are written. -/
def Dev.claimRing (d : Dev) (port n : Nat) (r : Ring) : Dev :=
  ({ d with host := d.host.setOwner (0x28 + n) (port + 1) } : Dev).updIng (fun g =>
    { g with rings := Tab.set {} g.rings n r, epoch := if r.live then g.epoch else g.epoch + 12 * 2 ^ 32 })

theorem Dev.setRing_eq (d : Dev) (port n : Nat) (r : Ring) : d.setRing port n r =
    if r.live = true then (d.claimRing port n r).storeNat r.comp 8 0
    else (((d.claimRing port n r).storeNat r.comp 8 0).storeNat r.batch 4 0).storeNat r.hand 4 0 := by
  cases hlive : r.live <;> simp only [Dev.setRing, Dev.claimRing, hlive] <;> rfl

theorem Dev.Replied.setRing {a b : Dev} (h : a.Replied b) (port n : Nat) (r : Ring) : (a.setRing port n r).Replied (b.setRing port n r) := by
  have hcomp : ((a.claimRing port n r).storeNat r.comp 8 0).Replied ((b.claimRing port n r).storeNat r.comp 8 0) :=
    ((h.setOwner (0x28 + n) (port + 1)).updIng _).storeNat _ _ _
  rw [Dev.setRing_eq, Dev.setRing_eq]
  split
  · exact hcomp
  · exact (hcomp.storeNat _ _ _).storeNat _ _ _

/-- A closing ring that still has a job stays. -/
theorem Dev.endRing_busy {d : Dev} {n : Nat} (hjob : n ∈ d.ing.jobs.map (·.ring)) : d.endRing n = d := by
  have hany : d.ing.jobs.any (fun j => j.ring == n) = true := by simpa using hjob
  simp [Dev.endRing, hany]

/-- A closing ring without a job is free, and its command is done. -/
theorem Dev.endRing_idle {d : Dev} {n : Nat} (hclosing : (d.ing.ring n).closing ≠ 0) (hidle : n ∉ d.ing.jobs.map (·.ring)) :
    ({ d with host := d.host.setOwner (0x28 + n) 0, ing := { d.ing with rings := Tab.set {} d.ing.rings n {} } } : Dev).Replied (d.endRing n) := by
  have hany : d.ing.jobs.any (fun j => j.ring == n) = false := by simpa using hidle
  simp only [Dev.endRing, hclosing, hany, decide_false, Bool.or_self, Bool.false_eq_true, if_false]
  exact Dev.finish_replied _ _ _ _ _

/-! ## Jobs withdrawn together (R321) -/

/-- The running job of this name is to stop at its next unit boundary. -/
def Ing.stop (g : Ing) (i : Nat) : Ing := { g with jobs := g.jobs.map (fun k => if k.id = i then { k with withdrawn := true } else k) }

theorem Dev.withdraw_running {d : Dev} {j : Job} (hrun : j.engine ≠ none) : d.withdraw j = d.updIng (fun g => g.stop j.id) := by
  rw [Dev.withdraw, if_pos (Option.isSome_iff_ne_none.2 hrun)]
  rfl

/-- Running jobs that no stream owns are stopped one after the other, whatever is done of a stream's job. -/
theorem Dev.foldl_withdraw {f : Dev → Job → Dev} (hf : ∀ d j, d.jobStream j = none → f d j = d.withdraw j) (l : List Job) :
    ∀ d : Dev, (∀ j ∈ l, j.engine ≠ none ∧ d.jobStream j = none) →
      l.foldl f d = d.updIng (fun g => l.foldl (fun g j => g.stop j.id) g) := by
  induction l with
  | nil => intro d _; rfl
  | cons j l ih =>
    intro d h
    obtain ⟨hrun, hstream⟩ := h j List.mem_cons_self
    rw [List.foldl_cons, hf d j hstream, Dev.withdraw_running hrun]
    exact ih (d.updIng _) fun k hk => h k (List.mem_cons_of_mem j hk)

theorem Ing.foldl_stop (l : List Job) : ∀ g : Ing, l.foldl (fun g j => g.stop j.id) g =
    { g with jobs := g.jobs.map (fun k => if ∃ j ∈ l, j.id = k.id then { k with withdrawn := true } else k) } := by
  induction l with
  | nil => intro g; simp
  | cons j l ih =>
    intro g
    rw [List.foldl_cons, ih]
    simp only [Ing.stop, List.map_map, Ing.mk.injEq, and_true, true_and]
    refine List.map_congr_left fun k _ => ?_
    by_cases hj : k.id = j.id
    · simp [hj]
    · simp [hj, Ne.symm hj]

/-! ## A live ring closes (R462) -/

/-- A ring starts to close: all its jobs are to stop. -/
def Ing.startClose (g : Ing) (n cmd : Nat) : Ing :=
  { g with rings := Tab.upd {} g.rings n (fun r => { r with closing := cmd })
           jobs := g.jobs.map (fun j => if j.ring = n then { j with withdrawn := true } else j) }

theorem Ing.closing_startClose (g : Ing) (n cmd : Nat) : ((g.startClose n cmd).ring n).closing = cmd := by
  simp [Ing.startClose, Ing.ring, Tab.get_upd]

theorem Ing.jobRings_startClose (g : Ing) (n cmd : Nat) : (g.startClose n cmd).jobs.map (·.ring) = g.jobs.map (·.ring) := by
  rw [Ing.startClose, List.map_map]
  refine List.map_congr_left fun j _ => ?_
  rw [Function.comp_apply]
  split <;> rfl

/-- A ring without jobs leaves no trace of its closing once it is cleared. -/
theorem Ing.clear_startClose {g : Ing} {n : Nat} (hidle : ∀ j ∈ g.jobs, j.ring ≠ n) (cmd : Nat) :
    { g.startClose n cmd with rings := Tab.set {} (g.startClose n cmd).rings n {} } = { g with rings := Tab.set {} g.rings n {} } := by
  have hjobs : g.jobs.map (fun j => if j.ring = n then { j with withdrawn := true } else j) = g.jobs :=
    (List.map_congr_left fun j hj => if_neg (hidle j hj)).trans (List.map_id _)
  simp only [Ing.startClose, hjobs, Tab.clear_upd]

/-- A live ring whose jobs all run, none for a stream, and share no name with a job of another ring, starts to close. -/
theorem Dev.closeRing_live {d : Dev} {n : Nat} (hlive : (d.ing.ring n).live = true)
    (hrun : ∀ j ∈ d.ing.jobs, j.ring = n → j.engine ≠ none ∧ d.jobStream j = none ∧ ∀ k ∈ d.ing.jobs, k.id = j.id → k.ring = n) (cmd : Nat) :
    d.closeRing n cmd = (d.updIng (fun g => g.startClose n cmd)).endRing n := by
  have hmine : ∀ j ∈ d.ing.jobs.filter (fun j => j.ring == n), j ∈ d.ing.jobs ∧ j.ring = n := fun j hj => by simpa using hj
  have hstop : ∀ k ∈ d.ing.jobs, (∃ j ∈ d.ing.jobs.filter (fun j => j.ring == n), j.id = k.id) ↔ k.ring = n := by
    refine fun k hk => ⟨?_, fun hring => ⟨k, by simp [hk, hring], rfl⟩⟩
    rintro ⟨j, hj, hid⟩
    obtain ⟨hmem, hring⟩ := hmine j hj
    obtain ⟨-, -, hsame⟩ := hrun j hmem hring
    exact hsame k hk hid.symm
  have hruns : ∀ j ∈ d.ing.jobs.filter (fun j => j.ring == n), j.engine ≠ none ∧ d.jobStream j = none := by
    intro j hj
    obtain ⟨hmem, hring⟩ := hmine j hj
    obtain ⟨hengine, hstream, -⟩ := hrun j hmem hring
    exact ⟨hengine, hstream⟩
  rw [Dev.closeRing]
  simp only [hlive, if_true]
  refine congrArg (Dev.endRing · n) ((Dev.foldl_withdraw ?same _ (d.updIng fun g => g.updRing n fun r => { r with closing := cmd }) hruns).trans ?_)
  case same =>
    intro d j hj
    simp only [hj]
  simp only [Ing.foldl_stop, Dev.updIng, Ing.updRing, Ing.startClose]
  congr 2
  exact List.map_congr_left fun k hk => by simp only [hstop k hk]

section
variable {a b : Dev} {n cmd : Nat} (h : a.Replied b) (hlive : (a.ing.ring n).live = true)
include h hlive

/-- A live ring without a job is free at once. -/
theorem Dev.Replied.closeRing_idle (hcmd : cmd ≠ 0) (hidle : ∀ j ∈ a.ing.jobs, j.ring ≠ n) :
    ({ a with host := a.host.setOwner (0x28 + n) 0, ing := { a.ing with rings := Tab.set {} a.ing.rings n {} } } : Dev).Replied
      (b.closeRing n cmd) := by
  rw [← h.ing] at hlive hidle
  rw [Dev.closeRing_live hlive fun j hj hring => absurd hring (hidle j hj)]
  refine Dev.Replied.trans ?_ (Dev.endRing_idle (d := b.updIng fun g => g.startClose n cmd) ?_ ?_)
  · rw [show (b.updIng fun g => g.startClose n cmd).ing = b.ing.startClose n cmd from rfl, Ing.clear_startClose hidle, h.ing]
    exact (h.setOwner (0x28 + n) 0).updIng fun _ => { a.ing with rings := Tab.set {} a.ing.rings n {} }
  · exact (Ing.closing_startClose b.ing n cmd).trans_ne hcmd
  · rw [show (b.updIng fun g => g.startClose n cmd).ing = b.ing.startClose n cmd from rfl, Ing.jobRings_startClose]
    simpa using hidle

/-- A live ring with jobs that all run, none for a stream, has them stopped and closes after them. -/
theorem Dev.Replied.closeRing_busy (hjob : ∃ j ∈ a.ing.jobs, j.ring = n)
    (hrun : ∀ j ∈ a.ing.jobs, j.ring = n → j.engine ≠ none ∧ a.jobStream j = none ∧ ∀ k ∈ a.ing.jobs, k.id = j.id → k.ring = n) :
    (a.updIng fun g => g.startClose n cmd).Replied (b.closeRing n cmd) := by
  have hstream : ∀ j, b.jobStream j = a.jobStream j := fun j => show b.quiet.jobStream j = a.quiet.jobStream j by rw [h.quiet]
  simp only [← h.ing, ← hstream] at hlive hjob hrun
  rw [Dev.closeRing_live hlive hrun, Dev.endRing_busy]
  · exact h.updIng _
  · rw [show (b.updIng fun g => g.startClose n cmd).ing = b.ing.startClose n cmd from rfl, Ing.jobRings_startClose]
    exact List.mem_map.2 hjob

end

/-! ## Tables (R299, R300) -/

/-- The lowest number that passes. -/
theorem firstIdx_lowest {p : Nat → Bool} {n i : Nat} (hi : i < n) (hp : p i = true) (hlow : ∀ j, j < i → p j = false) :
    firstIdx p n = some i := by
  rw [firstIdx, List.find?_range_eq_some]
  exact ⟨hp, List.mem_range.2 hi, fun j hj => by simp [hlow j hj]⟩

/-- The lowest slot that no generation of the kind holds is the free one that a load takes. -/
theorem Ing.freeTable_lowest {g : Ing} {media : Bool} {slot : Nat} (hslot : slot < 4) (hfree : ∀ x ∈ g.gens, x.media = media → x.slot ≠ slot)
    (hlow : ∀ k, k < slot → ∃ x ∈ g.gens, x.media = media ∧ x.slot = k) : g.freeTable media = some slot := by
  refine firstIdx_lowest hslot ?_ fun k hk => ?_
  · simpa [Ing.alive] using hfree
  · simpa [Ing.alive, and_assoc] using hlow k hk

/-- A generation whose load begins takes the next number of its kind (R299). -/
def Ing.addGen (g : Ing) (x : Gen) : Ing :=
  { g with gens := g.gens ++ [x], nextTok := if x.media then g.nextTok else g.nextTok + 1, nextMed := if x.media then g.nextMed + 1 else g.nextMed }

/-! ## The report (R324) -/

/-- Replies do not reach the report. -/
theorem Dev.Replied.ingestReport {a b : Dev} (h : a.Replied b) : b.ingestReport = a.ingestReport :=
  show b.quiet.ingestReport = a.quiet.ingestReport by rw [h.quiet]

theorem Dev.Replied.newWindow {a b : Dev} (h : a.Replied b) : a.newWindow.Replied b.newWindow :=
  h.map Dev.newWindow (fun _ => rfl) (fun _ => rfl) (fun _ => rfl) (fun _ => rfl) (fun _ => rfl)

end Sys2Proof.Machine
end

