-- ==== Sys2Proof/Proofs/IngestCommands.lean ====
section
/-! PROOFS. The ingest commands (R274, R299 to R302, R311 to R313, R324, R439, R462 to R464; log entries 23, 31, 32): what each leaves of the
Huller, of its rings and of its tables, and O40. -/

namespace Sys2Proof.Machine

/-! ## Meanings of the commands -/

section
variable (q ring kind : Nat) (s : State)

theorem exec_ingestConfig (profile : Nat) (dests : List Nat) : exec (.ingestConfig q profile dests) s = execIngestConfig q profile dests s := rfl
theorem exec_ingestRing (log2 ea ca ba ha : Nat) :
    exec (.ingestRing q ring kind log2 ea ca ba ha) s = execIngestRing q ring kind log2 ea ca ba ha s := rfl
theorem exec_ingestDoorbell (tail : Nat) : exec (.ingestDoorbell q ring tail) s = execIngestDoorbell q ring tail s := rfl
theorem exec_ingestRingClose : exec (.ingestRingClose q ring) s = execIngestRingClose q ring s := rfl
theorem exec_tableLoad (src len : Nat) : exec (.tableLoad q kind src len) s = execTableLoad q kind src len s := rfl
theorem exec_tableLoadDone (num : Nat) : exec (.tableLoadDone kind num) s = execTableLoadDone kind num s := rfl
theorem exec_ingestReport (dest : Nat) : exec (.ingestReport q dest) s = execIngestReport q dest s := rfl

end

/-! ## Refusals (R313, R439, R445) -/

section
variable {d : Dev} {profile port id ring kind : Nat}

theorem Dev.configRefusal_none (hplan : d.trainingPlan = none) (hstreams : ∀ e ∈ d.cad.streams, e.2.opened = false)
    (hrings : ∀ e ∈ d.ing.rings, e.2.on = false) (hspill : d.spillOk profile = true) : d.configRefusal profile = none := by
  have hs : d.cad.streams.find? (fun e => e.2.opened) = none := by simpa using hstreams
  have hr : d.ing.rings.find? (fun e => e.2.on) = none := by simpa using hrings
  simp [Dev.configRefusal, hplan, hs, hr, hspill]

theorem Dev.configRefusal_some (h : d.trainingPlan ≠ none ∨ (∃ e ∈ d.cad.streams, e.2.opened = true) ∨
    (∃ e ∈ d.ing.rings, e.2.on = true) ∨ d.spillOk profile = false) : d.configRefusal profile ≠ none := by
  intro hnone
  unfold Dev.configRefusal at hnone
  split at hnone
  case h_4 hplan hs hr =>
    have hspill : d.spillOk profile = true := by simpa using hnone
    simp only [List.find?_eq_none, Bool.not_eq_true] at hs hr
    obtain h | ⟨e, he, hopen⟩ | ⟨e, he, hon⟩ | h := h
    · exact h hplan
    · exact Bool.false_ne_true ((hs e he).symm.trans hopen)
    · exact Bool.false_ne_true ((hr e he).symm.trans hon)
    · exact Bool.false_ne_true (h.symm.trans hspill)
  all_goals exact absurd hnone (Option.some_ne_none _)

theorem HostIf.ownRefusal_own {h : HostIf} (hown : h.own id = port + 1) : h.ownRefusal port id = none := if_pos hown

theorem HostIf.ownRefusal_other {h : HostIf} (hown : h.own id ≠ port + 1) : h.ownRefusal port id ≠ none := by
  rw [HostIf.ownRefusal, if_neg hown]
  exact Option.some_ne_none _

theorem Dev.ringRefusal_own (hown : d.host.own (0x28 + ring) = port + 1) : d.ringRefusal port ring kind = none := by
  simp [Dev.ringRefusal, HostIf.claimRefusal, hown]

theorem Dev.ringRefusal_free (hown : d.host.own (0x28 + ring) = 0) (htrain : kind = 0 → d.ing.shaperRing = none) :
    d.ringRefusal port ring kind = none := by
  by_cases hkind : kind = 0
  · simp [Dev.ringRefusal, HostIf.claimRefusal, hown, hkind, htrain hkind]
  · simp [Dev.ringRefusal, HostIf.claimRefusal, hown, hkind]

end

/-! ## The end of a table load (R299, R301, R302, R464) -/

section
variable {d : Dev} {x : Gen} {media : Bool} {num : Nat}

theorem Ing.gen_some (h : d.ing.gen media num = some x) : x.media = media ∧ x.num = num := by
  simpa using List.find?_some h

/-- TABLE_LOAD_DONE of a generation that is loading ends its load. -/
theorem execTableLoadDone_loading {s : State} {kind : Nat} (hdead : s.dev.pow.dead = false) (hgen : s.dev.ing.gen (kind != 0) num = some x)
    (hload : x.loading ≠ 0) : execTableLoadDone kind num s = .next { s with dev := s.dev.tableEnds x } := by
  rw [execTableLoadDone, hgen]
  simp only [hload, if_false]
  exact eventOpt_some s _ hdead

/-- An intact image stands in its slot, and its generation is the newest of its kind. -/
theorem Dev.tableEnds_intact (hclean : firstBad d.poison x.src x.len = none)
    (hok : (if x.media then mediaOk (rdBytes d.mem x.src x.len) else tokOk (rdBytes d.mem x.src x.len)) = true) :
    ((d.store (tableSlot x.media x.slot) (rdBytes d.mem x.src x.len)).updIng (fun g => Ing.retire { g with gens := g.gens.map (fun y =>
      if y.media = x.media then (if y.num = x.num then { y with newest := true, loading := 0 } else { y with newest := false }) else y) })).Replied
      (d.tableEnds x) := by
  simp only [Dev.tableEnds, hclean, hok, Bool.not_true, Bool.false_eq_true, if_false, bne_iff_ne, ne_eq, ite_not]
  exact Dev.finish_replied _ _ _ _ _

/-- An image that fails its checks leaves its slot free. -/
theorem Dev.tableEnds_bad (hclean : firstBad d.poison x.src x.len = none)
    (hbad : (if x.media then mediaOk (rdBytes d.mem x.src x.len) else tokOk (rdBytes d.mem x.src x.len)) = false)
    (hfree : ∀ j ∈ d.ing.jobs, j.media = x.media → j.gen ≠ x.num) :
    (d.updIng (fun g => { g with gens := g.gens.filter (fun y => y.media != x.media || y.num != x.num) })).Replied (d.tableEnds x) := by
  have hnone : d.ing.jobs.filter (fun j => j.media == x.media && j.gen == x.num) = [] := by simpa using hfree
  simp only [Dev.tableEnds, hclean, hbad, Bool.not_false, if_true, Dev.loadFails]
  rw [show (d.updIng _).ing.jobs = d.ing.jobs from rfl, hnone]
  exact Dev.finish_replied _ _ _ _ _

end

/-! ## Outcomes -/

/-- An admitted command that is DONE at once after a change of the begun device. -/
theorem State.Admits.doneBy {s : State} {i : Instr} {f : PacketForm} {p : Packet} {ck : Dev → Checks} {d : Dev} {g : Dev → Dev}
    (h : s.Admits i f p) (hlen : Instr.paramBytes i f = paramLen f.layout) (hck : (ck s.dev).Clear) (hg : d.Replied (g (s.dev.begin_ f.queue p).1)) :
    Res.Becomes s d (startCmd s f.queue f.opcode f.layout f.fields ck (doneAt g)) :=
  h.becomes hlen hck (hg.trans (doneAt_replied g ..))

/-- A command takes the next name. -/
theorem Dev.begin_id (d : Dev) (q : Nat) (p : Packet) : (d.begin_ q p).2.id = d.host.nextCmd := rfl

/-- Settles O40: each command by its meaning on the begun device, which differs from the device by replies. -/
theorem ingestCommandsTakeEffect : Obligations.IngestCommandsTakeEffect := by
  intro s q f p
  have hbegun := s.dev.begin__replied q p
  refine ⟨fun profile dests h hprofile hheaders hdests => ?config, fun ring kind log2 ea ca ba ha h hmin hmax hea hca htrain => ?ring,
    fun ring tail h => ?doorbell, fun ring h hown hclosing hlive hcmd => ?close, fun kind src len h hsrc hmin hmax => ?load,
    fun kind num x b hdead hgen hload hb hclean => ?loaded, fun dest h hdest => ?report⟩
  case config =>
    cases h.form
    rw [exec_ingestConfig]
    have hparam : ∀ c ∈ (profileOk profile && s.dev.headersOk profile, 0) ::
        dests.zipIdx.map (fun (x, i) => (s.dev.destOk profile i x, fieldByte (2048 :: List.replicate 16 512) (i + 1))), c.1 = true := by
      simp only [List.forall_mem_cons, List.forall_mem_map, hprofile, hheaders, Bool.and_self, true_and]
      rintro ⟨x, i⟩ hx
      exact hdests x i (List.mem_zipIdx_iff_getElem?.1 hx)
    refine ⟨fun ⟨hplan, hstreams, hrings, hspill⟩ => ?_, fun hway => ?_⟩
    · exact h.doneBy rfl ⟨firstBadField_none hparam, Dev.configRefusal_none hplan hstreams hrings hspill, rfl⟩
        (hbegun.updIng fun g => { g with profile := some profile, dests := dests })
    · exact h.refusedByOwn rfl ⟨firstBadField_none hparam, Dev.configRefusal_some hway, rfl⟩
  case ring =>
    cases h.form
    rw [exec_ingestRing]
    have hparam : firstBadField [(6 ≤ log2 && log2 ≤ 20, fieldByte [4, 1, 5, 64, 64, 64, 64] 2),
        (s.dev.backed (ea % 2 ^ 48) (64 * 2 ^ log2), fieldByte [4, 1, 5, 64, 64, 64, 64] 3),
        ((s.dev.unwritable (ca % 2 ^ 48) (64 + 32 * 2 ^ log2)).isNone, fieldByte [4, 1, 5, 64, 64, 64, 64] 4),
        (kind != 0 || (s.dev.unwritable (ba % 2 ^ 48) (64 + 128 * 64)).isNone, fieldByte [4, 1, 5, 64, 64, 64, 64] 5),
        (kind != 0 || (s.dev.unwritable (ha % 2 ^ 48) (64 + 32 * 2 ^ log2)).isNone, fieldByte [4, 1, 5, 64, 64, 64, 64] 6)] = none := by
      refine firstBadField_none ?_
      simp only [List.forall_mem_cons, Bool.or_eq_true, Option.isNone_iff_eq_none]
      have hkinds : (kind != 0) = true ∨ kind = 0 := by simpa using (em (kind = 0)).symm
      exact ⟨by simp [hmin, hmax], hea, hca, hkinds.imp_right fun hkind => (htrain hkind).1, hkinds.imp_right fun hkind => (htrain hkind).2,
        by simp⟩
    refine ⟨fun hown => ?held, fun r d hown hsole hr hd => ?claims⟩
    case held =>
      have howned : ((s.dev.begin_ q p).1.host.own (0x28 + ring) != 0) = true := by simp [hbegun.own, hown]
      refine h.doneBy rfl ⟨hparam, Dev.ringRefusal_own hown, rfl⟩ ?_
      rw [if_pos howned]
      exact hbegun
    case claims =>
      have hfree : ¬ ((s.dev.begin_ q p).1.host.own (0x28 + ring) != 0) = true := by simp [hbegun.own, hown]
      have hclaim : s.dev.claimRing (q / 8) ring r = d := by
        by_cases hkind : kind = 0 <;> simp [hr, hd, hkind, Dev.claimRing, Dev.updIng]
      clear hd
      refine h.doneBy rfl ⟨hparam, Dev.ringRefusal_free hown hsole, rfl⟩ ?_
      rw [if_neg hfree, ← hr]
      convert hbegun.setRing (q / 8) ring r using 1
      rw [Dev.setRing_eq, hclaim]
      subst hr
      by_cases hkind : kind = 0 <;> simp [hkind]
  case doorbell =>
    cases h.form
    rw [exec_ingestDoorbell]
    refine ⟨fun hown => ?_, fun hown => h.refusedByOwn rfl ⟨rfl, HostIf.ownRefusal_other hown, rfl⟩⟩
    refine h.doneBy rfl ⟨rfl, HostIf.ownRefusal_own hown, rfl⟩ ?_
    rw [hbegun.plat]
    exact hbegun.updIng fun g => g.updRing ring fun r => { r with tail := tail, bells := r.bells ++ [(tail, s.dev.plat.now)] }
  case close =>
    cases h.form
    rw [exec_ingestRingClose]
    refine ⟨fun hidle => h.becomes rfl ⟨rfl, ?_, rfl⟩ (hbegun.closeRing_idle hlive hcmd hidle),
      fun hjob hrun => h.becomes rfl ⟨rfl, ?_, rfl⟩ (hbegun.closeRing_busy hlive hjob hrun)⟩ <;>
    simp [HostIf.ownRefusal_own hown, hclosing]
  case load =>
    cases h.form
    rw [exec_tableLoad]
    have hparam : firstBadField [((s.dev.unbacked (src % 2 ^ 48) len).isNone, fieldByte [1, 64, 32] 1),
        (64 ≤ len && len ≤ tableRoom (kind != 0), fieldByte [1, 64, 32] 2)] = none :=
      firstBadField_none (by simp only [List.forall_mem_cons]; exact ⟨by rw [hsrc]; rfl, by simp [hmin, hmax], by simp⟩)
    refine ⟨fun hfull => h.refusedByOwn rfl ⟨hparam, by simp [hfull], rfl⟩, fun slot hslot hfree hlow => ?_⟩
    have htable := Ing.freeTable_lowest hslot hfree hlow
    refine h.becomes rfl ⟨hparam, by simp [htable], rfl⟩ ?_
    simp only [hbegun.ing, htable, Option.getD_some, Dev.begin_id]
    have hadds := (hbegun.trans (Dev.accept_replied _ (s.dev.begin_ q p).2)).updIng (fun g => g.addGen {
      media := kind != 0, num := if kind = 0 then s.dev.ing.nextTok else s.dev.ing.nextMed, slot := slot, loading := s.dev.host.nextCmd,
      src := src % 2 ^ 48, len := len })
    by_cases hkind : kind = 0 <;> simpa [hkind, Ing.addGen, Dev.updIng] using hadds
  case loaded =>
    subst hb
    obtain ⟨hkind, rfl⟩ := Ing.gen_some hgen
    rw [exec_tableLoadDone, execTableLoadDone_loading hdead hgen hload, ← hkind]
    have hok : (if kind = 0 then tokOk (rdBytes s.dev.mem x.src x.len) else mediaOk (rdBytes s.dev.mem x.src x.len)) =
      if x.media then mediaOk (rdBytes s.dev.mem x.src x.len) else tokOk (rdBytes s.dev.mem x.src x.len) := by simp [hkind]
    rw [hok]
    exact ⟨fun hgood => ⟨_, rfl, rfl, Dev.tableEnds_intact hclean hgood⟩, fun hbad hfree => ⟨_, rfl, rfl, Dev.tableEnds_bad hclean hbad hfree⟩⟩
  case report =>
    cases h.form
    rw [exec_ingestReport]
    refine h.doneBy rfl ⟨if_pos (Option.isNone_iff_eq_none.2 hdest), rfl, rfl⟩ ?_
    rw [hbegun.ingestReport]
    exact (hbegun.storeNat _ _ _).newWindow

end Sys2Proof.Machine
end

