-- ==== Sys2Proof/Proofs/SampleSlots.lean ====
section
/-! SUPPORT. Samples and batches by their numbers, slots that are filled, jobs that are withdrawn with their sample, and samples that are late
(R305, R311, R319 to R321). -/

namespace Sys2Proof.Machine

/-! ## Samples and batches by number -/

section
variable {g g' : Ing} {o k : Nat}

theorem Ing.sample_ord {sm : Sample} (h : g.sample o = some sm) : sm.ord = o := by simpa using List.find?_some h

/-- A change of the samples of an ordinal is seen at that ordinal. -/
theorem Ing.sample_updSample {f : Sample → Sample} (hf : ∀ z, (f z).ord = z.ord) (h : g'.samples = (g.updSample o f).samples) :
    g'.sample o = (g.sample o).map f := by
  have hord : ∀ z : Sample, ((if z.ord = o then f z else z).ord == o) = (z.ord == o) := fun z => by split <;> simp [hf]
  simp only [Ing.sample, h, Ing.updSample, List.find?_map, Function.comp_def, hord]
  exact Option.map_congr fun z hz => if_pos (Ing.sample_ord hz)

/-- A sample of a new ordinal is the one at that ordinal. -/
theorem Ing.sample_new {z : Sample} (hnew : ∀ y ∈ g.samples, y.ord ≠ z.ord) (h : g'.samples = g.samples ++ [z]) : g'.sample z.ord = some z := by
  have hnone : g.samples.find? (fun y => y.ord == z.ord) = none := by simpa using hnew
  simp [Ing.sample, h, hnone]

/-- A change of batches that keeps their numbers is seen at every number. -/
theorem Ing.batch_map {f : Batch → Batch} (hf : ∀ b, (f b).num = b.num) (h : g'.batches = g.batches.map f) :
    g'.batch k = (g.batch k).map f := by
  simp [Ing.batch, h, List.find?_map, hf]

/-- A change of the batches of a number is seen at that number. -/
theorem Ing.batch_updBatch {f : Batch → Batch} (hf : ∀ b, (f b).num = b.num) (h : g'.batches = (g.updBatch k f).batches) :
    g'.batch k = (g.batch k).map f := by
  rw [Ing.batch_map (fun b => by split <;> simp [hf]) h]
  exact Option.map_congr fun b hb => if_pos (by simpa using List.find?_some hb)

end

/-- Batch `k` is there, and it is late. -/
def Ing.lateBatch (g : Ing) (k : Nat) : Prop := ∃ c, g.batch k = some c ∧ c.late = true

/-- A change of batches that keeps their numbers and whether they are late keeps the late ones. -/
theorem Ing.lateBatch_map {g g' : Ing} {f : Batch → Batch} (hf : ∀ b, (f b).num = b.num ∧ (f b).late = b.late)
    (h : g'.batches = g.batches.map f) {k : Nat} : g.lateBatch k → g'.lateBatch k := by
  rintro ⟨c, hc, hlate⟩
  exact ⟨f c, by rw [Ing.batch_map (fun b => (hf b).1) h, hc]; rfl, (hf c).2.trans hlate⟩

/-! ## Changes that leave samples and batches alone -/

/-- The second device has the samples, the batches and the profile of the first. -/
structure Dev.SameSlots (d e : Dev) : Prop where
  samples : e.ing.samples = d.ing.samples
  batches : e.ing.batches = d.ing.batches
  profile : e.ing.profile = d.ing.profile

namespace Dev.SameSlots

theorem of_ing {d e : Dev} (h : e.ing = d.ing) : d.SameSlots e := ⟨by rw [h], by rw [h], by rw [h]⟩

theorem refl (d : Dev) : d.SameSlots d := of_ing rfl

theorem trans {a b c : Dev} (h : a.SameSlots b) (h' : b.SameSlots c) : a.SameSlots c :=
  ⟨h'.samples.trans h.samples, h'.batches.trans h.batches, h'.profile.trans h.profile⟩

theorem putRecord (d : Dev) (j : Job) (res conc units : Nat) : d.SameSlots (d.putRecord j res conc units) := ⟨rfl, rfl, rfl⟩

theorem finish (d : Dev) (id status detail : Nat) (ext : List Nat) : d.SameSlots (d.finish id status detail ext) :=
  of_ing (Dev.finish_replied d id status detail ext).ing

theorem endRing (d : Dev) (n : Nat) : d.SameSlots (d.endRing n) := by
  unfold Dev.endRing
  dsimp only
  split
  · exact refl d
  · refine trans ?_ (finish _ _ _ _ _)
    exact ⟨rfl, rfl, rfl⟩

theorem endJob (d : Dev) (j : Job) (res conc units : Nat) : d.SameSlots (d.endJob j res conc units) := by
  have htrace : d.SameSlots ((d.putRecord j res conc units).trace 0x0D 4 j.lastEngine (jTag j.record) res (jIndex j.record)) :=
    (putRecord d j res conc units).trans (of_ing (Dev.trace_ing ..))
  refine htrace.trans (trans ?_ (endRing _ j.ring))
  cases j.engine <;> exact ⟨rfl, rfl, rfl⟩

theorem withdraw (d : Dev) (j : Job) : d.SameSlots (d.withdraw j) := by
  unfold Dev.withdraw
  split
  · exact ⟨rfl, rfl, rfl⟩
  · refine (endJob d j resWithdrawn 0 0).trans ?_
    unfold Ing.breakCtx
    split
    · exact ⟨rfl, rfl, rfl⟩
    · exact refl _

theorem withdrawAll (l : List Job) (d : Dev) : d.SameSlots (l.foldl Dev.withdraw d) :=
  foldl_keeps (fun e => d.SameSlots e) Dev.withdraw (fun e j h => h.trans (withdraw e j)) l d (refl d)

theorem handoff (d : Dev) (s : Sample) : d.SameSlots (d.handoff s) := by
  unfold Dev.handoff
  split
  · exact refl d
  · exact ⟨rfl, rfl, rfl⟩

end Dev.SameSlots

/-! ## Writes into a batch change nothing of the Huller but its bytes -/

@[simp] theorem Dev.putRun_ing (d : Dev) (r j b plane start : Nat) (xs : List (List Byte)) : (d.putRun r j b plane start xs).ing = d.ing := by
  refine foldl_keeps (fun e : Dev => e.ing = d.ing) _ (fun e pod he => ?_) _ d rfl
  dsimp only
  split <;> exact he

@[simp] theorem Dev.putMask_ing (d : Dev) (r j b : Nat) (xs : List Byte) : (d.putMask r j b xs).ing = d.ing := by
  refine foldl_keeps (fun e : Dev => e.ing = d.ing) _ (fun e pod he => ?_) _ d rfl
  dsimp only
  split <;> exact he

@[simp] theorem Dev.putPadding_ing (d : Dev) (j b pad : Nat) (segs : List SampleSeg) : (d.putPadding j b pad segs).ing = d.ing := by
  refine foldl_keeps (fun e : Dev => e.ing = d.ing) _ (fun e r he => ?_) _ d rfl
  rw [Dev.putMask_ing]
  exact foldl_keeps (fun e : Dev => e.ing = d.ing) _ (fun u c hu => (u.putRun_ing ..).trans hu) _ e he

@[simp] theorem Dev.putHeader_ing (d : Dev) (j b : Nat) (segs : List SampleSeg) : (d.putHeader j b segs).ing = d.ing := by
  refine foldl_keeps (fun e : Dev => e.ing = d.ing) _ (fun e pod he => ?_) _ d rfl
  rw [Dev.store_ing]
  exact foldl_keeps (fun e : Dev => e.ing = d.ing) (fun u r => u.storeNat (e.ing.headerAt j pod + 4 * (16 * r + b)) 4 (validOf segs r))
    (fun _ _ hu => hu) _ e he

/-! ## Slots that are filled (R305, R323) -/

/-- The sample with its slot filled. -/
def Sample.fill (z : Sample) (pad status : Nat) : Sample := { z with filled := true, pad := pad, status := status }

section
variable (d : Dev) (s : Sample) (pad status : Nat)

/-- What filling a slot leaves of samples, batches, rings and profile. -/
theorem Dev.fillSlot_frame :
    (d.fillSlot s pad status).ing.samples = (d.ing.updSample s.ord (·.fill pad status)).samples ∧
    (d.fillSlot s pad status).ing.batches = (d.ing.updBatch (d.ing.batchNum s.ord) (fun x => { x with
      padded := if pad = 0 then x.padded else x.padded ||| 2 ^ (s.ord % 16), poisoned := x.poisoned || status == 8 })).batches ∧
    (d.fillSlot s pad status).ing.rings = d.ing.rings ∧ (d.fillSlot s pad status).ing.profile = d.ing.profile := by
  unfold Dev.fillSlot
  simp only [Dev.putHeader_ing, Dev.putPadding_ing]
  split <;> exact ⟨rfl, rfl, rfl, rfl⟩

theorem Dev.fillSlot_samples : (d.fillSlot s pad status).ing.samples = (d.ing.updSample s.ord (·.fill pad status)).samples :=
  (d.fillSlot_frame s pad status).1

theorem Dev.padSample_samples : (d.padSample s pad status).ing.samples = (d.ing.updSample s.ord (·.fill pad status)).samples :=
  (Dev.SameSlots.withdrawAll _ _).samples.trans (d.fillSlot_samples s pad status)

/-- A sample without jobs withdraws none. -/
theorem Dev.padSample_noJobs (h : s.jobs = []) : d.padSample s pad status = d.fillSlot s pad status := by
  simp [Dev.padSample, h]

end

/-- The sample of a filled slot. -/
theorem Dev.padSample_sample {d : Dev} {s z : Sample} (pad status : Nat) (h : d.ing.sample s.ord = some z) :
    (d.padSample s pad status).ing.sample s.ord = some (z.fill pad status) := by
  rw [Ing.sample_updSample (f := (·.fill pad status)) (fun _ => rfl) (d.padSample_samples s pad status), h]
  rfl

/-- A sample that is not filled yet gives way to a pad sample. -/
theorem Dev.replaceSample_open {d : Dev} {o status : Nat} {sm : Sample} (h : d.ing.sample o = some sm) (hopen : sm.filled = false) :
    d.replaceSample o status = d.padSample sm 2 status := by
  simp [Dev.replaceSample, h, hopen]

theorem Dev.replaceSample_sample {d : Dev} {o : Nat} (status : Nat) {sm : Sample} (h : d.ing.sample o = some sm) (hopen : sm.filled = false) :
    (d.replaceSample o status).ing.sample o = some (sm.fill 2 status) := by
  cases Ing.sample_ord h
  rw [Dev.replaceSample_open h hopen]
  exact Dev.padSample_sample 2 status h

/-- A sample that may be ready for its slot keeps its segments. -/
theorem Dev.tryFill_segs {d : Dev} {o : Nat} {z : Sample} (h : d.ing.sample o = some z) :
    ∃ y, (d.tryFill o).ing.sample o = some y ∧ y.segs = z.segs := by
  cases Ing.sample_ord h
  simp only [Dev.tryFill, h]
  split
  · exact ⟨z.fill 0 0, by rw [Ing.sample_updSample (f := (·.fill 0 0)) (fun _ => rfl) (d.fillSlot_samples z 0 0), h]; rfl, rfl⟩
  · exact ⟨z, h, rfl⟩

/-! ## Changes that only fill slots -/

/-- From the first device to the second no sample is new, none that was filled is open again, and no batch that was late is in time. -/
structure Dev.OnlyFills (d e : Dev) : Prop where
  profile : e.ing.profile = d.ing.profile
  late : ∀ k, d.ing.lateBatch k → e.ing.lateBatch k
  samples : ∀ y ∈ e.ing.samples, ∃ z ∈ d.ing.samples, z.ord = y.ord ∧ (z.filled = true → y.filled = true)

namespace Dev.OnlyFills

theorem refl (d : Dev) : d.OnlyFills d := ⟨rfl, fun _ h => h, fun y hy => ⟨y, hy, rfl, id⟩⟩

theorem trans {a b c : Dev} (h : a.OnlyFills b) (h' : b.OnlyFills c) : a.OnlyFills c := by
  refine ⟨h'.profile.trans h.profile, fun k hk => h'.late k (h.late k hk), fun y hy => ?_⟩
  obtain ⟨z, hz, hzord, hzfill⟩ := h'.samples y hy
  obtain ⟨x, hx, hxord, hxfill⟩ := h.samples z hz
  exact ⟨x, hx, hxord.trans hzord, hzfill ∘ hxfill⟩

theorem of_sameSlots {d e : Dev} (h : d.SameSlots e) : d.OnlyFills e :=
  ⟨h.profile, fun k hk => by simpa only [Ing.lateBatch, Ing.batch, h.batches] using hk, fun y hy => ⟨y, h.samples ▸ hy, rfl, id⟩⟩

/-- A change of the samples of one ordinal that opens none. -/
theorem of_updSample {d e : Dev} {o : Nat} {f : Sample → Sample} (hf : ∀ z, (f z).ord = z.ord ∧ (z.filled = true → (f z).filled = true))
    (hp : e.ing.profile = d.ing.profile) (hlate : ∀ k, d.ing.lateBatch k → e.ing.lateBatch k)
    (hs : e.ing.samples = (d.ing.updSample o f).samples) : d.OnlyFills e := by
  refine ⟨hp, hlate, fun y hy => ?_⟩
  rw [hs] at hy
  obtain ⟨z, hz, rfl⟩ := List.mem_map.1 hy
  refine ⟨z, hz, ?_⟩
  split
  · exact ⟨(hf z).1.symm, (hf z).2⟩
  · exact ⟨rfl, id⟩

theorem fillSlot (d : Dev) (s : Sample) (pad status : Nat) : d.OnlyFills (d.fillSlot s pad status) := by
  obtain ⟨hsamples, hbatches, -, hprofile⟩ := d.fillSlot_frame s pad status
  exact of_updSample (f := (·.fill pad status)) (fun z => ⟨rfl, fun _ => rfl⟩) hprofile
    (fun k => Ing.lateBatch_map (fun b => by split <;> exact ⟨rfl, rfl⟩) hbatches) hsamples

theorem padSample (d : Dev) (s : Sample) (pad status : Nat) : d.OnlyFills (d.padSample s pad status) :=
  (fillSlot d s pad status).trans (of_sameSlots (Dev.SameSlots.withdrawAll _ _))

end Dev.OnlyFills

/-! ## Late samples (R320, R324) -/

/-- A sample counts as late once. -/
def Dev.markLate (d : Dev) (s : Sample) : Dev :=
  if s.late then d else d.updIng (fun g => { g.updSample s.ord (fun s => { s with late := true }) with lateN := g.lateN + 1 })

section
variable (d : Dev) (s : Sample)

theorem Dev.markLate_eq : d.markLate s =
    if s.late then d else d.updIng (fun g => { g.updSample s.ord (fun s => { s with late := true }) with lateN := g.lateN + 1 }) := rfl

theorem Dev.markLate_profile : (d.markLate s).ing.profile = d.ing.profile := by
  unfold Dev.markLate
  split <;> rfl

theorem Dev.markLate_ctr : (d.markLate s).ctr = d.ctr := by
  unfold Dev.markLate
  split <;> rfl

theorem Dev.markLate_batches : (d.markLate s).ing.batches = d.ing.batches := by
  unfold Dev.markLate
  split <;> rfl

/-- Counting a sample as late changes its mark alone. -/
theorem Dev.markLate_samples : ∃ f : Sample → Sample, (∀ z, ∃ late, f z = { z with late := late }) ∧
    (d.markLate s).ing.samples = (d.ing.updSample s.ord f).samples := by
  unfold Dev.markLate
  split
  · exact ⟨id, fun z => ⟨z.late, rfl⟩, by simp [Ing.updSample]⟩
  · exact ⟨_, fun z => ⟨true, rfl⟩, rfl⟩

theorem Dev.markLate_filled : (d.markLate s).ing.samples.map (·.filled) = d.ing.samples.map (·.filled) := by
  obtain ⟨f, hf, h⟩ := d.markLate_samples s
  rw [h, Ing.updSample, List.map_map]
  refine List.map_congr_left fun z _ => ?_
  obtain ⟨late, hz⟩ := hf z
  rw [Function.comp_apply, hz]
  split <;> rfl

theorem Dev.OnlyFills.markLate : d.OnlyFills (d.markLate s) := by
  obtain ⟨f, hf, h⟩ := d.markLate_samples s
  refine of_updSample (fun z => ?_) (d.markLate_profile s) (fun k hk => ?_) h
  · obtain ⟨late, hz⟩ := hf z
    exact hz ▸ ⟨rfl, id⟩
  · simpa only [Ing.lateBatch, Ing.batch, d.markLate_batches s] using hk

variable {d s}

theorem Dev.markLate_sample {z : Sample} (h : d.ing.sample s.ord = some z) :
    ∃ late, (d.markLate s).ing.sample s.ord = some { z with late := late } := by
  obtain ⟨f, hf, hs⟩ := d.markLate_samples s
  obtain ⟨late, hz⟩ := hf z
  refine ⟨late, ?_⟩
  rw [Ing.sample_updSample (fun y => ?_) hs, h, Option.map_some, hz]
  obtain ⟨_, hy⟩ := hf y
  rw [hy]

/-- SLOT_STATUS of a late sample that gives way. -/
def lateStatus (p : Nat) : Nat := if pfPolicy p = 2 then 6 else 5

/-- Under WAIT a late sample is counted and stays. -/
theorem Dev.lateSample_wait (h : pfPolicy d.ing.prof = 0) : d.lateSample s = d.markLate s := by
  have hprof : pfPolicy (d.markLate s).ing.prof = 0 := by rw [Ing.prof, d.markLate_profile s]; exact h
  unfold Dev.lateSample
  simp only [← Dev.markLate_eq, hprof]

/-- Under the other policies it gives way to a pad sample marked LATE. -/
theorem Dev.lateSample_pads (h : pfPolicy d.ing.prof ≠ 0) :
    ((d.markLate s).padSample s 3 (lateStatus d.ing.prof)).SameSlots (d.lateSample s) := by
  have hprof : (d.markLate s).ing.prof = d.ing.prof := by rw [Ing.prof, d.markLate_profile s]; rfl
  unfold Dev.lateSample
  simp only [← Dev.markLate_eq, hprof]
  split
  case h_1 h0 => exact absurd h0 h
  case h_2 h2 =>
    rw [lateStatus, if_pos h2]
    exact Dev.SameSlots.trans (Dev.SameSlots.handoff _ s) (Dev.SameSlots.of_ing rfl)
  case h_3 _ h2 =>
    rw [lateStatus, if_neg h2]
    exact Dev.SameSlots.of_ing rfl

/-- The slot of a late sample that gives way. -/
theorem Dev.lateSample_sample {z : Sample} (hp : pfPolicy d.ing.prof ≠ 0) (h : d.ing.sample s.ord = some z) :
    ∃ late, (d.lateSample s).ing.sample s.ord = some (({ z with late := late } : Sample).fill 3 (lateStatus d.ing.prof)) := by
  obtain ⟨late, hlate⟩ := Dev.markLate_sample h
  refine ⟨late, ?_⟩
  rw [Ing.sample, (Dev.lateSample_pads hp).samples]
  exact Dev.padSample_sample 3 _ hlate

/-- Every slot of its ordinal is filled. -/
theorem Dev.lateSample_fills (hp : pfPolicy d.ing.prof ≠ 0) {y : Sample} (hy : y ∈ (d.lateSample s).ing.samples) (hord : y.ord = s.ord) :
    y.filled = true := by
  rw [(Dev.lateSample_pads hp).samples, Dev.padSample_samples] at hy
  obtain ⟨z, -, rfl⟩ := List.mem_map.1 hy
  split
  · rfl
  · rename_i hz
    rw [if_neg hz] at hord
    exact absurd hord hz

theorem Dev.OnlyFills.lateSample (d : Dev) (s : Sample) : d.OnlyFills (d.lateSample s) := by
  by_cases hp : pfPolicy d.ing.prof = 0
  · rw [Dev.lateSample_wait hp]
    exact markLate d s
  · exact ((markLate d s).trans (padSample _ s 3 _)).trans (of_sameSlots (Dev.lateSample_pads hp))

end

/-! ## Several samples that are late at once -/

theorem Dev.OnlyFills.lateSamples (l : List Sample) (d : Dev) : d.OnlyFills (l.foldl Dev.lateSample d) :=
  foldl_keeps (fun e => d.OnlyFills e) Dev.lateSample (fun e s h => h.trans (lateSample e s)) l d (refl d)

/-- Under WAIT they are counted, and nothing is filled. -/
theorem Dev.lateSamples_wait {d : Dev} (hp : pfPolicy d.ing.prof = 0) (l : List Sample) :
    (l.foldl Dev.lateSample d).ctr = d.ctr ∧ (l.foldl Dev.lateSample d).ing.samples.map (·.filled) = d.ing.samples.map (·.filled) := by
  refine (foldl_keeps (fun e : Dev => e.ing.profile = d.ing.profile ∧ e.ctr = d.ctr ∧ e.ing.samples.map (·.filled) = d.ing.samples.map (·.filled))
    Dev.lateSample (fun e s he => ?_) l d ⟨rfl, rfl, rfl⟩).2
  obtain ⟨hprofile, hctr, hfilled⟩ := he
  rw [Dev.lateSample_wait (by rw [Ing.prof, hprofile]; exact hp)]
  exact ⟨(e.markLate_profile s).trans hprofile, (e.markLate_ctr s).trans hctr, (e.markLate_filled s).trans hfilled⟩

/-- Under the other policies every slot of theirs is filled. -/
theorem Dev.lateSamples_fill {x y : Sample} (l : List Sample) :
    ∀ d : Dev, pfPolicy d.ing.prof ≠ 0 → x ∈ l → y ∈ (l.foldl Dev.lateSample d).ing.samples → y.ord = x.ord → y.filled = true := by
  induction l with
  | nil => intro d _ hx; cases hx
  | cons s l ih =>
    intro d hp hx hy hord
    rw [List.foldl_cons] at hy
    rcases List.mem_cons.1 hx with rfl | hx
    · obtain ⟨z, hz, hzord, hzfill⟩ := (Dev.OnlyFills.lateSamples l (d.lateSample x)).samples y hy
      exact hzfill (Dev.lateSample_fills hp hz (hzord.trans hord))
    · exact ih (d.lateSample s) (by rw [Ing.prof, (Dev.OnlyFills.lateSample d s).profile]; exact hp) hx hy hord

end Sys2Proof.Machine
end

