-- ==== Sys2Proof/Proofs/SampleEvents.lean ====
section
/-! PROOFS. SAMPLE_TAKE, SHAPER_PICTURE, SAMPLE_BUDGET_EXPIRY, BATCH_DEADLINE, BATCH_READY and LIVE_INPUT_READY (R303 to R330; log entry 30):
what each leaves of the samples, the batches, the rings and the live streams, and O42. -/

namespace Sys2Proof.Machine

/-! ## Meanings of the events -/

section
variable (n : Nat) (s : State)

theorem exec_sampleTake : exec (.sampleTake n) s = workEvent s (s.dev.canTake n) (s.dev.takeEntry n) := rfl
theorem exec_shaperPicture : exec .shaperPicture s = eventOpt s s.dev.shapeNext := rfl
theorem exec_sampleBudgetExpiry : exec (.sampleBudgetExpiry n) s = eventOpt s (s.dev.budgetEnds n) := rfl
theorem exec_batchDeadline : exec (.batchDeadline n) s = eventOpt s (s.dev.deadlineEnds n) := rfl
theorem exec_batchReady : exec (.batchReady n) s = eventOpt s (s.dev.readyBatch n) := rfl
theorem exec_liveInputReady : exec (.liveInputReady n) s = eventOpt s (s.dev.liveReady n) := rfl

end

/-- While work goes on an event of work that can take place has its effect. -/
theorem workEvent_of_can {s : State} {can : Bool} (d : Dev) (hdead : s.dev.pow.dead = false) (hcan : can = true) :
    workEvent s can d = .next { s with dev := d } := by
  simp [workEvent, event, nextDev, hdead, hcan]

theorem eventOpt_of_some {s : State} {o : Option Dev} {d : Dev} (hdead : s.dev.pow.dead = false) (h : o = some d) :
    eventOpt s o = .next { s with dev := d } := by
  rw [h, eventOpt_some s d hdead]

/-! ## A sample record is taken (R309, R311, R312) -/

section
variable (d : Dev) (k n gen : Nat)

@[simp] theorem Dev.noteBad_ing (bad : Option Nat) : (d.noteBad bad).ing = d.ing := by
  cases bad with
  | none => rfl
  | some a =>
    obtain ⟨ctr, plat, o, h⟩ := d.noteFault_frame cobInst 10 4 0 none a
    rw [Dev.noteBad, h]

theorem Dev.eatEntries_ing : (d.eatEntries n k).ing = d.ing.updRing n (·.eat k) := rfl

/-- Opening a batch leaves the samples and the rings alone. -/
theorem Dev.openBatch_frame : ∃ batches unread, d.openBatch k = { d.ing with batches := batches, unread := unread } := by
  unfold Dev.openBatch
  dsimp only
  split
  · exact ⟨_, _, rfl⟩
  · exact ⟨_, _, rfl⟩

theorem Dev.openBatch_isSome : ((d.openBatch k).batch k).isSome = true := by
  unfold Dev.openBatch
  dsimp only
  split
  case isTrue h => exact h
  case isFalse => simp [Ing.batch, List.find?_append]

/-- A batch that is opened is in time where every batch before it is. -/
theorem Dev.openBatch_inTime (h : ∀ b ∈ d.ing.batches, b.late = false) : ¬ (d.openBatch k).lateBatch k := by
  rintro ⟨c, hc, hlate⟩
  have hmem : c ∈ (d.openBatch k).batches := List.mem_of_find?_eq_some hc
  have hin : ∀ b ∈ (d.openBatch k).batches, b.late = false := by
    unfold Dev.openBatch
    dsimp only
    split
    · exact fun b hb => h b (List.mem_of_mem_filter hb)
    · intro b hb
      rcases List.mem_append.1 hb with hb | hb
      · exact h b (List.mem_of_mem_filter hb)
      · rw [List.mem_singleton.1 hb]
  exact Bool.false_ne_true ((hin c hmem).symm.trans hlate)

/-- The sample that the record at the head of ring `n` opens; prepared pictures bind generation `gen`. -/
def Dev.newSample : Sample :=
  let r := d.ing.ring n
  let x := d.ringEntry r r.head
  { ord := r.ordinal, index := smIndex x, pos := r.head, total := smJobs x, toTake := smJobs x, prepsToTake := smPreps x, gen := gen }

/-- That record has been taken, and its sample has the next slot. -/
def Dev.takenRecord : Dev :=
  let r := d.ing.ring n
  let x := d.ringEntry r r.head
  let g := d.openBatch (d.ing.batchNum r.ordinal)
  ({ d with ing := ({ g with samples := g.samples ++ [d.newSample n gen] } : Ing).updRing n (fun r => { r with
      ordinal := r.ordinal + 1, jobsLeft := smJobs x, prepLeft := smPreps x }) }.noteBad (firstBad d.poison (r.at_ r.head) 64)).eatEntries n 1

theorem Dev.takenRecord_samples : (d.takenRecord n gen).ing.samples = d.ing.samples ++ [d.newSample n gen] := by
  obtain ⟨_, _, h⟩ := d.openBatch_frame (d.ing.batchNum (d.ing.ring n).ordinal)
  rw [Dev.takenRecord, Dev.eatEntries_ing, Dev.noteBad_ing, h]
  rfl

/-- The consumer index passes the record, and what follows it is its sample's. -/
theorem Dev.takenRecord_ring : (d.takenRecord n gen).ing.ring n = ({ d.ing.ring n with
    ordinal := (d.ing.ring n).ordinal + 1
    jobsLeft := smJobs (d.ringEntry (d.ing.ring n) (d.ing.ring n).head)
    prepLeft := smPreps (d.ringEntry (d.ing.ring n) (d.ing.ring n).head) } : Ring).eat 1 := by
  obtain ⟨_, _, h⟩ := d.openBatch_frame (d.ing.batchNum (d.ing.ring n).ordinal)
  rw [Dev.takenRecord, Dev.eatEntries_ing, Dev.noteBad_ing, h, Ing.ring_updRing, if_pos rfl, Ing.ring_updRing, if_pos rfl]
  rfl

theorem Dev.takenRecord_batch : ((d.takenRecord n gen).ing.batch (d.ing.batchNum (d.ing.ring n).ordinal)).isSome = true := by
  rw [Dev.takenRecord, Dev.eatEntries_ing, Dev.noteBad_ing]
  exact d.openBatch_isSome _

/-- The checks that a taken record goes through. -/
theorem Dev.takeSample_eq : ∃ gen late, (late = true → (d.openBatch (d.ing.batchNum (d.ing.ring n).ordinal)).lateBatch
      (d.ing.batchNum (d.ing.ring n).ordinal)) ∧
    d.takeSample n =
      if (firstBad d.poison ((d.ing.ring n).at_ (d.ing.ring n).head) 64).isSome then
        (d.takenRecord n gen).replaceSample (d.ing.ring n).ordinal 8
      else if smPadOnly (d.ringEntry (d.ing.ring n) (d.ing.ring n).head) then
        (d.takenRecord n gen).padSample (d.newSample n gen) (smMark (d.ringEntry (d.ing.ring n) (d.ing.ring n).head)) 7
      else if !smOk (d.ringEntry (d.ing.ring n) (d.ing.ring n).head) then (d.takenRecord n gen).replaceSample (d.ing.ring n).ordinal 4
      else if late then (d.takenRecord n gen).lateSample (d.newSample n gen)
      else d.takenRecord n gen := by
  refine ⟨_, _, fun hlate => ?_, rfl⟩
  split at hlate
  case h_1 b hb => exact ⟨b, hb, hlate⟩
  case h_2 => exact absurd hlate Bool.false_ne_true

end

section
variable {d : Dev} {n : Nat} {r : Ring} {x : Nat} (hr : r = d.ing.ring n) (hx : d.ringEntry r r.head = x)
include hr hx

/-- An intact record whose batch is in time waits for its entries. -/
theorem Dev.takeSample_intact (hbad : firstBad d.poison (r.at_ r.head) 64 = none) (hpad : smPadOnly x = false) (hok : smOk x = true)
    (hlate : ∀ b ∈ d.ing.batches, b.late = false) : ∃ gen, d.takeSample n = d.takenRecord n gen := by
  subst hx hr
  obtain ⟨gen, late, hbatch, h⟩ := d.takeSample_eq n
  have hin : late = false := Bool.eq_false_iff.2 fun ht => d.openBatch_inTime _ hlate (hbatch ht)
  exact ⟨gen, by simpa [hbad, hpad, hok, hin] using h⟩

/-- A damaged, PAD_ONLY or illegal record fills its slot at once. -/
theorem Dev.takeSample_faulty (hnew : ∀ y ∈ d.ing.samples, y.ord ≠ r.ordinal)
    (hway : firstBad d.poison (r.at_ r.head) 64 ≠ none ∨ smPadOnly x = true ∨ smOk x = false) :
    ∃ gen pad status, (status, pad) = (if firstBad d.poison (r.at_ r.head) 64 ≠ none then (8, 2)
        else if smPadOnly x = true then (7, smMark x) else (4, 2)) ∧
      d.takeSample n = (d.takenRecord n gen).fillSlot (d.newSample n gen) pad status := by
  subst hx hr
  obtain ⟨gen, late, -, h⟩ := d.takeSample_eq n
  have hsample : (d.takenRecord n gen).ing.sample (d.ing.ring n).ordinal = some (d.newSample n gen) :=
    Ing.sample_new hnew (d.takenRecord_samples n gen)
  have hfill : ∀ pad status, (d.takenRecord n gen).padSample (d.newSample n gen) pad status =
      (d.takenRecord n gen).fillSlot (d.newSample n gen) pad status := fun pad status => Dev.padSample_noJobs _ _ pad status rfl
  rw [Dev.replaceSample_open hsample rfl, Dev.replaceSample_open hsample rfl, hfill, hfill, hfill] at h
  by_cases hbad : firstBad d.poison ((d.ing.ring n).at_ (d.ing.ring n).head) 64 = none
  · by_cases hpad : smPadOnly (d.ringEntry (d.ing.ring n) (d.ing.ring n).head) = true
    · exact ⟨gen, _, 7, by rw [if_neg (not_not.2 hbad), if_pos hpad], by simpa [hbad, hpad] using h⟩
    · have hok : smOk (d.ringEntry (d.ing.ring n) (d.ing.ring n).head) = false :=
        (hway.resolve_left (not_not.2 hbad)).resolve_left hpad
      exact ⟨gen, 2, 4, by rw [if_neg (not_not.2 hbad), if_neg hpad], by simpa [hbad, hpad, hok] using h⟩
  · have hsome := Option.isSome_iff_ne_none.2 hbad
    exact ⟨gen, 2, 8, by rw [if_pos hbad], by simpa [hsome] using h⟩

end

/-! ## A prepared entry is taken (R310, R319) -/

section
variable {d : Dev} {n : Nat} {sm : Sample}

/-- The prepared entry at the head of ring `n` has been taken. -/
def Dev.takenPrep (d : Dev) (n : Nat) : Dev :=
  (d.updIng (fun g => (g.updRing n (fun r => { r with prepLeft := r.prepLeft - 1 })).updSample ((d.ing.ring n).ordinal - 1)
    (fun s => { s with prepsToTake := s.prepsToTake - 1 }))).eatEntries n 1

theorem Dev.takenPrep_sample (h : d.ing.sample ((d.ing.ring n).ordinal - 1) = some sm) :
    (d.takenPrep n).ing.sample ((d.ing.ring n).ordinal - 1) = some { sm with prepsToTake := sm.prepsToTake - 1 } := by
  rw [Ing.sample_updSample (g := d.ing) (g' := (d.takenPrep n).ing) (f := fun s => { s with prepsToTake := s.prepsToTake - 1 }) (fun _ => rfl) rfl, h]
  rfl

theorem Dev.takenPrep_ring : (d.takenPrep n).ing.ring n = ({ d.ing.ring n with prepLeft := (d.ing.ring n).prepLeft - 1 } : Ring).eat 1 := by
  rw [Dev.takenPrep, Dev.eatEntries_ing, Ing.ring_updRing, if_pos rfl]
  exact congrArg (Ring.eat · 1) ((Ing.ring_updRing d.ing n n (fun r => { r with prepLeft := r.prepLeft - 1 })).trans (if_pos rfl))

variable {x : Nat} (hx : d.ringEntry (d.ing.ring n) (d.ing.ring n).head = x) (h : d.ing.sample ((d.ing.ring n).ordinal - 1) = some sm)
  (hopen : sm.filled = false) (hentry : firstBad d.poison ((d.ing.ring n).at_ (d.ing.ring n).head) 64 = none)
  (hdata : firstBad d.poison (peSrc x) (peLen x) = none)
include hx h hopen hentry hdata

/-- An entry that fits adds its segment and its objects. -/
theorem Dev.takePrep_fits {l : List SampleSeg} {bs : List (List Byte)} (hseg : d.addPrep sm.segs x = some l) (hobj : d.prepObjects x = some bs) :
    ∃ ms : List Media, ms.map (·.data) = bs ∧ d.takePrep n = (d.takenPrep n).updIng (fun g =>
      { g.updSample ((d.ing.ring n).ordinal - 1) (fun s => { s with segs := l }) with media := g.media ++ ms }) := by
  subst hx
  refine ⟨_, ?_, by simp only [Dev.takePrep, h, hopen, hentry, hdata, hseg, hobj]; rfl⟩
  simp [Function.comp_def]

/-- One that does not fit replaces the sample. -/
theorem Dev.takePrep_unfit (hseg : d.addPrep sm.segs x = none) :
    d.takePrep n = (d.takenPrep n).replaceSample ((d.ing.ring n).ordinal - 1) 4 := by
  subst hx
  simp only [Dev.takePrep, h, hopen, hentry, hdata, hseg]
  rfl

end

section
variable {d : Dev} {n : Nat}

theorem Dev.takeEntry_record (hrun : d.pow.runs 81 = true) (h : (d.ing.ring n).prepLeft = 0) : d.takeEntry n = d.takeSample n := by
  simp [Dev.takeEntry, hrun, h]

theorem Dev.takeEntry_prep (hrun : d.pow.runs 81 = true) (h : (d.ing.ring n).prepLeft ≠ 0) : d.takeEntry n = d.takePrep n := by
  simp [Dev.takeEntry, hrun, h]

end

/-! ## A segment is shaped (R304, R316) -/

section
variable {d : Dev} {sm : Sample} {x : SampleSeg} {seed room : Nat} {planes : List (List (List Byte))}

theorem Ing.nextSeg_open {g : Ing} (h : g.nextSeg = some (sm, x)) : sm.filled = false := by
  obtain ⟨y, -, hy⟩ := List.exists_of_findSome?_eq_some h
  split at hy
  case isTrue => exact absurd hy (Option.some_ne_none _).symm
  case isFalse hgo =>
    obtain ⟨z, -, hz⟩ := Option.map_eq_some_iff.1 hy
    cases hz
    simpa using (not_or.1 (mt (Bool.or_eq_true _ _).mpr hgo)).1

theorem Dev.shapeNext_shapes (hlive : ∀ m ∈ d.ing.media, m.sample ≠ none) (hnext : d.ing.nextSeg = some (sm, x)) (hrun : d.pow.runs 81 = true)
    (hseed : d.runSeed = some seed) : d.shapeNext = some (d.shape sm x seed) := by
  have hnone : d.ing.media.any (fun m => m.sample.isNone) = false := by simpa using hlive
  simp [Dev.shapeNext, hnone, hnext, hrun, hseed]

/-- The segment `x` stands at `start`, `len` positions long. -/
def SampleSeg.place (x : SampleSeg) (start len : Nat) (z : SampleSeg) : SampleSeg :=
  if z.num = x.num then { z with start := start, len := len, shaped := true } else z

variable (hroom : room = capOf d.ing.prof x.region - validOf (sm.segs.filter (fun y => y.num < x.num)) x.region)
  (hshape : shapeSeg d.ing.prof (profAug d.ing.prof (bits d.ing.prof 576 4) seed) sm.index room x (d.ing.objects sm.ord x.num) = (planes, none))
include hroom hshape

/-- Positions that fit stand behind those of the segments before, and the slot may be full. -/
theorem Dev.shape_fits (hfits : (planes.headD []).length ≤ room) : ∃ e : Dev, d.shape sm x seed = e.tryFill sm.ord ∧
    e.ing.samples = (d.ing.updSample sm.ord (fun s => { s with
      segs := s.segs.map (x.place (validOf (sm.segs.filter (fun y => y.num < x.num)) x.region) (planes.headD []).length) })).samples := by
  subst hroom
  simp only [Dev.shape, hshape, Nat.not_lt.2 hfits, if_false]
  refine ⟨_, rfl, congrArg Ing.samples (a₁ := Ing.updSample _ _ _) (congrArg (Ing.updSample · _ _) ?_)⟩
  exact foldl_keeps (fun e : Dev => e.ing = d.ing) _ (fun e y he => (e.putRun_ing ..).trans he) _ d rfl

theorem Dev.shape_exceeds (hover : room < (planes.headD []).length) : d.shape sm x seed = d.replaceSample sm.ord 3 := by
  subst hroom
  simp only [Dev.shape, hshape, hover, if_true]

end

/-! ## Budgets and deadlines (R320, R321) -/

section
variable {d : Dev} {o n k beat phase : Nat} {sm : Sample} {b : Batch}

/-- Sample `o` counts as over budget. -/
def Dev.markOver (d : Dev) (o : Nat) : Dev := d.updIng (fun g => g.updSample o (fun s => { s with overDone := true }))

theorem Dev.markOver_sample (h : d.ing.sample o = some sm) : (d.markOver o).ing.sample o = some { sm with overDone := true } := by
  rw [Ing.sample_updSample (g := d.ing) (g' := (d.markOver o).ing) (f := fun s => { s with overDone := true }) (fun _ => rfl) rfl, h]
  rfl

theorem Dev.budgetEnds_within (h : d.ing.sample o = some sm) (hover : d.overBudget sm = false) : d.budgetEnds o = none := by
  simp [Dev.budgetEnds, h, hover]

variable (h : d.ing.sample o = some sm) (hopen : sm.filled = false) (hfirst : sm.overDone = false) (hover : d.overBudget sm = true)
include h hopen hfirst hover

theorem Dev.budgetEnds_wait (hp : pfPolicy d.ing.prof = 0) :
    d.budgetEnds o = some (((d.markOver o).markLate sm).count cobInst 0x41 1) := by
  have hlate : (d.markOver o).lateSample sm = (d.markOver o).markLate sm := Dev.lateSample_wait hp
  have hprof : ((d.markOver o).markLate sm).ing.prof = d.ing.prof := by rw [Ing.prof, Dev.markLate_profile]; rfl
  simp only [Dev.markOver] at hlate hprof ⊢
  simp only [Dev.budgetEnds, h, hopen, hfirst, hover, hlate, hprof, hp]
  rfl

theorem Dev.budgetEnds_pads (hp : pfPolicy d.ing.prof ≠ 0) : d.budgetEnds o = some ((d.markOver o).lateSample sm) := by
  have hprof : ((d.markOver o).lateSample sm).ing.prof = d.ing.prof := by rw [Ing.prof, (Dev.OnlyFills.lateSample _ sm).profile]; rfl
  simp only [Dev.markOver] at hprof ⊢
  simp only [Dev.budgetEnds, h, hopen, hfirst, hover, hprof, hp]
  rfl

end

section
variable {d : Dev} {n beat phase : Nat} {b : Batch}

/-- Samples of a batch that are open and not on time. -/
def Dev.openLate (d : Dev) (k beat phase : Nat) : List Sample := (d.ing.samplesOf k).filter (fun s => !s.filled && !d.onTime s beat phase)

/-- Batch `k` is late; under WAIT it counts. -/
def Dev.markBatchLate (d : Dev) (k : Nat) : Dev :=
  let d := d.updIng (fun g => g.updBatch k (fun b => { b with late := true }))
  if pfPolicy d.ing.prof = 0 then d.count cobInst 0x42 1 else d

theorem Dev.markBatchLate_ing (d : Dev) (k : Nat) : (d.markBatchLate k).ing = d.ing.updBatch k (fun b => { b with late := true }) := by
  unfold Dev.markBatchLate
  dsimp only
  split <;> rfl

theorem Dev.markBatchLate_wait (d : Dev) (k : Nat) (hp : pfPolicy d.ing.prof = 0) : (d.markBatchLate k).ctr = bump d.ctr cobInst 0x42 1 := by
  have hprof : pfPolicy (d.ing.updBatch k (fun b => { b with late := true })).prof = 0 := hp
  simp only [Dev.markBatchLate, Dev.updIng, hprof]
  rfl

variable (hb : d.ing.batch (d.ing.epoch + n) = some b) (hdl : b.deadline = some (beat, phase))
include hb hdl

theorem Dev.deadlineEnds_early (h : d.cad.reached beat phase d.plat.now = false) : d.deadlineEnds n = none := by
  simp [Dev.deadlineEnds, hb, hdl, h]

theorem Dev.deadlineEnds_late (hready : b.ready = false) (hlate : b.late = false) (h : d.cad.reached beat phase d.plat.now = true)
    (hslot : (d.ing.samplesOf (d.ing.epoch + n)).length ≠ 16 ∨
      ∃ y ∈ d.ing.samplesOf (d.ing.epoch + n), y.filled = false ∧ d.onTime y beat phase = false) :
    d.deadlineEnds n = some ((d.openLate (d.ing.epoch + n) beat phase).foldl Dev.lateSample (d.markBatchLate (d.ing.epoch + n))) := by
  have hgo : ((d.ing.samplesOf (d.ing.epoch + n)).length == 16 && d.openLate (d.ing.epoch + n) beat phase == []) = false := by
    rcases hslot with hlen | ⟨y, hy, hopen, htime⟩
    · simp [hlen]
    · have hmem : y ∈ d.openLate (d.ing.epoch + n) beat phase := List.mem_filter.2 ⟨hy, by simp [hopen, htime]⟩
      have hne : d.openLate (d.ing.epoch + n) beat phase ≠ [] := List.ne_nil_of_mem hmem
      simp [hne]
  unfold Dev.openLate at hgo ⊢
  simp only [Dev.deadlineEnds, hb, hdl, hready, hlate, h, hgo]
  rfl

end

/-! ## Batches that are ready (R312, R323) -/

section
variable {d : Dev} {n : Nat} {b : Batch} {m : Nat} {r : Ring}

theorem Dev.poisonedBatch_frame (d : Dev) (h : Nat) (second : Bool) :
    (d.poisonedBatch h second).mem = d.mem ∧ (d.poisonedBatch h second).ing = d.ing := by
  unfold Dev.poisonedBatch
  repeat' split
  all_goals exact ⟨rfl, rfl⟩

/-- Steps that a poisoned sample fails leave memory and the Huller alone. -/
theorem Dev.poisonSteps_frame (d : Dev) : d.poisonSteps.mem = d.mem ∧ d.poisonSteps.ing = d.ing := by
  refine foldl_keeps (fun e : Dev => e.mem = d.mem ∧ e.ing = d.ing) _ (fun e h ⟨hmem, hing⟩ => ?_) _ d ⟨rfl, rfl⟩
  obtain ⟨hmem1, hing1⟩ := e.poisonedBatch_frame h false
  obtain ⟨hmem2, hing2⟩ := (e.poisonedBatch h false).poisonedBatch_frame h true
  exact ⟨(hmem2.trans hmem1).trans hmem, (hing2.trans hing1).trans hing⟩

theorem pow_bytes (k : Nat) : 256 ^ k = 2 ^ (8 * k) := by
  rw [Nat.pow_mul]

theorem Dev.storeNat_mem (d : Dev) (a k v : Nat) : (d.storeNat a k v).mem = wrNat d.mem a k v := rfl

/-- The batch's record stands in the batch area of the ring, and the producer index is past it. -/
def Dev.putBatchRecord (d : Dev) (k : Nat) (b : Batch) (r : Ring) : Dev :=
  (d.storeNat (r.batch + 64 + 128 * (r.batchIdx % 64)) 128 (batchRecord k b.padded d.plat.now (d.ing.samplesOf k))).storeNat r.batch 4
    ((r.batchIdx + 1) % 2 ^ 32)

/-- The batch is ready, and its samples are done with. -/
def Ing.endBatch (g : Ing) (k now m : Nat) : Ing :=
  let g := (g.updRing m (fun r => { r with batchIdx := (r.batchIdx + 1) % 2 ^ 32 })).updBatch k (fun b => { b with ready := true, readyAt := now })
  ({ g with samples := g.samples.filter (fun s => g.batchNum s.ord != k) } : Ing).retire

section
variable (d : Dev) (k : Nat) (b : Batch) (r : Ring)

theorem Dev.putBatchRecord_mem : (d.putBatchRecord k b r).mem =
    wrNat (wrNat d.mem (r.batch + 64 + 128 * (r.batchIdx % 64)) 128 (batchRecord k b.padded d.plat.now (d.ing.samplesOf k))) r.batch 4
      ((r.batchIdx + 1) % 2 ^ 32) := by
  rw [Dev.putBatchRecord, Dev.storeNat_mem, Dev.storeNat_mem]

theorem Dev.putBatchRecord_ing : (d.putBatchRecord k b r).ing = d.ing := by
  rw [Dev.putBatchRecord, Dev.storeNat_ing, Dev.storeNat_ing]

theorem Dev.putBatchRecord_record : rdNat (d.putBatchRecord k b r).mem (r.batch + 64 + 128 * (r.batchIdx % 64)) 128 =
    batchRecord k b.padded d.plat.now (d.ing.samplesOf k) % 2 ^ 1024 := by
  rw [Dev.putBatchRecord_mem, rdNat_wrNat_other _ _ _ _ _ _ (.inr (by omega)), rdNat_wrNat]
  simp only [pow_bytes, Nat.reduceMul]

theorem Dev.putBatchRecord_index : rdNat (d.putBatchRecord k b r).mem r.batch 4 = (r.batchIdx + 1) % 2 ^ 32 := by
  rw [Dev.putBatchRecord_mem, rdNat_wrNat]
  exact Nat.mod_mod_of_dvd _ (dvd_refl _)

theorem Dev.putBatchRecord_other {a : Nat} (h : a < r.batch ∨ r.batch + 64 + 128 * 64 ≤ a) :
    rdByte (d.putBatchRecord k b r).mem a = rdByte d.mem a := by
  have hslot : r.batchIdx % 64 < 64 := Nat.mod_lt _ (by decide)
  rw [Dev.putBatchRecord_mem, rdByte_wrNat_other _ _ _ _ _ (by omega), rdByte_wrNat_other _ _ _ _ _ (by omega)]

end

/-- Batch `k` is ready, with its record in the batch area. -/
def Dev.endBatch (d : Dev) (k : Nat) (b : Batch) (m : Nat) (r : Ring) : Dev :=
  (d.putBatchRecord k b r).updIng (fun g => g.endBatch k d.plat.now m)

theorem Dev.endBatch_ing (d : Dev) (k : Nat) (b : Batch) (m : Nat) (r : Ring) : (d.endBatch k b m r).ing = d.ing.endBatch k d.plat.now m :=
  congrArg (fun g : Ing => g.endBatch k d.plat.now m) (d.putBatchRecord_ing k b r)

variable (hb : d.ing.batch (d.ing.epoch + n) = some b) (hring : d.ing.shaperRing = some (m, r))
include hb hring

theorem Dev.readyBatch_open (hopen : ∃ y ∈ d.ing.samplesOf (d.ing.epoch + n), y.filled = false) : d.readyBatch n = none := by
  have hany : (d.ing.samplesOf (d.ing.epoch + n)).any (fun s => !s.filled) = true := by simpa using hopen
  simp [Dev.readyBatch, hb, hring, hany]

theorem Dev.readyBatch_full (hready : b.ready = false) (hlen : (d.ing.samplesOf (d.ing.epoch + n)).length = 16)
    (hfull : ∀ y ∈ d.ing.samplesOf (d.ing.epoch + n), y.filled = true) : d.readyBatch n = some (d.endBatch (d.ing.epoch + n) b m r).poisonSteps := by
  have hany : (d.ing.samplesOf (d.ing.epoch + n)).any (fun s => !s.filled) = false := by simpa using hfull
  simp only [Dev.readyBatch, hb, hring, hready, hlen, hany, Dev.endBatch, Dev.putBatchRecord, Dev.updIng, Ing.endBatch, bne_self_eq_false, Bool.or_self,
    Bool.false_eq_true, if_false, Dev.storeNat_ing, Dev.storeNat_plat]

end

/-! ## Live inputs (R325, R326, R329) -/

section
variable {d : Dev} {n : Nat} {m : Media}

/-- A task that may have become able to start leaves its stream's inputs alone. -/
theorem Dev.markReady_frame (d : Dev) (n : Nat) : ∃ cad, d.markReady n = { d with cad := cad } ∧ (cad.stream n).inputs = (d.cad.stream n).inputs := by
  unfold Dev.markReady
  dsimp only
  split
  · exact ⟨d.cad, rfl, rfl⟩
  · split
    · exact ⟨d.cad, rfl, rfl⟩
    · exact ⟨_, rfl, by rw [Cad.stream_updStream, if_pos rfl]⟩

/-- What the second device has of the live input of picture `m`, shaped by region list `list` of frame `source`. -/
structure Dev.Shaped (d : Dev) (n : Nat) (m : Media) (list source : Nat) (stale : Bool) (e : Dev) : Prop where
  mem : e.mem = wrBytes d.mem (srInput (d.cad.stream n).record + m.frame % 2 * srStride (d.cad.stream n).record)
    (liveInput d.ing.prof (d.cad.stream n).record m.frame list source stale m)
  inputs : (e.cad.stream n).inputs = (d.cad.stream n).inputs ++ [{
    frame := m.frame, ready := d.plat.now, arrival := m.arrival, allow := m.bound + shapeTime (d.cad.stream n).record, stale := stale }]
  media : e.ing.media = d.ing.media

/-- The input once its buffer is written and the stream has it. -/
theorem Dev.Shaped.markReady {list source : Nat} {stale : Bool} {e : Dev} (h : d.Shaped n m list source stale e) :
    d.Shaped n m list source stale (e.markReady n) := by
  obtain ⟨cad, he, hinputs⟩ := e.markReady_frame n
  rw [he]
  exact ⟨h.mem, hinputs.trans h.inputs, h.media⟩

theorem Dev.shapeLive_listed {g list : Nat} (hlist : (d.cad.stream n).listFor m.frame = some (g, list)) :
    d.Shaped n m list g (g + 1 != m.frame) (d.shapeLive n m) := by
  simp only [Dev.shapeLive, hlist, Option.isNone_some, Bool.or_false]
  refine Dev.Shaped.markReady ⟨?_, ?_, ?_⟩
  all_goals split
  all_goals simp

theorem Dev.shapeLive_unlisted (hlist : (d.cad.stream n).listFor m.frame = none) :
    ∃ list source, d.Shaped n m list source true (d.shapeLive n m) := by
  simp only [Dev.shapeLive, hlist]
  exact ⟨rdNat d.mem (srRois (d.cad.stream n).record) 256, leNat (freeBytes d.plat.freeCount 6), Dev.Shaped.markReady ⟨by simp, by simp, rfl⟩⟩

/-- The picture and the others of its job no longer wait. -/
def Dev.takePicture (d : Dev) (m : Media) : Dev :=
  d.updIng (fun g => { g with media := g.media.filter (fun x => !(x.sample.isNone && x.job == m.job)) })

/-- The frame has no input. -/
def Dev.badPicture (d : Dev) (n : Nat) (m : Media) (st : Nat) : Dev :=
  { d with cad := d.cad.updStream n (fun s => { s with badInputs := s.badInputs ++ [(m.frame, st)] }) }

variable (hm : d.ing.media.find? (fun m => m.sample.isNone && m.stream == n) = some m) (hrun : d.pow.runs 81 = true)
  (hroi : (d.cad.stream n).listFor m.frame ≠ none ∨ firstBad d.poison (srRois (d.cad.stream n).record) 256 = none)
include hm hrun hroi

theorem Dev.liveReady_eq : d.liveReady n = some (if picMapped m.mats (pfPix d.ing.prof).map m.data = true then (d.takePicture m).shapeLive n m
    else (d.takePicture m).badPicture n m stAborted) := by
  rcases hroi with hlist | hbytes
  · have hsome : ((d.cad.stream n).listFor m.frame).isNone = false := by rw [Option.isNone_eq_false_iff, Option.isSome_iff_ne_none]; exact hlist
    simp only [Dev.liveReady, hm, hrun, Dev.updIng_cad, Dev.updIng_poison, hsome, Bool.not_true, Bool.false_eq_true, if_false, Option.isSome_none]
    exact (apply_ite some _ _ _).symm
  · simp only [Dev.liveReady, hm, hrun, Dev.updIng_cad, Dev.updIng_poison, hbytes, ite_self, Bool.not_true, Bool.false_eq_true, if_false,
      Option.isSome_none]
    exact (apply_ite some _ _ _).symm

end

/-! ## The events -/

/-- Settles O42: each event by what it leaves of the samples, the batches and the streams. -/
theorem samplesFillTheirBatches : Obligations.SamplesFillTheirBatches := by
  intro s hdead hrun
  refine ⟨fun n r x hr hx hcan => ⟨fun hprep hnew => ⟨fun hbad hpad hok hlate => ?intact, fun hway => ?faulty⟩,
      fun sm hprep hsm hopen hentry hdata => ⟨fun l bs hseg hobj => ?fits, fun hseg => ?unfit⟩⟩,
    fun sm x seed planes room hlive hnext hsm hseed hroom hshape => ⟨fun hfits => ?shaped, fun hover => ?exceeds⟩,
    fun o sm hsm hopen hfirst => ⟨fun hwithin => ?within, fun hover hp => ?budgetWait, fun hover hp => ?budgetPads⟩,
    fun n k b beat phase hk hb hdl hready hlate => ⟨fun hearly => ?early, fun hreached hslot => ?late⟩,
    fun n k b m r ss hk hss hb hready hring hlen => ⟨fun hopen => ?waits, fun hfull => ?ready⟩,
    fun n m rec_ hm hrec => ⟨fun g list hmap hlist => ?listed, fun hlist hroi hmap => ?unlisted, fun hroi hmap => ?unmapped⟩⟩
  case intact =>
    subst hr
    obtain ⟨gen, h⟩ := Dev.takeSample_intact rfl hx.symm hbad hpad hok hlate
    have hexec := (exec_sampleTake n s).trans (workEvent_of_can _ hdead hcan)
    rw [Dev.takeEntry_record hrun hprep, h] at hexec
    refine ⟨_, s.dev.newSample n gen, hexec, rfl, ?_⟩
    rw [Dev.takenRecord_ring, hx]
    exact ⟨s.dev.takenRecord_samples n gen, rfl, rfl, rfl, rfl, rfl, rfl, rfl, rfl, rfl, s.dev.takenRecord_batch n gen⟩
  case faulty =>
    subst hr
    obtain ⟨gen, pad, status, hmark, h⟩ := Dev.takeSample_faulty rfl hx.symm hnew hway
    have hexec := (exec_sampleTake n s).trans (workEvent_of_can _ hdead hcan)
    rw [Dev.takeEntry_record hrun hprep, h] at hexec
    obtain ⟨hsamples, -, hrings, -⟩ := (s.dev.takenRecord n gen).fillSlot_frame (s.dev.newSample n gen) pad status
    refine ⟨_, (s.dev.newSample n gen).fill pad status, hexec, rfl, ?_, rfl, hmark, ?_⟩
    · refine (Ing.sample_updSample (f := (·.fill pad status)) (fun _ => rfl) hsamples).trans ?_
      rw [Ing.sample_new hnew (s.dev.takenRecord_samples n gen)]
      rfl
    · rw [Ing.ring, hrings, ← Ing.ring, Dev.takenRecord_ring]
      rfl
  case fits =>
    subst hr
    obtain ⟨ms, hms, h⟩ := Dev.takePrep_fits hx.symm hsm hopen hentry hdata hseg hobj
    have hexec := (exec_sampleTake n s).trans (workEvent_of_can _ hdead hcan)
    rw [Dev.takeEntry_prep hrun hprep, h] at hexec
    have hring := Dev.takenPrep_ring (d := s.dev) (n := n)
    refine ⟨_, { sm with prepsToTake := sm.prepsToTake - 1, segs := l }, hexec, rfl, ?_, rfl, rfl, ?_,
      congrArg Ring.prepLeft hring, congrArg Ring.head hring⟩
    · refine (Ing.sample_updSample (g := (s.dev.takenPrep n).ing) (f := fun y => { y with segs := l }) (fun _ => rfl) rfl).trans ?_
      rw [Dev.takenPrep_sample hsm]
      rfl
    · rw [← hms, ← List.map_append]
      rfl
  case unfit =>
    subst hr
    have hexec := (exec_sampleTake n s).trans (workEvent_of_can _ hdead hcan)
    rw [Dev.takeEntry_prep hrun hprep, Dev.takePrep_unfit hx.symm hsm hopen hentry hdata hseg] at hexec
    exact ⟨_, _, hexec, rfl, Dev.replaceSample_sample 4 (Dev.takenPrep_sample hsm) hopen, rfl, rfl, rfl⟩
  case shaped =>
    obtain ⟨e, he, hsamples⟩ := Dev.shape_fits hroom hshape hfits
    have hexec := (exec_shaperPicture s).trans (eventOpt_of_some hdead (Dev.shapeNext_shapes hlive hnext hrun hseed))
    have hplaced := Ing.sample_updSample (f := fun z => { z with
      segs := z.segs.map (x.place (validOf (sm.segs.filter (fun y => y.num < x.num)) x.region) (planes.headD []).length) }) (fun _ => rfl) hsamples
    rw [hsm] at hplaced
    obtain ⟨y, hy, hsegs⟩ := Dev.tryFill_segs hplaced
    rw [he] at hexec
    exact ⟨_, y, hexec, rfl, hy, hsegs⟩
  case exceeds =>
    have hexec := (exec_shaperPicture s).trans (eventOpt_of_some hdead (Dev.shapeNext_shapes hlive hnext hrun hseed))
    rw [Dev.shape_exceeds hroom hshape hover] at hexec
    exact ⟨_, _, hexec, rfl, Dev.replaceSample_sample 3 hsm (Ing.nextSeg_open hnext), rfl, rfl, rfl⟩
  case within => rw [exec_sampleBudgetExpiry, Dev.budgetEnds_within hsm hwithin, eventOpt_none]
  case budgetWait =>
    have hexec := (exec_sampleBudgetExpiry o s).trans (eventOpt_of_some hdead (Dev.budgetEnds_wait hsm hopen hfirst hover hp))
    cases Ing.sample_ord hsm
    obtain ⟨late, hlate⟩ := Dev.markLate_sample (d := s.dev.markOver sm.ord) (s := sm) (Dev.markOver_sample hsm)
    exact ⟨_, _, hexec, rfl, hlate, rfl, hopen, (ctrVal_bump _ _ _ _).trans (by rw [Dev.markLate_ctr]; rfl)⟩
  case budgetPads =>
    have hexec := (exec_sampleBudgetExpiry o s).trans (eventOpt_of_some hdead (Dev.budgetEnds_pads hsm hopen hfirst hover hp))
    cases Ing.sample_ord hsm
    obtain ⟨late, hlate⟩ := Dev.lateSample_sample (d := s.dev.markOver sm.ord) (s := sm) hp (Dev.markOver_sample hsm)
    exact ⟨_, _, hexec, rfl, hlate, rfl, rfl, rfl⟩
  case early =>
    subst hk
    rw [exec_batchDeadline, Dev.deadlineEnds_early hb hdl hearly, eventOpt_none]
  case late =>
    subst hk
    have hexec := (exec_batchDeadline n s).trans (eventOpt_of_some hdead (Dev.deadlineEnds_late hb hdl hready hlate hreached hslot))
    have hing := s.dev.markBatchLate_ing (s.dev.ing.epoch + n)
    have hfills := Dev.OnlyFills.lateSamples (s.dev.openLate (s.dev.ing.epoch + n) beat phase) (s.dev.markBatchLate (s.dev.ing.epoch + n))
    refine ⟨_, hexec, rfl, hfills.late _ ⟨{ b with late := true }, ?_, rfl⟩, fun hp => ?_, fun hp y hy hyk => ?_⟩
    · rw [Ing.batch_updBatch (f := fun b => { b with late := true }) (fun _ => rfl) (congrArg Ing.batches hing), hb]
      rfl
    · obtain ⟨hctr, hfilled⟩ := Dev.lateSamples_wait (d := s.dev.markBatchLate (s.dev.ing.epoch + n)) (by rw [hing]; exact hp)
        (s.dev.openLate (s.dev.ing.epoch + n) beat phase)
      refine ⟨?_, hfilled.trans (by rw [hing]; rfl)⟩
      rw [hctr, s.dev.markBatchLate_wait _ hp, ctrVal_bump]
    · obtain ⟨z, hz, hord, hkeeps⟩ := hfills.samples y hy
      have hzs : z ∈ s.dev.ing.samples := by rw [hing] at hz; exact hz
      by_cases hfilled : z.filled = true
      · exact .inl (hkeeps hfilled)
      · by_cases htime : s.dev.onTime z beat phase = true
        · exact .inr ⟨z, hzs, hord, htime⟩
        · have hof : z ∈ s.dev.ing.samplesOf (s.dev.ing.epoch + n) :=
            List.mem_filter.2 ⟨hzs, by rw [Ing.batchNum, hord]; exact beq_iff_eq.2 hyk⟩
          have hlatez : z ∈ s.dev.openLate (s.dev.ing.epoch + n) beat phase := List.mem_filter.2 ⟨hof, by simp [hfilled, htime]⟩
          exact .inl (Dev.lateSamples_fill _ _ (by rw [hing]; exact hp) hlatez hy hord.symm)
  case waits =>
    subst hss hk
    rw [exec_batchReady, Dev.readyBatch_open hb hring hopen, eventOpt_none]
  case ready =>
    subst hss hk
    have hexec := (exec_batchReady n s).trans (eventOpt_of_some hdead (Dev.readyBatch_full hb hring hready hlen hfull))
    obtain ⟨hmem, hing⟩ := (s.dev.endBatch (s.dev.ing.epoch + n) b m r).poisonSteps_frame
    refine ⟨_, hexec, rfl, ?_⟩
    rw [hmem, hing, Dev.endBatch_ing, Dev.endBatch, Dev.updIng_mem]
    refine ⟨⟨{ b with ready := true, readyAt := s.dev.plat.now }, ?_, rfl, rfl⟩, rfl, s.dev.putBatchRecord_record _ b r,
      s.dev.putBatchRecord_index _ b r, fun a => s.dev.putBatchRecord_other _ b r⟩
    refine (Ing.batch_updBatch (g := s.dev.ing) (f := fun b => { b with ready := true, readyAt := s.dev.plat.now }) (fun _ => rfl) rfl).trans ?_
    rw [hb]
    rfl
  case listed =>
    subst hrec
    have hexec := (exec_liveInputReady n s).trans (eventOpt_of_some hdead (Dev.liveReady_eq hm hrun (.inl (by simp [hlist]))))
    rw [if_pos hmap] at hexec
    obtain ⟨hmem, hinputs, hmedia⟩ := Dev.shapeLive_listed (d := s.dev.takePicture m) (n := n) hlist
    exact ⟨_, _, hexec, rfl, rfl, (congrArg (rdBytes · _ _) hmem).trans (rdBytes_wrBytes ..), hinputs, hmedia⟩
  case unlisted =>
    subst hrec
    have hexec := (exec_liveInputReady n s).trans (eventOpt_of_some hdead (Dev.liveReady_eq hm hrun (.inr hroi)))
    rw [if_pos hmap] at hexec
    obtain ⟨list, source, hshaped⟩ := Dev.shapeLive_unlisted (d := s.dev.takePicture m) (n := n) hlist
    exact ⟨_, hexec, rfl, _, hshaped.inputs, rfl, rfl⟩
  case unmapped =>
    subst hrec
    have hexec := (exec_liveInputReady n s).trans (eventOpt_of_some hdead (Dev.liveReady_eq hm hrun hroi))
    rw [if_neg (by simp [hmap])] at hexec
    refine ⟨_, hexec, rfl, rfl, ?_, ?_⟩
    all_goals simp [Dev.badPicture, Dev.takePicture]

end Sys2Proof.Machine
end

