-- ==== Sys2Proof/Proofs/EncoderAfterFatalParity.lean ====
section
/-! PROOFS. The encoder after FATAL_PARITY: the device stops all work (R143), its domains stay ON, and the picture that the encoder codes stays
in it. O43 asks of a device with domain 82 ON that ENC_PICTURE_DONE end the picture, and excludes FATAL_PARITY only for ENC_PICTURE_START. -/

namespace Sys2Proof.Machine

/-! ## What FATAL_PARITY leaves -/

@[simp] theorem Dev.fatalParity_dead (d : Dev) : d.fatalParity.pow.dead = true := rfl
@[simp] theorem Dev.fatalParity_on (d : Dev) (id : Nat) : d.fatalParity.pow.on id = d.pow.on id := rfl

/-- No session and no picture changes. -/
@[simp] theorem Dev.fatalParity_enc (d : Dev) : d.fatalParity.enc = d.enc := by
  simp only [Dev.fatalParity, Dev.parity, Dev.traceFault]
  generalize hlogged : ({ d with ctr := _, plat := _ } : Dev) = logged
  obtain ⟨o, c, htrace⟩ := logged.trace_obs 0x0F 4 13 0 0 0
  rw [htrace, ← hlogged]

/-- An interrupt message names no command. -/
theorem HostIf.irqPorts_nextCmd (h : HostIf) : h.irqPorts.nextCmd = h.nextCmd := by
  simp only [HostIf.irqPorts]
  split <;> split <;> rfl

@[simp] theorem Dev.fatalParity_nextCmd (d : Dev) : d.fatalParity.host.nextCmd = d.host.nextCmd := d.host.irqPorts_nextCmd

/-! ## ENC_PICTURE_DONE on a device that has stopped all work -/

/-- After FATAL_PARITY an event of work cannot take place. -/
theorem workEvent_of_dead {s : State} (can : Bool) (d : Dev) (hdead : s.dev.pow.dead = true) : workEvent s can d = .next s := by
  simp [workEvent, event, hdead]

theorem exec_encPictureDone (s : State) : exec .encPictureDone s = execEncPictureDone s := rfl

/-- No picture ends (R143). -/
theorem exec_encPictureDone_of_dead {s : State} (hdead : s.dev.pow.dead = true) : exec .encPictureDone s = .next s := by
  rw [exec_encPictureDone, execEncPictureDone]
  dsimp only
  split
  · rfl
  · exact workEvent_of_dead _ _ hdead

/-- Where a state stays as it is, what it becomes has its encoder: replies do not reach it. -/
theorem Res.Becomes.enc_eq {s : State} {d : Dev} (h : Res.Becomes s d (.next s)) : d.enc = s.dev.enc := by
  obtain ⟨t, ht, -, hreplied⟩ := h
  cases ht
  exact hreplied.enc.symm

/-! ## A picture that FATAL_PARITY holds -/

/-- A configuration within R335: H.264 at level 3.0, 128 by 64 at 30/1, one row in each slice, and a ring of 64 KiB in the Huller's buffers. -/
def smallEncCfg : Nat := packBits [(8, 0), (8, 30), (16, 128), (16, 64), (16, 30), (16, 1), (32, 64000), (32, 64000), (6, 30), (6, 0), (6, 51), (5, 1), (1, 0),
  (8, 2), (32, 0), (48, 0xB102000000), (32, 0x10000), (32, 1000)]

/-- A picture of `smallEncCfg` whose four rows are coded and written. -/
def writtenPicture : EncCur := { idr := true, params := true, intra := (0, 8), row := 4, qps := [30, 30, 30, 30], written := 4, bytes := 512, slices := 4 }

/-- The encoder, in domain 82, has written the last row of session 0's picture. -/
def pictureWritten : Dev where
  pow := { doms := [(82, { st := 2 })] }
  enc := { sess := [(0, { opened := true, cfg := smallEncCfg, qpCarry := 30, needIdr := false, woff := 512 })], nextOrder := 2, cur := some (0, writtenPicture) }

/-- Every row of the picture is written, so that nothing but FATAL_PARITY keeps ENC_PICTURE_DONE from ending it. -/
theorem pictureWritten_rows : writtenPicture.written = ecRows (pictureWritten.enc.sess_ 0).cfg := by decide +kernel

/-- Refutes O43: FATAL_PARITY strikes after the last slice of a picture is written. Domain 82 stays ON and the device stops all work, so
ENC_PICTURE_DONE leaves the picture in the encoder, where the statement has the encoder empty. -/
theorem not_encoderSessionsAndPictures : ¬ Obligations.EncoderSessionsAndPictures := by
  unfold Obligations.EncoderSessionsAndPictures
  intro h
  let s : State := { dev := pictureWritten.fatalParity }
  have henc : s.dev.enc = pictureWritten.enc := pictureWritten.fatalParity_enc
  have hcur : s.dev.enc.cur = some (0, writtenPicture) := by rw [henc]; rfl
  obtain ⟨-, -, -, hcoding⟩ := h s 0 ⟨0, 0, [], []⟩ {} (by rw [Dev.fatalParity_on]; decide)
    (by rw [Dev.fatalParity_nextCmd]; decide)
  obtain ⟨-, -, -, hends⟩ := hcoding 0 writtenPicture _ _ hcur rfl rfl
  obtain ⟨-, -, hdone, -⟩ := hends (by rw [henc]; rfl) (by rw [henc]; rfl) (by rw [henc]; rfl)
  have hbecomes := hdone (by rw [henc]; exact pictureWritten_rows)
  rw [exec_encPictureDone_of_dead pictureWritten.fatalParity_dead] at hbecomes
  have hempty : none = s.dev.enc.cur := congrArg Enc.cur hbecomes.enc_eq
  rw [hcur] at hempty
  cases hempty

end Sys2Proof.Machine
end

