-- ==== Sys2Proof/Proofs/LateCommands.lean ====
section
/-! PROOFS. Commands whose deadline has passed (R372, R375, R432): O11. -/

namespace Sys2Proof.Machine

theorem exec_nop (q : Nat) (s : State) : exec (.nop q) s = execNop q s := rfl

section
variable {d : Dev} {q : Nat} {p : Packet} (hdl : p.dlEn = true) (hpast : d.cad.isPast p.dlBeat p.dlPhase d.plat.now = true)
include hdl hpast

/-- A command whose deadline has passed is refused, by its deadline or by an earlier check. -/
theorem Dev.refusal_late (len : Nat) : d.refusal q p len {} ≠ none := by
  simp only [Dev.refusal, hdl, hpast, Bool.and_self, if_true]
  (repeat' split) <;> exact Option.some_ne_none _

end

/-- DETAIL of a deadline refusal: CAUSE 8, EFFECT 0 and LATE 0 (R375). -/
theorem missDetail_notStarted (ns : Nat) : missDetail 8 false ns = 8 := by
  simp [missDetail, packBits, b2n]

section
variable {d : Dev} {q : Nat} {p : Packet} (hdl : p.dlEn = true) (hpast : d.cad.isPast p.dlBeat p.dlPhase d.plat.now = true)
include hdl hpast

/-- NOP, which no semaphore guards and no life-cycle state but RETIRED denies, is refused by its deadline alone. -/
theorem Dev.refusal_lateNop (hop : p.opcode = 0) (hpre : d.preCheck p = none) (hlen : p.plen = 0) (hlc : d.plat.lcWord ≠ 3) :
    d.refusal q p (paramLen []) {} = some (stDeadline, 8, []) := by
  have hlife : lcDenied d.plat.lcWord 0 = false := by simp [lcDenied, hlc]
  have hplen : p.plen = paramLen [] := hlen
  simp [Dev.refusal, hpre, hplen, hop, hlife, guardSem, hdl, hpast, missDetail_notStarted]

end

/-- Settles O11: the deadline is the last of the common checks, and a refused command has no effect but its reply and the miss record. -/
theorem lateCommandsNeverStart : Obligations.LateCommandsNeverStart := by
  refine ⟨fun s i f p hfronts hdl hpast => ?_, fun s q f p hfronts hdl hpast hpre hlen hlc hlatch halone hanswer => ?_⟩
  · obtain ⟨ck, eff, hexec⟩ := exec_of_packet hfronts
    rw [hexec]
    exact startCmdLen_refused hfronts.head (Dev.refusal_of_refused (Dev.refusal_late hdl hpast _))
  · cases hfronts.form
    obtain ⟨-, -, -, -, hop⟩ := Dev.head_spec hfronts.head
    rw [exec_nop, execNop]
    exact startCmdLen_refusal_answers (ext := []) hfronts.head (Dev.refusal_lateNop hdl hpast hop hpre hlen hlc) hlatch halone hanswer
      (Nat.zero_le _)

end Sys2Proof.Machine
end

