-- ==== Sys2Proof/Proofs/CadenceCommands.lean ====
section
/-! PROOFS. The commands of the cadence unit's event slots and scheduler timers (R360 to R362, R439, R445): O48 and O49. -/

namespace Sys2Proof.Machine

/-! ## A begun command and the cadence unit -/

section
variable (d : Dev) (q : Nat) (p : Packet)

/-- The start of a command leaves the cadence unit as it is. -/
@[simp] theorem Dev.begun_cad : (d.begin_ q p).1.cad = d.cad := by
  simp [Dev.begin_]

@[simp] theorem Dev.begun_plat : (d.begin_ q p).1.plat = d.plat := (d.begin__replied q p).plat

end

/-- The cadence unit but for its record of deadline misses. -/
def Cad.quiet (c : Cad) : Cad := { c with missTotal := 0, missLog := [] }

/-- Cadence units alike but for the miss record may be put into devices that differ by replies. -/
theorem Dev.Replied.withCad {a b : Dev} {k l : Cad} (h : a.Replied b) (hcad : l.quiet = k.quiet) :
    ({ a with cad := k } : Dev).Replied { b with cad := l } :=
  ⟨show { b.quiet with cad := l.quiet } = { a.quiet with cad := k.quiet } by rw [h.quiet, hcad], h.setup, h.mem, h.ctr, h.bufs⟩

/-- A change of the cadence unit reaches a device and the begun one alike. -/
theorem Dev.Replied.begunCad (d : Dev) (q : Nat) (p : Packet) (g : Cad → Cad) :
    ({ d with cad := g d.cad } : Dev).Replied { (d.begin_ q p).1 with cad := g (d.begin_ q p).1.cad } :=
  (d.begin__replied q p).withCad (by rw [Dev.begun_cad])

/-! ## Commands that their checks refuse -/

/-- A command whose parameters or whose own check 7 refuse it has no effect but its reply. -/
theorem State.Fronts.refusedBy {s : State} {i : Instr} {f : PacketForm} {p : Packet} {ck : Dev → Checks} {eff : Dev → Cmd → Dev}
    (h : s.Fronts i f p) (hck : (ck s.dev).param ≠ none ∨ (ck s.dev).own ≠ none) :
    Res.Becomes s s.dev (startCmd s f.queue f.opcode f.layout f.fields ck eff) := by
  refine startCmdLen_refused h.head fun hpasses => ?_
  obtain ⟨hparam, hown, -⟩ := Dev.refusal_none hpasses
  exact hck.elim (fun hp => hp hparam) fun ho => ho hown

/-! ## Event slots (R360, R361) -/

section
variable {c : Cad} {d : Dev} {n : Nat} {x : Slot}

/-- The lowest free slot. -/
theorem Cad.lowSlot_eq (hn : n < 256) (hfree : Tab.get none c.slots n = none) (hlow : ∀ m, m < n → Tab.get none c.slots m ≠ none) :
    c.lowSlot = some n :=
  firstIdx_lowest hn (by simp [hfree]) fun m hm => by simpa [Option.isSome_iff_ne_none] using hlow m hm

theorem Cad.lowSlot_none (hfull : ∀ n, n < 256 → Tab.get none c.slots n ≠ none) : c.lowSlot = none := by
  simpa [Cad.lowSlot, firstIdx, List.find?_range_eq_none, ← Option.ne_none_iff_isSome] using hfull

/-- No instant of a slot whose beat is to come has passed. -/
theorem Dev.pastFirings_later (hbeat : d.cad.beat < x.nextBeat) : d.pastFirings x = 0 := if_pos hbeat

/-- A slot whose beat is to come does not fire as it is written. -/
theorem Dev.slotWritten_later (hx : Tab.get none d.cad.slots n = some x) (hbeat : d.cad.beat < x.nextBeat) : d.slotWritten n = d := by
  simp [Dev.slotWritten, hx, Dev.pastFirings_later hbeat]

theorem Dev.putSlot_written (hbeat : d.cad.beat < x.nextBeat) : (d.putSlot n x).slotWritten n = d.putSlot n x :=
  Dev.slotWritten_later (Tab.get_set_same ..) hbeat

end

section
variable {h : HostIf} {port r : Nat}

/-- A record on a pin of the port, or on none, is not refused. -/
theorem HostIf.slotRefusal_own (hpin : slKind r = 2 → h.own (slTarget r) = port + 1) : h.slotRefusal port r = none := by
  unfold HostIf.slotRefusal
  split
  · next hkind => exact HostIf.ownRefusal_own (hpin hkind)
  · rfl

/-- A record on a pin that the port does not own is refused. -/
theorem HostIf.slotRefusal_other (hkind : slKind r = 2) (hpin : h.own (slTarget r) ≠ port + 1) : h.slotRefusal port r ≠ none := by
  rw [HostIf.slotRefusal, if_pos hkind]
  exact HostIf.ownRefusal_other hpin

end

section
variable (s : State) (q : Nat)

theorem exec_eventSet (r : Nat) : exec (.eventSet q r) s = execEventSet q r s := rfl
theorem exec_eventClear (n : Nat) : exec (.eventClear q n) s = execEventClear q n s := rfl
theorem exec_timerClaim (n per iv r : Nat) : exec (.timerClaim q n per iv r) s = execTimerClaim q n per iv r s := rfl
theorem exec_timerRelease (n : Nat) : exec (.timerRelease q n) s = execTimerRelease q n s := rfl

end

/-- Settles O48: each command by its checks on the slot it names, and by the slot table that it leaves. -/
theorem slotCommandsWriteAndClear : Obligations.SlotCommandsWriteAndClear := by
  rintro s d c q f p rfl rfl
  refine ⟨fun r n h hok hpin hn hfree hlow hbeat => ?set, fun r h hbad => ?setRefused, fun n x h hx hkind howner => ?clear,
    fun n x h hx hbad => ?clearRefused, fun n h hfree => ?clearFree⟩
  case set =>
    cases h.form
    have hslot : s.dev.cad.lowSlot = some n := Cad.lowSlot_eq hn hfree hlow
    rw [exec_eventSet, execEventSet]
    refine h.becomes rfl ⟨by simp [hok], by simp [HostIf.slotRefusal_own hpin, hslot], rfl⟩ ?_
    dsimp only
    rw [Dev.begun_cad, hslot, Option.getD_some, Dev.putSlot_written (by simpa using hbeat)]
    exact (Dev.Replied.begunCad s.dev q p fun c => { c with slots := Tab.set none c.slots n _ }).trans (Dev.finish_replied ..)
  case setRefused =>
    cases h.form
    rw [exec_eventSet, execEventSet]
    refine h.refusedBy ?_
    rcases hbad with hbad | ⟨hkind, hpin⟩ | hfull
    · exact .inl (by simp [hbad])
    · right
      obtain ⟨y, hy⟩ := Option.ne_none_iff_exists'.1 (HostIf.slotRefusal_other hkind hpin)
      simp [hy]
    · right
      dsimp only
      split
      · simp
      · simp [Cad.lowSlot_none hfull]
  case clear =>
    cases h.form
    rw [exec_eventClear, execEventClear]
    exact h.doneBy rfl ⟨by simp [hx, hkind], by simp [hx, howner], by simp [hx]⟩
      (Dev.Replied.begunCad s.dev q p fun c => { c with slots := Tab.set none c.slots n none })
  case clearRefused =>
    cases h.form
    rw [exec_eventClear, execEventClear]
    exact h.refusedBy (hbad.imp (fun hkind => by simp [hx, hkind]) fun howner => by simp [hx, howner])
  case clearFree =>
    cases h.form
    rw [exec_eventClear, execEventClear]
    exact h.doneBy rfl ⟨by simp [hfree], by simp [hfree], by simp [hfree]⟩
      (Dev.Replied.begunCad s.dev q p fun c => { c with slots := Tab.set none c.slots n none })

/-! ## Scheduler timers (R362) -/

/-- A timer and its owner change alike in a device and in the begun one. -/
theorem Dev.Replied.begunTimer (d : Dev) (q : Nat) (p : Packet) (n owner : Nat) (x : Timer) :
    ({ d with cad := d.cad.putTimer n x, host := d.host.setOwner (0x10 + n) owner } : Dev).Replied
      { (d.begin_ q p).1 with
        cad := (d.begin_ q p).1.cad.putTimer n x
        host := (d.begin_ q p).1.host.setOwner (0x10 + n) owner } :=
  (Dev.Replied.begunCad d q p (·.putTimer n x)).setOwner (0x10 + n) owner

/-- Settles O49: a free timer is claimed with its record, the port's own is released, and every other claim or release is refused. -/
theorem timersAreClaimedAndReleased : Obligations.TimersAreClaimedAndReleased := by
  rintro s d c q n f p rfl rfl
  refine ⟨fun per iv r h hfree hiv hok hpin => ?claim, fun per iv r h hbad => ?claimRefused, fun h hown => ?release,
    fun h hother => ?releaseRefused⟩
  case claim =>
    cases h.form
    rw [exec_timerClaim, execTimerClaim]
    refine h.doneBy rfl ⟨firstBadField_none (by simp [hiv, hok]), by simp [hfree, HostIf.slotRefusal_own hpin], rfl⟩ ?_
    have hnow : (s.dev.begin_ q p).1.plat.now = s.dev.plat.now := by rw [Dev.begun_plat]
    rw [hnow]
    exact Dev.Replied.begunTimer s.dev q p n (q / 8 + 1)
      { on := true, port := q / 8, periodic := per == 1, interval := iv, next := s.dev.plat.now + 1000 * iv, slot := r }
  case claimRefused =>
    cases h.form
    rw [exec_timerClaim, execTimerClaim]
    refine h.refusedBy ?_
    rcases hbad with hclaimed | hiv | hok
    · exact .inr (by simp [hclaimed])
    · exact .inl (firstBadField_some ⟨_, List.mem_cons_self, by simp [hiv]⟩)
    · exact .inl (firstBadField_some ⟨_, List.mem_cons_of_mem _ List.mem_cons_self, hok⟩)
  case release =>
    cases h.form
    rw [exec_timerRelease, execTimerRelease]
    exact h.doneBy rfl ⟨rfl, HostIf.ownRefusal_own hown, rfl⟩ (Dev.Replied.begunTimer s.dev q p n 0 {})
  case releaseRefused =>
    cases h.form
    rw [exec_timerRelease, execTimerRelease]
    exact h.refusedBy (.inr (HostIf.ownRefusal_other hother))

end Sys2Proof.Machine
end

