-- ==== Sys2Proof/Proofs/SlotFirings.lean ====
section
/-! PROOFS. Event slots and scheduler timers as they fire (R360 to R362, R364, R543): O50. -/

namespace Sys2Proof.Machine

theorem exec_eventSlotFire (n : Nat) (s : State) : exec (.eventSlotFire n) s = execEventSlotFire n s := rfl
theorem exec_schedulerTimerFire (n : Nat) (s : State) : exec (.schedulerTimerFire n) s = execSchedulerTimerFire n s := rfl

/-- An event of work whose condition does not hold changes nothing. -/
theorem workEvent_of_cannot {s : State} {can : Bool} (d : Dev) (hcan : can = false) : workEvent s can d = .next s := by
  simp [workEvent, event, hcan]

/-! ## Pins (R543) -/

@[simp] theorem HostIf.pin_updPin (h : HostIf) (n m : Nat) (f : Gpio → Gpio) :
    (h.updPin n f).pin m = if m = n then f (h.pin n) else h.pin m := Tab.get_upd _ _ _ _ _

/-- What a GPIO action of record `r` makes of its pin. -/
def pinAction (r now : Nat) (g : Gpio) : Gpio :=
  if slAction r = 0 then { g with value := false, pulse := none }
  else if slAction r = 1 then { g with value := true, pulse := none }
  else if slAction r = 2 then { g with value := !g.value, pulse := none }
  else { g with value := true, pulse := some (now + slWidth r) }

/-- A GPIO action reaches a pin in output mode. -/
theorem HostIf.slotPin_output {h : HostIf} {r : Nat} (now : Nat) (hmode : (h.pin (slTarget r)).mode = 1) :
    h.slotPin r now = h.updPin (slTarget r) (pinAction r now) := by
  rw [HostIf.slotPin, if_neg (by simp [hmode])]
  rfl

section
variable {r now : Nat} (g : Gpio)

@[simp] theorem pinAction_mode : (pinAction r now g).mode = g.mode := by
  unfold pinAction
  (repeat' split) <;> rfl

theorem pinAction_low (h : slAction r = 0) : (pinAction r now g).value = false := by simp [pinAction, h]
theorem pinAction_high (h : slAction r = 1) : (pinAction r now g).value = true := by simp [pinAction, h]
theorem pinAction_toggle (h : slAction r = 2) : (pinAction r now g).value = !g.value := by simp [pinAction, h]
theorem pinAction_pulse (h : slAction r = 3) : pinAction r now g = { g with value := true, pulse := some (now + slWidth r) } := by
  simp [pinAction, h]

end

/-! ## Frames released (R364, R367) -/

/-- A task that may have become able to start stays the task of its frame; of the device its stream alone changes. -/
theorem Dev.markReady_waiting {d : Dev} {n : Nat} {t : Task} (ht : (d.cad.stream n).waiting = some t) :
    ∃ cad u, d.markReady n = { d with cad := cad } ∧ (cad.stream n).waiting = some u ∧ u.frame = t.frame ∧ u.releasedAt = t.releasedAt ∧
      cad.slots = d.cad.slots ∧ ∀ m, m ≠ n → cad.stream m = d.cad.stream m := by
  simp only [Dev.markReady, ht]
  split
  · exact ⟨d.cad, t, rfl, ht, rfl, rfl, rfl, fun _ _ => rfl⟩
  · exact ⟨_, { t with readyAt := some d.plat.now, queued := _ }, rfl, by rw [Cad.stream_updStream, if_pos rfl], rfl, rfl, rfl,
      fun m hm => by rw [Cad.stream_updStream, if_neg hm]⟩

/-- From device `d` to `e` frame `k` of stream `n` is released, and its task waits; slots, other streams and memory are as they were. -/
structure Dev.Releases (d : Dev) (n k : Nat) (e : Dev) : Prop where
  task : ∃ u, (e.cad.stream n).waiting = some u ∧ u.frame = k ∧ u.releasedAt = d.plat.now
  slots : e.cad.slots = d.cad.slots
  others : ∀ m, m ≠ n → e.cad.stream m = d.cad.stream m
  mem : e.mem = d.mem

/-- Frame `k` waits in its stream, before its input is looked for. -/
def Dev.queueFrame (d : Dev) (n k : Nat) : Dev :=
  { d with cad := d.cad.updStream n (fun s => { s with waiting := some { frame := k, releasedAt := d.plat.now }, nextFrame := k + 1 }) }

section
variable {d : Dev} {n : Nat} (k : Nat) (hopen : (d.cad.stream n).opened = true) (hclosing : (d.cad.stream n).closing = none)
  (hwaiting : (d.cad.stream n).waiting = none)
include hopen hclosing hwaiting

theorem Dev.releaseTask_eq : d.releaseTask n k = ((d.queueFrame n k).trace 8 4 n (k % 2 ^ 32) 0 0).markReady n := by
  simp [Dev.releaseTask, Dev.queueFrame, hopen, hclosing, hwaiting]

/-- An open stream without a waiting task takes the frame. -/
theorem Dev.releaseTask_open : d.Releases n k (d.releaseTask n k) := by
  rw [Dev.releaseTask_eq k hopen hclosing hwaiting]
  obtain ⟨o, ctr, htrace⟩ := (d.queueFrame n k).trace_obs 8 4 n (k % 2 ^ 32) 0 0
  have hstream : ∀ m, (d.queueFrame n k).cad.stream m =
      if m = n then { d.cad.stream n with waiting := some { frame := k, releasedAt := d.plat.now }, nextFrame := k + 1 } else d.cad.stream m :=
    fun m => Cad.stream_updStream ..
  rw [htrace]
  obtain ⟨cad, u, heq, hu, hframe, hat, hslots, hothers⟩ := Dev.markReady_waiting (d := { d.queueFrame n k with obs := o, ctr := ctr }) (n := n)
    (congrArg Stream.waiting ((hstream n).trans (if_pos rfl)))
  rw [heq]
  exact ⟨⟨u, hu, hframe, hat⟩, hslots, fun m hm => (hothers m hm).trans ((hstream m).trans (if_neg hm)), rfl⟩

end

/-! ## Slots (R360, R361) -/

section
variable {d : Dev} {n r owner frame beat phase : Nat} {x : Slot}

/-- A slot after one firing: free, or due PERIOD beats later. -/
def Slot.after (x : Slot) : Option Slot :=
  if slPeriod x.record = 0 then none else some { x with nextBeat := x.nextBeat + slPeriod x.record }

/-- A slot without jumped instants fires once and advances. -/
theorem Dev.fireSlot_eq (hjump : d.cad.jumped x = 0) :
    d.fireSlot n x = ({ d with cad := { d.cad with slots := Tab.set none d.cad.slots n x.after } } : Dev).fire x.record x.owner
      (slFrame x.record x.nextBeat) x.nextBeat (slPhase x.record) := by
  simp only [Dev.fireSlot, hjump, if_true, Dev.advanceSlot, Slot.after, Nat.one_mul]

theorem Dev.fire_release (hk : slKind r = 0) : d.fire r owner frame beat phase = d.releaseTask (slTarget r) frame := by
  simp only [Dev.fire, hk]

theorem Dev.fire_cadence (hk : slKind r = 1) (hout : d.cad.outMode ≠ 0) : d.fire r owner frame beat phase = d.outPulse := by
  simp only [Dev.fire, hk, if_neg hout]

theorem Dev.fire_pin (hk : slKind r = 2) : d.fire r owner frame beat phase = { d with host := d.host.slotPin r d.plat.now } := by
  simp only [Dev.fire, hk]

theorem Dev.fire_reply (hk : slKind r = 3) : d.Replied (d.fire r owner frame beat phase) := by
  simp only [Dev.fire, hk]
  exact Dev.slotReply_replied ..

end

/-- EVENT_SLOT_FIRE of a slot in use. -/
theorem execEventSlotFire_used {s : State} {n : Nat} {x : Slot} (hx : Tab.get none s.dev.cad.slots n = some x) :
    execEventSlotFire n s = workEvent s (s.dev.slotDue n x) (s.dev.fireSlot n x) := by
  simp only [execEventSlotFire, hx]

/-- Settles O50: what a slot or a timer does follows from the kind of its record, on the device in which it has advanced. -/
theorem slotsAndTimersFire : Obligations.SlotsAndTimersFire := by
  rintro s d c now rfl rfl rfl hdead
  refine ⟨fun n hfree => ?free, fun n x y hx => ⟨fun hdue => ?early, ?fires⟩, fun n x y hx hy => ⟨fun hoff => ?idle, fun hon hnext => ?timer⟩⟩
  case free => rw [exec_eventSlotFire, execEventSlotFire, hfree]
  case early => rw [exec_eventSlotFire, execEventSlotFire_used hx, workEvent_of_cannot _ hdue]
  case fires =>
    intro hdue hjump hy
    obtain rfl : y = x.after := hy
    have hexec := (exec_eventSlotFire n s).trans
      ((execEventSlotFire_used hx).trans (workEvent_of_can _ hdead hdue))
    rw [Dev.fireSlot_eq hjump] at hexec
    refine ⟨fun hkind hout => ?_, fun hkind hmode => ?_, fun hkind => ?_, fun hkind hopen hclosing hwaiting => ?_⟩
    · rw [hexec]
      exact congrArg (fun e => (.next { s with dev := e } : Res)) (Dev.fire_cadence hkind hout)
    · rw [hexec, Dev.fire_pin hkind]
      refine ⟨_, rfl, ?_⟩
      rw [HostIf.slotPin_output _ hmode]
      exact ⟨rfl, fun m hm => by simp [hm], by simp [hmode], fun h => by simp [pinAction_low _ h], fun h => by simp [pinAction_high _ h],
        fun h => by simp [pinAction_toggle _ h], fun h => by simp [pinAction_pulse _ h]⟩
    · rw [hexec]
      exact ⟨_, rfl, rfl, Dev.fire_reply hkind⟩
    · rw [Dev.fire_release hkind] at hexec
      generalize hd1 : ({ s.dev with cad := { s.dev.cad with slots := Tab.set none s.dev.cad.slots n x.after } } : Dev) = d1 at hexec
      have hstream : ∀ m, d1.cad.stream m = s.dev.cad.stream m := by subst hd1; exact fun _ => rfl
      obtain ⟨⟨u, hu, hframe, hat⟩, hslots, hothers, hmem⟩ := Dev.releaseTask_open (d := d1) (slFrame x.record x.nextBeat)
        (by rw [hstream]; exact hopen) (by rw [hstream]; exact hclosing) (by rw [hstream]; exact hwaiting)
      subst hd1
      exact ⟨_, u, hexec, rfl, hu, hframe, hat, hslots, hmem, hothers⟩
  case idle =>
    subst hx
    rw [exec_schedulerTimerFire, execSchedulerTimerFire]
    refine workEvent_of_cannot _ ?_
    rcases hoff with hoff | hoff
    · simp [Cad.timer, hoff]
    · simp [Cad.timer, Nat.not_le.2 hoff]
  case timer =>
    subst hx
    have hexec := (exec_schedulerTimerFire n s).trans (workEvent_of_can _ hdead (by simp [Cad.timer, hon, hnext]))
    subst hy
    refine ⟨fun hkind hout => ?_, fun hkind => ?_, fun hkind => ?_⟩
    · rw [hexec]
      exact congrArg (fun e => (.next { s with dev := e } : Res)) (Dev.fire_cadence hkind hout)
    · rw [hexec]
      exact congrArg (fun e => (.next { s with dev := e } : Res)) (Dev.fire_pin hkind)
    · rw [hexec]
      exact ⟨_, rfl, rfl, Dev.fire_reply hkind⟩

end Sys2Proof.Machine
end

