-- ==== Sys2Proof/Proofs/Clocking.lean ====
section
/-! PROOFS. What planning and the clocks that are set afresh leave of a device (R386, R391, R394, R396, R404). -/

namespace Sys2Proof.Machine

/-- A change of every value by its key that keeps the default changes what a key reads as. -/
theorem Tab.get_map_key {α : Type} (d : α) (m : Tab α) (h : Nat → α → α) (hd : ∀ k, h k d = d) (k : Nat) :
    Tab.get d (m.map (fun e => (e.1, h e.1 e.2))) k = h k (Tab.get d m k) := by
  induction m with
  | nil => exact (hd k).symm
  | cons e m ih =>
    simp only [List.map_cons, Tab.get]
    split
    · next he => rw [he]
    · exact ih

/-! ## Rails -/

/-- From power unit `v` to `w` rails have been commanded. -/
structure Pow.Commanded (v w : Pow) : Prop where
  rails : ∀ g, ∃ t u c, w.rail g = { v.rail g with target := t, waitV := u, cmdAt := c }
  rest : { w with rails := [] } = { v with rails := [] }

namespace Pow.Commanded

theorem doms {v w : Pow} (h : v.Commanded w) : w.doms = v.doms := (Pow.mk.inj h.rest).1

theorem refl (w : Pow) : w.Commanded w := ⟨fun g => ⟨(w.rail g).target, (w.rail g).waitV, (w.rail g).cmdAt, rfl⟩, rfl⟩

theorem trans {u v w : Pow} (h : u.Commanded v) (h' : v.Commanded w) : u.Commanded w where
  rails g := by
    obtain ⟨_, _, _, hv⟩ := h.rails g
    obtain ⟨t, b, c, hw⟩ := h'.rails g
    exact ⟨t, b, c, by rw [hw, hv]⟩
  rest := h'.rest.trans h.rest

theorem updRail (w : Pow) (g t : Nat) (u : Bool) (c : Nat) :
    w.Commanded (w.updRail g (fun r => { r with target := t, waitV := u, cmdAt := c })) where
  rails k := by
    rw [Pow.rail_updRail]
    split
    · next hk =>
      subst hk
      exact ⟨_, _, _, rfl⟩
    · exact (refl w).rails k
  rest := rfl

end Pow.Commanded

theorem Dev.commandRail_commanded (d : Dev) (g : Nat) : ∃ w, d.commandRail g = { d with pow := w } ∧ d.pow.Commanded w := by
  unfold Dev.commandRail
  dsimp only
  split
  · exact ⟨d.pow, rfl, .refl _⟩
  · exact ⟨_, rfl, .updRail ..⟩

/-- The five rails in turn. -/
theorem Dev.commandRails_commanded (d : Dev) (gs : List Nat) :
    ∃ w, gs.foldl (fun d g => d.commandRail g) d = { d with pow := w } ∧ d.pow.Commanded w := by
  refine foldl_keeps (fun e : Dev => ∃ w, e = { d with pow := w } ∧ d.pow.Commanded w) _ ?_ gs d ⟨d.pow, rfl, .refl _⟩
  rintro _ g ⟨w, rfl, hw⟩
  obtain ⟨v, hv, hwv⟩ := Dev.commandRail_commanded { d with pow := w } g
  exact ⟨v, hv, hw.trans hwv⟩

/-! ## Clocks and the mark of slow tasks -/

/-- A stream whose running task is marked where it runs below F_LIVE on the domains `doms` (R377). -/
def Stream.slowMark (doms : Tab Dom) (x : Stream) : Stream :=
  match x.running with
  | some t =>
    if t.startedAt.isSome && x.clusters.any (fun k =>
      (Tab.get {} doms (14 * (k / 12) + k % 12)).st == 2 && (Tab.get {} doms (14 * (k / 12) + k % 12)).freq < strF x.record 184 11)
    then { x with running := some { t with slow := true } } else x
  | none => x

theorem Stream.slowMark_cases (doms : Tab Dom) (x : Stream) :
    x.slowMark doms = x ∨ ∃ t, x.running = some t ∧ x.slowMark doms = { x with running := some { t with slow := true } } := by
  unfold Stream.slowMark
  split
  · next t ht =>
    split
    · exact .inr ⟨t, ht, rfl⟩
    · exact .inl rfl
  · exact .inl rfl

theorem Cad.markSlow_eq (c : Cad) (doms : Tab Dom) :
    c.markSlow doms = { c with streams := c.streams.map (fun e => (e.1, e.2.slowMark doms)) } := by
  unfold Cad.markSlow
  congr 1
  refine List.map_congr_left fun e _ => ?_
  cases hrun : e.2.running with
  | none => simp only [Stream.slowMark, hrun]
  | some t =>
    simp only [Stream.slowMark, hrun]
    split <;> rfl

theorem Cad.stream_markSlow (c : Cad) (doms : Tab Dom) (n : Nat) : (c.markSlow doms).stream n = (c.stream n).slowMark doms := by
  rw [Cad.markSlow_eq]
  exact Tab.get_map _ _ _ rfl _

/-- Domain `id`, which reads `x`, with its clock set afresh (R404). -/
def Dev.clocked (d : Dev) (id : Nat) (x : Dom) : Dom := if 2 ≤ x.st && x.st ≤ 4 then { x with freq := d.clockOf id } else x

theorem Dev.clocked_freq (d : Dev) (id : Nat) (x : Dom) : ∃ q, d.clocked id x = { x with freq := q } := by
  unfold Dev.clocked
  split
  · exact ⟨_, rfl⟩
  · exact ⟨x.freq, rfl⟩

/-- Clocks set afresh: rails, the clocks of the domains, and the mark of tasks that run slow. -/
theorem Dev.reclock_eq (d : Dev) : ∃ (w : Pow) (doms : Tab Dom), d.pow.Commanded w ∧
    doms = d.pow.doms.map (fun e => (e.1, ({ d with pow := w } : Dev).clocked e.1 e.2)) ∧
    d.reclock = { d with pow := { w with doms := doms }, cad := d.cad.markSlow doms } := by
  obtain ⟨w, hw, hcommanded⟩ := d.commandRails_commanded [0, 1, 2, 3, 4]
  refine ⟨w, _, hcommanded, rfl, ?_⟩
  simp only [Dev.reclock, hw, hcommanded.doms]
  rfl

/-- Of domains only clocks, of rails only the commanded voltage, and of streams only the mark of a slow task change. -/
theorem Dev.reclock_reclocked (d : Dev) : d.Reclocked d.reclock := by
  obtain ⟨w, doms, hw, hdoms, heq⟩ := d.reclock_eq
  rw [heq]
  refine ⟨fun id => ?_, hw.rails, congrArg (fun v : Pow => { v with doms := [] }) hw.rest, fun n => ?_, ?_, rfl⟩
  · obtain ⟨q, hq⟩ := ({ d with pow := w } : Dev).clocked_freq id (d.pow.dom id)
    refine ⟨q, ?_⟩
    rw [hdoms]
    exact (Tab.get_map_key _ _ _ (fun _ => rfl) id).trans hq
  · dsimp only
    rw [Cad.stream_markSlow]
    rcases (d.cad.stream n).slowMark_cases doms with h | ⟨t, -, h⟩ <;> rw [h]
  · rw [Cad.markSlow_eq]

/-- A stream after the clocks are set afresh: its running task alone may be marked slow. -/
theorem Dev.reclock_stream (d : Dev) (n : Nat) : ∃ doms, d.reclock.cad.stream n = (d.cad.stream n).slowMark doms := by
  obtain ⟨w, doms, -, -, heq⟩ := d.reclock_eq
  exact ⟨doms, by rw [heq]; exact Cad.stream_markSlow ..⟩

/-! ## Planning -/

/-- From device `a` to `b` planning has changed the clocks, the training point, what is halted and what its cores do; memory, the cadence
unit but for its streams, budgets, guard-bands and failed buses are as they were. -/
structure Dev.KeepsPlanned (a b : Dev) : Prop where
  mem : b.mem = a.mem
  cad : { b.cad with streams := [] } = { a.cad with streams := [] }
  budget : b.pow.budget = a.pow.budget
  budgetPend : b.pow.budgetPend = a.pow.budgetPend
  gb : ∀ id, (b.pow.dom id).gb = (a.pow.dom id).gb
  failed : ∀ g, (b.pow.rail g).failed = (a.pow.rail g).failed

namespace Dev.KeepsPlanned

theorem refl (d : Dev) : d.KeepsPlanned d := ⟨rfl, rfl, rfl, rfl, fun _ => rfl, fun _ => rfl⟩

theorem trans {a b c : Dev} (h : a.KeepsPlanned b) (h' : b.KeepsPlanned c) : a.KeepsPlanned c :=
  ⟨h'.mem.trans h.mem, h'.cad.trans h.cad, h'.budget.trans h.budget, h'.budgetPend.trans h.budgetPend, fun id => (h'.gb id).trans (h.gb id),
    fun g => (h'.failed g).trans (h.failed g)⟩

theorem foldl {γ : Type} {f : Dev → γ → Dev} (hf : ∀ (e : Dev) c, e.KeepsPlanned (f e c)) (l : List γ) (d : Dev) :
    d.KeepsPlanned (l.foldl f d) :=
  foldl_keeps d.KeepsPlanned f (fun e c he => he.trans (hf e c)) l d (refl d)

/-- A mark on a domain that leaves its guard-band. -/
theorem upd_gb {w : Pow} {id : Nat} {f : Dom → Dom} (hf : ∀ x, (f x).gb = x.gb) (k : Nat) : ((w.upd id f).dom k).gb = (w.dom k).gb := by
  rw [Pow.dom_upd]
  split
  · next hk => rw [hf, hk]
  · rfl

theorem halt (d : Dev) (k : Nat) : d.KeepsPlanned (d.halt k) := ⟨rfl, rfl, rfl, rfl, upd_gb fun _ => rfl, fun _ => rfl⟩

theorem unhalt (d : Dev) (k : Nat) : d.KeepsPlanned (d.unhalt k) := ⟨rfl, rfl, rfl, rfl, upd_gb fun _ => rfl, fun _ => rfl⟩

theorem setOp (d : Dev) (op : Nat) (floorRun : Bool) : d.KeepsPlanned (d.setOp op floorRun) :=
  ⟨rfl, rfl, rfl, rfl, fun _ => rfl, fun _ => rfl⟩

theorem planWith (d : Dev) (t fixed e : Q) : d.KeepsPlanned (d.planWith t fixed e) := by
  unfold Dev.planWith
  dsimp only
  split
  · exact setOp ..
  · exact (foldl halt _ _).trans (setOp ..)

theorem of_reclocked {a b : Dev} (h : a.Reclocked b) : a.KeepsPlanned b where
  mem := (congrArg Dev.mem h.rest :)
  cad := h.cad
  budget := (congrArg Pow.budget h.pow :)
  budgetPend := (congrArg Pow.budgetPend h.pow :)
  gb id := by
    obtain ⟨f, hf⟩ := h.doms id
    rw [hf]
  failed g := by
    obtain ⟨v, w, c, hg⟩ := h.rails g
    rw [hg]

theorem planBeat (d : Dev) (fixed : Nat) : d.KeepsPlanned (d.planBeat fixed) := by
  unfold Dev.planBeat
  dsimp only
  have hunhalt := foldl unhalt d.pow.haltedSet d
  have hstart : ∀ (e : Dev) fp lc en rs, e.KeepsPlanned
      { e with pow := { e.pow with fixedPrev := fp, lastCheck := lc, brakeReplan := false, energyE := en, reserve := rs } } :=
    fun e _ _ _ _ => ⟨rfl, rfl, rfl, rfl, fun _ => rfl, fun _ => rfl⟩
  exact hunhalt.trans ((hstart _ _ _ _ _).trans ((planWith _ _ _ _).trans (of_reclocked (Dev.reclock_reclocked _))))

end Dev.KeepsPlanned

end Sys2Proof.Machine
end

