-- ==== Sys2Proof/Proofs/CadenceBeats.lean ====
section
/-! PROOFS. The cadence unit: its configuration, its beats, and the reference events and sync records that lock it (R345 to R359, R414): O47. -/

namespace Sys2Proof.Machine

section
variable (s : State)

theorem exec_cadenceConfig (q cad lock sched : Nat) : exec (.cadenceConfig q cad lock sched) s = execCadenceConfig q cad lock sched s := rfl
theorem exec_beatStart : exec .beatStart s = execBeatStart s := rfl
theorem exec_cadenceInEdge (high : Nat) : exec (.cadenceInEdge high) s = execCadenceInEdge high s := rfl
theorem exec_refWindowEnd : exec .refWindowEnd s = execRefWindowEnd s := rfl
theorem exec_cadenceOutPulse : exec .cadenceOutPulse s = execCadenceOutPulse s := rfl
theorem exec_pulseWidthEnd (n : Nat) : exec (.pulseWidthEnd n) s = execPulseWidthEnd n s := rfl
theorem exec_ptpSyncRecord (port time : Nat) : exec (.ptpSyncRecord port time) s = execPtpSyncRecord port time s := rfl
theorem exec_ptpSyncTimeout : exec .ptpSyncTimeout s = execPtpSyncTimeout s := rfl

end

theorem event_of_can {s : State} {can : Bool} (d : Dev) (hcan : can = true) : event s can d = .next { s with dev := d } := by
  rw [event, if_pos hcan]
  rfl

theorem event_of_cannot {s : State} {can : Bool} (d : Dev) (hcan : can = false) : event s can d = .next s := by
  rw [event, hcan]
  rfl

/-! ## Beat starts (R345 to R349, R392, R408, R549) -/

/-- When the next beat starts: by the nominal period while free running or acquiring, by the reference or its prediction while locked to it, by
the sync estimate, or by P_EST in holdover. -/
def Cad.StartsAt (c : Cad) (b st : Nat) : Prop :=
  ((c.mode = 0 ∨ c.mode = 1) ∧ st = c.anchorStart + (b - c.anchorBeat) * cfgNum c.cfg / max (cfgDen c.cfg) 1) ∨
    (c.mode = 2 ∧ c.source = 1 ∧ (c.stepPend = true ∨ c.expects b = true) ∧ c.edgeTaken = some st) ∨
    (c.mode = 2 ∧ c.source = 1 ∧ c.stepPend = false ∧ c.expects b = false ∧ st = c.start + c.pEst / 65536) ∨
    (c.mode = 2 ∧ c.source = 2 ∧ c.stepPend = false ∧ st = max (c.ptpStart b) (c.start + 1)) ∨
    (c.mode = 3 ∧ st = c.anchorStart + (b - c.anchorBeat) * c.pEst / 65536)

theorem Cad.nextBeat_eq {c : Cad} {st : Nat} (h : c.StartsAt (c.beat + 1) st) : c.nextBeat = some (c.beat + 1, st) := by
  rcases h with ⟨hmode | hmode, rfl⟩ | ⟨hmode, hsource, hdue, hedge⟩ | ⟨hmode, hsource, hstep, hdue, rfl⟩ | ⟨hmode, hsource, hstep, rfl⟩ |
    ⟨hmode, rfl⟩
  · simp [Cad.nextBeat, hmode]
  · simp [Cad.nextBeat, hmode]
  · simp [Cad.nextBeat, hmode, hsource, hdue, hedge]
  · simp [Cad.nextBeat, hmode, hsource, hstep, hdue, Cad.predicted]
  · simp [Cad.nextBeat, hmode, hsource, hstep]
  · simp [Cad.nextBeat, hmode]

/-- The record of the unit's beats and its configuration, of which lock and holdover change nothing. -/
def Cad.record (c : Cad) : Nat × Nat × List (Nat × Nat × Nat) × Option (Nat × Nat × Nat) × Nat × Nat × Nat :=
  (c.beat, c.start, c.hist, c.pend, c.cfg, c.lock, c.sched)

/-- A configuration that takes effect. -/
theorem Cad.configure_record (c : Cad) (b t cfg lock sched : Nat) :
    (c.configure b t cfg lock sched).record = (c.beat, c.start, c.hist, none, cfg, lock, sched) := by
  unfold Cad.configure
  dsimp only
  split <;> rfl

/-- Beat `b` is the current one from `t` on. -/
def Cad.beatBegins (c : Cad) (b t : Nat) : Cad :=
  { c with beat := b, start := t, hist := (c.beat, c.start, c.pBeat) :: c.hist, usedPred := c.predicted,
           lockedBeats := if c.mode = 2 ∨ c.lockBeat ≠ 0 then min (2 ^ 32 - 1) (c.lockedBeats + 1) else c.lockedBeats,
           lockBeat := if c.mode = 2 && c.stepPend then b else c.lockBeat, stepPend := false, edgeTaken := none }

/-- A lock is lost where `lost`. -/
def Cad.beatLapses (c : Cad) (lost : Bool) (b t : Nat) : Cad :=
  if lost then { c with mode := 3, anchorBeat := b, anchorStart := t, agree := 0, missed := 0 } else c

/-- A waiting configuration takes effect, or the unit acquires. -/
def Cad.beatConfigures (c : Cad) (b t : Nat) : Cad :=
  match c.pend with
  | some (x, y, z) => c.configure b t x y z
  | none => if c.mode = 0 ∧ c.source ≠ 0 then { c with mode := 1, anchorBeat := b, anchorStart := t, agree := 0 } else c

/-- P_EST of the beat, and a holdover that has lasted too long. -/
def Cad.beatSettles (c : Cad) (b : Nat) : Cad :=
  if c.mode = 3 ∧ ({ c with pBeat := c.pEst } : Cad).holdLimit ≠ 0 ∧ c.anchorBeat + ({ c with pBeat := c.pEst } : Cad).holdLimit ≤ b
  then { c with pBeat := c.pEst, expired := true } else { c with pBeat := c.pEst }

theorem Cad.enterBeat_eq (c : Cad) (b t : Nat) : c.enterBeat b t =
    (((c.beatBegins b t).beatLapses (c.mode = 2 && c.source = 1 && cfgMiss c.cfg ≤ c.missed) b t).beatConfigures b t).beatSettles b := rfl

section
variable (c : Cad) (b t : Nat)

theorem Cad.beatLapses_record (lost : Bool) : (c.beatLapses lost b t).record = c.record := by
  unfold Cad.beatLapses
  split <;> rfl

theorem Cad.beatSettles_record : (c.beatSettles b).record = c.record := by
  unfold Cad.beatSettles
  split <;> rfl

theorem Cad.beatConfigures_record :
    (c.beatConfigures b t).record = (c.beat, c.start, c.hist, none, c.pend.getD (c.cfg, c.lock, c.sched)) := by
  unfold Cad.beatConfigures
  split
  · next x y z hpend => rw [Cad.configure_record, hpend, Option.getD_some]
  · next hpend =>
    split <;> simp [Cad.record, hpend]

/-- A beat that starts is the current one, the last one joins the record, and a waiting configuration takes effect. -/
theorem Cad.enterBeat_record : (c.enterBeat b t).record =
    (b, t, (c.beat, c.start, c.pBeat) :: c.hist, none, c.pend.getD (c.cfg, c.lock, c.sched)) := by
  rw [Cad.enterBeat_eq, Cad.beatSettles_record, Cad.beatConfigures_record]
  generalize hl : (decide (c.mode = 2) && decide (c.source = 1) && decide (cfgMiss c.cfg ≤ c.missed)) = lost
  have hrecord := (c.beatBegins b t).beatLapses_record b t lost
  simp only [Cad.record, Prod.mk.injEq] at hrecord
  obtain ⟨hbeat, hstart, hhist, hpend, hcfg, hlock, hsched⟩ := hrecord
  rw [hbeat, hstart, hhist, hpend, hcfg, hlock, hsched]
  rfl

end

/-- A started beat of the power controller: the budget, the guard-bands and the buses that answer (R392, R408, R549). -/
theorem Pow.beatStart_gb (w : Pow) (id : Nat) : (w.beatStart.dom id).gb = (w.dom id).gbNew :=
  congrArg Dom.gb (Tab.get_map ({} : Dom) w.doms (fun x => { x with gb := x.gbNew }) rfl id)

theorem Pow.beatStart_failed (w : Pow) (g : Nat) (hfailed : (w.rail g).failed = true) :
    (w.beatStart.rail g).failed = !(w.rail g).answers := by
  have hget : w.beatStart.rail g = if (w.rail g).failed && (w.rail g).answers then { w.rail g with failed := false, answers := false } else w.rail g :=
    Tab.get_map ({} : Rail) w.rails (fun x => if x.failed && x.answers then { x with failed := false, answers := false } else x) rfl g
  rw [hget]
  cases (w.rail g).answers <;> simp [hfailed]

/-- What the start of a beat plans on: the unit in its new beat and the power controller after the start. -/
theorem Dev.beatStarts_planned (d : Dev) (b t : Nat) : ∃ o ctr,
    ({ d with cad := d.cad.enterBeat b t, pow := d.pow.beatStart, obs := o, ctr := ctr } : Dev).KeepsPlanned (d.beatStarts b t) := by
  obtain ⟨o, ctr, htrace⟩ := ({ d with cad := d.cad.enterBeat b t, pow := d.pow.beatStart } : Dev).trace_obs 7 4 0 (b % 2 ^ 32)
    (d.cad.enterBeat b t).mode (d.cad.enterBeat b t).pEst
  refine ⟨o, ctr, ?_⟩
  rw [Dev.beatStarts, htrace]
  exact .planBeat ..

/-- The record of two units that differ by their streams. -/
theorem Cad.record_of_streams {a b : Cad} (h : { b with streams := [] } = { a with streams := [] }) : b.record = a.record :=
  (congrArg Cad.record h :)

/-- A beat start at its time. -/
theorem execBeatStart_at {s : State} {st : Nat} (h : s.dev.cad.StartsAt (s.dev.cad.beat + 1) st) :
    execBeatStart s = event s (st ≤ s.dev.plat.now) (s.dev.beatStarts (s.dev.cad.beat + 1) st) := by
  simp only [execBeatStart, Cad.nextBeat_eq h]

/-! ## Reference events (R350 to R354) -/

/-- An estimate sets P_EST and nothing else. -/
theorem Cad.estimate_pEst (c : Cad) : ∃ p, c.estimate = { c with pEst := p } := by
  unfold Cad.estimate
  split
  · exact ⟨_, rfl⟩
  · exact ⟨c.pEst, rfl⟩

/-- The device with the stamp of the last edge. -/
def Dev.stamped (d : Dev) (t : Nat) : Dev := { d with cad := { d.cad with refSeen := some t } }

/-- The interval that an event at `t` ends agrees. -/
def Cad.refAgrees (c : Cad) (t : Nat) : Bool :=
  match c.lastRef.map (fun r => t - r) with
  | some v => c.intervalOk v
  | none => false

/-- The unit after an event at `t`, whose interval joins the others where it agrees. -/
def Cad.refTaken (c : Cad) (t : Nat) : Cad := if c.refAgrees t then c.pushInterval ((c.lastRef.map (fun r => t - r)).getD 0) else c

theorem Cad.refTaken_intervals (c : Cad) (t : Nat) : ∃ l, c.refTaken t = { c with intervals := l } := by
  unfold Cad.refTaken
  split
  · exact ⟨_, rfl⟩
  · exact ⟨c.intervals, rfl⟩

section
variable {d : Dev} {t : Nat} (hmode : d.cad.mode = 2) (hstep : d.cad.stepPend = false)
include hmode hstep

/-- LOCKED, an event in the window of a beat that expects one is the start of that beat. -/
theorem Dev.refEvent_expected (hdue : d.cad.expects (d.cad.beat + 1) = true) (hfree : d.cad.edgeTaken = none)
    (hin : d.cad.inWindow d.cad.predicted t = true) : d.refEvent t = { d with cad := { (d.cad.refTaken t).estimate with
      lastRef := some t, edgeTaken := some t, missed := 0, refError := (t : Int) - d.cad.predicted } } := by
  simp only [Dev.refEvent, hmode, hstep, hdue, hfree, hin, Option.isNone_none, Bool.and_self, if_true, Bool.false_eq_true, if_false]
  rfl

/-- LOCKED, an event where none is expected is counted (R353). -/
theorem Dev.refEvent_unexpected (hdue : d.cad.expects (d.cad.beat + 1) = false) (hused : d.cad.usedWindow t = false) :
    d.refEvent t = d.count cobInst 0x51 1 := by
  simp only [Dev.refEvent, hmode, hstep, hdue, hused, if_true, Bool.false_eq_true, if_false, Bool.false_and, Bool.or_self]

end

theorem Cad.refTaken_mode (c : Cad) (t : Nat) : (c.refTaken t).estimate.mode = c.mode := by
  obtain ⟨l, hl⟩ := c.refTaken_intervals t
  obtain ⟨p, hp⟩ := Cad.estimate_pEst (c.refTaken t)
  rw [hp, hl]

/-- The fourth interval that agrees with the nominal one locks (R351). -/
theorem Dev.refEvent_locks {d : Dev} {t r : Nat} (hmode : d.cad.mode = 1) (hagree : d.cad.agree = 3) (hlast : d.cad.lastRef = some r)
    (hok : d.cad.intervalOk (t - r) = true) : ∃ k : Cad, d.refEvent t = { d with cad := k, ctr := bump d.ctr cobInst 0x52 1 } ∧
      k.mode = 2 ∧ k.stepPend = true ∧ k.lockedBeats = 0 ∧ k.lastRef = some t ∧ k.beat = d.cad.beat := by
  have hnot : d.cad.mode ≠ 2 := by simp [hmode]
  have hevent : d.refEvent t = { d with
      cad := ({ d.cad.pushInterval (t - r) with
        lastRef := some t
        agree := 4
        refError := ((t - r : Nat) : Int) - ((cfgPulse d.cad.cfg * d.cad.refPeriod.1 / max d.cad.refPeriod.2 1 : Nat) : Int) } : Cad).enterLock.estimate
      ctr := bump d.ctr cobInst 0x52 1 } := by
    simp only [Dev.refEvent, if_neg hnot, hagree, hlast, hok, Option.map_some, Option.getD_some, if_true, Nat.reduceAdd, Nat.lt_irrefl, if_false]
    rfl
  obtain ⟨p, hp⟩ := Cad.estimate_pEst _
  rw [hp] at hevent
  exact ⟨_, hevent, rfl, rfl, rfl, rfl, rfl⟩

/-- In ACQUIRING an interval within LOCK_WINDOW of PULSE_BEATS nominal periods agrees. -/
theorem Cad.intervalOk_nominal {c : Cad} {iv : Nat} (hmode : c.mode = 1)
    (hupper : iv * cfgDen c.cfg ≤ cfgPulse c.cfg * cfgNum c.cfg + c.window * cfgDen c.cfg)
    (hlower : cfgPulse c.cfg * cfgNum c.cfg ≤ iv * cfgDen c.cfg + c.window * cfgDen c.cfg) : c.intervalOk iv = true := by
  simp only [Cad.intervalOk, Cad.refPeriod, hmode, if_true, decide_eq_true_eq]
  omega

/-- A long edge under source CADENCE_IN is a reference event at its stamp. -/
theorem exec_cadenceInEdge_ref {s : State} {high : Nat} (hhigh : 100 ≤ high) (hsource : s.dev.cad.source = 1) : exec (.cadenceInEdge high) s =
    .next { s with dev := (s.dev.stamped (s.dev.plat.now - s.dev.cad.inDelay)).refEvent (s.dev.plat.now - s.dev.cad.inDelay) } :=
  (exec_cadenceInEdge s high).trans ((event_of_can _ (by simpa using hhigh)).trans
    (congrArg (fun e => (.next { s with dev := e } : Res)) (if_pos hsource)))

/-! ## CADENCE_OUT (R348, R357) -/

/-- An instant of the current beat has been reached. -/
theorem Cad.reached_current (c : Cad) (phase now : Nat) : c.reached c.beat phase now = decide (c.instant phase ≤ now) := by
  simp only [Cad.reached, Cad.instantOf, Nat.lt_irrefl, if_false, instantIn, if_true]
  rfl

/-! ## Sync records (R355, R356, R414) -/

/-- A sync record agrees with the estimate. -/
def Cad.syncAgrees (c : Cad) (off : Int) : Bool :=
  match c.ptpOff with
  | some p => decide (off - p ≤ (c.window : Int) ∧ p - off ≤ (c.window : Int))
  | none => false

/-- Sync records in a row that agree, and that were missed under lock. -/
def Cad.syncRun (c : Cad) (off : Int) : Nat := if c.syncAgrees off then c.agree + 1 else 0
def Cad.syncMissed (c : Cad) (off : Int) : Nat := if c.mode = 2 && !c.syncAgrees off then c.missed + 1 else 0

/-- The unit with the new estimate. -/
def Dev.syncedCad (d : Dev) (off : Int) : Cad :=
  let k := { d.cad with ptpOff := some (Config.ptpEstimate d.plat.freeCount off), lastSync := some d.plat.now, agree := d.cad.syncRun off,
                        refError := off - d.cad.ptpOff.getD off, missed := d.cad.syncMissed off }
  if d.cad.mode = 2 then { k with pEst := Config.ptpPeriod d.plat.freeCount } else k

/-- A sync record: the new estimate, then holdover or lock. -/
theorem Dev.syncRecord_eq (d : Dev) (time : Nat) : d.syncRecord time =
    (let off : Int := (time : Int) - d.plat.now
     let e : Dev := { d with cad := d.syncedCad off, plat := { d.plat with freeCount := d.plat.freeCount + 1 } }
     if d.cad.mode = 2 then (if cfgMiss d.cad.cfg ≤ d.cad.syncMissed off then { e with cad := e.cad.holdover } else e)
     else if 4 ≤ d.cad.syncRun off then e.ptpLock else e) := rfl

/-- What every sync record leaves: the new estimate and its time, in the current beat. -/
structure Dev.Synced (d : Dev) (off : Int) (k : Cad) : Prop where
  estimate : k.ptpOff = some (Config.ptpEstimate d.plat.freeCount off)
  last : k.lastSync = some d.plat.now
  beat : k.beat = d.cad.beat
  start : k.start = d.cad.start

theorem Dev.syncedCad_synced (d : Dev) (off : Int) : d.Synced off (d.syncedCad off) := by
  unfold Dev.syncedCad
  dsimp only
  split <;> exact ⟨rfl, rfl, rfl, rfl⟩

/-- A lock by sync records changes the unit's lock and the counters. -/
theorem Dev.ptpLock_cad (d : Dev) : d.ptpLock.cad = { d.cad.enterLock with lockBeat := max (d.cad.ptpNext d.plat.now) (d.cad.beat + 1) } := by
  unfold Dev.ptpLock
  dsimp only
  split
  · rfl
  · split <;> rfl

theorem Dev.syncRecord_synced (d : Dev) (time : Nat) : d.Synced ((time : Int) - d.plat.now) (d.syncRecord time).cad := by
  obtain ⟨hestimate, hlast, hbeat, hstart⟩ := d.syncedCad_synced ((time : Int) - d.plat.now)
  rw [Dev.syncRecord_eq]
  dsimp only
  split
  · split <;> exact ⟨hestimate, hlast, hbeat, hstart⟩
  · split
    · rw [Dev.ptpLock_cad]
      exact ⟨hestimate, hlast, hbeat, hstart⟩
    · exact ⟨hestimate, hlast, hbeat, hstart⟩

section
variable {d : Dev} {time : Nat}

/-- Acquiring, the fourth agreeing record locks, and the phase step follows. -/
theorem Dev.syncRecord_locks (hmode : d.cad.mode = 1) (hagree : d.cad.agree = 3) (hok : d.cad.syncAgrees ((time : Int) - d.plat.now) = true) :
    (d.syncRecord time).cad.mode = 2 ∧ (d.syncRecord time).cad.stepPend = true := by
  have hlock : (d.syncRecord time).cad = _ := congrArg Dev.cad ((d.syncRecord_eq time).trans ((if_neg (by simp [hmode])).trans
    (if_pos (by simp [Cad.syncRun, hok, hagree]))))
  rw [hlock, Dev.ptpLock_cad]
  exact ⟨rfl, rfl⟩

/-- Acquiring, a record before the fourth agreeing one does not lock. -/
theorem Dev.syncRecord_acquires (hmode : d.cad.mode = 1) (hagree : d.cad.agree < 3) : (d.syncRecord time).cad.mode = 1 := by
  have hrun : ¬ 4 ≤ d.cad.syncRun ((time : Int) - d.plat.now) := by
    unfold Cad.syncRun
    split <;> omega
  have hstay : (d.syncRecord time).cad = _ := congrArg Dev.cad ((d.syncRecord_eq time).trans ((if_neg (by simp [hmode])).trans (if_neg hrun)))
  rw [hstay]
  simp [Dev.syncedCad, hmode]

/-- LOCKED, a record out of the window is missed, and holdover follows at MISS_LIMIT (R351, R355). -/
theorem Dev.syncRecord_misses (hmode : d.cad.mode = 2) (hok : d.cad.syncAgrees ((time : Int) - d.plat.now) = false) :
    (d.syncRecord time).cad.mode = if cfgMiss d.cad.cfg ≤ d.cad.missed + 1 then 3 else 2 := by
  have hmissed : d.cad.syncMissed ((time : Int) - d.plat.now) = d.cad.missed + 1 := by simp [Cad.syncMissed, hmode, hok]
  rw [Dev.syncRecord_eq]
  dsimp only
  rw [if_pos hmode, hmissed]
  split
  · rfl
  · simp [Dev.syncedCad, hmode]

end

/-- What BEAT_START leaves at its time. -/
theorem Dev.beatStarts_spec (d : Dev) (b st : Nat) :
    (d.beatStarts b st).cad.record = (b, st, (d.cad.beat, d.cad.start, d.cad.pBeat) :: d.cad.hist, none,
      d.cad.pend.getD (d.cad.cfg, d.cad.lock, d.cad.sched)) ∧
    (d.beatStarts b st).mem = d.mem ∧ (d.beatStarts b st).pow.budget = d.pow.budgetPend.getD d.pow.budget ∧
    (d.beatStarts b st).pow.budgetPend = none ∧ (∀ id, ((d.beatStarts b st).pow.dom id).gb = (d.pow.dom id).gbNew) ∧
    ∀ g, (d.pow.rail g).failed = true → ((d.beatStarts b st).pow.rail g).failed = !(d.pow.rail g).answers := by
  obtain ⟨o, ctr, hkeeps⟩ := d.beatStarts_planned b st
  exact ⟨(Cad.record_of_streams hkeeps.cad).trans (Cad.enterBeat_record ..), hkeeps.mem, hkeeps.budget, hkeeps.budgetPend,
    fun id => (hkeeps.gb id).trans (Pow.beatStart_gb ..), fun g hg => (hkeeps.failed g).trans (Pow.beatStart_failed _ _ hg)⟩

/-- Settles O47: each event by its condition and by what the unit makes of it; a beat start by what its planning leaves. -/
theorem cadenceRuns : Obligations.CadenceRuns := by
  rintro s d c now rfl rfl rfl
  refine ⟨fun q f p cad lock sched h => ?config, fun b st hb hst => ?beat, fun high hhigh => ?short, fun high t hhigh ht => ?edge,
    fun hsource hmode hstep hfree hdue => ?window, fun b hout hlast hb => ?pulse, fun hout => ?noPulse, fun e he hnow => ?outEnd,
    fun n e hn he => ?pinEnd, fun port time hother => ?otherSync, fun port time hsource hport => ?sync, fun t hsource hmode hlast => ?timeout⟩
  case config =>
    cases h.form
    rw [exec_cadenceConfig, execCadenceConfig]
    refine ⟨fun hcad hlock hsched => ?_, fun hbad => h.refusedBy (.inl (firstBadField_some ?_))⟩
    · exact h.doneBy rfl ⟨firstBadField_none (by simp [hcad, hlock, hsched]), rfl, rfl⟩
        (Dev.Replied.begunCad s.dev q p fun c => { c with pend := some (cad, lock % 2 ^ 56, sched % 2 ^ 53) })
    · rcases hbad with hbad | hbad | hbad <;> simp [hbad]
  case beat =>
    subst hb
    rw [exec_beatStart, execBeatStart_at hst]
    refine ⟨fun hearly => event_of_cannot _ (by simpa using hearly), fun hnow => ?_⟩
    obtain ⟨hrecord, hmem, hbudget, hpend, hgb, hfailed⟩ := s.dev.beatStarts_spec (s.dev.cad.beat + 1) st
    simp only [Cad.record, Prod.mk.injEq] at hrecord
    obtain ⟨hbeat, hstart, hhist, hnone, hconfig⟩ := hrecord
    refine ⟨_, _, event_of_can _ (by simpa using hnow), rfl, rfl, hmem, hbeat, hstart, hhist, hnone, fun x y z hx => ?_, fun hx => ?_,
      hbudget, hpend, hgb, hfailed⟩
    · simpa [hx] using hconfig
    · simpa [hx] using hconfig
  case short =>
    rw [exec_cadenceInEdge, execCadenceInEdge]
    exact event_of_cannot _ (by simpa using hhigh)
  case edge =>
    subst ht
    refine ⟨fun hsource => ?_, fun hsource hmode hstep hdue hfree hlow hup => ?_, fun hsource hmode hstep hdue hused => ?_,
      fun r hsource hmode hagree hlast hup hlow => ?_⟩
    · rw [exec_cadenceInEdge]
      exact (event_of_can _ (by simpa using hhigh)).trans (congrArg (fun e => (.next { s with dev := e } : Res)) (if_neg hsource))
    · have hevent := Dev.refEvent_expected (d := s.dev.stamped (s.dev.plat.now - s.dev.cad.inDelay)) hmode hstep hdue hfree
        (Bool.and_eq_true_iff.2 ⟨decide_eq_true hlow, decide_eq_true hup⟩)
      rw [exec_cadenceInEdge_ref hhigh hsource, hevent]
      exact ⟨_, rfl, rfl, rfl, rfl, rfl, rfl, (Cad.refTaken_mode ..).trans hmode, rfl⟩
    · rw [exec_cadenceInEdge_ref hhigh hsource,
        Dev.refEvent_unexpected (d := s.dev.stamped (s.dev.plat.now - s.dev.cad.inDelay)) hmode hstep hdue hused]
      rfl
    · obtain ⟨k, hevent, hlocked, hstep, hbeats, href, hbeat⟩ := Dev.refEvent_locks
        (d := s.dev.stamped (s.dev.plat.now - s.dev.cad.inDelay)) hmode hagree hlast (Cad.intervalOk_nominal hmode hup hlow)
      rw [exec_cadenceInEdge_ref hhigh hsource, hevent]
      exact ⟨_, rfl, rfl, rfl, hlocked, hstep, hbeats, href, hbeat⟩
  case window =>
    rw [exec_refWindowEnd, execRefWindowEnd]
    refine ⟨fun hearly => event_of_cannot _ ?_, fun hnow => event_of_can _ ?_⟩
    · simp [Cad.predicted, Nat.not_le.2 hearly]
    · simp [Cad.predicted, hsource, hmode, hstep, hfree, hdue, hnow]
  case pulse =>
    subst hb
    have hdue : s.dev.cad.outDue = s.dev.cad.beat := by simp only [Cad.outDue, hlast]
    rw [exec_cadenceOutPulse, execCadenceOutPulse]
    dsimp only
    rw [hdue, Cad.reached_current]
    refine ⟨fun hearly => event_of_cannot _ ?_, fun hnow => event_of_can _ ?_⟩
    · simp [Nat.not_le.2 hearly]
    · simp [hout, hlast, hnow]
  case noPulse =>
    rw [exec_cadenceOutPulse, execCadenceOutPulse]
    exact event_of_cannot _ (by simp [hout])
  case outEnd =>
    rw [exec_pulseWidthEnd, execPulseWidthEnd, if_pos rfl]
    exact event_of_can _ (by simpa [he] using hnow)
  case pinEnd =>
    rw [exec_pulseWidthEnd, execPulseWidthEnd, if_neg (Nat.ne_of_lt hn)]
    refine ⟨fun hearly => event_of_cannot _ (by simp [he, Nat.not_le.2 hearly]), fun hnow => ⟨_, event_of_can _ (by simp [he, hn, hnow]), ?_⟩⟩
    exact ⟨by simp, fun m hm => by simp [hm], rfl⟩
  case otherSync =>
    rw [exec_ptpSyncRecord, execPtpSyncRecord]
    exact event_of_cannot _ (by rcases hother with h | h <;> simp [h])
  case sync =>
    have hexec := (exec_ptpSyncRecord s port time).trans (event_of_can (s.dev.syncRecord time) (by simp [hsource, hport]))
    obtain ⟨hestimate, hlast, hbeat, hstart⟩ := s.dev.syncRecord_synced time
    refine ⟨_, hexec, rfl, hestimate, hlast, hbeat, hstart, fun o hmode hagree ho hup hlow => ?_, fun hmode hagree => ?_, fun hmode hbad => ?_⟩
    · exact Dev.syncRecord_locks hmode hagree (by simp [Cad.syncAgrees, ho, hup, hlow])
    · exact Dev.syncRecord_acquires hmode hagree
    · refine Dev.syncRecord_misses hmode ?_
      rcases hbad with hnone | ⟨o, ho, hfar⟩
      · simp [Cad.syncAgrees, hnone]
      · simp only [Cad.syncAgrees, ho, decide_eq_false_iff_not]
        omega
  case timeout =>
    rw [exec_ptpSyncTimeout, execPtpSyncTimeout]
    refine ⟨fun hearly => event_of_cannot _ ?_, fun hnow => event_of_can _ ?_⟩
    · simp [hlast, Nat.not_le.2 hearly]
    · simp [hsource, hmode, hlast, hnow]

end Sys2Proof.Machine
end

