-- ==== Sys2Proof/Proofs/LiveLaws.lean ====
section
/-! SUPPORT. What the operations of live tasks leave of the streams and of the cores (R364 to R377). -/

namespace Sys2Proof.Machine

/-! ## Streams that replies and dumps leave -/

section
variable {a b : Dev} (h : a.Replied b)
include h

theorem Dev.Replied.streams : b.cad.streams = a.cad.streams := show b.quiet.cad.streams = a.quiet.cad.streams by rw [h.quiet]

theorem Dev.Replied.stream (n : Nat) : b.cad.stream n = a.cad.stream n := by
  rw [Cad.stream, h.streams, Cad.stream]

end

section
variable (d : Dev) (n k : Nat)

theorem Dev.taskReply_replied (status detail : Nat) (ext : List Nat) : d.Replied (d.taskReply n k status detail ext) :=
  (Dev.trace_replied ..).trans (Dev.sendReply_replied ..)

theorem Dev.endDumps_streams (sel : Dump → Bool) (status : Nat) : (d.endDumps sel status).cad.streams = d.cad.streams := by
  unfold Dev.endDumps
  exact foldl_keeps (fun e : Dev => e.cad.streams = d.cad.streams) _ (fun e x he => (Dev.finish_replied ..).streams.trans he) _ _ rfl

/-- Where no dump is of the selection none ends. -/
theorem Dev.endDumps_none {sel : Dump → Bool} {status : Nat} (h : ∀ x ∈ d.obs.dumps, sel x = false) : d.endDumps sel status = d := by
  have hgone : d.obs.dumps.filter sel = [] := List.filter_eq_nil_iff.2 (by simpa using h)
  have hstay : d.obs.dumps.filter (fun x => !sel x) = d.obs.dumps := List.filter_eq_self.2 (by simpa using h)
  simp only [Dev.endDumps, hgone, hstay, List.foldl_nil]

theorem Dev.frameDumps_streams (bad : Nat) : (d.frameDumps n k bad).cad.streams = d.cad.streams := by
  unfold Dev.frameDumps
  dsimp only
  split
  · rfl
  · exact Dev.endDumps_streams ..

theorem Dev.missReply_streams (cause : Nat) (effect : Bool) : (d.missReply n k cause effect).cad.streams = d.cad.streams :=
  (Dev.taskReply_replied ..).streams

/-- A waiting task that leaves. -/
theorem Dev.dropWaiting_stream : (d.dropWaiting n k).cad.stream n = { (d.cad.stream n).spend k with waiting := none } := by
  rw [Dev.dropWaiting, Cad.stream_updStream, if_pos rfl]

end

/-- Units with the same streams agree on every stream. -/
theorem Cad.stream_congr {c k : Cad} (h : k.streams = c.streams) (n : Nat) : k.stream n = c.stream n := by
  rw [Cad.stream, h, Cad.stream]

/-! ## Cores of a cluster set (R365, R366) -/

theorem mem_setCores {set : List Nat} {n : Nat} : n ∈ setCores set ↔ n < 192 ∧ 12 * (n / 48) + n % 48 / 4 ∈ set := by
  simp [setCores]

/-- A core that starts takes up a stream of a step; nothing else changes. -/
theorem Dev.startCore_frame (d : Dev) (n : Nat) : ∃ cores plans, d.startCore n = { d with cores := cores, plans := plans } ∧
    ∀ m, m ≠ n → Tab.get {} cores m = d.core m := by
  have hstays : ∃ cores plans, d = { d with cores := cores, plans := plans } ∧ ∀ m, m ≠ n → Tab.get {} cores m = d.core m :=
    ⟨d.cores, d.plans, rfl, fun _ _ => rfl⟩
  have hgo : ∀ f h second g, ∃ cores plans, (d.updCore n f).updRun h second g = { d with cores := cores, plans := plans } ∧
      ∀ m, m ≠ n → Tab.get {} cores m = d.core m :=
    fun f h second g => ⟨_, _, rfl, fun m hm => (Tab.get_upd ..).trans (if_neg hm)⟩
  unfold Dev.startCore
  dsimp only
  split
  · exact hstays
  · split
    · exact hstays
    · split
      · exact hgo ..
      · split
        · exact hgo ..
        · exact hstays

/-- One core of a set that is given back (R366). -/
def Dev.giveCore (d : Dev) (n : Nat) : Dev :=
  if (d.core n).run != 4 || d.wantsCluster (12 * (n / 48) + n % 48 / 4) then d
  else if (d.core n).saved.isSome then d.updCore n (fun k => { k with run := 5, since := d.plat.now })
  else (d.updCore n (fun k => { k with run := 0 })).startCore n

theorem Dev.giveBack_eq (d : Dev) (set : List Nat) : d.giveBack set = (setCores set).foldl Dev.giveCore d := rfl

/-- A core that is given back changes itself and the plans. -/
theorem Dev.giveCore_frame (d : Dev) (n : Nat) : ∃ cores plans, d.giveCore n = { d with cores := cores, plans := plans } ∧
    ∀ m, m ≠ n → Tab.get {} cores m = d.core m := by
  unfold Dev.giveCore
  split
  · exact ⟨d.cores, d.plans, rfl, fun _ _ => rfl⟩
  · split
    · exact ⟨_, d.plans, rfl, fun m hm => (Tab.get_upd ..).trans (if_neg hm)⟩
    · obtain ⟨cores, plans, heq, hothers⟩ := (d.updCore n fun k => { k with run := 0 }).startCore_frame n
      exact ⟨cores, plans, heq, fun m hm => (hothers m hm).trans ((Dev.core_updCore ..).trans (if_neg hm))⟩

theorem Dev.giveBack_frame (d : Dev) (set : List Nat) : ∃ cores plans, d.giveBack set = { d with cores := cores, plans := plans } := by
  rw [Dev.giveBack_eq]
  refine foldl_keeps (fun e : Dev => ∃ cores plans, e = { d with cores := cores, plans := plans }) _ ?_ _ d ⟨d.cores, d.plans, rfl⟩
  rintro _ m ⟨cores, plans, rfl⟩
  obtain ⟨cores', plans', heq, -⟩ := Dev.giveCore_frame { d with cores := cores, plans := plans } m
  exact ⟨cores', plans', heq⟩

@[simp] theorem Dev.giveBack_cad (d : Dev) (set : List Nat) : (d.giveBack set).cad = d.cad := by
  obtain ⟨cores, plans, h⟩ := d.giveBack_frame set
  rw [h]

/-- A core that a live task holds or waits for is not given back, nor one that is not held. -/
theorem Dev.giveCore_kept {d : Dev} {n : Nat} (h : (d.core n).run ≠ 4 ∨ d.wantsCluster (12 * (n / 48) + n % 48 / 4) = true) :
    d.giveCore n = d := by
  rw [Dev.giveCore, if_pos (by simpa using h)]

theorem foldl_stays {β γ : Type} {f : β → γ → β} {b : β} {l : List γ} (h : ∀ c ∈ l, f b c = b) : l.foldl f b = b := by
  induction l with
  | nil => rfl
  | cons c l ih =>
    rw [List.foldl_cons, h c List.mem_cons_self]
    exact ih fun c hc => h c (List.mem_cons_of_mem _ hc)

theorem Dev.giveBack_kept {d : Dev} {set : List Nat}
    (h : ∀ m ∈ setCores set, (d.core m).run ≠ 4 ∨ d.wantsCluster (12 * (m / 48) + m % 48 / 4) = true) : d.giveBack set = d :=
  foldl_stays fun m hm => Dev.giveCore_kept (h m hm)

/-- An open stream has its entry. -/
theorem Cad.mem_streams {c : Cad} {n : Nat} (hopen : (c.stream n).opened = true) : (n, c.stream n) ∈ c.streams := by
  rcases Tab.get_eq_default_or_mem {} c.streams n with h | h
  · rw [Cad.stream, h] at hopen
    cases hopen
  · exact h

/-- A stream that is open with a task wants its clusters. -/
theorem Dev.wantsCluster_running {d : Dev} {n k : Nat} (hopen : (d.cad.stream n).opened = true) (hk : k ∈ (d.cad.stream n).clusters)
    (hrun : (d.cad.stream n).running ≠ none) : d.wantsCluster k = true := by
  refine List.any_eq_true.2 ⟨_, Cad.mem_streams hopen, ?_⟩
  simpa [hopen, hk, Option.isSome_iff_ne_none] using Or.inl hrun

/-! ## Streams that close (R445, R461) -/

@[simp] theorem Dev.freeEngine_cad (d : Dev) (e : Nat) : (d.freeEngine e).cad = d.cad := by
  unfold Dev.freeEngine
  split <;> rfl

section
variable {d : Dev} {n : Nat}

theorem Dev.endClose_open (h : (d.cad.stream n).closing = none) : d.endClose n = d := by
  simp only [Dev.endClose, h]

theorem Dev.endClose_running (h : (d.cad.stream n).running ≠ none) : d.endClose n = d := by
  unfold Dev.endClose
  dsimp only
  split
  · rfl
  · rw [if_pos (by simp [Option.isSome_iff_ne_none, h])]

/-- After its close ends a stream is as it was, or gone. -/
theorem Dev.endClose_stream (d : Dev) (n : Nat) : (d.endClose n).cad.stream n = d.cad.stream n ∨ (d.endClose n).cad.stream n = {} := by
  unfold Dev.endClose
  dsimp only
  split
  · exact .inl rfl
  · split
    · exact .inl rfl
    · refine .inr ((Dev.finish_replied _ _ _ _ _).stream n |>.trans ?_)
      rw [Dev.freeEngine_cad]
      exact Tab.get_set_same ..

end

/-- Clocks set afresh add no task to a stream. -/
theorem Dev.reclock_stream_idle {d : Dev} {n : Nat} (h : (d.cad.stream n).running = none) : d.reclock.cad.stream n = d.cad.stream n := by
  obtain ⟨doms, hd⟩ := d.reclock_stream n
  rcases (d.cad.stream n).slowMark_cases doms with hs | ⟨t, ht, -⟩
  · exact hd.trans hs
  · simp [h] at ht

end Sys2Proof.Machine
end

