-- ==== Sys2Proof/Proofs/LiveEnds.lean ====
section
/-! PROOFS. Live tasks that end, and deadlines that pass (R326, R329, R373, R376): parts of O51. -/

namespace Sys2Proof.Machine

theorem exec_liveTaskComplete (n : Nat) (s : State) : exec (.liveTaskComplete n) s = execLiveTaskComplete n s := rfl
theorem exec_liveDeadline (n : Nat) (s : State) : exec (.liveDeadline n) s = execLiveDeadline n s := rfl

/-! ## Tasks whose work is done (R326, R367) -/

section
variable {d : Dev} {n : Nat} {x : Stream} {u : Task} (hbad : u.bad = 0) (hdrop : u.dropped = false)
include hbad hdrop

/-- The reply of a task whose work is done leaves its region list with the stream. -/
theorem Dev.taskStatus_done : (d.taskStatus n x u).cad.stream n =
    { d.cad.stream n with rois := (u.frame, rdNat d.mem (srRoiBase x.record) 256) :: (d.cad.stream n).rois } := by
  simp only [Dev.taskStatus, hbad, hdrop, bne_self_eq_false, Bool.false_eq_true, if_false, Cad.stream_updStream, if_true]
  split
  · rw [Cad.stream_congr (Dev.missReply_streams ..)]
  · rw [(Dev.taskReply_replied ..).stream]

theorem Dev.taskOver_done : d.taskOver n x u = d.taskDone n x u := by
  simp [Dev.taskOver, hbad, hdrop]

/-- The end of such a task: its stream has no task and keeps the list, before a close ends and the clocks are set. -/
theorem Dev.endTask_done : ∃ e : Dev, d.endTask n x u = (e.endClose n).reclock ∧ e.cad.stream n =
    { ({ d.cad.stream n with rois := (u.frame, rdNat d.mem (srRoiBase x.record) 256) :: (d.cad.stream n).rois } : Stream).spend u.frame with
      running := none } := by
  simp only [Dev.endTask, Dev.freeOutputs, hbad, hdrop, bne_self_eq_false, Bool.false_or, Bool.false_eq_true, Bool.false_and, if_false]
  refine ⟨_, rfl, ?_⟩
  have hstream : (((d.taskStatus n x u).frameDumps n u.frame 0).closeWork n).cad.stream n = (d.taskStatus n x u).cad.stream n :=
    Cad.stream_congr (Dev.frameDumps_streams ..) n
  rw [Dev.giveBack_cad]
  dsimp only
  rw [Cad.stream_updStream, if_pos rfl, hstream, Dev.taskStatus_done hbad hdrop]

/-- LIVE_TASK_COMPLETE of a task whose work is done. -/
theorem exec_liveTaskComplete_done {s : State} (hdead : s.dev.pow.dead = false) (hx : x = s.dev.cad.stream n) (hrun : x.running = some u)
    (hdone : s.dev.taskDone n x u = true) (hclean : firstBad s.dev.poison (srRoiBase x.record) 256 = none) :
    exec (.liveTaskComplete n) s = .next { s with dev := s.dev.endTask n x u } := by
  have hends : s.dev.taskEnds n = some (s.dev.endTask n x u) := by
    simp only [Dev.taskEnds, ← hx, hrun, Option.filter_some, Dev.taskOver_done hbad hdrop, hdone, if_true, Dev.readRois, hclean]
  rw [exec_liveTaskComplete, execLiveTaskComplete, hends]
  exact eventOpt_some s _ hdead

/-- A task whose work is not done stays, where no waiting task has lost its input. -/
theorem exec_liveTaskComplete_undone {s : State} (hx : x = s.dev.cad.stream n) (hrun : x.running = some u)
    (hdone : s.dev.taskDone n x u = false) (hinput : ∀ v, x.waiting = some v → x.badInput v.frame = none) :
    exec (.liveTaskComplete n) s = .next s := by
  have hends : s.dev.taskEnds n = none := by
    simp only [Dev.taskEnds, ← hx, hrun, Option.filter_some, Dev.taskOver_done hbad hdrop, hdone, Bool.false_eq_true, if_false]
    cases hwait : x.waiting with
    | none => rfl
    | some v => simp [hinput v hwait]
  rw [exec_liveTaskComplete, execLiveTaskComplete, hends]
  rfl

end

/-- The stream of a task whose work was done. -/
theorem Dev.endTask_stream {d : Dev} {n : Nat} {u : Task} (hbad : u.bad = 0) (hdrop : u.dropped = false) :
    ((d.endTask n (d.cad.stream n) u).cad.stream n).running = none ∧
    ((d.cad.stream n).closing = none →
      ((d.endTask n (d.cad.stream n) u).cad.stream n).rois =
        (u.frame, rdNat d.mem (srRoiBase (d.cad.stream n).record) 256) :: (d.cad.stream n).rois ∧
      ((d.endTask n (d.cad.stream n) u).cad.stream n).opened = (d.cad.stream n).opened) := by
  obtain ⟨e, hend, hstream⟩ := Dev.endTask_done (d := d) (n := n) (x := d.cad.stream n) hbad hdrop
  have hidle : ((e.endClose n).cad.stream n).running = none := by
    rcases e.endClose_stream n with h | h <;> rw [h]
    rw [hstream]
  rw [hend, Dev.reclock_stream_idle hidle]
  refine ⟨hidle, fun hclosing => ?_⟩
  have hstay : e.endClose n = e := Dev.endClose_open (by rw [hstream]; exact hclosing)
  rw [hstay, hstream]
  exact ⟨rfl, rfl⟩

/-! ## Waiting tasks that leave (R329, R376) -/

/-- A spent frame has no bad input. -/
theorem Stream.badInput_spend (x : Stream) (k : Nat) : (x.spend k).badInput k = none := by
  have hspent : (x.spend k).badInputs.find? (fun i => i.1 == k) = none := by
    simp only [Stream.spend, List.find?_eq_none, List.mem_filter, decide_eq_true_eq, beq_iff_eq]
    exact fun i hi => Nat.ne_of_gt hi.2
  rw [Stream.badInput, hspent, Option.map_none]

/-- A waiting task without input: its stream waits for no task, and the frame is spent. -/
theorem Dev.endBadInput_stream {d : Dev} {n : Nat} (u : Task) (st : Nat) (hclosing : (d.cad.stream n).closing = none) :
    (d.endBadInput n u st).cad.stream n = { (d.cad.stream n).spend u.frame with waiting := none } := by
  have hdropped : ((((d.taskReply n u.frame st 0 []).dropWaiting n u.frame).frameDumps n u.frame st).giveBack (d.cad.stream n).clusters).cad.stream n =
      { (d.cad.stream n).spend u.frame with waiting := none } := by
    rw [Dev.giveBack_cad, Cad.stream_congr (Dev.frameDumps_streams ..), Dev.dropWaiting_stream, (Dev.taskReply_replied ..).stream]
  rw [Dev.endBadInput, Dev.endClose_open, hdropped]
  rw [hdropped]
  exact hclosing

/-- LIVE_TASK_COMPLETE of a stream that waits for a frame without input. -/
theorem exec_liveTaskComplete_badInput {s : State} {n st : Nat} {u : Task} (hdead : s.dev.pow.dead = false)
    (hrun : (s.dev.cad.stream n).running = none) (hwait : (s.dev.cad.stream n).waiting = some u)
    (hinput : (s.dev.cad.stream n).badInput u.frame = some st) :
    exec (.liveTaskComplete n) s = .next { s with dev := s.dev.endBadInput n u st } := by
  have hends : s.dev.taskEnds n = some (s.dev.endBadInput n u st) := by
    simp only [Dev.taskEnds, hrun, hwait, hinput, Option.filter_none, Option.map_some]
  rw [exec_liveTaskComplete, execLiveTaskComplete, hends]
  exact eventOpt_some s _ hdead

/-! ## Deadlines (R373, R376) -/

section
variable {s : State} {n : Nat} {u : Task}

theorem Dev.isLate_iff {d : Dev} {x : Stream} : d.isLate x u = true ↔ u.missed = false ∧ d.cad.frameDeadline x.record u.frame < d.plat.now := by
  simp [Dev.isLate]

/-- A task that has been acted on, or whose deadline has not passed, is not late. -/
theorem Dev.isLate_false {d : Dev} {x : Stream} (h : u.missed = true ∨ d.plat.now ≤ d.cad.frameDeadline x.record u.frame) :
    d.isLate x u = false := by
  rcases h with h | h <;> simp [Dev.isLate, h]

/-- LIVE_DEADLINE of a running task past its deadline. -/
theorem exec_liveDeadline_running (hdead : s.dev.pow.dead = false) (hrun : (s.dev.cad.stream n).running = some u)
    (hlate : s.dev.isLate (s.dev.cad.stream n) u = true) : exec (.liveDeadline n) s =
      .next { s with dev := s.dev.updTask n (fun t => { t with missed := true, dropped := srDrop (s.dev.cad.stream n).record }) } := by
  have hacts : s.dev.deadline n = some (s.dev.updTask n (fun t => { t with missed := true, dropped := srDrop (s.dev.cad.stream n).record })) := by
    simp only [Dev.deadline, hrun, Option.filter_some, hlate, if_true]
  rw [exec_liveDeadline, execLiveDeadline, hacts]
  exact eventOpt_some s _ hdead

section
variable (hdead : s.dev.pow.dead = false) (hrun : (s.dev.cad.stream n).running = none) (hwait : (s.dev.cad.stream n).waiting = some u)
  (hlate : s.dev.isLate (s.dev.cad.stream n) u = true)
include hdead hrun hwait hlate

/-- LIVE_DEADLINE of a waiting task under FINISH. -/
theorem exec_liveDeadline_finish (hpolicy : srDrop (s.dev.cad.stream n).record = false) : exec (.liveDeadline n) s =
    .next { s with dev := { s.dev with cad := s.dev.cad.updStream n (fun x => { x with waiting := some { u with missed := true } }) } } := by
  have hacts : s.dev.deadline n = some { s.dev with cad := s.dev.cad.updStream n (fun x => { x with waiting := some { u with missed := true } }) } := by
    simp only [Dev.deadline, hrun, hwait, Option.filter_none, Option.filter_some, hlate, hpolicy, if_true, Bool.false_and, Bool.false_eq_true,
      if_false]
  rw [exec_liveDeadline, execLiveDeadline, hacts]
  exact eventOpt_some s _ hdead

/-- LIVE_DEADLINE of a waiting task under DROP: it leaves its stream. -/
theorem exec_liveDeadline_drop (hpolicy : srDrop (s.dev.cad.stream n).record = true)
    (hinput : (s.dev.cad.stream n).badInput u.frame = none) (hclosing : (s.dev.cad.stream n).closing = none) :
    ∃ e : Dev, exec (.liveDeadline n) s = .next { s with dev := e } ∧
      e.cad.stream n = { (s.dev.cad.stream n).spend u.frame with waiting := none } := by
  generalize he : ((((s.dev.missReply n u.frame (s.dev.missCause (s.dev.cad.stream n) u) false).frameDumps n u.frame stAborted).dropWaiting n
    u.frame).giveBack (s.dev.cad.stream n).clusters) = e
  have hacts : s.dev.deadline n = some (e.endClose n) := by
    simp only [Dev.deadline, hrun, hwait, Option.filter_none, Option.filter_some, hlate, hpolicy, hinput, if_true, Option.isNone_none, Bool.and_self,
      he]
  have hstream : e.cad.stream n = { (s.dev.cad.stream n).spend u.frame with waiting := none } := by
    rw [← he, Dev.giveBack_cad, Dev.dropWaiting_stream, Cad.stream_congr (Dev.frameDumps_streams ..), Cad.stream_congr (Dev.missReply_streams ..)]
  refine ⟨e, ?_, hstream⟩
  rw [exec_liveDeadline, execLiveDeadline, hacts, Dev.endClose_open (by rw [hstream]; exact hclosing)]
  exact eventOpt_some s _ hdead

end

/-- LIVE_DEADLINE of a stream whose tasks are in time, or have been acted on. -/
theorem exec_liveDeadline_inTime (hrun : ∀ u, (s.dev.cad.stream n).running = some u → s.dev.isLate (s.dev.cad.stream n) u = false)
    (hwait : ∀ u, (s.dev.cad.stream n).waiting = some u → s.dev.isLate (s.dev.cad.stream n) u = false) :
    exec (.liveDeadline n) s = .next s := by
  have hrun' : (s.dev.cad.stream n).running.filter (s.dev.isLate (s.dev.cad.stream n)) = none := by
    simpa [Option.filter_eq_none_iff] using hrun
  have hwait' : (s.dev.cad.stream n).waiting.filter (s.dev.isLate (s.dev.cad.stream n)) = none := by
    simpa [Option.filter_eq_none_iff] using hwait
  have hacts : s.dev.deadline n = none := by
    simp only [Dev.deadline, hrun', hwait']
  rw [exec_liveDeadline, execLiveDeadline, hacts]
  rfl

end

end Sys2Proof.Machine
end

