-- ==== Sys2Proof/Proofs/LiveSwitch.lean ====
section
/-! PROOFS. Contexts that are saved and restored, and cores that do not stop in time (R26, R89, R114, R366): parts of O51. -/

namespace Sys2Proof.Machine

theorem exec_contextSaveDone (n : Nat) (s : State) : exec (.contextSaveDone n) s = execContextSaveDone n s := rfl
theorem exec_quantumExpiry (n : Nat) (s : State) : exec (.quantumExpiry n) s = execQuantumExpiry n s := rfl
theorem exec_contextRestoreDone (n : Nat) (s : State) : exec (.contextRestoreDone n) s = execContextRestoreDone n s := rfl

/-! ## Tasks that wait for no set -/

/-- A stream whose task has not started, or already runs, is not launched. -/
theorem Dev.launch_stays {d : Dev} {n : Nat} (h : ∀ u, (d.cad.stream n).running = some u → u.startedAt = none ∨ u.runAt ≠ none) : d.launch n = d := by
  unfold Dev.launch
  dsimp only
  split
  · rfl
  · next u hu =>
    rw [if_pos]
    rcases h u hu with hstart | hran
    · simp [hstart]
    · simp [Option.isSome_iff_ne_none, hran]

theorem Dev.launchAll_stays {d : Dev} (h : ∀ e ∈ d.cad.streams, ∀ u, e.2.running = some u → u.startedAt = none ∨ u.runAt ≠ none) :
    d.launchAll = d := by
  refine foldl_stays fun n _ => Dev.launch_stays fun u hu => ?_
  rcases Tab.get_eq_default_or_mem {} d.cad.streams n with hn | hn
  · rw [Cad.stream, hn] at hu
    cases hu
  · exact h _ hn u hu

/-! ## A core that is given back (R366) -/

section
variable {d : Dev} {n : Nat} {set : List Nat}

/-- A saved core that no task waits for begins to restore. -/
theorem Dev.giveCore_saved (hrun : (d.core n).run = 4) (hsaved : (d.core n).saved.isSome = true)
    (hwants : d.wantsCluster (12 * (n / 48) + n % 48 / 4) = false) :
    (d.giveCore n).core n = { d.core n with run := 5, since := d.plat.now } := by
  rw [Dev.giveCore, if_neg (by simp [hrun, hwants]), if_pos hsaved, Dev.core_updCore, if_pos rfl]

/-- While the cores of a set are given back, core `n` reads `k` in a device that differs from `d` by its cores and plans. -/
def Dev.GivesBack (d : Dev) (n : Nat) (k : Core) (e : Dev) : Prop :=
  ∃ cores plans, e = { d with cores := cores, plans := plans } ∧ Tab.get {} cores n = k

theorem Dev.GivesBack.other {k : Core} {m : Nat} (hm : m ≠ n) {e : Dev} (h : d.GivesBack n k e) : d.GivesBack n k (e.giveCore m) := by
  obtain ⟨cores, plans, rfl, hk⟩ := h
  obtain ⟨cores', plans', heq, hothers⟩ := Dev.giveCore_frame { d with cores := cores, plans := plans } m
  exact ⟨cores', plans', heq, (hothers n hm.symm).trans hk⟩

/-- A core that restores is not given back again. -/
theorem Dev.GivesBack.again {k : Core} {m : Nat} (hk : k.run = 5) {e : Dev} (h : d.GivesBack n k e) : d.GivesBack n k (e.giveCore m) := by
  by_cases hm : m = n
  · subst hm
    have hcore : (e.core m).run ≠ 4 := by
      obtain ⟨cores, plans, rfl, hget⟩ := h
      have hcore : ({ d with cores := cores, plans := plans } : Dev).core m = k := hget
      rw [hcore, hk]
      decide
    rwa [Dev.giveCore_kept (.inl hcore)]
  · exact h.other hm

section
variable (hrun : (d.core n).run = 4) (hsaved : (d.core n).saved.isSome = true) (hwants : d.wantsCluster (12 * (n / 48) + n % 48 / 4) = false)
include hrun hsaved hwants

theorem Dev.GivesBack.here {e : Dev} (h : d.GivesBack n (d.core n) e) :
    d.GivesBack n { d.core n with run := 5, since := d.plat.now } (e.giveCore n) := by
  obtain ⟨cores, plans, rfl, hk⟩ := h
  obtain ⟨cores', plans', heq, -⟩ := Dev.giveCore_frame { d with cores := cores, plans := plans } n
  have hcore : ({ d with cores := cores, plans := plans } : Dev).core n = d.core n := hk
  refine ⟨cores', plans', heq, ?_⟩
  have hgiven := Dev.giveCore_saved (d := { d with cores := cores, plans := plans }) (n := n) (by rw [hcore]; exact hrun)
    (by rw [hcore]; exact hsaved) hwants
  rw [heq, hcore] at hgiven
  exact hgiven

/-- A saved core of a set that no task waits for begins to restore as the set is given back. -/
theorem Dev.giveBack_saved (hn : n ∈ setCores set) :
    d.GivesBack n { d.core n with run := 5, since := d.plat.now } (d.giveBack set) := by
  have hgo : ∀ (l : List Nat) (e : Dev), n ∈ l → d.GivesBack n (d.core n) e →
      d.GivesBack n { d.core n with run := 5, since := d.plat.now } (l.foldl Dev.giveCore e) := by
    intro l
    induction l with
    | nil => exact fun e hmem => absurd hmem List.not_mem_nil
    | cons m l ih =>
      intro e hmem he
      by_cases hm : m = n
      · subst hm
        exact foldl_keeps _ _ (fun e c h => Dev.GivesBack.again rfl h) l _ (Dev.GivesBack.here hrun hsaved hwants he)
      · exact ih _ ((List.mem_cons.1 hmem).resolve_left (Ne.symm hm)) (he.other hm)
  rw [Dev.giveBack_eq]
  exact hgo _ d hn ⟨d.cores, d.plans, rfl, rfl⟩

end

end

/-! ## CONTEXT_SAVE_DONE -/

/-- The device whose core `n` has saved context `x`. -/
def Dev.savedCore (d : Dev) (n : Nat) (x : Ctx) : Dev :=
  d.updCore n (fun k => { d.saveAcc n k with run := 4, ctx := none, saved := some x })

section
variable {s : State} {n : Nat} {x : Ctx} (hrun : (s.dev.core n).run = 3) (hctx : (s.dev.core n).ctx = some x)
include hrun hctx

theorem exec_contextSaveDone_early (h : s.dev.plat.now < (s.dev.core n).since + 8000) : exec (.contextSaveDone n) s = .next s := by
  have hsave : s.dev.saveDone n = none := by
    simp only [Dev.saveDone, hrun, hctx, if_true]
    rw [if_neg fun hboth => absurd hboth.1 (Nat.not_le.2 h)]
  rw [exec_contextSaveDone, execContextSaveDone, hsave]
  rfl

theorem exec_contextSaveDone_done (hdead : s.dev.pow.dead = false) (h : (s.dev.core n).since + 8000 ≤ s.dev.plat.now) (harrived : x.arrivals = []) :
    exec (.contextSaveDone n) s = .next { s with dev := ((s.dev.savedCore n x).giveBack [12 * (n / 48) + n % 48 / 4]).launchAll } := by
  have hsave : s.dev.saveDone n = some ((s.dev.savedCore n x).giveBack [12 * (n / 48) + n % 48 / 4]).launchAll := by
    simp only [Dev.saveDone, hrun, hctx, if_true]
    rw [if_pos ⟨h, harrived⟩]
    rfl
  rw [exec_contextSaveDone, execContextSaveDone, hsave]
  exact eventOpt_some s _ hdead

end

/-- Every core of one cluster has that cluster. -/
theorem cluster_of_mem {m k : Nat} (h : m ∈ setCores [k]) : 12 * (m / 48) + m % 48 / 4 = k :=
  List.mem_singleton.1 (mem_setCores.1 h).2

/-! ## Restored accumulators (R26) -/

/-- What a key reads as where entries have been dropped by their key. -/
theorem Tab.get_filter_key {α : Type} (z : α) (p : Nat → Bool) (m : Tab α) (a : Nat) :
    Tab.get z (m.filter (fun e => p e.1)) a = if p a then Tab.get z m a else z := by
  induction m with
  | nil => simp [Tab.get]
  | cons e m ih =>
    obtain ⟨k, v⟩ := e
    by_cases hp : p k = true
    · rw [List.filter_cons_of_pos (p := fun e : Nat × α => p e.1) hp, Tab.get, Tab.get, ih]
      by_cases ha : a = k
      · simp [ha, hp]
      · simp [ha]
    · rw [List.filter_cons_of_neg (p := fun e : Nat × α => p e.1) hp, Tab.get, ih]
      by_cases ha : a = k
      · simp [ha, hp]
      · simp [ha]

/-- What a key reads as after the entries of another table have been set. -/
theorem Tab.get_foldl_set {α : Type} [DecidableEq α] (z : α) (new : Tab α) (hwf : Tab.wf z new = true) (a : Nat) : ∀ m : Tab α,
    Tab.get z (new.foldl (fun m e => Tab.set z m e.1 e.2) m) a = if a ∈ new.map (·.1) then Tab.get z new a else Tab.get z m a := by
  induction new with
  | nil => exact fun m => by simp
  | cons e new ih =>
    obtain ⟨k, v⟩ := e
    intro m
    simp only [Tab.wf, Bool.and_eq_true, decide_eq_true_eq] at hwf
    obtain ⟨⟨-, habove⟩, hnew⟩ := hwf
    have hk : k ∉ new.map (·.1) := by
      intro hmem
      obtain ⟨e, he, rfl⟩ := List.mem_map.1 hmem
      exact Nat.lt_irrefl _ (of_decide_eq_true (List.all_eq_true.1 habove e he))
    rw [List.foldl_cons, ih hnew, Tab.get, Tab.get_set]
    by_cases ha : a = k
    · subst ha
      simp [hk]
    · simp only [List.map_cons, List.mem_cons, ha, false_or, if_false]

/-- A key without an entry reads as the default. -/
theorem Tab.get_of_not_mem {α : Type} (z : α) (m : Tab α) (a : Nat) (h : a ∉ m.map (·.1)) : Tab.get z m a = z :=
  (Tab.get_eq_default_or_mem z m a).resolve_right fun hmem => h (List.mem_map.2 ⟨_, hmem, rfl⟩)

/-- What a key reads as after the entries of the keys that `hit` names are those of another table. -/
theorem get_graft {α : Type} [DecidableEq α] (z : α) (hit : Nat → Bool) (m new : Tab α) (hwf : Tab.wf z new = true)
    (hnew : ∀ e ∈ new, hit e.1 = true) (a : Nat) : Tab.get z (graft z hit m new) a = if hit a then Tab.get z new a else Tab.get z m a := by
  rw [graft, Tab.get_foldl_set z new hwf, Tab.get_filter_key z (fun k => !hit k)]
  by_cases hmem : a ∈ new.map (·.1)
  · obtain ⟨e, he, rfl⟩ := List.mem_map.1 hmem
    rw [if_pos hmem, if_pos (hnew e he)]
  · rw [if_neg hmem, Tab.get_of_not_mem z new a hmem]
    cases hit a <;> rfl

/-! ## CONTEXT_RESTORE_DONE -/

/-- The device whose core `n` has its accumulators again and runs its saved stream. -/
def Dev.restoredCore (d : Dev) (n : Nat) : Dev :=
  (({ d with pods := preemptClaims d.pods d.plat.now (fun m => m == n) false } : Dev).restoreAcc n).updCore n (fun k =>
    { k with run := 1, ctx := k.saved.map Ctx.resume, saved := none })

/-- The core reads as saved, and runs. -/
theorem Dev.restoredCore_core (d : Dev) (n m : Nat) : (d.restoredCore n).core m = if m = n then
    { d.core n with run := 1, ctx := (d.core n).saved.map Ctx.resume, saved := none, poison := (d.core n).savedPz, savedAcc := [], savedBad := [],
                    savedPz := [] } else d.core m := by
  rw [Dev.restoredCore, Dev.core_updCore, Dev.restoreAcc, Dev.core_updCore]
  split
  · rw [if_pos rfl]
    rfl
  · next hm =>
    rw [Dev.core_updCore, if_neg hm]
    rfl

section
variable {s : State} {n : Nat}

theorem exec_contextRestoreDone_early (h : s.dev.plat.now < (s.dev.core n).since + 8000) : exec (.contextRestoreDone n) s = .next s := by
  rw [exec_contextRestoreDone, execContextRestoreDone]
  exact workEvent_of_cannot _ (by simp [Nat.not_le.2 h])

/-- CONTEXT_RESTORE_DONE of a core outside a tile loop. -/
theorem exec_contextRestoreDone_done {x : Ctx} (hdead : s.dev.pow.dead = false) (hrun : (s.dev.core n).run = 5) (hsaved : (s.dev.core n).saved = some x)
    (h : (s.dev.core n).since + 8000 ≤ s.dev.plat.now) (hloop : x.loop = none) (hend : x.ended = false) :
    ∃ pods, exec (.contextRestoreDone n) s = .next { s with dev := { s.dev.restoredCore n with pods := pods } } := by
  have hcore : (s.dev.restoredCore n).core n = _ := (s.dev.restoredCore_core n n).trans (if_pos rfl)
  obtain ⟨pods, hafter, -⟩ := (s.dev.restoredCore n).after_running n x.resume (by rw [hcore, hsaved]; rfl) (by rw [hcore]) hloop hend
  refine ⟨pods, ?_⟩
  rw [exec_contextRestoreDone, execContextRestoreDone]
  refine (workEvent_of_can _ hdead (by simp [hrun, h])).trans (congrArg (fun e => (.next { s with dev := e } : Res)) ?_)
  rw [if_pos (by simp [hsaved])]
  exact hafter

/-- What an address reads as after accumulators are restored. -/
theorem Dev.restoredCore_rdByte {d : Dev} (hwf : Tab.wf 0 (d.core n).savedAcc = true)
    (hacc : ∀ e ∈ (d.core n).savedAcc, accWin (4 * n) ≤ e.1 ∧ e.1 < accWin (4 * n + 4)) (a : Nat) : rdByte (d.restoredCore n).mem a =
      if accWin (4 * n) ≤ a ∧ a < accWin (4 * n + 4) then Tab.get 0 (d.core n).savedAcc a else rdByte d.mem a := by
  have hgraft := get_graft 0 (fun a => accWin (4 * n) ≤ a && a < accWin (4 * n + 4)) d.mem (d.core n).savedAcc hwf
    (fun e he => by simpa using hacc e he) a
  simp only [Bool.and_eq_true, decide_eq_true_eq] at hgraft
  exact hgraft

end

/-! ## QUANTUM_EXPIRY -/

section
variable {s : State} {n : Nat}

theorem exec_quantumExpiry_early (h : s.dev.plat.now < (s.dev.core n).stopAt + 1000 * s.dev.cad.quantum) : exec (.quantumExpiry n) s = .next s := by
  rw [exec_quantumExpiry, execQuantumExpiry]
  exact workEvent_of_cannot _ (by simp [Nat.not_le.2 h])

theorem exec_quantumExpiry_late (hdead : s.dev.pow.dead = false) (hrun : (s.dev.core n).run = 2) (hover : (s.dev.core n).overrun = false)
    (h : (s.dev.core n).stopAt + 1000 * s.dev.cad.quantum ≤ s.dev.plat.now) :
    exec (.quantumExpiry n) s = .next { s with dev := { s.dev with
      ctr := bump s.dev.ctr (coreInst n) 0x19 1
      cores := Tab.upd {} s.dev.cores n (fun k => { k with overrun := true }) } } := by
  rw [exec_quantumExpiry, execQuantumExpiry]
  exact workEvent_of_can _ hdead (by simp [hrun, hover, h])

end

end Sys2Proof.Machine
end

