-- ==== Sys2Proof/Proofs/LiveCommands.lean ====
section
/-! PROOFS. Live streams that open and close (R365, R368, R445, R461): parts of O51. -/

namespace Sys2Proof.Machine

theorem exec_streamOpen (q r : Nat) (s : State) : exec (.streamOpen q r) s = execStreamOpen q r s := rfl
theorem exec_streamClose (q n : Nat) (s : State) : exec (.streamClose q n) s = execStreamClose q n s := rfl

/-! ## STREAM_CLOSE -/

/-- Clearing a key leaves the entries of the other keys. -/
theorem Tab.mem_clear {α : Type} [DecidableEq α] {d : α} {m : Tab α} {k : Nat} {e : Nat × α} (he : e ∈ Tab.set d m k d) : e ∈ m ∧ e.1 ≠ k := by
  induction m with
  | nil => simp [Tab.set] at he
  | cons e' m ih =>
    obtain ⟨k', v'⟩ := e'
    by_cases hk : k = k'
    · simp only [Tab.set, hk, if_true] at he
      exact (ih (hk ▸ he)).imp_left (List.mem_cons_of_mem _)
    · simp only [Tab.set, if_neg hk, ne_eq, not_true, and_false, if_false, List.mem_cons] at he
      rcases he with rfl | he
      · exact ⟨List.mem_cons_self, Ne.symm hk⟩
      · exact (ih he).imp_left (List.mem_cons_of_mem _)

section
variable {d : Dev} {n : Nat}

/-- The device of which stream `n` is gone: its slot, context and engine are free. -/
def Dev.closedStream (d : Dev) (n : Nat) (x : Stream) : Dev :=
  { d with
    cad := { d.cad with streams := Tab.set {} d.cad.streams n {}, slots := Tab.set none d.cad.slots x.slot none }
    ing := { d.ing with
      ctxs := Tab.set {} d.ing.ctxs (srContext x.record) {}
      media := d.ing.media.filter (fun m => m.sample.isSome || m.stream != n) }
    host := d.host.setOwner (0xA0 + srEngine x.record) 0 }

/-- A closing stream without a task is gone, with its engine where no other stream uses it. -/
theorem Dev.endClose_idle {cmd : Nat} (hclosing : (d.cad.stream n).closing = some cmd) (hrun : (d.cad.stream n).running = none)
    (hwait : (d.cad.stream n).waiting = none)
    (hengine : ∀ e ∈ d.cad.streams, e.1 ≠ n → e.2.opened = true → srEngine e.2.record ≠ srEngine (d.cad.stream n).record) :
    d.endClose n = (d.closedStream n (d.cad.stream n)).finish cmd stDone 0 [] := by
  have hfree : (Tab.set {} d.cad.streams n {}).any (fun x => x.2.opened && srEngine x.2.record == srEngine (d.cad.stream n).record) = false := by
    rw [List.any_eq_false]
    intro e he
    obtain ⟨hmem, hne⟩ := Tab.mem_clear he
    simpa using hengine e hmem hne
  simp only [Dev.endClose, hclosing, hrun, hwait, Option.isSome_none, Bool.or_self, Bool.false_eq_true, if_false, Dev.freeEngine, hfree]
  rfl

end

/-- Stream `n` is on its way to close, for command `cmd`. -/
def Dev.closing (d : Dev) (n cmd : Nat) : Dev := { d with cad := d.cad.updStream n (fun s => { s with closing := some cmd }) }

theorem Dev.closing_stream (d : Dev) (n cmd : Nat) : (d.closing n cmd).cad.stream n = { d.cad.stream n with closing := some cmd } :=
  (Cad.stream_updStream ..).trans (if_pos rfl)

/-- The stream that is gone leaves nothing of its close. -/
theorem Dev.closing_closedStream (d : Dev) (n cmd : Nat) :
    (d.closing n cmd).closedStream n ((d.closing n cmd).cad.stream n) = d.closedStream n (d.cad.stream n) := by
  rw [Dev.closing_stream]
  simp only [Dev.closedStream, Dev.closing, Cad.updStream, Tab.clear_upd]

section
variable {d : Dev} {n cmd : Nat} (hwait : (d.cad.stream n).waiting = none) (hdumps : ∀ y ∈ d.obs.dumps, y.stream ≠ some n)
include hwait hdumps

/-- A stream without a waiting task and without dumps begins to close. -/
theorem Dev.beginClose_eq : d.beginClose n cmd = ((d.closing n cmd).giveBack (d.cad.stream n).clusters).endClose n := by
  simp only [Dev.beginClose, hwait]
  exact congrArg (fun e => (Dev.giveBack e _).endClose n) (Dev.endDumps_none (d := d.closing n cmd) fun y hy => by simpa using hdumps y hy)

/-- With a running task it closes after it. -/
theorem Dev.beginClose_running (hopen : (d.cad.stream n).opened = true) (hrun : (d.cad.stream n).running ≠ none) :
    d.beginClose n cmd = d.closing n cmd := by
  have hstream := d.closing_stream n cmd
  rw [Dev.beginClose_eq hwait hdumps, Dev.giveBack_kept, Dev.endClose_running (by rw [hstream]; exact hrun)]
  exact fun m hm => .inr (Dev.wantsCluster_running (n := n) (by rw [hstream]; exact hopen) (by rw [hstream]; exact (mem_setCores.1 hm).2)
    (by rw [hstream]; exact hrun))

/-- Without a task, and without cores that are held, it is gone. -/
theorem Dev.beginClose_idle (hrun : (d.cad.stream n).running = none) (hcores : ∀ k ∈ setCores (d.cad.stream n).clusters, (d.core k).run ≠ 4)
    (hengine : ∀ e ∈ d.cad.streams, e.1 ≠ n → e.2.opened = true → srEngine e.2.record ≠ srEngine (d.cad.stream n).record) :
    d.beginClose n cmd = (d.closedStream n (d.cad.stream n)).finish cmd stDone 0 [] := by
  have hstream := d.closing_stream n cmd
  have hkept : (d.closing n cmd).giveBack (d.cad.stream n).clusters = d.closing n cmd := Dev.giveBack_kept fun m hm => .inl (hcores m hm)
  have hother : ∀ e ∈ (d.closing n cmd).cad.streams, e.1 ≠ n → e.2.opened = true →
      srEngine e.2.record ≠ srEngine ((d.closing n cmd).cad.stream n).record := by
    intro e he hne hopen
    rw [hstream]
    rcases Tab.mem_set he with rfl | hmem
    · exact absurd rfl hne
    · exact hengine e hmem hne hopen
  rw [Dev.beginClose_eq hwait hdumps, hkept, Dev.endClose_idle (by rw [hstream]) (by rw [hstream]; exact hrun) (by rw [hstream]; exact hwait) hother,
    Dev.closing_closedStream]

end

/-- A stream goes alike on a begun device. -/
theorem Dev.Replied.closedStream (d : Dev) (q : Nat) (p : Packet) (n : Nat) (x : Stream) :
    (d.closedStream n x).Replied ((d.begin_ q p).1.closedStream n x) :=
  ((Dev.Replied.begunCad d q p fun c => { c with streams := Tab.set {} c.streams n {}, slots := Tab.set none c.slots x.slot none }).updIng fun g =>
    { g with
      ctxs := Tab.set {} g.ctxs (srContext x.record) {}
      media := g.media.filter (fun m => m.sample.isSome || m.stream != n) }).setOwner _ _

/-! ## STREAM_OPEN -/

/-- Clocks set afresh on devices that differ by replies. -/
theorem Dev.commandRail_quiet (d : Dev) (g : Nat) : (d.commandRail g).quiet = d.quiet.commandRail g := by
  have htarget : d.quiet.railTarget g = d.railTarget g := rfl
  unfold Dev.commandRail
  rw [htarget]
  dsimp only
  split
  · next h => exact (if_pos h).symm
  · next h => exact (if_neg h).symm

theorem Dev.clockOf_quiet (d : Dev) (id : Nat) : d.quiet.clockOf id = d.clockOf id := by
  have hmax : ∀ id, d.quiet.fMax id = d.fMax id := fun _ => rfl
  have hwant : ∀ id, d.quiet.wantClock id = d.wantClock id := fun _ => rfl
  have hcluster : ∀ id, d.quiet.clusterClock id = d.clusterClock id := fun id => by
    simp only [Dev.clusterClock, hwant]
    rfl
  have hfabric : ∀ p, d.quiet.fabricClock p = d.fabricClock p := fun p => by
    simp only [Dev.fabricClock, hcluster, hmax]
    rfl
  simp only [Dev.clockOf, hcluster, hfabric, hmax]
  rfl

/-- The clocks of the domains, once voltages are commanded. -/
def Dev.setClocks (d : Dev) : Dev :=
  let doms := d.pow.doms.map (fun e => (e.1, if 2 ≤ e.2.st && e.2.st ≤ 4 then { e.2 with freq := d.clockOf e.1 } else e.2))
  { d with pow := { d.pow with doms := doms }, cad := d.cad.markSlow doms }

theorem Dev.reclock_rails (d : Dev) : d.reclock = ([0, 1, 2, 3, 4].foldl (fun d g => d.commandRail g) d).setClocks := rfl

theorem Dev.setClocks_quiet (d : Dev) : d.setClocks.quiet = d.quiet.setClocks := by
  simp only [Dev.setClocks, Dev.clockOf_quiet]
  rfl

theorem Dev.reclock_quiet (d : Dev) : d.reclock.quiet = d.quiet.reclock := by
  rw [Dev.reclock_rails, Dev.reclock_rails, Dev.setClocks_quiet]
  simp only [List.foldl_cons, List.foldl_nil, Dev.commandRail_quiet]

section
variable (d : Dev)

theorem Dev.reclock_host : d.reclock.host = d.host := by
  obtain ⟨w, doms, -, -, heq⟩ := d.reclock_eq
  rw [heq]

theorem Dev.reclock_mem : d.reclock.mem = d.mem := by
  obtain ⟨w, doms, -, -, heq⟩ := d.reclock_eq
  rw [heq]

theorem Dev.reclock_ctr : d.reclock.ctr = d.ctr := by
  obtain ⟨w, doms, -, -, heq⟩ := d.reclock_eq
  rw [heq]

theorem Dev.reclock_obs : d.reclock.obs = d.obs := by
  obtain ⟨w, doms, -, -, heq⟩ := d.reclock_eq
  rw [heq]

end

theorem Dev.haltUntil_quiet (d : Dev) (ts : List (Nat × Nat × List Nat)) (t fixed e : Q) (f : Nat) (ks : List Nat) :
    ∀ set hs, d.quiet.haltUntil ts t fixed e f ks set hs = d.haltUntil ts t fixed e f ks set hs := by
  induction ks with
  | nil => exact fun _ _ => rfl
  | cons k ks ih =>
    intro set hs
    have hfits : d.quiet.planFits ts t fixed e set f = d.planFits ts t fixed e set f := rfl
    simp only [Dev.haltUntil, ih, hfits]

section
variable {a b : Dev} (h : a.Replied b)
include h

theorem Dev.Replied.reclock : a.reclock.Replied b.reclock :=
  h.map Dev.reclock Dev.reclock_quiet Dev.reclock_host Dev.reclock_mem Dev.reclock_ctr Dev.reclock_obs

theorem Dev.Replied.setOp (op : Nat) (floorRun : Bool) : (a.setOp op floorRun).Replied (b.setOp op floorRun) :=
  h.map (·.setOp op floorRun) (fun _ => rfl) (fun _ => rfl) (fun _ => rfl) (fun _ => rfl) fun _ => rfl

theorem Dev.Replied.halt (k : Nat) : (a.halt k).Replied (b.halt k) where
  quiet := by
    have hq : ∀ d : Dev, (d.halt k).quiet = { d.quiet.halt k with ctr := [] } := fun _ => rfl
    rw [hq, hq, h.quiet]
  setup := h.setup
  mem := h.mem
  ctr n hn := by
    have hkey : Tab.get 0 b.ctr (cobInst * 256 + 0x62) = Tab.get 0 a.ctr (cobInst * 256 + 0x62) := h.ctr _ (by decide)
    simp only [Dev.halt, bump, Tab.get_set, hkey, h.ctr n hn]
  bufs := h.bufs

theorem Dev.Replied.haltAll (ks : List Nat) : (ks.foldl (fun d k => d.halt k) a).Replied (ks.foldl (fun d k => d.halt k) b) := by
  induction ks generalizing a b with
  | nil => exact h
  | cons k ks ih => exact ih (h.halt k)

/-- The floor of the training clocks rises alike on devices that differ by replies. -/
theorem Dev.Replied.raiseFloor (was : Nat) : (a.raiseFloor was).Replied (b.raiseFloor was) := by
  have hfloor : b.fFloor = a.fFloor := show b.quiet.fFloor = a.quiet.fFloor by rw [h.quiet]
  have hrest : b.restOfBeat = a.restOfBeat := show b.quiet.restOfBeat = a.quiet.restOfBeat by rw [h.quiet]
  have htasks : b.beatTasks = a.beatTasks := show b.quiet.beatTasks = a.quiet.beatTasks by rw [h.quiet]
  have hset : b.trainSet = a.trainSet := show b.quiet.trainSet = a.quiet.trainSet by rw [h.quiet]
  have huntil : b.haltUntil = a.haltUntil := by
    funext ts t fixed e f ks set hs
    rw [← Dev.haltUntil_quiet b, h.quiet, Dev.haltUntil_quiet]
  unfold Dev.raiseFloor
  rw [hfloor, h.pow, hrest, htasks, hset, huntil]
  split
  · exact h
  · exact ((h.haltAll _).setOp 0 true).reclock

end

/-- A raised floor leaves slots and beats. -/
theorem Dev.raiseFloor_planned (d : Dev) (was : Nat) : d.KeepsPlanned (d.raiseFloor was) := by
  unfold Dev.raiseFloor
  split
  · exact .refl d
  · exact (Dev.KeepsPlanned.foldl .halt _ d).trans ((Dev.KeepsPlanned.setOp ..).trans (.of_reclocked (Dev.reclock_reclocked _)))

/-- A stream opens alike on a begun device. -/
theorem Dev.Replied.openStream (d : Dev) (q : Nat) (p : Packet) (port r n slot : Nat) :
    (d.openStream port r n slot).Replied ((d.begin_ q p).1.openStream port r n slot) := by
  have hset : (d.begin_ q p).1.clusterSet r = d.clusterSet r :=
    show (d.begin_ q p).1.quiet.clusterSet r = d.quiet.clusterSet r by rw [(d.begin__replied q p).quiet]
  rw [Dev.openStream, Dev.openStream, hset]
  exact ((Dev.Replied.begunCad d q p fun c => { c with
      streams := Tab.set {} c.streams n { opened := true, port := port, record := r, slot := slot, order := c.nextOrder, clusters := d.clusterSet r }
      slots := Tab.set none c.slots slot (some { record := releaseSlot r n port, owner := port + 1, nextBeat := srBeat0 r })
      nextOrder := c.nextOrder + 1 }).updIng fun g => { g with
    ctxs := Tab.set {} g.ctxs (srContext r) { inUse := true, bytes := contextBytes r, width := srW r, height := srH r } }).setOwner _ _

/-- The slot of a stream that has just opened fires later. -/
theorem Dev.openStream_slotLater {d : Dev} {port r n slot was : Nat} (hbeat : d.cad.beat < srBeat0 r) :
    ((d.openStream port r n slot).raiseFloor was).slotWritten slot = (d.openStream port r n slot).raiseFloor was := by
  have hcad := ((d.openStream port r n slot).raiseFloor_planned was).cad
  have hslots : ((d.openStream port r n slot).raiseFloor was).cad.slots = (d.openStream port r n slot).cad.slots := (congrArg Cad.slots hcad :)
  have hnow : ((d.openStream port r n slot).raiseFloor was).cad.beat = d.cad.beat := (congrArg Cad.beat hcad :)
  refine Dev.slotWritten_later (x := { record := releaseSlot r n port, owner := port + 1, nextBeat := srBeat0 r }) ?_ ?_
  · rw [hslots]
    exact Tab.get_set_same ..
  · rw [hnow]
    exact hbeat

/-! ## Outcomes -/

section
variable {s : State} {q : Nat} {f : PacketForm} {p : Packet}

theorem exec_streamOpen_refused {r : Nat} (h : s.Admits (.streamOpen q r) f p)
    (hbad : s.dev.streamOk r = false ∨ s.dev.openRefusal (q / 8) r ≠ none) : Res.Becomes s s.dev (exec (.streamOpen q r) s) := by
  cases h.form
  rw [exec_streamOpen, execStreamOpen]
  exact h.refusedBy (hbad.imp (fun hok => by simp [hok]) id)

/-- STREAM_OPEN takes the lowest free stream and slot. -/
theorem exec_streamOpen_opens {r n m : Nat} (h : s.Admits (.streamOpen q r) f p) (hok : s.dev.streamOk r = true)
    (hown : s.dev.openRefusal (q / 8) r = none) (hbeat : s.dev.cad.beat < srBeat0 r) (hstream : s.dev.cad.freeStream = some n)
    (hslot : s.dev.cad.freeSlot = some m) :
    Res.Becomes s ((s.dev.openStream (q / 8) r n m).raiseFloor s.dev.fFloor) (exec (.streamOpen q r) s) := by
  cases h.form
  have hfloor : (s.dev.begin_ q p).1.fFloor = s.dev.fFloor :=
    show (s.dev.begin_ q p).1.quiet.fFloor = s.dev.quiet.fFloor by rw [(s.dev.begin__replied q p).quiet]
  rw [exec_streamOpen, execStreamOpen]
  refine h.becomes rfl ⟨by simp [hok], hown, rfl⟩ ?_
  dsimp only
  rw [Dev.begun_cad, hstream, hslot, Option.getD_some, Option.getD_some, hfloor, Dev.openStream_slotLater (by rw [Dev.begun_cad]; exact hbeat)]
  exact ((Dev.Replied.openStream ..).raiseFloor _).trans (Dev.finish_replied ..)

section
variable {n : Nat} (h : s.Admits (.streamClose q n) f p)
include h

theorem exec_streamClose_other (hport : (s.dev.cad.stream n).port ≠ q / 8) : Res.Becomes s s.dev (exec (.streamClose q n) s) := by
  cases h.form
  rw [exec_streamClose, execStreamClose]
  exact h.refusedBy (.inr (by simp [hport]))

section
variable (hopen : (s.dev.cad.stream n).opened = true) (hclosing : (s.dev.cad.stream n).closing = none)
  (hwait : (s.dev.cad.stream n).waiting = none) (hport : (s.dev.cad.stream n).port = q / 8)
  (hdumps : ∀ y ∈ s.dev.obs.dumps, y.stream ≠ some n)
include hopen hclosing hwait hport hdumps

/-- STREAM_CLOSE of a stream with a running task. -/
theorem exec_streamClose_running (hrun : (s.dev.cad.stream n).running ≠ none) :
    Res.Becomes s (s.dev.closing n s.dev.host.nextCmd) (exec (.streamClose q n) s) := by
  cases h.form
  rw [exec_streamClose, execStreamClose]
  refine h.becomes rfl ⟨by simp [hopen, hclosing], by simp [hport], rfl⟩ ?_
  have hbegun : (s.dev.begin_ q p).1.cad.stream n = s.dev.cad.stream n := by rw [Dev.begun_cad]
  dsimp only
  rw [Dev.beginClose_running (by rw [hbegun]; exact hwait) (by rw [(s.dev.begin__replied q p).dumps]; exact hdumps) (by rw [hbegun]; exact hopen)
    (by rw [hbegun]; exact hrun), Dev.begin_id]
  exact Dev.Replied.begunCad s.dev q p (·.updStream n fun x => { x with closing := some s.dev.host.nextCmd })

/-- STREAM_CLOSE of a stream without a task, whose cores are not held. -/
theorem exec_streamClose_idle (hrun : (s.dev.cad.stream n).running = none)
    (hcores : ∀ k ∈ setCores (s.dev.cad.stream n).clusters, (s.dev.core k).run ≠ 4)
    (hengine : ∀ e ∈ s.dev.cad.streams, e.1 ≠ n → e.2.opened = true → srEngine e.2.record ≠ srEngine (s.dev.cad.stream n).record) :
    Res.Becomes s (s.dev.closedStream n (s.dev.cad.stream n)) (exec (.streamClose q n) s) := by
  cases h.form
  rw [exec_streamClose, execStreamClose]
  refine h.becomes rfl ⟨by simp [hopen, hclosing], by simp [hport], rfl⟩ ?_
  have hcore : ∀ k, (s.dev.begin_ q p).1.core k = s.dev.core k := fun k => by rw [Dev.core, (s.dev.begin__replied q p).cores, Dev.core]
  dsimp only
  rw [Dev.beginClose_idle (by rw [Dev.begun_cad]; exact hwait) (by rw [(s.dev.begin__replied q p).dumps]; exact hdumps)
    (by rw [Dev.begun_cad]; exact hrun) (by simp only [Dev.begun_cad, hcore]; exact hcores) (by rw [Dev.begun_cad]; exact hengine), Dev.begun_cad]
  exact (Dev.Replied.closedStream s.dev q p n _).trans (Dev.finish_replied ..)

end

end

end

end Sys2Proof.Machine
end

