-- ==== Sys2Proof/Proofs/LiveStart.lean ====
section
/-! PROOFS. Live tasks that start on the cores of their set (R107, R195, R364 to R367, R377): a part of O51. -/

namespace Sys2Proof.Machine

theorem exec_liveTaskStart (n : Nat) (s : State) : exec (.liveTaskStart n) s = execLiveTaskStart n s := rfl

/-! ## What leaves streams, cores and plans -/

/-- From device `a` to `b` streams, cores, plans and time are as they were. -/
structure Dev.KeepsLive (a b : Dev) : Prop where
  streams : b.cad.streams = a.cad.streams
  cores : b.cores = a.cores
  plans : b.plans = a.plans
  now : b.plat.now = a.plat.now

namespace Dev.KeepsLive

theorem refl (d : Dev) : d.KeepsLive d := ⟨rfl, rfl, rfl, rfl⟩

theorem trans {a b c : Dev} (h : a.KeepsLive b) (h' : b.KeepsLive c) : a.KeepsLive c :=
  ⟨h'.streams.trans h.streams, h'.cores.trans h.cores, h'.plans.trans h.plans, h'.now.trans h.now⟩

theorem foldl {γ : Type} {f : Dev → γ → Dev} (hf : ∀ (e : Dev) c, e.KeepsLive (f e c)) (l : List γ) (d : Dev) : d.KeepsLive (l.foldl f d) :=
  foldl_keeps d.KeepsLive f (fun e c he => he.trans (hf e c)) l d (refl d)

/-- A fold that carries a status beside the device. -/
theorem foldl_status {γ : Type} {f : Prepared → γ → Prepared} (hf : ∀ (x : Prepared) c, x.1.KeepsLive (f x c).1) (l : List γ) (x : Prepared) :
    x.1.KeepsLive (l.foldl f x).1 :=
  foldl_keeps (fun y : Prepared => x.1.KeepsLive y.1) f (fun y c hy => hy.trans (hf y c)) l x (refl x.1)

theorem of_replied {a b : Dev} (h : a.Replied b) : a.KeepsLive b := ⟨h.streams, h.cores, h.plans, congrArg Plat.now h.plat⟩

section
variable {a b : Dev} (h : a.KeepsLive b)
include h

theorem stream (n : Nat) : b.cad.stream n = a.cad.stream n := Cad.stream_congr h.streams n

theorem core (n : Nat) : b.core n = a.core n := by rw [Dev.core, h.cores, Dev.core]

theorem plan (n : Nat) : b.plan n = a.plan n := Dev.plan_congr h.plans n

end

theorem storeNat (d : Dev) (a n v : Nat) : d.KeepsLive (d.storeNat a n v) := ⟨rfl, rfl, rfl, rfl⟩

theorem updPod (d : Dev) (k : Nat) (f : Pod → Pod) : d.KeepsLive (d.updPod k f) := ⟨rfl, rfl, rfl, rfl⟩

theorem count (d : Dev) (inst kind n : Nat) : d.KeepsLive (d.count inst kind n) := ⟨rfl, rfl, rfl, rfl⟩

theorem storeAll {γ : Type} (a v : Dev → γ → Nat) (l : List γ) (d : Dev) : d.KeepsLive (l.foldl (fun e i => e.storeNat (a e i) 8 (v e i)) d) :=
  foldl (fun _ _ => storeNat ..) l d

/-- The log of parity errors takes no time. -/
theorem logReads_now (p : Plat) (unit die descId : Nat) (cmd : Option Cmd) (errs : List Nat) :
    (p.logReads unit die descId cmd errs).now = p.now := by
  unfold Plat.logReads
  refine foldl_keeps (fun q : Plat => q.now = p.now) _ (fun q e hq => ?_) _ p rfl
  unfold Plat.log
  split <;> exact hq

theorem absorbUnit (d : Dev) (inst unit die : Nat) (cmd : Option Cmd) (w : Wk) : d.KeepsLive (d.absorbUnit inst unit die cmd w) := by
  unfold Dev.absorbUnit
  refine .trans ?_ (foldl (fun e a => of_replied (Dev.trace_replied ..)) _ _)
  exact ⟨rfl, rfl, rfl, logReads_now ..⟩

theorem rowAddrs (d : Dev) (p : Plan) (w : SeqWrite) (base first last : Nat) : d.KeepsLive (d.rowAddrs p w base first last) := storeAll ..

theorem prepare (d : Dev) (p : Plan) (key base frame : Nat) (cmd : Option Cmd) : d.KeepsLive (d.prepare p key base frame cmd).1 := by
  unfold Dev.prepare
  refine foldl_status (fun x w => ?_) _ (d, 0)
  dsimp only
  split
  · exact refl _
  · split
    · exact (updPod ..).trans ((absorbUnit ..).trans (count ..))
    · exact (updPod ..).trans ((absorbUnit ..).trans ((count ..).trans (rowAddrs ..)))

theorem privWrite (d : Dev) (x : Pod) (key t pt : Nat) : d.KeepsLive (d.privWrite x key t pt) := (storeAll ..).trans (storeAll ..)

theorem openPod (d : Dev) (p : Plan) (key base pod : Nat) : d.KeepsLive (d.openPod p key base pod).1 :=
  (updPod ..).trans (foldl (fun _ _ => privWrite ..) _ _)

theorem openWork (d : Dev) (p : Plan) (key base frame : Nat) (cmd : Option Cmd) : d.KeepsLive (d.openWork p key base frame cmd).1 := by
  unfold Dev.openWork
  dsimp only
  split
  · exact prepare ..
  · refine (prepare ..).trans (foldl_status (fun x pod => ?_) _ _)
    split
    · exact refl _
    · exact openPod ..

theorem finishAll (l : List Dump) (status detail : Nat) (d : Dev) : d.KeepsLive (l.foldl (fun d x => d.finish x.cmd status detail []) d) :=
  foldl (fun _ _ => of_replied (Dev.finish_replied ..)) l d

theorem retryDumps (d : Dev) (n : Nat) : d.KeepsLive (d.retryDumps n) := by
  unfold Dev.retryDumps
  dsimp only
  refine trans ?_ (finishAll ..)
  exact ⟨rfl, rfl, rfl, rfl⟩

end Dev.KeepsLive

/-! ## The cores of a set are asked to stop -/

/-- A core that is idle or free stops at once. -/
theorem Dev.preempt_free {d : Dev} {m : Nat} (hrun : (d.core m).run = 0 ∨ (d.core m).run = 4) : ∃ cores, d.preempt m = { d with cores := cores } ∧
    (Tab.get {} cores m).run = 4 ∧ (Tab.get {} cores m).ctx = (d.core m).ctx ∧ ∀ j, j ≠ m → Tab.get {} cores j = d.core j := by
  unfold Dev.preempt
  dsimp only
  rcases hrun with hrun | hrun
  · rw [if_neg (by simp [hrun]), if_pos (.inl hrun)]
    refine ⟨_, rfl, ?_, ?_, fun j hj => (Tab.get_upd ..).trans (if_neg hj)⟩ <;> simp [Tab.get_upd, Dev.core]
  · rw [if_neg (by simp [hrun]), if_neg (by simp [hrun])]
    exact ⟨d.cores, rfl, hrun, rfl, fun _ _ => rfl⟩

/-- Idle cores of a set are free once they are asked to stop. -/
theorem Dev.preemptAll_free (l : List Nat) : ∀ d : Dev, (∀ m ∈ l, ((d.core m).run = 0 ∨ (d.core m).run = 4) ∧ (d.core m).ctx = none) →
    ∃ cores, l.foldl Dev.preempt d = { d with cores := cores } ∧
      (∀ m ∈ l, (Tab.get {} cores m).run = 4 ∧ (Tab.get {} cores m).ctx = none) ∧ ∀ j, j ∉ l → Tab.get {} cores j = d.core j := by
  induction l with
  | nil => exact fun d _ => ⟨d.cores, rfl, fun m hm => absurd hm List.not_mem_nil, fun _ _ => rfl⟩
  | cons k l ih =>
    intro d hidle
    obtain ⟨hrun, hctx⟩ := hidle k List.mem_cons_self
    obtain ⟨cores, heq, hfree, hkept, hother⟩ := Dev.preempt_free hrun
    have hrest : ∀ m ∈ l, ((({ d with cores := cores } : Dev).core m).run = 0 ∨ (({ d with cores := cores } : Dev).core m).run = 4) ∧
        (({ d with cores := cores } : Dev).core m).ctx = none := by
      intro m hm
      by_cases hmk : m = k
      · subst hmk
        exact ⟨.inr hfree, hkept.trans hctx⟩
      · rw [show ({ d with cores := cores } : Dev).core m = d.core m from hother m hmk]
        exact hidle m (List.mem_cons_of_mem _ hm)
    obtain ⟨cores', heq', hfree', hother'⟩ := ih _ hrest
    refine ⟨cores', by rw [List.foldl_cons, heq, heq'], fun m hm => ?_, fun j hj => ?_⟩
    · by_cases hml : m ∈ l
      · exact hfree' m hml
      · obtain rfl := (List.mem_cons.1 hm).resolve_right hml
        rw [hother' m hml]
        exact ⟨hfree, hkept.trans hctx⟩
    · rw [hother' j fun hjl => hj (List.mem_cons_of_mem _ hjl)]
      exact hother j fun hjk => hj (hjk ▸ List.mem_cons_self)

/-! ## A task that runs on its set (R107, R366) -/

/-- The running task of stream `n` runs from now on. -/
def Dev.markRun (d : Dev) (n : Nat) : Dev := d.updTask n (fun t => { t with runAt := some d.plat.now })

theorem Dev.markRun_stream (d : Dev) (m j : Nat) : (d.markRun m).cad.stream j = if j = m then
    { d.cad.stream m with running := (d.cad.stream m).running.map (fun t => { t with runAt := some d.plat.now }) } else d.cad.stream j :=
  Cad.stream_updStream ..

/-- The context in which a declared stream of a live plan starts. -/
def Stream.liveCtx (x : Stream) (n : Nat) (t : Task) (y : StreamDecl) : Ctx :=
  { plan := srPlan x.record, live := true, stream := n, step := frameBeat x.record t.frame, seed := srSeed x.record, off := y.off }

/-- A declared stream starts on its core where that is of the set. -/
def Dev.startLive (d : Dev) (set : List Nat) (c : StreamDecl → Ctx) (y : StreamDecl) : Dev :=
  if set.contains (12 * y.pod + y.core / 4) then d.updCore (48 * y.pod + y.core) (fun k => { k with ctx := some (c y) }) else d

theorem Dev.launch_eq {d : Dev} {n : Nat} {t : Task} (hrun : (d.cad.stream n).running = some t) : d.launch n =
    if t.startedAt.isNone || t.runAt.isSome || t.bad != 0 || t.dropped || !d.setFree (d.cad.stream n).clusters then d
    else (((d.plan (srPlan (d.cad.stream n).record)).streams.foldl
      (fun e y => e.startLive (d.cad.stream n).clusters ((d.cad.stream n).liveCtx n t) y)
      (d.markRun n)).retryDumps n) := by
  simp only [Dev.launch, hrun]
  rfl

/-- The cluster of a declared stream's core. -/
theorem cluster_of_decl (pod core : Nat) : 12 * ((48 * pod + core) / 48) + (48 * pod + core) % 48 / 4 = 12 * pod + core / 4 := by
  omega

/-- From device `d` to `e` streams of a plan have started on cores of a set: no core's state has changed, and no core outside the set. -/
def Dev.StartsOn (d : Dev) (set : List Nat) (e : Dev) : Prop :=
  ∃ cores, e = { d with cores := cores } ∧ (∀ j, (Tab.get {} cores j).run = (d.core j).run) ∧
    ∀ j, 12 * (j / 48) + j % 48 / 4 ∉ set → Tab.get {} cores j = d.core j

section
variable {d : Dev} {set : List Nat} (c : StreamDecl → Ctx)

theorem Dev.StartsOn.step {e : Dev} (h : d.StartsOn set e) (y : StreamDecl) : d.StartsOn set (e.startLive set c y) := by
  obtain ⟨cores, rfl, hrun, hother⟩ := h
  unfold Dev.startLive
  split
  · next hset =>
    refine ⟨_, rfl, fun j => ?_, fun j hj => ?_⟩
    · rw [Tab.get_upd]
      split
      · next hjy =>
        subst hjy
        exact hrun _
      · exact hrun j
    · rw [Tab.get_upd, if_neg, hother j hj]
      rintro rfl
      rw [cluster_of_decl] at hj
      exact hj (List.contains_iff_mem.1 hset)
  · exact ⟨cores, rfl, hrun, hother⟩

theorem Dev.startsOn_all (l : List StreamDecl) : d.StartsOn set (l.foldl (fun e y => e.startLive set c y) d) :=
  foldl_keeps _ _ (fun _ y h => h.step c y) l d ⟨d.cores, rfl, fun _ => rfl, fun _ _ => rfl⟩

/-- A core that runs one of the contexts goes on to do so as more streams start. -/
theorem Dev.startLive_ctx {e : Dev} {j : Nat} (h : ∃ y, (e.core j).ctx = some (c y)) (y : StreamDecl) :
    ∃ z, ((e.startLive set c y).core j).ctx = some (c z) := by
  unfold Dev.startLive
  split
  · rw [Dev.core_updCore]
    split
    · exact ⟨y, rfl⟩
    · exact h
  · exact h

/-- Every declared stream's core of the set runs one of the contexts. -/
theorem Dev.startLive_all {y : StreamDecl} (hset : 12 * y.pod + y.core / 4 ∈ set) : ∀ (l : List StreamDecl) (e : Dev), y ∈ l →
    ∃ z, ((l.foldl (fun e y => e.startLive set c y) e).core (48 * y.pod + y.core)).ctx = some (c z) := by
  intro l
  induction l with
  | nil => exact fun _ hy => absurd hy List.not_mem_nil
  | cons w l ih =>
    intro e hy
    rcases List.mem_cons.1 hy with rfl | hy
    · refine foldl_keeps (fun e : Dev => ∃ z, (e.core (48 * y.pod + y.core)).ctx = some (c z)) _ (fun _ w h => Dev.startLive_ctx c h w) l _ ⟨y, ?_⟩
      dsimp only [Dev.startLive]
      rw [if_pos (List.contains_iff_mem.2 hset), Dev.core_updCore, if_pos rfl]
    · exact ih _ hy

end

/-- What a task that starts on its set meets while started tasks are launched: the time, its plan, its stream, and no other running task on
its clusters. -/
structure Dev.Launches (n : Nat) (x : Stream) (k : Plan) (now : Nat) (d : Dev) : Prop where
  time : d.plat.now = now
  plan : d.plan (srPlan x.record) = k
  record : (d.cad.stream n).record = x.record
  clusters : (d.cad.stream n).clusters = x.clusters
  waiting : (d.cad.stream n).waiting = none
  apart : ∀ m, m ≠ n → (d.cad.stream m).running ≠ none → ∀ c ∈ (d.cad.stream m).clusters, c ∉ x.clusters

/-- The task of frame `frame` that has started on stream `n`, and that runs since `at_`. -/
def Dev.HasTask (n frame now : Nat) (at_ : Option Nat) (d : Dev) : Prop :=
  ∃ v, (d.cad.stream n).running = some v ∧ v.frame = frame ∧ v.startedAt = some now ∧ v.runAt = at_ ∧ v.bad = 0 ∧ v.dropped = false

/-- It waits, and its set is free. -/
structure Dev.Waits (n : Nat) (x : Stream) (k : Plan) (frame now : Nat) (d : Dev) : Prop where
  launches : d.Launches n x k now
  task : d.HasTask n frame now none
  free : ∀ m ∈ setCores x.clusters, (d.core m).run = 4 ∧ (d.core m).ctx = none

/-- It runs: every core of its set is the task's, and those of its plan's streams have their contexts. -/
structure Dev.Runs (n : Nat) (x : Stream) (k : Plan) (frame now : Nat) (d : Dev) : Prop where
  launches : d.Launches n x k now
  task : d.HasTask n frame now (some now)
  held : ∀ m ∈ setCores x.clusters, (d.core m).run = 4
  streams : ∀ y ∈ k.streams, 48 * y.pod + y.core ∈ setCores x.clusters →
    ∃ z : Ctx, (d.core (48 * y.pod + y.core)).ctx = some z ∧ z.live = true ∧ z.stream = n

section
variable {d : Dev} {n : Nat} {x : Stream} {k : Plan} {frame now : Nat}

/-- A launch marks the task's start, starts its streams on its set, and moves dumps on. -/
theorem Dev.launch_frame {m : Nat} {t : Task} (hrun : (d.cad.stream m).running = some t) : d.launch m = d ∨
    ∃ e, (d.markRun m).StartsOn (d.cad.stream m).clusters e ∧ e.KeepsLive (d.launch m) := by
  rw [Dev.launch_eq hrun]
  split
  · exact .inl rfl
  · exact .inr ⟨_, Dev.startsOn_all .., .retryDumps ..⟩

/-- The launch of another stream's task leaves this one's stream and cores. -/
theorem Dev.Launches.other (h : d.Launches n x k now) {m : Nat} (hm : m ≠ n) : (d.launch m).Launches n x k now ∧
    (d.launch m).cad.stream n = d.cad.stream n ∧ ∀ j ∈ setCores x.clusters, (d.launch m).core j = d.core j := by
  cases hrun : (d.cad.stream m).running with
  | none =>
    have hstay : d.launch m = d := Dev.launch_stays fun u hu => by simp [hrun] at hu
    rw [hstay]
    exact ⟨h, rfl, fun _ _ => rfl⟩
  | some t =>
    rcases Dev.launch_frame hrun with hstay | ⟨_, ⟨cores, rfl, -, hcores⟩, hkeeps⟩
    · rw [hstay]
      exact ⟨h, rfl, fun _ _ => rfl⟩
    · have hstream : ∀ j, (d.launch m).cad.stream j = (d.markRun m).cad.stream j := hkeeps.stream
      have hn : (d.launch m).cad.stream n = d.cad.stream n := by rw [hstream, Dev.markRun_stream, if_neg (Ne.symm hm)]
      have hapart := h.apart m hm (by simp [hrun])
      refine ⟨⟨hkeeps.now.trans h.time, (hkeeps.plan _).trans h.plan, by rw [hn, h.record], by rw [hn, h.clusters], by rw [hn, h.waiting],
        fun j hj hruns => ?_⟩, hn, fun j hj => ?_⟩
      · rw [hstream, Dev.markRun_stream] at hruns ⊢
        split
        · exact hapart
        · next hjm =>
          rw [if_neg hjm] at hruns
          exact h.apart j hj hruns
      · exact (hkeeps.core j).trans (hcores j fun hmem => hapart _ hmem (mem_setCores.1 hj).2)

/-- A free set's task is launched. -/
theorem Dev.Waits.launch (h : d.Waits n x k frame now) : (d.launch n).Runs n x k frame now := by
  obtain ⟨hl, ⟨v, hrun, hframe, hstart, hat, hbad, hdrop⟩, hfree⟩ := h
  have hset : d.setFree (d.cad.stream n).clusters = true := by
    rw [hl.clusters]
    exact List.all_eq_true.2 fun m hm => by simp [hfree m hm]
  have hlaunch := Dev.launch_eq hrun
  rw [if_neg (by simp [hstart, hat, hbad, hdrop, hset]), hl.record, hl.clusters, hl.plan] at hlaunch
  generalize hfold : k.streams.foldl (fun e y => e.startLive x.clusters ((d.cad.stream n).liveCtx n v) y)
    (d.markRun n) = e at hlaunch
  have hstarts : (d.markRun n).StartsOn x.clusters e := hfold ▸ Dev.startsOn_all ..
  have hkeeps : e.KeepsLive (d.launch n) := hlaunch ▸ .retryDumps ..
  have hctx : ∀ y ∈ k.streams, 12 * y.pod + y.core / 4 ∈ x.clusters → ∃ z, (e.core (48 * y.pod + y.core)).ctx = some ((d.cad.stream n).liveCtx n v z) :=
    fun y hy hc => hfold ▸ Dev.startLive_all _ hc _ _ hy
  obtain ⟨cores, rfl, hcores, -⟩ := hstarts
  have hstream : ∀ j, (d.launch n).cad.stream j = (d.markRun n).cad.stream j := hkeeps.stream
  have hn : (d.launch n).cad.stream n = { d.cad.stream n with running := some { v with runAt := some now } } := by
    rw [hstream, Dev.markRun_stream, if_pos rfl, hrun, hl.time]
    rfl
  refine ⟨⟨hkeeps.now.trans hl.time, (hkeeps.plan _).trans hl.plan, by rw [hn]; exact hl.record, by rw [hn]; exact hl.clusters,
      by rw [hn]; exact hl.waiting, fun m hm hruns => ?_⟩,
    ⟨_, congrArg Stream.running hn, hframe, hstart, rfl, hbad, hdrop⟩, fun m hm => ?_, fun y hy hmem => ?_⟩
  · rw [hstream, Dev.markRun_stream, if_neg hm] at hruns ⊢
    exact hl.apart m hm hruns
  · rw [hkeeps.core]
    exact (hcores m).trans (hfree m hm).1
  · have hc := (mem_setCores.1 hmem).2
    rw [cluster_of_decl] at hc
    obtain ⟨z, hz⟩ := hctx y hy hc
    exact ⟨_, by rw [hkeeps.core, hz], rfl, rfl⟩

/-- A task that runs is not launched again. -/
theorem Dev.Runs.again (h : d.Runs n x k frame now) (m : Nat) : (d.launch m).Runs n x k frame now := by
  obtain ⟨hl, ⟨v, hrun, htask⟩, hheld, hstreams⟩ := h
  by_cases hm : m = n
  · subst hm
    have hstay : d.launch m = d := Dev.launch_stays fun u hu => by
      rw [hrun] at hu
      cases hu
      exact .inr (by simp [htask])
    rw [hstay]
    exact ⟨hl, ⟨v, hrun, htask⟩, hheld, hstreams⟩
  · obtain ⟨hlaunches, hstream, hcores⟩ := hl.other hm
    refine ⟨hlaunches, ⟨v, by rw [hstream, hrun], htask⟩, fun j hj => by rw [hcores j hj]; exact hheld j hj, fun y hy hmem => ?_⟩
    rw [hcores _ hmem]
    exact hstreams y hy hmem

theorem Dev.Waits.other (h : d.Waits n x k frame now) {m : Nat} (hm : m ≠ n) : (d.launch m).Waits n x k frame now := by
  obtain ⟨hl, ⟨v, hrun, htask⟩, hfree⟩ := h
  obtain ⟨hlaunches, hstream, hcores⟩ := hl.other hm
  exact ⟨hlaunches, ⟨v, by rw [hstream, hrun], htask⟩, fun j hj => by rw [hcores j hj]; exact hfree j hj⟩

/-- Once every started task has been launched, the waiting one runs. -/
theorem Dev.Waits.launches_all (hn : n < 16) (h : d.Waits n x k frame now) : d.launchAll.Runs n x k frame now := by
  have hgo : ∀ (l : List Nat) (e : Dev), n ∈ l → e.Waits n x k frame now → (l.foldl Dev.launch e).Runs n x k frame now := by
    intro l
    induction l with
    | nil => exact fun _ hmem => absurd hmem List.not_mem_nil
    | cons m l ih =>
      intro e hmem he
      by_cases hm : m = n
      · subst hm
        exact foldl_keeps _ _ (fun _ j hj => hj.again j) l _ he.launch
      · exact ih _ ((List.mem_cons.1 hmem).resolve_left (Ne.symm hm)) (he.other hm)
  exact hgo _ d (List.mem_range.2 hn) h

end

/-! ## The task that starts -/

/-- The task that waits is the one that is able to start. -/
theorem Stream.able_waiting {x : Stream} {t u : Task} (hable : x.able = some t) (hwait : x.waiting = some u) : t = u := by
  simp only [Stream.able, hwait] at hable
  split at hable
  · exact (Option.some.inj hable).symm
  · cases hable

/-- A task may start where nothing runs on its stream or on a stream that excludes it. -/
theorem Dev.mayStart_spec {d : Dev} {n : Nat} {u : Task} (h : d.mayStart n = true) (hwait : (d.cad.stream n).waiting = some u)
    (hclosed : ∀ m, (d.cad.stream m).opened = false → (d.cad.stream m).running = none) : (d.cad.stream n).able = some u ∧
    ∀ m, m ≠ n → (d.cad.stream m).running ≠ none → ∀ c ∈ (d.cad.stream m).clusters, c ∉ (d.cad.stream n).clusters := by
  unfold Dev.mayStart at h
  dsimp only at h
  split at h
  · cases h
  · next t hable =>
    obtain rfl := Stream.able_waiting hable hwait
    refine ⟨hable, fun m hm hruns c hc hmem => ?_⟩
    have hopen : (d.cad.stream m).opened = true := by
      by_contra hno
      exact hruns (hclosed m (Bool.eq_false_iff.2 hno))
    have hexcludes : d.excludes (d.cad.stream n) (d.cad.stream m) = true := by
      rw [Dev.excludes, Bool.or_eq_true]
      exact .inl (List.any_eq_true.2 ⟨c, hmem, List.contains_iff_mem.2 hc⟩)
    have hothers := List.all_eq_true.1 (Bool.and_eq_true_iff.1 h).2 _ (Cad.mem_streams hopen)
    simp [hm, hopen, hexcludes, hruns] at hothers

/-- Tasks of other streams are marked as having waited; nothing else of the streams changes. -/
theorem Dev.markQueued_stream (d : Dev) (n : Nat) (s : Stream) (m : Nat) :
    (∃ w, (d.markQueued n s).cad.stream m = { d.cad.stream m with waiting := w }) ∧ (m = n → (d.markQueued n s).cad.stream m = d.cad.stream m) := by
  have hstream : (d.markQueued n s).cad.stream m = if m != n && (d.cad.stream m).opened && d.excludes s (d.cad.stream m) && (d.cad.stream m).able.isSome
      then { d.cad.stream m with waiting := (d.cad.stream m).waiting.map (fun t => { t with queued := true }) } else d.cad.stream m := by
    have hmap := Tab.get_map_key {} d.cad.streams (fun i x => if i != n && x.opened && d.excludes s x && x.able.isSome
      then { x with waiting := x.waiting.map (fun t => { t with queued := true }) } else x) (fun i => by simp) m
    refine Eq.trans (congrArg (Tab.get ({} : Stream) · m) (List.map_congr_left fun e _ => ?_)) hmap
    dsimp only
    split <;> rfl
  rw [hstream]
  refine ⟨?_, fun hm => by simp [hm]⟩
  split
  · exact ⟨_, rfl⟩
  · exact ⟨(d.cad.stream m).waiting, rfl⟩

/-- Task `t` runs on stream `n`, and the tasks that it runs ahead of are marked. -/
def Dev.runTask (d : Dev) (n : Nat) (x : Stream) (t : Task) : Dev :=
  { d.markQueued n x with cad := (d.markQueued n x).cad.updStream n (fun s => { s with waiting := none, running := some t }) }

/-- The device on which a task has begun, before the cores of its set are asked to stop. -/
def Dev.beginTask (d : Dev) (n : Nat) (u : Task) : Dev :=
  (d.openWork (d.plan (srPlan (d.cad.stream n).record)) n (srSeqBase (d.cad.stream n).record) u.frame none).1.runTask n (d.cad.stream n)
    { u with startedAt := some d.plat.now, bases := d.bases }

/-- A task whose plan stands and whose pages are made ready starts. -/
theorem Dev.startTask_starts {d e : Dev} {n : Nat} {u : Task} (he : d.trace 9 4 n (u.frame % 2 ^ 32) 0 0 = e)
    (hready : (e.plan (srPlan (e.cad.stream n).record)).ready = true) (hvalid : (e.plan (srPlan (e.cad.stream n).record)).valid = true)
    (hwork : (e.openWork (e.plan (srPlan (e.cad.stream n).record)) n (srSeqBase (e.cad.stream n).record) u.frame none).2 = 0) :
    d.startTask n u = ((setCores (e.cad.stream n).clusters).foldl Dev.preempt (e.beginTask n u)).reclock.launchAll := by
  simp only [Dev.startTask, he, hready, hvalid, Bool.not_true, Bool.or_self, Bool.false_eq_true, if_false, hwork, ne_eq, not_true]
  rfl

section
variable {d : Dev} {n : Nat} {u : Task}

/-- The stream of a task that runs; other streams are as they were but for the mark that their tasks have waited. -/
theorem Dev.runTask_stream (d : Dev) (n : Nat) (x : Stream) (t : Task) :
    (d.runTask n x t).cad.stream n = { d.cad.stream n with waiting := none, running := some t } ∧
    ∀ m, m ≠ n → ∃ w, (d.runTask n x t).cad.stream m = { d.cad.stream m with waiting := w } := by
  refine ⟨?_, fun m hm => ?_⟩
  · refine (Cad.stream_updStream ..).trans ((if_pos rfl).trans ?_)
    rw [(d.markQueued_stream n x n).2 rfl]
  · obtain ⟨w, hw⟩ := (d.markQueued_stream n x m).1
    exact ⟨w, (Cad.stream_updStream ..).trans ((if_neg hm).trans hw)⟩

theorem Dev.runTask_frame (d : Dev) (n : Nat) (x : Stream) (t : Task) : ∃ k, d.runTask n x t = { d with cad := k } := ⟨_, rfl⟩

/-- What has begun of a task: its stream runs it, and cores, plans and time are untouched. -/
theorem Dev.beginTask_spec : (d.beginTask n u).cad.stream n =
      { d.cad.stream n with waiting := none, running := some { u with startedAt := some d.plat.now, bases := d.bases } } ∧
    (∀ m, m ≠ n → ∃ w, (d.beginTask n u).cad.stream m = { d.cad.stream m with waiting := w }) ∧
    (∀ m, (d.beginTask n u).core m = d.core m) ∧ (∀ h, (d.beginTask n u).plan h = d.plan h) ∧ (d.beginTask n u).plat.now = d.plat.now := by
  have hkeeps := Dev.KeepsLive.openWork d (d.plan (srPlan (d.cad.stream n).record)) n (srSeqBase (d.cad.stream n).record) u.frame none
  unfold Dev.beginTask
  generalize (d.openWork (d.plan (srPlan (d.cad.stream n).record)) n (srSeqBase (d.cad.stream n).record) u.frame none).1 = e at *
  generalize ({ u with startedAt := some d.plat.now, bases := d.bases } : Task) = t
  obtain ⟨hstream, hothers⟩ := e.runTask_stream n (d.cad.stream n) t
  simp only [hkeeps.stream] at hstream hothers
  refine ⟨hstream, hothers, ?_⟩
  obtain ⟨k, hk⟩ := e.runTask_frame n (d.cad.stream n) t
  rw [hk]
  exact ⟨hkeeps.core, hkeeps.plan, hkeeps.now⟩

/-- Clocks set afresh leave cores, plans and time, and of a stream all but the mark of its running task. -/
theorem Dev.reclock_live (d : Dev) : (∀ m, d.reclock.core m = d.core m) ∧ (∀ h, d.reclock.plan h = d.plan h) ∧ d.reclock.plat.now = d.plat.now ∧
    ∀ m, (d.reclock.cad.stream m = d.cad.stream m ∨ ∃ t, (d.cad.stream m).running = some t ∧
      d.reclock.cad.stream m = { d.cad.stream m with running := some { t with slow := true } }) := by
  obtain ⟨w, doms, -, -, heq⟩ := d.reclock_eq
  refine ⟨fun m => by rw [heq]; rfl, fun h => by rw [heq]; rfl, by rw [heq], fun m => ?_⟩
  obtain ⟨doms, hd⟩ := d.reclock_stream m
  rw [hd]
  exact Stream.slowMark_cases doms _

/-- The task waits for its set once the cores of the set have been asked to stop. -/
theorem Dev.beginTask_waits (hbad : u.bad = 0) (hdrop : u.dropped = false) (hran : u.runAt = none)
    (hcores : ∀ m ∈ setCores (d.cad.stream n).clusters, (d.core m).run = 0 ∧ (d.core m).ctx = none)
    (hapart : ∀ m, m ≠ n → (d.cad.stream m).running ≠ none → ∀ c ∈ (d.cad.stream m).clusters, c ∉ (d.cad.stream n).clusters) :
    ((setCores (d.cad.stream n).clusters).foldl Dev.preempt (d.beginTask n u)).reclock.Waits n (d.cad.stream n)
      (d.plan (srPlan (d.cad.stream n).record)) u.frame d.plat.now := by
  obtain ⟨hstream, hothers, hcore, hplan, hnow⟩ := Dev.beginTask_spec (d := d) (n := n) (u := u)
  generalize d.beginTask n u = e at *
  obtain ⟨cores, hpreempt, hfree, -⟩ := Dev.preemptAll_free (setCores (d.cad.stream n).clusters) e fun m hm => by
    rw [hcore]
    exact ⟨.inl (hcores m hm).1, (hcores m hm).2⟩
  rw [hpreempt]
  obtain ⟨hcore', hplan', hnow', hmark⟩ := Dev.reclock_live { e with cores := cores }
  generalize ({ e with cores := cores } : Dev).reclock = g at *
  have hn : ∃ t : Task, g.cad.stream n = { d.cad.stream n with waiting := none, running := some t } ∧ t.frame = u.frame ∧
      t.startedAt = some d.plat.now ∧ t.runAt = none ∧ t.bad = 0 ∧ t.dropped = false := by
    rcases hmark n with h | ⟨t, ht, h⟩
    · exact ⟨_, h.trans hstream, rfl, rfl, hran, hbad, hdrop⟩
    · dsimp only at ht h
      rw [hstream] at ht h
      cases ht
      exact ⟨_, h, rfl, rfl, hran, hbad, hdrop⟩
  obtain ⟨t, ht, htask⟩ := hn
  refine ⟨⟨hnow'.trans hnow, (hplan' _).trans (hplan _), by rw [ht], by rw [ht], by rw [ht], fun m hm hruns => ?_⟩,
    ⟨t, congrArg Stream.running ht, htask⟩, fun m hm => by rw [hcore' m]; exact hfree m hm⟩
  obtain ⟨w, hw⟩ := hothers m hm
  rcases hmark m with h | ⟨v, hv, h⟩
  · rw [h] at hruns ⊢
    dsimp only at hruns ⊢
    rw [hw] at hruns ⊢
    exact hapart m hm hruns
  · dsimp only at hv h
    rw [hw] at hv h
    rw [h]
    exact hapart m hm (ne_of_eq_of_ne hv (Option.some_ne_none v))

end

/-- LIVE_TASK_START of a task that may start on idle cores: it runs on its set. -/
theorem exec_liveTaskStart_runs {s : State} {n : Nat} {u : Task} (hdead : s.dev.pow.dead = false)
    (hwait : (s.dev.cad.stream n).waiting = some u) (hbad : u.bad = 0) (hdrop : u.dropped = false) (hran : u.runAt = none) (hn : n < 16)
    (hstart : s.dev.mayStart n = true) (hready : (s.dev.plan (srPlan (s.dev.cad.stream n).record)).ready = true)
    (hvalid : (s.dev.plan (srPlan (s.dev.cad.stream n).record)).valid = true)
    (hwork : ((s.dev.trace 9 4 n (u.frame % 2 ^ 32) 0 0).openWork (s.dev.plan (srPlan (s.dev.cad.stream n).record)) n
      (srSeqBase (s.dev.cad.stream n).record) u.frame none).2 = 0)
    (hcores : ∀ m ∈ setCores (s.dev.cad.stream n).clusters, (s.dev.core m).run = 0 ∧ (s.dev.core m).ctx = none)
    (hclosed : ∀ m, (s.dev.cad.stream m).opened = false → (s.dev.cad.stream m).running = none) :
    ∃ e : Dev, exec (.liveTaskStart n) s = .next { s with dev := e } ∧
      e.Runs n (s.dev.cad.stream n) (s.dev.plan (srPlan (s.dev.cad.stream n).record)) u.frame s.dev.plat.now := by
  obtain ⟨hable, hapart⟩ := Dev.mayStart_spec hstart hwait hclosed
  have hstarts : s.dev.taskStarts n = some (s.dev.startTask n u) := by
    rw [Dev.taskStarts, if_pos hstart, hable, Option.map_some]
  have hkeeps := Dev.KeepsLive.of_replied (s.dev.trace_replied 9 4 n (u.frame % 2 ^ 32) 0 0)
  generalize htrace : s.dev.trace 9 4 n (u.frame % 2 ^ 32) 0 0 = e at hwork hkeeps
  have hstream := hkeeps.stream
  have hbegun := Dev.startTask_starts htrace (by rw [hstream, hkeeps.plan]; exact hready) (by rw [hstream, hkeeps.plan]; exact hvalid)
    (by rw [hstream, hkeeps.plan]; exact hwork)
  have hruns := (Dev.beginTask_waits (d := e) (n := n) hbad hdrop hran (by simp only [hstream, hkeeps.core]; exact hcores)
    (by simp only [hstream]; exact hapart)).launches_all hn
  rw [← hbegun, hstream, hkeeps.plan, hkeeps.now] at hruns
  refine ⟨_, ?_, hruns⟩
  rw [exec_liveTaskStart, execLiveTaskStart, hstarts]
  exact eventOpt_some s _ hdead

theorem exec_liveTaskStart_waits {s : State} {n : Nat} (hstart : s.dev.mayStart n = false) : exec (.liveTaskStart n) s = .next s := by
  have hstays : s.dev.taskStarts n = none := by rw [Dev.taskStarts, if_neg (by simp [hstart])]
  rw [exec_liveTaskStart, execLiveTaskStart, hstays]
  rfl

end Sys2Proof.Machine
end

