-- ==== Sys2Proof/Proofs/LiveStreams.lean ====
section
/-! PROOFS. Live streams and their tasks (R364 to R376, R461): O51. -/

namespace Sys2Proof.Machine

/-! ## Lowest free stream and slot -/

theorem Cad.freeStream_eq {c : Cad} {n : Nat} (hn : n < 16) (hfree : (c.stream n).opened = false)
    (hlow : ∀ k, k < n → (c.stream k).opened = true) : c.freeStream = some n :=
  firstIdx_lowest hn (by simp [hfree]) fun k hk => by simp [hlow k hk]

theorem Cad.freeSlot_eq {c : Cad} {n : Nat} (hn : n < 256) (hfree : Tab.get none c.slots n = none)
    (hlow : ∀ m, m < n → Tab.get none c.slots m ≠ none) : c.freeSlot = some n := Cad.lowSlot_eq hn hfree hlow

/-! ## Saved contexts -/

section
variable {d : Dev} {n : Nat} {x : Ctx}

/-- Cores that a live task wants are kept as a context is saved. -/
theorem Dev.savedCore_wanted (hlaunch : ∀ e ∈ d.cad.streams, ∀ u, e.2.running = some u → u.startedAt = none ∨ u.runAt ≠ none)
    (hwants : d.wantsCluster (12 * (n / 48) + n % 48 / 4) = true) :
    ((d.savedCore n x).giveBack [12 * (n / 48) + n % 48 / 4]).launchAll = d.savedCore n x := by
  have hkept : (d.savedCore n x).giveBack [12 * (n / 48) + n % 48 / 4] = d.savedCore n x :=
    Dev.giveBack_kept fun m hm => .inr (by rw [cluster_of_mem hm]; exact hwants)
  rw [hkept]
  exact Dev.launchAll_stays hlaunch

/-- A core that no live task wants begins to restore as soon as its context is saved. -/
theorem Dev.savedCore_unwanted (hn : n < 192) (hlaunch : ∀ e ∈ d.cad.streams, ∀ u, e.2.running = some u → u.startedAt = none ∨ u.runAt ≠ none)
    (hwants : d.wantsCluster (12 * (n / 48) + n % 48 / 4) = false) :
    (d.savedCore n x).GivesBack n { (d.savedCore n x).core n with run := 5, since := d.plat.now }
      ((d.savedCore n x).giveBack [12 * (n / 48) + n % 48 / 4]).launchAll := by
  have hcore : (d.savedCore n x).core n = _ := (Dev.core_updCore ..).trans (if_pos rfl)
  have hgives := Dev.giveBack_saved (d := d.savedCore n x) (n := n) (set := [12 * (n / 48) + n % 48 / 4]) (by rw [hcore]) (by rw [hcore]; rfl) hwants
    (mem_setCores.2 ⟨hn, List.mem_singleton.2 rfl⟩)
  rwa [Dev.launchAll_stays (by rw [Dev.giveBack_cad]; exact hlaunch)]

theorem Dev.savedCore_core : (d.savedCore n x).core n = { d.saveAcc n (d.core n) with run := 4, ctx := none, saved := some x } :=
  (Dev.core_updCore ..).trans (if_pos rfl)

end

/-- Settles O51: each command and event by its own theorem, on the stream, the task or the core that it names. -/
theorem liveStreamsRun : Obligations.LiveStreamsRun := by
  rintro s d c now rfl rfl rfl hdead
  refine ⟨fun q f p _ => ⟨fun r h => ⟨fun hbad => exec_streamOpen_refused h hbad,
        fun n m hok hown hbeat hn hfree hlow hm hslot hslots => ?opens⟩,
      fun n x h hx hopen hclosing hwait => ?close⟩,
    fun n x u k hx hwait hbad hdrop hk hstart hready hvalid hwork hcores hn hran hclosed => ?starts,
    fun n hstart => exec_liveTaskStart_waits hstart,
    fun n x hrun hctx => ⟨exec_contextSaveDone_early hrun hctx, fun hsince harrived hn hlaunch => ?saves⟩,
    fun n hrun hover => ⟨exec_quantumExpiry_early, exec_quantumExpiry_late hdead hrun hover⟩,
    fun n x hrun hsaved => ⟨exec_contextRestoreDone_early, fun hsince hloop hend => ?restores⟩,
    fun n x u hx hrun hbad hdrop => ⟨exec_liveTaskComplete_undone hbad hdrop hx hrun, fun hdone hclean => ?completes⟩,
    fun n st x u hx hrun hwait hinput hclosing => ?badInput, fun n x hx => ?deadline⟩
  case opens =>
    exact exec_streamOpen_opens h hok hown hbeat (Cad.freeStream_eq hn hfree hlow) (Cad.freeSlot_eq hm hslot hslots)
  case close =>
    subst hx
    refine ⟨exec_streamClose_other h, fun hport hdumps => ⟨exec_streamClose_running h hopen hclosing hwait hport hdumps, fun hrun hcores hengine => ?_⟩⟩
    exact exec_streamClose_idle h hopen hclosing hwait hport hdumps hrun hcores hengine
  case starts =>
    subst hx
    subst hk
    obtain ⟨e, hexec, hlaunches, ⟨v, hrun, hframe, hstarted, hat, hgood, -⟩, hheld, hstreams⟩ :=
      exec_liveTaskStart_runs hdead hwait hbad hdrop hran hn hstart hready hvalid hwork hcores hclosed
    exact ⟨_, v, hexec, rfl, hlaunches.waiting, hrun, hframe, hstarted, hat, hgood, hheld,
      fun y hy hmem _ _ => hstreams y hy (List.contains_iff_mem.1 hmem)⟩
  case saves =>
    have hexec := exec_contextSaveDone_done hrun hctx hdead hsince harrived
    refine ⟨fun hwants => ?_, fun hwants => ?_⟩
    · rw [hexec, Dev.savedCore_wanted hlaunch hwants]
      rfl
    · obtain ⟨cores, plans, heq, hcore⟩ := Dev.savedCore_unwanted (x := x) hn hlaunch hwants
      rw [Dev.savedCore_core] at hcore
      rw [heq] at hexec
      have hn : ({ s.dev.savedCore n x with cores := cores, plans := plans } : Dev).core n = _ := hcore
      exact ⟨_, hexec, rfl, by rw [hn], by rw [hn], by rw [hn], by rw [hn], rfl⟩
  case restores =>
    obtain ⟨pods, hexec⟩ := exec_contextRestoreDone_done hdead hrun hsaved hsince hloop hend
    have hcore := s.dev.restoredCore_core n
    refine ⟨_, hexec, rfl, rfl, ?_, fun m hm => (hcore m).trans (if_neg hm), fun hwf hacc => Dev.restoredCore_rdByte hwf hacc⟩
    exact (hcore n).trans ((if_pos rfl).trans (by rw [hsaved]; rfl))
  case completes =>
    have hexec := exec_liveTaskComplete_done hbad hdrop hdead hx hrun hdone hclean
    subst hx
    exact ⟨_, hexec, rfl, Dev.endTask_stream hbad hdrop⟩
  case badInput =>
    subst hx
    have hstream := Dev.endBadInput_stream u st hclosing
    refine ⟨_, exec_liveTaskComplete_badInput hdead hrun hwait hinput, rfl, by rw [hstream], ?_⟩
    rw [hstream]
    exact Stream.badInput_spend ..
  case deadline =>
    subst hx
    refine ⟨fun u hrun hmissed hlate => ?_, fun u hrun hwait hmissed hlate hpolicy => ?_,
      fun u hrun hclosing hwait hmissed hlate hpolicy hinput => ?_, fun hrun hwait => exec_liveDeadline_inTime (fun u hu => ?_) fun u hu => ?_⟩
    · refine ⟨_, exec_liveDeadline_running hdead hrun (Dev.isLate_iff.2 ⟨hmissed, hlate⟩), rfl, rfl, ?_, fun m hm => ?_⟩
      · exact (Cad.stream_updStream ..).trans ((if_pos rfl).trans (by rw [hrun]; rfl))
      · exact (Cad.stream_updStream ..).trans (if_neg hm)
    · refine ⟨_, exec_liveDeadline_finish hdead hrun hwait (Dev.isLate_iff.2 ⟨hmissed, hlate⟩) hpolicy, rfl, rfl, ?_, fun m hm => ?_⟩
      · exact (Cad.stream_updStream ..).trans (if_pos rfl)
      · exact (Cad.stream_updStream ..).trans (if_neg hm)
    · obtain ⟨e, hexec, hstream⟩ := exec_liveDeadline_drop hdead hrun hwait (Dev.isLate_iff.2 ⟨hmissed, hlate⟩) hpolicy hinput hclosing
      exact ⟨_, hexec, rfl, congrArg Stream.waiting hstream, (congrArg Stream.running hstream).trans hrun⟩
    · exact Dev.isLate_false (hrun u hu)
    · exact Dev.isLate_false (hwait u hu)

end Sys2Proof.Machine
end

