-- ==== Sys2Proof/Proofs/DomainRequests.lean ====
section
/-! SUPPORT. What requests make of a power domain (R382 to R388): the domain that they name changes by the table of R385, two counters add up, and
replies go out. -/

namespace Sys2Proof.Machine

/-! ## One domain of the power unit -/

theorem parentOf_ne {id k : Nat} (h : parentOf id = some k) : k ≠ id := by
  unfold parentOf at h
  split at h
  · split at h
    · cases h
    · cases h
      omega
  · split at h
    · cases h
      omega
    · cases h

namespace Pow.Sets
variable {u v w : Pow} {id : Nat} {x y : Dom}

theorem refl (w : Pow) (id : Nat) : w.Sets w id (w.dom id) := ⟨rfl, fun _ _ => rfl, rfl⟩

theorem upd (w : Pow) (id : Nat) (f : Dom → Dom) : w.Sets (w.upd id f) id (f (w.dom id)) :=
  ⟨by simp, fun k hk => by simp [hk], rfl⟩

theorem trans (h : u.Sets v id x) (h' : v.Sets w id y) : u.Sets w id y :=
  ⟨h'.here, fun k hk => (h'.others k hk).trans (h.others k hk), h'.rest.trans h.rest⟩

theorem on (h : u.Sets v id x) {k : Nat} (hk : k ≠ id) : v.on k = u.on k := by rw [Pow.on, h.others k hk, Pow.on]

theorem brakeActed (h : u.Sets v id x) : v.brakeActed = u.brakeActed := (congrArg Pow.brakeActed h.rest :)

end Pow.Sets

/-- The parent of the domain is ON, and the brake does not hold the domain down (R382, R403). -/
def Pow.mayRise (w : Pow) (id : Nat) : Bool := (parentOf id).all w.on && !(w.brakeActed && 57 ≤ id && id ≤ 60)

theorem Pow.mayRise_of {w : Pow} {id : Nat} (hparent : ∀ k, parentOf id = some k → w.on k = true)
    (hbrake : 57 ≤ id → id ≤ 60 → w.brakeActed = false) : w.mayRise id = true := by
  have hall : (parentOf id).all w.on = true := by
    cases hp : parentOf id with
    | none => rfl
    | some k => exact hparent k hp
  rw [Pow.mayRise, hall]
  by_cases hu : 57 ≤ id ∧ id ≤ 60
  · simp [hbrake hu.1 hu.2]
  · simp only [Bool.true_and, Bool.not_eq_true', Bool.and_eq_false_iff, decide_eq_false_iff_not]
    omega

/-- What becomes of a domain does not bear on whether it may rise. -/
theorem Pow.Sets.mayRise {u v : Pow} {id : Nat} {x : Dom} (h : u.Sets v id x) : v.mayRise id = u.mayRise id := by
  have hall : (parentOf id).all v.on = (parentOf id).all u.on := by
    cases hp : parentOf id with
    | none => rfl
    | some k => exact h.on (parentOf_ne hp)
  rw [Pow.mayRise, Pow.mayRise, hall, h.brakeActed]

/-- The domain after an attempt to power up: where it is OFF, wanted, past its dwell and `free`, it is POWERING_UP (R383). -/
def Dom.risen (x : Dom) (now : Nat) (free : Bool) : Dom :=
  if x.st = 0 ∧ x.wantUp = true ∧ x.dwell = false ∧ free = true then { x with st := 1, wantUp := false, since := now } else x

theorem Dom.risen_stays {x : Dom} {now : Nat} {free : Bool} (h : x.st ≠ 0 ∨ x.wantUp = false) : x.risen now free = x := by
  refine if_neg fun ⟨hst, hwant, _⟩ => ?_
  rcases h with h | h <;> simp_all

theorem Dom.risen_rises {x : Dom} {now : Nat} (hst : x.st = 0) (hwant : x.wantUp = true) (hdwell : x.dwell = false) :
    x.risen now true = { x with st := 1, wantUp := false, since := now } := if_pos ⟨hst, hwant, hdwell, rfl⟩

theorem Pow.tryUp_sets (w : Pow) (now id : Nat) : w.Sets (w.tryUp now id) id ((w.dom id).risen now (w.mayRise id)) := by
  have hrise : w.tryUp now id = if (w.dom id).st = 0 ∧ (w.dom id).wantUp = true ∧ (w.dom id).dwell = false ∧ w.mayRise id = true
      then w.upd id (fun x => { x with st := 1, wantUp := false, since := now }) else w := by
    unfold Pow.tryUp Pow.mayRise
    cases parentOf id <;> simp only [Option.all, Bool.and_eq_true, Bool.not_eq_true']
  rw [hrise, Dom.risen]
  split
  · exact .upd ..
  · exact .refl ..

/-- A change of a domain and its attempt to power up. -/
theorem Pow.Sets.upd_tryUp (w : Pow) (id : Nat) (f : Dom → Dom) (now : Nat) :
    w.Sets ((w.upd id f).tryUp now id) id ((f (w.dom id)).risen now (w.mayRise id)) := by
  have hup := Pow.Sets.upd w id f
  have hrise := (w.upd id f).tryUp_sets now id
  rw [hup.here, hup.mayRise] at hrise
  exact hup.trans hrise

/-! ## A domain of the device -/

/-- Counters of the Cob with one more in each of the kinds `ks`. -/
def countAll (ks : List Nat) (c : Tab Nat) : Tab Nat := ks.foldl (fun c k => bump c cobInst k 1) c

theorem Dev.traceDoms_replied (d : Dev) (old : Pow) : d.Replied (d.traceDoms old) := by
  unfold Dev.traceDoms
  split
  · exact .refl d
  · refine foldl_keeps (fun e => d.Replied e) _ (fun e id he => ?_) _ d (.refl d)
    split
    · exact he
    · exact he.trans (Dev.trace_replied ..)

theorem Dev.acceptId_replied (d : Dev) (id : Nat) : d.Replied (d.acceptId id) := by
  unfold Dev.acceptId
  split
  · exact d.accept_replied _
  · exact .refl d

theorem Dev.finishAll_replied (d : Dev) (ids : List Nat) (status : Nat) : d.Replied (d.finishAll ids status) :=
  foldl_keeps (fun e => d.Replied e) _ (fun _ _ he => he.trans (Dev.finish_replied ..)) ids d (.refl d)

/-- Counts but TRACE_DROP and a new power unit reach devices that differ by replies alike. -/
theorem Dev.Replied.countAll {a b : Dev} (h : a.Replied b) (w : Pow) {ks : List Nat} (hks : 0x78 ∉ ks) :
    ({ a with pow := w, ctr := countAll ks a.ctr } : Dev).Replied { b with pow := w, ctr := Machine.countAll ks b.ctr } := by
  refine ⟨show { b.quiet with pow := w } = { a.quiet with pow := w } by rw [h.quiet], h.setup, h.mem, fun n hn => ?_, h.bufs⟩
  have hcount : ∀ (c c' : Tab Nat), (∀ n, n ≠ 0x78 → Tab.get 0 c' n = Tab.get 0 c n) →
      ∀ n, n ≠ 0x78 → Tab.get 0 (Machine.countAll ks c') n = Tab.get 0 (Machine.countAll ks c) n := by
    induction ks with
    | nil => exact fun _ _ hc => hc
    | cons k ks ih =>
      obtain ⟨hk, hks⟩ := not_or.1 (mt List.mem_cons.2 hks)
      refine fun c c' hc => ih hks _ _ fun n hn => ?_
      have hkey : Tab.get 0 c' (cobInst * 256 + k) = Tab.get 0 c (cobInst * 256 + k) := hc _ (by simpa [cobInst] using Ne.symm hk)
      simp only [bump, Tab.get_set, hkey, hc n hn]
  exact hcount _ _ h.ctr n hn

/-- Device `e` is `d` with domain `id` reading `x` and one more in each of the counters `ks` of the Cob, but for replies. -/
structure Dev.SetsDom (d : Dev) (ks : List Nat) (id : Nat) (x : Dom) (e : Dev) : Prop where
  kinds : 0x78 ∉ ks
  unit : ∃ w, d.pow.Sets w id x ∧ ({ d with pow := w, ctr := countAll ks d.ctr } : Dev).Replied e

namespace Dev.SetsDom
variable {d e e' : Dev} {ks ks' : List Nat} {id : Nat} {x y : Dom}

theorem of_sets {w : Pow} (h : d.pow.Sets w id x) : d.SetsDom [] id x { d with pow := w } := ⟨List.not_mem_nil, w, h, .refl _⟩

theorem counted {w : Pow} {k : Nat} (h : d.pow.Sets w id x) (hk : k ≠ 0x78) :
    d.SetsDom [k] id x { d with pow := w, ctr := bump d.ctr cobInst k 1 } := ⟨by simpa using hk.symm, w, h, .refl _⟩

theorem of_replied (h : d.Replied e) (id : Nat) : d.SetsDom [] id (d.pow.dom id) e := ⟨List.not_mem_nil, d.pow, .refl .., h⟩

theorem trans (h : d.SetsDom ks id x e) (h' : e.SetsDom ks' id y e') : d.SetsDom (ks ++ ks') id y e' := by
  obtain ⟨hks, v, hv, he⟩ := h
  obtain ⟨hks', w, hw, he'⟩ := h'
  refine ⟨by simp [hks, hks'], w, hv.trans ?_, ?_⟩
  · rw [he.pow] at hw
    exact hw
  · have hcount := (he.countAll w hks').trans he'
    simpa only [Machine.countAll, List.foldl_append] using hcount

/-- Replies that follow. -/
theorem replies (h : d.SetsDom ks id x e) (h' : e.Replied e') : d.SetsDom ks id x e' :=
  ⟨h.kinds, h.unit.imp fun _ hw => ⟨hw.1, hw.2.trans h'⟩⟩

/-- Replies that went before. -/
theorem after (h : d.Replied e) (h' : e.SetsDom ks id x e') : d.SetsDom ks id x e' := (of_replied h id).trans h'

theorem pow (h : d.SetsDom ks id x e) : d.pow.Sets e.pow id x := by
  obtain ⟨-, w, hw, he⟩ := h
  rw [he.pow]
  exact hw

theorem plat (h : d.SetsDom ks id x e) : e.plat = d.plat := by
  obtain ⟨-, w, -, he⟩ := h
  exact he.plat

end Dev.SetsDom

/-- An admitted command whose effect sets one domain. -/
theorem State.Admits.setsDom {s : State} {i : Instr} {f : PacketForm} {p : Packet} {ck : Dev → Checks} {eff : Dev → Cmd → Dev} {ks : List Nat}
    {id : Nat} {x : Dom} (h : s.Admits i f p) (hlen : Instr.paramBytes i f = paramLen f.layout) (hck : (ck s.dev).Clear)
    (hset : s.dev.SetsDom ks id x (eff (s.dev.begin_ f.queue p).1 (s.dev.begin_ f.queue p).2)) :
    Res.SetsDom s (countAll ks s.dev.ctr) id x (startCmd s f.queue f.opcode f.layout f.fields ck eff) := by
  obtain ⟨-, w, hw, he⟩ := hset
  exact ⟨w, hw, h.becomes hlen hck he⟩

/-! ## Requests (R385) -/

/-- The domain without its pending request. -/
def Dom.cancelled (x : Dom) : Dom := { x with pendOn := false, pendOff := false, pendCmds := [] }

/-- The domain after an ON request that no pending OFF request opposes; `free` says whether it may power up. -/
def Dom.joinsOn (x : Dom) (now cmd : Nat) (free : Bool) : Dom :=
  if x.pendOn then { x with pendCmds := reqCmd x.pendCmds cmd }
  else if x.st = 0 then ({ x with wantUp := true, onCmds := reqCmd x.onCmds cmd } : Dom).risen now free
  else if x.st = 1 then { x with onCmds := reqCmd x.onCmds cmd }
  else if x.st = 2 then x
  else { x with pendOn := true, pendCmds := reqCmd x.pendCmds cmd }

/-- DOMAIN_QUEUED adds one where an ON request becomes pending. -/
def Dom.onQueued (x : Dom) : List Nat := if x.pendOn = false ∧ 2 < x.st then [0x60] else []

/-- The domain after an OFF request that no pending ON request opposes. -/
def Dom.joinsOff (x : Dom) (now cmd : Nat) : Dom :=
  if x.pendOff then { x with pendCmds := reqCmd x.pendCmds cmd }
  else if x.st = 1 ∨ (x.st = 0 ∧ x.wantUp = true) then { x with pendOff := true, pendCmds := reqCmd x.pendCmds cmd }
  else if x.st = 0 then x
  else if x.st = 2 then { x with st := 3, since := now, offCmds := reqCmd x.offCmds cmd }
  else { x with offCmds := reqCmd x.offCmds cmd }

/-- DOMAIN_QUEUED adds one where an OFF request becomes pending. -/
def Dom.offQueued (x : Dom) : List Nat := if x.pendOff = false ∧ (x.st = 1 ∨ (x.st = 0 ∧ x.wantUp = true)) then [0x60] else []

section
variable (d : Dev) (id cmd : Nat)

/-- DOMAIN_CANCEL adds one. -/
theorem Dev.cancelPend_sets : d.SetsDom [0x61] id (d.pow.dom id).cancelled (d.cancelPend id) :=
  (Dev.SetsDom.counted (Pow.Sets.upd d.pow id Dom.cancelled) (by decide)).replies (Dev.finishAll_replied ..)

variable {d id}

theorem Dev.reqOn1_sets (hoff : (d.pow.dom id).pendOff = false) : d.SetsDom (d.pow.dom id).onQueued id
    ((d.pow.dom id).joinsOn d.plat.now cmd (d.pow.mayRise id)) (d.reqOn1 id cmd) := by
  rw [Dom.joinsOn, Dom.onQueued]
  unfold Dev.reqOn1
  dsimp only
  rw [if_neg (Bool.eq_false_iff.1 hoff)]
  by_cases hon : (d.pow.dom id).pendOn = true
  · rw [if_pos hon, if_pos hon, if_neg (by simp [hon])]
    exact (Dev.SetsDom.of_sets (.upd d.pow id fun x => { x with pendCmds := reqCmd x.pendCmds cmd })).replies (Dev.acceptId_replied ..)
  rw [if_neg hon, if_neg hon]
  by_cases hoffSt : (d.pow.dom id).st = 0
  · rw [if_pos hoffSt, if_pos hoffSt, if_neg (by simp [hoffSt])]
    exact (Dev.SetsDom.of_sets (Pow.Sets.upd_tryUp d.pow id (fun x => { x with wantUp := true, onCmds := reqCmd x.onCmds cmd }) d.plat.now)).replies
      (Dev.traceDoms_replied ..)
  rw [if_neg hoffSt, if_neg hoffSt]
  by_cases hrising : (d.pow.dom id).st = 1
  · rw [if_pos hrising, if_pos hrising, if_neg (by simp [hrising])]
    exact .of_sets (.upd ..)
  rw [if_neg hrising, if_neg hrising]
  by_cases hup : (d.pow.dom id).st = 2
  · rw [if_pos hup, if_pos hup, if_neg (by simp [hup])]
    exact .of_replied (Dev.finish_replied ..) id
  · rw [if_neg hup, if_neg hup, if_pos ⟨Bool.eq_false_iff.2 hon, by omega⟩]
    exact (Dev.SetsDom.counted (.upd d.pow id fun x => { x with pendOn := true, pendCmds := reqCmd x.pendCmds cmd }) (by decide)).replies
      (Dev.acceptId_replied ..)

theorem Dev.reqOff_sets (hon : (d.pow.dom id).pendOn = false) : d.SetsDom (d.pow.dom id).offQueued id
    ((d.pow.dom id).joinsOff d.plat.now cmd) (d.reqOff id cmd) := by
  rw [Dom.joinsOff, Dom.offQueued]
  unfold Dev.reqOff
  dsimp only
  rw [if_neg (Bool.eq_false_iff.1 hon)]
  by_cases hoff : (d.pow.dom id).pendOff = true
  · rw [if_pos hoff, if_pos hoff, if_neg (by simp [hoff])]
    exact (Dev.SetsDom.of_sets (.upd d.pow id fun x => { x with pendCmds := reqCmd x.pendCmds cmd })).replies (Dev.acceptId_replied ..)
  rw [if_neg hoff, if_neg hoff]
  by_cases hrising : (d.pow.dom id).st = 1 ∨ ((d.pow.dom id).st = 0 ∧ (d.pow.dom id).wantUp = true)
  · rw [if_pos hrising, if_pos hrising, if_pos ⟨Bool.eq_false_iff.2 hoff, hrising⟩]
    exact (Dev.SetsDom.counted (.upd d.pow id fun x => { x with pendOff := true, pendCmds := reqCmd x.pendCmds cmd }) (by decide)).replies
      (Dev.acceptId_replied ..)
  rw [if_neg hrising, if_neg hrising, if_neg fun h => hrising h.2]
  by_cases hoffSt : (d.pow.dom id).st = 0
  · rw [if_pos hoffSt, if_pos hoffSt]
    exact .of_replied (Dev.finish_replied ..) id
  rw [if_neg hoffSt, if_neg hoffSt]
  by_cases hup : (d.pow.dom id).st = 2
  · rw [if_pos hup, if_pos hup]
    exact (Dev.SetsDom.of_sets (.upd d.pow id fun x => { x with st := 3, since := d.plat.now, offCmds := reqCmd x.offCmds cmd })).replies
      (Dev.traceDoms_replied ..)
  · rw [if_neg hup, if_neg hup]
    exact .of_sets (.upd d.pow id fun x => { x with offCmds := reqCmd x.offCmds cmd })

/-- An ON request is the domain's alone unless it is OFF below a parent that is not ON. -/
theorem Dev.reqOn_alone (hparent : (d.pow.dom id).st = 0 → ∀ k, parentOf id = some k → d.pow.on k = true) :
    d.reqOn id cmd = d.reqOn1 id cmd := by
  unfold Dev.reqOn
  split
  · next k hk =>
    refine if_neg fun ⟨hst, hdown⟩ => ?_
    rw [hparent hst k hk] at hdown
    cases hdown
  · rfl

end

namespace Dev.SetsDom
variable {d e : Dev} {ks : List Nat} {id : Nat} {x : Dom} (cmd : Nat) (h : d.SetsDom ks id x e)
include h

theorem cancels : d.SetsDom (ks ++ [0x61]) id x.cancelled (e.cancelPend id) := by
  have hcancel := e.cancelPend_sets id
  rw [h.pow.here] at hcancel
  exact h.trans hcancel

theorem reqOn_alone (hparent : x.st = 0 → ∀ k, parentOf id = some k → d.pow.on k = true) : e.reqOn id cmd = e.reqOn1 id cmd := by
  refine Dev.reqOn_alone cmd fun hst k hk => (h.pow.on (parentOf_ne hk)).trans (hparent ?_ k hk)
  rw [h.pow.here] at hst
  exact hst

theorem reqOn1 (hoff : x.pendOff = false) :
    d.SetsDom (ks ++ x.onQueued) id (x.joinsOn d.plat.now cmd (d.pow.mayRise id)) (e.reqOn1 id cmd) := by
  have hjoins := e.reqOn1_sets (id := id) cmd (by rw [h.pow.here]; exact hoff)
  rw [h.pow.here, h.plat, h.pow.mayRise] at hjoins
  exact h.trans hjoins

/-- An ON request cancels the pending OFF request first. -/
theorem reqOn1_cancels (hoff : x.pendOff = true) : d.SetsDom (ks ++ [0x61] ++ x.cancelled.onQueued) id
    (x.cancelled.joinsOn d.plat.now cmd (d.pow.mayRise id)) (e.reqOn1 id cmd) := by
  have hreq : e.reqOn1 id cmd = (e.cancelPend id).reqOn1 id cmd := by
    simp only [Dev.reqOn1, h.pow.here, h.cancels.pow.here, hoff, Dom.cancelled, if_true, Bool.false_eq_true, if_false]
  rw [hreq]
  exact h.cancels.reqOn1 cmd rfl

theorem reqOff (hon : x.pendOn = false) : d.SetsDom (ks ++ x.offQueued) id (x.joinsOff d.plat.now cmd) (e.reqOff id cmd) := by
  have hjoins := e.reqOff_sets (id := id) cmd (by rw [h.pow.here]; exact hon)
  rw [h.pow.here, h.plat] at hjoins
  exact h.trans hjoins

/-- An OFF request cancels the pending ON request first. -/
theorem reqOff_cancels (hon : x.pendOn = true) : d.SetsDom (ks ++ [0x61] ++ x.cancelled.offQueued) id
    (x.cancelled.joinsOff d.plat.now cmd) (e.reqOff id cmd) := by
  have hreq : e.reqOff id cmd = (e.cancelPend id).reqOff id cmd := by
    simp only [Dev.reqOff, h.pow.here, h.cancels.pow.here, hon, Dom.cancelled, if_true, Bool.false_eq_true, if_false]
  rw [hreq]
  exact h.cancels.reqOff cmd rfl

end Dev.SetsDom

end Sys2Proof.Machine
end

