-- ==== Sys2Proof/Proofs/PowerCommands.lean ====
section
/-! PROOFS. The power commands and ageing readings (R381 to R388, R392, R406 to R410): O44. -/

namespace Sys2Proof.Machine

section
variable (s : State)

theorem exec_domainOn (q id : Nat) : exec (.domainOn q id) s = execDomainOn q id s := rfl
theorem exec_domainOff (q id : Nat) : exec (.domainOff q id) s = execDomainOff q id s := rfl
theorem exec_domainAuto (q id : Nat) : exec (.domainAuto q id) s = execDomainAuto q id s := rfl
theorem exec_setEnergyBudget (q record : Nat) : exec (.setEnergyBudget q record) s = execSetEnergyBudget q record s := rfl
theorem exec_ageingReport (q dest : Nat) : exec (.ageingReport q dest) s = execAgeingReport q dest s := rfl

end

theorem Dev.domIdBad_false {d : Dev} {id : Nat} (hid : id ≤ 84) (hretired : d.plat.retiredDom id = false) : d.domIdBad id = false := by
  simp [Dev.domIdBad, hretired, hid]

/-! ## Requests of the host (R385, R388) -/

/-- The device whose domain has taken HOLD. -/
def Dev.setHold (d : Dev) (id k : Nat) : Dev := { d with pow := d.pow.upd id (fun x => { x with hold := k }) }

/-- HOLD is set on a device that differs by replies. -/
theorem Dev.SetsDom.setHold {d b : Dev} (hb : d.Replied b) (id k : Nat) : d.SetsDom [] id { d.pow.dom id with hold := k } (b.setHold id k) := by
  have hhold := Dev.SetsDom.of_sets (.upd b.pow id fun x => { x with hold := k })
  have hset := Dev.SetsDom.after hb hhold
  rw [hb.pow] at hset
  rw [Dev.setHold, hb.pow]
  exact hset

/-! ### What a request makes of a domain in each state -/

namespace Dom
variable {x : Dom} {now cmd : Nat} {free : Bool}

theorem joinsOn_up (hon : x.pendOn = false) (hst : x.st = 2) : x.joinsOn now cmd free = x := by
  simp [joinsOn, hon, hst]

theorem joinsOn_rising (hon : x.pendOn = false) (hst : x.st = 1) : x.joinsOn now cmd free = { x with onCmds := reqCmd x.onCmds cmd } := by
  simp [joinsOn, hon, hst]

theorem joinsOn_falling (hon : x.pendOn = false) (hst : 2 < x.st) :
    x.joinsOn now cmd free = { x with pendOn := true, pendCmds := reqCmd x.pendCmds cmd } := by
  rw [joinsOn, if_neg (by simp [hon]), if_neg (by omega), if_neg (by omega), if_neg (by omega)]

theorem joinsOn_off (hon : x.pendOn = false) (hst : x.st = 0) (hdwell : x.dwell = false) :
    x.joinsOn now cmd true = { x with st := 1, wantUp := false, since := now, onCmds := reqCmd x.onCmds cmd } := by
  rw [joinsOn, if_neg (by simp [hon]), if_pos hst]
  exact risen_rises hst rfl hdwell

theorem onQueued_falling (hon : x.pendOn = false) (hst : 2 < x.st) : x.onQueued = [0x60] := if_pos ⟨hon, hst⟩

theorem onQueued_none (hst : x.st ≤ 2) : x.onQueued = [] := if_neg fun h => absurd h.2 (by omega)

theorem joinsOff_up (hoff : x.pendOff = false) (hst : x.st = 2) :
    x.joinsOff now cmd = { x with st := 3, since := now, offCmds := reqCmd x.offCmds cmd } := by
  simp [joinsOff, hoff, hst]

theorem joinsOff_off (hoff : x.pendOff = false) (hst : x.st = 0) (hwant : x.wantUp = false) : x.joinsOff now cmd = x := by
  simp [joinsOff, hoff, hst, hwant]

theorem joinsOff_rising (hoff : x.pendOff = false) (hst : x.st = 1 ∨ (x.st = 0 ∧ x.wantUp = true)) :
    x.joinsOff now cmd = { x with pendOff := true, pendCmds := reqCmd x.pendCmds cmd } := by
  rw [joinsOff, if_neg (by simp [hoff]), if_pos hst]

theorem joinsOff_falling (hoff : x.pendOff = false) (hst : 2 < x.st) : x.joinsOff now cmd = { x with offCmds := reqCmd x.offCmds cmd } := by
  rw [joinsOff, if_neg (by simp [hoff]), if_neg (by omega), if_neg (by omega), if_neg (by omega)]

theorem offQueued_rising (hoff : x.pendOff = false) (hst : x.st = 1 ∨ (x.st = 0 ∧ x.wantUp = true)) : x.offQueued = [0x60] := if_pos ⟨hoff, hst⟩

theorem offQueued_none (hst : 1 < x.st ∨ (x.st = 0 ∧ x.wantUp = false)) : x.offQueued = [] := by
  refine if_neg fun ⟨_, h⟩ => ?_
  rcases hst with hst | ⟨hst, hwant⟩
  · omega
  · simp [hst, hwant] at h

end Dom

namespace Dev.SetsDom
variable {d e : Dev} {id : Nat} {x : Dom} (cmd : Nat) (h : d.SetsDom [] id x e)
include h

section
variable (hon : x.pendOn = false) (hoff : x.pendOff = false)
include hon hoff

theorem reqOn_up (hst : x.st = 2) : d.SetsDom [] id x (e.reqOn id cmd) := by
  have hjoins := h.reqOn1 cmd hoff
  rwa [Dom.joinsOn_up hon hst, Dom.onQueued_none (by omega), ← h.reqOn_alone cmd fun h0 => by omega] at hjoins

theorem reqOn_rising (hst : x.st = 1) : d.SetsDom [] id { x with onCmds := reqCmd x.onCmds cmd } (e.reqOn id cmd) := by
  have hjoins := h.reqOn1 cmd hoff
  rwa [Dom.joinsOn_rising hon hst, Dom.onQueued_none (by omega), ← h.reqOn_alone cmd fun h0 => by omega] at hjoins

theorem reqOn_falling (hst : 2 < x.st) :
    d.SetsDom [0x60] id { x with pendOn := true, pendCmds := reqCmd x.pendCmds cmd } (e.reqOn id cmd) := by
  have hjoins := h.reqOn1 cmd hoff
  rwa [Dom.joinsOn_falling hon hst, Dom.onQueued_falling hon hst, ← h.reqOn_alone cmd fun h0 => by omega] at hjoins

theorem reqOn_off (hst : x.st = 0) (hdwell : x.dwell = false) (hparent : ∀ k, parentOf id = some k → d.pow.on k = true)
    (hbrake : 57 ≤ id → id ≤ 60 → d.pow.brakeActed = false) :
    d.SetsDom [] id { x with st := 1, wantUp := false, since := d.plat.now, onCmds := reqCmd x.onCmds cmd } (e.reqOn id cmd) := by
  have hjoins := h.reqOn1 cmd hoff
  rwa [Pow.mayRise_of hparent hbrake, Dom.joinsOn_off hon hst hdwell, Dom.onQueued_none (by omega),
    ← h.reqOn_alone cmd fun _ => hparent] at hjoins

theorem reqOff_up (hst : x.st = 2) :
    d.SetsDom [] id { x with st := 3, since := d.plat.now, offCmds := reqCmd x.offCmds cmd } (e.reqOff id cmd) := by
  have hjoins := h.reqOff cmd hon
  rwa [Dom.joinsOff_up hoff hst, Dom.offQueued_none (by omega)] at hjoins

theorem reqOff_off (hst : x.st = 0) (hwant : x.wantUp = false) : d.SetsDom [] id x (e.reqOff id cmd) := by
  have hjoins := h.reqOff cmd hon
  rwa [Dom.joinsOff_off hoff hst hwant, Dom.offQueued_none (.inr ⟨hst, hwant⟩)] at hjoins

theorem reqOff_rising (hst : x.st = 1 ∨ (x.st = 0 ∧ x.wantUp = true)) :
    d.SetsDom [0x60] id { x with pendOff := true, pendCmds := reqCmd x.pendCmds cmd } (e.reqOff id cmd) := by
  have hjoins := h.reqOff cmd hon
  rwa [Dom.joinsOff_rising hoff hst, Dom.offQueued_rising hoff hst] at hjoins

theorem reqOff_falling (hst : 2 < x.st) : d.SetsDom [] id { x with offCmds := reqCmd x.offCmds cmd } (e.reqOff id cmd) := by
  have hjoins := h.reqOff cmd hon
  rwa [Dom.joinsOff_falling hoff hst, Dom.offQueued_none (.inl (by omega))] at hjoins

end

/-- POWERING_UP, an ON request takes back the pending OFF request. -/
theorem reqOn_rising_cancels (hon : x.pendOn = false) (hoff : x.pendOff = true) (hst : x.st = 1) :
    d.SetsDom [0x61] id { x with pendOff := false, pendCmds := [], onCmds := reqCmd x.onCmds cmd } (e.reqOn id cmd) := by
  have hcancelled : { x with pendOff := false, pendCmds := [], onCmds := reqCmd x.onCmds cmd } =
      { x.cancelled with onCmds := reqCmd x.onCmds cmd } := by simp only [Dom.cancelled, hon]
  have hjoins := h.reqOn1_cancels cmd hoff
  rw [Dom.joinsOn_rising (x := x.cancelled) rfl hst, Dom.onQueued_none (x := x.cancelled) (Nat.le_succ_of_le hst.le),
    ← h.reqOn_alone cmd fun h0 => by omega] at hjoins
  rw [hcancelled]
  exact hjoins

/-- On its way to OFF, an OFF request takes back the pending ON request. -/
theorem reqOff_falling_cancels (hon : x.pendOn = true) (hoff : x.pendOff = false) (hst : 2 < x.st) :
    d.SetsDom [0x61] id { x with pendOn := false, pendCmds := [], offCmds := reqCmd x.offCmds cmd } (e.reqOff id cmd) := by
  have hcancelled : { x with pendOn := false, pendCmds := [], offCmds := reqCmd x.offCmds cmd } =
      { x.cancelled with offCmds := reqCmd x.offCmds cmd } := by simp only [Dom.cancelled, hoff]
  have hjoins := h.reqOff_cancels cmd hon
  rw [Dom.joinsOff_falling (x := x.cancelled) rfl hst, Dom.offQueued_none (x := x.cancelled) (.inl (Nat.lt_of_succ_lt hst))] at hjoins
  rw [hcancelled]
  exact hjoins

end Dev.SetsDom

section
variable {s : State} {q id : Nat} {f : PacketForm} {p : Packet} {ks : List Nat} {x : Dom}

/-- An admitted DOMAIN_ON that its request settles. -/
theorem exec_domainOn_sets (h : s.Admits (.domainOn q id) f p) (hid : id ≤ 84) (hretired : s.dev.plat.retiredDom id = false)
    (hset : ∀ e : Dev, s.dev.SetsDom [] id { s.dev.pow.dom id with hold := if isAuto id then 1 else 0 } e →
      s.dev.SetsDom ks id x (e.reqOn id s.dev.host.nextCmd)) :
    Res.SetsDom s (countAll ks s.dev.ctr) id x (exec (.domainOn q id) s) := by
  cases h.form
  rw [exec_domainOn, execDomainOn]
  exact h.setsDom rfl ⟨by simp [Dev.domIdBad_false hid hretired], rfl, rfl⟩ (hset _ (.setHold (Dev.begin__replied ..) ..))

/-- A DOMAIN_OFF that may name the domain. -/
theorem domainOff_named (hid : id ≤ 84) (hretired : s.dev.plat.retiredDom id = false) (hport : id ≠ 64 + q / 8) :
    (if s.dev.domIdBad id || ((id == 64 || id == 65) && q / 8 == id - 64) then some 0 else none) = (none : Option Nat) := by
  refine if_neg ?_
  simp only [Dev.domIdBad_false hid hretired, Bool.false_or, Bool.and_eq_true, Bool.or_eq_true, beq_iff_eq]
  omega

theorem exec_domainOff_sets (h : s.Admits (.domainOff q id) f p) (hid : id ≤ 84) (hretired : s.dev.plat.retiredDom id = false)
    (hport : id ≠ 64 + q / 8) (hfree : s.dev.offRefusal id = none)
    (hset : ∀ e : Dev, s.dev.SetsDom [] id { s.dev.pow.dom id with hold := if isAuto id then 2 else 0 } e →
      s.dev.SetsDom ks id x (e.reqOff id s.dev.host.nextCmd)) :
    Res.SetsDom s (countAll ks s.dev.ctr) id x (exec (.domainOff q id) s) := by
  cases h.form
  rw [exec_domainOff, execDomainOff]
  exact h.setsDom rfl ⟨domainOff_named hid hretired hport, hfree, rfl⟩ (hset _ (.setHold (Dev.begin__replied ..) ..))

theorem exec_domainOff_refused (h : s.Admits (.domainOff q id) f p) (hbusy : s.dev.offRefusal id ≠ none) :
    Res.Becomes s s.dev (exec (.domainOff q id) s) := by
  cases h.form
  rw [exec_domainOff, execDomainOff]
  exact h.refusedBy (.inr hbusy)

end

/-! ## DOMAIN_AUTO (R388) -/

section
variable {α : Type} [DecidableEq α] {z v : α} {k : Nat} (P : α → Bool)

/-- A set key adds no entry that passes a test which its value fails or the old one passes. -/
theorem Tab.any_set (hz : P z = false) (hv : v ≠ z) (m : Tab α) (hP : P v = P (Tab.get z m k)) :
    (Tab.set z m k v).any (fun e => P e.2) = m.any (fun e => P e.2) := by
  induction m with
  | nil => simp [Tab.set, hv, hP, Tab.get, hz]
  | cons e m ih =>
    obtain ⟨k', v'⟩ := e
    by_cases hk : k = k'
    · simp only [Tab.get, hk, if_true] at hP
      simp [Tab.set, hk, hv, hP]
    · simp only [Tab.get, hk, if_false] at hP
      by_cases hlt : k < k'
      · have hin : P v = true → m.any (fun e => P e.2) = true := fun hp => by
          rcases Tab.get_eq_default_or_mem z m k with h | h
          · rw [hP, h, hz] at hp
            cases hp
          · exact List.any_eq_true.2 ⟨_, h, hP ▸ hp⟩
        simp only [Tab.set, hk, if_false, hlt, ne_eq, hv, not_false_eq_true, and_self, if_true, List.any_cons]
        cases hp : P v
        · rfl
        · simp [hin hp]
      · simp only [Tab.set, hk, if_false, hlt, false_and, List.any_cons, ih hP]

end

/-- Whether a trace buffer is in use is no matter of trace records. -/
theorem Dev.trace_inUse (d : Dev) (type die unit id arg0 arg1 : Nat) :
    (d.trace type die unit id arg0 arg1).obs.bufs.any (fun e => e.2.armed || e.2.upCmd != 0) = d.obs.bufs.any (fun e => e.2.armed || e.2.upCmd != 0) := by
  unfold Dev.trace
  split
  · rfl
  · split
    · refine foldl_keeps (fun e : Dev => e.obs.bufs.any (fun e => e.2.armed || e.2.upCmd != 0) = _) Dev.dropFor (fun e b he => ?_) _ _ rfl
      refine (Tab.any_set (z := {}) (v := { e.obs.buf b with dropped := ((e.obs.buf b).dropped + 1) % 2 ^ 32, lost := (e.obs.buf b).lost + 1 }) (k := b)
        (fun x : TraceBuf => x.armed || x.upCmd != 0) rfl (fun h => ?_) e.obs.bufs rfl).trans he
      exact Nat.succ_ne_zero _ (congrArg TraceBuf.lost h)
    · rfl

/-- The start of a command leaves a domain's work. -/
theorem Dev.begun_domBusy (d : Dev) (q : Nat) (p : Packet) (id : Nat) : (d.begin_ q p).1.domBusy id = d.domBusy id := by
  have hb := d.begin__replied q p
  have hbufs : (d.begin_ q p).1.obs.bufs.any (fun e => e.2.armed || e.2.upCmd != 0) = d.obs.bufs.any (fun e => e.2.armed || e.2.upCmd != 0) :=
    Dev.trace_inUse ..
  simp only [Dev.domBusy, hb.cob, hb.ing, hb.enc, hbufs]

section
variable {s : State} {q id : Nat} {f : PacketForm} {p : Packet}

/-- The controller's own request for a domain without one (R388). -/
theorem Dev.SetsDom.demand {d e : Dev} {x : Dom} (h : d.SetsDom [] id x e) (hauto : isAuto id = true) (hst : x.st = 0) (hwant : x.wantUp = false)
    (hon : x.pendOn = false) (hoff : x.pendOff = false) (hdwell : x.dwell = false) (hhold : x.hold ≠ 2)
    (hparent : ∀ k, parentOf id = some k → d.pow.on k = true) (hbrake : d.pow.brakeActed = false) :
    d.SetsDom [] id { x with st := 1, since := d.plat.now } (e.demand id) := by
  have hdemand : e.demand id = e.reqOn id 0 := by
    simp [Dev.demand, h.pow.here, hauto, hst, hwant, hon, hhold]
  have hrises := h.reqOn_off 0 hon hoff hst hdwell hparent fun _ _ => hbrake
  rw [← hdemand, ← hwant] at hrises
  exact hrises

/-- Where the controller has no reason to ask, nothing is asked for. -/
theorem Dev.demand_none {d : Dev} (h : (d.pow.dom id).st = 1 ∨ (d.pow.dom id).st = 2) : d.demand id = d := by
  rcases h with h | h <;> simp [Dev.demand, h]

/-- An admitted DOMAIN_AUTO, by what its demand makes of the domain. -/
theorem exec_domainAuto_sets {x : Dom} (h : s.Admits (.domainAuto q id) f p) (hauto : isAuto id = true) (hid : id ≤ 84)
    (hretired : s.dev.plat.retiredDom id = false)
    (hset : ∀ e : Dev, s.dev.SetsDom [] id { s.dev.pow.dom id with hold := 0 } e →
      s.dev.SetsDom [] id x (if s.dev.domBusy id then e.demand id else e)) : Res.SetsDom s s.dev.ctr id x (exec (.domainAuto q id) s) := by
  cases h.form
  rw [exec_domainAuto, execDomainAuto]
  refine h.setsDom (ks := []) rfl ⟨by simp [hauto, Dev.domIdBad_false hid hretired], rfl, rfl⟩ (.replies ?_ (doneAt_replied ..))
  have hbusy : ((s.dev.begin_ q p).1.setHold id 0).domBusy id = s.dev.domBusy id := Dev.begun_domBusy ..
  have hset := hset _ (.setHold (Dev.begin__replied s.dev q p) id 0)
  rw [← hbusy] at hset
  exact hset

end

/-! ## The budget and the ageing report (R392, R410) -/

theorem leBytes_take {n k : Nat} (h : k ≤ n) : ∀ x, (leBytes n x).take k = leBytes k x := by
  induction n generalizing k with
  | zero =>
    obtain rfl := Nat.le_zero.1 h
    exact fun _ => rfl
  | succ n ih =>
    intro x
    cases k with
    | zero => rfl
    | succ k => rw [leBytes, List.take_succ_cons, ih (Nat.le_of_succ_le_succ h), leBytes]

/-- The first field of a structure. -/
theorem packBits_mod (w v : Nat) (fs : List (Nat × Nat)) : packBits ((w, v) :: fs) % 2 ^ w = v % 2 ^ w := by
  rw [packBits, Nat.add_mul_mod_self_left, Nat.mod_mod]

/-- The bytes of a structure's first field. -/
theorem leNat_packBits {n k w v : Nat} {fs : List (Nat × Nat)} (hk : k ≤ n) (hw : 8 * k = w) :
    leNat ((leBytes n (packBits ((w, v) :: fs))).take k) = v % 2 ^ w := by
  rw [leBytes_take hk, leNat_leBytes, show 256 ^ k = 2 ^ w by rw [← hw, Nat.pow_mul], packBits_mod]

/-- Records of one length stand at its multiples. -/
theorem flatten_record {β : Type} {g : Nat → List β} {len n k : Nat} (hg : ∀ i, (g i).length = len) (hk : k < n) :
    ∃ rest, ((List.range n).map g).flatten.drop (len * k) = g k ++ rest := by
  induction n with
  | zero => omega
  | succ n ih =>
    have hlen : ((List.range n).map g).flatten.length = len * n := by
      simp [List.length_flatten, Function.comp_def, hg, Nat.mul_comm]
    rw [List.range_succ, List.map_append, List.flatten_append]
    rcases Nat.lt_succ_iff_lt_or_eq.1 hk with hlt | rfl
    · obtain ⟨rest, hrest⟩ := ih hlt
      refine ⟨rest ++ g n, ?_⟩
      rw [List.drop_append_of_le_length (hlen ▸ Nat.mul_le_mul_left len (Nat.le_of_lt hlt)), hrest]
      simp
    · exact ⟨[], by rw [← hlen, List.drop_left]; simp⟩

theorem Dev.ageReport_length (d : Dev) : d.ageReport.length = 1440 := by
  simp [Dev.ageReport, Function.comp_def, List.length_flatten]

theorem Dev.ageReport_time (d : Dev) : leNat (d.ageReport.take 8) = d.plat.now % 2 ^ 64 := by
  rw [Dev.ageReport, List.take_append_of_le_length (by rw [leBytes_length]; decide)]
  exact leNat_packBits (by decide) rfl

theorem Dev.ageReport_index (d : Dev) {k : Nat} (hk : k < 86) :
    leNat ((d.ageReport.drop (64 + 16 * k)).take 2) = (d.pow.dom k).ai % 2 ^ 16 := by
  obtain ⟨rest, hrest⟩ := flatten_record (g := fun id => leBytes 16 (d.ageEntry id)) (fun _ => leBytes_length ..) hk
  rw [Dev.ageReport, List.drop_append, List.drop_eq_nil_of_le (by simp), leBytes_length, Nat.add_sub_cancel_left, hrest, List.nil_append,
    List.take_append_of_le_length (by simp)]
  exact leNat_packBits (by decide) rfl

/-! ## Ageing readings (R406 to R408) -/

/-- A reading of a domain that leaves index `ai` and count `n`. -/
def Dom.aged (x : Dom) (now beat ai n : Nat) : Dom :=
  { x with ai := ai, gbNew := min 255 (15 + ceilDiv (ai * 600) 65536), readings := ((now, ai) :: x.readings).take 8, nReads := n, lastBeat := beat }

/-- The domain after a reading: the first is the reference of the later ones. -/
def Dom.takesReading (x : Dom) (now beat st re : Nat) : Dom :=
  match x.rho0 with
  | none => ({ x with rho0 := some (st, re) } : Dom).aged now beat 0 0
  | some (s0, r0) => x.aged now beat (min 65535 (ageIndex s0 r0 st re)) (min 65535 (x.nReads + 1))

theorem Dom.takesReading_aged (x : Dom) (now beat st re : Nat) :
    ∃ ai n rho, x.takesReading now beat st re = ({ x with rho0 := rho } : Dom).aged now beat ai n := by
  unfold Dom.takesReading
  split
  · exact ⟨_, _, _, rfl⟩
  · exact ⟨_, _, x.rho0, rfl⟩

theorem Dom.takesReading_first {x : Dom} (h : x.rho0 = none) (now beat st re : Nat) :
    x.takesReading now beat st re = ({ x with rho0 := some (st, re) } : Dom).aged now beat 0 0 := by
  rw [Dom.takesReading, h]

theorem Dom.takesReading_later {x : Dom} {s0 r0 : Nat} (h : x.rho0 = some (s0, r0)) (now beat st re : Nat) :
    x.takesReading now beat st re = x.aged now beat (min 65535 (ageIndex s0 r0 st re)) (min 65535 (x.nReads + 1)) := by
  rw [Dom.takesReading, h]

section
variable {s : State} {id st re : Nat}

theorem exec_ageingReading_due (hid : id ≤ 85) (hon : id = 85 ∨ s.dev.pow.on id = true) (hst : 0 < st) (hre : 0 < re)
    (hdue : s.dev.ageDue id = true) : ∃ w : Pow, exec (.ageingReading id st re) s = .next { s with dev := { s.dev with pow := w } } ∧
      s.dev.pow.Sets w id ((s.dev.pow.dom id).takesReading s.dev.plat.now s.dev.cad.beat st re) := by
  have hmay : (id == 85 || s.dev.pow.on id) = true := by simpa using hon
  exact ⟨_, event_of_can _ (by simp [hid, hmay, hst, hre, hdue]), Pow.Sets.upd ..⟩

/-- A later reading counts from the first (R407). -/
theorem ageIndex_eq {s0 r0 st re k : Nat} (hlow : k * (s0 * re) ≤ (s0 * re - st * r0) * 65536)
    (hup : (s0 * re - st * r0) * 65536 < (k + 1) * (s0 * re)) : ageIndex s0 r0 st re = k :=
  Nat.div_eq_of_lt_le hlow hup

theorem ageIndex_fresh {s0 r0 st re : Nat} (h : s0 * re ≤ st * r0) : ageIndex s0 r0 st re = 0 := by
  rw [ageIndex, Nat.sub_eq_zero_of_le h, Nat.zero_mul, Nat.zero_div]

end

/-- Settles O44: requests by what they make of a domain in each state, the other commands and readings by their own meaning. -/
theorem powerCommandsAct : Obligations.PowerCommandsAct := by
  rintro s q f p n rfl hn
  have hnamed : ∀ l, reqCmd l s.dev.host.nextCmd = l ++ [s.dev.host.nextCmd] := fun l => if_neg hn
  refine ⟨fun id x y h hid hretired hx hy hon => ?on, fun id x y h hid hretired hport => ⟨exec_domainOff_refused h, fun hfree hx hy hoff => ?off⟩,
    fun id x h hauto hid hretired hx => ?auto, fun record h => ?budget, fun dest h hdest => ?report, fun id st re x hx hid hon hst hre => ?reading⟩
  case on =>
    subst hx hy
    rw [← hnamed, ← hnamed]
    refine ⟨fun hoff => ⟨fun hst => ?_, fun hst => ?_, fun hst => ?_, fun hst hdwell hparent hbrake => ?_⟩, fun hoff hst => ?_⟩
    · exact exec_domainOn_sets (ks := []) h hid hretired fun e he => he.reqOn_up _ hon hoff hst
    · exact exec_domainOn_sets (ks := []) h hid hretired fun e he => he.reqOn_rising _ hon hoff hst
    · exact exec_domainOn_sets (ks := [0x60]) h hid hretired fun e he => he.reqOn_falling _ hon hoff hst
    · exact exec_domainOn_sets (ks := []) h hid hretired fun e he => he.reqOn_off _ hon hoff hst hdwell hparent hbrake
    · exact exec_domainOn_sets (ks := [0x61]) h hid hretired fun e he => he.reqOn_rising_cancels _ hon hoff hst
  case off =>
    subst hx hy
    rw [← hnamed, ← hnamed]
    refine ⟨fun hon => ⟨fun hst => ?_, fun hst hwant => ?_, fun hst => ?_, fun hst => ?_⟩, fun hon hst => ?_⟩
    · exact exec_domainOff_sets (ks := []) h hid hretired hport hfree fun e he => he.reqOff_up _ hon hoff hst
    · exact exec_domainOff_sets (ks := []) h hid hretired hport hfree fun e he => he.reqOff_off _ hon hoff hst hwant
    · exact exec_domainOff_sets (ks := [0x60]) h hid hretired hport hfree fun e he => he.reqOff_rising _ hon hoff hst
    · exact exec_domainOff_sets (ks := []) h hid hretired hport hfree fun e he => he.reqOff_falling _ hon hoff hst
    · exact exec_domainOff_sets (ks := [0x61]) h hid hretired hport hfree fun e he => he.reqOff_falling_cancels _ hon hoff hst
  case auto =>
    subst hx
    refine ⟨fun hidle => exec_domainAuto_sets h hauto hid hretired fun e he => ?_,
      fun hbusy hst hwant hon hoff hdwell hparent hbrake => exec_domainAuto_sets h hauto hid hretired fun e he => ?_⟩
    · split
      · next hbusy =>
        have hup := hidle.resolve_left (by simp [hbusy])
        rwa [Dev.demand_none (by rw [he.pow.here]; exact hup)]
      · exact he
    · rw [if_pos hbusy]
      exact he.demand hauto hst hwant hon hoff hdwell (show (0 : Nat) ≠ 2 by decide) hparent hbrake
  case budget =>
    cases h.form
    rw [exec_setEnergyBudget, execSetEnergyBudget]
    refine ⟨fun hok hroom => h.doneBy rfl ⟨by simp [hok], if_neg fun hboth => ?_, rfl⟩ ?_, fun hbad => h.refusedBy ?_⟩
    · obtain ⟨hsome, hless⟩ := Bool.and_eq_true_iff.1 hboth
      rcases hroom with hzero | hroom
      · simp [hzero] at hsome
      · rw [hroom] at hless
        cases hless
    · have hbegun := s.dev.begin__replied q p
      rw [hbegun.pow]
      exact hbegun.countAll _ (ks := []) List.not_mem_nil
    · refine hbad.imp (fun hbad => by simp [hbad]) fun ⟨hsome, hless⟩ => ?_
      rw [if_pos (Bool.and_eq_true_iff.2 ⟨decide_eq_true hsome, hless⟩)]
      exact Option.some_ne_none _
  case report =>
    cases h.form
    rw [exec_ageingReport, execAgeingReport]
    refine ⟨h.doneBy rfl ⟨if_neg (by rw [hdest]; exact Bool.false_ne_true), rfl, rfl⟩ ?_, s.dev.ageReport_length, s.dev.ageReport_time, fun k hk => s.dev.ageReport_index hk⟩
    have hbegun := s.dev.begin__replied q p
    have hreport : (s.dev.begin_ q p).1.ageReport = s.dev.ageReport :=
      show (s.dev.begin_ q p).1.quiet.ageReport = s.dev.quiet.ageReport by rw [hbegun.quiet]
    rw [hreport]
    exact hbegun.store _ _
  case reading =>
    subst hx
    refine ⟨fun hearly => event_of_cannot _ (by simp [hearly]), fun hdue => ?_⟩
    obtain ⟨w, hexec, hset⟩ := exec_ageingReading_due hid hon hst hre hdue
    obtain ⟨ai, n, rho, haged⟩ := (s.dev.pow.dom id).takesReading_aged s.dev.plat.now s.dev.cad.beat st re
    refine ⟨w, _, hexec, hset, by rw [haged]; rfl, by rw [haged]; rfl, by rw [haged]; rfl, by rw [haged]; rfl, by rw [haged]; rfl,
      by rw [haged]; rfl, by rw [haged]; rfl, fun hnone => ?_, fun s0 r0 hsome _ _ => ?_⟩
    · rw [Dom.takesReading_first hnone]
      exact ⟨rfl, rfl, rfl⟩
    · rw [Dom.takesReading_later hsome]
      refine ⟨rfl, rfl, fun hfresh => ?_, fun k hlow hup hk => ?_⟩
      · rw [ageIndex_fresh hfresh]
        rfl
      · rw [ageIndex_eq hlow hup]
        exact Nat.min_eq_right hk

end Sys2Proof.Machine
end

