-- ==== Sys2Proof/Proofs/DomainStates.lean ====
section
/-! PROOFS. Power domains as they go through their states (R381 to R388): O45. -/

namespace Sys2Proof.Machine

section
variable (id : Nat) (s : State)

theorem exec_domainDrained : exec (.domainDrained id) s = execDomainDrained id s := rfl
theorem exec_wipeDone : exec (.wipeDone id) s = execWipeDone id s := rfl
theorem exec_powerDownDone : exec (.powerDownDone id) s = execPowerDownDone id s := rfl
theorem exec_offDwellEnd : exec (.offDwellEnd id) s = execOffDwellEnd id s := rfl
theorem exec_domainPoweredUp : exec (.domainPoweredUp id) s = execDomainPoweredUp id s := rfl
theorem exec_idleOffExpiry : exec (.idleOffExpiry id) s = execIdleOffExpiry id s := rfl

end

/-- DOMAIN records change trace records and counters alone. -/
theorem Dev.traceDoms_obs (d : Dev) (old : Pow) : ∃ o c, d.traceDoms old = { d with obs := o, ctr := c } := by
  unfold Dev.traceDoms
  split
  · exact ⟨d.obs, d.ctr, rfl⟩
  · refine foldl_keeps (fun e : Dev => ∃ o c, e = { d with obs := o, ctr := c }) _ ?_ _ d ⟨d.obs, d.ctr, rfl⟩
    rintro _ id ⟨o, c, rfl⟩
    split
    · exact ⟨o, c, rfl⟩
    · obtain ⟨o', c', htrace⟩ := Dev.trace_obs { d with obs := o, ctr := c } 0x0C (domDie id) id 0 (d.pow.dom id).st (d.pow.dom id).freq
      exact ⟨o', c', htrace⟩

section
variable (d : Dev) (old : Pow)

@[simp] theorem Dev.traceDoms_pow : (d.traceDoms old).pow = d.pow := (d.traceDoms_replied old).pow
@[simp] theorem Dev.traceDoms_mem : (d.traceDoms old).mem = d.mem := by obtain ⟨o, c, h⟩ := d.traceDoms_obs old; rw [h]
@[simp] theorem Dev.traceDoms_plat : (d.traceDoms old).plat = d.plat := by obtain ⟨o, c, h⟩ := d.traceDoms_obs old; rw [h]
@[simp] theorem Dev.traceDoms_plans : (d.traceDoms old).plans = d.plans := by obtain ⟨o, c, h⟩ := d.traceDoms_obs old; rw [h]
@[simp] theorem Dev.traceDoms_cob : (d.traceDoms old).cob = d.cob := by obtain ⟨o, c, h⟩ := d.traceDoms_obs old; rw [h]
@[simp] theorem Dev.traceDoms_ing : (d.traceDoms old).ing = d.ing := by obtain ⟨o, c, h⟩ := d.traceDoms_obs old; rw [h]
@[simp] theorem Dev.traceDoms_enc : (d.traceDoms old).enc = d.enc := by obtain ⟨o, c, h⟩ := d.traceDoms_obs old; rw [h]
@[simp] theorem Dev.traceDoms_host : (d.traceDoms old).host = d.host := by obtain ⟨o, c, h⟩ := d.traceDoms_obs old; rw [h]

end

/-! ## DRAINING and WIPING (R383, R384, R386) -/

/-- The device whose domain `id` is drained, before its DOMAIN record. -/
def Dev.drain (d : Dev) (id : Nat) : Dev :=
  { (if 57 ≤ id ∧ id ≤ 60 then d.noteStop (id - 57) else d) with
    pow := d.pow.upd id (fun x => { x with st := 4, since := d.plat.now })
    host := if id = 64 ∨ id = 65 then d.host.updPort (id - 64) (fun p => p.goDown d.plat.now) else d.host
    ing := if 66 ≤ id ∧ id ≤ 80 then d.ing.unload (id - 66) d.plat.now else d.ing }

theorem exec_domainDrained_done {s : State} {id : Nat} (hst : (s.dev.pow.dom id).st = 3) (hdrained : s.dev.drained id = true) :
    exec (.domainDrained id) s = .next { s with dev := (s.dev.drain id).traceDoms s.dev.pow } :=
  (exec_domainDrained id s).trans (event_of_can _ (by simp [hst, hdrained]))

section
variable (d : Dev) {id : Nat}

theorem Dev.drain_sets : d.pow.Sets (d.drain id).pow id { d.pow.dom id with st := 4, since := d.plat.now } := .upd ..

theorem Dev.drain_mem : (d.drain id).mem = d.mem := by
  unfold Dev.drain
  split <;> rfl

/-- A domain outside the update units leaves the Cob. -/
theorem Dev.drain_eq (hunit : ¬ (57 ≤ id ∧ id ≤ 60)) :
    d.drain id = { d with pow := (d.drain id).pow, host := (d.drain id).host, ing := (d.drain id).ing } := by
  unfold Dev.drain
  rw [if_neg hunit]

theorem Dev.drain_host (h : id ≠ 64 ∧ id ≠ 65) : (d.drain id).host = d.host := if_neg (by omega)

theorem Dev.drain_ing (h : ¬ (66 ≤ id ∧ id ≤ 80)) : (d.drain id).ing = d.ing := if_neg h

/-- An update unit leaves its blocks, its order and the passes in hand. -/
theorem Dev.drain_cob : (d.drain id).cob.blks = d.cob.blks ∧ (d.drain id).cob.order = d.cob.order ∧ (d.drain id).cob.units = d.cob.units := by
  unfold Dev.drain
  split <;> exact ⟨rfl, rfl, rfl⟩

/-- No job is left in the engine. -/
theorem Dev.drain_jobs (h : 66 ≤ id ∧ id ≤ 80) : ∀ j ∈ (d.drain id).ing.jobs, j.engine ≠ some (id - 66) := by
  have hing : (d.drain id).ing = d.ing.unload (id - 66) d.plat.now := if_pos h
  rw [hing]
  intro j hj
  obtain ⟨i, -, rfl⟩ := List.mem_map.1 hj
  split
  · exact fun hnone => nomatch hnone
  · assumption

theorem Port.goDown_up (p : Port) (now : Nat) : (p.goDown now).up = false := by
  unfold Port.goDown
  split
  · rfl
  · next h => simpa using h

/-- The link is down. -/
theorem Dev.drain_port (h : id = 64 ∨ id = 65) : ((d.drain id).host.port (id - 64)).up = false := by
  have hhost : (d.drain id).host = d.host.updPort (id - 64) (fun p => p.goDown d.plat.now) := if_pos h
  rw [hhost, HostIf.port_updPort, if_pos rfl]
  exact Port.goDown_up ..

/-! ### Wiped storage (R140, R381) -/

/-- A wipe leaves the platform and the plans. -/
theorem Dev.wipeDomain_frame : (d.wipeDomain id).plat = d.plat ∧ (d.wipeDomain id).plans = d.plans := by
  unfold Dev.wipeDomain
  dsimp only
  repeat refine iteInduction (motive := fun e : Dev => e.plat = d.plat ∧ e.plans = d.plans) (fun _ => ⟨rfl, rfl⟩) fun _ => ?_
  exact ⟨rfl, rfl⟩

theorem Dev.wipeDomain_cluster (h : isCluster id = true) :
    (d.wipeDomain id).mem = wipeRange (wipeRange d.mem (coreStore (48 * (id / 14) + 4 * (id % 14))) 0x1000000)
        (accWin (4 * (48 * (id / 14) + 4 * (id % 14)))) 0x400000 ∧
      (d.wipeDomain id).cores = d.cores.filter (fun e => e.1 < 48 * (id / 14) + 4 * (id % 14) || 48 * (id / 14) + 4 * (id % 14) + 4 ≤ e.1) ∧
      (d.wipeDomain id).host = d.host := by
  unfold Dev.wipeDomain
  rw [if_pos h]
  exact ⟨rfl, rfl, rfl⟩

/-- The bytes of the first wipe read 0: of a cluster, the storage of its cores. -/
theorem Dev.wipeDomain_cores (h : isCluster id = true) {a : Nat} (hlo : coreStore (48 * (id / 14) + 4 * (id % 14)) ≤ a)
    (hhi : a < coreStore (48 * (id / 14) + 4 * (id % 14)) + 0x1000000) : rdByte (d.wipeDomain id).mem a = 0 := by
  rw [(d.wipeDomain_cluster h).1, rdByte_wipeRange, rdByte_wipeRange, if_pos (show _ ∧ _ from ⟨hlo, hhi⟩), ite_self]

/-- The bytes `lo` to `hi` are the storage of a domain other than a cluster. -/
def domStorage (id lo hi : Nat) : Prop :=
  (id < 56 ∧ id % 14 = 12 ∧ lo = podStore (id / 14) ∧ hi = lo + 0x10000000) ∨ (id < 56 ∧ id % 14 = 13 ∧ lo = podGddr (id / 14) ∧ hi = lo + 0x1000000000) ∨
    (id = 61 ∧ lo = sramBase ∧ hi = lo + 0x8000000) ∨ (id = 62 ∧ lo = sramBase + 0x8000000 ∧ hi = lo + 0x8000000) ∨
    (id = 63 ∧ lo = cobGddr ∧ hi = lo + 0x1000000000)

theorem Dev.wipeDomain_storage {lo hi : Nat} (h : domStorage id lo hi) :
    isCluster id = false ∧ ∃ n, hi = lo + n ∧ (d.wipeDomain id).mem = wipeRange d.mem lo n := by
  have hcluster : 12 ≤ id % 14 → isCluster id = false := fun hi => by simp [isCluster, hi]
  rcases h with ⟨hid, hpod, rfl, rfl⟩ | ⟨hid, hpod, rfl, rfl⟩ | ⟨rfl, rfl, rfl⟩ | ⟨rfl, rfl, rfl⟩ | ⟨rfl, rfl, rfl⟩
  · have hno := hcluster (by omega)
    exact ⟨hno, _, rfl, by simp [Dev.wipeDomain, hno, hid, hpod]⟩
  · have hno := hcluster (by omega)
    exact ⟨hno, _, rfl, by simp [Dev.wipeDomain, hno, hid, hpod]⟩
  all_goals exact ⟨rfl, _, rfl, rfl⟩

/-- A wipe of storage outside the clusters clears it and nothing else. -/
theorem Dev.wipeDomain_rdByte {lo hi : Nat} (h : domStorage id lo hi) (a : Nat) :
    rdByte (d.wipeDomain id).mem a = if lo ≤ a ∧ a < hi then 0 else rdByte d.mem a := by
  obtain ⟨-, n, rfl, hmem⟩ := d.wipeDomain_storage h
  rw [hmem, rdByte_wipeRange]

/-- The encoder forgets its picture and reference pictures, and no session. -/
theorem Dev.wipeDomain_encoder : (d.wipeDomain 82).enc.cur = none ∧
    ∀ n, (d.wipeDomain 82).enc.sess_ n = { d.enc.sess_ n with ref := [] } :=
  ⟨rfl, fun n => Tab.get_map ({} : EncSess) d.enc.sess (fun x => { x with ref := [] }) rfl n⟩

end

theorem exec_wipeDone_done {s : State} {id : Nat} (hst : (s.dev.pow.dom id).st = 4) (hrun : (s.dev.pow.dom id).stopped = false)
    (htime : (s.dev.pow.dom id).since + wipeTime s.dev.plat s.dev.pow id ≤ s.dev.plat.now) : exec (.wipeDone id) s = .next { s with
      dev := ({ s.dev.wipeDomain id with pow := s.dev.pow.upd id (fun x => { x with st := 5, since := s.dev.plat.now }) } : Dev).traceDoms s.dev.pow } :=
  (exec_wipeDone id s).trans (event_of_can _ (by simp [hst, hrun, htime]))

/-! ## OFF (R383, R385) -/

/-- The domain as it goes OFF: a pending ON request begins to act. -/
def Dom.goesOff (x : Dom) (now : Nat) : Dom :=
  { x with st := 0, dwell := true, since := now, offCmds := [], freq := 0, pendOn := false, pendCmds := [],
           wantUp := x.pendOn, onCmds := if x.pendOn then x.pendCmds else [] }

/-- The device whose domain has gone OFF, before its parent is asked for. -/
def Dev.goOff (d : Dev) (id : Nat) : Dev :=
  (({ d with pow := d.pow.upd id (fun x => x.goesOff d.plat.now) } : Dev).traceDoms d.pow).finishAll (d.pow.dom id).offCmds stDone

theorem Dev.goOff_sets (d : Dev) (id : Nat) : d.SetsDom [] id ((d.pow.dom id).goesOff d.plat.now) (d.goOff id) :=
  ((Dev.SetsDom.of_sets (.upd d.pow id fun x => x.goesOff d.plat.now)).replies (Dev.traceDoms_replied ..)).replies (Dev.finishAll_replied ..)

section
variable {s : State} {id : Nat} (hst : (s.dev.pow.dom id).st = 5) (htime : (s.dev.pow.dom id).since + 10000 ≤ s.dev.plat.now)
include hst htime

theorem exec_powerDownDone_alone
    (halone : (s.dev.pow.dom id).pendOn = false ∨ ∀ k, parentOf id = some k → s.dev.pow.on k = true) :
    exec (.powerDownDone id) s = .next { s with dev := s.dev.goOff id } := by
  rw [exec_powerDownDone, execPowerDownDone, event_of_can _ (by simp [hst, htime])]
  split
  · next k hk =>
    refine congrArg (fun e => (.next { s with dev := e } : Res)) (if_neg fun hasks => ?_)
    obtain ⟨hpend, hdown⟩ := Bool.and_eq_true_iff.1 hasks
    rcases halone with hnone | hparent
    · exact Bool.false_ne_true (hnone.symm.trans hpend)
    · have hon := ((Pow.Sets.upd s.dev.pow id (·.goesOff s.dev.plat.now)).on (parentOf_ne hk)).trans (hparent k hk)
      exact Bool.false_ne_true (((Bool.not_eq_true' _).mp hdown).symm.trans hon)
  · rfl

theorem exec_powerDownDone_parent {k : Nat} (hpend : (s.dev.pow.dom id).pendOn = true) (hk : parentOf id = some k) (hdown : s.dev.pow.on k = false) :
    exec (.powerDownDone id) s = .next { s with dev := (s.dev.goOff id).reqOn1 k 0 } := by
  have hon := ((Pow.Sets.upd s.dev.pow id (·.goesOff s.dev.plat.now)).on (parentOf_ne hk)).trans hdown
  rw [exec_powerDownDone, execPowerDownDone, event_of_can _ (by simp [hst, htime])]
  simp only [hk]
  exact congrArg (fun e => (.next { s with dev := e } : Res)) (if_pos (Bool.and_eq_true_iff.2 ⟨hpend, (Bool.not_eq_true' _).mpr hon⟩))

end

/-- A domain that takes an ON request and is not ON rises, is wanted, or has the request pending. -/
theorem Dom.joinsOn_called {x : Dom} (now cmd : Nat) (free : Bool) (hst : x.st ≠ 2) :
    (x.joinsOn now cmd free).wantUp = true ∨ (x.joinsOn now cmd free).st = 1 ∨ (x.joinsOn now cmd free).pendOn = true := by
  unfold Dom.joinsOn Dom.risen
  split
  · exact .inr (.inr ‹_›)
  · split
    · split
      · exact .inr (.inl rfl)
      · exact .inl rfl
    · split
      · exact .inr (.inl ‹_›)
      · exact .inr (.inr rfl)

theorem Dev.reqOn1_called {d : Dev} {k : Nat} (cmd : Nat) (hst : (d.pow.dom k).st ≠ 2) : ∃ ks y, d.SetsDom ks k y (d.reqOn1 k cmd) ∧
    (y.wantUp = true ∨ y.st = 1 ∨ y.pendOn = true) := by
  have hd := Dev.SetsDom.of_replied (Dev.Replied.refl d) k
  cases hoff : (d.pow.dom k).pendOff with
  | false => exact ⟨_, _, hd.reqOn1 cmd hoff, Dom.joinsOn_called _ _ _ hst⟩
  | true => exact ⟨_, _, hd.reqOn1_cancels cmd hoff, Dom.joinsOn_called _ _ _ hst⟩

section
variable {s : State} {id : Nat} (hst : (s.dev.pow.dom id).st = 0) (hdwell : (s.dev.pow.dom id).dwell = true)
  (htime : (s.dev.pow.dom id).since + 10000 ≤ s.dev.plat.now)
include hst hdwell htime

/-- OFF_DWELL_END after its time: the dwell is over, and the domain tries to power up. -/
theorem exec_offDwellEnd_over : ∃ w, s.dev.pow.Sets w id (({ s.dev.pow.dom id with dwell := false } : Dom).risen s.dev.plat.now (s.dev.pow.mayRise id)) ∧
    exec (.offDwellEnd id) s = .next { s with dev := ({ s.dev with pow := w } : Dev).traceDoms s.dev.pow } :=
  ⟨_, .upd_tryUp s.dev.pow id (fun x => { x with dwell := false }) s.dev.plat.now,
    (exec_offDwellEnd id s).trans (event_of_can _ (by simp [hst, hdwell, htime]))⟩

end

/-! ## ON (R381, R382, R385, R388) -/

theorem Pow.tryUps_other (now : Nat) {id : Nat} (l : List Nat) (hl : id ∉ l) (w : Pow) : (l.foldl (fun w k => w.tryUp now k) w).dom id = w.dom id := by
  induction l generalizing w with
  | nil => rfl
  | cons k l ih =>
    obtain ⟨hk, hl⟩ := not_or.1 (mt List.mem_cons.2 hl)
    exact (ih hl _).trans ((w.tryUp_sets now k).others id hk)

theorem not_mem_dependants (id : Nat) : id ∉ dependants id := fun h =>
  parentOf_ne (by simpa using (List.mem_filter.1 h).2) rfl

/-- The trace buffers that waited for domain 83 begin to capture, and no domain changes. -/
theorem Dev.traceUp_pow (d : Dev) (id : Nat) : (d.traceUp id).pow = d.pow := by
  unfold Dev.traceUp
  split
  · rfl
  · refine foldl_keeps (fun e : Dev => e.pow = d.pow) _ (fun e b he => ?_) _ d rfl
    dsimp only
    split
    · exact he
    · exact (Dev.finish_replied ..).pow.trans he

/-- The domain as it comes up: ON, or DRAINING where an OFF request was pending. -/
def Dom.comesUp (x : Dom) (now : Nat) : Dom :=
  { x with st := if x.pendOff then 3 else 2, since := now, idleAt := now, onCmds := [], pendOff := false, pendCmds := [],
           offCmds := if x.pendOff then x.pendCmds else [] }

/-- The device whose domain has come up, its dependants trying to rise. -/
def Dev.comeUp (d : Dev) (id : Nat) : Dev :=
  { d.wipeDomain id with
    pow := (dependants id).foldl (fun w k => w.tryUp d.plat.now k) (d.pow.upd id (fun x => x.comesUp d.plat.now)) }

/-- Of storage, cores and queues, what comes up is what the wipe leaves. -/
theorem Dev.comeUp_wiped (d : Dev) (id : Nat) : (d.comeUp id).cores = (d.wipeDomain id).cores ∧ (d.comeUp id).mem = (d.wipeDomain id).mem ∧
    (d.comeUp id).host = (d.wipeDomain id).host := by
  rw [Dev.comeUp]
  exact ⟨rfl, rfl, rfl⟩

theorem Dev.comeUp_dom (d : Dev) (id : Nat) : (d.comeUp id).pow.dom id = (d.pow.dom id).comesUp d.plat.now :=
  (Pow.tryUps_other d.plat.now _ (not_mem_dependants id) _).trans (Pow.Sets.upd d.pow id fun x => x.comesUp d.plat.now).here

section
variable {s : State} {id : Nat}

/-- DOMAIN_POWERED_UP after its time: replies apart, the domain has come up, and clocks are set afresh. -/
theorem exec_domainPoweredUp_done (hst : (s.dev.pow.dom id).st = 1) (htime : (s.dev.pow.dom id).since + upTime id ≤ s.dev.plat.now) :
    ∃ e : Dev, (s.dev.comeUp id).Replied e ∧ exec (.domainPoweredUp id) s = .next { s with dev := (e.traceUp id).reclock } :=
  ⟨_, (Dev.traceDoms_replied (s.dev.comeUp id) s.dev.pow).trans (Dev.finishAll_replied _ (s.dev.pow.dom id).onCmds stDone),
    (exec_domainPoweredUp id s).trans (event_of_can _ (by simp [hst, htime]))⟩

end

/-- The domain that has come up, its clock set afresh. -/
theorem Dev.comeUp_reclocked {d e : Dev} {id : Nat} (he : (d.comeUp id).Replied e) :
    ∃ f, (e.traceUp id).reclock.pow.dom id = { (d.pow.dom id).comesUp d.plat.now with freq := f } := by
  obtain ⟨f, hf⟩ := (e.traceUp id).reclock_reclocked.doms id
  exact ⟨f, by rw [hf, Dev.traceUp_pow, he.pow, Dev.comeUp_dom]⟩

theorem Dev.traceUp_eq (d : Dev) {id : Nat} (h : id ≠ 83) : d.traceUp id = d := by
  rw [Dev.traceUp, if_pos (by simpa using h)]

theorem isCluster_lt {id : Nat} (h : isCluster id = true) : id < 56 := by
  simp only [isCluster, Bool.and_eq_true, decide_eq_true_eq] at h
  exact h.1

section
variable {d e : Dev} {id n : Nat} (hcluster : isCluster id = true) (hn : n = 48 * (id / 14) + 4 * (id % 14)) (he : (d.comeUp id).Replied e)
include hcluster hn he

/-- The cores of a cluster that has come up are fresh. -/
theorem Dev.comeUp_core (m : Nat) : (e.traceUp id).reclock.core m = if m < n || n + 4 ≤ m then d.core m else {} := by
  have hlt := isCluster_lt hcluster
  rw [e.traceUp_eq (by omega), e.reclock_live.1, Dev.core, he.cores, (d.comeUp_wiped id).1, (d.wipeDomain_cluster hcluster).2.1, ← hn]
  exact Tab.get_filter_key {} (fun m => m < n || n + 4 ≤ m) d.cores m

/-- Replies apart, the storage of a cluster that has come up reads 0. -/
theorem Dev.comeUp_mem {a : Nat} (hlo : coreStore n ≤ a) (hhi : a < coreStore (n + 4)) (hq : ∀ q, ¬ (d.host.queue q).replyByte q a) :
    rdByte (e.traceUp id).reclock.mem a = 0 := by
  have hlt := isCluster_lt hcluster
  have hend : coreStore (n + 4) = coreStore n + 0x1000000 := by simp only [coreStore]; omega
  obtain ⟨-, hwiped, hhost⟩ := d.comeUp_wiped id
  rw [(d.wipeDomain_cluster hcluster).2.2] at hhost
  subst hn
  rw [e.traceUp_eq (by omega), e.reclock_mem, he.mem a (by rw [hhost]; exact hq), hwiped]
  exact d.wipeDomain_cores hcluster hlo (hend ▸ hhi)

end

/-- An OFF request of the controller turns an ON domain to DRAINING. -/
theorem Dev.reqOff_drains {d : Dev} {id : Nat} (hst : (d.pow.dom id).st = 2) (hon : (d.pow.dom id).pendOn = false)
    (hoff : (d.pow.dom id).pendOff = false) : d.reqOff id 0 =
      ({ d with pow := d.pow.upd id (fun x => { x with st := 3, since := d.plat.now }) } : Dev).traceDoms d.pow := by
  simp [Dev.reqOff, hst, hon, hoff, reqCmd]

/-- Settles O45: each event by what it does in its state and time, the storage by what its wipe leaves. -/
theorem domainsGoThroughTheirStates : Obligations.DomainsGoThroughTheirStates := by
  unfold Obligations.DomainsGoThroughTheirStates
  rintro s id _ _ rfl rfl hid
  refine ⟨fun h => ?_, fun h => ?_, fun h => ?_, fun h => ?_, fun h => ?_, fun h => ?_, fun hst hdrained => ?_, fun hst hearly => ?_,
    fun hst hrun htime => ?_, fun hst htime halone => ?_, fun k hst htime hpend hk hdown => ?_, fun hst hdwell htime => ?_, fun hst htime => ?_,
    fun hst hready hauto hhold hidle hbusy htime hon hoff => ?_⟩
  · rw [exec_domainDrained]
    exact event_of_cannot _ (by simp [h])
  · rw [exec_wipeDone]
    exact event_of_cannot _ (by simp [h])
  · rw [exec_powerDownDone]
    exact event_of_cannot _ (by simp [h])
  · rw [exec_offDwellEnd]
    exact event_of_cannot _ (by simp [h])
  · rw [exec_domainPoweredUp]
    exact event_of_cannot _ (by simp [h])
  · rw [exec_idleOffExpiry]
    exact event_of_cannot _ (by simp [h])
  · refine ⟨_, exec_domainDrained_done hst hdrained, rfl, ?_, ?_, fun h => ?_, fun _ _ => ?_, fun h h' => ⟨?_, ?_⟩, fun h => ⟨?_, ?_⟩⟩ <;>
      simp only [Dev.traceDoms_pow, Dev.traceDoms_mem, Dev.traceDoms_cob, Dev.traceDoms_ing, Dev.traceDoms_host]
    · exact s.dev.drain_sets
    · exact s.dev.drain_mem
    · conv_lhs => rw [s.dev.drain_eq (by omega), s.dev.drain_host (by omega), s.dev.drain_ing (by omega)]
    · exact s.dev.drain_cob
    · conv_lhs => rw [s.dev.drain_eq (by omega), s.dev.drain_host (by omega)]
    · exact s.dev.drain_jobs ⟨h, h'⟩
    · conv_lhs => rw [s.dev.drain_eq (by omega), s.dev.drain_ing (by omega)]
    · exact s.dev.drain_port h
  · rw [exec_wipeDone]
    refine event_of_cannot _ ?_
    rcases hearly with h | h <;> simp [h]
  · refine ⟨_, exec_wipeDone_done hst hrun htime, rfl, ?_, ?_, ?_, fun lo hi hstore => ?_, ?_⟩ <;>
      simp only [Dev.traceDoms_pow, Dev.traceDoms_mem, Dev.traceDoms_plat, Dev.traceDoms_plans, Dev.traceDoms_enc]
    · exact .upd s.dev.pow id fun x => { x with st := 5, since := s.dev.plat.now }
    · exact s.dev.wipeDomain_frame.1
    · exact s.dev.wipeDomain_frame.2
    · rcases hstore with ⟨hcluster, rfl, rfl⟩ | hstore
      · exact ⟨fun a => s.dev.wipeDomain_cores hcluster, fun hno => absurd (hno.symm.trans hcluster) Bool.false_ne_true⟩
      · exact ⟨fun a hlo hhi => (s.dev.wipeDomain_rdByte hstore a).trans (if_pos ⟨hlo, hhi⟩),
          fun _ a ha => (s.dev.wipeDomain_rdByte hstore a).trans (if_neg (by omega))⟩
    · rintro rfl
      obtain ⟨hcur, hsess⟩ := s.dev.wipeDomain_encoder
      exact ⟨hcur, fun n => by rw [show Enc.sess_ _ n = _ from hsess n]; exact ⟨rfl, rfl⟩⟩
  · obtain ⟨-, w, hw, he⟩ := s.dev.goOff_sets id
    exact ⟨w, hw, _, exec_powerDownDone_alone hst htime halone, rfl, he⟩
  · have hoff := (s.dev.goOff_sets id).pow
    have hparent : ((s.dev.goOff id).pow.dom k).st ≠ 2 := by
      rw [hoff.others k (parentOf_ne hk)]
      simpa [Pow.on] using hdown
    obtain ⟨ks, y, hy, hcalled⟩ := Dev.reqOn1_called (d := s.dev.goOff id) 0 hparent
    have hid := (hy.pow.others id (parentOf_ne hk).symm).trans hoff.here
    refine ⟨_, exec_powerDownDone_parent hst htime hpend hk hdown, rfl, ?_, ?_, ?_⟩ <;> dsimp only
    · rw [hid]; rfl
    · rw [hid]; exact hpend
    · rw [hy.pow.here]; exact hcalled
  · obtain ⟨w, hw, hexec⟩ := exec_offDwellEnd_over hst hdwell htime
    refine ⟨fun hwant => ⟨w, ?_, hexec⟩, fun hwant hparent hbrake => ⟨w, ?_, hexec⟩⟩
    · rwa [Dom.risen_stays (x := { s.dev.pow.dom id with dwell := false }) (.inr hwant)] at hw
    · rwa [Pow.mayRise_of hparent hbrake, Dom.risen_rises (x := { s.dev.pow.dom id with dwell := false }) hst hwant rfl] at hw
  · obtain ⟨e, he, hexec⟩ := exec_domainPoweredUp_done hst htime
    obtain ⟨f, hdom⟩ := Dev.comeUp_reclocked he
    refine ⟨_, _, hexec, rfl, hdom, rfl, rfl, rfl, rfl, rfl, rfl, rfl, fun hcluster n hn =>
      ⟨fun m hlo hhi => ?_, fun m hm => ?_, fun a => Dev.comeUp_mem hcluster hn he⟩⟩
    · exact (Dev.comeUp_core hcluster hn he m).trans (if_neg (by simp; omega))
    · exact (Dev.comeUp_core hcluster hn he m).trans (if_pos (by simpa using hm))
  · have hexec : exec (.idleOffExpiry id) s = .next { s with dev := s.dev.reqOff id 0 } :=
      event_of_can _ (by simp [hst, hready, hauto, hhold, hidle, hbusy, htime])
    exact ⟨_, .upd s.dev.pow id fun x => { x with st := 3, since := s.dev.plat.now }, by rw [hexec, Dev.reqOff_drains hst hon hoff]⟩

end Sys2Proof.Machine
end

