-- ==== Sys2Proof/Proofs/RailsAndClocks.lean ====
section
/-! PROOFS. What clocks that are set afresh are bound by, the rails, the fast limiter and the brake (R391, R397, R403, R404, R549): O46. -/

namespace Sys2Proof.Machine

section
variable (s : State)

theorem exec_fastLimit (g : Nat) : exec (.fastLimit g) s = execFastLimit g s := rfl
theorem exec_fastLimitStop (g : Nat) : exec (.fastLimitStop g) s = execFastLimitStop g s := rfl
theorem exec_fastLimitRestore (g : Nat) : exec (.fastLimitRestore g) s = execFastLimitRestore g s := rfl
theorem exec_powerBrakeAssert : exec .powerBrakeAssert s = execPowerBrakeAssert s := rfl
theorem exec_powerBrakeRelease : exec .powerBrakeRelease s = execPowerBrakeRelease s := rfl

end

/-! ## What clocks set afresh leave -/

namespace Dev.Reclocked
variable {a b : Dev} (h : a.Reclocked b)
include h

theorem plat : b.plat = a.plat := (congrArg Dev.plat h.rest :)
theorem brakeActed : b.pow.brakeActed = a.pow.brakeActed := (congrArg Pow.brakeActed h.pow :)
theorem trip : b.pow.trip = a.pow.trip := (congrArg Pow.trip h.pow :)
theorem op : b.pow.op = a.pow.op := (congrArg Pow.op h.pow :)
theorem floorRun : b.pow.floorRun = a.pow.floorRun := (congrArg Pow.floorRun h.pow :)
theorem fastAt (g : Nat) : (b.pow.rail g).fastAt = (a.pow.rail g).fastAt := by obtain ⟨v, w, c, hg⟩ := h.rails g; rw [hg]
theorem st (id : Nat) : (b.pow.dom id).st = (a.pow.dom id).st := by obtain ⟨f, hf⟩ := h.doms id; rw [hf]

end Dev.Reclocked

/-! ## The limits of a clock (R391, R397, R400, R403, R404, R549) -/

section
variable {d : Dev} {id : Nat}

theorem Dev.wantClock_le_of_failed (h : (d.pow.rail (id / 14)).failed = true) : d.wantClock id ≤ 400 := by
  simp only [Dev.wantClock, if_pos h]
  exact min_le_right ..

/-- The brake's clock bounds every cluster. -/
theorem Dev.wantClock_le_of_brake (h : d.pow.brakeActed = true) : d.wantClock id ≤ bits d.pow.budget 88 11 := by
  simp only [Dev.wantClock, if_pos h]
  split
  · exact (min_le_left ..).trans (min_le_right ..)
  · exact min_le_right ..

/-- The training point bounds a cluster without a live task. -/
theorem Dev.wantClock_le_of_op (hfloor : d.pow.floorRun = false) (hlive : d.cad.liveClock (12 * (id / 14) + id % 14) = none) :
    d.wantClock id ≤ opFreq d.pow.op := by
  simp only [Dev.wantClock, hlive, hfloor, Bool.false_eq_true, if_false]
  split_ifs <;> omega

theorem Dev.clockOf_stopped (h : (d.pow.dom id).stopped = true) : d.clockOf id = 0 := by
  simp only [Dev.clockOf, h, Bool.true_or, if_true]

theorem Dev.clockOf_le_clusterClock (h : isCluster id = true) : d.clockOf id ≤ d.clusterClock id := by
  simp only [Dev.clockOf, if_pos h]
  split
  · exact Nat.zero_le _
  · exact le_rfl

theorem Dev.clockOf_le_wantClock (h : isCluster id = true) : d.clockOf id ≤ d.wantClock id := by
  refine (Dev.clockOf_le_clusterClock h).trans ?_
  unfold Dev.clusterClock
  dsimp only
  split
  · exact Nat.zero_le _
  · split
    · exact min_le_left ..
    · split_ifs <;> omega

section
variable (hcluster : isCluster id = true) (hlive : d.cad.liveClock (12 * (id / 14) + id % 14) = none)
include hcluster hlive

/-- The fast limiter's mark of half a clock. -/
theorem Dev.clockOf_le_half (h : (d.pow.dom id).fastHalf = true) : d.clockOf id ≤ d.wantClock id / 2 := by
  refine (Dev.clockOf_le_clusterClock hcluster).trans ?_
  simp only [Dev.clusterClock, hlive, if_pos h]
  split_ifs <;> omega

theorem Dev.clockOf_fastStop (h : (d.pow.dom id).fastStop = true) : d.clockOf id = 0 := by
  refine Nat.le_zero.1 ((Dev.clockOf_le_clusterClock hcluster).trans ?_)
  simp only [Dev.clusterClock, hlive, if_pos h, ite_self, le_refl]

end

/-- A domain that has a clock takes it by the limits, on the rails as they are commanded. -/
theorem Dev.reclock_freq (hst : (d.pow.dom id).st = 2) :
    ∃ w, d.pow.Commanded w ∧ (d.reclock.pow.dom id).freq = ({ d with pow := w } : Dev).clockOf id := by
  obtain ⟨w, doms, hw, hdoms, heq⟩ := d.reclock_eq
  refine ⟨w, hw, ?_⟩
  have hget : d.reclock.pow.dom id = ({ d with pow := w } : Dev).clocked id (d.pow.dom id) := by
    rw [heq, hdoms]
    exact Tab.get_map_key _ _ _ (fun _ => rfl) id
  rw [hget, Dev.clocked, if_pos (by simp [hst])]

end

namespace Pow.Commanded
variable {v w : Pow} (h : v.Commanded w)
include h

theorem dom (id : Nat) : w.dom id = v.dom id := by rw [Pow.dom, h.doms, Pow.dom]
theorem failed (g : Nat) : (w.rail g).failed = (v.rail g).failed := by obtain ⟨t, u, c, hg⟩ := h.rails g; rw [hg]
theorem brakeActed : w.brakeActed = v.brakeActed := (congrArg Pow.brakeActed h.rest :)
theorem budget : w.budget = v.budget := (congrArg Pow.budget h.rest :)
theorem floorRun : w.floorRun = v.floorRun := (congrArg Pow.floorRun h.rest :)
theorem op : w.op = v.op := (congrArg Pow.op h.rest :)

end Pow.Commanded

section
variable {d : Dev} {id : Nat} (hst : (d.pow.dom id).st = 2)
include hst

theorem Dev.reclock_stopped (h : (d.pow.dom id).stopped = true) : (d.reclock.pow.dom id).freq = 0 := by
  obtain ⟨w, hw, hfreq⟩ := Dev.reclock_freq hst
  rw [hfreq]
  exact Dev.clockOf_stopped ((congrArg Dom.stopped (hw.dom id)).trans h)

variable (hcluster : isCluster id = true)
include hcluster

theorem Dev.reclock_failed (h : (d.pow.rail (id / 14)).failed = true) : (d.reclock.pow.dom id).freq ≤ 400 := by
  obtain ⟨w, hw, hfreq⟩ := Dev.reclock_freq hst
  rw [hfreq]
  exact (Dev.clockOf_le_wantClock hcluster).trans (Dev.wantClock_le_of_failed ((hw.failed _).trans h))

theorem Dev.reclock_brake (h : d.pow.brakeActed = true) : (d.reclock.pow.dom id).freq ≤ bits d.pow.budget 88 11 := by
  obtain ⟨w, hw, hfreq⟩ := Dev.reclock_freq hst
  rw [hfreq, ← hw.budget]
  exact (Dev.clockOf_le_wantClock hcluster).trans (Dev.wantClock_le_of_brake (hw.brakeActed.trans h))

variable (hlive : d.cad.liveClock (12 * (id / 14) + id % 14) = none)
include hlive

theorem Dev.reclock_half (hfloor : d.pow.floorRun = false) (h : (d.pow.dom id).fastHalf = true) :
    (d.reclock.pow.dom id).freq ≤ opFreq d.pow.op / 2 := by
  obtain ⟨w, hw, hfreq⟩ := Dev.reclock_freq hst
  have hwant := Dev.wantClock_le_of_op (d := { d with pow := w }) (hw.floorRun.trans hfloor) hlive
  have hhalf := Dev.clockOf_le_half (d := { d with pow := w }) hcluster hlive ((congrArg Dom.fastHalf (hw.dom id)).trans h)
  rw [hfreq, ← hw.op]
  exact hhalf.trans (Nat.div_le_div_right hwant)

theorem Dev.reclock_fastStop (h : (d.pow.dom id).fastStop = true) : (d.reclock.pow.dom id).freq = 0 := by
  obtain ⟨w, hw, hfreq⟩ := Dev.reclock_freq hst
  rw [hfreq]
  exact Dev.clockOf_fastStop hcluster hlive ((congrArg Dom.fastStop (hw.dom id)).trans h)

end

/-! ## The fast limiter (R397) -/

/-- The limiter's marks on one domain. -/
def Dom.fast (x : Dom) (g id : Nat) (half stop : Bool) : Dom :=
  if isCluster id && id / 14 == g then { x with fastHalf := half, fastStop := stop } else x

theorem Pow.fast_doms (w : Pow) (g : Nat) (half stop : Bool) :
    (w.fast g half stop).doms = w.doms.map (fun e => (e.1, e.2.fast g e.1 half stop)) := by
  refine List.map_congr_left fun e _ => ?_
  unfold Dom.fast
  split <;> rfl

/-- A domain that has left its fixed values stands in the table, and takes the marks. -/
theorem Pow.fast_dom (w : Pow) (g : Nat) (half stop : Bool) {id : Nat} (hkept : w.dom id ≠ {}) :
    (w.fast g half stop).dom id = (w.dom id).fast g id half stop := by
  rw [Pow.dom, Pow.fast_doms]
  revert hkept
  unfold Pow.dom
  induction w.doms with
  | nil => exact fun hkept => absurd rfl hkept
  | cons e m ih =>
    simp only [List.map_cons, Tab.get]
    split
    · next he => exact fun _ => by rw [he]
    · exact ih

/-- Marks taken away leave the others. -/
theorem Pow.fast_clear (w : Pow) (g id : Nat) : (w.fast g false false).dom id = (w.dom id).fast g id false false := by
  rw [Pow.dom, Pow.fast_doms]
  exact Tab.get_map_key ({} : Dom) w.doms (fun k x => x.fast g k false false) (fun k => by unfold Dom.fast; split <;> rfl) id

theorem Dom.fast_of_rail {x : Dom} {g id : Nat} (half stop : Bool) (hcluster : isCluster id = true) (hg : id / 14 = g) :
    x.fast g id half stop = { x with fastHalf := half, fastStop := stop } := if_pos (by simp [hcluster, hg])

theorem Dom.ne_of_up {x : Dom} (h : x.st = 2) : x ≠ {} := fun hx => by rw [hx] at h; cases h

theorem Pow.fast_up {w : Pow} {g id : Nat} (half stop : Bool) (hcluster : isCluster id = true) (hg : id / 14 = g) (hup : (w.dom id).st = 2) :
    (w.fast g half stop).dom id = { w.dom id with fastHalf := half, fastStop := stop } :=
  (w.fast_dom g half stop (Dom.ne_of_up hup)).trans (Dom.fast_of_rail half stop hcluster hg)

theorem Pow.fast_cleared {w : Pow} {g id : Nat} (hcluster : isCluster id = true) (hg : id / 14 = g) :
    (w.fast g false false).dom id = { w.dom id with fastHalf := false, fastStop := false } :=
  (w.fast_clear g id).trans (Dom.fast_of_rail false false hcluster hg)

/-- The device once the limiter has halved the clocks of a rail. -/
def Dev.fastLimited (d : Dev) (g : Nat) : Dev :=
  { d with pow := (d.pow.fast g true false).updRail g (fun r => { r with fastAt := some d.plat.now }), ctr := bump d.ctr cobInst 0x63 1 }

/-- The device once the limiter has stopped the clocks of a rail. -/
def Dev.fastStopped (d : Dev) (g : Nat) : Dev := { d with pow := d.pow.fast g true true }

/-- The device once the limiter has restored the clocks of a rail. -/
def Dev.fastRestored (d : Dev) (g : Nat) : Dev :=
  { d with pow := (d.pow.fast g false false).updRail g (fun r => { r with fastAt := none }) }

section
variable {s : State} {g : Nat} (hg : g < 5)
include hg

theorem exec_fastLimit_done (hfast : (s.dev.pow.rail g).fastAt = none) :
    exec (.fastLimit g) s = .next { s with dev := (s.dev.fastLimited g).reclock } :=
  (exec_fastLimit s g).trans (event_of_can _ (by simp [hg, hfast]))

theorem exec_fastLimitStop_done {a : Nat} (hfast : (s.dev.pow.rail g).fastAt = some a) (htime : a + 10000 ≤ s.dev.plat.now) :
    exec (.fastLimitStop g) s = .next { s with dev := (s.dev.fastStopped g).reclock } :=
  (exec_fastLimitStop s g).trans (event_of_can _ (by simp [hg, hfast, htime]))

theorem exec_fastLimitRestore_done {a : Nat} (hfast : (s.dev.pow.rail g).fastAt = some a) (htime : a + 100000 ≤ s.dev.plat.now) :
    exec (.fastLimitRestore g) s = .next { s with dev := (s.dev.fastRestored g).reclock } :=
  (exec_fastLimitRestore s g).trans (event_of_can _ (by simp [hg, hfast, htime]))

end

section
variable {d : Dev} {g id : Nat} (hcluster : isCluster id = true) (hid : id / 14 = g)
include hcluster hid

theorem Dev.fastLimited_dom (hup : (d.pow.dom id).st = 2) :
    (d.fastLimited g).pow.dom id = { d.pow.dom id with fastHalf := true, fastStop := false } := Pow.fast_up true false hcluster hid hup

theorem Dev.fastStopped_dom (hup : (d.pow.dom id).st = 2) :
    (d.fastStopped g).pow.dom id = { d.pow.dom id with fastHalf := true, fastStop := true } := Pow.fast_up true true hcluster hid hup

theorem Dev.fastRestored_dom : (d.fastRestored g).pow.dom id = { d.pow.dom id with fastHalf := false, fastStop := false } :=
  Pow.fast_cleared hcluster hid

theorem Dev.fastLimited_freq (hup : (d.pow.dom id).st = 2) (hfloor : d.pow.floorRun = false)
    (hlive : d.cad.liveClock (12 * (id / 14) + id % 14) = none) : ((d.fastLimited g).reclock.pow.dom id).freq ≤ opFreq d.pow.op / 2 := by
  have hmarked := Dev.fastLimited_dom hcluster hid hup
  exact Dev.reclock_half (by rw [hmarked]; exact hup) hcluster hlive hfloor (by rw [hmarked])

theorem Dev.fastStopped_freq (hup : (d.pow.dom id).st = 2) (hlive : d.cad.liveClock (12 * (id / 14) + id % 14) = none) :
    ((d.fastStopped g).reclock.pow.dom id).freq = 0 := by
  have hmarked := Dev.fastStopped_dom hcluster hid hup
  exact Dev.reclock_fastStop (by rw [hmarked]; exact hup) hcluster hlive (by rw [hmarked])

theorem Dev.fastRestored_marks :
    ((d.fastRestored g).reclock.pow.dom id).fastHalf = false ∧ ((d.fastRestored g).reclock.pow.dom id).fastStop = false := by
  obtain ⟨f, hf⟩ := (d.fastRestored g).reclock_reclocked.doms id
  rw [hf, Dev.fastRestored_dom hcluster hid]
  exact ⟨rfl, rfl⟩

end

/-! ## The brake (R403, R546) -/

theorem Plat.brakeOff_brakeN (p : Plat) : p.brakeOff.brakeN = true := by
  unfold Plat.brakeOff
  split <;> rfl

/-- A state that stays the same leaves no DOMAIN record. -/
theorem Dev.traceDoms_same (d : Dev) : d.traceDoms d.pow = d := by
  unfold Dev.traceDoms
  split
  · rfl
  · refine foldl_keeps (· = d) _ ?_ _ d rfl
    rintro _ id rfl
    exact if_pos rfl

/-- Units that want nothing stay as they are. -/
theorem Pow.tryUps_idle {w : Pow} {now : Nat} {l : List Nat} (h : ∀ u ∈ l, (w.dom u).wantUp = false) : l.foldl (fun w u => w.tryUp now u) w = w := by
  induction l with
  | nil => rfl
  | cons u l ih =>
    obtain ⟨hu, hl⟩ := List.forall_mem_cons.1 h
    have hstays : w.tryUp now u = w := if_neg fun hrises => by rw [hu] at hrises; exact Bool.false_ne_true hrises.2.1
    rw [List.foldl_cons, hstays, ih hl]

/-- A unit on its way up stays so while others try. -/
theorem Pow.tryUps_rising {w : Pow} {now u : Nat} {l : List Nat} (h : (w.dom u).st = 1) : ((l.foldl (fun w k => w.tryUp now k) w).dom u).st = 1 := by
  refine foldl_keeps (fun v : Pow => (v.dom u).st = 1) _ (fun v k hv => ?_) l w h
  by_cases hk : u = k
  · subst hk
    rw [(v.tryUp_sets now u).here, Dom.risen_stays (.inl (by omega))]
    exact hv
  · rw [(v.tryUp_sets now k).others u hk]
    exact hv

theorem Pow.tryUps_brakeActed (now : Nat) (l : List Nat) (w : Pow) : (l.foldl (fun w k => w.tryUp now k) w).brakeActed = w.brakeActed :=
  foldl_keeps (fun v : Pow => v.brakeActed = w.brakeActed) _ (fun v k hv => (v.tryUp_sets now k).brakeActed.trans hv) l w rfl

theorem parentOf_unit {u : Nat} (hlo : 57 ≤ u) (hhi : u ≤ 60) : parentOf u = some 56 := by
  interval_cases u <;> rfl

/-- The device whose brake is released. -/
def Dev.unbraked (d : Dev) : Dev :=
  { d with plat := d.plat.brakeOff, pow := { d.pow with brakeActed := false, brakeReplan := true, brakeUnits := [] } }

theorem Dev.unbraked_eq {d : Dev} (h : d.pow.brakeUnits = []) :
    d.unbraked = { d with plat := d.plat.brakeOff, pow := { d.pow with brakeActed := false, brakeReplan := true } } := by
  simp only [Dev.unbraked, h]

theorem Dev.unbraked_brakeN (d : Dev) : d.unbraked.reclock.plat.brakeN = true :=
  (congrArg Plat.brakeN d.unbraked.reclock_reclocked.plat).trans d.plat.brakeOff_brakeN

/-- The update units that want to come up try to. -/
def Dev.unitsTry (d : Dev) (now : Nat) : Dev :=
  ({ d with pow := ([57, 58, 59, 60] : List Nat).foldl (fun w u => w.tryUp now u) d.pow } : Dev).traceDoms d.pow

theorem Dev.unitsTry_pow (d : Dev) (now : Nat) : (d.unitsTry now).pow = ([57, 58, 59, 60] : List Nat).foldl (fun w u => w.tryUp now u) d.pow := by
  rw [Dev.unitsTry, Dev.traceDoms_pow]

theorem Dev.unitsTry_plat (d : Dev) (now : Nat) : (d.unitsTry now).plat = d.plat := by rw [Dev.unitsTry, Dev.traceDoms_plat]

theorem Dev.unitsTry_idle {d : Dev} (now : Nat) (h : ∀ u, 57 ≤ u → u ≤ 60 → (d.pow.dom u).wantUp = false) : d.unitsTry now = d := by
  rw [Dev.unitsTry, Pow.tryUps_idle fun u hu => h u (by simp at hu; omega) (by simp at hu; omega)]
  exact d.traceDoms_same

section
variable {s : State}

theorem exec_powerBrakeRelease_done (hpin : s.dev.plat.brakeN = false) : exec .powerBrakeRelease s = .next { s with
    dev := ((s.dev.pow.brakeUnits.foldl (fun d u => d.reqOn u 0) s.dev.unbraked).unitsTry s.dev.plat.now).reclock } :=
  (exec_powerBrakeRelease s).trans (event_of_can _ (by simp [hpin]))

/-- A release with no unit to bring up. -/
theorem exec_powerBrakeRelease_idle (hpin : s.dev.plat.brakeN = false) (hunits : s.dev.pow.brakeUnits = [])
    (hidle : ∀ u, 57 ≤ u → u ≤ 60 → (s.dev.pow.dom u).wantUp = false) :
    exec .powerBrakeRelease s = .next { s with dev := s.dev.unbraked.reclock } := by
  rw [exec_powerBrakeRelease_done hpin, hunits, List.foldl_nil, Dev.unitsTry_idle (d := s.dev.unbraked) _ hidle]

/-- A release with one OFF unit to bring up: it powers up. -/
theorem exec_powerBrakeRelease_unit {u : Nat} (hpin : s.dev.plat.brakeN = false) (hlo : 57 ≤ u) (hhi : u ≤ 60)
    (hunits : s.dev.pow.brakeUnits = [u]) (hst : (s.dev.pow.dom u).st = 0) (hon : (s.dev.pow.dom u).pendOn = false)
    (hoff : (s.dev.pow.dom u).pendOff = false) (hdwell : (s.dev.pow.dom u).dwell = false) (hparent : s.dev.pow.on 56 = true) :
    ∃ t : State, exec .powerBrakeRelease s = .next t ∧ t.pending = s.pending ∧
      (t.dev.pow.dom u).st = 1 ∧ t.dev.plat.brakeN = true ∧ t.dev.pow.brakeActed = false := by
  have hreq := (Dev.SetsDom.of_replied (Dev.Replied.refl s.dev.unbraked) u).reqOn_off 0 hon hoff hst hdwell
    (fun k hk => by rw [parentOf_unit hlo hhi] at hk; cases hk; exact hparent) fun _ _ => rfl
  have hclocks := ((s.dev.unbraked.reqOn u 0).unitsTry s.dev.plat.now).reclock_reclocked
  refine ⟨{ s with dev := ((s.dev.unbraked.reqOn u 0).unitsTry s.dev.plat.now).reclock },
    by rw [exec_powerBrakeRelease_done hpin, hunits, List.foldl_cons, List.foldl_nil], rfl, ?_, ?_, ?_⟩ <;> dsimp only
  · refine (hclocks.st u).trans ?_
    rw [Dev.unitsTry_pow]
    exact Pow.tryUps_rising (by rw [hreq.pow.here])
  · rw [hclocks.plat, Dev.unitsTry_plat, hreq.plat]
    exact s.dev.plat.brakeOff_brakeN
  · rw [hclocks.brakeActed, Dev.unitsTry_pow, Pow.tryUps_brakeActed]
    exact hreq.pow.brakeActed

/-- The device under the brake, with no unit to bring up after it. -/
def Dev.braked (d : Dev) : Dev :=
  { d with plat := { d.plat with brakeN := false }, pow := { d.pow with brakeActed := true, brakeUnits := [] }, ctr := bump d.ctr cobInst 0x66 1 }

/-- The assertion while no unit is ON or on its way up. -/
theorem exec_powerBrakeAssert_idle (hpin : s.dev.plat.brakeN = true)
    (hidle : ∀ u, 57 ≤ u → u ≤ 60 → s.dev.pow.on u = false ∧ (s.dev.pow.dom u).st ≠ 1 ∧ (s.dev.pow.dom u).wantUp = false) :
    exec .powerBrakeAssert s = .next { s with dev := s.dev.braked.reclock } := by
  have hnone : [57, 58, 59, 60].filter (fun u => s.dev.pow.on u || (s.dev.pow.dom u).st == 1 || (s.dev.pow.dom u).wantUp) = [] := by
    refine List.filter_eq_nil_iff.2 fun u hu => ?_
    obtain ⟨hdown, hst, hwant⟩ := hidle u (by simp at hu; omega) (by simp at hu; omega)
    simp [hdown, hst, hwant]
  rw [exec_powerBrakeAssert, execPowerBrakeAssert, hnone, event_of_can _ hpin]
  rfl

end

end Sys2Proof.Machine
end

