-- ==== Sys2Proof/Proofs/HeatAndTelemetry.lean ====
section
/-! PROOFS. Heat, rail samples, checkpoints and the telemetry mirror (R393, R394, R398 to R402, R405): O46. -/

namespace Sys2Proof.Machine

section
variable (s : State)

theorem exec_sensorReading (temps : List Int) : exec (.sensorReading temps) s = execSensorReading temps s := rfl
theorem exec_railSample (rs : List (Nat × Nat)) (fixed : Nat) : exec (.railSample rs fixed) s = execRailSample rs fixed s := rfl
theorem exec_telemetrySnapshot : exec .telemetrySnapshot s = execTelemetrySnapshot s := rfl

end

/-- A pass over a list with positions: where each step changes what is kept at its own position, by `R`, the pass does so once for each
position, of those that `p` selects. -/
theorem foldl_zipIdx_keyed {σ β α : Type} (get : σ → Nat → α) (step : σ → β × Nat → σ) (p : Nat → Prop) (R : Nat → β → α → α → Prop)
    (hhere : ∀ x b i, p i → R i b (get x i) (get (step x (b, i)) i)) (hother : ∀ x b i k, p k → k ≠ i → get (step x (b, i)) k = get x k)
    (l : List β) : ∀ (n : Nat) (x : σ), (∀ k, p k → k < n → get ((l.zipIdx n).foldl step x) k = get x k) ∧
      ∀ i b, l[i]? = some b → p (n + i) → R (n + i) b (get x (n + i)) (get ((l.zipIdx n).foldl step x) (n + i)) := by
  induction l with
  | nil => exact fun n x => ⟨fun _ _ _ => rfl, fun i c hc => nomatch hc⟩
  | cons c l ih =>
    intro n x
    obtain ⟨hbelow, hat⟩ := ih (n + 1) (step x (c, n))
    rw [List.zipIdx_cons, List.foldl_cons]
    refine ⟨fun k hp hk => (hbelow k hp (by omega)).trans (hother x c n k hp (by omega)), fun i b hb hp => ?_⟩
    match i with
    | 0 =>
      cases hb
      rw [Nat.add_zero, hbelow n hp (Nat.lt_succ_self n)]
      exact hhere x c n hp
    | i + 1 =>
      have hkey : n + (i + 1) = n + 1 + i := by omega
      rw [hkey] at hp ⊢
      have hthere := hat i b hb hp
      rwa [hother x c n _ hp (by omega)] at hthere

/-! ## Heat (R398 to R402) -/

/-- Domain `id` reads `x` before and `y` after a sensor has read `t`. -/
structure Dom.Sensed (id : Nat) (t : Int) (x y : Dom) : Prop where
  temp : y.temp = t
  ceiling : y.ceiling = thermCeiling t
  st : y.st = x.st
  hot : 1680 < t → x.st ≠ 0 → (id < 57 ∨ 60 < id) → y.stopped = true
  cool : t ≤ 1664 → y.stopped = false

/-- A sensor reading leaves memory, the platform and the trip. -/
theorem Dev.senseDom_frame (d : Dev) (id : Nat) (t : Int) :
    (d.senseDom id t).mem = d.mem ∧ (d.senseDom id t).plat = d.plat ∧ (d.senseDom id t).pow.trip = d.pow.trip := by
  unfold Dev.senseDom
  dsimp only
  split <;> exact ⟨rfl, rfl, rfl⟩

theorem Dev.senseDom_other (d : Dev) (id : Nat) (t : Int) {k : Nat} (hk : k ≠ id) : (d.senseDom id t).pow.dom k = d.pow.dom k :=
  (Pow.dom_upd ..).trans (if_neg hk)

theorem Dev.senseDom_sensed (d : Dev) (id : Nat) (t : Int) : Dom.Sensed id t (d.pow.dom id) ((d.senseDom id t).pow.dom id) := by
  have hread : (d.senseDom id t).pow.dom id = _ := (Pow.dom_upd ..).trans (if_pos rfl)
  rw [hread]
  refine ⟨rfl, rfl, rfl, fun hhot hst hunit => ?_, fun hcool => ?_⟩ <;> dsimp only
  · have hpass : (decide (57 ≤ id) && decide (id ≤ 60)) = false := by simp; omega
    have hstays : 1664 < t := by omega
    simp only [hhot, hpass, hstays]
    cases (d.pow.dom id).stopped <;> simp [hst]
  · have hnot : ¬ 1680 < t := by omega
    simp [hnot, hcool]

/-- The device once each sensor has been read. -/
def Dev.sense (d : Dev) (temps : List Int) : Dev := temps.zipIdx.foldl (fun d (t, id) => d.senseDom id t) d

theorem Dev.sense_frame (d : Dev) (temps : List Int) :
    (d.sense temps).mem = d.mem ∧ (d.sense temps).plat = d.plat ∧ (d.sense temps).pow.trip = d.pow.trip := by
  refine foldl_keeps (fun e : Dev => e.mem = d.mem ∧ e.plat = d.plat ∧ e.pow.trip = d.pow.trip) _ ?_ _ d ⟨rfl, rfl, rfl⟩
  rintro e ⟨t, id⟩ ⟨hmem, hplat, htrip⟩
  obtain ⟨hmem', hplat', htrip'⟩ := e.senseDom_frame id t
  exact ⟨hmem'.trans hmem, hplat'.trans hplat, htrip'.trans htrip⟩

theorem Dev.sense_sensed (d : Dev) {temps : List Int} {id : Nat} {t : Int} (h : temps[id]? = some t) :
    Dom.Sensed id t (d.pow.dom id) ((d.sense temps).pow.dom id) := by
  have hread := (foldl_zipIdx_keyed (fun e : Dev => e.pow.dom) (fun d (t, id) => d.senseDom id t) (fun _ => True) Dom.Sensed
    (fun e t id _ => e.senseDom_sensed id t) (fun e t id k _ hk => e.senseDom_other id t hk) temps 0 d).2 id t h trivial
  rwa [Nat.zero_add] at hread

/-- The device once a reading of 110 degrees or more has tripped it. -/
def Dev.tripAt (d : Dev) (temps : List Int) : Dev := if temps.any (fun t => 1760 ≤ t) && !d.pow.trip then d.thermTrip else d

theorem Dev.tripAt_frame (d : Dev) (temps : List Int) : (d.tripAt temps).mem = d.mem ∧ (d.tripAt temps).pow.doms = d.pow.doms ∧
    (d.tripAt temps).plat.alertTemp = d.plat.alertTemp := by
  unfold Dev.tripAt
  split <;> exact ⟨rfl, rfl, rfl⟩

theorem Dev.tripAt_trips {d : Dev} {temps : List Int} {t : Int} (ht : t ∈ temps) (hhot : 1760 ≤ t) : (d.tripAt temps).pow.trip = true ∧
    (d.pow.trip = false → (d.tripAt temps).plat.faultCode = 2 ∧ (d.tripAt temps).plat.faultTime = d.plat.now ∧
      (d.tripAt temps).plat.smbAlertLow = true) := by
  have hany : temps.any (fun t => decide (1760 ≤ t)) = true := List.any_eq_true.2 ⟨t, ht, by simpa using hhot⟩
  unfold Dev.tripAt
  rw [hany]
  cases htrip : d.pow.trip with
  | true => exact ⟨htrip, fun h => nomatch h⟩
  | false => exact ⟨rfl, fun _ => ⟨rfl, rfl, rfl⟩⟩

theorem Dev.thermAlert_low {d : Dev} {temps : List Int} {t : Int} (ht : t ∈ temps) (halert : 16 * (d.plat.alertTemp : Int) ≤ t) :
    (d.thermAlert temps).plat.thermAlertLow = true := by
  have hany : temps.any (fun t => decide (16 * (d.plat.alertTemp : Int) ≤ t)) = true := List.any_eq_true.2 ⟨t, ht, by simpa using halert⟩
  simp only [Dev.thermAlert, hany, Bool.true_or, if_true]

/-- The device after a reading, before its clocks are set afresh. -/
def Dev.sensed (d : Dev) (temps : List Int) : Dev := ((d.sense temps).tripAt temps).thermAlert temps

section
variable (d : Dev) {temps : List Int}

theorem Dev.sensed_mem : (d.sensed temps).reclock.mem = d.mem :=
  ((d.sensed temps).reclock_mem.trans ((d.sense temps).tripAt_frame temps).1).trans (d.sense_frame temps).1

/-- Of a domain, clocks set afresh change nothing of what sensors have read. -/
theorem Dev.sensed_dom {id : Nat} {t : Int} (h : temps[id]? = some t) :
    Dom.Sensed id t (d.pow.dom id) ((d.sensed temps).reclock.pow.dom id) := by
  obtain ⟨f, hf⟩ := (d.sensed temps).reclock_reclocked.doms id
  have hdom : (d.sensed temps).pow.dom id = (d.sense temps).pow.dom id := congrArg (fun m => Tab.get ({} : Dom) m id) ((d.sense temps).tripAt_frame temps).2.1
  obtain ⟨htemp, hceiling, hst, hhot, hcool⟩ := d.sense_sensed h
  rw [hf, hdom]
  exact ⟨htemp, hceiling, hst, hhot, hcool⟩

/-- A running domain that a reading stops has no clock. -/
theorem Dev.sensed_freq {id : Nat} (hup : ((d.sensed temps).reclock.pow.dom id).st = 2) (hstopped : ((d.sensed temps).reclock.pow.dom id).stopped = true) :
    ((d.sensed temps).reclock.pow.dom id).freq = 0 := by
  obtain ⟨f, hf⟩ := (d.sensed temps).reclock_reclocked.doms id
  refine Dev.reclock_stopped ?_ ?_
  · rw [hf] at hup
    exact hup
  · rw [hf] at hstopped
    exact hstopped

theorem Dev.sensed_trips {t : Int} (ht : t ∈ temps) (hhot : 1760 ≤ t) : (d.sensed temps).reclock.pow.trip = true ∧
    (d.pow.trip = false → (d.sensed temps).reclock.plat.faultCode = 2 ∧ (d.sensed temps).reclock.plat.faultTime = d.plat.now ∧
      (d.sensed temps).reclock.plat.smbAlertLow = true) := by
  have hclocks := (d.sensed temps).reclock_reclocked
  obtain ⟨-, hplat, htrip⟩ := d.sense_frame temps
  rw [hclocks.trip, hclocks.plat, ← htrip, ← hplat]
  exact Dev.tripAt_trips ht hhot

theorem Dev.sensed_alerts {t : Int} (ht : t ∈ temps) (halert : 16 * (d.plat.alertTemp : Int) ≤ t) :
    (d.sensed temps).reclock.plat.thermAlertLow = true := by
  rw [(d.sensed temps).reclock_reclocked.plat]
  refine Dev.thermAlert_low ht ?_
  rwa [((d.sense temps).tripAt_frame temps).2.2, (d.sense_frame temps).2.1]

end

theorem exec_sensorReading_done {s : State} {temps : List Int} (hlen : temps.length = 86) :
    exec (.sensorReading temps) s = .next { s with dev := (s.dev.sensed temps).reclock } :=
  (exec_sensorReading s temps).trans (event_of_can _ (by simp [hlen]))

theorem thermCeiling_cool {t : Int} (h : t ≤ 1520) : thermCeiling t = 1250 := if_pos h

/-! ## Rail samples (R393, R549) -/

/-- A rail whose voltage and current have been read. -/
def Rail.sampled (r : Rail) (e : Nat × Nat) : Rail := { r with mV := e.1, cur := e.2, curMax := max r.curMax e.2 }

/-- The power unit with the voltages and currents of a sample. -/
def Pow.sampled (w : Pow) (rs : List (Nat × Nat)) : Pow :=
  rs.zipIdx.foldl (fun w (e, i) => if i ≤ 5 then w.updRail i (·.sampled e) else w) w

/-- The energies of a sample, each with the group of its rail. -/
def Pow.sampleEnergies (w : Pow) (rs : List (Nat × Nat)) : List (Nat × Nat) :=
  rs.zipIdx.map (fun (e, i) => (readGroup i, w.readEnergy i e.1 e.2))

/-- The power unit with the energies of a sample added up. -/
def Pow.addEnergies (w : Pow) (es : List (Nat × Nat)) : Pow := es.foldl (fun w e => w.updRail e.1 (fun r => { r with acc := r.acc + e.2 })) w

section
variable (w : Pow) (rs : List (Nat × Nat))

theorem Pow.sampled_doms : (w.sampled rs).doms = w.doms := by
  refine foldl_keeps (fun v : Pow => v.doms = w.doms) _ ?_ _ w rfl
  rintro v ⟨e, i⟩ hv
  dsimp only
  split <;> exact hv

theorem Pow.addEnergies_doms (es : List (Nat × Nat)) : (w.addEnergies es).doms = w.doms := by
  unfold Pow.addEnergies
  refine foldl_keeps (fun v : Pow => v.doms = w.doms) _ ?_ es w rfl
  exact fun _ _ hv => hv

theorem Pow.sampled_rail {i : Nat} {e : Nat × Nat} (hi : i < 6) (he : rs[i]? = some e) : (w.sampled rs).rail i = (w.rail i).sampled e := by
  have hread := (foldl_zipIdx_keyed Pow.rail (fun w (e, i) => if i ≤ 5 then w.updRail i (·.sampled e) else w) (· < 6)
    (fun _ e x y => y = x.sampled e) (fun v e i hi => by simp [Nat.le_of_lt_succ hi]) (fun v e i k _ hk => by dsimp only; split <;> simp [hk])
    rs 0 w).2 i e he (by omega)
  rwa [Nat.zero_add] at hread

/-- Energies change nothing of a rail but its sum. -/
theorem Pow.addEnergies_rail (es : List (Nat × Nat)) (g : Nat) : ∃ a, (w.addEnergies es).rail g = { w.rail g with acc := a } := by
  refine foldl_keeps (fun v : Pow => ∃ a, v.rail g = { w.rail g with acc := a }) _ ?_ es w ⟨_, rfl⟩
  rintro v e ⟨a, hv⟩
  rw [Pow.rail_updRail]
  split
  · next hg => exact ⟨_, by rw [← hg, hv]⟩
  · exact ⟨a, hv⟩

/-- Each of the groups 0 to 4 takes the energy of its own rail. -/
theorem Pow.addEnergies_acc {v : Pow} {i : Nat} {e : Nat × Nat} (hi : i < 5) (he : rs[i]? = some e) :
    ((w.addEnergies (v.sampleEnergies rs)).rail i).acc = (w.rail i).acc + v.readEnergy i e.1 e.2 := by
  have hread := (foldl_zipIdx_keyed Pow.rail
    (fun w (e, i) => w.updRail (readGroup i) (fun r => { r with acc := r.acc + v.readEnergy i e.1 e.2 })) (· < 5)
    (fun i e x y => y.acc = x.acc + v.readEnergy i e.1 e.2)
    (fun u e i hi => by rw [Pow.rail_updRail, show readGroup i = i from min_eq_left (by omega), if_pos rfl])
    (fun u e i k hk hne => by rw [Pow.rail_updRail, if_neg (by rw [readGroup]; omega)]) rs 0 w).2 i e he (by omega)
  rw [Nat.zero_add] at hread
  rw [Pow.addEnergies, Pow.sampleEnergies, List.foldl_map]
  exact hread

/-- A rail whose bus has not failed counts what it reads. -/
theorem Pow.readEnergy_read {i : Nat} (h : i < 5 → (w.rail i).failed = false) (v c : Nat) : w.readEnergy i v c = v * c :=
  if_neg (by simpa using h)

theorem Pow.sampleEnergies_sum (h : ∀ i, i < 5 → (w.rail i).failed = false) :
    ((w.sampleEnergies rs).map Prod.snd).sum = (rs.map (fun e => e.1 * e.2)).sum := by
  have hread : (w.sampleEnergies rs).map Prod.snd = rs.zipIdx.map ((fun e => e.1 * e.2) ∘ Prod.fst) := by
    rw [Pow.sampleEnergies, List.map_map]
    exact List.map_congr_left fun e _ => w.readEnergy_read (h e.2) ..
  rw [hread, ← List.map_map, List.zipIdx_map_fst]

end

/-- The power unit after a sample. -/
def Pow.afterSample (w : Pow) (now : Nat) (rs : List (Nat × Nat)) (podFixed : Nat) : Pow :=
  let es := w.sampleEnergies rs
  { (w.sampled rs).addEnergies es with
    samples := (now, (es.map Prod.snd).sum, (es.map (fun e => if e.1 < 4 then 0 else e.2)).sum + podFixed) ::
      w.samples.filter (fun x => now < x.1 + 10 ^ 9)
    energyTotal := w.energyTotal + (es.map Prod.snd).sum }

theorem exec_railSample_done {s : State} {rs : List (Nat × Nat)} {fixed : Nat} (hlen : rs.length = 9)
    (hdue : ∀ e, s.dev.pow.samples.head? = some e → e.1 + 100000 ≤ s.dev.plat.now) : exec (.railSample rs fixed) s = .next { s with
      dev := { s.dev with pow := s.dev.pow.afterSample s.dev.plat.now rs fixed } } := by
  refine (exec_railSample s rs fixed).trans (event_of_can _ ?_)
  cases hhead : s.dev.pow.samples.head? with
  | none => simp [hlen]
  | some e => simp [hlen, hdue e hhead]

/-- A rail after a sample. -/
theorem Pow.afterSample_rail (w : Pow) (now : Nat) {rs : List (Nat × Nat)} (podFixed : Nat) {i : Nat} {e : Nat × Nat} (hi : i < 6)
    (he : rs[i]? = some e) : ∃ a, (w.afterSample now rs podFixed).rail i = { (w.rail i).sampled e with acc := a } ∧
      (i < 5 → a = (w.rail i).acc + w.readEnergy i e.1 e.2) := by
  obtain ⟨a, ha⟩ := (w.sampled rs).addEnergies_rail (w.sampleEnergies rs) i
  rw [w.sampled_rail rs hi he] at ha
  refine ⟨a, ha, fun hgroup => ?_⟩
  have hacc := (w.sampled rs).addEnergies_acc rs (v := w) hgroup he
  rwa [ha, w.sampled_rail rs hi he] at hacc

/-! ## Checkpoints (R394) -/

/-- What planning never changes: memory, the time of the last plan and the mark of a fresh one. -/
def Dev.plannedAt (d : Dev) : Tab Byte × Nat × Bool := (d.mem, d.pow.lastCheck, d.pow.brakeReplan)

theorem Dev.planWith_plannedAt (d : Dev) (t fixed e : Q) : (d.planWith t fixed e).plannedAt = d.plannedAt := by
  unfold Dev.planWith
  dsimp only
  split
  · rfl
  · exact foldl_keeps (fun e : Dev => e.plannedAt = d.plannedAt) (fun d k => d.halt k) (fun _ _ he => he) _ d rfl

theorem Dev.Reclocked.plannedAt {a b : Dev} (h : a.Reclocked b) : b.plannedAt = a.plannedAt :=
  congrArg₂ Prod.mk (congrArg Dev.mem h.rest :) (congrArg (fun v : Pow => (v.lastCheck, v.brakeReplan)) h.pow :)

/-- The training point of `b` is that of `a`, the next below, or the floor. -/
def Dev.Lowers (a b : Dev) : Prop := b.pow.op = a.pow.op ∨ b.pow.op + 1 = a.pow.op ∨ (b.pow.op = 0 ∧ b.pow.floorRun = true)

/-- The device once a checkpoint has noted its time. -/
def Dev.checked (d : Dev) : Dev := { d with pow := { d.pow with lastCheck := d.plat.now, brakeReplan := false } }

/-- The device with its plan lowered by one point or one halted cluster, where it does not fit. -/
def Dev.lowered (d : Dev) (fits : Bool) : Dev :=
  if fits then d
  else if d.pow.floorRun then
    match haltOrder.find? (fun k => d.trainSet.contains k) with | some k => d.halt k | none => d
  else if 0 < d.pow.op ∧ d.fFloor ≤ opFreq (d.pow.op - 1) then d.setOp (d.pow.op - 1) false
  else d.setOp 0 true

theorem Dev.lowered_lowers (d : Dev) (fits : Bool) : (d.lowered fits).plannedAt = d.plannedAt ∧ d.Lowers (d.lowered fits) := by
  unfold Dev.lowered
  split
  · exact ⟨rfl, .inl rfl⟩
  · split
    · split <;> exact ⟨rfl, .inl rfl⟩
    · split
      · next h => exact ⟨rfl, .inr (.inl (Nat.sub_add_cancel h.1))⟩
      · exact ⟨rfl, .inr (.inr ⟨rfl, rfl⟩)⟩

/-- A checkpoint plans afresh, or lowers the plan. -/
theorem Dev.planCheckpoint_eq (d : Dev) : ∃ t fixed e fits,
    d.planCheckpoint = (if d.pow.brakeReplan then d.checked.planWith t fixed e else d.checked.lowered fits).reclock := by
  unfold Dev.planCheckpoint
  obtain ⟨t, fixed, e⟩ := d.restOfBeat
  refine ⟨t, fixed, e, d.checked.planFits d.beatTasks t fixed e d.checked.trainSet (if d.pow.floorRun then d.fFloor else opFreq d.pow.op), ?_⟩
  unfold Dev.lowered
  rfl

/-- A checkpoint notes its time; but for a fresh plan the training point stays, falls by one, or is the floor. -/
theorem Dev.planCheckpoint_lowers (d : Dev) :
    d.planCheckpoint.plannedAt = (d.mem, d.plat.now, false) ∧ (d.pow.brakeReplan = false → d.Lowers d.planCheckpoint) := by
  obtain ⟨t, fixed, e, fits, heq⟩ := d.planCheckpoint_eq
  rw [heq]
  cases d.pow.brakeReplan with
  | true => exact ⟨(Dev.reclock_reclocked _).plannedAt.trans (Dev.planWith_plannedAt ..), fun h => nomatch h⟩
  | false =>
    obtain ⟨hnoted, hlowers⟩ := d.checked.lowered_lowers fits
    have hclocks := (d.checked.lowered fits).reclock_reclocked
    refine ⟨hclocks.plannedAt.trans hnoted, fun _ => ?_⟩
    unfold Dev.Lowers
    rw [if_neg Bool.false_ne_true, hclocks.op, hclocks.floorRun]
    exact hlowers

/-! ## The telemetry mirror (R405) -/

/-- The offsets of the mirror's words. -/
def mirrorKeys : List Nat :=
  [0x00, 0x08, 0x10, 0x18, 0x20, 0x28, 0x30] ++ ((List.range 6).map (fun g => [0x40 + 16 * g, 0x48 + 16 * g])).flatten ++
    ((List.range 85).map (fun i => [0x100 + 16 * i, 0x108 + 16 * i])).flatten

theorem Dev.mirrorWords_keys (d : Dev) : d.mirrorWords.map Prod.fst = mirrorKeys := by
  simp only [Dev.mirrorWords, mirrorKeys, List.map_append, List.map_flatten, List.map_map, List.map_cons, List.map_nil]
  rfl

/-- The offsets rise. -/
theorem mirrorKeys_nodup : mirrorKeys.Nodup :=
  (List.isChain_iff_pairwise.1 (show List.IsChain (· < ·) mirrorKeys by decide +kernel)).imp Nat.ne_of_lt

/-- A pass that writes each key once leaves every value in its place. -/
theorem Tab.get_foldl_set_of_nodup {α : Type} [DecidableEq α] {z : α} {new : Tab α} (hnew : (new.map Prod.fst).Nodup) {k : Nat} {v : α} (hv : (k, v) ∈ new) :
    ∀ m : Tab α, Tab.get z (new.foldl (fun m e => Tab.set z m e.1 e.2) m) k = v := by
  induction new with
  | nil => cases hv
  | cons e new ih =>
    intro m
    obtain ⟨hkey, hnodup⟩ := List.nodup_cons.1 hnew
    rw [List.foldl_cons]
    rcases List.mem_cons.1 hv with rfl | hv
    · refine List.foldlRecOn (motive := fun m : Tab α => Tab.get z m k = v) new _ (Tab.get_set_same ..) fun m hm e he => ?_
      have hne : k ≠ e.1 := fun h => hkey (List.mem_map.2 ⟨e, he, h.symm⟩)
      exact (Tab.get_set_other _ _ _ _ _ hne).trans hm
    · exact ih hnodup hv _

theorem exec_telemetrySnapshot_done {s : State} (hdue : s.dev.pow.lastSnap / 1000000 < s.dev.plat.now / 1000000) :
    exec .telemetrySnapshot s = .next { s with dev := { s.dev with pow := { s.dev.pow with
      mirror := s.dev.mirrorWords.foldl (fun m e => Tab.set 0 m e.1 e.2) s.dev.pow.mirror
      lastSnap := s.dev.plat.now
      rails := s.dev.pow.rails.map (fun e => (e.1, { e.2 with acc := 0, curMax := 0 })) } } } :=
  (exec_telemetrySnapshot s).trans (event_of_can _ (by simp [hdue]))

section
variable (d : Dev)

/-- A word of the mirror after a snapshot. -/
theorem Dev.mirror_word {k v : Nat} (h : (k, v) ∈ d.mirrorWords) (m : Tab Nat) :
    Tab.get 0 (d.mirrorWords.foldl (fun m e => Tab.set 0 m e.1 e.2) m) k = v :=
  Tab.get_foldl_set_of_nodup (by rw [d.mirrorWords_keys]; exact mirrorKeys_nodup) h m

theorem Dev.mirrorWords_seq : (0x00, (Tab.get 0 d.pow.mirror 0 + 2) % 2 ^ 64) ∈ d.mirrorWords := by simp [Dev.mirrorWords, bits]

theorem Dev.mirrorWords_time : (0x08, d.plat.now) ∈ d.mirrorWords := by simp [Dev.mirrorWords]

theorem Dev.mirrorWords_dom {id : Nat} (h : id < 85) : (0x100 + 16 * id, (d.domWords id).1) ∈ d.mirrorWords :=
  List.mem_append_right _ (List.mem_flatten.2 ⟨_, List.mem_map.2 ⟨id, List.mem_range.2 h, rfl⟩, List.mem_cons_self⟩)

theorem bits_packBits (w v : Nat) (fs : List (Nat × Nat)) : bits (packBits ((w, v) :: fs)) 0 w = v % 2 ^ w := packBits_mod ..

end

/-! ## O46 -/

/-- Settles O46: each event by what it leaves, and the clocks by the limits they are set afresh to. -/
theorem railsBrakeAndHeatAct : Obligations.RailsBrakeAndHeatAct := by
  unfold Obligations.RailsBrakeAndHeatAct
  rintro s _ _ _ rfl rfl rfl
  refine ⟨?_, fun hpin hidle => ?_, fun hpin hunits hidle => ?_, fun u hpin hlo hhi hunits hst hon hoff hdwell hparent => ?_, fun temps hlen => ?_,
    fun rs fixed hlen hdue hread => ?_, fun rs fixed e hlast hearly => ?_, fun hready htime => ?_, fun hearly => ?_, fun htime => ?_, fun hearly => ?_⟩
  · rintro g _ hg rfl
    refine ⟨fun hwait => ?_, fun hwait => ?_, fun hwait htime => ?_, fun hfailed htime ok => ?_, fun hfast => ?_, fun a hfast => ⟨fun htime => ?_,
      fun htime => ?_, fun hearly => ⟨?_, ?_⟩⟩⟩
    · exact ⟨_, event_of_can _ (by simp [hg, hwait]), rfl, Dev.reclock_reclocked _⟩
    · exact event_of_cannot _ (by simp [hwait])
    · refine ⟨_, event_of_can _ (by simp [hg, hwait, htime]), rfl, Dev.reclock_reclocked _, fun id hcluster hid hup => ?_⟩
      exact Dev.reclock_failed hup hcluster (by simp [hid])
    · exact event_of_can _ (by simp [hg, hfailed, htime])
    · exact ⟨_, exec_fastLimit_done hg hfast, rfl, (s.dev.fastLimited g).reclock_ctr,
        ((s.dev.fastLimited g).reclock_reclocked.fastAt g).trans (by simp [Dev.fastLimited]), (s.dev.fastLimited g).reclock_mem,
        fun id hcluster hid => Dev.fastLimited_freq hcluster hid⟩
    · exact ⟨_, exec_fastLimitStop_done hg hfast htime, rfl, (s.dev.fastStopped g).reclock_ctr,
        fun id hcluster hid => Dev.fastStopped_freq hcluster hid⟩
    · exact ⟨_, exec_fastLimitRestore_done hg hfast htime, rfl, (s.dev.fastRestored g).reclock_ctr,
        ((s.dev.fastRestored g).reclock_reclocked.fastAt g).trans (by simp [Dev.fastRestored]),
        fun id hcluster hid => Dev.fastRestored_marks hcluster hid⟩
    · exact event_of_cannot _ (by simp [hfast]; omega)
    · exact event_of_cannot _ (by simp [hfast]; omega)
  · exact ⟨_, exec_powerBrakeAssert_idle hpin hidle, rfl, s.dev.braked.reclock_reclocked,
      fun id hcluster hup => Dev.reclock_brake (d := s.dev.braked) hup hcluster rfl⟩
  · refine ⟨_, exec_powerBrakeRelease_idle hpin hunits hidle, rfl, ?_, s.dev.unbraked_brakeN⟩
    rw [← Dev.unbraked_eq hunits]
    exact s.dev.unbraked.reclock_reclocked
  · exact exec_powerBrakeRelease_unit hpin hlo hhi hunits hst hon hoff hdwell hparent
  · refine ⟨_, exec_sensorReading_done hlen, rfl, s.dev.sensed_mem, fun id t ht => ?_⟩
    obtain ⟨htemp, hceiling, hst, hhot, hcool⟩ := s.dev.sensed_dom ht
    exact ⟨htemp, hceiling, fun h => hceiling.trans (thermCeiling_cool h),
      fun h hlive hunit => ⟨hhot h hlive hunit, fun hup => s.dev.sensed_freq (hst.trans hup) (hhot h hlive hunit)⟩, hcool,
      s.dev.sensed_trips (List.mem_of_getElem? ht), s.dev.sensed_alerts (List.mem_of_getElem? ht)⟩
  · refine ⟨_, exec_railSample_done hlen hdue, rfl, rfl, ?_, ?_, fun i e hi he => ?_⟩
    · exact ((s.dev.pow.sampled rs).addEnergies_doms _).trans (s.dev.pow.sampled_doms rs)
    · exact congrArg (s.dev.pow.energyTotal + ·) (s.dev.pow.sampleEnergies_sum rs hread)
    · obtain ⟨a, hrail, hacc⟩ := s.dev.pow.afterSample_rail s.dev.plat.now fixed hi he
      dsimp only
      rw [hrail]
      exact ⟨rfl, rfl, rfl, fun hgroup => (hacc hgroup).trans (by rw [s.dev.pow.readEnergy_read (hread i)])⟩
  · exact event_of_cannot _ (by simp [hlast, hearly])
  · obtain ⟨hnoted, hlowers⟩ := s.dev.planCheckpoint_lowers
    obtain ⟨hmem, hcheck⟩ := Prod.mk.inj hnoted
    obtain ⟨hlast, hfresh⟩ := Prod.mk.inj hcheck
    exact ⟨_, event_of_can _ (by simp [hready, htime]), rfl, hlast, hfresh, hmem, hlowers⟩
  · exact event_of_cannot _ (by simp [hearly])
  · refine ⟨_, exec_telemetrySnapshot_done htime, rfl, rfl, rfl, rfl, ?_, ?_, fun id hid => ?_, fun g => ?_⟩
    · dsimp only
      rw [s.dev.mirror_word s.dev.mirrorWords_seq]
    · dsimp only
      rw [s.dev.mirror_word s.dev.mirrorWords_time]
    · dsimp only
      rw [s.dev.mirror_word (s.dev.mirrorWords_dom hid)]
      exact bits_packBits ..
    · dsimp only
      rw [Pow.rail, Tab.get_map ({} : Rail) s.dev.pow.rails (fun r => { r with acc := 0, curMax := 0 }) rfl]
      exact ⟨rfl, rfl⟩
  · exact event_of_cannot _ (by simp [hearly])

end Sys2Proof.Machine
end

