-- ==== Sys2Proof/Proofs/MachineSteps.lean ====
section
/-! PROOFS. The machine's steps: O1, O3 and O6. -/

namespace Sys2Proof.Machine

/-- Settles O6: every step is a lawful change of the device, and lawful changes move legal cells forward. -/
theorem noOtpCellReturns : Obligations.NoOtpCellReturns := fun _ _ hlegal hstep => ((step_lawful hstep).otp hlegal).2

/-- Settles O3: every command answers a next state with the same queue, but for the scan instructions that `exec_lawful` names. -/
theorem onlyScanInstructionsAreRefused : Obligations.OnlyScanInstructionsAreRefused := by
  intro c s
  refine (exec_lawful c s).imp (fun hgives => ?_) id
  obtain ⟨d, hexec, -⟩ := hgives
  exact ⟨{ s with dev := d }, hexec, rfl⟩

/-- Settles O1, by the definition of a step. -/
theorem stepRunsTheFrontCommand : Obligations.StepRunsTheFrontCommand := fun _ _ _ => rfl

end Sys2Proof.Machine
end

