-- ==== Sys2Proof/Proofs/CommandChecks.lean ====
section
/-! PROOFS. Packet commands in general: those out of turn, those that a check common to all commands refuses, and those that only
reply (R423, R430, R432, R436, R442, R446, R509): O7, O8, O9, O10 and O12. -/

namespace Sys2Proof.Machine

/-! ## What the common checks find -/

section
variable {d : Dev} {q len : Nat} {p : Packet} {ck : Checks}

/-- What checks 1 and 2 find decides. -/
theorem Dev.refusal_preCheck {st det : Nat} (hpre : d.preCheck p = some (st, det)) : d.refusal q p len ck = some (st, det, []) := by
  simp [Dev.refusal, hpre]

/-- A wrong PARAM_LEN is found before anything but checks 1 and 2 (R442). -/
theorem Dev.refusal_plen (hpre : d.preCheck p = none) (hlen : p.plen ≠ len) : d.refusal q p len ck = some (stBadParam, 0xFFFF, []) := by
  simp [Dev.refusal, hpre, hlen]

/-- A command that its life-cycle state denies is refused (R509). -/
theorem Dev.refusal_denied (hlc : lcDenied d.plat.lcWord p.opcode = true) : d.refusal q p len ck ≠ none := by
  unfold Dev.refusal
  split
  · exact Option.some_ne_none _
  · split
    · exact Option.some_ne_none _
    · split
      · exact Option.some_ne_none _
      · rw [hlc, Bool.true_or, if_pos rfl]
        exact Option.some_ne_none _

/-- A command whose semaphore the issuing port does not hold is refused (R446). -/
theorem Dev.refusal_unheld {n : Nat} (hguard : guardSem p.opcode = some n) (hsem : Tab.get 0 d.host.sems n ≠ q / 8 + 1) :
    d.refusal q p len ck ≠ none := by
  simp only [Dev.refusal, hguard, bne_iff_ne, ne_eq, hsem, not_false_eq_true, if_true]
  (repeat' split) <;> exact Option.some_ne_none _

/-- STOPPED refuses all opcodes but three (R432). -/
theorem Dev.preCheck_stopped (hlatch : p.latchEn = false) (hstate : d.plat.deviceState = 3) (hop : p.opcode ∉ [0x0002, 0x0003, 0x0004]) :
    d.preCheck p = some (stAborted, d.plat.faultCode) := by
  have hnot : [0x0002, 0x0003, 0x0004].contains p.opcode = false := by simpa using hop
  simp only [Dev.preCheck, hlatch, hstate, hnot, Bool.false_and, Bool.false_eq_true, if_false, BEq.rfl, Bool.not_false, Bool.and_true, if_true]

/-- Dormant mode refuses all opcodes but those of R446. -/
theorem Dev.preCheck_dormant (hlatch : p.latchEn = false) (hphase : d.plat.phase = .dormant) (hop : p.opcode ∉ dormantOps) :
    d.preCheck p = some (stDormant, 0) := by
  have hnot : dormantOps.contains p.opcode = false := by simpa using hop
  have hreset : p.opcode ≠ 0x0004 := fun h => hop (by simp [h, dormantOps])
  have hstate : d.plat.deviceState = 2 := by simp [Plat.deviceState, hphase]
  simp [Dev.preCheck, hlatch, hstate, hphase, hreset, hop]

end

section
variable {s : State} {i : Instr} {f : PacketForm} {p : Packet}

/-- The packet at the head carries the command's opcode. -/
theorem State.Fronts.opcode (h : s.Fronts i f p) : p.opcode = f.opcode := by
  obtain ⟨-, -, -, -, hop⟩ := Dev.head_spec h.head
  exact hop

/-- A command that the common checks refuse has no effect but its reply. -/
theorem State.Fronts.refused (h : s.Fronts i f p) (hrefused : s.dev.refusal f.queue p (Instr.paramBytes i f) {} ≠ none) :
    Res.Becomes s s.dev (exec i s) := by
  obtain ⟨ck, eff, hexec⟩ := exec_of_packet h
  rw [hexec]
  exact startCmdLen_refused h.head (Dev.refusal_of_refused hrefused)

/-- A command that is refused whatever its own checks find, not latching and with nothing else waiting, is answered with that refusal. -/
theorem State.Fronts.answersRefusal (h : s.Fronts i f p) {st det : Nat}
    (hrefusal : ∀ ck, s.dev.refusal f.queue p (Instr.paramBytes i f) ck = some (st, det, [])) (hlatch : p.latchEn = false)
    (halone : s.dev.Alone f.queue p) (hanswer : s.dev.CanAnswer (p.replyQueue f.queue)) :
    ∃ t : State, exec i s = .next t ∧ t.pending = s.pending ∧ s.dev.Replied t.dev ∧
      s.dev.Answered t.dev (p.replyQueue f.queue) [s.dev.replyNow p.tag st 0 det] := by
  obtain ⟨ck, eff, hexec⟩ := exec_of_packet h
  rw [hexec]
  exact startCmdLen_refusal_answers (ext := []) h.head (hrefusal _) hlatch halone hanswer (Nat.zero_le _)

end

theorem exec_fwSelect (q image : Nat) (verifies : Bool) (s : State) : exec (.fwSelect q image verifies) s = execFwSelect q image verifies s := rfl

/-! ## The obligations -/

/-- Settles O7: every packet command starts only as the head of its queue. -/
theorem commandsOutOfTurnDoNothing : Obligations.CommandsOutOfTurnDoNothing := fun _ _ _ hform hhead => exec_out_of_turn hform hhead

/-- Settles O8: a refused command has no effect, and PARAM_LEN is checked before all of a command's own conditions. -/
theorem refusedCommandsHaveNoEffect : Obligations.RefusedCommandsHaveNoEffect :=
  ⟨fun _ _ _ _ h hrefused => h.refused hrefused,
    fun _ _ _ _ h hpre hlen hlatch halone hanswer => h.answersRefusal (fun _ => Dev.refusal_plen hpre hlen) hlatch halone hanswer⟩

/-- Settles O9: STOPPED and dormant mode are found by check 2, the life-cycle state after PARAM_LEN. -/
theorem deviceStatesRefuseCommands : Obligations.DeviceStatesRefuseCommands := by
  refine ⟨fun s i f p h hlatch halone hanswer => ⟨fun hstate hop => ?_, fun hphase hop => ?_⟩, fun s i f p h hlife => ?_⟩
  · exact h.answersRefusal (fun _ => Dev.refusal_preCheck (Dev.preCheck_stopped hlatch hstate (h.opcode ▸ hop))) hlatch halone hanswer
  · exact h.answersRefusal (fun _ => Dev.refusal_preCheck (Dev.preCheck_dormant hlatch hphase (h.opcode ▸ hop))) hlatch halone hanswer
  · refine h.refused (Dev.refusal_denied ?_)
    rw [h.opcode]
    rcases hlife with ⟨hlc, hop⟩ | ⟨hlc, hop⟩
    · simp only [List.mem_cons, List.not_mem_nil, or_false, not_or] at hop
      simp [lcDenied, hlc]
      omega
    · simp only [List.mem_cons, List.not_mem_nil, or_false] at hop
      simp [lcDenied, hlc]
      omega

/-- Settles O10: the semaphore is among the common checks. -/
theorem guardedCommandsNeedTheirSemaphore : Obligations.GuardedCommandsNeedTheirSemaphore := by
  refine ⟨fun s i f p n h hguard hsem => h.refused (Dev.refusal_unheld (n := n) ?_ hsem),
    fun s q image verifies f p h hpre hlen hlc hsem hlatch halone hanswer => ?_⟩
  · rw [h.opcode]
    simp only [List.mem_cons, Prod.mk.injEq, List.not_mem_nil, or_false] at hguard
    rcases hguard with ⟨hop, rfl⟩ | ⟨hop, rfl⟩ | ⟨hop, rfl⟩ | ⟨hop, rfl⟩ | ⟨hop, rfl⟩ <;> rw [hop] <;> rfl
  · have hop := h.opcode
    cases h.form
    have hplen : p.plen = paramLen [1] := hlen
    have hlife : lcDenied s.dev.plat.lcWord 0x0B02 = false := by simp [lcDenied, hlc]
    rw [exec_fwSelect, execFwSelect]
    refine startCmdLen_refusal_answers (ext := []) h.head ?_ hlatch halone hanswer (Nat.zero_le _)
    simp [Dev.refusal, hpre, hplen, hop, hlife, guardSem, hsem]

section
variable {d : Dev} {q : Nat} {p : Packet}

/-- The words of GET_STATUS as a begun command reads them. -/
theorem Dev.begun_statusWord : (d.begin_ q p).1.statusWord = d.statusWord := by
  simp only [Dev.statusWord, Dev.begun_cad, Dev.begun_plat, (d.begin__replied q p).planUsed, (d.begin__replied q p).enc]

theorem Dev.begun_ctr_ (pod ctr : Nat) : (d.begin_ q p).1.ctr_ pod ctr = d.ctr_ pod ctr := by
  simp only [Dev.ctr_, (d.begin__replied q p).pod]

end

/-- An admitted, plain command that completes at once answers DONE with its extended entries. -/
theorem State.Admits.answersDone {s : State} {i : Instr} {f : PacketForm} {p : Packet} {ext : Dev → List Nat} (h : s.Admits i f p)
    (hlen : Instr.paramBytes i f = paramLen f.layout) (hp : p.Plain) (halone : s.dev.Alone f.queue p)
    (hanswer : s.dev.CanAnswer (p.replyQueue f.queue)) {es : List Nat} (hext : ext (s.dev.begin_ f.queue p).1 = es) (hes : es.length ≤ 15) :
    ∃ t : State, startCmd s f.queue f.opcode f.layout f.fields (fun _ => {}) (doneAt id (ext := ext)) = .next t ∧ t.pending = s.pending ∧
      s.dev.Replied t.dev ∧ s.dev.Answered t.dev (p.replyQueue f.queue) (s.dev.replyNow p.tag stDone es.length 0 :: es) := by
  subst hext
  exact startCmdLen_answers h.head (hlen ▸ h.passes) hp halone hanswer hes

/-- Settles O12: each of the five commands is DONE at once, and its extended entries read the same before and after its start. -/
theorem replyOnlyCommandsAnswer : Obligations.ReplyOnlyCommandsAnswer := by
  intro s q pod counter i f p ext hi h hp halone hanswer
  simp only [List.mem_cons, Prod.mk.injEq, List.not_mem_nil, or_false] at hi
  rcases hi with ⟨rfl, rfl⟩ | ⟨rfl, rfl⟩ | ⟨rfl, rfl⟩ | ⟨rfl, rfl⟩ | ⟨rfl, rfl⟩ <;> cases h.form
  · exact h.answersDone rfl hp halone hanswer rfl (Nat.zero_le _)
  · exact h.answersDone rfl hp halone hanswer rfl (Nat.zero_le _)
  · exact h.answersDone rfl hp halone hanswer (by rw [Dev.begun_plat]) (by simp)
  · exact h.answersDone rfl hp halone hanswer (by rw [Dev.begun_plat, Dev.begun_statusWord]) (by simp)
  · exact h.answersDone rfl hp halone hanswer (by dsimp only; rw [Dev.begun_ctr_]) (by simp)

end Sys2Proof.Machine
end

