-- ==== Sys2Proof/Proofs/WindowAccesses.lean ====
section
/-! PROOFS. The accesses of the control window through a port: semaphores, refused accesses and register writes (R416, R417, R419, R420,
R434, R468, R469): O13, O15 and O16. -/

namespace Sys2Proof.Machine

section
variable {s : State} {port : Nat} (hlink : s.dev.linked port = true)
include hlink

/-- Only two ports exist (R416). -/
theorem Dev.port_lt_of_linked : port < 2 := by
  simp only [Dev.linked, Bool.and_eq_true, decide_eq_true_eq] at hlink
  exact hlink.1

/-! ## Semaphores (R434) -/

section
variable {n : Nat} (hn : n < 64)
include hn

theorem exec_semAcquire_low {o : Nat} (ho : Tab.get 0 s.dev.host.sems n = o) :
    exec (.semAcquire port n true) s = .next { s with dev := { s.dev with
      host := { s.dev.host with
        sems := Tab.set 0 s.dev.host.sems n (if o = 0 then port + 1 else o)
        ports := Tab.upd {} s.dev.host.ports port fun p =>
          { p with lastRead := semWord port (if o = 0 then port + 1 else o) (o == port + 1) } } } } := by
  subst ho
  simp [exec, execSemAcquire, nextDev, HostIf.updPort, hlink, hn]

theorem exec_semAcquire_high : exec (.semAcquire port n false) s = .next { s with dev := { s.dev with
    host := s.dev.host.updPort port (fun p => { p with lastRead := 0 }) } } := by
  simp [exec, execSemAcquire, nextDev, hlink, hn]

theorem exec_semRelease_own (ho : Tab.get 0 s.dev.host.sems n = port + 1) :
    exec (.semRelease port n) s = .next { s with dev := { s.dev with host := { s.dev.host with sems := Tab.set 0 s.dev.host.sems n 0 } } } := by
  simp [exec, execSemRelease, nextDev, hlink, hn, ho]

theorem exec_semRelease_other (ho : Tab.get 0 s.dev.host.sems n ≠ port + 1) :
    exec (.semRelease port n) s = .next { s with dev := s.dev.count cobInst 0x70 1 } := by
  simp [exec, execSemRelease, nextDev, Dev.count, hlink, hn, ho]

end

/-! ## Refused accesses (R416, R469) -/

theorem exec_registerWrite_linked (off size value : Nat) :
    exec (.registerWrite port off size value) s = .next { s with dev := s.dev.windowWrite port off size value } := by
  simp [exec, execRegisterWrite, nextDev, hlink]

theorem exec_misaligned_read {off size : Nat} (halign : windowAligned off size = false) :
    exec (.misalignedWindowAccess port false off size) s = .next { s with dev := { s.dev with
      host := (s.dev.host.winError port).updPort port (fun p => { p with lastRead := 2 ^ (8 * size) - 1 }) } } := by
  simp [exec, execMisalignedWindowAccess, nextDev, hlink, halign]

theorem exec_misaligned_write {off size : Nat} (hrefused : s.dev.writeRefused port off size = true) :
    exec (.misalignedWindowAccess port true off size) s = .next { s with dev := { s.dev with host := s.dev.host.winError port } } := by
  simp [exec, execMisalignedWindowAccess, nextDev, hlink, hrefused]

end

/-- Accesses that R416 refuses: of another size than 4 or 8, misaligned, or past the window's end. -/
theorem windowAligned_eq_false {off size : Nat} :
    windowAligned off size = false ↔ (size ≠ 4 ∧ size ≠ 8) ∨ off % size ≠ 0 ∨ 0x100000 < off + size := by
  simp only [windowAligned, Bool.and_eq_false_iff, Bool.or_eq_false_iff, beq_eq_false_iff_ne, decide_eq_false_iff_not]
  omega

section
variable {port off : Nat}

/-- The queue and link registers of a port (R415). -/
theorem windowPort_own (hport : port < 2) (hlo : 0x1000 * (port + 1) ≤ off) (hhi : off < 0x1000 * (port + 1) + 0x820) :
    windowPort off = some port := by
  unfold windowPort
  interval_cases port
  · exact if_pos (by simp; omega)
  · rw [if_neg (by simp; omega), if_pos (by simp; omega)]

theorem windowPort_elsewhere (h : off < 0x1000 ∨ 0x3000 ≤ off) : windowPort off = none := by
  unfold windowPort
  rw [if_neg (by simp; omega), if_neg (by simp; omega)]

end

section
variable {d : Dev} {port off size : Nat}

theorem Dev.writeRefused_misaligned (h : windowAligned off size = false) : d.writeRefused port off size = true := by
  simp [Dev.writeRefused, h]

theorem Dev.writeRefused_otherPort {k : Nat} (h : windowPort off = some k) (hk : k ≠ port) : d.writeRefused port off size = true := by
  simp [Dev.writeRefused, h, hk]

theorem Dev.writeRefused_channel (hlo : 0x10000 ≤ off) (hhi : off < 0x16000)
    (hown : d.host.own (0x40 + (off - 0x10000) / 0x100) ≠ port + 1) : d.writeRefused port off size = true := by
  simp [Dev.writeRefused, hlo, hhi, hown]

/-- A refused write adds one to WINDOW_ERROR. -/
theorem Dev.windowWrite_refused (h : d.writeRefused port off size = true) (value : Nat) :
    d.windowWrite port off size value = { d with host := d.host.winError port } := if_pos h

end

/-- Settles O13: a read of the low word sets the owner it finds, or the reader of a free semaphore, and returns it. -/
theorem semaphoresAcquireAndRelease : Obligations.SemaphoresAcquireAndRelease := by
  intro s port n hlink hn
  refine ⟨fun hfree => (exec_semAcquire_low hlink hn hfree).trans (by simp [semWord, b2n]), fun o hpos ho4 ho => ⟨_, exec_semAcquire_low hlink hn ho, fun m => ?_, ?_, rfl⟩,
    exec_semAcquire_high hlink hn, fun hown => exec_semRelease_own hlink hn hown, fun hother => exec_semRelease_other hlink hn hother⟩
  · dsimp only
    rw [if_neg (by omega), Tab.get_set]
    split
    · next h => rw [h, ho]
    · rfl
  · simp [HostIf.port, Tab.get_upd, semWord, b2n, show o ≠ 0 by omega]

/-- Settles O15: each of the conditions refuses the write, and a refused access counts and does nothing else. -/
theorem refusedWindowAccessesAreCounted : Obligations.RefusedWindowAccessesAreCounted := by
  intro s port off size value hlink _
  refine ⟨fun hmis => exec_misaligned_read hlink (windowAligned_eq_false.2 hmis), fun hbad => ?_⟩
  have hrefused : s.dev.writeRefused port off size = true := by
    rcases hbad with hsize | halign | hend | ⟨rfl, hlo, hhi⟩ | ⟨rfl, hlo, hhi⟩ | ⟨hlo, hhi, hown⟩
    · exact Dev.writeRefused_misaligned (windowAligned_eq_false.2 (.inl hsize))
    · exact Dev.writeRefused_misaligned (windowAligned_eq_false.2 (.inr (.inl halign)))
    · exact Dev.writeRefused_misaligned (windowAligned_eq_false.2 (.inr (.inr hend)))
    · exact Dev.writeRefused_otherPort (windowPort_own (port := 0) (by decide) hlo hhi) (by decide)
    · exact Dev.writeRefused_otherPort (windowPort_own (port := 1) (by decide) hlo hhi) (by decide)
    · exact Dev.writeRefused_channel hlo hhi hown
  refine ⟨exec_misaligned_write hlink hrefused, ?_⟩
  rw [exec_registerWrite_linked hlink, Dev.windowWrite_refused hrefused]

/-! ## Register writes (R417, R419, R468) -/

/-- A field that lies in the written one, from its first bit on, reads as written. -/
theorem bits_setBits (x lo w v n : Nat) (hn : n ≤ w) : bits (setBits x lo w v) lo n = v % 2 ^ n := by
  have hfield : bits x lo w <<< lo ≤ x := by
    rw [bits, Nat.shiftLeft_eq, Nat.shiftRight_eq_div_pow]
    exact (Nat.mul_le_mul_right _ (Nat.mod_le ..)).trans (Nat.div_mul_le_self ..)
  obtain ⟨k, rfl⟩ := Nat.exists_eq_add_of_le hn
  have hrest : (x - bits x lo (n + k) <<< lo) / 2 ^ lo = x / 2 ^ lo / 2 ^ (n + k) * 2 ^ (n + k) := by
    rw [bits, Nat.shiftLeft_eq, Nat.shiftRight_eq_div_pow, Nat.mul_comm _ (2 ^ lo), Nat.sub_mul_div]
    have := Nat.div_add_mod (x / 2 ^ lo) (2 ^ (n + k))
    rw [Nat.mul_comm] at this
    omega
  unfold setBits
  rw [bits, Nat.shiftRight_eq_div_pow, Nat.shiftLeft_eq (v % _), Nat.add_mul_div_right _ _ (Nat.two_pow_pos lo), hrest, Nat.pow_add,
    ← Nat.mul_assoc, Nat.mul_right_comm, Nat.mul_add_mod_self_right, Nat.mod_mul_right_mod]

section
variable (u : Queue) (lo w v : Nat)

/-- No register write sets ENABLE, and none moves the indices that doorbells, fetching and replies move. -/
theorem Queue.write_frame : ((u.write lo w v).cqTail, (u.write lo w v).cqHead, (u.write lo w v).rqTail) = (u.cqTail, u.cqHead, u.rqTail) ∧
    ((u.write lo w v).enable = true → u.enable = true) :=
  ⟨rfl, fun h => (Bool.and_eq_true_iff.1 h).1⟩

/-- Outside DISABLED the ring registers stay. -/
theorem Queue.write_busy {u : Queue} (h : u.qstate ≠ 0) :
    ((u.write lo w v).cqBase, (u.write lo w v).cqLog2, (u.write lo w v).rqBase, (u.write lo w v).rqLog2, (u.write lo w v).shadow) =
      (u.cqBase, u.cqLog2, u.rqBase, u.rqLog2, u.shadow) := by
  simp [Queue.write, h]

/-- An 8-byte write at the block's start sets CQ_BASE of a DISABLED queue. -/
theorem Queue.write_cqBase {u : Queue} {v : Nat} (h : u.qstate = 0) (hv : v < 2 ^ 48) (h64 : v % 64 = 0) : (u.write 0 64 v).cqBase = v := by
  have hbase : bits (setBits (u.block 0) 0 64 v) 0 48 = v := (bits_setBits _ 0 64 v 48 (by decide)).trans (Nat.mod_eq_of_lt hv)
  simp [Queue.write, h, hbase, h64]

theorem Queue.write_rqHead : (u.write 288 32 v).rqHead = v % 2 ^ 32 := bits_setBits _ 288 32 v 32 (le_refl _)

/-- A channel block's write, by the four registers that it sets. -/
theorem Chan.write_eq (c : Chan) : ∃ b l p e, c.write lo w v = { c with base := b, log2 := l, prio := p, irqEn := e } ∧
    (c.st ≠ 0 → b = c.base ∧ l = c.log2) :=
  ⟨_, _, _, _, rfl, fun h => by simp [h]⟩

end

section
variable {d : Dev} {port off size : Nat} (hok : d.writeRefused port off size = false) (value : Nat)
include hok

/-- A write of a port's own queue block. -/
theorem Dev.windowWrite_queue (hport : port < 2) {k : Nat} (hk : k < 8) (hlo : 0x1000 * (port + 1) + 0x100 * k ≤ off)
    (hhi : off < 0x1000 * (port + 1) + 0x100 * (k + 1)) : d.windowWrite port off size value =
      { d with host := d.host.updQueue (8 * port + k) fun u => u.write (8 * (off % 0x100)) (8 * size) value }.flush.settled := by
  have hown : windowPort off = some port :=
    windowPort_own hport (Nat.le_of_add_right_le hlo) (hhi.trans_le (Nat.add_le_add_left (by omega) _))
  have hblock : (off - 0x1000 * (port + 1)) / 0x100 = k := by omega
  have hoff : (off - 0x1000 * (port + 1)) % 0x100 = off % 0x100 := by omega
  unfold Dev.windowWrite
  rw [hok, if_neg Bool.false_ne_true, if_neg (by simp; omega), hown]
  dsimp only
  rw [if_pos (by omega), hblock, hoff]

/-- A write of a port's own link block. -/
theorem Dev.windowWrite_link (hport : port < 2) (hoff : off = 0x1000 * (port + 1) + 0x800) : d.windowWrite port off size value =
    { d with host := d.host.updPort port fun p => { p with irqEn := value.testBit 5 } } := by
  unfold Dev.windowWrite
  rw [hok, if_neg Bool.false_ne_true, if_neg (by simp; omega), windowPort_own hport (by omega) (by omega)]
  dsimp only
  rw [if_neg (by omega), if_pos (by omega)]
  rfl

/-- A write of a mover channel's block. -/
theorem Dev.windowWrite_chan {n : Nat} (hn : n < 96) (hlo : 0x10000 + 0x100 * n ≤ off) (hhi : off < 0x10000 + 0x100 * (n + 1)) :
    d.windowWrite port off size value = d.updChan n fun c => c.write (8 * (off % 0x100)) (8 * size) value := by
  have hblock : (off - 0x10000) / 0x100 = n := by omega
  unfold Dev.windowWrite
  rw [hok, if_neg Bool.false_ne_true, if_pos (by simp; omega), hblock]
  rfl

/-- A write where no register stands changes nothing. -/
theorem Dev.windowWrite_elsewhere (hoff : off < 0x1000 ∨ (0x3000 ≤ off ∧ off < 0x10000) ∨ 0x16000 ≤ off) :
    d.windowWrite port off size value = d := by
  unfold Dev.windowWrite
  rw [hok, if_neg Bool.false_ne_true, if_neg (by simp; omega), windowPort_elsewhere (by omega)]

end

/-- Changes that agree on the channel as it stands change the device alike. -/
theorem Dev.updChan_congr {d : Dev} {n : Nat} {g g' : Chan → Chan} (h : g (d.chan n) = g' (d.chan n)) : d.updChan n g = d.updChan n g' := by
  rw [Dev.updChan, Dev.updChan, Tab.upd_congr _ _ _ g g' h]

/-- Settles O16: a write reaches the block that its offset lies in, and there the registers that have no row of their own. -/
theorem registerWritesChangeTheirRegister : Obligations.RegisterWritesChangeTheirRegister := by
  intro s port off size value hlink hok
  have hport := Dev.port_lt_of_linked hlink
  rw [exec_registerWrite_linked hlink]
  refine ⟨fun k hk hlo hhi => ?queue, fun hoff => ?link, fun n hn hlo hhi => ?chan, fun hoff => ?elsewhere⟩
  case queue =>
    rw [Dev.windowWrite_queue hok value hport hk hlo hhi]
    generalize hu : s.dev.host.queue (8 * port + k) = u
    refine ⟨_, u.write (8 * (off % 0x100)) (8 * size) value, rfl, rfl, ?_, (Queue.write_frame ..).1, (Queue.write_frame ..).2,
      fun hbusy => Queue.write_busy _ _ _ hbusy, fun hidle hoff hsize hv h64 => ?_, fun hoff hsize => ?_⟩
    · rw [HostIf.updQueue_congr _ _ (fun _ => u.write _ _ _) _ (by rw [hu])]
      exact (Dev.flush_replied _).trans (Dev.settled_replied _)
    · rw [hoff, hsize]
      exact Queue.write_cqBase hidle hv h64
    · rw [hoff, hsize]
      exact Queue.write_rqHead u value
  case link => rw [Dev.windowWrite_link hok value hport hoff]
  case chan =>
    rw [Dev.windowWrite_chan hok value hn hlo hhi]
    obtain ⟨b, l, p, e, heq, hbusy⟩ := Chan.write_eq (8 * (off % 0x100)) (8 * size) value (s.dev.chan n)
    refine ⟨b, l, p, e, ?_, hbusy⟩
    rw [Dev.updChan_congr (g' := fun c => { c with base := b, log2 := l, prio := p, irqEn := e }) heq]
  case elsewhere => rw [Dev.windowWrite_elsewhere hok value hoff]

end Sys2Proof.Machine
end

