-- ==== Sys2Proof/Proofs/QueuesAndClaims.lean ====
section
/-! PROOFS. Doorbells and queue control, held-back interrupt messages, links, and claims of pins and channels (R411, R419, R424, R425, R439,
R440, R445, R542): O17, O20 and O22. -/

namespace Sys2Proof.Machine

/-! ## Queue control (R419, R424) -/

section
variable {s : State} {port k : Nat} (hlink : s.dev.linked port = true) (hk : k < 8)
include hlink hk

theorem exec_cqTail_linked (v : Nat) : exec (.cqTail port k v) s = .next { s with dev := { s.dev with
    host := s.dev.host.updQueue (8 * port + k) fun u =>
      if 2 ^ u.cqLog2 < (v % 2 ^ 32 + 2 ^ 32 - u.cqHead) % 2 ^ 32 then u.fail 1 else { u with cqTail := v % 2 ^ 32 } } } := by
  simp [exec, execCqTail, nextDev, hlink, hk]

theorem exec_queueEnable_linked : exec (.queueEnable port k) s = .next { s with
    dev := ({ s.dev with host := s.dev.host.updQueue (8 * port + k) fun u => u.enableOn port } : Dev).settled } := by
  simp [exec, execQueueEnable, nextDev, hlink, hk]

theorem exec_qReset_linked : exec (.qReset port k) s = .next { s with
    dev := ({ s.dev with host := s.dev.host.updQueue (8 * port + k) fun u => { u with enable := false, fetched := [], qstate := 3 } } : Dev).settled } := by
  simp [exec, execQReset, nextDev, hlink, hk]

end

theorem exec_queueDrained_idle {s : State} {q : Nat} (hstate : (s.dev.host.queue q).qstate = 3) (hidle : ∀ c ∈ s.dev.host.inProg, c.queue ≠ q) :
    exec (.queueDrained q) s = .next { s with dev := ({ s.dev with host := s.dev.host.updQueue q fun u =>
      { u with cqTail := 0, cqHead := 0, rqTail := 0, rqHead := 0, err := 0, qstate := 0 } } : Dev).settled } := by
  have hnone : s.dev.host.inProg.any (fun c => c.queue == q) = false := by simpa using hidle
  simp [exec, execQueueDrained, nextDev, hstate, hnone]

/-- A DISABLED queue that is enabled, by where its two rings lie. -/
theorem Queue.enableOn_disabled {u : Queue} (hstate : u.qstate = 0) (port : Nat) : u.enableOn port =
    if inHostWindow port u.cqBase (32 * 2 ^ u.cqLog2) = true ∧ inHostWindow port u.rqBase (16 * 2 ^ u.rqLog2) = true then
      { u with enable := true, qstate := 1 } else { u with enable := true, qstate := 2, err := 3 } := by
  simp [Queue.enableOn, Queue.fail, hstate]

/-- A changed queue that holds no packet leaves nothing to settle where no other queue holds one. -/
theorem Dev.settled_updQueue {d : Dev} {q : Nat} {g : Queue → Queue} (hempty : ∀ x, (d.host.queue x).fetched = [])
    (hq : (g (d.host.queue q)).fetched = []) :
    ({ d with host := d.host.updQueue q g } : Dev).settled = { d with host := d.host.updQueue q g } := by
  refine Dev.settled_of_empty fun x => ?_
  rw [HostIf.queue_updQueue]
  split
  · exact hq
  · exact hempty x

/-- A change that leaves a queue without packets, followed by what it lets go. -/
theorem Res.becomes_settled {s : State} {q : Nat} {g : Queue → Queue} {d1 : Dev} (hd : d1 = { s.dev with host := s.dev.host.updQueue q g })
    (hkeeps : (s.dev.host.queue q).fetched = [] → (g (s.dev.host.queue q)).fetched = []) {r : Res} (hr : r = .next { s with dev := d1.settled }) :
    Res.Becomes s d1 r ∧ ((∀ x, (s.dev.host.queue x).fetched = []) → r = .next { s with dev := d1 }) := by
  refine ⟨⟨_, hr, rfl, d1.settled_replied⟩, fun hempty => ?_⟩
  rw [hr, hd, Dev.settled_updQueue hempty (hkeeps (hempty q))]

/-- Settles O17: each act of queue control is a change of the queue's block, then what it lets go is settled. -/
theorem queueControl : Obligations.QueueControl := by
  rintro s port k hlink hk q u rfl hu
  refine ⟨fun v hv hfits => ?_, fun v hv hover hstate => ?_, fun d1 hstate hd => ?_, fun d1 hd => ?_, fun d1 hstate hidle hd => ?_⟩
  · rw [exec_cqTail_linked hlink hk, HostIf.updQueue_congr _ _ _ (fun x => { x with cqTail := v })]
    rw [hu, Nat.mod_eq_of_lt hv, if_neg (by omega)]
  · rw [exec_cqTail_linked hlink hk, HostIf.updQueue_congr _ _ _ (fun x => { x with qstate := 2, err := 1 })]
    rw [hu, Nat.mod_eq_of_lt hv, if_pos hover, Queue.fail, if_pos (by omega)]
  · refine Res.becomes_settled hd (fun hempty => ?_) ?_
    · split <;> exact hempty
    · rw [exec_queueEnable_linked hlink hk, hd]
      refine congrArg (fun h : HostIf => Host.Outcome.next { s with dev := ({ s.dev with host := h } : Dev).settled })
        (HostIf.updQueue_congr _ _ _ _ ?_)
      rw [hu]
      exact Queue.enableOn_disabled hstate port
  · exact Res.becomes_settled hd (fun _ => rfl) (by rw [exec_qReset_linked hlink hk, hd])
  · exact Res.becomes_settled hd id (by rw [exec_queueDrained_idle (hu ▸ hstate) hidle, hd])

/-! ## Interrupt messages and links (R411, R420, R425) -/

/-- Settles O20: each event by the condition of its rule. -/
theorem interruptsGoOutAndLinksTrain : Obligations.InterruptsGoOutAndLinksTrain := by
  refine ⟨fun s q t0 u hu hheld hlast hdue => ⟨fun hunread => ?_, fun hread => ?_⟩,
    fun s port width rate hport => ⟨fun hmay => ?_, fun corrected replayed hup hreplayed => ?_⟩⟩
  · simp [exec, execIrqHoldoffEnd, nextDev, hu, hheld, hlast, hdue, hunread]
  · simp [exec, execIrqHoldoffEnd, nextDev, hu, hheld, hlast, hdue, hread]
  · rcases hmay with ⟨hphase, rfl, rfl, rfl⟩ | ⟨hdormant, hheld, hw1, hw3, hr1, hr2, hon⟩
    · simp [exec, execLinkTrained, nextDev, hphase]
    · simp [exec, execLinkTrained, nextDev, hdormant, hheld, hport, hw1, hw3, hr1, hr2, hon]
  · have hlink : s.dev.linked port = true := by simp [Dev.linked, hport, hup]
    have hdown : s.dev.host.updPort port (fun p => { p.goDown s.dev.plat.now with
          fecCorr := min (2 ^ 32 - 1) (p.fecCorr + corrected), fecUncorr := min (2 ^ 32 - 1) (p.fecUncorr + replayed) }) =
        s.dev.host.updPort port (fun p => { p with
          up := false, width := 0, rate := 0, downs := (p.downs + 1) % 2 ^ 32, downAt := some s.dev.plat.now
          fecCorr := min (2 ^ 32 - 1) (p.fecCorr + corrected), fecUncorr := min (2 ^ 32 - 1) (p.fecUncorr + replayed) }) := by
      unfold HostIf.updPort
      rw [Tab.upd_congr]
      have hpup : (Tab.get {} s.dev.host.ports port).up = true := hup
      simp [Port.goDown, hpup]
    have hexec : exec (.linkRetrain port corrected replayed) s = .next { s with dev := { s.dev with
        host := (s.dev.host.updPort port (fun p => { p.goDown s.dev.plat.now with
          fecCorr := min (2 ^ 32 - 1) (p.fecCorr + corrected), fecUncorr := min (2 ^ 32 - 1) (p.fecUncorr + replayed) })).linkIrq port } } := by
      simp [exec, execLinkRetrain, nextDev, hlink, hreplayed]
    rw [hexec, hdown]

/-! ## Pins and channels (R439, R440, R445) -/

/-- A change of the host interface that replies do not reach is made alike on devices that differ by replies. -/
theorem Dev.Replied.mapHost {a b : Dev} (h : a.Replied b) (g : HostIf → HostIf) (hquiet : ∀ h : HostIf, (g h).quiet = (g h.quiet).quiet)
    (hqueues : ∀ h : HostIf, (g h).queues = h.queues) :
    ({ a with host := g a.host } : Dev).Replied { b with host := g b.host } := by
  have hqueue : ∀ (h : HostIf) x, (g h).queue x = h.queue x := fun h x => by rw [HostIf.queue, hqueues, HostIf.queue]
  have hhost : b.host.quiet = a.host.quiet := congrArg Dev.host h.quiet
  refine ⟨?_, fun q => ?_, fun x hx => ?_, h.ctr, h.bufs⟩
  · show { b.quiet with host := (g b.host).quiet } = { a.quiet with host := (g a.host).quiet }
    rw [hquiet b.host, hquiet a.host, hhost, h.quiet]
  · rw [hqueue, hqueue]
    exact h.setup q
  · exact h.mem x fun q => by simpa only [hqueue] using hx q

section
variable {h : HostIf} {port id : Nat}

/-- A resource that is free, or the port's own, may be claimed. -/
theorem HostIf.claimRefusal_mine (hown : h.own id = 0 ∨ h.own id = port + 1) : h.claimRefusal port id = none := if_pos hown

/-- A resource of another owner is refused with that owner and the resource's ID. -/
theorem HostIf.claimRefusal_other (hfree : h.own id ≠ 0) (hother : h.own id ≠ port + 1) :
    h.claimRefusal port id = some (stBusy, h.own id + 4 * id, []) := if_neg (not_or.2 ⟨hfree, hother⟩)

end

/-- An admitted command that its own check 7 refuses, not latching and with nothing else waiting, is answered with that refusal. -/
theorem State.Admits.answersOwn {s : State} {i : Instr} {f : PacketForm} {p : Packet} {ck : Dev → Checks} {eff : Dev → Cmd → Dev}
    (h : s.Admits i f p) (hlen : Instr.paramBytes i f = paramLen f.layout) {st det : Nat} (hparam : (ck s.dev).param = none)
    (hown : (ck s.dev).own = some (st, det, [])) (hdenied : (ck s.dev).denied = false) (hlatch : p.latchEn = false)
    (halone : s.dev.Alone f.queue p) (hanswer : s.dev.CanAnswer (p.replyQueue f.queue)) :
    ∃ t : State, startCmd s f.queue f.opcode f.layout f.fields ck eff = .next t ∧ t.pending = s.pending ∧ s.dev.Replied t.dev ∧
      s.dev.Answered t.dev (p.replyQueue f.queue) [s.dev.replyNow p.tag st 0 det] :=
  startCmdLen_refusal_answers (ext := []) h.head (Dev.refusal_own (hlen ▸ h.passes) hparam hown hdenied) hlatch halone hanswer (Nat.zero_le _)

section
variable (s : State) (q : Nat)

theorem exec_gpioClaim (id : Nat) : exec (.gpioClaim q id) s = execGpioClaim q id s := rfl
theorem exec_gpioRelease (id : Nat) : exec (.gpioRelease q id) s = execGpioRelease q id s := rfl
theorem exec_gpioSet (id mode value alt : Nat) : exec (.gpioSet q id mode value alt) s = execGpioSet q id mode value alt s := rfl
theorem exec_channelClaim (id : Nat) : exec (.channelClaim q id) s = execChannelClaim q id s := rfl

end

/-- A field check that passes where each of its two conditions does. -/
theorem firstBadField_two {a b : Bool} {i j : Nat} (ha : a = true) (hb : b = true) : firstBadField [(a, i), (b, j)] = none :=
  firstBadField_none (by simp [ha, hb])

/-- Settles O22: a claim is refused by the ownership table alone, and the other two need the port's own pin. -/
theorem claimsOfPinsAndChannels : Obligations.ClaimsOfPinsAndChannels := by
  intro s q id f p
  refine ⟨fun i hi h => ⟨fun hown => ?claim, fun hfree hother hlatch halone hanswer _ => ?refused⟩, fun h hown => ?release,
    fun mode value alt h hown hmode halt => ?set⟩
  case claim =>
    rcases hi with rfl | ⟨rfl, hlo, hhi⟩ <;> cases h.form
    · rw [exec_gpioClaim, execGpioClaim]
      exact h.doneBy rfl ⟨rfl, HostIf.claimRefusal_mine hown, rfl⟩ ((s.dev.begin__replied q p).setOwner id (q / 8 + 1))
    · rw [exec_channelClaim, execChannelClaim]
      exact h.doneBy rfl ⟨if_pos ⟨hlo, hhi⟩, HostIf.claimRefusal_mine hown, rfl⟩ ((s.dev.begin__replied q p).setOwner id (q / 8 + 1))
  case refused =>
    rcases hi with rfl | ⟨rfl, hlo, hhi⟩ <;> cases h.form
    · rw [exec_gpioClaim, execGpioClaim]
      exact h.answersOwn rfl rfl (HostIf.claimRefusal_other hfree hother) rfl hlatch halone hanswer
    · rw [exec_channelClaim, execChannelClaim]
      exact h.answersOwn rfl (if_pos ⟨hlo, hhi⟩) (HostIf.claimRefusal_other hfree hother) rfl hlatch halone hanswer
  case release =>
    cases h.form
    rw [exec_gpioRelease, execGpioRelease]
    exact h.doneBy rfl ⟨rfl, HostIf.ownRefusal_own hown, rfl⟩
      ((s.dev.begin__replied q p).mapHost (fun g => g.freePin id) (fun _ => rfl) fun _ => rfl)
  case set =>
    cases h.form
    rw [exec_gpioSet, execGpioSet]
    refine h.becomes rfl ⟨firstBadField_two (by simp [hmode]) ?_, HostIf.ownRefusal_own hown, rfl⟩
      (((s.dev.begin__replied q p).mapHost (fun g => g.updPin id _) (fun _ => rfl) fun _ => rfl).trans (Dev.finish_replied ..))
    by_cases hm : mode = 2
    · simp [halt hm]
    · simp [hm]

end Sys2Proof.Machine
end

