-- ==== Sys2Proof/Proofs/PortResets.lean ====
section
/-! PROOFS. The reset of a port (R437): what an entry of the ownership table takes with it as it is released, what is settled afterwards, and
O21. -/

namespace Sys2Proof.Machine

/-! ## Entries that are let go -/

/-- From host interface `a` to `b` queues keep their registers, semaphores stay, and an owner stays or is none. -/
structure HostIf.LetsGo (a b : HostIf) : Prop where
  setup : ∀ q, (b.queue q).setup = (a.queue q).setup
  sems : b.sems = a.sems
  owner : ∀ id, b.own id = a.own id ∨ b.own id = 0

theorem Dev.putRecord_host (d : Dev) (j : Job) (res conc units : Nat) : (d.putRecord j res conc units).host = d.host := by
  rw [Dev.putRecord, Dev.putCompHead, Dev.storeNat_host, Dev.updIng_host, Dev.storeNat_host]

namespace HostIf.LetsGo

theorem refl (a : HostIf) : a.LetsGo a := ⟨fun _ => rfl, rfl, fun _ => .inl rfl⟩

theorem trans {a b c : HostIf} (h : a.LetsGo b) (h' : b.LetsGo c) : a.LetsGo c where
  setup q := (h'.setup q).trans (h.setup q)
  sems := h'.sems.trans h.sems
  owner id := by
    rcases h'.owner id with hid | hid
    · rw [hid]
      exact h.owner id
    · exact .inr hid

theorem of_replied {a b : Dev} (h : a.Replied b) : a.host.LetsGo b.host where
  setup := h.setup
  sems := show b.quiet.host.sems = a.quiet.host.sems by rw [h.quiet]
  owner id := .inl (h.own id)

/-- An owner who is gone, whatever the pins. -/
theorem release (a : HostIf) (id : Nat) (pins : Tab Gpio) : a.LetsGo { a.setOwner id 0 with gpio := pins } where
  setup _ := rfl
  sems := rfl
  owner x := by
    have hx : (a.setOwner id 0).own x = if x = id then 0 else a.own x := HostIf.own_setOwner ..
    refine (em (x = id)).elim (fun h => .inr (hx.trans (if_pos h))) fun h => .inl (hx.trans (if_neg h))

theorem ite {a : HostIf} {b d : Dev} {c : Prop} [Decidable c] (hb : a.LetsGo b.host) (hd : a.LetsGo d.host) :
    a.LetsGo (if c then b else d).host := by
  split
  · exact hb
  · exact hd

section
variable {a : HostIf} {d : Dev} (h : a.LetsGo d.host)
include h

theorem finish (id status detail : Nat) (ext : List Nat) : a.LetsGo (d.finish id status detail ext).host :=
  h.trans (of_replied (Dev.finish_replied ..))

theorem endDumps (sel : Dump → Bool) (status : Nat) : a.LetsGo (d.endDumps sel status).host :=
  foldl_keeps (fun e : Dev => a.LetsGo e.host) _ (fun _ x he => finish he x.cmd status 0 []) _ _ h

theorem abortNext (n : Nat) : a.LetsGo (d.abortNext n).host := by
  unfold Dev.abortNext
  dsimp only
  split
  · refine finish (endDumps ?_ _ _) _ _ _ _
    exact h
  · exact h

theorem abortUnfed (n : Nat) : a.LetsGo (d.abortUnfed n).host := by
  refine ite (abortNext ?_ n) (ite ?_ (ite (h.abortNext n) h))
  · exact h
  · exact h

theorem endRing (n : Nat) : a.LetsGo (d.endRing n).host := by
  refine ite h (finish ?_ _ _ _ _)
  exact h.trans (release _ (0x28 + n) _)

theorem endJob (j : Job) (res conc units : Nat) : a.LetsGo (d.endJob j res conc units).host := by
  have htrace : a.LetsGo ((d.putRecord j res conc units).trace 0x0D 4 j.lastEngine (jTag j.record) res (jIndex j.record)).host := by
    rw [Dev.trace_host, Dev.putRecord_host]
    exact h
  generalize hd : (d.putRecord j res conc units).trace 0x0D 4 j.lastEngine (jTag j.record) res (jIndex j.record) = e at htrace
  unfold Dev.endJob
  dsimp only
  rw [hd]
  refine endRing ?_ j.ring
  exact htrace

theorem withdraw (j : Job) : a.LetsGo (d.withdraw j).host := by
  unfold Dev.withdraw
  refine ite ?_ ?_
  · exact h
  · exact h.endJob j resWithdrawn 0 0

theorem closeRing (n cmd : Nat) : a.LetsGo (d.closeRing n cmd).host := by
  have hbatches := foldl_keeps (fun e : Dev => a.LetsGo e.host) Dev.abortUnfed (fun _ k he => abortUnfed he k) (d.plans.map Prod.fst) d h
  unfold Dev.closeRing
  refine endRing (foldl_keeps (fun e : Dev => a.LetsGo e.host) _ (fun e j he => ?_) _ _ ?_) n
  · have hjob := he.withdraw j
    split
    · exact ite hjob hjob
    · exact hjob
  · refine ite h ?_
    exact hbatches

theorem freeSession (n : Nat) : a.LetsGo (d.freeSession n).host := by
  have hfree := h.trans (release d.host (0x20 + n) d.host.gpio)
  unfold Dev.freeSession
  refine ite ?_ (finish ?_ _ _ _ _)
  · exact hfree
  · exact hfree

theorem endSession (n : Nat) : a.LetsGo (d.endSession n).host := ite (h.freeSession n) h

theorem dropPicture (n : Nat) (c : EncCur) : a.LetsGo (d.dropPicture n c).host := by
  unfold Dev.dropPicture Dev.endPicture
  refine endSession (finish ?_ _ _ _ _) n
  exact h

theorem closeSession (n : Nat) (g : EncSess → EncSess) : a.LetsGo (d.closeSession n g).host := by
  have hsubs := foldl_keeps (fun e : Dev => a.LetsGo e.host) (fun e (x : EncSub) => e.finish x.cmd stAborted 0 [])
    (fun _ x he => finish he x.cmd stAborted 0 []) (d.enc.sess_ n).queue (d.updSess n fun x => g { x with queue := [] }) h
  unfold Dev.closeSession
  dsimp only
  split
  · exact ite (hsubs.dropPicture ..) (hsubs.endSession n)
  · exact hsubs.endSession n

theorem loseTrace (b : Nat) : a.LetsGo (d.loseTrace b).host := by
  unfold Dev.loseTrace
  refine finish (finish ?_ _ _ _ _) _ _ _ _
  exact h.trans (release _ (0x18 + b) _)

theorem loseChan (k : Nat) : a.LetsGo (d.loseChan k).host := by
  have hpause : a.LetsGo (if (d.chan k).st = 1 then d.updChan k (fun c => c.pause 2) else d).host := ite h h
  unfold Dev.loseChan
  refine ite hpause ?_
  exact hpause.trans (release _ (chanId k) _)

/-- An entry of the ownership table that is released. -/
theorem loseEntry (id : Nat) : a.LetsGo (d.loseEntry id).host := by
  unfold Dev.loseEntry
  refine ite ?_ (ite ?_ (ite (h.loseTrace _) (ite (h.closeSession _ _) (ite (ite h (h.closeRing _ _)) (ite (h.loseChan _) h)))))
  · exact h.trans (release _ id _)
  · exact h.trans (release _ id _)

theorem loseEntries (ids : List Nat) : a.LetsGo (ids.foldl Dev.loseEntry d).host :=
  foldl_keeps (fun e : Dev => a.LetsGo e.host) Dev.loseEntry (fun _ id he => he.loseEntry id) ids d h

end

end HostIf.LetsGo

/-- A pin or a timer whose entry is released is free. -/
theorem Dev.loseEntry_free (d : Dev) {id : Nat} (hid : id < 0x18) : (d.loseEntry id).host.own id = 0 := by
  have hfree : (d.host.setOwner id 0).own id = 0 := (HostIf.own_setOwner ..).trans (if_pos rfl)
  unfold Dev.loseEntry
  split
  · exact hfree
  · exact hfree

/-- Pins and timers among the entries released are free in the end. -/
theorem Dev.loseEntries_free {id : Nat} (hid : id < 0x18) (l : List Nat) : ∀ d : Dev, id ∈ l → (l.foldl Dev.loseEntry d).host.own id = 0 := by
  induction l with
  | nil => exact fun d h => absurd h List.not_mem_nil
  | cons k l ih =>
    intro d hmem
    by_cases hl : id ∈ l
    · exact ih _ hl
    · obtain rfl := (List.mem_cons.1 hmem).resolve_right hl
      have hfree := d.loseEntry_free hid
      rcases (HostIf.LetsGo.loseEntries (d := d.loseEntry id) (.refl _) l).owner id with h | h
      · exact h.trans hfree
      · exact h

/-! ## Entries and semaphores of a port -/

/-- A key whose value is not the default is in the table. -/
theorem Tab.mem_of_get {α : Type} {z : α} : ∀ {m : Tab α} {k : Nat}, Tab.get z m k ≠ z → (k, Tab.get z m k) ∈ m
  | [], _, h => absurd rfl h
  | (j, v) :: m, k, h => by
    unfold Tab.get at h ⊢
    split
    · next hk => exact hk ▸ List.mem_cons_self
    · next hk =>
      rw [if_neg hk] at h
      exact List.mem_cons_of_mem _ (Tab.mem_of_get h)

/-- What a key reads as in a part of a table: the default, or the value of an entry of that part. -/
theorem Tab.get_filter {α : Type} {z : α} (f : Nat × α → Bool) : ∀ (m : Tab α) (k : Nat), (∀ e ∈ m, e.1 = k → f e = true) →
    Tab.get z (m.filter f) k = Tab.get z m k
  | [], _, _ => rfl
  | (j, v) :: m, k, h => by
    have ih := Tab.get_filter (z := z) f m k fun e he => h e (List.mem_cons_of_mem _ he)
    rw [List.filter_cons]
    split
    · simp only [Tab.get, ih]
    · next hf =>
      have hjk : k ≠ j := fun hk => hf (h (j, v) List.mem_cons_self hk.symm)
      rw [ih, Tab.get, if_neg hjk]

section
variable (h : HostIf) (port : Nat)

/-- Pins and timers that the port owns are among its entries. -/
theorem HostIf.mem_entriesOf {id : Nat} (hid : id < 0xA0) (hown : h.own id = port + 1) : id ∈ h.entriesOf port := by
  have hmem : (id, h.own id) ∈ h.owner := Tab.mem_of_get (z := 0) (by rw [← HostIf.own, hown]; exact Nat.succ_ne_zero port)
  exact List.mem_map.2 ⟨_, List.mem_filter.2 ⟨hmem, by simp [hown, hid]⟩, rfl⟩

/-- A port's semaphores are free once they are let go. -/
theorem HostIf.freeSems_none (n : Nat) : Tab.get 0 (h.freeSems port).sems n ≠ port + 1 := by
  intro hn
  have hmem := Tab.mem_of_get (z := 0) (m := (h.freeSems port).sems) (k := n) (by rw [hn]; exact Nat.succ_ne_zero port)
  simpa [hn] using (List.mem_filter.1 hmem).2

theorem HostIf.freeSems_other {n : Nat} (hn : ∀ e ∈ h.sems, e.1 = n → e.2 ≠ port + 1) :
    Tab.get 0 (h.freeSems port).sems n = Tab.get 0 h.sems n :=
  Tab.get_filter _ _ _ fun e he hk => by simpa using hn e he hk

end

/-! ## Queues of a port that resets -/

/-- The queues of a port that resets, one after the other. -/
def HostIf.losePortQueues (h : HostIf) (port : Nat) : HostIf :=
  (List.range 8).foldl (fun (h : HostIf) i => h.updQueue (8 * port + i) Queue.portLost) h

section
variable (h : HostIf) (port : Nat)

theorem HostIf.losePortQueues_queue (x : Nat) :
    (h.losePortQueues port).queue x = if 8 * port ≤ x ∧ x < 8 * port + 8 then (h.queue x).portLost else h.queue x := by
  have hfold : ∀ n, ((List.range n).foldl (fun (h : HostIf) i => h.updQueue (8 * port + i) Queue.portLost) h).queue x =
      if 8 * port ≤ x ∧ x < 8 * port + n then (h.queue x).portLost else h.queue x := by
    intro n
    induction n with
    | zero => rw [if_neg (by omega)]; rfl
    | succ n ih =>
      rw [List.range_succ, List.foldl_append, List.foldl_cons, List.foldl_nil, HostIf.queue_updQueue]
      split
      · next hx =>
        subst hx
        rw [if_pos (by omega), ih, if_neg (by omega)]
      · rw [ih]
        exact if_congr (by omega) rfl rfl
  exact hfold 8

theorem HostIf.losePortQueues_frame : { h.losePortQueues port with queues := h.queues } = h :=
  foldl_keeps (fun g : HostIf => { g with queues := h.queues } = h) _ (fun _ _ hg => hg) (List.range 8) h rfl

end

/-! ## What is settled leaves queues without packets alone -/

/-- What a reply leaves of its queue: STATE, ERROR_CODE and the packets. -/
def Queue.standing (k : Queue) : Nat × Nat × List Packet := (k.qstate, k.err, k.fetched)

theorem HostIf.standing_updQueue (h : HostIf) (q x : Nat) {g : Queue → Queue} (hg : ∀ k, (g k).standing = k.standing) :
    ((h.updQueue q g).queue x).standing = (h.queue x).standing := by
  rw [HostIf.queue_updQueue]
  split
  · next hx => rw [hg, hx]
  · rfl

theorem HostIf.replyIrq_standing (h : HostIf) (q now x : Nat) : ((h.replyIrq q now).queue x).standing = (h.queue x).standing := by
  unfold HostIf.replyIrq
  dsimp only
  split
  · rfl
  · rw [apply_ite (fun g : HostIf => (g.queue x).standing), HostIf.irq_queue, HostIf.standing_updQueue, HostIf.standing_updQueue, ite_self]
    · exact fun _ => rfl
    · exact fun _ => rfl

theorem Dev.post_standing (d : Dev) (q x : Nat) (es : List Nat) : ((d.post q es).host.queue x).standing = (d.host.queue x).standing := by
  unfold Dev.post
  dsimp only
  split
  · rfl
  · rw [HostIf.replyIrq_standing, HostIf.standing_updQueue]
    exact fun _ => rfl

/-- A refusal changes the standing of its own queue alone. -/
theorem Dev.refuse_standing (d : Dev) {q x : Nat} (hx : x ≠ q) (p : Packet) (status detail : Nat) (ext : List Nat) :
    ((d.refuse q p status detail ext).host.queue x).standing = (d.host.queue x).standing := by
  unfold Dev.refuse
  dsimp only
  rw [Dev.post_standing, HostIf.popHead, HostIf.queue_updQueue, if_neg hx]

/-- A queue without packets stands as it did once all is settled. -/
theorem Dev.settle_standing {x : Nat} (n : Nat) : ∀ d : Dev, (d.host.queue x).fetched = [] →
    ((d.settle n).host.queue x).standing = (d.host.queue x).standing := by
  induction n with
  | zero => exact fun d _ => rfl
  | succ n ih =>
    intro d hx
    have hnext : ∀ e : Dev, (e.host.queue x).standing = (d.host.queue x).standing →
        ((e.settle n).host.queue x).standing = (d.host.queue x).standing := fun e he =>
      (ih e ((congrArg (fun k => k.2.2) he).trans hx)).trans he
    unfold Dev.settle
    split
    · next q hq =>
      have hne : x ≠ q := by
        rintro rfl
        simpa [HostIf.replyFaultQ, hx] using List.find?_some hq
      refine hnext _ ?_
      dsimp only
      rw [HostIf.replyFault, HostIf.queue_updQueue, if_neg hne]
    · split
      · rfl
      · next q _ =>
        split
        · rfl
        · next p rest hq =>
          have hne : x ≠ q := by
            rintro rfl
            rw [hx] at hq
            cases hq
          split
          · rfl
          · split <;> exact hnext _ (d.refuse_standing hne ..)

/-! ## PORT_RESET -/

/-- The device with a port's semaphores and entries of the ownership table let go. -/
def Dev.portLet (d : Dev) (port : Nat) : Dev :=
  (d.host.entriesOf port).foldl Dev.loseEntry { d with
    host := d.host.freeSems port
    ctr := bump d.ctr cobInst 0x71 ((d.host.sems.filter (fun e => e.2 == port + 1)).length + (d.host.entriesOf port).length) }

/-- The device before the queues of a port that resets are settled. -/
def Dev.portReset (d : Dev) (port : Nat) : Dev :=
  { d.portLet port with host := ((d.portLet port).host.losePortQueues port).updPort port (fun p => { p with downAt := none }) }

theorem Dev.portLet_letsGo (d : Dev) (port : Nat) : (d.host.freeSems port).LetsGo (d.portLet port).host := by
  unfold Dev.portLet
  refine HostIf.LetsGo.loseEntries ?_ _
  exact .refl _

theorem Dev.resetPort_eq (d : Dev) (port : Nat) : d.resetPort port = (d.portReset port).settled := rfl

theorem exec_portReset_due {s : State} {port t0 : Nat} (hport : port < 2) (hup : (s.dev.host.port port).up = false)
    (hdown : (s.dev.host.port port).downAt = some t0) (htime : t0 + 10000000 ≤ s.dev.plat.now) :
    exec (.portReset port) s = .next { s with dev := (s.dev.portReset port).settled } :=
  event_of_can _ (by simp [hport, hup, hdown, htime])

/-- Every queue before the settling: its registers are kept, and a queue of the port is lost. -/
theorem Dev.portReset_queue (d : Dev) (port x : Nat) : ∃ k : Queue, k.setup = (d.host.queue x).setup ∧
    (d.portReset port).host.queue x = if 8 * port ≤ x ∧ x < 8 * port + 8 then k.portLost else k :=
  ⟨_, (d.portLet_letsGo port).setup x, HostIf.losePortQueues_queue ..⟩

theorem HostIf.eq_of_queues {a b : HostIf} (h : { a with queues := b.queues } = b) : a.sems = b.sems ∧ a.owner = b.owner := by
  rw [← h]
  exact ⟨rfl, rfl⟩

theorem HostIf.losePortQueues_sems (h : HostIf) (port : Nat) : (h.losePortQueues port).sems = h.sems :=
  (HostIf.eq_of_queues (h.losePortQueues_frame port)).1

theorem HostIf.losePortQueues_own (h : HostIf) (port id : Nat) : (h.losePortQueues port).own id = h.own id :=
  congrArg (fun o => Tab.get 0 o id) (HostIf.eq_of_queues (h.losePortQueues_frame port)).2

theorem Dev.portReset_sems (d : Dev) (port : Nat) : (d.portReset port).host.sems = (d.host.freeSems port).sems :=
  (HostIf.losePortQueues_sems (d.portLet port).host port).trans (d.portLet_letsGo port).sems

/-- A port that resets owns no pin and no timer. -/
theorem Dev.portReset_own (d : Dev) (port : Nat) {id : Nat} (hid : id < 0x18) : (d.portReset port).host.own id ≠ port + 1 := by
  have hown : (d.portReset port).host.own id = (d.portLet port).host.own id := HostIf.losePortQueues_own (d.portLet port).host port id
  rw [hown]
  by_cases hmine : d.host.own id = port + 1
  · rw [Dev.portLet, Dev.loseEntries_free hid _ _ (d.host.mem_entriesOf port (by omega) hmine)]
    exact (Nat.succ_ne_zero port).symm
  · rcases (d.portLet_letsGo port).owner id with h | h
    · rw [h]
      exact hmine
    · rw [h]
      exact (Nat.succ_ne_zero port).symm

/-- A port without entries of the ownership table that resets. -/
theorem Dev.portReset_of_noEntries {d : Dev} {port : Nat} (hnone : d.host.entriesOf port = []) : d.portReset port = { d with
    host := ((d.host.freeSems port).losePortQueues port).updPort port (fun p => { p with downAt := none })
    ctr := bump d.ctr cobInst 0x71 (d.host.sems.filter (fun e => e.2 == port + 1)).length } := by
  rw [Dev.portReset, Dev.portLet, hnone]
  rfl

/-! ## O21 -/

/-- Settles O21: what a released entry takes with it lets owners, semaphores and queues alone but for what it frees (`HostIf.LetsGo`), and what
is settled afterwards leaves queues without packets alone. -/
theorem portResetReleasesThePort : Obligations.PortResetReleasesThePort := by
  intro s port t0 hport hup hdown htime
  have hexec := exec_portReset_due hport hup hdown htime
  have hinside : ∀ i, i < 8 → 8 * port ≤ 8 * port + i ∧ 8 * port + i < 8 * port + 8 := fun i hi => by omega
  constructor
  · have hsettled := HostIf.LetsGo.of_replied (Dev.settled_replied (s.dev.portReset port))
    refine ⟨_, hexec, rfl, fun n => ?_, fun id hid => ?_, fun i hi henable => ?_⟩
    · show Tab.get 0 (s.dev.portReset port).settled.host.sems n ≠ port + 1
      rw [hsettled.sems, Dev.portReset_sems]
      exact HostIf.freeSems_none _ _ n
    · rcases hsettled.owner id with h | h
      · exact fun he => s.dev.portReset_own port hid (h.symm.trans he)
      · exact fun he => Nat.succ_ne_zero port (he.symm.trans h)
    · obtain ⟨k, hsetup, hqueue⟩ := s.dev.portReset_queue port (8 * port + i)
      have hk : k.enable = true := (congrArg Queue.enable hsetup).trans henable
      rw [if_pos (hinside i hi), Queue.portLost, if_pos hk] at hqueue
      have hstanding : ((s.dev.portReset port).settled.host.queue (8 * port + i)).standing = (2, 5, []) := by
        rw [Dev.settled, Dev.settle_standing _ _ (by rw [hqueue]), hqueue]
        rfl
      exact ⟨congrArg Prod.fst hstanding, congrArg (fun x => x.2.1) hstanding, congrArg (fun x => x.2.2) hstanding⟩
  · intro hnone houtside hdisabled
    have hqueues : ∀ x, ((s.dev.portReset port).host.queue x) =
        if 8 * port ≤ x ∧ x < 8 * port + 8 then (s.dev.host.queue x).portLost else s.dev.host.queue x := fun x => by
      rw [Dev.portReset_of_noEntries hnone]
      exact HostIf.losePortQueues_queue ..
    have hempty : ∀ x, ((s.dev.portReset port).host.queue x).fetched = [] := fun x => by
      rw [hqueues]
      split
      · next hx =>
        unfold Queue.portLost
        split
        · rfl
        · next henable =>
          have hi : x = 8 * port + (x - 8 * port) := by omega
          rw [hi] at henable ⊢
          exact hdisabled _ (by omega) (by simpa using henable)
      · exact houtside x (by omega)
    rw [Dev.settled_of_empty hempty] at hexec
    refine ⟨_, hexec, rfl, ?_, fun n hn => ?_, fun i hi => (hqueues _).trans (if_pos (hinside i hi)), fun x hx => (hqueues x).trans (if_neg (by omega))⟩
    · show s.dev.portReset port = _
      rw [Dev.portReset_of_noEntries hnone]
      rfl
    · show Tab.get 0 (s.dev.portReset port).host.sems n = _
      rw [Dev.portReset_sems]
      exact HostIf.freeSems_other _ _ hn

end Sys2Proof.Machine
end

