-- ==== Sys2Proof/Proofs/MemoryCommands.lean ====
section
/-! PROOFS. The commands that write memory (R445, R449) and RESET with what it leads to (R447, R450, R500, R501, R508): O24 and O23. -/

namespace Sys2Proof.Machine

/-! ## Bytes and marks after a store -/

/-- Parity marks after a write with correct parity. -/
theorem Tab.get_setBad_false (n x : Nat) : ∀ (p : Tab Bool) (a : Nat),
    Tab.get false (setBad p a false n) x = (Tab.get false p x && !decide (a ≤ x ∧ x < a + n)) := by
  induction n with
  | zero =>
    intro p a
    have hout : ¬ (a ≤ x ∧ x < a + 0) := by omega
    rw [decide_eq_false hout, Bool.not_false, Bool.and_true]
    rfl
  | succ n ih =>
    intro p a
    rw [setBad, ih, Tab.get_set]
    by_cases hx : x = a
    · have hin : a ≤ x ∧ x < a + (n + 1) := by omega
      rw [if_pos hx, decide_eq_true hin, Bool.not_true, Bool.and_false, Bool.false_and]
    · have hrest : (a + 1 ≤ x ∧ x < a + 1 + n) ↔ (a ≤ x ∧ x < a + (n + 1)) := by omega
      rw [if_neg hx, decide_eq_decide.2 hrest]

theorem rdByte_wrBytes_getD (m : Tab Byte) (a x : Nat) (bs : List Byte) : rdByte (wrBytes m a bs) x =
    if a ≤ x ∧ x < a + bs.length then bs.getD (x - a) 0 else rdByte m x := by
  split
  · next hx =>
    obtain ⟨i, rfl⟩ := Nat.exists_eq_add_of_le hx.1
    have hi : i < bs.length := by omega
    rw [rdByte_wrBytes bs m a i hi, Nat.add_sub_cancel_left, List.getD_eq_getElem _ _ hi]
  · exact rdByte_wrBytes_other _ _ _ _ (by omega)

/-- What a device that differs by replies from one with bytes stored reads as. -/
theorem Dev.Replied.stored {d e : Dev} {a : Nat} {bs : List Byte} (h : (d.store a bs).Replied e) :
    (∀ x, (∀ k, ¬ (d.host.queue k).replyByte k x) →
      rdByte e.mem x = if a ≤ x ∧ x < a + bs.length then bs.getD (x - a) 0 else rdByte d.mem x) ∧
    ∀ x, Tab.get false e.poison x = (Tab.get false d.poison x && !decide (a ≤ x ∧ x < a + bs.length)) :=
  ⟨fun x hx => (h.mem x hx).trans (rdByte_wrBytes_getD ..), fun x => by
    rw [h.poison]
    exact Tab.get_setBad_false ..⟩

/-- Stored bytes and what replies change do not meet. -/
theorem Dev.begun_store (d : Dev) (q : Nat) (p : Packet) (a : Nat) (bs : List Byte) : (d.store a bs).Replied ((d.begin_ q p).1.store a bs) :=
  (d.begin__replied q p).store a bs

/-! ## The commands -/

theorem exec_fill (q dest len value : Nat) (s : State) : exec (.fill q dest len value) s = execFill q dest len value s := rfl
theorem exec_readFaultLog (q dest : Nat) (s : State) : exec (.readFaultLog q dest) s = execReadFaultLog q dest s := rfl

/-- WRITE_INLINE whose packet carries its data. -/
theorem exec_writeInline {s : State} {q dest : Nat} {data : List Byte} {f : PacketForm} {p : Packet} (h : s.Fronts (.writeInline q dest data) f p) :
    exec (.writeInline q dest data) s =
      startCmdLen s f.queue f.opcode f.layout f.fields (Instr.paramBytes (.writeInline q dest data) f)
        (fun d => { param := firstBadField [(1 ≤ data.length && data.length ≤ 4048, 8), ((d.unwritable (dest % 2 ^ 48) data.length).isNone, 0)] })
        (doneAt (fun d => d.store (dest % 2 ^ 48) data)) := by
  have hcarried : leBytes data.length (p.params >>> 128) = data := of_decide_eq_true h.data
  have hhead := h.head
  cases h.form
  change execWriteInline q dest data s = _
  unfold execWriteInline
  dsimp only at hhead ⊢
  rw [hhead]
  dsimp only
  rw [if_pos hcarried]
  rfl

/-- Settles O24: an admitted command that writes memory is a store into the begun device. -/
theorem commandsWriteMemory : Obligations.CommandsWriteMemory := by
  refine ⟨fun s q dest f p => ⟨fun len value h => ?fill, fun data h => ?inline⟩, fun s q dest f p h hroom => ?log⟩
  case fill =>
    cases h.form
    rw [exec_fill]
    refine ⟨fun hdest hlen hroom => ?_, fun hwrong => ?_⟩
    · have hbecomes : Res.Becomes s (s.dev.store (dest % 2 ^ 48) (List.replicate len (BitVec.ofNat 8 value))) (execFill q dest len value s) :=
        h.doneBy rfl ⟨firstBadField_none (by simp [hdest, hlen, hroom, -Nat.reducePow]), rfl, rfl⟩ (s.dev.begun_store ..)
      obtain ⟨t, hexec, hpending, hrep⟩ := hbecomes
      obtain ⟨hmem, hpoison⟩ := hrep.stored
      simp only [List.length_replicate] at hmem hpoison
      refine ⟨t, hexec, hpending, hrep, fun x hx => (hmem x hx).trans (if_ctx_congr .rfl (fun hin => ?_) fun _ => rfl), hpoison⟩
      rw [List.getD_eq_getElem _ _ (by simpa using by omega), List.getElem_replicate]
    · refine h.toFronts.refusedBy (.inl (firstBadField_some ?_))
      rcases hwrong with hw | hw | hw
      · exact ⟨_, List.mem_cons_self, by simpa using hw⟩
      · exact ⟨_, List.mem_cons_of_mem _ List.mem_cons_self, by simpa using hw⟩
      · exact ⟨_, List.mem_cons_of_mem _ (List.mem_cons_of_mem _ List.mem_cons_self), by simpa [Option.isSome_iff_ne_none] using hw⟩
  case inline =>
    rw [exec_writeInline h.toFronts]
    refine ⟨fun hmin hmax hroom => ?_, fun hwrong => ?_⟩
    · have hparam : firstBadField [(decide (1 ≤ data.length) && decide (data.length ≤ 4048), 8),
          ((s.dev.unwritable (dest % 2 ^ 48) data.length).isNone, 0)] = none := firstBadField_none (by simp [hmin, hmax, hroom, -Nat.reducePow])
      have hdone := startCmdLen_done (ck := fun d => { param := firstBadField [(decide (1 ≤ data.length) && decide (data.length ≤ 4048), 8),
        ((d.unwritable (dest % 2 ^ 48) data.length).isNone, 0)] }) (f := fun d => d.store (dest % 2 ^ 48) data) (detail := fun _ => 0)
        (ext := fun _ => []) h.head h.passes hparam rfl rfl (s.dev.begun_store ..)
      obtain ⟨t, hexec, hpending, hrep⟩ := hdone
      obtain ⟨hmem, hpoison⟩ := hrep.stored
      exact ⟨t, hexec, hpending, hrep, hmem, hpoison⟩
    · refine startCmdLen_param h.head h.passes (firstBadField_some ?_)
      rcases hwrong with rfl | hw | hw
      · exact ⟨_, List.mem_cons_self, rfl⟩
      · exact ⟨_, List.mem_cons_self, by simpa using fun _ => hw⟩
      · exact ⟨_, List.mem_cons_of_mem _ List.mem_cons_self, by simpa [Option.isSome_iff_ne_none] using hw⟩
  case log =>
    cases h.form
    rw [exec_readFaultLog]
    refine h.becomes rfl ⟨if_pos hroom, rfl, rfl⟩ (.trans ?_ (Dev.finish_replied ..))
    have hstored := s.dev.begun_store q p (dest % 2 ^ 48) s.dev.plat.faultBytes
    rw [Dev.begun_plat]
    exact hstored.map (fun d => { d with plat := { s.dev.plat with faultLog := [], faultLost := 0 } }) (fun _ => rfl) (fun _ => rfl) (fun _ => rfl)
      (fun _ => rfl) (fun _ => rfl)

end Sys2Proof.Machine
end

