-- ==== Sys2Proof/Proofs/Resets.lean ====
section
/-! PROOFS. What a start or a reset of an idle device leaves (R383, R385, R447, R450, R500, R501, R508): O23. -/

namespace Sys2Proof.Machine

/-! ## Requests of the power controller on an idle device -/

/-- Nothing is in progress that could be replied to, and no trace buffer takes DOMAIN records. -/
structure Dev.Idle (d : Dev) : Prop where
  inProg : d.host.inProg = []
  takers : d.obs.takers 0x0C = []

/-- Device `b` is `a` but for power state and counters. -/
def Dev.Called (a b : Dev) : Prop := ∃ w c, b = { a with pow := w, ctr := c }

namespace Dev.Called

theorem refl (d : Dev) : d.Called d := ⟨d.pow, d.ctr, rfl⟩

theorem trans {a b c : Dev} (h : a.Called b) (h' : b.Called c) : a.Called c := by
  obtain ⟨w, n, rfl⟩ := h
  obtain ⟨w', n', rfl⟩ := h'
  exact ⟨w', n', rfl⟩

end Dev.Called

section
variable {d : Dev} (h : d.Idle)
include h

theorem Dev.Idle.cmd (id : Nat) : d.host.cmd id = none := by simp [HostIf.cmd, h.inProg]

theorem Dev.Idle.finish (id status detail : Nat) (ext : List Nat) : d.finish id status detail ext = d := by
  rw [Dev.finish, h.cmd]

theorem Dev.Idle.finishAll (ids : List Nat) (status : Nat) : d.finishAll ids status = d :=
  foldl_keeps (· = d) _ (fun _ _ he => by rw [he, h.finish]) ids d rfl

theorem Dev.Idle.acceptId (id : Nat) : d.acceptId id = d := by rw [Dev.acceptId, h.cmd]

theorem Dev.Idle.traceDoms (old : Pow) : d.traceDoms old = d := if_pos h.takers

theorem Dev.Idle.called {e : Dev} (he : d.Called e) : e.Idle := by
  obtain ⟨w, c, rfl⟩ := he
  exact ⟨h.inProg, h.takers⟩

theorem Dev.Idle.cancelPend (id : Nat) : d.Called (d.cancelPend id) := by
  have hunit : d.Called { d with pow := d.pow.upd id (fun x => { x with pendOn := false, pendOff := false, pendCmds := [] }),
                                  ctr := bump d.ctr cobInst 0x61 1 } := ⟨_, _, rfl⟩
  unfold Dev.cancelPend
  dsimp only
  rw [(h.called hunit).finishAll]
  exact hunit

theorem Dev.Idle.reqOn1 (id cmd : Nat) : d.Called (d.reqOn1 id cmd) := by
  have hcancel : d.Called (if (d.pow.dom id).pendOff then d.cancelPend id else d) := by
    split
    · exact h.cancelPend id
    · exact .refl d
  have hidle := h.called hcancel
  unfold Dev.reqOn1
  generalize (if (d.pow.dom id).pendOff then d.cancelPend id else d) = e at hcancel hidle
  refine hcancel.trans ?_
  have hunit : ∀ w c, ({ e with pow := w, ctr := c } : Dev).Idle := fun w c => hidle.called ⟨w, c, rfl⟩
  dsimp only
  split
  · rw [(hunit _ _).acceptId]
    exact ⟨_, _, rfl⟩
  · split
    · rw [(hunit _ _).traceDoms]
      exact ⟨_, _, rfl⟩
    · split
      · exact ⟨_, _, rfl⟩
      · split
        · rw [hidle.finish]
          exact .refl e
        · rw [(hunit _ _).acceptId]
          exact ⟨_, _, rfl⟩

theorem Dev.Idle.reqOn (id cmd : Nat) : d.Called (d.reqOn id cmd) := by
  unfold Dev.reqOn
  split
  · split
    · exact (h.reqOn1 _ 0).trans ((h.called (h.reqOn1 _ 0)).reqOn1 id cmd)
    · exact h.reqOn1 id cmd
  · exact h.reqOn1 id cmd

/-- Asking for domains changes the power state and its counters alone. -/
theorem Dev.Idle.askOn (want : Nat → Bool) : d.Called (d.askOn want) :=
  foldl_keeps d.Called _ (fun _ id he => he.trans ((h.called he).reqOn id 0)) _ d (.refl d)

end

/-! ## Storage that a start wipes -/

theorem Dev.cleared_idle (d : Dev) (plat : Plat) {host : HostIf} (cad : Cad) (pow : Pow) (hhost : host.inProg = []) :
    (d.cleared plat host cad pow).Idle :=
  ⟨hhost, show ({} : Obs).takers 0x0C = [] by decide⟩

/-! ## The reset -/

/-- The device that RESET leaves before clocks are set afresh and domains are asked for. -/
def Dev.resetBase (d : Dev) : Dev :=
  (d.abortAll 0).cleared { (d.abortAll 0).plat.noFault with
    phase := .train, d2dDone := true, gddrDone := false, fullStart := false, powerMark := (d.abortAll 0).plat.now, stageMark := (d.abortAll 0).plat.now }
    (d.abortAll 0).host.fresh (d.abortAll 0).cad.keep (d.abortAll 0).pow.fresh

/-- Beyond its base the reset changes power state, counters and the marks of slow tasks alone. -/
theorem Dev.resetNow_eq (d : Dev) : ∃ w c doms, d.resetNow = { d.resetBase with pow := w, ctr := c, cad := d.resetBase.cad.markSlow doms } := by
  have hidle : d.resetBase.Idle := Dev.cleared_idle _ _ _ _ rfl
  obtain ⟨w, c, hask⟩ := hidle.askOn (d.abortAll 0).plat.allOn
  have hreset : d.resetNow = (d.resetBase.askOn (d.abortAll 0).plat.allOn).reclock := rfl
  obtain ⟨v, doms, -, -, hclock⟩ := (d.resetBase.askOn (d.abortAll 0).plat.allOn).reclock_eq
  rw [hreset, hclock, hask]
  exact ⟨_, c, doms, rfl⟩

/-- Commands that end leave the cadence unit's beat and settings. -/
theorem Dev.abortAll_cad (d : Dev) (keep : Nat) : (d.abortAll keep).cad.quiet = d.cad.quiet :=
  congrArg Dev.cad (Dev.abortAll_replied d keep).quiet

/-- RESET_EXECUTE outside dormant mode, and LIFECYCLE_RESTART, when they are due. -/
theorem exec_reset_due {s : State} {t0 : Nat} {i : Instr} (htime : t0 + 10000 ≤ s.dev.plat.now)
    (hi : i = .resetExecute ∧ s.dev.plat.resetAt = some t0 ∧ s.dev.plat.phase ≠ .dormant ∨ i = .lifecycleRestart ∧ s.dev.plat.lifeAt = some t0) :
    exec i s = .next { s with dev := s.dev.resetNow.alerted s.dev.plat } := by
  rcases hi with ⟨rfl, hdue, hphase⟩ | ⟨rfl, hdue⟩
  · change execResetExecute s = _
    simp [execResetExecute, nextDev, hdue, htime, hphase]
  · change execLifecycleRestart s = _
    simp [execLifecycleRestart, nextDev, hdue, htime]

/-! ## The start of the Husk -/

/-- The device at the start of the Husk without RESET_N, before time 0 of R489. -/
def Dev.huskBase (d : Dev) : Dev :=
  d.cleared d.plat { d.host.fresh with ports := d.host.ports.foldl (fun t e => Tab.set {} t e.1 (e.2.retrain d.plat.now)) [] } (d.cad.restart d.plat.now) d.pow

/-- The next attempt of a start (R489). -/
def Plat.attempt (p : Plat) : Plat :=
  { p.noFault.closeDebug with
    phase := .verify, bootAttempts := p.bootAttempts + 1, d2dDone := false, gddrDone := false, fullStart := true, fwLoaded := false,
    attestReady := false, attestActive := false, attestTree := 0, attestLeaf := 0, powerMark := p.now, stageMark := p.now }

/-- Dormant mode (R501). -/
def Plat.goDormant (p : Plat) : Plat :=
  { p.noFault with phase := .dormant, dormantReason := p.lastReason, faultTime := p.now, fwLoaded := false, attestReady := false }

section
variable {d : Dev}

/-- Time 0 of R489 with an attempt left. -/
theorem Dev.startZero_attempt (hleft : d.plat.bootAttempts ≠ d.plat.failLimit) :
    d.startZero = ({ d with plat := d.plat.attempt, pow := d.pow.fresh } : Dev).askOn (fun id => id == 64 || id == 65) :=
  (if_neg (c := d.plat.noFault.bootAttempts = d.plat.noFault.failLimit) hleft).trans rfl

/-- Time 0 of R489 with no attempt left. -/
theorem Dev.startZero_dormant (hnone : d.plat.bootAttempts = d.plat.failLimit) :
    d.startZero = { d with plat := d.plat.goDormant, pow := d.pow.fresh, host := { d.host with sems := [], owner := [] }, ctr := [] } :=
  (if_pos (c := d.plat.noFault.bootAttempts = d.plat.noFault.failLimit) hnone).trans rfl

end

/-- The device that a RESET in dormant mode starts from. -/
def Dev.restartBase (d : Dev) : Dev := ({ d.abortAll 0 with plat := { d.plat with bootAttempts := 0 } } : Dev).huskBase

/-- RESET_EXECUTE in dormant mode when it is due. -/
theorem exec_reset_dormant {s : State} {t0 : Nat} (hdue : s.dev.plat.resetAt = some t0) (htime : t0 + 10000 ≤ s.dev.plat.now)
    (hphase : s.dev.plat.phase = .dormant) : exec .resetExecute s = .next { s with
      dev := s.dev.restartBase.startZero.alerted s.dev.plat } := by
  have hnow : (match s.dev.plat.resetAt with | some t => decide (t + 10000 ≤ s.dev.plat.now) | none => false) = true := by
    rw [hdue]
    exact decide_eq_true htime
  exact (if_pos hnow).trans (if_pos hphase)

/-! ## O23 -/

/-- Settles O23: RESET notes its time; what acts later is a cleared device on which the power controller asks for domains, which changes power
state and counters alone. -/
theorem resetActsAfterItsReply : Obligations.ResetActsAfterItsReply := by
  refine ⟨fun s q f p h => ?reset, fun s t0 i htime hi => ?execute, fun s t0 hdue htime hphase hlimit => ?dormant⟩
  case reset =>
    cases h.form
    change Res.Becomes _ _ (execReset q s)
    refine h.becomes rfl ⟨rfl, rfl, rfl⟩ (.trans ?_ (Dev.finish_replied ..))
    rw [Dev.begun_plat]
    exact (s.dev.begin__replied q p).map (fun d => { d with plat := { s.dev.plat with resetAt := some s.dev.plat.now } }) (fun _ => rfl)
      (fun _ => rfl) (fun _ => rfl) (fun _ => rfl) (fun _ => rfl)
  case execute =>
    obtain ⟨w, c, doms, hreset⟩ := s.dev.resetNow_eq
    have hplat : (s.dev.abortAll 0).plat = s.dev.plat := (Dev.abortAll_replied s.dev 0).plat
    have hcad := s.dev.abortAll_cad 0
    refine ⟨_, exec_reset_due htime hi, rfl, ?_⟩
    rw [hreset]
    refine ⟨rfl, rfl, rfl, rfl, rfl, rfl, rfl, rfl, rfl, rfl, fun a ha => ⟨Tab.get_keepHost _ _ _ ha, Tab.get_keepHost _ _ _ ha⟩, rfl, rfl, rfl, rfl, rfl, rfl, rfl, rfl, rfl,
      ?_, ?_, ?_⟩
    · have hkept := congrArg (fun k : Cad => (k.beat, k.cfg, k.lock, k.sched)) hcad
      exact hkept
    · have hkept := congrArg Plat.otp hplat
      exact hkept
    · have hkept := congrArg Plat.now hplat
      exact hkept
  case dormant =>
    have hidle : ({ s.dev.restartBase with plat := s.dev.restartBase.plat.attempt, pow := s.dev.restartBase.pow.fresh } : Dev).Idle :=
      Dev.cleared_idle _ _ _ _ rfl
    obtain ⟨w, c, hask⟩ := hidle.askOn (fun id => id == 64 || id == 65)
    have hleft : s.dev.restartBase.plat.bootAttempts ≠ s.dev.restartBase.plat.failLimit := Ne.symm hlimit
    refine ⟨_, exec_reset_dormant hdue htime hphase, rfl, ?_⟩
    rw [Dev.startZero_attempt hleft]
    rw [hask]
    refine ⟨rfl, rfl, fun n hn => ?_, rfl, rfl, fun a ha => Tab.get_keepHost _ _ _ ha⟩
    show Tab.get 0 ({} : HostIf).sems n = 3
    decide +revert

end Sys2Proof.Machine
end

