-- ==== Sys2Proof/Proofs/PlansComeAndGo.lean ====
section
/-! PROOFS. Plans come whole or not at all and go when nothing uses them (R143, R257, R443, R453): O28 and O29. -/

namespace Sys2Proof.Machine

/-! ## Loads (R443, R453) -/

theorem exec_planLoad (q src len : Nat) (s : State) : exec (.planLoad q src len) s = execPlanLoad q src len s := rfl
theorem exec_planLoadDone (h : Nat) (s : State) :
    exec (.planLoadDone h) s = workEvent s ((s.dev.plan h).loadCmd != 0) (s.dev.loadEnds h) := rfl

section
variable {d : Dev} {h : Nat}

/-- The lowest free handle. -/
theorem Dev.freeHandle_lowest (hh : h < 16) (hfree : d.handleTaken h = false) (hlow : ∀ k, k < h → d.handleTaken k = true) :
    d.freeHandle = some h :=
  firstIdx_lowest hh (by simp [hfree]) fun k hk => by simp [hlow k hk]

/-- Nothing hinders a load. -/
theorem Dev.loadRefusal_none {a : Nat} (hhandle : d.freeHandle = some h)
    (htrain : bits (rdNat d.mem a 1) 0 4 = 0 → ∀ e ∈ d.plans, e.2.live = true ∨ (e.2.ready = false ∧ e.2.loadCmd = 0)) : d.loadRefusal a = none := by
  have hsome : ¬ d.freeHandle.isNone = true := by simp [hhandle]
  unfold Dev.loadRefusal
  rw [if_neg hsome]
  split
  · next hkind =>
    have hnone : d.trainingPlan = none := by
      refine Option.map_eq_none_iff.2 (List.find?_eq_none.2 fun e he => ?_)
      rcases htrain hkind e he with hlive | ⟨hready, hload⟩
      · simp [hlive]
      · simp [hready, hload]
    rw [hnone]
    rfl
  · rfl

/-- The start of a command changes nothing that a load reads. -/
theorem Dev.begun_freeHandle (d : Dev) (q : Nat) (p : Packet) : (d.begin_ q p).1.freeHandle = d.freeHandle ∧ (d.begin_ q p).1.mem = d.mem := by
  obtain ⟨_, _, _, hbegun, -⟩ := d.begin__host q p
  rw [hbegun]
  exact ⟨rfl, rfl⟩

/-! ## The end of a load -/

/-- Plans and their handles are the same in both devices. -/
def Dev.SamePlans (a b : Dev) : Prop := b.plans = a.plans ∧ b.planUsed = a.planUsed

theorem Dev.reclock_samePlans (d : Dev) : d.SamePlans d.reclock := by
  obtain ⟨_, _, -, -, hclock⟩ := d.reclock_eq
  rw [hclock]
  exact ⟨rfl, rfl⟩

theorem Dev.halts_samePlans (d : Dev) (ks : List Nat) : d.SamePlans (ks.foldl (fun e k => e.halt k) d) :=
  foldl_keeps d.SamePlans (fun e k => e.halt k) (fun _ _ he => he) ks d ⟨rfl, rfl⟩

/-- Clusters that halt, the operating point and clocks are no plan's. -/
theorem Dev.raiseFloor_samePlans (d : Dev) (was : Nat) : d.SamePlans (d.raiseFloor was) := by
  unfold Dev.raiseFloor
  split
  · exact ⟨rfl, rfl⟩
  · obtain ⟨hplans, hused⟩ := (Dev.setOp (List.foldl (fun e k => e.halt k) d (d.haltUntil d.beatTasks d.restOfBeat.1 d.restOfBeat.2.1 d.restOfBeat.2.2
      d.fFloor haltOrder d.trainSet [])) 0 true).reclock_samePlans
    obtain ⟨hhalted, hhalts⟩ := d.halts_samePlans (d.haltUntil d.beatTasks d.restOfBeat.1 d.restOfBeat.2.1 d.restOfBeat.2.2 d.fFloor haltOrder d.trainSet [])
    exact ⟨hplans.trans hhalted, hused.trans hhalts⟩

theorem Dev.freshCtrs_samePlans (d : Dev) (p : Plan) : d.SamePlans (d.freshCtrs p) :=
  foldl_keeps d.SamePlans (fun e (l : LoopDecl) => e.updCtr l.pod l.counter (fun t => { t with seq := 0, st := 0 })) (fun _ _ he => he) p.loops d ⟨rfl, rfl⟩

theorem Dev.stores_samePlans (d : Dev) (l : List (Nat × List Byte)) : d.SamePlans (l.foldl (fun e x => e.store x.1 x.2) d) :=
  foldl_keeps d.SamePlans (fun e x => e.store x.1 x.2) (fun _ _ he => he) l d ⟨rfl, rfl⟩

/-- A plan that is set up stands under its handle. -/
theorem Dev.setUpPlan_plan (d : Dev) (h : Nat) (b : List Byte) (p : Plan) :
    (d.setUpPlan h b p).plan h = p ∧ (d.setUpPlan h b p).planUsed = d.planUsed ++ [h] := by
  have hstored := d.stores_samePlans (imgPlaces b)
  have hfresh := ((((imgPlaces b).foldl (fun e x => e.store x.1 x.2) d).updPlan h (fun _ => p)).freshCtrs_samePlans p)
  have hplan : ((((imgPlaces b).foldl (fun e x => e.store x.1 x.2) d).updPlan h (fun _ => p)).freshCtrs p).plan h = p := by
    rw [Dev.plan_congr hfresh.1, Dev.plan_updPlan, if_pos rfl]
  have hused := hfresh.2.trans hstored.2
  unfold Dev.setUpPlan
  dsimp only
  rw [hused]
  split
  · exact ⟨hplan, rfl⟩
  · exact ⟨hplan, rfl⟩

end

section
variable {s : State} {h : Nat} (hdead : s.dev.pow.dead = false) (hload : (s.dev.plan h).loadCmd ≠ 0)
include hdead hload

/-- PLAN_LOAD_DONE while work goes on. -/
theorem exec_planLoadDone_ends : exec (.planLoadDone h) s = .next { s with dev := s.dev.loadEnds h } :=
  (exec_planLoadDone h s).trans (workEvent_of_can _ hdead (by simpa using hload))

end

/-- The end of a load without parity error: the checks of the image decide. -/
theorem Dev.loadEnds_clean {d : Dev} {h : Nat} {b : List Byte} {pl : Plan} (hb : b = rdBytes d.mem (d.plan h).loadSrc (d.plan h).loadLen)
    (hpl : pl = readPlan b (d.plan h).port) (hclean : firstBad d.poison (d.plan h).loadSrc (d.plan h).loadLen = none) :
    (d.imageFault b = none → d.imageFits b = true → d.slowRefusal pl = none → d.loadEnds h =
      (((d.updPlan h (fun _ => {})).setUpPlan h b pl).raiseFloor (d.updPlan h (fun _ => {})).fFloor).finish (d.plan h).loadCmd stDone h []) ∧
    ((d.imageFault b ≠ none ∨ d.imageFits b = false ∨ d.slowRefusal pl ≠ none) →
      ∃ st det ext, d.loadEnds h = (d.updPlan h (fun _ => {})).finish (d.plan h).loadCmd st det ext) := by
  subst hpl hb
  unfold Dev.loadEnds
  dsimp only
  rw [hclean]
  refine ⟨fun hfault hfits hslow => by simp only [hfault, hfits, hslow, Bool.not_true, Bool.false_eq_true, if_false], fun hwrong => ?_⟩
  dsimp only
  split
  · exact ⟨_, _, _, rfl⟩
  · next hfault =>
    split
    · exact ⟨_, _, _, rfl⟩
    · next hfits =>
      have hslow := (hwrong.resolve_left (· hfault)).resolve_left (by simpa using hfits)
      split
      · exact ⟨_, _, _, rfl⟩
      · next hnone => exact absurd hnone hslow

/-- Settles O28: PLAN_LOAD takes the lowest free handle, and the end of a load sets the plan up or lets its handle go. -/
theorem plansLoadWholeOrNotAtAll : Obligations.PlansLoadWholeOrNotAtAll := by
  refine ⟨fun s q src len h f p hadm hback hlen hh hfree hlow htrain => ?load, fun s h b pl hdead hload hb hpl hclean => ?done⟩
  case load =>
    have hhandle := s.dev.freeHandle_lowest hh hfree hlow
    have hchecks : firstBadField [((s.dev.unbacked (src % 2 ^ 48) len).isNone, fieldByte [64, 32] 0), (decide (1 ≤ len), fieldByte [64, 32] 1)] = none :=
      firstBadField_none (by simp [hback, hlen, -Nat.reducePow])
    have hbegun := s.dev.begun_freeHandle f.queue p
    cases hadm.form
    rw [exec_planLoad]
    refine hadm.becomes rfl ⟨hchecks, Dev.loadRefusal_none hhandle htrain, rfl⟩ ?_
    rw [hbegun.1, hbegun.2, hhandle]
    exact ((s.dev.begin__replied q p).trans (Dev.accept_replied _ _)).updPlan h _
  case done =>
    obtain ⟨hgood, hwrong⟩ := Dev.loadEnds_clean hb hpl hclean
    rw [exec_planLoadDone_ends hdead hload]
    refine ⟨fun hfault hfits hslow => ⟨_, rfl, rfl, ?_⟩, fun hbad => ?_⟩
    · rw [hgood hfault hfits hslow]
      have hrep := Dev.finish_replied (((s.dev.updPlan h (fun _ => {})).setUpPlan h b pl).raiseFloor (s.dev.updPlan h (fun _ => {})).fFloor)
        (s.dev.plan h).loadCmd stDone h []
      obtain ⟨hplans, hused⟩ := ((s.dev.updPlan h (fun _ => {})).setUpPlan h b pl).raiseFloor_samePlans (s.dev.updPlan h (fun _ => {})).fFloor
      obtain ⟨hplan, hhandle⟩ := (s.dev.updPlan h (fun _ => {})).setUpPlan_plan h b pl
      exact ⟨(Dev.plan_congr (hrep.plans.trans hplans) h).trans hplan, (hrep.planUsed.trans hused).trans hhandle, hrep⟩
    · obtain ⟨st, det, ext, hend⟩ := hwrong hbad
      rw [hend]
      exact ⟨_, rfl, rfl, Dev.finish_replied ..⟩

/-! ## PLAN_UNLOAD (R143, R257, R453) -/

theorem exec_planUnload (q h : Nat) (s : State) : exec (.planUnload q h) s = execPlanUnload q h s := rfl

section
variable {a b : Dev} (hrep : a.Replied b)
include hrep

/-- Owners that are set one after the other. -/
theorem Dev.Replied.setOwners (ids : List Nat) (owner : Nat) : ({ a with host := ids.foldl (fun g id => g.setOwner id owner) a.host } : Dev).Replied
    { b with host := ids.foldl (fun g id => g.setOwner id owner) b.host } := by
  induction ids generalizing a b with
  | nil => exact hrep
  | cons id ids ih => exact ih (hrep.setOwner id owner)

theorem Dev.Replied.plan (h : Nat) : b.plan h = a.plan h := Dev.plan_congr hrep.plans h

/-- A plan goes alike from devices that differ by replies. -/
theorem Dev.Replied.dropPlan (h : Nat) : (a.dropPlan h).Replied (b.dropPlan h) := by
  have hhost : ({ a with host := if (a.plan h).slowTier then slowChannels.foldl (fun g id => g.setOwner id 0) a.host else a.host } : Dev).Replied
      { b with host := if (a.plan h).slowTier then slowChannels.foldl (fun g id => g.setOwner id 0) b.host else b.host } := by
    split
    · exact hrep.setOwners slowChannels 0
    · exact hrep
  have hgone := (hhost.map (fun d => { d with planUsed := a.planUsed.filter (· != h) }) (fun _ => rfl) (fun _ => rfl) (fun _ => rfl) (fun _ => rfl)
    (fun _ => rfl)).updPlan h (fun _ => {})
  unfold Dev.dropPlan
  rw [hrep.plan, hrep.planUsed]
  dsimp only
  split
  · exact hgone
  · exact hgone.map Dev.emptyCob (fun _ => rfl) (fun _ => rfl) (fun _ => rfl) (fun _ => rfl) (fun _ => rfl)

end

theorem Dev.endState_replied (d : Dev) (h status : Nat) : d.Replied (d.endState h status) :=
  foldl_keeps d.Replied (fun e (c : Nat × Bool × Nat × Nat) => e.finish c.1 status 0 []) (fun _ c he => he.trans (Dev.finish_replied _ c.1 status 0 [])) _ d (.refl d)

/-- Where a plan has gone its handle is free and its record empty. -/
theorem Dev.dropPlan_plan (d : Dev) (h : Nat) : (d.dropPlan h).plan h = {} ∧ h ∉ (d.dropPlan h).planUsed := by
  have hplan : ∀ e : Dev, (e.updPlan h (fun _ => {})).plan h = {} := fun e => by rw [Dev.plan_updPlan, if_pos rfl]
  have hused : h ∉ d.planUsed.filter (· != h) := by simp
  unfold Dev.dropPlan
  dsimp only
  split
  · exact ⟨hplan _, hused⟩
  · exact ⟨hplan _, hused⟩

/-- Owners of a set of resources that are set one after the other. -/
theorem HostIf.setOwners_eq (ids : List Nat) (owner : Nat) (h : HostIf) : ids.foldl (fun g id => g.setOwner id owner) h =
    { h with owner := ids.foldl (fun o id => Tab.set 0 o id owner) h.owner } := by
  induction ids generalizing h with
  | nil => rfl
  | cons id ids ih => exact ih _

section
variable {d : Dev} {h : Nat}

/-- Nothing uses the plan. -/
theorem Dev.planUser_none (hcur : (d.plan h).cur = none) (hnext : (d.plan h).next = none) (hoverlap : (d.plan h).overlap = none)
    (hstreams : ∀ e ∈ d.cad.streams, e.2.opened = true → bits e.2.record 0 4 ≠ h) (hdumps : ∀ x ∈ d.obs.dumps, x.plan ≠ h) : d.planUser h = none := by
  have hstream : d.cad.streams.find? (fun e => e.2.opened && bits e.2.record 0 4 == h) = none :=
    List.find?_eq_none.2 fun e he => by simpa using hstreams e he
  have hdump : d.obs.dumps.any (fun x => x.plan == h) = false := by simpa using hdumps
  simp [Dev.planUser, hcur, hnext, hoverlap, hstream, hdump]

/-- Something uses the plan. -/
theorem Dev.planUser_some (huse : (d.plan h).cur ≠ none ∨ (d.plan h).next ≠ none ∨ (d.plan h).overlap ≠ none ∨
    (∃ e ∈ d.cad.streams, e.2.opened = true ∧ bits e.2.record 0 4 = h) ∨ (∃ x ∈ d.obs.dumps, x.plan = h)) : d.planUser h ≠ none := by
  unfold Dev.planUser
  dsimp only
  split
  · exact Option.some_ne_none _
  · next hsteps =>
    simp only [Bool.or_eq_true, Option.isSome_iff_ne_none, not_or, not_not] at hsteps
    obtain ⟨⟨hcur, hnext⟩, hoverlap⟩ := hsteps
    have hrest := ((huse.resolve_left (· hcur)).resolve_left (· hnext)).resolve_left (· hoverlap)
    split
    · exact Option.some_ne_none _
    · next hstream =>
      have hdump := hrest.resolve_left fun ⟨e, he, hopen, hplan⟩ => by simpa [hopen, hplan] using List.find?_eq_none.1 hstream e he
      have hany : d.obs.dumps.any (fun x => x.plan == h) = true := by simpa using hdump
      rw [if_pos hany]
      exact Option.some_ne_none _

/-- A plan without its work and its handle, written out. -/
theorem Dev.dropPlan_eq (d : Dev) (h : Nat) : d.dropPlan h = { d with
    plans := Tab.set {} d.plans h {}
    planUsed := d.planUsed.filter (fun k => k != h)
    cob := if (d.plan h).live = true then d.cob else { unitStop := d.cob.unitStop }
    host := if (d.plan h).slowTier = true then { d.host with
      owner := slowChannels.foldl (fun o id => Tab.set 0 o id 0) d.host.owner } else d.host } := by
  unfold Dev.dropPlan
  dsimp only
  rw [HostIf.setOwners_eq]
  split <;> rfl

end

/-- Settles O29: what uses a plan refuses its unloading; else its work ends by replies alone and the plan goes. -/
theorem planUnloadNeedsAnIdlePlan : Obligations.PlanUnloadNeedsAnIdlePlan := by
  intro s q h f p pl hadm hpl hready
  subst hpl
  cases hadm.form
  rw [exec_planUnload]
  have hparam : (if (s.dev.plan h).ready = true then (none : Option Nat) else some 0) = none := if_pos hready
  have hbegun := s.dev.begin__replied q p
  refine ⟨fun hvalid hcur hnext hoverlap hstreams hdumps => ?_, fun hvalid huse => ?_, fun hvalid => ?_⟩
  · have hown : (if (s.dev.plan h).valid = true then s.dev.planUser h else none) = none :=
      (if_pos hvalid).trans (Dev.planUser_none hcur hnext hoverlap hstreams hdumps)
    rw [← Dev.dropPlan_eq]
    refine hadm.doneBy rfl ⟨hparam, hown, rfl⟩ ?_
    rw [hbegun.plan, if_pos hvalid]
    exact (hbegun.trans (Dev.endState_replied ..)).dropPlan h
  · have hown : (if (s.dev.plan h).valid = true then s.dev.planUser h else none) ≠ none := by
      rw [if_pos hvalid]
      exact Dev.planUser_some huse
    exact hadm.refusedByOwn rfl ⟨hparam, hown, rfl⟩
  · have hown : (if (s.dev.plan h).valid = true then s.dev.planUser h else none) = none := if_neg (by simp [hvalid])
    have hdone := hadm.becomes (d := ((s.dev.begin_ q p).1.endUsers h).dropPlan h) rfl
      (ck := fun d => { param := if (d.plan h).ready then none else some 0, own := if (d.plan h).valid then d.planUser h else none })
      ⟨hparam, hown, rfl⟩ (eff := doneAt (fun d => (if (d.plan h).valid then d.endState h stAborted else d.endUsers h).dropPlan h)) (by
        refine .trans ?_ (doneAt_replied ..)
        rw [hbegun.plan, if_neg (by simp [hvalid])]
        exact .refl _)
    obtain ⟨t, hexec, hpending, hrep⟩ := hdone
    obtain ⟨hplan, hused⟩ := Dev.dropPlan_plan ((s.dev.begin_ q p).1.endUsers h) h
    exact ⟨t, hexec, hpending, (hrep.plan h).trans hplan, fun hmem => hused (hrep.planUsed ▸ hmem)⟩

end Sys2Proof.Machine
end

