-- ==== Sys2Proof/Proofs/StepStarts.lean ====
section
/-! PROOFS. Steps of a plan: what a start leaves of the plan (R107, R195, R243, R458), and O30. -/

namespace Sys2Proof.Machine

/-! ## Cores that start their streams -/

/-- A step but for the cores that have started its streams. -/
def StepRun.idle (r : StepRun) : StepRun := { r with started := [] }

/-- A plan but for the cores that have started streams of its steps. -/
def Plan.idle (p : Plan) : Plan := { p with cur := p.cur.map StepRun.idle, overlap := p.overlap.map StepRun.idle }

theorem Plan.idle_updRun (p : Plan) (second : Bool) {f : StepRun → StepRun} (hf : ∀ r, (f r).idle = r.idle) : (p.updRun second f).idle = p.idle := by
  have hmap : ∀ o : Option StepRun, (o.map f).map StepRun.idle = o.map StepRun.idle := fun o => by
    rw [Option.map_map]
    exact congrArg (o.map ·) (funext hf)
  cases second <;> simp [Plan.updRun, Plan.idle, hmap]

/-- From device `a` to `b` cores have started streams: of plans only that differs, and the rest but the cores is as it was. -/
structure Dev.CoresStart (a b : Dev) : Prop where
  plan : ∀ h, (b.plan h).idle = (a.plan h).idle
  rest : { b with cores := a.cores, plans := a.plans } = a

namespace Dev.CoresStart

theorem refl (d : Dev) : d.CoresStart d := ⟨fun _ => rfl, rfl⟩

theorem trans {a b c : Dev} (h : a.CoresStart b) (h' : b.CoresStart c) : a.CoresStart c where
  plan k := (h'.plan k).trans (h.plan k)
  rest := by
    have hb := congrArg (fun e : Dev => { e with cores := a.cores, plans := a.plans }) h'.rest
    exact hb.trans h.rest

/-- A core takes up its stream. -/
theorem takes (d : Dev) (n h : Nat) (second : Bool) (g : Core → Core) :
    d.CoresStart ((d.updCore n g).updRun h second (fun r => { r with started := r.started ++ [n] })) where
  plan j := by
    rw [Dev.updRun, Dev.plan_updPlan]
    split
    · next hj =>
      subst hj
      exact Plan.idle_updRun _ _ fun _ => rfl
    · rfl
  rest := rfl

end Dev.CoresStart

theorem Dev.startCore_starts (d : Dev) (n : Nat) : d.CoresStart (d.startCore n) := by
  unfold Dev.startCore
  extract_lets k go
  split
  · exact .refl d
  · split
    · exact .refl d
    · split
      · exact .takes d n _ false _
      · split
        · exact .takes d n _ true _
        · exact .refl d

theorem Dev.startCores_starts (d : Dev) : d.CoresStart d.startCores :=
  foldl_keeps d.CoresStart Dev.startCore (fun e n he => he.trans (e.startCore_starts n)) _ d (.refl d)

/-! ## A step in progress -/

/-- A plan's step in progress is `r`, of this command, number and batch, and the last started; `st` is what its preparation came to. -/
structure Plan.Steps (p : Plan) (id num : Nat) (taken : Option Nat) (st : Nat) (r : StepRun) : Prop where
  cur : p.cur = some r
  cmd : r.cmd = id
  step : r.step = num
  batch : r.batch = taken
  bad : st = stParity → r.bad = stParity
  last : p.lastStep = some num
  next : p.next = none

namespace Plan.Steps
variable {p q : Plan} {cmd step st : Nat} {batch : Option Nat} {r : StepRun}

/-- A change of the step that keeps its command, number, batch and failure. -/
theorem updRun {f : StepRun → StepRun} (h : p.Steps cmd step batch st r)
    (hf : (f r).cmd = r.cmd ∧ (f r).step = r.step ∧ (f r).batch = r.batch ∧ (r.bad = stParity → (f r).bad = stParity)) :
    (p.updRun false f).Steps cmd step batch st (f r) where
  cur := congrArg (Option.map f) h.cur
  cmd := hf.1.trans h.cmd
  step := hf.2.1.trans h.step
  batch := hf.2.2.1.trans h.batch
  bad hst := hf.2.2.2 (h.bad hst)
  last := h.last
  next := h.next

/-- Cores that start its streams leave the step. -/
theorem of_idle (h : p.Steps cmd step batch st r) (hidle : q.idle = p.idle) : ∃ x, q.Steps cmd step batch st x := by
  have hcur : q.cur.map StepRun.idle = some r.idle := (congrArg Plan.cur hidle).trans (congrArg (Option.map StepRun.idle) h.cur)
  obtain ⟨x, hx, hxr⟩ := Option.map_eq_some_iff.1 hcur
  have hlast := congrArg Plan.lastStep hidle
  have hnext := congrArg Plan.next hidle
  have hcmd := congrArg StepRun.cmd hxr
  have hstep := congrArg StepRun.step hxr
  have hbatch := congrArg StepRun.batch hxr
  have hbad := congrArg StepRun.bad hxr
  exact ⟨x, hx, hcmd.trans h.cmd, hstep.trans h.step, hbatch.trans h.batch, fun hst => hbad.trans (h.bad hst), hlast.trans h.last, hnext.trans h.next⟩

end Plan.Steps

theorem StepRun.fail_keeps (r : StepRun) (st fault entry : Nat) : (r.fail st fault entry).cmd = r.cmd ∧ (r.fail st fault entry).step = r.step ∧
    (r.fail st fault entry).batch = r.batch ∧ (r.bad = stParity → (r.fail st fault entry).bad = stParity) := by
  unfold StepRun.fail
  split
  · next hgood => exact ⟨rfl, rfl, rfl, fun hbad => absurd (hgood.symm.trans hbad) (by decide)⟩
  · exact ⟨rfl, rfl, rfl, id⟩

/-- A poisoned batch fails the step that it is of, which stays the step in progress. -/
theorem Dev.poisonedBatch_steps {d : Dev} {h cmd step st : Nat} {batch : Option Nat} {r : StepRun} (hs : (d.plan h).Steps cmd step batch st r) :
    ∃ x, ((d.poisonedBatch h false).plan h).Steps cmd step batch st x := by
  unfold Dev.poisonedBatch
  split
  · split
    · split
      · rw [Dev.updRun, Dev.plan_updPlan, if_pos rfl]
        exact ⟨_, hs.updRun (r.fail_keeps stParity 0 0)⟩
      · exact ⟨r, hs⟩
    · exact ⟨r, hs⟩
  · exact ⟨r, hs⟩

theorem Dev.updCtrs_plans (d : Dev) (l : Tab Nat) (g : Nat × Nat → TileCtr → TileCtr) :
    (l.foldl (fun e m => e.updCtr (m.1 / 64) (m.1 % 64) (g m)) d).plans = d.plans :=
  foldl_keeps (fun e : Dev => e.plans = d.plans) (fun e (m : Nat × Nat) => e.updCtr (m.1 / 64) (m.1 % 64) (g m)) (fun _ _ he => he) l d rfl

/-! ## The start of a step (R107, R195, R243) -/

/-- The device on which a step's pages are prepared: reservations and costs are taken. -/
def Dev.costsTaken (d : Dev) : Dev := Dev.rotateCosts { d with cad := d.cad.takeReservations }

/-- The step that starts on a device with its pages prepared. -/
def Dev.newStep (d : Dev) (p : Plan) (cmd step : Nat) (batch : Option Nat) : StepRun :=
  { cmd := cmd, step := step, batch := batch, lsExp := rsExp (p.run.getD 0), bases := d.bases, masks := d.stepMasks p, startedAt := d.plat.now,
    train := ([0, 1, 2, 3] : List Nat).flatMap (fun q => (d.trainClusters q).map (12 * q + ·)) }

/-- A step that cannot start gives back its batch, its dumps end, and its command ends. -/
def Dev.dropStep (d : Dev) (p : Plan) (h cmd step : Nat) (batch : Option Nat) (r : StepRun) (status detail : Nat) : Dev :=
  let e := ({ d.closeWork (workKey false 0 step) with ing := d.ing.freeBatch batch } : Dev).endDumps
    (fun x => x.plan == h && x.stream.isNone && x.step == step) stAborted
  e.finish cmd status detail [e.stepEntry p r]

/-- A step begins: it is the plan's step in progress, the Cob and the counters take it in hand, and cores start its streams. -/
def Dev.beginStep (d : Dev) (h step : Nat) (masks : Tab Nat) (r : StepRun) : Dev :=
  let e := (d.updPlan h (fun p => { p with cur := some r, lastStep := some step })).cobBegin h step
  ((masks.foldl (fun e m => e.updCtr (m.1 / 64) (m.1 % 64) (fun t => if t.st = 1 ∨ t.st = 2 then t else { t with mask := m.2 })) e).poisonedBatch h false).startCores

section
variable {d : Dev} {h cmd step : Nat} {batch : Option Nat}

theorem Dev.dropStep_plans (p : Plan) (r : StepRun) (status detail : Nat) : (d.dropStep p h cmd step batch r status detail).plans = d.plans := by
  unfold Dev.dropStep
  refine (Dev.finish_replied ..).plans.trans (foldl_keeps (fun e : Dev => e.plans = d.plans) (fun e (x : Dump) => e.finish x.cmd stAborted 0 [])
    (fun _ _ he => (Dev.finish_replied ..).plans.trans he) _ _ rfl)

/-- A step whose number the group records permit starts, or is dropped where an ALLOC fails. -/
theorem Dev.startStep_eq (hearly : (d.plan h).tooEarly step = false) : d.startStep h cmd step batch false =
    let x := d.costsTaken.openWork (d.plan h) (workKey false 0 step) 0 0 (d.host.cmd cmd)
    let r := x.1.newStep (d.plan h) cmd step batch
    if x.2 = stNoMemory ∨ x.2 = stBadParam then x.1.dropStep (d.plan h) h cmd step batch r x.2 0
    else x.1.beginStep h step r.masks (if x.2 = stParity then r.fail stParity 0 0 else r) := by
  unfold Dev.startStep
  dsimp only
  rw [hearly]
  rfl

/-- A step that a group record has overtaken is dropped (R243). -/
theorem Dev.startStep_early (hearly : (d.plan h).tooEarly step = true) :
    d.startStep h cmd step batch false = d.dropStep (d.plan h) h cmd step batch (d.newStep (d.plan h) cmd step batch) stBadParam 8 := by
  unfold Dev.startStep
  dsimp only
  rw [hearly]
  rfl

/-- The step that begins is in progress. -/
theorem Dev.beginStep_steps {st : Nat} {masks : Tab Nat} {r : StepRun} (hr : r.cmd = cmd ∧ r.step = step ∧ r.batch = batch)
    (hbad : st = stParity → r.bad = stParity) (hnext : (d.plan h).next = none) :
    ∃ x, ((d.beginStep h step masks r).plan h).Steps cmd step batch st x := by
  have htaken : (((d.updPlan h (fun p => { p with cur := some r, lastStep := some step })).cobBegin h step).plan h).Steps cmd step batch st r := by
    have hplan : ((d.updPlan h (fun p => { p with cur := some r, lastStep := some step })).cobBegin h step).plan h =
        ({ d.plan h with cur := some r, lastStep := some step } : Plan).takeGroups step := by
      have hgroups : ∀ e : Dev, (e.updPlan h (fun p => p.takeGroups step)).plan h = (e.plan h).takeGroups step := fun e => by
        rw [Dev.plan_updPlan, if_pos rfl]
      refine (hgroups _).trans ?_
      rw [Dev.plan_updPlan, if_pos rfl]
    rw [hplan]
    exact ⟨rfl, hr.1, hr.2.1, hr.2.2, hbad, rfl, hnext⟩
  have hmasks := Dev.updCtrs_plans ((d.updPlan h (fun p => { p with cur := some r, lastStep := some step })).cobBegin h step) masks
    (fun m t => if t.st = 1 ∨ t.st = 2 then t else { t with mask := m.2 })
  rw [← Dev.plan_congr hmasks] at htaken
  obtain ⟨x, hx⟩ := Dev.poisonedBatch_steps htaken
  exact hx.of_idle ((Dev.startCores_starts _).plan h)

/-- A step whose pages are prepared, or meet a parity error alone, is in progress. -/
theorem Dev.startStep_runs {st : Nat} (hearly : (d.plan h).tooEarly step = false) (hnext : (d.plan h).next = none)
    (hst : st = (d.costsTaken.openWork (d.plan h) (workKey false 0 step) 0 0 (d.host.cmd cmd)).2) (hgood : st = 0 ∨ st = stParity) :
    ∃ r, ((d.startStep h cmd step batch false).plan h).Steps cmd step batch st r := by
  have hplans : (d.costsTaken.openWork (d.plan h) (workKey false 0 step) 0 0 (d.host.cmd cmd)).1.plans = d.plans :=
    (Dev.KeepsLive.openWork d.costsTaken _ _ _ _ _).plans
  have hnot : ¬ (st = stNoMemory ∨ st = stBadParam) := by rcases hgood with hz | hz <;> rw [hz] <;> decide
  rw [Dev.startStep_eq hearly]
  dsimp only
  rw [← hst, if_neg hnot]
  refine Dev.beginStep_steps ?_ (fun hz => ?_) (by rw [Dev.plan_congr hplans, hnext])
  · split
    · exact ⟨rfl, rfl, rfl⟩
    · exact ⟨rfl, rfl, rfl⟩
  · rw [if_pos hz]
    rfl

/-- A step for whose pages an ALLOC fails leaves the plan as it was. -/
theorem Dev.startStep_noMemory (hearly : (d.plan h).tooEarly step = false)
    (hst : (d.costsTaken.openWork (d.plan h) (workKey false 0 step) 0 0 (d.host.cmd cmd)).2 = stNoMemory) :
    (d.startStep h cmd step batch false).plans = d.plans := by
  rw [Dev.startStep_eq hearly]
  dsimp only
  rw [if_pos (.inl hst), Dev.dropStep_plans]
  exact (Dev.KeepsLive.openWork d.costsTaken _ _ _ _ _).plans

end

/-! ## RUN_STEP (R458) -/

theorem exec_runStep (q h step : Nat) (s : State) : exec (.runStep q h step) s = execRunStep q h step s := rfl

section
variable {d : Dev} {h step : Nat} (hready : (d.plan h).ready = true) (hlive : (d.plan h).live = false) (hvalid : (d.plan h).valid = true)
  (hrun : (d.plan h).run ≠ none) (hloaded : (d.plan h).stateLoaded = true) (hblocked : (d.plan h).blocked = 0)
  (hearly : (d.plan h).tooEarly step = false) (hring : (d.plan h).batches = true → d.ing.trainRing ≠ none)

include hready hlive hvalid hrun hloaded hearly hring in
/-- The parameters of RUN_STEP are right: its number follows that of the step in progress. -/
theorem Dev.runStepParam_none (hstep : ∀ r, (d.plan h).cur = some r → step = r.step + 1) : d.runStepParam h step = none := by
  have hbatches : ((d.plan h).batches && d.ing.trainRing.isNone) = false := by
    cases hb : (d.plan h).batches with
    | false => rfl
    | true => simpa [Option.isSome_iff_ne_none] using hring hb
  have hnone : (d.plan h).run.isNone = false := by simpa [Option.isSome_iff_ne_none] using hrun
  unfold Dev.runStepParam
  simp only [hready, hlive, hvalid, hbatches, hnone, hloaded, hearly, Bool.not_true, Bool.or_self, Bool.false_eq_true, if_false]
  split
  · next r hcur => simp [hstep r hcur]
  · rfl

include hvalid hblocked in
/-- No step waits, and the tags of every block name the step where none is in progress. -/
theorem Dev.runStepOwn_none (hnext : (d.plan h).next = none) (hoverlap : (d.plan h).overlap = none)
    (htags : (d.plan h).cur = none → ∀ i, i < d.cob.blks.length → hdMom (d.blkHeader i) = step ∧ hdW (d.blkHeader i) = step) :
    d.runStepOwn h step = none := by
  unfold Dev.runStepOwn
  cases hcur : (d.plan h).cur with
  | some r => simp [hvalid, hblocked, hnext, hoverlap, hcur]
  | none =>
    have hbad : d.badTags step = none := by
      refine Option.map_eq_none_iff.2 (List.find?_eq_none.2 fun i hi => ?_)
      obtain ⟨hmom, hw⟩ := htags hcur i (List.mem_range.1 hi)
      simp [hmom, hw]
    simp [hvalid, hblocked, hnext, hoverlap, hcur, hbad]

include hvalid hblocked in
/-- A step that waits, or was started ahead, refuses the command. -/
theorem Dev.runStepOwn_busy (hbusy : (d.plan h).next ≠ none ∨ (d.plan h).overlap ≠ none) : d.runStepOwn h step ≠ none := by
  have hany : ((d.plan h).next.isSome || (d.plan h).overlap.isSome) = true := by simpa [Option.isSome_iff_ne_none] using hbusy
  unfold Dev.runStepOwn
  simp [hvalid, hblocked, hany]

end

/-- The training ring counts one more step. -/
def Ing.countStep (n : Nat) (g : Ing) : Ing := { g with rings := Tab.upd {} g.rings n (fun r => { r with steps := r.steps + 1 }) }

/-- The batch that a step takes changes no plan. -/
theorem Dev.takeBatch_plans (d : Dev) (h : Nat) : (d.takeBatch h).1.plans = d.plans := by
  unfold Dev.takeBatch
  split
  · rfl
  · split <;> rfl

section
variable {d : Dev} {h : Nat}

theorem Dev.takeBatch_none (hb : (d.plan h).batches = false) : d.takeBatch h = (d, none) := by simp [Dev.takeBatch, hb]

theorem Dev.takeBatch_ring {n : Nat} {g : Ring} (hb : (d.plan h).batches = true) (hring : d.ing.trainRing = some (n, g)) : d.takeBatch h =
    (d.updIng (Ing.countStep n), some (d.ing.epoch + g.steps)) := by
  simp only [Dev.takeBatch, hb, hring, Bool.not_true, Bool.false_eq_true, if_false]
  rfl

end

/-- An admitted command whose own checks find nothing starts. -/
theorem State.Admits.starts {s : State} {i : Instr} {f : PacketForm} {p : Packet} {ck : Dev → Checks} {eff : Dev → Cmd → Dev} (h : s.Admits i f p)
    (hlen : Instr.paramBytes i f = paramLen f.layout) (hck : (ck s.dev).Clear) : startCmd s f.queue f.opcode f.layout f.fields ck eff =
      .next { s with dev := (eff (s.dev.begin_ f.queue p).1 (s.dev.begin_ f.queue p).2).settled } :=
  startCmdLen_starts h.head (Dev.refusal_of_passes (hlen ▸ h.passes) hck.param hck.own hck.denied)

/-- What RUN_STEP does on the device with its batch taken. -/
def Dev.takeStep (x : Dev × Option Nat) (h cmd step : Nat) : Dev :=
  if (x.1.plan h).cur.isSome then x.1.updPlan h (fun p => { p with next := some { cmd := cmd, step := step, batch := x.2 } })
  else x.1.startStep h cmd step x.2 false

/-- RUN_STEP where no check refuses it. -/
theorem exec_runStep_admitted {s : State} {q h step : Nat} {f : PacketForm} {p : Packet} (hadm : s.Admits (.runStep q h step) f p)
    (hparam : s.dev.runStepParam h step = none) (hown : s.dev.runStepOwn h step = none) : exec (.runStep q h step) s = .next { s with
      dev := (Dev.takeStep (((s.dev.begin_ q p).1.accept (s.dev.begin_ q p).2).takeBatch h) h s.dev.host.nextCmd step).settled } := by
  cases hadm.form
  rw [exec_runStep]
  exact (hadm.starts (ck := fun d => { param := d.runStepParam h step, own := d.runStepOwn h step }) rfl ⟨hparam, hown, rfl⟩).trans rfl

/-- Settles O30: checks that find nothing let the step wait behind the one in progress, or start on the device with its batch taken. -/
theorem runStepWaitsOrStarts : Obligations.RunStepWaitsOrStarts := by
  intro s q h step f p pl hadm hpl hready hlive hvalid hrun hloaded hblocked hearly hring
  subst hpl
  have haccepted := (s.dev.begin__replied q p).trans (Dev.accept_replied _ (s.dev.begin_ q p).2)
  refine ⟨fun r hcur hnext hoverlap hstep => ?waits, fun d1 st hcur hnext hoverlap htags hd1 hst => ?starts, fun hbusy => ?busy⟩
  case waits =>
    have hparam := Dev.runStepParam_none hready hlive hvalid hrun hloaded hearly hring (fun r' hr' => by
      rw [hcur] at hr'
      rw [hstep, Option.some.inj hr'])
    have hown := Dev.runStepOwn_none hvalid hblocked hnext hoverlap (step := step) (fun hnone => by rw [hcur] at hnone; cases hnone)
    have hcurrent : ((((s.dev.begin_ q p).1.accept (s.dev.begin_ q p).2)).plan h).cur.isSome = true := by rw [haccepted.plan, hcur]; rfl
    have hexec := exec_runStep_admitted hadm hparam hown
    refine ⟨fun hb => ⟨_, hexec, rfl, .trans ?_ (Dev.settled_replied _)⟩, fun n g hb hg => ⟨_, hexec, rfl, .trans ?_ (Dev.settled_replied _)⟩⟩
    · rw [Dev.takeBatch_none (by rw [haccepted.plan, hb]), Dev.takeStep, if_pos hcurrent]
      exact haccepted.updPlan h _
    · rw [Dev.takeBatch_ring (by rw [haccepted.plan, hb]) (by rw [haccepted.ing, hg]), haccepted.ing, Dev.takeStep]
      rw [if_pos]
      · exact (haccepted.updIng (Ing.countStep n)).updPlan h (fun x =>
          { x with next := some { cmd := s.dev.host.nextCmd, step := step, batch := some (s.dev.ing.epoch + g.steps) } })
      · exact hcurrent
  case starts =>
    have hparam := Dev.runStepParam_none hready hlive hvalid hrun hloaded hearly hring (fun r' hr' => by rw [hcur] at hr'; cases hr')
    have hown := Dev.runStepOwn_none hvalid hblocked hnext hoverlap (fun _ => htags)
    have hplans : d1.plans = s.dev.plans := by rw [hd1, Dev.takeBatch_plans, haccepted.plans]
    have hplan := Dev.plan_congr hplans h
    have hidle : ¬ (d1.plan h).cur.isSome = true := by simp [hplan, hcur]
    have hexec := exec_runStep_admitted hadm hparam hown
    rw [Dev.takeStep, ← hd1, if_neg hidle] at hexec
    refine ⟨_, hexec, rfl, fun hgood => ?_, fun hbad => ?_⟩
    · rw [← hplan] at hst hearly hnext
      obtain ⟨r, hr⟩ := Dev.startStep_runs (batch := (((s.dev.begin_ q p).1.accept (s.dev.begin_ q p).2).takeBatch h).2) hearly hnext hst hgood
      rw [← (Dev.settled_replied _).plan] at hr
      exact ⟨⟨r, hr.cur, hr.cmd, hr.step, hr.bad⟩, hr.last⟩
    · rw [← hplan] at hst hearly
      have hkept := (Dev.settled_replied _).plans.trans (Dev.startStep_noMemory (batch := (((s.dev.begin_ q p).1.accept (s.dev.begin_ q p).2).takeBatch h).2)
        hearly (hst.symm.trans hbad))
      have hafter := (Dev.plan_congr hkept h).trans hplan
      exact ⟨(congrArg Plan.cur hafter).trans hcur, congrArg Plan.lastStep hafter⟩
  case busy =>
    cases hadm.form
    rw [exec_runStep]
    exact hadm.toFronts.refusedBy (.inr (Dev.runStepOwn_busy hvalid hblocked hbusy))

end Sys2Proof.Machine
end

