-- ==== Sys2Proof/Proofs/StepEnds.lean ====
section
/-! PROOFS. Steps that wait, complete or are aborted (R195, R312, R458 to R460, R532): O32 and O31. -/

namespace Sys2Proof.Machine

/-! ## WAITING_STEP_START and STEP_COMPLETE -/

theorem exec_waitingStepStart (h : Nat) (s : State) : exec (.waitingStepStart h) s = eventOpt s (s.dev.startWaiting h) := rfl
theorem exec_stepComplete (h : Nat) (s : State) : exec (.stepComplete h) s = eventOpt s (s.dev.stepEnds h) := rfl

section
variable {d : Dev} {h : Nat}

/-- With no step in progress the waiting one starts. -/
theorem Dev.startWaiting_starts {n : StepRun} (hnext : (d.plan h).next = some n) (hcur : (d.plan h).cur = none) : d.startWaiting h =
    some ((d.updPlan h (fun p => { p with next := none })).startStep h n.cmd n.step n.batch false) := by
  simp only [Dev.startWaiting, hnext, hcur]

/-- Behind a step in progress that has not had its end of step applied, has failed or is halting, or with a step started ahead, none starts. -/
theorem Dev.startWaiting_stays {r : StepRun} (hcur : (d.plan h).cur = some r)
    (hstays : (d.plan h).overlap ≠ none ∨ r.eos = none ∨ r.bad ≠ 0 ∨ r.halting = true) : d.startWaiting h = none := by
  have hheld : ((d.plan h).overlap.isSome || r.eos.isNone || r.bad != 0 || r.halting) = true := by
    rcases hstays with hs | hs | hs | hs
    · simp [Option.isSome_iff_ne_none, hs]
    · simp [hs]
    · simp [hs]
    · simp [hs]
  unfold Dev.startWaiting
  dsimp only
  split
  · rfl
  · rw [hcur]
    exact if_pos hheld

/-- The plan whose waiting step begins. -/
theorem Dev.unqueued_plan : (d.updPlan h (fun p => { p with next := none })).plan h = { d.plan h with next := none } := by
  rw [Dev.plan_updPlan, if_pos rfl]

end

/-! ## The end of a step (R459) -/

/-- A step in good order has completed but for its reply: its work is closed, its dumps are due and its batch is free. -/
def Dev.closeStep (d : Dev) (h : Nat) (r : StepRun) : Dev :=
  let e := d.closeWork (workKey false 0 r.step)
  ({ e with
    obs := { e.obs with dumps := e.obs.dumps.map (fun x =>
      if x.plan == h && x.stream.isNone && x.step == r.step && !x.due then { x with due := true, dueAt := e.plat.now } else x) }
    ing := e.ing.freeBatch r.batch
    pow := ([57, 58, 59, 60] : List Nat).foldl (fun w i => w.idle i e.plat.now) e.pow } : Dev).updPlan h (fun p => { p with cur := none })

/-- Such a step's reply has gone out. -/
def Dev.replyStep (d : Dev) (h : Nat) (r : StepRun) : Dev :=
  (d.closeStep h r).finish r.cmd (d.stepStatus r).1 (d.stepStatus r).2 (d.stepExt (d.plan h) r)

/-- The Cob has no step in hand. -/
def Dev.freeCob (d : Dev) : Dev := { d with cob := { d.cob with active := false } }

section
variable {d : Dev} {h : Nat} {r : StepRun}

/-- A step that completes in good order has status DONE, or SAMPLE_REPLACED where a sample of its batch was replaced, and one extended entry. -/
theorem Dev.stepStatus_good (hgood : r.bad = 0) :
    d.stepStatus r = (if d.padded r = 0 then stDone else stReplaced, if d.padded r = 0 then b2n r.gradNF + 2 * r.skipped.length else d.padded r) ∧
      d.stepExt (d.plan h) r = [d.stepEntry (d.plan h) r] := by
  have hbad : (r.bad != 0) = false := by simp [hgood]
  have hparam : ¬ r.bad = stBadParam := by simp [hgood, stBadParam]
  refine ⟨?_, by rw [Dev.stepExt, if_neg hparam]⟩
  unfold Dev.stepStatus
  rw [hbad]
  by_cases hpad : d.padded r = 0 <;> simp [hpad]

theorem Dev.closeStep_plan : (d.closeStep h r).plan h = { d.plan h with cur := none } :=
  (Dev.plan_updPlan ..).trans ((if_pos rfl).trans rfl)

theorem Dev.replyStep_plan : (d.replyStep h r).plan h = { d.plan h with cur := none } :=
  ((Dev.finish_replied ..).plan h).trans Dev.closeStep_plan

/-- The end of a step in good order, with none started ahead: its reply, then the Cob is free and abort commands that wait end. -/
theorem Dev.endStep_good (hgood : r.bad = 0) (hoverlap : (d.plan h).overlap = none) :
    d.endStep h r = (((d.replyStep h r).freeCob).endAborts h).startCores := by
  have hbad : (r.bad != 0) = false := by simp [hgood]
  have hpromote : (d.replyStep h r).promote h = (d.replyStep h r).freeCob := by
    simp only [Dev.promote, Dev.replyStep_plan, hoverlap]
    rfl
  rw [← hpromote]
  unfold Dev.endStep
  rw [hbad]
  rfl

/-- Aborts that end leave the steps of the plan and the Cob. -/
theorem Dev.endAborts_keeps (d : Dev) (h : Nat) : ((d.endAborts h).plan h).cur = (d.plan h).cur ∧ (d.endAborts h).cob = d.cob := by
  unfold Dev.endAborts
  dsimp only
  split
  · exact ⟨rfl, rfl⟩
  · have hrep : (d.updPlan h (fun p => { p with aborts := [] })).Replied
        ((d.plan h).aborts.foldl (fun e id => e.finish id stDone 0 []) (d.updPlan h (fun p => { p with aborts := [] }))) :=
      foldl_keeps (d.updPlan h (fun p => { p with aborts := [] })).Replied (fun e id => e.finish id stDone 0 [])
        (fun _ _ he => he.trans (Dev.finish_replied ..)) _ _ (.refl _)
    refine ⟨?_, hrep.cob⟩
    rw [hrep.plan, Dev.plan_updPlan, if_pos rfl]

/-- Without commands that wait, nothing but the plans changes. -/
theorem Dev.endAborts_none (hnone : (d.plan h).aborts = []) : (d.endAborts h).host = d.host ∧ (d.endAborts h).mem = d.mem := by
  unfold Dev.endAborts
  dsimp only
  split
  · exact ⟨rfl, rfl⟩
  · rw [hnone]
    exact ⟨rfl, rfl⟩

theorem Dev.CoresStart.keeps {a b : Dev} (hs : a.CoresStart b) : b.host = a.host ∧ b.mem = a.mem ∧ b.cob = a.cob := by
  have hhost := congrArg Dev.host hs.rest
  have hmem := congrArg Dev.mem hs.rest
  have hcob := congrArg Dev.cob hs.rest
  exact ⟨hhost, hmem, hcob⟩

/-- An answer stands on a device with the same host interface and memory. -/
theorem Dev.Answered.onto {a b e : Dev} {rq : Nat} {es : List Nat} (hans : a.Answered b rq es) (hhost : e.host = b.host) (hmem : e.mem = b.mem) :
    a.Answered e rq es where
  tail := by rw [hhost, hans.tail]
  entries i x hx := by rw [hmem, hans.entries i x hx]
  shadow hown := by rw [hmem, hans.shadow hown]

/-- After the end of a step in good order, with none started ahead, no step is in progress and the Cob is free of it. -/
theorem Dev.endStep_idle (hgood : r.bad = 0) (hoverlap : (d.plan h).overlap = none) :
    ((d.endStep h r).plan h).cur = none ∧ (d.endStep h r).cob.active = false := by
  have hkeeps := (d.replyStep h r).freeCob.endAborts_keeps h
  have hstarts := Dev.startCores_starts ((d.replyStep h r).freeCob.endAborts h)
  rw [Dev.endStep_good hgood hoverlap]
  refine ⟨?_, ?_⟩
  · have hcur := congrArg Plan.cur (hstarts.plan h)
    have hnone : (((d.replyStep h r).freeCob.endAborts h).plan h).cur = none := hkeeps.1.trans (congrArg Plan.cur Dev.replyStep_plan)
    simpa [Plan.idle, hnone] using hcur
  · rw [hstarts.keeps.2.2, hkeeps.2]
    rfl

/-- The reply of a step in good order, where no abort command and nothing else waits. -/
theorem Dev.endStep_answers {c : Cmd} (hgood : r.bad = 0) (hoverlap : (d.plan h).overlap = none) (haborts : (d.plan h).aborts = [])
    (hcmd : d.host.cmd r.cmd = some c) (hplain : c.pkt.Plain) (hwaiting : d.host.waiting = []) (hempty : ∀ x, (d.host.queue x).fetched = [])
    (hanswer : d.CanAnswer c.rq) (hring : 16 ≤ 2 ^ (d.host.queue c.rq).rqLog2) :
    d.Answered (d.endStep h r) c.rq [d.replyNow c.pkt.tag (if d.padded r = 0 then stDone else stReplaced) 1
      (if d.padded r = 0 then b2n r.gradNF + 2 * r.skipped.length else d.padded r), d.stepEntry (d.plan h) r] := by
  obtain ⟨hstatus, hext⟩ := Dev.stepStatus_good (d := d) (h := h) hgood
  have hfinish : d.replyStep h r = _ := Dev.finish_plain (d := d.closeStep h r) hcmd hplain
  have hans := (Dev.emitFinal_answers (d := d.closeStep h r) (status := (d.stepStatus r).1) (detail := (d.stepStatus r).2)
    (ext := d.stepExt (d.plan h) r) hplain hwaiting hempty ⟨hanswer.replies, hanswer.apart⟩ hring (by simp [hext])).1
  rw [← hfinish, hext, hstatus] at hans
  have hnone := Dev.endAborts_none (d := (d.replyStep h r).freeCob) (h := h) ((congrArg Plan.aborts Dev.replyStep_plan).trans haborts)
  obtain ⟨hhost, hmem, -⟩ := (Dev.startCores_starts ((d.replyStep h r).freeCob.endAborts h)).keeps
  rw [Dev.endStep_good hgood hoverlap]
  exact (hans.onto (hhost.trans hnone.1) (hmem.trans hnone.2)).congr rfl rfl

end

/-- Settles O32: a waiting step starts as RUN_STEP's would, and the end of a step in good order is its reply and the next step's turn. -/
theorem stepsStartInTurnAndComplete : Obligations.StepsStartInTurnAndComplete := by
  intro s h pl hpl hdead
  subst hpl
  refine ⟨fun n st hnext hcur hst => ?starts, fun r hcur hstays => ?stays, fun r hcur hover => ?unfinished, fun r hcur hover hgood hoverlap => ?completes⟩
  case starts =>
    have hexec : exec (.waitingStepStart h) s = _ := eventOpt_of_some hdead (Dev.startWaiting_starts hnext hcur)
    have hplan : (s.dev.updPlan h (fun p => { p with next := none })).plan h = { s.dev.plan h with next := none } := Dev.unqueued_plan
    have hst' : st = ((s.dev.updPlan h (fun p => { p with next := none })).costsTaken.openWork ((s.dev.updPlan h (fun p => { p with next := none })).plan h)
        (workKey false 0 n.step) 0 0 ((s.dev.updPlan h (fun p => { p with next := none })).host.cmd n.cmd)).2 := by
      rw [hplan]
      exact hst
    have htoo : ((s.dev.updPlan h (fun p => { p with next := none })).plan h).tooEarly n.step = (s.dev.plan h).tooEarly n.step := by
      rw [hplan]
      rfl
    refine ⟨fun hearly hgood => ?_, fun hfails => ?_⟩
    · obtain ⟨r, hr⟩ := Dev.startStep_runs (batch := n.batch) (htoo.trans hearly) (by rw [hplan]) hst' hgood
      exact ⟨_, r, hexec, rfl, hr.cur, hr.cmd, hr.step, hr.batch, hr.next, hr.last⟩
    · have hkept : ((s.dev.updPlan h (fun p => { p with next := none })).startStep h n.cmd n.step n.batch false).plans =
          (s.dev.updPlan h (fun p => { p with next := none })).plans := by
        cases hearly : (s.dev.plan h).tooEarly n.step with
        | true => rw [Dev.startStep_early (htoo.trans hearly), Dev.dropStep_plans]
        | false => exact Dev.startStep_noMemory (htoo.trans hearly) (hst'.symm.trans (hfails.resolve_left (by simp [hearly])))
      have hafter := (Dev.plan_congr hkept h).trans hplan
      have hnone := congrArg Plan.next hafter
      have hlast := congrArg Plan.lastStep hafter
      exact ⟨_, hexec, rfl, (congrArg Plan.cur hafter).trans hcur, hnone, hlast⟩
  case stays =>
    rw [exec_waitingStepStart, Dev.startWaiting_stays hcur hstays, eventOpt_none]
  case unfinished =>
    have hnone : s.dev.stepEnds h = none := by
      rw [Dev.stepEnds, hcur]
      exact if_neg (by rw [hover]; exact Bool.false_ne_true)
    rw [exec_stepComplete, hnone, eventOpt_none]
  case completes =>
    have hsome : s.dev.stepEnds h = some (s.dev.endStep h r) := by
      rw [Dev.stepEnds, hcur]
      exact if_pos hover
    obtain ⟨hidle, hcob⟩ := Dev.endStep_idle (d := s.dev) (h := h) hgood hoverlap
    have hexec : exec (.stepComplete h) s = .next { s with dev := s.dev.endStep h r } := (exec_stepComplete h s).trans (eventOpt_of_some hdead hsome)
    generalize hend : s.dev.endStep h r = e at hexec hidle hcob
    refine ⟨_, hexec, rfl, hidle, hcob, fun c hcmd hplain hwaiting hempty hanswer hring haborts => ?_⟩
    have hans := Dev.endStep_answers (h := h) hgood hoverlap haborts hcmd hplain hwaiting hempty hanswer hring
    rw [hend] at hans
    exact hans

/-! ## STEP_ABORT (R312, R460, R532) -/

theorem exec_stepAbort (q h : Nat) (s : State) : exec (.stepAbort q h) s = execStepAbort q h s := rfl

/-- Dumps of a kind are gone. -/
def Dev.cutDumps (d : Dev) (sel : Dump → Bool) : Dev := { d with obs := { d.obs with dumps := d.obs.dumps.filter (fun x => !sel x) } }

/-- The plan's waiting step is gone, and one started ahead is to stop. -/
def Plan.cutNext (p : Plan) : Plan := { p with next := none, overlap := p.overlap.map (fun r => r.fail stAborted 0 0) }

/-- The plan's step in progress is to stop. -/
def Plan.cutCur (p : Plan) : Plan := { p with cur := p.cur.map (fun r => r.fail stAborted 0 0) }

/-- The waiting step's dumps. -/
def StepRun.ownsDump (n : StepRun) (h : Nat) (x : Dump) : Bool := x.plan == h && x.stream.isNone && x.step == n.step

/-- The waiting step is gone, with its dumps and its batch, and one started ahead is to stop. -/
def Dev.cutNext (d : Dev) (h : Nat) : Dev :=
  let e := d.updPlan h Plan.cutNext
  match (d.plan h).next with
  | some n => (e.cutDumps (n.ownsDump h)).updIng (fun g => g.freeBatch n.batch)
  | none => e

/-- The step in progress, too, is to stop, and its dumps are gone. -/
def Dev.cutSteps (d : Dev) (h : Nat) : Dev :=
  let e := (d.cutNext h).updPlan h Plan.cutCur
  if (d.plan h).cur.isSome then e.cutDumps (fun x => x.plan == h && x.stream.isNone) else e

/-- STEP_ABORT waits for the steps' replies, and no command waits where no step is left. -/
def Dev.abortWaits (d : Dev) (h cmd : Nat) : Dev :=
  let e := (d.cutSteps h).updPlan h (fun p => { p with aborts := p.aborts ++ [cmd] })
  if (d.plan h).cur.isSome || (d.plan h).overlap.isSome then e else e.updPlan h (fun p => { p with aborts := [] })

/-- The waiting step ends with its dumps and its reply, and its batch is free. -/
theorem Dev.abortNext_some {d : Dev} {h : Nat} {n : StepRun} (hnext : (d.plan h).next = some n) : d.abortNext h =
    (((d.updPlan h Plan.cutNext).endDumps (n.ownsDump h) stAborted).finish n.cmd stAborted 0
      [(d.updPlan h Plan.cutNext).stepEntry (d.plan h) n]).updIng (fun g => g.freeBatch n.batch) := by
  unfold Dev.abortNext
  dsimp only
  rw [hnext]
  rfl

theorem Dev.abortNext_none {d : Dev} {h : Nat} (hnext : (d.plan h).next = none) : d.abortNext h = d.updPlan h Plan.cutNext := by
  unfold Dev.abortNext
  dsimp only
  rw [hnext]
  rfl

section
variable {a b : Dev} (hrep : a.Replied b)
include hrep

theorem Dev.Replied.cutDumps (sel : Dump → Bool) : (a.cutDumps sel).Replied (b.cutDumps sel) where
  quiet := show b.quiet.cutDumps sel = a.quiet.cutDumps sel by rw [hrep.quiet]
  setup := hrep.setup
  mem := hrep.mem
  ctr := hrep.ctr
  bufs := hrep.bufs

/-- Dumps that end are gone, but for their replies. -/
theorem Dev.Replied.endDumps (sel : Dump → Bool) (status : Nat) : (a.cutDumps sel).Replied (b.endDumps sel status) :=
  foldl_keeps (a.cutDumps sel).Replied (fun e (x : Dump) => e.finish x.cmd status 0 []) (fun _ _ he => he.trans (Dev.finish_replied ..)) _ _
    (hrep.cutDumps sel)

theorem Dev.Replied.abortNext (h : Nat) : (a.cutNext h).Replied (b.abortNext h) := by
  have hplan := hrep.updPlan h Plan.cutNext
  unfold Dev.cutNext
  dsimp only
  cases hnext : (a.plan h).next with
  | none =>
    rw [Dev.abortNext_none (by rw [hrep.plan, hnext])]
    exact hplan
  | some n =>
    rw [Dev.abortNext_some (by rw [hrep.plan, hnext])]
    exact ((hplan.endDumps (n.ownsDump h) stAborted).trans (Dev.finish_replied ..)).updIng _

theorem Dev.Replied.abortSteps (h : Nat) : (a.cutSteps h).Replied (b.abortSteps h) := by
  have hnext := (hrep.abortNext h).updPlan h Plan.cutCur
  unfold Dev.cutSteps Dev.abortSteps
  rw [hrep.plan]
  dsimp only
  cases (a.plan h).cur with
  | none => exact hnext
  | some r => exact hnext.endDumps (fun x => x.plan == h && x.stream.isNone) stAborted

end

section
variable {d : Dev} {h : Nat}

/-- What a plan reads as after a change of the plan of a handle. -/
theorem Dev.plan_updPlan_same (g : Plan → Plan) : (d.updPlan h g).plan h = g (d.plan h) := by rw [Dev.plan_updPlan, if_pos rfl]

theorem Dev.cutNext_plan : (d.cutNext h).plan h = (d.plan h).cutNext := by
  have hplan : (d.updPlan h Plan.cutNext).plan h = (d.plan h).cutNext := Dev.plan_updPlan_same _
  unfold Dev.cutNext
  cases (d.plan h).next with
  | none => exact hplan
  | some n => exact hplan

theorem Dev.cutSteps_plan : (d.cutSteps h).plan h = (d.plan h).cutNext.cutCur := by
  have hplan : ((d.cutNext h).updPlan h Plan.cutCur).plan h = (d.plan h).cutNext.cutCur := by rw [Dev.plan_updPlan_same, Dev.cutNext_plan]
  unfold Dev.cutSteps
  cases (d.plan h).cur with
  | none => exact hplan
  | some r => exact hplan

/-- Other plans are as before. -/
theorem Dev.cutSteps_other {k : Nat} (hk : k ≠ h) : (d.cutSteps h).plan k = d.plan k := by
  have hplan : ∀ (e : Dev) (g : Plan → Plan), (e.updPlan h g).plan k = e.plan k := fun e g => by rw [Dev.plan_updPlan, if_neg hk]
  have hnext : (d.cutNext h).plan k = d.plan k := by
    unfold Dev.cutNext
    dsimp only
    cases (d.plan h).next with
    | none => exact hplan d Plan.cutNext
    | some n => exact hplan d Plan.cutNext
  unfold Dev.cutSteps
  dsimp only
  cases (d.plan h).cur with
  | none => exact (hplan _ Plan.cutCur).trans hnext
  | some r => exact (hplan _ Plan.cutCur).trans hnext

end

/-- What the abort leaves of the begun device. -/
theorem Dev.Replied.abortWaits {a b : Dev} (hrep : a.Replied b) (h cmd : Nat) :
    (a.abortWaits h cmd).Replied (((b.abortSteps h).updPlan h (fun p => { p with aborts := p.aborts ++ [cmd] })).endAborts h) := by
  have hwaits := (hrep.abortSteps h).updPlan h (fun p => { p with aborts := p.aborts ++ [cmd] })
  have hplan : ((b.abortSteps h).updPlan h (fun p => { p with aborts := p.aborts ++ [cmd] })).plan h =
      { (a.plan h).cutNext.cutCur with aborts := (a.plan h).aborts ++ [cmd] } := by
    rw [hwaits.plan, Dev.plan_updPlan_same, Dev.cutSteps_plan]
    rfl
  have hleft : (((a.plan h).cutNext.cutCur.cur.isSome || (a.plan h).cutNext.cutCur.next.isSome) || (a.plan h).cutNext.cutCur.overlap.isSome) =
      ((a.plan h).cur.isSome || (a.plan h).overlap.isSome) := by simp [Plan.cutNext, Plan.cutCur]
  unfold Dev.abortWaits Dev.endAborts
  rw [hplan]
  dsimp only
  rw [hleft]
  cases (a.plan h).cur.isSome || (a.plan h).overlap.isSome with
  | true => exact hwaits
  | false =>
    exact foldl_keeps _ (fun e id => e.finish id stDone 0 []) (fun _ _ he => he.trans (Dev.finish_replied ..)) _ _
      (hwaits.updPlan h (fun p => { p with aborts := [] }))

section
variable (d : Dev) (h cmd : Nat)

/-- The plan of a step that is aborted. -/
theorem Dev.abortWaits_plan (k : Nat) : (d.abortWaits h cmd).plan k = if k = h then { (d.plan h).cutNext.cutCur with
    aborts := if (d.plan h).cur = none ∧ (d.plan h).overlap = none then [] else (d.plan h).aborts ++ [cmd] } else d.plan k := by
  have hplans : ∀ j, (d.cutSteps h).plan j = if j = h then (d.plan h).cutNext.cutCur else d.plan j := fun j => by
    split
    · next hj => rw [hj, Dev.cutSteps_plan]
    · next hj => exact Dev.cutSteps_other hj
  have hnone : ((d.plan h).cur = none ∧ (d.plan h).overlap = none) ↔ ((d.plan h).cur.isSome || (d.plan h).overlap.isSome) = false := by simp
  unfold Dev.abortWaits
  dsimp only
  simp only [hnone]
  cases (d.plan h).cur.isSome || (d.plan h).overlap.isSome with
  | true =>
    rw [if_pos rfl, Dev.plan_updPlan, hplans, hplans, if_pos rfl]
    split <;> rfl
  | false =>
    rw [if_neg Bool.false_ne_true, Dev.plan_updPlan, Dev.plan_updPlan, Dev.plan_updPlan, hplans, hplans, if_pos rfl, if_pos rfl]
    split <;> rfl

/-- Dumps of a kind of which there are none. -/
theorem Dev.cutDumps_none : d.cutDumps (fun _ => false) = d := by
  have hall : d.obs.dumps.filter (fun _ => !false) = d.obs.dumps := List.filter_true ..
  unfold Dev.cutDumps
  rw [hall]

theorem Dev.cutDumps_twice (sel sel' : Dump → Bool) : (d.cutDumps sel).cutDumps sel' = d.cutDumps (fun x => sel x || sel' x) := by
  have hboth : (d.obs.dumps.filter (fun x => !sel x)).filter (fun x => !sel' x) = d.obs.dumps.filter (fun x => !(sel x || sel' x)) := by
    rw [List.filter_filter]
    exact congrArg (fun f => d.obs.dumps.filter f) (funext fun x => by simp [Bool.and_comm])
  unfold Dev.cutDumps
  dsimp only
  rw [hboth]

/-- The rest of the device after an abort. -/
theorem Dev.abortWaits_rest : d.abortWaits h cmd = { d.cutDumps (fun x =>
      x.plan == h && x.stream.isNone && ((d.plan h).cur.isSome || (d.plan h).next.any (fun n => x.step == n.step))) with
    plans := (d.abortWaits h cmd).plans
    ing := match (d.plan h).next with | some n => d.ing.freeBatch n.batch | none => d.ing } := by
  have hwaits : d.abortWaits h cmd = { d.cutSteps h with plans := (d.abortWaits h cmd).plans } := by
    unfold Dev.abortWaits
    dsimp only
    split <;> rfl
  have hnext : d.cutNext h = { d.cutDumps (fun x => x.plan == h && x.stream.isNone && (d.plan h).next.any (fun n => x.step == n.step)) with
      plans := (d.cutNext h).plans
      ing := match (d.plan h).next with | some n => d.ing.freeBatch n.batch | none => d.ing } := by
    unfold Dev.cutNext
    dsimp only
    cases (d.plan h).next with
    | some n => rfl
    | none =>
      simp only [Option.any_none, Bool.and_false]
      rw [Dev.cutDumps_none]
      rfl
  have hsteps : d.cutSteps h = { (d.cutNext h).cutDumps (fun x => x.plan == h && x.stream.isNone && (d.plan h).cur.isSome) with
      plans := (d.cutSteps h).plans } := by
    unfold Dev.cutSteps
    dsimp only
    cases (d.plan h).cur with
    | some r => simp only [Option.isSome_some, Bool.and_true, if_true]; rfl
    | none =>
      simp only [Option.isSome_none, Bool.and_false, Bool.false_eq_true, if_false]
      rw [Dev.cutDumps_none]
      rfl
  have hsel : (fun x : Dump => x.plan == h && x.stream.isNone && (d.plan h).next.any (fun n => x.step == n.step) ||
      x.plan == h && x.stream.isNone && (d.plan h).cur.isSome) = fun x =>
      x.plan == h && x.stream.isNone && ((d.plan h).cur.isSome || (d.plan h).next.any (fun n => x.step == n.step)) :=
    funext fun x => by rw [← Bool.and_or_distrib_left, Bool.or_comm]
  rw [← hsel, ← Dev.cutDumps_twice]
  generalize (d.abortWaits h cmd).plans = plans at hwaits ⊢
  rw [hwaits]
  generalize (d.cutSteps h).plans = plans' at hsteps
  rw [hsteps, hnext]
  rfl

end

/-- Settles O31: the abort of the begun device, but for replies, is that of the device. -/
theorem stepAbortStopsTheSteps : Obligations.StepAbortStopsTheSteps := by
  intro s q h f p pl hadm hpl hready hvalid
  subst hpl
  cases hadm.form
  rw [exec_stepAbort]
  have hown : s.dev.planRefusal h = none := if_pos hvalid
  have hbecomes : Res.Becomes s (s.dev.abortWaits h s.dev.host.nextCmd) (execStepAbort q h s) :=
    hadm.becomes rfl ⟨if_pos hready, hown, rfl⟩ ((s.dev.begin__replied q p).abortWaits h s.dev.host.nextCmd)
  rw [Dev.abortWaits_rest] at hbecomes
  exact ⟨_, hbecomes, fun k => s.dev.abortWaits_plan h s.dev.host.nextCmd k⟩

end Sys2Proof.Machine
end

