-- ==== Sys2Proof/Proofs/MoverChannels.lean ====
section
/-! PROOFS. The registers of a mover channel, its descriptors and their failures (R467 to R484): rules of the channel's operations. -/

namespace Sys2Proof.Machine

/-! ## What operations of a channel leave -/

/-- From device `a` to `b` channel `k` reads `c` and every other channel, memory and queues are as they were. -/
structure Dev.SetsChan (a b : Dev) (k : Nat) (c : Chan) : Prop where
  here : b.chan k = c
  others : ∀ j, j ≠ k → b.chan j = a.chan j
  mem : b.mem = a.mem

namespace Dev.SetsChan
variable {a b e : Dev} {k : Nat} {c c' : Chan}

theorem refl (d : Dev) (k : Nat) : d.SetsChan d k (d.chan k) := ⟨rfl, fun _ _ => rfl, rfl⟩

theorem trans (h : a.SetsChan b k c) (h' : b.SetsChan e k c') : a.SetsChan e k c' :=
  ⟨h'.here, fun j hj => (h'.others j hj).trans (h.others j hj), h'.mem.trans h.mem⟩

theorem upd (d : Dev) (k : Nat) (f : Chan → Chan) : d.SetsChan (d.updChan k f) k (f (d.chan k)) :=
  ⟨(Dev.chan_updChan ..).trans (if_pos rfl), fun _ hj => (Dev.chan_updChan ..).trans (if_neg hj), rfl⟩

/-- A device with the same channels and memory. -/
theorem onto (h : a.SetsChan b k c) (hmov : e.mov = b.mov) (hmem : e.mem = b.mem) : a.SetsChan e k c :=
  ⟨(by rw [Dev.chan, hmov]; exact h.here), fun j hj => (by rw [Dev.chan, hmov]; exact h.others j hj), hmem.trans h.mem⟩

end Dev.SetsChan

theorem Dev.chanIrq_keeps (d : Dev) (k vec : Nat) : (d.chanIrq k vec).mov = d.mov ∧ (d.chanIrq k vec).mem = d.mem := by
  unfold Dev.chanIrq
  dsimp only
  split
  · exact ⟨rfl, rfl⟩
  · exact ⟨rfl, rfl⟩

/-- A channel that enters ERROR. -/
theorem Dev.chanError_sets (d : Dev) (k code : Nat) : d.SetsChan (d.chanError k code) k { d.chan k with st := 4, err := code, fence := false } := by
  obtain ⟨hmov, hmem⟩ := (((d.updChan k (fun c => { c with st := 4, err := code, fence := false })).count (engineInst (chanEngine k)) 0x28 1)).chanIrq_keeps k 10
  exact (Dev.SetsChan.upd d k _).onto hmov hmem

theorem Dev.chanLog_keeps (d : Dev) (k addr kind : Nat) : (d.chanLog k addr kind).mov = d.mov ∧ (d.chanLog k addr kind).mem = d.mem := by
  simp [Dev.chanLog, Dev.traceFault]

/-- A channel that does not run, holds a descriptor, or has an empty ring takes none. -/
theorem Dev.takeNext_stays {d : Dev} {k : Nat} (h : (d.chan k).st ≠ 1 ∨ (d.chan k).cur ≠ none ∨ (d.chan k).head = (d.chan k).tail) : d.takeNext k = d := by
  have hstays : ((d.chan k).st != 1 || (d.chan k).cur.isSome || (d.chan k).head == (d.chan k).tail) = true := by
    rcases h with h | h | h
    · simp [h]
    · simp [Option.isSome_iff_ne_none, h]
    · simp [h]
  unfold Dev.takeNext
  dsimp only
  rw [if_pos hstays]

/-- A running channel whose ring is not empty takes the descriptor at HEAD, whole and backed, or stops where it reads OWN 0. -/
theorem Dev.takeNext_takes {d : Dev} {k x : Nat} (hst : (d.chan k).st = 1) (hcur : (d.chan k).cur = none) (hhead : (d.chan k).head ≠ (d.chan k).tail)
    (hback : d.unbacked (d.chan k).headAddr 32 = none) (hclean : firstBad d.poison (d.chan k).headAddr 32 = none)
    (hx : x = rdNat d.mem (d.chan k).headAddr 32) : d.takeNext k = if bit x 0 then d.updChan k (fun c => { c with
      cur := some x, row := 0, off := 0, fence := (ringXfer x).kind == .fence, waitN := 0, readyAt := d.plat.now,
      wb := if (ringXfer x).kind == .nop then some 0 else none }) else d.chanError k 6 := by
  have hgoes : ¬ ((d.chan k).st != 1 || (d.chan k).cur.isSome || (d.chan k).head == (d.chan k).tail) = true := by simp [hst, hcur, hhead]
  unfold Dev.takeNext
  dsimp only
  rw [if_neg hgoes, hback, hclean]
  dsimp only
  rw [← hx]
  by_cases hown : bit x 0 = true
  · rw [if_pos hown, if_neg (by simp [hown])]
  · rw [if_neg hown, if_pos (by simp [hown])]

theorem Dev.writeBack_none {d : Dev} {k : Nat} (status : Nat) (hcur : (d.chan k).cur = none) : d.writeBack k status = d := by
  simp only [Dev.writeBack, hcur]

/-- First word of a descriptor that is written back (R476). -/
def backWord (x status : Nat) : Nat := setBits (setBits (bits x 0 32) 0 1 0) 8 4 status

/-- A channel whose descriptor has been written back. -/
def Chan.wroteBack (c : Chan) : Chan := { c with cur := none, wb := none, fence := false, fail := none }

section
variable {d : Dev} {k x : Nat} (status : Nat) (hcur : (d.chan k).cur = some x)
include hcur

/-- The write-back of a descriptor before its message. -/
theorem Dev.writeBack_some : ∃ e : Dev, e.mov = ((d.storeNat (d.chan k).headAddr 4 (backWord x status)).updChan k Chan.wroteBack).mov ∧
    e.mem = wrNat d.mem (d.chan k).headAddr 4 (backWord x status) ∧ e.host = d.host ∧
    d.writeBack k status = if bit x 4 then e.chanIrq k 9 else e := by
  refine ⟨((d.storeNat (d.chan k).headAddr 4 (backWord x status)).updChan k Chan.wroteBack).trace 0x0E (chanEngine k) (chanId k) (d.chan k).head status
    (d.chan k).bytes, ?_, ?_, ?_, ?_⟩
  · rw [Dev.trace_mov]
  · rw [Dev.trace_mem]
    rfl
  · rw [Dev.trace_host]
    rfl
  · simp only [Dev.writeBack, hcur]
    rfl

/-- The descriptor reads OWN 0 and the status, and the channel holds it no more. -/
theorem Dev.writeBack_effect : (d.writeBack k status).chan k = (d.chan k).wroteBack ∧ (∀ j, j ≠ k → (d.writeBack k status).chan j = d.chan j) ∧
    (d.writeBack k status).mem = wrNat d.mem (d.chan k).headAddr 4 (backWord x status) ∧
    (d.writeBack k status).host.irqs = (if bit x 4 = true ∧ (d.chan k).irqEn = true ∧ (d.host.own (chanId k) = 1 ∨ d.host.own (chanId k) = 2)
      then (d.host.own (chanId k) - 1, 9) :: d.host.irqs else d.host.irqs) := by
  obtain ⟨e, hmov, hmem, hhost, heq⟩ := Dev.writeBack_some status hcur
  have hchan : ∀ j, e.chan j = if j = k then (d.chan k).wroteBack else d.chan j := fun j => by
    rw [Dev.chan, hmov]
    exact Dev.chan_updChan ..
  have hmine : e.chan k = (d.chan k).wroteBack := (hchan k).trans (if_pos rfl)
  obtain ⟨hmov', hmem'⟩ := e.chanIrq_keeps k 9
  have hkept : (d.writeBack k status).mov = e.mov ∧ (d.writeBack k status).mem = e.mem := by
    rw [heq]
    split
    · exact ⟨hmov', hmem'⟩
    · exact ⟨rfl, rfl⟩
  have hall : ∀ j, (d.writeBack k status).chan j = e.chan j := fun j => by rw [Dev.chan, hkept.1, Dev.chan]
  refine ⟨(hall k).trans hmine, fun j hj => (hall j).trans ((hchan j).trans (if_neg hj)), hkept.2.trans hmem, ?_⟩
  rw [heq]
  cases hirq : bit x 4 with
  | false => simp [hhost]
  | true =>
    have hen := congrArg Chan.irqEn hmine
    simp only [if_true, true_and]
    unfold Dev.chanIrq
    dsimp only
    rw [hhost, show (e.chan k).irqEn = (d.chan k).irqEn from hen]
    by_cases hc : (d.chan k).irqEn = true ∧ (d.host.own (chanId k) = 1 ∨ d.host.own (chanId k) = 2)
    · rw [if_pos hc, if_pos (by simpa using hc)]
      rfl
    · rw [if_neg hc, if_neg (by simpa using hc), hhost]

end

end Sys2Proof.Machine
end

