-- ==== Sys2Proof/Proofs/ChannelCommands.lean ====
section
/-! PROOFS. The writes of a channel's block, its release and the ages of an engine's channels (R469, R475, R479 to R483). -/

namespace Sys2Proof.Machine

/-! ## Writes of a channel's block (R469, R479, R480) -/

/-- The owner's write takes effect on the device. -/
theorem chanWrite_owned {s : State} {port k : Nat} {f : Dev → Dev} {d : Dev} (hlink : s.dev.linked port = true) (hk : k < 96)
    (hown : s.dev.host.own (chanId k) = port + 1) (hd : f s.dev = d) : chanWrite s port k f = .next { s with dev := d } := by
  simp [chanWrite, hlink, hk, hown, hd, nextDev]

/-- Another port's write adds one to WINDOW_ERROR. -/
theorem chanWrite_foreign {s : State} {port k : Nat} {f : Dev → Dev} (hlink : s.dev.linked port = true) (hk : k < 96)
    (hown : s.dev.host.own (chanId k) ≠ port + 1) : chanWrite s port k f = .next { s with dev := { s.dev with host := s.dev.host.winError port } } := by
  simp [chanWrite, hlink, hk, hown, nextDev]

/-- After a change of a channel that leaves nothing to take, the channel takes nothing. -/
theorem Dev.takeNext_upd {d : Dev} {k : Nat} {f : Chan → Chan}
    (h : (f (d.chan k)).st ≠ 1 ∨ (f (d.chan k)).cur ≠ none ∨ (f (d.chan k)).head = (f (d.chan k)).tail) : (d.updChan k f).takeNext k = d.updChan k f :=
  Dev.takeNext_stays (by rwa [(Dev.chan_updChan ..).trans (if_pos rfl)])

section
variable {s : State} {port k : Nat} (hlink : s.dev.linked port = true) (hk : k < 96) (hown : s.dev.host.own (chanId k) = port + 1)
include hlink hk hown

theorem channelTail_sets {v : Nat} (hv : v < 2 ^ 32) (hin : (v + 2 ^ 32 - (s.dev.chan k).doneIdx) % 2 ^ 32 ≤ 2 ^ (s.dev.chan k).log2)
    (hrest : (s.dev.chan k).st ≠ 1 ∨ (s.dev.chan k).cur ≠ none) :
    exec (.channelTail port k v) s = .next { s with dev := s.dev.updChan k (fun x => { x with tail := v }) } := by
  show execChannelTail port k v s = _
  refine chanWrite_owned hlink hk hown ?_
  dsimp only
  rw [Nat.mod_eq_of_lt hv, if_neg (by omega)]
  exact Dev.takeNext_upd (hrest.imp id Or.inl)

theorem channelTail_faults {v : Nat} (hv : v < 2 ^ 32) (hout : 2 ^ (s.dev.chan k).log2 < (v + 2 ^ 32 - (s.dev.chan k).doneIdx) % 2 ^ 32)
    (hcur : (s.dev.chan k).cur = none) (hst : (s.dev.chan k).st < 4 ∨ 5 < (s.dev.chan k).st) :
    exec (.channelTail port k v) s = .next { s with dev := s.dev.chanError k 6 } := by
  show execChannelTail port k v s = _
  refine chanWrite_owned hlink hk hown ?_
  dsimp only
  rw [Nat.mod_eq_of_lt hv, if_pos hout]
  unfold Dev.tailFault
  dsimp only
  rw [hcur, if_neg (by simp), if_neg (by omega)]

theorem channelStart_faults (hst : (s.dev.chan k).st = 0) (hring : s.dev.unwritable (s.dev.chan k).base (32 * 2 ^ (s.dev.chan k).log2) ≠ none) :
    exec (.channelStart port k) s = .next { s with dev := s.dev.chanError k 6 } := by
  show execChannelStart port k s = _
  refine chanWrite_owned hlink hk hown ?_
  dsimp only
  rw [hst, if_neg (by simp), if_neg (by simpa [Option.isNone_iff_eq_none] using hring)]

theorem channelStart_runs (hst : (s.dev.chan k).st = 0) (hring : s.dev.unwritable (s.dev.chan k).base (32 * 2 ^ (s.dev.chan k).log2) = none) :
    exec (.channelStart port k) s = .next { s with dev := (s.dev.updChan k (fun c => { c with st := 1 })).takeNext k } := by
  show execChannelStart port k s = _
  refine chanWrite_owned hlink hk hown ?_
  dsimp only
  rw [hst, if_neg (by simp), hring, if_pos (by rfl)]

theorem channelPause_pauses (hst : (s.dev.chan k).st = 1) :
    exec (.channelPause port k) s = .next { s with dev := s.dev.updChan k (fun c => c.pause 2) } :=
  chanWrite_owned hlink hk hown (if_pos hst)

theorem channelPause_idle (hst : (s.dev.chan k).st ≠ 1) : exec (.channelPause port k) s = .next s :=
  chanWrite_owned hlink hk hown (if_neg hst)

theorem channelResume_resumes {x : Nat} (hst : (s.dev.chan k).st = 3) (hcur : (s.dev.chan k).cur = some x) :
    exec (.channelResume port k) s = .next { s with dev := s.dev.updChan k (fun c => c.resume s.dev.plat.now) } := by
  refine chanWrite_owned hlink hk hown ((if_pos hst).trans (Dev.takeNext_upd (.inr (.inl ?_))))
  simp [Chan.resume, hcur]

theorem channelResume_idle (hst : (s.dev.chan k).st ≠ 3) : exec (.channelResume port k) s = .next s :=
  chanWrite_owned hlink hk hown (if_neg hst)

theorem channelRetry_retries (hst : (s.dev.chan k).st = 4) (hempty : (s.dev.chan k).head = (s.dev.chan k).tail) :
    exec (.channelRetry port k) s = .next { s with dev := s.dev.updChan k (fun c => { c with st := 1, err := 0, row := 0, off := 0 }) } :=
  chanWrite_owned hlink hk hown ((if_pos hst).trans (Dev.takeNext_upd (.inr (.inr hempty))))

theorem channelRetry_idle (hst : (s.dev.chan k).st ≠ 4) : exec (.channelRetry port k) s = .next s :=
  chanWrite_owned hlink hk hown (if_neg hst)

theorem channelSkip_skips (hst : (s.dev.chan k).st = 4) (hheld : (s.dev.chan k).head ≠ (s.dev.chan k).tail)
    (hlast : ((s.dev.chan k).head + 1) % 2 ^ 32 = (s.dev.chan k).tail) :
    exec (.channelSkip port k) s = .next { s with dev := s.dev.updChan k (fun c =>
      { c with st := 1, err := 0, head := (s.dev.chan k).tail, doneIdx := (s.dev.chan k).tail, row := 0, off := 0 }) } := by
  refine chanWrite_owned hlink hk hown ((if_pos hst).trans ?_)
  rw [if_neg hheld, hlast]
  exact Dev.takeNext_upd (.inr (.inr rfl))

theorem channelSkip_idle (hst : (s.dev.chan k).st ≠ 4) : exec (.channelSkip port k) s = .next s :=
  chanWrite_owned hlink hk hown (if_neg hst)

theorem channelReset_idle (hst : (s.dev.chan k).st = 0) : exec (.channelReset port k) s = .next s :=
  show execChannelReset port k s = _ from chanWrite_owned hlink hk hown (if_pos hst)

theorem channelReset_resets (hst : (s.dev.chan k).st ≠ 0) :
    exec (.channelReset port k) s = .next { s with dev := s.dev.updChan k (fun c => { c.pause 5 with err := 0 }) } :=
  show execChannelReset port k s = _ from chanWrite_owned hlink hk hown (if_neg hst)

end

theorem bit_zero (x : Nat) : bit x 0 = decide (bits x 0 1 = 1) := by
  simp [bit, bits, Nat.testBit_zero]

/-- A channel that starts takes the descriptor at HEAD, or enters ERROR where it reads OWN 0. -/
theorem Dev.start_takes {d : Dev} {k a x : Nat} (ha : a = (d.chan k).base + 32 * ((d.chan k).head % 2 ^ (d.chan k).log2))
    (hx : x = rdNat d.mem a 32) (hhead : (d.chan k).head ≠ (d.chan k).tail) (hcur : (d.chan k).cur = none) (hback : d.unbacked a 32 = none)
    (hclean : firstBad d.poison a 32 = none) {t : Dev} (ht : t = (d.updChan k (fun c => { c with st := 1 })).takeNext k) : t.mem = d.mem ∧
      (bits x 0 1 = 0 → (t.chan k).st = 4 ∧ (t.chan k).err = 6 ∧ (t.chan k).cur = none) ∧
      (bits x 0 1 = 1 → (t.chan k).st = 1 ∧ (t.chan k).cur = some x ∧ (t.chan k).row = 0 ∧ (t.chan k).off = 0 ∧ (t.chan k).head = (d.chan k).head) := by
  generalize hu : d.updChan k (fun c => { c with st := 1 }) = u at ht
  have hchan : u.chan k = { d.chan k with st := 1 } := hu ▸ (Dev.chan_updChan ..).trans (if_pos rfl)
  have hmem : u.mem = d.mem := hu ▸ rfl
  have haddr : (u.chan k).headAddr = a := by rw [hchan, ha]; rfl
  have hback' : u.unbacked a 32 = none := by rw [← hu]; exact hback
  have hclean' : firstBad u.poison a 32 = none := by rw [← hu]; exact hclean
  rw [Dev.takeNext_takes (x := x) (by rw [hchan]) (by rw [hchan]; exact hcur) (by rw [hchan]; exact hhead) (by rw [haddr]; exact hback')
    (by rw [haddr]; exact hclean') (by rw [haddr, hmem]; exact hx)] at ht
  by_cases hbit : bit x 0 = true
  · rw [if_pos hbit] at ht
    subst ht
    refine ⟨hmem, fun h0 => ?_, fun _ => ?_⟩
    · simp [bit_zero, h0] at hbit
    · rw [Dev.chan_updChan, if_pos rfl, hchan]
      exact ⟨rfl, rfl, rfl, rfl, rfl⟩
  · rw [if_neg hbit] at ht
    subst ht
    obtain ⟨hhere, -, hm⟩ := u.chanError_sets k 6
    refine ⟨hm.trans hmem, fun _ => ?_, fun h1 => ?_⟩
    · rw [hhere, hchan]
      exact ⟨rfl, rfl, hcur⟩
    · simp [bit_zero, h1] at hbit

/-! ## The release of a channel (R483) -/

/-- An entry that is set again holds the later value. -/
theorem Tab.set_set {α : Type} [DecidableEq α] {z v w : α} {k : Nat} (hv : v ≠ z) (m : Tab α) : Tab.set z (Tab.set z m k v) k w = Tab.set z m k w := by
  induction m with
  | nil => by_cases hw : w = z <;> simp [Tab.set, hv, hw]
  | cons e m ih =>
    obtain ⟨j, u⟩ := e
    by_cases hkey : k = j
    · by_cases hw : w = z <;> simp [Tab.set, hkey, hv, hw]
    · by_cases hbefore : k < j
      · by_cases hw : w = z <;> simp [Tab.set, hkey, hbefore, hv, hw]
      · simp [Tab.set, hkey, hbefore, ih]

/-- Two changes of a channel are one, where the first leaves it other than at reset. -/
theorem Dev.updChan_updChan {d : Dev} {k : Nat} {f g : Chan → Chan} (hf : f (d.chan k) ≠ {}) : (d.updChan k f).updChan k g = d.updChan k (fun c => g (f c)) := by
  have hget : Tab.get {} (Tab.upd {} d.mov.chans k f) k = f (d.chan k) := Tab.get_set_same ..
  show { d with mov := { d.mov with chans := Tab.set {} (Tab.upd {} d.mov.chans k f) k (g (Tab.get {} (Tab.upd {} d.mov.chans k f) k)) } } = _
  rw [hget, Tab.upd, Tab.set_set (show f (Tab.get {} d.mov.chans k) ≠ {} from hf)]
  rfl

theorem Dev.Replied.updChan {a b : Dev} (h : a.Replied b) (k : Nat) (g : Chan → Chan) : (a.updChan k g).Replied (b.updChan k g) :=
  h.map (fun d => d.updChan k g) (fun _ => rfl) (fun _ => rfl) (fun _ => rfl) (fun _ => rfl) (fun _ => rfl)

/-- A change of a channel that does not rest on the command number that waits for it. -/
theorem Chan.ne_reset_of_relCmd {c : Chan} (h : c.relCmd ≠ 0) : c ≠ {} := fun he => h (by rw [he])

/-- A channel that rests without a descriptor is reset and freed at once, and the command is done. -/
theorem Dev.releaseChan_rests {d : Dev} {k cmd : Nat} (hcmd : cmd ≠ 0) (hst : (d.chan k).st = 0 ∨ (d.chan k).st = 3 ∨ (d.chan k).st = 4)
    (hcur : (d.chan k).cur = none) : d.releaseChan k cmd =
      ({ d with host := d.host.setOwner (chanId k) 0 }.updChan k (fun c => { base := c.base, log2 := c.log2, prio := c.prio })).finish cmd stDone 0 [] := by
  have hmark : ∀ c : Chan, { c with relCmd := cmd } ≠ {} := fun c => Chan.ne_reset_of_relCmd hcmd
  have hchan : (d.updChan k (fun c => { c with relCmd := cmd })).chan k = { d.chan k with relCmd := cmd } := (Dev.chan_updChan ..).trans (if_pos rfl)
  have hreset : (d.updChan k (fun c => { c with relCmd := cmd })).chanReset k =
      d.updChan k (fun c => { base := c.base, log2 := c.log2, prio := c.prio, relCmd := cmd }) := by
    rw [Dev.chanReset, Dev.writeBack_none 7 (by rw [hchan]; exact hcur), Dev.updChan_updChan (hmark _)]
  have hcmd' : (d.updChan k (fun c => { base := c.base, log2 := c.log2, prio := c.prio, relCmd := cmd })).chan k =
      { base := (d.chan k).base, log2 := (d.chan k).log2, prio := (d.chan k).prio, relCmd := cmd } := (Dev.chan_updChan ..).trans (if_pos rfl)
  unfold Dev.releaseChan
  dsimp only
  rw [hchan, if_pos hst]
  unfold Dev.chanFree
  dsimp only
  rw [hreset, hcmd']
  congr 1
  exact Dev.updChan_updChan (d := { d with host := d.host.setOwner (chanId k) 0 }) (Chan.ne_reset_of_relCmd hcmd)

/-- A running channel pauses first. -/
theorem Dev.releaseChan_pauses {d : Dev} {k cmd : Nat} (hcmd : cmd ≠ 0) (hst : (d.chan k).st = 1) :
    d.releaseChan k cmd = d.updChan k (fun c => { c with relCmd := cmd, st := 2, fence := false }) := by
  have hchan : (d.updChan k (fun c => { c with relCmd := cmd })).chan k = { d.chan k with relCmd := cmd } := (Dev.chan_updChan ..).trans (if_pos rfl)
  unfold Dev.releaseChan
  dsimp only
  rw [hchan, if_neg (by simp [hst]), if_pos hst, Dev.updChan_updChan (Chan.ne_reset_of_relCmd hcmd)]
  rfl

theorem exec_channelRelease (q resource : Nat) (s : State) : exec (.channelRelease q resource) s = execChannelRelease q resource s := rfl

section
variable {s : State} {q k : Nat} {f : PacketForm} {p : Packet} (h : s.Admits (.channelRelease q (0x40 + k)) f p) (hk : k < 96)
include h hk

theorem channelRelease_foreign (hown : s.dev.host.own (0x40 + k) ≠ q / 8 + 1) : Res.Becomes s s.dev (exec (.channelRelease q (0x40 + k)) s) := by
  cases h.form
  rw [exec_channelRelease, execChannelRelease]
  exact h.refusedByOwn rfl ⟨if_pos (by omega), HostIf.ownRefusal_other hown, rfl⟩

theorem channelRelease_rests (hown : s.dev.host.own (0x40 + k) = q / 8 + 1) (hcmd : s.dev.host.nextCmd ≠ 0)
    (hst : (s.dev.chan k).st = 0 ∨ (s.dev.chan k).st = 3 ∨ (s.dev.chan k).st = 4) (hcur : (s.dev.chan k).cur = none) :
    Res.Becomes s ({ s.dev with host := s.dev.host.setOwner (0x40 + k) 0 }.updChan k (fun x => { base := x.base, log2 := x.log2, prio := x.prio }))
      (exec (.channelRelease q (0x40 + k)) s) := by
  cases h.form
  have hbegun := s.dev.begin__replied q p
  have hchan : (s.dev.begin_ q p).1.chan k = s.dev.chan k := by rw [Dev.chan, hbegun.mov, Dev.chan]
  rw [exec_channelRelease, execChannelRelease]
  refine h.becomes rfl ⟨if_pos (by omega), HostIf.ownRefusal_own hown, rfl⟩ ?_
  dsimp only
  rw [Nat.add_sub_cancel_left, Dev.begin_id, Dev.releaseChan_rests hcmd (by rw [hchan]; exact hst) (by rw [hchan]; exact hcur)]
  exact ((hbegun.setOwner (0x40 + k) 0).updChan k _).trans (Dev.finish_replied ..)

theorem channelRelease_pauses (hown : s.dev.host.own (0x40 + k) = q / 8 + 1) (hcmd : s.dev.host.nextCmd ≠ 0) (hst : (s.dev.chan k).st = 1) :
    Res.Becomes s (s.dev.updChan k (fun x => { x with relCmd := s.dev.host.nextCmd, st := 2, fence := false }))
      (exec (.channelRelease q (0x40 + k)) s) := by
  cases h.form
  have hbegun := s.dev.begin__replied q p
  have hchan : (s.dev.begin_ q p).1.chan k = s.dev.chan k := by rw [Dev.chan, hbegun.mov, Dev.chan]
  rw [exec_channelRelease, execChannelRelease]
  refine h.becomes rfl ⟨if_pos (by omega), HostIf.ownRefusal_own hown, rfl⟩ ?_
  dsimp only
  rw [Nat.add_sub_cancel_left, Dev.begin_id, Dev.releaseChan_pauses hcmd (by rw [hchan]; exact hst)]
  exact hbegun.updChan k _

end

/-! ## Bursts (R473, R475, R482) -/

/-- The channel an engine serves is one of its own. -/
theorem Dev.nextChan_mem {d : Dev} {e k : Nat} {aged : Bool} (h : d.nextChan e = some (k, aged)) : k ∈ engineChans e := by
  have hlen : 0 < (engineChans e).length := by
    unfold engineChans
    split <;> simp
  have hrot : ∀ {r : Nat → Bool} {last : Nat}, k ∈ (((List.range (engineChans e).length).map
      (fun i => (engineChans e).getD ((last + 1 + i) % (engineChans e).length) 0)).filter r) → k ∈ engineChans e := by
    intro r last hmem
    obtain ⟨i, -, rfl⟩ := List.mem_map.mp (List.mem_of_mem_filter hmem)
    rw [List.getD_eq_getElem _ _ (Nat.mod_lt _ hlen)]
    exact List.getElem_mem _
  unfold Dev.nextChan at h
  dsimp only at h
  split at h
  next j hfind =>
    cases h
    exact hrot (List.mem_of_find?_eq_some hfind)
  next =>
    obtain ⟨j, hfind, hj⟩ := Option.map_eq_some_iff.mp h
    cases hj
    exact hrot (List.mem_of_find?_eq_some hfind)

/-- Device `b` differs from `a` by channels, the channels served last and counters, and its channels by their ages. -/
structure Dev.Aged (a b : Dev) : Prop where
  chans : ∀ j, { b.chan j with waitN := 0 } = { a.chan j with waitN := 0 }
  rest : { b with mov := {}, ctr := [] } = { a with mov := {}, ctr := [] }

theorem Dev.Aged.upd {a b : Dev} (h : a.Aged b) (j : Nat) (g : Chan → Nat) : a.Aged (b.updChan j (fun c => { c with waitN := g c })) where
  chans i := by
    rw [Dev.chan_updChan]
    split
    next hi => exact hi ▸ h.chans i
    next => exact h.chans i
  rest := h.rest

/-- Ages count on; that of the channel served starts again. -/
theorem Dev.ageChans_aged {d : Dev} {e k : Nat} (hk : k ∈ engineChans e) : d.Aged (d.ageChans e k) ∧ ((d.ageChans e k).chan k).waitN = 0 := by
  unfold Dev.ageChans
  generalize d.chanReady = ready
  have hall : ∀ (ids : List Nat) (u : Dev), d.Aged u →
      d.Aged (ids.foldl (fun u j => u.updChan j (fun c => { c with waitN := if j != k && ready j then c.waitN + 1 else 0 })) u) ∧
      ((u.chan k).waitN = 0 ∨ k ∈ ids →
        ((ids.foldl (fun u j => u.updChan j (fun c => { c with waitN := if j != k && ready j then c.waitN + 1 else 0 })) u).chan k).waitN = 0) := by
    intro ids
    induction ids with
    | nil => exact fun u hu => ⟨hu, fun h => h.resolve_right (List.not_mem_nil)⟩
    | cons i ids ih =>
      intro u hu
      obtain ⟨haged, hzero⟩ := ih _ (hu.upd i (fun c => if i != k && ready i then c.waitN + 1 else 0))
      refine ⟨haged, fun h => hzero ?_⟩
      rw [Dev.chan_updChan]
      by_cases hik : k = i
      · left
        rw [if_pos hik, hik]
        simp
      · rw [if_neg hik]
        exact h.imp id (fun hmem => (List.mem_cons.mp hmem).resolve_left hik)
  obtain ⟨haged, hzero⟩ := hall (engineChans e) d ⟨fun _ => rfl, rfl⟩
  exact ⟨haged, hzero (.inr hk)⟩

/-- A failing burst leaves every byte outside its destination. -/
theorem rdByte_mixRange {old : Dev} {w : Wk} {k a n x : Nat} (hx : x < a ∨ a + n ≤ x) : rdByte (mixRange old w k a n).1 x = rdByte old.mem x := by
  unfold mixRange
  have hkeep : ∀ (is : List Nat), (∀ i ∈ is, i < n) → ∀ y : Tab Byte × Tab Bool, rdByte (is.foldl (fun (z : Tab Byte × Tab Bool) i =>
      if (Config.freeByte (k * 2 ^ 48 + i)).toNat % 2 = 1
      then (Tab.set 0 z.1 (a + i) (rdByte w.mem (a + i)), Tab.set false z.2 (a + i) (Tab.get false w.poison (a + i)))
      else z) y).1 x = rdByte y.1 x := by
    intro is
    induction is with
    | nil => exact fun _ _ => rfl
    | cons i is ih =>
      intro his y
      have hi : i < n := his i List.mem_cons_self
      rw [List.foldl_cons, ih (fun j hj => his j (List.mem_cons_of_mem _ hj))]
      split
      · exact Tab.get_set_other _ _ _ _ _ (by omega)
      · rfl
  exact hkeep _ (fun i hi => List.mem_range.mp hi) _

/-- The work a burst does. -/
def Dev.burstWork (d : Dev) (k : Nat) (x : Xfer) (flips : List Nat) : Wk :=
  ({ mem := d.mem, poison := d.poison, free := d.plat.freeCount, flaws := flips, die := chanEngine k : Wk }).xferPart x (d.chan k).row (d.chan k).off
    (x.burst (d.chan k).row (d.chan k).off).n

/-- A burst without a parity error moves its bytes and its position. -/
theorem Dev.runBurst_moves {d : Dev} {k : Nat} {x : Xfer} {flips : List Nat} {c : Chan} (hc : d.chan k = c) (hw : (d.burstWork k x flips).bad = false) :
    ∃ n, (d.runBurst k x flips).chan k = c.afterBurst x (x.burst c.row c.off).n n d.plat.now ∧
      (∀ j, j ≠ k → (d.runBurst k x flips).chan j = d.chan j) ∧ (d.runBurst k x flips).host = d.host ∧
      (d.runBurst k x flips).mem = (d.burstWork k x flips).mem ∧ (d.runBurst k x flips).poison = (d.burstWork k x flips).poison := by
  subst hc
  refine ⟨x.burstBytes d.mem (d.chan k).off (x.burst (d.chan k).row (d.chan k).off), ?_⟩
  unfold Dev.runBurst
  dsimp only
  rw [if_neg (by simpa [Dev.burstWork] using hw)]
  exact ⟨(Dev.chan_updChan ..).trans (if_pos rfl), fun j hj => (Dev.chan_updChan ..).trans (if_neg hj), rfl, rfl, rfl⟩

/-- A burst that meets a parity error stops where it is. -/
theorem Dev.runBurst_fails {d : Dev} {k : Nat} {x : Xfer} {flips : List Nat} {c : Chan} (hc : d.chan k = c) (hw : (d.burstWork k x flips).bad = true) :
    (d.runBurst k x flips).chan k =
        { c with fail := some (4, (d.burstWork k x flips).errs.getLastD 0 % 2 ^ 48, (d.burstWork k x flips).errs.getLastD 0 / 2 ^ 48) } ∧
      (∀ j, j ≠ k → (d.runBurst k x flips).chan j = d.chan j) ∧ (d.runBurst k x flips).host = d.host ∧
      (∀ a, (a < (x.burst c.row c.off).dst.1 ∨ (x.burst c.row c.off).dst.1 + (x.burst c.row c.off).dst.2 ≤ a) →
        rdByte (d.runBurst k x flips).mem a = rdByte d.mem a) := by
  subst hc
  unfold Dev.runBurst
  dsimp only
  rw [if_pos (by simpa [Dev.burstWork] using hw)]
  exact ⟨(Dev.chan_updChan ..).trans (if_pos rfl), fun j hj => (Dev.chan_updChan ..).trans (if_neg hj), rfl,
    fun a ha => rdByte_mixRange ha⟩

end Sys2Proof.Machine
end

