-- ==== Sys2Proof/Proofs/ChannelRings.lean ====
section
/-! PROOFS. A burst, a write-back and a failure of a channel, and O52. -/

namespace Sys2Proof.Machine

theorem Dev.Aged.count {a b : Dev} (h : a.Aged b) (n c v : Nat) : a.Aged (b.count n c v) := ⟨h.chans, h.rest⟩

theorem Dev.Aged.served {a b : Dev} (h : a.Aged b) (m : Tab Nat) : a.Aged { b with mov := { b.mov with last := m } } := ⟨h.chans, h.rest⟩

section
variable {a b : Dev} (h : a.Aged b)
include h

theorem Dev.Aged.mem : b.mem = a.mem := by have hmem := congrArg Dev.mem h.rest; exact hmem
theorem Dev.Aged.poison : b.poison = a.poison := by have hpoison := congrArg Dev.poison h.rest; exact hpoison
theorem Dev.Aged.plat : b.plat = a.plat := by have hplat := congrArg Dev.plat h.rest; exact hplat
theorem Dev.Aged.host : b.host = a.host := by have hhost := congrArg Dev.host h.rest; exact hhost

theorem Dev.Aged.burstWork (k : Nat) (x : Xfer) (flips : List Nat) : b.burstWork k x flips = a.burstWork k x flips := by
  have hrow := congrArg Chan.row (h.chans k)
  have hoff := congrArg Chan.off (h.chans k)
  dsimp only at hrow hoff
  rw [Dev.burstWork, h.mem, h.poison, h.plat, hrow, hoff, Dev.burstWork]

end

/-- An engine serves the channel it chooses: the ages change, then its burst runs. -/
theorem Dev.moverBurst_runs {d : Dev} {e k : Nat} {aged : Bool} {x : Xfer} {flips : List Nat} (he : e ≤ 4) (hruns : d.pow.runs (engineDom e) = true)
    (hnext : d.nextChan e = some (k, aged)) (hx : (d.chan k).xfer = some x) : ∃ u : Dev, d.moverBurst e flips = some (u.runBurst k x flips) ∧ d.Aged u ∧
      u.chan k = { d.chan k with waitN := 0 } := by
  obtain ⟨haged, hzero⟩ := Dev.ageChans_aged (d := d) (Dev.nextChan_mem hnext)
  have hserved := haged.served (Tab.set ((engineChans e).length - 1) (d.ageChans e k).mov.last e (k - (engineChans e).headD 0))
  have hchan : (d.ageChans e k).chan k = { d.chan k with waitN := 0 } := by rw [← haged.chans k, ← hzero]
  unfold Dev.moverBurst
  rw [if_neg (by simp [hruns]; omega), hnext]
  dsimp only
  rw [hx]
  cases aged with
  | true => exact ⟨_, rfl, hserved.count _ _ _, hchan⟩
  | false => exact ⟨_, rfl, hserved, hchan⟩

/-- A write-back with a status, then HEAD and DONE_IDX pass the last descriptor of the ring. -/
theorem Dev.passHead_last {d : Dev} {k x : Nat} {c : Chan} (hc : c = d.chan k) (hcur : c.cur = some x) (hlast : (c.head + 1) % 2 ^ 32 = c.tail) :
    (d.passHead k).chan k = { c with cur := none, wb := none, fence := false, fail := none, head := c.tail, doneIdx := c.tail, row := 0, off := 0 } ∧
      (d.passHead k).mem = wrNat d.mem c.headAddr 4 (backWord x 0) ∧
      (d.passHead k).host.irqs = (if bit x 4 = true ∧ c.irqEn = true ∧ (d.host.own (chanId k) = 1 ∨ d.host.own (chanId k) = 2)
        then (d.host.own (chanId k) - 1, 9) :: d.host.irqs else d.host.irqs) := by
  subst hc
  obtain ⟨hchan, -, hmem, hirqs⟩ := Dev.writeBack_effect 0 hcur
  unfold Dev.passHead
  dsimp only
  rw [hlast, Dev.takeNext_upd (.inr (.inr (by rw [hchan]; rfl)))]
  refine ⟨?_, hmem, hirqs⟩
  rw [Dev.chan_updChan, if_pos rfl, hchan]
  rfl

/-- First word of a written-back descriptor, as it is stored. -/
theorem backWord_eq (x status : Nat) : backWord x status = setBits (setBits (x % 2 ^ 32) 0 1 0) 8 4 status := by
  simp [backWord, bits]

/-- A descriptor that fails on a channel that is not being reset: the channel is in ERROR, and its descriptor holds the status. -/
theorem Dev.chanFail_fails {d : Dev} {k st addr kind x : Nat} {c : Chan} (hc : c = d.chan k) (hcur : c.cur = some x) (hst : c.st ≠ 5) :
    (d.chanFail k st addr kind).chan k = { c with faultAddr := addr, st := 4, err := st, fence := false, cur := none, wb := none, fail := none } ∧
      (d.chanFail k st addr kind).mem = wrNat d.mem c.headAddr 4 (backWord x st) := by
  subst hc
  have hlogged : ∃ e : Dev, e.mov = d.mov ∧ e.mem = d.mem ∧
      d.chanFail k st addr kind = ((e.updChan k (fun c => { c with faultAddr := addr })).chanError k st).writeBack k st := by
    unfold Dev.chanFail
    dsimp only
    rw [if_neg hst]
    refine ⟨_, ?_, ?_, rfl⟩
    · split
      · exact (d.chanLog_keeps k addr kind).1
      · rfl
    · split
      · exact (d.chanLog_keeps k addr kind).2
      · rfl
  obtain ⟨e, hmov, hmem, heq⟩ := hlogged
  have hchan : e.chan k = d.chan k := by rw [Dev.chan, hmov, Dev.chan]
  have herror := (Dev.SetsChan.upd e k (fun c => { c with faultAddr := addr })).trans (Dev.chanError_sets _ k st)
  have hhere : ((e.updChan k (fun c => { c with faultAddr := addr })).chanError k st).chan k =
      { d.chan k with faultAddr := addr, st := 4, err := st, fence := false } := by
    rw [herror.here, Dev.chan_updChan, if_pos rfl, hchan]
  obtain ⟨hback, -, hstored, -⟩ := Dev.writeBack_effect (k := k) (x := x) st (by rw [hhere]; exact hcur)
  rw [heq]
  refine ⟨?_, ?_⟩
  · rw [hback, hhere]
    rfl
  · rw [hstored, herror.mem, hmem, hhere]
    rfl

/-! ## The register commands together -/

section
variable {s : State} {port k : Nat} (hlink : s.dev.linked port = true) (hk : k < 96)
include hlink hk

/-- What another port's writes do. -/
theorem channelWrites_foreign (hown : s.dev.host.own (chanId k) ≠ port + 1) :
    (∀ v, exec (.channelTail port k v) s = .next { s with dev := { s.dev with host := s.dev.host.winError port } }) ∧
    exec (.channelStart port k) s = .next { s with dev := { s.dev with host := s.dev.host.winError port } } ∧
    exec (.channelReset port k) s = .next { s with dev := { s.dev with host := s.dev.host.winError port } } :=
  ⟨fun v => show execChannelTail port k v s = _ from chanWrite_foreign hlink hk hown,
    show execChannelStart port k s = _ from chanWrite_foreign hlink hk hown,
    show execChannelReset port k s = _ from chanWrite_foreign hlink hk hown⟩

end

section
variable {s : State} {k : Nat} (hdead : s.dev.pow.dead = false)
include hdead

/-- A channel that pauses is PAUSED, one that is being reset is DISABLED, once nothing is in flight. -/
theorem channelQuiesced_settles (hrel : (s.dev.chan k).relCmd = 0) (hwb : (s.dev.chan k).wb = none) (hfail : (s.dev.chan k).fail = none) :
    ((s.dev.chan k).st = 2 → exec (.channelQuiesced k) s = .next { s with dev := s.dev.updChan k (fun x => { x with st := 3 }) }) ∧
    ((s.dev.chan k).st = 5 → (s.dev.chan k).cur = none →
      exec (.channelQuiesced k) s = .next { s with dev := s.dev.updChan k (fun x => { base := x.base, log2 := x.log2, prio := x.prio }) }) ∧
    ((s.dev.chan k).st ≠ 2 → (s.dev.chan k).st ≠ 5 → exec (.channelQuiesced k) s = .next s) := by
  show (_ → execChannelQuiesced k s = _) ∧ (_ → _ → execChannelQuiesced k s = _) ∧ (_ → _ → execChannelQuiesced k s = _)
  unfold execChannelQuiesced
  dsimp only
  rw [if_neg (not_not.mpr hrel)]
  refine ⟨fun hst => ?_, fun hst hcur => ?_, fun h2 h5 => ?_⟩
  · rw [if_pos hst, workEvent_of_can _ hdead (by simp [hst, hwb, hfail])]
  · rw [if_neg (by omega), workEvent_of_can _ hdead (by simp [hst, hwb, hfail]), Dev.chanReset, Dev.writeBack_none 7 hcur]
    congr 2
    exact Dev.updChan_congr (by rw [hrel])
  · exact workEvent_of_cannot _ (by simp [h2, h5])

/-- The last descriptor of the ring is passed, by its write-back or by its FENCE. -/
theorem exec_passHead {t : Instr} (ht : (t = .descriptorWriteBack k ∧ (s.dev.chan k).wb ≠ none ∧
      ((s.dev.chan k).st = 1 ∨ (s.dev.chan k).st = 2 ∨ (s.dev.chan k).st = 5)) ∨
    (t = .moverFenceDone k ∧ (s.dev.chan k).fence = true ∧ (s.dev.chan k).st = 1)) : exec t s = .next { s with dev := s.dev.passHead k } := by
  rcases ht with ⟨rfl, hwb, hst⟩ | ⟨rfl, hfence, hst⟩
  · show execDescriptorWriteBack k s = _
    exact workEvent_of_can _ hdead (by simpa [Option.isSome_iff_ne_none, hwb, or_assoc] using hst)
  · show execMoverFenceDone k s = _
    exact workEvent_of_can _ hdead (by simp [hfence, hst])

/-- A failure of R472 stops the descriptor. -/
theorem moverFault_fails {st addr : Nat} {a : Option Nat} (hfail : s.dev.chanFailure (s.dev.chan k) = some (st, a)) (ha : a.getD addr = addr)
    (haddr : addr < 2 ^ 48) : ∃ kind, exec (.moverFault k st addr) s = .next { s with dev := s.dev.chanFail k st addr kind } := by
  show ∃ kind, execMoverFault k st addr s = _
  unfold execMoverFault
  dsimp only
  rw [hfail]
  dsimp only
  rw [workEvent_of_can _ hdead (by simp [ha]), Nat.mod_eq_of_lt haddr]
  exact ⟨_, rfl⟩

/-- A burst to or from a host window that has been ready for 1 ms fails its descriptor with LINK. -/
theorem hostTransferTimeout_acts {x : Xfer} (hx : (s.dev.chan k).xfer = some x) (hst : (s.dev.chan k).st = 1)
    (hfail : s.dev.chanFailure (s.dev.chan k) = none) (hhost : (x.burst (s.dev.chan k).row (s.dev.chan k).off).areas.any touchesHost = true) :
    (s.dev.plat.now < (s.dev.chan k).readyAt + 1000000 → exec (.hostTransferTimeout k) s = .next s) ∧
    ((s.dev.chan k).readyAt + 1000000 ≤ s.dev.plat.now → ∃ addr, exec (.hostTransferTimeout k) s = .next { s with dev := s.dev.chanFail k 5 addr 0 }) := by
  show (_ → execHostTransferTimeout k s = _) ∧ (_ → ∃ addr, execHostTransferTimeout k s = _)
  unfold execHostTransferTimeout
  dsimp only
  rw [hx]
  dsimp only
  refine ⟨fun hearly => workEvent_of_cannot _ ?_, fun hlate => ⟨_, workEvent_of_can _ hdead ?_⟩⟩
  · rw [decide_eq_false (by omega), Bool.and_false]
  · rw [hst, hfail, hhost, decide_eq_true hlate]
    rfl

end

/-- A channel with a transfer holds a descriptor. -/
theorem Chan.cur_of_xfer {c : Chan} {x : Xfer} (h : c.xfer = some x) : ∃ y, c.cur = some y := by
  unfold Chan.xfer at h
  cases hcur : c.cur with
  | none => simp [hcur] at h
  | some y => exact ⟨y, rfl⟩

theorem moverFault_idle {s : State} {k : Nat} (hfail : s.dev.chanFailure (s.dev.chan k) = none) (st addr : Nat) :
    exec (.moverFault k st addr) s = .next s := by
  show execMoverFault k st addr s = _
  unfold execMoverFault
  dsimp only
  rw [hfail]

/-- A channel's registers but for its age. -/
def Chan.ageless (c : Chan) : Chan := { c with waitN := 0 }

/-- An engine's burst: the channel chosen keeps its descriptor, the others their registers, and its bytes and position go on or stop. -/
theorem moverBurst_serves {s : State} {e k : Nat} {flips : List Nat} {aged : Bool} {x : Xfer} (hdead : s.dev.pow.dead = false) (he : e ≤ 4)
    (hruns : s.dev.pow.runs (engineDom e) = true) (hcp : cpFlip flips = false) (hnext : s.dev.nextChan e = some (k, aged))
    (hx : (s.dev.chan k).xfer = some x) : ∃ (t : State) (y : Chan), exec (.moverBurst e flips) s = .next t ∧ t.pending = s.pending ∧ t.dev.chan k = y ∧
        t.dev.host = s.dev.host ∧ y.st = (s.dev.chan k).st ∧ y.cur = (s.dev.chan k).cur ∧ y.head = (s.dev.chan k).head ∧ y.waitN = 0 ∧
        (∀ j, j ≠ k → { t.dev.chan j with waitN := 0 } = { s.dev.chan j with waitN := 0 }) ∧
        ((s.dev.burstWork k x flips).bad = false → t.dev.mem = (s.dev.burstWork k x flips).mem ∧ t.dev.poison = (s.dev.burstWork k x flips).poison ∧
          y.fail = (s.dev.chan k).fail ∧
          ((s.dev.chan k).off + (x.burst (s.dev.chan k).row (s.dev.chan k).off).n < x.len → y.row = (s.dev.chan k).row ∧
            y.off = (s.dev.chan k).off + (x.burst (s.dev.chan k).row (s.dev.chan k).off).n ∧ y.wb = (s.dev.chan k).wb) ∧
          (x.len ≤ (s.dev.chan k).off + (x.burst (s.dev.chan k).row (s.dev.chan k).off).n → y.row = (s.dev.chan k).row + 1 ∧ y.off = 0 ∧
            ((s.dev.chan k).row + 1 < x.rows → y.wb = none) ∧ (x.rows ≤ (s.dev.chan k).row + 1 → y.wb = some 0))) ∧
        ((s.dev.burstWork k x flips).bad = true → y.row = (s.dev.chan k).row ∧ y.off = (s.dev.chan k).off ∧ y.wb = (s.dev.chan k).wb ∧
          y.fail = some (4, (s.dev.burstWork k x flips).errs.getLastD 0 % 2 ^ 48, (s.dev.burstWork k x flips).errs.getLastD 0 / 2 ^ 48) ∧
          (∀ a, (a < (x.burst (s.dev.chan k).row (s.dev.chan k).off).dst.1 ∨ (x.burst (s.dev.chan k).row (s.dev.chan k).off).dst.1 +
            (x.burst (s.dev.chan k).row (s.dev.chan k).off).dst.2 ≤ a) → rdByte t.dev.mem a = rdByte s.dev.mem a)) := by
  obtain ⟨u, hburst, haged, hchan⟩ := Dev.moverBurst_runs (flips := flips) he hruns hnext hx
  have hexec : exec (.moverBurst e flips) s = .next { s with dev := u.runBurst k x flips } :=
    show eventFlips s flips (s.dev.moverBurst e flips) = _ by rw [hburst, eventFlips_some s flips _ hdead hcp]
  rw [← haged.burstWork k x flips]
  cases hbad : (u.burstWork k x flips).bad with
  | false =>
    obtain ⟨n, hhere, hothers, hhost, hmem, hpoison⟩ := Dev.runBurst_moves hchan hbad
    refine ⟨_, _, hexec, rfl, hhere, hhost.trans haged.host, ?_, ?_, ?_, ?_, fun j hj => (congrArg Chan.ageless (hothers j hj)).trans (haged.chans j),
      fun _ => ⟨hmem, hpoison, ?_, fun hin => ?_, fun hout => ?_⟩, fun h => nomatch h⟩
    iterate 5
      unfold Chan.afterBurst
      dsimp only
      split <;> rfl
    · unfold Chan.afterBurst
      dsimp only
      rw [if_pos hin]
      exact ⟨rfl, rfl, rfl⟩
    · unfold Chan.afterBurst
      dsimp only
      rw [if_neg (by omega)]
      exact ⟨rfl, rfl, fun h => if_pos h, fun h => if_neg (by omega)⟩
  | true =>
    obtain ⟨hhere, hothers, hhost, hmem⟩ := Dev.runBurst_fails hchan hbad
    exact ⟨_, _, hexec, rfl, hhere, hhost.trans haged.host, rfl, rfl, rfl, rfl, fun j hj => (congrArg Chan.ageless (hothers j hj)).trans (haged.chans j),
      fun h => (nomatch h), fun _ => ⟨rfl, rfl, rfl, rfl, fun a ha => (hmem a ha).trans (by rw [haged.mem])⟩⟩

/-- Settles O52: each register, event and burst by the rule of its operation. -/
theorem channelsMoveTheirRings : Obligations.ChannelsMoveTheirRings := by
  intro s d k c hd hc
  subst hd hc
  refine ⟨fun port set hset hlink hk => ⟨fun hown => channelWrites_foreign hlink hk hown, fun hown => ?_, fun hdead hrel hwb hfail => ?_⟩,
    fun q f p h hk hcmd => ⟨fun hown => channelRelease_foreign h hk hown, fun hown =>
      ⟨fun hst hcur => channelRelease_rests h hk hown hcmd hst hcur, fun hst => channelRelease_pauses h hk hown hcmd hst⟩⟩,
    ?burst, ?back, fun hwb => ?_, fun hfence => ?_, ?fault, fun hfail st addr => moverFault_idle hfail st addr, ?timeout⟩
  case burst =>
    rintro e flips aged x b w hdead he hruns hcp hnext hx rfl rfl
    exact moverBurst_serves hdead he hruns hcp hnext hx
  case back =>
    intro x hdead hcur hlast t ht
    obtain ⟨hchan, hmem, hirqs⟩ := Dev.passHead_last rfl hcur hlast
    refine ⟨_, exec_passHead hdead ht, rfl, hchan, ?_, fun a ha => ?_, hirqs⟩
    · dsimp only
      rw [hmem, rdNat_wrNat, backWord_eq, show 256 ^ 4 = 2 ^ 32 from by norm_num]
    · dsimp only
      rw [hmem, rdByte_wrNat_other _ _ _ _ _ ha]
  case fault =>
    intro st a addr x hdead hfail ha hcur hst haddr _
    obtain ⟨kind, hexec⟩ := moverFault_fails hdead hfail ha haddr
    obtain ⟨hchan, hmem⟩ := Dev.chanFail_fails (st := st) (addr := addr) (kind := kind) rfl hcur hst
    refine ⟨_, hexec, rfl, ?_, ?_, ?_, ?_, ?_, ?_, fun b hb => ?_⟩
    iterate 5
      dsimp only
      rw [hchan]
    · dsimp only
      rw [hmem, rdNat_wrNat, backWord_eq, show 256 ^ 4 = 2 ^ 32 from by norm_num]
    · dsimp only
      rw [hmem, rdByte_wrNat_other _ _ _ _ _ hb]
  case timeout =>
    intro x hdead hx hst hfail hhost
    obtain ⟨hearly, hlate⟩ := hostTransferTimeout_acts hdead hx hst hfail hhost
    refine ⟨hearly, fun h => ?_⟩
    obtain ⟨addr, hexec⟩ := hlate h
    obtain ⟨y, hcur⟩ := Chan.cur_of_xfer hx
    obtain ⟨hchan, -⟩ := Dev.chanFail_fails (st := 5) (addr := addr) (kind := 0) rfl hcur (by omega)
    refine ⟨_, hexec, rfl, ?_, ?_, ?_, ?_⟩
    iterate 4
      dsimp only
      rw [hchan]
  · simp only [hset]
    refine ⟨fun v hv hin hrest => channelTail_sets hlink hk hown hv hin hrest, fun v hv hout hcur hst => ?_, fun hst hring => ?_,
      fun hst hring => ⟨fun hempty => ?_, ?_⟩, fun hst => channelPause_pauses hlink hk hown hst, fun hst => channelPause_idle hlink hk hown hst,
      fun x hst hcur => ?_, fun hst => channelResume_idle hlink hk hown hst, fun hst hempty => channelRetry_retries hlink hk hown hst hempty,
      fun hst => ⟨channelRetry_idle hlink hk hown hst, channelSkip_idle hlink hk hown hst⟩,
      fun hst hheld hlast => channelSkip_skips hlink hk hown hst hheld hlast, fun hst => channelReset_idle hlink hk hown hst,
      fun hst => channelReset_resets hlink hk hown hst⟩
    · obtain ⟨hhere, hothers, hmem⟩ := s.dev.chanError_sets k 6
      exact ⟨_, channelTail_faults hlink hk hown hv hout hcur hst, rfl, hmem, hhere, hothers⟩
    · obtain ⟨hhere, -, hmem⟩ := s.dev.chanError_sets k 6
      exact ⟨_, channelStart_faults hlink hk hown hst hring, rfl, hmem, hhere⟩
    · rw [channelStart_runs hlink hk hown hst hring, Dev.takeNext_upd (.inr (.inr hempty))]
      rfl
    · intro a x ha hx hheld hcur hback hclean
      exact ⟨_, channelStart_runs hlink hk hown hst hring, rfl, Dev.start_takes ha hx hheld hcur hback hclean rfl⟩
    · obtain ⟨hhere, hothers, hmem⟩ := Dev.SetsChan.upd s.dev k (fun c => c.resume s.dev.plat.now)
      have hrow := congrArg Chan.row hhere
      have hoff := congrArg Chan.off hhere
      exact ⟨_, channelResume_resumes hlink hk hown hst hcur, rfl, hmem, congrArg Chan.st hhere, (congrArg Chan.cur hhere).trans hcur,
        hrow, hoff, hothers⟩
  · simp only [hset]
    exact channelQuiesced_settles hdead hrel hwb hfail
  · exact workEvent_of_cannot _ (by simp [hwb])
  · exact workEvent_of_cannot _ (by simp [hfence])

end Sys2Proof.Machine
end

