-- ==== Sys2Proof/Proofs/TraceState.lean ====
section
/-! PROOFS. Replies leave trace and dumps, commands leave the buffers that do not capture, and the controller's own request rests on power and time. -/

namespace Sys2Proof.Machine

/-! ## Replies leave trace and dumps -/

@[simp] theorem Dev.post_obs (d : Dev) (q : Nat) (es : List Nat) : (d.post q es).obs = d.obs := by
  unfold Dev.post
  dsimp only
  split <;> rfl

theorem Dev.flushGo_obs : ∀ (ws : List SlotReply) (d : Dev), (Dev.flushGo ws d).obs = d.obs := by
  intro ws
  induction ws with
  | nil => exact fun _ => rfl
  | cons w ws ih =>
    intro d
    unfold Dev.flushGo
    dsimp only
    split
    · exact ih d
    · split
      · exact ih d
      · exact (ih _).trans (Dev.post_obs ..)

@[simp] theorem Dev.flush_obs (d : Dev) : d.flush.obs = d.obs := by
  unfold Dev.flush
  split
  · rfl
  · exact Dev.flushGo_obs _ _

theorem Dev.accept_obs (d : Dev) (c : Cmd) : (d.accept c).obs = d.obs := by
  unfold Dev.accept
  split
  · rfl
  · exact Dev.post_obs ..

theorem Dev.refuse_obs (d : Dev) (q : Nat) (p : Packet) (status detail : Nat) (ext : List Nat) : (d.refuse q p status detail ext).obs = d.obs :=
  Dev.post_obs ..

theorem Dev.settle_obs : ∀ (n : Nat) (d : Dev), (Dev.settle n d).obs = d.obs := by
  intro n
  induction n with
  | zero => exact fun _ => rfl
  | succ n ih =>
    intro d
    unfold Dev.settle
    split
    · exact ih _
    · split
      · rfl
      · split
        · rfl
        · split
          · rfl
          · split
            · exact (ih _).trans (Dev.refuse_obs ..)
            · exact (ih _).trans (Dev.refuse_obs ..)

@[simp] theorem Dev.settled_obs (d : Dev) : d.settled.obs = d.obs := Dev.settle_obs _ d

/-! ## Buffers that take no record -/

/-- Dropped records count in their own buffers alone. -/
theorem Dev.dropFors_buf {n : Nat} : ∀ (bs : List Nat) (d : Dev), n ∉ bs → (bs.foldl Dev.dropFor d).obs.buf n = d.obs.buf n
  | [], _, _ => rfl
  | b :: bs, d, h => by
    obtain ⟨hb, hbs⟩ := not_or.1 (mt List.mem_cons.2 h)
    rw [List.foldl_cons, Dev.dropFors_buf bs _ hbs, Dev.dropFor, Obs.buf_updBuf, if_neg hb]

/-- A trace record leaves a buffer that does not take it. -/
theorem Dev.trace_buf (d : Dev) (type die unit id arg0 arg1 : Nat) {n : Nat} (h : (d.obs.buf n).takes (traceSource type) = false) :
    (d.trace type die unit id arg0 arg1).obs.buf n = d.obs.buf n := by
  have hout : n ∉ d.obs.takers type := fun hmem => by simp [(List.mem_filter.mp hmem).2] at h
  unfold Dev.trace
  split
  · rfl
  · split
    · exact Dev.dropFors_buf _ _ hout
    · rfl

/-- Between `a` and `b` the buffers that do not capture stay as they are. -/
structure Dev.KeepsBufs (a b : Dev) : Prop where
  idle : ∀ n, (a.obs.buf n).armed = false → b.obs.buf n = a.obs.buf n

namespace Dev.KeepsBufs
variable {a b c : Dev}

theorem of_obs (h : b.obs = a.obs) : a.KeepsBufs b := ⟨fun n _ => by rw [h]⟩

theorem refl (d : Dev) : d.KeepsBufs d := of_obs rfl

theorem trans (h : a.KeepsBufs b) (h' : b.KeepsBufs c) : a.KeepsBufs c :=
  ⟨fun n hn => (h'.idle n (by rw [h.idle n hn]; exact hn)).trans (h.idle n hn)⟩

theorem trace (d : Dev) (type die unit id arg0 arg1 : Nat) : d.KeepsBufs (d.trace type die unit id arg0 arg1) :=
  ⟨fun n hn => d.trace_buf type die unit id arg0 arg1 (by simp [TraceBuf.takes, hn])⟩

theorem emitFinal (d : Dev) (c : Cmd) (status detail : Nat) (ext : List Nat) : d.KeepsBufs (d.emitFinal c status detail ext) := by
  unfold Dev.emitFinal
  dsimp only
  have htrace : d.KeepsBufs ({ d with host := d.host.retire c }.trace 6 4 c.traceUnit c.pkt.tag (status + 2 ^ 16 * detail) 0) :=
    (of_obs rfl : d.KeepsBufs { d with host := d.host.retire c }).trans (trace ..)
  split
  · exact htrace.trans (of_obs (by simp))
  · exact htrace.trans (of_obs (by simp))

theorem finish (d : Dev) (id status detail : Nat) (ext : List Nat) : d.KeepsBufs (d.finish id status detail ext) := by
  unfold Dev.finish
  split
  · exact refl d
  · rename_i c _
    extract_lets missed inst
    have hmiss : d.KeepsBufs (if missed = true then { d with cad := d.cad.miss 63 8 true c.pkt.tag inst 0 d.plat.now } else d) := by
      split
      · exact of_obs rfl
      · exact refl d
    split
    split
    · exact hmiss.trans (of_obs rfl)
    · exact hmiss.trans (emitFinal ..)

theorem finishAll (d : Dev) (ids : List Nat) (status : Nat) : d.KeepsBufs (d.finishAll ids status) :=
  foldl_keeps (fun e => d.KeepsBufs e) _ (fun _ _ he => he.trans (finish ..)) ids d (refl d)

theorem acceptId (d : Dev) (id : Nat) : d.KeepsBufs (d.acceptId id) := by
  unfold Dev.acceptId
  split
  · exact of_obs (d.accept_obs _)
  · exact refl d

theorem cancelPend (d : Dev) (id : Nat) : d.KeepsBufs (d.cancelPend id) := by
  unfold Dev.cancelPend
  refine trans ?_ (finishAll ..)
  exact of_obs rfl

theorem traceDoms (d : Dev) (old : Pow) : d.KeepsBufs (d.traceDoms old) := by
  unfold Dev.traceDoms
  split
  · exact refl d
  · refine foldl_keeps (fun e => d.KeepsBufs e) _ (fun e id he => ?_) _ d (refl d)
    split
    · exact he
    · exact he.trans (trace ..)

theorem reqOn1 (d : Dev) (id cmd : Nat) : d.KeepsBufs (d.reqOn1 id cmd) := by
  unfold Dev.reqOn1
  extract_lets d1 x
  have h1 : d.KeepsBufs d1 := by
    unfold d1
    split
    · exact cancelPend d id
    · exact refl d
  clear_value d1
  refine h1.trans ?_
  split
  · refine trans ?_ (acceptId _ cmd)
    exact of_obs rfl
  · split
    · refine trans ?_ (traceDoms _ d1.pow)
      exact of_obs rfl
    · split
      · exact of_obs rfl
      · split
        · exact finish ..
        · refine trans ?_ (acceptId _ cmd)
          exact of_obs rfl

theorem demand (d : Dev) (id : Nat) (hroot : parentOf id = none) : d.KeepsBufs (d.demand id) := by
  unfold Dev.demand Dev.reqOn
  dsimp only
  rw [hroot]
  split
  · exact reqOn1 ..
  · exact refl d

end Dev.KeepsBufs

/-! ## The controller's own request rests on power and time alone -/

theorem Dev.cancelPend_pow (d : Dev) (id : Nat) : (d.cancelPend id).pow = d.pow.upd id (fun x => { x with pendOn := false, pendOff := false, pendCmds := [] }) :=
  (Dev.finishAll_replied ..).pow

theorem Dev.reqOn1_pow_congr {a b : Dev} (hpow : b.pow = a.pow) (hplat : b.plat = a.plat) (id cmd : Nat) : (b.reqOn1 id cmd).pow = (a.reqOn1 id cmd).pow := by
  have hbody : ∀ c : Dev, (c.reqOn1 id cmd).pow =
      let e := if (c.pow.dom id).pendOff then c.cancelPend id else c
      if (e.pow.dom id).pendOn then e.pow.upd id (fun x => { x with pendCmds := reqCmd x.pendCmds cmd })
      else if (e.pow.dom id).st = 0 then (e.pow.upd id (fun x => { x with wantUp := true, onCmds := reqCmd x.onCmds cmd })).tryUp e.plat.now id
      else if (e.pow.dom id).st = 1 then e.pow.upd id (fun x => { x with onCmds := reqCmd x.onCmds cmd })
      else if (e.pow.dom id).st = 2 then e.pow
      else e.pow.upd id (fun x => { x with pendOn := true, pendCmds := reqCmd x.pendCmds cmd }) := by
    intro c
    unfold Dev.reqOn1
    extract_lets e x
    clear_value e
    split
    · exact (Dev.acceptId_replied ..).pow
    · split
      · exact (Dev.traceDoms_replied ..).pow
      · split
        · rfl
        · split
          · exact (Dev.finish_replied ..).pow
          · exact (Dev.acceptId_replied ..).pow
  rw [hbody, hbody, hpow]
  have hfirst : ∀ p : Bool, ((if p then b.cancelPend id else b).pow = (if p then a.cancelPend id else a).pow) ∧
      ((if p then b.cancelPend id else b).plat.now = (if p then a.cancelPend id else a).plat.now) := by
    intro p
    cases p with
    | false => exact ⟨hpow, congrArg Plat.now hplat⟩
    | true =>
      refine ⟨by simp only [if_true, Dev.cancelPend_pow, hpow], ?_⟩
      have hnow : ∀ c : Dev, (c.cancelPend id).plat = c.plat := fun c => (Dev.finishAll_replied ..).plat
      simp only [if_true, hnow, hplat]
  obtain ⟨hp, hn⟩ := hfirst (a.pow.dom id).pendOff
  dsimp only
  rw [hp, hn]

theorem Dev.demand_pow_congr {a b : Dev} (hpow : b.pow = a.pow) (hplat : b.plat = a.plat) {id : Nat} (hroot : parentOf id = none) :
    (b.demand id).pow = (a.demand id).pow := by
  unfold Dev.demand Dev.reqOn
  dsimp only
  rw [hroot, hpow]
  split
  · exact Dev.reqOn1_pow_congr hpow hplat id 0
  · exact hpow

end Sys2Proof.Machine
end

