-- ==== Sys2Proof/Proofs/LatchSetsAndBuffers.lean ====
section
/-! PROOFS. Latch sets are defined, trace buffers armed and stopped (R519, R521, R527; O53). -/

namespace Sys2Proof.Machine

/-! ## Trace state of devices that differ by replies -/

/-- Records held, dumps and buffers change alike. -/
theorem Dev.Replied.withObs {a b : Dev} (h : a.Replied b) {o o' : Obs} (hrecs : o'.recs = o.recs) (hdumps : o'.dumps = o.dumps)
    (hbufs : ∀ n, (o'.buf n).setup = (o.buf n).setup) : ({ a with obs := o } : Dev).Replied { b with obs := o' } where
  quiet := by
    show { b.quiet with obs := ({ o' with bufs := [], queue := [] } : Obs) } = { a.quiet with obs := ({ o with bufs := [], queue := [] } : Obs) }
    rw [h.quiet, hrecs, hdumps]
  setup := h.setup
  mem := h.mem
  ctr := h.ctr
  bufs := hbufs

theorem Obs.buf_set (o : Obs) (k n : Nat) (x : TraceBuf) : Obs.buf { o with bufs := Tab.set {} o.bufs k x } n = if n = k then x else o.buf n :=
  Tab.get_set ..

/-- A buffer begins afresh. -/
theorem Dev.Replied.setBuf {a b : Dev} (h : a.Replied b) (k : Nat) (x : TraceBuf) :
    ({ a with obs := { a.obs with bufs := Tab.set {} a.obs.bufs k x } } : Dev).Replied { b with obs := { b.obs with bufs := Tab.set {} b.obs.bufs k x } } := by
  refine h.withObs h.recs h.dumps fun n => ?_
  rw [Obs.buf_set, Obs.buf_set]
  split
  · rfl
  · exact h.bufs n

/-- A TRACE_STOP begins. -/
theorem Dev.Replied.stopsBuf {a b : Dev} (h : a.Replied b) (k cmd : Nat) :
    (a.updBuf k (fun x => { x with stopCmd := cmd })).Replied (b.updBuf k (fun x => { x with stopCmd := cmd })) := by
  refine h.withObs h.recs h.dumps fun n => ?_
  refine (congrArg TraceBuf.setup (Obs.buf_updBuf b k n (fun x => { x with stopCmd := cmd }))).trans
    (.trans ?_ (congrArg TraceBuf.setup (Obs.buf_updBuf a k n (fun x => { x with stopCmd := cmd }))).symm)
  split
  · exact congrArg (fun x : TraceBuf => { x with stopCmd := cmd }) (h.bufs k)
  · exact h.bufs n

/-- A buffer is free again and no record waits for it. -/
theorem Dev.Replied.dropsBuf {a b : Dev} (h : a.Replied b) (k : Nat) :
    ({ a with obs := { a.obs with bufs := Tab.set {} a.obs.bufs k {}, recs := withoutBuf k a.obs.recs } } : Dev).Replied
      { b with obs := b.obs.dropBuf k } := by
  refine h.withObs (congrArg (withoutBuf k) h.recs) h.dumps fun n => ?_
  rw [Obs.buf, Obs.buf, Obs.dropBuf, Tab.get_set, Tab.get_set]
  split
  · rfl
  · exact h.bufs n

/-- Registers of a buffer that replies leave. -/
theorem Dev.Replied.upCmd {a b : Dev} (h : a.Replied b) (n : Nat) : (b.obs.buf n).upCmd = (a.obs.buf n).upCmd := by
  have hup := congrArg TraceBuf.upCmd (h.bufs n)
  exact hup

theorem Dev.Replied.liveBusy {a b : Dev} (h : a.Replied b) : b.liveBusy = a.liveBusy := by
  unfold Dev.liveBusy
  rw [h.streams]

/-! ## LATCH_SET_DEFINE (R519) -/

theorem exec_latchSetDefine (q set : Nat) (counters : List Nat) (s : State) : exec (.latchSetDefine q set counters) s = execLatchSetDefine q set counters s := rfl
theorem exec_traceArm (q b src dest len : Nat) (s : State) : exec (.traceArm q b src dest len) s = execTraceArm q b src dest len s := rfl
theorem exec_traceStop (q b : Nat) (s : State) : exec (.traceStop q b) s = execTraceStop q b s := rfl

/-- The fields of LATCH_SET_DEFINE are those of its check. -/
theorem latchFields_ok {lay counters : List Nat} :
    (∀ x ∈ counters, counterIdOk x = true) → ∀ c ∈ counters.zipIdx.map (fun (c, i) => (counterIdOk c, fieldByte lay (i + 1))), c.1 = true := by
  intro hok c hc
  obtain ⟨⟨x, i⟩, hx, rfl⟩ := List.mem_map.mp hc
  exact hok x (List.fst_mem_of_mem_zipIdx hx)

theorem latchFields_bad {lay counters : List Nat} (h : ∃ x ∈ counters, counterIdOk x = false) :
    ∃ c ∈ counters.zipIdx.map (fun (c, i) => (counterIdOk c, fieldByte lay (i + 1))), c.1 = false := by
  obtain ⟨x, hx, hbad⟩ := h
  obtain ⟨i, hi, rfl⟩ := List.getElem_of_mem hx
  exact ⟨_, List.mem_map.mpr ⟨(counters[i], i), List.mk_mem_zipIdx_iff_getElem?.mpr (List.getElem?_eq_getElem hi), rfl⟩, hbad⟩

section
variable {s : State} {q set : Nat} {counters : List Nat} {f : PacketForm} {p : Packet} (h : s.Admits (.latchSetDefine q set counters) f p)
include h

theorem latchSetDefine_defines (hset : set ≤ 63) (hok : ∀ x ∈ counters, counterIdOk x = true) :
    Res.Becomes s { s.dev with host := { s.dev.host with
      latchSets := Tab.set [] s.dev.host.latchSets set (if counters = List.replicate 16 0xFFFF then [] else counters) } } (exec (.latchSetDefine q set counters) s) := by
  cases h.form
  rw [exec_latchSetDefine, execLatchSetDefine]
  refine h.doneBy rfl ⟨firstBadField_none fun c hc => ?_, rfl, rfl⟩
    ((s.dev.begin__replied q p).mapHost (fun g => { g with latchSets := Tab.set [] g.latchSets set (if counters = List.replicate 16 0xFFFF then [] else counters) })
      (fun _ => rfl) (fun _ => rfl))
  rcases List.mem_cons.mp hc with rfl | hc
  · exact decide_eq_true hset
  · exact latchFields_ok hok c hc

theorem latchSetDefine_refuses (hbad : 63 < set ∨ ∃ x ∈ counters, counterIdOk x = false) :
    Res.Becomes s s.dev (exec (.latchSetDefine q set counters) s) := by
  cases h.form
  rw [exec_latchSetDefine, execLatchSetDefine]
  refine h.toFronts.refusedBy (.inl (firstBadField_some ?_))
  rcases hbad with hset | hbad
  · exact ⟨_, List.mem_cons_self, decide_eq_false (by omega)⟩
  · obtain ⟨c, hc, hf⟩ := latchFields_bad hbad
    exact ⟨c, List.mem_cons_of_mem _ hc, hf⟩

end

/-! ## TRACE_ARM (R521) -/

/-- The controller's own request for a domain without a parent changes power and counters alone, but for replies. -/
theorem Dev.demand_replied (d : Dev) {id : Nat} (hroot : parentOf id = none) : ∃ w c, ({ d with pow := w, ctr := c } : Dev).Replied (d.demand id) := by
  unfold Dev.demand Dev.reqOn
  dsimp only
  rw [hroot]
  split
  · have hd := Dev.SetsDom.of_replied (Dev.Replied.refl d) id
    cases hoff : (d.pow.dom id).pendOff with
    | false =>
      obtain ⟨-, w, -, hrep⟩ := hd.reqOn1 0 hoff
      exact ⟨_, _, hrep⟩
    | true =>
      obtain ⟨-, w, -, hrep⟩ := hd.reqOn1_cancels 0 hoff
      exact ⟨_, _, hrep⟩
  · exact ⟨d.pow, d.ctr, .refl d⟩

/-- The record of TRACE_ARM passes its checks. -/
theorem traceFields_ok {d : Dev} {src a len i j k : Nat} (hsrc : bits src 11 20 = 0) (halign : a % 64 = 0) (hroom : d.unwritable a len = none)
    (hpages : len % 4096 = 0) (hlen : 65536 ≤ len) : firstBadField [(bits src 11 20 == 0, i), (a % 64 == 0 && (d.unwritable a len).isNone, j),
      (len % 4096 == 0 && 65536 ≤ len, k)] = none :=
  firstBadField_none (by simp [hsrc, halign, hroom, hpages, hlen])

theorem traceFields_bad {d : Dev} {src a len i j k : Nat}
    (h : bits src 11 20 ≠ 0 ∨ a % 64 ≠ 0 ∨ d.unwritable a len ≠ none ∨ len % 4096 ≠ 0 ∨ len < 65536) :
    firstBadField [(bits src 11 20 == 0, i), (a % 64 == 0 && (d.unwritable a len).isNone, j), (len % 4096 == 0 && 65536 ≤ len, k)] ≠ none := by
  refine firstBadField_some ?_
  simpa [Option.isSome_iff_ne_none, imp_iff_not_or, or_assoc] using h

section
variable {s : State} {q b src dest len : Nat} {f : PacketForm} {p : Packet} (h : s.Admits (.traceArm q b src dest len) f p)
include h

/-- A wrong record, and a claimed buffer, are refused; one that the port holds stays as it is. -/
theorem traceArm_refuses (hbad : bits src 11 20 ≠ 0 ∨ dest % 2 ^ 48 % 64 ≠ 0 ∨ s.dev.unwritable (dest % 2 ^ 48) len ≠ none ∨ len % 4096 ≠ 0 ∨ len < 65536 ∨
    s.dev.host.own (0x18 + b) ≠ 0) : Res.Becomes s s.dev (exec (.traceArm q b src dest len) s) := by
  have hbegun := s.dev.begin__replied q p
  cases h.form
  rw [exec_traceArm, execTraceArm]
  dsimp only
  by_cases hfields : bits src 11 20 ≠ 0 ∨ dest % 2 ^ 48 % 64 ≠ 0 ∨ s.dev.unwritable (dest % 2 ^ 48) len ≠ none ∨ len % 4096 ≠ 0 ∨ len < 65536
  · exact h.toFronts.refusedBy (.inl (traceFields_bad hfields))
  · have hheld : s.dev.host.own (0x18 + b) ≠ 0 := by tauto
    by_cases hmine : s.dev.host.own (0x18 + b) = q / 8 + 1
    · push Not at hfields
      obtain ⟨hsrc, halign, hroom, hpages, hlen⟩ := hfields
      refine h.becomes rfl ⟨traceFields_ok hsrc halign hroom hpages hlen, HostIf.claimRefusal_mine (.inr hmine), rfl⟩ ?_
      dsimp only
      rw [hbegun.own, if_pos (by simpa using hheld)]
      exact hbegun.trans (Dev.finish_replied ..)
    · refine h.toFronts.refusedBy (.inr ?_)
      dsimp only
      rw [HostIf.claimRefusal_other hheld hmine]
      exact Option.some_ne_none _

section
variable (hsrc : bits src 11 20 = 0) (halign : dest % 2 ^ 48 % 64 = 0) (hroom : s.dev.unwritable (dest % 2 ^ 48) len = none) (hpages : len % 4096 = 0)
  (hlen : 65536 ≤ len) (hfree : s.dev.host.own (0x18 + b) = 0)
include hsrc halign hroom hpages hlen hfree

/-- A free buffer with domain 83 ON captures at once. -/
theorem traceArm_captures (hon : s.dev.pow.on 83 = true) : Res.Becomes s { s.dev with
    host := s.dev.host.setOwner (0x18 + b) (q / 8 + 1)
    obs := { s.dev.obs with bufs := Tab.set {} s.dev.obs.bufs b { armed := true, sources := src, dest := dest % 2 ^ 48, len := len } } }
    (exec (.traceArm q b src dest len) s) := by
  have hbegun := s.dev.begin__replied q p
  cases h.form
  rw [exec_traceArm, execTraceArm]
  dsimp only
  refine h.becomes rfl ⟨traceFields_ok hsrc halign hroom hpages hlen, HostIf.claimRefusal_mine (.inl hfree), rfl⟩ ?_
  dsimp only
  rw [hbegun.own, hfree, if_neg (by simp), show (s.dev.begin_ q p).1.pow.on 83 = true from hbegun.pow ▸ hon, if_pos rfl]
  exact ((hbegun.setBuf b _).setOwner (0x18 + b) (q / 8 + 1)).trans (Dev.finish_replied ..)

/-- The buffer that waits for domain 83. -/
def Dev.armLater (d : Dev) (b port src dest len cmd : Nat) : Dev := { d with
  host := d.host.setOwner (0x18 + b) (port + 1)
  obs := { d.obs with bufs := Tab.set {} d.obs.bufs b { armed := false, sources := src, dest := dest, len := len, upCmd := cmd } } }

theorem exec_traceArm_waits (hoff : s.dev.pow.on 83 = false) : exec (.traceArm q b src dest len) s =
    .next { s with dev := (((s.dev.begin_ q p).1.armLater b (q / 8) src (dest % 2 ^ 48) len s.dev.host.nextCmd).demand 83).settled } := by
  have hbegun := s.dev.begin__replied q p
  cases h.form
  rw [exec_traceArm, execTraceArm]
  dsimp only
  rw [h.starts rfl ⟨traceFields_ok hsrc halign hroom hpages hlen, HostIf.claimRefusal_mine (.inl hfree), rfl⟩]
  dsimp only
  rw [hbegun.own, hfree, if_neg (by simp), show (s.dev.begin_ q p).1.pow.on 83 = false from hbegun.pow ▸ hoff, if_neg (by simp),
    if_neg (by simp), Dev.begin_id]
  rfl

/-- A free buffer with domain 83 not ON is the port's, waits, and asks for the domain. -/
theorem traceArm_waits (hoff : s.dev.pow.on 83 = false) : ∃ t : State, exec (.traceArm q b src dest len) s = .next t ∧ t.pending = s.pending ∧
    t.dev.host.own (0x18 + b) = q / 8 + 1 ∧ t.dev.pow = (s.dev.demand 83).pow ∧
    t.dev.obs.buf b = { armed := false, sources := src, dest := dest % 2 ^ 48, len := len, upCmd := s.dev.host.nextCmd } ∧
    (∀ n, n ≠ b → (t.dev.obs.buf n).setup = (s.dev.obs.buf n).setup) := by
  have hbegun := s.dev.begin__replied q p
  refine ⟨_, exec_traceArm_waits h hsrc halign hroom hpages hlen hfree hoff, rfl, ?_⟩
  generalize hu : (s.dev.begin_ q p).1.armLater b (q / 8) src (dest % 2 ^ 48) len s.dev.host.nextCmd = u
  have hbuf : ∀ n, u.obs.buf n = if n = b then { armed := false, sources := src, dest := dest % 2 ^ 48, len := len, upCmd := s.dev.host.nextCmd }
      else (s.dev.begin_ q p).1.obs.buf n := fun n => hu ▸ Obs.buf_set ..
  have hmine : u.obs.buf b = { armed := false, sources := src, dest := dest % 2 ^ 48, len := len, upCmd := s.dev.host.nextCmd } := (hbuf b).trans (if_pos rfl)
  have hpow : u.pow = s.dev.pow := hu ▸ hbegun.pow
  have hplat : u.plat = s.dev.plat := hu ▸ hbegun.plat
  obtain ⟨w, c, hdemand⟩ := u.demand_replied (id := 83) (by decide)
  have hsettled := (u.demand 83).settled_replied
  have hall := hdemand.trans hsettled
  have hown : u.host.own (0x18 + b) = q / 8 + 1 := hu ▸ (HostIf.own_setOwner ..).trans (if_pos rfl)
  refine ⟨(hall.own (0x18 + b)).trans hown, ?_, ?_, fun n hn => (hall.bufs n).trans ?_⟩
  · exact hsettled.pow.trans (Dev.demand_pow_congr hpow hplat (by decide))
  · rw [Dev.settled_obs, (Dev.KeepsBufs.demand u 83 (by decide)).idle b (by rw [hmine]), hmine]
  · show (u.obs.buf n).setup = _
    rw [hbuf, if_neg hn]
    exact hbegun.bufs n

end

end

/-! ## TRACE_STOP (R527) -/

/-- The device whose buffer has been released. -/
def Dev.freeBuf (d : Dev) (b : Nat) : Dev := { d with
  host := d.host.setOwner (0x18 + b) 0
  obs := { d.obs with bufs := Tab.set {} d.obs.bufs b {}, recs := withoutBuf b d.obs.recs } }

/-- The device whose buffer has been released with its head written. -/
def Dev.closeBuf (d : Dev) (b : Nat) (x : TraceBuf) : Dev := { d.freeBuf b with
  mem := wrBytes d.mem x.dest (leBytes 64 x.head)
  poison := setBad d.poison x.dest false 64
  pow := d.pow.idle 83 d.plat.now }

theorem Dev.Replied.closesBuf {a b : Dev} (h : a.Replied b) (k : Nat) (x : TraceBuf) : (a.closeBuf k x).Replied
    { b with mem := wrBytes b.mem x.dest (leBytes 64 x.head), poison := setBad b.poison x.dest false 64, obs := b.obs.dropBuf k,
             host := b.host.setOwner (0x18 + k) 0, pow := b.pow.idle 83 b.plat.now } := by
  have hstored : (a.storeNat x.dest 64 x.head).Replied (b.storeNat x.dest 64 x.head) := h.storeNat ..
  have hmap := ((hstored.dropsBuf k).setOwner (0x18 + k) 0).map (fun d => { d with pow := d.pow.idle 83 d.plat.now })
    (fun _ => rfl) (fun _ => rfl) (fun _ => rfl) (fun _ => rfl) (fun _ => rfl)
  have hput : ∀ d : Dev, d.storeNat x.dest 64 x.head = { d with mem := wrBytes d.mem x.dest (leBytes 64 x.head), poison := setBad d.poison x.dest false 64 } :=
    fun d => by simp [Dev.storeNat, Dev.store, Dev.put]
  simp only [hput] at hmap
  exact hmap

/-- A buffer that no record waits for is closed at once, and the command is DONE. -/
theorem Dev.stopTrace_empty {d : Dev} {b : Nat} (hnone : ∀ r ∈ d.obs.recs ++ d.obs.queue, b ∉ r.bufs) : d.stopTrace b =
    ({ d with
      mem := wrBytes d.mem (d.obs.buf b).dest (leBytes 64 (d.obs.buf b).head)
      poison := setBad d.poison (d.obs.buf b).dest false 64
      obs := d.obs.dropBuf b, host := d.host.setOwner (0x18 + b) 0, pow := d.pow.idle 83 d.plat.now } : Dev).finish (d.obs.buf b).stopCmd stDone 0 [] := by
  have hfilter : (d.obs.recs ++ d.obs.queue).filter (fun r => r.bufs.contains b) = [] := by
    refine List.filter_eq_nil_iff.2 fun r hr => ?_
    simpa using hnone r hr
  unfold Dev.stopTrace
  dsimp only
  rw [hfilter]
  simp [Dev.putHead, Dev.storeNat, Dev.store, Dev.put]

theorem Obs.dropBuf_updBuf (d : Dev) (b : Nat) (g : TraceBuf → TraceBuf) : (d.updBuf b g).obs.dropBuf b = d.obs.dropBuf b := by
  unfold Obs.dropBuf Dev.updBuf
  rw [Tab.clear_upd]

/-- The same for a buffer whose stop has just begun. -/
theorem Dev.stopTrace_updBuf {d : Dev} {b cmd : Nat} (hnone : ∀ r ∈ d.obs.recs ++ d.obs.queue, b ∉ r.bufs) :
    (d.updBuf b (fun x => { x with stopCmd := cmd })).stopTrace b =
    ({ d with
      mem := wrBytes d.mem (d.obs.buf b).dest (leBytes 64 (d.obs.buf b).head)
      poison := setBad d.poison (d.obs.buf b).dest false 64
      obs := d.obs.dropBuf b, host := d.host.setOwner (0x18 + b) 0, pow := d.pow.idle 83 d.plat.now } : Dev).finish cmd stDone 0 [] := by
  have hbuf : (d.updBuf b (fun x => { x with stopCmd := cmd })).obs.buf b = { d.obs.buf b with stopCmd := cmd } := (Obs.buf_updBuf ..).trans (if_pos rfl)
  rw [Dev.stopTrace_empty (d := d.updBuf b _) hnone, Obs.dropBuf_updBuf, hbuf]
  rfl

/-- Records that wait after a trace record has been made select a buffer only where it takes the record. -/
theorem Dev.trace_waits {d : Dev} {type die unit id arg0 arg1 b : Nat} (htakes : (d.obs.buf b).takes (traceSource type) = false)
    (hnone : ∀ r ∈ d.obs.recs ++ d.obs.queue, b ∉ r.bufs) :
    ∀ r ∈ (d.trace type die unit id arg0 arg1).obs.recs ++ (d.trace type die unit id arg0 arg1).obs.queue, b ∉ r.bufs := by
  have hout : b ∉ d.obs.takers type := fun hmem => by simp [(List.mem_filter.mp hmem).2] at htakes
  have hdrop : ∀ (bs : List Nat) (e : Dev), (bs.foldl Dev.dropFor e).obs.recs = e.obs.recs ∧ (bs.foldl Dev.dropFor e).obs.queue = e.obs.queue :=
    fun bs e => foldl_keeps (fun u : Dev => u.obs.recs = e.obs.recs ∧ u.obs.queue = e.obs.queue) Dev.dropFor (fun _ _ hu => hu) bs e ⟨rfl, rfl⟩
  unfold Dev.trace
  split
  · exact hnone
  · split
    · obtain ⟨hrecs, hqueue⟩ := hdrop (d.obs.takers type) (d.count cobInst 0x78 1)
      rw [Dev.dropRec, hrecs, hqueue]
      exact hnone
    · intro r hr
      simp only [List.mem_append, List.mem_singleton] at hr
      rcases hr with hr | hr | rfl
      · exact hnone r (List.mem_append_left _ hr)
      · exact hnone r (List.mem_append_right _ hr)
      · exact hout

section
variable {d : Dev} {q b : Nat} {p : Packet} (htakes : (d.obs.buf b).takes (traceSource 5) = false)
include htakes

/-- The record of a command's start leaves a buffer that does not take it. -/
theorem Dev.begun_buf : (d.begin_ q p).1.obs.buf b = d.obs.buf b := Dev.trace_buf _ _ _ _ _ _ _ htakes

theorem Dev.begun_waits (hnone : ∀ r ∈ d.obs.recs ++ d.obs.queue, b ∉ r.bufs) :
    ∀ r ∈ (d.begin_ q p).1.obs.recs ++ (d.begin_ q p).1.obs.queue, b ∉ r.bufs := Dev.trace_waits (d := { d with host := _ }) htakes hnone

end

section
variable {s : State} {q b : Nat} {f : PacketForm} {p : Packet} (h : s.Admits (.traceStop q b) f p)
include h

theorem traceStop_refuses (hbad : s.dev.host.own (0x18 + b) ≠ q / 8 + 1 ∨ (s.dev.obs.buf b).stopCmd ≠ 0) :
    Res.Becomes s s.dev (exec (.traceStop q b) s) := by
  cases h.form
  rw [exec_traceStop, execTraceStop]
  refine h.toFronts.refusedBy (.inr ?_)
  dsimp only
  by_cases hmine : s.dev.host.own (0x18 + b) = q / 8 + 1
  · rw [HostIf.ownRefusal_own hmine]
    dsimp only
    rw [if_pos (hbad.resolve_left (not_not.2 hmine))]
    exact Option.some_ne_none _
  · cases hown : s.dev.host.ownRefusal (q / 8) (0x18 + b) with
    | none => exact absurd hown (HostIf.ownRefusal_other hmine)
    | some x => exact Option.some_ne_none _

section
variable (hmine : s.dev.host.own (0x18 + b) = q / 8 + 1) (hstop : (s.dev.obs.buf b).stopCmd = 0)
include hmine hstop

/-- What an admitted TRACE_STOP comes to, by what its start does. -/
theorem traceStop_becomes {d : Dev} (heff : d.Replied ((s.dev.begin_ q p).1.beginStop b s.dev.host.nextCmd)) : Res.Becomes s d (exec (.traceStop q b) s) := by
  cases h.form
  rw [exec_traceStop, execTraceStop]
  refine h.becomes rfl ⟨rfl, ?_, rfl⟩ heff
  dsimp only
  rw [HostIf.ownRefusal_own hmine]
  exact if_neg (not_not.2 hstop)

/-- A capture that has not begun ends at once. -/
theorem traceStop_unbegun (hup : (s.dev.obs.buf b).upCmd ≠ 0) : Res.Becomes s (s.dev.freeBuf b) (exec (.traceStop q b) s) := by
  have hbegun := s.dev.begin__replied q p
  refine traceStop_becomes h hmine hstop ?_
  unfold Dev.beginStop
  dsimp only
  rw [if_pos (by rw [hbegun.upCmd]; exact hup)]
  exact (((hbegun.dropsBuf b).setOwner (0x18 + b) 0).trans (Dev.finish_replied ..)).trans (Dev.finish_replied ..)

/-- While a live task is under way the capture ends after it. -/
theorem traceStop_later (hup : (s.dev.obs.buf b).upCmd = 0) (hbusy : s.dev.liveBusy = true) :
    Res.Becomes s (s.dev.updBuf b (fun x => { x with stopCmd := s.dev.host.nextCmd })) (exec (.traceStop q b) s) := by
  have hbegun := s.dev.begin__replied q p
  refine traceStop_becomes h hmine hstop ?_
  unfold Dev.beginStop
  dsimp only
  rw [if_neg (by rw [hbegun.upCmd]; exact not_not.2 hup), if_pos ?_]
  · exact hbegun.stopsBuf b _
  · exact hbegun.liveBusy.trans hbusy

/-- Else, with no record held, the buffer is closed. -/
theorem traceStop_closes (hup : (s.dev.obs.buf b).upCmd = 0) (hfree : s.dev.liveBusy = false) (hsource : bit (s.dev.obs.buf b).sources 2 = false)
    (hnone : ∀ r ∈ s.dev.obs.recs ++ s.dev.obs.queue, b ∉ r.bufs) : Res.Becomes s (s.dev.closeBuf b (s.dev.obs.buf b)) (exec (.traceStop q b) s) := by
  have hbegun := s.dev.begin__replied q p
  refine traceStop_becomes h hmine hstop ?_
  unfold Dev.beginStop
  dsimp only
  rw [if_neg (by rw [hbegun.upCmd]; exact not_not.2 hup), if_neg (fun hbusy => ?_)]
  · refine (hbegun.closesBuf b (s.dev.obs.buf b)).trans ?_
    have hbuf : (s.dev.begin_ q p).1.obs.buf b = s.dev.obs.buf b := Dev.begun_buf (by simp [TraceBuf.takes, traceSource, hsource])
    rw [Dev.stopTrace_updBuf (Dev.begun_waits (by simp [TraceBuf.takes, traceSource, hsource]) hnone), hbuf]
    exact Dev.finish_replied ..
  · have hlive : (s.dev.begin_ q p).1.liveBusy = true := hbusy
    rw [hbegun.liveBusy, hfree] at hlive
    cases hlive

end

end

/-- Settles O53: each command by its checks and by what its start does. -/
theorem latchSetsAndTraceBuffers : Obligations.LatchSetsAndTraceBuffers := by
  rintro s d q b f p x freed rfl hcmd rfl rfl
  refine ⟨fun set counters h => ⟨latchSetDefine_defines h, latchSetDefine_refuses h⟩, fun src dest len a h ha => ?_, fun h => ?_⟩
  · subst ha
    exact ⟨traceArm_refuses h, fun hsrc halign hroom hpages hlen hfree =>
      ⟨traceArm_captures h hsrc halign hroom hpages hlen hfree, traceArm_waits h hsrc halign hroom hpages hlen hfree⟩⟩
  · exact ⟨traceStop_refuses h, fun hmine hstop => ⟨traceStop_unbegun h hmine hstop, traceStop_later h hmine hstop, traceStop_closes h hmine hstop⟩⟩

end Sys2Proof.Machine
end

