-- ==== Sys2Proof/Proofs/TraceRecords.lean ====
section
/-! PROOFS. End latches, and trace records on their way to their buffers (R520 to R527, R534; O54). -/

namespace Sys2Proof.Machine

/-! ## Replies leave the commands in progress -/

@[simp] theorem HostIf.replyIrq_inProg (h : HostIf) (q now : Nat) : (h.replyIrq q now).inProg = h.inProg := by
  unfold HostIf.replyIrq
  dsimp only
  split
  · rfl
  · split <;> split <;> rfl

@[simp] theorem Dev.post_inProg (d : Dev) (q : Nat) (es : List Nat) : (d.post q es).host.inProg = d.host.inProg := by
  unfold Dev.post
  dsimp only
  split
  · rfl
  · exact HostIf.replyIrq_inProg ..

theorem Dev.flushGo_inProg : ∀ (ws : List SlotReply) (d : Dev), (Dev.flushGo ws d).host.inProg = d.host.inProg := by
  intro ws
  induction ws with
  | nil => exact fun _ => rfl
  | cons w ws ih =>
    intro d
    unfold Dev.flushGo
    dsimp only
    split
    · exact ih d
    · split
      · exact ih d
      · exact (ih _).trans (Dev.post_inProg ..)

@[simp] theorem Dev.flush_inProg (d : Dev) : d.flush.host.inProg = d.host.inProg := by
  unfold Dev.flush
  split
  · rfl
  · exact Dev.flushGo_inProg _ _

theorem Dev.settle_inProg : ∀ (n : Nat) (d : Dev), (Dev.settle n d).host.inProg = d.host.inProg := by
  intro n
  induction n with
  | zero => exact fun _ => rfl
  | succ n ih =>
    intro d
    unfold Dev.settle
    split
    · exact ih _
    · split
      · rfl
      · split
        · rfl
        · split
          · rfl
          · split
            · exact (ih _).trans (Dev.post_inProg ..)
            · exact (ih _).trans (Dev.post_inProg ..)

@[simp] theorem Dev.settled_inProg (d : Dev) : d.settled.host.inProg = d.host.inProg := Dev.settle_inProg _ d

/-- A command whose final reply leaves is no more in progress. -/
theorem Dev.emitFinal_inProg (d : Dev) (c : Cmd) (status detail : Nat) (ext : List Nat) :
    (d.emitFinal c status detail ext).host.inProg = d.host.inProg.filter (fun x => x.id != c.id) := by
  unfold Dev.emitFinal
  dsimp only
  split
  · simp [HostIf.retire]
  · simp [HostIf.retire]

/-! ## Records reach the trace unit (R525, R526) -/

/-- A late record goes behind the late ones alone. -/
theorem insertRec_late {y : TraceRec} (hlate : y.late = true) (l : List TraceRec) :
    ∃ l1 l2, insertRec y l = l1 ++ y :: l2 ∧ l = l1 ++ l2 ∧ ∀ z ∈ l1, z.late = true := by
  refine ⟨_, _, rfl, List.takeWhile_append_dropWhile.symm, fun z hz => ?_⟩
  simpa [hlate] using List.mem_takeWhile_imp hz

/-- Any other stands by TIME, then DIE, behind the late ones. -/
theorem insertRec_timely {y : TraceRec} (hlate : y.late = false) (l : List TraceRec) :
    ∃ l1 l2, insertRec y l = l1 ++ y :: l2 ∧ l = l1 ++ l2 ∧ (∀ z ∈ l1, z.late = true ∨ z.time < y.time ∨ (z.time = y.time ∧ z.die ≤ y.die)) ∧
      ∀ z ∈ l2.head?, z.late = false ∧ (y.time < z.time ∨ (y.time = z.time ∧ y.die < z.die)) := by
  refine ⟨_, _, rfl, List.takeWhile_append_dropWhile.symm, fun z hz => ?_, fun z hz => ?_⟩
  · simpa [hlate, or_assoc] using List.mem_takeWhile_imp hz
  · have hstop := List.head?_dropWhile_not (fun x : TraceRec => if y.late then x.late else x.late || x.time < y.time || (x.time == y.time && x.die ≤ y.die)) l
    rw [Option.mem_def.mp hz] at hstop
    obtain ⟨⟨hz, hle⟩, htie⟩ : (z.late = false ∧ y.time ≤ z.time) ∧ (z.time = y.time → y.die < z.die) := by simpa [hlate] using hstop
    exact ⟨hz, (Nat.lt_or_eq_of_le hle).imp_right fun h => ⟨h, htie h.symm⟩⟩

/-- A device whose oldest record of a die has left its queue. -/
def Dev.unqueue (d : Dev) (r : TraceRec) : Dev := { d with obs := { d.obs with queue := d.obs.queue.erase r } }

theorem exec_traceRecord (die : Nat) (s : State) : exec (.traceRecord die) s = eventOpt s (s.dev.traceRecord die) := rfl

/-- A record as the trace unit takes it (R525). -/
def TraceRec.arrives (r : TraceRec) (now : Nat) : TraceRec :=
  { r with late := decide (r.time + 4000 < now), word := setBits r.word 79 1 (if r.time + 4000 < now then 1 else 0) }

section
variable {s : State} {die : Nat}

theorem traceRecord_idle (h : s.dev.pow.runs 83 = false ∨ ∀ r ∈ s.dev.obs.queue, r.die ≠ die) : exec (.traceRecord die) s = .next s := by
  rw [exec_traceRecord, Dev.traceRecord]
  cases hruns : s.dev.pow.runs 83 with
  | false => exact eventOpt_none s
  | true =>
    have hnone : s.dev.obs.queue.find? (fun r => r.die == die) = none :=
      List.find?_eq_none.2 fun r hr => by simpa using h.resolve_left (by simp [hruns]) r hr
    rw [if_pos rfl, hnone]
    exact eventOpt_none s

variable {r : TraceRec} (hdead : s.dev.pow.dead = false) (hruns : s.dev.pow.runs 83 = true)
  (hfirst : s.dev.obs.queue.find? (fun r => r.die == die) = some r)
include hdead hruns hfirst

theorem traceRecord_takes : exec (.traceRecord die) s = .next { s with dev := (s.dev.unqueue r).takeRec r } :=
  eventOpt_of_some hdead (by rw [Dev.traceRecord, if_pos hruns, hfirst]; rfl)

/-- With room in the store the record takes its place. -/
theorem traceRecord_held (hroom : s.dev.obs.recs.length < 32768) : exec (.traceRecord die) s =
    .next { s with dev := { s.dev with obs := { s.dev.obs with queue := s.dev.obs.queue.erase r, recs := insertRec (r.arrives s.dev.plat.now) s.dev.obs.recs } } } := by
  rw [traceRecord_takes hdead hruns hfirst, Dev.takeRec, TraceRec.arrives]
  dsimp only
  rw [if_neg (by exact Nat.not_le.2 hroom)]
  by_cases hlate : r.time + 4000 < s.dev.plat.now <;> simp [Dev.unqueue, b2n, hlate]

/-- A full store drops it. -/
theorem traceRecord_dropped (hfull : 32768 ≤ s.dev.obs.recs.length) :
    exec (.traceRecord die) s = .next { s with dev := (s.dev.unqueue r).dropRec r.bufs } := by
  rw [traceRecord_takes hdead hruns hfirst, Dev.takeRec]
  dsimp only
  rw [if_pos (show 32768 ≤ (s.dev.unqueue r).obs.recs.length from hfull)]

end

/-- A dropped record counts in TRACE_DROP and in its buffers alone. -/
theorem Dev.dropRec_keeps (d : Dev) (bs : List Nat) : (d.dropRec bs).obs.recs = d.obs.recs ∧ (d.dropRec bs).obs.queue = d.obs.queue ∧
    (d.dropRec bs).ctr = bump d.ctr cobInst 0x78 1 ∧ (d.dropRec bs).mem = d.mem :=
  foldl_keeps (fun u : Dev => u.obs.recs = d.obs.recs ∧ u.obs.queue = d.obs.queue ∧ u.ctr = bump d.ctr cobInst 0x78 1 ∧ u.mem = d.mem)
    Dev.dropFor (fun _ _ hu => hu) bs (d.count cobInst 0x78 1) ⟨rfl, rfl, rfl, rfl⟩

theorem Dev.dropFor_dropped (d : Dev) (b : Nat) : ((d.dropFor b).obs.buf b).dropped = ((d.obs.buf b).dropped + 1) % 2 ^ 32 := by
  rw [Dev.dropFor, Obs.buf_updBuf, if_pos rfl]

/-! ## Records are written (R522, R525 to R527) -/

theorem exec_traceRecordWrite (s : State) : exec .traceRecordWrite s = eventOpt s s.dev.traceWrite := rfl

section
variable {s : State} (hdead : s.dev.pow.dead = false) (hfree : s.dev.liveBusy = false) (hruns : s.dev.pow.runs 83 = true) (hmover : s.dev.nextChan 4 = none)

theorem traceWrite_busy (hbusy : s.dev.liveBusy = true) : exec .traceRecordWrite s = .next s := by
  rw [exec_traceRecordWrite, Dev.traceWrite, if_pos (by simp [hbusy])]
  exact eventOpt_none s

include hfree hruns hmover

/-- With no capture to stop, the first record is written once it has been held long enough. -/
theorem Dev.traceWrite_first {r : TraceRec} {rest : List TraceRec} (hstops : ∀ n, n < 4 → (s.dev.obs.buf n).stopCmd = 0) (hrecs : s.dev.obs.recs = r :: rest) :
    s.dev.traceWrite = if r.late || r.time + 4000 ≤ s.dev.plat.now then some (s.dev.writeRec r) else none := by
  have hnone : ([0, 1, 2, 3] : List Nat).find? (fun b => (s.dev.obs.buf b).stopCmd != 0) = none := by
    refine List.find?_eq_none.2 fun b hb => ?_
    have hb4 : b < 4 := by fin_cases hb <;> decide
    simp [hstops b hb4]
  rw [Dev.traceWrite, if_neg (by simp [hfree, hruns, hmover]), hnone, hrecs]

/-- The lowest capture that is to stop stops first. -/
theorem Dev.traceWrite_stop {b : Nat} (hb : b < 4) (hstop : (s.dev.obs.buf b).stopCmd ≠ 0) (hlow : ∀ n, n < b → (s.dev.obs.buf n).stopCmd = 0) :
    s.dev.traceWrite = some (s.dev.stopTrace b) := by
  have hfind : ([0, 1, 2, 3] : List Nat).find? (fun b => (s.dev.obs.buf b).stopCmd != 0) = some b := by
    have hrange : ([0, 1, 2, 3] : List Nat) = List.range 4 := rfl
    rw [hrange, List.find?_range_eq_some]
    exact ⟨by simpa using hstop, by simpa using hb, fun n hn => by simpa using hlow n hn⟩
  rw [Dev.traceWrite, if_neg (by simp [hfree, hruns, hmover]), hfind]

end

/-- The device whose first record has left the store. -/
def Dev.popRec (d : Dev) : Dev := { d with obs := { d.obs with recs := d.obs.recs.tail } }

theorem Dev.popRec_buf (d : Dev) (b : Nat) : d.popRec.obs.buf b = d.obs.buf b := rfl

section
variable {d : Dev} {b : Nat} {r : TraceRec} (hbufs : r.bufs = [b])
include hbufs

/-- A full buffer drops the record. -/
theorem Dev.writeRec_full (hfull : (d.obs.buf b).full = true) : d.writeRec r = (d.popRec.count cobInst 0x78 1).dropFor b := by
  have hwrite : d.writeRec r = r.bufs.foldl (fun d b => d.putRec b r) (if r.bufs.any (fun b => (d.obs.buf b).full) then d.popRec.count cobInst 0x78 1 else d.popRec) := rfl
  have hany : ([b] : List Nat).any (fun b => (d.obs.buf b).full) = true := by rw [List.any_cons, hfull, Bool.true_or]
  generalize hu : d.popRec.count cobInst 0x78 1 = u at hwrite
  have hbuf : (u.obs.buf b).full = true := hu ▸ hfull
  rw [hwrite, hbufs, if_pos hany, List.foldl_cons, List.foldl_nil, Dev.putRec]
  exact if_pos hbuf

/-- A buffer with room takes it, and its head counts it. -/
theorem Dev.writeRec_room (hroom : (d.obs.buf b).full = false) (hlost : (d.obs.buf b).lost = 0) :
    d.writeRec r = (d.popRec.putWord b r.word).putHead b := by
  have hwrite : d.writeRec r = r.bufs.foldl (fun d b => d.putRec b r) (if r.bufs.any (fun b => (d.obs.buf b).full) then d.popRec.count cobInst 0x78 1 else d.popRec) := rfl
  have hany : ([b] : List Nat).any (fun b => (d.obs.buf b).full) = false := by rw [List.any_cons, hroom, List.any_nil, Bool.or_false]
  have hroom' : ¬ (d.popRec.obs.buf b).full = true := by rw [Dev.popRec_buf, hroom]; exact Bool.false_ne_true
  have hlost' : (d.popRec.obs.buf b).lost = 0 := hlost
  rw [hwrite, hbufs, hany, if_neg Bool.false_ne_true, List.foldl_cons, List.foldl_nil]
  generalize d.popRec = u at hroom' hlost'
  rw [Dev.putRec]
  dsimp only
  rw [if_neg hroom', if_pos hlost', if_neg hroom']

end

/-- A buffer that has taken one more record. -/
def TraceBuf.wrote (x : TraceBuf) : TraceBuf := { x with widx := (x.widx + 1) % 2 ^ 32, wrapped := x.wrapped || x.slots ≤ x.widx }

theorem Dev.updBuf_recs (d : Dev) (b : Nat) (f : TraceBuf → TraceBuf) : (d.updBuf b f).obs.recs = d.obs.recs := rfl

theorem Dev.putWord_eq (d : Dev) (b word : Nat) : d.putWord b word =
    (d.storeNat ((d.obs.buf b).dest + 64 + 32 * ((d.obs.buf b).widx % max (d.obs.buf b).slots 1)) 32 word).updBuf b TraceBuf.wrote := rfl

/-- The record stands in its slot, the head behind it, and no other byte changes. -/
theorem Dev.putWord_putHead {d e : Dev} {b word : Nat} {x : TraceBuf} (hx : x = d.obs.buf b) (he : e = (d.putWord b word).putHead b) :
    e.obs.buf b = x.wrote ∧ e.ctr = d.ctr ∧ e.obs.recs = d.obs.recs ∧
      rdNat e.mem (x.dest + 64 + 32 * (x.widx % max x.slots 1)) 32 = word % 2 ^ 256 ∧ rdNat e.mem x.dest 64 = x.wrote.head % 2 ^ 512 ∧
      (∀ a, (a < x.dest ∨ x.dest + 64 ≤ a) → (a < x.dest + 64 + 32 * (x.widx % max x.slots 1) ∨ x.dest + 96 + 32 * (x.widx % max x.slots 1) ≤ a) →
        rdByte e.mem a = rdByte d.mem a) := by
  subst hx
  have hbuf : (d.putWord b word).obs.buf b = (d.obs.buf b).wrote := by
    rw [Dev.putWord_eq, Obs.buf_updBuf, if_pos rfl, Dev.storeNat_obs]
  have hword : (d.putWord b word).mem = wrNat d.mem ((d.obs.buf b).dest + 64 + 32 * ((d.obs.buf b).widx % max (d.obs.buf b).slots 1)) 32 word := by
    rw [Dev.putWord_eq, Dev.updBuf_mem, Dev.storeNat_mem]
  have hrest : (d.putWord b word).ctr = d.ctr ∧ (d.putWord b word).obs.recs = d.obs.recs := by
    rw [Dev.putWord_eq]
    exact ⟨(Dev.updBuf_ctr ..).trans (Dev.storeNat_ctr ..), (Dev.updBuf_recs ..).trans (congrArg Obs.recs (Dev.storeNat_obs ..))⟩
  generalize d.putWord b word = u at he hbuf hword hrest
  have hput : e.mem = wrNat u.mem (u.obs.buf b).dest 64 (u.obs.buf b).head := he ▸ Dev.storeNat_mem ..
  have hobs : e.obs = u.obs := he ▸ Dev.storeNat_obs ..
  have hctr : e.ctr = u.ctr := he ▸ Dev.storeNat_ctr ..
  have hdest : (d.obs.buf b).wrote.dest = (d.obs.buf b).dest := rfl
  rw [hbuf, hdest, hword] at hput
  refine ⟨hobs ▸ hbuf, hctr.trans hrest.1, hobs ▸ hrest.2, ?_, ?_, fun a hhead hslot => ?_⟩
  · rw [hput, rdNat_wrNat_other _ _ _ _ _ _ (.inr (by omega)), rdNat_wrNat, show 256 ^ 32 = 2 ^ 256 from by norm_num]
  · rw [hput, rdNat_wrNat, show 256 ^ 64 = 2 ^ 512 from (Nat.pow_mul 2 8 64).symm]
  · rw [hput, rdByte_wrNat_other _ _ _ _ _ hhead, rdByte_wrNat_other _ _ _ _ _ (by omega)]

/-! ## O54 -/

theorem exec_latchEnd (id : Nat) (s : State) : exec (.latchEnd id) s = execLatchEnd id s := rfl

/-- LATCH_END before and after its time. -/
theorem latchEnd_ends {s : State} {id : Nat} {c : Cmd} {e : Nat × Nat × Nat × List Nat} (hcmd : s.dev.host.cmd id = some c) (hlatch : c.endLatch = some e) :
    (s.dev.plat.now < e.2.2.1 + 2000 → exec (.latchEnd id) s = .next s) ∧
    (e.2.2.1 + 2000 ≤ s.dev.plat.now → exec (.latchEnd id) s = .next { s with dev := s.dev.emitFinal c e.1 e.2.1 e.2.2.2 }) := by
  obtain ⟨st, det, t, ext⟩ := e
  rw [exec_latchEnd, execLatchEnd]
  dsimp only
  rw [hcmd]
  dsimp only
  rw [hlatch]
  exact ⟨fun hearly => event_of_cannot _ (decide_eq_false (by omega)), fun hlate => event_of_can _ (decide_eq_true hlate)⟩

/-- Settles O54: each event by its time and by what the trace unit does with the record. -/
theorem traceRecordsReachTheirBuffers : Obligations.TraceRecordsReachTheirBuffers := by
  rintro s d now rfl rfl
  refine ⟨fun id c e hcmd hlatch => ?latch, fun id hnone => ?_, fun die => traceRecord_idle, ?record, traceWrite_busy, ?write, ?stop⟩
  case latch =>
    obtain ⟨hearly, hlate⟩ := latchEnd_ends hcmd hlatch
    refine ⟨hearly, fun h => ⟨_, hlate h, rfl, Dev.emitFinal_replied .., fun y hy => ?_⟩⟩
    rw [Dev.emitFinal_inProg] at hy
    simpa using (List.mem_filter.mp hy).2
  case record =>
    intro die r y hdead hruns hfirst hy
    subst hy
    refine ⟨fun hroom => ?_, fun hfull => ?_⟩
    · have hexec := traceRecord_held hdead hruns hfirst hroom
      by_cases hlate : (r.arrives s.dev.plat.now).late = true
      · obtain ⟨l1, l2, hins, hsplit, hbefore⟩ := insertRec_late hlate s.dev.obs.recs
        rw [hins] at hexec
        exact ⟨l1, l2, hexec, hsplit, fun _ => hbefore, fun h => absurd (hlate.symm.trans h) (by decide)⟩
      · obtain ⟨l1, l2, hins, hsplit, hbefore⟩ := insertRec_timely (Bool.eq_false_iff.2 hlate) s.dev.obs.recs
        rw [hins] at hexec
        exact ⟨l1, l2, hexec, hsplit, fun h => absurd h hlate, fun _ => hbefore⟩
    · obtain ⟨hrecs, hqueue, hctr, hmem⟩ := (s.dev.unqueue r).dropRec_keeps r.bufs
      refine ⟨_, traceRecord_dropped hdead hruns hfirst hfull, rfl, hrecs, hqueue, hctr, hmem, fun n hn => ?_⟩
      dsimp only
      rw [hn]
      exact Dev.dropFor_dropped ..
  case write =>
    rintro r rest b x hdead hfree hruns hmover hstops hrecs rfl hbufs
    have hfirst := Dev.traceWrite_first hfree hruns hmover hstops hrecs
    refine ⟨fun hnew hearly => ?_, fun hdue => ?_⟩
    · rw [exec_traceRecordWrite, hfirst, if_neg (by simp [hnew]; omega)]
      exact eventOpt_none s
    · rw [if_pos (by simpa using hdue)] at hfirst
      have hexec := eventOpt_of_some hdead hfirst
      have htail : s.dev.popRec.obs.recs = rest := by rw [Dev.popRec, hrecs]; rfl
      refine ⟨fun hfull => ?_, fun hroom hlost => ?_⟩
      · rw [Dev.writeRec_full hbufs hfull] at hexec
        exact ⟨_, hexec, rfl, htail, rfl, Dev.dropFor_dropped .., rfl⟩
      · rw [Dev.writeRec_room hbufs hroom hlost] at hexec
        obtain ⟨hbuf, hctr, hkept, hword, hhead, hothers⟩ := Dev.putWord_putHead (d := s.dev.popRec) (b := b) (word := r.word) rfl rfl
        refine ⟨_, hexec, rfl, hkept.trans htail, ?_, ?_, hctr, hword, ?_, hothers⟩
        · dsimp only
          rw [hbuf]
          rfl
        · dsimp only
          rw [hbuf]
          rfl
        · dsimp only
          rw [hbuf]
          exact hhead
  case stop =>
    rintro b x hdead hfree hruns hmover hb rfl hstop hlow hnone
    refine ⟨_, eventOpt_of_some hdead (Dev.traceWrite_stop hfree hruns hmover hb hstop hlow), rfl, ?_⟩
    rw [Dev.stopTrace_empty hnone]
    exact ((Dev.Replied.refl s.dev).closesBuf b (s.dev.obs.buf b)).trans (Dev.finish_replied ..)
  · rw [exec_latchEnd, execLatchEnd]
    rw [hnone]

end Sys2Proof.Machine
end

