-- ==== Sys2Proof/Proofs/TensorDumps.lean ====
section
/-! PROOFS. Tensor dumps are accepted and read (R528 to R530, R534; O55). -/

namespace Sys2Proof.Machine

/-! ## DUMP_TENSOR (R528) -/

theorem exec_dumpTensor (q h n step dest len : Nat) (s : State) : exec (.dumpTensor q h n step dest len) s = execDumpTensor q h n step dest len s := rfl

/-- The dump's moment has passed as it is asked for. -/
def Dev.dumpEarly (d : Dev) (h step : Nat) : Bool :=
  if (d.plan h).live then (match d.dumpStream h with | some n => decide (step < (d.cad.stream n).nextFrame) | none => false)
  else (match d.startedTo h with | some l => decide (step ≤ l) | none => false)

/-- Bytes that a dump of a plan's symbol takes. -/
def Plan.dumpBytes (p : Plan) (n : Nat) : Nat := match p.sym n with | some y => dumpSize y | none => 0

/-- The fields of DUMP_TENSOR that its checks find wrong. -/
def Dev.dumpParam (d : Dev) (h n step a len : Nat) : Option Nat :=
  firstBadField [((d.plan h).ready && (!(d.plan h).live || (d.dumpStream h).isSome), 0), (((d.plan h).sym n).isSome, fieldByte [4, 32, 64, 64, 32] 1),
    (!d.dumpEarly h step, fieldByte [4, 32, 64, 64, 32] 2), ((d.unwritable a ((d.plan h).dumpBytes n)).isNone, fieldByte [4, 32, 64, 64, 32] 3),
    ((d.plan h).dumpBytes n ≤ len, fieldByte [4, 32, 64, 64, 32] 4)]

/-- Its check 7. -/
def Dev.dumpOwn (d : Dev) (h : Nat) : Option (Nat × Nat × List Nat) :=
  if !(d.plan h).valid then some (stParity, 0, []) else if 8 ≤ d.obs.dumps.length then some (stNoMemory, 0, []) else none

/-- The dump that a command begins. -/
def Dev.newDump (d : Dev) (cmd h n step a : Nat) : Dump :=
  { cmd := cmd, plan := h, sym := n, step := step, dest := a, stream := if (d.plan h).live then d.dumpStream h else none }

theorem execDumpTensor_eq (q h n step dest len : Nat) (s : State) : execDumpTensor q h n step dest len s =
    startCmd s q 0x0A04 [4, 32, 64, 64, 32] [h, n, step, dest, len]
      (fun d => { param := d.dumpParam h n step (dest % 2 ^ 48) len, own := d.dumpOwn h })
      (fun d c => { d with obs := { d.obs with dumps := d.obs.dumps ++ [d.newDump c.id h n step (dest % 2 ^ 48)] } }.accept c) := rfl

section
variable {s : State} {q h n step dest len : Nat} {f : PacketForm} {p : Packet} (hadm : s.Admits (.dumpTensor q h n step dest len) f p)
include hadm

theorem dumpTensor_refuses (hbad : s.dev.dumpParam h n step (dest % 2 ^ 48) len ≠ none ∨ s.dev.dumpOwn h ≠ none) :
    Res.Becomes s s.dev (exec (.dumpTensor q h n step dest len) s) := by
  cases hadm.form
  rw [exec_dumpTensor, execDumpTensor_eq]
  exact hadm.toFronts.refusedBy hbad

theorem dumpTensor_waits (hparam : s.dev.dumpParam h n step (dest % 2 ^ 48) len = none) (hown : s.dev.dumpOwn h = none) : Res.Becomes s { s.dev with
    obs := { s.dev.obs with dumps := s.dev.obs.dumps ++ [s.dev.newDump s.dev.host.nextCmd h n step (dest % 2 ^ 48)] } }
      (exec (.dumpTensor q h n step dest len) s) := by
  have hbegun := s.dev.begin__replied q p
  cases hadm.form
  rw [exec_dumpTensor, execDumpTensor_eq]
  refine hadm.becomes rfl ⟨hparam, hown, rfl⟩ (.trans ?_ (Dev.accept_replied _ _))
  dsimp only
  have hstream : (s.dev.begin_ q p).1.dumpStream h = s.dev.dumpStream h := by
    unfold Dev.dumpStream
    rw [Dev.begun_cad]
  have hnew : (s.dev.begin_ q p).1.newDump (s.dev.begin_ q p).2.id h n step (dest % 2 ^ 48) = s.dev.newDump s.dev.host.nextCmd h n step (dest % 2 ^ 48) := by
    rw [Dev.newDump, hbegun.plan, hstream, Dev.begin_id, Dev.newDump]
  rw [hnew, hbegun.dumps]
  exact hbegun.withObs hbegun.recs rfl hbegun.bufs

end

section
variable {d : Dev} {h n step a len : Nat}

/-- A plan that is not ready, a symbol it lacks, a step that has begun, and too little room at DEST are refused. -/
theorem Dev.dumpParam_bad (hbad : (d.plan h).ready = false ∨ (d.plan h).sym n = none ∨ d.dumpEarly h step = true ∨
    d.unwritable a ((d.plan h).dumpBytes n) ≠ none ∨ len < (d.plan h).dumpBytes n) : d.dumpParam h n step a len ≠ none := by
  refine firstBadField_some ?_
  rcases hbad with hready | hsym | hearly | hroom | hlen
  · exact ⟨_, .head _, by rw [hready]; rfl⟩
  · exact ⟨_, .tail _ (.head _), by rw [hsym]; rfl⟩
  · exact ⟨_, .tail _ (.tail _ (.head _)), by rw [hearly]; rfl⟩
  · exact ⟨_, .tail _ (.tail _ (.tail _ (.head _))), by simpa [Option.isSome_iff_ne_none] using hroom⟩
  · exact ⟨_, .tail _ (.tail _ (.tail _ (.tail _ (.head _)))), decide_eq_false (by omega)⟩

theorem Dev.dumpParam_none (hready : (d.plan h).ready = true) (hstream : (d.plan h).live = true → d.dumpStream h ≠ none) (hsym : (d.plan h).sym n ≠ none)
    (hearly : d.dumpEarly h step = false) (hroom : d.unwritable a ((d.plan h).dumpBytes n) = none) (hlen : (d.plan h).dumpBytes n ≤ len) :
    d.dumpParam h n step a len = none := by
  refine firstBadField_none ?_
  have hlive : (!(d.plan h).live || (d.dumpStream h).isSome) = true := by
    cases hl : (d.plan h).live with
    | false => rfl
    | true => simpa [Option.isSome_iff_ne_none] using hstream hl
  simp [hready, hlive, hearly, hroom, hlen, Option.isSome_iff_ne_none, hsym]

theorem Dev.dumpOwn_bad (hbad : (d.plan h).valid = false ∨ 8 ≤ d.obs.dumps.length) : d.dumpOwn h ≠ none := by
  unfold Dev.dumpOwn
  rcases hbad with hinvalid | hfull
  · rw [hinvalid]
    exact Option.some_ne_none _
  · rw [if_pos hfull]
    split <;> exact Option.some_ne_none _

theorem Dev.dumpOwn_none (hvalid : (d.plan h).valid = true) (hroom : d.obs.dumps.length < 8) : d.dumpOwn h = none := by
  unfold Dev.dumpOwn
  rw [hvalid, if_neg (by decide), if_neg (by omega)]

end

/-! ## DUMP_READ (R529, R530) -/

/-- With no step in progress at the update units none of them takes a pass. -/
theorem Dev.assign_of_idle {d : Dev} (h : d.cobRun = none) : d.assign = d := by
  have hidle : ∀ u, d.assign1 u = d := fun u => by
    unfold Dev.assign1 Dev.unitMay
    rw [h, Bool.and_false]
    exact if_pos rfl
  simp [Dev.assign, hidle]

theorem Dev.traceFaults_dumps (d : Dev) (unit die descId : Nat) (cmd : Option Cmd) (errs : List Nat) :
    (d.traceFaults unit die descId cmd errs).obs.dumps = d.obs.dumps :=
  foldl_keeps (fun e : Dev => e.obs.dumps = d.obs.dumps) _ (fun _ _ he => (Dev.trace_replied ..).dumps.trans he) _ d rfl

/-- What a dump's reading leaves. -/
theorem Dev.absorbUnit_keeps (d : Dev) (inst unit die : Nat) (cmd : Option Cmd) (w : Wk) : let e := d.absorbUnit inst unit die cmd w
    e.obs.dumps = d.obs.dumps ∧ e.host = d.host ∧ e.plans = d.plans ∧ e.cob = d.cob := by
  obtain ⟨plat, ctr, o, hframe⟩ := d.absorbUnit_frame inst unit die cmd w
  refine ⟨Dev.traceFaults_dumps .., ?_⟩
  rw [hframe]
  exact ⟨rfl, rfl, rfl⟩

/-- The read bytes of a dump behind its header, and the work of reading them. -/
def Dev.dumpWork (d : Dev) (y : Sym) (flips : List Nat) : List Byte × Wk :=
  let e := (({ mem := d.mem, poison := d.poison, free := d.plat.freeCount, flaws := flips, die := y.dumpPod } : Wk).symElems y y.dumpBase)
  let z := e.2.symScales y y.dumpBase
  (if fwBlk y.fmt = 0 then e.1 else e.1 ++ List.replicate (roundUp e.1.length 64 - e.1.length) 0 ++ z.1, z.2)

/-- The device that has read a dump and written it, before its reply. -/
def Dev.dumped (d : Dev) (x : Dump) (y : Sym) (flips : List Nat) : Dev :=
  let u := d.trace 0x10 y.dumpPod x.plan x.sym 0 x.step
  let w := u.dumpWork y flips
  let e := u.absorbUnit (dieInst y.dumpPod) (if y.dumpPod < 4 then 4 else 12) y.dumpPod (u.host.cmd x.cmd) w.2
  (({ e with obs := { e.obs with dumps := e.obs.dumps.filter (fun z => z.cmd != x.cmd) } } : Dev).put x.dest (leBytes 64 (dumpHeader x y) ++ w.1) w.2.bad).trace
    0x10 y.dumpPod x.plan x.sym 1 x.step

theorem Dev.readDump_eq (d : Dev) (x : Dump) (y : Sym) (flips : List Nat) : d.readDump x y flips =
    ((d.dumped x y flips).finish x.cmd (if (((d.trace 0x10 y.dumpPod x.plan x.sym 0 x.step).dumpWork y flips).2.bad) then stParity else stDone) x.moves []).assign := rfl

/-- What storing a dump leaves. -/
theorem Dev.put_cutDump (e : Dev) (sel : Dump → Bool) (a : Nat) (bs : List Byte) (bad : Bool) :
    ∃ v : Dev, ({ e with obs := { e.obs with dumps := e.obs.dumps.filter sel } } : Dev).put a bs bad = v ∧ v.obs.dumps = e.obs.dumps.filter sel ∧
      v.host = e.host ∧ v.plans = e.plans ∧ v.cob = e.cob ∧ v.mem = wrBytes e.mem a bs := ⟨_, rfl, rfl, rfl, rfl, rfl, rfl⟩

/-- The dump has left, its header stands at DEST, and queues, plans and the update units are as before. -/
theorem Dev.dumped_keeps (d : Dev) (x : Dump) (y : Sym) (flips : List Nat) : let e := d.dumped x y flips
    e.obs.dumps = d.obs.dumps.filter (fun z => z.cmd != x.cmd) ∧ e.host = d.host ∧ e.plans = d.plans ∧ e.cob = d.cob ∧
      rdNat e.mem x.dest 64 = dumpHeader x y % 2 ^ 512 := by
  have htrace := d.trace_replied 0x10 y.dumpPod x.plan x.sym 0 x.step
  have hhost : (d.trace 0x10 y.dumpPod x.plan x.sym 0 x.step).host = d.host := Dev.trace_host ..
  unfold Dev.dumped
  generalize d.trace 0x10 y.dumpPod x.plan x.sym 0 x.step = u at htrace hhost
  dsimp only
  obtain ⟨hdumps, hh, hplans, hcob⟩ := u.absorbUnit_keeps (dieInst y.dumpPod) (if y.dumpPod < 4 then 4 else 12) y.dumpPod (u.host.cmd x.cmd) (u.dumpWork y flips).2
  generalize u.absorbUnit (dieInst y.dumpPod) (if y.dumpPod < 4 then 4 else 12) y.dumpPod (u.host.cmd x.cmd) (u.dumpWork y flips).2 = e at hdumps hh hplans hcob
  obtain ⟨v, hv, hvdumps, hvhost, hvplans, hvcob, hvmem⟩ := e.put_cutDump (fun z => z.cmd != x.cmd) x.dest
    (leBytes 64 (dumpHeader x y) ++ (u.dumpWork y flips).1) (u.dumpWork y flips).2.bad
  rw [hv]
  have hlast := v.trace_replied 0x10 y.dumpPod x.plan x.sym 1 x.step
  refine ⟨?_, ?_, ?_, ?_, ?_⟩
  · rw [hlast.dumps, hvdumps, hdumps, htrace.dumps]
  · rw [Dev.trace_host, hvhost, hh, hhost]
  · rw [hlast.plans, hvplans, hplans, htrace.plans]
  · rw [hlast.cob, hvcob, hcob, htrace.cob]
  · rw [Dev.trace_mem, hvmem, wrBytes_append, rdNat_congr (m := wrNat e.mem x.dest 64 (dumpHeader x y)) fun a ha hb => ?_, rdNat_wrNat]
    · rw [show 256 ^ 64 = 2 ^ 512 from (Nat.pow_mul 2 8 64).symm]
    · exact rdByte_wrBytes_other _ _ _ _ (.inl (by rw [leBytes_length]; exact hb))

/-- With no step in progress at the update units: the dump leaves, and bytes that no reply writes read the header. -/
theorem Dev.readDump_reads {d : Dev} (hidle : d.cobRun = none) (x : Dump) (y : Sym) (flips : List Nat) :
    (d.readDump x y flips).obs.dumps = d.obs.dumps.filter (fun z => z.cmd != x.cmd) ∧
    ((∀ a q, x.dest ≤ a → a < x.dest + 64 → ¬ (d.host.queue q).replyByte q a) → rdNat (d.readDump x y flips).mem x.dest 64 = dumpHeader x y % 2 ^ 512) := by
  obtain ⟨hdumps, hhost, hplans, hcob, hhead⟩ := d.dumped_keeps x y flips
  rw [Dev.readDump_eq]
  generalize d.dumped x y flips = e at hdumps hhost hplans hcob hhead
  generalize (if (((d.trace 0x10 y.dumpPod x.plan x.sym 0 x.step).dumpWork y flips).2.bad) then stParity else stDone) = st
  have hfinish := e.finish_replied x.cmd st x.moves []
  have hrun : (e.finish x.cmd st x.moves []).cobRun = none := by
    unfold Dev.cobRun Dev.plan at hidle ⊢
    rw [hfinish.cob, hfinish.plans, hcob, hplans]
    exact hidle
  rw [Dev.assign_of_idle hrun]
  refine ⟨hfinish.dumps.trans hdumps, fun hfree => (rdNat_congr fun a ha hb => hfinish.mem a fun q => ?_).trans hhead⟩
  rw [hhost]
  exact hfree a q ha hb

theorem exec_dumpRead (flips : List Nat) (s : State) : exec (.dumpRead flips) s = eventFlips s flips (s.dev.dumpNext flips) := rfl

theorem dumpRead_idle {s : State} {flips : List Nat} (hcp : cpFlip flips = false)
    (h : s.dev.liveBusy = true ∨ s.dev.obs.dumps = [] ∨ s.dev.pow.dead = true) : exec (.dumpRead flips) s = .next s := by
  rw [exec_dumpRead]
  rcases h with hbusy | hnone | hdead
  · rw [Dev.dumpNext, if_pos hbusy, eventFlips_none s flips hcp]
  · rw [Dev.dumpNext, hnone, List.findSome?_nil, ite_self, eventFlips_none s flips hcp]
  · cases s.dev.dumpNext flips with
    | none => exact eventFlips_none s flips hcp
    | some d => simp [eventFlips, eventOpt, hcp, hdead]

theorem Dev.dumpNext_first {d : Dev} {flips : List Nat} {x : Dump} {rest : List Dump} {y : Sym} (hfree : d.liveBusy = false) (hdumps : d.obs.dumps = x :: rest)
    (hsym : (d.plan x.plan).sym x.sym = some y) (hmoment : d.momentCome x = true) (hmover : d.nextChan y.dumpPod = none) :
    d.dumpNext flips = some (d.readDump x y flips) := by
  rw [Dev.dumpNext, if_neg (by rw [hfree]; exact Bool.false_ne_true), hdumps, List.findSome?_cons, hsym]
  dsimp only
  rw [if_pos (by rw [hmoment, hmover]; rfl)]

/-- Settles O55: DUMP_TENSOR by its checks, DUMP_READ by what a reading leaves. -/
theorem dumpsReadTheirSymbols : Obligations.DumpsReadTheirSymbols := by
  rintro s d rfl
  refine ⟨?_, fun flips hcp h => dumpRead_idle hcp h, ?_⟩
  · rintro q f p h n step dest len a x y hadm - rfl rfl
    refine ⟨fun hbad => ?_, fun hsym hbad => ?_, fun hready hsym hroom hlen hvalid hfew => ?_⟩
    · rcases hbad with hready | hsym | hinvalid | hfull
      · exact dumpTensor_refuses hadm (.inl (Dev.dumpParam_bad (.inl hready)))
      · exact dumpTensor_refuses hadm (.inl (Dev.dumpParam_bad (.inr (.inl hsym))))
      · exact dumpTensor_refuses hadm (.inr (Dev.dumpOwn_bad (.inl hinvalid)))
      · exact dumpTensor_refuses hadm (.inr (Dev.dumpOwn_bad (.inr hfull)))
    · have hsize : (s.dev.plan h).dumpBytes n = dumpSize y := by rw [Plan.dumpBytes, hsym]
      refine dumpTensor_refuses hadm (.inl (Dev.dumpParam_bad (.inr (.inr ?_))))
      rw [hsize]
      rcases hbad with ⟨l, hlive, hstarted, hstep⟩ | ⟨m, hlive, hstream, hstep⟩ | hroom | hlen
      · exact .inl (by simp [Dev.dumpEarly, hlive, hstarted, hstep])
      · exact .inl (by simp [Dev.dumpEarly, hlive, hstream, hstep])
      · exact .inr (.inl hroom)
      · exact .inr (.inr hlen)
    · have hsize : (s.dev.plan h).dumpBytes n = dumpSize y := by rw [Plan.dumpBytes, hsym]
      have hsome : (s.dev.plan h).sym n ≠ none := by rw [hsym]; exact Option.some_ne_none _
      have hown := Dev.dumpOwn_none hvalid hfew
      rw [← hsize] at hroom hlen
      refine ⟨fun hlive hstarted => ?_, fun m hlive hstream hstep => ?_⟩
      · have hearly : s.dev.dumpEarly h step = false := by
          cases hl : s.dev.startedTo h with
          | none => simp [Dev.dumpEarly, hlive, hl]
          | some l => simp [Dev.dumpEarly, hlive, hl, hstarted l hl]
        have hwaits := dumpTensor_waits hadm (Dev.dumpParam_none hready (fun hl => by rw [hlive] at hl; cases hl) hsome hearly hroom hlen) hown
        rw [Dev.newDump, hlive] at hwaits
        exact hwaits
      · have hearly : s.dev.dumpEarly h step = false := by simp [Dev.dumpEarly, hlive, hstream, hstep]
        have hwaits := dumpTensor_waits hadm (Dev.dumpParam_none hready (fun _ => by rw [hstream]; exact Option.some_ne_none _) hsome hearly hroom hlen) hown
        rw [Dev.newDump, hlive, if_pos rfl, hstream] at hwaits
        exact hwaits
  · intro flips x rest y hcp hdead hfree hdumps hsym hmoment hmover hidle
    obtain ⟨hleft, hhead⟩ := Dev.readDump_reads hidle x y flips
    have hexec : exec (.dumpRead flips) s = .next { s with dev := s.dev.readDump x y flips } := by
      rw [exec_dumpRead, Dev.dumpNext_first hfree hdumps hsym hmoment hmover, eventFlips_some s flips _ hdead hcp]
    refine ⟨_, hexec, rfl, ?_, ?_⟩
    · dsimp only
      rw [hleft, hdumps]
      exact List.filter_cons_of_neg (by simp)
    · dsimp only
      exact hhead

end Sys2Proof.Machine
end

