-- ==== Sys2Proof/Proofs/StartEvents.lean ====
section
/-! PROOFS. The events at which a start begins (R488 to R493, R500, R501; O56). -/

namespace Sys2Proof.Machine

/-! ## Domains without supply and at time 0 -/

theorem Tab.get_foldl_set_key {α : Type} [DecidableEq α] {z : α} (f : Nat → α) (k : Nat) : ∀ (ids : List Nat) (m : Tab α),
    Tab.get z (ids.foldl (fun t id => Tab.set z t id (f id)) m) k = if k ∈ ids then f k else Tab.get z m k
  | [], m => by simp
  | id :: ids, m => by
    rw [List.foldl_cons, Tab.get_foldl_set_key f k ids, Tab.get_set]
    by_cases hk : k ∈ ids
    · simp [hk]
    · by_cases he : k = id
      · simp [he]
      · simp [hk, he]

/-- What a domain keeps at a start. -/
theorem Pow.fresh_dom (w : Pow) (id : Nat) : w.fresh.dom id = if id < 86 then (w.dom id).fresh else {} := by
  simp only [Pow.dom, Pow.fresh, Tab.get_foldl_set_key, List.mem_range]
  rfl

/-- A domain is OFF, past its dwell, and nobody has asked for it. -/
structure Dom.AtRest (x : Dom) : Prop where
  off : x.st = 0
  on : x.pendOn = false
  pendOff : x.pendOff = false
  want : x.wantUp = false
  dwell : x.dwell = false

theorem Dom.atRest_default : ({} : Dom).AtRest := ⟨rfl, rfl, rfl, rfl, rfl⟩

/-- Without supply every domain is at rest. -/
theorem Pow.unpowered_dom (w : Pow) (id : Nat) : (w.unpowered.dom id).AtRest := by
  have hmap : ∀ m : Tab Dom, (∀ k, (Tab.get {} m k).pendOn = false ∧ (Tab.get {} m k).pendOff = false ∧ (Tab.get {} m k).wantUp = false) →
      (Tab.get ({} : Dom) (m.map (fun e : Nat × Dom => (e.1, ({ e.2 with st := 0, dwell := false, freq := 0 } : Dom)))) id).AtRest := by
    intro m hm
    have hid := hm id
    clear hm
    induction m with
    | nil => exact Dom.atRest_default
    | cons e m ih =>
      simp only [List.map_cons, Tab.get] at hid ⊢
      by_cases hkey : id = e.1
      · rw [if_pos hkey] at hid ⊢
        exact ⟨rfl, hid.1, hid.2.1, hid.2.2, rfl⟩
      · rw [if_neg hkey] at hid ⊢
        exact ih hid
  have hdoms : w.unpowered.dom id = Tab.get ({} : Dom) (w.fresh.doms.map (fun e : Nat × Dom => (e.1, ({ e.2 with st := 0, dwell := false, freq := 0 } : Dom)))) id := by
    rw [Pow.dom, Pow.unpowered]
  rw [hdoms]
  refine hmap w.fresh.doms fun k => ?_
  have hfresh := w.fresh_dom k
  unfold Pow.dom at hfresh
  rw [hfresh]
  split
  · exact ⟨rfl, rfl, rfl⟩
  · exact ⟨rfl, rfl, rfl⟩

/-- A start leaves domains at rest as they are. -/
theorem Pow.fresh_atRest {w : Pow} (h : ∀ id, (w.dom id).AtRest) (id : Nat) : (w.fresh.dom id).AtRest := by
  rw [Pow.fresh_dom]
  split
  · exact ⟨(h id).off, rfl, rfl, rfl, (h id).dwell⟩
  · exact Dom.atRest_default

/-- The two ports power up where all domains are at rest. -/
theorem Dev.askPorts_doms {d : Dev} (h : ∀ id, (d.pow.dom id).AtRest) (id : Nat) :
    ((d.askOn (fun id => id == 64 || id == 65)).pow.dom id).st = if id = 64 ∨ id = 65 then 1 else 0 := by
  have hask : d.askOn (fun id => id == 64 || id == 65) = (d.reqOn 64 0).reqOn 65 0 := by
    have hports : (List.range 85).filter (fun id => id == 64 || id == 65) = [64, 65] := by decide
    rw [Dev.askOn, hports]
    rfl
  have h64 := (Dev.SetsDom.of_replied (Dev.Replied.refl d) 64).reqOn_off 0 (h 64).on (h 64).pendOff (h 64).off (h 64).dwell
    (fun k hk => absurd hk (by simp [parentOf])) (fun _ hle => absurd hle (by decide))
  have hrest : ((d.reqOn 64 0).pow.dom 65).AtRest := (h64.pow.others 65 (by decide)).symm ▸ h 65
  have h65 := (Dev.SetsDom.of_replied (Dev.Replied.refl (d.reqOn 64 0)) 65).reqOn_off 0 hrest.on hrest.pendOff hrest.off hrest.dwell
    (fun k hk => absurd hk (by simp [parentOf])) (fun _ hle => absurd hle (by decide))
  rw [hask]
  by_cases h1 : id = 65
  · rw [if_pos (.inr h1), h1, h65.pow.here]
  · rw [h65.pow.others id h1]
    by_cases h0 : id = 64
    · rw [if_pos (.inl h0), h0, h64.pow.here]
    · rw [h64.pow.others id h0, if_neg (by tauto), (h id).off]

/-- The hosts' memory stays. -/
theorem rdByte_keepHost {m : Tab Byte} {a : Nat} (ha : hostBase 0 ≤ a) : rdByte (keepHost m) a = rdByte m a :=
  Tab.get_filter _ m a fun _ _ he => decide_eq_true (he ▸ ha)

/-! ## The events -/

theorem exec_resetNAssert (s : State) : exec .resetNAssert s = execResetNAssert s := rfl
theorem exec_resetNRelease (s : State) : exec .resetNRelease s = execResetNRelease s := rfl
theorem exec_vddAonRise (s : State) : exec .vddAonRise s = execVddAonRise s := rfl
theorem exec_huskRestart (s : State) : exec .huskRestart s = execHuskRestart s := rfl

/-- The Husk's state as RESET_N goes low: a start in progress has failed. -/
def Plat.interrupted (p : Plat) : Plat :=
  if p.phase == .verify || p.phase == .train || p.phase == .selfTest || p.phase == .wipe then { p with lastReason := 0x0A }.log { unit := 13, die := 4 } else p

/-- The device held in reset. -/
def Dev.heldDown (d : Dev) : Dev :=
  { d with
    plat := { d.plat.interrupted with resetN := false, phase := .held, thermAlertLow := false, smbAlertLow := false, resetAt := none, lifeAt := none, fwUpd := none },
    host := { nextCmd := d.host.nextCmd, gpio := freshPins d.host.gpio, irqs := d.host.irqs }, cad := {}, pow := d.pow.unpowered,
    plans := [], planUsed := [], pods := [], cores := [], cob := {}, ing := {}, enc := {}, mov := {}, obs := {} }

/-- A record of the fault log changes neither cells nor flash. -/
theorem Plat.log_keeps (p : Plat) (r : FaultRec) : (p.log r).otp = p.otp ∧ (p.log r).flash = p.flash ∧ (p.log r).lastReason = p.lastReason ∧
    (p.faultLog.length < 64 → (p.log r).faultLog = p.faultLog ++ [{ r with time := p.now }]) := by
  unfold Plat.log
  split
  · exact ⟨rfl, rfl, rfl, fun _ => rfl⟩
  · next hfull => exact ⟨rfl, rfl, rfl, fun h => absurd h hfull⟩

/-- An interrupted start leaves its reason and a record; at other times nothing changes. -/
theorem Plat.interrupted_keeps (p : Plat) : p.interrupted.otp = p.otp ∧ p.interrupted.flash = p.flash ∧
    ((p.phase = .verify ∨ p.phase = .train ∨ p.phase = .selfTest ∨ p.phase = .wipe) → p.interrupted.lastReason = 0x0A ∧
      (p.faultLog.length < 64 → p.interrupted.faultLog = p.faultLog ++ [{ time := p.now, unit := 13, die := 4 }])) ∧
    ((p.phase = .ready ∨ p.phase = .failed ∨ p.phase = .dormant) → p.interrupted.lastReason = p.lastReason ∧ p.interrupted.faultLog = p.faultLog) := by
  obtain ⟨hotp, hflash, hreason, hlog⟩ := Plat.log_keeps { p with lastReason := 0x0A } { unit := 13, die := 4 }
  unfold Plat.interrupted
  by_cases hstarting : (p.phase == .verify || p.phase == .train || p.phase == .selfTest || p.phase == .wipe) = true
  · rw [if_pos hstarting]
    refine ⟨hotp, hflash, fun _ => ⟨hreason, hlog⟩, fun hother => ?_⟩
    rcases hother with hp | hp | hp <;> simp [hp] at hstarting
  · rw [if_neg hstarting]
    refine ⟨rfl, rfl, fun hother => ?_, fun _ => ⟨rfl, rfl⟩⟩
    rcases hother with hp | hp | hp | hp <;> simp [hp] at hstarting

section
variable {s : State}

theorem resetNAssert_holds (hphase : s.dev.plat.phase ≠ .held) : exec .resetNAssert s = .next { s with dev := s.dev.heldDown } := by
  rw [exec_resetNAssert, execResetNAssert]
  dsimp only
  rw [if_neg hphase]
  rfl

/-- The device at RESET_N's rise, before time 0 of R489. -/
def Dev.releaseBase (d : Dev) : Dev :=
  { plat := { d.plat with resetN := true, aonUp := true, now := 0, phase := .verify },
    host := { nextCmd := d.host.nextCmd, gpio := freshPins d.host.gpio, irqs := d.host.irqs },
    pow := { d.pow.unpowered with samples := [], energyTotal := 0, rails := [] },
    mem := keepHost d.mem, poison := keepHost d.poison }

theorem resetNRelease_starts (hheld : s.dev.plat.phase = .held) (hreset : s.dev.plat.resetN = false) (hgood : s.dev.plat.pwrGood = 0x3F) :
    exec .resetNRelease s = .next { s with dev := s.dev.releaseBase.startZero } := by
  rw [exec_resetNRelease, execResetNRelease]
  dsimp only
  rw [if_pos ⟨hheld, hreset, hgood⟩]
  rfl

theorem resetNRelease_idle (h : s.dev.plat.phase ≠ .held ∨ s.dev.plat.resetN = true ∨ s.dev.plat.pwrGood ≠ 0x3F) : exec .resetNRelease s = .next s := by
  rw [exec_resetNRelease, execResetNRelease]
  refine if_neg fun ⟨hheld, hreset, hgood⟩ => ?_
  rw [hreset] at h
  exact h.elim (fun h => h hheld) fun h => h.elim (by decide) fun h => h hgood

theorem vddAonRise_idle (h : s.dev.plat.phase ≠ .held ∨ s.dev.plat.resetN = true) : exec .vddAonRise s = .next s := by
  rw [exec_vddAonRise, execVddAonRise]
  refine if_neg fun ⟨hheld, hreset⟩ => ?_
  rw [hreset] at h
  exact h.elim (fun h => h hheld) (by decide)

/-- The device of a start with an attempt left, before the ports come up. -/
def Dev.attemptBase (d : Dev) : Dev := { d with plat := d.plat.attempt, pow := d.pow.fresh }

theorem Dev.startZero_asks {d : Dev} (hleft : d.plat.bootAttempts ≠ d.plat.failLimit) : d.startZero = d.attemptBase.askOn (fun id => id == 64 || id == 65) :=
  Dev.startZero_attempt hleft

/-- A start with an attempt left changes the Husk's state, power and counters alone, and the ports come up. -/
theorem Dev.startZero_left {d : Dev} (hidle : d.attemptBase.Idle) (hleft : d.plat.bootAttempts ≠ d.plat.failLimit) :
    ∃ w c, d.startZero = { d.attemptBase with pow := w, ctr := c } ∧
      ((∀ id, (d.pow.dom id).AtRest) → ∀ id, (w.dom id).st = if id = 64 ∨ id = 65 then 1 else 0) := by
  obtain ⟨w, c, hask⟩ := hidle.askOn (fun id => id == 64 || id == 65)
  rw [Dev.startZero_asks hleft]
  refine ⟨w, c, hask, fun hrest id => ?_⟩
  have hbase : ∀ id, (d.attemptBase.pow.dom id).AtRest := Pow.fresh_atRest hrest
  have hdoms := Dev.askPorts_doms hbase id
  rw [hask] at hdoms
  exact hdoms

theorem Dev.releaseBase_rests (d : Dev) (id : Nat) : (d.releaseBase.pow.dom id).AtRest := by
  have hdoms : d.releaseBase.pow.doms = d.pow.unpowered.doms := by rw [Dev.releaseBase]
  rw [Pow.dom, hdoms]
  exact d.pow.unpowered_dom id

end

/-- DEBUG_OPEN returns to its prior state with a step of LC_COUNT; other states keep their cells. -/
theorem Plat.attempt_cells (p : Plat) : (p.lcWord = 4 → p.attempt.lcWord = p.lcPrior ∧ p.attempt.lcCount = min 1024 (p.lcCount + 1)) ∧
    (p.lcWord ≠ 4 → p.attempt.otp = p.otp) := by
  refine ⟨fun h => ?_, fun h => ?_⟩
  · have hclosed : p.noFault.closeDebug = { p.noFault with lcWord := p.lcPrior, lcCount := min 1024 (p.lcCount + 1) } := if_pos h
    rw [Plat.attempt, hclosed]
    exact ⟨rfl, rfl⟩
  · have hclosed : p.noFault.closeDebug = p.noFault := if_neg h
    rw [Plat.attempt, hclosed]
    rfl

/-- The next attempt leaves pins, device time and the log. -/
theorem Plat.attempt_keeps (p : Plat) : p.attempt.resetN = p.resetN ∧ p.attempt.now = p.now ∧ p.attempt.faultLog = p.faultLog := by
  have hclosed : p.noFault.closeDebug.resetN = p.resetN ∧ p.noFault.closeDebug.now = p.now ∧ p.noFault.closeDebug.faultLog = p.faultLog := by
    unfold Plat.closeDebug
    split <;> exact ⟨rfl, rfl, rfl⟩
  exact hclosed

/-- A start that stays in dormant mode. -/
theorem Dev.startZero_stays {d : Dev} (hnone : d.plat.bootAttempts = d.plat.failLimit) :
    ∃ h, d.startZero = { d with plat := d.plat.goDormant, pow := d.pow.fresh, host := h, ctr := [] } :=
  ⟨_, Dev.startZero_dormant hnone⟩

/-- What every start leaves: device time, the log, plans, the cadence unit and memory. -/
theorem Dev.startZero_keeps {d : Dev} (hidle : d.attemptBase.Idle) : d.startZero.plat.resetN = d.plat.resetN ∧ d.startZero.plat.now = d.plat.now ∧
    d.startZero.plat.faultLog = d.plat.faultLog ∧ d.startZero.cad = d.cad ∧ d.startZero.plans = d.plans ∧ d.startZero.mem = d.mem := by
  by_cases hleft : d.plat.bootAttempts = d.plat.failLimit
  · obtain ⟨h, hstart⟩ := Dev.startZero_stays hleft
    rw [hstart]
    exact ⟨rfl, rfl, rfl, rfl, rfl, rfl⟩
  · obtain ⟨w, c, hstart, -⟩ := Dev.startZero_left hidle hleft
    obtain ⟨hreset, hnow, hlog⟩ := d.plat.attempt_keeps
    rw [hstart]
    exact ⟨hreset, hnow, hlog, rfl, rfl, rfl⟩

/-- Phase and attempts after a start with an attempt left. -/
theorem Dev.startZero_verify {d : Dev} (hidle : d.attemptBase.Idle) (hleft : d.plat.bootAttempts ≠ d.plat.failLimit) : d.startZero.plat = d.plat.attempt := by
  obtain ⟨w, c, hstart, -⟩ := Dev.startZero_left hidle hleft
  rw [hstart]
  rfl

theorem Dev.startZero_goesDormant {d : Dev} (hnone : d.plat.bootAttempts = d.plat.failLimit) : d.startZero.plat = d.plat.goDormant := by
  obtain ⟨h, hstart⟩ := Dev.startZero_stays hnone
  rw [hstart]

section
variable {s : State}

theorem huskRestart_idle (h : s.dev.plat.phase ≠ .failed ∨ s.dev.plat.now < s.dev.plat.stageMark + 100000000 ∨ s.dev.pow.allOff = false) :
    exec .huskRestart s = .next s := by
  rw [exec_huskRestart, execHuskRestart]
  refine if_neg fun ⟨hfailed, htime, hoff⟩ => ?_
  rw [hoff] at h
  exact h.elim (fun h => h hfailed) fun h => h.elim (Nat.not_lt.2 htime) (by decide)

theorem huskRestart_starts (hfailed : s.dev.plat.phase = .failed) (htime : s.dev.plat.stageMark + 100000000 ≤ s.dev.plat.now) (hoff : s.dev.pow.allOff = true) :
    exec .huskRestart s = .next { s with dev := s.dev.huskBase.startZero.alerted s.dev.plat } := by
  rw [exec_huskRestart, execHuskRestart]
  exact if_pos ⟨hfailed, htime, hoff⟩

end

/-- Settles O56: each event by its guard, and a start by what time 0 of R489 leaves of the device it begins on. -/
theorem startsBeginAtTheirEvents : Obligations.StartsBeginAtTheirEvents := by
  rintro s d p rfl rfl
  have hrelease : s.dev.releaseBase.attemptBase.Idle := ⟨rfl, show ({} : Obs).takers 0x0C = [] by decide⟩
  have hhusk : s.dev.huskBase.attemptBase.Idle := ⟨rfl, show ({} : Obs).takers 0x0C = [] by decide⟩
  refine ⟨fun hheld => ?_, fun hphase => ⟨resetNRelease_idle (.inl hphase), vddAonRise_idle (.inl hphase)⟩, fun hphase => ?assert,
    fun _ h => resetNRelease_idle (.inr h), fun hheld hreset hgood => ?release, fun _ h => vddAonRise_idle (.inr h), fun hheld hreset => ?_,
    huskRestart_idle, fun hfailed htime hoff => ?restart⟩
  case assert =>
    obtain ⟨hotp, hflash, hstarting, hother⟩ := s.dev.plat.interrupted_keeps
    exact ⟨_, resetNAssert_holds hphase, rfl, rfl, rfl, rfl, rfl, rfl, rfl, rfl, fun id => (s.dev.pow.unpowered_dom id).off, hotp, hflash, hstarting, hother⟩
  case release =>
    obtain ⟨hresetN, hnow, -, hcad, hplans, hmem⟩ := Dev.startZero_keeps hrelease
    refine ⟨_, resetNRelease_starts hheld hreset hgood, rfl, hresetN, hnow, hcad, hplans, fun a ha => ?_, fun a ha => ?_, fun hleft => ?_, fun hnone => ?_⟩
    · dsimp only
      rw [hmem]
      exact Tab.get_keepHost _ _ _ ha
    · dsimp only
      rw [hmem]
      exact rdByte_keepHost ha
    · obtain ⟨hdebug, hcells⟩ := s.dev.releaseBase.plat.attempt_cells
      obtain ⟨w, c, hstart, hdoms⟩ := Dev.startZero_left hrelease hleft
      dsimp only
      rw [hstart]
      exact ⟨rfl, rfl, hdoms s.dev.releaseBase_rests, hdebug, hcells⟩
    · obtain ⟨h, hstart⟩ := Dev.startZero_stays (d := s.dev.releaseBase) hnone
      dsimp only
      rw [hstart]
      exact ⟨rfl, rfl, rfl, fun id => (Pow.fresh_atRest s.dev.releaseBase_rests id).off⟩
  case restart =>
    obtain ⟨-, hnow, hlog, hcad, hplans, hmem⟩ := Dev.startZero_keeps hhusk
    refine ⟨_, huskRestart_starts hfailed htime hoff, rfl, hnow, hplans, congrArg Cad.beat hcad, congrArg Cad.start hcad, hlog, fun a ha => ?_, fun a ha => ?_,
      fun hleft => ?_, fun hnone => ?_⟩
    · exact (congrArg (fun m => rdByte m a) hmem).trans (Tab.get_keepHost _ _ _ ha)
    · exact (congrArg (fun m => rdByte m a) hmem).trans (rdByte_keepHost ha)
    · have hplat := Dev.startZero_verify hhusk hleft
      exact ⟨congrArg Plat.phase hplat, congrArg Plat.bootAttempts hplat⟩
    · have hplat := Dev.startZero_goesDormant (d := s.dev.huskBase) hnone
      exact ⟨congrArg Plat.phase hplat, congrArg Plat.dormantReason hplat⟩
  · rw [exec_resetNAssert, execResetNAssert]
    exact if_pos hheld
  · rw [exec_vddAonRise, execVddAonRise]
    exact if_pos ⟨hheld, hreset⟩

end Sys2Proof.Machine
end

