-- ==== Sys2Proof/Proofs/StartStages.lean ====
section
/-! PROOFS. A start's request for domains may let replies go (O57). -/

namespace Sys2Proof.Machine

/-- A start in its first stage while the pending OFF request of domain 12 has a command in progress, whose queue writes replies. -/
def verifyWithPending : State := { State.reset with dev := { State.reset.dev with
  host := { State.reset.dev.host with queues := [(0, { qstate := 1, rqBase := hostBase 0, rqLog2 := 6 })], inProg := [{ id := 1 }], nextCmd := 2 }
  pow := { State.reset.dev.pow with doms := [(12, { pendOff := true, pendCmds := [1] })] } } }

/-- The outcome is a next state whose memory is another. -/
def movesMem (m : Tab Byte) : Res → Bool
  | .next t => t.dev.mem != m
  | _ => false

/-- The request for domain 12 cancels the pending one, and the reply ABORTED of its command is written. -/
theorem firmwareVerified_movesMem : movesMem verifyWithPending.dev.mem (exec (.firmwareVerified 0 0) verifyWithPending) = true := by decide +kernel

/-- Refutes O57: FIRMWARE_VERIFIED asks for every domain, which cancels a pending OFF request (R385); where that request is a command's, its reply
ABORTED changes memory, although no command in progress has the power controller's name 0. -/
theorem not_stagesOfAStartFollow : ¬ Obligations.StagesOfAStartFollow := by
  intro h
  obtain ⟨-, -, hverified, -⟩ := h verifyWithPending _ _ rfl rfl
  obtain ⟨-, himage⟩ := hverified 0 0 0 _ (by decide +kernel) (by decide +kernel) (by decide +kernel) rfl
  obtain ⟨-, hruns⟩ := himage 0 (by decide) (by decide +kernel) (by decide) (fun hother => absurd (by decide +kernel) hother)
  obtain ⟨w, hw⟩ : ∃ w, verifyWithPending.dev.plat.config = some w := Option.isSome_iff_exists.mp (by decide +kernel)
  obtain ⟨t, hexec, -, -, -, -, -, -, -, -, hmem⟩ := hruns w hw
  have hmoves := firmwareVerified_movesMem
  rw [hexec, movesMem, hmem (by decide +kernel)] at hmoves
  simp at hmoves

end Sys2Proof.Machine
end

