-- ==== Sys2Proof/Proofs/StartTimeouts.lean ====
section
/-! PROOFS. Stages time out, the attestation tree completes, and the SMBus target answers (R425, R490, R503, R511, R554; O58). -/

namespace Sys2Proof.Machine

/-! ## A failed start (R383, R491) -/

/-- Vector 8 goes to each port whose PORT_IRQ_EN is 1. -/
theorem HostIf.irqPorts_eq (h : HostIf) : ∃ l, h.irqPorts = { h with irqs := l } ∧ ∀ i, i < 2 → (h.port i).irqEn = true → (i, 8) ∈ l := by
  let first : List (Nat × Nat) := if (h.port 0).irqEn then (0, 8) :: h.irqs else h.irqs
  have hfirst : (if (h.port 0).irqEn then h.irq 0 8 else h) = { h with irqs := first } := by
    cases h0 : (h.port 0).irqEn <;> simp [first, h0, HostIf.irq]
  have hall : h.irqPorts = if (h.port 1).irqEn then HostIf.irq { h with irqs := first } 1 8 else { h with irqs := first } := by
    have hdef : h.irqPorts = if ((if (h.port 0).irqEn then h.irq 0 8 else h).port 1).irqEn then (if (h.port 0).irqEn then h.irq 0 8 else h).irq 1 8
      else (if (h.port 0).irqEn then h.irq 0 8 else h) := rfl
    rw [hdef, hfirst]
    rfl
  refine ⟨if (h.port 1).irqEn then (1, 8) :: first else first, ?_, fun i hi hen => ?_⟩
  · rw [hall]
    cases (h.port 1).irqEn <;> simp [HostIf.irq]
  · obtain rfl | rfl : i = 0 ∨ i = 1 := by omega
    · cases (h.port 1).irqEn <;> simp [first, hen]
    · simp [hen]

/-- A changed fault summary sends messages alone. -/
theorem Dev.summaryIrq_eq (d : Dev) (old : Plat) : ∃ l, d.summaryIrq old = { d with host := { d.host with irqs := l } } ∧
    (d.plat.faultSummary = old.faultSummary → l = d.host.irqs) ∧
    (d.plat.faultSummary ≠ old.faultSummary → ∀ i, i < 2 → (d.host.port i).irqEn = true → (i, 8) ∈ l) := by
  unfold Dev.summaryIrq
  by_cases hsame : d.plat.faultSummary = old.faultSummary
  · exact ⟨d.host.irqs, if_pos hsame, fun _ => rfl, fun h => absurd hsame h⟩
  · obtain ⟨l, heq, hsent⟩ := d.host.irqPorts_eq
    rw [if_neg hsame, heq]
    exact ⟨l, rfl, fun h => absurd h hsame, fun _ => hsent⟩

/-- The Husk's state as a start fails. -/
def Plat.startFailed (p : Plat) (reason : Nat) : Plat := { p with phase := .failed, lastReason := reason, stageMark := p.now }.log { unit := 13, die := 4 }

theorem Plat.startFailed_keeps (p : Plat) (reason : Nat) : (p.startFailed reason).phase = .failed ∧ (p.startFailed reason).lastReason = reason ∧
    (p.startFailed reason).stageMark = p.now ∧
    (p.faultLog.length < 64 → (p.startFailed reason).faultLog = p.faultLog ++ [{ time := p.now, unit := 13, die := 4 }]) := by
  unfold Plat.startFailed Plat.log
  dsimp only
  split
  · exact ⟨rfl, rfl, rfl, fun _ => rfl⟩
  · next hfull => exact ⟨rfl, rfl, rfl, fun h => absurd h hfull⟩

/-- The device as a start fails, before its messages. -/
def Dev.failing (d : Dev) (reason : Nat) : Dev :=
  { d with
    plat := d.plat.startFailed reason
    pow := { d.pow with doms := d.pow.doms.map (fun e => (e.1, e.2.turnOff d.plat.now)) } }

/-- A start that fails keeps its reason and a record, and every domain is on its way to OFF. -/
theorem Dev.failStart_fails (d : Dev) (reason : Nat) : d.StartFails (d.failStart reason) reason := by
  have hfail : d.failStart reason = (d.failing reason).summaryIrq d.plat := rfl
  obtain ⟨l, hirq, -⟩ := (d.failing reason).summaryIrq_eq d.plat
  obtain ⟨hphase, hreason, hmark, hlog⟩ := d.plat.startFailed_keeps reason
  have hoff : ∀ id, (d.failing reason).pow.dom id = (d.pow.dom id).turnOff d.plat.now :=
    fun id => Tab.get_map ({} : Dom) d.pow.doms (fun x => x.turnOff d.plat.now) rfl id
  rw [hfail, hirq]
  exact ⟨hphase, hreason, hmark, hlog, hoff, rfl⟩

/-! ## Timeouts (R490, R503) -/

/-- The reason with which a stage is overdue. -/
theorem Plat.overdue_some {p : Plat} {r : Nat} (h : (r = 1 ∧ p.phase = .verify ∧ p.stageMark + 1000000000 ≤ p.now) ∨
    (r = 5 ∧ p.phase = .train ∧ p.d2dDone = false ∧ p.stageMark + 50000000 ≤ p.now) ∨
    (r = 6 ∧ p.phase = .train ∧ p.d2dDone = true ∧ p.gddrDone = false ∧ p.stageMark + 500000000 ≤ p.now) ∨
    (r = 7 ∧ p.phase = .selfTest ∧ p.stageMark + 200000000 ≤ p.now) ∨
    (r = 8 ∧ p.phase = .wipe ∧ p.stageMark + 100000000 ≤ p.now) ∨
    (r = 9 ∧ p.phase = .selfTest ∧ p.now < p.stageMark + 200000000 ∧ p.powerMark + 2000000000 ≤ p.now)) : p.overdue = some r := by
  unfold Plat.overdue
  rcases h with ⟨rfl, hp, ht⟩ | ⟨rfl, hp, hd, ht⟩ | ⟨rfl, hp, hd, hg, ht⟩ | ⟨rfl, hp, ht⟩ | ⟨rfl, hp, ht⟩ | ⟨rfl, hp, ht, hw⟩
  · simp [hp, ht]
  · simp [hp, hd, ht]
  · simp [hp, hd, hg, ht]
  · simp [hp, ht]
  · simp [hp, ht]
  · simp [hp, Nat.not_le.2 ht, Plat.overdue.whole, hw]

theorem Plat.overdue_none {p : Plat} (h : p.phase = .ready ∨ p.phase = .dormant ∨ p.phase = .held ∨ p.phase = .failed ∨
    (p.phase = .train ∧ p.d2dDone = true ∧ p.gddrDone = true)) : p.overdue = none := by
  unfold Plat.overdue
  rcases h with hp | hp | hp | hp | ⟨hp, hd, hg⟩
  · simp [hp]
  · simp [hp]
  · simp [hp]
  · simp [hp]
  · simp [hp, hd, hg]

/-! ## The attestation tree and the SMBus target (R511, R554) -/

section
variable {s : State}

theorem startStageTimeout_fails {r : Nat} (h : s.dev.plat.overdue = some r) : ∃ t : State, exec .startStageTimeout s = .next t ∧ t.pending = s.pending ∧ s.dev.StartFails t.dev r := by
  have hexec : execStartStageTimeout s = .next { s with dev := s.dev.failStart r } := by rw [execStartStageTimeout, h]; rfl
  have hfails := s.dev.failStart_fails r
  generalize s.dev.failStart r = d at hexec hfails
  exact ⟨{ s with dev := d }, hexec, rfl, hfails⟩

theorem startStageTimeout_idle (h : s.dev.plat.overdue = none) : exec .startStageTimeout s = .next s := by
  show execStartStageTimeout s = _
  rw [execStartStageTimeout, h]

theorem attestTreeDone_idle (h : s.dev.plat.treeBuilds = false ∨ s.dev.plat.phase = .held) : exec .attestTreeDone s = .next s := by
  refine if_neg fun hdone => ?_
  rcases h with h | h <;> simp [h] at hdone

theorem attestTreeDone_signs (htree : s.dev.plat.treeBuilds = true) (hphase : s.dev.plat.phase ≠ .held) :
    exec .attestTreeDone s = .next { s with dev := ({ s.dev with plat := { s.dev.plat with attestReady := true } } : Dev).summaryIrq s.dev.plat } :=
  if_pos (by simp [htree, hphase])

theorem Plat.smbAnswers_false {p : Plat} (h : p.resetN = false ∨ p.phase = .held ∨ p.now < 1000000) : p.smbAnswers = false := by
  rcases h with h | h | h
  · simp [Plat.smbAnswers, h]
  · simp [Plat.smbAnswers, h]
  · simp [Plat.smbAnswers, h]

theorem Plat.smbAnswers_true {p : Plat} (hreset : p.resetN = true) (hphase : p.phase ≠ .held) (htime : 1000000 ≤ p.now) : p.smbAnswers = true := by
  simp [Plat.smbAnswers, hreset, hphase, htime]

theorem smbusBlockRead_answers (h : s.dev.plat.smbAnswers = true) (code : Nat) :
    exec (.smbusBlockRead code) s = .next { s with dev := { s.dev with plat := { s.dev.plat with smbOut := s.dev.smbBlock code } } } := if_pos h

theorem smbusBlockRead_idle (h : s.dev.plat.smbAnswers = false) (code : Nat) : exec (.smbusBlockRead code) s = .next s :=
  if_neg (by rw [h]; exact Bool.false_ne_true)

theorem smbusAlertResponse_releases (h : s.dev.plat.smbAnswers = true) (hlow : s.dev.plat.smbAlertLow = true) :
    exec .smbusAlertResponse s = .next { s with dev := { s.dev with plat := { s.dev.plat with smbAlertLow := false } } } := if_pos (by rw [h, hlow]; rfl)

theorem smbusAlertResponse_idle (h : s.dev.plat.smbAnswers = false ∨ s.dev.plat.smbAlertLow = false) : exec .smbusAlertResponse s = .next s :=
  if_neg (by rcases h with h | h <;> simp [h])

end

/-- A code of no block returns nothing. -/
theorem Dev.smbBlock_other (d : Dev) {code : Nat} (h : 4 < code) : d.smbBlock code = [] := by
  obtain ⟨n, rfl⟩ : ∃ n, code = n + 5 := ⟨code - 5, by omega⟩
  rfl

/-- The blocks of codes 0 and 1 are of 32 bytes. -/
theorem Dev.smbBlock_length (d : Dev) : (d.smbBlock 0).length = 32 ∧ (d.smbBlock 1).length = 32 := by
  rw [Dev.smbBlock, Dev.smbBlock, leBytes_length, leBytes_length]
  exact ⟨rfl, rfl⟩

/-- Settles O58: a timeout by the reason that is overdue, the tree by the summary's messages, the SMBus target by whether it answers. -/
theorem startsTimeOutAndTheSmbusAnswers : Obligations.StartsTimeOutAndTheSmbusAnswers := by
  rintro s d p rfl rfl
  refine ⟨fun r h => startStageTimeout_fails (Plat.overdue_some h), fun h => startStageTimeout_idle (Plat.overdue_none h),
    attestTreeDone_idle, fun htree hphase => ?_, fun h => ?_, fun hreset hphase htime => ?_⟩
  · obtain ⟨l, hirq, hsame, hsent⟩ := Dev.summaryIrq_eq { s.dev with plat := { s.dev.plat with attestReady := true } } s.dev.plat
    exact ⟨l, (attestTreeDone_signs htree hphase).trans (by rw [hirq]), hsame, hsent⟩
  · have hquiet := Plat.smbAnswers_false h
    exact ⟨smbusBlockRead_idle hquiet, smbusAlertResponse_idle (.inl hquiet)⟩
  · have hanswers := Plat.smbAnswers_true hreset hphase htime
    exact ⟨smbusBlockRead_answers hanswers, fun code hcode => Dev.smbBlock_other _ hcode, s.dev.smbBlock_length.1, s.dev.smbBlock_length.2,
      smbusAlertResponse_releases hanswers, fun hhigh => smbusAlertResponse_idle (.inr hhigh)⟩

end Sys2Proof.Machine
end

