-- ==== Sys2Proof/Proofs/FirmwareSlots.lean ====
section
/-! PROOFS. Firmware slots are updated and selected (R140, R143, R494 to R497, R502, R513, R514; O59). -/

namespace Sys2Proof.Machine

/-- The Husk's state may be set alike on devices that differ by replies. -/
theorem Dev.Replied.withPlat {a b : Dev} (h : a.Replied b) (p : Plat) : ({ a with plat := p } : Dev).Replied { b with plat := p } :=
  h.map (fun d => { d with plat := p }) (fun _ => rfl) (fun _ => rfl) (fun _ => rfl) (fun _ => rfl) (fun _ => rfl)

/-! ## Flash (R494) -/

/-- Bytes outside the written range read as before. -/
theorem flByte_flWrite_other (bs : List Byte) : ∀ (f : Tab Byte) (a x : Nat), x < a ∨ a + bs.length ≤ x → flByte (flWrite f a bs) x = flByte f x := by
  induction bs with
  | nil => exact fun _ _ _ _ => rfl
  | cons b bs ih =>
    intro f a x hx
    rw [List.length_cons] at hx
    rw [flWrite, ih _ _ _ (by omega), flByte, Tab.get_set, if_neg (by omega), flByte]

/-- The written bytes stand in their places. -/
theorem flByte_flWrite (bs : List Byte) : ∀ (f : Tab Byte) (a i : Nat) (b : Byte), bs[i]? = some b → flByte (flWrite f a bs) (a + i) = b := by
  induction bs with
  | nil => exact fun _ _ _ _ h => by simp at h
  | cons c bs ih =>
    intro f a i b h
    cases i with
    | zero =>
      obtain rfl : c = b := by simpa using h
      show flByte (flWrite (Tab.set 0xFF f a c) (a + 1) bs) a = c
      rw [flByte_flWrite_other _ _ _ _ (.inl (Nat.lt_add_one a)), flByte, Tab.get_set, if_pos rfl]
    | succ i =>
      rw [List.getElem?_cons_succ] at h
      rw [flWrite, show a + (i + 1) = a + 1 + i by omega]
      exact ih _ _ _ _ h

/-- An erased byte reads 0xFF, and every other one as before. -/
theorem flByte_flErase (f : Tab Byte) (a n x : Nat) : flByte (flErase f a n) x = if x < a ∨ a + n ≤ x then flByte f x else 0xFF := by
  have hget := Tab.get_filter_key (0xFF : Byte) (fun k => decide (k < a) || decide (a + n ≤ k)) f x
  simp only [Bool.or_eq_true, decide_eq_true_eq] at hget
  exact hget

/-- A slot as its update writes it: the erased slot with the image's bytes. -/
def flashSlot (f : Tab Byte) (img : Nat) (bs : List Byte) : Tab Byte := flWrite (flErase f (slotBase img) slotSize_) (slotBase img) bs

section
variable {f : Tab Byte} {img x : Nat} {bs : List Byte}

/-- Behind the image the slot reads erased. -/
theorem flashSlot_rest (hlo : slotBase img + bs.length ≤ x) (hhi : x < slotBase img + 0x1800000) : flByte (flashSlot f img bs) x = 0xFF := by
  rw [flashSlot, flByte_flWrite_other _ _ _ _ (.inr hlo), flByte_flErase, if_neg (by rw [slotSize_]; omega)]

/-- Outside the slot flash is as before. -/
theorem flashSlot_outside (hlen : bs.length ≤ 0x1800000) (hx : x < slotBase img ∨ slotBase img + 0x1800000 ≤ x) :
    flByte (flashSlot f img bs) x = flByte f x := by
  rw [flashSlot, flByte_flWrite_other _ _ _ _ (by omega), flByte_flErase, if_pos (by rw [slotSize_]; exact hx)]

end

/-! ## A command that reads bad bytes (R140, R143, R144) -/

/-- A fault record changes the log alone, which it makes one longer where there is room. -/
theorem Plat.log_eq (p : Plat) (r : FaultRec) : ∃ l n, p.log r = { p with faultLog := l, faultLost := n } ∧
    (p.faultLog.length < 64 → l.length = p.faultLog.length + 1) := by
  unfold Plat.log
  split
  · exact ⟨_, p.faultLost, rfl, fun _ => List.length_append ..⟩
  · next hfull => exact ⟨p.faultLog, _, rfl, fun h => absurd h hfull⟩

/-- A parity error that a command's own read meets: the fault log takes one record, and the Husk and the plan handles are otherwise as before. -/
theorem Dev.readFault_logs (d : Dev) (c : Cmd) (a : Nat) : (d.readFault c a).planUsed = d.planUsed ∧
    ∃ l n, (d.readFault c a).plat = { d.plat with faultLog := l, faultLost := n } ∧ (d.plat.faultLog.length < 64 → l.length = d.plat.faultLog.length + 1) := by
  obtain ⟨l, n, hlog, hlen⟩ := d.plat.log_eq (faultOf 13 4 0 (some c) a)
  obtain ⟨o, ctr, hframe⟩ := Dev.traceFaults_frame { d with ctr := bump d.ctr cobInst 0x1A 1, plat := d.plat.log (faultOf 13 4 0 (some c) a) } 13 4 0 (some c) [a]
  have hnote : d.noteFault cobInst 13 4 0 (some c) a = { d with plat := { d.plat with faultLog := l, faultLost := n }, ctr := ctr, obs := o } := by
    rw [← hlog]
    exact hframe
  have hrep : ({ d with plat := { d.plat with faultLog := l, faultLost := n }, ctr := ctr, obs := o } : Dev).Replied (d.readFault c a) := by
    rw [Dev.readFault, hnote]
    exact Dev.finish_replied ..
  exact ⟨hrep.planUsed, l, n, hrep.plat, hlen⟩

/-! ## FW_UPDATE (R502, R513) -/

theorem exec_fwUpdate (q img src len : Nat) (ok : Bool) (s : State) : exec (.fwUpdate q img src len ok) s = execFwUpdate q img src len ok s := rfl

/-- The fields of FW_UPDATE that its checks find wrong. -/
def Dev.fwParam (d : Dev) (img a len : Nat) : Option Nat :=
  firstBadField [(d.plat.phase == .dormant || img != d.plat.fwImage, fieldByte [1, 64, 32] 0), (d.cmdReadable a len, fieldByte [1, 64, 32] 1),
    (len ≤ slotSize_, fieldByte [1, 64, 32] 2)]

/-- Its check 7. -/
def Dev.fwOwn (d : Dev) : Option (Nat × Nat × List Nat) := if d.plat.fwUpd.isSome then some (stBusy, 0, []) else none

/-- What signatures give as R496 reads it: 0 they verify, 1 they do not. -/
theorem b2n_not (ok : Bool) : b2n (!ok) = if ok then 0 else 1 := by cases ok <;> rfl

/-- The bytes that an image command has read pass R496. -/
def Plat.imagePasses (p : Plat) (data : List Byte) (len : Nat) (ok : Bool) : Prop :=
  4096 < len ∧ p.slotOutcome (leNat (data.take 48)) (if ok then 0 else 1) = 0

/-- The update of a slot begins: its image is kept and the slot's header sector erased. -/
def Dev.beginUpdate (d : Dev) (cmd img : Nat) (data : List Byte) : Dev :=
  { d with plat := { d.plat with fwUpd := some { cmd := cmd, image := img, data := data }, flash := flErase d.plat.flash (slotBase img) 0x10000 } }

/-- What FW_UPDATE does with an image without a parity error. -/
def Dev.takeImage (d : Dev) (c : Cmd) (img len : Nat) (data : List Byte) (verifies : Bool) : Dev :=
  if 4096 < len ∧ d.plat.slotOutcome (leNat (data.take 48)) (b2n (!verifies)) = 0 then d.beginUpdate c.id img data else d.finish c.id stAuth 0 []

/-- What FW_UPDATE does as it starts. -/
def Dev.fwEffect (img a len : Nat) (verifies : Bool) (d : Dev) (c : Cmd) : Dev :=
  match firstBad (d.accept c).poison a len with
  | some x => (d.accept c).readFault c x
  | none => (d.accept c).takeImage c img len (rdBytes d.mem a len) verifies

theorem execFwUpdate_eq (q img src len : Nat) (ok : Bool) (s : State) : execFwUpdate q img src len ok s =
    startCmd s q 0x0B01 [1, 64, 32] [img, src, len] (fun d => { param := d.fwParam img (src % 2 ^ 48) len, own := d.fwOwn })
      (Dev.fwEffect img (src % 2 ^ 48) len ok) := rfl

section
variable {d : Dev} {img a len : Nat}

theorem Dev.fwParam_bad (hbad : (d.plat.phase ≠ .dormant ∧ img = d.plat.fwImage) ∨ d.cmdReadable a len = false ∨ 0x1800000 < len) :
    d.fwParam img a len ≠ none := by
  refine firstBadField_some ?_
  rcases hbad with ⟨hphase, himg⟩ | hread | hlen
  · exact ⟨_, .head _, by simp [hphase, himg]⟩
  · exact ⟨_, .tail _ (.head _), hread⟩
  · exact ⟨_, .tail _ (.tail _ (.head _)), decide_eq_false (by rw [slotSize_]; omega)⟩

theorem Dev.fwParam_none (himg : d.plat.phase = .dormant ∨ img ≠ d.plat.fwImage) (hread : d.cmdReadable a len = true) (hlen : len ≤ 0x1800000) :
    d.fwParam img a len = none := by
  refine firstBadField_none ?_
  have hother : (d.plat.phase == .dormant || img != d.plat.fwImage) = true := by simpa using himg
  simp [hother, hread, slotSize_, hlen]

theorem Dev.fwOwn_bad (h : d.plat.fwUpd ≠ none) : d.fwOwn ≠ none := by
  rw [Dev.fwOwn, if_pos (Option.isSome_iff_ne_none.2 h)]
  exact Option.some_ne_none _

theorem Dev.fwOwn_none (h : d.plat.fwUpd = none) : d.fwOwn = none := by rw [Dev.fwOwn, h]; rfl

end

/-- The start of a command and its ACCEPTED reply are replies alone. -/
theorem Dev.begun_accepted (d : Dev) (q : Nat) (p : Packet) : d.Replied ((d.begin_ q p).1.accept (d.begin_ q p).2) :=
  (d.begin__replied q p).trans (Dev.accept_replied ..)

section
variable {s : State} {q img src len : Nat} {ok : Bool} {f : PacketForm} {p : Packet} (hadm : s.Admits (.fwUpdate q img src len ok) f p)
include hadm

theorem fwUpdate_refuses (hbad : s.dev.fwParam img (src % 2 ^ 48) len ≠ none ∨ s.dev.fwOwn ≠ none) :
    Res.Becomes s s.dev (exec (.fwUpdate q img src len ok) s) := by
  cases hadm.form
  rw [exec_fwUpdate, execFwUpdate_eq]
  exact hadm.toFronts.refusedBy hbad

/-- An admitted update with an image in memory becomes what its effect leaves. -/
theorem fwUpdate_becomes {d : Dev} (hparam : s.dev.fwParam img (src % 2 ^ 48) len = none) (hown : s.dev.fwOwn = none)
    (heff : d.Replied (Dev.fwEffect img (src % 2 ^ 48) len ok (s.dev.begin_ q p).1 (s.dev.begin_ q p).2)) :
    Res.Becomes s d (exec (.fwUpdate q img src len ok) s) := by
  cases hadm.form
  rw [exec_fwUpdate, execFwUpdate_eq]
  exact hadm.becomes rfl ⟨hparam, hown, rfl⟩ heff

end

section
variable {d : Dev} {q img a len : Nat} {ok : Bool} {p : Packet}

/-- A parity error in the image. -/
theorem Dev.fwEffect_parity {x : Nat} (hbad : firstBad d.poison a len = some x) :
    Dev.fwEffect img a len ok (d.begin_ q p).1 (d.begin_ q p).2 = ((d.begin_ q p).1.accept (d.begin_ q p).2).readFault (d.begin_ q p).2 x := by
  rw [Dev.fwEffect, (d.begun_accepted q p).poison, hbad]

/-- An image without a parity error. -/
theorem Dev.fwEffect_clean (hgood : firstBad d.poison a len = none) : Dev.fwEffect img a len ok (d.begin_ q p).1 (d.begin_ q p).2 =
    ((d.begin_ q p).1.accept (d.begin_ q p).2).takeImage (d.begin_ q p).2 img len (rdBytes d.mem a len) ok := by
  have hmem : (d.begin_ q p).1.mem = d.mem := Dev.trace_mem ..
  rw [Dev.fwEffect, (d.begun_accepted q p).poison, hgood, hmem]

/-- An image that passes R496 is taken. -/
theorem Dev.takeImage_begins {e : Dev} {c : Cmd} {data : List Byte} (hpass : e.plat.imagePasses data len ok) :
    e.takeImage c img len data ok = e.beginUpdate c.id img data := by
  rw [Dev.takeImage, b2n_not]
  exact if_pos hpass

/-- One that does not pass is answered AUTH_FAILED. -/
theorem Dev.takeImage_fails {e : Dev} {c : Cmd} {data : List Byte} (hfail : ¬ e.plat.imagePasses data len ok) :
    e.takeImage c img len data ok = e.finish c.id stAuth 0 [] := by
  rw [Dev.takeImage, b2n_not]
  exact if_neg hfail

theorem Dev.Replied.beginUpdate {b : Dev} (h : d.Replied b) (cmd : Nat) (data : List Byte) :
    (d.beginUpdate cmd img data).Replied (b.beginUpdate cmd img data) := by
  rw [Dev.beginUpdate, Dev.beginUpdate, h.plat]
  exact h.withPlat _

end

/-! ## FW_UPDATE_DONE (R502, R513) -/

theorem exec_fwUpdateDone (ok : Bool) (s : State) : exec (.fwUpdateDone ok) s = execFwUpdateDone ok s := rfl

/-- The Husk's state with a slot written and the update ended. -/
def Plat.slotWritten (p : Plat) (u : FwUpd) (bs : List Byte) : Plat := { p with fwUpd := none, flash := flashSlot p.flash u.image bs }

section
variable {s : State} {u : FwUpd}

theorem fwUpdateDone_idle (h : s.dev.plat.fwUpd = none) (ok : Bool) : exec (.fwUpdateDone ok) s = .next s := by
  rw [exec_fwUpdateDone, execFwUpdateDone, h]

/-- The slot as written reads back, outside dormant mode. -/
theorem fwUpdateDone_running (h : s.dev.plat.fwUpd = some u) (hphase : s.dev.plat.phase ≠ .dormant) : exec (.fwUpdateDone true) s = .next { s with
    dev := ({ s.dev with plat := s.dev.plat.slotWritten u u.data } : Dev).finish u.cmd stDone 0 [] } := by
  have hnot : (true && s.dev.plat.phase == .dormant) = false := by simpa using hphase
  rw [exec_fwUpdateDone, execFwUpdateDone, h]
  dsimp only
  simp only [hnot, Bool.false_eq_true, ↓reduceIte]
  rfl

/-- The slot as written reads back in dormant mode. -/
theorem fwUpdateDone_dormant (h : s.dev.plat.fwUpd = some u) (hphase : s.dev.plat.phase = .dormant) : exec (.fwUpdateDone true) s = .next { s with
    dev := ({ s.dev with plat := (s.dev.plat.slotWritten u u.data).select u.image } : Dev).finish u.cmd stDone 0 [] } := by
  have hdormant : (true && s.dev.plat.phase == .dormant) = true := by simpa using hphase
  rw [exec_fwUpdateDone, execFwUpdateDone, h]
  dsimp only
  simp only [hdormant, ↓reduceIte]
  rfl

/-- The read-back differs. -/
theorem fwUpdateDone_differs (h : s.dev.plat.fwUpd = some u) : exec (.fwUpdateDone false) s = .next { s with
    dev := ({ s.dev with plat := { s.dev.plat.slotWritten u (freeBytes s.dev.plat.freeCount u.data.length) with
      freeCount := s.dev.plat.freeCount + 1 } } : Dev).finish u.cmd stParity 0 [] } := by
  rw [exec_fwUpdateDone, execFwUpdateDone, h]
  rfl

end

/-! ## FW_SELECT (R514) -/

/-- The check 7 of FW_SELECT. -/
def Dev.selectOwn (d : Dev) (img : Nat) (verifies : Bool) : Option (Nat × Nat × List Nat) :=
  if d.plat.fwUpd.any (fun u => u.image == img) then some (stBusy, 0, [])
  else if d.plat.slotOutcome (d.plat.slotHdr img) (b2n (!verifies)) != 0 then some (stAuth, 0, []) else none

theorem execFwSelect_eq (q img : Nat) (ok : Bool) (s : State) : execFwSelect q img ok s =
    startCmd s q 0x0B02 [1] [img] (fun d => { own := d.selectOwn img ok }) (doneAt (fun d => { d with plat := d.plat.select img })) := by
  unfold execFwSelect
  congr 1
  funext d
  unfold Dev.selectOwn
  cases d.plat.fwUpd <;> rfl

section
variable {d : Dev} {img : Nat} {ok : Bool}

theorem Dev.selectOwn_none (hidle : ∀ u, d.plat.fwUpd = some u → u.image ≠ img)
    (hpass : d.plat.slotOutcome (d.plat.slotHdr img) (if ok then 0 else 1) = 0) : d.selectOwn img ok = none := by
  have hother : d.plat.fwUpd.any (fun u => u.image == img) = false := by
    cases hu : d.plat.fwUpd with
    | none => rfl
    | some u => simpa using hidle u hu
  simp only [Dev.selectOwn, hother, b2n_not, hpass, bne_self_eq_false, Bool.false_eq_true, if_false]

theorem Dev.selectOwn_bad (hbad : (∃ u, d.plat.fwUpd = some u ∧ u.image = img) ∨ d.plat.slotOutcome (d.plat.slotHdr img) (if ok then 0 else 1) ≠ 0) :
    d.selectOwn img ok ≠ none := by
  rw [Dev.selectOwn, b2n_not]
  rcases hbad with ⟨u, hu, himg⟩ | hfail
  · rw [hu, if_pos (by simpa using himg)]
    exact Option.some_ne_none _
  · rw [if_pos (c := (d.plat.slotOutcome (d.plat.slotHdr img) (if ok then 0 else 1) != 0) = true) (by simpa using hfail)]
    split <;> exact Option.some_ne_none _

end

section
variable {s : State} {q img : Nat} {ok : Bool} {f : PacketForm} {p : Packet} (hadm : s.Admits (.fwSelect q img ok) f p)
include hadm

theorem fwSelect_selects (hown : s.dev.selectOwn img ok = none) :
    Res.Becomes s { s.dev with plat := s.dev.plat.select img } (exec (.fwSelect q img ok) s) := by
  have hbegun := s.dev.begin__replied q p
  cases hadm.form
  rw [exec_fwSelect, execFwSelect_eq]
  refine hadm.doneBy rfl ⟨rfl, hown, rfl⟩ ?_
  dsimp only
  rw [hbegun.plat]
  exact hbegun.withPlat _

theorem fwSelect_refuses (hown : s.dev.selectOwn img ok ≠ none) : Res.Becomes s s.dev (exec (.fwSelect q img ok) s) := by
  cases hadm.form
  rw [exec_fwSelect, execFwSelect_eq]
  exact hadm.toFronts.refusedBy (.inr hown)

end

/-! ## O59 -/

section
variable {s : State} {q img src len : Nat} {ok : Bool} {f : PacketForm} {k : Packet} (hadm : s.Admits (.fwUpdate q img src len ok) f k)
  (hparam : s.dev.fwParam img (src % 2 ^ 48) len = none) (hown : s.dev.fwOwn = none)
include hadm hparam hown

/-- An image with a parity error writes nothing, and the fault log takes one record. -/
theorem fwUpdate_parity (hbad : firstBad s.dev.poison (src % 2 ^ 48) len ≠ none) : ∃ t : State, exec (.fwUpdate q img src len ok) s = .next t ∧
    t.pending = s.pending ∧ t.dev.plat.flash = s.dev.plat.flash ∧ t.dev.plat.fwUpd = s.dev.plat.fwUpd ∧
    (s.dev.plat.faultLog.length < 64 → t.dev.plat.faultLog.length = s.dev.plat.faultLog.length + 1) := by
  obtain ⟨x, hx⟩ := Option.ne_none_iff_exists'.1 hbad
  have hacc := s.dev.begun_accepted q k
  obtain ⟨-, l, n, hplat, hlen⟩ := ((s.dev.begin_ q k).1.accept (s.dev.begin_ q k).2).readFault_logs (s.dev.begin_ q k).2 x
  rw [← Dev.fwEffect_parity (ok := ok) (img := img) hx, hacc.plat] at hplat
  rw [hacc.plat] at hlen
  cases hadm.form
  have hexec : exec (.fwUpdate q img src len ok) s = _ := (execFwUpdate_eq ..).trans (hadm.starts rfl ⟨hparam, hown, rfl⟩)
  have hend := (Dev.settled_replied (Dev.fwEffect img (src % 2 ^ 48) len ok (s.dev.begin_ q k).1 (s.dev.begin_ q k).2)).plat.trans hplat
  refine ⟨_, hexec, rfl, ?_⟩
  dsimp only
  rw [hend]
  exact ⟨rfl, rfl, hlen⟩

theorem fwUpdate_begins (hgood : firstBad s.dev.poison (src % 2 ^ 48) len = none)
    (hpass : s.dev.plat.imagePasses (rdBytes s.dev.mem (src % 2 ^ 48) len) len ok) :
    Res.Becomes s (s.dev.beginUpdate s.dev.host.nextCmd img (rdBytes s.dev.mem (src % 2 ^ 48) len)) (exec (.fwUpdate q img src len ok) s) := by
  have hacc := s.dev.begun_accepted q k
  refine fwUpdate_becomes hadm hparam hown ?_
  rw [Dev.fwEffect_clean hgood, Dev.takeImage_begins (by rw [hacc.plat]; exact hpass), Dev.begin_id]
  exact hacc.beginUpdate ..

theorem fwUpdate_fails (hgood : firstBad s.dev.poison (src % 2 ^ 48) len = none)
    (hfail : ¬ s.dev.plat.imagePasses (rdBytes s.dev.mem (src % 2 ^ 48) len) len ok) : Res.Becomes s s.dev (exec (.fwUpdate q img src len ok) s) := by
  have hacc := s.dev.begun_accepted q k
  refine fwUpdate_becomes hadm hparam hown ?_
  rw [Dev.fwEffect_clean hgood, Dev.takeImage_fails (by rw [hacc.plat]; exact hfail)]
  exact hacc.trans (Dev.finish_replied ..)

end

/-- Settles O59: FW_UPDATE by what its effect finds in the image, FW_UPDATE_DONE by the slot that it writes, FW_SELECT by its checks. -/
theorem firmwareCommandsWriteSlots : Obligations.FirmwareCommandsWriteSlots := by
  rintro s d p rfl rfl
  refine ⟨?_, fun q f k img ok hadm _ => ⟨fun hidle hpass => fwSelect_selects hadm (Dev.selectOwn_none hidle hpass),
    fun hbad => fwSelect_refuses hadm (Dev.selectOwn_bad hbad)⟩, fun ok hnone => fwUpdateDone_idle hnone ok, ?_⟩
  · rintro q f k img src len ok a hadm - rfl
    refine ⟨fun hbad => ?_, fun himg hread hlen hnone => ?_⟩
    · rcases hbad with himg | hread | hlen | hbusy
      · exact fwUpdate_refuses hadm (.inl (Dev.fwParam_bad (.inl himg)))
      · exact fwUpdate_refuses hadm (.inl (Dev.fwParam_bad (.inr (.inl hread))))
      · exact fwUpdate_refuses hadm (.inl (Dev.fwParam_bad (.inr (.inr hlen))))
      · exact fwUpdate_refuses hadm (.inr (Dev.fwOwn_bad hbusy))
    · have hparam := Dev.fwParam_none himg hread hlen
      have hown := Dev.fwOwn_none hnone
      refine ⟨fun hbad => ?_, fun hgood hlong hpass => fwUpdate_begins hadm hparam hown hgood ⟨hlong, hpass⟩, fun hgood hfail =>
        fwUpdate_fails hadm hparam hown hgood fun ⟨hlong, hpass⟩ => hfail.elim (fun hshort => absurd hlong (by omega)) (fun hno => hno hpass)⟩
      obtain ⟨t, hexec, hpending, hflash, hupd, hlog⟩ := fwUpdate_parity hadm hparam hown hbad
      exact ⟨t, hexec, hpending, hflash, hupd.trans hnone, hlog⟩
  · intro u hu hlen _
    have hoff : ∀ {bs : List Byte}, bs.length ≤ 0x1800000 → ∀ a, (a < slotBase u.image ∨ slotBase u.image + 0x1800000 ≤ a) →
        flByte (flashSlot s.dev.plat.flash u.image bs) a = flByte s.dev.plat.flash a := fun hbs _ => flashSlot_outside hbs
    refine ⟨?_, ?_⟩
    · by_cases hphase : s.dev.plat.phase = .dormant
      · exact ⟨_, flashSlot s.dev.plat.flash u.image u.data, fwUpdateDone_dormant hu hphase, rfl, fun h => absurd hphase h,
          fun _ => Dev.finish_replied .., fun i b hi => flByte_flWrite _ _ _ _ _ hi, fun a => flashSlot_rest, hoff hlen⟩
      · exact ⟨_, flashSlot s.dev.plat.flash u.image u.data, fwUpdateDone_running hu hphase, rfl, fun _ => Dev.finish_replied ..,
          fun h => absurd h hphase, fun i b hi => flByte_flWrite _ _ _ _ _ hi, fun a => flashSlot_rest, hoff hlen⟩
    · have hfree : (freeBytes s.dev.plat.freeCount u.data.length).length = u.data.length := by rw [freeBytes, List.length_map, List.length_range]
      exact ⟨_, flashSlot s.dev.plat.flash u.image (freeBytes s.dev.plat.freeCount u.data.length), fwUpdateDone_differs hu, rfl,
        Dev.finish_replied .., hoff (hfree.trans_le hlen)⟩

end Sys2Proof.Machine
end

