-- ==== Sys2Proof/Proofs/LifeCycle.lean ====
section
/-! PROOFS. The life cycle moves, reports are signed, and the TAP selects registers (R140, R143, R499, R505 to R512; O60). -/

namespace Sys2Proof.Machine

/-! ## LIFECYCLE (R506 to R508) -/

theorem exec_lifecycle (q target cred len : Nat) (ok : Bool) (seed key : Nat) (s : State) :
    exec (.lifecycle q target cred len ok seed key) s = execLifecycle q target cred len ok seed key s := rfl

/-- The fields of LIFECYCLE that its checks find wrong. -/
def Dev.lifeParam (d : Dev) (target a len : Nat) : Option Nat :=
  firstBadField [(target ≤ 4, fieldByte [3, 64, 32] 0), (d.cmdReadable a len, fieldByte [3, 64, 32] 1),
    (len == 64 + 5456 * signerCount (bits (rdNat d.mem a 64) 8 2), fieldByte [3, 64, 32] 2)]

/-- The credential fits the transition, and its signatures verify where the transition needs any. -/
def Plat.credPasses (p : Plat) (target hdr : Nat) (ok : Bool) : Bool := p.credFits target hdr && (signerCount (p.signers target) == 0 || ok)

/-- Its check 7, which leaves a credential with a parity error to the read. -/
def Dev.lifeOwn (d : Dev) (target a len : Nat) (ok : Bool) : Option (Nat × Nat × List Nat) :=
  if anyBad d.poison a len then none else if d.plat.credPasses target (rdNat d.mem a 64) ok then none else some (stAuth, 0, [])

/-- Its own checks. -/
def Dev.lifeChecks (d : Dev) (target a len : Nat) (ok : Bool) : Checks :=
  { param := d.lifeParam target a len, denied := !d.plat.transition target, own := d.lifeOwn target a len ok }

/-- The attestation key that the reply of the transition out of BLANK carries. -/
def Plat.keyEntries (p : Plat) (target key : Nat) : List Nat :=
  if p.lcWord = 0 ∧ target = 1 then (List.range 4).map (fun i => bits (key % 2 ^ 480) (128 * i) 128) else []

/-- The wiped device with the transition burned. -/
def Dev.lifeBurned (d : Dev) (id target hdr seed : Nat) : Dev :=
  { d.lcWipe id with plat := (d.lcWipe id).plat.lcBurn target hdr seed }.summaryIrq (d.lcWipe id).plat

/-- That device with its restart noted. -/
def Dev.lifeMoved (d : Dev) (id target hdr seed : Nat) : Dev :=
  { d.lifeBurned id target hdr seed with plat := { (d.lifeBurned id target hdr seed).plat with
      lifeAt := if (d.lifeBurned id target hdr seed).plat.phase = Phase.dormant then none else some (d.lifeBurned id target hdr seed).plat.now } }

/-- What LIFECYCLE does as it starts. -/
def Dev.lifeEffect (target a len seed key : Nat) (d : Dev) (c : Cmd) : Dev :=
  match firstBad d.poison a len with
  | some x => (d.accept c).readFault c x
  | none => ((d.accept c).lifeMoved c.id target (rdNat d.mem a 64) seed).finish c.id stDone 0 (d.plat.keyEntries target key)

theorem execLifecycle_eq (q target cred len : Nat) (ok : Bool) (seed key : Nat) (s : State) : execLifecycle q target cred len ok seed key s =
    startCmd s q 0x0B03 [3, 64, 32] [target, cred, len] (fun d => d.lifeChecks target (cred % 2 ^ 48) len ok)
      (Dev.lifeEffect target (cred % 2 ^ 48) len seed key) := by
  unfold execLifecycle
  dsimp only
  refine congr (congrArg (startCmd s q 0x0B03 [3, 64, 32] [target, cred, len]) rfl) (funext fun d => funext fun c => ?_)
  unfold Dev.lifeEffect Dev.lifeMoved Dev.lifeBurned Plat.keyEntries
  cases firstBad d.poison (cred % 2 ^ 48) len with
  | some x => rfl
  | none => dsimp only

theorem anyBad_eq (p : Tab Bool) (a n : Nat) : anyBad p a n = (firstBad p a n).isSome := by
  rw [firstBad, Option.isSome_map, List.isSome_find?, anyBad]

section
variable {d : Dev} {target a len : Nat} {ok : Bool}

theorem Dev.lifeParam_none (htarget : target ≤ 4) (hread : d.cmdReadable a len = true)
    (hlen : len = 64 + 5456 * signerCount (bits (rdNat d.mem a 64) 8 2)) : d.lifeParam target a len = none := by
  have hfits : (len == 64 + 5456 * signerCount (bits (rdNat d.mem a 64) 8 2)) = true := beq_iff_eq.2 hlen
  rw [Dev.lifeParam, hfits, hread, decide_eq_true htarget]
  rfl

/-- A credential with a parity error passes the check. -/
theorem Dev.lifeOwn_parity (hbad : firstBad d.poison a len ≠ none) : d.lifeOwn target a len ok = none := by
  rw [Dev.lifeOwn, anyBad_eq, if_pos (Option.isSome_iff_ne_none.2 hbad)]

/-- A credential without one passes it where it fits and verifies. -/
theorem Dev.lifeOwn_clean (hgood : firstBad d.poison a len = none) :
    d.lifeOwn target a len ok = if d.plat.credPasses target (rdNat d.mem a 64) ok then none else some (stAuth, 0, []) := by
  rw [Dev.lifeOwn, anyBad_eq, hgood, Option.isSome_none, if_neg Bool.false_ne_true]

end

/-- A transition leaves the Husk's time, its stage and the rollback floor. -/
theorem Plat.lcBurn_keeps (p : Plat) (target hdr seed : Nat) :
    (p.lcBurn target hdr seed).phase = p.phase ∧ (p.lcBurn target hdr seed).now = p.now ∧ (p.lcBurn target hdr seed).svnFloor = p.svnFloor ∧
      (p.lcBurn target hdr seed).lcWord = target := by
  unfold Plat.lcBurn
  dsimp only
  split
  · next htarget => exact ⟨rfl, rfl, rfl, htarget.symm⟩
  · exact ⟨rfl, rfl, rfl, rfl⟩

/-- A transition to a state but RETIRED takes one step of LC_COUNT. -/
theorem Plat.lcBurn_step_of_ne (p : Plat) {target : Nat} (hdr seed : Nat) (h : target ≠ 3) : (p.lcBurn target hdr seed).lcCount = p.lcCount + 1 ∧
    (p.lcBurn target hdr seed).attestStep = p.attestStep ∧ (target = 4 → (p.lcBurn target hdr seed).lcPrior = p.lcWord) := by
  rw [Plat.lcBurn, if_neg h]
  exact ⟨rfl, rfl, fun htarget => if_pos htarget⟩

/-- RETIRED ends the arrays and the secret. -/
theorem Plat.lcBurn_retired (p : Plat) (hdr seed : Nat) : (p.lcBurn 3 hdr seed).lcCount = 1024 ∧ (p.lcBurn 3 hdr seed).attestStep = 4096 ∧
    (p.lcBurn 3 hdr seed).secretSeed = 0 := ⟨rfl, rfl, rfl⟩

/-- Below the host windows a wiped store reads 0. -/
theorem rdByte_keepHost_low {m : Tab Byte} {a : Nat} (ha : a < hostBase 0) : rdByte (keepHost m) a = 0 := by
  have hget := Tab.get_filter_key (0 : Byte) (fun k => decide (hostBase 0 ≤ k)) m a
  rw [if_neg (by simpa using ha)] at hget
  exact hget

/-- What a transition leaves: cells and restart, no plan, no core, wiped storage and queues with their registers. -/
structure Dev.LifeMoved (d e : Dev) (target hdr seed : Nat) : Prop where
  plat : e.plat = { d.plat.lcBurn target hdr seed with lifeAt := if d.plat.phase = Phase.dormant then none else some d.plat.now }
  planUsed : e.planUsed = []
  cores : e.cores = []
  mem : ∀ b, b < hostBase 0 → rdByte e.mem b = 0
  setup : ∀ j, (e.host.queue j).setup = (d.host.queue j).setup

/-- What a transition leaves does not depend on replies before it. -/
theorem Dev.LifeMoved.of_replied {a b e : Dev} {target hdr seed : Nat} (h : b.LifeMoved e target hdr seed) (hrep : a.Replied b) :
    a.LifeMoved e target hdr seed := by
  obtain ⟨hplat, hused, hcores, hzero, hsetup⟩ := h
  rw [hrep.plat] at hplat
  exact ⟨hplat, hused, hcores, hzero, fun j => (hsetup j).trans (hrep.setup j)⟩

theorem Dev.lifeMoved_moves (d : Dev) (id target hdr seed : Nat) : d.LifeMoved (d.lifeMoved id target hdr seed) target hdr seed := by
  have habort := Dev.abortAll_replied d id
  obtain ⟨l, hirq, -⟩ := Dev.summaryIrq_eq { d.lcWipe id with plat := (d.lcWipe id).plat.lcBurn target hdr seed } (d.lcWipe id).plat
  have hplat : (d.lcWipe id).plat = d.plat := habort.plat
  obtain ⟨hphase, hnow, -⟩ := d.plat.lcBurn_keeps target hdr seed
  unfold Dev.lifeMoved Dev.lifeBurned
  rw [hirq]
  refine ⟨?_, rfl, rfl, fun b hb => rdByte_keepHost_low hb, habort.setup⟩
  dsimp only
  rw [hplat, hphase, hnow]

section
variable {s : State} {q target cred len seed key : Nat} {ok : Bool} {f : PacketForm} {k : Packet}
  (hadm : s.Admits (.lifecycle q target cred len ok seed key) f k)
include hadm

theorem lifecycle_refuses (hbad : s.dev.plat.transition target = false ∨ s.dev.lifeOwn target (cred % 2 ^ 48) len ok ≠ none) :
    Res.Becomes s s.dev (exec (.lifecycle q target cred len ok seed key) s) := by
  cases hadm.form
  rw [exec_lifecycle, execLifecycle_eq]
  refine startCmdLen_refused hadm.head fun hpasses => ?_
  obtain ⟨-, hown, hdenied⟩ := Dev.refusal_none hpasses
  rcases hbad with htrans | hbad
  · rw [Dev.lifeChecks, htrans] at hdenied
    exact Bool.noConfusion hdenied
  · exact hbad hown

/-- An admitted transition with a credential that its check passes takes its effect. -/
theorem lifecycle_starts (hparam : s.dev.lifeParam target (cred % 2 ^ 48) len = none) (htrans : s.dev.plat.transition target = true)
    (hown : s.dev.lifeOwn target (cred % 2 ^ 48) len ok = none) : exec (.lifecycle q target cred len ok seed key) s = .next { s with
      dev := (Dev.lifeEffect target (cred % 2 ^ 48) len seed key (s.dev.begin_ q k).1 (s.dev.begin_ q k).2).settled } := by
  cases hadm.form
  rw [exec_lifecycle, execLifecycle_eq]
  exact hadm.starts rfl ⟨hparam, hown, by rw [Dev.lifeChecks, htrans]; rfl⟩

/-- A credential with a parity error burns no cell, and the fault log takes one record. -/
theorem lifecycle_parity (hparam : s.dev.lifeParam target (cred % 2 ^ 48) len = none) (htrans : s.dev.plat.transition target = true)
    (hbad : firstBad s.dev.poison (cred % 2 ^ 48) len ≠ none) : ∃ t : State, exec (.lifecycle q target cred len ok seed key) s = .next t ∧
      t.pending = s.pending ∧ t.dev.plat.otp = s.dev.plat.otp ∧ t.dev.planUsed = s.dev.planUsed ∧ t.dev.plat.lifeAt = s.dev.plat.lifeAt ∧
      (s.dev.plat.faultLog.length < 64 → t.dev.plat.faultLog.length = s.dev.plat.faultLog.length + 1) := by
  obtain ⟨x, hx⟩ := Option.ne_none_iff_exists'.1 hbad
  have hacc := s.dev.begun_accepted q k
  obtain ⟨hused, l, n, hplat, hlen⟩ := ((s.dev.begin_ q k).1.accept (s.dev.begin_ q k).2).readFault_logs (s.dev.begin_ q k).2 x
  have heff : Dev.lifeEffect target (cred % 2 ^ 48) len seed key (s.dev.begin_ q k).1 (s.dev.begin_ q k).2 =
      ((s.dev.begin_ q k).1.accept (s.dev.begin_ q k).2).readFault (s.dev.begin_ q k).2 x := by
    rw [Dev.lifeEffect, (s.dev.begin__replied q k).poison, hx]
  rw [hacc.plat] at hplat hlen
  have hend := Dev.settled_replied (((s.dev.begin_ q k).1.accept (s.dev.begin_ q k).2).readFault (s.dev.begin_ q k).2 x)
  refine ⟨_, lifecycle_starts hadm hparam htrans (Dev.lifeOwn_parity hbad), rfl, ?_⟩
  dsimp only
  rw [heff, hend.plat, hend.planUsed, hused, hplat, hacc.planUsed]
  exact ⟨rfl, rfl, rfl, hlen⟩

/-- A credential that fits and verifies: the transition is made, and the next state differs from it by replies. -/
theorem lifecycle_moves (hparam : s.dev.lifeParam target (cred % 2 ^ 48) len = none) (htrans : s.dev.plat.transition target = true)
    (hgood : firstBad s.dev.poison (cred % 2 ^ 48) len = none) (hpass : s.dev.plat.credPasses target (rdNat s.dev.mem (cred % 2 ^ 48) 64) ok = true) :
    ∃ e : Dev, s.dev.LifeMoved e target (rdNat s.dev.mem (cred % 2 ^ 48) 64) seed ∧
      Res.Becomes s e (exec (.lifecycle q target cred len ok seed key) s) := by
  have hacc := s.dev.begun_accepted q k
  have hmem : (s.dev.begin_ q k).1.mem = s.dev.mem := Dev.trace_mem ..
  have hmoved := (((s.dev.begin_ q k).1.accept (s.dev.begin_ q k).2).lifeMoved_moves (s.dev.begin_ q k).2.id target
    (rdNat s.dev.mem (cred % 2 ^ 48) 64) seed).of_replied hacc
  have heff : Dev.lifeEffect target (cred % 2 ^ 48) len seed key (s.dev.begin_ q k).1 (s.dev.begin_ q k).2 =
      (((s.dev.begin_ q k).1.accept (s.dev.begin_ q k).2).lifeMoved (s.dev.begin_ q k).2.id target (rdNat s.dev.mem (cred % 2 ^ 48) 64) seed).finish
        (s.dev.begin_ q k).2.id stDone 0 ((s.dev.begin_ q k).1.plat.keyEntries target key) := by
    rw [Dev.lifeEffect, (s.dev.begin__replied q k).poison, hgood, hmem]
  have hexec := lifecycle_starts hadm hparam htrans ((Dev.lifeOwn_clean hgood).trans (if_pos hpass))
  rw [heff] at hexec
  generalize ((s.dev.begin_ q k).1.accept (s.dev.begin_ q k).2).lifeMoved (s.dev.begin_ q k).2.id target (rdNat s.dev.mem (cred % 2 ^ 48) 64) seed = e
    at hmoved hexec
  exact ⟨e, hmoved, _, hexec, rfl, (Dev.finish_replied ..).trans (Dev.settled_replied _)⟩

end

/-! ## ATTEST (R511, R512) -/

theorem exec_attest (q nonce dest len : Nat) (sig : List Byte) (s : State) : exec (.attest q nonce dest len sig) s = execAttest q nonce dest len sig s := rfl

/-- The fields of ATTEST that its checks find wrong. -/
def Dev.attestParam (d : Dev) (a len : Nat) : Option Nat :=
  firstBadField [((d.unwritable a 5652).isNone, fieldByte [256, 64, 32] 1), (5652 ≤ len, fieldByte [256, 64, 32] 2)]

/-- Its check 7. -/
def Plat.attestOwn (p : Plat) : Option (Nat × Nat × List Nat) := if p.attestReady then none else some (stNoMemory, 0, [])

/-- The report and its signature stand at DEST, and a leaf is spent. -/
def Dev.reported (d : Dev) (a nonce : Nat) (sig : List Byte) : Dev :=
  { d.store a (leBytes 256 (d.plat.report nonce) ++ sig) with plat := d.plat.spendLeaf }

theorem execAttest_eq {sig : List Byte} (h : sig.length = 5396) (q nonce dest len : Nat) (s : State) : execAttest q nonce dest len sig s =
    startCmd s q 0x0B04 [256, 64, 32] [nonce, dest, len] (fun d => { param := d.attestParam (dest % 2 ^ 48) len, own := d.plat.attestOwn })
      (doneAt (fun d => (d.reported (dest % 2 ^ 48) nonce sig).summaryIrq d.plat)) := if_neg (fun hne => hne h)

/-- The messages of a changed fault summary are no part of what replies leave. -/
theorem Dev.summaryIrq_replied (d : Dev) (old : Plat) : d.Replied (d.summaryIrq old) := by
  obtain ⟨l, hirq, -⟩ := d.summaryIrq_eq old
  rw [hirq]
  exact Dev.Replied.of_host rfl fun _ => rfl

section
variable {s : State} {q nonce dest len : Nat} {sig : List Byte} {f : PacketForm} {k : Packet} (hadm : s.Admits (.attest q nonce dest len sig) f k)
include hadm

/-- The signature of an admitted ATTEST has its length. -/
theorem attest_length : sig.length = 5396 := by
  have hdata := hadm.data
  simpa [Instr.carries] using hdata

theorem attest_refuses (hbad : s.dev.attestParam (dest % 2 ^ 48) len ≠ none ∨ s.dev.plat.attestOwn ≠ none) :
    Res.Becomes s s.dev (exec (.attest q nonce dest len sig) s) := by
  have hlen := attest_length hadm
  cases hadm.form
  rw [exec_attest, execAttest_eq hlen]
  exact hadm.toFronts.refusedBy hbad

theorem attest_reports (hparam : s.dev.attestParam (dest % 2 ^ 48) len = none) (hown : s.dev.plat.attestOwn = none) :
    Res.Becomes s (s.dev.reported (dest % 2 ^ 48) nonce sig) (exec (.attest q nonce dest len sig) s) := by
  have hlen := attest_length hadm
  have hbegun := s.dev.begin__replied q k
  cases hadm.form
  rw [exec_attest, execAttest_eq hlen]
  refine hadm.doneBy rfl ⟨hparam, hown, rfl⟩ (.trans ?_ (Dev.summaryIrq_replied _ _))
  rw [Dev.reported, Dev.reported, hbegun.plat]
  exact (hbegun.store _ _).withPlat _

end

section
variable {d : Dev} {a len : Nat}

theorem Dev.attestParam_bad (hbad : d.unwritable a 5652 ≠ none ∨ len < 5652) : d.attestParam a len ≠ none := by
  refine firstBadField_some ?_
  rcases hbad with hroom | hlen
  · exact ⟨_, .head _, by simpa [Option.isSome_iff_ne_none] using hroom⟩
  · exact ⟨_, .tail _ (.head _), decide_eq_false (by omega)⟩

theorem Dev.attestParam_none (hroom : d.unwritable a 5652 = none) (hlen : 5652 ≤ len) : d.attestParam a len = none := by
  refine firstBadField_none ?_
  simp [hroom, hlen]

end

/-! ## The TAP (R510) -/

theorem jtagInstruction_idcode (s : State) : exec (.jtagInstruction 0) s = .next { s with dev := { s.dev with
    plat := { s.dev.plat with jtagOut := 0x14800A1D, jtagBypass := false } } } := rfl

theorem jtagInstruction_bypass (s : State) {ir : Nat} (hid : ir ≠ 0) (hby : ir = 1 ∨ (s.dev.plat.lcWord ≠ 0 ∧ s.dev.plat.lcWord ≠ 4)) :
    exec (.jtagInstruction ir) s = .next { s with dev := { s.dev with plat := { s.dev.plat with jtagOut := 0, jtagBypass := true } } } :=
  (if_neg hid).trans (if_neg fun ⟨hother, hopen⟩ => hby.elim hother fun ⟨hblank, hdebug⟩ => hopen.elim hblank hdebug)

theorem jtagInstruction_scan (s : State) {ir : Nat} (hid : ir ≠ 0) (hby : ir ≠ 1) (hopen : s.dev.plat.lcWord = 0 ∨ s.dev.plat.lcWord = 4) :
    exec (.jtagInstruction ir) s = .refused (.jtagScan ir) := (if_neg hid).trans (if_pos ⟨hby, hopen⟩)

/-! ## O60 -/

/-- A credential that fails a part of R507 does not pass. -/
theorem Plat.credPasses_false {p : Plat} {target hdr : Nat} {ok : Bool}
    (h : p.credFits target hdr = false ∨ (signerCount (p.signers target) ≠ 0 ∧ ok = false)) : p.credPasses target hdr ok = false := by
  rw [Plat.credPasses]
  rcases h with hfit | ⟨hsigned, hok⟩
  · rw [hfit, Bool.false_and]
  · simp [hsigned, hok]

theorem Plat.credPasses_true {p : Plat} {target hdr : Nat} {ok : Bool} (hfit : p.credFits target hdr = true)
    (hsigned : signerCount (p.signers target) = 0 ∨ ok = true) : p.credPasses target hdr ok = true := by
  rw [Plat.credPasses, hfit]
  simpa using hsigned

/-- Settles O60: LIFECYCLE by its checks and by what a transition leaves, ATTEST by its checks, the TAP by its branches. -/
theorem lifeCycleAndAttestationAct : Obligations.LifeCycleAndAttestationAct := by
  rintro s d p rfl rfl
  refine ⟨?_, ?_, jtagInstruction_idcode s, fun ir => jtagInstruction_bypass s, fun ir => jtagInstruction_scan s⟩
  · rintro q f k target cred len ok seed key a hdr hadm - rfl hhdr htarget hread hlen
    rw [hhdr] at hlen
    have hparam := Dev.lifeParam_none htarget hread hlen
    refine ⟨fun hdenied => lifecycle_refuses hadm (.inl hdenied), lifecycle_parity hadm hparam, fun htrans hgood => ⟨fun hfail => ?_, fun hfit hsigned => ?_⟩⟩
    · refine lifecycle_refuses hadm (.inr ?_)
      rw [hhdr] at hfail
      rw [Dev.lifeOwn_clean hgood, Plat.credPasses_false hfail]
      exact Option.some_ne_none _
    · rw [hhdr] at hfit
      obtain ⟨e, hmoved, t, hexec, hpending, hrep⟩ := lifecycle_moves hadm hparam htrans hgood (Plat.credPasses_true hfit hsigned)
      obtain ⟨-, -, hfloor, hword⟩ := s.dev.plat.lcBurn_keeps target (rdNat s.dev.mem (cred % 2 ^ 48) 64) seed
      have hplat := hrep.plat.trans hmoved.plat
      refine ⟨t, hexec, hpending, ?_, hrep.planUsed.trans hmoved.planUsed, hrep.cores.trans hmoved.cores, ?_, fun b hb hfree => ?_, fun hne => ?_, ?_, ?_, ?_, ?_⟩
      · rw [hplat]
        exact hword
      · rw [hplat]
        exact hfloor
      · exact (hrep.mem b fun j hj => hfree j ((Queue.replyByte_congr (hmoved.setup j) j b).1 hj)).trans (hmoved.mem b hb)
      · obtain ⟨hcount, hstep, -⟩ := s.dev.plat.lcBurn_step_of_ne (rdNat s.dev.mem (cred % 2 ^ 48) 64) seed hne
        rw [hplat]
        exact ⟨hcount, hstep⟩
      · rintro rfl
        rw [hplat]
        exact s.dev.plat.lcBurn_retired (rdNat s.dev.mem (cred % 2 ^ 48) 64) seed
      · intro hdebug
        rw [hplat]
        exact (s.dev.plat.lcBurn_step_of_ne _ seed (by omega)).2.2 hdebug
      · intro hphase
        rw [hplat]
        exact if_neg hphase
      · intro hphase
        rw [hplat]
        exact if_pos hphase
  · rintro q f k nonce dest len sig a hadm - rfl
    refine ⟨fun hbad => attest_refuses hadm ?_, fun hroom hlen hready => attest_reports hadm (Dev.attestParam_none hroom hlen) (if_pos hready)⟩
    rcases hbad with hroom | hlen | hready
    · exact .inl (Dev.attestParam_bad (.inl hroom))
    · exact .inl (Dev.attestParam_bad (.inr hlen))
    · refine .inr ?_
      rw [Plat.attestOwn, hready]
      exact Option.some_ne_none _

end Sys2Proof.Machine
end
